-- ==== Sys2Proof/Word.lean ====
section
/-! DEFINITION. The word types of the Narvor Tvedzipel: 32-bit registers (R9), bytes, 64-bit
quantities (R10) and 16-bit error codes (R15). Nothing here interprets a field. -/

namespace Sys2Proof

/-- A byte of memory. -/
abbrev Byte := BitVec 8

/-- A 32-bit register or descriptor word (R9). -/
abbrev W32 := BitVec 32

/-- A 64-bit quantity: a control-core register (R155) or the elapsed counter (R61). -/
abbrev W64 := BitVec 64

/-- A 16-bit error code: class in bits [15:8], code in the class in bits [7:0] (R15). -/
abbrev Code := BitVec 16

/-- A general register number of the control core, g0 to g31 (R155). -/
abbrev Reg := Fin 32

end Sys2Proof
end

