-- ==== Sys2Proof/Syntax.lean ====
section
/-! DEFINITION. The commands of the block: one constructor per row of spec/opcode_table.json, with
the operands that name the unit it happens in and what the outside world supplies. -/

namespace Sys2Proof

/-- Who reaches a register: the host through an LD page, the management controller, a cluster's
control core, or the I3C target (R10). -/
inductive Agent where
  | host (ld : Nat)
  | mc
  | clu (n : Nat)
  | i3c
  deriving DecidableEq, Repr

/-- Which register page an access names: the page of an LD (R439, R443) or the 16 KiB block of a
device cluster (R174, R443). -/
inductive RegPage where
  | ld (n : Nat)
  | clu (n : Nat)
  deriving DecidableEq, Repr

/-- What a register read asks for: a byte offset of the page and a number of bytes (R174, R440). -/
structure RegSpan where
  off   : Nat
  bytes : Nat
  deriving DecidableEq, Repr

/-- Who issued a command body, and so who receives its code: a host command queue (R449, R454), an
entry of a cluster's KV or collective ring (R233, R330), the request engine for a slot (R233), the
Silmuvin message PAGE_SET of an LD (R472), or another engine of the device for an LD (R330). -/
inductive Issuer where
  | queue (ld q : Nat) (cmdTag : BitVec 16) (pos : W32)
  | kvRing (clu : Nat) (count : Nat)
  | colRing (clu : Nat) (count : Nat)
  | req (slot : Nat)
  | msg (ld : Nat)
  | engine (ld : Nat)
  deriving DecidableEq, Repr

/-- A system register of the control core reached by MFS and MTS (R155). -/
inductive SysReg where
  | status | epc | estatus | fpc | fstatus | vecExc | vecNormal | vecFast
  deriving DecidableEq, Repr

/-- The access size of a control-core load or store: 1, 2, 4 or 8 bytes (R157). -/
inductive Size where
  | b1 | b2 | b4 | b8
  deriving DecidableEq, Repr

/-- An interrupt controller: of a device cluster or of an LD (R175). -/
inductive IcuId where
  | clu (n : Nat)
  | ld (n : Nat)
  deriving DecidableEq, Repr

/-- The two rings that a cluster program writes: KV (R233) and collective (R330). -/
inductive RingKind where
  | kv | col
  deriving DecidableEq, Repr

/-- A memory unit of the error registers (R213). -/
inductive MemUnit where
  | stack (n : Nat)
  | channel (n : Nat)
  | dieSram (n : Nat)
  | iodSram (n : Nat)
  deriving DecidableEq, Repr

/-- What the March C− test of one SRAM array found beside the spares of the fuse map: the rows and columns in fault
(R203). -/
structure ArrayFaults where
  array : Nat
  rows  : List Nat
  cols  : List Nat
  deriving DecidableEq, Repr

/-- What a checker's decoder says of a codeword (R192, R195, R210). -/
inductive CheckOutcome where
  | clean
  | corrected (symbols : List Nat)
  | uncorrectable
  | poisoned
  deriving DecidableEq, Repr

/-- A vector of a checker test that did not end as it should: its place in the table of R210, what the decoder said, and
whether it returned the original data. -/
structure CheckResult where
  vector  : Nat
  outcome : CheckOutcome
  data    : Bool
  deriving DecidableEq, Repr

/-- The self-test of an SRAM unit: its arrays in fault, and the deviations of its checker (R203, R210). -/
structure SramTest where
  arrays  : List ArrayFaults
  checker : List CheckResult
  deriving DecidableEq, Repr

/-- The training and self-test of a stack or a package: the failed pins in the order of the test, by pseudo-channel (0 for
a package) and symbol, the redundant lanes there are, and the deviations of its checker (R204, R210). -/
structure DramTest where
  pins    : List (Nat × Nat)
  lanes   : Nat
  checker : List CheckResult
  deriving DecidableEq, Repr

/-- One packet of the fabric: the header of R305 and its data slots. -/
structure Packet where
  dstDid : BitVec 14
  srcDid : BitVec 14
  cls    : BitVec 2
  kind   : BitVec 6
  units  : Nat
  tag    : BitVec 16
  addr   : BitVec 44
  hops   : BitVec 4
  code   : Code
  poison : BitVec 128
  data   : List Byte
  deriving DecidableEq, Repr

/-- What a port learns in training (R301, R302): the far end's exchange values, the lanes found
shorted, whether transmitters face each other, and the outcome of the idle-flit check at the full
and at the half rate. -/
structure TrainInfo where
  farDid    : BitVec 14
  farInc    : W32
  farClass  : Nat
  farLocked : BitVec 4
  shorted   : BitVec 4
  txFaces   : Bool
  idleOk    : Bool
  deriving DecidableEq, Repr

/-- A chunk of a collective with its trailer (R360): the data bytes, the anchor, the predicted
anchor of the header (R351), the weight, the digest, the CRC, and the contributor whose input was
poisoned (R362). A result carries the anchor of its sum and, in `pred`, the true anchor. -/
structure ChunkMsg where
  data     : List Byte
  anchor   : Byte
  pred     : Byte
  weight   : Nat
  digest   : W32
  crc      : W32
  poisoned : Option Nat
  deriving DecidableEq, Repr

/-- Who sends a packet of a collective: its rank, and the digest that the packet carries (R336). -/
structure Sender where
  rank   : Nat
  digest : W32
  deriving DecidableEq, Repr

/-- The head of a fence or an abort notice: the collective, and who sends it (R336, R345, R357). -/
structure CollHead where
  id     : BitVec 20
  sender : Sender
  deriving DecidableEq, Repr

/-- A block read from another partition (R376): its record before the read, the bytes, and its
record after the read. -/
structure RemoteBlock where
  recBefore : List Byte
  data      : List Byte
  recAfter  : List Byte
  deriving DecidableEq, Repr

/-- The setting of one die that the power controller chose at a sample (R49, R52): core voltage in
mV and pacing value. -/
structure DiePlan where
  vcore  : Nat
  pacing : Nat
  deriving DecidableEq, Repr

/-- How the xSPI line test and the SFDP read ended (R493, R505): 0 present, 1 no answer, 2 a line
fault, 3 SFDP signature or density. -/
abbrev NvmProbe := Fin 4

/-- The reference clock inputs (R540). -/
inductive RefClock where
  | cxl | cassum
  deriving DecidableEq, Repr

/-- What a reset or a disable covers (R507, R512). -/
inductive Scope where
  | device
  | ld (n : Nat)
  | queue (ld q : Nat)
  | domain (d : Nat)
  | port (p : Nat)
  deriving DecidableEq, Repr

/-- The end of a reset's zeroising: what it covered, and for an LD the tests of its LPDDR5X channels that are not passed
without finding (R210, R509). -/
structure ZeroiseEnd where
  sc    : Scope
  chans : List (Nat × DramTest)
  deriving DecidableEq, Repr

/-- The commands of the block. Each constructor is one row of spec/opcode_table.json. A command
that writes a register carries the agent, the LD whose page it addresses and the word written; a
command body carries its issuer and its 32-bit words; an event names the unit it happens in and
carries what that unit observes. -/
inductive Instr where
  -- registers, time and power
  | registerWrite (ag : Agent) (page : RegPage) (off bytes : Nat) (v : W32)
  | loReadLatch (ag : Agent) (page : RegPage) (rd : RegSpan)
  | ldErrClear (ag : Agent) (ld : Nat) (v : W32)
  | elapsedTick (upsets : List (Nat × List Nat))
  | powerSample (draw : Nat) (tj : List Nat) (plan : List DiePlan)
  | pwrLimitWrite (ag : Agent) (ld : Nat) (v : W32)
  | slackTrip (die clu : Nat)
  | dieCalibration (die : Nat) (hbm0 hbm1 : DramTest) (free0 free1 lowest : Nat)
  | rmaxClear (ag : Agent) (clu : Nat) (v : W32)
  -- control core: integer
  | add (clu : Nat) (d a b : Reg)
  | sub (clu : Nat) (d a b : Reg)
  | and (clu : Nat) (d a b : Reg)
  | or (clu : Nat) (d a b : Reg)
  | xor (clu : Nat) (d a b : Reg)
  | shl (clu : Nat) (d a b : Reg)
  | shr (clu : Nat) (d a b : Reg)
  | sar (clu : Nat) (d a b : Reg)
  | slt (clu : Nat) (d a b : Reg)
  | sltu (clu : Nat) (d a b : Reg)
  | addi (clu : Nat) (d a : Reg) (imm : W64)
  | lui (clu : Nat) (d : Reg) (imm : W64)
  | mul (clu : Nat) (d a b : Reg)
  | mulh (clu : Nat) (d a b : Reg)
  | divu (clu : Nat) (d a b : Reg)
  | remu (clu : Nat) (d a b : Reg)
  -- control core: branches
  | beq (clu : Nat) (a b : Reg) (target : BitVec 16)
  | bne (clu : Nat) (a b : Reg) (target : BitVec 16)
  | blt (clu : Nat) (a b : Reg) (target : BitVec 16)
  | bge (clu : Nat) (a b : Reg) (target : BitVec 16)
  | jal (clu : Nat) (d : Reg) (target : BitVec 16)
  | jalr (clu : Nat) (d a : Reg) (imm : W64)
  -- control core: memory and registers
  | ld (clu : Nat) (sz : Size) (d a : Reg)
  | st (clu : Nat) (sz : Size) (src a : Reg)
  | mfs (clu : Nat) (d : Reg) (sr : SysReg)
  | mts (clu : Nat) (sr : SysReg) (a : Reg)
  | csrr (clu : Nat) (d : Reg) (off : BitVec 14)
  | csrw (clu : Nat) (off : BitVec 14) (a : Reg)
  -- control core: issue, mover, DMA, ordering, yield
  | issueM (clu : Nat) (d a b : Reg)
  | issueV (clu : Nat) (d a b : Reg)
  | tagr (clu : Nat) (d a : Reg)
  | ocld (clu : Nat) (d a b c : Reg)
  | ocst (clu : Nat) (d a b c : Reg)
  | oclt (clu : Nat) (d a b c : Reg)
  | ocz (clu : Nat) (d a b c : Reg)
  | csz (clu : Nat) (d a b : Reg)
  | moverCommandFinish (clu : Nat)
  | dmap (clu : Nat) (d a : Reg)
  | dmaw (clu : Nat) (a : Reg)
  | dmaDescriptorStart (clu : Nat)
  | dmaDescriptorFinish (clu : Nat) (idx : Nat)
  | fence (clu : Nat) (k : BitVec 5) (a : Reg)
  | yield (clu : Nat) (d : Reg)
  | yieldStop (clu : Nat)
  | handOver (clu : Nat)
  | elap (clu : Nat) (d : Reg)
  | iret (clu : Nat)
  | halt (clu : Nat)
  | undefinedInstruction (clu : Nat)
  -- cores
  | matrixOpStart (clu core : Nat)
  | matrixOpEnd (clu core : Nat)
  | vectorOpStart (clu core : Nat)
  | vectorOpEnd (clu core : Nat)
  -- interrupt controllers
  | icuWin (icu : IcuId)
  | handlerEntry (icu : IcuId)
  | msixPost (ld : Nat)
  | icuEoi (ag : Agent) (icu : IcuId) (v : W32)
  -- memory protection
  | scrubStep (u : MemUnit) (addr : Nat)
  | softRepairStart (u : MemUnit)
  | softRepairComplete (u : MemUnit) (granted : Bool)
  | memRepairQueue (ag : Agent) (ld : Nat)
  | memRepairCommit (ag : Agent) (ld : Nat)
  | repairCommitComplete (u : MemUnit) (exhausted : Option Nat)
  | eccSelWrite (ag : Agent) (ld : Nat) (v : W32)
  | eccClear (ag : Agent) (ld : Nat) (v : W32)
  -- KV pages and score units
  | alloc (iss : Issuer) (die : Nat) (body : List W32)
  | free (iss : Issuer) (die : Nat) (body : List W32)
  | append (iss : Issuer) (die : Nat) (body : List W32)
  | trim (iss : Issuer) (die : Nat) (body : List W32)
  | keep (iss : Issuer) (die : Nat) (body : List W32)
  | move (iss : Issuer) (die : Nat) (body : List W32)
  | pin (iss : Issuer) (die : Nat) (body : List W32)
  | retire (iss : Issuer) (die : Nat) (body : List W32)
  | gather (iss : Issuer) (die : Nat) (body : List W32)
  | send (iss : Issuer) (die : Nat) (body : List W32)
  | scoreCommand (iss : Issuer) (body : List W32)
  | scoreComplete (stack : Nat)
  | kvZeroFillComplete (handle : Nat)
  | kvMoveCopyComplete (handle : Nat)
  | demotionSweep (stack : Nat)
  | promotion (handle : Nat)
  | handoffPageCheck (ref : W32) (src : BitVec 14) (count : Nat) (layout : W32) (crc : W32)
  | clusterRingTail (clu : Nat) (kind : RingKind) (tail : W32)
  | kvmRegionWrite (ag : Agent) (ld : Nat) (lp : Bool) (n : Nat) (v : W32)
  -- requests, adapters, swap wave
  | submit (iss : Issuer) (body : List W32)
  | cancel (iss : Issuer) (body : List W32)
  | adpLoad (iss : Issuer) (body : List W32)
  | adpLoadComplete (slot : Nat)
  | adpDrop (iss : Issuer) (body : List W32)
  | adapterZeroFillComplete (slot : Nat)
  | swap (iss : Issuer) (body : List W32)
  | waveNotice (ld : Nat) (src : BitVec 14) (gen : BitVec 16) (nold : W32) (crc : W32)
  | layerSwapBegin (ld : Nat) (layer : Nat)
  | layerSwapComplete (ld : Nat) (layer : Nat)
  | waveMemberReport (ld : Nat) (did : BitVec 14)
  | tokenStepBegin (slot : Nat)
  | kvWaitRetry (slot : Nat)
  | treeIndexWaitEnd (slot : Nat)
  | sampleVector (slot : Nat)
  | tokenStepEnd (slot : Nat)
  -- fabric
  | portEnable (ag : Agent) (ld port : Nat) (v : W32)
  | portDisable (ag : Agent) (ld port : Nat) (v : W32)
  | portRetrain (ag : Agent) (ld port : Nat) (v : W32)
  | portDetectAttempt (port : Nat)
  | laneLock (port lane : Nat) (inverted : Bool) (marker : Nat)
  | portTrainingEnd (port : Nat) (info : TrainInfo)
  | laneFailActive (port lane : Nat)
  | flitReceive (port : Nat) (flit : List Byte) (fixed : Bool)
  | linkSilenceTimeout (port : Nat)
  | leaveNotice (port : Nat) (did : BitVec 14)
  | lossNotice (port : Nat) (did : BitVec 14) (inc : W32)
  | foundNotice (port : Nat) (did : BitVec 14) (inc : W32)
  | packetReceive (port : Nat) (pkt : Packet)
  | fabResponseTimeout (ld : Nat) (tag : BitVec 16)
  | routeEntryWrite (ag : Agent) (ld : Nat) (v : W32)
  | graftSelfWrite (ag : Agent) (ld n : Nat) (v : W32)
  | graftEntryWrite (ag : Agent) (ld n : Nat) (v : W32)
  -- collectives
  | allReduce (iss : Issuer) (body : List W32)
  | reduce (iss : Issuer) (body : List W32)
  | reduceScatter (iss : Issuer) (body : List W32)
  | allGather (iss : Issuer) (body : List W32)
  | broadcast (iss : Issuer) (body : List W32)
  | allToAll (iss : Issuer) (body : List W32)
  | combine (iss : Issuer) (body : List W32)
  | barrier (iss : Issuer) (body : List W32)
  | rakeReservationGrant (ld : Nat) (coll : BitVec 20)
  | rakeGrant (ld : Nat) (coll : BitVec 20) (chunk : Nat) (sender : Sender)
  | anchorArrive (ld : Nat) (coll : BitVec 20) (rank group : Nat) (anchors : List Byte) (digest : W32)
  | contributionArrive (ld : Nat) (coll : BitVec 20) (chunk rank : Nat) (msg : ChunkMsg)
  | resultChunkArrive (ld : Nat) (coll : BitVec 20) (chunk rank : Nat) (msg : ChunkMsg)
  | chunkAck (ld : Nat) (coll : BitVec 20) (chunk : Nat) (sender : Sender)
  | completionFence (ld : Nat) (coll : CollHead)
  | rakeSlotZeroFillComplete (iod : Nat) (ld : Nat) (coll : BitVec 20)
  | collWatchdog (ld : Nat) (coll : BitVec 20)
  | abortNotice (ld : Nat) (coll : CollHead) (code : Code) (who : Nat) (chunk : W32)
  | colAbort (ag : Agent) (ld : Nat) (v : W32)
  -- weights and optimiser state
  | update (iss : Issuer) (body : List W32)
  | updateEngineStart (die : Nat)
  | fetch (iss : Issuer) (body : List W32)
  | fetchPoll (die : Nat) (record : List Byte)
  | fetchWatchdog (die : Nat)
  | fpcheck (iss : Issuer) (body : List W32)
  | dfsApply (iss : Issuer) (body : List W32)
  | phase (iss : Issuer) (body : List W32)
  | updAbort (ag : Agent) (ld : Nat) (v : W32)
  | dfsEnable (ag : Agent) (ld : Nat) (v : W32)
  | dfsRingWaitEnd (ld target : Nat) (cons : W64)
  | dfsTargetWatchdog (ld target : Nat)
  | updateEnginePhaseEnd (die : Nat) (remote : Option RemoteBlock)
  | ccLaunch (iss : Issuer) (body : List W32)
  | ccStart (ld clu : Nat)
  | ccYieldTimeout (ld clu : Nat)
  -- trellises and turns
  | trlLoad (iss : Issuer) (body : List W32)
  | turn (iss : Issuer) (body : List W32)
  | xplPlan (iss : Issuer) (body : List W32)
  | roundBegin (ld : Nat)
  | roundMoveEnd (ld src : Nat) (stale : List Bool) (digest : W32)
  | readyReceive (ld rank round : Nat) (digest : W32)
  | commitReceive (ld round : Nat) (digest : W32)
  | abortReceive (ld round : Nat) (code : Code) (who : Nat) (digest : W32)
  | roundWatchdog (ld : Nat)
  | roundStateReport (ld rank round : Nat) (committed : Bool) (digest : W32)
  | xplAbort (ag : Agent) (ld : Nat) (v : W32)
  -- host queues, mailboxes, CXL
  | cqEnable (ag : Agent) (ld q : Nat) (v : W32)
  | cqDisable (ag : Agent) (ld q : Nat) (v : W32)
  | cqTailWrite (ag : Agent) (ld q : Nat) (v : W32)
  | cqCplHeadWrite (ag : Agent) (ld q : Nat) (v : W32)
  | commandFetch (ld q : Nat)
  | queueDrainEnd (ld q : Nat)
  | reqCplEnable (ag : Agent) (ld : Nat) (v : W32)
  | launch (iss : Issuer) (body : List W32)
  | mbxSend (ag : Agent) (ld m : Nat) (v : W32)
  | mbxRelease (ag : Agent) (ld m : Nat) (v : W32)
  | mailboxServe (ld m : Nat)
  | cxlMemRead (ld hdm off : Nat) (cacheable : Bool)
  | cxlMemWrite (ld hdm off : Nat) (data : List Byte) (poison : Bool)
  | hostSnoop (addr : Nat)
  | backInvalidateResponse (addr : Nat)
  -- tenants and security
  | sessionExchange (ld : Nat) (ciphertext nonce : List Byte)
  | domOpen (iss : Issuer) (body : List W32)
  | domClose (iss : Issuer) (body : List W32)
  | domCloseComplete (dom : Nat)
  | domQuota (iss : Issuer) (body : List W32)
  | pageSet (iss : Issuer) (body : List W32)
  | pageSetMsg (ld : Nat)
  | pageZeroFillComplete (frame : Nat)
  | pubKey (iss : Issuer) (body : List W32)
  | dfsKey (iss : Issuer) (body : List W32)
  | weightImport (iss : Issuer) (body : List W32)
  | weightImportComplete (ld : Nat)
  | attest (iss : Issuer) (body : List W32)
  | l2TreeCertify
  | minverRaise (iss : Issuer) (body : List W32)
  | ownerXfer (iss : Issuer) (body : List W32)
  -- NVM messages
  | nvmInfo
  | nvmErase
  | nvmWrite
  | nvmRead
  | nvmVerify
  | startClear
  -- start, reset, disable
  | powerOn (straps : BitVec 3) (vin : Nat)
  | romStage (probe : NvmProbe) (sramOk : Bool)
  | silmuvinStage (iod0 iod1 : SramTest) (lp : List (Nat × DramTest)) (lpFree : List Nat)
  | dieJoin (die : Nat) (sram : SramTest)
  | dieBootCodeTimeout (die : Nat)
  | startLimitExpiry
  | deviceReset (ag : Agent) (ld : Nat) (v : W32)
  | ldReset (ag : Agent) (ld : Nat) (v : W32)
  | ldDisable (ag : Agent) (ld : Nat) (v : W32)
  | ldReenable (ag : Agent) (ld : Nat) (v : W32)
  | cxlLdReset (ld : Nat)
  | cxlConventionalReset
  | resetZeroiseComplete (e : ZeroiseEnd)
  | drainLimitExpiry (sc : Scope)
  | drainComplete (sc : Scope)
  -- module, pins, sideband
  | resetNAssert (ns : Nat)
  | resetNDeassert
  | powerLoss
  | overVoltage
  | overVoltageRecovery (vin : Nat)
  | vinOutOfBand (vin : Nat)
  | railOutOfRegulation
  | clockFault (c : RefClock)
  | thermAssert (tj plate : Nat)
  | thermRelease (tj plate : Nat)
  | thermalTrip (tj plate : Nat)
  | coolantAlarm (inlet outlet : Nat)
  | sidebandFault (pin : Nat)
  | vauxCurrentLimit
  | healthTestChange (failing : Bool)
  | i3cRegisterWrite (idx : Byte) (data : List Byte)
  | pwrBcLimitWrite (v : W32)
  | pwrBcErrClear (v : W32)
  | entdaa (addr : BitVec 7)
  | setdasa (addr : BitVec 7)
  | rstdaa
  | enec (events : Byte)
  | disec (events : Byte)
  | getpid
  | getbcr
  | getdcr
  | getstatus
  | getmxds
  -- engine completions
  | kvCommandComplete (die idx : Nat)
  deriving DecidableEq, Repr

end Sys2Proof
end

