-- ==== Sys2Proof/Config.lean ====
section
/-! DEFINITION. What an implementation fixes and the spec leaves open: free values, the identity data
that manufacture puts into the secure storage element, and the cryptographic functions that the spec
names by their standards. None has a body that a proof can use; see notes/assumptions. -/

namespace Sys2Proof.Config

/-- A fresh unconstrained number for each index; `Dev.free` counts the indices used. -/
opaque freeNat : Nat → Nat

/-- The DRAM row that holds a byte of a memory unit: the mapping to banks and rows is internal to the controller (R185,
R186). Arguments: a number of the unit, the pseudo-channel, and the byte address within it (for a channel, 0 and the
offset in its window). -/
opaque rowOf : (unit pch addr : Nat) → Nat

/-- AES-256-XTS of one 128-byte data unit under a key and a 16-byte tweak, and its inverse (R189). -/
opaque xtsEnc : (key tweak data : List Byte) → List Byte
opaque xtsDec : (key tweak data : List Byte) → List Byte

/-- The memory key that a key-store slot receives at a start or at the reset of its LD: the number drawn from the
random-bit generator then, and the slot (R469, R508). -/
opaque startKey : (drawn slot : Nat) → List Byte

/-- The parity bytes of a flit, by its first 264 bytes: the spec gives the RS(136,132) code without its field polynomial and
generator (R297). -/
opaque flitParity : List Byte → List Byte

/-- The data slots of messages whose contents no chapter lays down to the bit, one value for each slot that a port sends
(R305). -/
opaque messageSlot : (port count : Nat) → Nat

/-- The module revision, `rev` of `PWR_BC_ID` (R550). -/
opaque moduleRev : Nat

/-- What the target answers to GETPID, GETBCR, GETDCR and GETMXDS: the rules name the commands, not the bytes (R548). -/
opaque i3cPid : List Byte
opaque i3cBcr : Byte
opaque i3cDcr : Byte
opaque i3cMaxSpeed : List Byte

/-- Identity data of the secure storage element (R474, R480, R485). -/
opaque ownerKey : List Byte
opaque devCert : List Byte
opaque devSeed : List Byte

/-- The configuration NVM that the integrator mounts: density in MiB and JEDEC ID (R493, R506). -/
opaque nvmDensityMiB : Nat
opaque nvmJedec : W32

/-- SHA-256 of a byte string (R477, R487). -/
opaque sha256 : List Byte → List Byte

/-- HMAC-SHA-256 of a message under a key (R395, R484). -/
opaque hmac : (key msg : List Byte) → List Byte

/-- HKDF of R476: secret, nonce, length. -/
opaque hkdf : (secret info : List Byte) → Nat → List Byte

/-- HSS/LMS verification: public key, message, signature (R479). -/
opaque hssVerify : (pub msg sig : List Byte) → Bool

/-- HSS/LMS signature with a seed's key and a leaf (R485, R488). -/
opaque hssSign : (seed : List Byte) → (leaf : Nat) → (msg : List Byte) → List Byte

/-- The public key of a seed (R485). -/
opaque hssPublic : (seed : List Byte) → List Byte

/-- ML-KEM-1024: key pair from 64 bytes of seed and the shared secret of a ciphertext (R475, R476). -/
opaque kemPublic : (seed : List Byte) → List Byte
opaque kemDecap : (seed ct : List Byte) → List Byte

/-- AES-256-GCM decryption under a key and nonce: none when the tag fails (R476, R482). -/
opaque gcmOpen : (key nonce aad ct : List Byte) → Option (List Byte)
opaque gcmSeal : (key nonce aad pt : List Byte) → List Byte

/-- Unwrap of an AES key wrap: none when the check fails (R481). -/
opaque keyUnwrap : (kek wrapped : List Byte) → Option (List Byte)

/-- The Mladit root public key in the ROM of I/O die 0 (R474). -/
opaque mladitRoot : List Byte

/-- The element format, head dimension and positions of the pages that a trellis lays out: no field of the
trellis states them (R225, R264). Arguments: the digest, and 0, 1 or 2 for `kv_fmt`, `hd`, `ppos`. -/
opaque pageShape : W32 → Nat → Nat

/-- The bits of the register above a load of 1, 2 or 4 bytes, by the number of bytes and the value loaded (R157 states
none; R65 makes them a function of the load). -/
opaque loadUpper : Nat → Nat → Nat

/-- The log-probabilities of token index 0 of a `mode` 2 request, which its prefill member had: the words of the request
block, and 0 for the chosen token under the sampling temperature or 1 for the model's own (R65, R275). -/
opaque prefillLp : List W32 → Nat → Nat

/-- What source codes 19 and 20 read in an update's element program (R140, R384). -/
opaque lanePlace : Nat → Nat → W32

end Sys2Proof.Config
end

