-- ==== Sys2Proof/Machine/State.lean ====
section
/-! DEFINITION. The state of the block as plain data: everything the spec gives the machine, the
queue of waiting commands, and `State.reset`. Sparse tables are sorted association lists (`Map`);
an absent key reads as the entry's reset value. -/

namespace Sys2Proof.Machine

/-- A sparse table: pairs with rising keys. -/
abbrev Map (α : Type) := List (Nat × α)

/-- Byte memory: addresses strictly rising, no entry equal to what an unlisted address reads as. -/
abbrev Mem := List Host.Cell

/-! ## Interrupt controllers (R175 to R182) -/

/-- `ICU_SRC_CFG_n` (R182). -/
structure SrcCfg where
  vector : BitVec 11
  target : Bool
  fast   : Bool
  prio   : BitVec 4
  deriving DecidableEq, Repr

/-- An open delivery window: the source, its class and its vector at the win (R177, R181). -/
structure Win where
  src    : Nat
  fast   : Bool
  vector : Nat
  deriving DecidableEq, Repr

/-- One interrupt controller (R176 to R182). `mask` and `insvc` hold one bit per source; `devWin`
and `hostWin` are the open windows towards an on-device target and towards the host. -/
structure Icu where
  enable    : Bool
  fastSrc   : Option Nat
  normalSrc : Option Nat
  soft      : BitVec 8
  mask      : BitVec 1024
  insvc     : BitVec 1024
  cfg       : Map SrcCfg
  devWin    : Option Win
  hostWin   : Option Win
  deriving DecidableEq, Repr

/-! ## Clusters (R104 to R174) -/

/-- A queued matrix operation: the descriptor words of R110 and, with `mask_en`, of R125. -/
structure MxOp where
  words : List W32
  deriving DecidableEq, Repr

/-- A queued vector operation: the 32 words of R135 and the core's copy of the program (R138). -/
structure VecOp where
  words : List W32
  prog  : List W32
  deriving DecidableEq, Repr

/-- One core's queues and progress (R108, R134, R160). The head of a queue runs while its flag is
set. -/
structure Core where
  mq   : List MxOp
  mrun : Bool
  vq   : List VecOp
  vrun : Bool
  mtag : BitVec 16
  vtag : BitVec 16
  mcnt : BitVec 16
  vcnt : BitVec 16
  deriving DecidableEq, Repr

/-- A queued local-mover command (R162, R163). Offsets are within the store or an operand cache;
`cores` is a core mask. -/
inductive MoverCmd where
  | load (store cache len : Nat) (cores : W32)
  | save (store cache len core : Nat)
  | loadT (cache e col line0 lines ncol : Nat) (cores : W32)
  | zeroCache (cache len : Nat) (cores : W32)
  | zeroStore (store len : Nat)
  deriving DecidableEq, Repr

/-- A posted DMA descriptor (R165, R167): its sixteen words, whether it has started, and whether it
has finished while an earlier one has not. -/
structure DmaEntry where
  words    : List W32
  started  : Bool
  finished : Bool
  deriving DecidableEq, Repr

/-- The registers of R155. -/
structure CtlRegs where
  normal    : Vector W64 32
  fast      : Vector W64 32
  pc        : BitVec 16
  status    : W32
  epc       : BitVec 16
  estatus   : W32
  fpc       : BitVec 16
  fstatus   : W32
  vecExc    : BitVec 16
  vecNormal : BitVec 16
  vecFast   : BitVec 16
  deriving DecidableEq, Repr

/-- A running-maximum register (R82). -/
structure Rmax where
  nanSeen : Bool
  maxAbs  : BitVec 31
  deriving DecidableEq, Repr

/-- The CLU_ registers that software can change or read as outcomes (R83, R129, R174). -/
structure CluRegs where
  errCode   : Code
  excCode   : Code
  excCause  : BitVec 8
  excAddr   : W64
  coreFault : W32
  dmaErr    : Bool
  dmaNote   : Bool
  dmaErrTag : BitVec 16
  dmaErrCode : Code
  dmaDone   : W32
  stall     : W32
  rmax      : Vector Rmax 8
  sat       : BitVec 8
  isat      : W32
  deriving DecidableEq, Repr

/-- `CLU_STATUS` state (R174). -/
inductive CluState where
  | idle | running | handingOver | stopped
  deriving DecidableEq, Repr

/-- `CLU_YIELD_REQ` reason (R174). -/
inductive YieldReason where
  | handOver | stop
  deriving DecidableEq, Repr

/-- Which job holds a cluster: a main program of an accepted LAUNCH, with its place in the launch
(R450), the LD's catch-crop job (R451), or the cluster boot code (R501). -/
inductive Occupant where
  | main (job : Nat) (pos : Nat)
  | crop
  | boot
  deriving DecidableEq, Repr

/-- The context that a hand-over saves (R172 step 3): registers, the saved ICU configuration and
the CLU_ registers of the list. -/
structure Context where
  ctl  : CtlRegs
  clu  : CluRegs
  icuEnable : Bool
  icuSoft : BitVec 8
  icuMask : BitVec 1024
  icuCfg : Map SrcCfg
  deriving DecidableEq, Repr

/-- One cluster. `atYield` holds the destination register of a YIELD that waits at its yield point
(R171), `yieldAge` the 10 ns units since a hand-over was asked for (R402); `kvTail` and `colTail` are the last accepted tails of its rings (R234), `kvTaken` and `colTaken` the entries that an engine has taken. -/
structure Cluster where
  st       : CluState
  domain   : BitVec 12
  ctl      : CtlRegs
  clu      : CluRegs
  icu      : Icu
  yieldReq : Option YieldReason
  yieldAge : Nat
  atYield  : Option Reg
  occ      : Option Occupant
  cores    : Map Core
  mover    : List MoverCmd
  dma      : List DmaEntry
  kvTail   : W32
  colTail  : W32
  kvTaken  : W32
  colTaken : W32
  saved    : Option Context
  deriving DecidableEq, Repr

/-! ## Commands in flight -/

/-- What the completion of an accepted command needs (R454): issuer, `op` and the body's tag. -/
structure Ticket where
  iss  : Issuer
  op   : Nat
  btag : BitVec 16
  deriving DecidableEq, Repr

/-- An accepted LAUNCH (R450): clusters still waited for, clusters running, clusters that stopped on a
double fault, a code met while starting, and whether a disable ended it. -/
structure LaunchJob where
  id      : Nat
  tkt     : Ticket
  ld      : Nat
  dom     : Nat
  code    : Nat
  len     : Nat
  arg     : W64
  clu0    : Nat
  waiting : List Nat
  running : List Nat
  faulted : List Nat
  failCode : Code
  aborted : Bool
  deriving DecidableEq, Repr

/-- The LD's catch-crop job (R400, R451). `todo` are clusters on which the program has still to be
started or resumed, `on` those it holds now, `halted` those on which it has ended. -/
structure CropJob where
  tkt    : Ticket
  dom    : Nat
  code   : Nat
  len    : Nat
  save   : Nat
  arg    : W64
  todo   : List Nat
  on     : List Nat
  halted : List Nat
  failCode : Code
  late   : Bool
  aborted : Bool
  deriving DecidableEq, Repr

/-! ## Registers of a logical device -/

/-- What the image and the bring-up give an LD (R36, R37, R39, R326, R365, R490). -/
structure Layout where
  populated : Bool
  ldClass   : BitVec 4
  dieMask   : BitVec 10
  chanMask  : BitVec 24
  portMask  : W32
  quota0    : Nat
  quota1    : Nat
  domBase   : Nat
  domCount  : Nat
  did       : BitVec 14
  ldid      : BitVec 14
  deriving DecidableEq, Repr

/-- `LD_STATUS` state (R517). -/
inductive LdState where
  | disabled | enabled | draining | resetting
  deriving DecidableEq, Repr

/-- `LD_ERR_CODE`, `LD_CTL`, `LD_STATUS`, `LD_CC_CTL`, `LD_CC_STAT` and `BOOT_EVT` of an LD (R409,
R441, R517, R518). -/
structure LdCtl where
  errCode  : Code
  errCount : BitVec 8
  enable   : Bool
  drainUs  : BitVec 16
  st       : LdState
  service  : Nat
  cause    : BitVec 4
  failCode : Code
  yieldUs  : BitVec 16
  late     : Bool
  lateCount : BitVec 16
  bootEvt  : BitVec 4
  crop     : Option CropJob
  deriving DecidableEq, Repr

/-- State of a command queue (R444). -/
inductive CqState where
  | disabled | enabled | draining
  deriving DecidableEq, Repr

/-- The registers of one command queue (R444). -/
structure Cq where
  base    : BitVec 44
  st      : CqState
  domain  : BitVec 12
  log2n   : Nat
  tail    : W32
  head    : W32
  outstanding : Nat
  cbase   : BitVec 52
  log2m   : Nat
  chead   : W32
  prod    : W32
  deriving DecidableEq, Repr

/-- The request completion ring (R455). -/
structure ReqCpl where
  base   : BitVec 52
  enable : Bool
  log2m  : Nat
  head   : W32
  prod   : W32
  deriving DecidableEq, Repr

/-- One mailbox (R456). `sentAt` is the state at which its message arrived: 0 before the ROM stage ended, 1 before
service level 1 of the LD, 2 from level 1 on (R472, R506). -/
structure Mailbox where
  data : Vector W32 15
  full : Bool
  nreg : Nat
  sentAt : Nat
  deriving DecidableEq, Repr

/-- One MSI-X table entry (R439, R461): message address, data and vector mask. -/
structure MsixEntry where
  addr   : W64
  data   : W32
  masked : Bool
  deriving DecidableEq, Repr

/-- Queues, mailboxes and the host's interrupt table of an LD (R444, R455, R456, R461). -/
structure HostIf where
  cqs      : Map Cq
  reqCpl   : ReqCpl
  mbx      : Map Mailbox
  mbxMask  : W32
  mbxEmpty : W32
  msix     : Map MsixEntry
  msixFnMask : Bool
  icu      : Icu
  deriving DecidableEq, Repr

/-- `ECC_SEL` and `ECC_EVT` of an LD (R213, R216). -/
structure EccView where
  kind  : BitVec 3
  index : BitVec 5
  evt   : BitVec 6
  deriving DecidableEq, Repr

/-- KV policy and event registers of an LD (R257 to R259). -/
structure KvmRegs where
  promote  : Bool
  demote   : Bool
  highPct  : BitVec 8
  lowPct   : BitVec 8
  promotes : BitVec 16
  demotes  : BitVec 16
  evt      : BitVec 5
  deriving DecidableEq, Repr

/-- One layer entry of a SWAP list (R289). -/
structure LayerEntry where
  layer : Nat
  src   : Nat
  len   : Nat
  dst   : Nat
  deriving DecidableEq, Repr

/-- The swap wave of an LD (R286 to R291). `oldSet` are the request slots of the old set still in
flight; `layerGen` is the generation each local layer holds. -/
structure Wave where
  gen       : BitVec 16
  newGen    : BitVec 16
  active    : Bool
  stalled   : Bool
  swapHeld  : Bool
  noticed   : Bool
  recompute : Bool
  srcKind   : Bool
  layers    : List LayerEntry
  swapped   : Nat
  copying   : Option Nat
  oldSet    : List Nat
  reports   : List Nat
  layerGen  : Map (BitVec 16)
  tkt       : Option Ticket
  dom       : Nat
  deriving DecidableEq, Repr

/-- A route entry (R326). -/
structure Route where
  valid : Bool
  n     : BitVec 2
  ports : BitVec 20
  deriving DecidableEq, Repr

/-- What a Cassum request serves: the page of a SEND to a remote reference, the reads of a FETCH on a die, or
another write whose failure nobody waits for. -/
inductive FabUse where
  | send (ref : W32)
  | fetch (die : Nat)
  | other
  deriving DecidableEq, Repr

/-- An outstanding Cassum request (R306, R314) with its watchdog, in 10 ns units. -/
structure FabReq where
  tag  : BitVec 16
  dst  : BitVec 14
  age  : Nat
  serves : FabUse
  deriving DecidableEq, Repr

/-- The fabric registers of an LD (R326, R327) and its loss lists (R317 to R319). `forwarded` are the
notices already passed on: DID, incarnation, and whether it was a loss. -/
structure FabRegs where
  rtIdx    : BitVec 14
  routes   : Map Route
  timeout  : BitVec 16
  lostCount : BitVec 16
  lastLost : BitVec 14
  evt      : BitVec 6
  inc      : W32
  lost     : List (Nat × W32)
  forwarded : List (Nat × W32 × Bool)
  reqs     : List FabReq
  nextTag  : BitVec 16
  deriving DecidableEq, Repr

/-- `COL_ERRS` and `COL_EVT` (R365, R367). -/
structure ColRegs where
  rereduce : BitVec 16
  crcRetry : BitVec 16
  evt      : BitVec 5
  deriving DecidableEq, Repr

/-- A difference-stream target (R394, R408). -/
structure DfsTarget where
  enable  : Bool
  kind    : Bool
  did     : BitVec 14
  wdMs    : BitVec 16
  base    : W64
  domain  : BitVec 12
  log2    : Nat
  broken  : Bool
  waiting : Bool
  silent  : Bool
  seq     : W64
  prod    : W64
  cons    : W64
  deriving DecidableEq, Repr

/-- An open phase (R404). -/
structure OpenPhase where
  phase : BitVec 16
  step  : BitVec 40
  start : W64
  ncmd  : W32
  queue : Nat
  dom   : Nat
  deriving DecidableEq, Repr

/-- Update, difference-stream and phase registers of an LD (R405 to R409). -/
structure UpdRegs where
  rollfwd  : BitVec 16
  mism     : BitVec 16
  autoRepair : Bool
  repLimit : BitVec 8
  lastGpi  : BitVec 48
  lastDid  : BitVec 14
  ownerSide : Bool
  evt      : BitVec 7
  dfsSel   : BitVec 3
  dfs      : Map DfsTarget
  phBase   : W64
  phLog2   : Nat
  phHead   : W32
  phTail   : W32
  phDrop   : W32
  phases   : List OpenPhase
  ncmd     : W32
  deriving DecidableEq, Repr

/-- A loaded trellis slot (R410, R417): the image address, or the default image kept by Silmuvin
(R557), and the digest. -/
structure TrlSlot where
  addr   : Nat
  len    : Nat
  image  : Option (List Byte)
  digest : W32
  deriving DecidableEq, Repr

/-- `XPL_STATUS` state and phase (R433). -/
inductive XplState where
  | idle | running | part
  deriving DecidableEq, Repr

inductive XplPhase where
  | none | save | move | ready
  deriving DecidableEq, Repr

/-- A turn (R418 to R429): the command body and the slot it turns from, the coordinator, the members READY, the states
that survivors have reported, whether the coordinator has decided the open round, who has acknowledged the last COMMIT,
and the new records of the open round with their addresses. The saved bytes stand in the staging area. -/
structure Turn where
  st        : XplState
  phase     : XplPhase
  coord     : Nat
  total     : Nat
  committed : Nat
  words     : List W32
  tkt       : Option Ticket
  dom       : Nat
  digest    : W32
  ready     : List Nat
  reports   : List Nat
  acked     : List Nat
  newRecs   : List (Nat × List Byte)
  moved     : Option (Code × Nat)
  inbox     : List (List Byte)
  lastMove  : W64
  deriving DecidableEq, Repr

/-- Trellis and turn registers of an LD (R432 to R434). -/
structure TrlRegs where
  slot0  : Option TrlSlot
  slot1  : Option TrlSlot
  active : Option Bool
  turn   : Turn
  evt    : BitVec 3
  deriving DecidableEq, Repr

/-- Security state of an LD (R474, R476, R490): the selected domain, events, publisher table and
session. -/
structure SecRegs where
  domSel  : BitVec 12
  evt     : BitVec 6
  pubKeys : Map (List Byte)
  session : Option (List Byte)
  deriving DecidableEq, Repr

/-- Everything one logical device holds. -/
structure Ld where
  lay  : Layout
  ctl  : LdCtl
  host : HostIf
  ecc  : EccView
  kvm  : KvmRegs
  reqEvt : BitVec 4
  wave : Wave
  fab  : FabRegs
  col  : ColRegs
  upd  : UpdRegs
  trl  : TrlRegs
  sec  : SecRegs
  deriving DecidableEq, Repr

/-! ## Device-level units -/

/-- A compute die (R39, R46 to R58, R106, R501). `bootLeft` are the clusters whose boot code has not
yet halted with g1 = 0. -/
structure Die where
  joined   : Bool
  absent   : Bool
  booting  : Bool
  bootLeft : List Nat
  bootAt   : W64
  calibrated : Bool
  conservative : Bool
  marginLost : Bool
  pinned   : Bool
  tap      : Nat
  pacing   : Nat
  tj       : Nat
  vcore    : Nat
  trips    : BitVec 16
  fp4fp6   : Bool
  deriving DecidableEq, Repr

/-- Power limits and draw (R50, R55, R56). -/
structure Power where
  hostLimit : BitVec 12
  imgLimit  : BitVec 12
  boostEn   : Bool
  pinBroken : Bool
  draw      : BitVec 12
  pinMv     : Nat
  deriving DecidableEq, Repr

/-- The record registers `ECC_LAST_` (R214, R215). -/
structure EccRec where
  addr   : BitVec 44
  kind   : BitVec 2
  req    : BitVec 4
  symbol : BitVec 7
  pch    : BitVec 5
  ld     : BitVec 4
  deriving DecidableEq, Repr

/-- A symbol that has been corrected at run time (R205): pseudo-channel, symbol, distinct rows. -/
structure LaneHits where
  pch    : Nat
  symbol : Nat
  rows   : List Nat
  deriving DecidableEq, Repr

/-- A row queued for soft repair: its number, the address that is recorded for it, and whether `MEM_REPAIR_CMD` named it
(R206, R207). -/
structure RowRepair where
  row  : Nat
  addr : BitVec 44
  cmd  : Bool
  deriving DecidableEq, Repr

/-- One memory unit (R200 to R214). `scrubbed` is the place of the scrub in its pass; `rows` is the row table of R206, most
recent first; `marked` are erased symbols by pseudo-channel; `queued` and `running` are soft repairs; `soft` are rows
repaired since reset; `spares` and `lanes` are the spare rows and columns that the last self-test assigned and the pins that
it moved to redundant lanes (R203, R204); `report` is the row recorded last, with whether it was repaired (R207, R208). -/
structure Unit where
  inService : Bool
  failed    : Bool
  ce        : W32
  ue        : W32
  odc       : W32
  last      : EccRec
  passes    : BitVec 16
  scrubbed  : Nat
  free      : Nat
  lastCode  : Code
  rows      : List (Nat × Nat)
  marked    : List (Nat × Nat)
  hits      : List LaneHits
  queued    : List RowRepair
  running   : Option RowRepair
  committing : Bool
  soft      : List Nat
  spares    : List ArrayFaults
  lanes     : List (Nat × Nat)
  report    : Option (BitVec 44 × Bool)
  deriving DecidableEq, Repr

/-- Scrub and repair controls of LD 15 (R217). -/
structure MemCtl where
  scrubEn  : Bool
  periodH  : BitVec 8
  ceRepair : BitVec 8
  repairAddr : BitVec 44
  deriving DecidableEq, Repr

/-- A contiguous KV region of a stack or channel (R257). -/
structure Region where
  count : Nat
  base  : Nat
  deriving DecidableEq, Repr

/-- Page state (R227). -/
inductive KvState where
  | free | zeroing | active | inbound | moving | releasing | retired
  deriving DecidableEq, Repr

/-- A page-map entry (R223) with what the engine holds for it: whether the ALLOC was inbound and
from whom, the target frame of a move, the source frames that readers still hold after moves (R231), its
accepted readers, the failed checks of its handoff (R253), and whether it is to be freed once its first zero fill is over. -/
structure KvEntry where
  fill    : BitVec 16
  gen     : BitVec 8
  hot     : Bool
  pin     : Bool
  home    : Bool
  st      : KvState
  domain  : BitVec 12
  frame   : BitVec 22
  inbound : Option (BitVec 14)
  target  : Option (BitVec 22)
  old     : List (BitVec 22)
  readers : Nat
  fails   : Nat
  dropped : Bool
  deriving DecidableEq, Repr

/-- An accepted KV command that has not finished (R236). `handles` are the pages it works on,
`frames` the frames they lay in at acceptance, from which a reader reads (R231), `left` those a MOVE or SEND has still to finish,
`fills` the fills read at acceptance (R232), `remotes`
the references of a SEND at its receiver, and `tries` the resends of the present page (R253). -/
structure KvJob where
  tkt     : Ticket
  ld      : Nat
  dom     : Nat
  op      : Nat
  words   : List W32
  handles : List Nat
  frames  : List (BitVec 22)
  left    : List Nat
  fills   : List Nat
  remotes : List W32
  tries   : Nat
  deriving DecidableEq, Repr

/-- An accepted score command (R244, R245): its words, the pages with the fills read, and the frames they lay in at
acceptance (R231). -/
structure ScoreCmd where
  tkt   : Ticket
  ld    : Nat
  dom   : Nat
  words : List W32
  pages : List (Nat × Nat)
  frames : List (BitVec 22)
  deriving DecidableEq, Repr

/-- State of a request (R262). -/
inductive ReqState where
  | free | queued | running | wait | cancelling | ending
  deriving DecidableEq, Repr

/-- Why a request is in WAIT (R262). -/
inductive WaitWhy where
  | none | kv | tree | barrier
  deriving DecidableEq, Repr

/-- One request slot (R260 to R279). `words` is the copied request block; `pages` the KV references;
`chosen` the tokens the sampler has chosen in the present step with their log-probabilities and
`path` the accepted tree nodes; `stamp` and `layer` are the generation and the next layer of the
step in flight; `oldPages` are the pages that a recomputation replaces (R293), `sendCode` the code of a SEND
that has ended. -/
structure ReqSlot where
  gen     : BitVec 8
  st      : ReqState
  why     : WaitWhy
  ld      : Nat
  dom     : Nat
  words   : List W32
  adapter : Option Nat
  admitted : W64
  ntok    : Nat
  steps   : Nat
  nextIdx : Nat
  lastTok : Nat
  pos     : Nat
  pages   : List W32
  stamp   : Option (BitVec 16)
  layer   : Nat
  chosen  : List (Nat × W32 × W32)
  path    : List Nat
  node    : Nat
  treeLen : Nat
  sampled : Bool
  sending : Bool
  genIdx  : Option Nat
  genLast : BitVec 16
  endTok  : Bool
  penFull : Bool
  cancelLate : Bool
  recomputed : Bool
  endCode : Code
  endStatus : BitVec 8
  oldPages : List W32
  sendCode : Option Code
  layout  : W32
  spans   : List (Nat × Nat × Nat)
  group   : List Nat
  asked   : Nat
  mask    : List W64
  redo    : Bool
  deriving DecidableEq, Repr

/-- State of an adapter slot (R281, R282). -/
inductive AdpState where
  | free | loading | ready | retiring | zeroing
  deriving DecidableEq, Repr

/-- An adapter slot (R281) with the image it loads (R283). -/
structure Adapter where
  name    : W32
  domain  : BitVec 12
  version : BitVec 16
  rank    : BitVec 9
  st      : AdpState
  refs    : Nat
  addr    : BitVec 44
  len     : W32
  ld      : Nat
  src     : BitVec 44
  srcLen  : W32
  tkt     : Option Ticket
  deriving DecidableEq, Repr

/-- What a message to another member says (R273, R279, R286, R287, R317, R330 to R362, R376, R422 to R427). -/
inductive FabMsg where
  | anchors (coll : BitVec 20) (group : Nat) (a : List Byte) (digest : W32)
  | grant (coll : BitVec 20) (chunk : Nat) (digest : W32)
  | contribution (coll : BitVec 20) (chunk : Nat) (m : ChunkMsg)
  | result (coll : BitVec 20) (chunk : Nat) (m : ChunkMsg)
  | again (coll : BitVec 20) (chunk : Nat) (digest : W32)
  | ack (coll : BitVec 20) (chunk : Nat) (digest : W32)
  | poisonNotice (coll : BitVec 20) (chunk : Nat) (digest : W32)
  | fence (coll : BitVec 20) (digest : W32)
  | abort (coll : BitVec 20) (code : Code) (who : Nat) (chunk : W32) (digest : W32)
  | waveNotice (gen : BitVec 16) (nold : W32) (crc : W32)
  | waveBitmap (bytes : List Byte)
  | waveAgain
  | waveDone (gen : BitVec 16)
  | stepStamp (slot : Nat) (gen : BitVec 16)
  | kvAlloc (req : W32) (page : Nat)
  | kvKeep (req : W32) (pos : Nat) (nodes : List Nat)
  | kvPage (ref : W32) (count : Nat) (layout : W32) (bytes : List Byte) (crc : W32)
  | kvAck (ref : W32) (code : Code)
  | fetchRecord (addr : Nat)
  | fetchBlock (addr : Nat)
  | ready (round : Nat) (digest : W32)
  | askAbort (round : Nat) (code : Code) (who : Nat) (digest : W32)
  | commit (round : Nat) (digest : W32)
  | abortRound (round : Nat) (code : Code) (who : Nat) (digest : W32)
  | roundState (round : Nat) (committed : Bool) (digest : W32)
  | dfsRecord (addr : W64) (bytes : List Byte)
  deriving DecidableEq, Repr

/-- What the device puts on its links: register data, CXL.mem data, messages to the host, packets, notices, flits and
exchange values on ports, messages to members with the port and the physical DID to which their packets went, I3C bytes and
in-band interrupts, and event records. -/
inductive Output where
  | regData (ag : Agent) (page : RegPage) (off : Nat) (v : W32)
  | cxlData (ld addr : Nat) (data : List Byte) (poison : Bool)
  | msix (ld vector : Nat) (addr : W64) (data : W32)
  | packet (port : Nat) (p : Packet)
  | leave (port : Nat) (did : BitVec 14)
  | loss (port : Nat) (did : BitVec 14) (inc : W32)
  | found (port : Nat) (did : BitVec 14) (inc : W32)
  | replayFrom (port : Nat) (seq : Nat)
  | member (ld did port : Nat) (phys : BitVec 14) (m : FabMsg)
  | flit (port : Nat) (bytes : List Byte)
  | exchange (port : Nat) (did : BitVec 14) (inc : W32) (cls : Nat) (lanes : BitVec 4)
  | rspIHitI (addr : Nat)
  | backInvalidate (addr : Nat)
  | doe (ld : Nat) (bytes : List Byte)
  | i3c (bytes : List Byte)
  | inBandInterrupt (byte : Byte)
  | slackEvent (die clu : Nat)
  | mcBusError (addr : Nat)
  | doubleFault (clu : Nat)
  deriving DecidableEq, Repr

/-- What waits for an output: packets of one class and half, and what has been sent once the last of them has gone. -/
structure Cargo where
  out     : Output
  packets : List Packet
  deriving DecidableEq, Repr

/-- A flit in the replay buffer of a port: its sequence number, slots, and the credits that it returns (R297, R298). -/
structure SentFlit where
  seq   : BitVec 10
  body  : List Byte
  cls   : Nat
  slots : Nat
  deriving DecidableEq, Repr

/-- Cargo that its source holds until the earlier requests of its flow have ended (R312), or a request that waits for a
free tag (R527): `asks` is then what it serves, with its DID and its message. -/
structure HeldCargo where
  ld    : Nat
  dst   : Nat
  cls   : Nat
  cargo : Cargo
  asks  : Option (Nat × FabUse × FabMsg)
  deriving DecidableEq, Repr

/-- The flows of the partitions as sources: the port that each flow last took, by LD, DID and class, and what is held (R312). -/
structure Net where
  paths : Map Nat
  held  : List HeldCargo
  deriving DecidableEq, Repr

/-- Port state (R299). -/
inductive PortState where
  | off | detect | train | active | fault
  deriving DecidableEq, Repr

/-- One Cassum port (R296 to R325). `locked` are the receive lanes of the present
training, `order` the marker lane numbers, `excluded` the lanes left out until `retrain`; `tried` tells
that a training attempt has ended (R502), `fallback` that training repeats at 106.25 Gb/s (R301), and `used` are the lanes that an
ACTIVE port runs on (R303). `rxSeq`, `bad`, `naking` and `acked` are the receiver's link layer of R298; `txSeq`, `nakDue`, `unacked`
(the replay buffer), `txSlots` (packet slots that no flit has taken yet) and `txCount` (their number since training) the
sender's. `credits` are the sender's credits of each class and half, `share` what each class has sent and `passed` the packets that
have gone before it (R307, R308), `queue` what waits for them, and `owed` the slots to return for each class. -/
structure Port where
  st       : PortState
  enable   : Bool
  draining : Bool
  halfOk   : Bool
  nbrDid   : BitVec 14
  nbrInc   : W32
  nbrClass : Nat
  reason   : BitVec 3
  lanesGood : BitVec 4
  pol      : BitVec 4
  reversed : Bool
  rate     : Bool
  width    : BitVec 2
  replays  : BitVec 16
  fecFix   : BitVec 16
  locked   : BitVec 4
  order    : Map Nat
  excluded : BitVec 4
  attempted : Bool
  tried    : Bool
  acked    : BitVec 10
  rxSeq    : BitVec 10
  bad      : Nat
  naking   : Bool
  credits  : Map Nat
  share    : Map Nat
  passed   : Map Nat
  queue    : List Cargo
  owed     : Map Nat
  txSeq    : BitVec 10
  nakDue   : Bool
  unacked  : List SentFlit
  txSlots  : List (List Byte)
  txCount  : Nat
  fallback : Bool
  used     : BitVec 4
  deriving DecidableEq, Repr

/-- A graft entry (R328), with the incarnation with which its logical DID had been lost. -/
structure Graft where
  ld      : Nat
  toDid   : BitVec 14
  fromDid : BitVec 14
  inc     : Option W32
  deriving DecidableEq, Repr

/-- State of a Rake chunk slot that is bound to a collective (R343). -/
inductive SlotState where
  | idle | gathering | passed | serving | reforming
  deriving DecidableEq, Repr

/-- A Rake chunk slot bound to a chunk (R343): its place in the I/O-die SRAM, where its contents stand, and
whether it holds any; the anchor of the sum, the summed weight and the largest anchor seen; the ranks whose
contribution is in; whether the partial has been sent on; the branches still to acknowledge (the own rank is
local delivery) and those the result was sent to; the re-formations; a poisoned contributor; and a failed check of R100. -/
structure RakeSlot where
  phys    : Nat
  chunk   : Nat
  st      : SlotState
  has     : Bool
  anchor  : Nat
  weight  : Nat
  trueAnchor : Nat
  got     : List Nat
  sent    : Bool
  wait    : List Nat
  given   : List Nat
  reforms : Nat
  poison  : Option Nat
  excess  : Option Nat
  served  : Bool
  again   : Bool
  deriving DecidableEq, Repr

/-- An outstanding collective (R331 to R345). `sizes` are the element counts of its shards, segments or passes; `segs`
its segments, `sends` and `recvs` its ALL_TO_ALL lists; `phys` the Rake slots reserved; `next` the next chunk to bind,
`redo` chunks to bind again and `ended` those whose retention has ended; `dir` the agreed anchors (R350), `heard` the
anchors by group and rank, `opened` and `agreed` the groups; `grants` the grants held by chunk and rank; `retries` the
failed checks by chunk and rank (R360); `passed` the results a COMBINE keeps between its passes; `unacked` and `got`
the pieces of an ALL_TO_ALL; `eng` an update-engine command that issued it, `turn` whether a transplant did (R422), with
the bytes that either sends in `buf`. -/
structure Coll where
  id      : BitVec 20
  ld      : Nat
  dom     : Nat
  tkt     : Ticket
  words   : List W32
  members : List Nat
  rank    : Nat
  sizes   : List Nat
  segs    : List (Nat × Nat × Nat)
  sends   : List (Nat × Nat)
  recvs   : List (Nat × Nat)
  digest  : W32
  crop    : Bool
  granted : Bool
  phys    : List Nat
  slots   : List RakeSlot
  next    : Nat
  redo    : List Nat
  ended   : Nat
  dir     : Map Nat
  heard   : List (Nat × Nat × List Byte)
  opened  : Nat
  agreed  : Nat
  grants  : List (Nat × Nat)
  retries : List (Nat × Nat × Nat)
  passed  : Map (List Byte)
  unacked : List (Nat × Nat)
  got     : List (Nat × Nat)
  fence   : Bool
  lastMove : W64
  badCode : Code
  badWho  : Nat
  badChunk : W32
  eng     : Option Nat
  turn    : Bool
  buf     : List Byte
  deriving DecidableEq, Repr

/-- The slots of an ended reservation, until their zero fill completes (R345, R359). -/
structure Zeroing where
  iod  : Nat
  ld   : Nat
  dom  : Nat
  coll : BitVec 20
  phys : List Nat
  deriving DecidableEq, Repr

/-- What a running update-engine command does next (R376, R380, R387). -/
inductive UpdPhase where
  | waiting | moment | between | weight | dfsWait | poll | copy | scan | cast | compare | repair | apply
  deriving DecidableEq, Repr

/-- An accepted command of the update engines (R375 to R396). `pend` are the difference records a weight phase
has still to emit (target, header, payload) and `commit` the block record it then writes; `colEnd` and `colGot` how its
broadcast ended and what it has delivered; `prog` its copy of an element program (R138), and `spare` whether the rows of the
block that it repairs are to be spared (R390). -/
structure UpdCmd where
  id      : Nat
  tkt     : Ticket
  ld      : Nat
  dom     : Nat
  op      : Nat
  words   : List W32
  shard   : List W32
  die     : Nat
  phase   : UpdPhase
  blk     : Nat
  tries   : Nat
  stop    : Bool
  stopCode : Code
  count   : Nat
  stale   : Nat
  match31 : Bool
  lastMove : W64
  startAt : W64
  off     : Nat
  ncmd0   : W32
  pend    : List (Nat × List Byte × List Byte)
  commit  : List Byte
  colEnd  : Option Code
  colGot  : Map (List Byte)
  prog    : List W32
  spare   : Bool
  deriving DecidableEq, Repr

/-- State of a tenant domain (R465). -/
inductive DomState where
  | closed | open | closing
  deriving DecidableEq, Repr

/-- A tenant domain (R465, R473, R474). Keys are uninterpreted bytes. -/
structure Domain where
  st     : DomState
  kvQ    : Nat
  reqQ   : Nat
  rakeQ  : Nat
  memKey : List Byte
  kemKey : List Byte
  dfsKey : Option (List Byte)
  tkt    : Option Ticket
  deriving DecidableEq, Repr

/-- State of a page tag (R467). -/
inductive TagState where
  | free | assigned | zeroing | kv
  deriving DecidableEq, Repr

/-- A page tag (R467). While ZEROING, `release` tells a release from an assign. -/
structure PageTag where
  st      : TagState
  fabric  : Bool
  host    : Bool
  shared  : Bool
  domain  : BitVec 12
  release : Bool
  deriving DecidableEq, Repr

/-- A PAGE_SET whose frames are being zero-filled (R470), an import (R482), or a DOM_CLOSE (R465). -/
structure MgmtJob where
  tkt   : Ticket
  ld    : Nat
  dom   : Nat
  words : List W32
  left  : List Nat
  deriving DecidableEq, Repr

/-- A disable in progress (R512, R513): its scope, the handshake of the request and its limit. -/
structure Drain where
  sc      : Scope
  at_     : W64
  limitUs : BitVec 16
  expired : Bool
  deriving DecidableEq, Repr

/-! ## Start -/

/-- One entry of the partition layout (R495 type 3) with the physical DID of type 4. -/
structure ImgLd where
  ldClass  : Nat
  firstDie : Nat
  chanMask : BitVec 24
  portMask : W32
  quota0   : Nat
  quota1   : Nat
  domBase  : Nat
  domCount : Nat
  did      : BitVec 14
  deriving DecidableEq, Repr

/-- What a start uses of the verified configuration image (R494 to R496). -/
structure Image where
  fwVer   : W32
  imgVer  : W32
  fwHash  : List Byte
  imgHash : List Byte
  lds     : List ImgLd
  limitW  : Nat
  boostEn : Bool
  pinMask : BitVec 10
  pinMv   : Nat
  periodH : Nat
  startS  : Nat
  boot    : List Byte
  exDies  : BitVec 10
  exStacks : BitVec 20
  exChans : BitVec 24
  reqArea : Nat
  tagArea : Nat
  trlMask : BitVec 10
  trls    : List (Nat × List Byte)
  deriving DecidableEq, Repr

/-- The fields of the current start record (R497). -/
structure StartRec where
  seq    : W32
  count  : Nat
  level  : Nat
  code   : Code
  detail : BitVec 8
  offset : Nat
  deriving DecidableEq, Repr

/-- How far the present start has come (R501). -/
inductive BootStage where
  | off | rom | silmuvin | up | failedVerify | fallow
  deriving DecidableEq, Repr

/-- The start state of the device (R497 to R506, R518). `held` tells that a failure holds every LD at level 0 (R503). -/
structure Boot where
  stage     : BootStage
  probe     : NvmProbe
  rec_      : Option StartRec
  failCode  : Code
  failDetail : BitVec 8
  failed    : Bool
  held      : Bool
  level2    : Bool
  startAt   : W64
  l2At      : W64
  image     : Option Image
  zeroising : List Scope
  drains    : List Drain
  deriving DecidableEq, Repr

/-- Rails, pins and monitors (R533 to R547, R554). `clkCas` tells that the Cassum clock is not known to be faulty. `vin` in units of 10 mV, temperatures in °C. -/
structure Pins where
  standby  : Bool
  rails    : Bool
  resetN   : Bool
  ready    : Bool
  therm    : Bool
  tripped  : Bool
  overVolt : Bool
  clkCas   : Bool
  vin      : Nat
  tjMax    : Nat
  plate    : Nat
  outlet   : Nat
  inlet    : Nat
  deriving DecidableEq, Repr

/-- The I3C target (R548 to R551). -/
structure I3c where
  staticAddr : BitVec 7
  dynAddr : Option (BitVec 7)
  ibiEn   : Bool
  limitW  : BitVec 12
  fault   : BitVec 13
  sbPin   : BitVec 4
  errCode : Code
  deriving DecidableEq, Repr

/-- What survives every reset (R508): the secure storage element (R480, R485), the NVM (R492) with
its density and JEDEC ID, the hard repairs of R209, and the spares that the manufacturing fuse map names (R203). -/
structure Vault where
  leaves   : Nat
  minFw    : W32
  minImg   : W32
  ownerKey : List Byte
  devCert  : List Byte
  devSeed  : List Byte
  nvm      : Mem
  density  : Nat
  jedec    : W32
  hard     : List (MemUnit × Nat)
  fuses    : List (MemUnit × ArrayFaults)
  deriving DecidableEq, Repr

/-- Attestation and random-bit generator state (R475, R485 to R487): the level-2 tree's seed, its certifying leaf and the
reports it has left. -/
structure Crypto where
  attestOk  : Bool
  l2Busy    : Bool
  l2Left    : Nat
  l1Leaf    : Nat
  l2Seed    : List Byte
  drbgFail  : Bool
  drbgCount : Nat
  deriving DecidableEq, Repr

/-- Everything of the device but its vault and clock. `snoops` are the lines that the host has read with cacheable intent,
`biWait` those whose back-invalidation snoop has been sent, and `touched` the tracked lines that the present command has met
(R437); `mem` holds LPDDR5X as plain text, with the keys it was encrypted under in `lpKeys` (latest range first: first byte, length,
key), and `keySeeds` what was drawn for the key store at the start (key 16) or at the reset of an LD (R189, R469); `latches` and `held` are the words of register pairs by agent (R10). -/
structure Dev where
  lds      : Map Ld
  dies     : Map Die
  pwr      : Power
  clusters : Map Cluster
  launches : List LaunchJob
  mem      : Mem
  poison   : List Nat
  upsets   : Map (List Nat)
  keySeeds : Map Nat
  lpKeys   : List (Nat × Nat × List Byte)
  hostMem  : Mem
  units    : Map Unit
  memCtl   : MemCtl
  stackRgn : Map Region
  lpRgn    : Map Region
  kv       : Map KvEntry
  kvJobs   : Map (List KvJob)
  score    : Map (List ScoreCmd)
  promo    : Map (List Nat)
  sweepAt  : Map (Nat × Bool)
  reqs     : Map ReqSlot
  adapters : Map Adapter
  ports    : Map Port
  grafts   : Map Graft
  net      : Net
  colls    : List Coll
  zeroing  : List Zeroing
  upds     : List UpdCmd
  domains  : Map Domain
  tags     : Map PageTag
  pageJobs : List MgmtJob
  imports  : List MgmtJob
  snoops   : List Nat
  biWait   : List Nat
  touched  : List Nat
  latches  : List (Agent × RegPage × Nat × W32)
  held     : List (Agent × RegPage × Nat × W32)
  boot     : Boot
  pins     : Pins
  i3c      : I3c
  crypto   : Crypto
  nextId   : Nat
  free     : Nat
  out      : List Output
  deriving DecidableEq, Repr

/-- The state of the block: the commands waiting (first in, first out), what survives every reset,
the local elapsed counter in 10 ns units (R61), and the rest of the device. -/
structure State where
  pending : List Instr
  vault   : Vault
  now     : W64
  dev     : Dev
  deriving DecidableEq, Repr

/-! ## Stops -/

/-- Reasons the block stops with a fault. No meaning of this model raises one: the spec answers every
error with a code, an event or an exception of a control core. -/
inductive Fault where
  deriving DecidableEq, Repr

/-- Reasons a command is refused. -/
inductive Refusal where
  /-- The model gives the command no meaning (safe: the machine stops). Only the dispatcher raises it. -/
  | notModelled (mnemonic : String)
  deriving DecidableEq, Repr

/-! ## Reset values -/

/-- An `ICU_SRC_CFG` register at reset (R182). -/
def SrcCfg.init : SrcCfg := { vector := 0, target := false, fast := false, prio := 0 }

/-- An interrupt controller at reset: every source masked (R182). -/
def Icu.init : Icu :=
  { enable := false, fastSrc := none, normalSrc := none, soft := 0, mask := BitVec.allOnes 1024,
    insvc := 0, cfg := [], devWin := none, hostWin := none }

def Core.init : Core :=
  { mq := [], mrun := false, vq := [], vrun := false, mtag := 0, vtag := 0, mcnt := 0, vcnt := 0 }

/-- The registers of R155 at reset: all zero. -/
def CtlRegs.init : CtlRegs :=
  { normal := Vector.replicate 32 0, fast := Vector.replicate 32 0, pc := 0, status := 0, epc := 0,
    estatus := 0, fpc := 0, fstatus := 0, vecExc := 0, vecNormal := 0, vecFast := 0 }

def CluRegs.init : CluRegs :=
  { errCode := 0, excCode := 0, excCause := 0, excAddr := 0, coreFault := 0, dmaErr := false,
    dmaNote := false, dmaErrTag := 0, dmaErrCode := 0, dmaDone := 0, stall := 0,
    rmax := Vector.replicate 8 { nanSeen := false, maxAbs := 0 }, sat := 0, isat := 0 }

/-- A cluster at reset (R155, R174). -/
def Cluster.init : Cluster :=
  { st := .idle, domain := 0, ctl := CtlRegs.init, clu := CluRegs.init, icu := Icu.init,
    yieldReq := none, yieldAge := 0, atYield := none, occ := none, cores := [], mover := [], dma := [], kvTail := 0,
    colTail := 0, kvTaken := 0, colTaken := 0, saved := none }

def Layout.init : Layout :=
  { populated := false, ldClass := 0, dieMask := 0, chanMask := 0,
    portMask := 0, quota0 := 0, quota1 := 0, domBase := 0, domCount := 0, did := 0, ldid := 0 }

/-- `LD_CTL`, `LD_STATUS`, `LD_CC_CTL` and `BOOT_EVT` at reset (R409, R517, R518). -/
def LdCtl.init (cause : BitVec 4) : LdCtl :=
  { errCode := 0, errCount := 0, enable := true, drainUs := 1000, st := .enabled, service := 0,
    cause := cause, failCode := 0, yieldUs := 100, late := false, lateCount := 0, bootEvt := 0,
    crop := none }

def Cq.init : Cq :=
  { base := 0, st := .disabled, domain := 0, log2n := 4, tail := 0, head := 0, outstanding := 0,
    cbase := 0, log2m := 4, chead := 0, prod := 0 }

def Mailbox.init : Mailbox := { data := Vector.replicate 15 0, full := false, nreg := 0, sentAt := 0 }

def MsixEntry.init : MsixEntry := { addr := 0, data := 0, masked := true }

def HostIf.init : HostIf :=
  { cqs := [], reqCpl := { base := 0, enable := false, log2m := 4, head := 0, prod := 0 }, mbx := [],
    mbxMask := BitVec.allOnes 32, mbxEmpty := 0, msix := [], msixFnMask := false, icu := Icu.init }

def KvmRegs.init : KvmRegs :=
  { promote := false, demote := false, highPct := 20, lowPct := 10, promotes := 0, demotes := 0,
    evt := 0 }

def Wave.init : Wave :=
  { gen := 0, newGen := 0, active := false, stalled := false, swapHeld := false, noticed := false,
    recompute := false, srcKind := false, layers := [], swapped := 0, copying := none, oldSet := [],
    reports := [], layerGen := [], tkt := none, dom := 0 }

def Route.init : Route := { valid := false, n := 0, ports := 0 }

def FabRegs.init (inc : W32) : FabRegs :=
  { rtIdx := 0, routes := [], timeout := 1000, lostCount := 0, lastLost := 0, evt := 0, inc := inc,
    lost := [], forwarded := [], reqs := [], nextTag := 0 }

def DfsTarget.init : DfsTarget :=
  { enable := false, kind := false, did := 0, wdMs := 1000, base := 0, domain := 0, log2 := 24,
    broken := false, waiting := false, silent := false, seq := 0, prod := 0, cons := 0 }

def UpdRegs.init : UpdRegs :=
  { rollfwd := 0, mism := 0, autoRepair := true, repLimit := 2, lastGpi := 0, lastDid := 0,
    ownerSide := false, evt := 0, dfsSel := 0, dfs := [], phBase := 0, phLog2 := 10, phHead := 0,
    phTail := 0, phDrop := 0, phases := [], ncmd := 0 }

def Turn.init : Turn :=
  { st := .idle, phase := .none, coord := 0, total := 0, committed := 0, words := [], tkt := none, dom := 0, digest := 0,
    ready := [], reports := [], acked := [], newRecs := [], moved := none, inbox := [], lastMove := 0 }

def TrlRegs.init : TrlRegs :=
  { slot0 := none, slot1 := none, active := none, turn := Turn.init, evt := 0 }

/-- The lowest stack of an LD's dies, the reset value of `index` of `ECC_SEL` (R213); 0 for LD 15. -/
def Layout.firstStack (lay : Layout) : Nat :=
  2 * ((List.range 10).find? fun n => lay.dieMask.getLsbD n).getD 0

/-- An LD at reset with the layout, the reset cause and the incarnation of its start. -/
def Ld.init (lay : Layout) (cause : BitVec 4) (inc : W32) : Ld :=
  { lay := lay, ctl := LdCtl.init cause, host := HostIf.init, ecc := { kind := 0, index := BitVec.ofNat 5 lay.firstStack, evt := 0 },
    kvm := KvmRegs.init, reqEvt := 0, wave := Wave.init, fab := FabRegs.init inc,
    col := { rereduce := 0, crcRetry := 0, evt := 0 }, upd := UpdRegs.init, trl := TrlRegs.init,
    sec := { domSel := lay.domBase, evt := 0, pubKeys := [], session := none } }

/-- A die at reset: not joined, at tap 63 and 0.75 V, conservative (R47, R57). -/
def Die.init : Die :=
  { joined := false, absent := false, booting := false, bootLeft := [], bootAt := 0,
    calibrated := false, conservative := true, marginLost := false, pinned := false, tap := 63,
    pacing := 0, tj := 0, vcore := 750, trips := 0, fp4fp6 := false }

def EccRec.init : EccRec := { addr := 0, kind := 0, req := 0, symbol := 0, pch := 0, ld := 0 }

def Unit.init : Unit :=
  { inService := false, failed := false, ce := 0, ue := 0, odc := 0, last := EccRec.init, passes := 0,
    scrubbed := 0, free := 0, lastCode := 0, rows := [], marked := [], hits := [], queued := [],
    running := none, committing := false, soft := [], spares := [], lanes := [], report := none }

def Region.init : Region := { count := 0, base := 0 }

/-- A page-map entry at reset: FREE with generation 0 (R256). -/
def KvEntry.init : KvEntry :=
  { fill := 0, gen := 0, hot := false, pin := false, home := false, st := .free, domain := 0,
    frame := 0, inbound := none, target := none, old := [], readers := 0, fails := 0, dropped := false }

def ReqSlot.init : ReqSlot :=
  { gen := 0, st := .free, why := .none, ld := 0, dom := 0, words := [], adapter := none,
    admitted := 0, ntok := 0, steps := 0, nextIdx := 0, lastTok := 0, pos := 0, pages := [],
    stamp := none, layer := 0, chosen := [], path := [], node := 0, treeLen := 0, sampled := false,
    sending := false, genIdx := none, genLast := 0, endTok := false, penFull := false,
    cancelLate := false, recomputed := false, endCode := 0, endStatus := 0, oldPages := [], sendCode := none,
    layout := 0, spans := [], group := [], asked := 0, mask := [], redo := false }

def Adapter.init : Adapter :=
  { name := 0, domain := 0, version := 0, rank := 0, st := .free, refs := 0, addr := 0, len := 0,
    ld := 0, src := 0, srcLen := 0, tkt := none }

def Port.init : Port :=
  { st := .off, enable := false, draining := false, halfOk := false,
    nbrDid := 0, nbrInc := 0, nbrClass := 0, reason := 0, lanesGood := 0, pol := 0, reversed := false,
    rate := false, width := 0, replays := 0, fecFix := 0, locked := 0, order := [], excluded := 0,
    attempted := false, tried := false, acked := 0, rxSeq := 0, bad := 0, naking := false, credits := [], share := [], passed := [],
    owed := [], txSeq := 0, nakDue := false, unacked := [], txSlots := [], txCount := 0, fallback := false, used := 0,
    queue := [] }

/-- An unused graft entry names LD 15 (R328). -/
def Graft.init : Graft := { ld := 15, toDid := 0, fromDid := 0, inc := none }

def Domain.init : Domain :=
  { st := .closed, kvQ := 0, reqQ := 0, rakeQ := 0, memKey := [], kemKey := [], dfsKey := none,
    tkt := none }

def PageTag.init : PageTag :=
  { st := .free, fabric := false, host := false, shared := false, domain := 0, release := false }

def Power.init : Power :=
  { hostLimit := 0, imgLimit := 0, boostEn := false, pinBroken := false, draw := 0, pinMv := 0 }

def MemCtl.init : MemCtl := { scrubEn := true, periodH := 0, ceRepair := 4, repairAddr := 0 }

def Boot.init : Boot :=
  { stage := .off, probe := 0, rec_ := none, failCode := 0, failDetail := 0, failed := false, held := false,
    level2 := false, startAt := 0, l2At := 0, image := none, zeroising := [], drains := [] }

/-- Rails up after power-on, RESET_N low through its internal pull-down (R539, R542), temperatures and
voltage not yet sampled. -/
def Pins.init : Pins :=
  { standby := true, rails := true, resetN := false, ready := false, therm := false,
    tripped := false, overVolt := false, clkCas := true, vin := 0, tjMax := 0,
    plate := 0, outlet := 0, inlet := 0 }

/-- The I3C target after power-on, with all straps at ground (R534, R550). -/
def I3c.init : I3c :=
  { staticAddr := 0x30, dynAddr := none, ibiEn := false, limitW := 0, fault := 0, sbPin := 0,
    errCode := 0 }

def Crypto.init : Crypto :=
  { attestOk := false, l2Busy := false, l2Left := 0, l1Leaf := 0, l2Seed := [], drbgFail := false, drbgCount := 0 }

/-- A module as manufactured, with an erased NVM (all ones, hence nothing listed). -/
def Vault.init : Vault :=
  { leaves := 0, minFw := 0, minImg := 0, ownerKey := Config.ownerKey, devCert := Config.devCert,
    devSeed := Config.devSeed, nvm := [], density := Config.nvmDensityMiB, jedec := Config.nvmJedec,
    hard := [], fuses := [] }

/-- The device before a start, with the I3C registers given (they outlive every reset but power-on,
R549). -/
def Dev.init (pins : Pins) (i3c : I3c) (free : Nat) : Dev :=
  { lds := [], dies := [], pwr := Power.init, clusters := [], launches := [], mem := [], poison := [],
    upsets := [], keySeeds := [], lpKeys := [], hostMem := [], units := [], memCtl := MemCtl.init, stackRgn := [], lpRgn := [],
    kv := [], kvJobs := [], score := [], promo := [], sweepAt := [], reqs := [],
    adapters := [], ports := [], grafts := [], net := { paths := [], held := [] }, colls := [], zeroing := [], upds := [], domains := [],
    tags := [], pageJobs := [], imports := [], snoops := [], biWait := [], touched := [], latches := [], held := [],
    boot := Boot.init, pins := pins, i3c := i3c, crypto := Crypto.init, nextId := 0, free := free,
    out := [] }

/-- The state right after power-on: the counter zero (R61), nothing started, no command waiting. -/
def State.reset : State :=
  { pending := [], vault := Vault.init, now := 0, dev := Dev.init Pins.init I3c.init 0 }

end Sys2Proof.Machine
end

