-- ==== Sys2Proof/Machine/Bits.lean ====
section
/-! DEFINITION. Bit fields, little-endian bytes, sparse tables and the byte memory: the helpers that
every meaning is built from. -/

namespace Sys2Proof.Machine

/-! ## Fields and bytes -/

/-- Bits [hi:lo] of a number. -/
def bits (x hi lo : Nat) : Nat := (x >>> lo) % 2 ^ (hi - lo + 1)

/-- Bit i of a number. -/
def bit (x i : Nat) : Bool := x.testBit i

/-- Bits [hi:lo] of a 32-bit word. -/
def fld (w : W32) (hi lo : Nat) : Nat := bits w.toNat hi lo

/-- The number 1 or 0 of a flag. -/
def b2n (b : Bool) : Nat := if b then 1 else 0

/-- Word i of a list of words; words past the end read zero. -/
def word (ws : List W32) (i : Nat) : W32 := ws.getD i 0

/-- Bits [hi:lo] of word i. -/
def wfld (ws : List W32) (i hi lo : Nat) : Nat := fld (word ws i) hi lo

/-- The 64-bit number in words i (low half) and i + 1. -/
def word2 (ws : List W32) (i : Nat) : Nat := (word ws i).toNat + 2 ^ 32 * (word ws (i + 1)).toNat

/-- Whether words i to j are all zero. -/
def zeroWords (ws : List W32) (i j : Nat) : Bool := (List.range (j + 1 - i)).all fun k => word ws (i + k) == 0

/-- A number as n bytes, little-endian. -/
def toBytes : Nat → Nat → List Byte
  | 0, _ => []
  | n + 1, x => BitVec.ofNat 8 x :: toBytes n (x / 256)

/-- The number that bytes spell, little-endian. -/
def ofBytes : List Byte → Nat
  | [] => 0
  | b :: bs => b.toNat + 256 * ofBytes bs

/-- Bytes [i, i + n) of a list; bytes past the end read zero. -/
def slice (bs : List Byte) (i n : Nat) : List Byte := (List.range n).map fun k => bs.getD (i + k) 0

/-- The little-endian number in bytes [i, i + n). -/
def num (bs : List Byte) (i n : Nat) : Nat := ofBytes (slice bs i n)

/-- Words as bytes, little-endian. -/
def wordsToBytes (ws : List W32) : List Byte := ws.flatMap fun w => toBytes 4 w.toNat

/-- n words read from bytes. -/
def bytesToWords (n : Nat) (bs : List Byte) : List W32 :=
  (List.range n).map fun i => BitVec.ofNat 32 (num bs (4 * i) 4)

/-- A byte list with bytes [i, i + new.length) replaced. -/
def splice (bs : List Byte) (i : Nat) (new : List Byte) : List Byte :=
  bs.take i ++ new ++ bs.drop (i + new.length)

/-- A number of n zero bytes. -/
def zeros (n : Nat) : List Byte := List.replicate n 0

/-- The quotient rounded up. -/
def ceilDiv (a b : Nat) : Nat := (a + b - 1) / b

/-- A sign: bits [n-1:0] of x as a two's-complement number. -/
def sgn (n x : Nat) : Int := if x % 2 ^ n < 2 ^ (n - 1) then (x % 2 ^ n : Int) else (x % 2 ^ n : Int) - 2 ^ n

/-- The two's-complement representation of an integer in n bits. -/
def repr2 (n : Nat) (x : Int) : Nat := (x % (2 ^ n : Int)).toNat

/-- A counter of n bits that stops at its largest value. -/
def satInc (n x k : Nat) : Nat := min (2 ^ n - 1) (x + k)

/-- A 16-bit counter that stops at 0xFFFF. -/
def sat16 (x : BitVec 16) : BitVec 16 := if x = 0xFFFF then x else x + 1

/-- A 32-bit counter that stops at 0xFFFF_FFFF. -/
def sat32 (x : W32) : W32 := if x = 0xFFFFFFFF then x else x + 1

/-- Sets bit i of a bit vector. -/
def setBit {n : Nat} (v : BitVec n) (i : Nat) : BitVec n := v ||| BitVec.ofNat n (2 ^ i)

/-- Clears bit i of a bit vector. -/
def clearBit {n : Nat} (v : BitVec n) (i : Nat) : BitVec n := v &&& ~~~(BitVec.ofNat n (2 ^ i))

/-- Sets or clears bit i of a bit vector. -/
def putBit {n : Nat} (v : BitVec n) (i : Nat) (b : Bool) : BitVec n := if b then setBit v i else clearBit v i

/-- The numbers of the set bits below n. -/
def bitsOf (n x : Nat) : List Nat := (List.range n).filter fun i => x.testBit i

/-- Checks in order: whether each fails, with its code. -/
abbrev Checks := List (Bool × Code)

/-- The code of the first failing check of a list; none when every check passes. -/
def firstFail : List (Bool × Code) → Option Code
  | [] => none
  | (bad, c) :: r => if bad then some c else firstFail r

/-- Insertion of a number into a rising list without repeats. -/
def insNat (k : Nat) : List Nat → List Nat
  | [] => [k]
  | a :: t => if k < a then k :: a :: t else if k = a then a :: t else a :: insNat k t

/-! ## Sparse tables -/

/-- The entry of a key. -/
def Map.find {α : Type} : Map α → Nat → Option α
  | [], _ => none
  | (k, a) :: t, n => if k = n then some a else Map.find t n

/-- The entry of a key, or the value an absent key has. -/
def Map.get {α : Type} (m : Map α) (n : Nat) (d : α) : α := (Map.find m n).getD d

/-- A table with the entry of a key set. -/
def Map.set {α : Type} : Map α → Nat → α → Map α
  | [], n, a => [(n, a)]
  | (k, b) :: t, n, a =>
    if n < k then (n, a) :: (k, b) :: t
    else if n = k then (k, a) :: t
    else (k, b) :: Map.set t n a

/-- A table without the entry of a key. -/
def Map.del {α : Type} (m : Map α) (n : Nat) : Map α := m.filter fun e => e.1 ≠ n

/-- A table without the entries whose keys satisfy a test. -/
def Map.delIf {α : Type} (m : Map α) (p : Nat → Bool) : Map α := m.filter fun e => !p e.1

/-- How many entries satisfy a test. -/
def Map.count {α : Type} (m : Map α) (p : Nat → α → Bool) : Nat := (m.filter fun e => p e.1 e.2).length

/-- The first number from k on, at most `fuel` of them, that satisfies a test. -/
def searchUp (p : Nat → Bool) : (fuel k : Nat) → Option Nat
  | 0, _ => none
  | f + 1, k => if p k then some k else searchUp p f (k + 1)

/-! ## Byte memory -/

/-- The canonical form of a memory whose unlisted addresses read `d`: addresses strictly rise and no
entry equals `d`. -/
def Mem.wf (d : Byte) : Mem → Bool
  | [] => true
  | [(_, b)] => b != d
  | (a, b) :: (a', b') :: t => decide (a < a') && b != d && Mem.wf d ((a', b') :: t)

/-- The byte at an address. -/
def Mem.read (d : Byte) : Mem → Nat → Byte
  | [], _ => d
  | (a, b) :: t, n => if a = n then b else Mem.read d t n

/-- A memory with one byte written, in canonical form. -/
def Mem.write (d : Byte) : Mem → Nat → Byte → Mem
  | [], n, v => if v = d then [] else [(n, v)]
  | (a, b) :: t, n, v =>
    if n < a then (if v = d then (a, b) :: t else (n, v) :: (a, b) :: t)
    else if n = a then (if v = d then t else (a, v) :: t)
    else (a, b) :: Mem.write d t n v

/-- A memory with the range [lo, hi) reading as unlisted again. -/
def Mem.clear (m : Mem) (lo hi : Nat) : Mem := m.filter fun c => c.1 < lo || hi ≤ c.1

/-- n bytes from an address. -/
def Mem.readN (d : Byte) (m : Mem) (a n : Nat) : List Byte := (List.range n).map fun i => Mem.read d m (a + i)

/-- A memory with bytes written from an address. -/
def Mem.writeN (d : Byte) : Mem → Nat → List Byte → Mem
  | m, _, [] => m
  | m, a, b :: bs => Mem.writeN d (Mem.write d m a b) (a + 1) bs

/-- Writes the listed cells, each at its address moved by an offset (to - from). -/
def Mem.putCells (d : Byte) (from_ to_ : Nat) : Mem → List Host.Cell → Mem
  | m, [] => m
  | m, (a, b) :: cs => Mem.putCells d from_ to_ (Mem.write d m (a - from_ + to_) b) cs

/-- The cells of a range. -/
def Mem.cells (m : Mem) (lo hi : Nat) : List Host.Cell := m.filter fun c => lo ≤ c.1 && c.1 < hi

/-- A memory with n bytes copied; the source is read whole before the destination is written. -/
def Mem.copy (d : Byte) (m : Mem) (src dst n : Nat) : Mem :=
  Mem.putCells d src dst (Mem.clear m dst (dst + n)) (Mem.cells m src (src + n))

/-- What an unlisted address of the device's or the host's memory reads as (R211). -/
def memDefault : Byte := 0

/-- What an unlisted NVM address reads as: an erased place. -/
def nvmDefault : Byte := 0xFF

end Sys2Proof.Machine
end

