-- ==== Sys2Proof/Machine/Num.lean ====
section
/-! DEFINITION. The number formats of R72 to R80, exact arithmetic with one rounding to nearest even (R85),
the splitter (R87), the counter generator (R90 to R93), the stochastic store (R94) and AX96 (R96 to R103). -/

namespace Sys2Proof.Machine

/-- The element formats (R72), with INT32 for the accumulators of the matrix array. -/
inductive Fmt where
  | fp4 | e2m3 | e3m2 | e4m3 | e5m2 | fp16 | bf16 | fp32 | int4 | int8 | int32
  deriving DecidableEq, Repr

/-- A value: NaN, an infinity, or the exact number (-1)^neg * m * 2^e; a zero keeps its sign (R74). -/
inductive Fp where
  | nan
  | inf (neg : Bool)
  | fin (neg : Bool) (m : Nat) (e : Int)
  deriving DecidableEq, Repr

/-- Width in bits. -/
def Fmt.width : Fmt → Nat
  | .fp4 => 4
  | .e2m3 => 6
  | .e3m2 => 6
  | .e4m3 => 8
  | .e5m2 => 8
  | .fp16 => 16
  | .bf16 => 16
  | .fp32 => 32
  | .int4 => 4
  | .int8 => 8
  | .int32 => 32

/-- Exponent bits, fraction bits and bias of a floating-point format; zero for integers. -/
def Fmt.shape : Fmt → Nat × Nat × Nat
  | .fp4 => (2, 1, 1)
  | .e2m3 => (2, 3, 1)
  | .e3m2 => (3, 2, 3)
  | .e4m3 => (4, 3, 7)
  | .e5m2 => (5, 2, 15)
  | .fp16 => (5, 10, 15)
  | .bf16 => (8, 7, 127)
  | .fp32 => (8, 23, 127)
  | _ => (0, 0, 0)

def Fmt.isInt : Fmt → Bool
  | .int4 => true
  | .int8 => true
  | .int32 => true
  | _ => false

/-- Formats whose exponent field of all ones encodes infinities and NaNs. -/
def Fmt.hasInf : Fmt → Bool
  | .e5m2 => true
  | .fp16 => true
  | .bf16 => true
  | .fp32 => true
  | _ => false

/-- The canonical NaN (R73); 0 for formats without one. -/
def Fmt.nanCode : Fmt → Nat
  | .fp32 => 0x7FC00000
  | .bf16 => 0x7FC0
  | .fp16 => 0x7E00
  | .e5m2 => 0x7E
  | .e4m3 => 0x7F
  | _ => 0

/-- The largest finite magnitude as a code without sign. -/
def Fmt.maxCode : Fmt → Nat
  | .fp4 => 7
  | .e2m3 => 0x1F
  | .e3m2 => 0x1F
  | .e4m3 => 0x7E
  | .e5m2 => 0x7B
  | .fp16 => 0x7BFF
  | .bf16 => 0x7F7F
  | .fp32 => 0x7F7FFFFF
  | .int4 => 7
  | .int8 => 127
  | .int32 => 0x7FFFFFFF

/-- Whether a format always carries block scales (R75). -/
def Fmt.alwaysBlocked : Fmt → Bool
  | .fp4 => true
  | .e2m3 => true
  | .e3m2 => true
  | .int4 => true
  | _ => false

/-- A finite number from an integer times a power of two. -/
def Fp.ofInt (i : Int) (e : Int) : Fp := .fin (decide (i < 0)) i.natAbs e

/-- The value of a code (R72). -/
def decode (f : Fmt) (code : Nat) : Fp :=
  if f.isInt then Fp.ofInt (sgn f.width code) 0
  else
    let (eb, fb, bias) := f.shape
    let neg := code.testBit (eb + fb)
    let ex := bits code (eb + fb - 1) fb
    let fr := code % 2 ^ fb
    if f.hasInf && ex = 2 ^ eb - 1 then (if fr = 0 then .inf neg else .nan)
    else if f = .e4m3 && code % 128 = 127 then .nan
    else if ex = 0 then .fin neg fr (1 - (bias : Int) - fb)
    else .fin neg (2 ^ fb + fr) ((ex : Int) - bias - fb)

/-- Division by 2^k, to nearest even. -/
def rneShift (m k : Nat) : Nat :=
  let q := m / 2 ^ k
  let r := m % 2 ^ k
  if 2 * r > 2 ^ k ∨ (2 * r = 2 ^ k ∧ q % 2 = 1) then q + 1 else q

/-- m * 2^e as an integer, rounded to nearest even. -/
def rneInt (m : Nat) (e : Int) : Nat := if 0 ≤ e then m * 2 ^ e.toNat else rneShift m (-e).toNat

/-- m * 2^e rounded to nearest even with fb fraction bits and least exponent emin of the last place: an
integer and its exponent. -/
def rnePrec (fb : Nat) (emin : Int) (m : Nat) (e : Int) : Nat × Int :=
  if m = 0 then (0, emin)
  else
    let q := max ((m.log2 : Int) + e - fb) emin
    (rneInt m (e - q), q)

/-- The code without sign of a magnitude n * 2^q that `rnePrec` gave. -/
def packMag (f : Fmt) (n : Nat) (q : Int) : Nat :=
  let (_, fb, bias) := f.shape
  let emin : Int := 1 - (bias : Int) - fb
  let (n, q) := if n = 2 ^ (fb + 1) then (2 ^ fb, q + 1) else (n, q)
  if n < 2 ^ fb then n else (q - emin + 1).toNat * 2 ^ fb + (n - 2 ^ fb)

/-- The code without sign of m * 2^e rounded into a floating-point format, before any range check: beyond
the format's range it exceeds `maxCode`. -/
def magCode (f : Fmt) (m : Nat) (e : Int) : Nat :=
  let (_, fb, bias) := f.shape
  let (n, q) := rnePrec fb (1 - (bias : Int) - fb) m e
  packMag f n q

/-- Whether a finite value lies beyond the target's range after rounding (R79). -/
def outOfRange (f : Fmt) : Fp → Bool
  | .fin neg m e =>
    if f.isInt then
      let n := rneInt m e
      if neg then f.maxCode + 1 < n else f.maxCode < n
    else f.maxCode < magCode f m e
  | _ => false

/-- The conversion of R78 and R79 into a format, without the block rules: finite values beyond the range
become the nearest end or an infinity, by format. -/
def encode (f : Fmt) (x : Fp) : Nat :=
  if f.isInt then
    match x with
    | .nan => 0
    | .inf neg => if neg then f.maxCode + 1 else f.maxCode
    | .fin neg m e =>
      let n := rneInt m e
      if neg then (if f.maxCode + 1 < n then f.maxCode + 1 else repr2 f.width (-(n : Int)))
      else if f.maxCode < n then f.maxCode else n
  else
    let (eb, fb, _) := f.shape
    let sign := fun (neg : Bool) => if neg then 2 ^ (eb + fb) else 0
    match x with
    | .nan => f.nanCode
    | .inf neg =>
      if f.hasInf then sign neg + (2 ^ eb - 1) * 2 ^ fb
      else if f = .e4m3 then f.nanCode else sign neg + f.maxCode
    | .fin neg m e =>
      let c := magCode f m e
      if f.maxCode < c then
        sign neg + (if f.hasInf ∧ f ≠ .e5m2 then (2 ^ eb - 1) * 2 ^ fb else f.maxCode)
      else sign neg + c

/-! ## Exact arithmetic -/

def Fp.isNan : Fp → Bool
  | .nan => true
  | _ => false

def Fp.isInf : Fp → Bool
  | .inf _ => true
  | _ => false

def Fp.isZero : Fp → Bool
  | .fin _ 0 _ => true
  | _ => false

def Fp.sign : Fp → Bool
  | .nan => false
  | .inf n => n
  | .fin n _ _ => n

def Fp.neg : Fp → Fp
  | .nan => .nan
  | .inf n => .inf (!n)
  | .fin n m e => .fin (!n) m e

def Fp.abs : Fp → Fp
  | .nan => .nan
  | .inf _ => .inf false
  | .fin _ m e => .fin false m e

def Fp.zero : Fp := .fin false 0 0
def Fp.one : Fp := .fin false 1 0

/-- The value times 2^k. -/
def Fp.scale (x : Fp) (k : Int) : Fp :=
  match x with
  | .fin n m e => .fin n m (e + k)
  | y => y

/-- The signed integer of a finite value in units of 2^q, for q at most its exponent. -/
def signedAt (neg : Bool) (m : Nat) (e q : Int) : Int :=
  let v : Int := m * 2 ^ (e - q).toNat
  if neg then -v else v

/-- The exact product. -/
def Fp.mul : Fp → Fp → Fp
  | .nan, _ => .nan
  | _, .nan => .nan
  | .inf a, .inf b => .inf (a != b)
  | .inf a, .fin b m _ => if m = 0 then .nan else .inf (a != b)
  | .fin a m _, .inf b => if m = 0 then .nan else .inf (a != b)
  | .fin a m e, .fin b m' e' => .fin (a != b) (m * m') (e + e')

/-- The exact sum; an exact zero is +0 unless both addends are zeros of sign minus (R74). -/
def Fp.add : Fp → Fp → Fp
  | .nan, _ => .nan
  | _, .nan => .nan
  | .inf a, .inf b => if a = b then .inf a else .nan
  | .inf a, .fin _ _ _ => .inf a
  | .fin _ _ _, .inf b => .inf b
  | .fin a m e, .fin b m' e' =>
    let q := min e e'
    let s := signedAt a m e q + signedAt b m' e' q
    if s = 0 then .fin (a && b && m == 0 && m' == 0) 0 q else Fp.ofInt s q

def Fp.sub (x y : Fp) : Fp := x.add y.neg

/-- Comparison of two values that are not NaNs; zeros of either sign are equal. -/
def Fp.lt : Fp → Fp → Bool
  | .inf a, .inf b => a && !b
  | .inf a, .fin _ _ _ => a
  | .fin _ _ _, .inf b => !b
  | .fin a m e, .fin b m' e' =>
    let q := min e e'
    decide (signedAt a m e q < signedAt b m' e' q)
  | _, _ => false

def Fp.eqv (x y : Fp) : Bool := !x.isNan && !y.isNan && !x.lt y && !y.lt x

/-- The FP32 value of a code. -/
def f32 (w : Nat) : Fp := decode .fp32 w

/-- One rounding to FP32. -/
def toF32 (x : Fp) : Nat := encode .fp32 x

/-- The FP32 operations of R85 on codes. -/
def addF32 (a b : Nat) : Nat := toF32 ((f32 a).add (f32 b))
def subF32 (a b : Nat) : Nat := toF32 ((f32 a).sub (f32 b))
def mulF32 (a b : Nat) : Nat := toF32 ((f32 a).mul (f32 b))
def fmaF32 (a b c : Nat) : Nat := toF32 (((f32 a).mul (f32 b)).add (f32 c))

/-- A value m * 2^e plus a part below its last place, kept as one more low bit: what rounding to nearest
needs of an inexact quotient or root. -/
def sticky (neg : Bool) (m : Nat) (e : Int) (inexact : Bool) : Fp := .fin neg (2 * m + b2n inexact) (e - 1)

/-- The quotient with enough bits for one rounding to FP32. -/
def Fp.div : Fp → Fp → Fp
  | .nan, _ => .nan
  | _, .nan => .nan
  | .inf _, .inf _ => .nan
  | .inf a, .fin b _ _ => .inf (a != b)
  | .fin a _ _, .inf b => .fin (a != b) 0 0
  | .fin a m e, .fin b m' e' =>
    if m' = 0 then (if m = 0 then .nan else .inf (a != b))
    else
      let k := 40 + m'.log2
      let n := m * 2 ^ k
      sticky (a != b) (n / m') (e - e' - k) (n % m' != 0)

/-- The integer square root. -/
def isqrt (n : Nat) : Nat :=
  let go := fun (r k : Nat) => if (r + 2 ^ k) * (r + 2 ^ k) ≤ n then r + 2 ^ k else r
  (List.range (n.log2 / 2 + 1)).reverse.foldl go 0

/-- The square root with enough bits for one rounding to FP32. -/
def Fp.sqrt : Fp → Fp
  | .nan => .nan
  | .inf false => .inf false
  | .inf true => .nan
  | .fin neg m e =>
    if m = 0 then .fin neg 0 e
    else if neg then .nan
    else
      let (m, e) := if e % 2 = 0 then (m, e) else (2 * m, e - 1)
      let n := m * 2 ^ 64
      let r := isqrt n
      sticky false r (e / 2 - 32) (r * r != n)

/-! ## Blocks (R75 to R80) -/

/-- The value of an element under a scale byte: 0xFF makes it a NaN (R75). -/
def scaled (s : Nat) (x : Fp) : Fp := if s = 0xFF then .nan else x.scale ((s : Int) - 127)

/-- Element i of packed storage of a format, at bit position i * width (R77). -/
def elemAt (f : Fmt) (bs : List Byte) (i : Nat) : Nat :=
  let w := f.width
  ofBytes (slice bs (i * w / 8) (w / 8 + 2)) / 2 ^ (i * w % 8) % 2 ^ w

/-- Element codes packed into bytes (R77). -/
def packElems (f : Fmt) (codes : List Nat) : List Byte :=
  let w := f.width
  toBytes (ceilDiv (codes.length * w) 8) (codes.foldr (fun c acc => c + acc * 2 ^ w) 0)

/-- The target constant of R80. -/
def Fmt.scaleBias : Fmt → Nat
  | .fp4 => 2
  | .e2m3 => 2
  | .e3m2 => 4
  | .e4m3 => 8
  | .e5m2 => 15
  | .int4 => 2
  | .int8 => 6
  | _ => 0

/-- ⌊log₂ m * 2^e⌋ of a magnitude that is not zero. -/
def floorLog2 (m : Nat) (e : Int) : Int := (m.log2 : Int) + e

/-- The largest magnitude among the finite values of a list: mantissa and exponent. -/
def maxMag (xs : List Fp) : Nat × Int :=
  xs.foldl (fun (acc : Nat × Int) x =>
    match x with
    | .fin _ m e => if Fp.lt (.fin false acc.1 acc.2) (.fin false m e) then (m, e) else acc
    | _ => acc) (0, 0)

/-- The scale that the conversion unit chooses for a block's values after multiplication (R80). -/
def chooseScale (f : Fmt) (xs : List Fp) : Nat :=
  let (m, e) := maxMag xs
  if m = 0 then 0x7F
  else
    let s : Int := floorLog2 m e + 127 - f.scaleBias
    let s := if outOfRange f (.fin false m (e - (s - 127))) then s + 1 else s
    (max 0 (min 0xFE s)).toNat

/-- Formats whose blocks take scale 0xFF for an infinity or a NaN (R79). -/
def Fmt.blockNan : Fmt → Bool
  | .fp4 => true
  | .e2m3 => true
  | .e3m2 => true
  | .int4 => true
  | .int8 => true
  | _ => false

/-- One block stored in a block-scaled format under a given scale, or under the chosen one: the scale byte
and the element codes (R78 to R80). Under a given scale an infinity or NaN takes the whole block to 0xFF in every format
(R146). -/
def storeBlock (f : Fmt) (given : Option Nat) (xs : List Fp) : Nat × List Nat :=
  let special := xs.any fun x => x.isNan || x.isInf
  if ((f.blockNan || given.isSome) && special) || given = some 0xFF then (0xFF, xs.map fun _ => 0)
  else
    let s := given.getD (chooseScale f xs)
    (s, xs.map fun x => encode f (x.scale (127 - (s : Int))))

/-- Whether a block's store saturates a value that is not special (R555). -/
def blockSat (f : Fmt) (s : Nat) (xs : List Fp) : Bool := xs.any fun x => outOfRange f (x.scale (127 - (s : Int)))

/-! ## The splitter (R87) -/

/-- Piece k, 1 to 3, of an FP32 code, as a BF16 code. Bits of weight below 2^-133 are dropped. -/
def splitPiece (k w : Nat) : Nat :=
  let sign := w / 2 ^ 31 * 2 ^ 15
  match f32 w with
  | .nan => if k = 1 then 0x7FC0 else 0
  | .inf _ => if k = 1 then sign + 0x7F80 else sign
  | .fin neg m e =>
    let piece := bits m (31 - 8 * k) (24 - 8 * k)
    let pe : Int := e + 24 - 8 * k
    let drop := (-133 - pe).toNat
    encode .bf16 (.fin neg (piece / 2 ^ drop) (pe + drop))

/-! ## The counter generator (R90 to R93) -/

/-- Ten rounds of Philox-4x32. -/
def philoxRounds : Nat → Nat × Nat × Nat × Nat → Nat → Nat → List Nat
  | 0, (c0, c1, c2, c3), _, _ => [c0, c1, c2, c3]
  | r + 1, (c0, c1, c2, c3), k0, k1 =>
    let p0 := 0xD2511F53 * c0
    let p1 := 0xCD9E8D57 * c2
    let hi := fun p => p / 2 ^ 32
    let lo := fun p => p % 2 ^ 32
    philoxRounds r (((hi p1).xor c1).xor k0, lo p1, ((hi p0).xor c3).xor k1, lo p0)
      ((k0 + 0x9E3779B9) % 2 ^ 32) ((k1 + 0xBB67AE85) % 2 ^ 32)

/-- The four words of a block (R90). -/
def philox (seed step index stream block : Nat) : List Nat :=
  philoxRounds 10
    (index % 2 ^ 32, index / 2 ^ 32 % 2 ^ 16 + block % 2 ^ 16 * 2 ^ 16, step % 2 ^ 32,
      step / 2 ^ 32 % 2 ^ 16 + stream % 2 ^ 16 * 2 ^ 16)
    (seed % 2 ^ 32) (seed / 2 ^ 32 % 2 ^ 32)

/-- Draw n of a key (R91). -/
def drawWord (seed step index stream n : Nat) : Nat := (philox seed step index stream (n / 4)).getD (n % 4) 0

/-- The uniform FP32 value of a word (R93). -/
def uniform (w : Nat) : Fp := .fin false (w / 256) (-24)

/-! ## The stochastic weight store (R94) -/

/-- The 16-bit code stored for an FP32 value: `f` is BF16 or FP16 and `w` the random word. -/
def stochStore (f : Fmt) (w v : Nat) : Nat :=
  match f32 v with
  | .nan => f.nanCode
  | .inf neg => encode f (.inf neg)
  | .fin neg m e =>
    let (eb, fb, bias) := f.shape
    let sign := if neg then 2 ^ (eb + fb) else 0
    if m = 0 then sign
    else
      let q : Int := max ((m.log2 : Int) + e - fb) (1 - (bias : Int) - fb)
      if q ≤ e then
        let c := magCode f m e
        sign + (if f.maxCode < c then f.maxCode else c)
      else
        let k := (q - e).toNat
        let lo := m / 2 ^ k
        let r := m % 2 ^ k
        let cl := packMag f lo q
        if f.maxCode < cl ∨ (f.maxCode = cl ∧ r ≠ 0) then sign + f.maxCode
        else if r = 0 then sign + cl
        else if w < r * 2 ^ 32 / 2 ^ k then sign + packMag f (lo + 1) q
        else sign + cl

/-! ## AX96 (R96 to R103) -/

/-- The element anchor of an FP32 code: its exponent field (R97). -/
def elemAnchor (w : Nat) : Nat := bits w 30 23

/-- The chunk anchor of a contributor (R97). -/
def chunkAnchor (ws : List Nat) : Nat := ws.foldl (fun a w => max a (elemAnchor w)) 0

/-- V = x * 2^(197 - A), truncated toward zero (R98); for an anchor of 0xFF the counts of R102. -/
def toAx (anchor w : Nat) : Int :=
  match f32 w with
  | .nan => if anchor = 0xFF then 2 ^ 32 else 0
  | .inf neg => if anchor = 0xFF then (if neg then 2 ^ 16 else 1) else 0
  | .fin neg m e =>
    if anchor = 0xFF then 0
    else
      let k : Int := e + 197 - anchor
      let v : Nat := if 0 ≤ k then m * 2 ^ k.toNat else m / 2 ^ (-k).toNat
      if neg then -(v : Int) else v

/-- A 96-bit sum read as a signed integer (R96). -/
def axInt (v : BitVec 96) : Int := v.toInt

/-- The exact value of a sum at an anchor. -/
def axValue (v : BitVec 96) (anchor : Nat) : Fp := Fp.ofInt (axInt v) ((anchor : Int) - 197)

/-- The contamination marker of a format (R102). -/
def Fmt.marker : Fmt → Nat
  | .fp32 => 0x7FC00001
  | .bf16 => 0x7FC1
  | .fp16 => 0x7E01
  | _ => 0

/-- The result of an element as FP32, BF16 or FP16 (R101, R102). -/
def fromAx (f : Fmt) (anchor : Nat) (v : BitVec 96) : Nat :=
  if anchor = 0xFF then
    let n := v.toNat
    let pos := bits n 15 0
    let neg := bits n 31 16
    let nan := bits n 47 32
    if nan ≠ 0 ∨ (pos ≠ 0 ∧ neg ≠ 0) then f.nanCode
    else if pos ≠ 0 then encode f (.inf false)
    else if neg ≠ 0 then encode f (.inf true)
    else f.marker
  else if v = 0 then 0
  else encode f (axValue v anchor)

/-- The range check of R100 for an element of weight w. -/
def axInRange (v : BitVec 96) (w : Nat) : Bool := decide ((axInt v).natAbs < w * 2 ^ 71)

end Sys2Proof.Machine
end

