-- ==== Sys2Proof/Machine/MathFn.lean ====
section
/-! DEFINITION. The functions of R144: the FP32 value nearest to the exact result. A function is evaluated
in fixed point with a stated error, at rising precision, until both ends of the enclosing interval round to
the same FP32 value; exact results are handled apart. -/

namespace Sys2Proof.Machine

/-- Tries an approximation v * 2^e whose error is below 4,096 units of the last place, at rising
precisions, until it decides the rounding. -/
def decideRound (neg : Bool) (g : Nat → Nat × Int) : List Nat → Nat
  | [] => 0
  | p :: ps =>
    let (v, e) := g p
    let lo := toF32 (.fin neg (v - 4096) e)
    let hi := toF32 (.fin neg (v + 4096) e)
    if lo = hi ∨ ps = [] then toF32 (.fin neg v e) else decideRound neg g ps

/-- The precisions tried, in bits. -/
def precisions : List Nat := [96, 192, 384, 768]

/-- Product of two fixed-point numbers of p fraction bits. -/
def fixMul (p x y : Nat) : Nat := x * y / 2 ^ p

/-- e^x for x in [0, 1), p fraction bits, by its series. -/
def expSeries (p x : Nat) : Nat :=
  let step := fun (acc : Nat × Nat) (k : Nat) =>
    let t := fixMul p acc.1 x / (k + 1)
    (t, acc.2 + t)
  ((List.range p).foldl step (2 ^ p, 2 ^ p)).2

/-- 2 * atanh(z) for z in [0, 1/2], p fraction bits. -/
def atanhSeries (p z : Nat) : Nat :=
  let z2 := fixMul p z z
  let step := fun (acc : Nat × Nat) (k : Nat) => (fixMul p acc.1 z2, acc.2 + acc.1 / (2 * k + 1))
  2 * ((List.range (p / 2 + 1)).foldl step (z, 0)).2

/-- ln 2 with p fraction bits. -/
def ln2Fix (p : Nat) : Nat := atanhSeries p (2 ^ p / 3)

/-- ln x for x in [1, 2) given with p fraction bits. -/
def lnFix (p x : Nat) : Nat := atanhSeries p ((x - 2 ^ p) * 2 ^ p / (x + 2 ^ p))

/-- 2^f for f in [0, 1), p fraction bits. -/
def exp2Fix (p f : Nat) : Nat := expSeries p (fixMul p f (ln2Fix p))

/-- The integer part and the fraction, p bits, of (-1)^neg * m * 2^e. -/
def intFrac (p : Nat) (neg : Bool) (m : Nat) (e : Int) : Int × Nat :=
  let v : Nat := if 0 ≤ e + p then m * 2 ^ (e + p).toNat else m / 2 ^ (-(e + p)).toNat
  let s : Int := if neg then -(v : Int) else v
  (s / 2 ^ p, (s % 2 ^ p).toNat)

/-- Whether m * 2^e is an integer. -/
def isInteger (m : Nat) (e : Int) : Bool := decide (0 ≤ e) || m % 2 ^ (-e).toNat == 0

/-- EXP2. -/
def exp2F (w : Nat) : Nat :=
  match f32 w with
  | .nan => Fmt.nanCode .fp32
  | .inf neg => if neg then 0 else toF32 (.inf false)
  | .fin neg m e =>
    if m = 0 then toF32 Fp.one
    else if 10 ≤ floorLog2 m e then (if neg then 0 else toF32 (.inf false))
    else if isInteger m e then toF32 (.fin false 1 (intFrac 0 neg m e).1)
    else
      decideRound false (fun p =>
        let (n, f) := intFrac p neg m e
        (exp2Fix p f, n - p)) precisions

/-- LOG2. -/
def log2F (w : Nat) : Nat :=
  match f32 w with
  | .nan => Fmt.nanCode .fp32
  | .inf neg => if neg then Fmt.nanCode .fp32 else toF32 (.inf false)
  | .fin neg m e =>
    if m = 0 then toF32 (.inf true)
    else if neg then Fmt.nanCode .fp32
    else
      let k := m.log2
      let n : Int := e + k
      if m = 2 ^ k then toF32 (Fp.ofInt n 0)
      else
        decideRound (decide (n < 0)) (fun p =>
          let l := lnFix p (m * 2 ^ p / 2 ^ k) * 2 ^ p / ln2Fix p
          let v : Int := n * 2 ^ p + l
          (v.natAbs, -(p : Int))) precisions

/-- RCP. -/
def rcpF (w : Nat) : Nat := toF32 (Fp.one.div (f32 w))

/-- RSQRT. -/
def rsqrtF (w : Nat) : Nat :=
  match f32 w with
  | .nan => Fmt.nanCode .fp32
  | .inf neg => if neg then Fmt.nanCode .fp32 else 0
  | .fin neg m e =>
    if m = 0 then toF32 (.inf neg)
    else if neg then Fmt.nanCode .fp32
    else
      let (m, e) := if e % 2 = 0 then (m, e) else (2 * m, e - 1)
      let n := 2 ^ 160 / m
      let r := isqrt n
      toF32 (sticky false r (-(e / 2) - 80) (r * r != n || 2 ^ 160 % m != 0))

/-- TANH. Below 2^-13 the nearest value is the operand; from 16 on it is one. -/
def tanhF (w : Nat) : Nat :=
  match f32 w with
  | .nan => Fmt.nanCode .fp32
  | .inf neg => toF32 (.fin neg 1 0)
  | .fin neg m e =>
    if m = 0 then toF32 (.fin neg 0 0)
    else if floorLog2 m e < -13 then w
    else if 4 ≤ floorLog2 m e then toF32 (.fin neg 1 0)
    else
      decideRound neg (fun p =>
        let a := (intFrac p false m e).2 + (intFrac p false m e).1.toNat * 2 ^ p
        let t := 2 * a * 2 ^ p / ln2Fix p
        let n := t / 2 ^ p
        let x := exp2Fix p (t % 2 ^ p) * 2 ^ n
        ((x - 2 ^ p) * 2 ^ p / (x + 2 ^ p), -(p : Int))) precisions

/-- arctan(1/n) with p fraction bits. -/
def atanInv (p n : Nat) : Nat :=
  let step := fun (acc : Nat × Int) (k : Nat) =>
    let t : Int := acc.1 / (2 * k + 1)
    (acc.1 / (n * n), if k % 2 = 0 then acc.2 + t else acc.2 - t)
  ((List.range p).foldl step (2 ^ p / n, 0)).2.toNat

/-- π with p fraction bits, by Machin's formula. -/
def piFix (p : Nat) : Nat := 16 * atanInv p 5 - 4 * atanInv p 239

/-- ERF: from 4 on the nearest value is one. -/
def erfF (w : Nat) : Nat :=
  match f32 w with
  | .nan => Fmt.nanCode .fp32
  | .inf neg => toF32 (.fin neg 1 0)
  | .fin neg m e =>
    if m = 0 then toF32 (.fin neg 0 0)
    else if 2 ≤ floorLog2 m e then toF32 (.fin neg 1 0)
    else
      decideRound neg (fun p =>
        let q := p + 40
        let a2 := (intFrac q false (m * m) (2 * e)).2 + (intFrac q false (m * m) (2 * e)).1.toNat * 2 ^ q
        let step := fun (acc : Nat × Int) (k : Nat) =>
          let t : Int := acc.1 / (2 * k + 1)
          (fixMul q acc.1 a2 / (k + 1), if k % 2 = 0 then acc.2 + t else acc.2 - t)
        let s := ((List.range (p + 60)).foldl step (2 ^ q, 0)).2.toNat
        let root := isqrt (piFix q * 2 ^ q)
        (2 * s * 2 ^ q / root / 2 ^ 40 * m / 2 ^ m.log2, e + m.log2 - p)) precisions

end Sys2Proof.Machine
end

