-- ==== Sys2Proof/Machine/Codes.lean ====
section
/-! DEFINITION. The error codes of R462, each under its name in the spec. -/

namespace Sys2Proof.Machine

/-- `E_RANGE`: A field value, length or address outside its permitted range. -/
def eRange : Code := 0x0101

/-- `E_ALIGN`: An address, length or access not aligned as required. -/
def eAlign : Code := 0x0102

/-- `E_RESERVED_NONZERO`: A reserved bit set. -/
def eReservedNonzero : Code := 0x0103

/-- `E_ADP_UNKNOWN`: Adapter name with no READY slot in the domain. -/
def eAdpUnknown : Code := 0x0110

/-- `E_STATE`: Operation not permitted in the present state. -/
def eState : Code := 0x0201

/-- `E_DISABLED`: Target disabled or draining. -/
def eDisabled : Code := 0x0202

/-- `E_KV_STALE`: Stale KV handle reference. -/
def eKvStale : Code := 0x0210

/-- `E_REQ_STALE`: Stale request reference. -/
def eReqStale : Code := 0x0211

/-- `E_UPD_EPOCH`: Block epochs do not permit the operation. -/
def eUpdEpoch : Code := 0x0212

/-- `E_NAN_LOGIT`: NaN logit, or every logit −inf. -/
def eNanLogit : Code := 0x0213

/-- `E_DFS_BASE`: Difference record does not match its base. -/
def eDfsBase : Code := 0x0214

/-- `E_CC_YIELD_LATE`: Catch-crop job missed its yield limit. -/
def eCcYieldLate : Code := 0x0215

/-- `E_UPD_ABORTED`: Update commands ended by `UPD_ABORT`. -/
def eUpdAborted : Code := 0x0216

/-- `E_PROG_FAULT`: A cluster program stopped on a double fault. -/
def eProgFault : Code := 0x0217

/-- `E_PERM`: Access or command outside the requester's partition, domain or role. -/
def ePerm : Code := 0x0301

/-- `E_EXHAUSTED`: A table or buffer has no free entry. -/
def eExhausted : Code := 0x0401

/-- `E_KV_FULL`: No KV handle or frame available. -/
def eKvFull : Code := 0x0402

/-- `E_KV_QUOTA`: Domain's KV page quota reached. -/
def eKvQuota : Code := 0x0410

/-- `E_REQ_QUOTA`: Domain's request slot quota reached. -/
def eReqQuota : Code := 0x0411

/-- `E_ADP_FULL`: No adapter slot free. -/
def eAdpFull : Code := 0x0412

/-- `E_GRAFT_FULL`: No graft entry free. -/
def eGraftFull : Code := 0x0413

/-- `E_COLL_FULL`: 4,096 collectives outstanding. -/
def eCollFull : Code := 0x0414

/-- `E_RAKE_QUOTA`: Window above the LD's or domain's Rake slot quota. -/
def eRakeQuota : Code := 0x0415

/-- `E_TRL_SPAN`: Sequence exceeds the trellis's stretch pages. -/
def eTrlSpan : Code := 0x0416

/-- `E_CPL_RING_FULL`: No reserved place in the request completion ring. -/
def eCplRingFull : Code := 0x0417

/-- `E_POISON`: Uncorrectable or poisoned data. -/
def ePoison : Code := 0x0501

/-- `E_MEMBER_LOST`: A partner or member was declared lost. -/
def eMemberLost : Code := 0x0601

/-- `E_COLL_TIMEOUT`: Collective or round watchdog expired. -/
def eCollTimeout : Code := 0x0602

/-- `E_NO_ROUTE`: No route to the DID. -/
def eNoRoute : Code := 0x0603

/-- `E_FAB_TIMEOUT`: Cassum request unanswered. -/
def eFabTimeout : Code := 0x0604

/-- `E_AX96_HEADROOM`: AX96 range or weight check failed. -/
def eAx96Headroom : Code := 0x0620

/-- `E_COLL_MISMATCH`: Members disagree on a collective or turn. -/
def eCollMismatch : Code := 0x0621

/-- `E_COLL_POISON`: Rake slot re-formation failed. -/
def eCollPoison : Code := 0x0622

/-- `E_COLL_CORRUPT`: Chunk failed its CRC five times. -/
def eCollCorrupt : Code := 0x0623

/-- `E_COLL_ABORTED`: Collective or turn aborted by software. -/
def eCollAborted : Code := 0x0624

/-- `E_KV_HANDOFF`: KV page failed its fourth handoff check. -/
def eKvHandoff : Code := 0x0630

/-- `E_FETCH_CORRUPT`: Fetched block failed its fingerprint four times. -/
def eFetchCorrupt : Code := 0x0631

/-- `E_FETCH_TIMEOUT`: FETCH made no progress within its watchdog. -/
def eFetchTimeout : Code := 0x0632

/-- `E_SIG_INVALID`: LMS signature does not verify. -/
def eSigInvalid : Code := 0x0701

/-- `E_SIG_ALGO`: Unsupported LMS or LMOTS type, or HSS depth. -/
def eSigAlgo : Code := 0x0702

/-- `E_KEY_UNWRAP`: ML-KEM decapsulation or key unwrap failed. -/
def eKeyUnwrap : Code := 0x0703

/-- `E_AUTH_TAG`: AES-256-GCM tag does not verify. -/
def eAuthTag : Code := 0x0704

/-- `E_HMAC`: Difference-record HMAC does not verify. -/
def eHmac : Code := 0x0705

/-- `E_ATTEST_EXHAUSTED`: No level-1 attestation leaf remains. -/
def eAttestExhausted : Code := 0x0706

/-- `E_ROLLBACK`: Version below the stored minimum. -/
def eRollback : Code := 0x0707

/-- `E_DOMAIN_KEY`: Domain holds no key for the operation. -/
def eDomainKey : Code := 0x0708

/-- `E_NVM_ABSENT`: Configuration NVM does not answer, or its lines are faulty. -/
def eNvmAbsent : Code := 0x0801

/-- `E_NVM_IMAGE`: Configuration image malformed. -/
def eNvmImage : Code := 0x0802

/-- `E_NVM_SIG`: Configuration image signature does not verify. -/
def eNvmSig : Code := 0x0803

/-- `E_SELFTEST`: A unit failed its start-time self-test. -/
def eSelftest : Code := 0x0804

/-- `E_START_FATAL`: Fatal error before service level 2. -/
def eStartFatal : Code := 0x0805

/-- `E_FALLOW`: Operation unavailable in fallow mode. -/
def eFallow : Code := 0x0806

end Sys2Proof.Machine
end

