-- ==== Sys2Proof/Machine/Ops.lean ====
section
/-! DEFINITION. The named operations over the state: table accessors, the device address map and its
checks (R24 to R32, R467, R468), and memory reads and writes through the error-correcting codes (R187
to R208). -/

namespace Sys2Proof.Machine

/-- The outcome of a command. -/
abbrev Result := Host.Outcome State Fault Refusal

/-- A command whose whole effect is on the device part of the state. -/
def onDev (f : Dev → Dev) (s : State) : Result := .next { s with dev := f s.dev }

/-- As `onDev`, for an effect that reads the local elapsed counter (R61). -/
def onDevAt (f : W64 → Dev → Dev) (s : State) : Result := .next { s with dev := f s.now s.dev }

/-- Sends a back-invalidation snoop for each line of a list that waits for none yet (R437). -/
def Dev.backInvalidate (ls : List Nat) (d : Dev) : Dev :=
  ls.foldl (fun d l => if d.biWait.contains l then d else { d with biWait := d.biWait ++ [l], out := d.out ++ [.backInvalidate l] }) d

/-- A command of an engine that meets lines the host may hold waits: it has no effect but their back-invalidation
(R437). `f` is the whole effect, run with no tracked line met yet. -/
def State.settleHost (s : State) (f : State → State) : State :=
  if s.dev.snoops.isEmpty then f s
  else
    let t := f { s with dev := { s.dev with touched := [] } }
    if t.dev.touched.isEmpty then t else { s with dev := s.dev.backInvalidate t.dev.touched }

/-- As `onDev`, for a command that reads or writes HBM3E or LPDDR5X. -/
def onMem (f : Dev → Dev) (s : State) : Result := .next (s.settleHost fun s => { s with dev := f s.dev })

/-- As `onMem`, for an effect that reads the local elapsed counter. -/
def onMemAt (f : W64 → Dev → Dev) (s : State) : Result :=
  .next (s.settleHost fun s => { s with dev := f s.now s.dev })

/-- An event whose condition does not hold leaves the device as it is. -/
def guarded (c : Bool) (f : Dev → Dev) (d : Dev) : Dev := if c then f d else d

/-! ## Table accessors -/

/-- LD n; an LD that no image populates has an empty layout. -/
def Dev.ld (d : Dev) (n : Nat) : Ld := Map.get d.lds n (Ld.init Layout.init 0 0)
def Dev.setLd (d : Dev) (n : Nat) (x : Ld) : Dev := { d with lds := Map.set d.lds n x }
def Dev.modLd (n : Nat) (f : Ld → Ld) (d : Dev) : Dev := d.setLd n (f (d.ld n))

/-- Device cluster n (R20). -/
def Dev.clu (d : Dev) (n : Nat) : Cluster := Map.get d.clusters n Cluster.init
def Dev.setClu (d : Dev) (n : Nat) (x : Cluster) : Dev := { d with clusters := Map.set d.clusters n x }
def Dev.modClu (n : Nat) (f : Cluster → Cluster) (d : Dev) : Dev := d.setClu n (f (d.clu n))

/-- Core k of a cluster. -/
def Cluster.core (c : Cluster) (k : Nat) : Core := Map.get c.cores k Core.init
def Cluster.setCore (c : Cluster) (k : Nat) (x : Core) : Cluster := { c with cores := Map.set c.cores k x }

def Dev.die (d : Dev) (n : Nat) : Die := Map.get d.dies n Die.init
def Dev.modDie (n : Nat) (f : Die → Die) (d : Dev) : Dev := { d with dies := Map.set d.dies n (f (d.die n)) }

/-- The key of a memory unit in the unit table. -/
def unitKey : MemUnit → Nat
  | .stack n => n
  | .channel n => 32 + n
  | .dieSram n => 64 + n
  | .iodSram n => 80 + n

def Dev.unit (d : Dev) (u : MemUnit) : Unit := Map.get d.units (unitKey u) Unit.init
def Dev.modUnit (u : MemUnit) (f : Unit → Unit) (d : Dev) : Dev :=
  { d with units := Map.set d.units (unitKey u) (f (d.unit u)) }

def Dev.port (d : Dev) (n : Nat) : Port := Map.get d.ports n Port.init
def Dev.modPort (n : Nat) (f : Port → Port) (d : Dev) : Dev := { d with ports := Map.set d.ports n (f (d.port n)) }

def Dev.dom (d : Dev) (n : Nat) : Domain := Map.get d.domains n Domain.init
def Dev.modDom (n : Nat) (f : Domain → Domain) (d : Dev) : Dev :=
  { d with domains := Map.set d.domains n (f (d.dom n)) }

def Dev.tag (d : Dev) (n : Nat) : PageTag := Map.get d.tags n PageTag.init
def Dev.setTag (d : Dev) (n : Nat) (t : PageTag) : Dev := { d with tags := Map.set d.tags n t }

/-- Page-map entry h, the global handle die * 131072 + index (R223). -/
def Dev.kvE (d : Dev) (h : Nat) : KvEntry := Map.get d.kv h KvEntry.init
def Dev.setKv (d : Dev) (h : Nat) (e : KvEntry) : Dev := { d with kv := Map.set d.kv h e }
def Dev.modKv (h : Nat) (f : KvEntry → KvEntry) (d : Dev) : Dev := d.setKv h (f (d.kvE h))

def Dev.req (d : Dev) (n : Nat) : ReqSlot := Map.get d.reqs n ReqSlot.init
def Dev.modReq (n : Nat) (f : ReqSlot → ReqSlot) (d : Dev) : Dev :=
  { d with reqs := Map.set d.reqs n (f (d.req n)) }

def Dev.adp (d : Dev) (n : Nat) : Adapter := Map.get d.adapters n Adapter.init
def Dev.modAdp (n : Nat) (f : Adapter → Adapter) (d : Dev) : Dev :=
  { d with adapters := Map.set d.adapters n (f (d.adp n)) }

/-- Puts a message on one of the device's links. -/
def Dev.emit (o : Output) (d : Dev) : Dev := { d with out := d.out ++ [o] }

/-- Takes a fresh free value. -/
def Dev.draw (d : Dev) : Dev × Nat := ({ d with free := d.free + 1 }, Config.freeNat d.free)

/-- A fresh identifier of an accepted job. -/
def Dev.fresh (d : Dev) : Dev × Nat := ({ d with nextId := d.nextId + 1 }, d.nextId)

/-- Numbers of the populated compute LDs (R4). -/
def Dev.compute (d : Dev) : List Nat := (List.range 10).filter fun n => (d.ld n).lay.populated

/-! ## The address map (R24 to R26) -/

/-- What an address names. -/
inductive Place where
  | hbm (stack off : Nat)
  | lp (chan off : Nat)
  | dieSram (die off : Nat)
  | store (clu off : Nat)
  | ocache (clu core off : Nat)
  | iodSram (iod off : Nat)
  | regs
  | nowhere
  deriving DecidableEq, Repr

def stackBytes : Nat := 0x1800000000
def dieWindow : Nat := 0x4000000000
def chanWindow : Nat := 0x2000000000
def lpBase : Nat := 0x40000000000
def sramBase : Nat := 0x80000000000
def sramWindow : Nat := 0x20000000
def iodBase : Nat := 0x80200000000
def iodWindow : Nat := 0x4000000
def frameBytes : Nat := 0x400000

/-- The decode of R24 to R26 and R184. -/
def placeOf (a : Nat) : Place :=
  if a < 10 * dieWindow then
    let o := a % dieWindow
    if o < 2 * stackBytes then .hbm (2 * (a / dieWindow) + o / stackBytes) (o % stackBytes) else .nowhere
  else if a < lpBase then .nowhere
  else if a < lpBase + 24 * chanWindow then .lp ((a - lpBase) / chanWindow) ((a - lpBase) % chanWindow)
  else if a < sramBase then .nowhere
  else if a < sramBase + 10 * sramWindow then
    let die := (a - sramBase) / sramWindow
    let o := (a - sramBase) % sramWindow
    if o < 0x2800000 then .dieSram die o
    else if o < 0x4000000 then .nowhere
    else if o < 0x5000000 then .store (256 * die + (o - 0x4000000) / 0x10000) ((o - 0x4000000) % 0x10000)
    else if o < 0x10000000 then .nowhere
    else
      let c := (o - 0x10000000) / 0x8000
      if (o - 0x10000000) % 0x8000 < 0x6000 then
        .ocache (256 * die + c / 32) (c % 32) ((o - 0x10000000) % 0x8000)
      else .nowhere
  else if a < iodBase then .nowhere
  else if a < iodBase + 2 * iodWindow then
    if (a - iodBase) % iodWindow < 0x2800000 then .iodSram ((a - iodBase) / iodWindow) ((a - iodBase) % iodWindow)
    else .nowhere
  else if 0xFF000000000 ≤ a ∧ a < 0x100000000000 then .regs
  else .nowhere

/-- The address of a byte of a device cluster's store (R26). -/
def storeAddr (clu off : Nat) : Nat :=
  sramBase + clu / 256 * sramWindow + 0x4000000 + clu % 256 * 0x10000 + off

/-- The address of a byte of a core's operand cache (R26). -/
def cacheAddr (clu core off : Nat) : Nat :=
  sramBase + clu / 256 * sramWindow + 0x10000000 + (clu % 256 * 32 + core) * 0x8000 + off

/-- The address of a byte of a die's SRAM. -/
def dieSramAddr (die off : Nat) : Nat := sramBase + die * sramWindow + off

/-- The address of byte off of HBM3E stack n (R184). -/
def stackAddr (n off : Nat) : Nat := n / 2 * dieWindow + n % 2 * stackBytes + off

/-- The address of byte off of LPDDR5X channel c (R25). -/
def chanAddr (c off : Nat) : Nat := lpBase + c * chanWindow + off

/-- The memory unit that protects an address (R197, R213). -/
def unitOf (a : Nat) : Option MemUnit :=
  match placeOf a with
  | .hbm n _ => some (.stack n)
  | .lp c _ => some (.channel c)
  | .dieSram d _ => some (.dieSram d)
  | .store c _ => some (.dieSram (c / 256))
  | .ocache c _ _ => some (.dieSram (c / 256))
  | .iodSram i _ => some (.iodSram i)
  | .regs => none
  | .nowhere => none

/-- Bytes of a codeword at an address (R187). -/
def cwBytes (a : Nat) : Nat := if a < lpBase then 32 else if a < sramBase then 128 else 8

/-- The codeword that holds an address: its first byte. -/
def cwOf (a : Nat) : Nat := a / cwBytes a * cwBytes a

/-- The HBM3E pseudo-channel of an address (R185); 0 elsewhere. -/
def pchOf (a : Nat) : Nat :=
  match placeOf a with
  | .hbm _ o => (bits o 12 8).xor ((bits o 17 13).xor (bits o 22 18))
  | _ => 0

/-- The 4 MiB frame number of R467 that holds an address of HBM3E or LPDDR5X. -/
def frameOf (a : Nat) : Option Nat :=
  match placeOf a with
  | .hbm n o => some (n * 24576 + o / frameBytes)
  | .lp c o => some (491520 + c * 32768 + o / frameBytes)
  | _ => none

/-- The first address of frame n of R467. -/
def frameAddr (n : Nat) : Nat :=
  if n < 491520 then stackAddr (n / 24576) (n % 24576 * frameBytes)
  else chanAddr ((n - 491520) / 32768) ((n - 491520) % 32768 * frameBytes)

/-- The LD whose `die_mask` holds a die, 15 when none. -/
def Dev.ldOfDie (d : Dev) (die : Nat) : Nat :=
  ((List.range 10).find? fun n => (d.ld n).lay.populated && (d.ld n).lay.dieMask.getLsbD die).getD 15

/-- The LD whose `channel_mask` holds a channel, 15 when none. -/
def Dev.ldOfChan (d : Dev) (c : Nat) : Nat :=
  ((List.range 10).find? fun n => (d.ld n).lay.populated && (d.ld n).lay.chanMask.getLsbD c).getD 15

/-- The LD whose `port_mask` holds a port, 15 when none. -/
def Dev.ldOfPort (d : Dev) (p : Nat) : Nat :=
  ((List.range 10).find? fun n => (d.ld n).lay.populated && (d.ld n).lay.portMask.getLsbD p).getD 15

/-- The LD that owns a memory unit (R213); 15 for the I/O-die SRAM. -/
def Dev.ldOfUnit (d : Dev) : MemUnit → Nat
  | .stack n => d.ldOfDie (n / 2)
  | .channel c => d.ldOfChan c
  | .dieSram n => d.ldOfDie n
  | .iodSram _ => 15

/-- The LD that owns an address. -/
def Dev.ldOfAddr (d : Dev) (a : Nat) : Nat := (unitOf a).elim 15 d.ldOfUnit

/-- The LD that owns the window of an address (R32, R34). -/
def Dev.windowLd (d : Dev) (a : Nat) : Nat :=
  if a < 10 * dieWindow then d.ldOfDie (a / dieWindow)
  else if lpBase ≤ a ∧ a < lpBase + 24 * chanWindow then d.ldOfChan ((a - lpBase) / chanWindow)
  else if sramBase ≤ a ∧ a < sramBase + 10 * sramWindow then d.ldOfDie ((a - sramBase) / sramWindow)
  else 15

/-- Whether an LD owns the window of an address: LD 15 owns none (R32). -/
def Dev.ownsWindow (d : Dev) (ld a : Nat) : Bool := decide (ld < 10) && d.windowLd a == ld

/-- Whether a unit has rows and lanes: a stack or a channel. -/
def isDram : MemUnit → Bool
  | .stack _ => true
  | .channel _ => true
  | _ => false

/-- Whether the image excludes a unit, which is then unpopulated (R496). -/
def Dev.excluded (d : Dev) : MemUnit → Bool
  | .stack n => d.boot.image.any fun i => i.exStacks.getLsbD n || i.exDies.getLsbD (n / 2)
  | .channel c => d.boot.image.any fun i => i.exChans.getLsbD c
  | .dieSram n => d.boot.image.any fun i => i.exDies.getLsbD n
  | .iodSram _ => false

/-- Whether an address is unpopulated (R30, R496). DESIGN CHOICE (log 104): the memory of a stack, a channel or a die that
failed its self-test and so stays out of service (R212) answers as unpopulated. -/
def Dev.unpopulated (d : Dev) (a : Nat) : Bool :=
  match unitOf a with
  | some u => (isDram u && d.excluded u) || (d.unit u).failed
  | none => placeOf a != .regs

/-- Whether an address lies in a reserved area of the image, which only its engines reach (R467). -/
def Dev.reserved (d : Dev) (a : Nat) : Bool :=
  d.boot.image.any fun i =>
    (i.reqArea ≤ a && a < i.reqArea + 0x4000000) || (i.tagArea ≤ a && a < i.tagArea + 0x800000)

/-! ## Who may reach what -/

/-- A requester of R466 with what its permission depends on. `upd` is an update engine with the die it
runs on, which also reaches the cluster stores of its die (R29). -/
inductive Rq where
  | clu (n : Nat)
  | eng (ld dom : Nat)
  | upd (ld dom die : Nat)
  | cxl (ld : Nat)
  | cassum (ld : Nat)
  | mc
  deriving DecidableEq, Repr

/-- The LD for which a requester acts. -/
def Dev.rqLd (d : Dev) : Rq → Nat
  | .clu n => d.ldOfDie (n / 256)
  | .eng l _ => l
  | .upd l _ _ => l
  | .cxl l => l
  | .cassum l => l
  | .mc => 15

/-- The page check of R468 for a frame. -/
def Dev.tagPermits (d : Dev) (rq : Rq) (write : Bool) (frame : Nat) : Bool :=
  let t := d.tag frame
  match t.st with
  | .assigned =>
    match rq with
    | .clu n => t.domain == (d.clu n).domain || (t.shared && !write)
    | .eng _ dom => t.domain.toNat == dom || (t.shared && !write)
    | .upd _ dom _ => t.domain.toNat == dom || (t.shared && !write)
    | .cxl _ => t.host
    | .cassum _ => t.fabric
    | .mc => true
  | _ => rq == .mc

/-- Die-SRAM offsets of the KV rings (R233, in the KV staging) and of the collective rings (R330). -/
def kvRingOff : Nat := 0x100000
def colRingOff : Nat := 0x2600000

/-- Die-SRAM offset of a member's swap-wave bitmap, in its lowest die (R287). -/
def waveTableOff : Nat := 0x2500000

/-- Bytes of the page-map slice at the start of a die's SRAM window (R222). -/
def mapSliceBytes : Nat := 0x100000

/-- The lowest die of an LD. -/
def Dev.firstDie (d : Dev) (ld : Nat) : Nat := ((List.range 10).find? fun n => (d.ld ld).lay.dieMask.getLsbD n).getD 0

/-- Whether a requester may reach a byte that is populated (R27, R29, R32, R468). The page-map slice of a
die is reached by its engines alone, which use the entries and no address (R222). The rings of a cluster are written by
that cluster alone (R233, R330), and the swap-wave bitmap only by the origin's request engine (R287), whose write
PACKET_RECEIVE admits. -/
def Dev.mayReach (d : Dev) (rq : Rq) (write : Bool) (a : Nat) : Bool :=
  if rq == .mc then true
  else
    match placeOf a with
    | .hbm _ _ => d.ownsWindow (d.rqLd rq) a && (frameOf a).any (d.tagPermits rq write)
    | .lp _ _ => d.ownsWindow (d.rqLd rq) a && !d.reserved a && (frameOf a).any (d.tagPermits rq write)
    | .dieSram n o =>
      d.ownsWindow (d.rqLd rq) a && decide (mapSliceBytes ≤ o) &&
        (!write ||
          (if kvRingOff ≤ o ∧ o < kvRingOff + 0x40000 then rq == .clu (256 * n + (o - kvRingOff) / 0x400)
           else if colRingOff ≤ o ∧ o < colRingOff + 0x40000 then rq == .clu (256 * n + (o - colRingOff) / 0x400)
           else !(waveTableOff ≤ o && o < waveTableOff + 0x8000 && d.firstDie (d.rqLd rq) == n)))
    | .store n _ =>
      match rq with
      | .clu m => n == m
      | .upd _ _ die => n / 256 == die
      | _ => false
    | .ocache n _ _ => rq == .clu n
    | .iodSram _ _ => false
    | .regs => false
    | .nowhere => false

/-- The addresses at which the populated ranges, owners and frames of [a, a + n) can change: its first
and last byte and every multiple of the granule between them. -/
def samples (a n : Nat) : List Nat :=
  let g := if a < sramBase then frameBytes else 0x400
  if n = 0 then []
  else a :: ((List.range ((a + n - 1) / g - a / g)).map fun i => (a / g + 1 + i) * g)

/-- The bus error of an access of n bytes: E_RANGE when any byte is unpopulated, else E_PERM when any
byte is out of reach (R30). -/
def Dev.busCode (d : Dev) (rq : Rq) (write : Bool) (a n : Nat) : Option Code :=
  if (samples a n).any d.unpopulated then some eRange
  else if (samples a n).any fun x => !d.mayReach rq write x then some ePerm
  else none

/-! ## Encryption of LPDDR5X (R189, R190, R469) -/

/-- The number drawn for the key of a slot: that of the last reset of its LD, else that of the start. -/
def Dev.slotSeed (d : Dev) (slot : Nat) : Option Nat :=
  let own := (List.range 16).find? fun n => decide ((d.ld n).lay.domBase ≤ slot) && decide (slot < (d.ld n).lay.domBase + (d.ld n).lay.domCount)
  (own.bind fun n => Map.find d.keySeeds n).or (Map.find d.keySeeds 16)

/-- The key in a slot of the key store: that of an opened or closed domain, else the slot's start key. -/
def Dev.slotKey (d : Dev) (slot : Nat) : List Byte :=
  if (d.dom slot).memKey.isEmpty then (d.slotSeed slot).elim [] fun f => Config.startKey f slot else (d.dom slot).memKey

/-- The domain whose tag an access to an address carries: `domain` of the KV entry that holds its frame, or of its page
tag (R469). -/
def Dev.keyDomain (d : Dev) (a : Nat) : Nat :=
  match frameOf a with
  | none => 0
  | some f =>
    let id : BitVec 22 := BitVec.ofNat 22 (a / frameBytes)
    let holds := fun (e : KvEntry) => e.st != .free && e.st != .retired && (e.frame == id || e.target == some id || e.old.contains id)
    if (d.tag f).st = .kv then ((d.kv.find? fun e => holds e.2).map fun e => e.2.domain.toNat).getD (d.tag f).domain.toNat
    else (d.tag f).domain.toNat

/-- The ranges of `lpKeys` that a range meets, latest first, and the key of the start's zero fill (R211). -/
def Dev.keyRanges (d : Dev) (a n : Nat) : List (Nat × Nat × List Byte) :=
  d.lpKeys.filter fun r => decide (r.1 < a + n) && decide (a < r.1 + r.2.1)
def Dev.fillKey (d : Dev) : List Byte := (Map.find d.keySeeds 16).elim [] fun f => Config.startKey f 0

/-- The key under which a codeword stands encrypted. -/
def Dev.keyAt (d : Dev) (cw : Nat) : List Byte := ((d.keyRanges cw 1).head?.map fun r => r.2.2).getD d.fillKey

/-- The one key under which all of a range stands encrypted, when that is seen from the latest range that it meets. -/
def Dev.wholeKey (d : Dev) (a n : Nat) : Option (List Byte) :=
  match d.keyRanges a n with
  | [] => some d.fillKey
  | r :: _ => if r.1 ≤ a ∧ a + n ≤ r.1 + r.2.1 then some r.2.2 else none

/-- The codewords that [a, a + n) touches, in order. -/
def cwsOf (a n : Nat) : List Nat :=
  if n = 0 then []
  else (List.range ((a + n - 1) / cwBytes a + 1 - a / cwBytes a)).map fun i => (a / cwBytes a + i) * cwBytes a

/-- A range cut at frame boundaries. -/
def framePieces (a n : Nat) : List (Nat × Nat) :=
  (samples a n).map fun x => (x, min (a + n) ((x / frameBytes + 1) * frameBytes) - x)

/-- The LPDDR5X codewords of a range that stand encrypted under another key than an access now carries. -/
def Dev.foreign (d : Dev) (a n : Nat) : List Nat :=
  if lpBase ≤ a ∧ a < sramBase then
    (framePieces a n).flatMap fun p =>
      let k := d.slotKey (d.keyDomain p.1)
      if d.wholeKey p.1 p.2 = some k then [] else (cwsOf p.1 p.2).filter fun c => d.keyAt c != k
  else []

/-- The tweak of a codeword: its address shifted right by 7, as a 128-bit little-endian integer (R189). -/
def xtsTweak (cw : Nat) : List Byte := toBytes 16 (cw / 128)

/-- What a codeword reads as under another key than the one it was written under: its ciphertext, decrypted (R190). -/
def Dev.garbled (d : Dev) (cw : Nat) : List Byte :=
  Config.xtsDec (d.slotKey (d.keyDomain cw)) (xtsTweak cw) (Config.xtsEnc (d.keyAt cw) (xtsTweak cw) (Mem.readN memDefault d.mem cw 128))

/-- Memory as accesses to [a, a + n) now see it. -/
def Dev.seen (d : Dev) (a n : Nat) : Mem :=
  (d.foreign a n).foldl (fun m c => Mem.writeN memDefault m c (d.garbled c)) d.mem

/-- A write of [a, a + n) encrypts every codeword that it touches under the key that it carries (R189). -/
def Dev.seal (a n : Nat) (d : Dev) : Dev :=
  if d.foreign a n = [] then d
  else
    let keep := fun (ps : List (Nat × Nat × List Byte)) (p : Nat × Nat) =>
      let cws := cwsOf p.1 p.2
      let b := cws.headD 0
      let l := 128 * cws.length
      (b, l, d.slotKey (d.keyDomain p.1)) :: ps.filter fun r => !(decide (b ≤ r.1) && decide (r.1 + r.2.1 ≤ b + l))
    { d with mem := d.seen a n, lpKeys := (framePieces a n).foldl keep d.lpKeys }

/-! ## Errors, counters and repair (R192 to R208) -/

/-! Requester numbers of `ECC_LAST_INFO` (R214). -/

def reqScrub : Nat := 0
def reqClu : Nat := 1
def reqEng : Nat := 2
def reqRake : Nat := 3
def reqCxl : Nat := 4
def reqIo : Nat := 5
def reqCas : Nat := 6
def reqMc : Nat := 7
def reqOp : Nat := 8
def reqFetch : Nat := 9
def reqLaunch : Nat := 10

/-- How a codeword with given symbols in error reads; `corrected` lists the symbols that the code puts right. -/
inductive Verdict where
  | clean
  | corrected (symbols : List Nat)
  | uncorrectable
  | beyond
  deriving DecidableEq, Repr

/-- The largest number of unmarked symbols corrected and detected by the code of a unit, with the
number of its marked symbols (R192). -/
def codeReach (u : MemUnit) (marked : Nat) : Nat × Nat :=
  match u with
  | .stack _ => if marked = 0 then (1, 3) else (1, 2)
  | .channel _ => if marked = 0 then (4, 12) else (4, 8)
  | _ => (1, 2)

/-- The symbols of a codeword, check symbols included: bits for an SRAM (R192). -/
def codeSymbols : MemUnit → Nat
  | .stack _ => 36
  | .channel _ => 80
  | _ => 72

/-- The mark, among the symbols in error of an HBM3E codeword, of an error that the die corrects inside its own array (R193). -/
def odcMark : Nat := 256

/-- The verdict of R192 on a list of symbols in error. Of the symbols corrected, the unmarked ones come first. -/
def verdict (u : MemUnit) (marked syms : List Nat) : Verdict :=
  let s := (syms.filter (· < codeSymbols u)).eraseDups
  let e := s.filter fun x => !marked.contains x
  if s.isEmpty then .clean
  else if e.length ≤ (codeReach u marked.length).1 then .corrected (e ++ s.filter marked.contains)
  else if e.length ≤ (codeReach u marked.length).2 then .uncorrectable
  else .beyond

/-- The marked symbols of a unit's pseudo-channel. -/
def Unit.markedOf (x : Unit) (pch : Nat) : List Nat :=
  (x.marked.filter fun m => m.1 == pch).map Prod.snd

/-- Sets a bit of `ECC_EVT` in the owning LD and in LD 15 (R216). -/
def Dev.eccEvt (u : MemUnit) (b : Nat) (d : Dev) : Dev :=
  let f := fun (l : Ld) => { l with ecc := { l.ecc with evt := setBit l.ecc.evt b } }
  let o := d.ldOfUnit u
  let d := d.modLd 15 f
  if o = 15 then d else d.modLd o f

/-- Records a counted error (R215). -/
def Dev.eccRecord (u : MemUnit) (cw kind req symbol : Nat) (d : Dev) : Dev :=
  let l := d.ldOfUnit u
  d.modUnit u fun x =>
    if kind = 1 ∧ (x.last.kind = 2 ∨ x.last.kind = 3) then x
    else { x with last := { addr := BitVec.ofNat 44 cw, kind := BitVec.ofNat 2 kind,
                            req := BitVec.ofNat 4 req, symbol := BitVec.ofNat 7 symbol,
                            pch := BitVec.ofNat 5 (pchOf cw), ld := BitVec.ofNat 4 l } }

/-- The number of the row that holds a codeword. Rows of different pseudo-channels are different rows (R185). -/
def rowNum (u : MemUnit) (cw : Nat) : Nat :=
  match placeOf cw with
  | .hbm _ o => 32 * Config.rowOf (unitKey u) (pchOf cw) (bits o 36 13 * 256 + bits o 7 0) + pchOf cw
  | .lp _ o => 32 * Config.rowOf (unitKey u) 0 o
  | _ => 0

/-- Queues the row of a codeword for soft repair (R206); `cmd` marks one that the host named. DESIGN CHOICE (log 30): the
address recorded for the row is that of the codeword that queued it first. -/
def Dev.queueRow (u : MemUnit) (cw : Nat) (cmd : Bool) (d : Dev) : Dev :=
  let row := rowNum u cw
  if isDram u then
    d.modUnit u fun x =>
      if x.queued.any (fun q => q.row == row) then
        { x with queued := x.queued.map fun q => if q.row = row then { q with cmd := q.cmd || cmd } else q }
      else { x with queued := x.queued ++ [{ row := row, addr := BitVec.ofNat 44 cw, cmd := cmd }] }
  else d

/-- Counts a corrected error of a codeword's row in the table of the 64 most recent rows, and queues the row when
its count has reached `ce_repair` (R206). -/
def Dev.hitRow (u : MemUnit) (cw : Nat) (d : Dev) : Dev :=
  let x := d.unit u
  let row := rowNum u cw
  let n := ((x.rows.find? fun r => r.1 == row).map Prod.snd).getD 0 + 1
  let rows := ((row, n) :: x.rows.filter fun r => r.1 != row).take 64
  let d := d.modUnit u fun x => { x with rows := rows }
  if d.memCtl.ceRepair.toNat ≤ n then d.queueRow u cw false else d

/-- How many symbols of a pseudo-channel or a package can be marked erased (R192). -/
def markLimit : MemUnit → Nat
  | .stack _ => 1
  | _ => 4

/-- Notes a run-time correction of an unmarked symbol; at 16 distinct rows the symbol is marked erased,
within the limits of R192, and `lane` is set (R205). -/
def Dev.hitLane (u : MemUnit) (cw symbol : Nat) (d : Dev) : Dev :=
  let x := d.unit u
  let pch := pchOf cw
  let old := ((x.hits.find? fun h => h.pch == pch && h.symbol == symbol).map LaneHits.rows).getD []
  let rows := insNat (rowNum u cw) old
  let hits := { pch := pch, symbol := symbol, rows := rows } ::
    x.hits.filter fun h => !(h.pch == pch && h.symbol == symbol)
  let d := d.modUnit u fun x => { x with hits := hits }
  if 16 ≤ rows.length ∧ (x.markedOf pch).length < markLimit u ∧ !(x.markedOf pch).contains symbol then
    (d.modUnit u fun x => { x with marked := (pch, symbol) :: x.marked }).eccEvt u 5
  else d

/-- Marks a codeword poisoned (R195, R196). -/
def Dev.poisonCw (cw : Nat) (d : Dev) : Dev :=
  { d with poison := insNat cw d.poison, upsets := Map.del d.upsets cw }

/-- What the code of a unit makes of a codeword that is not poisoned. An error beyond its detection is found uncorrectable
or miscorrected (R192): then other data stand in the codeword, and some symbol is reported as corrected. DESIGN CHOICE (log
29): which of the two, the data and the symbol are free values. -/
def Dev.decodeCw (u : MemUnit) (cw : Nat) (d : Dev) : Dev × Verdict :=
  match verdict u ((d.unit u).markedOf (pchOf cw)) (Map.get d.upsets cw []) with
  | .beyond =>
    let (d, f) := d.draw
    if f % 2 = 0 then (d, .uncorrectable)
    else
      let data := (List.range (cwBytes cw)).map fun i => BitVec.ofNat 8 (f / 2 ^ (8 * i + 1))
      ({ d with mem := Mem.writeN memDefault d.mem cw data }, .corrected [f / 2 ^ (8 * cwBytes cw + 1) % codeSymbols u])
  | v => (d, v)

/-- A codeword that its code has corrected: counted, recorded and written back (R194, R215), with its row and its symbols
noted where an unmarked symbol was put right (R205, R206). -/
def Dev.correctCw (u : MemUnit) (req cw : Nat) (syms : List Nat) (d : Dev) : Dev :=
  let fresh := syms.filter fun y => !((d.unit u).markedOf (pchOf cw)).contains y
  let d := ((d.modUnit u fun x => { x with ce := sat32 x.ce }).eccRecord u cw 1 req (syms.headD 127)).eccEvt u 0
  let d := { d with upsets := Map.del d.upsets cw }
  if isDram u && !fresh.isEmpty then fresh.foldl (fun d y => d.hitLane u cw y) (d.hitRow u cw) else d

/-- Counts the correction that an HBM3E die reports with a read (R193). -/
def Dev.countOdc (u : MemUnit) (cw : Nat) (d : Dev) : Dev :=
  match u with
  | .stack _ =>
    if (Map.get d.upsets cw []).contains odcMark then d.modUnit u fun x => { x with odc := sat32 x.odc } else d
  | _ => d

/-- A read of the management controller that cannot be used raises a bus error in Silmuvin and writes an event record
(R197). -/
def Dev.mcError (req cw : Nat) (d : Dev) : Dev := if req = reqMc then d.emit (.mcBusError cw) else d

/-- One read of a codeword through its code: the device after it, and whether the data may be used.
`req` is the requester number of R214; the scrub is 0, and it sets `scrub_ue` only for a codeword that it
finds uncorrectable itself (R201). -/
def Dev.touch (req cw : Nat) (d : Dev) : Dev × Bool :=
  match unitOf cw with
  | none => (d, true)
  | some u =>
    if d.poison.contains cw then
      let d := (d.modUnit u fun x => { x with ue := sat32 x.ue }).eccRecord u cw 3 req 127
      ((if req = 0 then d else d.eccEvt u 1).mcError req cw, false)
    else
      match (d.countOdc u cw).decodeCw u cw with
      | (d, .corrected syms) => (d.correctCw u req cw syms, true)
      | (d, .uncorrectable) =>
        let d := ((d.modUnit u fun x => { x with ue := sat32 x.ue }).eccRecord u cw 2 req 127).eccEvt u (if req = 0 then 2 else 1)
        (((d.poisonCw cw).queueRow u cw false).mcError req cw, false)
      | (d, _) => (d, true)

/-- Reads codewords in order until one cannot be used. -/
def Dev.touchAll (req : Nat) : List Nat → Dev → Dev × Bool
  | [], d => (d, true)
  | c :: cs, d =>
    match d.touch req c with
    | (d, true) => Dev.touchAll req cs d
    | (d, false) => (d, false)

/-- Reads codewords in order, every one, and answers those that cannot be used. -/
def Dev.touchEach (req : Nat) : List Nat → Dev → Dev × List Nat
  | [], d => (d, [])
  | c :: cs, d =>
    let (d, ok) := d.touch req c
    let (d, bad) := Dev.touchEach req cs d
    (d, if ok then bad else c :: bad)

/-- The codewords of [a, a + n) that are poisoned or hold an error, in rising order. -/
def Dev.marked (d : Dev) (a n : Nat) : List Nat :=
  let inside := fun c => n != 0 && decide (a < c + cwBytes c) && decide (c < a + n)
  (d.upsets.map Prod.fst).foldr insNat [] |>.foldr insNat d.poison |>.filter inside

/-- Notes the tracked lines that an engine meets in [a, a + n) (R437). The host's own accesses and the scrub are no
engine's. -/
def Dev.note (req a n : Nat) (d : Dev) : Dev :=
  if d.snoops.isEmpty || req == reqCxl || req == reqScrub || n == 0 then d
  else { d with touched := d.touched ++ d.snoops.filter fun l => decide (l < a + n) && decide (a < l + 64) }

/-- A read of ranges in order until a codeword cannot be used (R197). -/
def Dev.readAll (req : Nat) (rs : List (Nat × Nat)) (d : Dev) : Dev × Bool :=
  Dev.touchAll req (rs.flatMap fun r => d.marked r.1 r.2) (rs.foldl (fun d r => d.note req r.1 r.2) d)

/-- A read of ranges, every codeword, with those that cannot be used. -/
def Dev.readEach (req : Nat) (rs : List (Nat × Nat)) (d : Dev) : Dev × List Nat :=
  Dev.touchEach req (rs.flatMap fun r => d.marked r.1 r.2) (rs.foldl (fun d r => d.note req r.1 r.2) d)

/-- A read of [a, a + n): the device after it, and whether every codeword could be used (R197). -/
def Dev.readOk (req a n : Nat) (d : Dev) : Dev × Bool := d.readAll req [(a, n)]

/-- The bytes of a range, as the codes and the keys deliver them. -/
def Dev.bytes (d : Dev) (a n : Nat) : List Byte := Mem.readN memDefault (d.seen a n) a n

/-- A read with its data, none on E_POISON. -/
def Dev.readBytes (req a n : Nat) (d : Dev) : Dev × Option (List Byte) :=
  match d.readOk req a n with
  | (d, true) => (d, some (d.bytes a n))
  | (d, false) => (d, none)

/-- The read part of a partial write of a codeword: it corrects what it can, and stores the codeword
poisoned when it cannot (R188, R196). DESIGN CHOICE (log 29): an uncorrectable codeword met so queues its row (R206), and it
neither counts as a read nor sets `ue`, since no requester has read it. -/
def Dev.merge (req cw : Nat) (d : Dev) : Dev :=
  match unitOf cw with
  | none => d
  | some u =>
    if d.poison.contains cw then d
    else
      match (d.countOdc u cw).decodeCw u cw with
      | (d, .corrected syms) => d.correctCw u req cw syms
      | (d, .uncorrectable) => (d.poisonCw cw).queueRow u cw false
      | (d, _) => d

/-- Prepares the codewords of [a, a + n) for a write: wholly covered ones lose poison and errors,
partly covered ones are merged (R188, R196). -/
def Dev.cover (req a n : Nat) (d : Dev) : Dev :=
  if n = 0 then d
  else
    let whole := fun c => a ≤ c && c + cwBytes c ≤ a + n
    let d := (d.note req a n).seal a n
    let d := { d with poison := d.poison.filter fun c => !whole c, upsets := Map.delIf d.upsets whole }
    let first := cwOf a
    let last := cwOf (a + n - 1)
    let d := if whole first then d else d.merge req first
    if whole last || last == first then d else d.merge req last

/-- A write of bytes. -/
def Dev.writeBytes (req a : Nat) (bs : List Byte) (d : Dev) : Dev :=
  let d := d.cover req a bs.length
  { d with mem := Mem.writeN memDefault d.mem a bs }

/-- A write that carries poison: every codeword touched is stored poisoned (R198). -/
def Dev.writePoison (req a : Nat) (bs : List Byte) (d : Dev) : Dev :=
  (cwsOf a bs.length).foldl (fun d c => d.poisonCw c) (d.writeBytes req a bs)

/-- A zero fill of a range (R196, R211). -/
def Dev.zeroRange (req a n : Nat) (d : Dev) : Dev :=
  let d := d.cover req a n
  { d with mem := Mem.clear d.mem a (a + n) }

/-- A copy of a range whose source has been read without error. -/
def Dev.copyRange (req src dst n : Nat) (d : Dev) : Dev :=
  let m := d.seen src n
  let d := d.cover req dst n
  { d with mem := Mem.putCells memDefault src dst (Mem.clear d.mem dst (dst + n)) (Mem.cells m src (src + n)) }

/-- A zero fill that a bring-up or reset makes of the addresses of a kind: nothing of them is remembered (R211, R508). -/
def Dev.wipeIf (p : Nat → Bool) (d : Dev) : Dev :=
  { d with mem := d.mem.filter fun c => !p c.1, poison := d.poison.filter fun c => !p c, upsets := Map.delIf d.upsets p }

/-- Such a fill of a range. -/
def Dev.wipe (a n : Nat) (d : Dev) : Dev := d.wipeIf fun c => decide (a ≤ c) && decide (c < a + n)

/-! ## Host memory (R438) -/

/-- Writes host memory through CXL.cache. -/
def Dev.hostWrite (a : Nat) (bs : List Byte) (d : Dev) : Dev :=
  { d with hostMem := Mem.writeN memDefault d.hostMem a bs }

/-- Reads host memory through CXL.cache. -/
def Dev.hostRead (d : Dev) (a n : Nat) : List Byte := Mem.readN memDefault d.hostMem a n

/-! ## Error registers of the paths (R12, R441) -/

/-- Records a rejected register or CXL.mem write in `LD_ERR_CODE` of an LD (R441). -/
def Dev.ldErr (ld : Nat) (c : Code) (d : Dev) : Dev :=
  d.modLd ld fun l =>
    { l with ctl := { l.ctl with errCode := c,
                                 errCount := if l.ctl.errCount = 255 then 255 else l.ctl.errCount + 1 } }

/-- Records a rejected write in `CLU_ERR_CODE` of a cluster (R174). -/
def Dev.cluErr (n : Nat) (c : Code) (d : Dev) : Dev :=
  d.modClu n fun x => { x with clu := { x.clu with errCode := c } }

/-- Records a rejection in the error register of the path (R12). -/
def Dev.pathErr (pg : RegPage) (c : Code) (d : Dev) : Dev :=
  match pg with
  | .ld n => d.ldErr n c
  | .clu n => d.cluErr n c

/-- A write that is performed when no check fails and otherwise only records its code (R12, R16). -/
def Dev.checked (pg : RegPage) (e : Option Code) (f : Dev → Dev) (d : Dev) : Dev :=
  match e with
  | some c => d.pathErr pg c
  | none => f d

end Sys2Proof.Machine
end

