-- ==== Sys2Proof/Machine/Flags.lean ====
section
/-! DEFINITION. Event bits and interrupt levels: the W1C event registers of an LD, the board fault
register (R550, R551), and the conditions of the interrupt sources (R175, R460, R491, R518). -/

namespace Sys2Proof.Machine

/-! ## Event registers -/

def Ld.setKvmEvt (b : Nat) (l : Ld) : Ld := { l with kvm := { l.kvm with evt := setBit l.kvm.evt b } }
def Ld.setReqEvt (b : Nat) (l : Ld) : Ld := { l with reqEvt := setBit l.reqEvt b }
def Ld.setFabEvt (b : Nat) (l : Ld) : Ld := { l with fab := { l.fab with evt := setBit l.fab.evt b } }
def Ld.setColEvt (b : Nat) (l : Ld) : Ld := { l with col := { l.col with evt := setBit l.col.evt b } }
def Ld.setUpdEvt (b : Nat) (l : Ld) : Ld := { l with upd := { l.upd with evt := setBit l.upd.evt b } }
def Ld.setXplEvt (b : Nat) (l : Ld) : Ld := { l with trl := { l.trl with evt := setBit l.trl.evt b } }
def Ld.setSecEvt (b : Nat) (l : Ld) : Ld := { l with sec := { l.sec with evt := setBit l.sec.evt b } }
def Ld.setBootEvt (b : Nat) (l : Ld) : Ld := { l with ctl := { l.ctl with bootEvt := setBit l.ctl.bootEvt b } }

/-- Sets a bit of `PWR_BC_FAULT`; a change from 0 to 1 raises an in-band interrupt when they are
enabled (R551). -/
def Dev.bcFault (b : Nat) (d : Dev) : Dev :=
  let was := d.i3c.fault.getLsbD b
  let d := { d with i3c := { d.i3c with fault := setBit d.i3c.fault b } }
  if !was && d.i3c.ibiEn && d.i3c.dynAddr.isSome then d.emit (.inBandInterrupt 0x01) else d

/-- ALERT_N is asserted while any bit of `PWR_BC_FAULT` is 1 (R545). -/
def Dev.alert (d : Dev) : Bool := d.i3c.fault != 0

/-! ## Interrupt levels -/

/-- The level of source n of a cluster ICU (R175). -/
def Cluster.level (c : Cluster) (n : Nat) : Bool :=
  if n < 32 then c.clu.coreFault.getLsbD n
  else if n = 32 then c.clu.dmaNote
  else if n = 33 then c.clu.dmaErr
  else if n = 34 then c.yieldReq.isSome
  else if n = 35 then c.clu.sat != 0
  else if n = 36 then c.clu.isat != 0
  else if 40 ≤ n ∧ n < 48 then c.icu.soft.getLsbD (n - 40)
  else false

/-- Command queue q of an LD (R444). -/
def Ld.cq (l : Ld) (q : Nat) : Cq := Map.get l.host.cqs q Cq.init

/-- Mailbox m of an LD (R456). -/
def Ld.mbx (l : Ld) (m : Nat) : Mailbox := Map.get l.host.mbx m Mailbox.init

/-- The level of source n of the ICU of LD l (R460, R491, R518). -/
def Dev.ldLevel (d : Dev) (l n : Nat) : Bool :=
  let x := d.ld l
  if n < 64 then (x.cq n).prod != (x.cq n).chead
  else if n = 64 then x.host.reqCpl.prod != x.host.reqCpl.head
  else if n = 65 then x.upd.phHead != x.upd.phTail
  else if 96 ≤ n ∧ n < 112 then (x.mbx (n - 80)).full && !x.host.mbxMask.getLsbD (n - 80)
  else if 112 ≤ n ∧ n < 128 then x.host.mbxEmpty.getLsbD (n - 112)
  else if 128 ≤ n ∧ n < 134 then x.ecc.evt.getLsbD (n - 128)
  else if 136 ≤ n ∧ n < 141 then x.kvm.evt.getLsbD (n - 136)
  else if 144 ≤ n ∧ n < 148 then x.reqEvt.getLsbD (n - 144)
  else if 152 ≤ n ∧ n < 158 then x.fab.evt.getLsbD (n - 152)
  else if 160 ≤ n ∧ n < 165 then x.col.evt.getLsbD (n - 160)
  else if 168 ≤ n ∧ n < 175 then x.upd.evt.getLsbD (n - 168)
  else if 176 ≤ n ∧ n < 179 then x.trl.evt.getLsbD (n - 176)
  else if n = 180 then x.ctl.late
  else if n = 181 then l == 15 && d.pwr.pinBroken
  else if 192 ≤ n ∧ n < 198 then x.sec.evt.getLsbD (n - 192)
  else if 224 ≤ n ∧ n < 228 then x.ctl.bootEvt.getLsbD (n - 224)
  else if 256 ≤ n ∧ n < 512 then
    let y := d.ld ((n - 256) / 16)
    let m := (n - 256) % 16
    l == 15 && (y.mbx m).full && !y.host.mbxMask.getLsbD m
  else if 512 ≤ n ∧ n < 768 then
    l == 15 && (d.ld ((n - 512) / 16)).host.mbxEmpty.getLsbD ((n - 512) % 16 + 16)
  else false

/-- The number of sources of an interrupt controller (R175, R460). -/
def icuSources : IcuId → Nat
  | .clu _ => 64
  | .ld n => if n = 15 then 768 else 256

def Dev.icu (d : Dev) : IcuId → Icu
  | .clu n => (d.clu n).icu
  | .ld n => (d.ld n).host.icu

def Dev.modIcu (i : IcuId) (f : Icu → Icu) (d : Dev) : Dev :=
  match i with
  | .clu n => d.modClu n fun c => { c with icu := f c.icu }
  | .ld n => d.modLd n fun l => { l with host := { l.host with icu := f l.host.icu } }

/-- The level of a source. -/
def Dev.level (d : Dev) (i : IcuId) (n : Nat) : Bool :=
  match i with
  | .clu c => (d.clu c).level n
  | .ld l => d.ldLevel l n

/-- `ICU_SRC_CFG_n` (R182). -/
def Icu.src (x : Icu) (n : Nat) : SrcCfg := Map.get x.cfg n SrcCfg.init

end Sys2Proof.Machine
end

