-- ==== Sys2Proof/Machine/IcuRegs.lean ====
section
/-! DEFINITION. The registers of an interrupt controller (R179, R182) and of a cluster block (R174), read
and written by offset. A write takes the path whose error register a rejection goes to (R12). -/

namespace Sys2Proof.Machine

/-- 32 bits of a per-source vector. -/
def slot32 (v : BitVec 1024) (n : Nat) : Nat := v.toNat / 2 ^ (32 * n) % 2 ^ 32

/-- A per-source vector with 32 bits replaced. -/
def putSlot32 (v : BitVec 1024) (n x : Nat) : BitVec 1024 :=
  BitVec.ofNat 1024 (v.toNat - slot32 v n * 2 ^ (32 * n) + x * 2 ^ (32 * n))

/-- An ICU register (R182): none at an unassigned offset. -/
def Dev.icuRead (d : Dev) (i : IcuId) (off : Nat) : Option Nat :=
  let x := d.icu i
  let ns := icuSources i
  if off = 0 then some (ns + 2 ^ 16 * b2n x.enable)
  else if off = 4 then
    some ((x.fastSrc.elim 0 fun n => 2 ^ 27 + 2 ^ 16 * n) + x.normalSrc.elim 0 fun n => 2 ^ 11 + n)
  else if off = 8 then some 0
  else if off = 0xC then some x.soft.toNat
  else if 0x80 ≤ off ∧ off < 0x100 then
    let n := (off - 0x80) / 4
    some (((List.range 32).map fun k =>
      if 32 * n + k < ns ∧ d.level i (32 * n + k) then 2 ^ k else 0).foldl (· + ·) 0)
  else if 0x100 ≤ off ∧ off < 0x180 then
    let n := (off - 0x100) / 4
    some (if 32 * n < ns then slot32 x.mask n else 0)
  else if 0x180 ≤ off ∧ off < 0x200 then
    let n := (off - 0x180) / 4
    some (if 32 * n < ns then slot32 x.insvc n else 0)
  else if 0x1000 ≤ off ∧ off < 0x2000 then
    let n := (off - 0x1000) / 4
    let c := x.src n
    some (if n < ns then c.prio.toNat + 2 ^ 4 * b2n c.fast + 2 ^ 5 * b2n c.target + 2 ^ 6 * c.vector.toNat else 0)
  else none

/-- A write of `ICU_EOI` (R179): source n leaves service. DESIGN CHOICE (log 28): a handler of the management controller
is over for `ICU_ACTIVE` of LD 15 at this write, since no rule says when it returns. -/
def Dev.icuEoi (i : IcuId) (pg : RegPage) (v : W32) (d : Dev) : Dev :=
  let n := fld v 10 0
  d.checked pg
    (firstFail [(fld v 31 11 ≠ 0, eReservedNonzero), (icuSources i ≤ n, eRange),
      (!(d.icu i).insvc.getLsbD n, eState)])
    (Dev.modIcu i fun x =>
      { x with insvc := clearBit x.insvc n,
               normalSrc := if i = .ld 15 ∧ x.normalSrc = some n then none else x.normalSrc,
               fastSrc := if i = .ld 15 ∧ x.fastSrc = some n then none else x.fastSrc })

/-- A write of `ICU_SRC_CFG_n` (R182). -/
def Dev.icuSrcCfg (i : IcuId) (pg : RegPage) (n : Nat) (v : W32) (d : Dev) : Dev :=
  let target := v.getLsbD 5
  let fast := v.getLsbD 4
  let vector := fld v 16 6
  let host := match i with | .clu _ => false | .ld l => !(l == 15 && target)
  if icuSources i ≤ n then d.checked pg (firstFail [(v ≠ 0, eReservedNonzero)]) id
  else
    d.checked pg
      (firstFail [(fld v 31 17 ≠ 0, eReservedNonzero),
        (match i with | .clu _ => decide (vector ≠ 0) | .ld _ => decide (255 < vector), eRange),
        (target && i != .ld 15, eRange), (fast && host, eRange)])
      (Dev.modIcu i fun x =>
        { x with cfg := Map.set x.cfg n { vector := BitVec.ofNat 11 vector, target := target, fast := fast,
                                          prio := BitVec.ofNat 4 (fld v 3 0) } })

/-- A write of an ICU register (R182). -/
def Dev.icuWrite (i : IcuId) (pg : RegPage) (off : Nat) (v : W32) (d : Dev) : Dev :=
  if off = 0 then
    d.checked pg (firstFail [(fld v 31 17 ≠ 0 ∨ fld v 15 11 ≠ 0, eReservedNonzero)])
      (Dev.modIcu i fun x => { x with enable := v.getLsbD 16 })
  else if off = 4 then
    d.checked pg (firstFail [(fld v 31 28 ≠ 0 ∨ fld v 15 12 ≠ 0, eReservedNonzero)]) id
  else if off = 8 then d.icuEoi i pg v
  else if off = 0xC then
    d.checked pg (firstFail [(fld v 31 8 ≠ 0, eReservedNonzero)])
      (Dev.modIcu i fun x => { x with soft := BitVec.ofNat 8 (fld v 7 0) })
  else if 0x80 ≤ off ∧ off < 0x100 then
    d.checked pg (firstFail [(icuSources i ≤ 32 * ((off - 0x80) / 4) ∧ v ≠ 0, eReservedNonzero)]) id
  else if 0x100 ≤ off ∧ off < 0x180 then
    let n := (off - 0x100) / 4
    d.checked pg (firstFail [(icuSources i ≤ 32 * n ∧ v ≠ 0, eReservedNonzero)])
      (guarded (32 * n < icuSources i) (Dev.modIcu i fun x => { x with mask := putSlot32 x.mask n v.toNat }))
  else if 0x180 ≤ off ∧ off < 0x200 then
    d.checked pg (firstFail [(icuSources i ≤ 32 * ((off - 0x180) / 4) ∧ v ≠ 0, eReservedNonzero)]) id
  else if 0x1000 ≤ off ∧ off < 0x2000 then d.icuSrcCfg i pg ((off - 0x1000) / 4) v
  else d.pathErr pg eRange

/-! ## The cluster block (R174) -/

/-- The code of `CLU_STATUS` state. -/
def cluStateCode : CluState → Nat
  | .idle => 0
  | .running => 1
  | .handingOver => 2
  | .stopped => 3

/-- A register of cluster block n; none at an unassigned offset. -/
def Dev.cluRead (d : Dev) (n off : Nat) : Option Nat :=
  let c := d.clu n
  let x := c.clu
  if off = 0 then some (n + 2 ^ 12 * d.ldOfDie (n / 256))
  else if off = 4 then some (cluStateCode c.st + 2 ^ 16 * c.domain.toNat)
  else if off = 8 then some x.errCode.toNat
  else if off = 0xC then
    some (match c.yieldReq with | none => 0 | some .handOver => 3 | some .stop => 5)
  else if off = 0x10 then some (x.excCause.toNat + 2 ^ 8 * x.excCode.toNat)
  else if off = 0x14 then some (x.excAddr.toNat % 2 ^ 32)
  else if off = 0x18 then some (x.excAddr.toNat / 2 ^ 32 % 2 ^ 12)
  else if off = 0x1C then some x.coreFault.toNat
  else if off = 0x20 then some (b2n x.dmaNote + 2 * b2n x.dmaErr)
  else if off = 0x24 then some (x.dmaErrCode.toNat + 2 ^ 16 * x.dmaErrTag.toNat)
  else if off = 0x28 then some x.dmaDone.toNat
  else if off = 0x2C then some x.stall.toNat
  else if 0x40 ≤ off ∧ off < 0x60 then
    let r := x.rmax.getD ((off - 0x40) / 4) { nanSeen := false, maxAbs := 0 }
    some (r.maxAbs.toNat + 2 ^ 31 * b2n r.nanSeen)
  else if off = 0x60 then some (2 ^ 8 * x.sat.toNat)
  else if off = 0x64 then some (3 * b2n (d.die (n / 256)).fp4fp6)
  else if off = 0x68 then some x.isat.toNat
  else if 0x2000 ≤ off ∧ off < 0x4000 then d.icuRead (.clu n) (off - 0x2000)
  else none

/-- The bits of a read-only register of the cluster block that are reserved (R12, R174). -/
def cluReserved (off : Nat) : Nat :=
  if off = 0 then 0xFFFF0000
  else if off = 4 then 0xF000FFFC
  else if off = 0xC then 0xFFFFFFF8
  else if off = 0x10 then 0xFF000000
  else if off = 0x64 then 0xFFFFFFFC
  else 0

/-- A write of `CLU_RMAX_CTL` (R83): `clear` zeroes maxima with their `sat` bits, a 1 in `sat` clears it. -/
def Dev.rmaxCtl (n : Nat) (v : W32) (d : Dev) : Dev :=
  d.checked (.clu n) (firstFail [(fld v 31 16 ≠ 0, eReservedNonzero)])
    (Dev.modClu n fun c =>
      { c with clu :=
          { c.clu with
            rmax := Vector.ofFn fun (i : Fin 8) =>
              if v.getLsbD i.val then { nanSeen := false, maxAbs := 0 } else c.clu.rmax.get i
            sat := c.clu.sat &&& ~~~(BitVec.ofNat 8 (fld v 7 0)) &&& ~~~(BitVec.ofNat 8 (fld v 15 8)) } })

/-- A write to cluster block n; the only agents are its control core and the management controller. -/
def Dev.cluWrite (n off : Nat) (v : W32) (d : Dev) : Dev :=
  let pg := RegPage.clu n
  if off = 8 then
    d.checked pg (firstFail [(fld v 31 16 ≠ 0, eReservedNonzero)])
      (Dev.modClu n fun c => { c with clu := { c.clu with errCode := BitVec.ofNat 16 v.toNat } })
  else if off = 0x1C then
    d.modClu n fun c => { c with clu := { c.clu with coreFault := c.clu.coreFault &&& ~~~v } }
  else if off = 0x20 then
    d.checked pg (firstFail [(fld v 31 2 ≠ 0, eReservedNonzero)])
      (Dev.modClu n fun c =>
        { c with clu := { c.clu with
                          dmaNote := c.clu.dmaNote && !v.getLsbD 0
                          dmaErr := c.clu.dmaErr && !v.getLsbD 1
                          dmaErrTag := if v.getLsbD 1 then 0 else c.clu.dmaErrTag
                          dmaErrCode := if v.getLsbD 1 then 0 else c.clu.dmaErrCode } })
  else if off = 0x60 then d.rmaxCtl n v
  else if off = 0x68 then
    d.modClu n fun c => { c with clu := { c.clu with isat := c.clu.isat &&& ~~~v } }
  else if 0x2000 ≤ off ∧ off < 0x4000 then d.icuWrite (.clu n) pg (off - 0x2000) v
  else if (d.cluRead n off).isSome then
    d.checked pg (firstFail [(v.toNat &&& cluReserved off ≠ 0, eReservedNonzero)]) id
  else d.cluErr n eRange

end Sys2Proof.Machine
end

