-- ==== Sys2Proof/Machine/Complete.lean ====
section
/-! DEFINITION. How an accepted or rejected command reports: completion records (R453, R454), ring status
words (R233, R234, R330) and mailbox replies (R472, R556). -/

namespace Sys2Proof.Machine

/-- `status` of a completion record (R454): COMPLETED, FAILED, or ABORTED_DISABLE. -/
def recordStatus (c : Code) (aborted : Bool) : Nat := if aborted then 3 else if c = 0 then 0 else 2

/-- The 32 bytes of a command completion record (R454). -/
def completionRecord (c : Code) (status : Nat) (cmdTag btag : BitVec 16) (op q : Nat) (result pos : W32) :
    List Byte :=
  toBytes 4 (c.toNat + 2 ^ 16 * status) ++ toBytes 4 (cmdTag.toNat + 2 ^ 16 * btag.toNat) ++
    toBytes 4 (op % 256 + 2 ^ 8 * (q % 64)) ++ toBytes 4 result.toNat ++ toBytes 4 pos.toNat ++ zeros 12

/-- The control line of a completion ring: `prod`, then zeros (R453). -/
def controlLine (prod : W32) : List Byte := toBytes 4 prod.toNat ++ zeros 60

/-- Writes a completion record of a queue, then `prod` in the control line (R453); `ncmd` counts the commands of
the LD that completed (R403). -/
def Dev.cqRecord (ld q : Nat) (rec_ : List Byte) (d : Dev) : Dev :=
  let x := (d.ld ld).cq q
  let k := x.prod.toNat % 2 ^ x.log2m
  let d := d.hostWrite (x.cbase.toNat + 64 + 32 * k) rec_
  let d := d.hostWrite x.cbase.toNat (controlLine (x.prod + 1))
  d.modLd ld fun l =>
    { l with host := { l.host with cqs := Map.set l.host.cqs q { x with prod := x.prod + 1 } },
             upd := { l.upd with ncmd := l.upd.ncmd + 1 } }

/-- The address of a cluster's KV or collective ring. -/
def ringAddr (kind : RingKind) (clu : Nat) : Nat :=
  match kind with
  | .kv => dieSramAddr (clu / 256) (kvRingOff + clu % 256 * 0x400)
  | .col => dieSramAddr (clu / 256) (colRingOff + clu % 256 * 0x400)

/-- The number of entries of a cluster ring (R234). -/
def ringSize (kind : RingKind) : Nat :=
  match kind with
  | .kv => 14
  | .col => 7

/-- A word of die SRAM as an engine keeps it. -/
def Dev.memWord (d : Dev) (a : Nat) : W32 := BitVec.ofNat 32 (ofBytes (d.bytes a 4))

/-- Writes a word as an engine. -/
def Dev.putWord (a : Nat) (v : W32) (d : Dev) : Dev := d.writeBytes reqEng a (toBytes 4 v.toNat)

/-- Advances `head` of a ring past the entries that are done, up to the last accepted tail (R234). -/
def Dev.ringHead (kind : RingKind) (base : Nat) (tail : W32) : Nat → Dev → Dev
  | 0, d => d
  | f + 1, d =>
    let h := d.memWord (base + 0x3C4)
    if h ≠ tail ∧ (d.memWord (base + 0x3C8 + 4 * (h.toNat % ringSize kind))).getLsbD 31 then
      Dev.ringHead kind base tail f (d.putWord (base + 0x3C4) (h + 1))
    else d

/-- Writes the final status of a ring entry and advances `head` (R234). -/
def Dev.ringDone (kind : RingKind) (clu count : Nat) (c : Code) (d : Dev) : Dev :=
  let base := ringAddr kind clu
  let x := d.clu clu
  let tail := match kind with | .kv => x.kvTail | .col => x.colTail
  let d := d.putWord (base + 0x3C8 + 4 * (count % ringSize kind)) (BitVec.ofNat 32 (c.toNat + 2 ^ 31))
  Dev.ringHead kind base tail (ringSize kind) d

/-- Empties a mailbox, zeroes its data registers and sets its bit of `MBX_EMPTY` (R457). -/
def Dev.mbxEmptied (ld m : Nat) (d : Dev) : Dev :=
  d.modLd ld fun l =>
    { l with host := { l.host with mbx := Map.set l.host.mbx m { l.mbx m with data := Mailbox.init.data, full := false }, mbxEmpty := setBit l.host.mbxEmpty m } }

/-- The inline reply to the message in mailbox m: words from `MBX_DATA_1` on; the message is released at
the same handshake (R556). -/
def Dev.mbxReply (ld m : Nat) (ws : List W32) (d : Dev) : Dev :=
  let first := ((d.ld ld).mbx m).data.getD 0 0 &&& 0x0FFFFFFF
  let data := Vector.ofFn fun (i : Fin 15) => if i.val = 0 then first else ws.getD (i.val - 1) 0
  let d := d.modLd ld fun l =>
    { l with host := { l.host with mbx := Map.set l.host.mbx (16 + m)
                                     { data := data, full := true, nreg := ws.length + 1, sentAt := 0 } } }
  d.mbxEmptied ld m

/-- Reports a command that was never accepted: its record carries the code and no place of `outstanding`
is freed (R449). -/
def Dev.reject (t : Ticket) (c : Code) (d : Dev) : Dev :=
  match t.iss with
  | .queue l q ct pos => d.cqRecord l q (completionRecord c (recordStatus c false) ct t.btag t.op q 0 pos)
  | .kvRing n k => d.ringDone .kv n k c
  | .colRing n k => d.ringDone .col n k c
  | .msg l => d.mbxReply l 0 [BitVec.ofNat 32 c.toNat]
  | .req _ => d
  | .engine _ => d

/-- One command of a queue fewer without a record (R444). -/
def Dev.settle (l q : Nat) (d : Dev) : Dev :=
  d.modLd l fun x =>
    let c := x.cq q
    { x with host := { x.host with cqs := Map.set x.host.cqs q { c with outstanding := c.outstanding - 1 } } }

/-- Reports an accepted command. A ring entry of a collective was reported at its acceptance (R330); the SEND of
a request reports to its slot (R275). -/
def Dev.finish (t : Ticket) (c : Code) (aborted : Bool) (result : W32) (d : Dev) : Dev :=
  match t.iss with
  | .queue l q ct pos =>
    (d.settle l q).cqRecord l q (completionRecord c (recordStatus c aborted) ct t.btag t.op q result pos)
  | .kvRing n k => d.ringDone .kv n k c
  | .colRing _ _ => d
  | .msg l => d.mbxReply l 0 [BitVec.ofNat 32 c.toNat]
  | .req n => if t.op = 0x29 then d.modReq n fun r => { r with sendCode := some c } else d
  | .engine _ => d

/-- Reports an accepted command that ended on its own. -/
def Dev.done (t : Ticket) (c : Code) (d : Dev) : Dev := d.finish t c false 0

/-- Counts a command of a queue as accepted (R444). -/
def Dev.accept (t : Ticket) (d : Dev) : Dev :=
  match t.iss with
  | .queue l q _ _ =>
    d.modLd l fun x =>
      let c := x.cq q
      { x with host := { x.host with cqs := Map.set x.host.cqs q { c with outstanding := c.outstanding + 1 } } }
  | _ => d

/-- The ticket of a command body: bits [7:0] and [31:16] of word 0; PHASE has no tag (R448, R454). -/
def ticketOf (iss : Issuer) (body : List W32) : Ticket :=
  let op := wfld body 0 7 0
  { iss := iss, op := op, btag := if op = 0x74 then 0 else BitVec.ofNat 16 (wfld body 0 31 16) }

/-- A command with its checks: rejected with the first failing code, or accepted and carried on. -/
def Dev.command (t : Ticket) (e : Option Code) (f : Dev → Dev) (d : Dev) : Dev :=
  match e with
  | some c => d.reject t c
  | none => f (d.accept t)

/-- The LD for which an issuer acts. -/
def Dev.issLd (d : Dev) : Issuer → Nat
  | .queue l _ _ _ => l
  | .kvRing n _ => d.ldOfDie (n / 256)
  | .colRing n _ => d.ldOfDie (n / 256)
  | .req s => (d.req s).ld
  | .msg l => l
  | .engine l => l

/-- The tenant domain under which an issuer acts (R233, R449, R464, R466). -/
def Dev.issDom (d : Dev) : Issuer → Nat
  | .queue l q _ _ => ((d.ld l).cq q).domain.toNat
  | .kvRing n _ => (d.clu n).domain.toNat
  | .colRing n _ => (d.clu n).domain.toNat
  | .req s => (d.req s).dom
  | .msg l => (d.ld l).lay.domBase
  | .engine l => (d.ld l).lay.domBase

end Sys2Proof.Machine
end

