-- ==== Sys2Proof/Machine/Programs.lean ====
section
/-! DEFINITION. How a cluster program is started and how it ends: the cluster launcher (R450, R451), the
catch-crop job (R400 to R402), the cluster boot code (R501), and the reports of their ends. -/

namespace Sys2Proof.Machine

/-- Zeroises the cluster store and every operand cache of a cluster (R172, R450). -/
def Dev.wipeCluster (n : Nat) (d : Dev) : Dev :=
  let a := sramBase + n / 256 * sramWindow + 0x10000000 + n % 256 * 32 * 0x8000
  (d.wipe (storeAddr n 0) 0x10000).wipe a (32 * 0x8000)

/-- A command that an ended program of cluster n posted reports to no entry of the next launch (R234): it ends as an engine's
own. -/
def Ticket.orphan (n ld : Nat) (t : Ticket) : Ticket :=
  match t.iss with
  | .kvRing m _ => if m = n then { t with iss := .engine ld } else t
  | _ => t

/-- KV and score commands of cluster n's ended programs that are still in flight. -/
def Dev.orphanRing (n : Nat) (d : Dev) : Dev :=
  let f := Ticket.orphan n (d.ldOfDie (n / 256))
  { d with kvJobs := d.kvJobs.map fun q => (q.1, q.2.map fun j => { j with tkt := f j.tkt }),
           score := d.score.map fun q => (q.1, q.2.map fun c => { c with tkt := f c.tkt }) }

/-- Zeroes the words of a cluster's two rings that R234 names, at a launch. -/
def Dev.clearRings (n : Nat) (d : Dev) : Dev :=
  let d := d.orphanRing n
  let clear := fun (k : RingKind) (d : Dev) =>
    let b := ringAddr k n
    d.writeBytes reqEng (b + 0x380) (zeros 4) |>.writeBytes reqEng (b + 0x3C0) (zeros (8 + 4 * ringSize k))
  (clear .col (clear .kv d)).modClu n fun c => { c with kvTail := 0, colTail := 0, kvTaken := 0, colTaken := 0 }

/-- The registers of R155 at the entry of a program with its arguments in g1, g2 and g3. -/
def entryRegs (g1 g2 g3 : Nat) : CtlRegs :=
  { CtlRegs.init with
    normal := Vector.ofFn fun (i : Fin 32) =>
      if i.val = 1 then BitVec.ofNat 64 g1
      else if i.val = 2 then BitVec.ofNat 64 g2
      else if i.val = 3 then BitVec.ofNat 64 g3 else 0 }

/-- The entry of a program on a cluster whose code stands in its store (R450, R501). -/
def Dev.enterProgram (n dom : Nat) (o : Occupant) (ctl : CtlRegs) (d : Dev) : Dev :=
  d.modClu n fun c =>
    { c with st := .running, domain := BitVec.ofNat 12 dom, ctl := ctl, occ := some o, yieldReq := none,
             atYield := none,
             icu := { c.icu with fastSrc := none, normalSrc := none, devWin := none } }

/-- Loads a code image into a cluster's store and starts it (R450): the image is read under the launcher's
domain, and a bus error ends the start with its code. -/
def Dev.startProgram (n ld dom code len g1 g2 : Nat) (o : Occupant) (d : Dev) : Dev × Code :=
  match d.busCode (.eng ld dom) false code len with
  | some c => (d, c)
  | none =>
    match d.readOk reqLaunch code len with
    | (d, false) => (d, ePoison)
    | (d, true) =>
      let d := d.wipeCluster n
      let d := d.copyRange reqLaunch code (storeAddr n 0) len
      ((d.clearRings n).enterProgram n dom o (entryRegs g1 g2 n), 0)

/-- Replaces a launch job, or reports it when nothing of it runs or waits any more (R450). -/
def Dev.launchUpdate (j : LaunchJob) (d : Dev) : Dev :=
  if j.running.isEmpty && j.waiting.isEmpty then
    let low := j.faulted.foldl min 4095
    let (c, r) :=
      if j.aborted then (eDisabled, 0)
      else if j.failCode ≠ 0 then (j.failCode, 0)
      else if j.faulted.isEmpty then (0, 0) else (eProgFault, low)
    { d with launches := d.launches.filter fun x => x.id != j.id }.finish j.tkt c j.aborted (BitVec.ofNat 32 r)
  else { d with launches := d.launches.map fun x => if x.id = j.id then j else x }

/-- A launch job by its identifier. -/
def Dev.launch? (d : Dev) (id : Nat) : Option LaunchJob := d.launches.find? fun j => j.id == id

/-- Starts one waiting cluster of a job. -/
def Dev.startFor (id n : Nat) (d : Dev) : Dev :=
  match d.launch? id with
  | none => d
  | some j =>
    let (d, c) := d.startProgram n j.ld j.dom j.code j.len j.arg.toNat (n - j.clu0) (.main id (n - j.clu0))
    let j := { j with waiting := j.waiting.filter (· != n) }
    if c = 0 then d.launchUpdate { j with running := insNat n j.running }
    else d.launchUpdate { j with failCode := if j.failCode = 0 then c else j.failCode }

/-- What a launch does about one cluster it waits for: it fails when the die is absent, waits for the die
and for another main program, asks a catch-crop program to hand over, and starts otherwise (R402, R450). -/
def Dev.tryStart (id n : Nat) (d : Dev) : Dev :=
  let die := d.die (n / 256)
  let c := d.clu n
  if die.absent then
    match d.launch? id with
    | none => d
    | some j =>
      d.launchUpdate { j with waiting := j.waiting.filter (· != n),
                              failCode := if j.failCode = 0 then eState else j.failCode }
  else if !die.joined then d
  else
    match c.occ with
    | none => if c.st = .handingOver then d else d.startFor id n
    | some .crop =>
      if c.yieldReq = none then d.modClu n fun c => { c with yieldReq := some .handOver, yieldAge := 0 } else d
    | some _ => d

/-- Every waiting launch takes the clusters it can, in acceptance order (R450). -/
def Dev.pump (d : Dev) : Dev :=
  let wants := d.launches.flatMap fun j => j.waiting.map fun n => (j.id, n)
  wants.foldl (fun d w => d.tryStart w.1 w.2) d

/-- How a program ends on a cluster. -/
inductive EndKind where
  | halted
  | faulted
  | aborted
  deriving DecidableEq, Repr

/-- The saved contexts of an LD's catch-crop job are discarded. -/
def Dev.dropSaved (ld : Nat) (d : Dev) : Dev :=
  { d with clusters := d.clusters.map fun e =>
      if d.ldOfDie (e.1 / 256) = ld then (e.1, { e.2 with saved := none }) else e }

/-- Reports the catch-crop job of an LD once no cluster runs it and none is still to run it (R402, R451). -/
def Dev.cropUpdate (ld : Nat) (j : CropJob) (d : Dev) : Dev :=
  if j.on.isEmpty && (j.todo.isEmpty || j.late || j.aborted) then
    let c := if j.aborted then eDisabled else if j.late then eCcYieldLate else j.failCode
    ((d.dropSaved ld).modLd ld fun l => { l with ctl := { l.ctl with crop := none } }).finish j.tkt c j.aborted 0
  else d.modLd ld fun l => { l with ctl := { l.ctl with crop := some j } }

/-- The end of the program on a cluster: the cluster is free, its job hears of it, and waiting launches
go on (R450, R451, R501). -/
def Dev.endProgram (n : Nat) (k : EndKind) (d : Dev) : Dev :=
  let c := d.clu n
  let g1 := c.ctl.normal.get 1
  let d := d.modClu n fun c =>
    { c with st := if k = EndKind.faulted then .stopped else .idle, occ := none, yieldReq := none, atYield := none,
             saved := if c.occ = some .crop then none else c.saved }
  let d :=
    match c.occ with
    | some (.main id _) =>
      match d.launch? id with
      | none => d
      | some j =>
        d.launchUpdate { j with running := j.running.filter (· != n),
                                faulted := if k = EndKind.faulted then insNat n j.faulted else j.faulted,
                                aborted := j.aborted || k == EndKind.aborted }
    | some .crop =>
      let l := d.ldOfDie (n / 256)
      match (d.ld l).ctl.crop with
      | none => d
      | some j =>
        d.cropUpdate l { j with on := j.on.filter (· != n), halted := insNat n j.halted,
                                failCode := if k = EndKind.faulted ∧ j.failCode = 0 then eProgFault else j.failCode }
    | some .boot =>
      if k = EndKind.halted ∧ g1 = 0 then
        d.modDie (n / 256) fun x => { x with bootLeft := x.bootLeft.filter (· != n) }
      else d
    | none => d
  d.pump

end Sys2Proof.Machine
end

