-- ==== Sys2Proof/Machine/CoreOps.lean ====
section
/-! DEFINITION. Operations shared by the instructions of a control core: registers (R155), fetch (R156),
exceptions and handlers (R178, R180), and bus accesses (R157). -/

namespace Sys2Proof.Machine

/-- Status bits of R155. -/
def CtlRegs.inNormal (x : CtlRegs) : Bool := x.status.getLsbD 2
def CtlRegs.inFast (x : CtlRegs) : Bool := x.status.getLsbD 3
def CtlRegs.inHandler (x : CtlRegs) : Bool := x.inNormal || x.inFast

/-- A general register of the current bank; g0 reads zero (R155). -/
def CtlRegs.get (x : CtlRegs) (r : Reg) : W64 :=
  if r = 0 then 0 else if x.inFast then x.fast.get r else x.normal.get r

/-- A write of a general register of the current bank; a write of g0 is ignored (R155). -/
def CtlRegs.put (x : CtlRegs) (r : Reg) (v : W64) : CtlRegs :=
  if r = 0 then x
  else if x.inFast then { x with fast := x.fast.set r v } else { x with normal := x.normal.set r v }

/-- The value of register r of cluster n. -/
def Dev.reg (d : Dev) (n : Nat) (r : Reg) : W64 := (d.clu n).ctl.get r

def Dev.modCtl (n : Nat) (f : CtlRegs → CtlRegs) (d : Dev) : Dev := d.modClu n fun c => { c with ctl := f c.ctl }

/-- Writes register r of cluster n. -/
def Dev.wr (n : Nat) (r : Reg) (v : W64) (d : Dev) : Dev := d.modCtl n fun x => x.put r v

/-- The pc moves to the next instruction. -/
def Dev.next (n : Nat) (d : Dev) : Dev := d.modCtl n fun x => { x with pc := x.pc + 4 }

/-- Writes a result and moves on. -/
def Dev.ret (n : Nat) (r : Reg) (v : W64) (d : Dev) : Dev := (d.wr n r v).next n

/-- The outcome of an instruction as a 64-bit code. -/
def codeWord (c : Code) : W64 := BitVec.setWidth 64 c

/-- Takes a synchronous exception (R180): `in_normal` is set, `pc` and `status` go to `epc` and `estatus`,
the pc becomes `vec_exc` and the cause goes to `CLU_EXC_CAUSE`. Inside a handler it is a double fault: the
control core stops in state 3, the program ends, and the management controller hears of it. -/
def Dev.exception (n cause : Nat) (code : Code) (addr : Option Nat) (d : Dev) : Dev :=
  if (d.clu n).ctl.inHandler then (d.endProgram n .faulted).emit (.doubleFault n)
  else
    d.modClu n fun c =>
      { c with
        ctl := { c.ctl with epc := c.ctl.pc, estatus := c.ctl.status, status := setBit c.ctl.status 2,
                            pc := c.ctl.vecExc }
        clu := { c.clu with excCause := BitVec.ofNat 8 cause, excCode := code,
                            excAddr := addr.elim c.clu.excAddr (BitVec.ofNat 64) } }

/-- Leaves the handler in progress (R178); outside any handler an exception with cause 2 (R158). -/
def Dev.leaveHandler (n : Nat) (d : Dev) : Dev :=
  let x := (d.clu n).ctl
  if x.inFast then
    d.modClu n fun c =>
      { c with ctl := { c.ctl with pc := c.ctl.fpc, status := c.ctl.fstatus }, icu := { c.icu with fastSrc := none } }
  else if x.inNormal then
    d.modClu n fun c =>
      { c with ctl := { c.ctl with pc := c.ctl.epc, status := c.ctl.estatus },
               icu := { c.icu with normalSrc := none } }
  else d.exception n 2 0 none

/-- Whether the control core of a cluster executes: a program runs, does not wait at a yield point, and no
delivery window is open. -/
def Cluster.executes (c : Cluster) : Bool := c.st == .running && c.atYield.isNone && c.icu.devWin.isNone

/-- Runs one instruction on cluster n: the word at `pc` is fetched through its code, and a bad fetch raises
an exception with cause 3 (R156, R197). -/
def Dev.instr (n : Nat) (f : Dev → Dev) (d : Dev) : Dev :=
  if (d.clu n).executes then
    let a := storeAddr n (d.clu n).ctl.pc.toNat
    if a % 4 ≠ 0 then d.exception n 3 eAlign (some a)
    else
      match d.readOk reqClu a 4 with
      | (d, false) => d.exception n 3 ePoison (some a)
      | (d, true) => f d
  else d

/-- An instruction that writes a function of two registers. -/
def Dev.alu (n : Nat) (r a b : Reg) (f : W64 → W64 → W64) : Dev → Dev :=
  Dev.instr n fun d => d.ret n r (f (d.reg n a) (d.reg n b))

/-- A branch: to the target when the condition holds, else to the next instruction. -/
def Dev.branch (n : Nat) (a b : Reg) (target : BitVec 16) (p : W64 → W64 → Bool) : Dev → Dev :=
  Dev.instr n fun d =>
    if p (d.reg n a) (d.reg n b) then d.modCtl n fun x => { x with pc := target } else d.next n

/-- Bytes of an access size (R157). -/
def sizeBytes : Size → Nat
  | .b1 => 1
  | .b2 => 2
  | .b4 => 4
  | .b8 => 8

/-- The bus error of a load or store of a control core. DESIGN CHOICE (log 100): R157 lists the cases and no order; an
address above 44 bits comes first, then alignment, then the populated ranges, then reach. -/
def Dev.ctlAccess (d : Dev) (n : Nat) (write : Bool) (a len : Nat) : Option Code :=
  if a / 2 ^ 44 ≠ 0 then some eRange
  else if a % len ≠ 0 then some eAlign
  else d.busCode (.clu n) write a len

/-- The latched HI half of a register pair for an agent (R10). -/
def Dev.latched (d : Dev) (ag : Agent) (pg : RegPage) (lo : Nat) : W32 :=
  ((d.latches.find? fun x => x.1 == ag && x.2.1 == pg && x.2.2.1 == lo).map fun x => x.2.2.2).getD 0

/-- Latches the HI half of a pair at a read of its LO (R10). -/
def Dev.latch (ag : Agent) (pg : RegPage) (lo : Nat) (hi : W32) (d : Dev) : Dev :=
  { d with latches := (ag, pg, lo, hi) :: d.latches.filter fun x => !(x.1 == ag && x.2.1 == pg && x.2.2.1 == lo) }

/-- A read of a cluster register by an agent: `CLU_EXC_ADDR` is a latched pair (R10, R174). -/
def Dev.cluReadBy (ag : Agent) (n off : Nat) (d : Dev) : Dev × Nat :=
  if off % 4 ≠ 0 then (d.cluErr n eAlign, 0)
  else if off = 0x14 then
    (d.latch ag (.clu n) 0x14 (BitVec.ofNat 32 ((d.cluRead n 0x18).getD 0)), (d.cluRead n 0x14).getD 0)
  else if off = 0x18 then (d, (d.latched ag (.clu n) 0x14).toNat)
  else (d, (d.cluRead n off).getD 0)

/-- A write of a cluster register by an agent that reaches the block (R174). -/
def Dev.cluWriteBy (n off : Nat) (v : W32) (d : Dev) : Dev :=
  if off % 4 ≠ 0 then d.cluErr n eAlign else d.cluWrite n off v

/-- Stages spent waiting on a full queue are counted in `CLU_ISSUE_STALL`; how many is open (R174). -/
def Dev.stall (n : Nat) (d : Dev) : Dev :=
  let (d, k) := d.draw
  d.modClu n fun c => { c with clu := { c.clu with stall := BitVec.ofNat 32 (satInc 32 c.clu.stall.toNat k) } }

/-- Whether every issued operation, mover command and DMA descriptor of a cluster has finished (R171). -/
def Cluster.drained (c : Cluster) : Bool :=
  c.mover.isEmpty && c.dma.isEmpty && c.cores.all fun k => k.2.mq.isEmpty && k.2.vq.isEmpty

end Sys2Proof.Machine
end

