-- ==== Sys2Proof/Machine/Operands.lean ====
section
/-! DEFINITION. Operand ranges (R113) and the descriptors of the matrix array (R110 to R113, R125), the
vector engine (R135 to R140) and their checks. -/

namespace Sys2Proof.Machine

/-- A range of R113: rows of `len` bytes at a stride. -/
structure Rows where
  addr   : Nat
  stride : Nat
  rows   : Nat
  len    : Nat
  deriving DecidableEq, Repr

/-- The end of a range. -/
def Rows.fin (r : Rows) : Nat := r.addr + (r.rows - 1) * r.stride + r.len

/-- The first bytes of its rows. -/
def Rows.starts (r : Rows) : List Nat := (List.range r.rows).map fun i => r.addr + i * r.stride

/-- Whether two ranges share a byte; the bytes between rows belong to no range. -/
def Rows.overlaps (r s : Rows) : Bool :=
  r.starts.any fun x => s.starts.any fun y => decide (x < y + s.len) && decide (y < x + r.len)

/-- A contiguous range. -/
def flat (addr len : Nat) : Rows := { addr := addr, stride := 0, rows := 1, len := len }

/-- Formats by the codes of R111. -/
def fmtOf (c : Nat) : Fmt :=
  match c with
  | 0 => .fp4
  | 1 => .e2m3
  | 2 => .e3m2
  | 3 => .e4m3
  | 4 => .e5m2
  | 5 => .int4
  | 6 => .int8
  | 7 => .bf16
  | 8 => .fp16
  | 9 => .fp32
  | _ => .int32

/-- Whether a scaled field breaks the rule of R111 for its format. -/
def scaledBad (fmt : Nat) (scaled : Bool) : Bool :=
  if fmt ≤ 2 ∨ fmt = 5 then !scaled else if 7 ≤ fmt then scaled else false

/-! ## The matrix operation descriptor -/

/-- The formats of C (R110). -/
def cFmtOf (c : Nat) : Fmt :=
  match c with
  | 0 => .fp32
  | 1 => .bf16
  | 2 => .fp16
  | _ => .int32

/-- The groups of R112. -/
inductive MxGroup where
  | narrow | intScaled | intUnscaled | wide
  deriving DecidableEq, Repr

def mxGroup (a b : Nat) (sa sb : Bool) : Option MxGroup :=
  if a ≤ 4 ∧ b ≤ 4 then some .narrow
  else if 7 ≤ a ∧ a ≤ 9 ∧ 7 ≤ b ∧ b ≤ 9 then some .wide
  else if (a = 5 ∨ a = 6) ∧ (b = 5 ∨ b = 6) then (if sa || sb then some .intScaled else some .intUnscaled)
  else none

/-- The pieces of A and of B for each product, in order (R86). -/
def passPieces (passes side : Nat) : Option (List (Nat × Nat)) :=
  if passes = 1 ∧ side = 0 then some [(1, 1)]
  else if passes = 2 ∧ side = 1 then some [(1, 1), (2, 1)]
  else if passes = 2 ∧ side = 2 then some [(1, 1), (1, 2)]
  else if passes = 3 ∧ side = 0 then some [(1, 1), (1, 2), (2, 1)]
  else if passes = 3 ∧ side = 1 then some [(1, 1), (2, 1), (3, 1)]
  else if passes = 3 ∧ side = 2 then some [(1, 1), (1, 2), (1, 3)]
  else none

/-- The fields of a matrix descriptor (R110). -/
structure MxDesc where
  aFmt : Nat
  bFmt : Nat
  cFmt : Nat
  aScaled : Bool
  bScaled : Bool
  passes : Nat
  side : Nat
  accInit : Bool
  maskEn : Bool
  m : Nat
  n : Nat
  k : Nat
  a : Rows
  b : Rows
  c : Rows
  aScale : Nat
  bScale : Nat
  tOut : Nat
  opTag : Nat
  row0 : Nat
  col0 : Nat
  keep : Nat
  fill : Bool
  deriving DecidableEq, Repr

/-- Bytes of a packed row of k elements, rounded up to 8 (R113). -/
def rowBytes (f : Fmt) (k : Nat) : Nat := ceilDiv (k * f.width) 64 * 8

/-- The descriptor that eight words, or twelve with a block mask, spell. -/
def mxDesc (ws : List W32) : MxDesc :=
  let m := wfld ws 1 8 0
  let n := wfld ws 1 17 9
  let k := wfld ws 1 31 18
  let aF := wfld ws 0 11 8
  let bF := wfld ws 0 15 12
  let cF := wfld ws 0 18 16
  { aFmt := aF, bFmt := bF, cFmt := cF, aScaled := bit (word ws 0).toNat 19,
    bScaled := bit (word ws 0).toNat 20, passes := wfld ws 0 22 21, side := wfld ws 0 24 23,
    accInit := bit (word ws 0).toNat 25, maskEn := bit (word ws 0).toNat 26, m := m, n := n, k := k,
    a := { addr := wfld ws 2 14 0, stride := wfld ws 2 30 16, rows := m, len := rowBytes (fmtOf aF) k },
    b := { addr := wfld ws 3 14 0, stride := wfld ws 3 30 16, rows := n, len := rowBytes (fmtOf bF) k },
    c := { addr := wfld ws 4 14 0, stride := wfld ws 4 30 16, rows := m, len := n * ((cFmtOf cF).width / 8) },
    aScale := wfld ws 5 14 0, bScale := wfld ws 5 30 16, tOut := (word ws 6).toNat, opTag := wfld ws 7 15 0,
    row0 := wfld ws 8 15 0, col0 := wfld ws 8 31 16, keep := wfld ws 9 8 0, fill := bit (word ws 9).toNat 9 }

/-- Scale bytes of a row (R113). -/
def scaleBytes (k : Nat) : Nat := ceilDiv k 32

def MxDesc.aScales (x : MxDesc) : Rows := flat x.aScale (x.m * scaleBytes x.k)
def MxDesc.bScales (x : MxDesc) : Rows := flat x.bScale (x.n * scaleBytes x.k)

/-- Whether the descriptor needs the FP4 or the FP6 path (R105, R112). -/
def MxDesc.needsPath (x : MxDesc) : Bool :=
  (x.aFmt = 0 && x.bFmt = 0) || (x.aFmt = 5 && x.bFmt = 5) ||
    (x.aFmt ≤ 4 && x.bFmt ≤ 4 && (x.aFmt = 1 || x.aFmt = 2 || x.bFmt = 1 || x.bFmt = 2))

/-- Block (row, column) of the mask, relative to the first block, that holds element (i, j) of C. -/
def MxDesc.keepBit (x : MxDesc) (i j : Nat) : Nat :=
  3 * ((x.row0 + i) / 128 - x.row0 / 128) + ((x.col0 + j) / 128 - x.col0 / 128)

/-- Whether C intersects the block of a bit of `keep` (R125). -/
def MxDesc.intersects (x : MxDesc) (b : Nat) : Bool :=
  b / 3 ≤ (x.row0 + x.m - 1) / 128 - x.row0 / 128 && b % 3 ≤ (x.col0 + x.n - 1) / 128 - x.col0 / 128

/-- The field checks of an address and stride word (R110). -/
def placeChecks (w : W32) : List (Bool × Code) :=
  [(fld w 14 0 % 8 ≠ 0, eAlign), (bit w.toNat 15, eReservedNonzero), (fld w 30 16 % 8 ≠ 0, eAlign),
    (bit w.toNat 31, eReservedNonzero)]

/-- Every check of R109 on a descriptor; `paths` tells whether the FP4 and FP6 paths are enabled. -/
def mxCheck (ws : List W32) (paths : Bool) : Option Code :=
  let x := mxDesc ws
  let g := mxGroup x.aFmt x.bFmt x.aScaled x.bScaled
  let tExp := bits x.tOut 30 23
  let fields : List (Bool × Code) :=
    [(wfld ws 0 7 0 ≠ 1, eRange), (9 < x.aFmt, eRange), (9 < x.bFmt, eRange), (3 < x.cFmt, eRange),
      (scaledBad x.aFmt x.aScaled, eRange), (scaledBad x.bFmt x.bScaled, eRange),
      (match g with | none => true | some .intUnscaled => x.cFmt ≠ 3 | some _ => x.cFmt = 3, eRange),
      (x.passes = 0, eRange), ((passPieces x.passes x.side).isNone, eRange),
      (2 ≤ x.passes ∧ g ≠ some .wide, eRange),
      (x.accInit && (x.cFmt = 1 || x.cFmt = 2), eRange), (wfld ws 0 31 27 ≠ 0, eReservedNonzero),
      (x.m = 0 ∨ 256 < x.m, eRange), (x.n = 0 ∨ 256 < x.n, eRange),
      (x.k = 0 ∨ 8192 < x.k ∨ 131072 < x.k * x.passes, eRange)]
  let rest : List (Bool × Code) :=
    [(bit (word ws 5).toNat 15, eReservedNonzero), (bit (word ws 5).toNat 31, eReservedNonzero),
      (tExp = 0 ∨ tExp = 255, eRange), (x.cFmt = 3 ∧ x.tOut ≠ 0x3F800000, eRange),
      (wfld ws 7 31 16 ≠ 0, eReservedNonzero),
      (x.a.stride < x.a.len, eRange), (x.b.stride < x.b.len, eRange), (x.c.stride < x.c.len, eRange),
      (0x6000 < x.a.fin ∨ 0x6000 < x.b.fin ∨ 0x6000 < x.c.fin, eRange),
      ((x.aScaled && 0x6000 < x.aScales.fin) || (x.bScaled && 0x6000 < x.bScales.fin), eRange),
      (x.c.overlaps x.a || x.c.overlaps x.b || (x.aScaled && x.c.overlaps x.aScales) ||
        (x.bScaled && x.c.overlaps x.bScales), eRange)]
  let mask : List (Bool × Code) :=
    if x.maskEn then
      [(x.row0 % 16 ≠ 0, eAlign), (x.col0 % 16 ≠ 0, eAlign),
        ((bitsOf 9 x.keep).any fun b => !x.intersects b, eRange), (wfld ws 9 31 10 ≠ 0, eReservedNonzero),
        (word ws 10 ≠ 0, eReservedNonzero), (word ws 11 ≠ 0, eReservedNonzero)]
    else []
  firstFail (fields ++ placeChecks (word ws 2) ++ placeChecks (word ws 3) ++ placeChecks (word ws 4) ++ rest ++
    mask ++ [(x.needsPath && !paths, eState)])

/-! ## The vector operation descriptor -/

/-- A stream of a vector operation (R135 to R137): its format code, scaling, range, scale address. -/
structure Stream where
  en     : Bool
  fmt    : Nat
  scaled : Bool
  addr   : Nat
  stride : Nat
  scale  : Nat
  deriving DecidableEq, Repr

/-- Element width of a stream format (R136). -/
def streamWidth (fmt : Nat) : Nat := if fmt = 10 then 32 else if fmt = 11 then 1 else (fmtOf fmt).width

/-- The fields of a vector descriptor (R135). -/
structure VecDesc where
  npass : Nat
  pair : Bool
  pack : Nat
  routEn : Bool
  opTag : Nat
  rows : Nat
  len : Nat
  plen : List Nat
  red0 : Nat
  red1 : Nat
  rmax0 : Nat
  rmax1 : Nat
  prog : Nat
  tsel0 : Nat
  tsel1 : Nat
  given0 : Bool
  given1 : Bool
  ins : List Stream
  out0 : Stream
  out1 : Stream
  rout : Nat
  routStride : Nat
  seed : Nat
  step : Nat
  stream : Nat
  ibase : Nat
  irstride : Nat
  scalars : List W32
  deriving DecidableEq, Repr

def vecDesc (ws : List W32) : VecDesc :=
  let flag := fun i b => bit (word ws i).toNat b
  let st := fun (en : Bool) (w fl sc : Nat) (scale : Nat) =>
    ({ en := en, fmt := wfld ws 10 (fl + 3) fl, scaled := flag 10 sc, addr := wfld ws w 14 0,
       stride := wfld ws w 30 16, scale := scale } : Stream)
  { npass := wfld ws 0 9 8, pair := flag 0 10, pack := wfld ws 0 12 11, routEn := flag 0 15,
    opTag := wfld ws 0 31 16, rows := wfld ws 1 8 0, len := wfld ws 1 21 9,
    plen := [wfld ws 2 5 0, wfld ws 2 11 6, wfld ws 2 17 12], red0 := wfld ws 2 20 18,
    red1 := wfld ws 2 23 21, rmax0 := wfld ws 2 26 24, rmax1 := wfld ws 2 29 27, prog := wfld ws 3 15 0,
    tsel0 := wfld ws 3 19 16, tsel1 := wfld ws 3 23 20, given0 := flag 3 24, given1 := flag 3 25,
    ins := [st (flag 10 25) 4 0 4 (wfld ws 11 14 0), st (flag 10 26) 5 5 9 (wfld ws 11 30 16),
      st (flag 10 27) 6 10 14 (wfld ws 12 14 0)],
    out0 := st (flag 0 13) 7 15 19 (wfld ws 12 30 16), out1 := st (flag 0 14) 8 20 24 (wfld ws 13 14 0),
    rout := wfld ws 9 14 0, routStride := wfld ws 9 30 16,
    seed := word2 ws 14, step := (word ws 16).toNat + 2 ^ 32 * wfld ws 17 15 0,
    stream := 0x8000 + wfld ws 17 30 16, ibase := (word ws 18).toNat + 2 ^ 32 * wfld ws 19 15 0,
    irstride := (word ws 20).toNat, scalars := (List.range 8).map fun i => word ws (21 + i) }

/-- Bytes of a row of a stream (R137). -/
def VecDesc.rowLen (x : VecDesc) (s : Stream) : Nat := ceilDiv (x.len * streamWidth s.fmt) 64 * 8

/-- The range of a stream. -/
def VecDesc.range (x : VecDesc) (s : Stream) : Rows :=
  { addr := s.addr, stride := s.stride, rows := x.rows, len := x.rowLen s }

/-- The range of a stream's scale array (R136): one row of scales for an input of stride 0. -/
def VecDesc.scaleRange (x : VecDesc) (s : Stream) : Rows :=
  flat s.scale ((if s.stride = 0 then 1 else x.rows) * scaleBytes x.len)

/-- The row results that an operation produces: `red0`, `red1` and the compress count (R133, R151). -/
def VecDesc.produces (x : VecDesc) : Bool × Bool × Bool :=
  (decide (2 ≤ x.npass) && x.red0 != 0, decide (x.npass = 3) && x.red1 != 0, x.pack == 1)

/-- The number of row results (R151). -/
def VecDesc.results (x : VecDesc) : Nat := b2n x.produces.1 + b2n x.produces.2.1 + b2n x.produces.2.2

/-- The range of the row results. -/
def VecDesc.routRange (x : VecDesc) : Rows :=
  { addr := x.rout, stride := x.routStride, rows := x.rows, len := 4 * x.results }

/-- The format and scaled checks of a stream at its row of R135. -/
def streamChecks (s : Stream) : List (Bool × Code) :=
  [(s.en && 12 ≤ s.fmt, eRange), (s.en && (if 10 ≤ s.fmt then s.scaled else scaledBad s.fmt s.scaled), eRange)]

/-- Whether a stream holds block-scaled elements. -/
def Stream.blocked (s : Stream) : Bool := s.en && s.scaled

/-- Whether an output may lie on an input: it coincides in address, stride and element width (R137). -/
def inPlace (o i : Stream) : Bool :=
  o.addr == i.addr && o.stride == i.stride && streamWidth o.fmt == streamWidth i.fmt

/-- The overlap step of R137. -/
def VecDesc.clash (x : VecDesc) : Bool :=
  let outs := [x.out0, x.out1].filter Stream.en
  let ins := x.ins.filter Stream.en
  let routs := if x.routEn then [x.routRange] else []
  let outRanges := outs.map x.range ++ (outs.filter Stream.blocked).map x.scaleRange ++ routs
  let pairs := (List.range outRanges.length).any fun i =>
    (List.range outRanges.length).any fun j =>
      i < j && (outRanges.getD i (flat 0 0)).overlaps (outRanges.getD j (flat 0 0))
  let inScales := (ins.filter Stream.blocked).map x.scaleRange
  pairs ||
  outs.any (fun o =>
    ins.any (fun i => (x.range o).overlaps (x.range i) && !inPlace o i) ||
    inScales.any (fun r => (x.range o).overlaps r) ||
    (o.blocked &&
      (ins.any (fun i => (x.scaleRange o).overlaps (x.range i)) ||
        ins.any (fun i => i.blocked && (x.scaleRange o).overlaps (x.scaleRange i) &&
          !(inPlace o i && o.scale == i.scale && x.scaleRange o == x.scaleRange i))))) ||
  routs.any (fun r => ins.any (fun i => r.overlaps (x.range i)) || inScales.any (fun s => r.overlaps s))

/-- Every check of the descriptor words and of the placement (R135 to R137, R148, R151, R152). DESIGN CHOICE (log 103):
the tables of R135 give no place to the rejections of R148, R151 and R152; they stand after the field rows of every
word, those of R148 first, the stride of R151 with the strides of R137 and those of R152 last. -/
def vecCheck (ws : List W32) : Option Code :=
  let x := vecDesc ws
  let p := fun i => x.plen.getD i 0
  let words := fun i => placeChecks (word ws i)
  let streams := x.ins ++ [x.out0, x.out1]
  let enabled := streams.filter Stream.en
  let fields : List (Bool × Code) :=
    [(wfld ws 0 7 0 ≠ 2, eRange), (x.npass = 0, eRange), (x.pack = 3, eRange),
      (x.routEn && x.results = 0, eRange),
      (x.rows = 0 ∨ 256 < x.rows, eRange), (x.len = 0 ∨ 4096 < x.len, eRange),
      (wfld ws 1 31 22 ≠ 0, eReservedNonzero),
      (32 < p 0 ∨ 32 < p 1 ∨ 32 < p 2 ∨ 32 < p 0 + p 1 + p 2 ∨ (x.npass < 2 ∧ p 1 ≠ 0) ∨
        (x.npass < 3 ∧ p 2 ≠ 0), eRange),
      ((x.npass = 1) ≠ (x.red0 = 0), eRange), ((x.npass = 3) ≠ (x.red1 ≠ 0), eRange),
      (wfld ws 2 31 30 ≠ 0, eReservedNonzero),
      (x.prog % 4 ≠ 0, eAlign), (0x10000 < x.prog + 4 * (p 0 + p 1 + p 2), eRange),
      (8 < x.tsel0, eRange), (8 < x.tsel1, eRange), (wfld ws 3 31 26 ≠ 0, eReservedNonzero)]
  let rest : List (Bool × Code) :=
    [(wfld ws 10 31 28 ≠ 0, eReservedNonzero),
      (bit (word ws 11).toNat 15 || bit (word ws 11).toNat 31, eReservedNonzero),
      (bit (word ws 12).toNat 15 || bit (word ws 12).toNat 31, eReservedNonzero),
      (wfld ws 13 31 15 ≠ 0, eReservedNonzero), (bit (word ws 17).toNat 31, eReservedNonzero),
      (wfld ws 19 31 16 ≠ 0, eReservedNonzero), (!zeroWords ws 29 31, eReservedNonzero),
      (x.pack = 1 ∧ x.out0.blocked, eRange),
      (x.pack = 2 ∧ !((x.ins.getD 2 x.out0).en && (x.ins.getD 2 x.out0).fmt == 11), eRange),
      (x.pack = 2 ∧ (x.ins.getD 0 x.out0).blocked, eRange),
      (x.ins.any fun s => s.en && s.stride ≠ 0 && s.stride < x.rowLen s, eRange),
      ([x.out0, x.out1].any fun s => s.en && s.stride < x.rowLen s, eRange),
      (x.routEn && x.routStride < 4 * x.results, eRange),
      (enabled.any fun s => 0x6000 < (x.range s).fin, eRange),
      (enabled.any fun s => s.scaled && 0x6000 < (x.scaleRange s).fin, eRange),
      (x.routEn && 0x6000 < x.routRange.fin, eRange),
      (x.clash, eRange),
      (x.pack = 2 && (x.ins.getD 0 x.out0).en && [x.out0, x.out1].any fun s =>
        s.en && (x.range s).overlaps (x.range (x.ins.getD 0 x.out0)), eRange),
      (x.red0 = 2 ∨ (x.red1 = 2 ∧ x.red0 ≠ 6), eRange)]
  firstFail (fields ++ words 4 ++ words 5 ++ words 6 ++ words 7 ++ words 8 ++ words 9 ++
    streams.flatMap streamChecks ++ rest)

/-! ## Element program operations (R139 to R143) -/

/-- Fields of a program word. -/
def opOpc (w : Nat) : Nat := bits w 7 0
def opDst (w : Nat) : Nat := bits w 11 8
def opA (w : Nat) : Nat := bits w 16 12
def opB (w : Nat) : Nat := bits w 21 17
def opC (w : Nat) : Nat := bits w 26 22
def opMod (w : Nat) : Nat := bits w 31 27

/-- How an operation uses its fields: sources read, whether `dst` is a flag, and the kinds of special
fields. -/
inductive OpShape where
  | src (n : Nat) (flag : Bool)
  | sel
  | flags (n : Nat)
  | cvt
  | rng
  deriving DecidableEq, Repr

/-- The shape of an operation code; none when undefined (R141). -/
def opShape (c : Nat) : Option OpShape :=
  if c = 1 ∨ c = 2 ∨ c = 3 ∨ c = 5 ∨ c = 7 ∨ c = 8 then some (.src 2 false)
  else if c = 4 then some (.src 3 false)
  else if c = 6 ∨ c = 9 ∨ c = 0xA ∨ (0x10 ≤ c ∧ c ≤ 0x15) then some (.src 1 false)
  else if 0x20 ≤ c ∧ c ≤ 0x23 then some (.src 2 true)
  else if c = 0x24 then some .sel
  else if c = 0x25 ∨ c = 0x26 then some (.flags 2)
  else if c = 0x27 then some (.flags 1)
  else if 0x30 ≤ c ∧ c ≤ 0x38 then some (.src 2 false)
  else if c = 0x39 ∨ c = 0x3A then some (.src 2 true)
  else if c = 0x40 then some .cvt
  else if c = 0x50 then some .rng
  else none

/-- Whether a source code is permitted in a pass (R140). -/
def srcOk (x : VecDesc) (pass s : Nat) : Bool :=
  if 16 ≤ s ∧ s ≤ 18 then (x.ins.getD (s - 16) x.out0).en
  else if s = 29 then decide (1 ≤ pass)
  else if s = 30 then decide (pass = 2)
  else true

/-- Whether an operation word is rejected, always with E_RANGE (R139, R143, R147). -/
def opBad (x : VecDesc) (pass w : Nat) : Bool :=
  let c := opOpc w
  match opShape c with
  | none => true
  | some (.src n flag) =>
    (flag && 4 ≤ opDst w) || (!srcOk x pass (opA w)) ||
      (if n < 2 then opB w ≠ 0 else !srcOk x pass (opB w)) ||
      (if n < 3 then opC w ≠ 0 else !srcOk x pass (opC w)) || opMod w ≠ 0 ||
      (x.pair && !(c ≤ 4 || c = 7 || c = 8 || c = 9 || c = 0xA || (0x20 ≤ c && c ≤ 0x23)))
  | some .sel => !srcOk x pass (opA w) || !srcOk x pass (opB w) || opC w ≠ 0 || 4 ≤ opMod w
  | some (.flags n) =>
    4 ≤ opDst w || 4 ≤ opA w || (if n < 2 then opB w ≠ 0 else 4 ≤ opB w) || opC w ≠ 0 || opMod w ≠ 0
  | some .cvt =>
    !srcOk x pass (opA w) || opB w ≠ 0 ||
      (if opMod w = 5 ∨ opMod w = 7 ∨ 8 ≤ opMod w then opC w ≠ 0 else 8 ≤ opC w) || 8 ≤ opMod w ||
      (x.pair && opMod w ≠ 0)
  | some .rng => 2 ≤ opMod w || x.pair

/-- The pass of operation i of a program. -/
def VecDesc.passOf (x : VecDesc) (i : Nat) : Nat :=
  if i < x.plen.getD 0 0 then 0 else if i < x.plen.getD 0 0 + x.plen.getD 1 0 then 1 else 2

/-- The number of operations of a program. -/
def VecDesc.progLen (x : VecDesc) : Nat := x.plen.getD 0 0 + x.plen.getD 1 0 + x.plen.getD 2 0

/-- Whether a program is rejected. -/
def progBad (x : VecDesc) (prog : List W32) : Bool :=
  (List.range x.progLen).any fun i => opBad x (x.passOf i) (word prog i).toNat

end Sys2Proof.Machine
end

