-- ==== Sys2Proof/Machine/Matrix.lean ====
section
/-! DEFINITION. The matrix array: the one accumulation order (R116 to R118), the output (R114, R126), and
the start and the end of an operation (R108, R130, R160, R161). -/

namespace Sys2Proof.Machine

/-! ## The product -/

/-- The FP32 code of an element of a wide operand: FP16 and BF16 widen exactly (R87). -/
def wideCode (f : Fmt) (c : Nat) : Nat :=
  match f with
  | .bf16 => c * 2 ^ 16
  | .fp32 => c
  | g => toF32 (decode g c)

/-- What the array multiplies for element kk of a packed row: for a wide operand the BF16 piece, else the
decoded element with its block scale (R75, R87). -/
def mxFactor (f : Fmt) (wide scaled : Bool) (row scales : List Byte) (piece kk : Nat) : Fp :=
  let c := elemAt f row kk
  if wide then decode .bf16 (splitPiece piece (wideCode f c))
  else if scaled then Sys2Proof.Machine.scaled (scales.getD (kk / 32) 0).toNat (decode f c) else decode f c

/-- One FP32 accumulation step: the exact sum, rounded once (R116). -/
def accStep (acc p : Fp) : Fp := f32 (toF32 (acc.add p))

/-- Whether a factor is a zero second or third piece of a wide operand: its product adds nothing (R87). -/
def idlePiece (wide : Bool) (piece : Nat) (x : Fp) : Bool := wide && decide (2 ≤ piece) && x.isZero

/-- The accumulation step of one product of pieces a and b. DEDUCED: R87 comes before the product of zero and infinity of
R118, since it speaks of these products alone. -/
def accPiece (wide : Bool) (p : Nat × Nat) (acc a b : Fp) : Fp :=
  if idlePiece wide p.1 a || idlePiece wide p.2 b then acc else accStep acc (a.mul b)

/-- The FP32 accumulator of one output element (R116). -/
def mxDotFloat (x : MxDesc) (a b as bs : List Byte) (init : Fp) : Fp :=
  let wide := decide (7 ≤ x.aFmt)
  let pieces := (passPieces x.passes x.side).getD []
  (List.range x.k).foldl (fun acc kk =>
    pieces.foldl (fun acc p =>
      accPiece wide p acc (mxFactor (fmtOf x.aFmt) wide x.aScaled a as p.1 kk)
        (mxFactor (fmtOf x.bFmt) wide x.bScaled b bs p.2 kk)) acc) init

/-- An INT32 accumulation step, saturating (R117). -/
def accInt (acc : Int × Bool) (p : Int) : Int × Bool :=
  let s := acc.1 + p
  if 2 ^ 31 - 1 < s then (2 ^ 31 - 1, true) else if s < -(2 ^ 31) then (-(2 ^ 31), true) else (s, acc.2)

/-- The INT32 accumulator of one output element, with whether it saturated. -/
def mxDotInt (x : MxDesc) (a b : List Byte) (init : Int) : Int × Bool :=
  (List.range x.k).foldl (fun acc kk => accInt acc (sgn 8 (elemAt .int8 a kk) * sgn 8 (elemAt .int8 b kk)))
    (init, false)

/-- The code of C for an accumulator (R114). -/
def mxOut (x : MxDesc) (acc : Fp) : Nat :=
  if x.cFmt = 0 ∧ x.tOut = 0x3F800000 then toF32 acc else encode (cFmtOf x.cFmt) (acc.mul (f32 x.tOut))

/-- Whether the tile of element (i, j) is computed (R126). -/
def MxDesc.computed (x : MxDesc) (i j : Nat) : Bool :=
  !x.maskEn || x.keep.testBit (x.keepBit (i / 16 * 16) (j / 16 * 16))

/-- Bytes of an element of C. -/
def MxDesc.cBytes (x : MxDesc) : Nat := (cFmtOf x.cFmt).width / 8

/-- The ranges that the computed tiles read: rows of A, of B, their scales, and C under `acc_init`. -/
def MxDesc.reads (x : MxDesc) : List (Nat × Nat) :=
  let rowOn := fun i => (List.range x.n).any fun j => x.computed i j
  let colOn := fun j => (List.range x.m).any fun i => x.computed i j
  let sb := scaleBytes x.k
  ((List.range x.m).filter rowOn).flatMap (fun i =>
    (x.a.addr + i * x.a.stride, x.a.len) :: (if x.aScaled then [(x.aScale + i * sb, sb)] else [])) ++
  ((List.range x.n).filter colOn).flatMap (fun j =>
    (x.b.addr + j * x.b.stride, x.b.len) :: (if x.bScaled then [(x.bScale + j * sb, sb)] else [])) ++
  (if x.accInit then
    ((List.range x.m).filter rowOn).flatMap fun i =>
      ((List.range x.n).filter fun j => x.computed i j).map fun j =>
        (x.c.addr + i * x.c.stride + j * x.cBytes, x.cBytes)
   else [])

/-- The element of C at (i, j): its bytes, and whether an accumulator saturated; none when the tile writes
nothing. `rd` reads the operand cache. -/
def mxElem (x : MxDesc) (rd : Nat → Nat → List Byte) (i j : Nat) : Option (List Byte × Bool) :=
  let w := x.cBytes
  let sb := scaleBytes x.k
  if x.computed i j then
    let a := rd (x.a.addr + i * x.a.stride) x.a.len
    let b := rd (x.b.addr + j * x.b.stride) x.b.len
    let c := if x.accInit then ofBytes (rd (x.c.addr + i * x.c.stride + j * w) w) else 0
    if x.cFmt = 3 then
      let (v, s) := mxDotInt x a b (sgn 32 c)
      some (toBytes 4 (repr2 32 v), s)
    else
      let as := rd (x.aScale + i * sb) sb
      let bs := rd (x.bScale + j * sb) sb
      some (toBytes w (mxOut x (mxDotFloat x a b as bs (if x.accInit then f32 c else Fp.zero))), false)
  else if x.fill then some (zeros w, false)
  else none

/-- The elements of row i in one tile, with the cache offset of the first: what the C port writes of the row. All of
them are computed or masked together (R125), and a row of a tile begins at a multiple of 8. DEDUCED: the port carries
32 bytes per stage (R107), so the row covers whole codewords where its elements do (R188). -/
def mxTileRow (x : MxDesc) (rd : Nat → Nat → List Byte) (i jt : Nat) : Option (Nat × List Byte × Bool) :=
  let es := ((List.range 16).filterMap fun k => if 16 * jt + k < x.n then mxElem x rd i (16 * jt + k) else none)
  if es.isEmpty then none
  else some (x.c.addr + i * x.c.stride + 16 * jt * x.cBytes, es.flatMap Prod.fst, es.any Prod.snd)

/-- Every write of an operation, as cache offsets and bytes, and whether any accumulator saturated. -/
def mxRun (x : MxDesc) (rd : Nat → Nat → List Byte) : List (Nat × List Byte) × Bool :=
  let rows := (List.range x.m).flatMap fun i => (List.range (ceilDiv x.n 16)).filterMap (mxTileRow x rd i)
  (rows.map fun c => (c.1, c.2.1), rows.any fun c => c.2.2)

/-! ## The queues of a core -/

/-- Reads ranges of a core's operand cache through their codes; false when any cannot be used (R197). -/
def Dev.cacheReads (n k : Nat) : List (Nat × Nat) → Dev → Dev × Bool
  | [], d => (d, true)
  | (off, len) :: rs, d =>
    match d.readOk reqOp (cacheAddr n k off) len with
    | (d, true) => Dev.cacheReads n k rs d
    | (d, false) => (d, false)

/-- Writes bytes of a core's operand cache. -/
def Dev.cacheWrites (n k : Nat) (ws : List (Nat × List Byte)) (d : Dev) : Dev :=
  ws.foldl (fun d w => d.writeBytes reqOp (cacheAddr n k w.1) w.2) d

/-- The matrix operation at the head of a core's queue has finished (R160). -/
def Core.mxDone (c : Core) (tag : Nat) : Core :=
  { c with mq := c.mq.tail, mrun := false, mtag := BitVec.ofNat 16 tag, mcnt := c.mcnt + 1 }

/-- The vector operation at the head of a core's queue has finished (R160). -/
def Core.vecDone (c : Core) (tag : Nat) : Core :=
  { c with vq := c.vq.tail, vrun := false, vtag := BitVec.ofNat 16 tag, vcnt := c.vcnt + 1 }

/-- Every operation that waits in a queue is discarded, each counting as finished (R160, R161). DEDUCED: an operation of
the other kind that is running when this one stops is not among those still in the queues: R130 and R154 let it stop
only for an error of its own, a reset or an abort. -/
def Core.discard (c : Core) : Core :=
  let keepM := b2n c.mrun
  let keepV := b2n c.vrun
  { c with mq := c.mq.take keepM, vq := c.vq.take keepV, mcnt := c.mcnt + BitVec.ofNat 16 (c.mq.length - keepM),
           vcnt := c.vcnt + BitVec.ofNat 16 (c.vq.length - keepV) }

/-- A core whose program is aborted: the running operations stop early and count with their tags, and those that wait
count as discarded ones do (R130, R154, R160, R513). -/
def Core.abort (c : Core) : Core :=
  let c := match c.mrun, c.mq with | true, op :: _ => c.mxDone (mxDesc op.words).opTag | _, _ => c
  let c := match c.vrun, c.vq with | true, op :: _ => c.vecDone (vecDesc op.words).opTag | _, _ => c
  c.discard

/-- The core fault of R161. -/
def Dev.coreFault (n k : Nat) (d : Dev) : Dev :=
  d.modClu n fun c =>
    { c.setCore k (c.core k).discard with clu := { c.clu with coreFault := setBit c.clu.coreFault k } }

/-- A matrix operation begins when it heads its queue and none runs (R108). -/
def Dev.mxStart (n k : Nat) (d : Dev) : Dev :=
  let c := (d.clu n).core k
  guarded (!c.mrun && !c.mq.isEmpty) (Dev.modClu n fun x => x.setCore k { c with mrun := true }) d

/-- A matrix operation ends: its output is written, or, on an operand-cache read that cannot be corrected,
it writes nothing and the core faults (R130, R161). -/
def Dev.mxEnd (n k : Nat) (d : Dev) : Dev :=
  let c := (d.clu n).core k
  match c.mrun, c.mq with
  | true, op :: _ =>
    let x := mxDesc op.words
    match d.cacheReads n k x.reads with
    | (d, false) => (d.modClu n fun y => y.setCore k ((y.core k).mxDone x.opTag)).coreFault n k
    | (d, true) =>
      let (ws, sat) := mxRun x fun off len => d.bytes (cacheAddr n k off) len
      let d := d.cacheWrites n k ws
      d.modClu n fun y =>
        { y.setCore k ((y.core k).mxDone x.opTag) with
          clu := { y.clu with isat := if sat then setBit y.clu.isat k else y.clu.isat } }
  | _, _ => d

/-- MATRIX_OP_START. -/
def execMatrixOpStart (clu core : Nat) : State → Result := onDev (Dev.mxStart clu core)

/-- MATRIX_OP_END. -/
def execMatrixOpEnd (clu core : Nat) : State → Result := onDev (Dev.mxEnd clu core)

end Sys2Proof.Machine
end

