-- ==== Sys2Proof/Machine/Vector.lean ====
section
/-! DEFINITION. The vector engine: element programs (R139 to R147), packing (R148), the reduction tree
(R149 to R152), output stores (R146), and the start and the end of an operation (R134, R154). -/

namespace Sys2Proof.Machine

/-- A fold into a running-maximum register (R81, R555): register, the FP32 source, whether `sat` is set. -/
structure Fold where
  reg : Nat
  src : Option Nat
  sat : Bool
  deriving DecidableEq, Repr

/-- Folds a value (R81). -/
def Rmax.fold (r : Rmax) (w : Nat) : Rmax :=
  match f32 w with
  | .nan => { r with nanSeen := true }
  | _ => if r.maxAbs.toNat < w % 2 ^ 31 then { r with maxAbs := BitVec.ofNat 31 w } else r

/-- Applies folds to the registers of a cluster. -/
def CluRegs.folds (x : CluRegs) (fs : List Fold) : CluRegs :=
  fs.foldl (fun x f =>
    { x with
      rmax := Vector.ofFn fun (i : Fin 8) =>
        if i.val = f.reg then f.src.elim (x.rmax.get i) (x.rmax.get i).fold else x.rmax.get i
      sat := if f.sat then setBit x.sat f.reg else x.sat }) x

/-! ## Operations -/

/-- The smaller or larger of two values, −0 below +0, NaN if either is NaN (R141). -/
def pickMin (a b : Fp) : Fp :=
  if a.isNan || b.isNan then .nan
  else if a.lt b then a else if b.lt a then b else if a.sign then a else b

def pickMax (a b : Fp) : Fp :=
  if a.isNan || b.isNan then .nan
  else if a.lt b then b else if b.lt a then a else if a.sign then b else a

/-- The result of a float operation: rounded once to FP32, or under `pair` to BF16 (R141, R143). -/
def vecRound (pair : Bool) (x : Fp) : Nat := if pair then encode .bf16 x * 2 ^ 16 else toF32 x

/-- What an element sees: its lane values, temporaries and flags. -/
structure Lane where
  t : List Nat
  f : List Bool
  folds : List Fold
  deriving DecidableEq, Repr

def Lane.init : Lane := { t := List.replicate 16 0, f := List.replicate 4 false, folds := [] }

def Lane.setT (l : Lane) (i v : Nat) : Lane := { l with t := l.t.set i (v % 2 ^ 32) }
def Lane.setF (l : Lane) (i : Nat) (b : Bool) : Lane := { l with f := l.f.set i b }
def Lane.getF (l : Lane) (i : Nat) : Bool := l.f.getD i false

/-- The conversion of CVT on an FP32 or INT32 code (R145). -/
def cvtValue (mod a : Nat) : Nat :=
  match mod with
  | 0 => encode .bf16 (f32 a) * 2 ^ 16
  | 1 => toF32 (decode .fp16 (encode .fp16 (f32 a)))
  | 2 => splitPiece 1 a * 2 ^ 16
  | 3 => splitPiece 2 a * 2 ^ 16
  | 4 => splitPiece 3 a * 2 ^ 16
  | 5 => toF32 (Fp.ofInt (sgn 32 a) 0)
  | 6 => encode .int32 (f32 a)
  | _ => elemAnchor a

/-- Whether a folding CVT sets `sat`: a finite value out of range, or an infinity or NaN that becomes a finite code, as
pieces 2 and 3 of one do (R83, R87, R555). -/
def cvtSat (mod a : Nat) : Bool :=
  match mod with
  | 0 => outOfRange .bf16 (f32 a)
  | 1 => outOfRange .fp16 (f32 a)
  | 3 => (f32 a).isNan || (f32 a).isInf
  | 4 => (f32 a).isNan || (f32 a).isInf
  | 6 => outOfRange .int32 (f32 a) || (f32 a).isNan || (f32 a).isInf
  | _ => false

/-- One operation on an element: `src` gives the 32-bit value of a source code and `rng` the generator word
of a draw (R141 to R147). -/
def vecOp (pair : Bool) (src : Lane → Nat → Nat) (rng : Nat → Nat) (l : Lane) (w : Nat) : Lane :=
  let a := src l (opA w)
  let b := src l (opB w)
  let c := src l (opC w)
  let x := f32 a
  let y := f32 b
  let out := fun (v : Fp) => l.setT (opDst w) (vecRound pair v)
  let raw := fun (v : Nat) => l.setT (opDst w) v
  let flag := fun (p : Bool) => l.setF (opDst w) p
  let sa := sgn 32 a
  let sb := sgn 32 b
  match opOpc w with
  | 0x01 => out (x.add y)
  | 0x02 => out (x.sub y)
  | 0x03 => out (x.mul y)
  | 0x04 => out ((x.mul y).add (f32 c))
  | 0x05 => out (x.div y)
  | 0x06 => out x.sqrt
  | 0x07 => out (pickMin x y)
  | 0x08 => out (pickMax x y)
  | 0x09 => out x.abs
  | 0x0A => out x.neg
  | 0x10 => raw (exp2F a)
  | 0x11 => raw (log2F a)
  | 0x12 => raw (rcpF a)
  | 0x13 => raw (rsqrtF a)
  | 0x14 => raw (tanhF a)
  | 0x15 => raw (erfF a)
  | 0x20 => flag (x.lt y)
  | 0x21 => flag (x.lt y || x.eqv y)
  | 0x22 => flag (x.eqv y)
  | 0x23 => flag (x.isNan || y.isNan)
  | 0x24 =>
    let v := if l.getF (opMod w) then a else b
    if pair then out (f32 v) else raw v
  | 0x25 => flag (l.getF (opA w) && l.getF (opB w))
  | 0x26 => flag (l.getF (opA w) || l.getF (opB w))
  | 0x27 => flag (!l.getF (opA w))
  | 0x30 => raw (a + b)
  | 0x31 => raw (a + 2 ^ 32 - b)
  | 0x32 => raw (a * b)
  | 0x33 => raw (a &&& b)
  | 0x34 => raw (a ||| b)
  | 0x35 => raw (a ^^^ b)
  | 0x36 => raw (a * 2 ^ (b % 32))
  | 0x37 => raw (a / 2 ^ (b % 32))
  | 0x38 => raw (repr2 32 (sa / 2 ^ (b % 32)))
  | 0x39 => flag (decide (sa < sb))
  | 0x3A => flag (a == b)
  | 0x40 =>
    let l' := raw (cvtValue (opMod w) a)
    if opMod w = 5 ∨ opMod w = 7 then l'
    else { l' with folds := { reg := opC w % 8, src := some a, sat := cvtSat (opMod w) a } :: l'.folds }
  | 0x50 =>
    let v := rng (opC w * 1024 + opB w * 32 + opA w)
    raw (if opMod w % 2 = 0 then v else toF32 (uniform v))
  | _ => l

/-! ## Rows -/

/-- The lane value of element i of a stream's row (R142). -/
def laneValue (s : Stream) (row scales : List Byte) (i : Nat) : Nat :=
  if s.fmt = 10 then num row (4 * i) 4
  else if s.fmt = 11 then b2n ((row.getD (i / 8) 0).toNat.testBit (i % 8))
  else
    let f := fmtOf s.fmt
    let c := elemAt f row i
    if s.scaled then toF32 (scaled (scales.getD (i / 32) 0).toNat (decode f c))
    else
      match f with
      | .int8 => repr2 32 (sgn 8 c)
      | g => toF32 (decode g c)

/-- What a row's passes read: the bytes and scales of its input streams. -/
structure RowIn where
  rows   : List (List Byte)
  scales : List (List Byte)
  deriving DecidableEq, Repr

/-- The value of source code 16 in an expanding last pass: the elements of in0 are taken in order by the
active elements; an inactive element reads +0 (R148). -/
def expandIndex (s2 : Stream) (mask : List Byte) (e : Nat) : Option Nat :=
  if laneValue s2 mask [] e = 0 then none
  else some ((List.range e).filter fun i => laneValue s2 mask [] i ≠ 0).length

/-- The element-index key part of R147. -/
def VecDesc.index (x : VecDesc) (r e : Nat) : Nat := (x.ibase + r * x.irstride + e) % 2 ^ 48

/-- The value of a source code for element (r, e) (R140). -/
def vecSrc (x : VecDesc) (inp : RowIn) (last : Bool) (r e red0 red1 : Nat) (l : Lane) (s : Nat) : Nat :=
  if s < 16 then l.t.getD s 0
  else if s ≤ 18 then
    let k := s - 16
    let st := x.ins.getD k x.out0
    let row := inp.rows.getD k []
    let sc := inp.scales.getD k []
    if k = 0 ∧ last ∧ x.pack = 2 then
      match expandIndex (x.ins.getD 2 x.out0) (inp.rows.getD 2 []) e with
      | none => 0
      | some i => laneValue st row sc i
    else laneValue st row sc e
  else if s = 19 then e
  else if s = 20 then r
  else if s ≤ 28 then (x.scalars.getD (s - 21) 0).toNat
  else if s = 29 then red0
  else if s = 30 then red1
  else 0

/-- The operations of a pass. -/
def VecDesc.passOps (x : VecDesc) (prog : List W32) (p : Nat) : List Nat :=
  let start := (List.range p).foldl (fun a i => a + x.plen.getD i 0) 0
  (List.range (x.plen.getD p 0)).map fun i => (word prog (start + i)).toNat

/-- Every element of a row through the program of a pass. -/
def vecPass (x : VecDesc) (ops : List Nat) (inp : RowIn) (last : Bool) (r red0 red1 : Nat) : List Lane :=
  (List.range x.len).map fun e =>
    ops.foldl (vecOp x.pair (vecSrc x inp last r e red0 red1)
      (fun n => drawWord x.seed x.step (x.index r e) x.stream n)) Lane.init

/-! ## Reductions -/

/-- One level of the tree: neighbours combine, an empty partial returns its partner (R150). -/
def treeLevel (f : Nat → Nat → Nat) : List (Option Nat) → List (Option Nat)
  | a :: b :: r =>
    (match a, b with
      | some u, some v => some (f u v)
      | some u, none => some u
      | none, v => v) :: treeLevel f r
  | [a] => [a]
  | [] => []

/-- The 32-lane reduction of R150. -/
def treeSum (vs : List Nat) : Nat :=
  let lane := fun l => ((List.range (ceilDiv vs.length 32)).filterMap fun i => vs[32 * i + l]?) |> fun xs =>
    match xs with
    | [] => none
    | y :: ys => some (ys.foldl addF32 y)
  let p := (List.range 32).map lane
  let t := treeLevel addF32 (treeLevel addF32 (treeLevel addF32 (treeLevel addF32 (treeLevel addF32 p))))
  (t.headD none).getD 0

/-- The FP32 code of negative infinity. -/
def negInf32 : Nat := 0xFF800000

/-- The largest or smallest of a row (R149). -/
def foldPick (f : Fp → Fp → Fp) (vs : List Nat) : Nat :=
  match vs with
  | [] => 0
  | v :: r => toF32 (r.foldl (fun a w => f a (f32 w)) (f32 v))

/-- MAXIDX: the lowest NaN element if any, else the lowest that holds the largest value (R149). -/
def maxIdx (vs : List Nat) : Nat :=
  match (List.range vs.length).find? fun e => (f32 (vs.getD e 0)).isNan with
  | some e => e
  | none =>
    let m := foldPick pickMax vs
    ((List.range vs.length).find? fun e => toF32 (f32 (vs.getD e 0)) = m).getD 0

/-- The exact sum of a row at an anchor (R152). -/
def sumx (anchor : Nat) (vs : List Nat) : Nat :=
  if anchor ≠ 0xFF ∧ vs.any (fun w => anchor < elemAnchor w) then Fmt.nanCode .fp32
  else fromAx .fp32 anchor (BitVec.ofInt 96 (vs.foldl (fun a w => a + toAx anchor w) 0))

/-- The result of a reduction (R149). -/
def reduce (kind red0 : Nat) (ls : List Lane) : Nat :=
  let vs := ls.map fun l => l.t.getD 0 0
  match kind with
  | 1 => treeSum vs
  | 2 => sumx red0 vs
  | 3 => foldPick pickMax vs
  | 4 => foldPick pickMin vs
  | 5 => maxIdx vs
  | 6 => chunkAnchor vs
  | 7 => (ls.filter fun l => l.getF 0).length
  | _ => 0

/-! ## Output stores (R146) -/

/-- Groups of at most 32 (R76). -/
def blocks32 {α : Type} (fuel : Nat) (l : List α) : List (List α) :=
  match fuel with
  | 0 => []
  | f + 1 => if l.isEmpty then [] else l.take 32 :: blocks32 f (l.drop 32)

/-- A store of a row's values: element bytes, scale bytes if any, and folds. `old` is what the row holds,
for the bits that a compress leaves unwritten in its last byte. -/
def storeRow (s : Stream) (reg : Nat) (t : Fp) (given : Option (List Byte)) (compress : Bool) (rowLen : Nat)
    (vals : List Nat) (flags : List Bool) (old : List Byte) : List Byte × List Byte × List Fold :=
  let pad := fun (codes : List Nat) (w : Nat) (f : Fmt) =>
    let bs := if w = 1 then
        toBytes (ceilDiv codes.length 8) (codes.foldr (fun c acc => c % 2 + acc * 2) 0)
      else packElems f codes
    if compress then
      (if codes.length * w % 8 = 0 then bs
       else
         let keep := codes.length * w % 8
         let i := bs.length - 1
         bs.take i ++ [BitVec.ofNat 8 ((bs.getD i 0).toNat % 2 ^ keep + (old.getD i 0).toNat / 2 ^ keep * 2 ^ keep)])
    else bs ++ zeros (rowLen - bs.length)
  if s.fmt = 10 then (pad vals 32 .int32, [], [])
  else if s.fmt = 11 then (pad (flags.map b2n) 1 .int8, [], [])
  else
    let f := fmtOf s.fmt
    let xs := vals.map fun v => (f32 v).mul t
    let src := fun (sat : Bool) => vals.map fun v => ({ reg := reg, src := some v, sat := sat } : Fold)
    if s.scaled then
      let bl := (List.range (ceilDiv xs.length 32)).map fun i =>
        let b := (blocks32 (xs.length + 1) xs).getD i []
        let r := storeBlock f (given.map fun g => (g.getD i 0).toNat) b
        (r, r.1 = 0xFF || blockSat f r.1 b)
      (pad (bl.flatMap fun b => b.1.2) f.width f, bl.map fun b => BitVec.ofNat 8 b.1.1,
        src false ++ (if bl.any Prod.snd then [{ reg := reg, src := none, sat := true }] else []))
    else
      let sat := xs.any fun x => outOfRange f x || (f.isInt && (x.isNan || x.isInf))
      (pad (xs.map (encode f)) f.width f, [],
        src false ++ (if sat then [{ reg := reg, src := none, sat := true }] else []))

/-- What one row writes (cache offsets and bytes) and folds. -/
def vecRow (x : VecDesc) (prog : List W32) (rd : Nat → Nat → List Byte) (r : Nat) :
    List (Nat × List Byte) × List Fold :=
  let sb := scaleBytes x.len
  let scaleAt := fun (s : Stream) => s.scale + (if s.stride = 0 then 0 else r * sb)
  let inp : RowIn :=
    { rows := x.ins.map fun s => if s.en then rd (s.addr + r * s.stride) (x.rowLen s) else []
      scales := x.ins.map fun s => if s.blocked then rd (scaleAt s) sb else [] }
  let last := x.npass - 1
  let l0 := vecPass x (x.passOps prog 0) inp (last == 0) r 0 0
  let red0 := if x.npass = 1 then 0 else reduce x.red0 0 l0
  let l1 := if x.npass = 1 then l0 else vecPass x (x.passOps prog 1) inp (last == 1) r red0 0
  let red1 := if x.npass = 3 then reduce x.red1 red0 l1 else 0
  let l2 := if x.npass = 3 then vecPass x (x.passOps prog 2) inp true r red0 red1 else l1
  let ops := l0.flatMap Lane.folds ++ (if x.npass = 1 then [] else l1.flatMap Lane.folds) ++
    (if x.npass = 3 then l2.flatMap Lane.folds else [])
  let mult := fun (sel : Nat) => if sel = 0 then Fp.one else f32 (x.scalars.getD (sel - 1) 0).toNat
  let store := fun (k : Nat) (s : Stream) (reg sel : Nat) (given compress : Bool) =>
    let ls := if compress then l2.filter fun l => l.getF 0 else l2
    let at_ := s.addr + r * s.stride
    let (bs, sc, fs) := storeRow s reg (mult sel) (if given then some (rd (s.scale + r * sb) sb) else none)
      compress (x.rowLen s) (ls.map fun l => l.t.getD k 0) (ls.map fun l => l.getF k) (rd at_ (x.rowLen s))
    ((at_, bs) :: (if s.scaled then [(s.scale + r * sb, sc)] else []), fs)
  let o0 := if x.out0.en then store 0 x.out0 x.rmax0 x.tsel0 x.given0 (x.pack == 1) else ([], [])
  let o1 := if x.out1.en then store 1 x.out1 x.rmax1 x.tsel1 x.given1 false else ([], [])
  let count := (l2.filter fun l => l.getF 0).length
  let res := (if x.produces.1 then [red0] else []) ++ (if x.produces.2.1 then [red1] else []) ++
    (if x.produces.2.2 then [count] else [])
  let rw := if x.routEn then [(x.rout + r * x.routStride, res.flatMap (toBytes 4))] else []
  (o0.1 ++ o1.1 ++ rw, ops ++ o0.2 ++ o1.2)

/-- Every write and fold of an operation. Rows do not read what other rows write (R137). -/
def vecRun (x : VecDesc) (prog : List W32) (rd : Nat → Nat → List Byte) : List (Nat × List Byte) × List Fold :=
  let rs := (List.range x.rows).map (vecRow x prog rd)
  (rs.flatMap Prod.fst, rs.flatMap Prod.snd)

/-- Whether a program reads input stream k, or the packing does. -/
def VecDesc.names (x : VecDesc) (prog : List W32) (k : Nat) : Bool :=
  (x.ins.getD k x.out0).en &&
    ((k = 2 && x.pack = 2) || (List.range x.progLen).any fun i =>
      let w := (word prog i).toNat
      match opShape (opOpc w) with
      | some (.src n _) => opA w = 16 + k || (2 ≤ n && opB w = 16 + k) || (3 ≤ n && opC w = 16 + k)
      | some .sel => opA w = 16 + k || opB w = 16 + k
      | some .cvt => opA w = 16 + k
      | _ => false)

/-- The ranges an operation reads. -/
def VecDesc.reads (x : VecDesc) (prog : List W32) : List (Nat × Nat) :=
  let sb := scaleBytes x.len
  (List.range 3).flatMap (fun k =>
    let s := x.ins.getD k x.out0
    if x.names prog k then
      (List.range (if s.stride = 0 then 1 else x.rows)).flatMap fun r =>
        (s.addr + r * s.stride, x.rowLen s) :: (if s.scaled then [(s.scale + r * sb, sb)] else [])
    else []) ++
  ([(x.out0, x.given0), (x.out1, x.given1)].flatMap fun o =>
    if o.1.blocked && o.2 then (List.range x.rows).map fun r => (o.1.scale + r * sb, sb) else [])

/-- A vector operation begins when it heads its queue and none runs (R134). -/
def Dev.vecStart (n k : Nat) (d : Dev) : Dev :=
  let c := (d.clu n).core k
  guarded (!c.vrun && !c.vq.isEmpty) (Dev.modClu n fun x => x.setCore k { c with vrun := true }) d

/-- A vector operation ends: outputs, folds and row results, or a core fault (R154, R161). -/
def Dev.vecEnd (n k : Nat) (d : Dev) : Dev :=
  let c := (d.clu n).core k
  match c.vrun, c.vq with
  | true, op :: _ =>
    let x := vecDesc op.words
    match d.cacheReads n k (x.reads op.prog) with
    | (d, false) => (d.modClu n fun y => y.setCore k ((y.core k).vecDone x.opTag)).coreFault n k
    | (d, true) =>
      let (ws, fs) := vecRun x op.prog fun off len => d.bytes (cacheAddr n k off) len
      let d := d.cacheWrites n k ws
      d.modClu n fun y => { y.setCore k ((y.core k).vecDone x.opTag) with clu := y.clu.folds fs }
  | _, _ => d

/-- VECTOR_OP_START. -/
def execVectorOpStart (clu core : Nat) : State → Result := onDev (Dev.vecStart clu core)

/-- VECTOR_OP_END. -/
def execVectorOpEnd (clu core : Nat) : State → Result := onDev (Dev.vecEnd clu core)

end Sys2Proof.Machine
end

