-- ==== Sys2Proof/Machine/Sampler.lean ====
section
/-! DEFINITION. The sampler's arithmetic (R267 to R272) and the penalty list (R269). -/

namespace Sys2Proof.Machine

/-- FP32 codes of log₂ e and of ln 2 (R267). -/
def log2e32 : Nat := 0x3FB8AA3B
def ln2_32 : Nat := 0x3F317218
def posInf32 : Nat := 0x7F800000
def one32 : Nat := 0x3F800000

/-- What the sampler takes from a request block (R264). -/
structure SampleParams where
  topK  : Nat
  temp  : Nat
  topP  : Nat
  pres  : Nat
  freq  : Nat
  rep   : Nat
  seed  : Nat
  step  : Nat
  deriving DecidableEq, Repr

/-- Step 2 of R267 on a logit whose token has count c. -/
def penalise (p : SampleParams) (c z : Nat) : Nat :=
  if c = 0 then z
  else
    let z := subF32 (subF32 z p.pres) (mulF32 p.freq (toF32 (.fin false c 0)))
    if p.rep = one32 then z
    else if Fp.zero.lt (f32 z) then toF32 ((f32 z).div (f32 p.rep)) else mulF32 z p.rep

/-- Steps 2 and 3 of R267. -/
def adjustLogit (p : SampleParams) (c z : Nat) : Nat :=
  let z := penalise p c z
  if p.temp = 0 then z else toF32 ((f32 z).div (f32 p.temp))

/-- Whether token a ranks before token b: a larger logit, or an equal one and a lower ID. -/
def ranksBefore (a b : Nat × Nat) : Bool := (f32 b.2).lt (f32 a.2) || ((f32 a.2).eqv (f32 b.2) && decide (a.1 < b.1))

/-- Insertion into a ranked list. -/
def insertRank (x : Nat × Nat) : List (Nat × Nat) → List (Nat × Nat)
  | [] => [x]
  | y :: r => if ranksBefore x y then x :: y :: r else y :: insertRank x r

/-- The tokens with their logits in rank order. -/
def rankTokens (zs : List Nat) : List (Nat × Nat) := ((List.range zs.length).zip zs).foldr insertRank []

/-- The weight of a logit against a maximum. -/
def sampleWeight (m z : Nat) : Nat := exp2F (mulF32 (subF32 z m) log2e32)

/-- The exact sum of weights at an anchor (R97). -/
def axTotal (anchor : Nat) (ws : List Nat) : Int := ws.foldl (fun a w => a + toAx anchor w) 0

/-- A sum returned as FP32. -/
def axFloat (anchor : Nat) (s : Int) : Nat := fromAx .fp32 anchor (BitVec.ofInt 96 s)

/-- The shortest prefix whose running sum satisfies a test, or the whole list. -/
def prefixUntil (anchor : Nat) (p : Int → Bool) : Int → List (Nat × Nat) → List (Nat × Nat)
  | _, [] => []
  | s, x :: r =>
    let s := s + toAx anchor x.2
    if p s then [x] else x :: prefixUntil anchor p s r

/-- The first entry whose running sum exceeds a bound. -/
def firstAbove (anchor : Nat) (t : Int) : Int → List (Nat × Nat) → Option Nat
  | _, [] => none
  | s, x :: r =>
    let s := s + toAx anchor x.2
    if t < s then some x.1 else firstAbove anchor t s r

/-- The base-e logarithm of a probability: (z − m) − log₂ s × ln 2, each operation rounded once (R272). -/
def logProb (z m s : Nat) : Nat := subF32 (subF32 z m) (mulF32 (log2F s) ln2_32)

/-- One logits vector (R267, R268): the token, `lp_sample` and `lp_model`, or none for E_NAN_LOGIT. `count` gives
penalty counts and `idx` the token index of the draw (R270). -/
def sampleOne (p : SampleParams) (count : Nat → Nat) (idx : Nat) (raw : List Nat) : Option (Nat × Nat × Nat) :=
  let pen := ((List.range raw.length).zip raw).map fun x => penalise p (count x.1) x.2
  let zs := ((List.range raw.length).zip raw).map fun x => adjustLogit p (count x.1) x.2
  if (raw ++ pen ++ zs).any fun z => (f32 z).isNan then none
  else if zs.all (· == negInf32) then none
  else
    match (List.range zs.length).find? fun v => zs.getD v 0 == posInf32 with
    | some v => some (v, 0, 0)
    | none =>
      let m0 := foldPick pickMax raw
      let e0 := raw.map (sampleWeight m0)
      let a0 := chunkAnchor e0
      let model := fun v => logProb (raw.getD v 0) m0 (axFloat a0 (axTotal a0 e0))
      let ranked := rankTokens zs
      let cand := if p.topK = 0 then ranked else ranked.take p.topK
      let m := (ranked.headD (0, 0)).2
      if p.temp = 0 then
        let x := (ranked.headD (0, 0)).1
        some (x, 0, model x)
      else
        let ws := cand.map fun c => (c.1, sampleWeight m c.2)
        let anchor := chunkAnchor (ws.map Prod.snd)
        let goal := toAx anchor (mulF32 p.topP (axFloat anchor (axTotal anchor (ws.map Prod.snd))))
        let kept := prefixUntil anchor (fun s => decide (goal ≤ s)) 0 ws
        let k := axTotal anchor (kept.map Prod.snd)
        let u := drawWord p.seed p.step idx 2 0 / 256
        let x := (firstAbove anchor (k * u / 2 ^ 24) 0 kept).getD (ranked.headD (0, 0)).1
        some (x, logProb (zs.getD x 0) m (axFloat anchor k), model x)

/-! ## The penalty list -/

/-- The entries of a list: words up to the first with count 0. -/
def penEntries (ws : List W32) : List (Nat × Nat) :=
  (ws.takeWhile fun w => fld w 31 20 != 0).map fun w => (fld w 19 0, fld w 31 20)

/-- Counts one more occurrence of a token: the list, and whether the list was full. -/
def penAdd (cap tok : Nat) : List (Nat × Nat) → List (Nat × Nat) × Bool
  | [] => if cap = 0 then ([], true) else ([(tok, 1)], false)
  | l =>
    if l.any fun e => e.1 == tok then (l.map fun e => if e.1 = tok then (tok, min 4095 (e.2 + 1)) else e, false)
    else if cap ≤ l.length then (l, true)
    else ((l.filter fun e => decide (e.1 < tok)) ++ (tok, 1) :: l.filter fun e => decide (tok < e.1), false)

/-- A list as words, zero up to the capacity. -/
def penWords (cap : Nat) (l : List (Nat × Nat)) : List W32 :=
  (List.range cap).map fun i => let e := l.getD i (0, 0); BitVec.ofNat 32 (e.1 + 2 ^ 20 * e.2)

end Sys2Proof.Machine
end

