-- ==== Sys2Proof/Machine/Crc.lean ====
section
/-! DEFINITION. Cyclic redundancy checks. -/

namespace Sys2Proof.Machine

/-- One bit of a reflected CRC. -/
def crcBit (poly c : Nat) : Nat := if c % 2 = 1 then (c / 2).xor poly else c / 2

/-- One byte of a reflected CRC. -/
def crcByte (poly c : Nat) (b : Byte) : Nat :=
  let x := c.xor b.toNat
  crcBit poly (crcBit poly (crcBit poly (crcBit poly (crcBit poly (crcBit poly (crcBit poly (crcBit poly x)))))))

/-- A reflected CRC of bytes from an initial register, without the final inversion. -/
def crcRun (poly init : Nat) (bs : List Byte) : Nat := bs.foldl (crcByte poly) init

/-- CRC-32C, the Castagnoli polynomial in its usual form: register and result inverted. -/
def crc32c (bs : List Byte) : W32 := BitVec.ofNat 32 ((crcRun 0x82F63B78 0xFFFFFFFF bs).xor 0xFFFFFFFF)

/-- One bit of an unreflected CRC of w bits. -/
def crcUpBit (w poly c : Nat) : Nat :=
  if c.testBit (w - 1) then (2 * c % 2 ^ w).xor poly else 2 * c

/-- One byte of an unreflected CRC, its highest bit first. -/
def crcUpByte (w poly c : Nat) (b : Byte) : Nat :=
  let x := c.xor (b.toNat * 2 ^ (w - 8))
  (List.range 8).foldl (fun c _ => crcUpBit w poly c) x

/-- An unreflected CRC of bytes. -/
def crcUp (w poly init : Nat) (bs : List Byte) : Nat := bs.foldl (crcUpByte w poly) init

/-- CRC-24 of a flit (R297). -/
def crc24 (bs : List Byte) : Nat := crcUp 24 0x864CFB 0xB704CE bs

/-- CRC-64 of a granule (R372). -/
def crc64 (bs : List Byte) : W64 :=
  BitVec.ofNat 64 ((crcRun 0xC96C5795D7870F42 0xFFFFFFFFFFFFFFFF bs).xor 0xFFFFFFFFFFFFFFFF)

end Sys2Proof.Machine
end

