-- ==== Sys2Proof/Machine/Fab.lean ====
section
/-! DEFINITION. Routes, grafts, lost DIDs, packets, credits and outstanding requests of a partition on the Cassum fabric (R305,
R307 to R314, R318, R321). -/

namespace Sys2Proof.Machine

/-- The physical DID to which an LD sends packets for a logical DID (R321). -/
def Dev.physOf (d : Dev) (ld did : Nat) : Nat :=
  ((d.grafts.find? fun g => g.2.ld == ld && g.2.fromDid.toNat == did).map fun g => g.2.toDid.toNat).getD did

/-- Whether an LD has declared a DID lost. -/
def Dev.isLost (d : Dev) (ld did : Nat) : Bool := (d.ld ld).fab.lost.any fun x => x.1 == did

/-- The route entry of an LD for a DID. -/
def Ld.route (l : Ld) (did : Nat) : Route := Map.get l.fab.routes did Route.init

/-- The ports that a route lists. -/
def Route.list (r : Route) : List Nat := (List.range (r.n.toNat + 1)).map fun i => bits r.ports.toNat (5 * i + 4) (5 * i)

/-- Whether a port may be chosen: ACTIVE and not draining (R311, R514). -/
def Dev.portOpen (d : Dev) (p : Nat) : Bool := (d.port p).st == .active && !(d.port p).draining

/-- The port on which an LD forwards a packet (R311). -/
def Dev.routePort (d : Dev) (ld src dst cls : Nat) : Option Nat :=
  let r := (d.ld ld).route dst
  let ps := r.list
  let i := (src + dst + cls) % ps.length
  if r.valid then (ps.drop i ++ ps.take i).find? d.portOpen else none

/-- Why an LD cannot send to a logical DID: lost, or no route; zero when it can (R311, R318). -/
def Dev.sendCode (d : Dev) (ld did cls : Nat) : Code :=
  if d.isLost ld did then eMemberLost
  else if did = (d.ld ld).lay.ldid.toNat then 0
  else if (d.routePort ld (d.ld ld).lay.ldid.toNat (d.physOf ld did) cls).isNone then eNoRoute else 0

def Dev.modFab (ld : Nat) (f : FabRegs → FabRegs) (d : Dev) : Dev := d.modLd ld fun l => { l with fab := f l.fab }

/-! ## Packets (R305) -/

/-- The class and half of a packet: requests, messages and notices in half 0, responses in half 1. -/
def packetLane (p : Packet) : Nat := 2 * p.cls.toNat + b2n (p.kind == 2 || p.kind == 4)

/-- The slots of a packet: its header and its data. A read request carries no data: its `units` are the slots that it asks for. -/
def packetSlots (p : Packet) : Nat := if p.kind = 1 then 1 else p.units + 1

/-- The header slot of a packet. -/
def packetHeader (p : Packet) : List Byte :=
  toBytes 4 (p.dstDid.toNat + 2 ^ 14 * p.srcDid.toNat + 2 ^ 28 * p.cls.toNat) ++
    toBytes 4 (p.kind.toNat + 2 ^ 6 * (p.units % 256) + 2 ^ 16 * p.tag.toNat) ++ toBytes 4 p.addr.toNat ++
    toBytes 4 (p.addr.toNat / 2 ^ 32 + 2 ^ 12 * p.hops.toNat + 2 ^ 16 * p.code.toNat) ++ toBytes 16 p.poison.toNat

/-- The slots of a packet as a port sends them after `count` others; data that the model does not lay down is free. -/
def packetBytes (n count : Nat) (p : Packet) : List (List Byte) :=
  packetHeader p :: (List.range (packetSlots p - 1)).map fun i =>
    if 32 * i < p.data.length then slice p.data (32 * i) 32 else toBytes 32 (Config.messageSlot n (count + 1 + i))

/-! ## Credits and outputs (R307, R308) -/

/-- Slots of one half of a class buffer. -/
def halfSlots (cls : Nat) : Nat := if cls = 0 then 32 else if cls = 2 then 256 else 512

/-- The credits of a port that has just entered ACTIVE. -/
def fullCredits : Map Nat := (List.range 8).map fun k => (k, halfSlots (k / 2))

/-- The class and half of what waits for an output, and the slots of its next packet. -/
def cargoLane (c : Cargo) : Nat := (c.packets.head?.map packetLane).getD 0
def cargoSlots (c : Cargo) : Nat := (c.packets.head?.map packetSlots).getD 0

/-- What may be sent from a queue: each the first of its class and half, with credits for every slot of its next packet. -/
def sendable (cr : Map Nat) : List Nat → List Cargo → List Cargo
  | _, [] => []
  | seen, p :: ps =>
    if seen.contains (cargoLane p) then sendable cr seen ps
    else if cargoSlots p ≤ Map.get cr (cargoLane p) 0 then p :: sendable cr ((cargoLane p) :: seen) ps
    else sendable cr ((cargoLane p) :: seen) ps

/-- What a slot costs a class in the share of its output: the weights are collective 4, KV 2 and bulk 1. -/
def slotCost (cls : Nat) : Nat := if cls = 1 then 1 else if cls = 2 then 2 else 4

/-- The next cargo of a port: control first; then the class that has had the least of its share, unless six packets of others
have gone before another (R308). -/
def Port.pick (x : Port) : Option Cargo :=
  let ok := sendable x.credits [] x.queue
  let share := fun (c : Cargo) => Map.get x.share (cargoLane c / 2) 0
  let late := ok.filter fun c => decide (6 ≤ Map.get x.passed (cargoLane c / 2) 0)
  match ok.find? fun c => cargoLane c / 2 == 0 with
  | some c => some c
  | none => (if late.isEmpty then ok else late).foldl (fun (b : Option Cargo) c =>
      match b with
      | none => some c
      | some b => some (if share c < share b then c else b)) none

/-- The shares of the classes after one of them has sent slots: a class with nothing to send keeps up, and one that could have
sent has been passed by. -/
def Port.charge (x : Port) (cls slots : Nat) : Port :=
  if cls = 0 then x
  else
    let able := ((sendable x.credits [] x.queue).map fun c => cargoLane c / 2).eraseDups
    let own := Map.get x.share cls 0
    [1, 2, 3].foldl (fun (x : Port) k =>
      if k = cls then { x with share := Map.set x.share k (own + slots * slotCost k), passed := Map.set x.passed k 0 }
      else if able.contains k then { x with passed := Map.set x.passed k (Map.get x.passed k 0 + 1) }
      else { x with share := Map.set x.share k (max own (Map.get x.share k 0)), passed := Map.set x.passed k 0 }) x

/-- A port sends the next packet of a cargo: its slots join the flit stream and take their credits. -/
def Port.sendNext (x : Port) (n : Nat) (c : Cargo) : Port :=
  let lane := cargoLane c
  let slots := cargoSlots c
  let i := x.queue.findIdx fun q => cargoLane q == lane
  let rest := c.packets.drop 1
  let queue := x.queue.take i ++ (if rest.isEmpty then [] else [{ c with packets := rest }]) ++ x.queue.drop (i + 1)
  { x.charge (lane / 2) slots with
    credits := Map.set x.credits lane (Map.get x.credits lane 0 - slots), queue := queue, txCount := x.txCount + slots,
    txSlots := x.txSlots ++ (c.packets.take 1).flatMap (packetBytes n x.txCount) }

/-- Sends what the credits allow; what a cargo is has gone with its last packet. -/
def Dev.portPump (n : Nat) : Nat → Dev → Dev
  | 0, d => d
  | f + 1, d =>
    let x := d.port n
    match x.pick with
    | none => d
    | some c =>
      let d := d.modPort n fun x => x.sendNext n c
      Dev.portPump n f (if c.packets.length ≤ 1 then d.emit c.out else d)

/-- The packets that wait for an output. -/
def Port.waiting (x : Port) : Nat := (x.queue.map fun c => c.packets.length).foldl (· + ·) 0

/-- Puts cargo into the queue of its output. -/
def Dev.portSend (n : Nat) (c : Cargo) (d : Dev) : Dev :=
  let d := d.modPort n fun x => { x with queue := x.queue ++ [c] }
  Dev.portPump n (d.port n).waiting d

/-- A packet on a port. -/
def Dev.packetSend (n : Nat) (p : Packet) (d : Dev) : Dev := d.portSend n { out := .packet n p, packets := [p] }

/-- The receive buffer of a port has taken slots of a class and drained them: their credits are owed to the sender. DESIGN
CHOICE (log 112): a buffer drains at the handshake at which its packet arrives. -/
def Dev.owe (n cls slots : Nat) (d : Dev) : Dev :=
  if (d.port n).st = .active then d.modPort n fun x => { x with owed := Map.set x.owed cls (Map.get x.owed cls 0 + slots) } else d

/-! ## A partition as a source (R309 to R312, R321) -/

/-- The class of what a request serves. -/
def FabUse.cls (u : FabUse) : Nat := match u with | .send _ => 2 | .fetch _ => 3 | .other => 3

/-- The place of a flow in the table of paths. -/
def flowKey (ld dst cls : Nat) : Nat := 65536 * ld + 4 * dst + cls

/-- Whether a source holds a packet back: its flow would take another port than before while an earlier request of the flow is
outstanding, or an earlier packet of the flow is held (R312). -/
def Dev.flowHeld (d : Dev) (ld dst cls port : Nat) : Bool :=
  d.net.held.any (fun h => h.ld == ld && h.dst == dst && h.cls == cls) ||
    (Map.get d.net.paths (flowKey ld dst cls) port != port &&
      (d.ld ld).fab.reqs.any fun r => d.physOf ld r.dst.toNat == dst && r.serves.cls == cls)

/-- A partition sends cargo to a physical DID by its own route table; without a route it is not sent. -/
def Dev.inject (ld dst cls : Nat) (c : Nat → Cargo) (d : Dev) : Dev :=
  match d.routePort ld (d.ld ld).lay.ldid.toNat dst cls with
  | none => d
  | some q =>
    if d.flowHeld ld dst cls q then
      { d with net := { d.net with held := d.net.held ++ [{ ld := ld, dst := dst, cls := cls, cargo := c q, asks := none }] } }
    else ({ d with net := { d.net with paths := Map.set d.net.paths (flowKey ld dst cls) q } } : Dev).portSend q (c q)

/-- Cargo that was held takes the port of the present route. -/
def onPort (c : Cargo) (q : Nat) : Cargo :=
  { c with out := match c.out with
      | .packet _ p => .packet q p
      | .member ld did _ phys m => .member ld did q phys m
      | o => o }

/-- The class of a message (R252, R287, R307, R342, R376). -/
def FabMsg.cls : FabMsg → Nat
  | .abort _ _ _ _ _ | .waveNotice _ _ _ | .waveAgain | .waveDone _ | .ready _ _ | .askAbort _ _ _ _ | .commit _ _ | .abortRound _ _ _ _
  | .roundState _ _ _ => 0
  | .anchors _ _ _ _ | .grant _ _ _ | .contribution _ _ _ | .result _ _ _ | .again _ _ _ | .ack _ _ _ | .poisonNotice _ _ _ | .fence _ _
  | .stepStamp _ _ => 1
  | .kvPage _ _ _ _ _ | .kvAck _ _ | .kvAlloc _ _ | .kvKeep _ _ _ => 2
  | .waveBitmap _ | .fetchRecord _ | .fetchBlock _ | .dfsRecord _ _ => 3

/-- The packets that carry bytes: at most 4 KiB each, to rising addresses. -/
def carry (head : Packet) (bs : List Byte) : List Packet :=
  (List.range (max 1 (ceilDiv bs.length 4096))).map fun i =>
    let b := slice bs (4096 * i) (min 4096 (bs.length - 4096 * i))
    { head with units := ceilDiv b.length 32, addr := head.addr + BitVec.ofNat 44 (4096 * i), data := b }

/-- The packets of a message. Where a chapter lays the contents down they are in them; otherwise a message takes one data slot. -/
def FabMsg.packets (m : FabMsg) (src phys : BitVec 14) (tag : BitVec 16) : List Packet :=
  let head : Packet := { dstDid := phys, srcDid := src, cls := BitVec.ofNat 2 m.cls, kind := 5, units := 0, tag := tag, addr := 0,
                         hops := 0, code := 0, poison := 0, data := [] }
  match m with
  | .waveNotice gen n crc => carry { head with kind := 6 } (toBytes 4 gen.toNat ++ toBytes 4 n.toNat ++ toBytes 4 crc.toNat ++ zeros 20)
  | .waveAgain => [head]
  | .waveBitmap bs => carry { head with kind := 3, addr := BitVec.ofNat 44 waveTableOff } bs
  | .anchors _ _ a _ => carry head a
  | .contribution _ _ x => carry head (x.data ++ zeros 32)
  | .result _ _ x => carry head (x.data ++ zeros 32)
  | .kvPage ref _ _ bs _ => carry { head with kind := 3, code := BitVec.ofNat 16 (fld ref 28 21) } bs ++ [{ head with units := 1 }]
  | .kvAck ref c => carry { head with code := c } (toBytes 4 ref.toNat ++ zeros 28)
  | .fetchRecord a => [{ head with kind := 1, units := 1, addr := BitVec.ofNat 44 a }]
  | .fetchBlock a => (List.range 1024).map fun i => { head with kind := 1, units := 128, addr := BitVec.ofNat 44 (a + 4096 * i) }
  | .dfsRecord a bs => carry { head with kind := 3, addr := a.setWidth 44 } bs
  | .kvKeep _ _ _ => [{ head with units := 1 }]
  | _ => [{ head with units := 1 }]

/-- The tag of the next request: the first from `nextTag` on that none outstanding has (R305, R527). -/
def FabRegs.freeTag (f : FabRegs) : BitVec 16 :=
  ((searchUp (fun i => !(f.reqs.any fun r => r.tag == f.nextTag + BitVec.ofNat 16 i)) 65536 0).elim f.nextTag
    fun i => f.nextTag + BitVec.ofNat 16 i)

/-- An engine of an LD sends a message to a logical DID: with the physical DID under which the LD reaches it, on the port of
the LD's route, against the credits of the message's class (R307, R310, R311, R321). -/
def Dev.tell (ld did : Nat) (m : FabMsg) (d : Dev) : Dev :=
  let phys := d.physOf ld did
  let l := d.ld ld
  let to_ := BitVec.ofNat 14 phys
  d.inject ld phys m.cls fun q => { out := .member ld did q to_ m, packets := m.packets l.lay.ldid to_ l.fab.freeTag }

/-- Opens a request to a DID, with a tag of its own. -/
def Dev.fabOpen (ld did : Nat) (u : FabUse) (d : Dev) : Dev :=
  d.modFab ld fun f =>
    { f with reqs := f.reqs ++ [{ tag := f.freeTag, dst := BitVec.ofNat 14 did, age := 0, serves := u }], nextTag := f.freeTag + 1 }

/-- Sends a message whose packets are requests, and opens the request that they serve; with every tag in use it waits
(R527). -/
def Dev.request (ld did : Nat) (u : FabUse) (m : FabMsg) (d : Dev) : Dev :=
  if 65536 ≤ (d.ld ld).fab.reqs.length then
    { d with net := { d.net with held := d.net.held ++
        [{ ld := ld, dst := d.physOf ld did, cls := m.cls, cargo := { out := .member ld did 0 0 m, packets := [] }, asks := some (did, u, m) }] } }
  else (d.tell ld did m).fabOpen ld did u

/-- Sends what is held and need not be any more, in order. -/
def Dev.unhold (d : Dev) : Dev :=
  if d.net.held.isEmpty then d
  else d.net.held.foldl (fun d h =>
    match h.asks with
    | some (did, u, m) => d.request h.ld did u m
    | none => d.inject h.ld h.dst h.cls (onPort h.cargo)) { d with net := { d.net with held := [] } }

/-- Closes the requests that satisfy a test; what its source held behind them goes on (R312). -/
def Dev.fabClose (ld : Nat) (p : FabReq → Bool) (d : Dev) : Dev :=
  (d.modFab ld fun f => { f with reqs := f.reqs.filter fun r => !p r }).unhold

/-- The transport watchdogs of every partition advance by one unit (R314). -/
def Dev.ageRequests (d : Dev) : Dev :=
  { d with lds := d.lds.map fun e =>
      (e.1, { e.2 with fab := { e.2.fab with reqs := e.2.fab.reqs.map fun r => { r with age := r.age + 1 } } }) }

end Sys2Proof.Machine
end

