-- ==== Sys2Proof/Machine/Page.lean ====
section
/-! DEFINITION. Who reaches the register page of an LD and how the page answers (R10, R440, R443, R502, R504,
R509), and the pairs of 64-bit registers (R10). -/

namespace Sys2Proof.Machine

/-- How a page answers: not at all, rejecting every write while its LD resets (R509), with the registers of
the "Before 0" row or of fallow mode alone (R502, R504), or in full. -/
inductive PageMode where
  | absent | resetting | minimal | full
  deriving DecidableEq, Repr

def Dev.pageMode (d : Dev) (ld : Nat) : PageMode :=
  match d.boot.stage with
  | .off => .absent
  | .silmuvin | .up =>
    if (d.ld ld).ctl.st = .resetting then .resetting
    else if ld = 15 ∨ (d.ld ld).lay.populated then .full else .absent
  | .rom | .failedVerify | .fallow => if ld = 15 then .minimal else .absent

/-- The registers of LD 15 that work in a minimal page. -/
def Dev.minimalOk (d : Dev) (off : Nat) : Bool :=
  (0x1000 ≤ off && off < 0x3000) || (0x5000 ≤ off && off < 0x6000) || (0xF000 ≤ off && off < 0x10000) ||
    (d.boot.stage == .fallow && (off == 0xC || (0x1F0000 ≤ off && off < 0x1F8020)))

/-- Whether an agent reaches the page of an LD: its host, and the management controller (R443). -/
def reachesPage (ag : Agent) (ld : Nat) : Bool :=
  match ag with
  | .mc => true
  | .host l => l == ld
  | .clu _ => false
  | .i3c => false

/-- Whether an LD answers nothing at its page or over DOE. -/
def Dev.pageSilent (d : Dev) (ld : Nat) : Bool := d.pageMode ld == .absent || d.pageMode ld == .minimal || d.pageMode ld == .resetting

/-- A whole aligned write to a page: performed, or rejected by the state of the page. -/
def Dev.pageWrite (ag : Agent) (ld off : Nat) (f : Dev → Dev) (d : Dev) : Dev :=
  if reachesPage ag ld then
    match d.pageMode ld with
    | .absent => d
    | .resetting => d.ldErr ld eState
    | .minimal => if d.minimalOk off then f d else d.ldErr ld (if d.boot.stage = .fallow then eFallow else eState)
    | .full => f d
  else d

/-- Whether an agent reaches a cluster block: the cluster's own control core, and the management controller, while the
dies are not held in reset (R174, R443, R504). -/
def Dev.reachesBlock (d : Dev) (ag : Agent) (n : Nat) : Bool :=
  (ag == .mc || ag == .clu n) && decide (n < 2560) && (d.boot.stage == .silmuvin || d.boot.stage == .up) &&
    d.pageMode (d.ldOfDie (n / 256)) == .full

/-- The LO word that an agent most recently wrote to a pair, zero before any (R10). -/
def Dev.heldLo (d : Dev) (ag : Agent) (pg : RegPage) (lo : Nat) : W32 :=
  ((d.held.find? fun x => x.1 == ag && x.2.1 == pg && x.2.2.1 == lo).map fun x => x.2.2.2).getD 0

/-- Holds the LO word of a pair for an agent. -/
def Dev.holdLo (ag : Agent) (pg : RegPage) (lo : Nat) (v : W32) (d : Dev) : Dev :=
  { d with held := (ag, pg, lo, v) :: d.held.filter fun x => !(x.1 == ag && x.2.1 == pg && x.2.2.1 == lo) }

/-- A 64-bit number from the two words of a pair. -/
def pairNat (lo hi : W32) : Nat := lo.toNat + 2 ^ 32 * hi.toNat

end Sys2Proof.Machine
end

