-- ==== Sys2Proof/Machine/Kv.lean ====
section
/-! DEFINITION. KV pages, frames and the page map (R219 to R243, R246, R252 to R259): the KV commands, the
zero fills and copies, and the movement between the tiers. The places of the fields in a KV command body are
the model's own where the spec gives none; see notes/assumptions. -/

namespace Sys2Proof.Machine

/-! ## Layout inside a page (R225, R226) -/

/-- A layout. -/
structure KvLayout where
  bf16 : Bool
  hd   : Nat
  hk   : Nat
  ppos : Nat
  deriving DecidableEq, Repr

/-- The layout word: `kv_fmt`, `hd`, `hk` − 1 and `ppos` at the places they have in a score command (R245). -/
def kvLayout (w : W32) : KvLayout :=
  { bf16 := w.getLsbD 5, hd := 64 * 2 ^ fld w 7 6, hk := fld w 11 8 + 1, ppos := fld w 27 12 }

/-- Bytes of the elements of one position in a half. -/
def KvLayout.rowLen (x : KvLayout) : Nat := x.hk * x.hd * (if x.bf16 then 2 else 1)

/-- Scale bytes of one position in a half. -/
def KvLayout.scLen (x : KvLayout) : Nat := if x.bf16 then 0 else x.hk * x.hd / 32

/-- The offset of the scales in a half. -/
def KvLayout.scBase (x : KvLayout) : Nat := x.ppos * x.hk * x.hd

/-- The range checks of a layout. -/
def layoutChecks (w : W32) : Checks :=
  let x := kvLayout w
  [(fld w 7 6 = 3, eRange), (x.ppos = 0, eRange), (0x200000 < x.ppos * (x.rowLen + x.scLen), eRange)]

/-- The ranges of a page that hold positions [p, p + n): elements and scales of each half, in rising order. DESIGN CHOICE
(log 107): a layout addresses no position at or above its `ppos`, so a fill above it, set under another layout, counts as
`ppos`. -/
def KvLayout.ranges (x : KvLayout) (p n : Nat) : List (Nat × Nat) :=
  let n := min n (x.ppos - p)
  [0, 0x200000].flatMap fun h => [(h + p * x.rowLen, n * x.rowLen), (h + x.scBase + p * x.scLen, n * x.scLen)]

/-! ## Frames -/

/-- The address of the frame that an entry's field names. -/
def frameAt (f : BitVec 22) : Nat := f.toNat * frameBytes

/-- The frame field of an address. -/
def frameId (a : Nat) : BitVec 22 := BitVec.ofNat 22 (a / frameBytes)

/-- The frames that the page map holds. -/
def Dev.heldFrames (d : Dev) : List Nat :=
  d.kv.flatMap fun e =>
    if e.2.st = .free then []
    else e.2.frame.toNat :: (e.2.target.toList ++ e.2.old).map fun f => f.toNat

/-- Whether HBM3E stack n serves pages: in service, at service level 2 of its LD (R239). -/
def Dev.hbmUp (d : Dev) (n : Nat) : Bool :=
  (d.unit (.stack n)).inService && (d.ld (d.ldOfDie (n / 2))).ctl.service == 2

/-- The channels of an LD from which frames are taken. -/
def Dev.channels (d : Dev) (ld : Nat) : List Nat :=
  (List.range 24).filter fun c => (d.ld ld).lay.chanMask.getLsbD c && (d.unit (.channel c)).inService

/-- A region's first frame number and its count: of a stack or of a channel. -/
def Dev.region (d : Dev) (u : MemUnit) : Nat × Nat :=
  match u with
  | .stack n => let r := Map.get d.stackRgn n Region.init; (stackAddr n 0 / frameBytes + r.base, r.count)
  | .channel c => let r := Map.get d.lpRgn c Region.init; (chanAddr c 0 / frameBytes + r.base, r.count)
  | _ => (0, 0)

/-- The number of free frames of a region; none in HBM3E before level 2 (R239). -/
def Dev.freeIn (d : Dev) (u : MemUnit) : Nat :=
  let (b, n) := d.region u
  let up := match u with | .stack k => d.hbmUp k | _ => true
  if up then n - (d.heldFrames.eraseDups.filter fun f => b ≤ f && f < b + n).length else 0

/-- The free LPDDR5X frames of an LD. -/
def Dev.lpFree (d : Dev) (ld : Nat) : Nat := ((d.channels ld).map fun c => d.freeIn (.channel c)).foldl (· + ·) 0

/-- The lowest free frame of a region, apart from some already taken (R238). -/
def Dev.firstFree (d : Dev) (u : MemUnit) (taken : List Nat) : Option Nat :=
  let (b, n) := d.region u
  let held := d.heldFrames ++ taken
  let up := match u with | .stack k => d.hbmUp k | _ => true
  if up then searchUp (fun f => !held.contains f) n b else none

/-- The lowest free LPDDR5X frame of an LD, of the lowest channel that has one (R238). -/
def Dev.lpFrame (d : Dev) (ld : Nat) (taken : List Nat) : Option Nat :=
  (d.channels ld).findSome? fun c => d.firstFree (.channel c) taken

/-- A frame for a tier: 0 the home stack, 1 LPDDR5X, 2 the home stack or else LPDDR5X (R236, R238). -/
def Dev.tierFrame (d : Dev) (ld stack tier : Nat) (taken : List Nat) : Option Nat :=
  let hbm := d.firstFree (.stack stack) taken
  let lp := d.lpFrame ld taken
  if tier = 0 then hbm else if tier = 1 then lp else hbm.or lp

/-- Frames for several pages, each with its stack and tier; none unless every page has one. -/
def Dev.takeFrames (d : Dev) (ld : Nat) : List (Nat × Nat) → List Nat → Option (List Nat)
  | [], taken => some taken.reverse
  | (stack, tier) :: r, taken =>
    match d.tierFrame ld stack tier taken with
    | none => none
    | some f => Dev.takeFrames d ld r (f :: taken)

/-- The home stack of an entry's handle. -/
def homeStack (h : Nat) (e : KvEntry) : Nat := 2 * (h / 131072) + b2n e.home

/-- Whether a frame lies in LPDDR5X. -/
def inLp (f : Nat) : Bool := lpBase / frameBytes ≤ f

/-! ## Handles -/

/-- Handles per compute die. -/
def dieHandles : Nat := 131072

/-- Whether a handle is FREE. -/
def Dev.handleFree (d : Dev) (h : Nat) : Bool := (d.kvE h).st == .free

/-- FREE handles of a die. -/
def Dev.freeHandles (d : Dev) (die : Nat) : Nat :=
  dieHandles - Map.count d.kv fun h e => h / dieHandles == die && e.st != .free

/-- A FREE handle of a die from a starting place on, round the slice, apart from some already taken. -/
def Dev.pickHandle (d : Dev) (die start : Nat) (taken : List Nat) : Option Nat :=
  let ok := fun i => let h := die * dieHandles + i % dieHandles; d.handleFree h && !taken.contains h
  (searchUp ok dieHandles (start % dieHandles)).map fun i => die * dieHandles + i % dieHandles

/-- Several FREE handles in rising order; which FREE handles an ALLOC takes is open (R69). -/
def Dev.pickHandles (d : Dev) (die start : Nat) : Nat → List Nat → Option (List Nat)
  | 0, taken => some taken
  | n + 1, taken =>
    match d.pickHandle die start taken with
    | none => none
    | some h => Dev.pickHandles d die start n (insNat h taken)

/-- The reference of a handle: its number, and its generation from bit 21 on (R224). -/
def Dev.refOf (d : Dev) (h : Nat) : W32 := BitVec.ofNat 32 (h + 2 ^ 21 * (d.kvE h).gen.toNat)

/-- The handle and the generation of a reference. -/
def refHandle (r : W32) : Nat := fld r 20 0
def refGen (r : W32) : Nat := fld r 28 21

/-- Pages of a domain in states ZEROING to RELEASING (R473). -/
def Dev.kvUsed (d : Dev) (dom : Nat) : Nat :=
  Map.count d.kv fun _ e => e.domain.toNat == dom && e.st != .free && e.st != .retired

/-- Raises `handle_low` when a die's FREE handles fall below 1,024, and `hbm_low` when a stack's free frames fall
below `low_pct` (R259); `old` is the device before the change. -/
def Dev.lowMarks (d : Dev) (old : Dev) (die : Nat) : Dev :=
  let ld := d.ldOfDie die
  let low := fun (x : Dev) (n : Nat) =>
    decide (x.freeIn (.stack n) * 100 < (x.ld ld).kvm.lowPct.toNat * (x.region (.stack n)).2)
  let d := if 1024 ≤ old.freeHandles die ∧ d.freeHandles die < 1024 then d.modLd ld (Ld.setKvmEvt 0) else d
  [2 * die, 2 * die + 1].foldl (fun d n => if low d n && !low old n then d.modLd ld (Ld.setKvmEvt 1) else d) d

/-! ## Checks (R235, R236) -/

/-- Where a die stands: absent, or still to join (R38, R39). -/
def Dev.dieAbsent (d : Dev) (die : Nat) : Bool := (d.die die).absent
def Dev.dieReady (d : Dev) (die : Nat) : Bool := (d.die die).joined || (d.die die).absent

/-- The E_PERM of R236 for a range that the issuer may not reach. -/
def Dev.kvPerm (d : Dev) (ld dom : Nat) (write : Bool) (a n : Nat) : Bool := (d.busCode (.eng ld dom) write a n).isSome

/-- The checks of references, in the order of R235: reserved bits, handles of the die, `dynamic` range checks
of the operation once no reference is stale, stale references, domains, states. -/
def Dev.refChecks (d : Dev) (die dom : Nat) (refs : List W32) (states : List KvState) (dynamic : Checks) :
    Checks :=
  let es := refs.map fun r => (r, d.kvE (refHandle r))
  let stale := es.any fun e => refGen e.1 != e.2.gen.toNat
  [(refs.any fun r => fld r 31 29 != 0, eReservedNonzero), (refs.any fun r => refHandle r / dieHandles != die, eRange)] ++
    (if stale then [] else dynamic) ++
    [(stale, eKvStale), (es.any fun e => e.2.domain.toNat != dom, ePerm), (es.any fun e => !states.contains e.2.st, eState)]

/-- The code of R235 for references that the request engine uses on their own dies, zero when all may be used. -/
def Dev.refsCode (d : Dev) (dom : Nat) (refs : List W32) (states : List KvState) : Code :=
  let es := refs.map fun r => (r, d.kvE (refHandle r))
  (firstFail [(refs.any fun r => fld r 31 29 != 0, eReservedNonzero), (es.any fun e => refGen e.1 != e.2.gen.toNat, eKvStale),
    (es.any fun e => e.2.domain.toNat != dom, ePerm), (es.any fun e => !states.contains e.2.st, eState)]).getD 0

/-- A list of references in memory, none on a codeword that cannot be read. -/
def Dev.readRefs (a n : Nat) (d : Dev) : Dev × Option (List W32) :=
  match d.readBytes reqEng a (4 * n) with
  | (d, some bs) => (d, some (bytesToWords n bs))
  | (d, none) => (d, none)

/-- The 44-bit address in two words of a body. -/
def addrAt (ws : List W32) (i : Nat) : Nat := word2 ws i % 2 ^ 44

/-- Whether the upper word of an address has bits above 43. -/
def addrHigh (ws : List W32) (i : Nat) : Bool := wfld ws (i + 1) 31 12 != 0

/-- Whether words other than those listed are all zero. -/
def onlyWords (ws : List W32) (n : Nat) (used : List Nat) : Bool :=
  (List.range n).all fun i => used.contains i || word ws i == 0

/-- The die checks that come before a die's map slice is read: an absent die rejects with E_STATE (R39). -/
def Dev.dieChecks (d : Dev) (die : Nat) : Checks := [(d.dieAbsent die, eState)]

/-- A KV command on a die: nothing happens while the die may still join (R38); otherwise it is checked, its
list of references read, and it is accepted or rejected. -/
def Dev.kvCommand (iss : Issuer) (die : Nat) (body : List W32) (static : Checks) (listAt listLen : Nat)
    (checks : Dev → List W32 → Checks) (f : List W32 → Dev → Dev) (d : Dev) : Dev :=
  let t := ticketOf iss body
  let ld := d.issLd iss
  let dom := d.issDom iss
  if !d.dieReady die then d
  else
    match firstFail (static ++ d.dieChecks die ++ [(listLen != 0 && d.kvPerm ld dom false listAt (4 * listLen), ePerm)]) with
    | some c => d.reject t c
    | none =>
      match d.readRefs listAt listLen with
      | (d, none) => d.reject t ePoison
      | (d, some refs) => d.command t (firstFail (checks d refs)) (f refs)

/-- Adds a job to a die's KV engine. -/
def Dev.addJob (die : Nat) (j : KvJob) (d : Dev) : Dev :=
  { d with kvJobs := Map.set d.kvJobs die (Map.get d.kvJobs die [] ++ [j]) }

/-- A job of a command. -/
def Dev.jobOf (d : Dev) (iss : Issuer) (body : List W32) (handles : List Nat) : KvJob :=
  { tkt := ticketOf iss body, ld := d.issLd iss, dom := d.issDom iss, op := wfld body 0 7 0, words := body,
    handles := handles, frames := handles.map fun h => (d.kvE h).frame, left := [], fills := handles.map fun h => (d.kvE h).fill.toNat, remotes := [], tries := 0 }

/-- Marks pages as read by an accepted reader: `hot`, and one reader more (R223, R230). -/
def Dev.beginRead (hs : List Nat) (d : Dev) : Dev :=
  hs.foldl (fun d h => d.modKv h fun e => { e with hot := true, readers := e.readers + 1 }) d

/-- A reader has finished with pages; the source frames of moves that only readers held are zero-filled and
return to their pools with the last of them (R231). -/
def Dev.endRead (hs : List Nat) (d : Dev) : Dev :=
  hs.foldl (fun d h =>
    let e := d.kvE h
    if e.readers ≤ 1 then
      (e.old.foldl (fun d f => d.zeroRange reqEng (frameAt f) frameBytes) d).modKv h fun e => { e with readers := 0, old := [] }
    else d.setKv h { e with readers := e.readers - 1 }) d

/-- Queues LPDDR5X pages for promotion on read (R241). -/
def Dev.queuePromotion (ld : Nat) (hs : List Nat) (d : Dev) : Dev :=
  if (d.ld ld).kvm.promote then
    hs.foldl (fun d h =>
      let e := d.kvE h
      let s := homeStack h e
      let q := Map.get d.promo s []
      if inLp e.frame.toNat && !q.contains h then { d with promo := Map.set d.promo s (q ++ [h]) } else d) d
  else d

/-! ## ALLOC, FREE, PIN -/

/-- Sets up the entries of an allocation: ZEROING, with the issuer's domain (R228, R236). -/
def Dev.allocPages (dom : Nat) (home : Bool) (inbound : Option (BitVec 14)) (hs frames : List Nat) (d : Dev) : Dev :=
  (hs.zip frames).foldl (fun d p =>
    d.modKv p.1 fun e =>
      { KvEntry.init with gen := e.gen, st := .zeroing, home := home, domain := BitVec.ofNat 12 dom,
                          frame := BitVec.ofNat 22 p.2, inbound := inbound }) d

/-- The refusals of R255 and R239 for n pages of a tier. -/
def Dev.allocChecks (d : Dev) (ld die dom tier home n : Nat) : Checks :=
  let s := 2 * die + home
  let hbm := d.freeIn (.stack s)
  [(tier = 0 ∧ !d.hbmUp s, eState), ((d.dom dom).kvQ < d.kvUsed dom + n, eKvQuota), (d.freeHandles die < n, eKvFull),
    (tier = 0 ∧ hbm < n, eKvFull), (tier = 1 ∧ d.lpFree ld < n, eKvFull), (tier = 2 ∧ hbm + d.lpFree ld < n, eKvFull)]

/-- Allocates n pages once the checks have passed; answers their references in handle order. -/
def Dev.allocate (ld die dom tier home n : Nat) (inbound : Option (BitVec 14)) (d : Dev) : Dev × List W32 :=
  let old := d
  let (d, start) := d.draw
  let hs := (d.pickHandles die start n []).getD []
  let frames := (d.takeFrames ld (hs.map fun _ => (2 * die + home, tier)) []).getD []
  let d := d.allocPages dom (home = 1) inbound hs frames
  (d.lowMarks old die, hs.map d.refOf)

/-- ALLOC: word 1 `count` [6:0], `tier` [9:8], `home` [12]; word 2 `src_did` [13:0]; words 4 and 5 `out_addr`;
flag 0 `inbound`. -/
def Dev.kvAlloc (iss : Issuer) (die : Nat) (body : List W32) (d : Dev) : Dev :=
  let n := wfld body 1 6 0
  let tier := wfld body 1 9 8
  let home := wfld body 1 12 12
  let inbound := bit (word body 0).toNat 8
  let out := addrAt body 4
  let ld := d.issLd iss
  let dom := d.issDom iss
  let static : Checks :=
    [(wfld body 0 15 9 ≠ 0 ∨ wfld body 1 31 13 ≠ 0 ∨ wfld body 1 11 10 ≠ 0 ∨ wfld body 1 7 7 ≠ 0 ∨ wfld body 2 31 14 ≠ 0 ∨
        addrHigh body 4 ∨ !onlyWords body 16 [0, 1, 2, 4, 5], eReservedNonzero),
      (out % 8 ≠ 0, eAlign), (n = 0 ∨ 64 < n ∨ tier = 3, eRange)]
  d.kvCommand iss die body static 0 0
    (fun d _ => (d.kvPerm ld dom true out (4 * n), ePerm) :: d.allocChecks ld die dom tier home n)
    fun _ d =>
      let src := if inbound then some (BitVec.ofNat 14 (wfld body 2 13 0)) else none
      let (d, refs) := d.allocate ld die dom tier home n src
      (d.writeBytes reqEng out (wordsToBytes refs)).done (ticketOf iss body) 0

/-- Moves pages to RELEASING (R230). None of them is queued for promotion any more (R241). A page that is still ZEROING cannot
go there (R228): it does so once it is ACTIVE. -/
def Dev.release (hs : List Nat) (d : Dev) : Dev :=
  hs.foldl (fun d h => d.modKv h fun e => if e.st = .zeroing then { e with dropped := true } else { e with st := .releasing })
    { d with promo := d.promo.map fun q => (q.1, q.2.filter fun h => !hs.contains h) }

/-- The static checks of a command with a list: `count` in [6:0] of word 2 or 1 and `list_addr` in words 4
and 5. -/
def listChecks (body : List W32) (n : Nat) (reserved : Bool) : Checks :=
  [(reserved || addrHigh body 4, eReservedNonzero), (addrAt body 4 % 8 ≠ 0, eAlign), (n = 0 ∨ 64 < n, eRange)]

/-- FREE: word 1 `count` [6:0]; words 4 and 5 `list_addr`. -/
def Dev.kvFree (iss : Issuer) (die : Nat) (body : List W32) (d : Dev) : Dev :=
  let n := wfld body 1 6 0
  let dom := d.issDom iss
  d.kvCommand iss die body
    (listChecks body n (wfld body 0 15 8 != 0 || wfld body 1 31 7 != 0 || !onlyWords body 16 [0, 1, 4, 5])) (addrAt body 4) n
    (fun d refs => d.refChecks die dom refs [.active, .inbound, .moving] [])
    fun refs d => (d.release (refs.map refHandle)).done (ticketOf iss body) 0

/-- PIN: flag 0 `set`; word 1 `count` [6:0]; words 4 and 5 `list_addr`. -/
def Dev.kvPin (iss : Issuer) (die : Nat) (body : List W32) (d : Dev) : Dev :=
  let n := wfld body 1 6 0
  let dom := d.issDom iss
  let set := bit (word body 0).toNat 8
  d.kvCommand iss die body
    (listChecks body n (wfld body 0 15 9 != 0 || wfld body 1 31 7 != 0 || !onlyWords body 16 [0, 1, 4, 5])) (addrAt body 4) n
    (fun d refs => d.refChecks die dom refs [.zeroing, .active, .inbound, .moving] [])
    fun refs d =>
      ((refs.map refHandle).foldl (fun d h => d.modKv h fun e => { e with pin := set }) d).done (ticketOf iss body) 0

/-! ## APPEND, TRIM, KEEP -/

/-- APPEND: word 1 the layout; word 2 the reference; word 3 `pos` [15:0], `npos` [31:16]; words 4 and 5
`src_addr`. -/
def Dev.kvAppend (iss : Issuer) (die : Nat) (body : List W32) (d : Dev) : Dev :=
  let x := kvLayout (word body 1)
  let r := word body 2
  let pos := wfld body 3 15 0
  let n := wfld body 3 31 16
  let src := addrAt body 4
  let ld := d.issLd iss
  let dom := d.issDom iss
  let static : Checks :=
    ([(wfld body 0 15 8 ≠ 0 ∨ wfld body 1 4 0 ≠ 0 ∨ wfld body 1 31 28 ≠ 0 ∨ addrHigh body 4 ∨
        !onlyWords body 16 [0, 1, 2, 3, 4, 5], eReservedNonzero), (src % 8 ≠ 0, eAlign)] : Checks) ++ layoutChecks (word body 1)
  d.kvCommand iss die body static 0 0
    (fun d _ =>
      let e := d.kvE (refHandle r)
      let total := 2 * n * (x.rowLen + x.scLen)
      let cs := d.refChecks die dom [r] [.active, .moving]
        [(pos ≠ e.fill.toNat ∨ n = 0 ∨ x.ppos < pos + n, eRange)]
      cs.dropLast ++ [(d.kvPerm ld dom false src total, ePerm)] ++ cs.getLast?.toList)
    fun _ d => d.addJob die (d.jobOf iss body [refHandle r])

/-- TRIM: word 1 the layout; word 2 the reference; word 3 `new_fill` [15:0]. -/
def Dev.kvTrim (iss : Issuer) (die : Nat) (body : List W32) (d : Dev) : Dev :=
  let r := word body 2
  let dom := d.issDom iss
  let static : Checks :=
    ([(wfld body 0 15 8 ≠ 0 ∨ wfld body 1 4 0 ≠ 0 ∨ wfld body 1 31 28 ≠ 0 ∨ wfld body 3 31 16 ≠ 0 ∨
        !onlyWords body 16 [0, 1, 2, 3], eReservedNonzero)] : Checks) ++ layoutChecks (word body 1)
  d.kvCommand iss die body static 0 0
    (fun d _ =>
      d.refChecks die dom [r] [.active, .moving] [((d.kvE (refHandle r)).fill.toNat < wfld body 3 15 0, eRange)])
    fun _ d => d.addJob die (d.jobOf iss body [refHandle r])

/-- The kept nodes of a KEEP: `nkeep` bytes from word 6 on. -/
def keepNodes (body : List W32) : List Nat :=
  (List.range (wfld body 5 4 0)).map fun i => bits (word body (6 + i / 4)).toNat (8 * (i % 4) + 7) (8 * (i % 4))

/-- Whether numbers strictly rise. -/
def rising : List Nat → Bool
  | a :: b :: r => decide (a < b) && rising (b :: r)
  | _ => true

/-- KEEP: word 1 the layout; words 2 and 3 the references; word 4 `tree_pos`, counted from position 0 of the
first page; word 5 `nkeep` [4:0]; words 6 to 9 the `node_list`, one byte each. Only the request engine issues
it under tree speculation (R236). -/
def Dev.kvKeep (iss : Issuer) (die : Nat) (body : List W32) (d : Dev) : Dev :=
  let x := kvLayout (word body 1)
  let r0 := word body 2
  let r1 := word body 3
  let tp := (word body 4).toNat
  let n := wfld body 5 4 0
  let nodes := keepNodes body
  let refs := if r1 = 0 then [r0] else [r0, r1]
  let dom := d.issDom iss
  let unused := (List.range 16).any fun i =>
    n ≤ i && bits (word body (6 + i / 4)).toNat (8 * (i % 4) + 7) (8 * (i % 4)) != 0
  let static : Checks :=
    ([(wfld body 0 15 8 ≠ 0 ∨ wfld body 1 4 0 ≠ 0 ∨ wfld body 1 31 28 ≠ 0 ∨ wfld body 5 31 5 ≠ 0 ∨ unused ∨
        !onlyWords body 16 [0, 1, 2, 3, 4, 5, 6, 7, 8, 9], eReservedNonzero)] : Checks) ++ layoutChecks (word body 1) ++
      ([(n = 0 ∨ 16 < n ∨ !rising nodes ∨ nodes.any (64 ≤ ·), eRange)] : Checks)
  d.kvCommand iss die body static 0 0
    (fun d _ =>
      let f0 := (d.kvE (refHandle r0)).fill.toNat
      let f1 := if r1 = 0 then 0 else (d.kvE (refHandle r1)).fill.toNat
      let bad := nodes.any fun c => let p := tp + c; if p < x.ppos then f0 ≤ p else f1 ≤ p - x.ppos
      d.refChecks die dom refs [.active, .moving] [(bad, eRange)])
    fun _ d => d.addJob die (d.jobOf iss body (refs.map refHandle))

/-! ## MOVE, RETIRE -/

/-- Begins the moves of pages to given frames (R228). -/
def Dev.beginMoves (ps : List (Nat × Nat)) (d : Dev) : Dev :=
  ps.foldl (fun d p => d.modKv p.1 fun e => { e with st := .moving, target := some (BitVec.ofNat 22 p.2) }) d

/-- MOVE: word 1 `count` [6:0], `tier` [8]; words 4 and 5 `list_addr`. A pinned page is never demoted (R223). -/
def Dev.kvMove (iss : Issuer) (die : Nat) (body : List W32) (d : Dev) : Dev :=
  let n := wfld body 1 6 0
  let tier := wfld body 1 8 8
  let ld := d.issLd iss
  let dom := d.issDom iss
  let moved := fun (d : Dev) (refs : List W32) =>
    (refs.map refHandle).eraseDups.filter fun h =>
      let e := d.kvE h
      if tier = 0 then inLp e.frame.toNat else !inLp e.frame.toNat && !e.pin
  let frames := fun (d : Dev) (refs : List W32) =>
    d.takeFrames ld ((moved d refs).map fun h => (homeStack h (d.kvE h), tier)) []
  d.kvCommand iss die body
    (listChecks body n (wfld body 0 15 8 != 0 || wfld body 1 7 7 != 0 || wfld body 1 31 9 != 0 ||
      !onlyWords body 16 [0, 1, 4, 5])) (addrAt body 4) n
    (fun d refs => d.refChecks die dom refs [.active] [] ++ [((frames d refs).isNone, eKvFull)])
    fun refs d =>
      let hs := moved d refs
      let fs := (frames d refs).getD []
      let j := { d.jobOf iss body hs with left := hs }
      let old := d
      if hs.isEmpty then d.done j.tkt 0
      else ((d.beginMoves (hs.zip fs)).addJob die j).lowMarks old die

/-- Whether an entry holds a frame: as its own, as the target of its move, or for readers of an earlier one. -/
def KvEntry.holds (e : KvEntry) (f : Nat) : Bool :=
  e.st != .free && e.st != .retired && (e.frame :: e.target.toList ++ e.old).any fun x => x.toNat == f

/-- The entry that holds a frame. -/
def Dev.pageIn (d : Dev) (f : Nat) : Option Nat := (d.kv.find? fun e => e.2.holds f).map Prod.fst

/-- Where RETIRE moves a page (R246). -/
def Dev.retireTarget (d : Dev) (ld h : Nat) : Option Nat :=
  let e := d.kvE h
  let s := homeStack h e
  if inLp e.frame.toNat then (d.lpFrame ld []).or (d.firstFree (.stack s) [])
  else (d.firstFree (.stack s) []).or (d.lpFrame ld [])

/-- RETIRE: words 4 and 5 `frame_addr`. The host and the management controller are its only issuers (R236). DESIGN CHOICE
(log 107): a frame that a page holds only for a move in flight or for earlier readers is E_STATE. -/
def Dev.kvRetire (iss : Issuer) (die : Nat) (body : List W32) (d : Dev) : Dev :=
  let a := addrAt body 4
  let f := a / frameBytes
  let ld := d.issLd iss
  let place := match placeOf a with
    | .hbm s _ => s / 2 == die && !d.excluded (.stack s)
    | .lp c _ => (d.ld (d.ldOfDie die)).lay.chanMask.getLsbD c && !d.excluded (.channel c)
    | _ => false
  let byHost := match iss with
    | .queue _ _ _ _ => true
    | .msg _ => true
    | .engine _ => true
    | _ => false
  let static : Checks :=
    [(wfld body 0 15 8 ≠ 0 ∨ addrHigh body 4 ∨ !onlyWords body 16 [0, 4, 5], eReservedNonzero), (a % frameBytes ≠ 0, eAlign),
      (!place, eRange), (!byHost, ePerm)]
  d.kvCommand iss die body static 0 0
    (fun d _ =>
      let page := d.pageIn f
      [(page.any (fun h => (d.kvE h).st != .active || (d.kvE h).frame.toNat != f) ||
          d.kv.any (fun e => e.2.st == .retired && e.2.frame.toNat == f), eState),
        (page.any (fun h => (d.retireTarget ld h).isNone), eKvFull), (d.freeHandles die = 0, eKvFull)])
    fun _ d =>
      let old := d
      let (d, start) := d.draw
      let keep := (d.pickHandle die start []).getD 0
      let page := (d.pageIn f).toList
      let moves := page.filterMap fun h => (d.retireTarget ld h).map fun g => (h, g)
      let d := d.modKv keep fun e => { KvEntry.init with gen := e.gen, st := .retired, frame := BitVec.ofNat 22 f }
      let j := { d.jobOf iss body [keep] with left := page }
      let dies := (die :: page.map (· / dieHandles)).eraseDups
      dies.foldl (fun d k => d.lowMarks old k) ((d.beginMoves moves).addJob die j)

/-! ## GATHER, SEND -/

/-- GATHER: word 1 the layout; word 2 `count` [6:0]; words 4 and 5 `list_addr`; words 6 and 7 `dst_addr`. -/
def Dev.kvGather (iss : Issuer) (die : Nat) (body : List W32) (d : Dev) : Dev :=
  let n := wfld body 2 6 0
  let dst := addrAt body 6
  let ld := d.issLd iss
  let dom := d.issDom iss
  d.kvCommand iss die body
    (listChecks body n (wfld body 0 15 8 != 0 || wfld body 1 4 0 != 0 || wfld body 1 31 28 != 0 || wfld body 2 31 7 != 0 ||
        addrHigh body 6 || !onlyWords body 16 [0, 1, 2, 4, 5, 6, 7]) ++
      ([(dst % 8 ≠ 0, eAlign)] : Checks) ++ layoutChecks (word body 1)) (addrAt body 4) n
    (fun d refs =>
      let cs := d.refChecks die dom refs [.active, .moving] []
      cs.dropLast ++ [(d.kvPerm ld dom true dst (n * frameBytes), ePerm)] ++ cs.getLast?.toList)
    fun refs d =>
      let hs := refs.map refHandle
      ((d.addJob die (d.jobOf iss body hs)).beginRead hs).queuePromotion ld hs

/-- What a SEND puts on the fabric for one page: the positions below the fill read at acceptance, with their
CRC-32C (R252, R253). -/
def Dev.sendPage (ld : Nat) (did : Nat) (layout ref : W32) (base fill : Nat) (d : Dev) : Dev × Bool :=
  let x := kvLayout layout
  let fill := min fill x.ppos
  let rs := (x.ranges 0 fill).map fun r => (base + r.1, r.2)
  match d.readAll reqEng rs with
  | (d, false) => (d, false)
  | (d, true) =>
    let bs := rs.flatMap fun r => d.bytes r.1 r.2
    (d.request ld did (.send ref) (.kvPage ref fill layout bs (crc32c bs)), true)

/-- Replaces the first job of a die that is the given one, or drops it. -/
def Dev.putJob (die : Nat) (old : KvJob) (new : Option KvJob) (d : Dev) : Dev :=
  let js := Map.get d.kvJobs die []
  let i := js.findIdx fun j => j == old
  { d with kvJobs := Map.set d.kvJobs die (js.take i ++ new.toList ++ js.drop (i + 1)) }

/-- The remote reference of the page that a SEND has in flight. -/
def KvJob.remote (j : KvJob) : W32 := word j.remotes (j.handles.length - j.left.length)

/-- SEND ends: the pages still unread are released, and the result names the first page that was not
acknowledged (R253). -/
def Dev.sendEnd (die : Nat) (j : KvJob) (c : Code) (d : Dev) : Dev :=
  let first := j.handles.length - j.left.length
  let d := (d.putJob die j none).endRead (j.handles.drop first)
  let d := d.fabClose j.ld fun r => r.serves == .send j.remote
  let d := if c = 0 then d else d.modLd j.ld (Ld.setKvmEvt 3)
  d.finish j.tkt c false (BitVec.ofNat 32 (if c = 0 then 0 else first))

/-- Sends the next page of a SEND, or ends it. -/
def Dev.sendNext (die : Nat) (j : KvJob) (d : Dev) : Dev :=
  match j.left with
  | [] => d.sendEnd die j 0
  | _ :: _ =>
    let i := j.handles.length - j.left.length
    let did := wfld j.words 3 13 0
    let c := d.sendCode j.ld did 2
    if c ≠ 0 then d.sendEnd die j c
    else
      match d.sendPage j.ld did (word j.words 1) j.remote (frameAt (j.frames.getD i 0)) (j.fills.getD i 0) with
      | (d, true) => d
      | (d, false) => d.sendEnd die j ePoison

/-- The SENDs of an LD that satisfy a test, with their dies. -/
def Dev.sends (d : Dev) (ld : Nat) (p : KvJob → Bool) : List (Nat × KvJob) :=
  d.kvJobs.flatMap fun q => (q.2.filter fun j => j.op == 0x29 && j.ld == ld && p j).map fun j => (q.1, j)

/-- SEND: word 1 the layout; word 2 `count` [6:0]; word 3 `dst_did` [13:0]; words 4 and 5 `list_addr`; words 6
and 7 `rlist_addr`. -/
def Dev.kvSend (iss : Issuer) (die : Nat) (body : List W32) (d : Dev) : Dev :=
  let n := wfld body 2 6 0
  let rl := addrAt body 6
  let ld := d.issLd iss
  let dom := d.issDom iss
  d.kvCommand iss die body
    (listChecks body n (wfld body 0 15 8 != 0 || wfld body 1 4 0 != 0 || wfld body 1 31 28 != 0 || wfld body 2 31 7 != 0 ||
        wfld body 3 31 14 != 0 || addrHigh body 6 || !onlyWords body 16 [0, 1, 2, 3, 4, 5, 6, 7]) ++
      ([(rl % 8 ≠ 0, eAlign)] : Checks) ++ layoutChecks (word body 1)) (addrAt body 4) n
    (fun d refs =>
      let cs := d.refChecks die dom refs [.active, .moving] []
      cs.dropLast ++ [(d.kvPerm ld dom false rl (4 * n), ePerm)] ++ cs.getLast?.toList)
    fun refs d =>
      let hs := refs.map refHandle
      match d.readRefs rl n with
      | (d, none) => (d.modLd ld (Ld.setKvmEvt 3)).done (ticketOf iss body) ePoison
      | (d, some rs) =>
        let j := { d.jobOf iss body hs with left := hs, remotes := rs }
        ((d.addJob die j).beginRead hs).sendNext die j

/-- An acknowledgement of a page of a SEND: with 0 the next page follows; a failed check is answered by up to
three resends (R253). -/
def Dev.kvAck (ld : Nat) (ref : W32) (c : Code) (d : Dev) : Dev :=
  match d.sends ld fun j => !j.left.isEmpty && j.remote == ref with
  | [] => d
  | (die, j) :: _ =>
    let d := d.fabClose ld fun r => r.serves == .send ref
    if c = 0 then
      let j' := { j with left := j.left.drop 1, tries := 0 }
      ((d.putJob die j (some j')).endRead (j.left.take 1)).sendNext die j'
    else if c = eKvHandoff ∧ j.tries < 3 then
      let j' := { j with tries := j.tries + 1 }
      (d.putJob die j (some j')).sendNext die j'
    else d.sendEnd die j c

/-- HANDOFF_PAGE_CHECK at the receiver (R252 steps 4 and 5); what a lost DID sent is discarded (R318). -/
def Dev.handoffCheck (ref : W32) (src : BitVec 14) (count : Nat) (layout crc : W32) (d : Dev) : Dev :=
  let h := refHandle ref
  let e := d.kvE h
  let ld := d.ldOfDie (h / dieHandles)
  let answer := fun (c : Code) (d : Dev) => d.tell ld src.toNat (.kvAck ref c)
  if d.isLost ld src.toNat then d
  else if refGen ref ≠ e.gen.toNat ∨ e.st ≠ .inbound ∨ e.inbound ≠ some src then
    answer eKvStale (d.modLd ld (Ld.setKvmEvt 3))
  else
    let x := kvLayout layout
    let rs := (x.ranges 0 count).map fun r => (frameAt e.frame + r.1, r.2)
    let (d, ok) := d.readAll reqEng rs
    let good := ok && decide (count ≤ x.ppos) && crc32c (rs.flatMap fun r => d.bytes r.1 r.2) == crc
    if good then answer 0 (d.modKv h fun e => { e with st := .active, fill := BitVec.ofNat 16 count, inbound := none, fails := 0 })
    else
      let d := d.modKv h fun e => { e with fails := if e.fails = 3 then 0 else e.fails + 1 }
      answer eKvHandoff (if e.fails = 3 then d.modLd ld (Ld.setKvmEvt 3) else d)

/-! ## Zero fills and copies -/

/-- KV_ZERO_FILL_COMPLETE: a ZEROING page becomes ACTIVE or INBOUND; a RELEASING page that no reader and no
copy holds becomes FREE, with its generation advanced (R228 to R230). -/
def Dev.zeroFilled (h : Nat) (d : Dev) : Dev :=
  let e := d.kvE h
  match e.st with
  | .zeroing =>
    (d.zeroRange reqEng (frameAt e.frame) frameBytes).modKv h fun e =>
      { e with st := if e.dropped then .releasing else if e.inbound.isSome then .inbound else .active }
  | .releasing =>
    if e.readers = 0 ∧ e.target = none then
      (d.zeroRange reqEng (frameAt e.frame) frameBytes).modKv h fun e => { KvEntry.init with gen := e.gen + 1 }
    else d
  | _ => d

/-- A copy of a page bit for bit; codewords that cannot be read arrive poisoned. -/
def Dev.copyPage (src dst : Nat) (d : Dev) : Dev :=
  let (d, bad) := d.readEach reqEng [(src, frameBytes)]
  let d := d.copyRange reqEng src dst frameBytes
  bad.foldl (fun d c => (cwsOf (dst + (c - src)) (cwBytes src)).foldl (fun d x => d.poisonCw x) d) d

/-- Counts a move in `KVM_MOVES` (R258). -/
def Dev.countMove (ld : Nat) (up : Bool) (d : Dev) : Dev :=
  d.modLd ld fun l =>
    { l with kvm := { l.kvm with promotes := if up then sat16 l.kvm.promotes else l.kvm.promotes
                                 demotes := if up then l.kvm.demotes else sat16 l.kvm.demotes } }

/-- A page of a MOVE or RETIRE has been moved; the last page completes a MOVE. -/
def Dev.moveDone (h : Nat) (d : Dev) : Dev :=
  let hit := d.kvJobs.findSome? fun q => (q.2.find? fun j => j.op != 0x29 && j.left.contains h).map fun j => (q.1, j)
  match hit with
  | none => d
  | some (die, j) =>
    let j' := { j with left := j.left.filter (· != h) }
    if j.op = 0x25 ∧ j'.left.isEmpty then (d.putJob die j none).done j.tkt 0 else d.putJob die j (some j')

/-- KV_MOVE_COPY_COMPLETE: `frame` names the target and the page is ACTIVE again; the source frame is
zero-filled and free once no earlier reader holds it (R231). A page freed meanwhile gives up the target. -/
def Dev.moveCopied (h : Nat) (d : Dev) : Dev :=
  let e := d.kvE h
  match e.target with
  | none => d
  | some t =>
    let up := inLp e.frame.toNat && !inLp t.toNat
    let across := inLp e.frame.toNat != inLp t.toNat
    if e.st = .moving then
      let d := d.copyPage (frameAt e.frame) (frameAt t)
      let d := if e.readers = 0 then d.zeroRange reqEng (frameAt e.frame) frameBytes else d
      let d := d.modKv h fun e =>
        { e with st := .active, frame := t, target := none, old := if e.readers = 0 then [] else e.old ++ [e.frame] }
      let d := if across then d.countMove (d.ldOfDie (h / dieHandles)) up else d
      d.moveDone h
    else if e.st = .releasing then
      ((d.zeroRange reqEng (frameAt t) frameBytes).modKv h fun e => { e with target := none }).moveDone h
    else d

/-! ## Completion of the other commands -/

/-- What a KV command does when its copy or fill finishes: the device and the code. -/
def Dev.jobRun (j : KvJob) (d : Dev) : Dev × Code :=
  let ws := j.words
  let x := kvLayout (word ws 1)
  let h := j.handles.headD 0
  let e := d.kvE h
  let base := frameAt e.frame
  if j.op = 0x22 then
    let p := wfld ws 3 15 0
    let n := wfld ws 3 31 16
    let src := addrAt ws 4
    let total := 2 * n * (x.rowLen + x.scLen)
    match d.busCode (.eng j.ld j.dom) false src total with
    | some c => (d, c)
    | none =>
      match d.readBytes reqEng src total with
      | (d, none) => (d, ePoison)
      | (d, some bs) =>
        let part := fun (i len : Nat) => slice bs i len
        let w := fun (off : Nat) (b : List Byte) (d : Dev) => d.writeBytes reqEng (base + off) b
        let d := w (p * x.rowLen) (part 0 (n * x.rowLen)) d
        let d := w (0x200000 + p * x.rowLen) (part (n * x.rowLen) (n * x.rowLen)) d
        let d := w (x.scBase + p * x.scLen) (part (2 * n * x.rowLen) (n * x.scLen)) d
        let d := w (0x200000 + x.scBase + p * x.scLen) (part (2 * n * x.rowLen + n * x.scLen) (n * x.scLen)) d
        (d.modKv h fun e => { e with fill := BitVec.ofNat 16 (p + n) }, 0)
  else if j.op = 0x23 then
    let n := wfld ws 3 15 0
    let d := (x.ranges n (x.ppos - n)).foldl (fun d r => d.zeroRange reqEng (base + r.1) r.2) d
    (d.modKv h fun e => { e with fill := BitVec.ofNat 16 n }, 0)
  else if j.op = 0x24 then
    let tp := (word ws 4).toNat
    let page := fun p => if p < x.ppos then j.handles.headD 0 else j.handles.getD 1 0
    let at_ := fun (d : Dev) (p : Nat) => (x.ranges (p % x.ppos) 1).map fun r => (frameAt (d.kvE (page p)).frame + r.1, r.2)
    let nodes := keepNodes ws
    match d.readAll reqEng (nodes.flatMap fun c => at_ d (tp + c)) with
    | (d, false) => (d, ePoison)
    | (d, true) =>
      let d := ((List.range nodes.length).zip nodes).foldl (fun d kc =>
        ((at_ d (tp + kc.2)).zip (at_ d (tp + kc.1))).foldl (fun d p => d.copyRange reqEng p.1.1 p.2.1 p.1.2) d) d
      let fin := tp + nodes.length
      let trim := fun (h n : Nat) (d : Dev) =>
        let b := frameAt (d.kvE h).frame
        ((x.ranges n (x.ppos - n)).foldl (fun d r => d.zeroRange reqEng (b + r.1) r.2) d).modKv h fun e =>
          { e with fill := BitVec.ofNat 16 n }
      let d := trim (j.handles.headD 0) (min x.ppos fin) d
      ((j.handles.drop 1).foldl (fun d h => trim h (fin - x.ppos) d) d, 0)
  else if j.op = 0x28 then
    let dst := addrAt ws 6
    match d.busCode (.eng j.ld j.dom) true dst (j.handles.length * frameBytes) with
    | some c => (d, c)
    | none =>
      let parts := fun (i : Nat) =>
        (x.ranges 0 (j.fills.getD i 0)).map fun r => (frameAt (j.frames.getD i 0), r.1, r.2)
      let is := List.range j.handles.length
      match d.readAll reqEng (is.flatMap fun i => (parts i).map fun r => (r.1 + r.2.1, r.2.2)) with
      | (d, false) => (d, ePoison)
      | (d, true) =>
        (is.foldl (fun d i =>
          (parts i).foldl (fun d r => d.copyRange reqEng (r.1 + r.2.1) (dst + i * frameBytes + r.2.1) r.2.2)
            (d.zeroRange reqEng (dst + i * frameBytes) frameBytes)) d, 0)
  else (d, 0)

/-- Whether a job may finish: a MOVE and a SEND finish by their own events; a RETIRE once its page has moved; a
writer while none of its pages is MOVING or read by a SEND (R231, R254); and no job before an earlier one of the
engine that names one of its pages. -/
def Dev.jobReady (js : List KvJob) (i : Nat) (j : KvJob) (d : Dev) : Bool :=
  let writer := j.op == 0x22 || j.op == 0x23 || j.op == 0x24
  (j.op == 0x27 && j.left.isEmpty || writer || j.op == 0x28) &&
    (!writer || j.handles.all fun h => (d.kvE h).st != .moving) &&
    !(js.take i).any (fun k => (if k.op = 0x29 then k.left else k.handles).any fun h => j.handles.contains h) &&
    !(writer && js.any fun k => k.op == 0x29 && k.left.any fun h => j.handles.contains h)

/-- KV_COMMAND_COMPLETE: a command finishes its copy or fill, releases the pages it read and completes. A page
that a FREE has taken meanwhile ends a writer with E_STATE. -/
def Dev.kvComplete (die i : Nat) (d : Dev) : Dev :=
  let js := Map.get d.kvJobs die []
  match js[i]? with
  | none => d
  | some j =>
    if d.jobReady js i j then
      let writer := j.op == 0x22 || j.op == 0x23 || j.op == 0x24
      let gone := writer && j.handles.any fun h => (d.kvE h).st != .active
      let (d, c) := if gone then (d, eState) else d.jobRun j
      let d := { d with kvJobs := Map.set d.kvJobs die (js.take i ++ js.drop (i + 1)) }
      let d := if j.op = 0x28 then d.endRead j.handles else d
      let d := if j.op = 0x27 then d.modLd j.ld (Ld.setKvmEvt 4) else d
      d.done j.tkt c
    else d

/-! ## The tiers on their own -/

/-- DEMOTION_SWEEP: one visit of a stack's sweep (R240). It starts below `low_pct`, stops at `high_pct` or when
no LPDDR5X frame is free, and goes on from where it last stopped. -/
def Dev.demotionSweep (stack : Nat) (d : Dev) : Dev :=
  let ld := d.ldOfDie (stack / 2)
  let p := (d.ld ld).kvm
  let free := d.freeIn (.stack stack)
  let count := (d.region (.stack stack)).2
  let (cursor, was) := Map.get d.sweepAt stack (0, false)
  let on := p.demote && (if was then decide (free * 100 < p.highPct.toNat * count)
                         else decide (free * 100 < p.lowPct.toNat * count))
  let put := fun (c : Nat) (b : Bool) (d : Dev) => { d with sweepAt := Map.set d.sweepAt stack (c, b) }
  if !on then put cursor false d
  else
    let pages := (d.kv.filter fun e => e.2.st != .free && e.2.st != .retired && homeStack e.1 e.2 == stack &&
      !inLp e.2.frame.toNat).map Prod.fst
    match (pages.find? fun h => cursor ≤ h).or pages.head? with
    | none => put cursor true d
    | some h =>
      let e := d.kvE h
      if e.st ≠ .active ∨ e.pin ∨ e.readers ≠ 0 then put (h + 1) true d
      else if e.hot then put (h + 1) true (d.modKv h fun e => { e with hot := false })
      else
        match d.lpFrame ld [] with
        | none => put h false (d.modLd ld (Ld.setKvmEvt 2))
        | some f => put (h + 1) true (d.beginMoves [(h, f)])

/-- PROMOTION: a page queued on read moves to its home stack while that stack has free frames at or above
`high_pct` (R241). -/
def Dev.promotion (h : Nat) (d : Dev) : Dev :=
  let e := d.kvE h
  let s := homeStack h e
  let q := Map.get d.promo s []
  let p := (d.ld (d.ldOfDie (h / dieHandles))).kvm
  if q.contains h then
    let drop := { d with promo := Map.set d.promo s (q.filter (· != h)) }
    if e.st ≠ .active ∨ !inLp e.frame.toNat then drop
    else if p.highPct.toNat * (d.region (.stack s)).2 ≤ d.freeIn (.stack s) * 100 then
      match d.firstFree (.stack s) [] with
      | none => d
      | some f => (drop.beginMoves [(h, f)]).lowMarks d (h / dieHandles)
    else d
  else d

/-! ## Registers (R237, R257, R259) -/

/-- The table with the keys lo to lo + n − 1 set to one value. -/
def Map.fill {α : Type} (m : Map α) (lo n : Nat) (v : α) : Map α :=
  (m.filter fun e => e.1 < lo) ++ (List.range n).map (fun i => (lo + i, v)) ++ m.filter fun e => lo + n ≤ e.1

/-- The tag number of frame k of a stack or channel (R467). -/
def tagBase : MemUnit → Nat
  | .stack n => n * 24576
  | .channel c => 491520 + c * 32768
  | _ => 0

/-- A write of a KVM region register (R237, R257, R467, R496). -/
def Dev.kvmRegion (ld : Nat) (lp : Bool) (n : Nat) (v : W32) (d : Dev) : Dev :=
  let u := if lp then MemUnit.channel n else .stack n
  let total := if lp then 32768 else 24576
  let count := if lp then fld v 31 16 else fld v 29 15
  let base := if lp then fld v 15 0 else fld v 14 0
  let r := Map.get (if lp then d.lpRgn else d.stackRgn) n Region.init
  let first := (if lp then chanAddr n 0 else stackAddr n 0) / frameBytes
  let inside := fun k => base ≤ k && k < base + count
  let lost := d.heldFrames.any fun f =>
    first + r.base ≤ f && f < first + r.base + r.count && !inside (f - first)
  let entering := (List.range count).any fun i =>
    let k := base + i
    !(r.base ≤ k && k < r.base + r.count) &&
      ((d.tag (tagBase u + k)).st != .free || d.reserved (first * frameBytes + k * frameBytes))
  d.checked (.ld ld)
    (firstFail [(ld ≠ 15 ∧ d.ldOfUnit u ≠ ld, ePerm), (!lp && fld v 31 30 != 0, eReservedNonzero),
      ((!lp ∧ total ≤ base) ∨ total < base + count, eRange), (lost, eState), (entering, eState)])
    fun d =>
      let old := d
      let d := { d with tags := Map.fill d.tags (tagBase u + r.base) r.count PageTag.init }
      let d := { d with tags := Map.fill d.tags (tagBase u + base) count { PageTag.init with st := .kv } }
      let new : Region := { count := count, base := base }
      let d := if lp then { d with lpRgn := Map.set d.lpRgn n new } else { d with stackRgn := Map.set d.stackRgn n new }
      if lp then d else d.lowMarks old (n / 2)

/-- A write of `KVM_POLICY` (R257). -/
def Dev.kvmPolicy (ld : Nat) (v : W32) (d : Dev) : Dev :=
  let hi := fld v 15 8
  let lo := fld v 7 0
  d.checked (.ld ld) (firstFail [(fld v 31 18 ≠ 0, eReservedNonzero), (hi ≤ lo ∨ 100 < hi, eRange)])
    (Dev.modLd ld fun l =>
      { l with kvm := { l.kvm with promote := v.getLsbD 17, demote := v.getLsbD 16, highPct := BitVec.ofNat 8 hi,
                                   lowPct := BitVec.ofNat 8 lo } })

/-- A write of `KVM_EVT` (R259). -/
def Dev.kvmEvt (ld : Nat) (v : W32) (d : Dev) : Dev :=
  d.checked (.ld ld) (firstFail [(fld v 31 5 ≠ 0, eReservedNonzero)])
    (Dev.modLd ld fun l => { l with kvm := { l.kvm with evt := l.kvm.evt &&& ~~~(BitVec.ofNat 5 (fld v 4 0)) } })

/-! ## The rows -/

def execAlloc (iss : Issuer) (die : Nat) (body : List W32) : State → Result := onMem (Dev.kvAlloc iss die body)
def execFree (iss : Issuer) (die : Nat) (body : List W32) : State → Result := onMem (Dev.kvFree iss die body)
def execAppend (iss : Issuer) (die : Nat) (body : List W32) : State → Result := onMem (Dev.kvAppend iss die body)
def execTrim (iss : Issuer) (die : Nat) (body : List W32) : State → Result := onMem (Dev.kvTrim iss die body)
def execKeep (iss : Issuer) (die : Nat) (body : List W32) : State → Result := onMem (Dev.kvKeep iss die body)
def execMove (iss : Issuer) (die : Nat) (body : List W32) : State → Result := onMem (Dev.kvMove iss die body)
def execPin (iss : Issuer) (die : Nat) (body : List W32) : State → Result := onMem (Dev.kvPin iss die body)
def execRetire (iss : Issuer) (die : Nat) (body : List W32) : State → Result := onMem (Dev.kvRetire iss die body)
def execGather (iss : Issuer) (die : Nat) (body : List W32) : State → Result := onMem (Dev.kvGather iss die body)
def execSend (iss : Issuer) (die : Nat) (body : List W32) : State → Result := onMem (Dev.kvSend iss die body)

def execKvZeroFillComplete (handle : Nat) : State → Result := onMem (Dev.zeroFilled handle)
def execKvMoveCopyComplete (handle : Nat) : State → Result := onMem (Dev.moveCopied handle)
def execDemotionSweep (stack : Nat) : State → Result := onMem (Dev.demotionSweep stack)
def execPromotion (handle : Nat) : State → Result := onMem (Dev.promotion handle)

def execHandoffPageCheck (ref : W32) (src : BitVec 14) (count : Nat) (layout crc : W32) : State → Result :=
  onMem (Dev.handoffCheck ref src count layout crc)

def execKvCommandComplete (die idx : Nat) : State → Result := onMem (Dev.kvComplete die idx)

/-- KVM_REGION_WRITE: the stack or channel register n, through the page of an LD. -/
def execKvmRegionWrite (ag : Agent) (ld : Nat) (lp : Bool) (n : Nat) (v : W32) : State → Result :=
  onDev (Dev.pageWrite ag ld (if lp then 0x7050 + 4 * n else 0x7000 + 4 * n)
    (guarded (decide (n < if lp then 24 else 20)) (Dev.kvmRegion ld lp n v)))

end Sys2Proof.Machine
end

