-- ==== Sys2Proof/Machine/Score.lean ====
section
/-! DEFINITION. Score units (R244, R245, R247 to R249): attention over listed pages of a stack. -/

namespace Sys2Proof.Machine

/-- A score command (R245). -/
structure ScoreDesc where
  finish  : Bool
  treeEn  : Bool
  stack   : Nat
  lay     : KvLayout
  kvh0    : Nat
  nkv     : Nat
  g       : Nat
  t       : Nat
  npages  : Nat
  list    : Nat
  q       : Nat
  out     : Nat
  mask    : Nat
  scale   : Nat
  pos0    : Nat
  treePos : Nat
  deriving DecidableEq, Repr

def scoreDesc (ws : List W32) : ScoreDesc :=
  { finish := bit (word ws 0).toNat 8, treeEn := bit (word ws 0).toNat 9, stack := wfld ws 1 4 0, lay := kvLayout (word ws 1),
    kvh0 := wfld ws 2 3 0, nkv := wfld ws 2 7 4 + 1, g := wfld ws 2 11 8 + 1, t := wfld ws 2 17 12 + 1,
    npages := wfld ws 3 10 0, list := addrAt ws 4, q := addrAt ws 6, out := addrAt ws 8, mask := addrAt ws 10,
    scale := (word ws 12).toNat, pos0 := (word ws 13).toNat, treePos := (word ws 14).toNat }

/-- The number of query vectors. -/
def ScoreDesc.vectors (x : ScoreDesc) : Nat := x.nkv * x.g * x.t

/-- Bytes of the queries with their scales. -/
def ScoreDesc.qLen (x : ScoreDesc) : Nat :=
  x.vectors * x.lay.hd * (if x.lay.bf16 then 2 else 1) + (if x.lay.bf16 then 0 else x.vectors * x.lay.hd / 32)

/-- Bytes of one output vector (R249). -/
def ScoreDesc.outRow (x : ScoreDesc) : Nat := if x.finish then 4 * x.lay.hd else 8 + 4 * x.lay.hd

/-- What a score command reads and writes beside the list: address, length, and whether it is written. -/
def ScoreDesc.areas (x : ScoreDesc) : List (Nat × Nat × Bool) :=
  [(x.q, x.qLen, false), (x.out, x.vectors * x.outRow, true)] ++ (if x.treeEn then [(x.mask, 512, false)] else [])

/-- The checks that need no page (R245). -/
def scoreStatic (ws : List W32) : Checks :=
  let x := scoreDesc ws
  ([(wfld ws 0 15 10 ≠ 0 ∨ wfld ws 1 31 28 ≠ 0 ∨ wfld ws 2 31 18 ≠ 0 ∨ wfld ws 3 31 11 ≠ 0 ∨
        [4, 6, 8, 10].any (addrHigh ws) ∨ word ws 15 ≠ 0, eReservedNonzero),
    ([x.list, x.q, x.out, x.mask].any (· % 8 != 0), eAlign)] : Checks) ++ layoutChecks (word ws 1) ++
  ([(x.lay.hk < x.kvh0 + x.nkv, eRange), (x.t ≠ 1 ∧ !x.treeEn, eRange), (x.npages = 0 ∨ 1024 < x.npages, eRange),
    ((f32 x.scale).isNan || (f32 x.scale).isInf || (f32 x.scale).isZero, eRange)] : Checks)

/-- SCORE_COMMAND: a unit that already holds 16 commands takes no further one yet. -/
def Dev.scoreAccept (iss : Issuer) (body : List W32) (d : Dev) : Dev :=
  let x := scoreDesc body
  let die := x.stack / 2
  let ld := d.issLd iss
  let dom := d.issDom iss
  let other := decide (d.ldOfDie die ≠ ld)
  let queue := Map.get d.score x.stack []
  if !other ∧ 16 ≤ queue.length then d
  else if other then d.reject (ticketOf iss body) ((firstFail (scoreStatic body)).getD ePerm)
  else
    d.kvCommand iss die body (scoreStatic body) x.list x.npages
      (fun d refs =>
        let cs := d.refChecks die dom refs [.active, .moving] []
        cs.dropLast ++ [(x.areas.any fun a => d.kvPerm ld dom a.2.2 a.1 a.2.1, ePerm)] ++ cs.getLast?.toList ++
          [(refs.any fun r => homeStack (refHandle r) (d.kvE (refHandle r)) != x.stack, eState),
            (refs.dropLast.any fun r => (d.kvE (refHandle r)).fill.toNat != x.lay.ppos, eState)])
      fun refs d =>
        let hs := refs.map refHandle
        let c : ScoreCmd :=
          { tkt := ticketOf iss body, ld := ld, dom := dom, words := body,
            pages := hs.map fun h => (h, (d.kvE h).fill.toNat), frames := hs.map fun h => (d.kvE h).frame }
        (({ d with score := Map.set d.score x.stack (queue ++ [c]) }).beginRead hs).queuePromotion ld hs

/-! ## The computation (R247, R248) -/

/-- The values of a row of hd elements with its scales (R142). -/
def rowValues (bf : Bool) (hd : Nat) (elems scales : List Byte) : List Fp :=
  (List.range hd).map fun i =>
    if bf then f32 (num elems (2 * i) 2 * 2 ^ 16)
    else f32 (toF32 (scaled (scales.getD (i / 32) 0).toNat (decode .e4m3 (num elems i 1))))

/-- Position j, head h of a half of a page. -/
def Dev.kvRow (d : Dev) (x : KvLayout) (half j h : Nat) : List Fp :=
  let w := if x.bf16 then 2 else 1
  rowValues x.bf16 x.hd (d.bytes (half + (j * x.hk + h) * x.hd * w) (x.hd * w))
    (if x.bf16 then [] else d.bytes (half + x.scBase + (j * x.hk + h) * (x.hd / 32)) (x.hd / 32))

/-- Query vector u. -/
def Dev.queryRow (d : Dev) (x : ScoreDesc) (u : Nat) : List Fp :=
  let hd := x.lay.hd
  let w := if x.lay.bf16 then 2 else 1
  rowValues x.lay.bf16 hd (d.bytes (x.q + u * hd * w) (hd * w))
    (if x.lay.bf16 then [] else d.bytes (x.q + x.vectors * hd + u * (hd / 32)) (hd / 32))

/-- Whether query token t sees a position (R247); `row` is its row of the tree mask. -/
def ScoreDesc.visible (x : ScoreDesc) (row p : Nat) : Bool :=
  !x.treeEn || decide (p < x.treePos) || (p - x.treePos < 64 && row.testBit (p - x.treePos))

/-- The running maximum, sum and output of a vector, as FP32 codes. -/
structure ScoreAcc where
  m : Nat
  l : Nat
  o : List Nat
  deriving DecidableEq, Repr

def ScoreAcc.init (hd : Nat) : ScoreAcc := { m := negInf32, l := 0, o := List.replicate hd 0 }

/-- The product of two rows: exact products, an FP32 sum in increasing order. -/
def dot32 (a b : List Fp) : Fp := (a.zip b).foldl (fun acc p => accStep acc (p.1.mul p.2)) Fp.zero

/-- The logit of a position: scaled once, or −inf when it is not visible. -/
def logit (scale : Nat) (q k : List Fp) (seen : Bool) : Nat :=
  if seen then toF32 ((dot32 q k).mul (f32 scale)) else negInf32

/-- One page of the recurrence of R248. -/
def scorePage (scale : Nat) (q : List Fp) (keys vals : List (List Fp)) (seen : List Bool) (a : ScoreAcc) : ScoreAcc :=
  let s := (keys.zip seen).map fun p => logit scale q p.1 p.2
  let mp := if s.isEmpty then negInf32 else foldPick pickMax s
  if mp = negInf32 then a
  else
    let e := s.map fun x => exp2F (subF32 x mp)
    let lp := e.foldl addF32 0
    let op := (e.zip vals).foldl
      (fun o ev => (o.zip ev.2).map fun z => toF32 (((f32 ev.1).mul z.2).add (f32 z.1))) (List.replicate a.o.length 0)
    let top := toF32 (pickMax (f32 a.m) (f32 mp))
    let x := exp2F (subF32 a.m top)
    let y := exp2F (subF32 mp top)
    { m := top, l := addF32 (mulF32 a.l x) (mulF32 lp y),
      o := (a.o.zip op).map fun z => addF32 (mulF32 z.1 x) (mulF32 z.2 y) }

/-- Query vector u over the pages of a command: their frames and fills, in list order (R231, R232). -/
def Dev.scoreVector (d : Dev) (x : ScoreDesc) (pages : List (Nat × Nat)) (u : Nat) : ScoreAcc :=
  let h := x.kvh0 + u / (x.g * x.t)
  let q := d.queryRow x u
  let row := if x.treeEn then ofBytes (d.bytes (x.mask + 8 * (u % x.t)) 8) else 0
  ((List.range pages.length).zip pages).foldl (fun a p =>
    let base := p.2.1
    let js := List.range (min p.2.2 x.lay.ppos)
    scorePage x.scale q (js.map fun j => d.kvRow x.lay base j h) (js.map fun j => d.kvRow x.lay (base + 0x200000) j h)
      (js.map fun j => x.visible row (x.pos0 + p.1 * x.lay.ppos + j)) a) (ScoreAcc.init x.lay.hd)

/-- What a vector writes (R249). -/
def ScoreDesc.output (x : ScoreDesc) (a : ScoreAcc) : List Byte :=
  let ws := if x.finish then a.o.map fun o => if (f32 a.l).isZero then 0 else toF32 ((f32 o).div (f32 a.l))
            else a.m :: a.l :: a.o
  ws.flatMap (toBytes 4)

/-- The ranges of a page's frame that a command reads: the rows of its own KV heads alone (R248). -/
def ScoreDesc.reads (x : ScoreDesc) (p : Nat × Nat) : List (Nat × Nat) :=
  let y := x.lay
  let w := if y.bf16 then 2 else 1
  let n := min p.2 y.ppos
  if x.nkv = y.hk then (y.ranges 0 n).map fun r => (p.1 + r.1, r.2)
  else
    [0, 0x200000].flatMap fun half =>
      ((List.range n).map fun j => (p.1 + half + (j * y.hk + x.kvh0) * y.hd * w, x.nkv * y.hd * w)) ++
        (if y.bf16 then [] else (List.range n).map fun j => (p.1 + half + y.scBase + (j * y.hk + x.kvh0) * (y.hd / 32), x.nkv * (y.hd / 32)))

/-- The frames and fills of a command's pages, as it accepted them. -/
def ScoreCmd.held (c : ScoreCmd) : List (Nat × Nat) := (c.frames.zip c.pages).map fun p => (frameAt p.1, p.2.2)

/-- The work of a command: its outputs, or the code of a bus error. -/
def Dev.scoreRun (c : ScoreCmd) (d : Dev) : Dev × Code :=
  let x := scoreDesc c.words
  match x.areas.findSome? fun a => d.busCode (.eng c.ld c.dom) a.2.2 a.1 a.2.1 with
  | some e => (d, e)
  | none =>
    let reads := ((x.areas.filter fun a => !a.2.2).map fun a => (a.1, a.2.1)) ++ c.held.flatMap x.reads
    match d.readAll reqEng reads with
    | (d, false) => (d, ePoison)
    | (d, true) =>
      ((List.range x.vectors).foldl (fun d' u =>
        d'.writeBytes reqEng (x.out + u * x.outRow) (x.output (d.scoreVector x c.held u))) d, 0)

/-- SCORE_COMPLETE: the oldest command of a unit finishes and releases its pages. -/
def Dev.scoreComplete (stack : Nat) (d : Dev) : Dev :=
  match Map.get d.score stack [] with
  | [] => d
  | c :: rest =>
    let (d, e) := d.scoreRun c
    (({ d with score := Map.set d.score stack rest }).endRead (c.pages.map Prod.fst)).done c.tkt e

def execScoreCommand (iss : Issuer) (body : List W32) : State → Result := onMem (Dev.scoreAccept iss body)
def execScoreComplete (stack : Nat) : State → Result := onMem (Dev.scoreComplete stack)

end Sys2Proof.Machine
end

