-- ==== Sys2Proof/Machine/Trellis.lean ====
section
/-! DEFINITION. Trellises (R410 to R417): the image of a layout, its checks and digest, TRL_LOAD, and what the
other engines read from an active trellis. -/

namespace Sys2Proof.Machine

/-- A reader of an image's tables: bytes [a, a + n). -/
abbrev Rd := Nat → Nat → List Byte

/-- The header of a trellis (R411). `g` and `clist` list the axes LAYER, HEAD, EXPERT, STRETCH. -/
structure TrlHdr where
  layout  : Bool
  id      : Nat
  nmem    : Nat
  nlayers : Nat
  nqh     : Nat
  gq      : Nat
  nexp    : Nat
  mtab    : Nat
  ptab    : Nat
  nplace  : Nat
  g       : List Nat
  clist   : List Nat
  deriving DecidableEq, Repr

/-- The header that 32 words spell. -/
def trlHdr (ws : List W32) : TrlHdr :=
  { layout := bit (word ws 0).toNat 8, id := (word ws 1).toNat, nmem := wfld ws 2 14 0, nlayers := wfld ws 3 10 0,
    nqh := wfld ws 4 10 0, gq := wfld ws 4 15 11 + 1, nexp := wfld ws 5 15 0, mtab := word2 ws 6 % 2 ^ 44,
    ptab := word2 ws 8 % 2 ^ 44, nplace := wfld ws 10 23 0, g := (List.range 4).map fun a => wfld ws (16 + 4 * a) 15 0,
    clist := (List.range 4).map fun a => word2 ws (18 + 4 * a) % 2 ^ 44 }

/-- The units N of an axis (R413); none on STRETCH. -/
def TrlHdr.units (h : TrlHdr) (a : Nat) : Nat :=
  if a = 0 then h.nlayers else if a = 1 then h.nqh else if a = 2 then h.nexp else 0

/-- A member (R412). -/
structure TrlMem where
  ldid   : Nat
  origin : Bool
  ranks  : List Nat
  group  : Nat
  bad    : Bool
  deriving DecidableEq, Repr

def TrlHdr.mem (h : TrlHdr) (rd : Rd) (r : Nat) : TrlMem :=
  let b := rd (h.mtab + 16 * r) 16
  { ldid := bits (num b 0 2) 13 0, origin := bit (num b 2 1) 2, ranks := (List.range 4).map fun a => num b (4 + 2 * a) 2,
    group := num b 12 2,
    bad := bits (num b 0 2) 15 14 != 0 || bits (num b 2 1) 7 4 != 0 || num b 3 1 != 0 || num b 14 2 != 0 }

def TrlHdr.members (h : TrlHdr) (rd : Rd) : List TrlMem := (List.range h.nmem).map (h.mem rd)

/-- The counts of an axis (R413). -/
def TrlHdr.counts (h : TrlHdr) (rd : Rd) (a : Nat) : List Nat :=
  let g := h.g.getD a 1
  let at_ := h.clist.getD a 0
  if at_ = 0 then (List.range g).map fun r => h.units a / g + b2n (r < h.units a % g)
  else (List.range g).map fun r => num (rd (at_ + 4 * r) 4) 0 4

/-- The first unit and the count of a rank of an axis. -/
def TrlHdr.span (h : TrlHdr) (rd : Rd) (a r : Nat) : Nat × Nat :=
  let cs := h.counts rd a
  ((cs.take r).foldl (· + ·) 0, cs.getD r 0)

/-- A placement entry (R416). -/
structure TrlPlace where
  gpi   : Nat
  rank  : Nat
  fmt   : Nat
  nelem : Nat
  w     : Nat
  btab  : Nat
  deriving DecidableEq, Repr

def TrlHdr.place (h : TrlHdr) (rd : Rd) (i : Nat) : TrlPlace :=
  let b := rd (h.ptab + 32 * i) 32
  let x := num b 0 8
  { gpi := bits x 47 0, rank := bits x 61 48, fmt := bits x 63 62, nelem := num b 8 4, w := num b 16 8, btab := num b 24 8 }

def TrlHdr.places (h : TrlHdr) (rd : Rd) : List TrlPlace := (List.range h.nplace).map (h.place rd)

/-- Bytes of an element of a weight format (R369). -/
def wBytes (fmt : Nat) : Nat := if fmt = 2 then 4 else 2

/-- Bytes of a weight block (R370). -/
def blockBytes : Nat := 0x400000

/-- Blocks that n elements take. -/
def blocksFor (fmt n : Nat) : Nat := ceilDiv (n * wBytes fmt) blockBytes

/-- The weight range of an entry and the range of its records. -/
def TrlPlace.weights (p : TrlPlace) : Nat × Nat := (p.w, p.nelem * wBytes p.fmt)
def TrlPlace.records (p : TrlPlace) : Nat × Nat := (p.btab, 32 * blocksFor p.fmt p.nelem)

/-- Whether two ranges (address, length) share a byte. -/
def meet (a b : Nat × Nat) : Bool := decide (a.1 < b.1 + b.2) && decide (b.1 < a.1 + a.2)

/-- Whether two of a list of ranges share a byte. -/
def anyMeet : List (Nat × Nat) → Bool
  | [] => false
  | a :: r => r.any (meet a) || anyMeet r

/-! ## Checks -/

/-- The checks of the header, in the order of the table of R411. -/
def trlHdrChecks (ws : List W32) : Checks :=
  let h := trlHdr ws
  let axis := fun a : Nat =>
    let g := h.g.getD a 0
    ([(g = 0 ∨ 16384 < g, eRange), (a = 2 ∧ h.nexp = 0 ∧ g ≠ 1, eRange), (wfld ws (16 + 4 * a) 31 16 ≠ 0, eReservedNonzero),
      (word ws (17 + 4 * a) ≠ 0, eReservedNonzero), (wfld ws (19 + 4 * a) 31 12 ≠ 0, eReservedNonzero),
      (h.clist.getD a 0 % 4 ≠ 0, eAlign)] : Checks)
  ([(wfld ws 0 7 0 ≠ 1, eRange), (wfld ws 0 31 9 ≠ 0, eReservedNonzero),
    (wfld ws 2 31 15 ≠ 0 ∨ wfld ws 3 31 11 ≠ 0 ∨ wfld ws 4 31 16 ≠ 0 ∨ wfld ws 5 31 16 ≠ 0, eReservedNonzero),
    (h.nmem = 0 ∨ 16384 < h.nmem, eRange), (h.nlayers = 0 ∨ 1024 < h.nlayers, eRange),
    (h.nqh = 0 ∨ 1024 < h.nqh ∨ h.nqh % h.gq ≠ 0, eRange), (16 < h.gq, eRange),
    (wfld ws 7 31 12 ≠ 0 ∨ wfld ws 9 31 12 ≠ 0, eReservedNonzero), (h.mtab % 16 ≠ 0, eAlign), (h.ptab % 32 ≠ 0, eAlign),
    (h.nplace = 0, eRange), (wfld ws 10 31 24 ≠ 0 ∨ !zeroWords ws 11 15, eReservedNonzero)] : Checks) ++
    (List.range 4).flatMap axis

/-- The checks of R412; `self` is the loading partition's logical DID. -/
def trlMemChecks (h : TrlHdr) (ms : List TrlMem) (self : Nat) : Checks :=
  let rankBad := fun m : TrlMem =>
    (List.range 4).any fun a => let r := m.ranks.getD a 0; r != 0xFFFF && decide (h.g.getD a 0 ≤ r)
  let origins := fun g => (ms.filter fun m => m.group == g && m.origin).length
  let groups := (ms.map TrlMem.group).eraseDups
  [(ms.any TrlMem.bad, eReservedNonzero), ((ms.map TrlMem.ldid).eraseDups.length ≠ ms.length, eRange),
    (ms.any rankBad, eRange), (ms.any fun m => 16383 < m.group, eRange),
    ((ms.map fun m => (m.group, m.ranks)).eraseDups.length ≠ ms.length, eRange),
    (if h.layout then ms.any TrlMem.origin else groups.any fun g => origins g != 1, eRange),
    (!ms.any (fun m => m.ldid == self), eRange)]

/-- The checks of R413. -/
def trlCountChecks (h : TrlHdr) (rd : Rd) : Checks :=
  (List.range 4).map fun a =>
    let cs := h.counts rd a
    let bad :=
      if h.clist.getD a 0 = 0 then a == 3 && h.g.getD a 1 != 1 || (a < 2 && decide (h.units a < h.g.getD a 1))
      else (a < 3 && cs.foldl (· + ·) 0 != h.units a) || (a != 2 && cs.contains 0)
    (bad, eRange)

/-- Whether entries are sorted by first index, then by rank. -/
def placeSorted : List TrlPlace → Bool
  | a :: b :: r => (decide (a.gpi < b.gpi) || (a.gpi == b.gpi && decide (a.rank ≤ b.rank))) && placeSorted (b :: r)
  | _ => true

/-- The checks of R416 that need no access; `own` is the loading member's rank and `reach` tells whether a range
is out of its reach. -/
def trlPlaceChecks (h : TrlHdr) (rd : Rd) (own : Nat) (reach : Nat → Nat → Bool) : Checks :=
  let raw := (List.range h.nplace).map fun i => rd (h.ptab + 32 * i) 32
  let ps := h.places rd
  let ofRank := fun r => ps.filter fun p => p.rank == r
  [(ps.any fun p => decide (h.nmem ≤ p.rank) || p.fmt == 3, eRange),
    (ps.any fun p => p.nelem == 0 || decide (2 ^ 48 < p.gpi + p.nelem), eRange),
    (raw.any fun b => num b 12 4 != 0 || bits (num b 16 8) 63 44 != 0 || bits (num b 24 8) 63 44 != 0, eReservedNonzero),
    (ps.any fun p => p.w % blockBytes != 0 || p.btab % 32 != 0, eAlign), (!placeSorted ps, eRange),
    ((List.range h.nmem).any fun r => anyMeet ((ofRank r).flatMap fun p => [p.weights, p.records]), eRange),
    ((ofRank own).any fun p => reach p.w p.weights.2 || reach p.btab p.records.2, ePerm)]

/-- The digest (R410). -/
def trlDigest (h : TrlHdr) (rd : Rd) (head : List Byte) : W32 :=
  let present := fun a : Nat => if h.clist.getD a 0 = 0 then zeros 8 else toBytes 8 1
  let norm := (List.range 4).foldl (fun b a => splice b (0x48 + 16 * a) (present a)) (splice head 0x18 (zeros 16))
  let lists := (List.range 4).flatMap fun a => if h.clist.getD a 0 = 0 then [] else rd (h.clist.getD a 0) (4 * h.g.getD a 0)
  crc32c (norm ++ rd h.mtab (16 * h.nmem) ++ lists ++ rd h.ptab (32 * h.nplace))

/-! ## Slots -/

/-- The reader of a loaded slot: memory, or the image kept by Silmuvin, whose addresses are offsets (R557). -/
def Dev.trlRd (d : Dev) (s : TrlSlot) : Rd := fun a n =>
  match s.image with
  | some im => slice im a n
  | none => d.bytes a n

/-- The header of a loaded slot. -/
def Dev.trlOf (d : Dev) (s : TrlSlot) : TrlHdr := trlHdr (bytesToWords 32 (d.trlRd s s.addr 128))

/-- A slot of an LD. -/
def Ld.slot (l : Ld) (one : Bool) : Option TrlSlot := if one then l.trl.slot1 else l.trl.slot0

/-- The active trellis of an LD with its reader. -/
def Dev.activeTrl (d : Dev) (ld : Nat) : Option (TrlHdr × Rd) :=
  let l := d.ld ld
  match l.trl.active with
  | none => none
  | some i => (l.slot i).map fun s => (d.trlOf s, d.trlRd s)

/-- The active trellis when it is of generation (R417). -/
def Dev.genTrl (d : Dev) (ld : Nat) : Option (TrlHdr × Rd) := (d.activeTrl ld).filter fun t => !t.1.layout

/-- The rank of a DID in a member list. -/
def rankOf (ms : List TrlMem) (did : Nat) : Option Nat := (List.range ms.length).find? fun r => (ms[r]?).any fun m => m.ldid == did

/-- The logical DID of an LD. -/
def Dev.did (d : Dev) (ld : Nat) : Nat := (d.ld ld).lay.ldid.toNat

/-- The members of this LD's group in a trellis, and this LD's own entry. -/
def Dev.groupOf (d : Dev) (ld : Nat) (t : TrlHdr × Rd) : List TrlMem × Option TrlMem :=
  let ms := t.1.members t.2
  let own := ms.find? fun m => m.ldid == d.did ld
  (ms.filter fun m => own.any fun o => o.group == m.group, own)

/-- The DID of the origin of this LD's group (R286, R412). -/
def Dev.originDid (d : Dev) (ld : Nat) : Option Nat :=
  match d.genTrl ld with
  | none => none
  | some t => ((d.groupOf ld t).1.find? TrlMem.origin).map TrlMem.ldid

/-- The DIDs of the group's members other than this LD. -/
def Dev.groupOthers (d : Dev) (ld : Nat) : List Nat :=
  match d.genTrl ld with
  | none => []
  | some t => ((d.groupOf ld t).1.map TrlMem.ldid).filter (· != d.did ld)

/-- The layers of this LD (R413). -/
def Dev.localLayers (d : Dev) (ld : Nat) : List Nat :=
  match d.genTrl ld with
  | none => []
  | some t =>
    match (d.groupOf ld t).2 with
    | none => []
    | some m =>
      let stage := m.ranks.getD 0 0xFFFF
      if stage = 0xFFFF then [] else let s := t.1.span t.2 0 stage; (List.range s.2).map fun i => s.1 + i

/-- The member ranks of the trellis in this LD's slot: its own rank. -/
def Dev.ownRank (d : Dev) (ld : Nat) (t : TrlHdr × Rd) : Nat := (rankOf (t.1.members t.2) (d.did ld)).getD 0

/-! ## TRL_LOAD (R417) -/

/-- The tables of an image: address and length of each. -/
def TrlHdr.tables (h : TrlHdr) : List (Nat × Nat) :=
  (h.mtab, 16 * h.nmem) :: (h.ptab, 32 * h.nplace) ::
    ((List.range 4).filter fun a => h.clist.getD a 0 != 0).map fun a => (h.clist.getD a 0, 4 * h.g.getD a 0)

/-- Whether part of a range lies outside what the engines of an LD reach under R29 and R32. -/
def Dev.outOfLd (d : Dev) (ld a n : Nat) : Bool :=
  (samples a n).any fun x => d.unpopulated x || !d.ownsWindow ld x || d.reserved x ||
    match placeOf x with
    | .hbm _ _ => false
    | .lp _ _ => false
    | .dieSram _ _ => false
    | _ => true

/-- Every check of an image's contents after its header, in the order of R417. -/
def Dev.trlChecks (d : Dev) (ld : Nat) (h : TrlHdr) (rd : Rd) : Checks :=
  let ms := h.members rd
  trlMemChecks h ms (d.did ld) ++ trlCountChecks h rd ++ trlPlaceChecks h rd ((rankOf ms (d.did ld)).getD 0) (d.outOfLd ld)

/-- Sets a slot of an LD. -/
def Dev.setSlot (ld : Nat) (one : Bool) (s : Option TrlSlot) (d : Dev) : Dev :=
  d.modLd ld fun l => { l with trl := if one then { l.trl with slot1 := s } else { l.trl with slot0 := s } }

/-- TRL_LOAD. -/
def Dev.trlLoad (iss : Issuer) (body : List W32) (d : Dev) : Dev :=
  let t := ticketOf iss body
  let ld := d.issLd iss
  let dom := d.issDom iss
  let one := bit (word body 0).toNat 8
  let a := word2 body 1 % 2 ^ 44
  let len := (word body 3).toNat
  let l := d.ld ld
  let busy := l.trl.active == some one || l.trl.turn.st != .idle
  let front : Checks :=
    [(wfld body 0 15 9 ≠ 0 ∨ wfld body 2 31 12 ≠ 0 ∨ !zeroWords body 4 15, eReservedNonzero), (a % 64 ≠ 0 ∨ len % 64 ≠ 0, eAlign),
      (a ≠ 0 ∧ len < 128, eRange)]
  if a = 0 then d.command t (firstFail (front ++ [(busy, eState)])) fun d => (d.setSlot ld one none).done t 0
  else
    let out := fun (x : Nat × Nat) => (d.busCode (.eng ld dom) false x.1 x.2).isSome
    match firstFail (front ++ [(out (a, len), ePerm)]) with
    | some c => d.reject t c
    | none =>
      match d.readBytes reqEng a 128 with
      | (d, none) => d.reject t ePoison
      | (d, some head) =>
        let ws := bytesToWords 32 head
        let h := trlHdr ws
        match firstFail (trlHdrChecks ws ++ [(h.tables.any out, ePerm)]) with
        | some c => d.reject t c
        | none =>
          match d.readAll reqEng h.tables with
          | (d, false) => d.reject t ePoison
          | (d, true) =>
            d.command t (firstFail (d.trlChecks ld h d.bytes ++ [(busy, eState)])) fun d =>
              let g := trlDigest h d.bytes head
              (d.setSlot ld one (some { addr := a, len := len, image := none, digest := g })).finish t 0 false g

def execTrlLoad (iss : Issuer) (body : List W32) : State → Result := onMem (Dev.trlLoad iss body)

end Sys2Proof.Machine
end

