-- ==== Sys2Proof/Machine/Request.lean ====
section
/-! DEFINITION. The request engine (R260 to R266, R273 to R280, R290, R293): admission, token steps, sampling,
the end of a request and CANCEL. -/

namespace Sys2Proof.Machine

/-! ## A slot's fields -/

/-- The reference of a slot (R260). -/
def Dev.reqRef (d : Dev) (n : Nat) : W32 := BitVec.ofNat 32 (n + 2 ^ 24 * (d.req n).gen.toNat)

/-- The number of request slots. -/
def reqSlots : Nat := 262144

/-- Fields of the request block (R264). -/
def ReqSlot.mode (r : ReqSlot) : Nat := wfld r.words 0 1 0
def ReqSlot.lpEn (r : ReqSlot) : Bool := bit (word r.words 0).toNat 2
def ReqSlot.specEn (r : ReqSlot) : Bool := bit (word r.words 0).toNat 3
def ReqSlot.penPrompt (r : ReqSlot) : Bool := bit (word r.words 0).toNat 4
def ReqSlot.kvFullEnd (r : ReqSlot) : Bool := bit (word r.words 0).toNat 5
def ReqSlot.maxTokens (r : ReqSlot) : Nat := (word r.words 6).toNat
def ReqSlot.endToken (r : ReqSlot) : Nat := wfld r.words 7 19 0
def ReqSlot.vocab (r : ReqSlot) : Nat := wfld r.words 8 18 0
def ReqSlot.promptLen (r : ReqSlot) : Nat := (word r.words 26).toNat
def ReqSlot.penCap (r : ReqSlot) : Nat := wfld r.words 27 31 20
def ReqSlot.tag (r : ReqSlot) : Nat := wfld r.words 28 15 0

/-- The address in a pair of the block: 0 prompt, 1 out, 2 penalties, 3 logits, 4 tree, 5 KV list, 8 rlist. -/
def ReqSlot.addr (r : ReqSlot) (i : Nat) : Nat := addrAt r.words (14 + 2 * i)

def ReqSlot.params (r : ReqSlot) : SampleParams :=
  let w := fun i => (word r.words i).toNat
  { topK := wfld r.words 8 29 19, temp := w 9, topP := w 10, pres := w 11, freq := w 12, rep := w 13,
    seed := word2 r.words 2, step := w 4 + 2 ^ 32 * wfld r.words 5 15 0 }

/-- Whether a step of the request is in flight. -/
def ReqSlot.inStep (r : ReqSlot) : Bool := r.stamp.isSome

/-- Requests of an LD that are not FREE. -/
def Dev.reqsOf (d : Dev) (ld : Nat) : Nat := Map.count d.reqs fun _ r => r.st != .free && r.ld == ld

/-- Slots of a domain that are not FREE (R473). -/
def Dev.reqUsed (d : Dev) (dom : Nat) : Nat := Map.count d.reqs fun _ r => r.st != .free && r.dom == dom

/-! ## Memory of a request -/

/-- A read under the request's domain: the bytes, or the code that ends the request. -/
def Dev.reqRead (n a len : Nat) (d : Dev) : Dev × Except Code (List Byte) :=
  let r := d.req n
  match d.busCode (.eng r.ld r.dom) false a len with
  | some c => (d, .error c)
  | none =>
    match d.readBytes reqEng a len with
    | (d, none) => (d, .error ePoison)
    | (d, some b) => (d, .ok b)

/-- A write under the request's domain; the code is zero when it happened. -/
def Dev.reqWrite (n a : Nat) (bs : List Byte) (d : Dev) : Dev × Code :=
  let r := d.req n
  match d.busCode (.eng r.ld r.dom) true a bs.length with
  | some c => (d, c)
  | none => (d.writeBytes reqEng a bs, 0)

/-! ## The end of a request (R266, R274, R285) -/

/-- The completion record of R266. -/
def ReqSlot.record (r : ReqSlot) (ref : W32) (now : W64) (c : Code) (status : Nat) : List Byte :=
  let flags := b2n r.cancelLate + 2 * b2n r.genIdx.isSome + 4 * b2n r.recomputed + 8 * b2n r.endTok + 16 * b2n r.penFull
  toBytes 4 (c.toNat + 2 ^ 16 * status + 2 ^ 24 * flags) ++ toBytes 4 ref.toNat ++ toBytes 4 r.ntok ++
    toBytes 4 (r.genIdx.getD 0xFFFFFFFF) ++ toBytes 4 (r.genLast.toNat + 2 ^ 16 * r.tag) ++ toBytes 4 r.steps ++
    toBytes 8 (now - r.admitted).toNat

/-- Writes a record to an LD's request completion ring, then `prod` (R453, R455). -/
def Dev.reqCplWrite (ld : Nat) (rec_ : List Byte) (d : Dev) : Dev :=
  let x := (d.ld ld).host.reqCpl
  let d := d.hostWrite (x.base.toNat + 64 + 32 * (x.prod.toNat % 2 ^ x.log2m)) rec_
  let d := d.hostWrite x.base.toNat (controlLine (x.prod + 1))
  d.modLd ld fun l => { l with host := { l.host with reqCpl := { x with prod := x.prod + 1 } } }

/-- The handles of references that still name a page of the domain. -/
def Dev.ownPages (d : Dev) (dom : Nat) (refs : List W32) : List Nat :=
  (refs.filter fun r =>
    let e := d.kvE (refHandle r)
    refGen r == e.gen.toNat && e.domain.toNat == dom && (e.st == .active || e.st == .zeroing || e.st == .inbound || e.st == .moving)).map
      refHandle

/-- A reference of an adapter slot is given up; a RETIRING slot without any goes to ZEROING (R282, R285). -/
def Dev.adpRelease (a : Option Nat) (d : Dev) : Dev :=
  match a with
  | none => d
  | some k =>
    d.modAdp k fun x => { x with refs := x.refs - 1, st := if x.st = .retiring ∧ x.refs ≤ 1 then .zeroing else x.st }

/-- A step of a slot is no longer in the old set of its LD's wave (R288). -/
def Dev.leaveOld (ld n : Nat) (d : Dev) : Dev :=
  d.modLd ld fun l => { l with wave := { l.wave with oldSet := l.wave.oldSet.filter (· != n) } }

/-- A request ends: its pages are freed, the record is written, the adapter is released and the slot returns to
FREE with the next generation. -/
def Dev.endRequest (now : W64) (n : Nat) (c : Code) (status : Nat) (d : Dev) : Dev :=
  let r := d.req n
  let d := d.release (d.ownPages r.dom (r.pages ++ r.oldPages))
  let d := d.reqCplWrite r.ld (r.record (d.reqRef n) now c status)
  ((d.adpRelease r.adapter).leaveOld r.ld n).modReq n fun r => { ReqSlot.init with gen := r.gen + 1 }

/-- A request fails with a code. -/
def Dev.failRequest (now : W64) (n : Nat) (c : Code) (d : Dev) : Dev := d.endRequest now n c 2

/-- A request that was cancelled, or that a disable ends, has its record (R280, R513). -/
def Dev.endCancelled (now : W64) (n : Nat) (d : Dev) : Dev :=
  let r := d.req n
  if r.endStatus = 0 then d.endRequest now n 0 1 else d.endRequest now n r.endCode r.endStatus.toNat

/-! ## Admission (R264, R269, R275) -/

/-- Whether an FP32 code lies above zero and is finite. -/
def fpPos (w : Nat) : Bool := let x := f32 w; Fp.zero.lt x && !x.isInf

/-- The checks of a request block, in table order. -/
def Dev.reqChecks (d : Dev) (ld dom : Nat) (r : ReqSlot) : Checks :=
  let ws := r.words
  let w := fun i => (word ws i).toNat
  let known := w 1 = 0 ∨ d.adapters.any fun a => a.2.st == .ready && a.2.domain.toNat == dom && a.2.name == word ws 1
  let nanInf := fun i => (f32 (w i)).isNan || (f32 (w i)).isInf
  let addrs := (List.range 6).flatMap fun i =>
    ([(addrHigh ws (14 + 2 * i), eReservedNonzero), (r.addr i % 8 ≠ 0, eAlign),
      (!(d.busCode (.eng ld dom) (i == 1 || i == 2) (r.addr i) 8).isNone, ePerm)] : Checks)
  ([(r.mode = 3, eRange), (r.specEn ∧ r.mode = 1, eRange), (wfld ws 0 31 6 ≠ 0, eReservedNonzero), (!decide known, eAdpUnknown),
    (r.maxTokens = 0 ∨ 2 ^ 31 ≤ r.maxTokens, eRange), (r.vocab ≤ r.endToken ∧ r.endToken ≠ 0xFFFFF, eRange),
    (wfld ws 7 31 20 ≠ 0, eReservedNonzero), (r.vocab < 2 ∨ 262144 < r.vocab, eRange), (1024 < r.params.topK, eRange),
    (wfld ws 8 31 30 ≠ 0, eReservedNonzero), (w 9 ≠ 0 ∧ !fpPos (w 9), eRange),
    (!fpPos (w 10) || (f32 one32).lt (f32 (w 10)), eRange), (nanInf 11 || nanInf 12, eRange), (!fpPos (w 13), eRange)] : Checks) ++
  addrs ++
  ([(r.promptLen = 0, eRange), (r.vocab ≤ wfld ws 27 19 0, eRange), (r.mode = 2 ∧ wfld ws 28 31 16 = 0, eRange),
    (wfld ws 29 31 14 ≠ 0, eReservedNonzero), (addrHigh ws 30, eReservedNonzero), (r.addr 8 % 8 ≠ 0, eAlign)] : Checks)

/-- The checks of the handed-off pages of a `mode` 2 request (R235, R275). -/
def Dev.handedChecks (d : Dev) (ld dom : Nat) (refs : List W32) : Checks :=
  let es := refs.map fun r => (r, d.kvE (refHandle r))
  [(refs.any fun r => fld r 31 29 != 0, eReservedNonzero), (refs.any fun r => 10 ≤ refHandle r / dieHandles || d.ldOfDie (refHandle r / dieHandles) != ld, eRange),
    (es.any fun e => refGen e.1 != e.2.gen.toNat, eKvStale), (es.any fun e => e.2.domain.toNat != dom, ePerm),
    (es.any fun e => e.2.st != .active, eState)]

/-- A token added to the penalty list of a request in memory. -/
def Dev.penCount (n tok : Nat) (d : Dev) : Dev × Code :=
  let r := d.req n
  if r.penCap = 0 then (d.modReq n fun r => { r with penFull := true }, 0)
  else
    match d.reqRead n (r.addr 2) (4 * r.penCap) with
    | (d, .error c) => (d, c)
    | (d, .ok bs) =>
      let (l, full) := penAdd r.penCap tok (penEntries (bytesToWords r.penCap bs))
      let d := if full then d.modReq n fun r => { r with penFull := true } else d
      d.reqWrite n (r.addr 2) (wordsToBytes (penWords r.penCap l))

/-- Tokens added in order until one fails. -/
def Dev.penCounts (n : Nat) : List Nat → Dev → Dev × Code
  | [], d => (d, 0)
  | t :: r, d =>
    match d.penCount n t with
    | (d, c) => if c = 0 then Dev.penCounts n r d else (d, c)

/-- The penalty list at admission: emptied, or given the prompt's tokens (R269). -/
def Dev.penStart (n : Nat) (d : Dev) : Dev × Code :=
  let r := d.req n
  if !r.penPrompt then (if r.penCap = 0 then (d, 0) else d.reqWrite n (r.addr 2) (zeros (4 * r.penCap)))
  else
    match d.reqRead n (r.addr 0) (4 * r.promptLen) with
    | (d, .error c) => (d, c)
    | (d, .ok bs) => d.penCounts n ((bytesToWords r.promptLen bs).map fun w => fld w 19 0)

/-- Writes a token record and counts the token (R265, R269). -/
def Dev.emitToken (n tok lpS lpM : Nat) (d : Dev) : Dev × Code :=
  let r := d.req n
  let lp := fun x => if r.lpEn then x else 0
  let rec_ := toBytes 4 tok ++ toBytes 4 (lp lpS) ++ toBytes 4 (lp lpM) ++ toBytes 4 (r.nextIdx % 2 ^ 31 + 2 ^ 31)
  match d.reqWrite n (r.addr 1 + 16 * r.nextIdx) rec_ with
  | (d, c) =>
    if c ≠ 0 then (d, c)
    else (d.modReq n fun r => { r with ntok := r.ntok + 1, nextIdx := r.nextIdx + 1, lastTok := tok }).penCount n tok

/-- Index 0 of a `mode` 2 request: the prefill member's token, whose log-probabilities are not stated here. -/
def Dev.firstToken (n : Nat) (d : Dev) : Dev × Code :=
  let r := d.req n
  d.emitToken n (wfld r.words 27 19 0) (Config.prefillLp r.words 0 % 2 ^ 32) (Config.prefillLp r.words 1 % 2 ^ 32)

/-- A slot is FREE. -/
def Dev.slotFree (d : Dev) (n : Nat) : Bool := (d.req n).st == .free

/-- A FREE slot from a starting place on, round the slots. -/
def Dev.pickSlot (d : Dev) (start : Nat) : Option Nat :=
  (searchUp (fun i => d.slotFree (i % reqSlots)) reqSlots (start % reqSlots)).map (· % reqSlots)

/-- The layout of an LD's pages under its trellis: the word of R245. -/
def Dev.pageLayout (d : Dev) (ld : Nat) : W32 :=
  match d.genTrl ld with
  | none => 0
  | some t =>
    let g := ((d.ld ld).slot ((d.ld ld).trl.active.getD false)).elim (0 : W32) TrlSlot.digest
    let head := (((d.groupOf ld t).2.map fun m => m.ranks.getD 1 0xFFFF)).getD 0xFFFF
    let s := t.1.span t.2 1 head
    let hk := if head = 0xFFFF ∨ s.2 = 0 then 1 else min 16 ((s.1 + s.2 - 1) / t.1.gq + 1 - s.1 / t.1.gq)
    let fmt := Config.pageShape g 0 % 2
    let hd := Config.pageShape g 1 % 3
    let row := hk * (64 * 2 ^ hd)
    let most := min 65535 (0x200000 / (if fmt = 1 then 2 * row else row + row / 32))
    BitVec.ofNat 32 (2 ^ 5 * fmt + 2 ^ 6 * hd + 2 ^ 8 * (hk - 1) + 2 ^ 12 * (1 + Config.pageShape g 2 % most))

/-- The stretch group of an LD's group: each member's DID, first page and pages, in rank order; empty when the group does not
use STRETCH (R243, R413). -/
def Dev.stretchGroup (d : Dev) (ld : Nat) : List (Nat × Nat × Nat) :=
  match d.genTrl ld with
  | none => []
  | some t =>
    if t.1.clist.getD 3 0 = 0 then []
    else (d.groupOf ld t).1.filterMap fun m =>
      let rank := m.ranks.getD 3 0xFFFF
      if rank = 0xFFFF then none else some (m.ldid, t.1.span t.2 3 rank)

/-- SUBMIT. -/
def Dev.submit (now : W64) (iss : Issuer) (body : List W32) (d : Dev) : Dev :=
  let t := ticketOf iss body
  let ld := d.issLd iss
  let dom := d.issDom iss
  let a := addrAt body 1
  let bus := d.busCode (.eng ld dom) false a 128
  match firstFail [(wfld body 0 15 8 ≠ 0 ∨ addrHigh body 1 ∨ !zeroWords body 3 15, eReservedNonzero), (a % 64 ≠ 0, eAlign),
      (bus.isSome, ePerm)] with
  | some c => d.reject t c
  | none =>
    match d.readBytes reqEng a 128 with
    | (d, none) => d.reject t ePoison
    | (d, some bs) =>
      let r := { ReqSlot.init with words := bytesToWords 32 bs }
      match firstFail (d.reqChecks ld dom r) with
      | some c => d.reject t c
      | none =>
        let k := if r.mode = 2 then wfld r.words 28 31 16 else 0
        match d.readBytes reqEng (r.addr 5) (4 * k) with
        | (d, none) => d.reject t ePoison
        | (d, some rb) =>
          let refs := bytesToWords k rb
          let x := (d.ld ld).host.reqCpl
          let held := (x.prod - x.head).toNat
          let listBus := k ≠ 0 ∧ (d.busCode (.eng ld dom) false (r.addr 5) (4 * k)).isSome
          let e := firstFail ((decide listBus, ePerm) :: d.handedChecks ld dom refs ++
            ([((d.genTrl ld).isNone, eState), (!x.enable, eState), ((d.dom dom).reqQ ≤ d.reqUsed dom, eReqQuota),
              ((Map.count d.reqs fun _ r => r.st != .free) ≥ reqSlots, eExhausted),
              (2 ^ x.log2m - held ≤ d.reqsOf ld, eCplRingFull)] : Checks))
          d.command t e fun d =>
            let (d, start) := d.draw
            let n := (d.pickSlot start).getD 0
            let adp := (d.adapters.find? fun a => a.2.st == .ready && a.2.domain.toNat == dom && a.2.name == word r.words 1 &&
              word r.words 1 != 0).map Prod.fst
            let two := r.mode = 2
            let d := d.modReq n fun s =>
              { r with gen := s.gen, st := .queued, ld := ld, dom := dom, adapter := adp, admitted := now, pages := refs,
                       pos := if two then r.promptLen else 0, genLast := if two then BitVec.ofNat 16 (wfld r.words 5 31 16) else 0,
                       layout := d.pageLayout ld, spans := d.stretchGroup ld, group := d.groupOthers ld }
            let d := match adp with | some k => d.modAdp k fun a => { a with refs := a.refs + 1 } | none => d
            let d := d.finish t 0 false (d.reqRef n)
            match d.penStart n with
            | (d, c) =>
              if c ≠ 0 then d.failRequest now n c
              else if two then
                match d.firstToken n with
                | (d, c) => if c ≠ 0 then d.failRequest now n c else d
              else d

/-! ## KV pages of a step (R273, R413 to R415) -/

/-- The stretch of a request that a member holds: its first page, its pages, and those of the whole group; none when the
group does not use STRETCH. -/
def ReqSlot.stretch (r : ReqSlot) (did : Nat) : Option (Nat × Nat × Nat) :=
  if r.spans.isEmpty then none
  else
    let own := ((r.spans.find? fun x => x.1 == did).map Prod.snd).getD (0, 0)
    some (own.1, own.2, (r.spans.map fun x => x.2.2).foldl (· + ·) 0)

/-- The pages of a sequence that its first n positions take. -/
def ReqSlot.seqPages (r : ReqSlot) (n : Nat) : Nat := ceilDiv n (kvLayout r.layout).ppos

/-- Pages of this member that the first n positions take; none when they exceed the group's stretches (R415). -/
def Dev.pagesFor (d : Dev) (r : ReqSlot) (n : Nat) : Option Nat :=
  let p := r.seqPages n
  match r.stretch (d.did r.ld) with
  | none => some p
  | some (base, cap, total) => if total < p then none else some (min cap (p - base))

/-- The other member that holds a page of a sequence (R243). -/
def Dev.otherTail (d : Dev) (r : ReqSlot) (page : Nat) : Option Nat :=
  ((r.spans.find? fun x => decide (x.2.1 ≤ page) && decide (page < x.2.1 + x.2.2)).map Prod.fst).filter (· != d.did r.ld)

/-- Asks the members on which a sequence's next pages lie to allocate them (R273); what they answer reaches this member by
no row of the table. -/
def Dev.askPages (n upTo : Nat) (d : Dev) : Dev :=
  let r := d.req n
  let p := r.seqPages upTo
  let d := ((List.range p).drop r.asked).foldl (fun d i =>
    match d.otherTail r i with
    | some m => d.tell r.ld m (.kvAlloc (d.reqRef n) i)
    | none => d) d
  if r.asked < p then d.modReq n fun r => { r with asked := p } else d

/-- The dies of an LD, and those of them that have joined, may still join, or are absent (R38, R39). -/
def Dev.diesOf (d : Dev) (ld : Nat) : List Nat := (List.range 10).filter fun k => (d.ld ld).lay.dieMask.getLsbD k
def Dev.diesUp (d : Dev) (ld : Nat) : List Nat := (d.diesOf ld).filter fun k => (d.die k).joined
def Dev.diesLeft (d : Dev) (ld : Nat) : List Nat := (d.diesOf ld).filter fun k => !(d.die k).absent

/-- One page for a request: beside its earlier pages, else on a die of the LD that is open (R69, R273). While no die of the LD
has joined and one may, nothing happens (R38); with every die absent the code is E_STATE (R39). -/
def Dev.reqAlloc (n : Nat) (fresh : Bool) (d : Dev) : Dev × Code :=
  let r := d.req n
  let dies := d.diesUp r.ld
  if dies.isEmpty then (d, if (d.diesLeft r.ld).isEmpty then eState else 0)
  else
  let (d, f) := d.draw
  let (die, home) :=
    match (if fresh then [] else r.pages) ++ r.oldPages with
    | p :: _ => (refHandle p / dieHandles, b2n (d.kvE (refHandle p)).home)
    | [] => (dies.getD (f % dies.length) 0, f / 16 % 2)
  match firstFail (d.allocChecks r.ld die r.dom 2 home 1) with
  | some c => (d, c)
  | none =>
    let (d, refs) := d.allocate r.ld die r.dom 2 home 1 none
    (d.modReq n fun r => { r with pages := r.pages ++ refs }, 0)

/-- Pages up to a number, one after another. -/
def Dev.reqAllocs (n want : Nat) : Nat → Dev → Dev × Code
  | 0, d => (d, 0)
  | f + 1, d =>
    if want ≤ (d.req n).pages.length then (d, 0)
    else
      match d.reqAlloc n false with
      | (d, c) => if c = 0 then Dev.reqAllocs n want f d else (d, c)

/-! ## The tree block (R276, R277) -/

/-- Fields of a tree block. -/
def treeIndex (b : List Byte) : Nat := num b 0 4
def treeNodes (b : List Byte) : Nat := num b 4 4
def treeTok (b : List Byte) (c : Nat) : Nat := num b (8 + 4 * c) 4
def treeParent (b : List Byte) (c : Nat) : Nat := num b (0x108 + c) 1

/-- The depth of a node. -/
def treeDepth (b : List Byte) : Nat → Nat → Nat
  | 0, _ => 0
  | f + 1, c => if c = 0 then 0 else treeDepth b f (treeParent b c) + 1

/-- Whether a block breaks a rule of R276. -/
def treeBad (b : List Byte) (last : Nat) : Bool :=
  let n := treeNodes b
  n == 0 || decide (64 < n) || (List.range 64).any (fun c => decide (2 ^ 20 ≤ treeTok b c)) || treeParent b 0 != 0xFF ||
    (List.range (n - 1)).any (fun i => decide (i + 1 ≤ treeParent b (i + 1))) ||
    (List.range n).any (fun c => decide (15 < treeDepth b 64 c)) || (slice b 0x148 0x38).any (· != 0) || treeTok b 0 != last

/-- The bits of a node and of its ancestors. -/
def treeUp (b : List Byte) : Nat → Nat → Nat
  | 0, _ => 0
  | f + 1, c => 2 ^ c + (if c = 0 then 0 else treeUp b f (treeParent b c))

/-- The tree mask that the engine builds for a step: 64 rows of 8 bytes, those from `nodes` on zero (R277). -/
def treeMask (b : List Byte) : List W64 :=
  (List.range 64).map fun t => BitVec.ofNat 64 (if t < treeNodes b then treeUp b 64 t else 0)

/-! ## The beginning of a step (R262, R273, R277, R286) -/

/-- The generation that a step of an LD which begins now is stamped with (R287). -/
def Wave.stampNow (w : Wave) : BitVec 16 := if w.active then w.newGen else w.gen

/-- The generation that a layer holds (R286). -/
def Wave.layerHolds (w : Wave) (k : Nat) : BitVec 16 := Map.get w.layerGen k w.gen

/-- The first local layer that a step may not run yet; none when it may run them all. A step of the old set needs
only layers that are still to be swapped. -/
def Dev.barrier (d : Dev) (ld : Nat) (stamp : BitVec 16) : Option Nat :=
  let w := (d.ld ld).wave
  if w.active ∧ stamp = w.newGen then (d.localLayers ld).find? fun k => w.layerHolds k != stamp else none

/-- The stamped step of a slot runs, or waits in front of a layer; its slot number and stamp go to every member of its group
(R286, R287). -/
def Dev.beginStamped (n : Nat) (tree : List Byte) (d : Dev) : Dev :=
  let r := d.req n
  let stamp := (d.ld r.ld).wave.stampNow
  let b := d.barrier r.ld stamp
  let d := r.group.foldl (fun d m => d.tell r.ld m (.stepStamp n stamp)) d
  d.modReq n fun r =>
    { r with st := if b.isSome then .wait else .running, why := if b.isSome then .barrier else .none, stamp := some stamp,
             layer := b.getD 0, chosen := [], path := [], node := 0, treeLen := treeNodes tree,
             mask := if tree.isEmpty then [] else treeMask tree, sampled := false }

/-- The pages of a request whose KV is to be recomputed become its old pages, and it starts on fresh ones (R293). -/
def Dev.startRedo (n : Nat) (d : Dev) : Dev :=
  if (d.req n).redo then
    d.modReq n fun r => { r with oldPages := r.oldPages ++ r.pages, pages := [], asked := 0, recomputed := true, redo := false }
  else d

/-- The positions that a step needs pages for; `nodes` are the nodes of its tree, 0 without one. -/
def ReqSlot.upTo (r : ReqSlot) (nodes : Nat) : Nat :=
  if r.steps = 0 ∧ r.mode ≠ 2 then r.promptLen else if nodes = 0 then r.pos + 1 else r.pos + nodes

/-- A step of a slot begins once its tree block and its pages are there; `tree` is the block, empty without one. Where a die of
the LD must still join for the pages, the step waits for it (R38). -/
def Dev.beginWith (now : W64) (n : Nat) (tree : List Byte) (d : Dev) : Dev :=
  let r := d.req n
  let upTo := r.upTo (treeNodes tree)
  match d.pagesFor r upTo with
  | none => d.failRequest now n eTrlSpan
  | some want =>
    match (d.startRedo n).reqAllocs n want want with
    | (d, c) =>
      if c ≠ 0 then
        if r.kvFullEnd || (c != eKvFull && c != eKvQuota) then d.failRequest now n c
        else (d.modReq n fun r => { r with st := .wait, why := .kv }).modLd r.ld (Ld.setReqEvt 0)
      else if (d.req n).pages.length < want then d.modReq n fun r => { r with st := .wait, why := .kv }
      else (d.askPages n upTo).beginStamped n tree

/-- The beginning of a step: a tree step first reads its block. -/
def Dev.beginCore (now : W64) (n : Nat) (d : Dev) : Dev :=
  let r := d.req n
  if r.maxTokens ≤ r.ntok then d.endRequest now n 0 0
  else if r.specEn ∧ (r.steps ≠ 0 ∨ r.mode = 2) then
    match d.reqRead n (r.addr 4) 384 with
    | (d, .error c) => d.failRequest now n c
    | (d, .ok b) =>
      if treeIndex b ≠ r.nextIdx then d.modReq n fun r => { r with st := .wait, why := .tree }
      else if treeBad b r.lastTok then d.failRequest now n eRange
      else d.beginWith now n b
  else d.beginWith now n []

/-- Whether an LD lets a step begin: an active generation trellis and no turn running or partial (R417, R419, R429). -/
def Dev.stepsRun (d : Dev) (ld : Nat) : Bool := (d.genTrl ld).isSome && (d.ld ld).trl.turn.st == .idle

/-- TOKEN_STEP_BEGIN. -/
def Dev.tokenStepBegin (now : W64) (n : Nat) (d : Dev) : Dev :=
  let r := d.req n
  guarded ((r.st == .queued || r.st == .running) && !r.inStep && !r.sending && d.stepsRun r.ld) (Dev.beginCore now n) d

/-- KV_WAIT_RETRY (R273). -/
def Dev.kvWaitRetry (now : W64) (n : Nat) (d : Dev) : Dev :=
  let r := d.req n
  guarded (r.st == .wait && r.why == .kv && d.stepsRun r.ld) (Dev.beginCore now n) d

/-- The requests of an LD that wait for pages end with E_STATE once every die of the LD is absent (R39). -/
def Dev.reqsGone (now : W64) (ld : Nat) (d : Dev) : Dev :=
  if (d.diesLeft ld).isEmpty then
    ((d.reqs.filter fun e => e.2.ld == ld && e.2.st == .wait && e.2.why == .kv).map Prod.fst).foldl (fun d n => d.failRequest now n eState) d
  else d

/-- TREE_INDEX_WAIT_END (R277). -/
def Dev.treeWaitEnd (now : W64) (n : Nat) (d : Dev) : Dev :=
  let r := d.req n
  guarded (r.st == .wait && r.why == .tree && d.stepsRun r.ld) (Dev.beginCore now n) d

/-! ## Sampling (R267, R278) -/

/-- The child of a node that holds a token: the lowest of them. -/
def treeChild (b : List Byte) (n node tok : Nat) : Option Nat :=
  (List.range n).find? fun c => c != 0 && treeParent b c == node && treeTok b c == tok

/-- SAMPLE_VECTOR: a lane takes the vector of the slot's present node. A chosen token that a child holds moves the
walk to it; any other ends the walk. -/
def Dev.sampleVector (now : W64) (n : Nat) (d : Dev) : Dev :=
  let r := d.req n
  let ready := (r.st == .running || r.st == .cancelling) && r.inStep && !r.sampled && (d.barrier r.ld (r.stamp.getD 0)).isNone
  if !ready then d
  else
    match d.reqRead n (r.addr 3 + 4 * r.vocab * r.node) (4 * r.vocab) with
    | (d, .error c) => d.failRequest now n c
    | (d, .ok lb) =>
      match d.reqRead n (r.addr 2) (4 * r.penCap) with
      | (d, .error c) => d.failRequest now n c
      | (d, .ok pb) =>
        match d.reqRead n (r.addr 4) (if r.treeLen = 0 then 0 else 384) with
        | (d, .error c) => d.failRequest now n c
        | (d, .ok tb) =>
          let entries := (r.chosen.map Prod.fst).foldl (fun l t => (penAdd r.penCap t l).1) (penEntries (bytesToWords r.penCap pb))
          let count := fun v => ((entries.find? fun e => e.1 == v).map Prod.snd).getD 0
          let raw := (List.range r.vocab).map fun i => num lb (4 * i) 4
          match sampleOne r.params count (r.nextIdx + r.chosen.length) raw with
          | none => d.failRequest now n eNanLogit
          | some (tok, lpS, lpM) =>
            let chosen := r.chosen ++ [(tok, BitVec.ofNat 32 lpS, BitVec.ofNat 32 lpM)]
            match (if r.treeLen = 0 then none else treeChild tb r.treeLen r.node tok) with
            | some c => d.modReq n fun r => { r with chosen := chosen, path := r.path ++ [c], node := c }
            | none => d.modReq n fun r => { r with chosen := chosen, sampled := true }

/-! ## The end of a step (R274, R275, R279, R290) -/

/-- Emits the tokens of a step until the end token, the limit or an error: the code, and whether the request ends. -/
def Dev.emitAll (n : Nat) : List (Nat × W32 × W32) → Dev → Dev × Code × Bool
  | [], d => (d, 0, false)
  | (tok, a, b) :: r, d =>
    match d.emitToken n tok a.toNat b.toNat with
    | (d, c) =>
      let q := d.req n
      if c ≠ 0 then (d, c, true)
      else if tok = q.endToken then (d.modReq n fun q => { q with endTok := true }, 0, true)
      else if q.maxTokens ≤ q.ntok then (d, 0, true)
      else Dev.emitAll n r d

/-- The references of the pages that a tree step's KEEP works on: local pages from the one that holds position `pos` on, at
most two. -/
def Dev.keepPages (d : Dev) (r : ReqSlot) : List W32 :=
  let p := r.pos / (kvLayout r.layout).ppos
  match r.stretch (d.did r.ld) with
  | none => (r.pages.drop p).take 2
  | some (base, cap, _) => if p < base ∨ base + cap ≤ p then [] else (r.pages.drop (p - base)).take 2

/-- The other members that hold positions of a tree step: the KEEP goes to them (R279). -/
def Dev.keepOthers (d : Dev) (r : ReqSlot) : List Nat :=
  let page := fun i => (r.pos + i) / (kvLayout r.layout).ppos
  ([page 0, page (r.treeLen - 1)].filterMap (d.otherTail r)).eraseDups

/-- Whether a KEEP of a page waits: the page is MOVING, or a SEND still reads it (R231, R254). -/
def Dev.keepWaits (d : Dev) (ref : W32) : Bool :=
  (d.kvE (refHandle ref)).st == .moving || d.kvJobs.any fun q => q.2.any fun j => j.op == 0x29 && j.left.contains (refHandle ref)

/-- The KEEP of a tree step (R279), under the checks of R235; a second page that it leaves empty is freed. -/
def Dev.keepStep (n : Nat) (d : Dev) : Dev × Code :=
  let r := d.req n
  let lay := r.layout
  let x := kvLayout lay
  let refs := d.keepPages r
  let hs := refs.map refHandle
  let nodes := 0 :: r.path
  let code := d.refsCode r.dom refs [.active]
  let d := (d.keepOthers r).foldl (fun d m => d.tell r.ld m (.kvKeep (d.reqRef n) r.pos nodes)) d
  if hs.isEmpty then (d, 0)
  else if code ≠ 0 then (d, code)
  else
    let tp := r.pos % x.ppos
    let packed := (List.range 4).map fun i => BitVec.ofNat 32 (ofBytes ((List.range 4).map fun j => BitVec.ofNat 8 (nodes.getD (4 * i + j) 0)))
    let ws : List W32 := [0x24, lay, 0, 0, BitVec.ofNat 32 tp, BitVec.ofNat 32 nodes.length] ++ packed
    let fill := fun i => ((hs[i]?).map fun h => (d.kvE h).fill.toNat).getD 0
    let bad := nodes.any fun c => let p := tp + c; if p < x.ppos then fill 0 ≤ p else fill 1 ≤ p - x.ppos
    let j : KvJob := { tkt := { iss := .req n, op := 0x24, btag := 0 }, ld := r.ld, dom := r.dom, op := 0x24, words := ws,
                       handles := hs, frames := [], left := [], fills := [], remotes := [], tries := 0 }
    if bad then (d, eRange)
    else
      match d.jobRun j with
      | (d, c) =>
        if c ≠ 0 then (d, c)
        else
          match hs[1]? with
          | some h =>
            if (d.kvE h).fill = 0 then
              ((d.release [h]).modReq n fun r => { r with pages := r.pages.filter fun p => refHandle p != h }, 0)
            else (d, 0)
          | none => (d, 0)

/-- A `mode` 1 request sends its pages (R275). -/
def Dev.beginSend (now : W64) (n : Nat) (d : Dev) : Dev :=
  let r := d.req n
  let hs := r.pages.map refHandle
  let die := hs.headD 0 / dieHandles
  let lay := r.layout
  match d.reqRead n (r.addr 8) (4 * hs.length) with
  | (d, .error c) => d.failRequest now n c
  | (d, .ok rb) =>
    let code := d.refsCode r.dom r.pages [.active, .moving]
    if code ≠ 0 then d.failRequest now n code
    else
      let j : KvJob := { tkt := { iss := .req n, op := 0x29, btag := 0 }, ld := r.ld, dom := r.dom, op := 0x29,
                         words := [0x29, lay, BitVec.ofNat 32 hs.length, BitVec.ofNat 32 (wfld r.words 29 13 0)], handles := hs,
                         frames := hs.map fun h => (d.kvE h).frame, left := hs, fills := hs.map fun h => (d.kvE h).fill.toNat, remotes := bytesToWords hs.length rb, tries := 0 }
      (((d.modReq n fun r => { r with sending := true }).addJob die j).beginRead hs).sendNext die j

/-- Whether the tokens of a request have ended under R274. -/
def ReqSlot.spent (r : ReqSlot) : Bool := r.endTok || decide (r.maxTokens ≤ r.ntok)

/-- A request whose SEND has ended: COMPLETED or FAILED with its code, unless it was cancelled before R274 ended it (R275,
R280). -/
def Dev.sendOver (now : W64) (n : Nat) (d : Dev) : Dev :=
  let r := d.req n
  match r.sending, r.sendCode with
  | true, some c =>
    if r.st = .cancelling ∧ !r.spent then d.endCancelled now n
    else if c ≠ 0 then d.failRequest now n c
    else (if r.st = .cancelling then d.modReq n fun r => { r with cancelLate := true } else d).endRequest now n 0 0
  | _, _ => d

/-- Ends every request whose SEND has ended. -/
def Dev.reap (now : W64) (d : Dev) : Dev :=
  ((d.reqs.filter fun e => e.2.sending && e.2.sendCode.isSome).map Prod.fst).foldl (fun d n => d.sendOver now n) d

/-- TOKEN_STEP_END. A tree step whose KEEP must wait ends later (R231, R254). -/
def Dev.tokenStepEnd (now : W64) (n : Nat) (d : Dev) : Dev :=
  let r := d.req n
  let waits := r.treeLen != 0 && (d.keepPages r).any d.keepWaits
  if !(r.inStep && r.sampled && (r.st == .running || r.st == .cancelling)) || waits then d
  else
    let stamp := r.stamp.getD 0
    let changed := (r.steps != 0 || r.mode == 2) && r.genLast != stamp && r.genIdx.isNone
    match d.emitAll n r.chosen with
    | (d, c, done) =>
      if c ≠ 0 then d.failRequest now n c
      else
        match (if r.treeLen = 0 then (d, 0) else d.keepStep n) with
        | (d, c) =>
          if c ≠ 0 then d.failRequest now n c
          else
            let d := d.release (d.ownPages r.dom r.oldPages)
            let gain := if r.steps = 0 ∧ r.mode ≠ 2 then r.promptLen else if r.treeLen = 0 then 1 else r.path.length + 1
            let d := (d.leaveOld r.ld n).modReq n fun q =>
              { q with steps := q.steps + 1, genLast := stamp, genIdx := if changed then some r.nextIdx else q.genIdx, stamp := none,
                       pos := r.pos + gain, chosen := [], path := [], treeLen := 0, mask := [], sampled := false, oldPages := [] }
            if r.mode = 1 ∧ (r.st ≠ .cancelling ∨ done) then (d.beginSend now n).reap now
            else if done then
              (if r.st = .cancelling then d.modReq n fun q => { q with cancelLate := true } else d).endRequest now n 0 0
            else if r.st = .cancelling then d.endCancelled now n
            else d

/-! ## CANCEL (R280) -/

/-- What a cancellation does to a request by its state. -/
def Dev.cancelReq (now : W64) (n : Nat) (d : Dev) : Dev :=
  let r := d.req n
  match r.st with
  | .queued => d.endCancelled now n
  | .wait => d.endCancelled now n
  | .running =>
    if r.inStep || r.sending then d.modReq n fun r => { r with st := .cancelling } else d.endCancelled now n
  | _ => d

/-- CANCEL. -/
def Dev.cancel (now : W64) (iss : Issuer) (body : List W32) (d : Dev) : Dev :=
  let t := ticketOf iss body
  let n := wfld body 1 23 0
  let r := d.req n
  d.command t (firstFail [(wfld body 0 15 8 ≠ 0 ∨ !zeroWords body 2 15, eReservedNonzero), (reqSlots ≤ n, eRange),
      (r.gen.toNat ≠ wfld body 1 31 24 ∨ r.st = .free, eReqStale), (r.dom ≠ d.issDom iss, ePerm)])
    fun d => (d.done t 0).cancelReq now n

/-! ## The rows -/

def execSubmit (iss : Issuer) (body : List W32) : State → Result := onMemAt fun now => Dev.submit now iss body
def execCancel (iss : Issuer) (body : List W32) : State → Result := onMemAt fun now => Dev.cancel now iss body
def execTokenStepBegin (slot : Nat) : State → Result := onMemAt fun now => Dev.tokenStepBegin now slot
def execKvWaitRetry (slot : Nat) : State → Result := onMemAt fun now => Dev.kvWaitRetry now slot
def execTreeIndexWaitEnd (slot : Nat) : State → Result := onMemAt fun now => Dev.treeWaitEnd now slot
def execSampleVector (slot : Nat) : State → Result := onMemAt fun now => Dev.sampleVector now slot
def execTokenStepEnd (slot : Nat) : State → Result := onMemAt fun now => Dev.tokenStepEnd now slot

end Sys2Proof.Machine
end

