-- ==== Sys2Proof/Machine/Signed.lean ====
section
/-! DEFINITION. Signed objects and their verification (R477 to R479), and the encrypted bodies of weight and
adapter objects (R481, R482). -/

namespace Sys2Proof.Machine

/-- A big-endian 32-bit number at byte i. -/
def be32 (bs : List Byte) (i : Nat) : Nat := (slice bs i 4).foldl (fun a b => 256 * a + b.toNat) 0

/-- Bytes of an LMOTS signature of a typecode, none for another type (R479). -/
def otsLen (t : Nat) : Option Nat := if t = 3 then some (4 + 32 * 68) else if t = 4 then some (4 + 32 * 35) else none

/-- Tree height of an LMS typecode, none for another type (R479). -/
def lmsHeight (t : Nat) : Option Nat := if t = 6 then some 10 else if t = 7 then some 15 else if t = 8 then some 20 else none

/-- Bytes of an LMS signature that begins at byte i. -/
def lmsLen (bs : List Byte) (i : Nat) : Option Nat :=
  (otsLen (be32 bs (i + 4))).bind fun o => (lmsHeight (be32 bs (i + 4 + o))).map fun h => 4 + o + 4 + 32 * h

/-- Bytes of a two-level HSS signature, none when its types are not those of R479. -/
def hssLen (bs : List Byte) : Option Nat :=
  if be32 bs 0 ≠ 1 then none
  else
    (lmsLen bs 4).bind fun a =>
      if (lmsHeight (be32 bs (4 + a))).isSome ∧ (otsLen (be32 bs (8 + a))).isSome then
        (lmsLen bs (60 + a)).map fun b => 60 + a + b
      else none

/-- Bytes rounded up to a multiple of 8. -/
def up8 (n : Nat) : Nat := ceilDiv n 8 * 8

/-- The lengths of an object: signature and body. -/
def objSig (o : List Byte) : Nat := num o 0xC 4
def objBody (o : List Byte) : Nat := num o 4 4
def objVersion (o : List Byte) : Nat := num o 8 4

/-- The body of an object. -/
def bodyOf (o : List Byte) : List Byte := slice o (128 + objSig o) (objBody o)

/-- The six steps of R479 as checks. `least` is the stored minimum of the kind. -/
def objectChecks (kind : Nat) (keys : List (List Byte)) (least : Nat) (o : List Byte) : Checks :=
  let sl := objSig o
  let sig := slice o 128 sl
  let key := keys.find? fun k => Config.sha256 k == slice o 0x30 32
  let fit := hssLen sig
  let form : Bool := num o 0 1 == 1 && num o 1 1 == kind && num o 2 2 == 0 && (slice o 0x50 48).all (· == 0) &&
    sl % 8 == 0 && decide (sl ≤ 5720) && decide (128 + sl + objBody o ≤ o.length)
  let padded := fit.any fun n => up8 n == sl && (slice sig n (sl - n)).all (· == 0)
  let signed := key.any fun k => Config.hssVerify k (slice o 0 128) (slice sig 0 (fit.getD 0))
  [(!form, eRange), (key.isNone, eSigInvalid), (!padded, eSigAlgo), (!signed, eSigInvalid),
    (objVersion o < least, eRollback), (Config.sha256 (bodyOf o) != slice o 0x10 32, eSigInvalid)]

/-- The verification of R479: the code of the first failing step. -/
def verifyObject (kind : Nat) (keys : List (List Byte)) (least : Nat) (o : List Byte) : Option Code :=
  firstFail (objectChecks kind keys least o)

/-- The number of the first failing step, none when all pass. -/
def failStep (cs : Checks) : Option Nat := (cs.findIdx? fun c => c.1).map (· + 1)

/-! ## Encrypted bodies (R481, R482) -/

/-- Fields of an encrypted body. -/
def encWrap (b : List Byte) : Bool := bit (num b 0 4) 0
def encDomain (b : List Byte) : Nat := num b 4 4
def encPlain (b : List Byte) : Nat := num b 8 8

/-- Bytes of one segment of plaintext. -/
def segBytes : Nat := 0x100000

/-- Whether the fields of an encrypted body hold the values R481 permits. -/
def encFits (b : List Byte) (len : Nat) : Bool :=
  decide (num b 0 4 ≤ 1) && (if encWrap b then decide (encDomain b < 4096) else encDomain b == 0) &&
    encPlain b % 64 == 0 && num b 0x18 8 == 0 && (slice b 0x668 24).all (· == 0) &&
    len == 0x680 + encPlain b + 16 * ceilDiv (encPlain b) segBytes

/-- The segments of a body decrypted in order until a tag fails: the plaintexts, and whether all passed. -/
def openSegments (key hdr b : List Byte) : List Nat → List (List Byte) × Bool
  | [] => ([], true)
  | i :: r =>
    let n := min segBytes (encPlain b - i * segBytes)
    let ct := slice b (0x680 + i * (segBytes + 16)) (n + 16)
    match Config.gcmOpen key (slice b 0x10 8 ++ toBytes 4 i) (hdr ++ toBytes 4 i) ct with
    | none => ([], false)
    | some p => let q := openSegments key hdr b r; (slice p 0 n :: q.1, q.2)

/-- Steps 2 to 4 of an import: the plaintext written, and the code that ends it. -/
def decryptBody (seed hdr b : List Byte) : List Byte × Code :=
  match Config.keyUnwrap (Config.kemDecap seed (slice b 0x48 1568)) (slice b 0x20 40) with
  | none => ([], eKeyUnwrap)
  | some key =>
    let (segs, ok) := openSegments key hdr b (List.range (ceilDiv (encPlain b) segBytes))
    (segs.flatten, if ok then 0 else eAuthTag)

/-- The keys of an LD's publisher table. -/
def Ld.publishers (l : Ld) : List (List Byte) := l.sec.pubKeys.map Prod.snd

/-- Sets `sig_fail` or `unwrap_fail` for a failed import (R490). -/
def importEvent (c : Code) (l : Ld) : Ld :=
  if c = eKeyUnwrap ∨ c = eAuthTag then l.setSecEvt 1
  else if c = eRange ∨ c = eSigInvalid ∨ c = eSigAlgo ∨ c = eRollback then l.setSecEvt 0 else l

/-- An import of an object (R482): the plaintext goes to `dst`; after a failure with something written the
destination range is zero-filled. `devSeed` is the device key's seed. -/
def Dev.importTo (devSeed : List Byte) (kind ld dom : Nat) (obj : List Byte) (dst dstLen : Nat) (d : Dev) : Dev × Code :=
  match verifyObject kind (d.ld ld).publishers 0 obj with
  | some c => (d.modLd ld (importEvent c), c)
  | none =>
    let b := bodyOf obj
    if !encFits b (objBody obj) then (d, eRange)
    else if encWrap b ∧ encDomain b ≠ dom then (d, ePerm)
    else if dstLen < encPlain b then (d, eRange)
    else
      let (plain, c) := decryptBody (if encWrap b then (d.dom dom).kemKey else devSeed) (slice obj 0 128) b
      if c = 0 then (d.writeBytes reqMc dst plain, 0)
      else
        let d := if plain.isEmpty then d else d.zeroRange reqMc dst dstLen
        (d.modLd ld (importEvent c), c)

end Sys2Proof.Machine
end

