-- ==== Sys2Proof/Machine/Adapter.lean ====
section
/-! DEFINITION. Adapter slots (R281 to R285). -/

namespace Sys2Proof.Machine

/-- The number of adapter slots. -/
def adpSlots : Nat := 16384

/-- Adapter slots in a state, of a name and a domain. -/
def Dev.adpFind (d : Dev) (st : AdpState) (dom : Nat) (name : W32) : Option Nat :=
  (d.adapters.find? fun a => a.2.st == st && a.2.domain.toNat == dom && a.2.name == name).map Prod.fst

/-- The fields of ADP_LOAD. -/
def adpOf (ld dom : Nat) (t : Ticket) (body : List W32) : Adapter :=
  { name := word body 1, domain := BitVec.ofNat 12 dom, version := BitVec.ofNat 16 (wfld body 2 15 0),
    rank := BitVec.ofNat 9 (wfld body 2 24 16), st := .loading, refs := 0, addr := BitVec.ofNat 44 (addrAt body 6), len := word body 8,
    ld := ld, src := BitVec.ofNat 44 (addrAt body 3), srcLen := word body 5, tkt := some t }

/-- ADP_LOAD. -/
def Dev.adpLoad (iss : Issuer) (body : List W32) (d : Dev) : Dev :=
  let t := ticketOf iss body
  let ld := d.issLd iss
  let dom := d.issDom iss
  let a := adpOf ld dom t body
  let r := a.rank.toNat
  let old := (d.adpFind .ready dom a.name).map fun k => (d.adp k).version.toNat
  let slot := searchUp (fun k => (d.adp k).st == .free) adpSlots 0
  let far := fun (w : Bool) (p n : Nat) => (d.busCode (.eng ld dom) w p n).isSome
  d.command t (firstFail [(wfld body 0 15 8 ≠ 0 ∨ wfld body 2 31 25 ≠ 0 ∨ addrHigh body 3 ∨ addrHigh body 6 ∨ !zeroWords body 9 15,
        eReservedNonzero), (a.name = 0 ∨ r < 8 ∨ 256 < r ∨ r % 8 ≠ 0 ∨ old.any (a.version.toNat ≤ ·), eRange),
      (far false a.src.toNat a.srcLen.toNat || far true a.addr.toNat a.len.toNat, ePerm),
      ((d.adpFind .loading dom a.name).isSome, eState), (slot.isNone, eAdpFull)])
    fun d => d.modAdp (slot.getD 0) fun _ => a

/-- A READY slot is replaced or dropped: ZEROING at once when nothing refers to it. -/
def Adapter.retire (a : Adapter) : Adapter := { a with st := if a.refs = 0 then .zeroing else .retiring }

/-- ADP_LOAD_COMPLETE: `seed` is the device key's seed. -/
def Dev.adpLoaded (seed : List Byte) (k : Nat) (d : Dev) : Dev :=
  let a := d.adp k
  match a.st, a.tkt with
  | .loading, some t =>
    let dom := a.domain.toNat
    let (d, c) :=
      match d.busCode (.eng a.ld dom) false a.src.toNat a.srcLen.toNat with
      | some c => (d, c)
      | none =>
        match d.readBytes reqMc a.src.toNat a.srcLen.toNat with
        | (d, none) => (d, ePoison)
        | (d, some obj) =>
          match d.busCode (.eng a.ld dom) true a.addr.toNat a.len.toNat with
          | some c => (d, c)
          | none => d.importTo seed 4 a.ld dom obj a.addr.toNat a.len.toNat
    let d := d.modLd a.ld (Ld.setReqEvt 1)
    if c = 0 then
      let d := match d.adpFind .ready dom a.name with | some o => d.modAdp o Adapter.retire | none => d
      (d.modAdp k fun a => { a with st := .ready, tkt := none }).finish t 0 false (BitVec.ofNat 32 k)
    else (d.modAdp k fun a => { a with st := .zeroing, tkt := none }).done t c
  | _, _ => d

/-- ADP_DROP: a name without a READY slot in the domain is unknown. -/
def Dev.adpDrop (iss : Issuer) (body : List W32) (d : Dev) : Dev :=
  let t := ticketOf iss body
  let k := d.adpFind .ready (d.issDom iss) (word body 1)
  d.command t (firstFail [(wfld body 0 15 8 ≠ 0 ∨ !zeroWords body 2 15, eReservedNonzero), (k.isNone, eAdpUnknown)])
    fun d => (d.modAdp (k.getD 0) Adapter.retire).done t 0

/-- ADAPTER_ZERO_FILL_COMPLETE. -/
def Dev.adpZeroed (k : Nat) (d : Dev) : Dev :=
  let a := d.adp k
  if a.st = .zeroing then { d.zeroRange reqMc a.addr.toNat a.len.toNat with adapters := Map.del d.adapters k } else d

def execAdpLoad (iss : Issuer) (body : List W32) : State → Result := onMem (Dev.adpLoad iss body)
def execAdpLoadComplete (slot : Nat) (s : State) : Result := onMem (Dev.adpLoaded s.vault.devSeed slot) s
def execAdpDrop (iss : Issuer) (body : List W32) : State → Result := onDev (Dev.adpDrop iss body)
def execAdapterZeroFillComplete (slot : Nat) : State → Result := onMem (Dev.adpZeroed slot)

end Sys2Proof.Machine
end

