-- ==== Sys2Proof/Machine/Yield.lean ====
section
/-! DEFINITION. Yield points: YIELD, the end of a program under a stop request, and the hand-over of a
cluster (R171 to R173). -/

namespace Sys2Proof.Machine

/-- YIELD gd: 0 without a request or inside a handler; else the cluster waits at its yield point, and under
a hand-over request its state becomes 2 (R171, R172 step 1). -/
def execYield (clu : Nat) (d : Reg) : State → Result :=
  onDev (Dev.instr clu fun x =>
    let c := x.clu clu
    if c.yieldReq.isNone || c.ctl.inHandler then x.ret clu d 0
    else
      x.modClu clu fun c =>
        { c with atYield := some d, st := if c.yieldReq = some .handOver then .handingOver else c.st })

/-- A program that waits at its yield point under a stop request ends once its cluster has drained, and
counts as halted (R171, R513). -/
def Dev.yieldStop (n : Nat) (d : Dev) : Dev :=
  let c := d.clu n
  guarded (c.atYield.isSome && c.yieldReq == some .stop && c.drained) (Dev.endProgram n .halted) d

/-- YIELD_STOP. -/
def execYieldStop (clu : Nat) : State → Result := onMem (Dev.yieldStop clu)

/-- The context of R172 step 3, as the program resumes from it: `pc` after the YIELD, and 1 in its
destination register. -/
def Cluster.context (c : Cluster) (r : Reg) : Context :=
  { ctl := { c.ctl.put r 1 with pc := c.ctl.pc + 4 }, clu := c.clu, icuEnable := c.icu.enable,
    icuSoft := c.icu.soft, icuMask := c.icu.mask, icuCfg := c.icu.cfg }

/-- A cluster with the registers of R172 step 3 replaced by those of a context. `CLU_ERR_CODE` and
`CLU_ISSUE_STALL` are not of the list and stay. -/
def Cluster.restore (c : Cluster) (x : Context) : Cluster :=
  { c with ctl := x.ctl, clu := { x.clu with errCode := c.clu.errCode, stall := c.clu.stall },
           icu := { c.icu with enable := x.icuEnable, soft := x.icuSoft, mask := x.icuMask, cfg := x.icuCfg } }

/-- The registers of R172 step 3 as a hand-over leaves them. -/
def Context.init : Context :=
  { ctl := CtlRegs.init, clu := CluRegs.init, icuEnable := Icu.init.enable, icuSoft := Icu.init.soft,
    icuMask := Icu.init.mask, icuCfg := Icu.init.cfg }

/-- The hand-over of a drained cluster (R172): the context goes to the save area, whose layout is not
stated, the cluster is zeroised and its registers cleared, and the launches that wait go on. -/
def Dev.handOver (n : Nat) (d : Dev) : Dev :=
  let c := d.clu n
  let l := d.ldOfDie (n / 256)
  match c.atYield, c.yieldReq, c.occ, (d.ld l).ctl.crop with
  | some r, some .handOver, some .crop, some j =>
    if c.drained then
      let (d, f) := d.draw
      let d := d.writeBytes reqLaunch (j.save + 1024 * n) (toBytes 1024 f)
      let d := (d.wipeCluster n).modClu n fun c =>
        { c.restore Context.init with
          saved := some (c.context r), st := .idle, occ := none, yieldReq := none, atYield := none }
      (d.cropUpdate l { j with on := j.on.filter (· != n), todo := insNat n j.todo }).pump
    else d
  | _, _, _, _ => d

/-- HAND_OVER. -/
def execHandOver (clu : Nat) : State → Result := onMem (Dev.handOver clu)

end Sys2Proof.Machine
end

