-- ==== Sys2Proof/Machine/Launch.lean ====
section
/-! DEFINITION. LAUNCH and CC_LAUNCH (R450, R451), the catch-crop job's starts, resumptions and late yields (R400 to
R402), and the abort of a cluster program (R130, R154, R172, R513). -/

namespace Sys2Proof.Machine

/-! ## Aborts and stop requests -/

/-- The program of a cluster is aborted: its operations stop early and write nothing more, each core keeps its tags and
counts, the cluster is zeroised and its registers cleared (R130, R154, R160, R172 step 4). -/
def Dev.abortProgram (n : Nat) (d : Dev) : Dev :=
  let d := (d.wipeCluster n).modClu n fun c =>
    { c.restore Context.init with cores := c.cores.map (fun e => (e.1, e.2.abort)), mover := [], dma := [] }
  d.endProgram n .aborted

/-- A stop request to a cluster program; it replaces a hand-over request (R171, R173). -/
def Dev.stopProgram (n : Nat) (d : Dev) : Dev := d.modClu n fun c => { c with yieldReq := some .stop }

/-! ## LAUNCH (R450) -/

/-- The clusters of a body: `nclu` from `clu0` on. -/
def launchClusters (ws : List W32) : List Nat := (List.range (wfld ws 4 23 12)).map fun i => wfld ws 4 11 0 + i

/-- The checks on a code image: `code_addr` in words 1 and 2, `code_len` in word 3. -/
def codeChecks (ws : List W32) (addrs : List Nat) (used : List Nat) (more : Bool) : Checks :=
  [(more ∨ wfld ws 0 15 8 ≠ 0 ∨ wfld ws 3 31 17 ≠ 0 ∨ addrs.any (addrHigh ws) ∨ !onlyWords ws 16 used, eReservedNonzero),
   (addrAt ws 1 % 4 ≠ 0 ∨ wfld ws 3 16 0 % 4 ≠ 0, eAlign)]

/-- LAUNCH. -/
def Dev.launch (iss : Issuer) (ws : List W32) (d : Dev) : Dev :=
  let t := ticketOf iss ws
  let ld := d.issLd iss
  let dom := d.issDom iss
  let cs := launchClusters ws
  let code := addrAt ws 1
  let len := wfld ws 3 16 0
  let bad := (d.busCode (.eng ld dom) false code len).isSome
  d.command t
    (firstFail (codeChecks ws [1, 5] [0, 1, 2, 3, 4, 5, 6] (wfld ws 4 31 24 != 0) ++
      ([(len < 4 ∨ 65536 < len ∨ cs.isEmpty ∨ cs.any (fun n => decide (2559 < n)), eRange),
        (cs.any (fun n => d.ldOfDie (n / 256) != ld) ∨ bad, ePerm), (cs.any fun n => d.dieAbsent (n / 256), eState)] : Checks)))
    fun d =>
      let (d, id) := d.fresh
      let j : LaunchJob :=
        { id := id, tkt := t, ld := ld, dom := dom, code := code, len := len, arg := BitVec.ofNat 64 (addrAt ws 5),
          clu0 := cs.headD 0, waiting := cs, running := [], faulted := [], failCode := 0, aborted := false }
      Dev.pump { d with launches := d.launches ++ [j] }

/-! ## The catch-crop job (R400 to R402, R451) -/

/-- The clusters of an LD. -/
def Dev.clustersOf (d : Dev) (ld : Nat) : List Nat :=
  ((List.range 10).filter fun n => (d.ld ld).lay.dieMask.getLsbD n).flatMap fun n => (List.range 256).map fun k => 256 * n + k

/-- Whether a main program of a domain runs or waits in an LD. -/
def Dev.mainDomain (d : Dev) (ld dom : Nat) : Bool := d.launches.any fun j => j.ld == ld && j.dom == dom

/-- CC_LAUNCH. -/
def Dev.ccLaunch (iss : Issuer) (ws : List W32) (d : Dev) : Dev :=
  let t := ticketOf iss ws
  let ld := d.issLd iss
  let dom := d.issDom iss
  let code := addrAt ws 1
  let len := wfld ws 3 16 0
  let save := addrAt ws 4
  let bus := fun (wr : Bool) (a n : Nat) => (d.busCode (.eng ld dom) wr a n).isSome
  d.command t
    (firstFail (codeChecks ws [1, 4, 6] [0, 1, 2, 3, 4, 5, 6, 7] false ++
      ([(save % 1024 ≠ 0, eAlign), (len < 4 ∨ 65536 < len, eRange), ((d.ld ld).ctl.crop.isSome, eState),
        (d.mainDomain ld dom, ePerm), (bus true save (2560 * 1024) || bus false code len, ePerm),
        ((d.clustersOf ld).any fun n => d.dieAbsent (n / 256), eState)] : Checks)))
    (Dev.modLd ld fun l =>
      let j : CropJob :=
        { tkt := t, dom := dom, code := code, len := len, save := save, arg := BitVec.ofNat 64 (addrAt ws 6),
          todo := d.clustersOf ld, on := [], halted := [], failCode := 0, late := false, aborted := false }
      { l with ctl := { l.ctl with crop := some j } })

/-- Whether a launch waits for a cluster. -/
def Dev.awaited (d : Dev) (n : Nat) : Bool := d.launches.any fun j => j.waiting.contains n

/-- Resumes a program from its saved context: the code image is loaded again and the context read back (R172 step 5). -/
def Dev.resumeProgram (n ld : Nat) (j : CropJob) (x : Context) (d : Dev) : Dev × Code :=
  let bus := fun (a len : Nat) => d.busCode (.eng ld j.dom) false a len
  match (bus j.code j.len).or (bus (j.save + 1024 * n) 1024) with
  | some c => (d, c)
  | none =>
    match d.readAll reqLaunch [(j.code, j.len), (j.save + 1024 * n, 1024)] with
    | (d, false) => (d, ePoison)
    | (d, true) =>
      let d := (d.wipeCluster n).copyRange reqLaunch j.code (storeAddr n 0) j.len
      let d := d.enterProgram n j.dom .crop x.ctl
      (d.modClu n fun c => { c.restore x with saved := none }, 0)

/-- CC_START: the program starts or goes on where no main program holds the cluster or waits for it (R401). -/
def Dev.ccStart (ld n : Nat) (d : Dev) : Dev :=
  let c := d.clu n
  match (d.ld ld).ctl.crop with
  | none => d
  | some j =>
    if j.todo.contains n ∧ !j.late ∧ !j.aborted ∧ c.occ.isNone ∧ c.st ≠ .handingOver ∧ !d.awaited n ∧ (d.die (n / 256)).joined then
      let pos := ((d.clustersOf ld).findIdx? (· == n)).getD 0
      let r : Dev × Code := match c.saved with
        | none => d.startProgram n ld j.dom j.code j.len j.arg.toNat pos .crop
        | some x => d.resumeProgram n ld j x
      let j := { j with todo := j.todo.filter (· != n) }
      if r.2 = 0 then r.1.cropUpdate ld { j with on := insNat n j.on }
      else r.1.cropUpdate ld { j with halted := insNat n j.halted, failCode := if j.failCode = 0 then r.2 else j.failCode }
    else d

/-- CC_YIELD_TIMEOUT: a program that has not reached a yield point within `yield_us` of the request is aborted, `late` is
set, and the programs on other clusters stop at their next yield points (R402). -/
def Dev.ccLate (ld n : Nat) (d : Dev) : Dev :=
  let c := d.clu n
  match c.occ, c.yieldReq, c.atYield, (d.ld ld).ctl.crop with
  | some .crop, some .handOver, none, some j =>
    if !j.on.contains n ∨ c.yieldAge < 100 * (d.ld ld).ctl.yieldUs.toNat then d
    else
      let d := d.modLd ld fun l =>
        { l with ctl := { l.ctl with late := true, lateCount := sat16 l.ctl.lateCount, crop := some { j with late := true, todo := [] } } }
      let d := (j.on.filter (· != n)).foldl (fun d m => d.stopProgram m) d
      (d.dropSaved ld).abortProgram n
  | _, _, _, _ => d

/-- A die that will not join: what waits for it ends with E_STATE (R39). -/
def Dev.dieGone (die : Nat) (d : Dev) : Dev :=
  let ld := d.ldOfDie die
  let d := d.pump
  match (d.ld ld).ctl.crop with
  | none => d
  | some j =>
    if j.todo.any fun n => n / 256 == die then
      d.cropUpdate ld { j with todo := j.todo.filter fun n => n / 256 != die, failCode := if j.failCode = 0 then eState else j.failCode }
    else d

def execLaunch (iss : Issuer) (body : List W32) : State → Result := onMem (guarded (wfld body 0 7 0 == 0x10) (Dev.launch iss body))
def execCcLaunch (iss : Issuer) (body : List W32) : State → Result := onMem (guarded (wfld body 0 7 0 == 0x11) (Dev.ccLaunch iss body))
def execCcStart (ld clu : Nat) : State → Result := onMem (Dev.ccStart ld clu)
def execCcYieldTimeout (ld clu : Nat) : State → Result := onMem (Dev.ccLate ld clu)

end Sys2Proof.Machine
end

