-- ==== Sys2Proof/Machine/Drain.lean ====
section
/-! DEFINITION. Drains of scopes being disabled: which run, and how one begins and ends (R512 to R515). -/

namespace Sys2Proof.Machine

/-- The drain of a scope. -/
def Dev.drain? (d : Dev) (sc : Scope) : Option Drain := d.boot.drains.find? fun x => x.sc == sc

/-- Whether a scope covers work: an issuer's command, an LD's, or a domain's (R512). -/
def covers (sc : Scope) (iss : Issuer) (ld dom : Nat) : Bool :=
  match sc, iss with
  | .queue l q, .queue l' q' _ _ => l == l' && q == q'
  | .domain x, _ => dom == x
  | .ld n, _ => ld == n
  | _, _ => false

/-- Whether a drain in progress covers work. -/
def Dev.draining (d : Dev) (iss : Issuer) (ld dom : Nat) : Bool := d.boot.drains.any fun x => covers x.sc iss ld dom

/-- Begins a drain under the limit that an LD holds at this handshake (R513 step 2). -/
def Dev.drainBegin (now : W64) (sc : Scope) (ld : Nat) (d : Dev) : Dev :=
  { d with boot := { d.boot with drains := d.boot.drains ++
      [{ sc := sc, at_ := now, limitUs := (d.ld ld).ctl.drainUs, expired := false }] } }

/-- Forgets the drain of a scope. -/
def Dev.drainDrop (sc : Scope) (d : Dev) : Dev :=
  { d with boot := { d.boot with drains := d.boot.drains.filter fun x => x.sc != sc } }

/-- A drain has ended in an LD: `drained` is set (R513 step 7, R518). -/
def Dev.drainOver (sc : Scope) (ld : Nat) (d : Dev) : Dev := (d.drainDrop sc).modLd ld (Ld.setBootEvt 3)

end Sys2Proof.Machine
end

