-- ==== Sys2Proof/Machine/Weights.lean ====
section
/-! DEFINITION. Shards, weight blocks and their records (R369 to R373), and difference records (R392, R393,
R396). -/

namespace Sys2Proof.Machine

/-! ## Shards -/

/-- A shard (R369), or one placement entry of a trellis read as a shard. -/
structure Shard where
  fmt   : Nat
  nmom  : Nat
  nelem : Nat
  gpi   : Nat
  w     : Nat
  btab  : Nat
  m     : Nat
  owner : Nat
  ownW  : Nat
  ownB  : Nat
  deriving DecidableEq, Repr

/-- The 44-bit address in two words. -/
def addr44 (ws : List W32) (i : Nat) : Nat := word2 ws i % 2 ^ 44

/-- The 48-bit number in two words. -/
def num48 (ws : List W32) (i : Nat) : Nat := word2 ws i % 2 ^ 48

/-- Whether the reserved bits above a 44-bit address, or above a 48-bit number, are set. -/
def high44 (ws : List W32) (i : Nat) : Bool := wfld ws (i + 1) 31 12 != 0
def high48 (ws : List W32) (i : Nat) : Bool := wfld ws (i + 1) 31 16 != 0

/-- The shard that a descriptor of 16 words describes. -/
def shardOf (ws : List W32) : Shard :=
  { fmt := wfld ws 0 1 0, nmom := wfld ws 0 3 2, nelem := (word ws 1).toNat, gpi := num48 ws 2, w := addr44 ws 4,
    btab := addr44 ws 6, m := addr44 ws 8, owner := wfld ws 10 13 0, ownW := addr44 ws 11, ownB := addr44 ws 13 }

def Shard.width (s : Shard) : Nat := wBytes s.fmt
def Shard.perBlock (s : Shard) : Nat := blockBytes / s.width
def Shard.blocks (s : Shard) : Nat := blocksFor s.fmt s.nelem

/-- Elements of the shard in block b. -/
def Shard.elems (s : Shard) (b : Nat) : Nat := min s.perBlock (s.nelem - b * s.perBlock)

/-- The address of block b and of its record. -/
def Shard.blk (s : Shard) (b : Nat) : Nat := s.w + blockBytes * b
def Shard.rec_ (s : Shard) (b : Nat) : Nat := s.btab + 32 * b

/-- Bytes of a moment bank (R370). -/
def Shard.bank (s : Shard) : Nat := ceilDiv (s.nelem * s.nmom * 4) blockBytes * blockBytes

/-- The address of moment k of element i in bank j. -/
def Shard.moment (s : Shard) (j i k : Nat) : Nat := s.m + j * s.bank + (i * s.nmom + k) * 4

/-- The die whose update engine serves the shard. -/
def Shard.die (s : Shard) : Nat := s.w / dieWindow

/-- Whether the weights lie wholly in the HBM3E window of one die of an LD. -/
def Dev.weightsPlaced (d : Dev) (ld : Nat) (s : Shard) : Bool :=
  decide (s.w < 10 * dieWindow) && decide (s.w % dieWindow + s.blocks * blockBytes ≤ 2 * stackBytes) && d.ownsWindow ld s.w

/-- Whether the moment banks lie in LPDDR5X channels of an LD. -/
def Dev.momentsPlaced (d : Dev) (ld : Nat) (s : Shard) : Bool :=
  (samples s.m (2 * s.bank) ++ [s.m + 2 * s.bank - 1]).all fun a =>
    match placeOf a with
    | .lp _ _ => d.ownsWindow ld a
    | _ => false

/-- The checks of a shard descriptor that need no reach (R369). -/
def Dev.shardChecks (d : Dev) (ld : Nat) (ws : List W32) : Checks :=
  let s := shardOf ws
  [(wfld ws 0 31 4 ≠ 0 ∨ high48 ws 2 ∨ [4, 6, 8, 11, 13].any (high44 ws) ∨ wfld ws 10 31 14 ≠ 0 ∨ word ws 15 ≠ 0,
      eReservedNonzero),
    (s.w % blockBytes ≠ 0 ∨ s.btab % 32 ≠ 0 ∨ s.m % blockBytes ≠ 0 ∨ s.ownW % blockBytes ≠ 0 ∨ s.ownB % 32 ≠ 0, eAlign),
    (s.fmt = 3 ∨ s.nmom = 3 ∨ s.nelem = 0 ∨ 2 ^ 48 < s.gpi + s.nelem ∨ !d.weightsPlaced ld s, eRange),
    (if s.nmom = 0 then s.m != 0 else s.m == 0 || !d.momentsPlaced ld s, eRange)]

/-- The ranges of a shard that a command on it reaches: weights, records and moments. -/
def Shard.areas (s : Shard) : List (Nat × Nat) :=
  [(s.w, s.blocks * blockBytes), (s.btab, 32 * s.blocks)] ++ (if s.nmom = 0 then [] else [(s.m, 2 * s.bank)])

/-! ## Block records -/

/-- A block record (R371). -/
structure BlkRec where
  wEpoch  : Nat
  mEpoch  : Nat
  suspect : Bool
  stale   : Bool
  fprint  : W64
  mism    : Nat
  deriving DecidableEq, Repr

def blkRec (b : List Byte) : BlkRec :=
  { wEpoch := num b 0 6, mEpoch := num b 8 6, suspect := bit (num b 14 1) 0, stale := bit (num b 14 1) 1,
    fprint := BitVec.ofNat 64 (num b 16 8), mism := num b 24 2 }

def BlkRec.bytes (r : BlkRec) : List Byte :=
  toBytes 8 (r.wEpoch % 2 ^ 48) ++ toBytes 8 (r.mEpoch % 2 ^ 48 + 2 ^ 48 * b2n r.suspect + 2 ^ 49 * b2n r.stale) ++
    toBytes 8 r.fprint.toNat ++ toBytes 8 (r.mism % 2 ^ 16)

/-- The fingerprint of a block's 4 MiB as stored (R372); bytes that are not given are zero. -/
def fingerprint (bs : List Byte) : W64 :=
  (List.range 16384).foldl (fun a g => a ^^^ crc64 (slice bs (256 * g) 256 ++ toBytes 4 g)) 0

/-- Reads the record of a block; none when it cannot be read. -/
def Dev.readRec (a : Nat) (d : Dev) : Dev × Option BlkRec :=
  match d.readBytes reqEng a 32 with
  | (d, some b) => (d, some (blkRec b))
  | (d, none) => (d, none)

/-- Writes a record as one write. -/
def Dev.writeRec (a : Nat) (r : BlkRec) (d : Dev) : Dev := d.writeBytes reqEng a r.bytes

/-- Writes a block: the elements' bytes, then zeros to the block's end (R370). -/
def Dev.writeBlock (a : Nat) (bs : List Byte) (d : Dev) : Dev :=
  (d.zeroRange reqEng a blockBytes).writeBytes reqEng a bs

/-! ## Difference records (R392, R393) -/

/-- A difference-record header. -/
structure DfsHdr where
  ver    : Nat
  enc    : Nat
  fmt    : Nat
  domain : Nat
  payLen : Nat
  seq    : Nat
  gpi0   : Nat
  from_  : Nat
  to_    : Nat
  baseFp : W64
  newFp  : W64
  nelem  : Nat
  src    : Nat
  deriving DecidableEq, Repr

def dfsHdr (b : List Byte) : DfsHdr :=
  let w0 := num b 0 4
  { ver := bits w0 7 0, enc := bits w0 9 8, fmt := bits w0 11 10, domain := bits w0 23 12, payLen := num b 4 4,
    seq := num b 8 8, gpi0 := num b 16 6, from_ := num b 24 6, to_ := num b 32 6, baseFp := BitVec.ofNat 64 (num b 40 8),
    newFp := BitVec.ofNat 64 (num b 48 8), nelem := num b 56 4, src := bits (num b 60 4) 13 0 }

def DfsHdr.bytes (h : DfsHdr) : List Byte :=
  toBytes 4 (h.ver + 2 ^ 8 * h.enc + 2 ^ 10 * h.fmt + 2 ^ 12 * h.domain) ++ toBytes 4 h.payLen ++ toBytes 8 h.seq ++
    toBytes 8 h.gpi0 ++ toBytes 8 h.from_ ++ toBytes 8 h.to_ ++ toBytes 8 h.baseFp.toNat ++ toBytes 8 h.newFp.toNat ++
    toBytes 4 h.nelem ++ toBytes 4 h.src

/-- Bytes padded with zeros to a multiple of 64. -/
def pad64 (bs : List Byte) : List Byte := bs ++ zeros (ceilDiv bs.length 64 * 64 - bs.length)

/-- Exclusive or, byte by byte. -/
def xorBytes (a b : List Byte) : List Byte := (a.zip b).map fun p => p.1 ^^^ p.2

/-- The elements of a block that differ between two contents. -/
def changedElems (w n : Nat) (old new : List Byte) : List Nat :=
  (List.range n).filter fun i => slice old (w * i) w != slice new (w * i) w

/-- The encoding and payload of a change of n elements of w bytes (R393). -/
def dfsPayload (w n : Nat) (old new : List Byte) : Nat × List Byte :=
  let ch := changedElems w n old new
  if 8 * ch.length < n * w then
    (1, pad64 (ch.flatMap fun i =>
      toBytes 4 i ++ (if w = 4 then slice new (4 * i) 4 else slice new (2 * i) 2 ++ zeros 2)))
  else (0, pad64 (xorBytes (slice old 0 (n * w)) (slice new 0 (n * w))))

/-- The trailer of a record under a key (R392). -/
def dfsTrailer (key hdr pay : List Byte) : List Byte := slice (Config.hmac key (hdr ++ pay)) 0 32 ++ zeros 32

/-- The content that a payload makes of an old one. -/
def dfsContent (enc w n : Nat) (old pay : List Byte) (entries : Nat) : List Byte :=
  if enc = 0 then xorBytes old (slice pay 0 (n * w))
  else if enc = 1 then
    (List.range entries).foldl (fun b k =>
      let i := num pay (8 * k) 4
      if i < n then splice b (w * i) (slice pay (8 * k + 4) w) else b) old
  else slice pay 0 (n * w)

/-- The entries of a sparse payload: their indices rise strictly, and the padding begins where they do not. -/
def dfsEntries (pay : List Byte) : Nat :=
  ((List.range (pay.length / 8)).takeWhile fun k => k == 0 || decide (num pay (8 * (k - 1)) 4 < num pay (8 * k) 4)).length

/-- The checks of R396 on a record, with the new content and the block's record; `key` is the domain's key. -/
def Dev.dfsCheck (s : Shard) (dom : Nat) (key hdr pay trailer : List Byte) (d : Dev) : Dev × Except Code (Nat × List Byte × BlkRec) :=
  let h := dfsHdr hdr
  let off := h.gpi0 - s.gpi
  let b := off / s.perBlock
  let n := s.elems b
  let w := s.width
  match firstFail [(h.ver ≠ 1 ∨ h.gpi0 < s.gpi ∨ off % s.perBlock ≠ 0 ∨ s.blocks ≤ b ∨ h.enc = 3, eRange),
      (h.domain ≠ dom, ePerm), (slice trailer 0 64 != dfsTrailer key hdr pay, eHmac)] with
  | some c => (d, .error c)
  | none =>
    match d.readRec (s.rec_ b) with
    | (d, none) => (d, .error ePoison)
    | (d, some r) =>
      if h.enc < 2 ∧ h.from_ ≠ r.wEpoch then (d, .error eUpdEpoch)
      else if h.enc < 2 ∧ h.baseFp ≠ r.fprint then (d, .error eDfsBase)
      else
        match (if h.enc = 2 then (d, some []) else d.readBytes reqEng (s.blk b) (n * w)) with
        | (d, none) => (d, .error ePoison)
        | (d, some old) =>
          let new := dfsContent h.enc w n old pay (dfsEntries pay)
          if fingerprint new ≠ h.newFp then (d, .error eDfsBase)
          else (d, .ok (b, new, { r with wEpoch := h.to_, mEpoch := if s.nmom = 0 then h.to_ else r.mEpoch, fprint := h.newFp }))

/-- Applies the record at an address, with `left` bytes to the end of the records: its length and whether it was
a record and not a pad, or the code of its first failing check. -/
def Dev.dfsApplyOne (s : Shard) (ld dom : Nat) (a left : Nat) (d : Dev) : Dev × Except Code (Nat × Bool) :=
  match d.readBytes reqEng a 64 with
  | (d, none) => (d, .error ePoison)
  | (d, some hdr) =>
    let h := dfsHdr hdr
    if h.enc = 3 then (d, .ok (64 + h.payLen, false))
    else if left < 128 + h.payLen then (d, .error eRange)
    else
      match d.readBytes reqEng (a + 64) (h.payLen + 64) with
      | (d, none) => (d, .error ePoison)
      | (d, some rest) =>
        let key := ((d.dom dom).dfsKey).getD []
        match d.dfsCheck s dom key hdr (slice rest 0 h.payLen) (slice rest h.payLen 64) with
        | (d, .error c) => (d, .error c)
        | (d, .ok (b, new, r)) =>
          match firstFail [((d.busCode (.upd ld dom s.die) true (s.blk b) blockBytes).isSome ||
              (d.busCode (.upd ld dom s.die) true (s.rec_ b) 32).isSome, ePerm)] with
          | some c => (d, .error c)
          | none => ((d.writeBlock (s.blk b) new).writeRec (s.rec_ b) r, .ok (128 + h.payLen, true))

end Sys2Proof.Machine
end

