-- ==== Sys2Proof/Machine/Collective.lean ====
section
/-! DEFINITION. Collectives (R329 to R341, R346, R347, R356 to R359, R363): the descriptor and its checks, chunks, paths,
acceptance, and how a collective ends. -/

namespace Sys2Proof.Machine

/-! ## The descriptor (R331) -/

def Coll.kind (c : Coll) : Nat := wfld c.words 0 7 0
def Coll.pred (c : Coll) : Bool := bit (word c.words 0).toNat 8
def Coll.ring (c : Coll) : Bool := bit (word c.words 0).toNat 9
def Coll.iod (c : Coll) : Nat := wfld c.words 0 10 10
def Coll.outAx (c : Coll) : Bool := bit (word c.words 0).toNat 12
def Coll.toAll (c : Coll) : Bool := bit (word c.words 0).toNat 13
def Coll.dtype (c : Coll) : Nat := wfld c.words 1 22 20
def Coll.redOp (c : Coll) : Nat := wfld c.words 1 24 23
def Coll.fanout (c : Coll) : Nat := wfld c.words 1 28 25 + 1
def Coll.hd (c : Coll) : Nat := 64 * 2 ^ wfld c.words 1 30 29
def Coll.nmem (c : Coll) : Nat := c.members.length
def Coll.root (c : Coll) : Nat := wfld c.words 3 13 0
def Coll.count (c : Coll) : Nat := (word c.words 4).toNat
def Coll.inCount (c : Coll) : Nat := (word c.words 5).toNat
def Coll.weight (c : Coll) : Nat := wfld c.words 6 24 0
def Coll.wdMs (c : Coll) : Nat := wfld c.words 7 15 0
def Coll.inAddr (c : Coll) : Nat := addr44 c.words 10
def Coll.outAddr (c : Coll) : Nat := addr44 c.words 12
def Coll.anchorAddr (c : Coll) : Nat := addr44 c.words 18
def Coll.doneAddr (c : Coll) : Nat := addr44 c.words 23

/-- The chunk slots that a descriptor reserves (R331, R340). -/
def windowOf (ws : List W32) : Nat := wfld ws 2 22 15 + 1

/-- Bytes of an element of a `dtype`; zero for AX96. -/
def dtypeBytes (t : Nat) : Nat := if t = 0 ∨ t = 4 then 4 else if t = 1 ∨ t = 2 then 2 else if t = 5 then 1 else 0

/-- Whether a kind uses Rake slots (R329). -/
def usesRake (kind : Nat) : Bool := kind != 0x65 && kind != 0x67

/-- The first word of each 44-bit address with its alignment. -/
def collAddrs : List (Nat × Nat) := [(8, 8), (10, 8), (12, 8), (14, 8), (16, 8), (18, 4), (20, 8), (23, 16)]

/-- The `dtype` codes of a kind under an operation (R329). -/
def dtypeAllowed (kind op t : Nat) : Bool :=
  if kind ≤ 0x62 then if op = 0 then decide (t ≤ 3) else t == 0 || t == 1 || t == 2 || t == 4
  else if kind = 0x63 ∨ kind = 0x64 then t == 0 || t == 1 || t == 2 || t == 4 || t == 5
  else if kind = 0x66 then t == 0 else t == 5

/-- The checks that need no list: reserved bits, alignment, field ranges and the rows of R329 (R331, R333). -/
def collStatic (ws : List W32) : Checks :=
  let f0 := fun i => bit (word ws 0).toNat i
  let kind := wfld ws 0 7 0
  let t := wfld ws 1 22 20
  let op := wfld ws 1 24 23
  let sum := decide (0x60 ≤ kind ∧ kind ≤ 0x62) && op == 0
  let nmem := wfld ws 2 14 0
  let nseg := wfld ws 22 6 0
  let count := (word ws 4).toNat
  let inCount := (word ws 5).toNat
  let fusable := kind == 0x60 || kind == 0x61
  let shardList := (kind == 0x62 || kind == 0x63) && addr44 ws 14 != 0
  let ringOk := kind == 0x60 || kind == 0x62 || kind == 0x63
  ([(wfld ws 0 15 14 ≠ 0 ∨ wfld ws 1 31 31 ≠ 0 ∨ wfld ws 2 31 23 ≠ 0 ∨ wfld ws 3 31 14 ≠ 0 ∨ wfld ws 6 31 25 ≠ 0 ∨
        wfld ws 7 31 16 ≠ 0 ∨ wfld ws 22 31 7 ≠ 0 ∨ collAddrs.any (fun a => high44 ws a.1) ∨ !zeroWords ws 25 31, eReservedNonzero),
    (collAddrs.any fun a => addr44 ws a.1 % a.2 != 0, eAlign),
    (kind < 0x60 ∨ 0x67 < kind, eRange), (5 < t, eRange), (op = 3, eRange), (wfld ws 1 30 29 = 3, eRange),
    (!dtypeAllowed kind op t, eRange), (op ≠ 0 ∧ 0x62 < kind, eRange), (f0 9 ∧ !ringOk, eRange),
    (f0 8 ∧ op ≠ 0, eRange), (f0 12 ∧ !sum, eRange), (f0 13 ∧ kind ≠ 0x66, eRange), (!f0 9 ∧ wfld ws 1 28 25 = 0, eRange),
    (nmem = 0 ∨ 16384 < nmem, eRange), (nmem ≤ wfld ws 3 13 0, eRange),
    (if fusable ∧ nseg = 0 then count < inCount else inCount ≠ 0, eRange),
    (if t = 3 then wfld ws 6 24 0 = 0 ∨ 2 ^ 24 < wfld ws 6 24 0 else wfld ws 6 24 0 ≠ 0, eRange),
    (wfld ws 7 15 0 = 0, eRange), (64 < nseg ∨ (nseg ≠ 0 ∧ !fusable), eRange),
    (nseg ≠ 0 ∧ (count ≠ 0 ∨ addr44 ws 10 ≠ 0 ∨ addr44 ws 12 ≠ 0), eRange), (shardList ∧ count ≠ 0, eRange),
    (kind = 0x67 ∧ count ≠ 0, eRange), (count = 0 ∧ nseg = 0 ∧ !shardList ∧ kind ≠ 0x67, eRange),
    (addr44 ws 18 = 0 ∧ (f0 8 ∨ f0 12 ∨ t = 3), eRange)] : Checks)

/-! ## Lists (R332) -/

/-- A list that a descriptor names: where it lies and its length. -/
def collLists (ws : List W32) : List (Nat × Nat) :=
  let kind := wfld ws 0 7 0
  let nmem := wfld ws 2 14 0
  let nseg := wfld ws 22 6 0
  [(addr44 ws 8, 2 * nmem)] ++
    (if (kind = 0x62 ∨ kind = 0x63) ∧ addr44 ws 14 ≠ 0 then [(addr44 ws 14, 4 * nmem)] else []) ++
    (if kind = 0x65 then [(addr44 ws 14, 8 * nmem), (addr44 ws 16, 8 * nmem)] else []) ++
    (if nseg = 0 then [] else [(addr44 ws 20, 32 * nseg)])

/-- The member list. -/
def collMembers (d : Dev) (ws : List W32) : List Nat :=
  (List.range (wfld ws 2 14 0)).map fun r => num (d.bytes (addr44 ws 8 + 2 * r) 2) 0 2

/-- The segments: input, output, elements. -/
def collSegs (d : Dev) (ws : List W32) : List (Nat × Nat × Nat) :=
  (List.range (wfld ws 22 6 0)).map fun i =>
    let b := d.bytes (addr44 ws 20 + 32 * i) 32
    (num b 0 8, num b 8 8, num b 16 4)

/-- A send or receive list: byte count and offset for each rank. -/
def collPairs (d : Dev) (ws : List W32) (w : Nat) : List (Nat × Nat) :=
  (List.range (wfld ws 2 14 0)).map fun r =>
    let b := d.bytes (addr44 ws w + 8 * r) 8
    (num b 0 4, num b 4 4)

/-- The element counts of the shards of a REDUCE_SCATTER or an ALL_GATHER. -/
def collShards (d : Dev) (ws : List W32) : List Nat :=
  (List.range (wfld ws 2 14 0)).map fun r =>
    if addr44 ws 14 = 0 then (word ws 4).toNat else num (d.bytes (addr44 ws 14 + 4 * r) 4) 0 4

/-- The parts that are cut into chunks, each beginning a new chunk: shards, segments, or the two passes of a COMBINE
(R339, R354). -/
def collSizes (ws : List W32) (shards : List Nat) (segs : List (Nat × Nat × Nat)) : List Nat :=
  let kind := wfld ws 0 7 0
  let count := (word ws 4).toNat
  let total := (segs.map fun s => s.2.2).foldl (· + ·) 0
  if kind = 0x62 ∨ kind = 0x63 then shards
  else if kind = 0x66 then [count, count * (1 + 64 * 2 ^ wfld ws 1 30 29)]
  else if kind = 0x65 ∨ kind = 0x67 then []
  else if segs.isEmpty then [count]
  else if bit (word ws 0).toNat 11 then segs.map fun s => s.2.2
  else [total]

/-- The checks of the lists' contents (R332 to R334); `self` is this partition's logical DID. -/
def collListChecks (d : Dev) (ws : List W32) (self : Nat) : Checks :=
  let ms := collMembers d ws
  let segs := collSegs d ws
  let kind := wfld ws 0 7 0
  let pairs := if kind = 0x65 then collPairs d ws 14 ++ collPairs d ws 16 else []
  let sum := fun (l : List Nat) => l.foldl (· + ·) 0
  let elems := if kind = 0x62 then sum (collShards d ws) else sum (segs.map fun s => s.2.2)
  [(ms.any fun m => 16384 ≤ m, eRange),
    ((List.range (wfld ws 22 6 0)).any fun i => (d.bytes (addr44 ws 20 + 32 * i + 20) 12).any (· != 0), eRange),
    (pairs.any fun p => p.1 % 8 != 0 || p.2 % 8 != 0, eRange),
    (ms.eraseDups.length ≠ ms.length ∨ !ms.contains self, eRange),
    (segs.any fun s => decide (2 ^ 44 ≤ s.1) || decide (2 ^ 44 ≤ s.2.1), eRange), (2 ^ 32 - 1 < elems, eRange)]

/-! ## Chunks (R339) -/

/-- Elements per chunk. -/
def Coll.per (c : Coll) : Nat := if c.kind = 0x63 ∨ c.kind = 0x64 then 3072 / dtypeBytes c.dtype else 256

/-- The number of chunks. -/
def Coll.total (c : Coll) : Nat := (c.sizes.map fun n => ceilDiv n c.per).foldl (· + ·) 0

/-- Chunk k of parts cut into chunks: its part, its first element in it, and its elements. -/
def cutAt (per : Nat) : List Nat → Nat → Nat → Option (Nat × Nat × Nat)
  | [], _, _ => none
  | n :: r, j, k =>
    let q := ceilDiv n per
    if k < q then some (j, k * per, min per (n - k * per)) else cutAt per r (j + 1) (k - q)

/-- Part, first element in the part, elements of chunk k. -/
def Coll.cut (c : Coll) (k : Nat) : Nat × Nat × Nat := (cutAt c.per c.sizes 0 k).getD (0, 0, 0)

/-- The first element of chunk k in the element space. -/
def Coll.first (c : Coll) (k : Nat) : Nat :=
  let x := c.cut k
  (c.sizes.take x.1).foldl (· + ·) 0 + x.2.1

/-- Chunks before the summed array: those of the maximum pass of a COMBINE. -/
def Coll.base (c : Coll) : Nat := if c.kind = 0x66 then ceilDiv c.count 256 else 0

/-- Whether chunk k is summed in AX96, and whether it carries maxima or minima. -/
def Coll.sums (c : Coll) (k : Nat) : Bool := if c.kind = 0x66 then decide (c.base ≤ k) else decide (c.kind ≤ 0x62) && c.redOp == 0
def Coll.extreme (c : Coll) (k : Nat) : Bool := if c.kind = 0x66 then decide (k < c.base) else decide (c.kind ≤ 0x62) && c.redOp != 0

/-- Whether the summed chunks take their anchors from an anchor pass. -/
def Coll.anchored (c : Coll) : Bool := (c.sums c.base) && !c.pred && c.dtype != 3

/-! ## Paths (R346, R347) -/

/-- The part of a member in the life of a chunk: the ranks whose contribution its Rake expects, the rank that the
partial goes to, the rank that the result comes from, those it goes to, and whether it is delivered here. -/
structure Role where
  ups   : List Nat
  to_   : Option Nat
  from_ : Option Nat
  downs : List Nat
  here  : Bool
  deriving DecidableEq, Repr

/-- Virtual rank of a rank, and back. -/
def Coll.virt (c : Coll) (r : Nat) : Nat := (r + c.nmem - c.root) % c.nmem
def Coll.real (c : Coll) (v : Nat) : Nat := (v + c.root) % c.nmem

/-- The tree parent and children of a rank. -/
def Coll.parent (c : Coll) (r : Nat) : Option Nat :=
  if c.virt r = 0 then none else some (c.real ((c.virt r - 1) / c.fanout))
def Coll.children (c : Coll) (r : Nat) : List Nat :=
  ((List.range c.fanout).map fun i => c.virt r * c.fanout + 1 + i).filter (· < c.nmem) |>.map c.real

/-- Whether virtual rank w lies in the subtree of v. -/
def Coll.under (c : Coll) (v : Nat) : (fuel w : Nat) → Bool
  | 0, w => w == v
  | f + 1, w => w == v || (decide (v < w) && Coll.under c v f ((w - 1) / c.fanout))

/-- Whether rank w lies in the subtree of rank r. -/
def Coll.below (c : Coll) (r w : Nat) : Bool := c.under (c.virt r) 15 (c.virt w)

/-- The neighbours of a rank in the ring. -/
def Coll.nextOf (c : Coll) (r : Nat) : Nat := (r + 1) % c.nmem
def Coll.prevOf (c : Coll) (r : Nat) : Nat := (r + c.nmem - 1) % c.nmem

/-- The rank at which the result of chunk k is formed, or from which its bytes start. -/
def Coll.formAt (c : Coll) (k : Nat) : Nat :=
  if c.ring then (if c.kind = 0x60 then k % c.nmem else (c.cut k).1) else c.root

/-- The part of rank r in chunk k. -/
def Coll.role (c : Coll) (r k : Nat) : Role :=
  let owner := (c.cut k).1
  let kids := c.children r
  let up := c.parent r
  if c.ring then
    let f := c.formAt k
    let onward := if c.nextOf r = f then [] else [c.nextOf r]
    let back := if r = f then none else some (c.prevOf r)
    if c.kind = 0x63 then { ups := if r = f then [r] else [], to_ := none, from_ := back, downs := onward, here := true }
    else
      { ups := if r = c.nextOf f then [r] else [c.prevOf r, r], to_ := if r = f then none else some (c.nextOf r),
        from_ := if c.kind = 0x60 then back else none, downs := if c.kind = 0x60 then onward else [],
        here := c.kind == 0x60 || r == f }
  else if c.kind = 0x63 then
    { ups := if r = owner then [r] else kids.filter fun x => c.below x owner, to_ := if c.below r owner then up else none,
      from_ := up, downs := kids, here := true }
  else if c.kind = 0x64 then
    { ups := if up.isNone then [r] else [], to_ := none, from_ := up, downs := kids, here := true }
  else if c.kind = 0x62 then
    { ups := r :: kids, to_ := up, from_ := if c.below r owner then up else none, downs := kids.filter fun x => c.below x owner,
      here := r == owner }
  else
    let all := c.kind == 0x60 || (c.kind == 0x66 && (c.toAll || decide (k < c.base)))
    { ups := r :: kids, to_ := up, from_ := if all then up else none, downs := if all then kids else [], here := all || up.isNone }

/-- The rank that starts the completion fence: the root, or in a ring the member that forms the last chunk (R345). -/
def Coll.starter (c : Coll) : Nat := if c.ring then c.formAt (c.total - 1) % c.nmem else c.root

/-- The members to which the fence is passed on. -/
def Coll.fenceTo (c : Coll) : List Nat :=
  if c.ring then (if c.nextOf c.rank = c.starter then [] else [c.nextOf c.rank]) else c.children c.rank

/-- The members that an abort notice goes to (R357). -/
def Coll.neighbours (c : Coll) : List Nat :=
  if c.ring then ([c.nextOf c.rank, c.prevOf c.rank].eraseDups).filter (· != c.rank)
  else (c.parent c.rank).toList ++ c.children c.rank

/-! ## Table and messages -/

/-- The outstanding collective of an ID in an LD. -/
def Dev.coll? (d : Dev) (ld : Nat) (id : BitVec 20) : Option Coll := d.colls.find? fun c => c.ld == ld && c.id == id

/-- Writes a collective back. -/
def Dev.putColl (c : Coll) (d : Dev) : Dev :=
  { d with colls := d.colls.map fun x => if x.ld = c.ld ∧ x.id = c.id then c else x }

/-- Sends a message to a member. -/
def Dev.collSend (c : Coll) (r : Nat) (m : FabMsg) (d : Dev) : Dev := d.tell c.ld (c.members.getD r 0) m

/-- Sends a message to several members. -/
def Dev.collSendAll (c : Coll) (rs : List Nat) (m : FabMsg) (d : Dev) : Dev := rs.foldl (fun d r => d.collSend c r m) d

/-! ## Reservations (R340) -/

/-- The places of the Rake slots of an I/O die that are reserved or being zero-filled. -/
def Dev.rakeHeld (d : Dev) (iod : Nat) : List Nat :=
  (d.colls.flatMap fun c => if c.iod = iod then c.phys else []) ++ d.zeroing.flatMap fun z => if z.iod = iod then z.phys else []

/-- Slots of an LD on an I/O die, and slots of a domain. -/
def Dev.rakeUsed (d : Dev) (ld iod : Nat) : Nat :=
  ((d.colls.map fun c => if c.ld = ld ∧ c.iod = iod then c.phys.length else 0) ++
    d.zeroing.map fun z => if z.ld = ld ∧ z.iod = iod then z.phys.length else 0).foldl (· + ·) 0
def Dev.rakeDom (d : Dev) (dom : Nat) : Nat :=
  ((d.colls.map fun c => if c.dom = dom then c.phys.length else 0) ++
    d.zeroing.map fun z => if z.dom = dom then z.phys.length else 0).foldl (· + ·) 0

/-- The slot quota of an LD on an I/O die (R365). -/
def Ld.rakeQuota (l : Ld) (iod : Nat) : Nat := if iod = 0 then l.lay.quota0 else l.lay.quota1

/-- Rake slots of an I/O die. -/
def rakeSlots : Nat := 10240

/-- Whether a PENDING collective waits, if at all, for its LD's quota only. -/
def Dev.domFits (d : Dev) (c : Coll) : Bool := decide (d.rakeDom c.dom + windowOf c.words ≤ (d.dom c.dom).rakeQ)

/-- The address of a Rake slot (R27). -/
def rakeAddr (iod phys : Nat) : Nat := iodBase + iod * iodWindow + 3072 * phys

/-! ## The end of a collective (R338, R356 to R359) -/

/-- The place of piece i from rank r among what an ALL_TO_ALL of a transplant has received. -/
def pieceKey (i r : Nat) : Nat := r * 2 ^ 32 + i

/-- The done word. -/
def Coll.doneWord (c : Coll) (code : Code) (who : Nat) (valid : Bool) (chunk : W32) : List Byte :=
  toBytes 4 (code.toNat + 2 ^ 16 * wfld c.words 0 31 16) ++ toBytes 4 (who % 2 ^ 14 + 2 ^ 14 * b2n valid) ++
    toBytes 4 chunk.toNat ++ toBytes 4 (2 ^ 31)

/-- Ends a collective: the done word, the issuer's report, the events, the notices, and the reservation; to a transplant its
end is reported within the LD (R422). -/
def Dev.collEnd (c : Coll) (code : Code) (who : Nat) (chunk : W32) (aborted : Bool) (d : Dev) : Dev :=
  let z : List Zeroing :=
    if c.phys.isEmpty then [] else [{ iod := c.iod, ld := c.ld, dom := c.dom, coll := c.id, phys := c.phys }]
  let d := { d with colls := d.colls.filter fun x => !(x.ld == c.ld && x.id == c.id), zeroing := d.zeroing ++ z }
  let d := if c.doneAddr = 0 then d else d.writeBytes reqEng c.doneAddr (c.doneWord code who (code != 0) chunk)
  let d := if code = 0 then d
    else (d.modLd c.ld fun l =>
        let l := l.setColEvt 0
        let l := if code = eCollTimeout then l.setColEvt 1 else l
        if code = eCollMismatch then l.setColEvt 4 else l).collSendAll c c.neighbours (.abort c.id code who chunk c.digest)
  let d := match c.eng with
    | some u => { d with upds := d.upds.map fun (x : UpdCmd) => if x.id = u then { x with colEnd := some code } else x }
    | none => d
  if c.turn then
    let shards := (List.range c.nmem).map fun r =>
      (List.range (ceilDiv (c.recvs.getD r (0, 0)).1 3072)).flatMap fun i => Map.get c.passed (pieceKey i r) []
    d.modLd c.ld fun l => { l with trl := { l.trl with turn := { l.trl.turn with moved := some (code, who), inbox := shards } } }
  else d.finish c.tkt code aborted 0

/-- No chunk is named. -/
def noChunk : W32 := 0xFFFFFFFF

/-- Ends every collective of an LD that includes a lost member (R318, R358). -/
def Dev.collLost (ld did : Nat) (d : Dev) : Dev :=
  (d.colls.filter fun c => c.ld == ld && c.members.contains did).foldl
    (fun d c => d.collEnd c eMemberLost ((c.members.findIdx? (· == did)).getD 0) noChunk false) d

/-- The member that a collective awaits for its oldest open chunk (R356). -/
def Coll.awaited (c : Coll) : Nat :=
  let lowest := fun (l : List Nat) => l.foldl (fun a x => min a x) (l.headD c.rank)
  if !c.granted then c.rank
  else
    match c.slots.foldl (fun (a : Option RakeSlot) s => match a with | none => some s | some b => some (if s.chunk < b.chunk then s else b)) none with
    | some s =>
      let r := c.role c.rank s.chunk
      match s.st with
      | .serving => lowest s.wait
      | .passed => if s.has then r.to_.getD c.rank else r.from_.getD c.rank
      | .reforming => if s.wait.isEmpty then lowest (r.ups.filter fun x => !s.got.contains x) else r.from_.getD (lowest r.ups)
      | _ =>
        let todo := r.ups.filter fun x => !s.got.contains x
        if todo.isEmpty then (r.to_.or r.from_).getD c.rank else lowest todo
    | none =>
      if c.kind = 0x65 then lowest (((List.range c.nmem).filter fun r => c.unacked.any fun u => u.2 == r))
      else if c.ended < c.total ∨ c.kind = 0x67 then
        let r := c.role c.rank c.base
        let todo := r.ups.filter fun x => x != c.rank && !c.heard.any fun h => h.2.1 == x
        if todo.isEmpty then r.to_.getD c.rank else lowest todo
      else if c.ring then c.prevOf c.rank else (c.parent c.rank).getD c.rank

/-- COLL_WATCHDOG: `wd_ms` of elapsed time without progress. -/
def Dev.collWatchdog (now : W64) (ld : Nat) (id : BitVec 20) (d : Dev) : Dev :=
  match d.coll? ld id with
  | none => d
  | some c =>
    if 100000 * c.wdMs ≤ (now - c.lastMove).toNat then
      let chunk := (c.slots.map RakeSlot.chunk).foldl (fun (a : Option Nat) k => some (a.elim k (min k))) none
      d.collEnd c eCollTimeout c.awaited (chunk.elim noChunk fun k => BitVec.ofNat 32 k) false
    else d

def execCollWatchdog (ld : Nat) (coll : BitVec 20) : State → Result := onDevAt fun now => Dev.collWatchdog now ld coll

/-- Goes on where a packet's digest is the member's own; another ends the collective, naming the sender (R336). What a member
does to itself carries no packet. -/
def Dev.agreed (c : Coll) (x : Sender) (f : Dev → Dev) (d : Dev) : Dev :=
  if x.rank ≠ c.rank ∧ x.digest ≠ c.digest then d.collEnd c eCollMismatch x.rank noChunk false else f d

/-- ABORT_NOTICE. -/
def Dev.abortNotice (ld : Nat) (h : CollHead) (code : Code) (who : Nat) (chunk : W32) (d : Dev) : Dev :=
  match d.coll? ld h.id with
  | none => d
  | some c => if code = 0 then d else d.agreed c h.sender fun d => d.collEnd c code who chunk false

def execAbortNotice (ld : Nat) (coll : CollHead) (code : Code) (who : Nat) (chunk : W32) : State → Result :=
  onDev (Dev.abortNotice ld coll code who chunk)

/-- COL_ABORT. -/
def Dev.colAbort (ld : Nat) (v : W32) (d : Dev) : Dev :=
  let id := BitVec.ofNat 20 (fld v 19 0)
  match d.coll? ld id with
  | none => d.ldErr ld (if ld = 15 then ePerm else if fld v 31 20 ≠ 0 then eReservedNonzero else eState)
  | some c =>
    d.checked (.ld ld) (firstFail [(ld = 15, ePerm), (fld v 31 20 ≠ 0, eReservedNonzero)])
      (fun d => d.collEnd c eCollAborted c.rank noChunk false)

def execColAbort (ag : Agent) (ld : Nat) (v : W32) : State → Result := onDev (Dev.pageWrite ag ld 0xA010 (Dev.colAbort ld v))

/-! ## Acceptance (R330, R333, R336) -/

/-- The digest of a descriptor (R336); the widths in which its fields enter are the model's own. -/
def collDigest (ws : List W32) (members counts : List Nat) : W32 :=
  let f := fun i => toBytes 1 (b2n (bit (word ws 0).toNat i))
  crc32c (toBytes 1 (wfld ws 0 7 0) ++ f 8 ++ f 9 ++ f 11 ++ f 13 ++ toBytes 4 (word ws 1).toNat ++
    toBytes 4 (wfld ws 2 14 0) ++ toBytes 4 (wfld ws 3 13 0) ++ toBytes 4 (word ws 4).toNat ++
    members.flatMap (toBytes 2) ++ counts.flatMap (toBytes 4))

/-- Whether an issuer acts for the LD's catch-crop job. -/
def Dev.forCrop (d : Dev) : Issuer → Bool
  | .colRing n _ => (d.clu n).occ == some .crop
  | _ => false

/-- A collective as its descriptor and lists give it. -/
def Dev.collOf (d : Dev) (iss : Issuer) (ld dom : Nat) (t : Ticket) (ws : List W32) (eng : Option Nat) (buf : List Byte) (now : W64) : Coll :=
  let kind := wfld ws 0 7 0
  let ms := collMembers d ws
  let segs := collSegs d ws
  let shards := if (kind = 0x62 ∨ kind = 0x63) then collShards d ws else []
  { id := BitVec.ofNat 20 (wfld ws 1 19 0), ld := ld, dom := dom, tkt := t, words := ws, members := ms,
    rank := (ms.findIdx? (· == d.did ld)).getD 0, sizes := collSizes ws shards segs, segs := segs,
    sends := if kind = 0x65 then collPairs d ws 14 else [], recvs := if kind = 0x65 then collPairs d ws 16 else [],
    digest := collDigest ws ms (if addr44 ws 14 ≠ 0 ∧ (kind = 0x62 ∨ kind = 0x63) then shards else segs.map fun s => s.2.2),
    crop := d.forCrop iss, granted := !usesRake kind, phys := [], slots := [], next := 0, redo := [], ended := 0, dir := [],
    heard := [], opened := 0, agreed := 0, grants := [], retries := [], passed := [], unacked := [], got := [], fence := false,
    lastMove := now, badCode := 0, badWho := 0, badChunk := noChunk, eng := eng, turn := false, buf := buf }

/-- The ranges that a collective reads and writes at this member: address, length, and whether it is written. -/
def Coll.areas (c : Coll) : List (Nat × Nat × Bool) :=
  let ws := c.words
  let w := dtypeBytes c.dtype
  let sum := fun (l : List Nat) => l.foldl (· + ·) 0
  let elems := sum c.sizes
  let chunks := c.total
  let inLen := if c.dtype = 3 then 3072 * chunks else elems * w
  let outLen := if c.outAx then 3072 * chunks else elems * (if c.dtype = 3 then 4 else w)
  let reach := fun (l : List (Nat × Nat)) => l.foldl (fun a p => max a (p.1 + p.2)) 0
  let here := (c.role c.rank c.base).here
  let io :=
    if c.eng.isSome ∨ c.kind = 0x67 then []
    else if c.kind = 0x65 then [(c.inAddr, reach c.sends, false), (c.outAddr, reach c.recvs, true)]
    else if c.kind = 0x66 then
      [(c.inAddr, c.count * (8 + 4 * c.hd), false), (c.outAddr, if here then c.count * 4 * c.hd else 0, true)]
    else if !c.segs.isEmpty then
      c.segs.flatMap fun s =>
        let ax := 3072 * ceilDiv s.2.2 256
        [(s.1, if c.dtype = 3 then ax else s.2.2 * w, false),
          (s.2.1, if !here then 0 else if c.outAx then ax else s.2.2 * (if c.dtype = 3 then 4 else w), true)]
    else if c.kind = 0x62 then
      [(c.inAddr, inLen, false), (c.outAddr, if c.outAx then outLen else c.sizes.getD c.rank 0 * (if c.dtype = 3 then 4 else w), true)]
    else if c.kind = 0x63 then [(c.inAddr, c.sizes.getD c.rank 0 * w, false), (c.outAddr, outLen, true)]
    else if c.kind = 0x64 then [(c.inAddr, if c.rank = c.root then inLen else 0, false), (c.outAddr, outLen, true)]
    else [(c.inAddr, if c.dtype = 3 then inLen else c.inCount * w, false), (c.outAddr, if here then outLen else 0, true)]
  let table := if c.anchorAddr = 0 ∨ !c.sums c.base then [] else [(c.anchorAddr, 4 * (chunks - c.base), true)]
  let done := if addr44 ws 23 = 0 then [] else [(addr44 ws 23, 16, true)]
  (io ++ table ++ done).filter fun a => a.2.1 != 0

/-- Whether a prediction of 0xFF stands in the anchor table (R103). -/
def Coll.badPred (c : Coll) (d : Dev) : Bool :=
  c.pred && (List.range (c.total - c.base)).any fun k => num (d.bytes (c.anchorAddr + 4 * k) 1) 0 1 == 0xFF

/-- The checks of R333 after the lists have been read. -/
def Dev.collChecks (d : Dev) (ld dom : Nat) (c : Coll) : Checks :=
  let out := fun (a : Nat × Nat × Bool) => (d.busCode (.eng ld dom) a.2.2 a.1 a.2.1).isSome
  let win := windowOf c.words
  collListChecks d c.words (d.did ld) ++
    ([(c.anchorAddr ≠ 0 ∧ (d.busCode (.eng ld dom) false c.anchorAddr (4 * (c.total - c.base))).isNone ∧ c.badPred d, eRange),
      (c.areas.any out, ePerm), ((d.coll? ld c.id).isSome || (d.ld ld).trl.turn.st == .running, eState), (4096 ≤ d.colls.length, eCollFull),
      (usesRake c.kind ∧ ((d.ld ld).rakeQuota c.iod < win ∨ (d.dom dom).rakeQ < win), eRakeQuota)] : Checks)

/-- Reads the lists of a descriptor: none when one cannot be read. -/
def Dev.readLists (ls : List (Nat × Nat)) (d : Dev) : Dev × Bool := d.readAll reqEng ls

/-- The bytes of the pieces that an ALL_TO_ALL sends to a rank, with the offset of each in the shard; a shard without
bytes is one empty piece. -/
def a2aPieces (n : Nat) : List (Nat × Nat) :=
  if n = 0 then [(0, 0)] else (List.range (ceilDiv n 3072)).map fun i => (3072 * i, min 3072 (n - 3072 * i))

/-- Accepts a collective after the checks of R333, or answers the code that rejects it. -/
def Dev.collTry (iss : Issuer) (dom : Nat) (ws : List W32) (eng : Option Nat) (buf : List Byte) (now : W64) (start : Coll → Dev → Dev)
    (d : Dev) : Dev × Option Code :=
  let t := ticketOf iss ws
  let ld := d.issLd iss
  let front : Checks := collStatic ws ++ [((collLists ws).any fun x => (d.busCode (.eng ld dom) false x.1 x.2).isSome, ePerm)]
  match firstFail front with
  | some c => (d, some c)
  | none =>
    match d.readLists (collLists ws) with
    | (d, false) => (d, some ePoison)
    | (d, true) =>
      let c := d.collOf iss ld dom t ws eng buf now
      match firstFail (d.collChecks ld dom c) with
      | some e => (d, some e)
      | none =>
        let d := d.accept t
        let d := match iss with
          | .colRing n k => d.ringDone .col n k 0
          | _ => d
        let d := { d with colls := d.colls ++ [c] }
        match c.members.findIdx? fun m => d.isLost ld m with
        | some r => (d.collEnd c eMemberLost r noChunk false, none)
        | none => (start c d, none)

/-- A command that issues a collective; a ring entry is reported at its acceptance (R330). -/
def Dev.collAccept (iss : Issuer) (ws : List W32) (now : W64) (start : Coll → Dev → Dev) (d : Dev) : Dev :=
  match d.collTry iss (d.issDom iss) ws none [] now start with
  | (d, some e) => d.reject (ticketOf iss ws) e
  | (d, none) => d

end Sys2Proof.Machine
end

