-- ==== Sys2Proof/Machine/Rake.lean ====
section
/-! DEFINITION. The Rake (R98 to R103, R340 to R355, R360 to R362): reservations, grants, anchors, contributions,
results, acknowledgements and the fence. A re-request of R360 and R361 reaches its sender as one more grant of the
chunk; a member's own contributor is granted, and its local delivery acknowledges, under its own rank. -/

namespace Sys2Proof.Machine

/-- The LD and the ID of a collective. -/
abbrev Key := Nat × BitVec 20

def Dev.onColl (q : Key) (f : Coll → Dev → Dev) (d : Dev) : Dev := (d.coll? q.1 q.2).elim d fun c => f c d

/-- What changes when a collective makes progress (R356): its slots, the anchors heard, the anchor groups agreed, the pieces not
acknowledged and those taken, and the chunks ended. -/
structure CollMarks where
  slots   : List (Nat × SlotState × List Nat × Bool × List Nat)
  heard   : List (Nat × Nat × List Byte)
  agreed  : Nat
  unacked : List (Nat × Nat)
  got     : List (Nat × Nat)
  ended   : Nat
  deriving DecidableEq, Repr

def Coll.marks (c : Coll) : CollMarks :=
  { slots := c.slots.map fun s => (s.chunk, s.st, s.got, s.has, s.wait), heard := c.heard, agreed := c.agreed, unacked := c.unacked,
    got := c.got, ended := c.ended }

/-- As `onColl`, for an event at a collective; progress restarts its watchdog (R356). -/
def Dev.onLive (now : W64) (q : Key) (f : Coll → Dev → Dev) (d : Dev) : Dev :=
  d.onColl q fun c d => (f c d).onColl q fun x d => if x.marks = c.marks then d else d.putColl { x with lastMove := now }

def Coll.slot? (c : Coll) (k : Nat) : Option RakeSlot := c.slots.find? fun s => s.chunk == k

/-- The slot of a chunk of a collective. -/
def Dev.onSlot (q : Key) (k : Nat) (f : Coll → RakeSlot → Dev → Dev) (d : Dev) : Dev :=
  d.onColl q fun c d => (c.slot? k).elim d fun s => f c s d

def Dev.putSlot (c : Coll) (s : RakeSlot) (d : Dev) : Dev :=
  d.putColl { c with slots := c.slots.map fun x => if x.chunk = s.chunk then s else x }

def Coll.mine (c : Coll) (k : Nat) : Role := c.role c.rank k

/-! ## Slots and grants (R342, R343) -/

def RakeSlot.new (p k : Nat) : RakeSlot :=
  { phys := p, chunk := k, st := .idle, has := false, anchor := 0, weight := 0, trueAnchor := 0, got := [], sent := false,
    wait := [], given := [], reforms := 0, poison := none, excess := none, served := false, again := false }

/-- The next chunk to bind. -/
def Coll.pick (c : Coll) : Option (Nat × Coll) :=
  match c.redo with
  | k :: r => some (k, { c with redo := r })
  | [] => if c.next < c.total then some (c.next, { c with next := c.next + 1 }) else none

/-- Binds IDLE slots to the next chunks, and grants each to the Rakes it expects data from. A chunk bound again has left this
member: only its partial is formed anew. -/
def Dev.bind (q : Key) : Nat → Dev → Dev
  | 0, d => d
  | f + 1, d =>
    match d.coll? q.1 q.2 with
    | none => d
    | some c =>
      let next := c.next
      match c.phys.find? (fun p => !c.slots.any fun s => s.phys == p), c.pick with
      | some p, some (k, c) =>
        let r := c.mine k
        let served := decide (k < next)
        let ask := ((r.ups ++ (if served then [] else r.from_.toList)).filter (· != c.rank)).eraseDups
        let d := d.putColl { c with slots := c.slots ++ [{ RakeSlot.new p k with served := served }] }
        Dev.bind q f (d.collSendAll c ask (.grant c.id k c.digest))
      | _, _ => d

/-- The contents of a slot. -/
def Dev.slotBytes (c : Coll) (s : RakeSlot) (d : Dev) : Dev × Option (List Byte) :=
  d.readBytes reqRake (rakeAddr c.iod s.phys) 3072

/-- Writes the contents of a slot. -/
def Dev.slotWrite (c : Coll) (s : RakeSlot) (bs : List Byte) (d : Dev) : Dev :=
  d.writeBytes reqRake (rakeAddr c.iod s.phys) (slice bs 0 3072)

/-! ## Trailers (R360) -/

/-- The CRC over a chunk and the rest of its trailer; the order of the trailer's fields is the model's own. -/
def chunkCrc (id : BitVec 20) (k : Nat) (m : ChunkMsg) : W32 :=
  crc32c (m.data ++ toBytes 4 id.toNat ++ toBytes 4 k ++ [m.anchor, m.pred] ++ toBytes 4 m.weight ++ toBytes 4 m.digest.toNat ++
    toBytes 4 (m.poisoned.getD 0xFFFFFFFF))

/-- A chunk with its trailer. -/
def Coll.seal (c : Coll) (k : Nat) (data : List Byte) (anchor pred weight : Nat) (poison : Option Nat) : ChunkMsg :=
  let m : ChunkMsg := { data := data, anchor := BitVec.ofNat 8 anchor, pred := BitVec.ofNat 8 pred, weight := weight,
                        digest := c.digest, crc := 0, poisoned := poison }
  { m with crc := chunkCrc c.id k m }

/-- Receives a chunk: a digest that differs ends the collective, a failed check asks for the chunk again, at most four
times in a row, and a verified chunk goes on. -/
def Dev.verified (c : Coll) (k rank : Nat) (m : ChunkMsg) (f : Coll → Dev → Dev) (d : Dev) : Dev :=
  let other := c.retries.filter fun x => !(x.1 == k && x.2.1 == rank)
  let n := ((c.retries.find? fun x => x.1 == k && x.2.1 == rank).map fun x => x.2.2).getD 0 + 1
  if m.digest ≠ c.digest then d.collEnd c eCollMismatch rank (BitVec.ofNat 32 k) false
  else if m.crc = chunkCrc c.id k m then f { c with retries := other } d
  else if 5 ≤ n then d.collEnd c eCollCorrupt rank (BitVec.ofNat 32 k) false
  else
    let d := d.modLd c.ld fun l => ({ l with col := { l.col with crcRetry := sat16 l.col.crcRetry } }).setColEvt 3
    (d.putColl { c with retries := (k, rank, n) :: other }).collSend c rank (.again c.id k c.digest)

/-! ## Input (R334, R339, R352, R354) -/

/-- Elements [s, s + n) of segments (address, count) of width w: address and bytes of each piece. -/
def segPieces (w : Nat) : List (Nat × Nat) → Nat → Nat → List (Nat × Nat)
  | [], _, _ => []
  | (a, m) :: r, s, n =>
    if n = 0 then []
    else if m ≤ s then segPieces w r (s - m) n
    else (a + s * w, min n (m - s) * w) :: segPieces w r 0 (n - min n (m - s))

/-- The image of the chunk that begins at element s, in segments of AX96 images. -/
def segImage : List (Nat × Nat) → Nat → Nat
  | [], _ => 0
  | (a, m) :: r, s => if m ≤ s then segImage r (s - m) else a + 3072 * (s / 256)

/-- The bytes of a chunk's elements outside AX96. -/
def Coll.chunkBytes (c : Coll) (k : Nat) : Nat := (c.cut k).2.2 * (if c.kind = 0x66 then 4 else dtypeBytes c.dtype)

/-- The elements of chunk k that this member contributes; the others are absent (R339). -/
def Coll.present (c : Coll) (k : Nat) : Nat :=
  let n := (c.cut k).2.2
  if c.kind ≤ 0x61 ∧ c.segs.isEmpty then min n (c.inCount - c.first k) else n

/-- The input of chunk k that this member contributes. -/
def Coll.inPieces (c : Coll) (k : Nat) : List (Nat × Nat) :=
  let (_, s, n) := c.cut k
  let w := dtypeBytes c.dtype
  let ins := c.segs.map fun g => (g.1, g.2.2)
  let first := c.first k
  if c.dtype = 3 then
    if !c.segs.isEmpty then [(segImage ins first, 3072)]
    else if c.kind ≠ 0x62 ∧ c.inCount ≤ first then [] else [(c.inAddr + 3072 * k, 3072)]
  else if !c.segs.isEmpty then segPieces w ins first n
  else if c.kind = 0x63 then [(c.inAddr + s * w, n * w)]
  else
    if c.present k = 0 then [] else [(c.inAddr + first * w, c.present k * w)]

/-- Reads pieces in order: none when one cannot be read. -/
def Dev.readPieces (ps : List (Nat × Nat)) (d : Dev) : Dev × Option (List Byte) :=
  match d.readAll reqEng ps with
  | (d, true) => (d, some (ps.flatMap fun p => d.bytes p.1 p.2))
  | (d, false) => (d, none)

/-- 256 elements as FP32 codes; missing positions are zero (R97). -/
def wideCodes (t : Nat) (bs : List Byte) : List Nat :=
  (List.range 256).map fun i =>
    if t = 0 then num bs (4 * i) 4 else if t = 1 then num bs (2 * i) 2 * 2 ^ 16 else toF32 (decode .fp16 (num bs (2 * i) 2))

/-- Whether the maxima of a COMBINE have all been delivered here. -/
def Coll.maximaIn (c : Coll) : Bool := (List.range c.base).all fun k => (Map.find c.passed k).isSome

/-- Element e of the summed array of a COMBINE: l' or o' of its vector (R251, R354); none where the maximum is
poisoned. -/
def Coll.combineElem (c : Coll) (bs : List Byte) (u0 e : Nat) : Option Nat :=
  let u := e / (1 + c.hd)
  let i := e % (1 + c.hd)
  let top := Map.get c.passed (u / 256) []
  let at_ := (u - u0) * (8 + 4 * c.hd)
  if top.isEmpty then none
  else
    let x := exp2F (subF32 (num bs at_ 4) (num top (4 * (u % 256)) 4))
    some (mulF32 (num bs (at_ + 4 + 4 * i) 4) x)

/-- The 256 elements that this member adds to a summed chunk, as FP32 codes; none when its input cannot be read. -/
def Dev.sumWords (c : Coll) (k : Nat) (d : Dev) : Dev × Option (List Nat) :=
  if c.kind = 0x66 then
    let (_, s, n) := c.cut k
    let row := 8 + 4 * c.hd
    let u0 := s / (1 + c.hd)
    let u1 := (s + n - 1) / (1 + c.hd)
    match d.readPieces [(c.inAddr + u0 * row, (u1 + 1 - u0) * row)] with
    | (d, none) => (d, none)
    | (d, some bs) =>
      let es := (List.range 256).map fun i => if i < n then c.combineElem bs u0 (s + i) else some 0
      (d, if es.any Option.isNone then none else some (es.map fun e => e.getD 0))
  else
    match d.readPieces (c.inPieces k) with
    | (d, none) => (d, none)
    | (d, some bs) => (d, some (wideCodes c.dtype bs))

/-- The predicted anchor of chunk k in the anchor table. -/
def Coll.tableAnchor (c : Coll) (d : Dev) (k : Nat) : Nat := num (d.bytes (c.anchorAddr + 4 * (k - c.base)) 1) 0 1

/-- The anchor of a summed chunk: agreed, or from the table (R350 to R352). -/
def Coll.anchorOf (c : Coll) (d : Dev) (k : Nat) : Option Nat :=
  (Map.find c.dir k).or (if c.pred ∨ c.dtype = 3 then some (c.tableAnchor d k) else none)

/-- Whether chunk k still runs against its prediction (R103). -/
def Coll.predicted (c : Coll) (k : Nat) : Bool := c.pred && c.dtype != 3 && (Map.find c.dir k).isNone

/-- Elements of AX96 as bytes, and back. -/
def axBytes (vs : List Int) : List Byte := vs.flatMap fun v => toBytes 12 (repr2 96 v)
def axElems (bs : List Byte) : List (BitVec 96) := (List.range 256).map fun i => BitVec.ofNat 96 (num bs (12 * i) 12)

/-- What this member's contributor sends for chunk k: nothing yet, an absent contribution, or a chunk. -/
def Dev.ownChunk (c : Coll) (k : Nat) (d : Dev) : Dev × Option (Option ChunkMsg) :=
  let bad := c.seal k [] 0 ((c.anchorOf d k).getD 0) 0 (some c.rank)
  if c.eng.isSome then (d, some (some (c.seal k (slice c.buf (c.first k) (c.cut k).2.2) 0 0 0 none)))
  else if c.sums k then
    match c.anchorOf d k with
    | none => (d, none)
    | some a =>
      if c.kind = 0x66 ∧ !c.maximaIn then (d, none)
      else if c.kind ≠ 0x66 ∧ (c.inPieces k).isEmpty then (d, some none)
      else if c.dtype = 3 then
        match d.readPieces ((c.anchorAddr + 4 * (k - c.base), 4) :: c.inPieces k) with
        | (d, none) => (d, some (some bad))
        | (d, some bs) => (d, some (some (c.seal k (slice bs 4 (12 * c.present k)) a a c.weight none)))
      else
        match d.sumWords c k with
        | (d, none) => (d, some (some bad))
        | (d, some ws) =>
          let own := chunkAnchor ws
          if c.predicted k then (d, some (some (c.seal k (if a < own then [] else axBytes (ws.map (toAx a))) own a 1 none)))
          else (d, some (some (c.seal k (axBytes (ws.map (toAx a))) a a 1 none)))
  else if c.kind = 0x66 then
    let (_, s, n) := c.cut k
    let row := 8 + 4 * c.hd
    match d.readPieces ((List.range n).map fun i => (c.inAddr + (s + i) * row, 4)) with
    | (d, none) => (d, some (some bad))
    | (d, some bs) => (d, some (some (c.seal k bs 0 0 0 none)))
  else if (c.inPieces k).isEmpty then (d, some none)
  else
    match d.readPieces (c.inPieces k) with
    | (d, none) => (d, some (some bad))
    | (d, some bs) => (d, some (some (c.seal k bs 0 0 0 none)))

/-! ## Anchor passes (R98, R350) -/

/-- The chunks of a group. -/
def Coll.groupOf (c : Coll) (g : Nat) : List Nat :=
  ((List.range 256).map fun i => c.base + 256 * g + i).filter (· < c.total)

/-- The chunk anchors of this member for chunks; absent and poisoned contributions count as zero. -/
def Dev.ownAnchors (c : Coll) : List Nat → Dev → Dev × List Byte
  | [], d => (d, [])
  | k :: ks, d =>
    let (d, ws) := d.sumWords c k
    let (d, r) := Dev.ownAnchors c ks d
    (d, BitVec.ofNat 8 ((ws.map chunkAnchor).getD 0) :: r)

/-- The anchors of a group are agreed: held in the directory and passed on. -/
def Dev.agree (q : Key) (g : Nat) (a : List Byte) (d : Dev) : Dev :=
  d.onColl q fun c d =>
    let dir := (c.groupOf g).foldl (fun m k => Map.set m k (a.getD (k - c.base - 256 * g) 0).toNat) c.dir
    let down := if c.ring then (if c.nextOf c.rank = c.formAt (c.base + 256 * g) then [] else [c.nextOf c.rank]) else c.children c.rank
    (d.putColl { c with dir := dir, agreed := c.agreed + 1, heard := c.heard.filter fun h => h.1 != g }).collSendAll c down
      (.anchors c.id g a c.digest)

/-- Once every expected member has been heard for a group, the largest anchors go on, or are agreed where the chunk's
result is formed. -/
def Dev.anchorCheck (q : Key) (g : Nat) (d : Dev) : Dev :=
  d.onColl q fun c d =>
    let r := c.mine (c.base + 256 * g)
    let hs := c.heard.filter fun h => h.1 == g
    if r.ups.all fun x => hs.any fun h => h.2.1 == x then
      let top := (List.range 256).map fun i => BitVec.ofNat 8 (hs.foldl (fun m h => max m (h.2.2.getD i 0).toNat) 0)
      match r.to_ with
      | none => d.agree q g top
      | some p => d.collSend c p (.anchors c.id g top c.digest)
    else d

/-- Opens groups in order while at most two are in their anchor pass. -/
def Dev.openGroups (q : Key) : Nat → Dev → Dev
  | 0, d => d
  | f + 1, d =>
    match d.coll? q.1 q.2 with
    | none => d
    | some c =>
      if c.anchored && c.maximaIn && c.granted && decide (c.opened < c.agreed + 2) && decide (256 * c.opened < c.total - c.base) then
        let g := c.opened
        let (d, a) := d.ownAnchors c (c.groupOf g)
        let d := d.putColl { c with opened := g + 1, heard := c.heard ++ [(g, c.rank, a)] }
        Dev.openGroups q f (d.anchorCheck q g)
      else d

/-! ## Re-formation and replay (R103, R361) -/

/-- A slot without the sum that it held. -/
def RakeSlot.cleared (s : RakeSlot) (st : SlotState) : RakeSlot :=
  { s with st := st, has := false, got := [], sent := false, weight := 0, trueAnchor := 0, poison := none, excess := none, again := false }

/-- A slot gathers its chunk again from every contributor below; the branches that hold the result already keep it. -/
def Dev.regather (c : Coll) (s : RakeSlot) (d : Dev) : Dev :=
  (d.putSlot c (s.cleared .reforming)).collSendAll c ((c.mine s.chunk).ups.filter (· != c.rank)) (.again c.id s.chunk c.digest)

/-- An uncorrectable codeword was read in a slot. -/
def Dev.reform (q : Key) (k : Nat) (d : Dev) : Dev :=
  d.onSlot q k fun c s d =>
    if 3 ≤ s.reforms then d.collEnd c eCollPoison c.rank (BitVec.ofNat 32 k) false
    else
      let d := d.modLd c.ld fun l => ({ l with col := { l.col with rereduce := sat16 l.col.rereduce } }).setColEvt 2
      let served := s.st == .serving
      let s := { s with reforms := s.reforms + 1 }
      match (c.mine k).from_, served with
      | some p, true =>
        let d := (d.putSlot c { s with st := .reforming, has := false }).collSend c p (.again c.id k c.digest)
        if s.again then d.regather c s else d
      | _, _ => d.regather c s

/-- A predicted chunk is replayed at the true anchor, and the members below are told. A member that awaits the chunk's result
still has its slot, which is cleared; one that passed its partial on for good binds the chunk again. Below a cleared slot of a
tree such members are granted the chunk anew; in a ring the anchors, which come round to the last of them, stand as its grant. -/
def Dev.replay (q : Key) (k a : Nat) (d : Dev) : Dev :=
  d.onColl q fun c d =>
    let r := c.mine k
    let g := (k - c.base) / 256
    let bs := (List.range 256).map fun i => if c.base + 256 * g + i = k then BitVec.ofNat 8 a else 0
    let down := if c.ring then (if c.nextOf c.rank = c.formAt k then [] else [c.nextOf c.rank]) else c.children c.rank
    let d := d.collSendAll c down (.anchors c.id g bs c.digest)
    let c := { c with dir := Map.set c.dir k a }
    if r.to_.isSome && r.from_.isNone && decide (k < c.next) then
      let open_ := (c.slot? k).isSome || c.redo.contains k
      let own := if c.ring ∧ r.to_ = some (c.formAt k) then [(k, c.formAt k)] else []
      (d.putColl { c with slots := c.slots.filter fun s => s.chunk != k, redo := c.redo.erase k ++ [k],
                          ended := if open_ then c.ended else c.ended - 1,
                          grants := own ++ c.grants.filter fun g => g.1 != k }).bind q 256
    else
      let d := d.putColl { c with slots := c.slots.map fun s => if s.chunk = k then s.cleared .gathering else s }
      d.collSendAll c (if c.ring then [] else r.ups.filter fun x => x != c.rank && (c.role x k).from_.isNone) (.grant c.id k c.digest)

/-! ## Delivery (R335, R352, R354, R362) -/

/-- Where the result of chunk k is written. -/
def Coll.outPieces (c : Coll) (k : Nat) : List (Nat × Nat) :=
  let (_, s, n) := c.cut k
  let outs := c.segs.map fun g => (g.2.1, g.2.2)
  let first := c.first k
  let w := if c.dtype = 3 then 4 else dtypeBytes c.dtype
  if c.outAx then [(if c.segs.isEmpty then c.outAddr + 3072 * k else segImage outs first, 3072)]
  else if !c.segs.isEmpty then segPieces w outs first n
  else [(c.outAddr + (if c.kind = 0x62 then s else first) * w, n * w)]

/-- Writes bytes over pieces, poisoned where `bad`. -/
def Dev.writePieces (bad : Bool) : List (Nat × Nat) → List Byte → Dev → Dev
  | [], _, d => d
  | (a, n) :: ps, bs, d =>
    let x := slice bs 0 n
    Dev.writePieces bad ps (bs.drop n) (if bad then d.writePoison reqRake a x else d.writeBytes reqRake a x)

/-- Result format of a `dtype` (R352). -/
def resultFmt (t : Nat) : Fmt := if t = 1 then .bf16 else if t = 2 then .fp16 else .fp32

/-- The rows of a COMBINE that chunk k completes (R251, R354). -/
def Dev.combineRows (c : Coll) (k : Nat) (d : Dev) : Dev :=
  let (_, s, n) := c.cut k
  let row := 1 + c.hd
  let us := (List.range ((s + n - 1) / row + 1 - s / row)).map fun i => s / row + i
  us.foldl (fun d u =>
    let ks := (List.range ((u * row + row - 1) / 256 + 1 - u * row / 256)).map fun i => c.base + u * row / 256 + i
    if ks.all fun x => (Map.find c.passed x).isSome then
      let el := fun i => let e := u * row + i; num (Map.get c.passed (c.base + e / 256) []) (4 * (e % 256)) 4
      let l := el 0
      let y := (List.range c.hd).flatMap fun i => toBytes 4 (if l = 0 then 0 else toF32 ((f32 (el (1 + i))).div (f32 l)))
      d.writePieces (ks.any fun x => (Map.get c.passed x []).isEmpty) [(c.outAddr + u * 4 * c.hd, 4 * c.hd)] y
    else d) d

/-- Records the anchor and the summed weight of a chunk for the next step (R335): the true anchor, but for a result written in
AX96 the anchor of its image (R101, R352), which differs from it where a prediction held with a true anchor below it. The
weight of a chunk without any contribution has no stated value. DESIGN CHOICE: log entry 115. -/
def Dev.recordAnchor (c : Coll) (k : Nat) (s : RakeSlot) (d : Dev) : Dev :=
  if c.sums k && c.anchorAddr != 0 then
    let (d, w) := if s.weight = 0 then d.draw else (d, s.weight - 1)
    d.writeBytes reqRake (c.anchorAddr + 4 * (k - c.base)) (toBytes 4 ((if c.outAx then s.anchor else s.trueAnchor) + 2 ^ 8 * (w % 2 ^ 24)))
  else d

/-- Writes a verified chunk at this member. -/
def Dev.deliver (c : Coll) (k : Nat) (s : RakeSlot) (bs : List Byte) (d : Dev) : Dev :=
  let bad := s.poison.isSome
  let c := if bad ∧ (c.badCode = 0 ∨ k < c.badChunk.toNat) then
      { c with badCode := ePoison, badWho := s.poison.getD 0, badChunk := BitVec.ofNat 32 k } else c
  let d := d.putColl c
  let n := (c.cut k).2.2
  match c.eng with
  | some u => { d with upds := d.upds.map fun (x : UpdCmd) => if x.id = u then { x with colGot := Map.set x.colGot k bs } else x }
  | none =>
    if c.kind = 0x66 then
      let vals := if bad then [] else if c.sums k then
          (axElems bs).flatMap fun v => toBytes 4 (fromAx .fp32 s.anchor v)
        else bs
      let c := { c with passed := Map.set c.passed k vals }
      let d := d.putColl c
      if c.sums k then (d.combineRows c k).recordAnchor c k s else d
    else if c.sums k then
      let f := resultFmt c.dtype
      let out := if c.outAx then bs
        else ((axElems bs).take n).flatMap fun v => toBytes (f.width / 8) (fromAx f s.anchor v)
      (d.writePieces bad (c.outPieces k) out).recordAnchor c k s
    else d.writePieces bad (c.outPieces k) bs

/-! ## The fence (R345) -/

/-- Whether every child of a BARRIER's member has been heard. -/
def Coll.barrierIn (c : Coll) : Bool :=
  c.kind != 0x67 || (c.rank :: c.children c.rank).all fun r => c.heard.any fun h => h.2.1 == r

/-- Whether everything that a member serves has been acknowledged. -/
def Coll.settled (c : Coll) : Bool := c.slots.isEmpty && c.redo.isEmpty && c.ended == c.total && c.barrierIn

/-- A member that has received the fence passes it on and ends once it is settled. -/
def Dev.fenceCheck (q : Key) (d : Dev) : Dev :=
  d.onColl q fun c d =>
    if c.fence && c.settled then (d.collSendAll c c.fenceTo (.fence c.id c.digest)).collEnd c c.badCode c.badWho c.badChunk false else d

/-- The retention of a chunk ends: its slot is IDLE again and takes the next chunk, or the same one where its partial has been
asked for again (R361). -/
def Dev.slotEnd (q : Key) (k : Nat) (d : Dev) : Dev :=
  (d.onSlot q k fun c s d =>
    (d.putColl { c with slots := c.slots.filter fun s => s.chunk != k, ended := if s.again then c.ended else c.ended + 1,
                        redo := if s.again then c.redo ++ [k] else c.redo,
                        grants := c.grants.filter fun g => g.1 != k || (s.again && some g.2 == (c.mine k).to_) }).bind q 256).fenceCheck q

/-! ## The flow of a chunk (R343, R344) -/

/-- The message that carries a slot's result. -/
def Coll.resultMsg (c : Coll) (s : RakeSlot) (bs : List Byte) : ChunkMsg :=
  c.seal s.chunk (if c.sums s.chunk then bs else bs.take (c.chunkBytes s.chunk)) s.anchor s.trueAnchor s.weight s.poison

/-- Sends a SERVING slot's result to the branches that have granted it (R342), each after a read of the slot; at a failing read
the remaining branches receive a poison notice. -/
def Dev.sendDown (q : Key) (k : Nat) : List Nat → Dev → Dev
  | [], d => d
  | r :: rs, d =>
    match d.coll? q.1 q.2 with
    | none => d
    | some c =>
      match c.slot? k with
      | none => d
      | some s =>
        if s.st = .serving ∧ !s.given.contains r ∧ s.wait.contains r ∧ c.grants.contains (k, r) then
          match d.slotBytes c s with
          | (d, some bs) =>
            Dev.sendDown q k rs ((d.putSlot c { s with given := s.given ++ [r] }).collSend c r (.result c.id k (c.resultMsg s bs)))
          | (d, none) =>
            (d.collSendAll c ((r :: rs).filter fun x => s.wait.contains x && !s.given.contains x) (.poisonNotice c.id k c.digest)).reform q k
        else Dev.sendDown q k rs d

/-- A slot enters SERVING with its result. -/
def Dev.serve (c : Coll) (s : RakeSlot) (d : Dev) : Dev :=
  let r := c.mine s.chunk
  let wait := if s.wait.isEmpty then r.downs ++ (if r.here then [c.rank] else []) else s.wait
  (d.putSlot c { s with st := .serving, has := true, sent := true, wait := wait }).sendDown (c.ld, c.id) s.chunk r.downs

/-- A complete partial is sent on against its grant. -/
def Dev.trySend (q : Key) (k : Nat) (d : Dev) : Dev :=
  d.onSlot q k fun c s d =>
    let r := c.mine k
    match r.to_ with
    | none => d
    | some p =>
      if s.has && !s.sent && r.ups.all s.got.contains && c.grants.contains (k, p) then
        match d.slotBytes c s with
        | (d, none) => d.reform q k
        | (d, some bs) =>
          let a := (c.anchorOf d k).getD s.anchor
          let data := if s.poison.isSome || (c.predicted k && decide (a < s.trueAnchor)) || (c.sums k && s.weight == 0) then []
            else if c.sums k then bs else bs.take (c.chunkBytes k)
          let m := c.seal k data (if c.predicted k then s.trueAnchor else a) a s.weight s.poison
          (d.putSlot c { s with st := .passed, sent := true }).collSend c p (.contribution c.id k m)
      else d

/-- Every expected contribution is in: the result is formed here, replayed, or the partial waits for its grant. -/
def Dev.complete (q : Key) (k : Nat) (d : Dev) : Dev :=
  d.onSlot q k fun c s d =>
    let r := c.mine k
    if r.ups.all s.got.contains then
      let a := (c.anchorOf d k).getD s.anchor
      let above := decide (a < s.trueAnchor)
      let d := if s.has then d else d.slotWrite c s []
      let s := { s with has := true }
      if c.predicted k && !above && s.excess.isSome then d.collEnd c eAx96Headroom (s.excess.getD 0) (BitVec.ofNat 32 k) false
      else if r.to_.isSome then (d.putSlot c s).trySend q k
      else if c.predicted k && above then (d.putSlot c s).replay q k s.trueAnchor
      else if c.sums k then d.serve c { s with anchor := a, trueAnchor := if c.predicted k then s.trueAnchor else a }
      else d.serve c s
    else d

/-- Element-wise maximum or minimum of two chunks in their `dtype` (R149, R353). -/
def pickChunk (max_ : Bool) (t n : Nat) (x y : List Byte) : List Byte :=
  let w := dtypeBytes t
  (List.range n).flatMap fun i =>
    let a := num x (w * i) w
    let b := num y (w * i) w
    if t = 4 then toBytes 4 (if (sgn 32 a < sgn 32 b) = max_ then b else a)
    else
      let f := resultFmt t
      toBytes w (encode f (if max_ then pickMax (decode f a) (decode f b) else pickMin (decode f a) (decode f b)))

/-- Adds a contribution, absent or not, to the slot of its chunk (R99, R100, R339, R353, R362). A partial of weight 0, to which
nothing contributed, is absent from a sum; in a maximum or minimum an absent element is zero. Every chunk carries the anchor
or the prediction that it was formed against, and one other than this member's own ends the collective (R351, R352). -/
def Dev.slotAdd (q : Key) (k rank : Nat) (m : Option ChunkMsg) (d : Dev) : Dev :=
  d.onSlot q k fun c s d =>
    let st := if s.st = .reforming then SlotState.reforming else .gathering
    let s := { s with st := st, got := s.got ++ [rank] }
    match (if c.extreme k then m.or (some (c.seal k [] 0 0 0 none)) else m) with
    | none => (d.putSlot c s).complete q k
    | some m =>
      let s := { s with poison := s.poison.or m.poisoned, trueAnchor := max s.trueAnchor m.anchor.toNat }
      let key := if c.predicted k ∨ m.poisoned.isSome then m.pred.toNat else m.anchor.toNat
      let own := (c.anchorOf d k).or (if s.has then some s.anchor else none)
      if c.sums k && own.any (· != key) then d.collEnd c eCollMismatch rank (BitVec.ofNat 32 k) false
      else if m.poisoned.isSome ∨ (c.sums k ∧ m.weight = 0) then (d.putSlot c s).complete q k
      else if c.sums k then
        let vs := axElems m.data
        let inRange := vs.all (fun v => axInRange v m.weight) && decide (s.weight + m.weight ≤ 2 ^ 24)
        if !c.predicted k && !inRange then d.collEnd c eAx96Headroom rank (BitVec.ofNat 32 k) false
        else
          match (if s.has then d.slotBytes c s else (d, some [])) with
          | (d, none) => (d.putSlot c { s with got := s.got.dropLast }).reform q k
          | (d, some old) =>
            let sum := ((axElems old).zip vs).flatMap fun p => toBytes 12 (p.1 + p.2).toNat
            let s := { s with has := true, anchor := key, weight := s.weight + m.weight,
                              excess := s.excess.or (if inRange then none else some rank) }
            ((d.slotWrite c s sum).putSlot c s).complete q k
      else
        match (if s.has then d.slotBytes c s else (d, some m.data)) with
        | (d, none) => (d.putSlot c { s with got := s.got.dropLast }).reform q k
        | (d, some old) =>
          let data := if c.extreme k then
              pickChunk (c.kind == 0x66 || c.redOp == 1) (if c.kind = 0x66 then 0 else c.dtype) (c.cut k).2.2 old m.data
            else m.data
          let s := { s with has := true }
          ((d.slotWrite c s data).putSlot c s).complete q k

/-- Whether a slot still takes contributions. -/
def RakeSlot.open_ (s : RakeSlot) : Bool := s.st == .idle || s.st == .gathering || s.st == .reforming

/-! ## ALL_TO_ALL and BARRIER -/

/-- Whether every piece of an ALL_TO_ALL has been received and acknowledged. -/
def Coll.exchanged (c : Coll) : Bool :=
  c.unacked.isEmpty && (List.range c.nmem).all fun r =>
    r == c.rank || (List.range (a2aPieces (c.recvs.getD r (0, 0)).1).length).all fun i => c.got.contains (i, r)

def Dev.exchangeCheck (q : Key) (d : Dev) : Dev :=
  d.onColl q fun c d => if c.exchanged then d.collEnd c c.badCode c.badWho c.badChunk false else d

/-- Records a poisoned piece. -/
def Coll.poisonedBy (c : Coll) (who k : Nat) : Coll :=
  if c.badCode = 0 then { c with badCode := ePoison, badWho := who, badChunk := BitVec.ofNat 32 k } else c

/-- Sends, or copies to this member itself, the pieces of a shard. -/
def Dev.a2aSend (q : Key) (r : Nat) : List (Nat × Nat × Nat) → Dev → Dev
  | [], d => d
  | (i, off, n) :: ps, d =>
    match d.coll? q.1 q.2 with
    | none => d
    | some c =>
      let (len, base) := c.sends.getD r (0, 0)
      let (d, bs) := if c.turn then (d, some (slice c.buf (base + off) n)) else d.readPieces [(c.inAddr + base + off, n)]
      let bad := bs.isNone
      if r = c.rank then
        let c := if bad then c.poisonedBy r i else c
        Dev.a2aSend q r ps
          ((d.putColl c).writePieces bad [(c.outAddr + (c.recvs.getD r (0, 0)).2 + off, n)] (bs.getD (zeros n)))
      else
        let m := c.seal i (bs.getD (zeros n)) 0 0 len (if bad then some c.rank else none)
        Dev.a2aSend q r ps ((d.putColl { c with unacked := c.unacked ++ [(i, r)] }).collSend c r (.result c.id i m))

/-- The pieces of a shard, numbered. -/
def numbered (ps : List (Nat × Nat)) : List (Nat × Nat × Nat) := (List.range ps.length).map fun i => (i, ps.getD i (0, 0))

/-- The upward half of a BARRIER: once this member and its children are there, its parent is told. -/
def Dev.barrierCheck (q : Key) (d : Dev) : Dev :=
  d.onColl q fun c d =>
    match c.parent c.rank with
    | some p => if c.barrierIn then d.collSend c p (.contribution c.id 0 (c.seal 0 [] 0 0 0 none)) else d
    | none => d

/-- What a collective does once it is accepted: the kinds without Rake slots start at once. -/
def Dev.collStart (c : Coll) (d : Dev) : Dev :=
  let q := (c.ld, c.id)
  if c.kind = 0x67 then (d.putColl { c with heard := [(0, c.rank, [])] }).barrierCheck q
  else if c.kind = 0x65 then
    if (c.sends.getD c.rank (0, 0)).1 ≠ (c.recvs.getD c.rank (0, 0)).1 then d.collEnd c eCollMismatch c.rank noChunk false
    else
      ((List.range c.nmem).foldl (fun d r => d.a2aSend q r (numbered (a2aPieces (c.sends.getD r (0, 0)).1))) d).exchangeCheck q
  else d

/-- A command that issues a collective of a kind. -/
def Dev.collective (kind : Nat) (now : W64) (iss : Issuer) (ws : List W32) : Dev → Dev :=
  guarded (wfld ws 0 7 0 == kind) (Dev.collAccept iss ws now Dev.collStart)

/-! ## Events -/

/-- RAKE_RESERVATION_GRANT (R340). -/
def Dev.rakeReserve (now : W64) (ld : Nat) (id : BitVec 20) (d : Dev) : Dev :=
  d.onColl (ld, id) fun c d =>
    let w := windowOf c.words
    let rival := fun (x : Coll) => x.ld == ld && x.iod == c.iod && !x.granted && d.domFits x
    let ahead := (d.colls.takeWhile fun x => !(x.ld == ld && x.id == id)).any fun x => rival x && x.crop == c.crop
    let main := c.crop && d.colls.any fun x => rival x && !x.crop
    if !c.granted && !ahead && !main && d.domFits c && decide (d.rakeUsed ld c.iod + w ≤ (d.ld ld).rakeQuota c.iod) then
      let held := d.rakeHeld c.iod
      let phys := ((List.range rakeSlots).filter fun p => !held.contains p).take w
      ((d.putColl { c with granted := true, phys := phys, lastMove := now }).bind (ld, id) 256).openGroups (ld, id) 2
    else d

/-- A chunk is asked for again by the member that its partial goes to (R360, R361): a retained partial is sent again, a slot
that holds the result serves it first, and any other gathers again. -/
def Dev.askedAgain (q : Key) (c : Coll) (s : RakeSlot) (d : Dev) : Dev :=
  if s.st = .serving then d.putSlot c { s with again := true }
  else if s.has ∧ s.st = .passed then (d.putSlot c { s with sent := false }).trySend q s.chunk
  else d.regather c s

/-- A grant of, or a re-request for, a chunk from another member's Rake. -/
def Dev.grantFrom (q : Key) (c : Coll) (k rank : Nat) (d : Dev) : Dev :=
  let r := c.mine k
  let fresh := if c.grants.contains (k, rank) then c else { c with grants := (k, rank) :: c.grants }
  match c.slot? k with
  | none =>
    if r.to_ = some rank ∧ k < c.next ∧ !c.redo.contains k then
      (d.putColl { fresh with redo := c.redo ++ [k], ended := c.ended - 1 }).bind q 256
    else d.putColl fresh
  | some s =>
    if s.given.contains rank then (d.putSlot c { s with given := s.given.erase rank }).sendDown q k [rank]
    else if !c.grants.contains (k, rank) then ((d.putColl fresh).trySend q k).sendDown q k [rank]
    else if r.to_ = some rank ∧ s.sent then d.askedAgain q c s
    else d

/-- RAKE_GRANT (R342), and a re-request under R360 or R361; a piece of an ALL_TO_ALL or the message of a BARRIER is sent again. -/
def Dev.rakeGrant (now : W64) (q : Key) (k : Nat) (x : Sender) (d : Dev) : Dev :=
  d.onLive now q fun c d => d.agreed c x fun d =>
    if c.kind = 0x65 then
      if c.unacked.contains (k, x.rank) then
        (d.putColl { c with unacked := c.unacked.erase (k, x.rank) }).a2aSend q x.rank
          [(k, (a2aPieces (c.sends.getD x.rank (0, 0)).1).getD k (0, 0))]
      else d
    else if c.kind = 0x67 then (if c.parent c.rank = some x.rank then d.barrierCheck q else d)
    else if x.rank ≠ c.rank then d.grantFrom q c k x.rank
    else
      match c.slot? k with
      | none => d
      | some s =>
        if (c.mine k).ups.contains x.rank && !s.got.contains x.rank && s.open_ then
          match d.ownChunk c k with
          | (d, none) => d
          | (d, some m) => d.slotAdd q k x.rank m
        else d

/-- ANCHOR_ARRIVE (R350): anchors of a group on their way to be agreed, agreed anchors, or the true anchor of a chunk
to be replayed (R103). -/
def Dev.anchorArrive (now : W64) (q : Key) (rank g : Nat) (a : List Byte) (digest : W32) (d : Dev) : Dev :=
  d.onLive now q fun c d =>
    let r := c.mine (c.base + 256 * g)
    if digest ≠ c.digest then d.collEnd c eCollMismatch rank noChunk false
    else if c.pred then
      ((c.groupOf g).filter fun k => let x := a.getD (k - c.base - 256 * g) 0; x != 0 && Map.find c.dir k != some x.toNat).foldl
        (fun d k => d.replay q k (a.getD (k - c.base - 256 * g) 0).toNat) d
    else if !c.anchored || (c.groupOf g).isEmpty then d
    else if r.ups.contains rank && !c.heard.any (fun h => h.1 == g && h.2.1 == rank) then
      (((d.putColl { c with heard := c.heard ++ [(g, rank, a)] }).anchorCheck q g)).openGroups q 2
    else if (if c.ring then some (c.prevOf c.rank) else c.parent c.rank) = some rank ∧
        (Map.find c.dir (c.base + 256 * g)).isNone then
      (d.agree q g a).openGroups q 2
    else d

/-- CONTRIBUTION_ARRIVE (R343, R360). -/
def Dev.contributionArrive (now : W64) (q : Key) (k rank : Nat) (m : ChunkMsg) (d : Dev) : Dev :=
  d.onLive now q fun c d =>
    if c.kind = 0x67 then
      if (c.children c.rank).contains rank && !c.heard.any (fun h => h.2.1 == rank) then
        d.verified c 0 rank m fun c d => (d.putColl { c with heard := c.heard ++ [(0, rank, [])] }).barrierCheck q
      else d
    else
      match c.slot? k with
      | none => d
      | some s =>
        if (c.mine k).ups.contains rank && rank != c.rank && !s.got.contains rank && s.open_ then
          d.verified c k rank m fun c d => ((d.putColl c).collSend c rank (.ack c.id k c.digest)).slotAdd q k rank (some m)
        else d

/-- RESULT_CHUNK_ARRIVE (R344, R360), and a piece of an ALL_TO_ALL. -/
def Dev.resultArrive (now : W64) (q : Key) (k rank : Nat) (m : ChunkMsg) (d : Dev) : Dev :=
  d.onLive now q fun c d =>
    if c.kind = 0x65 then
      let (len, off) := c.recvs.getD rank (0, 0)
      if c.nmem ≤ rank ∨ rank = c.rank then d
      else
        d.verified c k rank m fun c d =>
          let (at_, n) := (a2aPieces len).getD k (0, 0)
          if m.weight ≠ len ∨ (a2aPieces len).length ≤ k ∨ m.data.length ≠ n then
            d.collEnd c eCollMismatch rank (BitVec.ofNat 32 k) false
          else if c.got.contains (k, rank) then (d.putColl c).collSend c rank (.ack c.id k c.digest)
          else
            let c := if m.poisoned.isSome then c.poisonedBy rank k else c
            let d := if c.turn then d else d.writePieces m.poisoned.isSome [(c.outAddr + off + at_, n)] m.data
            let c := if c.turn then { c with passed := Map.set c.passed (pieceKey k rank) m.data } else c
            ((d.putColl { c with got := c.got ++ [(k, rank)] }).collSend c rank (.ack c.id k c.digest)).exchangeCheck q
    else
      match c.slot? k with
      | none => d
      | some s =>
        let r := c.mine k
        let ready := s.st == .passed || (s.st == .idle && r.ups.isEmpty) || s.st == .reforming
        if r.from_ = some rank ∧ ready then
          d.verified c k rank m fun c d =>
            let s := { s with anchor := m.anchor.toNat, trueAnchor := m.pred.toNat, weight := m.weight, poison := m.poisoned,
                              again := s.again || (s.st == .reforming && r.to_.isSome && !s.sent) }
            (d.slotWrite c s m.data).serve c s
        else d

/-- A branch has acknowledged: when it is the last, the slot acknowledges to its own source and its retention ends. -/
def Dev.branchDone (c : Coll) (s : RakeSlot) (rank : Nat) (d : Dev) : Dev :=
  let q := (c.ld, c.id)
  let wait := s.wait.erase rank
  let d := d.putSlot c { s with wait := wait }
  if wait.isEmpty then
    (match (c.mine s.chunk).from_ with
      | some p => d.collSend c p (.ack c.id s.chunk c.digest)
      | none => d).slotEnd q s.chunk
  else d

/-- CHUNK_ACK (R344). Local delivery writes the chunk as it acknowledges; at a failing read the branches that have no copy
receive a poison notice (R361). -/
def Dev.chunkAck (now : W64) (q : Key) (k : Nat) (x : Sender) (d : Dev) : Dev :=
  d.onLive now q fun c d => d.agreed c x fun d =>
    if c.kind = 0x65 then
      if c.unacked.contains (k, x.rank) then (d.putColl { c with unacked := c.unacked.erase (k, x.rank) }).exchangeCheck q else d
    else
      match c.slot? k with
      | none => d
      | some s =>
        let r := c.mine k
        if s.st = .passed ∧ r.to_ = some x.rank ∧ s.has then
          if r.from_.isNone ∨ s.served then d.slotEnd q k else d.putSlot c { s with has := false }
        else if x.rank ≠ c.rank then
          if (s.st = .serving ∨ s.st = .reforming) ∧ s.wait.contains x.rank ∧ s.given.contains x.rank then d.branchDone c s x.rank else d
        else if s.st = .serving ∧ s.wait.contains x.rank then
          match d.slotBytes c s with
          | (d, none) =>
            (d.collSendAll c (r.downs.filter fun y => s.wait.contains y && !s.given.contains y) (.poisonNotice c.id k c.digest)).reform q k
          | (d, some bs) =>
            let d := d.deliver c k s bs
            ((d.onColl q fun c d => d.branchDone c s x.rank).openGroups q 2)
        else d

/-- COMPLETION_FENCE (R345): at the member that starts it, once everything there has been acknowledged. -/
def Dev.completionFence (now : W64) (ld : Nat) (h : CollHead) (d : Dev) : Dev :=
  d.onLive now (ld, h.id) fun c d => d.agreed c h.sender fun d =>
    if c.kind = 0x65 ∨ (c.rank = c.starter ∧ !c.settled) then d
    else (d.putColl { c with fence := true }).fenceCheck (ld, h.id)

/-- RAKE_SLOT_ZERO_FILL_COMPLETE (R345). -/
def Dev.rakeZeroed (iod ld : Nat) (id : BitVec 20) (d : Dev) : Dev :=
  let p := fun (z : Zeroing) => z.iod == iod && z.ld == ld && z.coll == id
  match d.zeroing.find? p with
  | none => d
  | some z => z.phys.foldl (fun d x => d.zeroRange reqRake (rakeAddr iod x) 3072) { d with zeroing := d.zeroing.eraseP p }

def execAllReduce (iss : Issuer) (body : List W32) : State → Result :=
  onMemAt fun now => Dev.collective 0x60 now iss body
def execReduce (iss : Issuer) (body : List W32) : State → Result :=
  onMemAt fun now => Dev.collective 0x61 now iss body
def execReduceScatter (iss : Issuer) (body : List W32) : State → Result :=
  onMemAt fun now => Dev.collective 0x62 now iss body
def execAllGather (iss : Issuer) (body : List W32) : State → Result :=
  onMemAt fun now => Dev.collective 0x63 now iss body
def execBroadcast (iss : Issuer) (body : List W32) : State → Result :=
  onMemAt fun now => Dev.collective 0x64 now iss body
def execAllToAll (iss : Issuer) (body : List W32) : State → Result :=
  onMemAt fun now => Dev.collective 0x65 now iss body
def execCombine (iss : Issuer) (body : List W32) : State → Result :=
  onMemAt fun now => Dev.collective 0x66 now iss body
def execBarrier (iss : Issuer) (body : List W32) : State → Result :=
  onMemAt fun now => Dev.collective 0x67 now iss body
def execRakeReservationGrant (ld : Nat) (coll : BitVec 20) : State → Result := onMemAt fun now => Dev.rakeReserve now ld coll
def execRakeGrant (ld : Nat) (coll : BitVec 20) (chunk : Nat) (sender : Sender) : State → Result :=
  onMemAt fun now => Dev.rakeGrant now (ld, coll) chunk sender
def execAnchorArrive (ld : Nat) (coll : BitVec 20) (rank group : Nat) (anchors : List Byte) (digest : W32) : State → Result :=
  onMemAt fun now => Dev.anchorArrive now (ld, coll) rank group anchors digest
def execContributionArrive (ld : Nat) (coll : BitVec 20) (chunk rank : Nat) (msg : ChunkMsg) : State → Result :=
  onMemAt fun now => Dev.contributionArrive now (ld, coll) chunk rank msg
def execResultChunkArrive (ld : Nat) (coll : BitVec 20) (chunk rank : Nat) (msg : ChunkMsg) : State → Result :=
  onMemAt fun now => Dev.resultArrive now (ld, coll) chunk rank msg
def execChunkAck (ld : Nat) (coll : BitVec 20) (chunk : Nat) (sender : Sender) : State → Result :=
  onMemAt fun now => Dev.chunkAck now (ld, coll) chunk sender
def execCompletionFence (ld : Nat) (coll : CollHead) : State → Result := onMemAt fun now => Dev.completionFence now ld coll
def execRakeSlotZeroFillComplete (iod ld : Nat) (coll : BitVec 20) : State → Result := onDev (Dev.rakeZeroed iod ld coll)

end Sys2Proof.Machine
end

