-- ==== Sys2Proof/Machine/Swap.lean ====
section
/-! DEFINITION. The swap wave (R286 to R293): replacing a model's layers one at a time under running requests. -/

namespace Sys2Proof.Machine

/-! ## The old set -/

/-- Slots of an LD with a step in flight under the present generation (R287). -/
def Dev.inFlight (d : Dev) (ld : Nat) : List Nat :=
  (d.reqs.filter fun e => e.2.ld == ld && e.2.stamp == some (d.ld ld).wave.gen).map Prod.fst

/-- The bitmap of a set of slots (R287). -/
def slotBitmap (set : List Nat) : List Byte :=
  (List.range 32768).map fun i => BitVec.ofNat 8 ((List.range 8).foldl (fun a b => if set.contains (8 * i + b) then a + 2 ^ b else a) 0)

/-- The slots that a bitmap names. -/
def bitmapSlots (bs : List Byte) : List Nat :=
  (List.range bs.length).flatMap fun i => (bitsOf 8 (bs.getD i 0).toNat).map fun b => 8 * i + b

/-- Where a member keeps the bitmap: the swap-wave tables of its lowest die. -/
def Dev.waveTable (d : Dev) (ld : Nat) : Nat := dieSramAddr (d.firstDie ld) waveTableOff

/-! ## SWAP (R289) -/

/-- A 32-byte entry of a SWAP list: layer in word 0, source address in words 1 and 2, source length in words 3
and 4, destination address in words 5 and 6; the places of these fields are the model's. -/
def layerEntry (ws : List W32) : LayerEntry :=
  { layer := (word ws 0).toNat, src := addr44 ws 1, len := word2 ws 3, dst := addr44 ws 5 }

def Dev.modWave (ld : Nat) (f : Wave → Wave) (d : Dev) : Dev := d.modLd ld fun l => { l with wave := f l.wave }

/-- Whether an LD is the origin of its group. -/
def Dev.isOrigin (d : Dev) (ld : Nat) : Bool := d.originDid ld == some (d.did ld)

/-- What the origin does at the handshake of a SWAP (R287). -/
def Dev.waveStart (ld : Nat) (d : Dev) : Dev :=
  let w := (d.ld ld).wave
  let old := d.inFlight ld
  let bits := slotBitmap old
  let n : W32 := BitVec.ofNat 32 old.length
  let crc := crc32c bits
  let d := d.modWave ld fun w => { w with oldSet := old, noticed := true }
  let d := d.writeBytes reqEng (d.waveTable ld) bits
  (d.groupOthers ld).foldl (fun d m =>
    (d.request ld m .other (.waveBitmap bits)).tell ld m (.waveNotice w.newGen n crc)) d

/-- The layers of a wave that this member still has to swap. -/
def Wave.todo (w : Wave) : List LayerEntry := w.layers.filter fun e => w.layerHolds e.layer != w.newGen

/-- The wave is complete on the whole group at its origin (R288): the generation advances. -/
def Dev.waveClose (ld : Nat) (d : Dev) : Dev :=
  d.modWave ld fun w => { w with gen := w.newGen, active := false, stalled := false, swapHeld := false, noticed := false,
                                 layers := [], oldSet := [], reports := [], layerGen := [], recompute := false }

/-- Completes the wave at the origin once every member has reported. -/
def Dev.waveCheck (ld : Nat) (d : Dev) : Dev :=
  let w := (d.ld ld).wave
  if w.active ∧ w.swapHeld ∧ w.todo.isEmpty ∧ w.copying.isNone ∧ (d.groupOthers ld).all (fun m => w.reports.contains m) then
    d.waveClose ld
  else d

/-- The last layer of this member has been swapped (R288). -/
def Dev.waveDone (ld : Nat) (d : Dev) : Dev :=
  let w := (d.ld ld).wave
  if w.todo.isEmpty ∧ w.swapHeld ∧ w.noticed ∧ w.tkt.isSome then
    let d := d.modLd ld (Ld.setReqEvt 2)
    let d := match w.tkt with | some t => d.finish t 0 false (BitVec.ofNat 32 w.newGen.toNat) | none => d
    let d := d.modWave ld fun w => { w with tkt := none }
    if d.isOrigin ld then d.waveCheck ld
    else
      let d := match d.originDid ld with | some o => d.tell ld o (.waveDone w.newGen) | none => d
      d.waveClose ld
  else d

/-- A wave stops (R291): its SWAP ends with a code, the layers swapped stay, and the steps of the new generation
wait. -/
def Dev.waveStop (ld : Nat) (c : Code) (aborted : Bool) (d : Dev) : Dev :=
  let w := (d.ld ld).wave
  if w.active ∧ !w.stalled then
    let d := (d.modWave ld fun w => { w with stalled := true, swapHeld := false, noticed := false, copying := none, tkt := none }).modLd
      ld (Ld.setReqEvt 3)
    match w.tkt with | some t => d.finish t c aborted 0 | none => d
  else d

/-- The requests in flight that hold KV of another generation than a wave's are to have it recomputed before their first step
under the new one (R293). -/
def Dev.markRedo (ld : Nat) (d : Dev) : Dev :=
  let w := (d.ld ld).wave
  if w.recompute then
    { d with reqs := d.reqs.map fun e =>
        let r := e.2
        let made := match r.stamp with | some g => g != w.newGen | none => (r.steps != 0 || r.mode == 2) && r.genLast != w.newGen
        if r.st != .free && r.ld == ld && made && r.oldPages.isEmpty then (e.1, { r with redo := true }) else e }
  else d

/-- SWAP. -/
def Dev.swap (iss : Issuer) (body : List W32) (d : Dev) : Dev :=
  let t := ticketOf iss body
  let ld := d.issLd iss
  let dom := d.issDom iss
  let gen := BitVec.ofNat 16 (wfld body 1 15 0)
  let n := wfld body 1 28 18
  let list := addrAt body 2
  let w := (d.ld ld).wave
  let kind := bit (word body 1).toNat 17
  let bus := fun (wr : Bool) (a len : Nat) => (d.busCode (.eng ld dom) wr a len).isSome
  match firstFail [(wfld body 0 15 8 ≠ 0 ∨ wfld body 1 31 29 ≠ 0 ∨ addrHigh body 2 ∨ !zeroWords body 4 15, eReservedNonzero),
      (list % 8 ≠ 0, eAlign), (n = 0 ∨ 1024 < n, eRange), (bus false list (32 * n), ePerm)] with
  | some c => d.reject t c
  | none =>
    match d.readBytes reqEng list (32 * n) with
    | (d, none) => d.reject t ePoison
    | (d, some bs) =>
      let es := (List.range n).map fun i => layerEntry (bytesToWords 8 (slice bs (32 * i) 32))
      let e := firstFail [(!w.active && gen != w.gen + 1, eRange),
        (!(es.map LayerEntry.layer).all (fun k => (d.localLayers ld).contains k) ||
          (es.map LayerEntry.layer).eraseDups.length != n || n != (d.localLayers ld).length, eRange),
        (es.any fun x => bus false x.src x.len || (!kind && bus true x.dst x.len), ePerm),
        ((d.genTrl ld).isNone, eState), (w.active ∧ gen ≠ w.newGen, eState), (w.swapHeld, eState),
        ((d.ld ld).trl.turn.st ≠ .idle, eState), (kind && (d.dom dom).dfsKey.isNone, eDomainKey)]
      d.command t e fun d =>
        let d := d.modWave ld fun w =>
          { w with newGen := gen, active := true, stalled := false, swapHeld := true, recompute := bit (word body 1).toNat 16,
                   srcKind := kind, layers := es, swapped := if w.active then w.swapped else 0, tkt := some t, dom := dom }
        let d := d.markRedo ld
        let d := if d.isOrigin ld then d.waveStart ld else d
        d.waveDone ld

/-- WAVE_NOTICE at a member: acted on when the bitmap it holds has the notice's CRC, else the bitmap is asked for
again (R287). Only the group's origin is heard, and not while it is lost (R318). -/
def Dev.waveNotice (ld : Nat) (src : BitVec 14) (gen : BitVec 16) (crc : W32) (d : Dev) : Dev :=
  let w := (d.ld ld).wave
  if d.originDid ld ≠ some src.toNat ∨ d.isOrigin ld ∨ d.isLost ld src.toNat then d
  else
    match d.readBytes reqEng (d.waveTable ld) 32768 with
    | (d, none) => d.tell ld src.toNat .waveAgain
    | (d, some bs) =>
      if crc32c bs ≠ crc then d.tell ld src.toNat .waveAgain
      else if (if w.active then w.newGen != gen else gen != w.gen + 1) then d
      else
        let d := d.modWave ld fun w =>
          { w with newGen := gen, active := true, stalled := w.stalled && !w.swapHeld, noticed := true, oldSet := bitmapSlots bs }
        d.waveDone ld

/-- The origin rewrites the bitmap of a member that asks for it, and resends the notice (R287). -/
def Dev.waveResend (ld src : Nat) (d : Dev) : Dev :=
  let w := (d.ld ld).wave
  if w.active ∧ d.isOrigin ld then
    match d.readBytes reqEng (d.waveTable ld) 32768 with
    | (d, none) => d
    | (d, some bs) =>
      (d.request ld src .other (.waveBitmap bs)).tell ld src
        (.waveNotice w.newGen (BitVec.ofNat 32 (bitmapSlots bs).length) (crc32c bs))
  else d

/-! ## Layers -/

/-- LAYER_SWAP_BEGIN: lower layers are swapped, the SWAP and the notice are here, and the steps of the old set have
passed the layer; that they have is what the event says (R288). At the origin, whose slots the old set numbers, their steps are
then past the layer. -/
def Dev.layerBegin (ld k : Nat) (d : Dev) : Dev :=
  let w := (d.ld ld).wave
  let next := w.todo.foldl (fun m e => min m e.layer) 1024
  let ok := w.active && !w.stalled && w.swapHeld && w.noticed && w.copying.isNone && w.todo.any (fun e => e.layer == k) && next == k
  if ok then
    (if d.isOrigin ld then w.oldSet else []).foldl (fun d n => d.modReq n fun r => { r with layer := max r.layer (k + 1) })
      (d.modWave ld fun w => { w with copying := some k })
  else d

/-- The placement entries of this LD whose weights meet a range, each as a shard without moments. -/
def Dev.placedShards (d : Dev) (ld a n : Nat) : List Shard :=
  match d.genTrl ld with
  | none => []
  | some t =>
    let own := d.ownRank ld t
    ((t.1.places t.2).filter fun p => p.rank == own && meet p.weights (a, n)).map fun p =>
      { fmt := p.fmt, nmom := 0, nelem := p.nelem, gpi := p.gpi, w := p.w, btab := p.btab, m := 0, owner := d.did ld, ownW := 0, ownB := 0 }

/-- Recomputes the fingerprints of the blocks of a shard that meet a range (R289, R373). -/
def Dev.reprint (s : Shard) (a n : Nat) (d : Dev) : Dev :=
  (List.range s.blocks).foldl (fun d b =>
    if meet (s.blk b, blockBytes) (a, n) then
      match d.readRec (s.rec_ b) with
      | (d, none) => d
      | (d, some r) => d.writeRec (s.rec_ b) { r with fprint := fingerprint (d.bytes (s.blk b) blockBytes) }
    else d) d

/-- A full image of a layer is copied to its destination. -/
def Dev.layerCopy (ld dom : Nat) (e : LayerEntry) (d : Dev) : Dev × Code :=
  match (d.busCode (.eng ld dom) false e.src e.len).or (d.busCode (.eng ld dom) true e.dst e.len) with
  | some c => (d, c)
  | none =>
    match d.readOk reqEng e.src e.len with
    | (d, false) => (d, ePoison)
    | (d, true) =>
      let d := d.copyRange reqEng e.src e.dst e.len
      ((d.placedShards ld e.dst e.len).foldl (fun d s => d.reprint s e.dst e.len) d, 0)

/-- The difference records of a layer are applied, each to the placement entry that holds its indices. -/
def Dev.layerRecords (ld dom fin : Nat) : Nat → Nat → Dev → Dev × Code
  | 0, _, d => (d, 0)
  | f + 1, a, d =>
    if fin ≤ a then (d, 0)
    else
      match d.busCode (.eng ld dom) false a (min 128 (fin - a)) with
      | some c => (d, c)
      | none =>
        let g := (dfsHdr (d.bytes a 64)).gpi0
        let all := match d.genTrl ld with | none => [] | some _ => d.placedShards ld 0 (2 ^ 44)
        match all.find? fun s => decide (s.gpi ≤ g) && decide (g < s.gpi + s.nelem) with
        | none => (d, eRange)
        | some s =>
          match d.dfsApplyOne s ld dom a (fin - a) with
          | (d, .error c) => (d, c)
          | (d, .ok (n, _)) => Dev.layerRecords ld dom fin f (a + n) d

/-- Steps that waited in front of a layer go on, to the barrier of the next layer that is still to be swapped, or past the last
one. DESIGN CHOICE (log 109): a layer takes a step no time, so that the step is at its next barrier at once. -/
def Dev.passBarrier (ld : Nat) (d : Dev) : Dev :=
  { d with reqs := d.reqs.map fun e =>
      let r := e.2
      if r.ld == ld && r.st == .wait && r.why == .barrier then
        match d.barrier ld (r.stamp.getD 0) with
        | some k => (e.1, { r with layer := k })
        | none => (e.1, { r with st := .running, why := .none, layer := 1024 })
      else e }

/-- LAYER_SWAP_COMPLETE: a copy that fails stops the wave. -/
def Dev.layerDone (ld k : Nat) (d : Dev) : Dev :=
  let w := (d.ld ld).wave
  match w.copying, w.layers.find? fun e => e.layer == k with
  | some j, some e =>
    if j ≠ k then d
    else
      match (if w.srcKind then d.layerRecords ld w.dom (e.src + e.len) (e.len / 64 + 1) e.src else d.layerCopy ld w.dom e) with
      | (d, c) =>
        if c ≠ 0 then d.waveStop ld c false
        else
          let d := d.modWave ld fun w =>
            { w with copying := none, swapped := w.swapped + 1, layerGen := Map.set w.layerGen k w.newGen }
          (d.passBarrier ld).waveDone ld
  | _, _ => d

/-- WAVE_MEMBER_REPORT: the origin hears that a member has completed the wave. -/
def Dev.waveReport (ld : Nat) (did : BitVec 14) (d : Dev) : Dev :=
  let w := (d.ld ld).wave
  if w.active ∧ d.isOrigin ld ∧ (d.groupOthers ld).contains did.toNat then
    (d.modWave ld fun w => { w with reports := insNat did.toNat w.reports }).waveCheck ld
  else d

def execSwap (iss : Issuer) (body : List W32) : State → Result := onMem (Dev.swap iss body)
def execWaveNotice (ld : Nat) (src : BitVec 14) (gen : BitVec 16) (_nold : W32) (crc : W32) : State → Result :=
  onDev (Dev.waveNotice ld src gen crc)
def execLayerSwapBegin (ld layer : Nat) : State → Result := onMem (Dev.layerBegin ld layer)
def execLayerSwapComplete (ld layer : Nat) : State → Result := onMem (Dev.layerDone ld layer)
def execWaveMemberReport (ld : Nat) (did : BitVec 14) : State → Result := onMem (Dev.waveReport ld did)

end Sys2Proof.Machine
end

