-- ==== Sys2Proof/Machine/Dfs.lean ====
section
/-! DEFINITION. The difference stream (R392 to R395, R408) and the phase ring (R403 to R405). -/

namespace Sys2Proof.Machine

def Dev.modUpd (ld : Nat) (f : UpdRegs → UpdRegs) (d : Dev) : Dev := d.modLd ld fun l => { l with upd := f l.upd }

/-- A difference-stream target of an LD. -/
def Dev.dfsT (d : Dev) (ld n : Nat) : DfsTarget := Map.get (d.ld ld).upd.dfs n DfsTarget.init

def Dev.modDfs (ld n : Nat) (f : DfsTarget → DfsTarget) (d : Dev) : Dev :=
  d.modUpd ld fun u => { u with dfs := Map.set u.dfs n (f (Map.get u.dfs n DfsTarget.init)) }

/-! ## The ring (R394) -/

/-- The data area of a target's ring. -/
def DfsTarget.area (t : DfsTarget) : Nat := 2 ^ t.log2 - 64

/-- Writes bytes at an offset of a target's ring: host memory, or a peer's memory by a message. -/
def Dev.dfsWrite (ld : Nat) (t : DfsTarget) (off : Nat) (bs : List Byte) (d : Dev) : Dev :=
  if t.kind then d.request ld t.did.toNat .other (.dfsRecord (t.base + BitVec.ofNat 64 off) bs)
  else d.hostWrite (t.base.toNat + off) bs

/-- The pad that precedes a record of n bytes, when the record would run past the end of the area. -/
def DfsTarget.padFor (t : DfsTarget) (n : Nat) : Nat :=
  let pos := t.prod.toNat % t.area
  if t.area < pos + n then t.area - pos else 0

/-- The consumer's count: in the control line of a ring in host memory, and as last read from a peer's. -/
def Dev.dfsCons (d : Dev) (t : DfsTarget) : W64 :=
  if t.kind then t.cons else BitVec.ofNat 64 (num (d.hostRead (t.base.toNat + 32) 8) 0 8)

/-- Whether a ring has room for a record of n bytes and its pad. -/
def Dev.dfsFits (d : Dev) (t : DfsTarget) (n : Nat) : Bool := decide (n + t.padFor n + (t.prod - d.dfsCons t).toNat ≤ t.area)

/-- A pad header: its payload fills what is left of the area. -/
def padHeader (rest : Nat) : List Byte :=
  ({ ver := 1, enc := 3, fmt := 0, domain := 0, payLen := rest - 64, seq := 0, gpi0 := 0, from_ := 0, to_ := 0, baseFp := 0,
     newFp := 0, nelem := 0, src := 0 } : DfsHdr).bytes

/-- Writes a record with its number into a target's ring, after any pad, and then `prod`. -/
def Dev.dfsEmit (ld n : Nat) (hdr pay : List Byte) (key : List Byte) (d : Dev) : Dev :=
  let t := d.dfsT ld n
  let h := (({ dfsHdr hdr with seq := t.seq.toNat }) : DfsHdr).bytes
  let rec_ := h ++ pay ++ dfsTrailer key h pay
  let pad := t.padFor rec_.length
  let pos := t.prod.toNat % t.area
  let d := if pad = 0 then d else d.dfsWrite ld t (64 + pos) (padHeader pad)
  let d := d.dfsWrite ld t (64 + (if pad = 0 then pos else 0)) rec_
  let prod := t.prod + BitVec.ofNat 64 (pad + rec_.length)
  let d := d.dfsWrite ld t 0 (toBytes 8 prod.toNat)
  d.modDfs ld n fun t => { t with prod := prod, seq := t.seq + 1 }

/-- A target becomes broken, and emits nothing until it is enabled anew (R395). -/
def Dev.dfsBreak (ld n : Nat) (d : Dev) : Dev :=
  (d.modDfs ld n fun t => { t with broken := true, silent := true }).modLd ld (Ld.setUpdEvt 6)

/-- Emits a command's records in order, until one waits for room. A target that is disabled or broken takes nothing; a
peer that cannot be reached breaks its target. -/
def Dev.dfsEmitAll (ld : Nat) (key : List Byte) : List (Nat × List Byte × List Byte) → Dev → Dev × List (Nat × List Byte × List Byte)
  | [], d => (d, [])
  | (n, h, p) :: r, d =>
    let t := d.dfsT ld n
    if !t.enable || t.silent then Dev.dfsEmitAll ld key r d
    else if t.kind && d.sendCode ld t.did.toNat 2 != 0 then Dev.dfsEmitAll ld key r (d.dfsBreak ld n)
    else if d.dfsFits t (128 + p.length) then Dev.dfsEmitAll ld key r (d.dfsEmit ld n h p key)
    else if t.waiting then (d, (n, h, p) :: r)
    else ((d.modDfs ld n fun t => { t with waiting := true }).modLd ld (Ld.setUpdEvt 5), (n, h, p) :: r)

/-! ## The phase ring (R403 to R405) -/

/-- A phase record. -/
def phaseRecord (phase kind : Nat) (aborted : Bool) (step : Nat) (dur : W64) (ncmd : W32) : List Byte :=
  toBytes 4 (phase % 2 ^ 16 + 2 ^ 16 * kind + 2 ^ 19 * b2n aborted) ++ toBytes 8 (step % 2 ^ 40) ++ zeros 4 ++
    toBytes 8 dur.toNat ++ toBytes 4 ncmd.toNat ++ zeros 4

/-- Writes a phase record, or drops it when the ring is full or its place cannot be written. -/
def Dev.phaseWrite (ld dom : Nat) (bs : List Byte) (d : Dev) : Dev :=
  let u := (d.ld ld).upd
  let a := u.phBase.toNat + 32 * (u.phHead.toNat % 2 ^ u.phLog2)
  if (u.phHead - u.phTail).toNat = 2 ^ u.phLog2 ∨ (d.busCode (.eng ld dom) true a 32).isSome then
    d.modUpd ld fun u => { u with phDrop := sat32 u.phDrop }
  else (d.writeBytes reqEng a bs).modUpd ld fun u => { u with phHead := u.phHead + 1 }

/-- Ends an open phase. -/
def Dev.phaseEnd (now : W64) (ld : Nat) (p : OpenPhase) (aborted : Bool) (d : Dev) : Dev :=
  let ncmd := (d.ld ld).upd.ncmd - p.ncmd
  (d.modUpd ld fun u => { u with phases := u.phases.filter fun x => x.phase != p.phase }).phaseWrite ld p.dom
    (phaseRecord p.phase.toNat 0 aborted p.step.toNat (now - p.start) ncmd)

/-- A disable or a reset of a queue ends its open phases. -/
def Dev.phasesAborted (now : W64) (ld q : Nat) (d : Dev) : Dev :=
  ((d.ld ld).upd.phases.filter fun p => p.queue == q).foldl (fun d p => d.phaseEnd now ld p true) d

/-- PHASE (R404). -/
def Dev.phaseCmd (now : W64) (iss : Issuer) (body : List W32) (d : Dev) : Dev :=
  let t := ticketOf iss body
  let ld := d.issLd iss
  let dom := d.issDom iss
  let q := match iss with | .queue _ q _ _ => q | _ => 64
  let id := BitVec.ofNat 16 (wfld body 0 31 16)
  let fin := bit (word body 0).toNat 8
  let open_ := (d.ld ld).upd.phases
  let cur := open_.find? fun p => p.phase == id
  d.command t (firstFail [(wfld body 0 15 9 ≠ 0 ∨ wfld body 2 31 8 ≠ 0 ∨ !zeroWords body 3 15, eReservedNonzero),
      (fin && cur.isNone, eState), (!fin && cur.isSome, eState), (!fin && decide (16 ≤ open_.length), eExhausted)])
    fun d =>
      let d : Dev := match fin, cur with
        | true, some p => d.phaseEnd now ld p false
        | _, _ => d.modUpd ld fun (u : UpdRegs) =>
          { u with phases := u.phases ++ [{ phase := id, step := BitVec.ofNat 40 (word2 body 1), start := now, ncmd := u.ncmd,
                                            queue := q, dom := dom }] }
      d.done t 0

def execPhase (iss : Issuer) (body : List W32) : State → Result := onMemAt fun now => Dev.phaseCmd now iss body

end Sys2Proof.Machine
end

