-- ==== Sys2Proof/Machine/Update.lean ====
section
/-! DEFINITION. The update engines (R375 to R391, R396): UPDATE, FETCH, FPCHECK and DFS_APPLY, their start, their phases,
their ends, and the registers that act on them. A FETCH reads its source's record and block by messages, whose answers
FETCH_POLL and UPDATE_ENGINE_PHASE_END carry. -/

namespace Sys2Proof.Machine

def UpdCmd.sh (c : UpdCmd) : Shard := shardOf c.shard

/-- T of a command. -/
def UpdCmd.epoch (c : UpdCmd) : Nat := if c.op = 0x70 then num48 c.words 5 else num48 c.words 3

/-- First block and block count of a body of an operation. -/
def blkRange (op : Nat) (ws : List W32) : Nat × Nat :=
  let i := if op = 0x70 then 9 else 5
  (wfld ws i 12 0, wfld ws i 25 13)

def UpdCmd.range (c : UpdCmd) : Nat × Nat := blkRange c.op c.words

/-- The block after the last of a command. -/
def UpdCmd.last (c : UpdCmd) : Nat := c.range.1 + c.range.2

/-- The command that runs on a die. -/
def Dev.running (d : Dev) (die : Nat) : Option UpdCmd := d.upds.find? fun c => c.die == die && c.phase != .waiting

def Dev.putUpd (c : UpdCmd) (d : Dev) : Dev := { d with upds := d.upds.map fun x => if x.id = c.id then c else x }

/-- Ends a command: its phase record, its event and its report. -/
def Dev.updEnd (now : W64) (c : UpdCmd) (code : Code) (aborted : Bool) (result : Nat) (d : Dev) : Dev :=
  let d := { d with upds := d.upds.filter fun x => x.id != c.id }
  let d := d.fabClose c.ld fun r => r.serves == .fetch c.die
  let d := if code = ePoison then d.modLd c.ld (Ld.setUpdEvt 3) else d
  let d := d.finish c.tkt code aborted (BitVec.ofNat 32 result)
  if c.op = 0x70 ∧ wfld c.words 6 31 16 ≠ 0 ∧ c.phase ≠ .waiting then
    d.phaseWrite c.ld c.dom (phaseRecord (wfld c.words 6 31 16) 1 aborted c.epoch (now - c.startAt) ((d.ld c.ld).upd.ncmd - c.ncmd0))
  else d

/-! ## Acceptance (R369, R375, R377, R378, R387, R396) -/

/-- Whether an operation word of an update's element program is rejected (R384). -/
def updOpBad (w : Nat) : Bool :=
  let bad := fun s => s == 30
  match opShape (opOpc w) with
  | none => true
  | some .cvt => true
  | some .rng => true
  | some (.src n flag) =>
    (flag && decide (4 ≤ opDst w)) || bad (opA w) || (if n < 2 then opB w != 0 else bad (opB w)) ||
      (if n < 3 then opC w != 0 else bad (opC w)) || opMod w != 0
  | some .sel => bad (opA w) || bad (opB w) || opC w != 0 || decide (4 ≤ opMod w)
  | some (.flags n) =>
    decide (4 ≤ opDst w) || decide (4 ≤ opA w) || (if n < 2 then opB w != 0 else decide (4 ≤ opB w)) || opC w != 0 || opMod w != 0

/-- The element program of an UPDATE. -/
def updProg (d : Dev) (ws : List W32) : List W32 := bytesToWords (wfld ws 10 13 8) (d.bytes (addr44 ws 11) (4 * wfld ws 10 13 8))

/-- Checks of an UPDATE's own fields. -/
def updateStatic (ws : List W32) : Checks :=
  let algo := wfld ws 0 9 8
  let plen := wfld ws 10 13 8
  [(wfld ws 0 15 12 ≠ 0 ∨ high44 ws 1 ∨ high44 ws 3 ∨ wfld ws 9 31 26 ≠ 0 ∨ wfld ws 10 31 14 ≠ 0 ∨ high44 ws 11 ∨
      word ws 13 ≠ 0 ∨ !zeroWords ws 24 31, eReservedNonzero),
    (addr44 ws 1 % 8 ≠ 0 ∨ addr44 ws 3 % 8 ≠ 0 ∨ addr44 ws 11 % 4 ≠ 0, eAlign),
    (algo = 3 ∨ (bit (word ws 0).toNat 10 ∧ algo ≠ 1) ∨ num48 ws 5 = 0, eRange),
    (if algo = 2 then plen = 0 ∨ 32 < plen else plen ≠ 0, eRange),
    ((List.range 10).any fun i => let x := f32 (word ws (14 + i)).toNat; x.isNan || x.isInf, eRange)]

def fetchStatic (ws : List W32) : Checks :=
  [(wfld ws 0 15 9 ≠ 0 ∨ high44 ws 1 ∨ high48 ws 3 ∨ wfld ws 5 31 26 ≠ 0 ∨ wfld ws 6 31 16 ≠ 0 ∨ wfld ws 7 31 14 ≠ 0 ∨
      high44 ws 8 ∨ high44 ws 10 ∨ !zeroWords ws 12 15, eReservedNonzero),
    (addr44 ws 1 % 8 ≠ 0 ∨ addr44 ws 8 % blockBytes ≠ 0 ∨ addr44 ws 10 % 32 ≠ 0, eAlign),
    (num48 ws 3 = 0 ∨ wfld ws 6 15 0 = 0, eRange)]

def fpcheckStatic (ws : List W32) : Checks :=
  let mode := wfld ws 0 9 8
  let nmem := wfld ws 7 14 0
  [(wfld ws 0 15 11 ≠ 0 ∨ high44 ws 1 ∨ high48 ws 3 ∨ wfld ws 5 31 26 ≠ 0 ∨ wfld ws 6 31 20 ≠ 0 ∨ wfld ws 7 31 23 ≠ 0 ∨
      high44 ws 8 ∨ wfld ws 10 31 16 ≠ 0 ∨ !zeroWords ws 11 15, eReservedNonzero),
    (addr44 ws 1 % 8 ≠ 0 ∨ addr44 ws 8 % 8 ≠ 0, eAlign),
    (1 < mode ∨ (mode = 0 ∧ (num48 ws 3 = 0 ∨ nmem = 0 ∨ 16384 < nmem ∨ wfld ws 10 15 0 = 0)) ∨ (mode = 1 ∧ wfld ws 6 19 0 ≠ 0), eRange)]

def dfsApplyStatic (ws : List W32) : Checks :=
  [(wfld ws 0 15 8 ≠ 0 ∨ high44 ws 1 ∨ high44 ws 3 ∨ !zeroWords ws 6 15, eReservedNonzero), (addr44 ws 1 % 8 ≠ 0, eAlign)]

def updStatic (op : Nat) (ws : List W32) : Checks :=
  if op = 0x70 then updateStatic ws else if op = 0x71 then fetchStatic ws else if op = 0x72 then fpcheckStatic ws else dfsApplyStatic ws

/-- What the check of a command reads: its element program, or its member list. -/
def updLists (op : Nat) (ws : List W32) : List (Nat × Nat) :=
  if op = 0x70 ∧ wfld ws 0 9 8 = 2 then [(addr44 ws 11, 4 * wfld ws 10 13 8)]
  else if op = 0x72 ∧ wfld ws 0 9 8 = 0 then [(addr44 ws 8, 2 * wfld ws 7 14 0)] else []

/-- What a command reaches beside its shard while it runs: address, length, and whether it is written. -/
def updAreas (op : Nat) (ws : List W32) (s : Shard) : List (Nat × Nat × Bool) :=
  let gw := if bit (word ws 0).toNat 11 then 2 else 4
  if op = 0x70 then [(addr44 ws 3, s.nelem * gw, false)]
  else if op = 0x73 then [(addr44 ws 3, (word ws 5).toNat, false)]
  else []

/-- The records of a command's blocks, each as it stands. -/
def blockRecs (d : Dev) (s : Shard) (op : Nat) (ws : List W32) : List BlkRec :=
  let (b0, n) := blkRange op ws
  (List.range n).map fun i => blkRec (d.bytes (s.rec_ (b0 + i)) 32)

/-- The members of an FPCHECK. -/
def fpMembers (d : Dev) (ws : List W32) : List Nat :=
  (List.range (wfld ws 7 14 0)).map fun r => num (d.bytes (addr44 ws 8 + 2 * r) 2) 0 2

/-- The checks of a command's shard descriptor and block range, and the reach of what its check reads. -/
def Dev.updShape (d : Dev) (ld dom op : Nat) (ws shard : List W32) : Checks :=
  let s := shardOf shard
  let (b0, n) := blkRange op ws
  d.shardChecks ld shard ++
    ([(op ≠ 0x73 ∧ (n = 0 ∨ 4096 < n ∨ s.blocks < b0 + n), eRange),
      ((updLists op ws).any fun a => (d.busCode (.upd ld dom s.die) false a.1 a.2).isSome, ePerm)] : Checks)

/-- The further checks of a command: its program or member list, reach, and state. -/
def Dev.updChecks (d : Dev) (ld dom op : Nat) (ws shard : List W32) : Checks :=
  let s := shardOf shard
  let rq := Rq.upd ld dom s.die
  let out := fun (a : Nat × Nat × Bool) => (d.busCode rq a.2.2 a.1 a.2.1).isSome
  let owner := s.owner == d.did ld
  let targets := (List.range 8).filter fun i => bit (wfld ws 10 7 0) i
  let noKey := (d.dom dom).dfsKey.isNone
  let turning := (d.ld ld).trl.turn.st != .idle
  let ms := fpMembers d ws
  ([(op = 0x70 ∧ wfld ws 0 9 8 = 2 ∧ (updProg d ws).any (fun w => updOpBad w.toNat), eRange),
    (op = 0x72 ∧ wfld ws 0 9 8 = 0 ∧ (ms.any (fun m => 16384 ≤ m) ∨ ms.eraseDups.length ≠ ms.length ∨ !ms.contains (d.did ld) ∨
      !ms.contains s.owner), eRange),
    ((s.areas.any fun a => out (a.1, a.2, true)) || (updAreas op ws s).any out, ePerm)] : Checks) ++
    (if op = 0x70 then
      ([(targets.any fun i => (d.dfsT ld i).domain.toNat != dom, ePerm), (!owner, eState),
        (if wfld ws 0 9 8 = 0 then s.nmom != 2 else if wfld ws 0 9 8 = 1 then s.nmom != 1 else decide (2 < s.nmom), eState),
        (!targets.isEmpty && noKey, eDomainKey)] : Checks)
    else if op = 0x71 then
      let alt := bit (word ws 0).toNat 8
      ([((owner || s.nmom != 0) && !alt, eState), (alt && (blockRecs d s op ws).any (fun r => !r.suspect), eState)] : Checks)
    else if op = 0x73 then ([(noKey, eDomainKey)] : Checks) else []) ++ ([(turning, eState)] : Checks)

/-- A command for an update engine: it is checked and joins its engine's queue. -/
def Dev.updAccept (op : Nat) (iss : Issuer) (ws : List W32) (d : Dev) : Dev :=
  let t := ticketOf iss ws
  let ld := d.issLd iss
  let dom := d.issDom iss
  let at_ := addr44 ws 1
  if t.op ≠ op then d
  else
    match firstFail (updStatic op ws ++ [((d.busCode (.eng ld dom) false at_ 64).isSome, ePerm)]) with
    | some c => d.reject t c
    | none =>
      match d.readBytes reqEng at_ 64 with
      | (d, none) => d.reject t ePoison
      | (d, some bs) =>
        let shard := bytesToWords 16 bs
        let die := (shardOf shard).die
        match firstFail (d.updShape ld dom op ws shard) with
        | some c => d.reject t c
        | none =>
          if !(d.die die).joined && !(d.die die).absent then d
          else
            match d.readAll reqEng (updLists op ws) with
            | (d, false) => d.reject t ePoison
            | (d, true) =>
              let prog := if op = 0x70 ∧ wfld ws 0 9 8 = 2 then updProg d ws else []
              d.command t (firstFail (d.updChecks ld dom op ws shard ++ [((d.die die).absent, eState)])) fun d =>
                let (d, id) := d.fresh
                { d with upds := d.upds ++
                    [{ id := id, tkt := t, ld := ld, dom := dom, op := op, words := ws, shard := shard, die := die, phase := .waiting,
                       blk := (blkRange op ws).1, tries := 0, stop := false, stopCode := 0, count := 0, stale := 0, match31 := false,
                       lastMove := 0, startAt := 0, off := 0, ncmd0 := 0, pend := [], commit := [], colEnd := none, colGot := [],
                       prog := prog, spare := false }] }

def execUpdate (iss : Issuer) (body : List W32) : State → Result := onMem (Dev.updAccept 0x70 iss body)
def execFetch (iss : Issuer) (body : List W32) : State → Result := onMem (Dev.updAccept 0x71 iss body)
def execFpcheck (iss : Issuer) (body : List W32) : State → Result := onMem (Dev.updAccept 0x72 iss body)
def execDfsApply (iss : Issuer) (body : List W32) : State → Result := onMem (Dev.updAccept 0x73 iss body)

/-! ## FETCH: the source (R376) -/

/-- The source of a command: its DID, and the addresses of a block and its record there. -/
def UpdCmd.source (c : UpdCmd) (b : Nat) : Nat × Nat × Nat :=
  let s := c.sh
  if c.op = 0x71 ∧ bit (word c.words 0).toNat 8 then
    (wfld c.words 7 13 0, addr44 c.words 8 + blockBytes * b, addr44 c.words 10 + 32 * b)
  else (s.owner, s.ownW + blockBytes * b, s.ownB + 32 * b)

/-- Asks the source for the record, or the block, of the present block; a source that cannot be reached ends the
command. -/
def Dev.fetchAsk (now : W64) (c : UpdCmd) (block : Bool) (d : Dev) : Dev :=
  let (did, w, r) := c.source c.blk
  let code := d.sendCode c.ld did 3
  if code ≠ 0 then d.updEnd now c code false (c.count % 2 ^ 16)
  else
    let d := d.fabClose c.ld fun x => x.serves == .fetch c.die
    (d.putUpd c).request c.ld did (.fetch c.die) (if block then .fetchBlock w else .fetchRecord r)

/-- The result word of an FPCHECK (R388). -/
def UpdCmd.fpResult (c : UpdCmd) : Nat := c.count % 2 ^ 16 + 2 ^ 16 * (c.stale % 2 ^ 15) + 2 ^ 31 * b2n c.match31

/-- Whether this partition owns the shard. -/
def Dev.owns (d : Dev) (c : UpdCmd) : Bool := c.sh.owner == d.did c.ld

/-! ## Going on to the next block -/

/-- An UPDATE goes on to its next block that is not yet at T (R379). -/
def Dev.updateNext (now : W64) (c : UpdCmd) : (fuel : Nat) → Nat → Dev → Dev
  | 0, _, d => d.updEnd now c 0 false 0
  | f + 1, b, d =>
    if c.last ≤ b then d.updEnd now c 0 false 0
    else
      let r := blkRec (d.bytes (c.sh.rec_ b) 32)
      if r.wEpoch = c.epoch then Dev.updateNext now c f (b + 1) d
      else d.putUpd { c with blk := b, phase := if r.mEpoch = c.epoch then .between else .moment, tries := b2n (r.mEpoch = c.epoch) }

/-- The next block of a FETCH, FPCHECK or DFS_APPLY, or its end. -/
def Dev.blockNext (now : W64) (c : UpdCmd) (d : Dev) : Dev :=
  let c := { c with blk := c.blk + 1, tries := 0, lastMove := now }
  if c.op = 0x71 then
    if c.last ≤ c.blk then d.updEnd now c 0 false 0 else d.fetchAsk now { c with phase := .poll } false
  else if c.blk < c.last then d.putUpd c
  else if c.phase = .scan ∧ wfld c.words 0 9 8 = 0 then d.putUpd { c with phase := .cast }
  else d.updEnd now c 0 false c.fpResult

/-! ## Start (R377, R379) -/

/-- The descriptor of the broadcast of an FPCHECK (R388): rooted at the owner's rank, of bytes, in a tree of fan-out 2,
16 bytes for each block. -/
def fpDescriptor (ws : List W32) (root n : Nat) : List W32 :=
  ([0x64 + 2 ^ 16 * wfld ws 0 31 16, wfld ws 6 19 0 + 2 ^ 20 * 5 + 2 ^ 25, (word ws 7).toNat, root, 16 * n, 0, 0, wfld ws 10 15 0,
    (word ws 8).toNat, (word ws 9).toNat] ++ List.replicate 22 0).map (BitVec.ofNat 32)

/-- The bytes that an owner broadcasts. -/
def fpBytes (d : Dev) (c : UpdCmd) : List Byte :=
  (blockRecs d c.sh c.op c.words).flatMap fun r => toBytes 8 r.fprint.toNat ++ toBytes 8 (r.wEpoch + 2 ^ 63 * b2n r.suspect)

/-- Begins the broadcast of an FPCHECK; its rejection ends the command. -/
def Dev.fpCast (now : W64) (c : UpdCmd) (d : Dev) : Dev :=
  match (fpMembers d c.words).findIdx? (· == c.sh.owner) with
  | none => d.updEnd now c eRange false 0
  | some root =>
    let n := c.range.2
    match (d.putUpd { c with phase := .cast }).collTry (.engine c.ld) c.dom (fpDescriptor c.words root n) (some c.id) (fpBytes d c) now
        Dev.collStart with
    | (d, some e) => d.updEnd now c e false 0
    | (d, none) => d

/-- UPDATE_ENGINE_START: the first waiting command of an idle engine. -/
def Dev.updStart (now : W64) (die : Nat) (d : Dev) : Dev :=
  if (d.running die).isSome then d
  else
    match d.upds.find? fun c => c.die == die with
    | none => d
    | some c =>
      let c := { c with startAt := now, lastMove := now, ncmd0 := (d.ld c.ld).upd.ncmd }
      let s := c.sh
      match d.readAll reqEng (if c.op = 0x73 then [] else [(s.rec_ c.range.1, 32 * c.range.2)]) with
      | (d, false) => d.updEnd now { c with phase := .apply } ePoison false 0
      | (d, true) =>
        let rs := blockRecs d s c.op c.words
        let t := c.epoch
        if c.op = 0x70 then
          let c := { c with phase := .moment }
          let ok := fun (r : BlkRec) =>
            (r.wEpoch == t && r.mEpoch == t) || (r.wEpoch + 1 == t && (r.mEpoch + 1 == t || r.mEpoch == t))
          if rs.any BlkRec.suspect then d.updEnd now c eState false 0
          else if !rs.all ok then d.updEnd now c eUpdEpoch false 0
          else d.updateNext now c (c.range.2 + 1) c.blk
        else if c.op = 0x71 then d.fetchAsk now { c with phase := .poll } false
        else if c.op = 0x72 then
          if wfld c.words 0 9 8 = 1 ∨ (bit (word c.words 0).toNat 10 ∧ d.owns c) then d.putUpd { c with phase := .scan }
          else d.fpCast now c
        else d.putUpd { c with phase := .apply }

def execUpdateEngineStart (die : Nat) : State → Result := onMemAt fun now => Dev.updStart now die

/-! ## The computation of UPDATE (R383 to R385) -/

/-- An element of a format at an address as an FP32 code, a NaN in its canonical form (R73, R142). -/
def Dev.floatAt (d : Dev) (f : Fmt) (a : Nat) : Nat := let n := f.width / 8; toF32 (decode f (num (d.bytes a n) 0 n))

/-- Gradient, weight and moment of element i of the shard, as FP32 codes. -/
def UpdCmd.grad (c : UpdCmd) (d : Dev) (i : Nat) : Nat :=
  if bit (word c.words 0).toNat 11 then d.floatAt .bf16 (addr44 c.words 3 + 2 * i) else d.floatAt .fp32 (addr44 c.words 3 + 4 * i)
def Shard.weightAt (s : Shard) (d : Dev) (i : Nat) : Nat :=
  d.floatAt (if s.fmt = 0 then .bf16 else if s.fmt = 1 then .fp16 else .fp32) (s.w + s.width * i)
def Shard.momentAt (s : Shard) (d : Dev) (bank i k : Nat) : Nat := d.floatAt .fp32 (s.moment bank i k)

/-- Parameter h_k. -/
def UpdCmd.h (c : UpdCmd) (k : Nat) : Nat := (word c.words (14 + k)).toNat

/-- The temporaries after the element program on element i. What codes 19, 20 and an absent moment read is not stated. -/
def UpdCmd.program (c : UpdCmd) (d : Dev) (i : Nat) : List Nat :=
  let s := c.sh
  let old := (c.epoch + 1) % 2
  let mom := fun k code => if k < s.nmom then s.momentAt d old i k else (Config.lanePlace code i).toNat
  let src := fun (l : Lane) (code : Nat) =>
    if code < 16 then l.t.getD code 0
    else if code = 16 then c.grad d i
    else if code = 17 then s.weightAt d i
    else if code = 18 then mom 0 18
    else if code ≤ 20 then (Config.lanePlace code i).toNat
    else if code ≤ 28 then c.h (code - 21)
    else if code = 29 then mom 1 29 else 0
  ((c.prog.map BitVec.toNat).foldl (vecOp false src fun _ => 0) Lane.init).t

/-- The new moments of element i. -/
def UpdCmd.moments (c : UpdCmd) (d : Dev) (i : Nat) : List Nat :=
  let s := c.sh
  let old := (c.epoch + 1) % 2
  let g := mulF32 (c.grad d i) (c.h 0)
  let m := s.momentAt d old i 0
  if wfld c.words 0 9 8 = 0 then
    [fmaF32 (c.h 2) m (mulF32 (c.h 3) g), fmaF32 (c.h 4) (s.momentAt d old i 1) (mulF32 (c.h 5) (mulF32 g g))]
  else if wfld c.words 0 9 8 = 1 then [fmaF32 (c.h 2) m (mulF32 (c.h 3) g)]
  else let t := c.program d i; (List.range s.nmom).map fun k => t.getD (1 + k) 0

/-- The new weight of element i, before its store. -/
def UpdCmd.newWeight (c : UpdCmd) (d : Dev) (i : Nat) : Nat :=
  let s := c.sh
  let bank := c.epoch % 2
  let w := s.weightAt d i
  let x := subF32 w (mulF32 (c.h 8) w)
  if wfld c.words 0 9 8 = 0 then
    let den := addF32 (toF32 (f32 (mulF32 (s.momentAt d bank i 1) (c.h 6))).sqrt) (c.h 7)
    subF32 x (mulF32 (c.h 1) (toF32 ((f32 (s.momentAt d bank i 0)).div (f32 den))))
  else if wfld c.words 0 9 8 = 1 then
    let b := s.momentAt d bank i 0
    let st := if bit (word c.words 0).toNat 10 then fmaF32 (c.h 2) b (mulF32 (c.grad d i) (c.h 0)) else b
    subF32 x (mulF32 (c.h 1) st)
  else (c.program d i).getD 0 0

/-- The stored bytes of a weight (R385). -/
def UpdCmd.store (c : UpdCmd) (i v : Nat) : List Byte :=
  let s := c.sh
  if s.fmt = 2 then toBytes 4 v
  else toBytes 2 (stochStore (if s.fmt = 0 then .bf16 else .fp16) (drawWord (word2 c.words 7) c.epoch (s.gpi + i) 1 0) v)

/-- The ranges that a phase reads for elements [i, i + n): gradient, weights, and moments of a bank. -/
def UpdCmd.reads (c : UpdCmd) (i n : Nat) (weight : Bool) : List (Nat × Nat) :=
  let s := c.sh
  let gw := if bit (word c.words 0).toNat 11 then 2 else 4
  let prog := wfld c.words 0 9 8 == 2
  let bank := if weight && !prog then c.epoch % 2 else (c.epoch + 1) % 2
  let g := [(addr44 c.words 3 + gw * i, gw * n)]
  let m := if s.nmom = 0 then [] else [(s.moment bank i 0, 4 * s.nmom * n)]
  (if !weight || prog || bit (word c.words 0).toNat 10 then g else []) ++ [(s.w + s.width * i, s.width * n)] ++ m

/-- Whether element i of a phase rests on one of some codewords. -/
def UpdCmd.taints (c : UpdCmd) (bad : List Nat) (i : Nat) (weight : Bool) : Bool :=
  bad.any fun k => (c.reads i 1 weight).any fun r => meet (k, cwBytes k) r

/-! ## Phases of UPDATE (R380, R381) -/

/-- Commits a weight phase: the record, the roll-forward count, and the way on. -/
def Dev.weightCommit (now : W64) (c : UpdCmd) (d : Dev) : Dev :=
  let r := blkRec c.commit
  let d := d.writeRec (c.sh.rec_ c.blk) r
  let d := if c.tries = 1 then
      (d.modUpd c.ld fun u => { u with rollfwd := sat16 u.rollfwd }).modLd c.ld (Ld.setUpdEvt 2)
    else d
  if c.stop then d.updEnd now c c.stopCode (c.stopCode == eDisabled) 0
  else if r.stale then d.updEnd now c ePoison false c.blk
  else d.updateNext now { c with pend := [], commit := [], phase := .moment } (c.range.2 + 1) (c.blk + 1)

/-- Whether a command's weight phase waits on a target of an LD. -/
def UpdCmd.waitsOn (ld n : Nat) (c : UpdCmd) : Bool := c.ld == ld && c.phase == .dfsWait && (c.pend.head?.any fun p => p.1 == n)

/-- `waiting` falls once no weight phase waits on the target. -/
def Dev.dfsSettle (ld : Nat) (d : Dev) : Dev :=
  (List.range 8).foldl (fun d n =>
    if (d.dfsT ld n).waiting && !d.upds.any (UpdCmd.waitsOn ld n) then d.modDfs ld n fun t => { t with waiting := false } else d) d

/-- Emits what a weight phase has still to emit, and commits it once nothing waits; the wait on a target begins when the phase
comes to it. -/
def Dev.dfsGo (now : W64) (c : UpdCmd) (d : Dev) : Dev :=
  let key := ((d.dom c.dom).dfsKey).getD []
  let (d, left) := d.dfsEmitAll c.ld key c.pend
  let still := c.phase == .dfsWait && left.length == c.pend.length
  (if left.isEmpty then d.weightCommit now c
    else d.putUpd { c with phase := .dfsWait, pend := left, lastMove := if still then c.lastMove else now }).dfsSettle c.ld

/-- Whether the engine can still reach what a command works on; permissions may have changed since its acceptance. -/
def Dev.updReach (d : Dev) (c : UpdCmd) : Option Code :=
  let rq := Rq.upd c.ld c.dom c.die
  firstFail [((c.sh.areas.any fun a => (d.busCode rq true a.1 a.2).isSome) ||
    (updAreas c.op c.words c.sh).any (fun a => (d.busCode rq a.2.2 a.1 a.2.1).isSome), ePerm)]

/-- The end of a moment phase. -/
def Dev.momentEnd (now : W64) (c : UpdCmd) (d : Dev) : Dev :=
  let s := c.sh
  let i0 := c.blk * s.perBlock
  let n := s.elems c.blk
  match d.readAll reqEng (c.reads i0 n false) with
  | (d, false) => d.updEnd now c ePoison false c.blk
  | (d, true) =>
    let bs := (List.range n).flatMap fun e => (c.moments d (i0 + e)).flatMap (toBytes 4)
    let d := if s.nmom = 0 then d else d.writeBytes reqEng (s.moment (c.epoch % 2) i0 0) bs
    let r := blkRec (d.bytes (s.rec_ c.blk) 32)
    (d.writeRec (s.rec_ c.blk) { r with mEpoch := c.epoch }).putUpd { c with phase := .between }

/-- The end of a weight phase: the block is written, its difference records emitted, and its record committed. -/
def Dev.weightEnd (now : W64) (c : UpdCmd) (d : Dev) : Dev :=
  let s := c.sh
  let i0 := c.blk * s.perBlock
  let n := s.elems c.blk
  let w := s.width
  let (d, bad) := d.readEach reqEng (c.reads i0 n true)
  let old := d.bytes (s.blk c.blk) (n * w)
  let new := (List.range n).flatMap fun e => c.store (i0 + e) (c.newWeight d (i0 + e))
  let r := blkRec (d.bytes (s.rec_ c.blk) 32)
  let spoiled := if bad.isEmpty then [] else (List.range n).filter fun e => c.taints bad (i0 + e) true
  let d := d.writeBlock (s.blk c.blk) new
  let d := spoiled.foldl (fun d e => d.poisonCw (cwOf (s.w + w * (i0 + e)))) d
  let fp := fingerprint new
  let (enc, pay) := dfsPayload w n old new
  let hdr := (({ ver := 1, enc := enc, fmt := s.fmt, domain := c.dom, payLen := pay.length, seq := 0, gpi0 := s.gpi + i0,
                 from_ := r.wEpoch, to_ := c.epoch, baseFp := r.fprint, newFp := fp, nelem := n, src := d.did c.ld }) : DfsHdr).bytes
  let targets := (List.range 8).filter fun i => bit (wfld c.words 10 7 0) i
  d.dfsGo now { c with pend := targets.map fun i => (i, hdr, pay),
                       commit := ({ r with wEpoch := c.epoch, fprint := fp, stale := !spoiled.isEmpty }).bytes }

/-! ## Phases of FETCH and FPCHECK (R376, R387 to R391) -/

/-- Steps 3 and 4 of R376 on the bytes of a block: none while it has to be read again. -/
def fetchVerdict (c : UpdCmd) (m : RemoteBlock) : Option Code :=
  let r := blkRec m.recAfter
  if r.wEpoch ≠ c.epoch then some eUpdEpoch
  else if fingerprint m.data = r.fprint then some 0
  else if c.tries = 3 then some eFetchCorrupt else none

/-- Writes a verified block and its record. -/
def Dev.fetchWrite (c : UpdCmd) (m : RemoteBlock) (d : Dev) : Dev :=
  let s := c.sh
  let r := blkRec (d.bytes (s.rec_ c.blk) 32)
  let own := d.owns c
  let d := d.writeBlock (s.blk c.blk) (slice m.data 0 (s.elems c.blk * s.width))
  d.writeRec (s.rec_ c.blk) { r with wEpoch := c.epoch, mEpoch := if own then r.mEpoch else c.epoch, suspect := false, stale := false,
                                     fprint := (blkRec m.recAfter).fprint }

/-- Names a block in `UPD_FP_LAST`. -/
def Dev.fpLast (c : UpdCmd) (owner : Bool) (d : Dev) : Dev :=
  let s := c.sh
  let did := BitVec.ofNat 14 (d.did c.ld)
  d.modUpd c.ld fun u => { u with lastGpi := BitVec.ofNat 48 (s.gpi + c.blk * s.perBlock), lastDid := did, ownerSide := owner }

/-- The fingerprint of a block as it stands in memory; none when it cannot be read. -/
def Dev.blockFp (s : Shard) (b : Nat) (d : Dev) : Dev × Option W64 :=
  match d.readBytes reqEng (s.blk b) blockBytes with
  | (d, none) => (d, none)
  | (d, some bs) => (d, some (fingerprint bs))

/-- One block of a seal, or of the owner's scan. -/
def Dev.scanBlock (now : W64) (c : UpdCmd) (d : Dev) : Dev :=
  let s := c.sh
  let r := blkRec (d.bytes (s.rec_ c.blk) 32)
  let sealing := wfld c.words 0 9 8 == 1
  if !sealing && r.wEpoch != c.epoch then d.blockNext now c
  else
    match d.blockFp s c.blk with
    | (d, none) => d.updEnd now c ePoison false c.blk
    | (d, some fp) =>
      if sealing then (d.writeRec (s.rec_ c.blk) { r with fprint := fp, suspect := false, stale := false }).blockNext now c
      else if fp = r.fprint then d.blockNext now c
      else (((d.writeRec (s.rec_ c.blk) { r with suspect := true }).fpLast c true).modLd c.ld (Ld.setUpdEvt 1)).blockNext now c

/-- The 16 bytes that the owner broadcast for a block. -/
def UpdCmd.castOf (c : UpdCmd) (b : Nat) : List Byte :=
  let o := 16 * (b - c.range.1)
  slice (Map.get c.colGot (o / 3072) []) (o % 3072) 16

/-- One block of a replica's comparison. A suspect block is neither repaired nor stale (R391). At a mismatch that reaches
`rep_limit` the owner's block is read whether or not the repair is automatic (R389, R390). -/
def Dev.compareBlock (now : W64) (c : UpdCmd) (d : Dev) : Dev :=
  let s := c.sh
  let x := c.castOf c.blk
  let ofp : W64 := BitVec.ofNat 64 (num x 0 8)
  let oep := num x 8 6
  let suspect := bit (num x 15 1) 7
  let r := blkRec (d.bytes (s.rec_ c.blk) 32)
  if !suspect && (r.wEpoch != c.epoch || oep != c.epoch) then d.blockNext now { c with stale := c.stale + 1 }
  else
    match (if bit (word c.words 0).toNat 10 then d.blockFp s c.blk else (d, some r.fprint)) with
    | (d, none) => d.updEnd now c ePoison false c.blk
    | (d, some fp) =>
      if suspect then d.blockNext now { c with match31 := c.match31 || fp == ofp }
      else if fp = ofp then d.blockNext now c
      else
        let r := { r with mism := min 0xFFFF (r.mism + 1) }
        let d := ((d.writeRec (s.rec_ c.blk) r).modUpd c.ld fun u => { u with mism := sat16 u.mism }).fpLast c false
        let d := d.modLd c.ld (Ld.setUpdEvt 0)
        let u := (d.ld c.ld).upd
        let spare := decide (u.repLimit.toNat ≤ r.mism)
        if u.autoRepair || spare then d.fetchAsk now { c with phase := .repair, tries := 0, spare := spare } true
        else d.blockNext now c

/-- Queues the rows of the granules in which this copy differs from the owner's block (R390). -/
def Dev.spareRows (c : UpdCmd) (bs : List Byte) (d : Dev) : Dev :=
  let a := c.sh.blk c.blk
  let own := d.bytes a blockBytes
  let gs := (List.range 16384).filter fun g => slice own (256 * g) 256 != slice bs (256 * g) 256
  match unitOf a with
  | none => d
  | some u =>
    let cws := (gs.flatMap fun g => (List.range 8).map fun k => cwOf (a + 256 * g + 32 * k)).eraseDups
    (cws.foldl (fun d c => d.queueRow u c false) d).modLd c.ld (Ld.setUpdEvt 4)

/-- One record, or pad, of a DFS_APPLY. -/
def Dev.applyOne (now : W64) (c : UpdCmd) (d : Dev) : Dev :=
  let len := (word c.words 5).toNat
  if len ≤ c.off then d.updEnd now c 0 false c.count
  else if len < c.off + 64 then d.updEnd now c eRange false c.count
  else
    match d.dfsApplyOne c.sh c.ld c.dom (addr44 c.words 3 + c.off) (len - c.off) with
    | (d, .error e) => d.updEnd now c e false c.count
    | (d, .ok (n, rec_)) =>
      let c := { c with off := c.off + n, count := c.count + b2n rec_ }
      if len ≤ c.off then d.updEnd now c 0 false c.count else d.putUpd c

/-- UPDATE_ENGINE_PHASE_END. Between the phases of a block, it begins the weight phase. `remote` is the answer to a block read of a FETCH or of a repair. -/
def Dev.phaseEnds (now : W64) (die : Nat) (remote : Option RemoteBlock) (d : Dev) : Dev :=
  match d.running die with
  | none => d
  | some c =>
    let reach := d.updReach c
    let stuck := reach.isSome && c.phase != .cast && c.phase != .dfsWait && c.phase != .poll
    if stuck then d.updEnd now c (reach.getD 0) false c.count
    else
      match c.phase with
      | .moment => d.momentEnd now c
      | .between => d.putUpd { c with phase := .weight }
      | .weight => d.weightEnd now c
      | .scan => d.scanBlock now c
      | .compare => d.compareBlock now c
      | .apply => d.applyOne now c
      | .cast =>
        match c.colEnd with
        | none => if d.colls.any (fun x => x.eng == some c.id) then d else d.fpCast now c
        | some e =>
          if e ≠ 0 then d.updEnd now c e false 0
          else if d.owns c then d.updEnd now c 0 false 0
          else d.putUpd { c with phase := .compare, blk := c.range.1 }
      | .copy =>
        match remote with
        | none => d
        | some m =>
          match fetchVerdict c m with
          | none => d.fetchAsk now { c with tries := c.tries + 1 } true
          | some e => if e ≠ 0 then d.updEnd now c e false 0 else (d.fetchWrite c m).blockNext now c
      | .repair =>
        match remote with
        | none => d
        | some m =>
          match fetchVerdict c m with
          | none => d.fetchAsk now { c with tries := c.tries + 1 } true
          | some e =>
            if e ≠ 0 then d.updEnd now c e false c.fpResult
            else
              let d := if c.spare then d.spareRows c m.data else d
              (d.fetchWrite c m).blockNext now { c with phase := .compare, count := c.count + 1 }
      | .waiting => d
      | .dfsWait => d
      | .poll => d

def execUpdateEnginePhaseEnd (die : Nat) (remote : Option RemoteBlock) : State → Result :=
  onMemAt fun now => Dev.phaseEnds now die remote

/-- FETCH_POLL: the source's record as read. -/
def Dev.fetchPoll (now : W64) (die : Nat) (bs : List Byte) (d : Dev) : Dev :=
  match d.running die with
  | none => d
  | some c =>
    let r := blkRec bs
    if c.phase ≠ .poll then d
    else if c.epoch < r.wEpoch then d.updEnd now c eUpdEpoch false 0
    else if r.wEpoch < c.epoch then d.fetchAsk now c false
    else d.fetchAsk now { c with phase := .copy } true

def execFetchPoll (die : Nat) (record : List Byte) : State → Result := onMemAt fun now => Dev.fetchPoll now die record

/-- FETCH_WATCHDOG. -/
def Dev.fetchWatchdog (now : W64) (die : Nat) (d : Dev) : Dev :=
  match d.running die with
  | none => d
  | some c =>
    if c.op = 0x71 ∧ 100000 * wfld c.words 6 15 0 ≤ (now - c.lastMove).toNat then d.updEnd now c eFetchTimeout false 0 else d

def execFetchWatchdog (die : Nat) : State → Result := onDevAt fun now => Dev.fetchWatchdog now die

/-! ## Ends from outside -/

/-- Ends a command early (R381): a weight phase first runs to its end; the broadcast of an FPCHECK is aborted. -/
def Dev.updStop (now : W64) (code : Code) (aborted : Bool) (c : UpdCmd) (d : Dev) : Dev :=
  if c.phase = .weight ∨ c.phase = .dfsWait then d.putUpd { c with stop := true, stopCode := code }
  else
    let d := match d.colls.find? fun x => x.eng == some c.id with
      | some x => d.collEnd x (if code = eDisabled then eDisabled else eCollAborted) x.rank noChunk false
      | none => d
    d.updEnd now c code aborted (if c.op = 0x72 then c.fpResult else if c.op = 0x73 then c.count else 0)

/-- UPD_ABORT. -/
def Dev.updAbort (now : W64) (ld : Nat) (v : W32) (d : Dev) : Dev :=
  d.checked (.ld ld) (firstFail [(ld = 15, ePerm), (fld v 31 1 ≠ 0, eReservedNonzero)]) fun d =>
    if v.getLsbD 0 then (d.upds.filter fun c => c.ld == ld).foldl (fun d c => d.updStop now eUpdAborted false c) d else d

def execUpdAbort (ag : Agent) (ld : Nat) (v : W32) : State → Result :=
  onDevAt fun now => Dev.pageWrite ag ld 0xB004 (Dev.updAbort now ld v)

/-- The source of every FETCH and repair of an LD that reads a lost partition is gone (R318). -/
def Dev.fetchLost (now : W64) (ld did : Nat) (d : Dev) : Dev :=
  (d.upds.filter fun c => c.ld == ld && (c.phase == .poll || c.phase == .copy || c.phase == .repair) && (c.source c.blk).1 == did).foldl
    (fun d c => d.updEnd now c eMemberLost false (if c.op = 0x72 then c.fpResult else 0)) d

/-! ## Difference-stream targets (R394, R395, R408) -/

/-- Weight phases that wait on a target go on. -/
def Dev.dfsResume (now : W64) (ld n : Nat) (d : Dev) : Dev :=
  (d.upds.filter (UpdCmd.waitsOn ld n)).foldl (fun d c => d.dfsGo now c) d

/-- DFS_ENABLE: a write of `DFS_CTL` for the selected target. A write of 1 clears `broken` (R408); a broken target emits again
only once it has been disabled and enabled (R395). -/
def Dev.dfsCtl (now : W64) (ld : Nat) (v : W32) (d : Dev) : Dev :=
  let n := (d.ld ld).upd.dfsSel.toNat
  let t := d.dfsT ld n
  let en := v.getLsbD 31
  let kind := v.getLsbD 30
  let did := BitVec.ofNat 14 (fld v 29 16)
  d.checked (.ld ld) (firstFail [(ld = 15, ePerm), (fld v 15 0 = 0, eRange), (t.enable && (kind != t.kind || did != t.did), eState)])
    fun d =>
      let d := d.modDfs ld n fun t =>
        { t with enable := en, kind := kind, did := did, wdMs := BitVec.ofNat 16 (fld v 15 0), broken := t.broken && !en }
      if en && !t.enable then
        let d := d.modDfs ld n fun t => { t with silent := false, seq := 0, prod := 0, cons := 0 }
        let t := d.dfsT ld n
        (d.dfsWrite ld t 0 (zeros 8)).dfsWrite ld t 32 (zeros 8)
      else if !en then d.dfsResume now ld n
      else d

def execDfsEnable (ag : Agent) (ld : Nat) (v : W32) : State → Result :=
  onDevAt fun now => Dev.pageWrite ag ld 0xB024 (Dev.dfsCtl now ld v)

/-- DFS_RING_WAIT_END: the consumer's count, written to a ring's control line in host memory or read from a peer's. -/
def Dev.dfsRoom (now : W64) (ld n : Nat) (cons : W64) (d : Dev) : Dev :=
  let t := d.dfsT ld n
  if !t.enable then d
  else (if t.kind then d.modDfs ld n fun t => { t with cons := cons } else d.hostWrite (t.base.toNat + 32) (toBytes 8 cons.toNat)).dfsResume
    now ld n

def execDfsRingWaitEnd (ld target : Nat) (cons : W64) : State → Result := onDevAt fun now => Dev.dfsRoom now ld target cons

/-- DFS_TARGET_WATCHDOG: a weight phase has waited on the target for longer than `wd_ms`. -/
def Dev.dfsTargetWatchdog (now : W64) (ld n : Nat) (d : Dev) : Dev :=
  let wd := 100000 * (d.dfsT ld n).wdMs.toNat
  if d.upds.any fun c => c.waitsOn ld n && decide (wd < (now - c.lastMove).toNat) then (d.dfsBreak ld n).dfsResume now ld n else d

def execDfsTargetWatchdog (ld target : Nat) : State → Result := onDevAt fun now => Dev.dfsTargetWatchdog now ld target

end Sys2Proof.Machine
end

