-- ==== Sys2Proof/Machine/Turn.lean ====
section
/-! DEFINITION. Transplants (R418 to R433): the plan of a turn, its rounds, the coordinator's decisions, and XPL_PLAN. -/

namespace Sys2Proof.Machine

/-! ## The plan (R420, R421) -/

/-- A piece: first index and elements, format, the destination's DID, rank, address and entry, and the source's DID,
address and entry. -/
structure Piece where
  gpi   : Nat
  n     : Nat
  fmt   : Nat
  dDid  : Nat
  dRank : Nat
  dst   : Nat
  dEnt  : TrlPlace
  sDid  : Nat
  src   : Nat
  sEnt  : TrlPlace
  deriving DecidableEq, Repr

/-- Bytes of a piece. -/
def Piece.len (p : Piece) : Nat := p.n * wBytes p.fmt

/-- The record of the destination block of a piece, and of a source block. -/
def Piece.dRec (p : Piece) : Nat := p.dEnt.btab + 32 * ((p.dst - p.dEnt.w) / blockBytes)
def Piece.sRecs (p : Piece) : List Nat :=
  let b0 := (p.src - p.sEnt.w) / blockBytes
  let b1 := (p.src - p.sEnt.w + p.len - 1) / blockBytes
  (List.range (b1 + 1 - b0)).map fun i => p.sEnt.btab + 32 * (b0 + i)

/-- Both trellises of a turn: the source's and the destination's header and reader. -/
abbrev Pair := (TrlHdr × Rd) × (TrlHdr × Rd)

/-- The pieces of one destination entry between two of its cuts; none where no source entry of its format covers it. -/
def pieceAt (srcs : List TrlPlace) (sm dm : List TrlMem) (e : TrlPlace) (lo hi : Nat) : Option Piece :=
  let did := fun (ms : List TrlMem) r => ((ms[r]?).map TrlMem.ldid).getD 0
  let me := did dm e.rank
  let hs := srcs.filter fun s => s.fmt == e.fmt && decide (s.gpi ≤ lo) && decide (hi ≤ s.gpi + s.nelem)
  let own := hs.find? fun s => did sm s.rank == me
  (own.or (hs[e.rank % hs.length]?)).map fun s =>
    { gpi := lo, n := hi - lo, fmt := e.fmt, dDid := me, dRank := e.rank, dst := e.w + (lo - e.gpi) * wBytes e.fmt, dEnt := e,
      sDid := did sm s.rank, src := s.w + (lo - s.gpi) * wBytes e.fmt, sEnt := s }

/-- Consecutive pairs of a rising list. -/
def spansOf : List Nat → List (Nat × Nat)
  | a :: b :: r => (a, b) :: spansOf (b :: r)
  | _ => []

/-- The cuts of a destination entry: its ends and every source bound inside it. -/
def cutsOf (srcs : List TrlPlace) (e : TrlPlace) : List Nat :=
  let fin := e.gpi + e.nelem
  ((srcs.flatMap fun s => [s.gpi, s.gpi + s.nelem]).filter fun x => e.gpi < x && x < fin).foldr insNat (insNat e.gpi [fin])

/-- A piece split at every multiple of 4 MiB of its destination range; sources are holders in rank order. -/
def Piece.split (p : Piece) : List Piece :=
  let w := wBytes p.fmt
  let off := p.dst - p.dEnt.w
  let ends := (List.range (p.len / blockBytes + 1)).map fun i => ((off / blockBytes + 1 + i) * blockBytes - off) / w
  (spansOf (insNat 0 ((ends.filter (· < p.n)) ++ [p.n]))).map fun x =>
    { p with gpi := p.gpi + x.1, n := x.2 - x.1, dst := p.dst + w * x.1, src := p.src + w * x.1 }

/-- Insertion by first index, then destination rank. -/
def insPiece (p : Piece) : List Piece → List Piece
  | [] => [p]
  | q :: r => if q.gpi < p.gpi ∨ (q.gpi = p.gpi ∧ q.dRank ≤ p.dRank) then q :: insPiece p r else p :: q :: r

/-- Insertion of a source entry by rank. -/
def insHolder (p : TrlPlace) : List TrlPlace → List TrlPlace
  | [] => [p]
  | q :: r => if q.rank ≤ p.rank then q :: insHolder p r else p :: q :: r

/-- What a round has taken for one destination member: bytes and records. -/
structure RoundUse where
  rank : Nat
  bytes : Nat
  recs : List Nat
  deriving DecidableEq, Repr

/-- Cuts pieces into rounds, greedily: each piece with its round. -/
def cutRounds (stage : Nat) : List Piece → Nat → List RoundUse → List (Nat × Piece)
  | [], _, _ => []
  | p :: ps, r, use =>
    let u := (use.find? fun u => u.rank == p.dRank).getD { rank := p.dRank, bytes := 0, recs := [] }
    let recs := insNat p.dRec u.recs
    if stage * blockBytes < u.bytes + p.len ∨ 32768 < recs.length then
      (r + 1, p) :: cutRounds stage ps (r + 1) [{ rank := p.dRank, bytes := p.len, recs := [p.dRec] }]
    else
      (r, p) :: cutRounds stage ps r
        ({ rank := p.dRank, bytes := u.bytes + p.len, recs := recs } :: use.filter fun u => u.rank != p.dRank)

/-- The plan of a turn; none when some destination range is not covered by source entries of its format. -/
def planOf (t : Pair) (stage : Nat) : Option (List (Nat × Piece)) :=
  let srcs := (t.1.1.places t.1.2).foldl (fun l p => insHolder p l) []
  let dsts := t.2.1.places t.2.2
  let sm := t.1.1.members t.1.2
  let dm := t.2.1.members t.2.2
  let ps := dsts.flatMap fun e => (spansOf (cutsOf srcs e)).map fun x => pieceAt srcs sm dm e x.1 x.2
  if ps.any Option.isNone then none
  else some (cutRounds stage (((ps.filterMap id).foldl (fun l p => insPiece p l) []).flatMap Piece.split) 0 [])

/-- The number of rounds. -/
def roundsOf (plan : List (Nat × Piece)) : Nat := plan.foldl (fun a p => max a (p.1 + 1)) 0

/-! ## The turn of an LD -/

def Dev.turn (d : Dev) (ld : Nat) : Turn := (d.ld ld).trl.turn

def Dev.modTurn (ld : Nat) (f : Turn → Turn) (d : Dev) : Dev :=
  d.modLd ld fun l => { l with trl := { l.trl with turn := f l.trl.turn } }

/-- The source and the destination trellis when the source stands in slot `one`. -/
def Dev.slotPair (d : Dev) (ld : Nat) (one : Bool) : Option Pair :=
  match (d.ld ld).slot one, (d.ld ld).slot (!one) with
  | some s, some t => some ((d.trlOf s, d.trlRd s), (d.trlOf t, d.trlRd t))
  | _, _ => none

def Turn.stage (t : Turn) : Nat := wfld t.words 4 15 0
def Turn.stageAddr (t : Turn) : Nat := addr44 t.words 5
def Turn.epoch (t : Turn) : Nat := num48 t.words 1
def Turn.wdMs (t : Turn) : Nat := wfld t.words 7 15 0
def Turn.one (t : Turn) : Bool := bit (word t.words 0).toNat 9

/-- Members of the destination trellis, as DIDs in rank order. -/
def Dev.turnDids (d : Dev) (ld : Nat) : List Nat :=
  match d.slotPair ld (d.turn ld).one with
  | none => []
  | some t => (t.2.1.members t.2.2).map TrlMem.ldid

/-- The plan of the running turn. -/
def Dev.turnPlan (d : Dev) (ld : Nat) : List (Nat × Piece) :=
  match d.slotPair ld (d.turn ld).one with
  | none => []
  | some t => (planOf t (d.turn ld).stage).getD []

/-- The pieces of the open round. -/
def Dev.roundPieces (d : Dev) (ld : Nat) : List Piece :=
  ((d.turnPlan ld).filter fun p => p.1 == (d.turn ld).committed).map Prod.snd

/-- Own rank in the destination trellis. -/
def Dev.turnRank (d : Dev) (ld : Nat) : Nat := ((d.turnDids ld).findIdx? (· == d.did ld)).getD 0

/-- The ranks that are not lost, and the lowest of them, the coordinator (R425). -/
def Dev.liveRanks (d : Dev) (ld : Nat) : List Nat :=
  let ms := d.turnDids ld
  (List.range ms.length).filter fun r => !d.isLost ld (ms.getD r 0)
def Dev.coordinator (d : Dev) (ld : Nat) : Nat := (d.liveRanks ld).headD 0

def Dev.coordinates (d : Dev) (ld : Nat) : Bool := (d.turn ld).coord == d.turnRank ld

/-- Sends a message of the turn to a rank, or to every other live member. -/
def Dev.turnSend (ld r : Nat) (m : FabMsg) (d : Dev) : Dev := d.tell ld ((d.turnDids ld).getD r 0) m
def Dev.turnTell (ld : Nat) (m : FabMsg) (d : Dev) : Dev :=
  ((d.liveRanks ld).filter (· != d.turnRank ld)).foldl (fun d r => d.turnSend ld r m) d

/-! ## Acceptance (R418, R419, R429) -/

/-- The turn digest: the digests of both trellises and the agreed fields; their order is the model's own. -/
def Dev.turnDigest (d : Dev) (ld : Nat) (ws : List W32) : W32 :=
  let one := bit (word ws 0).toNat 9
  let g := fun i => (((d.ld ld).slot i).map TrlSlot.digest).getD 0
  crc32c (toBytes 4 (g one).toNat ++ toBytes 4 (g (!one)).toNat ++ toBytes 8 (num48 ws 1) ++ toBytes 4 (wfld ws 3 19 0) ++
    toBytes 4 (wfld ws 4 15 0) ++ toBytes 4 (wfld ws 8 31 16))

/-- The KV regions of an LD (R237). -/
def Dev.kvRanges (d : Dev) (ld : Nat) : List (Nat × Nat) :=
  let us := ((List.range 20).filter fun n => d.ldOfDie (n / 2) == ld).map MemUnit.stack ++
    ((List.range 24).filter fun c => d.ldOfChan c == ld).map MemUnit.channel
  (us.map fun u => let r := d.region u; (r.1 * frameBytes, r.2 * frameBytes)).filter fun r => r.2 != 0

/-- Check 3 of R419: what must not overlap. -/
def Dev.turnOverlap (d : Dev) (ld : Nat) (t : Pair) (ws : List W32) : Bool :=
  let own := fun (x : TrlHdr × Rd) => (x.1.places x.2).filter fun p => p.rank == d.ownRank ld x
  let all := own t.1 ++ own t.2
  let areas := (addr44 ws 5, wfld ws 4 15 0 * blockBytes + 0x100000) :: ((all.map TrlPlace.records).eraseDups ++ d.kvRanges ld)
  anyMeet areas || areas.any fun a => (all.map TrlPlace.weights).any (meet a)

/-- Whether the LD has work that a turn excludes (check 2). -/
def Dev.turnBusy (d : Dev) (ld : Nat) : Bool :=
  d.colls.any (fun c => c.ld == ld) || d.upds.any (fun c => c.ld == ld) || (d.ld ld).wave.active ||
    d.reqs.any fun r => r.2.ld == ld && (r.2.st == .running || r.2.st == .wait || r.2.st == .cancelling || r.2.st == .ending)

/-- The source records that this member's pieces of rounds from `k` on read. -/
def ownSources (plan : List (Nat × Piece)) (did k : Nat) : List Nat :=
  ((plan.filter fun p => k ≤ p.1 && p.2.sDid == did).flatMap fun p => p.2.sRecs).eraseDups

/-- TURN. -/
def Dev.turnCmd (now : W64) (iss : Issuer) (ws : List W32) (d : Dev) : Dev :=
  let t := ticketOf iss ws
  let ld := d.issLd iss
  let dom := d.issDom iss
  let resume := bit (word ws 0).toNat 8
  let one := bit (word ws 0).toNat 9
  let first := wfld ws 8 15 0
  let stage := wfld ws 4 15 0
  let cur := d.turn ld
  let front : Checks :=
    [(wfld ws 0 15 10 ≠ 0 ∨ high48 ws 1 ∨ wfld ws 3 31 20 ≠ 0 ∨ wfld ws 4 31 16 ≠ 0 ∨ high44 ws 5 ∨ wfld ws 7 31 16 ≠ 0 ∨
        !zeroWords ws 9 15, eReservedNonzero),
      (addr44 ws 5 % blockBytes ≠ 0, eAlign),
      (num48 ws 1 = 0 ∨ stage = 0 ∨ wfld ws 7 15 0 = 0 ∨ (!resume ∧ first ≠ 0), eRange),
      ((d.busCode (.eng ld dom) true (addr44 ws 5) (stage * blockBytes + 0x100000)).isSome, ePerm),
      (cur.st = .running ∨ (cur.st = .part ∧ (!resume ∨ first ≠ cur.committed)), eState)]
  match firstFail front, d.slotPair ld one with
  | some c, _ => d.reject t c
  | none, none => d.reject t eState
  | none, some p =>
    let plan := planOf p stage
    let pl := plan.getD []
    let recs := (ownSources pl (d.did ld) first).map fun a => blkRec (d.bytes a 32)
    d.command t (firstFail [((d.ld ld).trl.active ≠ some one ∨ p.1.1.layout = p.2.1.layout, eState), (d.turnBusy ld, eState),
        (d.turnOverlap ld p ws, eRange), (plan.isNone, eRange), (recs.any (fun r => r.wEpoch != num48 ws 1), eUpdEpoch),
        (recs.any BlkRec.suspect, eState), (65536 < roundsOf pl ∨ (resume ∧ roundsOf pl ≤ first), eRange)]) fun d =>
      let d := d.modTurn ld fun _ =>
        { Turn.init with st := .running, total := roundsOf pl, committed := first, words := ws, tkt := some t, dom := dom,
                         digest := d.turnDigest ld ws, lastMove := now }
      let c := d.coordinator ld
      d.modTurn ld fun x => { x with coord := c }

def execTurn (iss : Issuer) (body : List W32) : State → Result := onMemAt fun now => Dev.turnCmd now iss body

/-! ## Ends (R426, R428, R429) -/

/-- The ranges that a round writes here, and the records it touches. -/
def Dev.roundSaves (d : Dev) (ld : Nat) : List (Nat × Nat) × List Nat :=
  let mine := (d.roundPieces ld).filter fun p => p.dDid == d.did ld
  (mine.map fun p => (p.dst, p.len), (mine.map Piece.dRec).eraseDups)

/-- Copies ranges one after the other from or to an area. -/
def Dev.stageAll (back : Bool) : List (Nat × Nat) → Nat → Dev → Dev
  | [], _, d => d
  | (a, n) :: r, at_, d =>
    Dev.stageAll back r (at_ + n) (if back then d.copyRange reqEng at_ a n else d.copyRange reqEng a at_ n)

/-- Saves a round into staging, or writes it back from there (R422, R426). -/
def Dev.stageRound (ld : Nat) (back : Bool) (d : Dev) : Dev :=
  let t := d.turn ld
  let (rs, recs) := d.roundSaves ld
  (d.stageAll back rs t.stageAddr).stageAll back (recs.map fun a => (a, 32)) (t.stageAddr + t.stage * blockBytes)

/-- The turn ends PARTIAL with a code; an ABORT that a disable asked for is recorded as the disable's (R513). -/
def Dev.turnPart (ld : Nat) (code : Code) (aborted : Bool) (d : Dev) : Dev :=
  let t := d.turn ld
  let moved := t.phase == .move || t.phase == .ready
  let d := if moved then (d.stageRound ld true).modLd ld (Ld.setXplEvt 2) else d
  let d := { d with colls := d.colls.filter fun c => !(c.ld == ld && c.turn) }
  let d := (d.modTurn ld fun t =>
    { t with st := .part, phase := .none, tkt := none, ready := [], reports := [], acked := [], newRecs := [], moved := none, inbox := [] }).modLd
    ld (Ld.setXplEvt 1)
  match t.tkt with
  | some k =>
    if code = eCollAborted ∧ d.draining k.iss ld t.dom then d.finish k eDisabled true (BitVec.ofNat 32 t.committed)
    else d.finish k code aborted (BitVec.ofNat 32 t.committed)
  | none => d

/-- The last round has committed (R428). -/
def Dev.turnDone (ld : Nat) (d : Dev) : Dev :=
  let t := d.turn ld
  let gen := match d.slotPair ld t.one with | some p => !p.2.1.layout | none => false
  let d := d.modLd ld fun l =>
    { l with trl := { l.trl with active := some (!t.one), turn := { Turn.init with total := t.total, committed := t.committed } },
             wave := if gen then { l.wave with gen := BitVec.ofNat 16 (wfld t.words 8 31 16), layerGen := [] } else l.wave }
  let d := d.modLd ld (Ld.setXplEvt 0)
  match t.tkt with
  | some k => d.finish k 0 false (BitVec.ofNat 32 t.committed)
  | none => d

/-- The coordinator aborts the open round at every member. -/
def Dev.turnAbort (ld : Nat) (code : Code) (who : Nat) (d : Dev) : Dev :=
  let t := d.turn ld
  (d.turnTell ld (.abortRound t.committed code who t.digest)).turnPart ld code false

/-- A member's error, or its wish to abort, reaches the coordinator. -/
def Dev.turnFail (ld : Nat) (code : Code) (who : Nat) (d : Dev) : Dev :=
  let t := d.turn ld
  if d.coordinates ld then d.turnAbort ld code who else d.turnSend ld t.coord (.askAbort t.committed code who t.digest)

/-- A round commits here: the new records are written and the round is counted. -/
def Dev.roundCommit (now : W64) (ld : Nat) (d : Dev) : Dev :=
  let d := (d.turn ld).newRecs.foldl (fun d r => d.writeBytes reqEng r.1 r.2) d
  let d := d.modTurn ld fun t =>
    { t with committed := t.committed + 1, phase := .none, ready := [], reports := [], acked := [], newRecs := [], lastMove := now }
  if (d.turn ld).committed = (d.turn ld).total then d.turnDone ld else d

/-- The coordinator sends COMMIT, and acts on it itself. -/
def Dev.sendCommit (now : W64) (ld : Nat) (d : Dev) : Dev :=
  let t := d.turn ld
  (d.turnTell ld (.commit t.committed t.digest)).roundCommit now ld

/-- Acts on a message of the turn whose digest agrees; another digest is the sender's mismatch. -/
def Dev.onTurn (ld who : Nat) (digest : W32) (f : Turn → Dev → Dev) (d : Dev) : Dev :=
  let t := d.turn ld
  if t.st ≠ .running then d else if digest ≠ t.digest then d.turnFail ld eCollMismatch who else f t d

/-! ## Rounds (R422 to R424) -/

/-- The descriptor of the ALL_TO_ALL by which the pieces of a round travel, of collective ID `coll_id` + r. -/
def Turn.moveWords (t : Turn) (n : Nat) : List W32 :=
  [0x65, BitVec.ofNat 32 ((wfld t.words 3 19 0 + t.committed) % 2 ^ 20 + 5 * 2 ^ 20 + 2 ^ 25), BitVec.ofNat 32 n, 0, 1, 0, 0,
    BitVec.ofNat 32 t.wdMs] ++ List.replicate 24 0

/-- The ALL_TO_ALL of a round (R330, R422): to each member its pieces in plan order, as they stand before the round, and from
each its own; every packet carries the turn digest (R418). -/
def Dev.moveColl (now : W64) (ld : Nat) (d : Dev) : Coll :=
  let t := d.turn ld
  let me := d.did ld
  let ms := d.turnDids ld
  let ps := d.roundPieces ld
  let len := fun (l : List Piece) => l.foldl (fun a p => a + p.len) 0
  let to_ := fun did => ps.filter fun p => p.sDid == me && p.dDid == did && did != me
  let from_ := fun did => ps.filter fun p => p.dDid == me && p.sDid == did && did != me
  { id := BitVec.ofNat 20 (wfld t.words 3 19 0 + t.committed), ld := ld, dom := t.dom, tkt := t.tkt.getD (ticketOf (.engine ld) []),
    words := t.moveWords ms.length, members := ms, rank := d.turnRank ld, sizes := [], segs := [],
    sends := (List.range ms.length).map fun r => (len (to_ (ms.getD r 0)), len ((ms.take r).flatMap to_)),
    recvs := ms.map fun m => (len (from_ m), 0), digest := t.digest, crop := false, granted := true, phys := [], slots := [],
    next := 0, redo := [], ended := 0, dir := [], heard := [], opened := 0, agreed := 0, grants := [], retries := [], passed := [],
    unacked := [], got := [], fence := false, lastMove := now, badCode := 0, badWho := 0, badChunk := noChunk, eng := none,
    turn := true, buf := (ms.flatMap to_).flatMap fun p => d.bytes p.src p.len }

/-- Issues the ALL_TO_ALL of a round, unless the device holds as many collectives as it can (R333). -/
def Dev.moveStart (c : Coll) (d : Dev) : Dev :=
  if 4096 ≤ d.colls.length then d.turnFail c.ld eCollFull c.rank
  else ({ d with colls := d.colls ++ [c] } : Dev).collStart c

/-- ROUND_BEGIN: the bytes that the round will write are saved, and this member's pieces leave for their destinations.
The coordinator begins only after every live member has acknowledged the round before, and not with a lost member. -/
def Dev.roundBegin (now : W64) (ld : Nat) (d : Dev) : Dev :=
  let t := d.turn ld
  let others := (d.liveRanks ld).filter (· != d.turnRank ld)
  let first := if bit (word t.words 0).toNat 8 then wfld t.words 8 15 0 else 0
  let held := d.coordinates ld && t.committed != first && !others.all t.acked.contains
  if t.st ≠ .running ∨ t.phase ≠ .none ∨ held then d
  else
    let me := d.did ld
    let ps := d.roundPieces ld
    let (saves, recs) := d.roundSaves ld
    let out := ps.filter fun p => p.sDid == me
    let reads := saves ++ recs.map (fun a => (a, 32)) ++ out.map fun p => (p.src, p.len)
    let bus := (saves ++ recs.map fun a => (a, 32)).any fun r => (d.busCode (.eng ld t.dom) true r.1 r.2).isSome
    let src := out.any fun p => (d.busCode (.eng ld t.dom) false p.src p.len).isSome
    let d := d.modTurn ld fun t => { t with lastMove := now }
    if bus || src then d.turnFail ld ePerm (d.turnRank ld)
    else
      match d.readAll reqEng reads with
      | (d, false) => d.turnFail ld ePoison (d.turnRank ld)
      | (d, true) =>
        let c := d.moveColl now ld
        ((d.stageRound ld false).modTurn ld fun t => { t with phase := .move }).moveStart c

def execRoundBegin (ld : Nat) : State → Result := onMemAt fun now => Dev.roundBegin now ld

/-- The new record of a destination block (R424). -/
def newRecord (epoch : Nat) (fp : W64) (stale : Bool) : List Byte :=
  ({ wEpoch := epoch, mEpoch := epoch, suspect := false, stale := stale, fprint := fp, mism := 0 } : BlkRec).bytes

/-- Every live member is READY: the coordinator decides. -/
def Dev.readyCheck (now : W64) (ld : Nat) (d : Dev) : Dev :=
  let t := d.turn ld
  if d.coordinates ld && (List.range (d.turnDids ld).length).all t.ready.contains then d.sendCommit now ld else d

/-- The contents that a round brings to this member: each piece with its bytes, those of a source one after the other in its
shard, and whether its source was stale, as the sources said for the pieces from elsewhere in plan order. -/
def Dev.roundContents (d : Dev) (ld : Nat) (stale : List Bool) : List (Piece × List Byte × Bool) :=
  let me := d.did ld
  let ms := d.turnDids ld
  let mine := (d.roundPieces ld).filter fun p => p.dDid == me
  (List.range mine.length).filterMap fun i =>
    (mine[i]?).map fun p =>
      let before := mine.take i
      if p.sDid = me then (p, d.bytes p.src p.len, p.sRecs.any fun a => (blkRec (d.bytes a 32)).stale)
      else
        let off := (before.filter fun q => q.sDid == p.sDid).foldl (fun a q => a + q.len) 0
        let shard := (d.turn ld).inbox.getD ((ms.findIdx? (· == p.sDid)).getD 0) []
        (p, slice shard off p.len, stale.getD ((before.filter fun q => q.sDid != me).length) false)

/-- ROUND_MOVE_END: the ALL_TO_ALL of the round has ended; a code that ended it is this member's error, and otherwise the
pieces are written in place. -/
def Dev.roundMoveEnd (now : W64) (ld src : Nat) (stale : List Bool) (digest : W32) (d : Dev) : Dev :=
  d.onTurn ld src digest fun t d =>
    if t.phase ≠ .move ∨ t.moved.isNone then d
    else
    let (code, who) := t.moved.getD (0, 0)
    let cs := d.roundContents ld stale
    let d := d.modTurn ld fun t => { t with moved := none, inbox := [] }
    if code ≠ 0 then d.turnFail ld code who
    else
      let plan := d.turnPlan ld
      let d := cs.foldl (fun d c => d.writeBytes reqEng c.1.dst c.2.1) d
      let recs := (cs.map fun c => c.1.dRec).eraseDups
      let news := recs.filterMap fun a =>
        (cs.find? fun c => c.1.dRec == a).map fun c =>
          let e := c.1.dEnt
          let b := (c.1.dst - e.w) / blockBytes
          let before := plan.any fun p => decide (p.1 < t.committed) && p.2.dDid == d.did ld && p.2.dRec == a
          let old := before && (blkRec (d.bytes a 32)).stale
          let bad := cs.any fun x => x.1.dRec == a && x.2.2
          (a, newRecord t.epoch (fingerprint (d.bytes (e.w + b * blockBytes) blockBytes)) (old || bad))
      let me := d.turnRank ld
      let d := d.modTurn ld fun t => { t with phase := .ready, newRecs := news, lastMove := now }
      if d.coordinates ld then (d.modTurn ld fun t => { t with ready := insNat me t.ready }).readyCheck now ld
      else d.turnSend ld t.coord (.ready t.committed t.digest)

def execRoundMoveEnd (ld src : Nat) (stale : List Bool) (digest : W32) : State → Result :=
  onMemAt fun now => Dev.roundMoveEnd now ld src stale digest

/-! ## Decisions (R425 to R427) -/

/-- READY_RECEIVE. -/
def Dev.readyReceive (now : W64) (ld rank round : Nat) (digest : W32) (d : Dev) : Dev :=
  d.onTurn ld rank digest fun t d =>
    if !d.coordinates ld ∨ round ≠ t.committed then d
    else (d.modTurn ld fun t => { t with ready := insNat rank t.ready }).readyCheck now ld

def execReadyReceive (ld rank round : Nat) (digest : W32) : State → Result := onMemAt fun now => Dev.readyReceive now ld rank round digest

/-- COMMIT_RECEIVE. -/
def Dev.commitReceive (now : W64) (ld round : Nat) (digest : W32) (d : Dev) : Dev :=
  let t := d.turn ld
  d.onTurn ld t.coord digest fun t d =>
    if t.phase = .ready ∧ round = t.committed then
      (d.turnSend ld t.coord (.roundState round true t.digest)).roundCommit now ld
    else d

def execCommitReceive (ld round : Nat) (digest : W32) : State → Result := onMemAt fun now => Dev.commitReceive now ld round digest

/-- ABORT_RECEIVE: the coordinator's decision, or at the coordinator a member's request for it. -/
def Dev.abortReceive (ld round : Nat) (code : Code) (who : Nat) (digest : W32) (d : Dev) : Dev :=
  let t := d.turn ld
  if t.st ≠ .running ∨ round ≠ t.committed ∨ code = 0 then d
  else if d.coordinates ld then d.turnAbort ld (if digest = t.digest then code else eCollMismatch) who
  else d.turnPart ld (if digest = t.digest then code else eCollMismatch) false

def execAbortReceive (ld round : Nat) (code : Code) (who : Nat) (digest : W32) : State → Result :=
  onDev (Dev.abortReceive ld round code who digest)

/-- The member that a round awaits: at the coordinator the lowest that is not READY, elsewhere the lowest that sends to
this member. -/
def Dev.roundAwaited (d : Dev) (ld : Nat) : Nat :=
  let t := d.turn ld
  if d.coordinates ld then ((d.liveRanks ld).find? fun r => !t.ready.contains r).getD 0
  else
    let from_ := ((d.roundPieces ld).filter fun p => p.dDid == d.did ld && p.sDid != d.did ld).map Piece.sDid
    ((List.range (d.turnDids ld).length).find? fun r => from_.contains ((d.turnDids ld).getD r 0)).getD t.coord

/-- ROUND_WATCHDOG: `wd_ms` of elapsed time, at the coordinator or at a member that has not sent READY. -/
def Dev.roundWatchdog (now : W64) (ld : Nat) (d : Dev) : Dev :=
  let t := d.turn ld
  if t.st = .running ∧ (d.coordinates ld ∨ t.phase ≠ .ready) ∧ 100000 * t.wdMs ≤ (now - t.lastMove).toNat then
    d.turnFail ld eCollTimeout (d.roundAwaited ld)
  else d

def execRoundWatchdog (ld : Nat) : State → Result := onDevAt fun now => Dev.roundWatchdog now ld

/-- A coordinator that has taken over commits the round that some survivor has committed, else aborts it; the turn then
ends for the loss. -/
def Dev.takeOver (now : W64) (ld : Nat) (commit : Bool) (d : Dev) : Dev :=
  let ms := d.turnDids ld
  let lost := ((List.range ms.length).find? fun r => d.isLost ld (ms.getD r 0)).getD 0
  let d := if commit then d.sendCommit now ld else d
  if (d.turn ld).st = .running then d.turnAbort ld eMemberLost lost else d

/-- ROUND_STATE_REPORT: an acknowledgement of COMMIT, or a survivor's state at a new coordinator (R427). -/
def Dev.roundReport (now : W64) (ld rank round : Nat) (committed : Bool) (digest : W32) (d : Dev) : Dev :=
  d.onTurn ld rank digest fun t d =>
    if !d.coordinates ld then d
    else if committed ∧ round + 1 = t.committed then d.modTurn ld fun t => { t with acked := insNat rank t.acked }
    else if t.phase ≠ .none ∧ round = t.committed then
      if committed ∧ t.phase = .ready then d.takeOver now ld true
      else
        let d := d.modTurn ld fun t => { t with reports := insNat rank t.reports }
        let others := (d.liveRanks ld).filter (· != d.turnRank ld)
        if (d.turnDids ld).length ≠ (d.liveRanks ld).length ∧ others.all (d.turn ld).reports.contains then d.takeOver now ld false else d
    else d

def execRoundStateReport (ld rank round : Nat) (committed : Bool) (digest : W32) : State → Result :=
  onMemAt fun now => Dev.roundReport now ld rank round committed digest

/-- A member of a running turn has been declared lost (R318, R426, R427). -/
def Dev.turnLost (now : W64) (ld did : Nat) (d : Dev) : Dev :=
  let t := d.turn ld
  let ms := d.turnDids ld
  match ms.findIdx? (· == did) with
  | none => d
  | some r =>
    if t.st ≠ .running then d
    else if d.coordinates ld then d.turnAbort ld eMemberLost r
    else if t.coord ≠ r then d
    else
      let c := d.coordinator ld
      let d := d.modTurn ld fun t => { t with coord := c }
      let state : FabMsg := if t.phase = .none then .roundState (t.committed - 1) true t.digest else .roundState t.committed false t.digest
      if c ≠ d.turnRank ld then d.turnSend ld c state
      else if t.phase = .none then
        let d := if t.committed = 0 then d else d.turnTell ld (.commit (t.committed - 1) t.digest)
        d.turnAbort ld eMemberLost r
      else if (d.liveRanks ld).length = 1 then d.takeOver now ld false
      else d

/-- XPL_ABORT: a write of `XPL_CTL`. -/
def Dev.xplCtl (ld : Nat) (v : W32) (d : Dev) : Dev :=
  d.checked (.ld ld) (firstFail [(ld = 15, ePerm), (fld v 31 1 ≠ 0, eReservedNonzero),
      (v.getLsbD 0 && (d.turn ld).st != .running, eState)]) fun d =>
    if v.getLsbD 0 then d.turnFail ld eCollAborted (d.turnRank ld) else d

def execXplAbort (ag : Agent) (ld : Nat) (v : W32) : State → Result := onDev (Dev.pageWrite ag ld 0xC014 (Dev.xplCtl ld v))

/-! ## XPL_PLAN (R430) -/

/-- One entry of a plan. -/
def planEntry (round kind peer gpi n a : Nat) : List Byte :=
  toBytes 2 round ++ toBytes 2 kind ++ toBytes 2 peer ++ zeros 2 ++ toBytes 8 gpi ++ toBytes 4 n ++ toBytes 8 a ++ zeros 4

/-- The entries of a rank, in plan order. -/
def planEntries (ms : List Nat) (rank : Nat) (plan : List (Nat × Piece)) : List (List Byte) :=
  let me := ms.getD rank 0
  let rankIn := fun did => (ms.findIdx? (· == did)).getD 0
  plan.flatMap fun x =>
    let p := x.2
    if p.dDid = me ∧ p.sDid = me then [planEntry x.1 2 rank p.gpi p.n p.dst]
    else if p.dDid = me then [planEntry x.1 0 (rankIn p.sDid) p.gpi p.n p.dst]
    else if p.sDid = me then [planEntry x.1 1 p.dRank p.gpi p.n p.src] else []

/-- XPL_PLAN. -/
def Dev.xplPlan (iss : Issuer) (ws : List W32) (d : Dev) : Dev :=
  let t := ticketOf iss ws
  let ld := d.issLd iss
  let dom := d.issDom iss
  let rank := wfld ws 5 13 0
  let out := addr44 ws 6
  let len := (word ws 8).toNat
  let stage := wfld ws 4 15 0
  match firstFail [(wfld ws 0 8 8 ≠ 0 ∨ wfld ws 0 15 10 ≠ 0 ∨ !zeroWords ws 1 3 ∨ wfld ws 4 31 16 ≠ 0 ∨ wfld ws 5 31 14 ≠ 0 ∨
        high44 ws 6 ∨ !zeroWords ws 9 15, eReservedNonzero), (stage = 0, eRange)], d.slotPair ld (bit (word ws 0).toNat 9) with
  | some c, _ => d.reject t c
  | none, none => d.reject t eState
  | none, some p =>
    let ms := (p.2.1.members p.2.2).map TrlMem.ldid
    let plan := planOf p stage
    let es := planEntries ms rank (plan.getD [])
    d.command t (firstFail [(ms.length ≤ rank ∨ plan.isNone ∨ 65536 < roundsOf (plan.getD []), eRange),
        ((d.busCode (.eng ld dom) true out (min len (32 * es.length))).isSome, ePerm), (len < 32 * es.length, eExhausted)]) fun d =>
      (d.writeBytes reqEng out es.flatten).finish t 0 false (BitVec.ofNat 32 es.length)

def execXplPlan (iss : Issuer) (body : List W32) : State → Result := onMem (Dev.xplPlan iss body)

end Sys2Proof.Machine
end

