-- ==== Sys2Proof/Machine/Loss.lean ====
section
/-! DEFINITION. Loss of a partner (R317, R318), its return (R319), and the notices of both. -/

namespace Sys2Proof.Machine

/-- The ports of an LD. -/
def Dev.portsOf (d : Dev) (ld : Nat) : List Nat := (List.range 32).filter fun p => d.ldOfPort p == ld

/-- The logical DIDs under which an LD reaches a physical one: its own, and those grafted onto it (R310, R321). -/
def Dev.namesOf (d : Dev) (ld did : Nat) : List Nat :=
  did :: ((d.grafts.filter fun g => g.2.ld == ld && g.2.toDid.toNat == did).map fun g => g.2.fromDid.toNat).filter (· != did)

/-- The packet of a notice to the neighbour of a port. -/
def noticePacket (src dst : BitVec 14) : Packet :=
  { dstDid := dst, srcDid := src, cls := 0, kind := 6, units := 0, tag := 0, addr := 0, hops := 0, code := 0, poison := 0, data := [] }

/-- A loss or found notice on every ACTIVE port but the one on which it came; a notice that came is passed on once per DID and
incarnation (R317). -/
def Dev.notice (ld did : Nat) (inc : W32) (loss : Bool) (from_ : Option Nat) (d : Dev) : Dev :=
  if from_.isSome ∧ (d.ld ld).fab.forwarded.contains (did, inc, loss) then d
  else
    let ps := (d.portsOf ld).filter fun p => (d.port p).st == .active && from_ != some p
    let x := BitVec.ofNat 14 did
    ps.foldl (fun d p => d.portSend p
        { out := if loss then .loss p x inc else .found p x inc, packets := [noticePacket (d.ld ld).lay.ldid (d.port p).nbrDid] })
      (d.modFab ld fun f => { f with forwarded := f.forwarded ++ [(did, inc, loss)] })

/-- The steps of a swap wave that include a lost member end with their requests, and the wave stops (R291). -/
def Dev.waveLost (now : W64) (ld did : Nat) (d : Dev) : Dev :=
  if (d.ld ld).wave.active ∧ (d.groupOthers ld).contains did then
    let ns := (d.reqs.filter fun e => e.2.ld == ld && e.2.inStep && e.2.group.contains did &&
      (e.2.st == .running || e.2.st == .cancelling)).map Prod.fst
    ns.foldl (fun d n => d.failRequest now n eMemberLost) (d.waveStop ld eMemberLost false)
  else d

/-- Ends whatever an LD has outstanding towards a logical DID, or shares with it (R318 points 1 and 3). -/
def Dev.endWith (now : W64) (ld did : Nat) (d : Dev) : Dev :=
  let d := (d.sends ld fun j => wfld j.words 3 13 0 == did).foldl (fun d q => d.sendEnd q.1 q.2 eMemberLost) d
  let d := d.fetchLost now ld did
  let d := { d with net := { d.net with held := d.net.held.filter fun h => h.ld != ld || h.dst != d.physOf ld did } }
  let d := d.fabClose ld fun r => r.dst.toNat == did
  let d := d.collLost ld did
  let d := d.waveLost now ld did
  d.turnLost now ld did

/-- An LD declares a DID lost (R317, R318). -/
def Dev.declareLost (now : W64) (ld did : Nat) (inc : W32) (from_ : Option Nat) (d : Dev) : Dev :=
  if d.isLost ld did then (if from_.isSome then d.notice ld did inc true from_ else d)
  else
    let names := (d.namesOf ld did).filter fun x => !d.isLost ld x
    let d := d.modFab ld fun f =>
      { f with lost := f.lost ++ names.map fun x => (x, inc), lostCount := sat16 f.lostCount, lastLost := BitVec.ofNat 14 did }
    let d := (d.modLd ld (Ld.setFabEvt 3)).notice ld did inc true from_
    (names.foldl (fun d x => d.endWith now ld x) d).reap now

/-- A lost DID is found again (R319). -/
def Dev.declareFound (ld did : Nat) (inc : W32) (from_ : Option Nat) (d : Dev) : Dev :=
  if d.isLost ld did then
    let names := d.namesOf ld did
    let d := d.modFab ld fun f => { f with lost := f.lost.filter fun x => !names.contains x.1 }
    (d.modLd ld (Ld.setFabEvt 4)).notice ld did inc false from_
  else d

/-- Whether a notice that came on a port is heard: the port is ACTIVE, and the notice names another partition. -/
def Dev.hears (d : Dev) (p did : Nat) : Bool :=
  (d.port p).st == .active && did != (d.ld (d.ldOfPort p)).lay.did.toNat && decide (d.ldOfPort p < 10)

/-- LOSS_NOTICE. A notice with an incarnation other than that of a trained neighbour is not of this partner (R317). -/
def Dev.lossNotice (now : W64) (p did : Nat) (inc : W32) (d : Dev) : Dev :=
  let ld := d.ldOfPort p
  let old := (d.portsOf ld).any fun q => (d.port q).st == .active && (d.port q).nbrDid.toNat == did && (d.port q).nbrInc != inc
  let d := d.owe p 0 1
  if d.hears p did && !old then d.declareLost now ld did inc (some p) else d

/-- FOUND_NOTICE: a partition behind a switch clears the DID as well, and passes the notice on. -/
def Dev.foundNotice (p did : Nat) (inc : W32) (d : Dev) : Dev :=
  let d := d.owe p 0 1
  if d.hears p did then d.declareFound (d.ldOfPort p) did inc (some p) else d

def execLossNotice (port : Nat) (did : BitVec 14) (inc : W32) : State → Result :=
  onDevAt fun now => Dev.lossNotice now port did.toNat inc
def execFoundNotice (port : Nat) (did : BitVec 14) (inc : W32) : State → Result :=
  onDev (Dev.foundNotice port did.toNat inc)

end Sys2Proof.Machine
end

