-- ==== Sys2Proof/Machine/Disable.lean ====
section
/-! DEFINITION. Disabling a scope with work in flight (R512, R513): what begins at the request, what happens at the
drain limit, and when nothing of the scope is left. -/

namespace Sys2Proof.Machine

/-! ## The scope's work -/

/-- Whether a scope covers a request; a queue's disable leaves the requests it has submitted. -/
def coversReq (sc : Scope) (r : ReqSlot) : Bool :=
  match sc with
  | .domain x => r.dom == x
  | .ld n => r.ld == n
  | _ => false

/-- The requests of a scope that hold a slot. -/
def Dev.reqsIn (d : Dev) (sc : Scope) : List Nat := (d.reqs.filter fun e => e.2.st != .free && coversReq sc e.2).map Prod.fst

/-- The programs of a scope: the clusters on which they run. -/
def Dev.programsIn (d : Dev) (sc : Scope) : List Nat :=
  (d.launches.filter fun j => covers sc j.tkt.iss j.ld j.dom).flatMap LaunchJob.running ++
    (List.range 10).flatMap fun l => match (d.ld l).ctl.crop with
      | some j => if covers sc j.tkt.iss l j.dom then j.on else []
      | none => []

/-- Launches of a scope start no further cluster, and neither does its catch-crop job. -/
def Dev.stopLaunches (sc : Scope) (d : Dev) : Dev :=
  let d := (d.launches.filter fun j => covers sc j.tkt.iss j.ld j.dom && !j.waiting.isEmpty).foldl
    (fun d j => d.launchUpdate { j with waiting := [], aborted := true }) d
  (List.range 10).foldl (fun d l => match (d.ld l).ctl.crop with
    | some j => if covers sc j.tkt.iss l j.dom ∧ !j.todo.isEmpty then d.cropUpdate l { j with todo := [], aborted := true } else d
    | none => d) d

/-- A request ends under a disable: QUEUED and waiting ones at once, the others at their next step boundary (R280,
R513). -/
def Dev.disableReq (now : W64) (n : Nat) (d : Dev) : Dev :=
  (d.modReq n fun r => if r.st = .cancelling then r else { r with endStatus := 3, endCode := eDisabled }).cancelReq now n

/-- The turns of a scope: ABORT is asked for. -/
def Dev.disableTurn (sc : Scope) (ld : Nat) (d : Dev) : Dev :=
  let t := d.turn ld
  match t.tkt with
  | some k => if t.st = .running ∧ covers sc k.iss ld t.dom then d.turnFail ld eCollAborted (d.turnRank ld) else d
  | none => d

/-- The swap waves of a scope: the layer in copy completes, and the wave stops. -/
def Dev.disableWave (sc : Scope) (ld : Nat) (d : Dev) : Dev :=
  let w := (d.ld ld).wave
  match w.tkt with
  | some k =>
    if w.active ∧ covers sc k.iss ld w.dom then
      let d := match w.copying with | some j => d.layerDone ld j | none => d
      if (d.ld ld).wave.tkt.isSome then d.waveStop ld eDisabled true else d
    else d
  | none => d

/-- The queues of a scope stop fetching (R452, R513 step 1). -/
def Dev.stopQueues (sc : Scope) (d : Dev) : Dev :=
  { d with lds := d.lds.map fun e =>
      (e.1, { e.2 with host := { e.2.host with cqs := e.2.host.cqs.map fun c =>
        let hit := match sc with
          | .queue l q => l == e.1 && q == c.1
          | .domain x => c.2.domain.toNat == x
          | .ld n => n == e.1
          | _ => false
        (c.1, if hit && c.2.st == .enabled then { c.2 with st := .draining } else c.2) } }) }

/-- The handshake at which a disable is asked for (R513 steps 1 to 4). -/
def Dev.disableBegin (now : W64) (sc : Scope) (ld : Nat) (d : Dev) : Dev :=
  let d := (d.drainBegin now sc ld).stopQueues sc
  let d := (d.stopLaunches sc)
  let d := (d.programsIn sc).foldl (fun d n => d.stopProgram n) d
  let d := (d.reqsIn sc).foldl (fun d n => d.disableReq now n) d
  (List.range 10).foldl (fun d l => (d.disableTurn sc l).disableWave sc l) d

/-- What the drain limit ends (R513 step 5 and its table). A program that waits at its YIELD has reached its yield point:
it ends there once its cluster has drained (R171). -/
def Dev.disableLimit (now : W64) (sc : Scope) (d : Dev) : Dev :=
  let d : Dev := { d with boot := { d.boot with drains := d.boot.drains.map fun (x : Drain) => if x.sc == sc then { x with expired := true } else x } }
  let d := ((d.programsIn sc).filter fun n => (d.clu n).atYield.isNone).foldl (fun d n => d.abortProgram n) d
  let d := (d.colls.filter fun c => covers sc c.tkt.iss c.ld c.dom).foldl (fun d c => d.collEnd c eDisabled c.rank noChunk true) d
  let d := (d.upds.filter fun c => covers sc c.tkt.iss c.ld c.dom).foldl (fun d c => d.updStop now eDisabled true c) d
  ((d.reqsIn sc).filter fun n => (d.req n).inStep).foldl (fun d n => d.endCancelled now n) d

/-- Whether work of a scope is left (R513 step 7). -/
def Dev.busy (d : Dev) (sc : Scope) : Bool :=
  d.launches.any (fun j => covers sc j.tkt.iss j.ld j.dom) ||
    d.kvJobs.any (fun q => q.2.any fun j => covers sc j.tkt.iss j.ld j.dom) ||
    d.score.any (fun q => q.2.any fun j => covers sc j.tkt.iss j.ld j.dom) ||
    d.colls.any (fun c => covers sc c.tkt.iss c.ld c.dom) || d.upds.any (fun c => covers sc c.tkt.iss c.ld c.dom) ||
    !(d.reqsIn sc).isEmpty || d.domains.any (fun x => x.2.tkt.any fun k => covers sc k.iss (d.issLd k.iss) (d.issDom k.iss)) ||
    d.adapters.any (fun a => a.2.tkt.any fun k => covers sc k.iss a.2.ld a.2.domain.toNat) ||
    d.imports.any (fun j => covers sc j.tkt.iss j.ld j.dom) || d.pageJobs.any (fun j => covers sc j.tkt.iss j.ld j.dom) ||
    (List.range 10).any fun l =>
      (d.ld l).ctl.crop.any (fun j => covers sc j.tkt.iss l j.dom) ||
        (d.turn l).tkt.any (fun k => covers sc k.iss l (d.turn l).dom) || (d.ld l).wave.tkt.any fun k => covers sc k.iss l (d.ld l).wave.dom

/-- A queue reaches the end of its drain: its context is cleared, its open phases end, and it is DISABLED (R404,
R452). -/
def Dev.queueOff (now : W64) (ld q : Nat) (d : Dev) : Dev :=
  let x := (d.ld ld).cq q
  if x.st = .draining ∧ x.outstanding = 0 then
    let d := d.phasesAborted now ld q
    let d := d.modLd ld fun l =>
      { l with host := { l.host with cqs := Map.set l.host.cqs q { x with st := .disabled, tail := 0, head := 0 } } }
    if (d.drain? (.queue ld q)).isSome then d.drainOver (.queue ld q) ld else d
  else d

/-- QUEUE_DRAIN_END. -/
def execQueueDrainEnd (ld q : Nat) : State → Result := onDevAt fun now => Dev.queueOff now ld q

/-- DRAIN_LIMIT_EXPIRY: the limit of a drain has run out on the local elapsed counter. -/
def Dev.drainExpiry (now : W64) (sc : Scope) (d : Dev) : Dev :=
  match d.drain? sc with
  | none => d
  | some x => if x.expired ∨ (now - x.at_).toNat < 100 * x.limitUs.toNat then d else d.disableLimit now sc

def execDrainLimitExpiry (sc : Scope) : State → Result := onDevAt fun now => Dev.drainExpiry now sc

end Sys2Proof.Machine
end

