-- ==== Sys2Proof/Machine/Domains.lean ====
section
/-! DEFINITION. Tenant domains, page tags and the commands of R489 that act on them (R463 to R473, R484), and the
opening and closing of domains. -/

namespace Sys2Proof.Machine

/-- Largest quotas (R473). -/
def maxKv : Nat := 1310720
def maxReq : Nat := 262144
def maxRake : Nat := 20480

/-- Whether a domain lies in the range of an LD (R463). -/
def Dev.ownsDom (d : Dev) (ld dom : Nat) : Bool :=
  decide ((d.ld ld).lay.domBase ≤ dom) && decide (dom < (d.ld ld).lay.domBase + (d.ld ld).lay.domCount)

/-- Whether an issuer's domain is its LD's control domain (R464). -/
def Dev.isControl (d : Dev) (ld dom : Nat) : Bool := decide (dom = (d.ld ld).lay.domBase) && decide (0 < (d.ld ld).lay.domCount)

/-- A domain opens under a memory key, with a fresh key-agreement key from the random-bit generator (R465). The empty
key stands for the start key of its slot. -/
def Dev.openWith (dom kvQ reqQ rakeQ : Nat) (key : List Byte) (d : Dev) : Dev :=
  let (d, e) := d.draw
  let d := { d with crypto := { d.crypto with drbgCount := d.crypto.drbgCount + 1 } }
  d.modDom dom fun _ =>
    { Domain.init with st := .open, kvQ := kvQ, reqQ := reqQ, rakeQ := rakeQ, memKey := key, kemKey := toBytes 64 e }

/-- A domain opens with a fresh memory key too (R465). -/
def Dev.openDomain (dom kvQ reqQ rakeQ : Nat) (d : Dev) : Dev :=
  let (d, k) := d.draw
  ({ d with crypto := { d.crypto with drbgCount := d.crypto.drbgCount + 1 } } : Dev).openWith dom kvQ reqQ rakeQ (toBytes 64 k)

/-- The state check of a domain that a command names: E_DISABLED while CLOSING, E_STATE in the other wrong states
(R465). -/
def Dev.domStateCheck (d : Dev) (dom : Nat) (want : DomState) : Checks :=
  [((d.dom dom).st = .closing, eDisabled), ((d.dom dom).st ≠ want, eState)]

/-- The reserved bits of a body of R489, given those of words 1 on. -/
def secReserved (ws : List W32) (used : List Nat) (more : Bool) : Bool := more || wfld ws 0 15 8 != 0 || !onlyWords ws 16 (0 :: used)

/-- The fields of DOM_OPEN and DOM_QUOTA: their reserved bits, and the quotas of R473. -/
def quotaChecks (ws : List W32) : Checks :=
  [(secReserved ws [1, 2, 3, 4] (wfld ws 1 31 12 != 0 || wfld ws 2 31 21 != 0 || wfld ws 3 31 19 != 0 || wfld ws 4 31 15 != 0),
      eReservedNonzero),
    (maxKv < wfld ws 2 20 0 ∨ maxReq < wfld ws 3 18 0 ∨ maxRake < wfld ws 4 14 0, eRange)]

/-- DOM_OPEN. It waits while a health test of the noise source fails (R475). -/
def Dev.domOpen (iss : Issuer) (ws : List W32) (d : Dev) : Dev :=
  let t := ticketOf iss ws
  let ld := d.issLd iss
  let dom := wfld ws 1 11 0
  let e := firstFail (quotaChecks ws ++ ([(!d.isControl ld (d.issDom iss) ∨ !d.ownsDom ld dom, ePerm)] : Checks) ++
    d.domStateCheck dom .closed)
  if e.isNone ∧ d.crypto.drbgFail then d
  else d.command t e fun d => (d.openDomain dom (wfld ws 2 20 0) (wfld ws 3 18 0) (wfld ws 4 14 0)).done t 0

/-- DOM_QUOTA. -/
def Dev.domQuota (iss : Issuer) (ws : List W32) (d : Dev) : Dev :=
  let t := ticketOf iss ws
  let ld := d.issLd iss
  let dom := wfld ws 1 11 0
  d.command t
    (firstFail (quotaChecks ws ++ ([(!d.isControl ld (d.issDom iss) ∨ !d.ownsDom ld dom, ePerm), (d.isControl ld dom, eState)] : Checks) ++
      d.domStateCheck dom .open))
    fun d => (d.modDom dom fun x => { x with kvQ := wfld ws 2 20 0, reqQ := wfld ws 3 18 0, rakeQ := wfld ws 4 14 0 }).done t 0

/-- DOM_CLOSE: the domain is CLOSING and its disable begins (R465 step 1). -/
def Dev.domClose (now : W64) (iss : Issuer) (ws : List W32) (d : Dev) : Dev :=
  let t := ticketOf iss ws
  let ld := d.issLd iss
  let dom := wfld ws 1 11 0
  d.command t
    (firstFail ([(secReserved ws [1] (wfld ws 1 31 12 != 0), eReservedNonzero),
      (!d.isControl ld (d.issDom iss) ∨ !d.ownsDom ld dom, ePerm), (d.isControl ld dom, eState)] ++ d.domStateCheck dom .open))
    fun d => (d.modDom dom fun x => { x with st := .closing, tkt := some t }).disableBegin now (.domain dom) ld

/-! ## Page tags (R467, R470, R472) -/

/-- The frames of a domain in a tag state. -/
def Dev.framesOf (d : Dev) (dom : Nat) (p : PageTag → Bool) : List Nat :=
  (d.tags.filter fun e => e.2.domain.toNat == dom && p e.2).map Prod.fst

/-- Once the disable of a CLOSING domain is over and no assign to it is under way, its pages are released (R465 step
3). -/
def Dev.closeAdvance (dom : Nat) (d : Dev) : Dev :=
  if (d.dom dom).st = .closing ∧ (d.drain? (.domain dom)).isNone ∧ (d.framesOf dom fun t => t.st == .zeroing && !t.release).isEmpty then
    (d.framesOf dom fun t => t.st == .assigned).foldl (fun d n => d.setTag n { d.tag n with st := .zeroing, release := true }) d
  else d

/-- Where PAGE_SET may not act: outside the LD's windows, in an unpopulated stack or channel, or in a reserved area
(R489, R496). -/
def Dev.frameOut (d : Dev) (ld a : Nat) : Bool := (frameOf a).isNone || !d.ownsWindow ld a || d.unpopulated a || d.reserved a

/-- PAGE_SET: the checks of R470 and R489, then the flags at once, or the zero fills begin. -/
def Dev.pageSet (iss : Issuer) (ws : List W32) (d : Dev) : Dev :=
  let t := ticketOf iss ws
  let ld := d.issLd iss
  let act := wfld ws 1 1 0
  let dom := wfld ws 1 27 16
  let a := addrAt ws 2
  let n := wfld ws 4 16 0
  let addrs := (List.range n).map fun i => a + i * frameBytes
  let frames := addrs.filterMap frameOf
  let want := if act = 0 then TagState.free else TagState.assigned
  let early := firstFail
    [(secReserved ws [1, 2, 3, 4] (wfld ws 1 15 5 != 0 || wfld ws 1 31 28 != 0 || addrHigh ws 2 || wfld ws 4 31 17 != 0), eReservedNonzero),
      (a % frameBytes ≠ 0, eAlign), (act = 3 ∨ n = 0 ∨ 65536 < n, eRange)]
  match early with
  | some c => d.reject t c
  | none =>
    d.command t
      (firstFail (([(!d.isControl ld (d.issDom iss) ∨ (act = 0 ∧ !d.ownsDom ld dom) ∨ addrs.any (d.frameOut ld), ePerm)] : Checks) ++
        (if act = 0 then d.domStateCheck dom .open else []) ++ ([(frames.any fun f => (d.tag f).st != want, eState)] : Checks)))
      fun d =>
        let flags := fun (x : PageTag) => { x with shared := bit (word ws 1).toNat 2, host := bit (word ws 1).toNat 3, fabric := bit (word ws 1).toNat 4 }
        if act = 2 then (frames.foldl (fun (d : Dev) f => d.setTag f (flags (d.tag f))) d).done t 0
        else
          let d := frames.foldl (fun (d : Dev) f => d.setTag f
            (if act = 0 then { flags (d.tag f) with st := .zeroing, domain := BitVec.ofNat 12 dom, release := false }
             else { d.tag f with st := .zeroing, release := true })) d
          { d with pageJobs := d.pageJobs ++ [{ tkt := t, ld := ld, dom := d.issDom iss, words := ws, left := frames }] }

/-- PAGE_ZERO_FILL_COMPLETE: the frame is ASSIGNED or FREE; the last frame of a PAGE_SET completes it. -/
def Dev.pageFilled (f : Nat) (d : Dev) : Dev :=
  let x := d.tag f
  if x.st ≠ .zeroing then d
  else
    let d := d.zeroRange reqMc (frameAddr f) frameBytes
    let d := d.setTag f (if x.release then PageTag.init else { x with st := .assigned })
    let d := match d.pageJobs.find? fun j => j.left.contains f with
      | none => d
      | some j =>
        let left := j.left.filter (· != f)
        if left.isEmpty then ({ d with pageJobs := d.pageJobs.filter fun q => q != j } : Dev).done j.tkt 0
        else { d with pageJobs := d.pageJobs.map fun (q : MgmtJob) => if q == j then { q with left := left } else q }
    d.closeAdvance x.domain.toNat

/-- Whether the management controller, or the ROM for mailbox 0 of LD 15, takes the message of mailbox m: it is full,
mailbox 16 + m is empty, and no message of it is in service (R556). -/
def Dev.mbxReady (d : Dev) (ld m : Nat) : Bool :=
  (d.pageMode ld == .full || (d.pageMode ld == .minimal && m == 0)) &&
    ((d.ld ld).mbx m).full && !((d.ld ld).mbx (16 + m)).full && !d.pageJobs.any fun j => j.tkt.iss == .msg ld && m == 0

/-- Word i of the message in mailbox m. -/
def Dev.mbxWord (d : Dev) (ld m i : Nat) : W32 := ((d.ld ld).mbx m).data.getD i 0

/-- Whether mailbox 0 of an LD holds an inline message of a kind (R458). -/
def Dev.isMsg (d : Dev) (ld msg : Nat) : Bool := fld (d.mbxWord ld 0 0) 31 28 == 0 && fld (d.mbxWord ld 0 0) 27 16 == msg

/-- The PAGE_SET message of R472: words 1 to 4 of the body come from the message. One that arrived before level 1 is
refused, and while the LD drains it is disabled work (R513). -/
def Dev.pageSetMsg (ld : Nat) (d : Dev) : Dev :=
  if !(d.mbxReady ld 0 && d.isMsg ld 0x020) then d
  else
    let ws := 0x83 :: (List.range 4).map fun i => d.mbxWord ld 0 (i + 1)
    let t := ticketOf (.msg ld) ws
    if ((d.ld ld).mbx 0).sentAt ≠ 2 then d.reject t eState
    else if (d.ld ld).ctl.st ≠ .enabled then d.reject t eDisabled
    else d.pageSet (.msg ld) ws

/-! ## The end of a close (R465 steps 2 to 5) -/

/-- The disable of a CLOSING domain is over: its KV pages are freed, its adapter slots are zeroed, and its pages
follow (R465 steps 2 and 3). -/
def Dev.domDrained (dom ld : Nat) (d : Dev) : Dev :=
  let hs := (d.kv.filter fun e => e.2.domain.toNat == dom && e.2.st != .free && e.2.st != .retired && e.2.st != .releasing).map Prod.fst
  let d := d.release hs
  let d := { d with adapters := d.adapters.map fun (e : Nat × Adapter) =>
    if e.2.domain.toNat == dom && (e.2.st == AdpState.ready || e.2.st == AdpState.retiring || e.2.st == AdpState.loading) then (e.1, { e.2 with st := AdpState.zeroing }) else e }
  (d.drainOver (.domain dom) ld).closeAdvance dom

/-- A domain after its close: its keys are overwritten with zeros (R465 step 4). -/
def Domain.closed : Domain := { Domain.init with memKey := zeros 64 }

/-- DOM_CLOSE_COMPLETE: nothing of the domain is left; its keys are overwritten and it is CLOSED. -/
def Dev.domCloseComplete (dom : Nat) (d : Dev) : Dev :=
  let x := d.dom dom
  let left := d.kv.any (fun e => e.2.domain.toNat == dom && e.2.st != .free && e.2.st != .retired) ||
    d.adapters.any (fun a => a.2.domain.toNat == dom && a.2.st != .free) ||
    !(d.framesOf dom fun t => t.st == .assigned || t.st == .zeroing).isEmpty
  match x.tkt with
  | none => d
  | some t =>
    if x.st ≠ .closing ∨ (d.drain? (.domain dom)).isSome ∨ left then d
    else (((d.modDom dom fun _ => Domain.closed).modLd (d.issLd t.iss) (Ld.setSecEvt 5)).done t 0)

/-! ## Keys (R476, R484, R489) -/

/-- PUB_KEY: bit 0 of word 1 is 0 to add and 1 to remove; the order of the words is the table's. -/
def Dev.pubKey (iss : Issuer) (ws : List W32) (d : Dev) : Dev :=
  let t := ticketOf iss ws
  let ld := d.issLd iss
  let rm := bit (word ws 1).toNat 0
  let i := wfld ws 1 13 8
  let a := addrAt ws 2
  let used := (Map.find (d.ld ld).sec.pubKeys i).isSome
  match firstFail [(secReserved ws [1, 2, 3] (wfld ws 1 7 1 != 0 || wfld ws 1 31 14 != 0 || addrHigh ws 2), eReservedNonzero),
      (!d.isControl ld (d.issDom iss) ∨ (!rm ∧ (d.busCode (.eng ld (d.issDom iss)) false a 60).isSome), ePerm), (rm != used, eState)] with
  | some c => d.reject t c
  | none =>
    if rm then
      ((d.accept t).modLd ld fun l => { l with sec := { l.sec with pubKeys := Map.del l.sec.pubKeys i } }).done t 0
    else
      match d.readBytes reqMc a 60 with
      | (d, none) => d.reject t ePoison
      | (d, some k) => ((d.accept t).modLd ld fun l => { l with sec := { l.sec with pubKeys := Map.set l.sec.pubKeys i k } }).done t 0

/-- DFS_KEY: the blob is 1,568 bytes of ciphertext against the domain key, then 40 bytes of wrapped key (R484). -/
def Dev.dfsKeyCmd (iss : Issuer) (ws : List W32) (d : Dev) : Dev :=
  let t := ticketOf iss ws
  let ld := d.issLd iss
  let dom := d.issDom iss
  let a := addrAt ws 1
  match firstFail [(secReserved ws [1, 2] (addrHigh ws 1), eReservedNonzero), ((d.busCode (.eng ld dom) false a 1608).isSome, ePerm)] with
  | some c => d.reject t c
  | none =>
    match d.readBytes reqMc a 1608 with
    | (d, none) => d.reject t ePoison
    | (d, some b) =>
      match Config.keyUnwrap (Config.kemDecap (d.dom dom).kemKey (slice b 0 1568)) (slice b 1568 40) with
      | none => (d.modLd ld (importEvent eKeyUnwrap)).reject t eKeyUnwrap
      | some k => ((d.accept t).modDom dom fun x => { x with dfsKey := some k }).done t 0

/-- SESSION_EXCHANGE: a new exchange replaces the session. It waits while a health test fails (R475, R476). -/
def Dev.session (seed : List Byte) (ld : Nat) (ct nonce : List Byte) (d : Dev) : Dev :=
  if ct.length ≠ 1568 ∨ nonce.length ≠ 32 ∨ d.pageSilent ld ∨ d.crypto.drbgFail then d
  else
    let (d, f) := d.draw
    let own := toBytes 32 f
    let keys := Config.hkdf (nonce ++ own ++ Config.kemDecap seed ct) (toBytes 1 ld) 96
    let d := { d with crypto := { d.crypto with drbgCount := d.crypto.drbgCount + 1 } }
    let d := d.modLd ld fun l => { l with sec := { l.sec with session := some keys } }
    d.emit (.doe ld (own ++ Config.hmac (slice keys 0 32) (ct ++ nonce ++ own)))

/-! ## Imports (R482, R483) -/

/-- The source and destination of a WEIGHT_IMPORT. -/
def importSrc (ws : List W32) : Nat × Nat := (addrAt ws 1, (word ws 3).toNat)
def importDst (ws : List W32) : Nat × Nat := (addrAt ws 4, word2 ws 6)

/-- WEIGHT_IMPORT at acceptance: reach, then the object's own fields. An object too short for them goes on to the
verification, which refuses it. -/
def Dev.weightImport (iss : Issuer) (ws : List W32) (d : Dev) : Dev :=
  let t := ticketOf iss ws
  let ld := d.issLd iss
  let dom := d.issDom iss
  let s := importSrc ws
  let o := importDst ws
  let bus := fun (w : Bool) (r : Nat × Nat) => (d.busCode (.eng ld dom) w r.1 r.2).isSome
  match firstFail [(secReserved ws [1, 2, 3, 4, 5, 6, 7] (addrHigh ws 1 || addrHigh ws 4), eReservedNonzero), (2 ^ 44 < o.1 + o.2, eRange),
      (bus false s ∨ bus true o, ePerm)] with
  | some c => d.reject t c
  | none =>
    match d.readBytes reqMc s.1 s.2 with
    | (d, none) => d.reject t ePoison
    | (d, some obj) =>
      let b := bodyOf obj
      let whole := decide (128 + objSig obj + 0x680 ≤ obj.length)
      let own := if encWrap b then decide (encDomain b = dom) else d.isControl ld dom
      d.command t (firstFail [(whole ∧ o.2 < encPlain b, eRange), (whole ∧ !own, ePerm)])
        fun d => { d with imports := d.imports ++ [{ tkt := t, ld := ld, dom := dom, words := ws, left := [] }] }

/-- WEIGHT_IMPORT_COMPLETE: the LD's oldest import ends. Its ranges are checked again as they are accessed (R468). -/
def Dev.importDone (seed : List Byte) (ld : Nat) (d : Dev) : Dev :=
  match d.imports.find? fun j => j.ld == ld with
  | none => d
  | some j =>
    let s := importSrc j.words
    let o := importDst j.words
    let d := { d with imports := d.imports.filter fun q => q != j }
    match (d.busCode (.eng ld j.dom) false s.1 s.2).or (d.busCode (.eng ld j.dom) true o.1 o.2) with
    | some c => d.done j.tkt c
    | none =>
      match d.readBytes reqMc s.1 s.2 with
      | (d, none) => d.done j.tkt ePoison
      | (d, some obj) =>
        match d.importTo seed 3 ld j.dom obj o.1 o.2 with
        | (d, c) => d.done j.tkt c

def execDomOpen (iss : Issuer) (body : List W32) : State → Result := onDev (guarded (wfld body 0 7 0 == 0x80) (Dev.domOpen iss body))
def execDomClose (iss : Issuer) (body : List W32) : State → Result :=
  onDevAt fun now => guarded (wfld body 0 7 0 == 0x81) (Dev.domClose now iss body)
def execDomQuota (iss : Issuer) (body : List W32) : State → Result := onDev (guarded (wfld body 0 7 0 == 0x82) (Dev.domQuota iss body))
def execPageSet (iss : Issuer) (body : List W32) : State → Result := onDev (guarded (wfld body 0 7 0 == 0x83) (Dev.pageSet iss body))
def execPubKey (iss : Issuer) (body : List W32) : State → Result := onMem (guarded (wfld body 0 7 0 == 0x84) (Dev.pubKey iss body))
def execDfsKey (iss : Issuer) (body : List W32) : State → Result := onMem (guarded (wfld body 0 7 0 == 0x85) (Dev.dfsKeyCmd iss body))
def execWeightImport (iss : Issuer) (body : List W32) : State → Result := onMem (guarded (wfld body 0 7 0 == 0x86) (Dev.weightImport iss body))
def execPageSetMsg (ld : Nat) : State → Result := onDev (Dev.pageSetMsg ld)
def execPageZeroFillComplete (frame : Nat) : State → Result := onMem (Dev.pageFilled frame)
def execDomCloseComplete (dom : Nat) : State → Result := onDev (Dev.domCloseComplete dom)
def execSessionExchange (ld : Nat) (ciphertext nonce : List Byte) (s : State) : Result :=
  onDev (Dev.session s.vault.devSeed ld ciphertext nonce) s
def execWeightImportComplete (ld : Nat) (s : State) : Result := onMem (Dev.importDone s.vault.devSeed ld) s

end Sys2Proof.Machine
end

