-- ==== Sys2Proof/Machine/Attest.lean ====
section
/-! DEFINITION. Identity, attestation, and the commands that change the secure storage element (R480, R485 to
R489). -/

namespace Sys2Proof.Machine

/-- The number of level-1 leaves and of reports of one level-2 tree (R485). -/
def maxLeaves : Nat := 1048576
def treeReports : Nat := 32768

/-! ## The level-2 tree -/

/-- Sets a bit of `SEC_EVT` in every populated LD and in LD 15: a condition of the whole device. -/
def Dev.secEvtAll (b : Nat) (d : Dev) : Dev := (d.compute ++ [15]).foldl (fun d n => d.modLd n (Ld.setSecEvt b)) d

/-- No level-2 tree can be certified any more (R487). -/
def Dev.attestGone (d : Dev) : Dev :=
  ({ d with crypto := { d.crypto with attestOk := false, l2Busy := false, l2Left := 0 } } : Dev).secEvtAll 4

/-- Generates and certifies a level-2 tree: the count is raised before the signature (R485). -/
def State.certify (s : State) : State :=
  if maxLeaves ≤ s.vault.leaves then { s with dev := s.dev.attestGone }
  else
    let (d, f) := s.dev.draw
    let c : Crypto := { d.crypto with attestOk := true, l2Busy := false, l2Left := treeReports, l1Leaf := s.vault.leaves,
                                      l2Seed := toBytes 32 f, drbgCount := d.crypto.drbgCount + 1 }
    let d := ({ d with crypto := c } : Dev).secEvtAll 2
    let low := decide (maxLeaves - s.vault.leaves = 1024)
    { s with vault := { s.vault with leaves := s.vault.leaves + 1 }, dev := if low then d.secEvtAll 3 else d }

/-- L2_TREE_CERTIFY: a replacement tree is ready. It waits while a health test of the noise source fails (R475). -/
def execL2TreeCertify (s : State) : Result :=
  .next (if s.dev.crypto.l2Busy && !s.dev.crypto.drbgFail then s.certify else s)

/-! ## Reports (R488) -/

/-- `LD_LAYOUT` of an LD (R36). -/
def Dev.ldLayout (d : Dev) (ld : Nat) : W32 :=
  let l := (d.ld ld).lay
  let joined := (List.range 10).foldl (fun (m : BitVec 10) n => putBit m n (l.dieMask.getLsbD n && (d.die n).joined)) 0
  if l.populated ∨ ld = 15 then BitVec.ofNat 32 (l.dieMask.toNat + 2 ^ 10 * joined.toNat + 2 ^ 20 * l.ldClass.toNat) else 0

/-- The 256-byte report. -/
def report (s : State) (ld dom : Nat) (ofDomain : Bool) (nonce : List Byte) : List Byte :=
  let d := s.dev
  let img := d.boot.image
  let num4 := fun (x : Nat) => toBytes 4 x
  let domKey := Config.kemPublic (d.dom dom).kemKey
  let table := (List.range 64).flatMap fun i => slice (Map.get (d.ld ld).sec.pubKeys i []) 0 60
  num4 (1 + 2 ^ 8 * b2n ofDomain + 2 ^ 16 * ld + 2 ^ 20 * (if ofDomain then dom else 0)) ++
    num4 d.crypto.l1Leaf ++ num4 (treeReports - d.crypto.l2Left) ++ num4 ((d.ld ld).ctl.service) ++ num4 (d.ldLayout ld).toNat ++
    num4 (img.elim 0 fun i => i.fwVer.toNat) ++ num4 (img.elim 0 fun i => i.imgVer.toNat) ++
    num4 s.vault.minFw.toNat ++ num4 s.vault.minImg.toNat ++ zeros 4 ++ slice nonce 0 32 ++
    slice (img.elim [] fun i => i.fwHash) 0 32 ++ slice (img.elim [] fun i => i.imgHash) 0 32 ++
    slice (Config.sha256 (Config.kemPublic s.vault.devSeed)) 0 32 ++
    (if ofDomain then slice (Config.sha256 domKey) 0 32 else zeros 32) ++ slice (Config.sha256 table) 0 32 ++
    num4 (b2n (ofDomain && (d.dom dom).dfsKey.isSome)) ++ zeros 20

/-- What ATTEST writes to `out_addr`, in order. -/
def attestOutput (s : State) (ld dom : Nat) (ofDomain cert : Bool) (nonce : List Byte) : List Byte :=
  let r := report s ld dom ofDomain nonce
  let leaf := s.dev.crypto.l1Leaf * treeReports + (treeReports - s.dev.crypto.l2Left)
  r ++ slice (Config.hssSign (s.vault.devSeed ++ s.dev.crypto.l2Seed) leaf r) 0 4504 ++
    (if ofDomain then slice (Config.kemPublic (s.dev.dom dom).kemKey) 0 1568 else []) ++ (if cert then s.vault.devCert else [])

/-- One report leaf fewer: an empty tree is replaced, or attestation is over (R485 to R487). -/
def State.spendReport (s : State) : State :=
  let left := s.dev.crypto.l2Left - 1
  if left ≠ 0 then { s with dev := { s.dev with crypto := { s.dev.crypto with l2Left := left } } }
  else if maxLeaves ≤ s.vault.leaves then { s with dev := s.dev.attestGone }
  else { s with dev := { s.dev with crypto := { s.dev.crypto with l2Left := 0, attestOk := false, l2Busy := true } } }

/-- The bytes a report of an issuer takes. -/
def attestBytes (s : State) (ws : List W32) : Nat :=
  256 + 4504 + (if bit (word ws 1).toNat 0 then 1568 else 0) + if bit (word ws 1).toNat 1 then s.vault.devCert.length else 0

/-- The checks of ATTEST in the order of R489. -/
def attestChecks (s : State) (iss : Issuer) (ws : List W32) : Checks :=
  let d := s.dev
  let ld := d.issLd iss
  let dom := d.issDom iss
  let rq := Rq.eng ld dom
  [(secReserved ws [1, 2, 3, 4, 5, 6] (wfld ws 1 31 2 != 0 || addrHigh ws 2 || addrHigh ws 4), eReservedNonzero),
    ((d.busCode rq false (addrAt ws 2) 32).isSome ∨ (d.busCode rq true (addrAt ws 4) (word ws 6).toNat).isSome, ePerm)] ++
  d.domStateCheck dom .open ++
  ([((word ws 6).toNat < attestBytes s ws, eExhausted), (!d.crypto.attestOk ∧ !d.crypto.l2Busy, eAttestExhausted)] : Checks)

/-- ATTEST. It waits while a replacement tree is being made (R486). -/
def State.attest (iss : Issuer) (body : List W32) (s : State) : State :=
  let t := ticketOf iss body
  let ld := s.dev.issLd iss
  let dom := s.dev.issDom iss
  let ofDomain := bit (word body 1).toNat 0
  if wfld body 0 7 0 ≠ 0x87 then s
  else
    match firstFail (attestChecks s iss body) with
    | some c => { s with dev := s.dev.reject t c }
    | none =>
      if s.dev.crypto.l2Busy then s
      else
        match s.dev.readBytes reqMc (addrAt body 2) 32 with
        | (d, none) => { s with dev := d.reject t ePoison }
        | (d, some nonce) =>
          let s : State := { s with dev := d.accept t }
          let out := attestOutput s ld dom ofDomain (bit (word body 1).toNat 1) nonce
          let s := s.spendReport
          { s with dev := (s.dev.writeBytes reqMc (addrAt body 4) out).finish t 0 false (BitVec.ofNat 32 out.length) }

def execAttest (iss : Issuer) (body : List W32) (s : State) : Result := .next (s.settleHost (State.attest iss body))

/-! ## The secure storage element (R480) -/

/-- MINVER_RAISE: bit 0 of word 1 is 0 for kind 1 and 1 for kind 2. -/
def execMinverRaise (iss : Issuer) (body : List W32) (s : State) : Result :=
  let t := ticketOf iss body
  let d := s.dev
  let ofImage := bit (word body 1).toNat 0
  let v := word body 2
  let least := if ofImage then s.vault.minImg else s.vault.minFw
  let running := d.boot.image.elim 0 fun i => if ofImage then i.imgVer else i.fwVer
  if wfld body 0 7 0 ≠ 0x89 then .next s
  else
    match firstFail [(secReserved body [1, 2] (wfld body 1 31 1 != 0), eReservedNonzero), (v < least, eRange),
        (d.issLd iss ≠ 15 ∨ !d.isControl (d.issLd iss) (d.issDom iss), ePerm), (running < v, eState)] with
    | some c => .next { s with dev := d.reject t c }
    | none =>
      .next { s with vault := if ofImage then { s.vault with minImg := v } else { s.vault with minFw := v },
                     dev := (d.accept t).done t 0 }

/-- OWNER_XFER: a kind-5 object whose body is the new public key padded to 64 bytes. -/
def State.ownerXfer (iss : Issuer) (body : List W32) (s : State) : State :=
  let t := ticketOf iss body
  let d := s.dev
  let ld := d.issLd iss
  let a := addrAt body 1
  let n := (word body 3).toNat
  if wfld body 0 7 0 ≠ 0x8A then s
  else
    match firstFail [(secReserved body [1, 2, 3] (addrHigh body 1), eReservedNonzero), (2 ^ 44 < a + n, eRange),
        (ld ≠ 15 ∨ !d.isControl ld (d.issDom iss) ∨ (d.busCode (.eng ld (d.issDom iss)) false a n).isSome, ePerm)] with
    | some c => { s with dev := d.reject t c }
    | none =>
      match d.readBytes reqMc a n with
      | (d, none) => { s with dev := d.reject t ePoison }
      | (d, some obj) =>
        match verifyObject 5 [s.vault.ownerKey] 0 obj with
        | some c => { s with dev := (d.modLd ld (importEvent c)).reject t c }
        | none =>
          if objBody obj ≠ 64 then { s with dev := d.reject t eRange }
          else { s with vault := { s.vault with ownerKey := slice (bodyOf obj) 0 60 }, dev := (d.accept t).done t 0 }

def execOwnerXfer (iss : Issuer) (body : List W32) (s : State) : Result := .next (s.settleHost (State.ownerXfer iss body))

end Sys2Proof.Machine
end

