-- ==== Sys2Proof/Machine/ControlCore.lean ====
section
/-! DEFINITION. The instructions of a cluster control core (R155 to R158, R160, R170), except those that
issue to the cores, the mover and the DMA engine. -/

namespace Sys2Proof.Machine

/-! ## Integer (R158) -/

/-- ADD, modulo 2^64. -/
def execAdd (clu : Nat) (d a b : Reg) : State → Result := onDev (Dev.alu clu d a b (· + ·))

/-- SUB, modulo 2^64. -/
def execSub (clu : Nat) (d a b : Reg) : State → Result := onDev (Dev.alu clu d a b (· - ·))

def execAnd (clu : Nat) (d a b : Reg) : State → Result := onDev (Dev.alu clu d a b (· &&& ·))

def execOr (clu : Nat) (d a b : Reg) : State → Result := onDev (Dev.alu clu d a b (· ||| ·))

def execXor (clu : Nat) (d a b : Reg) : State → Result := onDev (Dev.alu clu d a b (· ^^^ ·))

/-- SHL by bits [5:0] of the second operand. -/
def execShl (clu : Nat) (d a b : Reg) : State → Result :=
  onDev (Dev.alu clu d a b fun x y => x <<< (y.toNat % 64))

def execShr (clu : Nat) (d a b : Reg) : State → Result :=
  onDev (Dev.alu clu d a b fun x y => x >>> (y.toNat % 64))

def execSar (clu : Nat) (d a b : Reg) : State → Result :=
  onDev (Dev.alu clu d a b fun x y => x.sshiftRight (y.toNat % 64))

/-- SLT compares as signed integers. -/
def execSlt (clu : Nat) (d a b : Reg) : State → Result :=
  onDev (Dev.alu clu d a b fun x y => if x.slt y then 1 else 0)

def execSltu (clu : Nat) (d a b : Reg) : State → Result :=
  onDev (Dev.alu clu d a b fun x y => if x.ult y then 1 else 0)

/-- ADDI adds an immediate that is already extended to 64 bits. -/
def execAddi (clu : Nat) (d a : Reg) (imm : W64) : State → Result :=
  onDev (Dev.instr clu fun x => x.ret clu d (x.reg clu a + imm))

/-- LUI writes an immediate that already stands at its place. -/
def execLui (clu : Nat) (d : Reg) (imm : W64) : State → Result := onDev (Dev.instr clu fun x => x.ret clu d imm)

def execMul (clu : Nat) (d a b : Reg) : State → Result := onDev (Dev.alu clu d a b (· * ·))

/-- MULH: bits [127:64] of the signed product. -/
def execMulh (clu : Nat) (d a b : Reg) : State → Result :=
  onDev (Dev.alu clu d a b fun x y => BitVec.ofInt 64 (x.toInt * y.toInt / 2 ^ 64))

/-- DIVU: all ones on a zero divisor. -/
def execDivu (clu : Nat) (d a b : Reg) : State → Result :=
  onDev (Dev.alu clu d a b fun x y => if y = 0 then BitVec.allOnes 64 else x / y)

/-- REMU: the dividend on a zero divisor. -/
def execRemu (clu : Nat) (d a b : Reg) : State → Result :=
  onDev (Dev.alu clu d a b fun x y => if y = 0 then x else x % y)

/-! ## Branches: targets are cluster-store offsets (R158) -/

def execBeq (clu : Nat) (a b : Reg) (target : BitVec 16) : State → Result :=
  onDev (Dev.branch clu a b target (· == ·))

def execBne (clu : Nat) (a b : Reg) (target : BitVec 16) : State → Result :=
  onDev (Dev.branch clu a b target (· != ·))

def execBlt (clu : Nat) (a b : Reg) (target : BitVec 16) : State → Result :=
  onDev (Dev.branch clu a b target fun x y => x.slt y)

def execBge (clu : Nat) (a b : Reg) (target : BitVec 16) : State → Result :=
  onDev (Dev.branch clu a b target fun x y => !x.slt y)

/-- JAL: the offset of the following instruction into gd, then to the target. DESIGN CHOICE (log 31): R158 names no link
value; it is the 16-bit offset pc + 4, zero above. -/
def execJal (clu : Nat) (d : Reg) (target : BitVec 16) : State → Result :=
  onDev (Dev.instr clu fun x =>
    let link := (x.clu clu).ctl.pc + 4
    (x.wr clu d (BitVec.setWidth 64 link)).modCtl clu fun c => { c with pc := target })

/-- JALR: the link as JAL writes it; the target is the low 16 bits of ga plus the immediate. -/
def execJalr (clu : Nat) (d a : Reg) (imm : W64) : State → Result :=
  onDev (Dev.instr clu fun x =>
    let link := (x.clu clu).ctl.pc + 4
    let target := BitVec.setWidth 16 (x.reg clu a + imm)
    (x.wr clu d (BitVec.setWidth 64 link)).modCtl clu fun c => { c with pc := target })

/-! ## Memory (R157, R197) -/

/-- What a load of n bytes leaves in the register: the upper bits of a short one are a free value of the load (R157,
R65). -/
def loadWord (n v : Nat) : Nat := if n = 8 then v else v + 2 ^ (8 * n) * Config.loadUpper n v

/-- LD: an access error or a bad codeword raises an exception with cause 1. The bits of gd above a short
load are a free value. -/
def execLd (clu : Nat) (sz : Size) (d a : Reg) : State → Result :=
  onMem (Dev.instr clu fun x =>
    let n := sizeBytes sz
    let addr := (x.reg clu a).toNat
    match x.ctlAccess clu false addr n with
    | some c => x.exception clu 1 c (some addr)
    | none =>
      match x.readBytes reqClu addr n with
      | (x, none) => x.exception clu 1 ePoison (some addr)
      | (x, some bs) =>
        x.ret clu d (BitVec.ofNat 64 (loadWord n (ofBytes bs))))

/-- ST: an access error raises an exception with cause 1; the state of the memory written raises none. -/
def execSt (clu : Nat) (sz : Size) (src a : Reg) : State → Result :=
  onMem (Dev.instr clu fun x =>
    let n := sizeBytes sz
    let addr := (x.reg clu a).toNat
    match x.ctlAccess clu true addr n with
    | some c => x.exception clu 1 c (some addr)
    | none => (x.writeBytes reqClu addr (toBytes n (x.reg clu src).toNat)).next clu)

/-! ## System and cluster registers -/

/-- A system register (R155). -/
def CtlRegs.sys (x : CtlRegs) : SysReg → W64
  | .status => BitVec.setWidth 64 x.status
  | .epc => BitVec.setWidth 64 x.epc
  | .estatus => BitVec.setWidth 64 x.estatus
  | .fpc => BitVec.setWidth 64 x.fpc
  | .fstatus => BitVec.setWidth 64 x.fstatus
  | .vecExc => BitVec.setWidth 64 x.vecExc
  | .vecNormal => BitVec.setWidth 64 x.vecNormal
  | .vecFast => BitVec.setWidth 64 x.vecFast

/-- Whether a system register is of the status type (R155). -/
def isStatusReg : SysReg → Bool
  | .status => true
  | .estatus => true
  | .fstatus => true
  | _ => false

/-- Whether an MTS is ignored with E_RANGE (R155): it would change `in_normal` or `in_fast`, or its value
is no multiple of 4 for a pc-type register. -/
def mtsRefused (x : CtlRegs) (sr : SysReg) (v : W64) : Bool :=
  if isStatusReg sr then ((x.sys sr).toNat.xor v.toNat) &&& 0xC ≠ 0 else v.toNat % 4 ≠ 0

/-- The write of a system register. -/
def CtlRegs.setSys (x : CtlRegs) (sr : SysReg) (v : W64) : CtlRegs :=
  let st : W32 := BitVec.ofNat 32 (v.toNat % 16)
  let p : BitVec 16 := BitVec.setWidth 16 v
  match sr with
  | .status => { x with status := st }
  | .estatus => { x with estatus := st }
  | .fstatus => { x with fstatus := st }
  | .epc => { x with epc := p }
  | .fpc => { x with fpc := p }
  | .vecExc => { x with vecExc := p }
  | .vecNormal => { x with vecNormal := p }
  | .vecFast => { x with vecFast := p }

def execMfs (clu : Nat) (d : Reg) (sr : SysReg) : State → Result :=
  onDev (Dev.instr clu fun x => x.ret clu d ((x.clu clu).ctl.sys sr))

def execMts (clu : Nat) (sr : SysReg) (a : Reg) : State → Result :=
  onDev (Dev.instr clu fun x =>
    let v := x.reg clu a
    if mtsRefused (x.clu clu).ctl sr v then (x.cluErr clu eRange).next clu
    else (x.modCtl clu fun c => c.setSys sr v).next clu)

/-- CSRR reads a register of the cluster's block (R174). -/
def execCsrr (clu : Nat) (d : Reg) (off : BitVec 14) : State → Result :=
  onDev (Dev.instr clu fun x =>
    let (x, v) := x.cluReadBy (.clu clu) clu off.toNat
    x.ret clu d (BitVec.ofNat 64 v))

/-- CSRW writes bits [31:0] of a register to the cluster's block (R174). -/
def execCsrw (clu : Nat) (off : BitVec 14) (a : Reg) : State → Result :=
  onDev (Dev.instr clu fun x => (x.cluWriteBy clu off.toNat (BitVec.setWidth 32 (x.reg clu a))).next clu)

/-! ## Progress, ordering, time, return and end -/

/-- TAGR (R160). -/
def execTagr (clu : Nat) (d a : Reg) : State → Result :=
  onDev (Dev.instr clu fun x =>
    let v := x.reg clu a
    if v.toNat / 32 ≠ 0 then (x.cluErr clu eRange).ret clu d (BitVec.allOnes 64)
    else
      let k := (x.clu clu).core v.toNat
      x.ret clu d (BitVec.ofNat 64
        (k.mtag.toNat + 2 ^ 16 * k.vtag.toNat + 2 ^ 32 * k.mcnt.toNat + 2 ^ 48 * k.vcnt.toNat)))

/-- Whether the operations that FENCE names have finished (R170). Stores of the control core take effect at
once, so bit 4 never waits. -/
def Cluster.fenceOpen (c : Cluster) (k : BitVec 5) (mask : W32) : Bool :=
  let cores := bitsOf 32 mask.toNat
  (!k.getLsbD 0 || cores.all fun i => (c.core i).mq.isEmpty) &&
    (!k.getLsbD 1 || cores.all fun i => (c.core i).vq.isEmpty) &&
    (!k.getLsbD 2 || c.mover.isEmpty) && (!k.getLsbD 3 || c.dma.isEmpty)

/-- FENCE waits until they have finished. -/
def execFence (clu : Nat) (k : BitVec 5) (a : Reg) : State → Result :=
  onDev (Dev.instr clu fun x =>
    if (x.clu clu).fenceOpen k (BitVec.setWidth 32 (x.reg clu a)) then x.next clu else x)

/-- ELAP reads the local elapsed counter (R62). -/
def execElap (clu : Nat) (d : Reg) : State → Result :=
  onDevAt fun now => Dev.instr clu fun x => x.ret clu d now

/-- IRET leaves the handler (R178). -/
def execIret (clu : Nat) : State → Result := onDev (Dev.instr clu (Dev.leaveHandler clu))

/-- HALT ends the cluster program (R158, R450). -/
def execHalt (clu : Nat) : State → Result := onMem (Dev.instr clu fun x => x.endProgram clu .halted)

/-- An undefined instruction raises an exception with cause 2 (R158). -/
def execUndefinedInstruction (clu : Nat) : State → Result :=
  onDev (Dev.instr clu fun x => x.exception clu 2 0 none)

end Sys2Proof.Machine
end

