-- ==== Sys2Proof/Machine/Dma.lean ====
section
/-! DEFINITION. The cluster DMA engine: DMAP with its checks (R165, R166, R168), DMAW, and the start and
the finish of a descriptor (R167 to R169). -/

namespace Sys2Proof.Machine

/-- Places of the descriptor queue (R165). -/
def dmaQueue : Nat := 16

/-- The fields of a DMA descriptor (R165). -/
structure DmaDesc where
  zero   : Bool
  after  : Bool
  note   : Bool
  tag    : BitVec 16
  src    : Nat
  dst    : Nat
  len    : Nat
  rows   : Nat
  sstr   : Nat
  dstr   : Nat
  cores  : W32
  deriving DecidableEq, Repr

/-- The descriptor that sixteen words spell. -/
def dmaDesc (ws : List W32) : DmaDesc :=
  { zero := wfld ws 0 7 0 == 0x11, after := bit (word ws 0).toNat 8, note := bit (word ws 0).toNat 9,
    tag := BitVec.ofNat 16 (wfld ws 0 31 16), src := (word ws 1).toNat + 2 ^ 32 * wfld ws 2 11 0,
    dst := (word ws 3).toNat + 2 ^ 32 * wfld ws 4 11 0, len := wfld ws 5 23 0, rows := wfld ws 6 15 0,
    sstr := (word ws 7).toNat, dstr := (word ws 8).toNat, cores := word ws 9 }

/-- The first byte of operand cache 0 of a cluster. -/
def cacheBase (n : Nat) : Nat := cacheAddr n 0 0

/-- Whether an address lies in an operand cache of a cluster. -/
def inCache (n a : Nat) : Bool :=
  cacheBase n ≤ a && a < cacheBase n + 32 * 0x8000 && (a - cacheBase n) % 0x8000 < 0x6000

/-- The destinations of the rows: `dst`, or the same cache offset in every core of the mask. -/
def DmaDesc.dsts (x : DmaDesc) (n : Nat) : List Nat :=
  if x.cores = 0 then [x.dst]
  else (bitsOf 32 x.cores.toNat).map fun k => cacheAddr n k ((x.dst - cacheBase n) % 0x8000)

/-- The source extent (R166): one row when `src_stride` is 0. -/
def DmaDesc.srcRows (x : DmaDesc) : Rows :=
  { addr := x.src, stride := x.sstr, rows := if x.sstr = 0 then 1 else x.rows, len := x.len }

def DmaDesc.dstRows (x : DmaDesc) (a : Nat) : Rows := { addr := a, stride := x.dstr, rows := x.rows, len := x.len }

/-- The field checks of R165, in table order. -/
def dmaFields (ws : List W32) (n : Nat) : List (Bool × Code) :=
  let x := dmaDesc ws
  [(wfld ws 0 7 0 ≠ 0x10 ∧ wfld ws 0 7 0 ≠ 0x11, eRange), (wfld ws 0 15 10 ≠ 0, eReservedNonzero),
    (x.src % 8 ≠ 0, eAlign), (x.zero ∧ x.src ≠ 0, eRange), (wfld ws 2 31 12 ≠ 0, eReservedNonzero),
    (x.dst % 8 ≠ 0, eAlign), (wfld ws 4 31 12 ≠ 0, eReservedNonzero),
    (x.len = 0 ∨ x.len % 8 ≠ 0, eAlign), (wfld ws 5 31 24 ≠ 0, eReservedNonzero),
    (x.rows = 0, eRange), (wfld ws 6 31 16 ≠ 0, eReservedNonzero), (x.sstr % 8 ≠ 0, eAlign),
    (x.dstr % 8 ≠ 0, eAlign), (x.dstr < x.len, eRange), (x.cores ≠ 0 ∧ !inCache n x.dst, eRange),
    (!zeroWords ws 10 15, eReservedNonzero)]

/-- The bus error of a descriptor: any unpopulated byte first, then any byte out of reach (R166). -/
def Dev.dmaReach (n : Nat) (x : DmaDesc) (d : Dev) : Option Code :=
  let srcs := if x.zero then [] else x.srcRows.starts.map fun a => d.busCode (.clu n) false a x.len
  let dsts := (x.dsts n).flatMap fun a => (x.dstRows a).starts.map fun b => d.busCode (.clu n) true b x.len
  let codes := srcs ++ dsts
  if codes.contains (some eRange) then some eRange
  else if codes.contains (some ePerm) then some ePerm
  else none

/-- Whether the source extent meets the destination extent (R166). -/
def DmaDesc.meets (x : DmaDesc) (n : Nat) : Bool :=
  !x.zero && (x.dsts n).any fun a => x.srcRows.overlaps (x.dstRows a)

/-- DMAP gd, ga. -/
def execDmap (clu : Nat) (d a : Reg) : State → Result :=
  onMem (Dev.instr clu fun x =>
    let off := (x.reg clu a).toNat
    match firstFail [(off % 8 ≠ 0, eAlign), (0xFFC0 < off, eRange)] with
    | some c => x.ret clu d (codeWord c)
    | none =>
      match x.readBytes reqClu (storeAddr clu off) 64 with
      | (x, none) => x.ret clu d (codeWord ePoison)
      | (x, some bs) =>
        let ws := bytesToWords 16 bs
        let y := dmaDesc ws
        let reach := x.dmaReach clu y
        let late : List (Bool × Code) :=
          [(reach.isSome, reach.getD 0), (y.meets clu, eRange), ((x.clu clu).clu.dmaErr, eState)]
        match firstFail (dmaFields ws clu ++ late) with
        | some c => x.ret clu d (codeWord c)
        | none =>
          if dmaQueue ≤ (x.clu clu).dma.length then x.stall clu
          else
            (x.modClu clu fun c =>
              { c with dma := c.dma ++ [{ words := ws, started := false, finished := false }] }).ret clu d 0)

/-- DMAW ga: waits until `CLU_DMA_DONE` − ga[31:0] is zero or more as a signed 32-bit value (R167). -/
def execDmaw (clu : Nat) (a : Reg) : State → Result :=
  onDev (Dev.instr clu fun x =>
    if ((x.clu clu).clu.dmaDone - BitVec.setWidth 32 (x.reg clu a)).getLsbD 31 then x else x.next clu)

/-- The place of the first descriptor that has not started. -/
def nextDma : List DmaEntry → Nat
  | [] => 0
  | e :: es => if e.started then nextDma es + 1 else 0

/-- Descriptors start in post order; one with `after` waits for every earlier one (R167). -/
def Dev.dmaStart (n : Nat) (d : Dev) : Dev :=
  let q := (d.clu n).dma
  let i := nextDma q
  match q[i]? with
  | none => d
  | some e =>
    guarded (!(dmaDesc e.words).after || (q.take i).all DmaEntry.finished)
      (Dev.modClu n fun c => { c with dma := c.dma.set i { e with started := true } }) d

/-- DMA_DESCRIPTOR_START. -/
def execDmaDescriptorStart (clu : Nat) : State → Result := onMem (Dev.dmaStart clu)

/-- The transfer of a descriptor: its bytes are checked again as they are reached (R468), the source is read
row by row, and nothing is written when a read cannot be used. -/
def Dev.dmaMove (n : Nat) (x : DmaDesc) (d : Dev) : Dev × Code :=
  match d.dmaReach n x with
  | some c => (d, c)
  | none =>
    if x.zero then
      ((x.dsts n).foldl (fun d a => (x.dstRows a).starts.foldl (fun d b => d.zeroRange reqClu b x.len) d) d, 0)
    else
      match d.readAll reqClu (x.srcRows.starts.map fun a => (a, x.len)) with
      | (d, false) => (d, ePoison)
      | (d, true) =>
        ((x.dsts n).foldl (fun d a =>
          (List.range x.rows).foldl (fun d i =>
            d.copyRange reqClu (x.src + i * x.sstr) (a + i * x.dstr) x.len) d) d, 0)

/-- Entries that have finished leave the queue in post order, and `CLU_DMA_DONE` counts them (R167). -/
def Dev.dmaRetire (n : Nat) (d : Dev) : Dev :=
  d.modClu n fun c =>
    let k := (c.dma.takeWhile DmaEntry.finished).length
    { c with dma := c.dma.drop k, clu := { c.clu with dmaDone := c.clu.dmaDone + BitVec.ofNat 32 k } }

/-- A running descriptor ends: `note` and its count, or the error of R168, which stops it and every later
one. -/
def Dev.dmaFinish (n i : Nat) (d : Dev) : Dev :=
  match (d.clu n).dma[i]? with
  | none => d
  | some e =>
    if e.started && !e.finished then
      let x := dmaDesc e.words
      match d.dmaMove n x with
      | (d, c) =>
        let d :=
          if c = 0 then
            d.modClu n fun k =>
              { k with dma := k.dma.set i { e with finished := true },
                       clu := { k.clu with dmaNote := k.clu.dmaNote || x.note } }
          else
            d.modClu n fun k =>
              { k with dma := k.dma.take i ++ (k.dma.drop i).map fun f => { f with started := true, finished := true },
                       clu := { k.clu with dmaErr := true, dmaErrTag := x.tag, dmaErrCode := c } }
        d.dmaRetire n
    else d

/-- DMA_DESCRIPTOR_FINISH of the descriptor at a place of the queue. -/
def execDmaDescriptorFinish (clu idx : Nat) : State → Result := onMem (Dev.dmaFinish clu idx)

end Sys2Proof.Machine
end

