-- ==== Sys2Proof/Machine/Ecc.lean ====
section
/-! DEFINITION. Scrub, soft and hard repair, and the error registers (R200 to R218). -/

namespace Sys2Proof.Machine

/-- The codewords of a unit that its scrub reads: die SRAM without operand caches and cluster stores (R200,
R213). -/
def unitCodewords : MemUnit → Nat
  | .stack _ => stackBytes / 32
  | .channel _ => chanWindow / 128
  | .dieSram _ => 0x2800000 / 8
  | .iodSram _ => 0x2800000 / 8

/-- The codeword of a unit at a place of the pass. DESIGN CHOICE (log 121): R200 names no order; a pass reads the
codewords in the order of their addresses. -/
def scrubAt (u : MemUnit) (i : Nat) : Nat :=
  match u with
  | .stack n => stackAddr n (32 * i)
  | .channel c => chanAddr c (128 * i)
  | .dieSram n => dieSramAddr n (8 * i)
  | .iodSram n => iodBase + n * iodWindow + 8 * i

/-- SCRUB_STEP: the scrub reads the next codeword of its pass, corrects it or stores it poisoned, and the pass advances (R200 to
R202, R214). -/
def Dev.scrubStep (u : MemUnit) (a : Nat) (d : Dev) : Dev :=
  if d.memCtl.scrubEn && (d.unit u).inService && a == scrubAt u (d.unit u).scrubbed then
    (d.touch reqScrub a).1.modUnit u fun x =>
      if x.scrubbed + 1 = unitCodewords u then { x with scrubbed := 0, passes := sat16 x.passes }
      else { x with scrubbed := x.scrubbed + 1 }
  else d

def execScrubStep (u : MemUnit) (addr : Nat) : State → Result := onDev (Dev.scrubStep u addr)

/-! ## Repair -/

/-- Whether a repair or a commit runs on a unit: `busy` (R214). -/
def Unit.busy (x : Unit) : Bool := x.running.isSome || x.committing

/-- Whether a codeword lies in a row of a unit. -/
def inRow (u : MemUnit) (row cw : Nat) : Bool := unitOf cw == some u && rowNum u cw == row

/-- What a repair leaves of a codeword in error: nothing where the code corrects it, else a
poisoned codeword (R207, R196). No counter counts the reads of a repair: they have no requester in R214. -/
def Dev.repairCw (u : MemUnit) (cw : Nat) (d : Dev) : Dev :=
  match d.decodeCw u cw with
  | (d, .corrected _) => { d with upsets := Map.del d.upsets cw }
  | (d, .uncorrectable) => d.poisonCw cw
  | (d, _) => d

/-- SOFT_REPAIR_START: the repair of the first queued row of an idle unit begins, and its bank is held (R207). What the read
and the write back of the row do is seen when it completes, since no access to the bank comes between. -/
def Dev.softStart (u : MemUnit) (d : Dev) : Dev :=
  let x := d.unit u
  match x.queued with
  | [] => d
  | r :: rest =>
    if x.inService && !x.busy then d.modUnit u fun x => { x with queued := rest, running := some r }
    else d

def execSoftRepairStart (u : MemUnit) : State → Result := onDev (Dev.softStart u)

/-- SOFT_REPAIR_COMPLETE: the row has been repaired and written back, or, where the bank has no repair resource
left, it is left as it is; its address is recorded (R207, R208). `last_code` reports a row that `MEM_REPAIR_CMD` named (R218),
with E_POISON when poisoned codewords were written back. DESIGN CHOICE (log 30): the row leaves the table of R206, so that its
corrections are counted afresh. -/
def Dev.softComplete (u : MemUnit) (granted : Bool) (d : Dev) : Dev :=
  let x := d.unit u
  match x.running with
  | none => d
  | some r =>
    let ok := granted && decide (0 < x.free)
    let d := if ok then ((d.upsets.map Prod.fst).filter (inRow u r.row)).foldl (fun d c => d.repairCw u c) d else d
    let code := if !ok then eExhausted else if d.poison.any (inRow u r.row) then ePoison else 0
    let d := d.modUnit u fun x =>
      { x with running := none, lastCode := if r.cmd then code else x.lastCode, report := some (r.addr, ok),
               free := if ok then x.free - 1 else x.free, soft := if ok then insNat r.row x.soft else x.soft,
               rows := x.rows.filter fun q => q.1 != r.row }
    d.eccEvt u (if ok then 3 else 4)

def execSoftRepairComplete (u : MemUnit) (granted : Bool) : State → Result := onDev (Dev.softComplete u granted)

/-- REPAIR_COMMIT_COMPLETE: the soft repairs of the unit have become permanent, or the DRAM has reported that a
hard repair resource has run out, `exhausted` rows having become permanent before (R209, R218). DESIGN CHOICE (log 30): the
spec does not say which; they are taken in the order of the rows. The hard repairs survive every reset (R508). -/
def commitComplete (u : MemUnit) (exhausted : Option Nat) (s : State) : State :=
  let x := s.dev.unit u
  if x.committing then
    let n := exhausted.getD x.soft.length
    { s with
      vault := { s.vault with hard := s.vault.hard ++ (x.soft.take n).map fun r => (u, r) }
      dev := s.dev.modUnit u fun x =>
        { x with committing := false, lastCode := if exhausted.isSome then eExhausted else 0, soft := x.soft.drop n } }
  else s

def execRepairCommitComplete (u : MemUnit) (exhausted : Option Nat) (s : State) : Result :=
  .next (commitComplete u exhausted s)

/-- A write of `MEM_REPAIR_CMD` (R217, R218). -/
def Dev.repairCmd (ld : Nat) (v : W32) (d : Dev) : Dev :=
  if ld ≠ 15 then d.ldErr ld ePerm
  else
    let a := d.memCtl.repairAddr.toNat
    let place := match unitOf a with
      | some (.stack n) => if d.excluded (.stack n) then none else some (MemUnit.stack n)
      | some (.channel n) => if d.excluded (.channel n) then none else some (MemUnit.channel n)
      | _ => none
    let op := fld v 1 0
    let x := d.unit (place.getD (.stack 0))
    d.checked (.ld ld)
      (firstFail [(fld v 31 2 ≠ 0, eReservedNonzero), (op = 0 ∨ op = 3, eRange), (place.isNone, eRange),
        (!x.inService, eState), (x.busy, eState)])
      fun d =>
        let u := place.getD (.stack 0)
        if op = 1 then d.queueRow u (cwOf a) true
        else d.modUnit u fun x => { x with committing := true }

/-- MEM_REPAIR_QUEUE: a write of 1 to `MEM_REPAIR_CMD`. -/
def execMemRepairQueue (ag : Agent) (ld : Nat) : State → Result :=
  onDev (Dev.pageWrite ag ld 0x6034 (Dev.repairCmd ld 1))

/-- MEM_REPAIR_COMMIT: a write of 2 to `MEM_REPAIR_CMD`. -/
def execMemRepairCommit (ag : Agent) (ld : Nat) : State → Result :=
  onDev (Dev.pageWrite ag ld 0x6034 (Dev.repairCmd ld 2))

/-! ## The error registers -/

/-- The unit that `kind` and `index` of `ECC_SEL` name. -/
def eccUnit (kind index : Nat) : MemUnit :=
  if kind = 0 then .stack index else if kind = 1 then .channel index else if kind = 2 then .dieSram index
  else .iodSram index

/-- How many units a kind has (R213). -/
def eccCount (kind : Nat) : Nat := if kind = 0 then 20 else if kind = 1 then 24 else if kind = 2 then 10 else 2

/-- The unit that an LD's `ECC_SEL` selects. -/
def Ld.selected (l : Ld) : MemUnit := eccUnit l.ecc.kind.toNat l.ecc.index.toNat

/-- A write of `ECC_SEL` (R213). -/
def Dev.eccSel (ld : Nat) (v : W32) (d : Dev) : Dev :=
  let kind := fld v 10 8
  let index := fld v 4 0
  let u := eccUnit kind index
  d.checked (.ld ld)
    (firstFail [(fld v 30 11 ≠ 0 ∨ fld v 7 5 ≠ 0, eReservedNonzero), (v.getLsbD 31 && ld != 15, ePerm),
      (4 ≤ kind, eRange), (eccCount kind ≤ index, eRange), (ld ≠ 15 ∧ d.ldOfUnit u ≠ ld, ePerm)])
    fun d =>
      let d := d.modLd ld fun l =>
        { l with ecc := { l.ecc with kind := BitVec.ofNat 3 kind, index := BitVec.ofNat 5 index } }
      if v.getLsbD 31 then d.modUnit u fun x => { x with ce := 0, ue := 0, odc := 0, last := EccRec.init } else d

/-- ECC_SEL_WRITE. -/
def execEccSelWrite (ag : Agent) (ld : Nat) (v : W32) : State → Result :=
  onDev (Dev.pageWrite ag ld 0x6000 (Dev.eccSel ld v))

/-- ECC_CLEAR: a write of `ECC_SEL` with `clear` 1. -/
def execEccClear (ag : Agent) (ld : Nat) (v : W32) : State → Result :=
  onDev (Dev.pageWrite ag ld 0x6000 (Dev.eccSel ld (setBit v 31)))

/-- A write of `ECC_EVT` (R216). -/
def Dev.eccEvtWrite (ld : Nat) (v : W32) (d : Dev) : Dev :=
  d.checked (.ld ld) (firstFail [(fld v 31 6 ≠ 0, eReservedNonzero)])
    (Dev.modLd ld fun l => { l with ecc := { l.ecc with evt := l.ecc.evt &&& ~~~(BitVec.ofNat 6 (fld v 5 0)) } })

/-- A write of `ECC_SCRUB_CTL` (R217). -/
def Dev.scrubCtl (ld : Nat) (v : W32) (d : Dev) : Dev :=
  if ld ≠ 15 then d.ldErr ld ePerm
  else
    let period := fld v 15 8
    d.checked (.ld ld)
      (firstFail [(fld v 31 17 ≠ 0, eReservedNonzero), (period = 0 ∨ 168 < period, eRange), (fld v 7 0 = 0, eRange)])
      fun d => { d with memCtl := { d.memCtl with scrubEn := v.getLsbD 16, periodH := BitVec.ofNat 8 period,
                                                  ceRepair := BitVec.ofNat 8 (fld v 7 0) } }

/-- A write of a word of `MEM_REPAIR_ADDR`; the pair takes effect on its HI word (R10, R217). -/
def Dev.repairAddr (ag : Agent) (ld : Nat) (hi : Bool) (v : W32) (d : Dev) : Dev :=
  if ld ≠ 15 then d.ldErr ld ePerm
  else if hi then
    d.checked (.ld ld) (firstFail [(fld v 31 12 ≠ 0, eReservedNonzero)]) fun d =>
      { d with memCtl := { d.memCtl with repairAddr := BitVec.ofNat 44 (pairNat (d.heldLo ag (.ld ld) 0x602C) v) } }
  else d.holdLo ag (.ld ld) 0x602C v

end Sys2Proof.Machine
end

