-- ==== Sys2Proof/Machine/Nvm.lean ====
section
/-! DEFINITION. The configuration NVM: the start records (R492, R497, R498) and the configuration image with its
verification (R479, R494 to R496, R557). -/

namespace Sys2Proof.Machine

/-! ## Start records -/

/-- The image region, the erase sector, and the two start-record sectors (R492, R493). -/
def nvmRegion : Nat := 0x280000
def nvmSector : Nat := 0x10000
def recordA : Nat := 0x07FE0000
def recordB : Nat := 0x07FF0000

/-- n bytes of the NVM. -/
def Vault.nvmRead (v : Vault) (a n : Nat) : List Byte := Mem.readN nvmDefault v.nvm a n

/-- Whether a range of the NVM reads all ones. -/
def Vault.erased (v : Vault) (a n : Nat) : Bool := (Mem.cells v.nvm a (a + n)).isEmpty

/-- Erases a range of the NVM. -/
def Vault.erase (a n : Nat) (v : Vault) : Vault := { v with nvm := Mem.clear v.nvm a (a + n) }

/-- Programs erased bytes of the NVM. -/
def Vault.program (a : Nat) (bs : List Byte) (v : Vault) : Vault := { v with nvm := Mem.writeN nvmDefault v.nvm a bs }

/-- The 32 bytes of a start record (R497). -/
def recordBytes (r : StartRec) : List Byte :=
  let head := toBytes 4 0x3152534E ++ toBytes 4 r.seq.toNat ++ toBytes 1 r.count ++ toBytes 1 r.level ++
    toBytes 2 r.code.toNat ++ toBytes 1 r.detail.toNat ++ zeros 15
  head ++ toBytes 4 (crc32c head).toNat

/-- The record at a place, when its magic and its CRC hold. -/
def Vault.recordAt (v : Vault) (a : Nat) : Option StartRec :=
  let b := v.nvmRead a 32
  if num b 0 4 = 0x3152534E ∧ num b 28 4 = (crc32c (slice b 0 28)).toNat then
    some { seq := BitVec.ofNat 32 (num b 4 4), count := num b 8 1, level := num b 9 1, code := BitVec.ofNat 16 (num b 10 2),
           detail := BitVec.ofNat 8 (num b 12 1), offset := a }
  else none

/-- The places of the two sectors that hold anything but ones. -/
def Vault.places (v : Vault) : List Nat :=
  (Mem.cells v.nvm recordA (recordB + nvmSector)).foldl (fun ps c => if ps.contains (c.1 / 32 * 32) then ps else ps ++ [c.1 / 32 * 32]) []

/-- The newer of two records (R498). -/
def newer (a b : StartRec) : StartRec := if 1 ≤ (a.seq - b.seq).toNat ∧ (a.seq - b.seq).toNat < 2 ^ 31 then a else b

/-- The current record (R498). -/
def Vault.current (v : Vault) : Option StartRec :=
  (v.places.filterMap v.recordAt).foldl (fun best r => some (best.elim r (newer r))) none

/-- Appends a record (R498): the vault and the record, which is then the current one. -/
def Vault.append (count level : Nat) (code : Code) (detail : BitVec 8) (v : Vault) : Vault × StartRec :=
  let put := fun (v : Vault) (seq : W32) (a : Nat) =>
    let r : StartRec := { seq := seq, count := count, level := level, code := code, detail := detail, offset := a }
    (v.program a (recordBytes r), r)
  match v.current with
  | none => put (v.erase recordA nvmSector) 1 recordA
  | some r =>
    let sec := r.offset / nvmSector * nvmSector
    let at_ := r.offset + 32
    match searchUp (fun i => v.erased (at_ + 32 * i) 32) ((sec + nvmSector - at_) / 32) 0 with
    | some i => put v (r.seq + 1) (at_ + 32 * i)
    | none =>
      let other := if sec = recordA then recordB else recordA
      put (v.erase other nvmSector) (r.seq + 1) other

/-! ## The configuration image (R495) -/

/-- A section of the body: type, offset and length. -/
structure Section where
  type : Nat
  off  : Nat
  len  : Nat
  deriving DecidableEq, Repr

/-- Whether bytes [i, i + n) are all zero. -/
def zeroAt (b : List Byte) (i n : Nat) : Bool := (slice b i n).all (· == 0)

def sectionsOf (b : List Byte) : List Section :=
  (List.range (num b 0 1)).map fun i => { type := num b (16 + 16 * i) 2, off := num b (20 + 16 * i) 4, len := num b (24 + 16 * i) 4 }

/-- The bytes of the section of a type. -/
def sectionOf (b : List Byte) (t : Nat) : Option (List Byte) :=
  ((sectionsOf b).find? fun s => s.type == t).map fun s => slice b s.off s.len

/-- Inserts a range by its start. -/
def insRange (a : Nat × Nat) : List (Nat × Nat) → List (Nat × Nat)
  | [] => [a]
  | x :: r => if a.1 ≤ x.1 then a :: x :: r else x :: insRange a r

/-- Whether every byte of the body between rising ranges, from `at_` to the end, is zero. -/
def gapsZero (b : List Byte) (stop : Nat) : Nat → List (Nat × Nat) → Bool
  | at_, [] => zeroAt b at_ (stop - at_)
  | at_, r :: rs => zeroAt b at_ (r.1 - at_) && gapsZero b stop (r.1 + r.2) rs

/-- The rules of the section table (R495). -/
def tableOk (b : List Byte) : Bool :=
  let n := num b 0 1
  let ss := sectionsOf b
  let ranges := ss.map fun s => (s.off, s.len)
  let table := 16 + 16 * n
  decide (16 ≤ b.length) && decide (1 ≤ n) && decide (n ≤ 16) && zeroAt b 1 15 && decide (table ≤ b.length) &&
    ((List.range n).all fun i => zeroAt b (18 + 16 * i) 2 && zeroAt b (28 + 16 * i) 4) &&
    (ss.all fun s => decide (1 ≤ s.type) && decide (s.type ≤ 8) && decide (s.off + s.len ≤ b.length)) &&
    decide ((ss.map Section.type).eraseDups.length = ss.length) &&
    ([1, 2, 3, 4, 5, 8].all fun t => ss.any fun s => s.type == t) && !anyMeet ((0, table) :: ranges) &&
    gapsZero b b.length table (ranges.foldr insRange [])

/-- Dies of a class (R4), and whether R31 permits it from a first die. -/
def classDies (c : Nat) : Nat := if c = 1 then 1 else if c = 2 then 2 else if c = 3 then 5 else 10
def formOk (c first : Nat) : Bool :=
  if c = 1 then decide (first ≤ 9)
  else if c = 2 then decide (first ≤ 3) || (decide (5 ≤ first) && decide (first ≤ 8))
  else if c = 3 then first == 0 || first == 5
  else c == 4 && first == 0

/-- The layout entry of an LD 0 to 9 with its physical DID; entry 10 is LD 15. -/
def layoutEntry (lay ids : List Byte) (n : Nat) : ImgLd :=
  let f := fun (o k : Nat) => num lay (32 * n + o) k
  { ldClass := f 0 1, firstDie := f 1 1, chanMask := BitVec.ofNat 24 (f 4 4), portMask := BitVec.ofNat 32 (f 8 4), quota0 := f 12 2,
    quota1 := f 14 2, domBase := f 16 2, domCount := f 18 2, did := BitVec.ofNat 14 (num ids (2 * n) 2) }

/-- The dies of an entry, as ranges for overlap tests. -/
def ImgLd.dies (x : ImgLd) : List Nat := if x.ldClass = 0 then [] else (List.range (classDies x.ldClass)).map (x.firstDie + ·)

/-- Whether a list has no repeats. -/
def distinct (l : List Nat) : Bool := l.eraseDups.length == l.length

/-- Sections 3 and 4 under R5, R31, R340 and R463. -/
def layoutOk (lay ids : List Byte) : Bool :=
  let es := (List.range 11).map (layoutEntry lay ids)
  let pop := (es.take 10).filter fun x => x.ldClass != 0
  let own := (pop ++ es.drop 10)
  let sum := fun (f : ImgLd → Nat) => (pop.map f).sum
  decide (lay.length = 352) && decide (ids.length = 32) && zeroAt ids 20 12 &&
    ((List.range 11).all fun n => zeroAt lay (32 * n + 2) 2 && zeroAt lay (32 * n + 20) 12 && num lay (32 * n + 7) 1 == 0) &&
    ((List.range 10).all fun n =>
      let x := layoutEntry lay ids n
      if x.ldClass = 0 then zeroAt lay (32 * n) 32 && zeroAt ids (2 * n) 2
      else formOk x.ldClass x.firstDie && decide (1 ≤ x.domCount) && decide (num ids (2 * n) 2 < 2 ^ 14)) &&
    zeroAt lay 320 16 && num lay 338 2 == 1 && distinct (pop.flatMap ImgLd.dies) &&
    distinct (pop.flatMap fun x => bitsOf 24 x.chanMask.toNat) && distinct (pop.flatMap fun x => bitsOf 32 x.portMask.toNat) &&
    distinct (pop.map fun x => x.did.toNat) && decide (sum ImgLd.quota0 ≤ 10240) && decide (sum ImgLd.quota1 ≤ 10240) &&
    (own.all fun x => decide (x.domBase < 4096) && decide (x.domBase + x.domCount ≤ 4096)) && !anyMeet (own.map fun x => (x.domBase, x.domCount))

/-- Section 5. -/
def powerOk (b : List Byte) : Bool :=
  let limit := num b 0 4 % 4096
  let pins := num b 4 4 % 1024
  let mv := num b 6 2
  let s := num b 10 2
  decide (b.length = 16) && decide (num b 0 4 < 2 ^ 13) && decide (1000 ≤ limit) && decide (limit ≤ 3000) &&
    bits (num b 4 4) 15 10 == 0 && (pins == 0 || (decide (700 ≤ mv) && decide (mv ≤ 750) && mv % 5 == 0)) && num b 9 1 == 0 &&
    decide (num b 8 1 ≤ 168) && (s == 0 || (decide (60 ≤ s) && decide (s ≤ 3600))) && zeroAt b 12 4

/-- Section 7. -/
def exclusionsOk (b : List Byte) : Bool :=
  decide (b.length = 16) && decide (num b 0 4 < 2 ^ 10) && decide (num b 4 4 < 2 ^ 20) && decide (num b 8 4 < 2 ^ 24) && zeroAt b 12 4

/-- Section 8, given the excluded channels. -/
def areasOk (b : List Byte) (exChans : Nat) : Bool :=
  let inLpddr := fun (a n : Nat) =>
    a % frameBytes == 0 && decide (lpBase ≤ a) && decide (a + n ≤ lpBase + 24 * chanWindow) &&
      (List.range 24).all fun c => !exChans.testBit c || decide (a + n ≤ chanAddr c 0) || decide (chanAddr c 0 + chanWindow ≤ a)
  decide (b.length = 16) && inLpddr (num b 0 8) 0x4000000 && inLpddr (num b 8 8) 0x800000 &&
    !meet (num b 0 8, 0x4000000) (num b 8 8, 0x800000)

/-- The reader of an image held in the controller's memory (R557). -/
def imageRd (im : List Byte) : Rd := fun a n => slice im a n

/-- The length of the default trellis that begins at byte `at_`: its header and tables, rounded up to 64 bytes. -/
def trellisLen (b : List Byte) (at_ : Nat) : Nat :=
  let h := trlHdr (bytesToWords 32 (slice b at_ 128))
  ceilDiv (h.tables.foldl (fun m x => max m (x.1 + x.2)) 128) 64 * 64

/-- Cuts the default trellises of the LDs given from section 6: none when one does not lie wholly in the section or has a
table in its header. -/
def cutTrellises (b : List Byte) : List Nat → Nat → Option (List (Nat × List Byte))
  | [], at_ => if at_ = b.length then some [] else none
  | ld :: r, at_ =>
    let n := trellisLen b at_
    let h := trlHdr (bytesToWords 32 (slice b at_ 128))
    if b.length < at_ + 128 ∨ b.length < at_ + n ∨ h.tables.any (fun x => decide (x.1 < 128)) then none
    else (cutTrellises b r (at_ + n)).map ((ld, slice b at_ n) :: ·)

/-- Section 6 against the populated LDs. -/
def trellisesOf (b : List Byte) (populated : Nat → Bool) : Option (List (Nat × List Byte)) :=
  let m := num b 0 4
  if b.length < 64 ∨ b.length % 64 ≠ 0 ∨ 2 ^ 10 ≤ m ∨ !zeroAt b 4 60 ∨ (bitsOf 10 m).any (fun n => !populated n) then none
  else cutTrellises b (bitsOf 10 m) 64

/-- The image of a body whose sections keep their rules; none for a malformed one. -/
def parseBody (version : W32) (hash b : List Byte) : Option Image :=
  if !tableOk b then none
  else
    let s := fun t => (sectionOf b t).getD []
    let ex := (sectionOf b 7).getD (zeros 16)
    let lds := (List.range 11).map (layoutEntry (s 3) (s 4))
    let pop := fun n => decide (n < 10) && decide ((lds.getD n (layoutEntry [] [] 0)).ldClass ≠ 0)
    let trls := match sectionOf b 6 with
      | none => some []
      | some t => trellisesOf t pop
    let boot := s 2
    let man := s 1
    let manLen := 128 + objSig man + objBody man
    if decide (4 ≤ boot.length) && decide (boot.length ≤ 65536) && boot.length % 4 == 0 && layoutOk (s 3) (s 4) && powerOk (s 5) &&
        exclusionsOk ex && areasOk (s 8) (num ex 8 4) && (decide (man.length < manLen) || zeroAt man manLen (man.length - manLen)) then
      trls.map fun ts =>
        let period := num (s 5) 8 1
        let limitS := num (s 5) 10 2
        { fwVer := BitVec.ofNat 32 (objVersion man), imgVer := version, fwHash := Config.sha256 (slice man 0 128), imgHash := hash, lds := lds,
          limitW := num (s 5) 0 4 % 4096, boostEn := bit (num (s 5) 0 4) 12, pinMask := BitVec.ofNat 10 (num (s 5) 4 4), pinMv := num (s 5) 6 2,
          periodH := if period = 0 then 24 else period, startS := if limitS = 0 then 300 else limitS, boot := boot,
          exDies := BitVec.ofNat 10 (num ex 0 4), exStacks := BitVec.ofNat 20 (num ex 4 4), exChans := BitVec.ofNat 24 (num ex 8 4),
          reqArea := num (s 8) 0 8, tagArea := num (s 8) 8 8, trlMask := BitVec.ofNat 10 (num ((sectionOf b 6).getD []) 0 4), trls := ts }
    else none

/-- The start code and detail of a failed step of R479 (R500). -/
def stepFailure (step : Nat) (manifest : Bool) : Code × BitVec 8 :=
  (if step = 1 then eNvmImage else eNvmSig, BitVec.ofNat 8 (step + 16 * b2n manifest))

/-- The object that the image region holds, from its header to the end of its body; the header alone when the body does
not fit the region. -/
def Vault.imageObject (v : Vault) : List Byte :=
  let head := v.nvmRead 0 128
  let n := 128 + objSig head + objBody head
  if n ≤ nvmRegion then v.nvmRead 0 n else head

/-- The verification of the image and of its nested manifest, as a start makes it (R479, R495, R500). -/
def Vault.verifyImage (v : Vault) : Except (Code × BitVec 8) Image :=
  let o := v.imageObject
  match failStep (objectChecks 2 [v.ownerKey] v.minImg.toNat o) with
  | some k => .error (stepFailure k false)
  | none =>
    match parseBody (BitVec.ofNat 32 (objVersion o)) (Config.sha256 (slice o 0 128)) (bodyOf o) with
    | none => .error (eNvmImage, 0)
    | some im =>
      match failStep (objectChecks 1 [Config.mladitRoot] v.minFw.toNat ((sectionOf (bodyOf o) 1).getD [])) with
      | some k => .error (stepFailure k true)
      | none => .ok im

end Sys2Proof.Machine
end

