-- ==== Sys2Proof/Machine/Port.lean ====
section
/-! DEFINITION. Cassum ports: credits that return (R307), training (R299 to R304), the link layer (R297,
R298), port loss (R315, R316), and the port registers (R323 to R325). -/

namespace Sys2Proof.Machine

/-! ## Credits that return (R307) -/

/-- Credits return for a class. The control word names no half, so how they fall on the two halves is free. -/
def Dev.portCredit (n cls slots : Nat) (d : Dev) : Dev :=
  if slots = 0 then d
  else
    let (d, f) := d.draw
    let x := d.port n
    let c0 := Map.get x.credits (2 * cls) 0
    let c1 := Map.get x.credits (2 * cls + 1) 0
    let room1 := halfSlots cls - c1
    let lo := slots - room1
    let k := lo + f % (slots - lo + 1)
    let cr := Map.set (Map.set x.credits (2 * cls) (min (halfSlots cls) (c0 + k))) (2 * cls + 1) (min (halfSlots cls) (c1 + (slots - k)))
    let d := d.modPort n fun x => { x with credits := cr }
    Dev.portPump n (d.port n).waiting d

/-! ## Ports going down (R300, R315, R316) -/

/-- Sets a port event in the LD of a port and in LD 15 (R327). -/
def Dev.portEvt (n b : Nat) (d : Dev) : Dev :=
  let d := d.modLd 15 (Ld.setFabEvt b)
  if d.ldOfPort n = 15 then d else d.modLd (d.ldOfPort n) (Ld.setFabEvt b)

/-- A port with what its last training set cleared; the neighbour's values stay. -/
def Port.untrained (x : Port) : Port :=
  { x with lanesGood := 0, pol := 0, reversed := false, rate := false, width := 0, locked := 0, order := [], attempted := false,
           bad := 0, naking := false, queue := [], credits := [], share := [], passed := [], owed := [], txSeq := 0, nakDue := false,
           unacked := [], txSlots := [], txCount := 0, fallback := false, used := 0 }

/-- A port leaves ACTIVE. Its neighbour is lost when no other port of the LD still reaches it (R317). -/
def Dev.portLost (now : W64) (n : Nat) (d : Dev) : Dev :=
  let x := d.port n
  let ld := d.ldOfPort n
  let d := d.portEvt n 0
  if ld < 10 ∧ !((d.portsOf ld).any fun p => p != n && (d.port p).st == .active && (d.port p).nbrDid == x.nbrDid) then
    d.declareLost now ld x.nbrDid.toNat x.nbrInc none
  else d

/-- An ACTIVE port goes down and tries again from DETECT (R300). -/
def Dev.portDown (now : W64) (n : Nat) (d : Dev) : Dev :=
  if (d.port n).st = .active then (d.modPort n fun x => { x.untrained with st := .detect }).portLost now n else d

/-- A port goes to OFF, sending a LEAVE notice when it was ACTIVE (R315). -/
def Dev.portOff (now : W64) (n : Nat) (d : Dev) : Dev :=
  let was := (d.port n).st
  let did := (d.ld (d.ldOfPort n)).lay.did
  let d := if was = .active then d.emit (.leave n did) else d
  let d := d.modPort n fun x => { x.untrained with st := .off, draining := false }
  if was = .active then d.portLost now n else d

/-- LINK_SILENCE_TIMEOUT. -/
def execLinkSilenceTimeout (port : Nat) : State → Result := onDevAt fun now => Dev.portDown now port

/-- LEAVE_NOTICE: the notice names the neighbour at the other end of the port. -/
def execLeaveNotice (port : Nat) (_did : BitVec 14) : State → Result :=
  onDevAt fun now d => d.portDown now port

/-- LANE_FAIL_ACTIVE: the lane is left out until `retrain` (R304). -/
def execLaneFailActive (port lane : Nat) : State → Result :=
  onDevAt fun now d =>
    if (d.port port).st = .active then
      (d.modPort port fun x => { x with excluded := putBit x.excluded lane (x.excluded.getLsbD lane || decide (lane < 4)) }).portDown now port
    else d

/-! ## Port control (R323, R300, R515) -/

/-- The port leaves OFF once it is enabled and its LD has reached level 1 (R300). -/
def Dev.portWake (n : Nat) (d : Dev) : Dev :=
  let x := d.port n
  if x.st = .off ∧ x.enable ∧ !x.draining ∧ d.ldOfPort n < 10 ∧ 1 ≤ (d.ld (d.ldOfPort n)).ctl.service then
    d.modPort n fun x => { x with st := .detect }
  else d

/-- Every enabled port of an LD leaves OFF: the LD has reached level 1. -/
def Dev.wakePorts (ld : Nat) (d : Dev) : Dev := (d.portsOf ld).foldl (fun d p => d.portWake p) d

/-- A write of `FAB_PORT_CTL_n` through the page of an LD. -/
def Dev.portCtl (now : W64) (ld n : Nat) (v : W32) (d : Dev) : Dev :=
  let own := d.ldOfPort n
  let on := v.getLsbD 0
  d.checked (.ld ld)
    (firstFail [(ld ≠ 15 ∧ own ≠ ld, ePerm), (fld v 31 3 ≠ 0, eReservedNonzero), (on ∧ (d.port n).draining, eState)])
    fun d =>
      let d := d.modPort n fun x => { x with halfOk := v.getLsbD 1, enable := on }
      if on then
        let d := d.portWake n
        if v.getLsbD 2 ∧ (d.port n).st ≠ .off then
          let was := (d.port n).st
          let d := d.modPort n fun x => { x.untrained with st := .detect, excluded := 0 }
          if was = .active then d.portLost now n else d
        else d
      else if (d.port n).st = .off ∨ (d.port n).draining then d
      else (d.modPort n fun x => { x with draining := true }).drainBegin now (.port n) own

/-- The port control registers are at 0x9000. -/
def portCtlOff (port : Nat) : Nat := 0x9000 + 4 * port

/-- PORT_ENABLE: a write with `enable` 1. -/
def execPortEnable (ag : Agent) (ld port : Nat) (v : W32) : State → Result :=
  onDevAt fun now => guarded (v.getLsbD 0 && decide (port < 32)) (Dev.pageWrite ag ld (portCtlOff port) (Dev.portCtl now ld port v))

/-- PORT_RETRAIN: a write with `retrain` 1. -/
def execPortRetrain (ag : Agent) (ld port : Nat) (v : W32) : State → Result :=
  onDevAt fun now => guarded (v.getLsbD 2 && decide (port < 32)) (Dev.pageWrite ag ld (portCtlOff port) (Dev.portCtl now ld port v))

/-! ## Training (R301 to R303) -/

/-- PORT_DETECT_ATTEMPT: an attempt of 1 ms in which no lane has locked leaves `reason` 1. -/
def Dev.portAttempt (n : Nat) (d : Dev) : Dev :=
  let x := d.port n
  if x.st = .detect then
    d.modPort n fun x => { x with attempted := true, tried := true, reason := if x.attempted then 1 else x.reason }
  else d.portWake n

/-- LANE_LOCK: a receiving lane locks on a marker, inverted or not. -/
def Dev.laneLock (n lane : Nat) (inverted : Bool) (marker : Nat) (d : Dev) : Dev :=
  let x := d.port n
  if (x.st = .detect ∨ x.st = .train) ∧ lane < 4 ∧ marker < 4 ∧ !x.excluded.getLsbD lane then
    d.modPort n fun x =>
      { x with st := .train, locked := setBit x.locked lane, lanesGood := setBit x.lanesGood lane, pol := putBit x.pol lane inverted,
               order := Map.set x.order lane marker }
  else d

/-- The locked receive lanes of a port, after shorted lanes have been left out. -/
def Port.lanes (x : Port) : List Nat := (List.range 4).filter fun i => x.locked.getLsbD i && !x.excluded.getLsbD i

/-- The lane number that a receive lane's marker carries. -/
def Port.marker (x : Port) (i : Nat) : Nat := Map.get x.order i i

/-- Whether every locked lane carries the marker that a straight or a reversed cable brings. -/
def Port.straight (x : Port) : Bool := x.lanes.all fun i => x.marker i == i
def Port.crossed (x : Port) : Bool := x.lanes.all fun i => x.marker i == 3 - i

/-- The number of usable lanes: locked here, and at the far end in its own numbering (R303). -/
def Port.usable (x : Port) (far : BitVec 4) : Nat := (x.lanes.filter fun i => far.getLsbD (x.marker i)).length

/-- The lanes that a port runs on, in its own numbering: the lowest usable ones in the numbering of the end with the lower
physical DID (R303). -/
def Port.runsOn (x : Port) (far : BitVec 4) (own farDid : BitVec 14) (w : Nat) : BitVec 4 :=
  let ok := x.lanes.filter fun i => far.getLsbD (x.marker i)
  let order := if own.toNat < farDid.toNat then ok else (List.range 4).flatMap fun m => ok.filter fun i => x.marker i == m
  (order.take w).foldl setBit 0

/-- The lanes of a width code. -/
def widthLanes (w : BitVec 2) : Nat := if w = 3 then 4 else w.toNat

/-- `width` of `FAB_PORT_STAT` for a number of usable lanes: the largest of 4, 2 and 1 not above it. -/
def widthOf (n : Nat) : BitVec 2 := if 4 ≤ n then 3 else if 2 ≤ n then 2 else if n = 1 then 1 else 0

/-- A training that ends without reaching ACTIVE: back to DETECT, or to FAULT, with a reason. -/
def Dev.trainFail (n : Nat) (fault : Bool) (reason : BitVec 3) (d : Dev) : Dev :=
  let d := d.modPort n fun x => { x.untrained with st := if fault then .fault else .detect, reason := reason, tried := true }
  if fault then d.portEvt n 2 else d

/-- The far end of a port that has entered ACTIVE: an earlier incarnation of it is lost first, and a lost DID is
found (R319). -/
def Dev.metAgain (now : W64) (n : Nat) (d : Dev) : Dev :=
  let x := d.port n
  let ld := d.ldOfPort n
  let did := x.nbrDid.toNat
  let d := match (d.portsOf ld).find? fun p => p != n && (d.port p).st == .active && (d.port p).nbrDid == x.nbrDid && (d.port p).nbrInc != x.nbrInc with
    | some p => d.declareLost now ld did (d.port p).nbrInc none
    | none => d
  d.declareFound ld did x.nbrInc none

/-- The exchange of step 3: this end's values go out on the locked lanes, and the neighbour's DID is that of the last training
(R301, R324). -/
def Dev.exchange (n : Nat) (i : TrainInfo) (d : Dev) : Dev :=
  let x := d.port n
  let l := d.ld (d.ldOfPort n)
  (d.emit (.exchange n l.lay.did l.fab.inc l.lay.ldClass.toNat (x.lanes.foldl setBit 0))).modPort n fun x => { x with nbrDid := i.farDid }

/-- PORT_TRAINING_END, in the order of R301 with the outcomes of R302. A check that fails at 212.5 Gb/s with `half_ok` 1 begins
steps 1 to 5 again at 106.25 Gb/s: the lanes lock anew, and the training ends with another such event. -/
def Dev.trainingEnd (now : W64) (n : Nat) (i : TrainInfo) (d : Dev) : Dev :=
  if (d.port n).st ≠ .train then d
  else
    let d := d.modPort n fun x => { x with excluded := x.excluded ||| i.shorted, lanesGood := x.lanesGood &&& ~~~i.shorted }
    let x := d.port n
    let own := (d.ld (d.ldOfPort n)).lay.did
    let w := widthOf (x.usable i.farLocked)
    if i.txFaces then d.trainFail n true 2
    else if x.lanes.isEmpty then d.trainFail n false 1
    else if !x.straight ∧ !x.crossed then d.trainFail n true 3
    else
      let d := d.exchange n i
      if i.farDid = own then d.trainFail n true 4
      else if w = 0 then d.trainFail n false 1
      else if !i.idleOk ∧ x.halfOk ∧ !x.fallback then
        d.modPort n fun x => { x with fallback := true, locked := 0, lanesGood := 0, pol := 0, order := [] }
      else if !i.idleOk then d.trainFail n false 5
      else
        let good := x.lanes.foldl setBit (0 : BitVec 4)
        let d := d.modPort n fun x =>
          { x with st := .active, nbrInc := i.farInc, nbrClass := i.farClass, reason := 0, lanesGood := good,
                   pol := x.pol &&& good, reversed := !x.straight, rate := x.fallback, width := w, acked := 1023, rxSeq := 1023,
                   txSeq := 1023, bad := 0, naking := false, credits := fullCredits, queue := [], tried := true,
                   used := x.runsOn i.farLocked own i.farDid (widthLanes w) }
        let d := if w ≠ 3 ∨ x.fallback then d.portEvt n 1 else d
        d.metAgain now n

def execLaneLock (port lane : Nat) (inverted : Bool) (marker : Nat) : State → Result := onDev (Dev.laneLock port lane inverted marker)

/-! ## The link layer (R297, R298) -/

/-- The flit control word: bytes 256 to 263 of a flit. -/
def flitWord (flit : List Byte) : Nat := num flit 256 8

/-- Whether a flit passes its CRC-24, over bytes 0 to 255 and bits [39:0] of the control word. -/
def flitOk (flit : List Byte) : Bool := flit.length == 272 && crc24 (flit.take 261) == bits (flitWord flit) 63 40

/-- A flit: its slots, its control word with the CRC-24, and its parity (R297). -/
def flitBytes (f : SentFlit) (ack : BitVec 10) (nak : Bool) : List Byte :=
  let w := f.seq.toNat + 2 ^ 10 * ack.toNat + 2 ^ 20 * b2n nak + 2 ^ 21 * f.cls + 2 ^ 23 * f.slots
  let body := f.body ++ toBytes 5 w ++ toBytes 3 (crc24 (f.body ++ toBytes 5 w))
  body ++ slice (Config.flitParity body) 0 8

/-- The port sends its next flit: eight slots of what it has to send, empty ones after them, with the acknowledgement of what it
has received and credits of one class. A full replay buffer sends none (R297, R298). -/
def Dev.flitSend (n : Nat) (d : Dev) : Dev :=
  let x := d.port n
  if x.st ≠ .active ∨ 1024 ≤ x.unacked.length then d
  else
    let cls := ((List.range 4).find? fun k => Map.get x.owed k 0 != 0).getD 0
    let cr := min 511 (Map.get x.owed cls 0)
    let f : SentFlit := { seq := x.txSeq + 1, body := slice (x.txSlots.take 8).flatten 0 256, cls := cls, slots := cr }
    (d.modPort n fun x =>
      { x with txSeq := f.seq, txSlots := x.txSlots.drop 8, unacked := x.unacked ++ [f], nakDue := false,
               owed := Map.set x.owed cls (Map.get x.owed cls 0 - cr) }).emit (.flit n (flitBytes f x.rxSeq x.nakDue))

/-- The replay buffer after an acknowledgement. -/
def ackedUpTo (ack : BitVec 10) (l : List SentFlit) : List SentFlit :=
  match l.findIdx? fun f => f.seq == ack with
  | some i => l.drop (i + 1)
  | none => l

/-- A replay: every flit that has not been acknowledged, in order. -/
def Dev.flitReplay (n : Nat) (d : Dev) : Dev :=
  let x := d.port n
  x.unacked.foldl (fun d f => d.emit (.flit n (flitBytes f x.rxSeq false)))
    ((d.modPort n fun x => { x with replays := sat16 x.replays }).emit (.replayFrom n ((x.acked.toNat + 1) % 1024)))

/-- FLIT_RECEIVE: a flit as FEC leaves it. The expected flit is acted on; one that fails asks for a replay, and the
eighth failed reception of it takes the port down. While a replay is awaited, other flits are dropped. DESIGN CHOICE (log 112): the
port sends one flit for each that comes. -/
def Dev.flitReceive (now : W64) (n : Nat) (flit : List Byte) (fixed : Bool) (d : Dev) : Dev :=
  if (d.port n).st ≠ .active then d
  else
    let d := if fixed then d.modPort n fun x => { x with fecFix := sat16 x.fecFix } else d
    let x := d.port n
    let w := flitWord flit
    let seq := BitVec.ofNat 10 (bits w 9 0)
    let due := seq == x.rxSeq + 1
    if flitOk flit then
      if !due then d.flitSend n
      else
        let ack := BitVec.ofNat 10 (bits w 19 10)
        let d := d.modPort n fun x => { x with rxSeq := seq, acked := ack, bad := 0, naking := false, unacked := ackedUpTo ack x.unacked }
        let d := if bit w 20 then d.flitReplay n else d
        (d.portCredit n (bits w 22 21) (bits w 31 23)).flitSend n
    else if x.naking ∧ !due then d.flitSend n
    else if x.bad + 1 = 8 then d.portDown now n
    else (d.modPort n fun x => { x with bad := x.bad + 1, naking := true, nakDue := true }).flitSend n

def execFlitReceive (port : Nat) (flit : List Byte) (fixed : Bool) : State → Result :=
  onDevAt fun now => Dev.flitReceive now port flit fixed

end Sys2Proof.Machine
end

