-- ==== Sys2Proof/Machine/Power.lean ====
section
/-! DEFINITION. The elapsed counter, the power limit and the operating point of the dies (R48 to R58, R61),
and the clearing of `LD_ERR_CODE` (R441). -/

namespace Sys2Proof.Machine

/-! ## Time -/

/-- New symbols in error of a codeword: symbols that its code has, and for HBM3E the mark of an error that the die corrects
(R192, R193). -/
def Dev.upset (x : Nat × List Nat) (d : Dev) : Dev :=
  match unitOf x.1 with
  | none => d
  | some u =>
    let mark := match u with | .stack _ => [odcMark] | _ => []
    let ys := x.2.filter fun y => decide (y < codeSymbols u) || mark.contains y
    if cwOf x.1 = x.1 ∧ !d.poison.contains x.1 ∧ ys ≠ [] then
      { d with upsets := Map.set d.upsets x.1 (ys.foldl (fun l y => insNat y l) (Map.get d.upsets x.1 [])) }
    else d

/-- One unit more since the hand-over requests that wait (R402). -/
def Dev.ageYields (d : Dev) : Dev :=
  { d with clusters := d.clusters.map fun e =>
      if e.2.yieldReq = some .handOver then (e.1, { e.2 with yieldAge := e.2.yieldAge + 1 }) else e }

/-- ELAPSED_TICK: the counter advances by one unit (R61), and with it the watchdogs of transport (R314) and of hand-overs (R402); `upsets` are
the symbols that the memories lose in that time. -/
def execElapsedTick (upsets : List (Nat × List Nat)) (s : State) : Result :=
  .next { s with now := s.now + 1, dev := (upsets.foldl (fun d x => d.upset x) s.dev).ageRequests.ageYields }

/-! ## LD_ERR_CODE -/

/-- A write of `LD_ERR_CODE`: `clear` acts first, then a reserved bit is recorded (R441). -/
def Dev.errWrite (ld : Nat) (v : W32) (d : Dev) : Dev :=
  let d := if v.getLsbD 24 then d.modLd ld fun l => { l with ctl := { l.ctl with errCode := 0, errCount := 0 } } else d
  if fld v 31 25 ≠ 0 then d.ldErr ld eReservedNonzero else d

/-- LD_ERR_CLEAR. -/
def execLdErrClear (ag : Agent) (ld : Nat) (v : W32) : State → Result :=
  onDev (Dev.pageWrite ag ld 0xC (Dev.errWrite ld v))

/-! ## The power limit -/

/-- The effective limit in watts and its source: 0 the image, 1 `PWR_LIMIT`, 2 the board controller (R50,
R56). A later source counts when it is strictly lower. -/
def Dev.limit (d : Dev) : Nat × Nat :=
  let lower := fun (best : Nat × Nat) (w src : Nat) => if w ≠ 0 ∧ w < best.1 then (w, src) else best
  let img := if d.pwr.imgLimit = 0 then 3000 else min 3000 d.pwr.imgLimit.toNat
  lower (lower (img, 0) d.pwr.hostLimit.toNat 1) d.i3c.limitW.toNat 2

/-- Whether a value of a `limit_w` field is illegal (R55, R550). -/
def limitBad (w : Nat) : Bool := (1 ≤ w && w ≤ 999) || 3001 ≤ w

/-- A write of `PWR_LIMIT` (R55). In another LD than 15 the register is absent: it reads zero, and a write
changes nothing. -/
def Dev.pwrLimit (ld : Nat) (v : W32) (d : Dev) : Dev :=
  if ld = 15 then
    d.checked (.ld ld) (firstFail [(fld v 31 13 ≠ 0, eReservedNonzero), (limitBad (fld v 11 0), eRange)]) fun d =>
      { d with pwr := { d.pwr with hostLimit := BitVec.ofNat 12 (fld v 11 0), boostEn := v.getLsbD 12 } }
  else d

/-- PWR_LIMIT_WRITE. -/
def execPwrLimitWrite (ag : Agent) (ld : Nat) (v : W32) : State → Result :=
  onDev (Dev.pageWrite ag ld 0xD000 (Dev.pwrLimit ld v))

/-! ## Samples -/

/-- The dies that a power controller sets: all ten. -/
def dieNumbers : List Nat := List.range 10

/-- Whether every unpinned die stands at 0.70 V (R52, R56). -/
def Dev.atFloor (d : Dev) : Bool := dieNumbers.all fun n => (d.die n).pinned || (d.die n).vcore == 700

/-- The setting at which a die stands. -/
def Dev.setting (d : Dev) (n : Nat) : DiePlan := { vcore := (d.die n).vcore, pacing := (d.die n).pacing }

/-- Whether every unpinned die stands at 0.70 V with pacing 15: nothing is left to take from them (R53). -/
def Dev.spent (d : Dev) : Bool := dieNumbers.all fun n => (d.die n).pinned || d.setting n == { vcore := 700, pacing := 15 }

/-- The dies that the controller may lower at a sample that needs it: the unpinned ones while they are not spent,
then the pinned ones (R53). -/
def Dev.lowerable (d : Dev) : List Nat := dieNumbers.filter fun n => (d.die n).pinned == d.spent

/-- The least that a needed sample does when the controller's choice does not do it: dies above 0.70 V step down by
5 mV; with none of them above it, their pacing rises by one (R51, R52). -/
def Dev.forcedPlan (d : Dev) : List DiePlan :=
  let low := d.lowerable
  let high := low.any fun n => (d.die n).vcore > 700
  dieNumbers.map fun n =>
    let y := d.setting n
    if !low.contains n then y
    else if high then (if y.vcore > 700 then { y with vcore := max 700 (y.vcore - 5) } else y)
    else { y with pacing := min 15 (y.pacing + 1) }

/-- As `forcedPlan` above 3,000 W, where pacing alone is fast enough: full pacing at once (R51). -/
def Dev.emergencyPlan (d : Dev) : List DiePlan :=
  let low := d.lowerable
  dieNumbers.map fun n => if low.contains n then { d.setting n with pacing := 15 } else d.setting n

/-- Whether a sample asks for less: a draw over the limit, or a junction over 105 °C (R51). -/
def Dev.mustLower (d : Dev) (draw : Nat) (tj : List Nat) : Bool :=
  decide (d.limit.1 < draw) || tj.any fun t => decide (105 < t)

/-- Whether a new setting takes voltage or issue from a die. -/
def takes (x y : DiePlan) : Bool := decide (y.vcore < x.vcore) || decide (x.pacing < y.pacing)

/-- Whether the setting y of die n is within what R49, R51 to R53 allow at a sample: in the rail's range; above
0.75 V only with boost, room and a cool junction; no voltage given and no pacing taken back while the draw is over the
limit, nor on a die that is too hot; more pacing only below the floor or above 3,000 W; and a pinned die only moves
towards its pin unless the unpinned ones are spent. -/
def Dev.dieOk (d : Dev) (draw : Nat) (tj : List Nat) (n : Nat) (y : DiePlan) : Bool :=
  let x := d.setting n
  let pin := d.pwr.pinMv
  let hot := decide (105 < tj.getD n 0)
  let above := decide (d.limit.1 < draw)
  decide (700 ≤ y.vcore) && decide (y.vcore ≤ 850) && y.vcore % 5 == 0 && decide (y.pacing ≤ 15) &&
    (decide (y.vcore ≤ 750) || decide (y.vcore ≤ x.vcore) ||
      (d.pwr.boostEn && decide (draw < d.limit.1) && decide (tj.getD n 0 < 80))) &&
    (!(above || hot) || (decide (y.vcore ≤ x.vcore) && decide (x.pacing ≤ y.pacing))) &&
    (decide (y.pacing ≤ x.pacing) || (d.atFloor && d.mustLower draw tj) || decide (3000 < draw)) &&
    (!(d.die n).pinned || (d.spent && d.mustLower draw tj && takes x y) ||
      (decide (min x.vcore pin ≤ y.vcore) && decide (y.vcore ≤ max x.vcore pin) && decide (y.pacing ≤ x.pacing)))

/-- Whether a setting of all dies does what a sample asks of it: when less is needed, something is taken from a die that
may be lowered, and from each of those that is too hot; above 3,000 W a pacing value rises. -/
def Dev.planActs (d : Dev) (draw : Nat) (tj : List Nat) (p : Nat → DiePlan) : Bool :=
  let low := d.lowerable.filter fun n => d.setting n != { vcore := 700, pacing := 15 }
  !d.mustLower draw tj || low.isEmpty ||
    (low.any (fun n => takes (d.setting n) (p n)) &&
      low.all (fun n => !(decide (105 < tj.getD n 0) && (d.atFloor || decide ((d.die n).vcore > 700))) || takes (d.setting n) (p n)) &&
      (!decide (3000 < draw) || low.all (fun n => (d.die n).pacing == 15) || low.any fun n => decide ((d.die n).pacing < (p n).pacing)))

/-- Whether the setting that the controller chose is one that R49, R51 to R53 let it choose. -/
def Dev.planOk (d : Dev) (draw : Nat) (tj : List Nat) (plan : List DiePlan) : Bool :=
  let p := fun n => plan.getD n (d.setting n)
  dieNumbers.all (fun n => d.dieOk draw tj n (p n)) && d.planActs draw tj p

/-- The setting that a sample makes: the controller's choice where the rules allow it, else the least that they ask for. -/
def Dev.planFor (d : Dev) (draw : Nat) (tj : List Nat) (plan : List DiePlan) : List DiePlan :=
  if d.planOk draw tj plan then plan
  else if !d.mustLower draw tj then []
  else if 3000 < draw ∧ d.lowerable.any (fun n => (d.die n).pacing < 15) then d.emergencyPlan
  else d.forcedPlan

/-- Sets `pin_broken` in `PWR_STATUS` and in `PWR_BC_FAULT` (R53, R550). -/
def Dev.breakPin (d : Dev) : Dev := { d with pwr := { d.pwr with pinBroken := true } }.bcFault 1

/-- Applies the settings of the dies; a pinned die that is lowered below its pin or paced breaks it (R53). -/
def Dev.applyPlan (plan : List DiePlan) (d : Dev) : Dev :=
  dieNumbers.foldl (fun d n =>
    match plan[n]? with
    | none => d
    | some y =>
      let x := d.die n
      let lowered := x.pinned && ((decide (y.vcore < x.vcore) && decide (y.vcore < d.pwr.pinMv)) || decide (x.pacing < y.pacing))
      let d := d.modDie n fun x => { x with vcore := y.vcore, pacing := y.pacing }
      if lowered then d.breakPin else d) d

/-- A sample of draw and junction temperatures (R51, R56, R57, R550). -/
def Dev.sample (draw : Nat) (tj : List Nat) (d : Dev) : Dev :=
  let d := dieNumbers.foldl (fun d n => d.modDie n fun x => { x with tj := min 255 (tj.getD n 0) }) d
  { d with pwr := { d.pwr with draw := BitVec.ofNat 12 (min 4095 draw) },
           pins := { d.pins with tjMax := min 255 (tj.foldl max 0) } }

/-- POWER_SAMPLE: with rails on, the sample is taken and the controller's setting takes effect (R51 to R53), unless
THERM_N holds the dies (R546). -/
def Dev.powerSample (draw : Nat) (tj : List Nat) (plan : List DiePlan) (d : Dev) : Dev :=
  if d.pins.rails then
    let d := d.sample draw tj
    if d.pins.therm then d else d.applyPlan (d.planFor draw tj plan)
  else d

def execPowerSample (draw : Nat) (tj : List Nat) (plan : List DiePlan) : State → Result :=
  onDev (Dev.powerSample draw tj plan)

/-! ## Slack monitors -/

/-- SLACK_TRIP (R48): the trip is counted and an event record written; the tap rises by one, and a die that
reaches 63 is conservative; a die already at 63 has lost its margin. -/
def Dev.slackTrip (die clu : Nat) (d : Dev) : Dev :=
  let x := d.die die
  if (x.joined || x.booting) && clu / 256 == die then
    let d := (d.modDie die fun x => { x with trips := sat16 x.trips }).emit (.slackEvent die clu)
    if 63 ≤ x.tap then (d.modDie die fun x => { x with marginLost := true }).bcFault 12
    else
      let d := d.modDie die fun x => { x with tap := x.tap + 1 }
      if x.tap + 1 = 63 then (d.modDie die fun x => { x with conservative := true }).bcFault 0 else d
  else d

def execSlackTrip (die clu : Nat) : State → Result := onDev (Dev.slackTrip die clu)

end Sys2Proof.Machine
end

