-- ==== Sys2Proof/Machine/Selftest.lean ====
section
/-! DEFINITION. The self-test of the memories at a start and at a reset, and their bring-up (R203, R204, R210 to R212). -/

namespace Sys2Proof.Machine

/-! ## Checkers (R210) -/

/-- The outcomes that the vectors of R210 must have, in the order of its table. -/
def checkVectors : MemUnit → List CheckOutcome
  | .stack _ =>
    [.clean, .clean] ++ ((List.range 36).flatMap fun i => [.corrected [i], .corrected [i]]) ++ List.replicate 36 .uncorrectable ++
      [.uncorrectable, .poisoned]
  | .channel _ =>
    [.clean, .clean] ++ ((List.range 80).flatMap fun i => [.corrected [i], .corrected [i]]) ++
      [.corrected [0, 1, 2, 3], .uncorrectable, .uncorrectable, .poisoned]
  | _ =>
    List.replicate 4 .clean ++ ((List.range 72).map fun i => .corrected [i]) ++ List.replicate 72 .uncorrectable ++ [.poisoned]

/-- Whether a vector passes for all that is said of it. DEDUCED (log 105): the original data are asked back of every outcome
but an uncorrectable one, which delivers none. -/
def vectorOk (u : MemUnit) (r : CheckResult) : Bool :=
  match (checkVectors u)[r.vector]? with
  | none => true
  | some w => r.outcome == w && (r.data || w == .uncorrectable)

/-- Whether a checker passes its loopback test. -/
def checkerOk (u : MemUnit) (rs : List CheckResult) : Bool := rs.all (vectorOk u)

/-! ## SRAM arrays (R203) -/

/-- The rows and columns of an array that the fuse map has replaced. -/
def Vault.fused (v : Vault) (u : MemUnit) (array : Nat) : Nat × Nat :=
  let fs := (v.fuses.filter fun f => f.1 == u && f.2.array == array).map Prod.snd
  ((fs.flatMap ArrayFaults.rows).eraseDups.length, (fs.flatMap ArrayFaults.cols).eraseDups.length)

/-- Whether the spares left of an array, 4 rows and 2 columns in all, cover what the March C− test found in it. -/
def Vault.covers (v : Vault) (u : MemUnit) (f : ArrayFaults) : Bool :=
  decide (f.rows.eraseDups.length + (v.fused u f.array).1 ≤ 4) && decide (f.cols.eraseDups.length + (v.fused u f.array).2 ≤ 2)

/-- Whether an SRAM unit passes. -/
def Vault.sramOk (v : Vault) (u : MemUnit) (t : SramTest) : Bool := t.arrays.all (v.covers u) && checkerOk u t.checker

/-! ## Lanes (R204) -/

/-- The failed pins that a unit has, those that its redundant lanes replace, and the others. -/
def failedPins (u : MemUnit) (t : DramTest) : List (Nat × Nat) :=
  (t.pins.filter fun p => decide (p.2 < codeSymbols u) && (match u with | .stack _ => decide (p.1 < 32) | _ => p.1 == 0)).eraseDups
def movedPins (u : MemUnit) (t : DramTest) : List (Nat × Nat) := (failedPins u t).take t.lanes
def leftPins (u : MemUnit) (t : DramTest) : List (Nat × Nat) := (failedPins u t).drop t.lanes

/-- Whether a stack or a package passes: no pseudo-channel, and no package, has more pins without a lane than its code can
have marked, and its checker passes. -/
def dramOk (u : MemUnit) (t : DramTest) : Bool :=
  ((leftPins u t).all fun p => decide (((leftPins u t).filter fun q => q.1 == p.1).length ≤ markLimit u)) && checkerOk u t.checker

/-! ## Bring-up (R211, R212) -/

/-- Whether an address belongs to a memory unit. -/
def inUnit (u : MemUnit) (a : Nat) : Bool := unitOf a == some u

/-- A unit's tests have passed or failed; one that passed is in service. -/
def Dev.tested (u : MemUnit) (ok : Bool) (d : Dev) : Dev := d.modUnit u fun x => { x with inService := ok, failed := !ok }

/-- A unit that passed is filled with zeros too. -/
def Dev.bringUp (u : MemUnit) (ok : Bool) (d : Dev) : Dev := (d.tested u ok).wipeIf fun a => ok && inUnit u a

/-- An SRAM unit comes up with the spares that its test assigned. -/
def Dev.bringUpSram (v : Vault) (u : MemUnit) (t : SramTest) (d : Dev) : Dev :=
  (d.bringUp u (v.sramOk u t)).modUnit u fun x => { x with spares := t.arrays.filter (v.covers u) }

/-- A stack or a package is trained and tested: the pins that training moved or marked set `lane`, and its repair
resources are known (R204, R206, R214). A faulty Cassum clock fails it (R541). -/
def Dev.testDram (u : MemUnit) (t : DramTest) (free : Nat) (d : Dev) : Dev :=
  let d := (d.tested u (dramOk u t && d.pins.clkCas)).modUnit u fun x =>
    { x with free := free, lanes := movedPins u t, marked := leftPins u t }
  if (failedPins u t).isEmpty then d else d.eccEvt u 5

/-- A stack or a package comes up at a start: one that passed is filled with zeros (R211). -/
def Dev.bringUpDram (u : MemUnit) (t : DramTest) (free : Nat) (d : Dev) : Dev :=
  (d.testDram u t free).wipeIf fun a => dramOk u t && d.pins.clkCas && inUnit u a

end Sys2Proof.Machine
end

