-- ==== Sys2Proof/Machine/Start.lean ====
section
/-! DEFINITION. A start: its failures and fallow mode, the ROM and Silmuvin stages, the joins and calibrations of the
dies, and the service levels (R38, R39, R46, R211, R417, R464, R499 to R504). -/

namespace Sys2Proof.Machine

/-! ## The device between starts -/

/-- The LEAVE notices of ports that go to OFF in a reset (R315); the work of the scope has stopped and hears nothing of
the loss (R509). -/
def Dev.leaveOn (ps : List Nat) (d : Dev) : Dev :=
  (ps.filter fun n => (d.port n).st == .active).foldl (fun d n => d.emit (.leave n (d.ld (d.ldOfPort n)).lay.did)) d

/-- The dies of a device that has been reset; THERM_N still holds them while it is asserted (R546). -/
def Dev.freshDies (d : Dev) : Map Die :=
  if d.pins.therm then dieNumbers.map fun n => (n, { Die.init with vcore := 700, pacing := 15 }) else []

/-- The device with everything zeroised that its scope holds (R508). The pins, the I3C registers, the host's memory, the
noise source and what has left on the links are not of the scope. -/
def Dev.cleared (d : Dev) : Dev :=
  { Dev.init d.pins d.i3c d.free with
    out := d.out, hostMem := d.hostMem, nextId := d.nextId, dies := d.freshDies, crypto := { Crypto.init with drbgFail := d.crypto.drbgFail } }

/-- The device after a reset of its scope, at a stage of the start: LD 15 alone exists, with the cause. -/
def Dev.restarted (now : W64) (stage : BootStage) (cause : BitVec 4) (d : Dev) : Dev :=
  let c := (d.leaveOn (List.range 32)).cleared
  { c with lds := [(15, Ld.init Layout.init cause 0)], boot := { Boot.init with stage := stage, startAt := now },
           pins := { c.pins with ready := false, clkCas := true } }

/-! ## Levels and failures -/

/-- The device level: the lowest level among the populated compute LDs (R502). -/
def Dev.devLevel (d : Dev) : Nat := if d.compute.isEmpty then 0 else d.compute.foldl (fun m n => min m (d.ld n).ctl.service) 2

/-- Appends a start record, which an absent NVM cannot take (R499, R500). -/
def State.record (count level : Nat) (code : Code) (detail : BitVec 8) (s : State) : State :=
  if s.dev.boot.probe ≠ 0 then s
  else
    let r := s.vault.append count level code detail
    { s with vault := r.1, dev := { s.dev with boot := { s.dev.boot with rec_ := some r.2 } } }

/-- `count` of the current start record. -/
def Dev.startCount (d : Dev) : Nat := d.boot.rec_.elim 0 StartRec.count

/-- Fallow mode: the device scope is zeroised and LD 15 alone stays (R504). -/
def State.enterFallow (s : State) : State :=
  let b := s.dev.boot
  let l := s.dev.ld 15
  let d := s.dev.restarted s.now .fallow l.ctl.cause
  { s with dev := { d with boot := { d.boot with probe := b.probe, rec_ := b.rec_, failCode := b.failCode, failDetail := b.failDetail, failed := b.failed },
                           pins := { d.pins with ready := true } } }

/-- A start failure (R499, R500, R503). `hold` are the LDs that the failed unit holds back; only the first failure of a
start before level 2 is recorded, and a count of 3 then leads to fallow mode. -/
def State.startFail (code : Code) (detail : BitVec 8) (hold : List Nat) (s : State) : State :=
  let d := hold.foldl (fun d n => d.modLd n fun l => { l with ctl := { l.ctl with failCode := if l.ctl.failCode = 0 then code else l.ctl.failCode } }) s.dev
  if d.boot.level2 ∨ d.boot.failed then { s with dev := d }
  else
    let d : Dev := { d with boot := { d.boot with failed := true, failCode := code, failDetail := detail } }
    let d := (d.compute ++ [15]).foldl (fun d n => d.modLd n (Ld.setBootEvt 2)) d
    let s := ({ s with dev := d } : State).record d.startCount d.devLevel code detail
    if 3 ≤ s.dev.startCount then s.enterFallow else s

/-- The E_SELFTEST detail of a unit: its kind and number (R500). -/
def unitDetail (kind n : Nat) : BitVec 8 := BitVec.ofNat 8 (32 * kind + n)

/-- Whether a unit that the image does not exclude has failed: such a start never reaches level 2 (R212). -/
def Dev.unitFailed (d : Dev) : Bool :=
  d.boot.held || d.units.any (fun u => u.2.failed) || (List.range 10).any fun n => (d.die n).absent && !d.excluded (.dieSram n)

/-- Whether an LD at level 1 meets the conditions of level 2 (R502). -/
def Dev.ready2 (d : Dev) (ld : Nat) : Bool :=
  let l := d.ld ld
  let dies := (List.range 10).filter fun n => l.lay.dieMask.getLsbD n && !d.excluded (.dieSram n)
  (dies.all fun n => (d.die n).calibrated) &&
    (dies.all fun n => [2 * n, 2 * n + 1].all fun k => d.excluded (.stack k) || (d.unit (.stack k)).inService) &&
    ((List.range 32).all fun p => !l.lay.portMask.getLsbD p || !(d.port p).enable || (d.port p).tried) &&
    (!(d.boot.image.any fun i => i.trls.any fun t => t.1 == ld) || l.trl.slot0.isSome)

/-- Sets the level of LD 15 to the device level, with the events of a rise. -/
def Dev.showLevel (d : Dev) : Dev :=
  let was := (d.ld 15).ctl.service
  let is_ := d.devLevel
  d.modLd 15 fun l =>
    let l := { l with ctl := { l.ctl with service := is_ } }
    let l := if was < 1 ∧ 1 ≤ is_ then l.setBootEvt 0 else l
    if was < 2 ∧ 2 ≤ is_ then l.setBootEvt 1 else l

/-- LDs whose conditions hold reach level 2, and with the last of them the device, which then records a good start
(R499, R502). -/
def State.levels (s : State) : State :=
  let up := s.dev.compute.filter fun n => (s.dev.ld n).ctl.service == 1 && (s.dev.ld n).ctl.st == .enabled && s.dev.ready2 n
  let d := up.foldl (fun d n => d.modLd n fun l => ({ l with ctl := { l.ctl with service := 2 } } : Ld).setBootEvt 1) s.dev
  let d := d.showLevel
  if d.devLevel = 2 ∧ !d.boot.level2 ∧ !d.unitFailed then
    ({ s with dev := { d with boot := { d.boot with level2 := true, l2At := s.now } } } : State).record 0 2 0 0
  else { s with dev := d }

/-! ## The ROM stage (R499, R501) -/

/-- The ports that an LD owns are enabled at reset (R323). -/
def Dev.ownPorts (mask : W32) (d : Dev) : Dev :=
  (bitsOf 32 mask.toNat).foldl (fun d p => d.modPort p fun _ => { Port.init with enable := true }) d

/-- What the verified image gives the device: the partition layout, exclusions, pins and limits (R31, R35, R50, R53,
R217, R496). -/
def Dev.loadImage (im : Image) (d : Dev) : Dev :=
  let cause := (d.ld 15).ctl.cause
  let d : Dev := { d with boot := { d.boot with image := some im, stage := .silmuvin },
                          pwr := { d.pwr with imgLimit := BitVec.ofNat 12 im.limitW, boostEn := im.boostEn, pinMv := im.pinMv },
                          memCtl := { d.memCtl with periodH := BitVec.ofNat 8 im.periodH } }
  let d := dieNumbers.foldl (fun d n => d.modDie n fun x => { x with pinned := im.pinMask.getLsbD n, absent := im.exDies.getLsbD n }) d
  let d := (List.range 10).foldl (fun d n =>
    match im.lds[n]? with
    | none => d
    | some x =>
      if x.ldClass = 0 then d
      else
        let mask := x.dies.foldl (fun (m : BitVec 10) k => setBit m k) 0
        let lay : Layout :=
          { populated := true, ldClass := BitVec.ofNat 4 x.ldClass, dieMask := mask, chanMask := x.chanMask, portMask := x.portMask,
            quota0 := x.quota0, quota1 := x.quota1, domBase := x.domBase, domCount := x.domCount, did := x.did, ldid := x.did }
        (d.setLd n (Ld.init lay cause 0)).ownPorts x.portMask) d
  match im.lds[10]? with
  | none => d
  | some x => d.modLd 15 fun l => { l with lay := { l.lay with domBase := x.domBase, domCount := x.domCount }, sec := { l.sec with domSel := BitVec.ofNat 12 x.domBase } }

/-- ROM_STAGE. That it happens shows the rails in regulation and the CXL clock in tolerance (R539); `probe` is the
outcome of the line test and of the SFDP read, `sramOk` that of the controller's own SRAM. -/
def State.romStage (probe : NvmProbe) (sramOk : Bool) (s : State) : State :=
  let d := s.dev
  if d.boot.stage ≠ .rom ∨ !d.pins.rails ∨ !d.pins.resetN ∨ !d.boot.zeroising.isEmpty then s
  else
    let d : Dev := { d with boot := { d.boot with probe := probe, rec_ := s.vault.current } }
    if probe ≠ 0 then
      let d : Dev := { d with boot := { d.boot with rec_ := none } }
      ({ s with dev := if probe = 2 then d.bcFault 10 else d } : State).enterFallow
    else if 3 ≤ d.startCount then ({ s with dev := d } : State).enterFallow
    else
      let s := ({ s with dev := d } : State).record (d.startCount + 1) 0 0 0
      let s := if sramOk then s else s.startFail eStartFatal 3 []
      if s.dev.boot.stage = .fallow then s
      else
        match s.vault.verifyImage with
        | .error (c, det) =>
          ({ s with dev := { s.dev with boot := { s.dev.boot with stage := .failedVerify }, pins := { s.dev.pins with ready := true } } } : State).startFail c det []
        | .ok im =>
          let d := s.dev.loadImage im
          let d : Dev := { d with boot := { d.boot with held := !sramOk }, pins := { d.pins with ready := true } }
          let d := if sramOk then d else d.compute.foldl (fun d n => d.modLd n fun l => { l with ctl := { l.ctl with failCode := eStartFatal } }) d
          { s with dev := d }

def execRomStage (probe : NvmProbe) (sramOk : Bool) (s : State) : Result := .next (s.romStage probe sramOk)

/-! ## The Silmuvin stage (R211, R501, R503) -/

/-- The channels that an area touches. -/
def areaChans (a n : Nat) : List Nat :=
  (List.range 24).filter fun c => decide (a < chanAddr c 0 + chanWindow) && decide (chanAddr c 0 < a + n)

/-- The channels that hold a reserved area. -/
def Dev.areaChannels (d : Dev) : List Nat :=
  match d.boot.image with
  | none => []
  | some i => areaChans i.reqArea 0x4000000 ++ areaChans i.tagArea 0x800000

/-- Slot 0 takes the default trellis that the image gives an LD; one that fails a check leaves its code in `fail_code`
(R417). -/
def Dev.defaultTrellis (ld : Nat) (d : Dev) : Dev :=
  match d.boot.image.bind fun i => (i.trls.find? fun t => t.1 == ld).map Prod.snd with
  | none => d
  | some im =>
    let ws := bytesToWords 32 (slice im 0 128)
    let h := trlHdr ws
    match firstFail (trlHdrChecks ws ++ d.trlChecks ld h (imageRd im)) with
    | some c => d.modLd ld fun l => { l with ctl := { l.ctl with failCode := c } }
    | none =>
      let t : TrlSlot := { addr := 0, len := im.length, image := some im, digest := trlDigest h (imageRd im) (slice im 0 128) }
      (d.setSlot ld false (some t)).modLd ld fun l => { l with trl := { l.trl with active := some false } }

/-- The control domain of an LD opens with the device totals as its quotas, and keeps the start key of its slot (R464,
R469, R473). -/
def Dev.openControl (ld : Nat) (d : Dev) : Dev := d.openWith (d.ld ld).lay.domBase maxKv maxReq maxRake []

/-- Fresh keys for the slots of the key store, drawn for a start (16) or for the reset of an LD (R469, R508). -/
def Dev.freshKeys (who slots : Nat) (d : Dev) : Dev :=
  let (d, f) := d.draw
  { d with keySeeds := Map.set d.keySeeds who f, crypto := { d.crypto with drbgCount := d.crypto.drbgCount + slots } }

/-- Whether an LD may reach level 1: nothing holds every LD, and its own channels have passed (R502, R503). -/
def Dev.ready1 (d : Dev) (ld : Nat) : Bool :=
  !d.boot.held && (List.range 24).all fun c => !(d.ld ld).lay.chanMask.getLsbD c || d.excluded (.channel c) || (d.unit (.channel c)).inService

/-- An LD reaches level 1, if it may; one that resets, drains or is DISABLED does not. -/
def Dev.reachLevel1 (ld : Nat) (d : Dev) : Dev :=
  if d.ready1 ld ∧ (d.ld ld).ctl.st = .enabled then
    let d := (d.openControl ld).modLd ld fun l => ({ l with ctl := { l.ctl with service := 1 } } : Ld).setBootEvt 0
    (d.defaultTrellis ld).wakePorts ld
  else d

/-- The lowest die that can still join and has not begun. -/
def Dev.nextDie (d : Dev) : Option Nat :=
  if d.boot.stage ≠ .up ∨ d.boot.image.isNone ∨ (dieNumbers.any fun n => (d.die n).booting) then none
  else dieNumbers.find? fun n =>
    let st := (d.ld (d.ldOfDie n)).ctl.st
    !(d.die n).joined && !(d.die n).absent && st != .resetting && st != .disabled

/-- Fills the SRAM of the next die with zeros, loads the boot code into its clusters and starts it there (R211, R501). -/
def Dev.beginDie (now : W64) (d : Dev) : Dev :=
  match d.nextDie with
  | none => d
  | some n =>
    let code := d.boot.image.elim [] Image.boot
    let dom := (d.ld (d.ldOfDie n)).lay.domBase
    let ks := List.range 256
    let d := (d.wipeIf (inUnit (.dieSram n))).modDie n fun x => { x with booting := true, bootAt := now, bootLeft := ks.map (256 * n + ·) }
    ks.foldl (fun d k =>
      let c := 256 * n + k
      let d : Dev := { d with mem := Mem.writeN memDefault d.mem (storeAddr c 0) code }
      (d.clearRings c).enterProgram c dom .boot (entryRegs 0 k c)) d

/-- The test of an LPDDR5X channel among those that found something. -/
def chanTest (ts : List (Nat × DramTest)) (c : Nat) : DramTest :=
  ((ts.find? fun t => t.1 == c).map Prod.snd).getD { pins := [], lanes := 0, checker := [] }

/-- SILMUVIN_STAGE: fresh keys are in the key store before LPDDR5X comes into service. It waits while a health test of the noise source fails (R475). A faulty Cassum clock fails every
channel, and the failure names channel 0 (R541). -/
def State.silmuvinStage (iod0 iod1 : SramTest) (lp : List (Nat × DramTest)) (lpFree : List Nat) (s : State) : State :=
  if s.dev.boot.stage ≠ .silmuvin ∨ s.dev.crypto.drbgFail then s
  else
    let d := ({ s.dev with boot := { s.dev.boot with stage := .up }, lpKeys := [] } : Dev).freshKeys 16 4096
    let d := (d.bringUpSram s.vault (.iodSram 0) iod0).bringUpSram s.vault (.iodSram 1) iod1
    let chans := (List.range 24).filter fun c => !d.excluded (.channel c)
    let d := chans.foldl (fun d c => d.bringUpDram (.channel c) (chanTest lp c) (lpFree.getD c 0)) d
    let bad := chans.filter fun c => (d.unit (.channel c)).failed
    let ok := fun i => !(d.unit (.iodSram i)).failed
    let d : Dev := { d with boot := { d.boot with held := d.boot.held || !ok 0 || !ok 1 || bad.any d.areaChannels.contains } }
    let d := d.compute.foldl (fun d n => let (d, f) := d.draw; d.modFab n fun x => { x with inc := BitVec.ofNat 32 f }) d
    let all := d.compute
    let s : State := { s with dev := d }
    let s := if ok 0 then s else s.startFail eSelftest (unitDetail 3 0) all
    let s := if ok 1 then s else s.startFail eSelftest (unitDetail 3 1) all
    let s := if s.dev.pins.clkCas then s else s.startFail eSelftest (unitDetail 1 0) all
    let s := bad.foldl (fun s c => s.startFail eSelftest (unitDetail 1 c)
      (if d.areaChannels.contains c then all else if d.ldOfChan c < 10 then [d.ldOfChan c] else [])) s
    if s.dev.boot.stage = .fallow then s
    else
      let s : State := { s with dev := (s.dev.openControl 15) }
      let s := s.certify
      let d := all.foldl (fun d n => d.reachLevel1 n) s.dev
      ({ s with dev := d.beginDie s.now } : State).levels

def execSilmuvinStage (iod0 iod1 : SramTest) (lp : List (Nat × DramTest)) (lpFree : List Nat) (s : State) : Result :=
  .next (s.silmuvinStage iod0 iod1 lp lpFree)

/-! ## Dies (R38, R39, R46, R501) -/

/-- A die that will not join: its programs are gone, and the start fails (R39, R500, R503). -/
def State.dieFail (n kind : Nat) (s : State) : State :=
  let d := { s.dev with clusters := Map.delIf s.dev.clusters fun c => c / 256 == n }.modDie n fun x =>
    { x with absent := true, booting := false, bootLeft := [] }
  let s := ({ s with dev := (d.dieGone n).reqsGone s.now (d.ldOfDie n) } : State).startFail eSelftest (unitDetail kind n) (if d.ldOfDie n < 10 then [d.ldOfDie n] else [])
  if s.dev.boot.stage = .fallow then s else ({ s with dev := s.dev.beginDie s.now } : State).levels

/-- DIE_JOIN: the die whose boot code runs joins once its SRAM has passed and the code has halted with g1 = 0 on every
cluster. -/
def State.dieJoin (n : Nat) (sram : SramTest) (s : State) : State :=
  let x := s.dev.die n
  if !x.booting then s
  else if !s.vault.sramOk (.dieSram n) sram then ({ s with dev := s.dev.bringUp (.dieSram n) false } : State).dieFail n 2
  else if !x.bootLeft.isEmpty then s
  else
    let d := s.dev.modUnit (.dieSram n) fun x => { x with inService := true, failed := false, spares := sram.arrays }
    let d := d.modDie n fun x => { x with joined := true, booting := false }
    ({ s with dev := d.pump.beginDie s.now } : State).levels

def execDieJoin (die : Nat) (sram : SramTest) (s : State) : Result := .next (s.settleHost (State.dieJoin die sram))

/-- DIE_BOOT_CODE_TIMEOUT: 10 ms have passed since the boot code began. DESIGN CHOICE (log 86): R39 and R501 do not say
at which handshake a die whose code halted with another g1, or stopped on an error, counts as failed; it is this limit. -/
def execDieBootCodeTimeout (die : Nat) (s : State) : Result :=
  let x := s.dev.die die
  .next (if x.booting ∧ !x.bootLeft.isEmpty ∧ 1000000 ≤ (s.now - x.bootAt).toNat then s.dieFail die 4 else s)

/-- The tap that a calibration finds: the lowest passing tap with its guard of 2 (R46). -/
def Die.calibrate (x : Die) (lowest pinMv : Nat) : Die :=
  let x := { x with calibrated := true, vcore := if x.pinned then pinMv else 750 }
  if 63 < lowest + 2 then { x with tap := 63, conservative := true }
  else { x with tap := lowest + 2, conservative := false, fp4fp6 := true }

/-- DIE_CALIBRATION: the stacks of a die that has joined complete or fail their bring-up, and the die is calibrated. -/
def State.dieCalibration (n : Nat) (t0 t1 : DramTest) (free0 free1 lowest : Nat) (s : State) : State :=
  let x := s.dev.die n
  if !x.joined ∨ x.calibrated then s
  else
    let stack := fun (k : Nat) (t : DramTest) (free : Nat) (d : Dev) => if d.excluded (.stack k) then d else d.bringUpDram (.stack k) t free
    let d := stack (2 * n + 1) t1 free1 (stack (2 * n) t0 free0 s.dev)
    let d := d.modDie n fun x =>
      let y := x.calibrate lowest d.pwr.pinMv
      if d.pins.therm then { y with vcore := x.vcore } else y
    let d := if (d.die n).conservative then d.bcFault 0 else d
    let hold := if d.ldOfDie n < 10 then [d.ldOfDie n] else []
    let s := [2 * n, 2 * n + 1].foldl (fun (s : State) k =>
      if (d.unit (.stack k)).failed then s.startFail eSelftest (unitDetail 0 k) hold else s) { s with dev := d }
    if s.dev.boot.stage = .fallow then s else s.levels

def execDieCalibration (die : Nat) (hbm0 hbm1 : DramTest) (free0 free1 lowest : Nat) (s : State) : Result :=
  .next (s.dieCalibration die hbm0 hbm1 free0 free1 lowest)

/-! ## The start limit, and ports at level 1 -/

/-- START_LIMIT_EXPIRY: `start_limit_s` of local elapsed time has passed since the release of reset. -/
def execStartLimitExpiry (s : State) : Result :=
  let b := s.dev.boot
  let due := b.image.any fun i => decide (100000000 * i.startS ≤ (s.now - b.startAt).toNat)
  .next (if due ∧ !b.level2 ∧ b.zeroising.isEmpty then s.startFail eStartFatal 1 [] else s)

/-- PORT_DETECT_ATTEMPT. -/
def execPortDetectAttempt (port : Nat) (s : State) : Result := .next ({ s with dev := s.dev.portAttempt port } : State).levels

/-- PORT_TRAINING_END. -/
def execPortTrainingEnd (port : Nat) (info : TrainInfo) (s : State) : Result :=
  .next ({ s with dev := s.dev.trainingEnd s.now port info } : State).levels

/-- PORT_DISABLE: a write with `enable` 0. A port that is no longer enabled holds no LD below level 2 (R502). -/
def execPortDisable (ag : Agent) (ld port : Nat) (v : W32) (s : State) : Result :=
  let d := guarded (!v.getLsbD 0 && decide (port < 32)) (Dev.pageWrite ag ld (portCtlOff port) (Dev.portCtl s.now ld port v)) s.dev
  .next ({ s with dev := d } : State).levels

end Sys2Proof.Machine
end

