-- ==== Sys2Proof/Machine/Reset.lean ====
section
/-! DEFINITION. Resets of the device and of logical devices (R507 to R511, R517, R519), the disable of an LD and the
ends of drains (R512 to R515). -/

namespace Sys2Proof.Machine

/-! ## The scope of an LD (R508) -/

/-- Whether an LD's `die_mask`, and so its scope, holds a die, a stack, or a cluster. -/
def Layout.hasDie (l : Layout) (n : Nat) : Bool := l.dieMask.getLsbD n
def Layout.hasStack (l : Layout) (n : Nat) : Bool := l.hasDie (n / 2)
def Layout.hasClu (l : Layout) (n : Nat) : Bool := l.hasDie (n / 256)
def Layout.hasChan (l : Layout) (n : Nat) : Bool := l.chanMask.getLsbD n
def Layout.hasPort (l : Layout) (n : Nat) : Bool := l.portMask.getLsbD n
def Layout.hasDom (l : Layout) (n : Nat) : Bool := decide (l.domBase ≤ n) && decide (n < l.domBase + l.domCount)

/-- A register page in the scope of LD n. -/
def Layout.hasPage (l : Layout) (n : Nat) (pg : RegPage) : Bool :=
  match pg with
  | .ld m => m == n
  | .clu c => l.hasClu c

/-- Whether a latch or held word lies in the scope of LD n: its pages, and those of its agents. -/
def Layout.hasAgent (l : Layout) (n : Nat) (ag : Agent) : Bool :=
  match ag with
  | .host m => m == n
  | .clu c => l.hasClu c
  | .mc => false
  | .i3c => false

/-- Whether the scope of LD n holds that of a drain. -/
def Layout.hasScope (l : Layout) (n : Nat) (sc : Scope) : Bool :=
  match sc with
  | .device => false
  | .ld m => m == n
  | .queue m _ => m == n
  | .domain x => l.hasDom x
  | .port p => l.hasPort p

/-- A channel in a reset of its package: its counters, tables and soft repairs are gone, and its bring-up follows. -/
def Unit.afterReset (x : Unit) : Unit := { Unit.init with free := x.free + x.soft.length }

/-- A die as a reset leaves it: absent only by exclusion (R39), and held by THERM_N while that is asserted (R546). -/
def Dev.resetDie (d : Dev) (n : Nat) : Die :=
  let x := { Die.init with pinned := (d.die n).pinned, absent := d.excluded (.dieSram n) }
  if d.pins.therm then { x with vcore := 700, pacing := 15 } else x

/-- Whether an address belongs to the memory that the reset of LD n zeroises. -/
def Dev.inMemory (d : Dev) (n a : Nat) : Bool := d.windowLd a == n && !d.reserved a

/-- What the scope of LD n holds in memory, in Rake slots and in the snoop filter. -/
def Dev.wipeMemory (n : Nat) (d : Dev) : Dev :=
  let inside := d.inMemory n
  let slots := (d.colls.filter fun c => c.ld == n).flatMap (fun c => c.phys.map (rakeAddr c.iod)) ++
    (d.zeroing.filter fun z => z.ld == n).flatMap fun z => z.phys.map (rakeAddr z.iod)
  slots.foldl (fun d a => d.wipe a 3072)
    { d.wipeIf inside with
             snoops := d.snoops.filter fun a => !inside a,
             biWait := d.biWait.filter fun a => !inside a,
             tags := Map.delIf d.tags fun f => d.windowLd (frameAddr f) == n }

/-- The work of LD n, stopped without completing (R509 step 2). -/
def Dev.wipeWork (n : Nat) (d : Dev) : Dev :=
  let l := (d.ld n).lay
  { d with
    clusters := Map.delIf d.clusters l.hasClu, launches := d.launches.filter fun j => j.ld != n,
    kv := Map.delIf d.kv fun h => l.hasDie (h / 131072), kvJobs := Map.delIf d.kvJobs l.hasDie,
    score := Map.delIf d.score l.hasStack, promo := Map.delIf d.promo l.hasStack, sweepAt := Map.delIf d.sweepAt l.hasStack,
    stackRgn := Map.delIf d.stackRgn l.hasStack, lpRgn := Map.delIf d.lpRgn l.hasChan,
    reqs := d.reqs.filter fun e => e.2.ld != n, adapters := d.adapters.filter fun e => e.2.ld != n,
    grafts := d.grafts.filter fun e => e.2.ld != n,
    net := { paths := d.net.paths.filter fun e => e.1 / 65536 != n, held := d.net.held.filter fun h => h.ld != n }, colls := d.colls.filter fun c => c.ld != n,
    zeroing := d.zeroing.filter fun z => z.ld != n, upds := d.upds.filter fun c => c.ld != n,
    pageJobs := d.pageJobs.filter fun j => j.ld != n, imports := d.imports.filter fun j => j.ld != n }

/-- The units, dies, ports and domains of LD n. -/
def Dev.wipeUnits (n : Nat) (d : Dev) : Dev :=
  let l := (d.ld n).lay
  let d := d.leaveOn ((List.range 32).filter l.hasPort)
  let dies := (List.range 10).filter l.hasDie
  let fresh := dies.map fun k => (k, d.resetDie k)
  let units := Map.delIf d.units fun k => (k < 32 && l.hasStack k) || (64 ≤ k && k < 80 && l.hasDie (k - 64))
  { d with
    dies := fresh.foldl (fun m x => Map.set m x.1 x.2) d.dies,
    units := units.map fun u => if 32 ≤ u.1 ∧ u.1 < 64 ∧ l.hasChan (u.1 - 32) then (u.1, u.2.afterReset) else u,
    ports := Map.delIf d.ports l.hasPort, domains := Map.delIf d.domains l.hasDom,
    latches := d.latches.filter fun x => !(l.hasPage n x.2.1 || l.hasAgent n x.1),
    held := d.held.filter fun x => !(l.hasPage n x.2.1 || l.hasAgent n x.1),
    boot := { d.boot with drains := d.boot.drains.filter fun x => !l.hasScope n x.sc } }

/-- The scope of LD n returned to its reset state (R508), with a state and a reset cause. The layout and the
incarnation of the start stay, and the physical DID is the logical one again. A code that still holds the LD at level 0
stays in `fail_code`. -/
def Dev.ldWipe (n : Nat) (st : LdState) (cause : BitVec 4) (d : Dev) : Dev :=
  let x := d.ld n
  let y := Ld.init { x.lay with ldid := x.lay.did } cause x.fab.inc
  let code := if d.ready1 n then 0 else x.ctl.failCode
  let y : Ld := { y with ctl := { y.ctl with st := st, enable := st != .disabled, failCode := code } }
  ((((d.wipeMemory n).wipeUnits n).wipeWork n).setLd n y).ownPorts x.lay.portMask

/-! ## The reset of an LD (R507, R509, R510) -/

/-- The triggering handshake: the LD is RESETTING and its level is 0. The next die that can join follows. -/
def Dev.ldReset (now : W64) (cause : BitVec 4) (n : Nat) (d : Dev) : Dev :=
  let d := d.ldWipe n .resetting cause
  let d : Dev := { d with boot := { d.boot with zeroising := d.boot.zeroising ++ [.ld n] } }
  (d.showLevel).beginDie now

/-- A write of `LD_CTL` (R515, R517). -/
def Dev.ldCtl (now : W64) (ld : Nat) (v : W32) (d : Dev) : Dev :=
  let reset := v.getLsbD 31
  let on := v.getLsbD 30
  let us := BitVec.ofNat 16 (fld v 15 0)
  let st := (d.ld ld).ctl.st
  d.checked (.ld ld)
    (firstFail [(fld v 29 16 ≠ 0, eReservedNonzero), (ld = 15 ∧ (reset ∨ !on), ePerm), (us = 0, eRange),
      (!reset && on && st == .draining, eState)])
    fun d =>
      if reset then d.ldReset now 3 ld
      else if on && st == .disabled then d.ldReset now 5 ld
      else if st = .draining then d
      else
        let d := d.modLd ld fun l => { l with ctl := { l.ctl with drainUs := us } }
        if on || st == .disabled then d
        else (d.modLd ld fun l => { l with ctl := { l.ctl with enable := false, st := .draining } }).disableBegin now (.ld ld) ld

/-- LD_RESET: a write with `ld_reset` 1. -/
def execLdReset (ag : Agent) (ld : Nat) (v : W32) : State → Result :=
  onDevAt fun now => guarded (v.getLsbD 31) (Dev.pageWrite ag ld 0x10 (Dev.ldCtl now ld v))

/-- LD_DISABLE: a write with `enable` 0. -/
def execLdDisable (ag : Agent) (ld : Nat) (v : W32) : State → Result :=
  onDevAt fun now => guarded (!v.getLsbD 31 && !v.getLsbD 30) (Dev.pageWrite ag ld 0x10 (Dev.ldCtl now ld v))

/-- LD_REENABLE: a write with `enable` 1. -/
def execLdReenable (ag : Agent) (ld : Nat) (v : W32) : State → Result :=
  onDevAt fun now => guarded (!v.getLsbD 31 && v.getLsbD 30) (Dev.pageWrite ag ld 0x10 (Dev.ldCtl now ld v))

/-- CXL_LD_RESET: a CXL reset of an LD-ID. -/
def execCxlLdReset (ld : Nat) : State → Result :=
  onDevAt fun now d =>
    guarded (d.pageMode ld == .full && decide (ld < 10)) (Dev.ldReset now 4 ld) d

/-! ## The reset of the device (R507 to R509) -/

/-- The triggering handshake of a device reset: every LD is RESETTING, and the start begins once the scope is
zeroised. A device that is powered down or held in reset hears of none. -/
def Dev.deviceReset (now : W64) (d : Dev) : Dev :=
  if d.boot.stage = .off then d
  else
    let c := d.restarted now .up 2
    { c with lds := d.lds.map fun e =>
               let y := Ld.init e.2.lay 2 0
               (e.1, { y with ctl := { y.ctl with st := .resetting } }),
             boot := { c.boot with zeroising := [.device] } }

/-- A write of `DEV_CTL` (R519). -/
def Dev.devCtl (now : W64) (ld : Nat) (v : W32) (d : Dev) : Dev :=
  d.checked (.ld ld)
    (firstFail [(ld ≠ 15, ePerm), (fld v 23 1 ≠ 0, eReservedNonzero), (v.getLsbD 0 ∧ fld v 31 24 ≠ 0xA5, eRange)])
    (guarded (v.getLsbD 0) (Dev.deviceReset now))

/-- DEVICE_RESET: a write of `DEV_CTL` with `dev_reset` 1. -/
def execDeviceReset (ag : Agent) (ld : Nat) (v : W32) : State → Result :=
  onDevAt fun now => guarded (v.getLsbD 0) (Dev.pageWrite ag ld 0xF800 (Dev.devCtl now ld v))

/-- CXL_CONVENTIONAL_RESET of the link. -/
def execCxlConventionalReset : State → Result := onDevAt fun now => Dev.deviceReset now

/-! ## The end of the zeroising (R509 steps 4 and 5) -/

/-- An LD's bring-up begins, from the die joins (R501 step 3, R509 step 5). -/
def State.ldBringUp (n : Nat) (s : State) : State :=
  let d := s.dev.modLd n fun l => { l with ctl := { l.ctl with st := .enabled } }
  let d := if d.boot.stage = .up then d.reachLevel1 n else d
  ({ s with dev := d.beginDie s.now } : State).levels

/-- The memory of LD n after its zeroising: fresh keys are in the slots of its domains, and its channels are tested again and
hold zeros under them outside the reserved areas (R210, R211, R508). DESIGN CHOICE (log 33): of those keys it is that of the control domain. -/
def Dev.refill (n : Nat) (ts : List (Nat × DramTest)) (d : Dev) : Dev :=
  let l := (d.ld n).lay
  let d := d.freshKeys n l.domCount
  ((List.range 24).filter fun c => l.hasChan c && !d.excluded (.channel c)).foldl (fun d c =>
    let d := d.testDram (.channel c) (chanTest ts c) (d.unit (.channel c)).free
    let d := d.wipeIf fun a => (d.unit (.channel c)).inService && inUnit (.channel c) a && !d.reserved a
    let a := chanAddr c 0
    { d with lpKeys := (a, chanWindow, d.slotKey l.domBase) :: d.lpKeys.filter fun r => !(decide (a ≤ r.1) && decide (r.1 < a + chanWindow)) }) d

/-- RESET_ZEROISE_COMPLETE. The bring-up of an LD draws the keys of its domains, and waits while a health test
of the noise source fails (R475). A channel that fails its test holds the LD at level 0 (R503). -/
def State.zeroiseComplete (e : ZeroiseEnd) (s : State) : State :=
  let sc := e.sc
  if !s.dev.boot.zeroising.contains sc ∨ (sc ≠ .device ∧ s.dev.crypto.drbgFail) then s
  else
    let d : Dev := { s.dev with boot := { s.dev.boot with zeroising := s.dev.boot.zeroising.filter (· != sc) } }
    match sc with
    | .device =>
      let cause := (d.ld 15).ctl.cause
      { s with dev := { d with lds := [(15, Ld.init Layout.init cause 0)], boot := { d.boot with stage := .rom, startAt := s.now } } }
    | .ld n =>
      let d := d.refill n e.chans
      let bad := (List.range 24).filter fun c => (d.ld n).lay.hasChan c && (d.unit (.channel c)).failed
      let s := bad.foldl (fun (s : State) c => s.startFail eSelftest (unitDetail 1 c) [n]) { s with dev := d }
      if s.dev.boot.stage = .fallow then s else s.ldBringUp n
    | .queue _ _ => s
    | .domain _ => s
    | .port _ => s

def execResetZeroiseComplete (e : ZeroiseEnd) (s : State) : Result := .next (s.settleHost (State.zeroiseComplete e))

/-! ## The ends of drains (R513 step 7, R514) -/

/-- The queues of a closing domain reach the end of their drains. -/
def Dev.domQueuesOff (now : W64) (dom : Nat) (d : Dev) : Dev :=
  let qs := d.lds.flatMap fun e => (e.2.host.cqs.filter fun c => c.2.domain.toNat == dom && c.2.st == .draining).map fun c => (e.1, c.1)
  qs.foldl (fun d q => d.queueOff now q.1 q.2) d

/-- Whether the packets of a port have been sent, or its drain limit has passed (R514). -/
def Dev.portDrained (d : Dev) (p : Nat) (x : Drain) : Bool := (d.port p).queue.isEmpty || x.expired

/-- DRAIN_COMPLETE: nothing of the scope is left to run, and the disable ends. -/
def State.drainComplete (sc : Scope) (s : State) : State :=
  match s.dev.drain? sc with
  | none => s
  | some x =>
    if s.dev.busy sc then s
    else
      match sc with
      | .device => s
      | .queue ld q => { s with dev := s.dev.queueOff s.now ld q }
      | .domain n => { s with dev := (s.dev.domQueuesOff s.now n).domDrained n ((s.dev.dom n).tkt.elim 15 fun t => s.dev.issLd t.iss) }
      | .ld n =>
        let d := (s.dev.ldWipe n .disabled (s.dev.ld n).ctl.cause).modLd n (Ld.setBootEvt 3)
        { s with dev := d.showLevel }
      | .port p =>
        if s.dev.portDrained p x then
          let ld := s.dev.ldOfPort p
          ({ s with dev := (s.dev.portOff s.now p).drainOver (.port p) ld } : State).levels
        else s

def execDrainComplete (sc : Scope) (s : State) : Result := .next (s.settleHost (State.drainComplete sc))

end Sys2Proof.Machine
end

