-- ==== Sys2Proof/Machine/Electrical.lean ====
section
/-! DEFINITION. The module's input, rails, clocks, pins and temperatures (R475, R533 to R547, R552, R554). -/

namespace Sys2Proof.Machine

/-! ## Power (R535 to R539) -/

/-- `vin_low` and `vin_high` of an input voltage in units of 10 mV (R535). -/
def Dev.vinSample (vin : Nat) (d : Dev) : Dev :=
  let d : Dev := { d with pins := { d.pins with vin := vin } }
  let d := if 3700 ≤ vin ∧ vin < 4000 then d.bcFault 2 else d
  if 6000 < vin ∧ vin ≤ 6200 then d.bcFault 3 else d

/-- The device after a power-on: the elapsed counter is zero (R61), and the I3C registers are at their reset values
(R549). RESET_N is the host's. -/
def State.powerUp (addr : BitVec 7) (vin : Nat) (s : State) : State :=
  let pins := { Pins.init with resetN := s.dev.pins.resetN }
  let d : Dev := { s.dev with pins := pins, i3c := { I3c.init with staticAddr := addr } }
  let d := d.restarted 0 (if pins.resetN then .rom else .off) 0
  { s with now := 0, dev := d.vinSample vin }

/-- POWER_ON: the input rises through 39 V. -/
def execPowerOn (straps : BitVec 3) (vin : Nat) (s : State) : Result :=
  .next (if !s.dev.pins.standby ∧ !s.dev.pins.overVolt ∧ 3900 ≤ vin ∧ vin ≤ 6200 then
    s.powerUp (0x30 + straps.setWidth 7) vin else s)

/-- Power is lost: a reset of device scope, and every rail is off (R536). -/
def Dev.powerDown (now : W64) (overVolt : Bool) (d : Dev) : Dev :=
  if d.pins.standby then
    let d := d.restarted now .off 0
    { d with pins := { d.pins with standby := false, rails := false, therm := false, tripped := false, overVolt := overVolt },
             i3c := { I3c.init with staticAddr := d.i3c.staticAddr }, dies := [] }
  else d

def execPowerLoss : State → Result := onDevAt fun now => Dev.powerDown now false

/-- OVER_VOLTAGE: the input switch opens. -/
def execOverVoltage : State → Result := onDevAt fun now => Dev.powerDown now true

/-- OVER_VOLTAGE_RECOVERY: the input is below 60 V again. -/
def execOverVoltageRecovery (vin : Nat) (s : State) : Result :=
  .next (if !s.dev.pins.overVolt ∨ 6000 ≤ vin then s
    else
      let s : State := { s with dev := { s.dev with pins := { s.dev.pins with overVolt := false } } }
      if 3900 ≤ vin then s.powerUp s.dev.i3c.staticAddr vin else s)

/-- VIN_OUT_OF_BAND. -/
def execVinOutOfBand (vin : Nat) : State → Result :=
  onDev fun d => guarded (d.pins.standby && decide (3700 ≤ vin) && decide (vin ≤ 6200)) (Dev.vinSample vin) d

/-- Whether a start runs that has not reached service level 2 (R500). -/
def Dev.starting (d : Dev) : Bool := (d.boot.stage == .silmuvin || d.boot.stage == .up) && !d.boot.level2 && !d.boot.zeroising.contains .device

/-- RAIL_OUT_OF_REGULATION. -/
def execRailOutOfRegulation (s : State) : Result :=
  .next (if s.dev.pins.rails ∧ s.dev.starting then s.startFail eStartFatal 4 [] else s)

/-- VAUX_CURRENT_LIMIT: the NVM has no supply and is absent, so fallow mode follows (R504, R554). -/
def execVauxCurrentLimit (s : State) : Result :=
  if !s.dev.pins.standby then .next s
  else
    let d := s.dev.bcFault 10
    let absent : Dev := { d with boot := { d.boot with probe := if d.boot.probe = 0 then 1 else d.boot.probe } }
    .next (match d.boot.stage with
      | .off => { s with dev := d }
      | .rom => { s with dev := d }
      | .fallow => { s with dev := absent }
      | .failedVerify => ({ s with dev := absent } : State).enterFallow
      | .silmuvin => ({ s with dev := absent } : State).enterFallow
      | .up => if d.boot.zeroising.contains .device then { s with dev := d } else ({ s with dev := absent } : State).enterFallow)

/-! ## RESET_N and the clocks (R541, R543) -/

/-- The trip ends when RESET_N is asserted with the plate below 60 °C; THERM_N is then released once the temperatures
allow it (R546, R547). -/
def Pins.untrip (p : Pins) : Pins :=
  if p.tripped ∧ p.plate < 60 then { p with tripped := false, rails := true, therm := !(decide (p.tjMax < 105)) } else p

/-- A recognised assertion of RESET_N. -/
def State.resetAsserted (s : State) : State :=
  let d : Dev := { s.dev with pins := ({ s.dev.pins with resetN := false } : Pins).untrip }
  { s with now := 0, dev := d.restarted 0 .off 1 }

/-- RESET_N_ASSERT for a time in ns: whether one between 200 ns and 1 µs is recognised is free. -/
def execResetNAssert (ns : Nat) (s : State) : Result :=
  if !s.dev.pins.resetN ∨ !s.dev.pins.standby ∨ ns < 200 then .next s
  else if 1000 ≤ ns then .next s.resetAsserted
  else
    let (d, f) := s.dev.draw
    let s : State := { s with dev := d }
    .next (if f % 2 = 0 then s else s.resetAsserted)

/-- RESET_N reads deasserted: with rails on, the start follows (R539, R543). -/
def Dev.resetReleased (now : W64) (d : Dev) : Dev :=
  let d : Dev := { d with pins := { d.pins with resetN := true } }
  if d.boot.stage = .off ∧ d.pins.rails ∧ !d.pins.tripped then { d with boot := { d.boot with stage := .rom, startAt := now } } else d

def execResetNDeassert : State → Result := onDevAt fun now => Dev.resetReleased now

/-- CLOCK_FAULT. A faulty CXL clock keeps a start waiting, which is to say that its ROM stage does not come; a faulty
Cassum clock fails the training of a start. In service either resets the device. -/
def Dev.clockFault (now : W64) (c : RefClock) (d : Dev) : Dev :=
  if !d.pins.rails then d
  else
    match c, d.boot.stage with
    | _, .off => d
    | .cxl, .rom => d
    | .cxl, _ => (d.bcFault 4).deviceReset now
    | .cassum, .up => (d.bcFault 5).deviceReset now
    | .cassum, _ =>
      let d := d.bcFault 5
      { d with pins := { d.pins with clkCas := false } }

def execClockFault (c : RefClock) : State → Result := onDevAt fun now => Dev.clockFault now c

/-! ## Temperatures (R546, R547, R550) -/

/-- The readings of `PWR_BC_THERMAL`, which has 8 bits for each. -/
def Dev.heat (tj plate : Nat) (d : Dev) : Dev := { d with pins := { d.pins with tjMax := min 255 tj, plate := min 255 plate } }

/-- THERM_N is asserted: every die goes to 0.70 V with pacing 15, pinned dies included. -/
def Dev.thermOn (d : Dev) : Dev :=
  let d := if d.pins.therm then d else d.bcFault 8
  let d : Dev := { d with pins := { d.pins with therm := true } }
  dieNumbers.foldl (fun d n =>
    let x := d.die n
    let d := d.modDie n fun x => { x with vcore := 700, pacing := 15 }
    if x.pinned && (x.vcore != 700 || x.pacing != 15) then d.breakPin else d) d

/-- THERM_ASSERT: before service level 2 it fails the start (R500). -/
def State.thermAssert (tj plate : Nat) (s : State) : State :=
  if s.dev.pins.rails ∧ (110 ≤ tj ∨ 80 ≤ plate) then
    let s : State := { s with dev := (s.dev.heat tj plate).thermOn }
    if s.dev.starting then s.startFail eStartFatal 5 [] else s
  else s

def execThermAssert (tj plate : Nat) (s : State) : Result := .next (s.thermAssert tj plate)

/-- THERM_RELEASE. -/
def Dev.thermRelease (tj plate : Nat) (d : Dev) : Dev :=
  if d.pins.standby then
    let d := d.heat tj plate
    if tj < 105 ∧ plate < 75 ∧ !d.pins.tripped then { d with pins := { d.pins with therm := false } } else d
  else d

def execThermRelease (tj plate : Nat) : State → Result := onDev (Dev.thermRelease tj plate)

/-- The trip itself: a reset of device scope, with every rail off but the standby rail. -/
def Dev.trip (now : W64) (d : Dev) : Dev :=
  let d := (d.bcFault 11).restarted now .off (d.ld 15).ctl.cause
  { d with pins := { d.pins with rails := false, tripped := true, therm := true } }

/-- THERMAL_TRIP: the temperatures that trip have asserted THERM_N first. -/
def execThermalTrip (tj plate : Nat) (s : State) : Result :=
  .next (if s.dev.pins.rails ∧ (120 ≤ tj ∨ 90 ≤ plate) then
    let s := s.thermAssert tj plate
    { s with dev := s.dev.trip s.now }
  else s)

/-- COOLANT_ALARM. -/
def Dev.coolant (inlet outlet : Nat) (d : Dev) : Dev :=
  if d.pins.standby then
    let d : Dev := { d with pins := { d.pins with inlet := min 255 inlet, outlet := min 255 outlet } }
    let d := if 45 < inlet then d.bcFault 7 else d
    if inlet + 30 < outlet then d.bcFault 6 else d
  else d

def execCoolantAlarm (inlet outlet : Nat) : State → Result := onDev (Dev.coolant inlet outlet)

/-! ## The sideband and the noise source (R475, R554) -/

/-- SIDEBAND_FAULT: pin 1 is RESET_N, which is then read as deasserted. -/
def Dev.sideband (now : W64) (pin : Nat) (d : Dev) : Dev :=
  if d.pins.standby ∧ 1 ≤ pin ∧ pin ≤ 6 then
    let d : Dev := { d with i3c := { d.i3c with sbPin := BitVec.ofNat 4 pin } }
    let d := d.bcFault 9
    if pin = 1 then d.resetReleased now else d
  else d

def execSidebandFault (pin : Nat) : State → Result := onDevAt fun now => Dev.sideband now pin

/-- HEALTH_TEST_CHANGE. -/
def execHealthTestChange (failing : Bool) : State → Result :=
  onDev fun d => { d with crypto := { d.crypto with drbgFail := failing } }

end Sys2Proof.Machine
end

