-- ==== Sys2Proof/Machine/IcuEvents.lean ====
section
/-! DEFINITION. Delivery of interrupts: the win, handler entry, the MSI-X message, end of interrupt (R175 to
R181), and the clearing of running maxima (R83). -/

namespace Sys2Proof.Machine

/-- Whether a source is delivered on the device: every cluster source, and a source of LD 15 with `target`
1 (R181). -/
def onDevice (i : IcuId) (c : SrcCfg) : Bool :=
  match i with
  | .clu _ => true
  | .ld n => n == 15 && c.target

/-- Whether the class of a source is open at its target and no window is open there (R176, R177, R181). A
cluster must be at an instruction boundary of a running program; the management controller takes a fast
source outside a fast handler and a normal one outside any handler. -/
def Dev.classOpen (d : Dev) (i : IcuId) (c : SrcCfg) : Bool :=
  match i with
  | .clu n =>
    let x := d.clu n
    let st := x.ctl.status
    x.executes && (if c.fast then st.getLsbD 1 && !x.ctl.inFast else st.getLsbD 0 && !x.ctl.inHandler)
  | .ld _ =>
    let x := d.icu i
    if onDevice i c then
      x.devWin.isNone && x.fastSrc.isNone && (c.fast || x.normalSrc.isNone)
    else x.hostWin.isNone

/-- The eligible sources of an interrupt controller (R176). -/
def Dev.eligible (d : Dev) (i : IcuId) : List Nat :=
  let x := d.icu i
  if x.enable then
    (List.range (icuSources i)).filter fun n =>
      d.level i n && !x.mask.getLsbD n && !x.insvc.getLsbD n && d.classOpen i (x.src n)
  else []

/-- Whether source a wins over source b: fast first, then the higher `prio`, then the lower number. -/
def Icu.beats (x : Icu) (a b : Nat) : Bool :=
  let p := x.src a
  let q := x.src b
  if p.fast ≠ q.fast then p.fast
  else if p.prio ≠ q.prio then decide (q.prio.toNat < p.prio.toNat)
  else decide (a < b)

/-- The winner of arbitration. -/
def Icu.winner (x : Icu) : List Nat → Option Nat
  | [] => none
  | n :: ns =>
    match Icu.winner x ns with
    | none => some n
    | some m => if x.beats n m then some n else some m

/-- ICU_WIN: the winner goes into service and its delivery window opens (R176, R177). -/
def Dev.icuWin (i : IcuId) (d : Dev) : Dev :=
  let x := d.icu i
  match x.winner (d.eligible i) with
  | none => d
  | some n =>
    let c := x.src n
    let w : Win := { src := n, fast := c.fast, vector := c.vector.toNat }
    d.modIcu i fun x =>
      let x := { x with insvc := setBit x.insvc n }
      if onDevice i c then { x with devWin := some w } else { x with hostWin := some w }

def execIcuWin (icu : IcuId) : State → Result := onDev (Dev.icuWin icu)

/-- HANDLER_ENTRY: the window ends with the entry of the handler, in the class of the win, and
`ICU_ACTIVE` names the source (R177, R178). The management controller's own registers are not described. -/
def Dev.handlerEntry (i : IcuId) (d : Dev) : Dev :=
  match (d.icu i).devWin with
  | none => d
  | some w =>
    let d := d.modIcu i fun x =>
      if w.fast then { x with devWin := none, fastSrc := some w.src }
      else { x with devWin := none, normalSrc := some w.src }
    match i with
    | .ld _ => d
    | .clu n =>
      d.modCtl n fun x =>
        if w.fast then { x with fpc := x.pc, fstatus := x.status, status := setBit x.status 3, pc := x.vecFast }
        else { x with epc := x.pc, estatus := x.status, status := setBit x.status 2, pc := x.vecNormal }

def execHandlerEntry (icu : IcuId) : State → Result := onDev (Dev.handlerEntry icu)

/-- MSIX_POST: the window of a host target ends with the message, unless a mask of the MSI-X table holds it
(R181). -/
def Dev.msixPost (ld : Nat) (d : Dev) : Dev :=
  let h := (d.ld ld).host
  match h.icu.hostWin with
  | none => d
  | some w =>
    let e := Map.get h.msix w.vector MsixEntry.init
    if h.msixFnMask || e.masked then d
    else (d.modIcu (.ld ld) fun x => { x with hostWin := none }).emit (.msix ld w.vector e.addr e.data)

def execMsixPost (ld : Nat) : State → Result := onDev (Dev.msixPost ld)

/-- ICU_EOI: a write of the register by an agent that reaches it (R174, R179, R443). -/
def Dev.eoiWrite (ag : Agent) (i : IcuId) (v : W32) (d : Dev) : Dev :=
  match i with
  | .ld n => d.pageWrite ag n 0x1008 (Dev.icuEoi i (.ld n) v)
  | .clu n => guarded (d.reachesBlock ag n) (Dev.icuEoi i (.clu n) v) d

def execIcuEoi (ag : Agent) (icu : IcuId) (v : W32) : State → Result := onDev (Dev.eoiWrite ag icu v)

/-- RMAX_CLEAR: a write of `CLU_RMAX_CTL` (R83). -/
def execRmaxClear (ag : Agent) (clu : Nat) (v : W32) : State → Result :=
  onDev fun d => guarded (d.reachesBlock ag clu) (Dev.rmaxCtl clu v) d

end Sys2Proof.Machine
end

