-- ==== Sys2Proof/Machine/Issue.lean ====
section
/-! DEFINITION. ISSUE.M and ISSUE.V: offering a descriptor to the cores of a mask (R109, R135, R138,
R159). -/

namespace Sys2Proof.Machine

/-- The places of an operation queue of a core (R108, R134). DESIGN CHOICE (log 20): the running operation keeps its
place until it ends, as R162 says of the local mover. -/
def coreQueue : Nat := 4

/-- The checks of R159 that come before the descriptor's own, with the descriptor's words when they pass.
`words` gives the number of words from the first one. -/
def Dev.issueFront (n off : Nat) (mask : W32) (words : W32 → Nat) (d : Dev) : Dev × Except Code (List W32) :=
  let base := storeAddr n 0
  let size := 4 * words (BitVec.ofNat 32 (ofBytes (d.bytes (base + off) 4)))
  match firstFail [(mask == 0, eRange), (off % 4 ≠ 0, eAlign), (0x10000 < off + size, eRange)] with
  | some c => (d, .error c)
  | none =>
    match d.readBytes reqClu (base + off) size with
    | (d, none) => (d, .error ePoison)
    | (d, some bs) =>
      if (d.clu n).clu.coreFault &&& mask ≠ 0 then (d, .error eState) else (d, .ok (bytesToWords (size / 4) bs))

/-- Queues an operation on every core of a mask. -/
def Dev.offer (n : Nat) (mask : W32) (f : Core → Core) (d : Dev) : Dev :=
  d.modClu n fun c => (bitsOf 32 mask.toNat).foldl (fun c k => c.setCore k (f (c.core k))) c

/-- Words of a matrix descriptor: eight, or twelve when word 0 sets `mask_en` (R110, R125). -/
def mxWords (w0 : W32) : Nat := if w0.getLsbD 26 then 12 else 8

/-- ISSUE.M gd, ga, gb. -/
def execIssueM (clu : Nat) (d a b : Reg) : State → Result :=
  onMem (Dev.instr clu fun x =>
    let mask : W32 := BitVec.setWidth 32 (x.reg clu b)
    if (bitsOf 32 mask.toNat).any fun k => coreQueue ≤ ((x.clu clu).core k).mq.length then x.stall clu
    else
      match x.issueFront clu (x.reg clu a).toNat mask mxWords with
      | (x, .error c) => x.ret clu d (codeWord c)
      | (x, .ok ws) =>
        match mxCheck ws (x.die (clu / 256)).fp4fp6 with
        | some c => x.ret clu d (codeWord c)
        | none => (x.offer clu mask fun k => { k with mq := k.mq ++ [{ words := ws }] }).ret clu d 0)

/-- ISSUE.V gd, ga, gb: the element program is read after the descriptor's checks (R138). -/
def execIssueV (clu : Nat) (d a b : Reg) : State → Result :=
  onMem (Dev.instr clu fun x =>
    let mask : W32 := BitVec.setWidth 32 (x.reg clu b)
    if (bitsOf 32 mask.toNat).any fun k => coreQueue ≤ ((x.clu clu).core k).vq.length then x.stall clu
    else
      match x.issueFront clu (x.reg clu a).toNat mask fun _ => 32 with
      | (x, .error c) => x.ret clu d (codeWord c)
      | (x, .ok ws) =>
        match vecCheck ws with
        | some c => x.ret clu d (codeWord c)
        | none =>
          let v := vecDesc ws
          match x.readBytes reqOp (storeAddr clu v.prog) (4 * v.progLen) with
          | (x, none) => x.ret clu d (codeWord ePoison)
          | (x, some bs) =>
            let prog := bytesToWords v.progLen bs
            if progBad v prog then x.ret clu d (codeWord eRange)
            else (x.offer clu mask fun k => { k with vq := k.vq ++ [{ words := ws, prog := prog }] }).ret clu d 0)

end Sys2Proof.Machine
end

