-- ==== Sys2Proof/Machine/Mailbox.lean ====
section
/-! DEFINITION. Mailboxes (R456 to R459, R556), and the host's accesses to device memory and to the device's caches
(R435 to R437). -/

namespace Sys2Proof.Machine

/-! ## Mailboxes -/

/-- Whether an agent sends on mailbox m: the host on 0 to 15, the management controller on 16 to 31 (R456). -/
def isSender (ag : Agent) (m : Nat) : Bool := decide (m < 16) == (ag != .mc)

/-- The state of the device at which a message arrives (R472, R506). -/
def Dev.arrival (d : Dev) (ld : Nat) : Nat :=
  if d.boot.stage = .off ∨ d.boot.stage = .rom then 0 else if (d.ld ld).ctl.service = 0 then 1 else 2

/-- A write of `MBX_GO` (R457). -/
def Dev.mbxGo (ag : Agent) (ld m : Nat) (v : W32) (d : Dev) : Dev :=
  let x := (d.ld ld).mbx m
  let send := v.getLsbD 28
  let release := v.getLsbD 29
  d.checked (.ld ld)
    (firstFail [(fld v 31 30 ≠ 0 ∨ fld v 27 5 ≠ 0, eReservedNonzero), (send == release, eRange), (send != isSender ag m, ePerm),
      (send == x.full, eState), (send && (fld v 3 0 == 0 || decide (2 ≤ fld (x.data.getD 0 0) 31 28)), eRange)])
    fun d =>
      if release then d.mbxEmptied ld m
      else
        let y : Mailbox := { x with full := true, nreg := fld v 3 0, sentAt := d.arrival ld }
        d.modLd ld fun l => { l with host := { l.host with mbx := Map.set l.host.mbx m y } }

/-- A write of data register i of mailbox m. -/
def Dev.mbxData (ag : Agent) (ld m i : Nat) (v : W32) (d : Dev) : Dev :=
  let x := (d.ld ld).mbx m
  d.checked (.ld ld) (firstFail [(!isSender ag m, ePerm), (x.full, eState)]) fun d =>
    d.modLd ld fun l => { l with host := { l.host with mbx := Map.set l.host.mbx m { x with data := x.data.setIfInBounds i v } } }

/-- A write of a register of the mailbox block: the mailboxes, and from 0x800 the doorbell registers (R456). -/
def Dev.mbxWrite (ag : Agent) (ld off : Nat) (v : W32) (d : Dev) : Dev :=
  if off < 0x800 then
    if off % 0x40 = 0x3C then d.mbxGo ag ld (off / 0x40) v else d.mbxData ag ld (off / 0x40) (off % 0x40 / 4) v
  else if off = 0x800 then d
  else if off = 0x804 then d.modLd ld fun l => { l with host := { l.host with mbxMask := v } }
  else if off = 0x808 then d.modLd ld fun l => { l with host := { l.host with mbxEmpty := l.host.mbxEmpty &&& ~~~v } }
  else d.ldErr ld eRange

/-- The page offset of `MBX_GO` of mailbox m. -/
def mbxGoOff (m : Nat) : Nat := 0x5000 + 0x40 * m + 0x3C

/-- MBX_SEND: a write of `MBX_GO` with `send` 1. -/
def execMbxSend (ag : Agent) (ld m : Nat) (v : W32) : State → Result :=
  onDev (guarded (v.getLsbD 28 && decide (m < 32)) (Dev.pageWrite ag ld (mbxGoOff m) (Dev.mbxGo ag ld m v)))

/-- MBX_RELEASE: a write of `MBX_GO` with `release` 1. -/
def execMbxRelease (ag : Agent) (ld m : Nat) (v : W32) : State → Result :=
  onDev (guarded (v.getLsbD 29 && decide (m < 32)) (Dev.pageWrite ag ld (mbxGoOff m) (Dev.mbxGo ag ld m v)))

/-- The messages that mailbox 0 of an LD carries (R472, R506). -/
def served (ld msg : Nat) : Bool := msg == 0x020 || (ld == 15 && decide (0x010 ≤ msg) && decide (msg ≤ 0x015))

/-- The code with which a message that is not served is answered: in mailbox 0 of LD 15 the checks of R506 come
before the unknown `msg`. -/
def Dev.refusal (d : Dev) (ld m : Nat) : Code :=
  if m = 0 ∧ ld = 15 ∧ fld (d.mbxWord ld 0 0) 31 28 = 0 then
    if ((d.ld ld).mbx 0).sentAt = 0 then eState else if d.boot.probe ≠ 0 then eNvmAbsent else eRange
  else eRange

/-- MAILBOX_SERVE: a message that is not served under rules of its own is answered with its refusal (R556). -/
def Dev.mailboxServe (ld m : Nat) (d : Dev) : Dev :=
  if !d.mbxReady ld m ∨ 16 ≤ m ∨ (m = 0 ∧ fld (d.mbxWord ld 0 0) 31 28 = 0 ∧ served ld (fld (d.mbxWord ld 0 0) 27 16)) then d
  else d.mbxReply ld m [BitVec.ofNat 32 (d.refusal ld m).toNat]

def execMailboxServe (ld m : Nat) : State → Result := onDev (Dev.mailboxServe ld m)

/-! ## CXL.mem and snoops (R435 to R437) -/

/-- The device physical address of offset x of an HDM decoder of an LD; none outside the decoder (R436). -/
def Dev.hdmAddr (d : Dev) (ld hdm x : Nat) : Option Nat :=
  let l := (d.ld ld).lay
  let unit := if hdm = 0 then 2 * stackBytes else chanWindow
  let own := if hdm = 0 then bitsOf 10 l.dieMask.toNat else bitsOf 24 l.chanMask.toNat
  if 1 < hdm ∨ x % 64 ≠ 0 then none
  else own[x / unit]?.map fun k => (if hdm = 0 then k * dieWindow else lpBase + k * chanWindow) + x % unit

/-- Puts a line into the snoop filter. Its capacity is not stated: whether it is full is a free value, and a full
filter first invalidates its oldest line. -/
def Dev.track (a : Nat) (d : Dev) : Dev :=
  if d.snoops.contains a then d
  else
    let (d, f) := d.draw
    let d := match d.snoops with
      | old :: _ => if f % 2 = 1 then d.backInvalidate [old] else d
      | [] => d
    { d with snoops := d.snoops ++ [a] }

/-- A host read of a line (R197, R436, R509). -/
def Dev.cxlRead (ld hdm x : Nat) (cacheable : Bool) (d : Dev) : Dev :=
  match d.hdmAddr ld hdm x with
  | none => d
  | some a =>
    match d.pageMode ld with
    | .absent => d
    | .minimal => d
    | .resetting => d.emit (.cxlData ld a (zeros 64) true)
    | .full =>
      if (d.busCode (.cxl ld) false a 64).isSome then d.emit (.cxlData ld a (zeros 64) true)
      else
        let (d, bad) := d.readEach reqCxl [(a, 64)]
        let d := if cacheable then d.track a else d
        d.emit (.cxlData ld a (if bad.isEmpty then d.bytes a 64 else zeros 64) !bad.isEmpty)

/-- A host write of a line (R198, R436, R509). -/
def Dev.cxlWrite (ld hdm x : Nat) (data : List Byte) (poison : Bool) (d : Dev) : Dev :=
  match d.hdmAddr ld hdm x with
  | none => d
  | some a =>
    if d.pageMode ld ≠ .full ∨ data.length ≠ 64 then d
    else
      match d.busCode (.cxl ld) true a 64 with
      | some c => d.ldErr ld c
      | none => if poison then d.writePoison reqCxl a data else d.writeBytes reqCxl a data

def execCxlMemRead (ld hdm off : Nat) (cacheable : Bool) : State → Result := onDev (Dev.cxlRead ld hdm off cacheable)
def execCxlMemWrite (ld hdm off : Nat) (data : List Byte) (poison : Bool) : State → Result :=
  onDev (Dev.cxlWrite ld hdm off data poison)

/-- HOST_SNOOP: the device holds no host line. -/
def execHostSnoop (addr : Nat) : State → Result := onDev (Dev.emit (.rspIHitI addr))

/-- BACK_INVALIDATE_RESPONSE: the line leaves the snoop filter, so that the access that waits for it can proceed. -/
def execBackInvalidateResponse (addr : Nat) : State → Result :=
  onDev fun d =>
    guarded (d.biWait.contains addr)
      (fun d => { d with snoops := d.snoops.filter (· != addr), biWait := d.biWait.filter (· != addr) }) d

end Sys2Proof.Machine
end

