-- ==== Sys2Proof/Machine/Mover.lean ====
section
/-! DEFINITION. The local mover: posting its five commands (R162 to R164) and finishing the one at the
head of its queue (R122, R197). -/

namespace Sys2Proof.Machine

/-- Places of the mover's queue (R162). -/
def moverQueue : Nat := 8

/-- Bytes of an operand cache and of a cluster store. -/
def cacheSize : Nat := 0x6000
def storeSize : Nat := 0x10000

/-- Posts a checked mover command: rejected at once, or waiting while the queue is full, or queued. -/
def Dev.post (n : Nat) (r : Reg) (e : Option Code) (m : MoverCmd) (d : Dev) : Dev :=
  match e with
  | some c => d.ret n r (codeWord c)
  | none =>
    if moverQueue ≤ (d.clu n).mover.length then d.stall n
    else (d.modClu n fun c => { c with mover := c.mover ++ [m] }).ret n r 0

/-- Operand register values of a mover command. -/
def Dev.regNat (d : Dev) (n : Nat) (r : Reg) : Nat := (d.reg n r).toNat

/-- OCLD gd, ga, gb, gc. -/
def execOcld (clu : Nat) (d a b c : Reg) : State → Result :=
  onDev (Dev.instr clu fun x =>
    let ga := x.regNat clu a
    let gb := x.regNat clu b
    let gc := x.regNat clu c
    let st := bits ga 15 0
    let ca := bits ga 30 16
    let len := bits gb 14 0
    x.post clu d
      (firstFail [(ga / 2 ^ 31 ≠ 0 ∨ gb / 2 ^ 15 ≠ 0 ∨ gc / 2 ^ 32 ≠ 0, eReservedNonzero),
        (st % 8 ≠ 0 ∨ ca % 8 ≠ 0 ∨ len % 8 ≠ 0, eAlign),
        (len = 0 ∨ storeSize < st + len ∨ cacheSize < ca + len ∨ gc = 0, eRange)])
      (.load st ca len (BitVec.ofNat 32 gc)))

/-- OCST gd, ga, gb, gc. -/
def execOcst (clu : Nat) (d a b c : Reg) : State → Result :=
  onDev (Dev.instr clu fun x =>
    let ga := x.regNat clu a
    let gb := x.regNat clu b
    let gc := x.regNat clu c
    let st := bits ga 15 0
    let ca := bits ga 30 16
    let len := bits gb 14 0
    x.post clu d
      (firstFail [(ga / 2 ^ 31 ≠ 0 ∨ gb / 2 ^ 15 ≠ 0 ∨ gc / 2 ^ 5 ≠ 0, eReservedNonzero),
        (st % 8 ≠ 0 ∨ ca % 8 ≠ 0 ∨ len % 8 ≠ 0, eAlign),
        (len = 0 ∨ storeSize < st + len ∨ cacheSize < ca + len, eRange)])
      (.save st ca len gc))

/-- The pitch P of a transposed load: L × e bytes rounded up to 8 (R163). -/
def pitchOf (lines e : Nat) : Nat := ceilDiv (lines * e) 8 * 8

/-- OCLT gd, ga, gb, gc: the transposed load of R163. -/
def execOclt (clu : Nat) (d a b c : Reg) : State → Result :=
  onDev (Dev.instr clu fun x =>
    let ga := x.regNat clu a
    let gb := x.regNat clu b
    let gc := x.regNat clu c
    let ca := bits ga 30 16
    let ecode := bits gb 1 0
    let e := 2 ^ ecode
    let col := bits gb 8 2
    let line0 := bits gb 15 9
    let lines := bits gb 23 16
    let ncol := bits gb 30 24
    x.post clu d
      (firstFail [(ga / 2 ^ 31 ≠ 0 ∨ bits ga 15 0 ≠ 0 ∨ gb / 2 ^ 31 ≠ 0 ∨ gc / 2 ^ 32 ≠ 0, eReservedNonzero),
        (ca % 8 ≠ 0, eAlign),
        (ecode = 3 ∨ lines = 0 ∨ 128 < lines ∨ 128 < line0 + lines ∨ 128 / e < col + ncol + 1 ∨
          cacheSize < ca + (ncol + 1) * pitchOf lines e ∨ gc = 0, eRange)])
      (.loadT ca e col line0 lines (ncol + 1) (BitVec.ofNat 32 gc)))

/-- OCZ gd, ga, gb, gc. -/
def execOcz (clu : Nat) (d a b c : Reg) : State → Result :=
  onDev (Dev.instr clu fun x =>
    let ga := x.regNat clu a
    let gb := x.regNat clu b
    let gc := x.regNat clu c
    let ca := bits ga 30 16
    let len := bits gb 14 0
    x.post clu d
      (firstFail [(ga / 2 ^ 31 ≠ 0 ∨ bits ga 15 0 ≠ 0 ∨ gb / 2 ^ 15 ≠ 0 ∨ gc / 2 ^ 32 ≠ 0, eReservedNonzero),
        (ca % 8 ≠ 0 ∨ len % 8 ≠ 0, eAlign), (len = 0 ∨ cacheSize < ca + len ∨ gc = 0, eRange)])
      (.zeroCache ca len (BitVec.ofNat 32 gc)))

/-- CSZ gd, ga, gb. -/
def execCsz (clu : Nat) (d a b : Reg) : State → Result :=
  onDev (Dev.instr clu fun x =>
    let ga := x.regNat clu a
    let gb := x.regNat clu b
    let st := bits ga 15 0
    let len := bits gb 16 0
    x.post clu d
      (firstFail [(ga / 2 ^ 16 ≠ 0 ∨ gb / 2 ^ 17 ≠ 0, eReservedNonzero), (st % 8 ≠ 0 ∨ len % 8 ≠ 0, eAlign),
        (len = 0 ∨ storeSize < st + len, eRange)])
      (.zeroStore st len))

/-! ## The transfer -/

/-- Copies a range whose bad source words, already read, arrive poisoned (R196, R197). -/
def Dev.moverCopy (src dst n : Nat) (bad : List Nat) (d : Dev) : Dev :=
  bad.foldl (fun d c => if src ≤ c ∧ c < src + n then d.poisonCw (c - src + dst) else d) (d.copyRange reqClu src dst n)

/-- Where the bytes of a transposed load come from: destination offset and offset in the store of each
element (R122, R163). -/
def transposed (e col line0 lines ncol : Nat) : List (Nat × Nat) :=
  (List.range ncol).flatMap fun i => (List.range lines).map fun j =>
    (i * pitchOf lines e + j * e, 0xC000 + 128 * (line0 + j) + e * (col + i))

/-- A transposed load into one operand cache: bytes past the last line are zero, and a word with an element
of a bad source word arrives poisoned. -/
def Dev.moverTranspose (n k cache e col line0 lines ncol : Nat) (bad : List Nat) (src : List Byte) (d : Dev) : Dev :=
  let els := transposed e col line0 lines ncol
  let base := cacheAddr n k cache
  let d := d.zeroRange reqClu base (ncol * pitchOf lines e)
  let d := els.foldl (fun d x => d.writeBytes reqClu (base + x.1) (slice src (x.2 - 0xC000) e)) d
  els.foldl (fun d x => if bad.contains (cwOf (storeAddr n x.2)) then d.poisonCw (cwOf (base + x.1)) else d) d

/-- What a mover command does. The source is read once, whatever the number of cores. -/
def Dev.moverRun (n : Nat) (m : MoverCmd) (d : Dev) : Dev :=
  match m with
  | .load st ca len cores =>
    let (d, bad) := d.touchEach reqClu (d.marked (storeAddr n st) len)
    (bitsOf 32 cores.toNat).foldl (fun d k => d.moverCopy (storeAddr n st) (cacheAddr n k ca) len bad) d
  | .save st ca len k =>
    let (d, bad) := d.touchEach reqClu (d.marked (cacheAddr n k ca) len)
    d.moverCopy (cacheAddr n k ca) (storeAddr n st) len bad
  | .loadT ca e col line0 lines ncol cores =>
    let used := (transposed e col line0 lines ncol).map fun x => cwOf (storeAddr n x.2)
    let (d, bad) := d.touchEach reqClu ((d.marked (storeAddr n 0xC000) 0x4000).filter used.contains)
    let src := d.bytes (storeAddr n 0xC000) 0x4000
    (bitsOf 32 cores.toNat).foldl (fun d k => d.moverTranspose n k ca e col line0 lines ncol bad src) d
  | .zeroCache ca len cores =>
    (bitsOf 32 cores.toNat).foldl (fun d k => d.zeroRange reqClu (cacheAddr n k ca) len) d
  | .zeroStore st len => d.zeroRange reqClu (storeAddr n st) len

/-- The command at the head of the mover's queue finishes and its place is free. -/
def Dev.moverFinish (n : Nat) (d : Dev) : Dev :=
  match (d.clu n).mover with
  | [] => d
  | m :: rest => (d.moverRun n m).modClu n fun c => { c with mover := rest }

/-- MOVER_COMMAND_FINISH. -/
def execMoverCommandFinish (clu : Nat) : State → Result := onDev (Dev.moverFinish clu)

end Sys2Proof.Machine
end

