-- ==== Sys2Proof/Machine/NvmMsg.lean ====
section
/-! DEFINITION. The messages with which the host reaches the configuration NVM (R492, R506). -/

namespace Sys2Proof.Machine

/-- Replies to the message in mailbox 0 of LD 15: the code, then the words from `MBX_DATA_2` on. -/
def State.nvmReply (c : Code) (ws : List W32) (s : State) : State :=
  { s with dev := s.dev.mbxReply 15 0 (BitVec.ofNat 32 c.toNat :: ws) }

/-- An NVM message: served while mailbox 16 is empty, after the checks of R506 in their order. -/
def State.nvmMsg (msg : Nat) (more : Checks) (f : State → State) (s : State) : State :=
  if !(s.dev.mbxReady 15 0 && s.dev.isMsg 15 msg) then s
  else
    match firstFail (([(((s.dev.ld 15).mbx 0).sentAt = 0, eState), (s.dev.boot.probe ≠ 0, eNvmAbsent)] : Checks) ++ more) with
    | some c => s.nvmReply c []
    | none => f s

/-- A word of the message. -/
def State.nvmArg (s : State) (i : Nat) : Nat := (s.dev.mbxWord 15 0 i).toNat

/-- The checks of an offset and a length in bytes against the image region. -/
def nvmRange (bad : Bool) (align off n : Nat) : Checks :=
  [(bad, eRange), (off % align ≠ 0, eAlign), (nvmRegion < off + n, ePerm)]

/-- The length of a write or a read: 4 to 48 bytes and a multiple of 4. -/
def nvmBadLen (n : Nat) : Bool := decide (n < 4) || decide (48 < n) || n % 4 != 0

/-- NVM_INFO. -/
def execNvmInfo (s : State) : Result :=
  .next (s.nvmMsg 0x010 [] fun s => s.nvmReply 0 [BitVec.ofNat 32 s.vault.density, s.vault.jedec])

/-- NVM_ERASE: `MBX_DATA_2` sectors of 64 KiB. -/
def execNvmErase (s : State) : Result :=
  let off := s.nvmArg 1
  let n := s.nvmArg 2
  .next (s.nvmMsg 0x011 (nvmRange (decide (n < 1) || decide (40 < n)) nvmSector off (n * nvmSector)) fun s =>
    ({ s with vault := s.vault.erase off (n * nvmSector) } : State).nvmReply 0 [])

/-- Programs one byte: an erased byte takes it, and what a byte that was not erased then holds is not stated. -/
def State.programByte (a : Nat) (b : Byte) (s : State) : State :=
  if s.vault.erased a 1 then { s with vault := s.vault.program a [b] }
  else
    let (d, f) := s.dev.draw
    { s with vault := s.vault.program a [BitVec.ofNat 8 f], dev := d }

/-- Programs bytes from an offset. -/
def State.programBytes : Nat → List Byte → State → State
  | _, [], s => s
  | a, b :: bs, s => State.programBytes (a + 1) bs (s.programByte a b)

/-- NVM_WRITE, with its read-back. -/
def execNvmWrite (s : State) : Result :=
  let off := s.nvmArg 1
  let n := s.nvmArg 2
  let data := slice (wordsToBytes ((List.range 12).map fun i => s.dev.mbxWord 15 0 (i + 3))) 0 n
  .next (s.nvmMsg 0x012 (nvmRange (nvmBadLen n) 4 off n) fun s =>
    let s := State.programBytes off data s
    s.nvmReply (if s.vault.nvmRead off n = data then 0 else eState) [])

/-- NVM_READ. -/
def execNvmRead (s : State) : Result :=
  let off := s.nvmArg 1
  let n := s.nvmArg 2
  .next (s.nvmMsg 0x013 (nvmRange (nvmBadLen n) 4 off n) fun s =>
    s.nvmReply 0 (0 :: bytesToWords (n / 4) (s.vault.nvmRead off n)))

/-- NVM_VERIFY: the checks of a start, and on success a record with `count` 0. -/
def execNvmVerify (s : State) : Result :=
  .next (s.nvmMsg 0x014 [] fun s =>
    match s.vault.verifyImage with
    | .error (c, det) => s.nvmReply c [det.setWidth 32]
    | .ok _ => (s.record 0 s.dev.devLevel 0 0).nvmReply 0 [0])

/-- START_CLEAR: a record with `count` 0, without any check. -/
def execStartClear (s : State) : Result :=
  .next (s.nvmMsg 0x015 [] fun s => (s.record 0 s.dev.devLevel 0 0).nvmReply 0 [])

end Sys2Proof.Machine
end

