-- ==== Sys2Proof/Machine/Queue.lean ====
section
/-! DEFINITION. Command queues and the rings that clusters write: their registers, the fetch of a command and its
dispatch to the engine that carries it out (R234, R330, R444 to R449, R455). -/

namespace Sys2Proof.Machine

/-! ## Queue registers (R444, R445) -/

def Dev.modCq (ld q : Nat) (f : Cq → Cq) (d : Dev) : Dev :=
  d.modLd ld fun l => { l with host := { l.host with cqs := Map.set l.host.cqs q (f (l.cq q)) } }

/-- Whether a frame that holds an address lets the host write descriptors for a domain (R445). -/
def Dev.ringFrame (d : Dev) (dom a : Nat) : Bool :=
  (frameOf a).any fun f => (d.tag f).st == .assigned && (d.tag f).domain.toNat == dom && (d.tag f).host

/-- Whether a ring lies wholly in frames of an LD's own stacks and channels (R445). -/
def Dev.ringInside (d : Dev) (ld a n : Nat) : Bool :=
  (samples a n).all fun x => (frameOf x).isSome && !d.unpopulated x && d.ownsWindow ld x

/-- A write of `CQ_CFG` (R445). -/
def Dev.cqCfg (now : W64) (ld q : Nat) (v : W32) (d : Dev) : Dev :=
  let x := (d.ld ld).cq q
  let dom := fld v 27 16
  let n := fld v 4 0
  let on := v.getLsbD 31
  let begins := on && x.st == .disabled
  let size := 64 * 2 ^ n
  d.checked (.ld ld)
    (firstFail [(fld v 30 28 ≠ 0 ∨ fld v 15 5 ≠ 0, eReservedNonzero), (!d.ownsDom ld dom, ePerm), (n < 4 ∨ 16 < n, eRange),
      (x.st ≠ .disabled ∧ (x.domain.toNat ≠ dom ∨ x.log2n ≠ n), eState), (on && x.st == .draining, eState),
      (begins && !d.ringInside ld x.base.toNat size, ePerm),
      (begins && (d.dom dom).st != .open, ePerm), (begins && !(samples x.base.toNat size).all (d.ringFrame dom), ePerm)])
    fun d =>
      if begins then
        (d.hostWrite x.cbase.toNat (zeros 64)).modCq ld q fun x =>
          { x with st := .enabled, domain := BitVec.ofNat 12 dom, log2n := n, tail := 0, head := 0, chead := 0, prod := 0 }
      else if !on && x.st == .enabled then d.disableBegin now (.queue ld q) ld
      else d.modCq ld q fun x => { x with domain := BitVec.ofNat 12 dom, log2n := n }

/-- A write of `CQ_TAIL`. -/
def Dev.cqTail (ld q : Nat) (v : W32) (d : Dev) : Dev :=
  let x := (d.ld ld).cq q
  d.checked (.ld ld) (firstFail [(x.st ≠ .enabled, eDisabled), (2 ^ x.log2n < (v - x.head).toNat ∨ (v - x.tail).toInt < 0, eRange)])
    (Dev.modCq ld q fun x => { x with tail := v })

/-- A write of `CQ_CPL_HEAD`. -/
def Dev.cqCplHead (ld q : Nat) (v : W32) (d : Dev) : Dev :=
  let x := (d.ld ld).cq q
  d.checked (.ld ld) (firstFail [(2 ^ x.log2m < (x.prod - v).toNat, eRange)]) (Dev.modCq ld q fun x => { x with chead := v })

/-- A write of register `off` of a queue's 64 bytes. A pair takes effect on its HI word (R10). -/
def Dev.cqWrite (ag : Agent) (now : W64) (ld q off : Nat) (v : W32) (d : Dev) : Dev :=
  let x := (d.ld ld).cq q
  let at_ := 0x4000 + 0x40 * q
  let fixed := decide (x.st ≠ .disabled)
  let pair := fun (lo : Nat) => pairNat (d.heldLo ag (.ld ld) (at_ + lo)) v
  match off with
  | 0x00 => d.checked (.ld ld) (firstFail [(v.toNat % 4096 ≠ 0, eAlign), (fixed && v != x.base.setWidth 32, eState)]) (Dev.holdLo ag (.ld ld) at_ v)
  | 0x04 =>
    d.checked (.ld ld) (firstFail [(fld v 31 12 ≠ 0, eReservedNonzero), (fixed && pair 0 != x.base.toNat, eState)])
      (Dev.modCq ld q fun x => { x with base := BitVec.ofNat 44 (pair 0) })
  | 0x08 => d.cqCfg now ld q v
  | 0x0C => d.cqTail ld q v
  | 0x14 => d.checked (.ld ld) (firstFail [(fld v 15 3 ≠ 0, eReservedNonzero)]) id
  | 0x18 =>
    d.checked (.ld ld) (firstFail [(v.toNat % 64 ≠ 0, eAlign), (fixed && v != x.cbase.setWidth 32, eState)])
      (Dev.holdLo ag (.ld ld) (at_ + 0x18) v)
  | 0x1C =>
    d.checked (.ld ld) (firstFail [(fld v 31 20 ≠ 0, eReservedNonzero), (fixed && pair 0x18 != x.cbase.toNat, eState)])
      (Dev.modCq ld q fun x => { x with cbase := BitVec.ofNat 52 (pair 0x18) })
  | 0x20 =>
    let m := fld v 4 0
    d.checked (.ld ld) (firstFail [(fld v 31 5 ≠ 0, eReservedNonzero), (m < 4 ∨ 16 < m, eRange), (fixed && m != x.log2m, eState)])
      (Dev.modCq ld q fun x => { x with log2m := m })
  | 0x24 => d.cqCplHead ld q v
  | 0x10 | 0x28 => d
  | _ => d.ldErr ld eRange

/-- The page offset of a register of a queue. -/
def cqOff (q off : Nat) : Nat := 0x4000 + 0x40 * q + off

/-- CQ_ENABLE: a write of `CQ_CFG` with `enable` 1. -/
def execCqEnable (ag : Agent) (ld q : Nat) (v : W32) : State → Result :=
  onDevAt fun now => guarded (v.getLsbD 31 && decide (q < 64)) (Dev.pageWrite ag ld (cqOff q 8) (Dev.cqCfg now ld q v))

/-- CQ_DISABLE: a write of `CQ_CFG` with `enable` 0. -/
def execCqDisable (ag : Agent) (ld q : Nat) (v : W32) : State → Result :=
  onDevAt fun now => guarded (!v.getLsbD 31 && decide (q < 64)) (Dev.pageWrite ag ld (cqOff q 8) (Dev.cqCfg now ld q v))

def execCqTailWrite (ag : Agent) (ld q : Nat) (v : W32) : State → Result :=
  onDev (guarded (decide (q < 64)) (Dev.pageWrite ag ld (cqOff q 0xC) (Dev.cqTail ld q v)))

def execCqCplHeadWrite (ag : Agent) (ld q : Nat) (v : W32) : State → Result :=
  onDev (guarded (decide (q < 64)) (Dev.pageWrite ag ld (cqOff q 0x24) (Dev.cqCplHead ld q v)))

/-! ## The request completion ring (R455) -/

def Dev.modRing (ld : Nat) (f : ReqCpl → ReqCpl) (d : Dev) : Dev :=
  d.modLd ld fun l => { l with host := { l.host with reqCpl := f l.host.reqCpl } }

/-- Whether any request of an LD holds a slot. -/
def Dev.anyReq (d : Dev) (ld : Nat) : Bool := d.reqs.any fun e => e.2.st != .free && e.2.ld == ld

/-- A write of `REQ_CPL_CFG`. -/
def Dev.reqCplCfg (ld : Nat) (v : W32) (d : Dev) : Dev :=
  let x := (d.ld ld).host.reqCpl
  let m := fld v 4 0
  let on := v.getLsbD 31
  d.checked (.ld ld)
    (firstFail [(fld v 30 5 ≠ 0, eReservedNonzero), (m < 4 ∨ 18 < m, eRange), (d.anyReq ld && (m != x.log2m || (x.enable && !on)), eState)])
    fun d =>
      let d := d.modRing ld fun r => { r with enable := on, log2m := m }
      if on then (d.hostWrite x.base.toNat (zeros 64)).modRing ld fun r => { r with head := 0, prod := 0 } else d

/-- A write of a register of the request completion ring. -/
def Dev.reqRingWrite (ag : Agent) (ld off : Nat) (v : W32) (d : Dev) : Dev :=
  let x := (d.ld ld).host.reqCpl
  let pair := pairNat (d.heldLo ag (.ld ld) 0x8010) v
  match off with
  | 0x8010 =>
    d.checked (.ld ld) (firstFail [(v.toNat % 64 ≠ 0, eAlign), (d.anyReq ld && v != x.base.setWidth 32, eState)]) (Dev.holdLo ag (.ld ld) 0x8010 v)
  | 0x8014 =>
    d.checked (.ld ld) (firstFail [(fld v 31 20 ≠ 0, eReservedNonzero), (d.anyReq ld && pair != x.base.toNat, eState)])
      (Dev.modRing ld fun r => { r with base := BitVec.ofNat 52 pair })
  | 0x8018 => d.reqCplCfg ld v
  | 0x801C => d.checked (.ld ld) (firstFail [(2 ^ x.log2m < (x.prod - v).toNat, eRange)]) (Dev.modRing ld fun r => { r with head := v })
  | _ => d

/-- REQ_CPL_ENABLE: a write of `REQ_CPL_CFG` with `enable` 1. -/
def execReqCplEnable (ag : Agent) (ld : Nat) (v : W32) : State → Result :=
  onDev (guarded (v.getLsbD 31) (Dev.pageWrite ag ld 0x8018 (Dev.reqCplCfg ld v)))

/-! ## The fetch of a command (R446 to R449) -/

/-- Body descriptors of a command (R448). -/
def bodiesOf (op : Nat) : Option Nat :=
  if (0x60 ≤ op ∧ op ≤ 0x67) ∨ op = 0x70 then some 2
  else if op = 0x10 ∨ op = 0x11 ∨ (0x20 ≤ op ∧ op ≤ 0x2A) ∨ (0x40 ≤ op ∧ op ≤ 0x44) ∨ (0x71 ≤ op ∧ op ≤ 0x75) ∨ op = 0x77 ∨ op = 0x78 ∨
      (0x80 ≤ op ∧ op ≤ 0x8F) then some 1
  else none

/-- The command that an `op` names, run on a body; none for an `op` that no engine accepts. -/
def commandOf (op : Nat) (iss : Issuer) (die : Nat) (b : List W32) : Option (State → Result) :=
  match op with
  | 0x10 => some (execLaunch iss b)
  | 0x11 => some (execCcLaunch iss b)
  | 0x20 => some (execAlloc iss die b)
  | 0x21 => some (execFree iss die b)
  | 0x22 => some (execAppend iss die b)
  | 0x23 => some (execTrim iss die b)
  | 0x24 => some (execKeep iss die b)
  | 0x25 => some (execMove iss die b)
  | 0x26 => some (execPin iss die b)
  | 0x27 => some (execRetire iss die b)
  | 0x28 => some (execGather iss die b)
  | 0x29 => some (execSend iss die b)
  | 0x2A => some (execScoreCommand iss b)
  | 0x40 => some (execSubmit iss b)
  | 0x41 => some (execCancel iss b)
  | 0x42 => some (execAdpLoad iss b)
  | 0x43 => some (execAdpDrop iss b)
  | 0x44 => some (execSwap iss b)
  | 0x60 => some (execAllReduce iss b)
  | 0x61 => some (execReduce iss b)
  | 0x62 => some (execReduceScatter iss b)
  | 0x63 => some (execAllGather iss b)
  | 0x64 => some (execBroadcast iss b)
  | 0x65 => some (execAllToAll iss b)
  | 0x66 => some (execCombine iss b)
  | 0x67 => some (execBarrier iss b)
  | 0x70 => some (execUpdate iss b)
  | 0x71 => some (execFetch iss b)
  | 0x72 => some (execFpcheck iss b)
  | 0x73 => some (execDfsApply iss b)
  | 0x74 => some (execPhase iss b)
  | 0x75 => some (execTurn iss b)
  | 0x77 => some (execTrlLoad iss b)
  | 0x78 => some (execXplPlan iss b)
  | 0x80 => some (execDomOpen iss b)
  | 0x81 => some (execDomClose iss b)
  | 0x82 => some (execDomQuota iss b)
  | 0x83 => some (execPageSet iss b)
  | 0x84 => some (execPubKey iss b)
  | 0x85 => some (execDfsKey iss b)
  | 0x86 => some (execWeightImport iss b)
  | 0x87 => some (execAttest iss b)
  | 0x89 => some (execMinverRaise iss b)
  | 0x8A => some (execOwnerXfer iss b)
  | _ => none

/-- The header's checks in the order of its fields (R447, R448). -/
def headerChecks (d : Dev) (ld nbody op : Nat) (h : List W32) : Checks :=
  let die := wfld h 0 11 8
  let kv := decide (0x20 ≤ op) && decide (op ≤ 0x29)
  [((bodiesOf op).any (· != nbody), eRange), (wfld h 0 7 3 ≠ 0, eReservedNonzero), (!kv && die != 0, eRange), (10 ≤ die, eRange),
    (kv && !(d.ld ld).lay.dieMask.getLsbD die, ePerm), (wfld h 0 15 12 ≠ 0 ∨ !zeroWords h 1 15, eReservedNonzero), ((bodiesOf op).isNone, eRange)]

/-- Reads the descriptors of counts pos to pos + n − 1 of a queue: their words, or the code of a bus error (R197,
R468). -/
def Dev.descriptors (ld : Nat) (x : Cq) (pos : W32) : Nat → Dev → Dev × Except Code (List W32)
  | 0, d => (d, .ok [])
  | n + 1, d =>
    let a := x.base.toNat + 64 * (pos.toNat % 2 ^ x.log2n)
    match d.busCode (.eng ld x.domain.toNat) false a 64 with
    | some c => (d, .error c)
    | none =>
      match d.readBytes reqFetch a 64 with
      | (d, none) => (d, .error ePoison)
      | (d, some bs) =>
        match Dev.descriptors ld x (pos + 1) n d with
        | (d, .error c) => (d, .error c)
        | (d, .ok ws) => (d, .ok (bytesToWords 16 bs ++ ws))

/-- The device part of an outcome. -/
def resultState (s : State) : Result → State
  | .next t => t
  | _ => s

/-- Fetches the next command of a queue, checks its header, and has its engine accept or reject it. No queue of an LD
that drains fetches (R452, R513 step 1). A command whose descriptors are not all posted, that waits at a barrier, or that
its engine keeps waiting is not fetched yet. -/
def State.commandFetch (ld q : Nat) (s : State) : State :=
  let x := (s.dev.ld ld).cq q
  let posted := (x.tail - x.head).toNat
  if x.st ≠ .enabled ∨ (s.dev.ld ld).ctl.st ≠ .enabled ∨ posted = 0 ∨ 2 ^ x.log2m - (x.prod - x.chead).toNat ≤ x.outstanding then s
  else
    let take := fun (n : Nat) (d : Dev) => d.modCq ld q fun y => { y with head := x.head + BitVec.ofNat 32 n }
    let bad := fun (n : Nat) (ct : BitVec 16) (c : Code) (d : Dev) =>
      { s with dev := (take n d).reject { iss := .queue ld q ct x.head, op := 0, btag := 0 } c }
    match s.dev.descriptors ld x x.head 1 with
    | (d, .error c) => bad 1 0 c d
    | (d, .ok h) =>
      let nbody := wfld h 0 1 0
      let ct := BitVec.ofNat 16 (wfld h 0 31 16)
      if nbody = 0 ∨ nbody = 3 then bad 1 ct eRange d
      else if posted < 1 + nbody then s
      else
        match d.descriptors ld x (x.head + 1) nbody with
        | (d, .error c) => bad (1 + nbody) ct c d
        | (d, .ok b) =>
          let op := wfld b 0 7 0
          let iss := Issuer.queue ld q ct x.head
          let d := take (1 + nbody) d
          match firstFail (headerChecks d ld nbody op h) with
          | some c => { s with dev := d.reject (ticketOf iss b) c }
          | none =>
            if !d.touched.isEmpty then { s with dev := d }
            else if ((word h 0).getLsbD 2 ∨ op = 0x74) ∧ x.outstanding ≠ 0 then s
            else
              match commandOf op iss (wfld h 0 11 8) b with
              | none => { s with dev := d.reject (ticketOf iss b) eRange }
              | some f =>
                let t := resultState s (f { s with dev := d })
                let y := (t.dev.ld ld).cq q
                if y.prod = x.prod ∧ y.outstanding = x.outstanding then
                  { s with dev := { s.dev with out := t.dev.out, biWait := t.dev.biWait } }
                else t

/-- COMMAND_FETCH. -/
def execCommandFetch (ld q : Nat) (s : State) : Result := .next (s.settleHost (State.commandFetch ld q))

/-! ## Cluster rings (R233, R234, R330) -/

/-- The counts that the engine has taken from a ring and the last accepted tail. -/
def Cluster.ringCounts (c : Cluster) (kind : RingKind) : W32 × W32 :=
  match kind with
  | .kv => (c.kvTaken, c.kvTail)
  | .col => (c.colTaken, c.colTail)

def Cluster.setRing (c : Cluster) (kind : RingKind) (taken tail : W32) : Cluster :=
  match kind with
  | .kv => { c with kvTaken := taken, kvTail := tail }
  | .col => { c with colTaken := taken, colTail := tail }

/-- Bytes of an entry, and whether a ring carries a command. -/
def entryBytes (kind : RingKind) : Nat := match kind with | .kv => 64 | .col => 128
def ringCarries (kind : RingKind) (op : Nat) : Bool :=
  match kind with
  | .kv => decide (0x20 ≤ op) && decide (op ≤ 0x2A)
  | .col => decide (0x60 ≤ op) && decide (op ≤ 0x67)

/-- KV and score commands that have been accepted and have not ended. -/
def Dev.ringHeld (d : Dev) : Nat :=
  (d.kvJobs.map fun q => q.2.length).sum + (d.score.map fun q => q.2.length).sum

/-- Runs the entry of a count: the state after it, and whether the engine has taken it. -/
def State.ringEntry (clu : Nat) (kind : RingKind) (count : W32) (s : State) : State × Bool :=
  let base := ringAddr kind clu
  let i := count.toNat % ringSize kind
  let iss := match kind with | .kv => Issuer.kvRing clu count.toNat | .col => Issuer.colRing clu count.toNat
  let d := s.dev
  let ld := d.ldOfDie (clu / 256)
  match d.readBytes reqEng (base + entryBytes kind * i) (entryBytes kind) with
  | (d, none) => ({ s with dev := d.reject { iss := iss, op := 0, btag := 0 } ePoison }, true)
  | (d, some bs) =>
    let b := bytesToWords (entryBytes kind / 4) bs
    let t := ticketOf iss b
    if d.draining iss ld (d.clu clu).domain.toNat then ({ s with dev := d.reject t eDisabled }, true)
    else
      match (if ringCarries kind t.op then commandOf t.op iss (clu / 256) b else none) with
      | none => ({ s with dev := d.reject t eRange }, true)
      | some f =>
        let t := resultState s (f { s with dev := d })
        let taken := (t.dev.memWord (base + 0x3C8 + 4 * i)).getLsbD 31 || decide (s.dev.ringHeld < t.dev.ringHeld)
        (if taken then t else { s with dev := { s.dev with out := t.dev.out, biWait := t.dev.biWait } }, taken)

/-- Takes the posted entries of a ring in count order, up to one that waits. -/
def State.ringTake (clu : Nat) (kind : RingKind) : Nat → State → State
  | 0, s => s
  | f + 1, s =>
    let (taken, tail) := (s.dev.clu clu).ringCounts kind
    if taken = tail then s
    else
      let s' : State := { s with dev := s.dev.modClu clu fun c => c.setRing kind (taken + 1) tail }
      match s'.ringEntry clu kind taken with
      | (t, true) => State.ringTake clu kind f t
      | (t, false) => { t with dev := t.dev.modClu clu fun c => c.setRing kind taken tail }

/-- A cluster's write of the `tail` word of one of its rings (R234). -/
def State.ringTail (clu : Nat) (kind : RingKind) (tail : W32) (s : State) : State :=
  let base := ringAddr kind clu
  if (s.dev.clu clu).st = .idle ∨ 2560 ≤ clu then s
  else
    let (taken, last) := (s.dev.clu clu).ringCounts kind
    let d := s.dev.putWord (base + 0x3C0) tail
    let head := d.memWord (base + 0x3C4)
    if ringSize kind < (tail - head).toNat ∨ (tail - last).toInt < 0 then
      { s with dev := d.putWord (base + 0x380) (BitVec.ofNat 32 (eRange.toNat + 2 ^ 16 * (tail.toNat % 2 ^ 16))) }
    else
      let d := (List.range (tail - last).toNat).foldl (fun d i =>
        let a := base + 0x3C8 + 4 * ((last.toNat + i) % 2 ^ 32 % ringSize kind)
        d.putWord a (clearBit (d.memWord a) 31)) d
      State.ringTake clu kind (ringSize kind) { s with dev := d.modClu clu fun c => c.setRing kind taken tail }

/-- CLUSTER_RING_TAIL. -/
def execClusterRingTail (clu : Nat) (kind : RingKind) (tail : W32) (s : State) : Result := .next (s.ringTail clu kind tail)

end Sys2Proof.Machine
end

