-- ==== Sys2Proof/Machine/Sideband.lean ====
section
/-! DEFINITION. The I3C target: its registers (R549, R550) and the common command codes that it supports (R548, R551). -/

namespace Sys2Proof.Machine

/-! ## Registers (R549, R550) -/

/-- The number that flags in bit positions make. -/
def packBits (fs : List (Nat × Nat)) : W32 := fs.foldl (fun (w : W32) f => w ||| BitVec.ofNat 32 (f.2 * 2 ^ f.1)) 0

/-- A read of an I3C register; an unassigned index reads zero. -/
def Dev.bcRead (d : Dev) (idx : Nat) : W32 :=
  let p := d.pins
  match idx with
  | 0 => packBits [(16, 0x4992), (8, Config.moduleRev % 256), (0, 1)]
  | 1 => d.i3c.limitW.setWidth 32
  | 2 => packBits [(16, d.pwr.draw.toNat), (0, p.vin % 2 ^ 16)]
  | 3 => packBits [(24, p.tjMax % 256), (16, p.plate % 256), (8, p.outlet % 256), (0, p.inlet % 256)]
  | 4 => d.i3c.fault.setWidth 32
  | 5 => packBits [(31, b2n (!p.resetN)), (30, b2n p.ready), (29, b2n p.therm), (28, b2n d.alert), (27, b2n (d.boot.stage == .fallow)),
      (25, (d.ld 15).ctl.service), (24, b2n p.tripped), (20, d.i3c.sbPin.toNat)]
  | 6 => d.i3c.errCode.setWidth 32
  | _ => 0

/-- A rejected I3C write leaves its code in `PWR_BC_ERR`. -/
def Dev.bcErr (c : Code) (d : Dev) : Dev := { d with i3c := { d.i3c with errCode := c } }

/-- An I3C write that is performed when no check fails. -/
def Dev.bcChecked (e : Option Code) (f : Dev → Dev) (d : Dev) : Dev :=
  match e with
  | some c => d.bcErr c
  | none => f d

/-- A write of `PWR_BC_LIMIT`. -/
def Dev.bcLimit (v : W32) (d : Dev) : Dev :=
  let w := fld v 11 0
  d.bcChecked (firstFail [(fld v 31 12 ≠ 0, eReservedNonzero), (w ≠ 0 ∧ (w < 1000 ∨ 3000 < w), eRange)])
    fun d => { d with i3c := { d.i3c with limitW := BitVec.ofNat 12 w } }

/-- A write of `PWR_BC_ERR`. -/
def Dev.bcErrWrite (v : W32) (d : Dev) : Dev :=
  d.bcChecked (firstFail [(fld v 31 17 ≠ 0, eReservedNonzero)])
    fun d => if v.getLsbD 16 then { d with i3c := { d.i3c with errCode := 0 } } else d

/-- A write of an I3C register. -/
def Dev.bcWrite (idx : Nat) (v : W32) (d : Dev) : Dev :=
  match idx with
  | 0 => d
  | 1 => d.bcLimit v
  | 2 => d.bcChecked (firstFail [(fld v 31 28 ≠ 0, eReservedNonzero)]) id
  | 3 => d
  | 4 => d.bcChecked (firstFail [(fld v 31 13 ≠ 0, eReservedNonzero)])
      fun d => { d with i3c := { d.i3c with fault := d.i3c.fault &&& ~~~(v.setWidth 13) } }
  | 5 => d.bcChecked (firstFail [(fld v 19 0 ≠ 0, eReservedNonzero)]) id
  | 6 => d.bcErrWrite v
  | _ => d.bcErr eRange

/-- The target answers from step 2 of the power-up sequence until power is lost (R548). -/
def onTarget (f : Dev → Dev) : State → Result := onDev fun d => guarded d.pins.standby f d

/-- I3C_REGISTER_WRITE: the index and the data bytes of a private write. -/
def execI3cRegisterWrite (idx : Byte) (data : List Byte) : State → Result :=
  onTarget fun d => if data.length = 4 then d.bcWrite idx.toNat (BitVec.ofNat 32 (ofBytes data)) else d.bcErr eAlign

def execPwrBcLimitWrite (v : W32) : State → Result := onTarget (Dev.bcLimit v)
def execPwrBcErrClear (v : W32) : State → Result := onTarget (guarded (v.getLsbD 16) (Dev.bcErrWrite v))

/-! ## Common command codes (R548) -/

/-- ENTDAA: a target without a dynamic address takes the one assigned. -/
def execEntdaa (addr : BitVec 7) : State → Result :=
  onTarget fun d => if d.i3c.dynAddr.isNone then { d with i3c := { d.i3c with dynAddr := some addr } } else d

/-- SETDASA: the dynamic address is assigned through the static one. -/
def execSetdasa (addr : BitVec 7) : State → Result :=
  onTarget fun d => if d.i3c.dynAddr.isNone then { d with i3c := { d.i3c with dynAddr := some addr } } else d

/-- RSTDAA. -/
def execRstdaa : State → Result := onTarget fun d => { d with i3c := { d.i3c with dynAddr := none } }

/-- ENEC and DISEC: bit 0 of the events is the in-band interrupt (R551). -/
def execEnec (events : Byte) : State → Result :=
  onTarget fun d => if events.getLsbD 0 then { d with i3c := { d.i3c with ibiEn := true } } else d
def execDisec (events : Byte) : State → Result :=
  onTarget fun d => if events.getLsbD 0 then { d with i3c := { d.i3c with ibiEn := false } } else d

def execGetpid : State → Result := onTarget (Dev.emit (.i3c (slice Config.i3cPid 0 6)))
def execGetbcr : State → Result := onTarget (Dev.emit (.i3c [Config.i3cBcr]))
def execGetdcr : State → Result := onTarget (Dev.emit (.i3c [Config.i3cDcr]))

/-- GETSTATUS: two bytes, whose contents no rule gives. -/
def execGetstatus : State → Result :=
  onTarget fun d =>
    let (d, f) := d.draw
    d.emit (.i3c (toBytes 2 f))

def execGetmxds : State → Result := onTarget (Dev.emit (.i3c (slice Config.i3cMaxSpeed 0 2)))

end Sys2Proof.Machine
end

