-- ==== Sys2Proof/Machine/Switch.lean ====
section
/-! DEFINITION. Packets: forwarding and delivery (R305, R306, R310, R311), outstanding requests (R314), and the
route, DID and graft registers (R313, R320, R321, R326, R328). -/

namespace Sys2Proof.Machine

/-! ## Answers and forwarding -/

/-- The answer of an LD to a request, sent by its own route table; without a route it is not sent. -/
def Dev.answer (ld : Nat) (p : Packet) (code : Code) (poison : BitVec 128) (data : List Byte) (d : Dev) : Dev :=
  if p.kind = 1 ∨ p.kind = 3 then
    let own := (d.ld ld).lay.ldid
    let dst := d.physOf ld p.srcDid.toNat
    let r := { p with dstDid := BitVec.ofNat 14 dst, srcDid := own, kind := p.kind + 1, units := data.length / 32, hops := 0,
                      code := code, poison := poison, data := data }
    d.inject ld dst p.cls.toNat fun q => { out := .packet q r, packets := [r] }
  else d

/-- A packet for another DID goes out by the route table, or is refused with E_NO_ROUTE (R311). -/
def Dev.forward (ld : Nat) (p : Packet) (d : Dev) : Dev :=
  match (if p.hops = 15 then none else d.routePort ld p.srcDid.toNat p.dstDid.toNat p.cls.toNat) with
  | some q => d.packetSend q { p with hops := p.hops + 1 }
  | none => d.answer ld p eNoRoute 0 []

/-! ## Delivery -/

/-- Whether a write lies in the KV frames, where only handoffs reach (R252, R468). -/
def Dev.kvWrite (d : Dev) (a n : Nat) : Bool := (samples a n).any fun x => (frameOf x).any fun f => (d.tag f).st == .kv

/-- Whether every frame of a write is INBOUND from a DID, under the generation that the write names (R252 step 4). DESIGN
CHOICE (log 108): a handoff write carries it in bits [7:0] of `code`, which R305 gives a meaning in responses alone. -/
def Dev.inboundFrom (d : Dev) (src : BitVec 14) (gen a n : Nat) : Bool :=
  (samples a n).all fun x => d.kv.any fun e =>
    e.2.st == .inbound && e.2.inbound == some src && e.2.gen.toNat == gen && frameAt e.2.frame == x / frameBytes * frameBytes

/-- Whether a write lies in this member's swap-wave bitmap and comes from the group's origin (R287). -/
def Dev.waveWrite (d : Dev) (ld src a n : Nat) : Bool :=
  decide (d.waveTable ld ≤ a) && decide (a + n ≤ d.waveTable ld + 0x8000) && d.originDid ld == some src && !d.isOrigin ld

/-- The code of a read or write that has reached its partition: the window, the ranges and tags, and the rules of
handoffs and of the swap-wave bitmap (R306, R34, R30, R468, R252, R287). -/
def Dev.arriveCode (d : Dev) (ld : Nat) (p : Packet) (write : Bool) : Option Code :=
  let a := p.addr.toNat
  let n := max 1 (32 * p.units)
  if !d.ownsWindow ld a ∨ !d.ownsWindow ld (a + n - 1) then some ePerm
  else if (samples a n).any d.unpopulated then some eRange
  else if write ∧ d.kvWrite a n then (if d.inboundFrom p.srcDid (p.code.toNat % 256) a n then none else some eKvStale)
  else if write ∧ d.waveWrite ld p.srcDid.toNat a n then none
  else d.busCode (.cassum ld) write a n

/-- Writes the data slots of a packet; a slot that is marked poisoned is stored poisoned (R198). -/
def Dev.slotsIn (poison : BitVec 128) : List Nat → Nat → List Byte → Dev → Dev
  | [], _, _, d => d
  | u :: us, a, bs, d =>
    let b := slice bs (32 * u) 32
    let d := if poison.getLsbD u then d.writePoison reqCas (a + 32 * u) b else d.writeBytes reqCas (a + 32 * u) b
    Dev.slotsIn poison us a bs d

/-- Reads data slots: their poison marks and bytes; what an unusable slot carries is free (R197). -/
def Dev.slotsOut : List Nat → Nat → Dev → Dev × BitVec 128 × List Byte
  | [], _, d => (d, 0, [])
  | u :: us, a, d =>
    match d.readBytes reqCas (a + 32 * u) 32 with
    | (d, some b) => let (d, p, bs) := Dev.slotsOut us a d; (d, p, b ++ bs)
    | (d, none) => let (d, f) := d.draw; let (d, p, bs) := Dev.slotsOut us a d; (d, setBit p u, toBytes 32 f ++ bs)

/-- A read or write that reaches its partition. The slots that a read request asks for are counted in `units`. -/
def Dev.access (ld : Nat) (p : Packet) (d : Dev) : Dev :=
  let us := List.range p.units
  match d.arriveCode ld p (p.kind == 3) with
  | some c => d.answer ld p c 0 []
  | none =>
    if p.kind = 3 then (d.slotsIn p.poison us p.addr.toNat p.data).answer ld p 0 0 []
    else
      match d.slotsOut us p.addr.toNat with
      | (d, bad, bs) => d.answer ld p (if bad = 0 then 0 else ePoison) bad bs

/-- An outstanding request of an LD ends with a code: a SEND or a FETCH that it serves ends with it (R253, R376). -/
def Dev.reqFail (now : W64) (ld : Nat) (r : FabReq) (c : Code) (d : Dev) : Dev :=
  let d := d.fabClose ld fun x => x == r
  match r.serves with
  | .send ref => (d.sends ld fun j => !j.left.isEmpty && j.remote == ref).foldl (fun d q => d.sendEnd q.1 q.2 c) d
  | .fetch die => (d.running die).elim d fun u => d.updEnd now u c false (if u.op = 0x72 then u.fpResult else 0)
  | .other => d

/-- A response: it answers the request with its tag, unless the watchdog has run out (R314); a refusal with E_NO_ROUTE comes from
the switch that refused it, under that partition's own DID (R306, R311). A page of a SEND is
acknowledged by its message; the response to one of its writes ends the SEND only with a code. -/
def Dev.response (now : W64) (ld : Nat) (p : Packet) (d : Dev) : Dev :=
  let limit := 100 * (d.ld ld).fab.timeout.toNat
  match (d.ld ld).fab.reqs.find? fun r => r.tag == p.tag && (r.dst == p.srcDid || p.code == eNoRoute) && decide (r.age < limit) with
  | none => d
  | some r =>
    if p.code ≠ 0 then d.reqFail now ld r p.code
    else match r.serves with
      | .send _ => d
      | .fetch _ => d.fabClose ld fun x => x == r
      | .other => d.fabClose ld fun x => x == r

/-- A message: on the KV class the acknowledgement of a handoff page, its reference in the first data word; on the
control class without data a member's request for the swap-wave bitmap. Every other message is a command of its own. -/
def Dev.message (ld : Nat) (p : Packet) (d : Dev) : Dev :=
  if p.cls = 2 then d.kvAck ld (BitVec.ofNat 32 (num p.data 0 4)) p.code
  else if p.cls = 0 ∧ p.units = 0 ∧ (d.groupOthers ld).contains p.srcDid.toNat then d.waveResend ld p.srcDid.toNat
  else d

/-- PACKET_RECEIVE. -/
def Dev.packetReceive (now : W64) (n : Nat) (p : Packet) (d : Dev) : Dev :=
  let ld := d.ldOfPort n
  if (d.port n).st ≠ .active ∨ 10 ≤ ld then d
  else
  let d := d.owe n p.cls.toNat (packetSlots p)
  if d.isLost ld p.srcDid.toNat then d
  else if p.dstDid ≠ (d.ld ld).lay.did then d.forward ld p
  else if p.kind = 1 ∨ p.kind = 3 then d.access ld p
  else if p.kind = 2 ∨ p.kind = 4 then (d.response now ld p).reap now
  else if p.kind = 5 then (d.message ld p).reap now
  else d

/-- FAB_RESPONSE_TIMEOUT. -/
def Dev.responseTimeout (now : W64) (ld : Nat) (tag : BitVec 16) (d : Dev) : Dev :=
  let f := (d.ld ld).fab
  match f.reqs.find? fun r => r.tag == tag && decide (100 * f.timeout.toNat ≤ r.age) with
  | none => d
  | some r => ((d.modLd ld (Ld.setFabEvt 5)).reqFail now ld r eFabTimeout).reap now

def execPacketReceive (port : Nat) (pkt : Packet) : State → Result := onMemAt fun now => Dev.packetReceive now port pkt
def execFabResponseTimeout (ld : Nat) (tag : BitVec 16) : State → Result := onDevAt fun now => Dev.responseTimeout now ld tag

/-! ## Registers -/

/-- A write of `FAB_RT_ENTRY`: the entry of the DID in `FAB_RT_IDX` (R313, R326). -/
def Dev.routeWrite (ld : Nat) (v : W32) (d : Dev) : Dev :=
  let r : Route := { valid := v.getLsbD 31, n := BitVec.ofNat 2 (fld v 21 20), ports := BitVec.ofNat 20 (fld v 19 0) }
  let i := (d.ld ld).fab.rtIdx
  d.checked (.ld ld)
    (firstFail [(ld = 15, ePerm), (fld v 30 22 ≠ 0, eReservedNonzero), (r.list.any fun p => d.ldOfPort p != ld, ePerm),
      (i = (d.ld ld).lay.did, eRange)])
    (Dev.modFab ld fun f => { f with routes := Map.set f.routes i.toNat r })

/-- A write of `FAB_RT_IDX`. -/
def Dev.routeIndex (ld : Nat) (v : W32) (d : Dev) : Dev :=
  d.checked (.ld ld) (firstFail [(ld = 15, ePerm), (fld v 31 14 ≠ 0, eReservedNonzero)])
    (Dev.modFab ld fun f => { f with rtIdx := BitVec.ofNat 14 (fld v 13 0) })

/-- A write of `FAB_RSP_TIMEOUT`. -/
def Dev.fabTimeout (ld : Nat) (v : W32) (d : Dev) : Dev :=
  d.checked (.ld ld) (firstFail [(ld = 15, ePerm), (fld v 31 16 ≠ 0, eReservedNonzero), (fld v 15 0 = 0, eRange)])
    (Dev.modFab ld fun f => { f with timeout := BitVec.ofNat 16 (fld v 15 0) })

/-- A write of `FAB_EVT` (R327). -/
def Dev.fabEvt (ld : Nat) (v : W32) (d : Dev) : Dev :=
  d.checked (.ld ld) (firstFail [(fld v 31 6 ≠ 0, eReservedNonzero)])
    (Dev.modFab ld fun f => { f with evt := f.evt &&& ~~~(BitVec.ofNat 6 (fld v 5 0)) })

/-- A write of `GFT_SELF_n` (R320, R328). -/
def Dev.graftSelf (ld n : Nat) (v : W32) (d : Dev) : Dev :=
  let busy := d.colls.any (fun c => c.ld == n) || !(d.ld n).fab.reqs.isEmpty || d.net.held.any fun h => h.ld == n
  d.checked (.ld ld)
    (firstFail [(ld ≠ 15, ePerm), (fld v 31 14 ≠ 0, eReservedNonzero), (!(d.ld n).lay.populated ∨ 10 ≤ n, eRange), (busy, eState)])
    (Dev.modLd n fun l => { l with lay := { l.lay with ldid := BitVec.ofNat 14 (fld v 13 0) } })

def Dev.graft (d : Dev) (n : Nat) : Graft := Map.get d.grafts n Graft.init

/-- A graft entry that is given up: its logical DID is lost again in its LD (R322). -/
def Dev.ungraft (n : Nat) (d : Dev) : Dev :=
  let g := d.graft n
  if g.ld = 15 then d
  else
    let f := g.fromDid.toNat
    if d.isLost g.ld f then d else d.modFab g.ld fun x => { x with lost := x.lost ++ [(f, g.inc.getD 0)] }

/-- A write of `GFT_MAP_n` (R321, R328). -/
def Dev.graftMap (ld n : Nat) (v : W32) (d : Dev) : Dev :=
  let l := fld v 31 28
  let f := fld v 13 0
  let on := l ≠ 15
  let near := (d.portsOf l).any fun p => (d.port p).st == .active && (d.port p).nbrDid.toNat == f
  d.checked (.ld ld)
    (firstFail [(ld ≠ 15, ePerm), (10 ≤ l ∧ l ≤ 14, eRange), (on ∧ d.grafts.any fun g => g.2.ld == l && g.2.fromDid.toNat == f, eState),
      (on ∧ !d.isLost l f ∧ near, eState), (on ∧ (List.range 64).all fun k => (d.graft k).ld != 15, eGraftFull)])
    fun d =>
      let d := d.ungraft n
      let inc := (((d.ld l).fab.lost.find? fun x => x.1 == f).map Prod.snd)
      let g : Graft :=
        { ld := l, toDid := BitVec.ofNat 14 (fld v 27 14), fromDid := BitVec.ofNat 14 f, inc := if on then inc else none }
      let d := { d with grafts := Map.set d.grafts n g }
      if on then d.declareFound l f (inc.getD 0) none else d

/-- ROUTE_ENTRY_WRITE. -/
def execRouteEntryWrite (ag : Agent) (ld : Nat) (v : W32) : State → Result := onDev (Dev.pageWrite ag ld 0x9188 (Dev.routeWrite ld v))

/-- GRAFT_SELF_WRITE. -/
def execGraftSelfWrite (ag : Agent) (ld n : Nat) (v : W32) : State → Result :=
  onDev (guarded (decide (n < 10)) (Dev.pageWrite ag ld (0x9300 + 4 * n) (Dev.graftSelf ld n v)))

/-- GRAFT_ENTRY_WRITE. -/
def execGraftEntryWrite (ag : Agent) (ld n : Nat) (v : W32) : State → Result :=
  onDev (guarded (decide (n < 64)) (Dev.pageWrite ag ld (0x9200 + 4 * n) (Dev.graftMap ld n v)))

end Sys2Proof.Machine
end

