-- ==== Sys2Proof/Machine/RegRead.lean ====
section
/-! DEFINITION. What the registers of an LD page read (R440 to R442), register block by register block. -/

namespace Sys2Proof.Machine

/-- A sum of numbers. -/
def total (ns : List Nat) : Nat := ns.foldl (· + ·) 0

/-- The number whose set bits are those below n that satisfy a test. -/
def maskOf (n : Nat) (p : Nat → Bool) : Nat := total (((List.range n).filter p).map (2 ^ ·))

/-- The bytes at word i of a block of a table that begins at an offset. -/
def wordIndex (off base : Nat) : Nat := (off - base) / 4

/-- Whether an offset lies in an array of n words. -/
def inArray (off base n : Nat) : Bool := decide (base ≤ off) && decide (off < base + 4 * n)

/-! ## The LD registers (R36, R37, R39, R409, R441, R517) -/

def ldStateCode : LdState → Nat
  | .disabled => 0
  | .enabled => 1
  | .draining => 2
  | .resetting => 3

def Dev.ldStatus (d : Dev) (ld : Nat) : Nat :=
  let c := (d.ld ld).ctl
  c.failCode.toNat + 2 ^ 16 * c.cause.toNat + 2 ^ 28 * c.service + 2 ^ 30 * ldStateCode c.st

def Dev.ldRegs (d : Dev) (ld off : Nat) : Nat :=
  let x := d.ld ld
  let l := x.lay
  match off with
  | 0x00 => l.dieMask.toNat + 2 ^ 10 * maskOf 10 (fun n => l.dieMask.getLsbD n && (d.die n).joined) + 2 ^ 20 * l.ldClass.toNat
  | 0x04 => l.chanMask.toNat
  | 0x08 => l.portMask.toNat
  | 0x0C => x.ctl.errCode.toNat + 2 ^ 16 * x.ctl.errCount.toNat
  | 0x10 => x.ctl.drainUs.toNat + 2 ^ 30 * b2n x.ctl.enable
  | 0x14 => d.ldStatus ld
  | 0x18 => if ld = 15 then 0 else x.ctl.yieldUs.toNat
  | 0x1C => if ld = 15 then 0 else x.ctl.lateCount.toNat + 2 ^ 31 * b2n x.ctl.late
  | 0x20 => maskOf 10 fun n => (d.die n).absent && (ld == 15 || l.dieMask.getLsbD n)
  | _ => 0

/-! ## Queues and mailboxes (R444, R455, R456, R461) -/

def cqStateCode : CqState → Nat
  | .disabled => 0
  | .enabled => 1
  | .draining => 2

/-- Whether the completion ring holds the fetch (R449). -/
def Cq.hold (x : Cq) : Bool := x.st == .enabled && decide (2 ^ x.log2m - (x.prod - x.chead).toNat ≤ x.outstanding)

def Cq.read (x : Cq) (off : Nat) : Nat :=
  match off with
  | 0x00 => x.base.toNat % 2 ^ 32
  | 0x04 => x.base.toNat / 2 ^ 32
  | 0x08 => x.log2n + 2 ^ 16 * x.domain.toNat + 2 ^ 31 * b2n (x.st == .enabled)
  | 0x0C => x.tail.toNat
  | 0x10 => x.head.toNat
  | 0x14 => cqStateCode x.st + 2 ^ 2 * b2n x.hold + 2 ^ 16 * x.outstanding
  | 0x18 => x.cbase.toNat % 2 ^ 32
  | 0x1C => x.cbase.toNat / 2 ^ 32
  | 0x20 => x.log2m
  | 0x24 => x.chead.toNat
  | 0x28 => x.prod.toNat
  | _ => 0

def Ld.mbxRead (l : Ld) (off : Nat) : Nat :=
  if off < 0x800 then
    let x := l.mbx (off / 0x40)
    if off % 0x40 = 0x3C then x.nreg + 2 ^ 4 * b2n x.full else (x.data.getD (off % 0x40 / 4) 0).toNat
  else
    match off with
    | 0x800 => maskOf 32 fun m => (l.mbx m).full
    | 0x804 => l.host.mbxMask.toNat
    | 0x808 => l.host.mbxEmpty.toNat
    | _ => 0

def ReqCpl.read (x : ReqCpl) (off : Nat) : Nat :=
  match off with
  | 0x8010 => x.base.toNat % 2 ^ 32
  | 0x8014 => x.base.toNat / 2 ^ 32
  | 0x8018 => x.log2m + 2 ^ 31 * b2n x.enable
  | 0x801C => x.head.toNat
  | 0x8020 => x.prod.toNat
  | _ => 0

/-- The MSI-X table, and its pending-bit array: the bit of the vector whose message is held. -/
def Ld.msixRead (l : Ld) (off : Nat) : Nat :=
  if off < 0x1F1000 then
    let e := Map.get l.host.msix ((off - 0x1F0000) / 16) MsixEntry.init
    match off % 16 with
    | 0 => e.addr.toNat % 2 ^ 32
    | 4 => e.addr.toNat / 2 ^ 32
    | 8 => e.data.toNat
    | _ => b2n e.masked
  else
    match l.host.icu.hostWin with
    | some w => if w.vector / 32 = (off - 0x1F8000) / 4 then 2 ^ (w.vector % 32) else 0
    | none => 0

/-! ## Memory and KV registers (R213 to R217, R257 to R259) -/

def Dev.eccRegs (d : Dev) (ld off : Nat) : Nat :=
  let l := d.ld ld
  let u := l.selected
  let x := d.unit u
  let top := ld == 15
  match off with
  | 0x6000 => l.ecc.index.toNat + 2 ^ 8 * l.ecc.kind.toNat
  | 0x6004 => x.ce.toNat
  | 0x6008 => x.ue.toNat
  | 0x600C => x.odc.toNat
  | 0x6010 => x.last.addr.toNat % 2 ^ 32
  | 0x6014 => x.last.addr.toNat / 2 ^ 32
  | 0x6018 =>
    2 ^ 10 * x.last.ld.toNat + 2 ^ 14 * x.last.pch.toNat + 2 ^ 19 * x.last.symbol.toNat + 2 ^ 26 * x.last.req.toNat + 2 ^ 30 * x.last.kind.toNat
  | 0x601C => x.scrubbed * 65536 / unitCodewords u + 2 ^ 16 * x.passes.toNat
  | 0x6020 => x.lastCode.toNat + 2 ^ 16 * min 255 x.free + 2 ^ 31 * b2n x.busy
  | 0x6024 => l.ecc.evt.toNat
  | 0x6028 => if top then d.memCtl.ceRepair.toNat + 2 ^ 8 * d.memCtl.periodH.toNat + 2 ^ 16 * b2n d.memCtl.scrubEn else 0
  | 0x602C => if top then d.memCtl.repairAddr.toNat % 2 ^ 32 else 0
  | 0x6030 => if top then d.memCtl.repairAddr.toNat / 2 ^ 32 else 0
  | 0x6038 =>
    if top then maskOf 20 (fun n => (d.unit (.stack n)).failed) + 2 ^ 20 * maskOf 10 (fun n => (d.unit (.dieSram n)).failed) +
      2 ^ 30 * maskOf 2 fun n => (d.unit (.iodSram n)).failed else 0
  | 0x603C => if top then maskOf 24 fun n => (d.unit (.channel n)).failed else 0
  | _ => 0

/-- Whether an LD sees the registers of a unit, a die or a port of the LD `own`. -/
def sees (ld own : Nat) : Bool := ld == 15 || own == ld

def Dev.kvmRegs (d : Dev) (ld off : Nat) : Nat :=
  let m := (d.ld ld).kvm
  if inArray off 0x7000 20 then
    let n := wordIndex off 0x7000
    let r := Map.get d.stackRgn n Region.init
    if sees ld (d.ldOfDie (n / 2)) then r.base + 2 ^ 15 * r.count else 0
  else if inArray off 0x7050 24 then
    let n := wordIndex off 0x7050
    let r := Map.get d.lpRgn n Region.init
    if sees ld (d.ldOfChan n) then r.base + 2 ^ 16 * r.count else 0
  else if inArray off 0x70B4 10 then
    let n := wordIndex off 0x70B4
    if sees ld (d.ldOfDie n) then d.freeHandles n else 0
  else if inArray off 0x70DC 10 then
    let n := wordIndex off 0x70DC
    if sees ld (d.ldOfDie n) then d.freeIn (.stack (2 * n)) + 2 ^ 15 * d.freeIn (.stack (2 * n + 1)) else 0
  else if inArray off 0x7110 20 then
    let n := wordIndex off 0x7110
    let q := (Map.get d.score n []).length
    if sees ld (d.ldOfDie (n / 2)) then min 31 q + 2 ^ 31 * b2n (q != 0) else 0
  else
    match off with
    | 0x70B0 => m.lowPct.toNat + 2 ^ 8 * m.highPct.toNat + 2 ^ 16 * b2n m.demote + 2 ^ 17 * b2n m.promote
    | 0x7104 => d.lpFree ld % 2 ^ 20
    | 0x7108 => m.demotes.toNat + 2 ^ 16 * m.promotes.toNat
    | 0x710C => m.evt.toNat
    | _ => 0

/-! ## Requests (R294, R295) -/

def Dev.reqRegs (d : Dev) (ld off : Nat) : Nat :=
  let l := d.ld ld
  match off with
  | 0x8000 => Map.count d.reqs fun _ r => r.st != .free && sees ld r.ld
  | 0x8004 =>
    16384 - Map.count d.adapters (fun _ a => a.st != .free) +
      2 ^ 15 * Map.count d.adapters fun _ a => (a.st == .retiring || a.st == .zeroing) && sees ld a.ld
  | 0x8008 => l.wave.gen.toNat + 2 ^ 16 * b2n l.wave.active + 2 ^ 17 * b2n l.wave.stalled + 2 ^ 18 * l.wave.swapped
  | 0x800C => l.reqEvt.toNat
  | _ => l.host.reqCpl.read off

/-! ## The fabric (R323 to R328) -/

def portStateCode : PortState → Nat
  | .off => 0
  | .detect => 1
  | .train => 2
  | .active => 3
  | .fault => 4

def Port.status (x : Port) : Nat :=
  portStateCode x.st + 2 ^ 3 * x.width.toNat + 2 ^ 5 * b2n x.rate + 2 ^ 6 * b2n x.reversed + 2 ^ 7 * x.pol.toNat +
    2 ^ 11 * x.lanesGood.toNat + 2 ^ 15 * x.reason.toNat + 2 ^ 18 * x.nbrDid.toNat

def Dev.fabRegs (d : Dev) (ld off : Nat) : Nat :=
  let l := d.ld ld
  let f := l.fab
  let top := ld == 15
  if inArray off 0x9000 32 then
    let n := wordIndex off 0x9000
    if sees ld (d.ldOfPort n) then b2n (d.port n).enable + 2 * b2n (d.port n).halfOk else 0
  else if inArray off 0x9080 32 then
    let n := wordIndex off 0x9080
    if sees ld (d.ldOfPort n) then (d.port n).status else 0
  else if inArray off 0x9100 32 then
    let n := wordIndex off 0x9100
    if sees ld (d.ldOfPort n) then (d.port n).fecFix.toNat + 2 ^ 16 * (d.port n).replays.toNat else 0
  else if inArray off 0x9200 64 then
    let g := d.graft (wordIndex off 0x9200)
    if top then g.fromDid.toNat + 2 ^ 14 * g.toDid.toNat + 2 ^ 28 * g.ld else 0
  else if inArray off 0x9300 10 then
    let n := wordIndex off 0x9300
    if top && (d.ld n).lay.populated then (d.ld n).lay.ldid.toNat else 0
  else if off = 0x9194 then f.evt.toNat
  else if top then 0
  else
    match off with
    | 0x9180 => l.lay.did.toNat + 2 ^ 14 * l.lay.ldid.toNat
    | 0x9184 => f.rtIdx.toNat
    | 0x9188 =>
      let r := l.route f.rtIdx.toNat
      r.ports.toNat + 2 ^ 20 * r.n.toNat + 2 ^ 31 * b2n r.valid
    | 0x918C => f.timeout.toNat
    | 0x9190 => f.lastLost.toNat + 2 ^ 16 * f.lostCount.toNat
    | _ => 0

/-! ## Collectives (R365 to R367) -/

def Dev.colRegs (d : Dev) (ld off : Nat) : Nat :=
  let l := d.ld ld
  let mine := d.colls.filter fun c => c.ld == ld
  match off with
  | 0xA008 => if ld = 15 then (rakeSlots - (d.rakeHeld 0).length) + 2 ^ 16 * (rakeSlots - (d.rakeHeld 1).length) else 0
  | 0xA018 => l.col.evt.toNat
  | _ =>
    if ld = 15 then 0
    else
      match off with
      | 0xA000 => l.lay.quota0 + 2 ^ 16 * l.lay.quota1
      | 0xA004 => d.rakeUsed ld 0 + 2 ^ 16 * d.rakeUsed ld 1
      | 0xA00C => mine.length + 2 ^ 16 * (mine.filter fun c => !c.granted).length
      | 0xA014 => l.col.crcRetry.toNat + 2 ^ 16 * l.col.rereduce.toNat
      | _ => 0

/-! ## Updates, difference streams and time (R62, R406 to R409) -/

/-- `TMR_ELAPSED` is in every LD, the other registers of the block in each compute LD. -/
def Dev.updRegs (d : Dev) (now : W64) (ld off : Nat) : Nat :=
  let x := (d.ld ld).upd
  let t := d.dfsT ld x.dfsSel.toNat
  match off with
  | 0xB040 => now.toNat % 2 ^ 32
  | 0xB044 => now.toNat / 2 ^ 32
  | _ =>
    if ld = 15 then 0
    else
      match off with
      | 0xB000 => min 65535 (d.upds.filter fun c => c.ld == ld).length + 2 ^ 16 * maskOf 10 fun n => (d.running n).any fun c => c.ld == ld
      | 0xB008 => x.mism.toNat + 2 ^ 16 * x.rollfwd.toNat
      | 0xB00C => x.repLimit.toNat + 2 ^ 8 * b2n x.autoRepair
      | 0xB010 => x.lastGpi.toNat % 2 ^ 32
      | 0xB014 => x.lastGpi.toNat / 2 ^ 32 + 2 ^ 16 * x.lastDid.toNat + 2 ^ 31 * b2n x.ownerSide
      | 0xB018 => x.evt.toNat
      | 0xB020 => x.dfsSel.toNat
      | 0xB024 => t.wdMs.toNat + 2 ^ 16 * t.did.toNat + 2 ^ 30 * b2n t.kind + 2 ^ 31 * b2n t.enable
      | 0xB028 => t.base.toNat % 2 ^ 32
      | 0xB02C => t.base.toNat / 2 ^ 32
      | 0xB030 => t.log2 + 2 ^ 16 * t.domain.toNat
      | 0xB034 => 2 ^ 30 * b2n t.waiting + 2 ^ 31 * b2n t.broken
      | 0xB038 => t.seq.toNat % 2 ^ 32
      | 0xB03C => t.seq.toNat / 2 ^ 32
      | 0xB048 => x.phBase.toNat % 2 ^ 32
      | 0xB04C => x.phBase.toNat / 2 ^ 32
      | 0xB050 => x.phLog2
      | 0xB054 => x.phHead.toNat
      | 0xB058 => x.phTail.toNat
      | 0xB05C => x.phDrop.toNat
      | _ => 0

/-! ## Trellises and turns (R432 to R434) -/

def xplStateCode : XplState → Nat
  | .idle => 0
  | .running => 1
  | .part => 2

def xplPhaseCode : XplPhase → Nat
  | .none => 0
  | .save => 1
  | .move => 2
  | .ready => 3

def Dev.trlRegs (d : Dev) (ld off : Nat) : Nat :=
  let x := (d.ld ld).trl
  let t := x.turn
  let s := x.active.bind fun one => (d.ld ld).slot one
  if ld = 15 then 0
  else
    match off with
    | 0xC000 =>
      b2n x.slot0.isSome + 2 * b2n x.slot1.isSome + 4 * b2n x.active.isSome + 8 * b2n (x.active == some true) + 16 * b2n (s.any fun s => (d.trlOf s).layout)
    | 0xC004 => x.slot0.elim 0 fun s => s.digest.toNat
    | 0xC008 => x.slot1.elim 0 fun s => s.digest.toNat
    | 0xC00C => t.coord + 2 ^ 28 * xplPhaseCode t.phase + 2 ^ 30 * xplStateCode t.st
    | 0xC010 => t.committed % 2 ^ 16 + 2 ^ 16 * (t.total - 1)
    | 0xC018 => x.evt.toNat
    | _ => 0

/-! ## Power (R55 to R58) -/

def Dev.dieStatus (d : Dev) (n : Nat) : Nat :=
  let x := d.die n
  x.vcore + 2 ^ 10 * x.tj + 2 ^ 18 * x.pacing + 2 ^ 22 * x.tap + 2 ^ 28 * b2n x.pinned + 2 ^ 29 * b2n x.conservative + 2 ^ 30 * b2n x.marginLost

def Dev.pwrRegs (d : Dev) (ld off : Nat) : Nat :=
  if inArray off 0xD008 10 then
    let n := wordIndex off 0xD008
    if sees ld (d.ldOfDie n) then d.dieStatus n else 0
  else if inArray off 0xD030 10 then
    let n := wordIndex off 0xD030
    if sees ld (d.ldOfDie n) then (d.die n).trips.toNat else 0
  else if ld ≠ 15 then 0
  else
    match off with
    | 0xD000 => d.pwr.hostLimit.toNat + 2 ^ 12 * b2n d.pwr.boostEn
    | 0xD004 =>
      let (w, src) := d.limit
      d.pwr.draw.toNat + 2 ^ 12 * w + 2 ^ 25 * src + 2 ^ 27 * b2n (dieNumbers.any fun n => (d.die n).pacing != 0) +
        2 ^ 28 * b2n d.atFloor + 2 ^ 29 * b2n d.pwr.pinBroken
    | _ => 0

/-! ## Security (R490) -/

def domStateCode : DomState → Nat
  | .closed => 0
  | .open => 1
  | .closing => 2

def State.secRegs (s : State) (ld off : Nat) : Nat :=
  let d := s.dev
  let l := d.ld ld
  let n := l.sec.domSel.toNat
  let x := d.dom n
  let ranged := l.lay.domCount != 0
  match off with
  | 0xE000 => (1048576 - s.vault.leaves) + 2 ^ 30 * b2n d.crypto.l2Busy + 2 ^ 31 * b2n d.crypto.attestOk
  | 0xE004 => d.crypto.l2Left % 2 ^ 16
  | 0xE028 => l.sec.evt.toNat
  | _ =>
    if !ranged then 0
    else
      match off with
      | 0xE008 => l.lay.domBase + 2 ^ 16 * l.lay.domCount
      | 0xE00C => n
      | 0xE010 => 2 ^ 29 * b2n x.dfsKey.isSome + 2 ^ 30 * domStateCode x.st
      | 0xE014 => x.kvQ
      | 0xE018 => d.kvUsed n
      | 0xE01C => x.reqQ
      | 0xE020 => Map.count d.reqs fun _ r => r.st != .free && r.dom == n
      | 0xE024 => x.rakeQ + 2 ^ 16 * d.rakeDom n
      | _ => 0

/-! ## Start and drain (R505, R518, R519) -/

/-- `DEV_FALLOW_REASON`: zero while the device is not fallow. -/
def Boot.reason (b : Boot) : Nat :=
  if b.stage ≠ .fallow then 0
  else if b.probe ≠ 0 then eNvmAbsent.toNat + 2 ^ 16 * b.probe.val
  else b.rec_.elim 0 fun r => r.code.toNat + 2 ^ 16 * r.detail.toNat + 2 ^ 24 * r.count

def Dev.bootStatus (d : Dev) : Nat :=
  d.boot.failCode.toNat + 2 ^ 16 * d.startCount + 2 ^ 29 * (d.ld 15).ctl.service + 2 ^ 31 * b2n (d.boot.stage == .fallow)

def Dev.bootRegs (d : Dev) (ld off : Nat) : Nat :=
  match off with
  | 0xF000 => d.bootStatus
  | 0xF004 => d.boot.l2At.toNat % 2 ^ 32
  | 0xF008 => d.boot.l2At.toNat / 2 ^ 32
  | 0xF00C => (d.ld ld).ctl.bootEvt.toNat
  | 0xF804 => if ld = 15 then d.boot.reason else 0
  | 0xF808 => maskOf 32 fun p => (d.port p).draining && sees ld (d.ldOfPort p)
  | _ => 0

/-! ## The page -/

/-- The present value of the register at an offset of an LD page; zero where none is assigned. -/
def State.pageValue (s : State) (ld off : Nat) : Nat :=
  let d := s.dev
  if off < 0x1000 then d.ldRegs ld off
  else if off < 0x3000 then (d.icuRead (.ld ld) (off - 0x1000)).getD 0
  else if 0x4000 ≤ off ∧ off < 0x5000 then ((d.ld ld).cq ((off - 0x4000) / 0x40)).read (off % 0x40)
  else if 0x5000 ≤ off ∧ off < 0x6000 then (d.ld ld).mbxRead (off - 0x5000)
  else if 0x6000 ≤ off ∧ off < 0x7000 then d.eccRegs ld off
  else if 0x7000 ≤ off ∧ off < 0x8000 then d.kvmRegs ld off
  else if 0x8000 ≤ off ∧ off < 0x9000 then d.reqRegs ld off
  else if 0x9000 ≤ off ∧ off < 0xA000 then d.fabRegs ld off
  else if 0xA000 ≤ off ∧ off < 0xB000 then d.colRegs ld off
  else if 0xB000 ≤ off ∧ off < 0xC000 then d.updRegs s.now ld off
  else if 0xC000 ≤ off ∧ off < 0xD000 then d.trlRegs ld off
  else if 0xD000 ≤ off ∧ off < 0xE000 then d.pwrRegs ld off
  else if 0xE000 ≤ off ∧ off < 0xF000 then s.secRegs ld off
  else if 0xF000 ≤ off ∧ off < 0x10000 then d.bootRegs ld off
  else if (0x1F0000 ≤ off ∧ off < 0x1F1000) ∨ (0x1F8000 ≤ off ∧ off < 0x1F8020) then (d.ld ld).msixRead off
  else 0

end Sys2Proof.Machine
end

