-- ==== Sys2Proof/Machine/Registers.lean ====
section
/-! DEFINITION. Writes of the registers that have no row of their own, the dispatch of a write over a page, and
REGISTER_WRITE and LO_READ_LATCH (R9 to R13, R35, R440 to R443). -/

namespace Sys2Proof.Machine

/-! ## Registers of the blocks -/

/-- A write of a W1C event register of n bits: `clear` receives the bits written. -/
def Dev.evtWrite (ld n : Nat) (v : W32) (clear : Nat → Ld → Ld) (d : Dev) : Dev :=
  d.checked (.ld ld) (firstFail [(v.toNat / 2 ^ n ≠ 0, eReservedNonzero)]) (Dev.modLd ld (clear v.toNat))

/-- A write of a register that the image fixes: `LD_LAYOUT` and the like (R35). -/
def Dev.fixedWrite (ld reserved value : Nat) (v : W32) (d : Dev) : Dev :=
  d.checked (.ld ld) (firstFail [(v.toNat &&& reserved ≠ 0, eReservedNonzero), (v.toNat ≠ value, ePerm)]) id

/-- A write of a read-only register: ignored, but for its reserved bits (R11, R12). -/
def Dev.roWrite (ld reserved : Nat) (v : W32) (d : Dev) : Dev :=
  d.checked (.ld ld) (firstFail [(v.toNat &&& reserved ≠ 0, eReservedNonzero)]) id

/-- A write of `LD_CC_CTL` (R409). -/
def Dev.ccCtl (ld : Nat) (v : W32) (d : Dev) : Dev :=
  d.checked (.ld ld) (firstFail [(ld = 15, ePerm), (fld v 31 16 ≠ 0, eReservedNonzero), (fld v 15 0 = 0, eRange)])
    (Dev.modLd ld fun l => { l with ctl := { l.ctl with yieldUs := BitVec.ofNat 16 (fld v 15 0) } })

/-- A write of `LD_CC_STAT` (R409). -/
def Dev.ccStat (ld : Nat) (v : W32) (d : Dev) : Dev :=
  d.checked (.ld ld) (firstFail [(ld = 15, ePerm), (fld v 30 16 ≠ 0, eReservedNonzero)])
    (Dev.modLd ld fun l => { l with ctl := { l.ctl with late := l.ctl.late && !v.getLsbD 31 } })

/-- A write of `UPD_FP_CTL` (R406). -/
def Dev.fpCtl (ld : Nat) (v : W32) (d : Dev) : Dev :=
  d.checked (.ld ld) (firstFail [(fld v 31 9 ≠ 0, eReservedNonzero), (fld v 7 0 = 0, eRange)])
    (Dev.modLd ld fun l => { l with upd := { l.upd with autoRepair := v.getLsbD 8, repLimit := BitVec.ofNat 8 (fld v 7 0) } })

/-- A write of `DFS_SEL` (R408). -/
def Dev.dfsSel (ld : Nat) (v : W32) (d : Dev) : Dev :=
  d.checked (.ld ld) (firstFail [(fld v 31 3 ≠ 0, eReservedNonzero)])
    (Dev.modLd ld fun l => { l with upd := { l.upd with dfsSel := BitVec.ofNat 3 (fld v 2 0) } })

/-- A write of `DFS_BASE_LO` or `DFS_BASE_HI` of the selected target (R408, R438). -/
def Dev.dfsBase (ag : Agent) (ld : Nat) (hi : Bool) (v : W32) (d : Dev) : Dev :=
  let n := (d.ld ld).upd.dfsSel.toNat
  let t := d.dfsT ld n
  if hi then
    let a := pairNat (d.heldLo ag (.ld ld) 0xB028) v
    d.checked (.ld ld) (firstFail [(!t.kind && fld v 31 20 != 0, eRange), (t.enable && a != t.base.toNat, eState)])
      (Dev.modDfs ld n fun t => { t with base := BitVec.ofNat 64 a })
  else
    d.checked (.ld ld) (firstFail [(v.toNat % 64 ≠ 0, eAlign), (t.enable && v != t.base.setWidth 32, eState)]) (Dev.holdLo ag (.ld ld) 0xB028 v)

/-- A write of `DFS_CFG` of the selected target (R408). -/
def Dev.dfsCfg (ld : Nat) (v : W32) (d : Dev) : Dev :=
  let n := (d.ld ld).upd.dfsSel.toNat
  let t := d.dfsT ld n
  let k := fld v 5 0
  d.checked (.ld ld)
    (firstFail [(fld v 31 28 ≠ 0 ∨ fld v 15 6 ≠ 0, eReservedNonzero), (k < 24 ∨ 40 < k, eRange),
      (t.enable && (k != t.log2 || fld v 27 16 != t.domain.toNat), eState)])
    (Dev.modDfs ld n fun t => { t with log2 := k, domain := BitVec.ofNat 12 (fld v 27 16) })

/-- A write of a register of the phase ring (R409). -/
def Dev.phaseRing (ag : Agent) (ld off : Nat) (v : W32) (d : Dev) : Dev :=
  let x := (d.ld ld).upd
  let set := fun (f : UpdRegs → UpdRegs) => Dev.modLd ld fun l => { l with upd := f l.upd }
  match off with
  | 0xB048 => d.checked (.ld ld) (firstFail [(v.toNat % 32 ≠ 0, eAlign)]) (Dev.holdLo ag (.ld ld) 0xB048 v)
  | 0xB04C => set (fun u => { u with phBase := BitVec.ofNat 64 (pairNat (d.heldLo ag (.ld ld) 0xB048) v) }) d
  | 0xB050 =>
    d.checked (.ld ld) (firstFail [(fld v 31 5 ≠ 0, eReservedNonzero), (fld v 4 0 < 4 ∨ 20 < fld v 4 0, eRange)])
      (set fun u => { u with phLog2 := fld v 4 0 })
  | 0xB058 => d.checked (.ld ld) (firstFail [(2 ^ x.phLog2 < (x.phHead - v).toNat, eRange)]) (set fun u => { u with phTail := v })
  | _ => d

/-- A write of `PWR_STATUS` (R56). -/
def Dev.pwrStatus (ld : Nat) (v : W32) (d : Dev) : Dev :=
  if ld = 15 then
    d.checked (.ld ld) (firstFail [(fld v 31 30 ≠ 0, eReservedNonzero)])
      fun d => { d with pwr := { d.pwr with pinBroken := d.pwr.pinBroken && !v.getLsbD 29 } }
  else d

/-- A write of `SEC_DOM_SEL` (R490). -/
def Dev.domSelect (ld : Nat) (v : W32) (d : Dev) : Dev :=
  d.checked (.ld ld) (firstFail [(fld v 31 12 ≠ 0, eReservedNonzero), (!d.ownsDom ld (fld v 11 0), ePerm)])
    (Dev.modLd ld fun l => { l with sec := { l.sec with domSel := BitVec.ofNat 12 (fld v 11 0) } })

/-- A write of a word of the MSI-X table (R461). -/
def Dev.msixWrite (ld off : Nat) (v : W32) (d : Dev) : Dev :=
  let n := (off - 0x1F0000) / 16
  d.modLd ld fun l =>
    let e := Map.get l.host.msix n MsixEntry.init
    let e := match off % 16 with
      | 0 => { e with addr := BitVec.ofNat 64 (v.toNat + e.addr.toNat / 2 ^ 32 * 2 ^ 32) }
      | 4 => { e with addr := BitVec.ofNat 64 (e.addr.toNat % 2 ^ 32 + v.toNat * 2 ^ 32) }
      | 8 => { e with data := v }
      | _ => { e with masked := v.getLsbD 0 }
    { l with host := { l.host with msix := Map.set l.host.msix n e } }

/-! ## The dispatch over a page (R442) -/

def Dev.ldRegWrite (now : W64) (ld off : Nat) (v : W32) (d : Dev) : Dev :=
  match off with
  | 0x00 => d.fixedWrite ld 0xFF000000 (d.ldRegs ld 0) v
  | 0x04 => d.fixedWrite ld 0xFF000000 (d.ldRegs ld 4) v
  | 0x08 => d.fixedWrite ld 0 (d.ldRegs ld 8) v
  | 0x0C => d.errWrite ld v
  | 0x10 => d.ldCtl now ld v
  | 0x14 => d.roWrite ld 0x0FF00000 v
  | 0x18 => d.ccCtl ld v
  | 0x1C => d.ccStat ld v
  | 0x20 => d.roWrite ld 0xFFFFFC00 v
  | _ => d.ldErr ld eRange

def Dev.eccRegWrite (ag : Agent) (ld off : Nat) (v : W32) (d : Dev) : Dev :=
  match off with
  | 0x6000 => d.eccSel ld v
  | 0x6004 | 0x6008 | 0x600C | 0x6010 | 0x601C => d
  | 0x6014 => d.roWrite ld 0xFFFFF000 v
  | 0x6018 => d.roWrite ld 0x3FF v
  | 0x6020 => d.roWrite ld 0x7F000000 v
  | 0x6024 => d.eccEvtWrite ld v
  | 0x6028 => d.scrubCtl ld v
  | 0x602C => d.repairAddr ag ld false v
  | 0x6030 => d.repairAddr ag ld true v
  | 0x6034 => d.repairCmd ld v
  | 0x6038 => if ld = 15 then d else d.ldErr ld ePerm
  | 0x603C => if ld = 15 then d.roWrite ld 0xFF000000 v else d.ldErr ld ePerm
  | _ => d.ldErr ld eRange

/-- A read-only register of a unit: an LD that does not see it is rejected (R257, R323). -/
def Dev.ownedRo (ld own reserved : Nat) (v : W32) (d : Dev) : Dev := if sees ld own then d.roWrite ld reserved v else d.ldErr ld ePerm

def Dev.kvmRegWrite (ld off : Nat) (v : W32) (d : Dev) : Dev :=
  if inArray off 0x7000 20 then d.kvmRegion ld false (wordIndex off 0x7000) v
  else if inArray off 0x7050 24 then d.kvmRegion ld true (wordIndex off 0x7050) v
  else if off = 0x70B0 then d.kvmPolicy ld v
  else if inArray off 0x70B4 10 then d.ownedRo ld (d.ldOfDie (wordIndex off 0x70B4)) 0xFFFC0000 v
  else if inArray off 0x70DC 10 then d.ownedRo ld (d.ldOfDie (wordIndex off 0x70DC)) 0xC0000000 v
  else if off = 0x7104 then d.roWrite ld 0xFFF00000 v
  else if off = 0x7108 then d
  else if off = 0x710C then d.kvmEvt ld v
  else if inArray off 0x7110 20 then d.ownedRo ld (d.ldOfDie (wordIndex off 0x7110 / 2)) 0x7FFFFFE0 v
  else d.ldErr ld eRange

def Dev.reqRegWrite (ag : Agent) (ld off : Nat) (v : W32) (d : Dev) : Dev :=
  match off with
  | 0x8000 => d.roWrite ld 0xFFF80000 v
  | 0x8004 => d.roWrite ld 0xC0000000 v
  | 0x8008 => d.roWrite ld 0xE0000000 v
  | 0x800C => d.evtWrite ld 4 v fun b l => { l with reqEvt := l.reqEvt &&& ~~~(BitVec.ofNat 4 b) }
  | 0x8010 | 0x8014 | 0x8018 | 0x801C => d.reqRingWrite ag ld off v
  | 0x8020 => d
  | _ => d.ldErr ld eRange

def Dev.fabRegWrite (now : W64) (ld off : Nat) (v : W32) (d : Dev) : Dev :=
  if inArray off 0x9000 32 then d.portCtl now ld (wordIndex off 0x9000) v
  else if inArray off 0x9080 32 then d.ownedRo ld (d.ldOfPort (wordIndex off 0x9080)) 0 v
  else if inArray off 0x9100 32 then d.ownedRo ld (d.ldOfPort (wordIndex off 0x9100)) 0 v
  else if inArray off 0x9200 64 then d.graftMap ld (wordIndex off 0x9200) v
  else if inArray off 0x9300 10 then d.graftSelf ld (wordIndex off 0x9300) v
  else
    match off with
    | 0x9180 => if ld = 15 then d.ldErr ld ePerm else d.fixedWrite ld 0xF0000000 (d.fabRegs ld off) v
    | 0x9184 => d.routeIndex ld v
    | 0x9188 => d.routeWrite ld v
    | 0x918C => d.fabTimeout ld v
    | 0x9190 => if ld = 15 then d.ldErr ld ePerm else d.roWrite ld 0xC000 v
    | 0x9194 => d.fabEvt ld v
    | _ => d.ldErr ld eRange

def Dev.colRegWrite (ld off : Nat) (v : W32) (d : Dev) : Dev :=
  match off with
  | 0xA008 => d.roWrite ld 0xC000C000 v
  | 0xA010 => d.colAbort ld v
  | 0xA018 => d.evtWrite ld 5 v fun b l => { l with col := { l.col with evt := l.col.evt &&& ~~~(BitVec.ofNat 5 b) } }
  | 0xA000 | 0xA004 => if ld = 15 then d.ldErr ld ePerm else d.roWrite ld 0xC000C000 v
  | 0xA00C => if ld = 15 then d.ldErr ld ePerm else d.roWrite ld 0xE000E000 v
  | 0xA014 => if ld = 15 then d.ldErr ld ePerm else d
  | _ => d.ldErr ld eRange

/-- Whether an offset of the update block is assigned. -/
def updAssigned (off : Nat) : Bool := off % 4 == 0 && decide (off < 0xB060) && off != 0xB01C

def Dev.updRegWrite (ag : Agent) (now : W64) (ld off : Nat) (v : W32) (d : Dev) : Dev :=
  if !updAssigned off then d.ldErr ld eRange
  else if off = 0xB040 ∨ off = 0xB044 then d
  else if ld = 15 then d.ldErr ld ePerm
  else
    match off with
    | 0xB000 => d.roWrite ld 0xFC000000 v
    | 0xB004 => d.updAbort now ld v
    | 0xB00C => d.fpCtl ld v
    | 0xB014 => d.roWrite ld 0x40000000 v
    | 0xB018 => d.evtWrite ld 7 v fun b l => { l with upd := { l.upd with evt := l.upd.evt &&& ~~~(BitVec.ofNat 7 b) } }
    | 0xB020 => d.dfsSel ld v
    | 0xB024 => d.dfsCtl now ld v
    | 0xB028 => d.dfsBase ag ld false v
    | 0xB02C => d.dfsBase ag ld true v
    | 0xB030 => d.dfsCfg ld v
    | 0xB034 => d.roWrite ld 0x3FFFFFFF v
    | _ => d.phaseRing ag ld off v

def Dev.trlRegWrite (ld off : Nat) (v : W32) (d : Dev) : Dev :=
  if off % 4 ≠ 0 ∨ 0xC01C ≤ off then d.ldErr ld eRange
  else if ld = 15 then d.ldErr ld ePerm
  else
    match off with
    | 0xC000 => d.roWrite ld 0xFFFFFFE0 v
    | 0xC00C => d.roWrite ld 0x0FFFC000 v
    | 0xC014 => d.xplCtl ld v
    | 0xC018 => d.evtWrite ld 3 v fun b l => { l with trl := { l.trl with evt := l.trl.evt &&& ~~~(BitVec.ofNat 3 b) } }
    | _ => d

def Dev.pwrRegWrite (ld off : Nat) (v : W32) (d : Dev) : Dev :=
  if inArray off 0xD008 10 then d.roWrite ld 0x80000000 v
  else if inArray off 0xD030 10 then d.roWrite ld 0xFFFF0000 v
  else
    match off with
    | 0xD000 => d.pwrLimit ld v
    | 0xD004 => d.pwrStatus ld v
    | _ => d.ldErr ld eRange

def Dev.secRegWrite (ld off : Nat) (v : W32) (d : Dev) : Dev :=
  match off with
  | 0xE000 => d.roWrite ld 0x3FE00000 v
  | 0xE004 => d.roWrite ld 0xFFFF0000 v
  | 0xE008 => d.roWrite ld 0xE000F000 v
  | 0xE00C => d.domSelect ld v
  | 0xE010 => d.roWrite ld 0x1FFFFFFF v
  | 0xE014 | 0xE018 => d.roWrite ld 0xFFE00000 v
  | 0xE01C | 0xE020 => d.roWrite ld 0xFFF80000 v
  | 0xE024 => d.roWrite ld 0x80008000 v
  | 0xE028 => d.evtWrite ld 6 v fun b l => { l with sec := { l.sec with evt := l.sec.evt &&& ~~~(BitVec.ofNat 6 b) } }
  | _ => d.ldErr ld eRange

def Dev.bootRegWrite (now : W64) (ld off : Nat) (v : W32) (d : Dev) : Dev :=
  match off with
  | 0xF000 => d.roWrite ld 0x1F000000 v
  | 0xF004 | 0xF008 | 0xF808 => d
  | 0xF00C => d.evtWrite ld 4 v fun b l => { l with ctl := { l.ctl with bootEvt := l.ctl.bootEvt &&& ~~~(BitVec.ofNat 4 b) } }
  | 0xF800 => d.devCtl now ld v
  | 0xF804 => if ld = 15 then d else d.ldErr ld ePerm
  | _ => d.ldErr ld eRange

/-- A write of a whole word at an offset of an LD page. -/
def Dev.pagePut (ag : Agent) (now : W64) (ld off : Nat) (v : W32) (d : Dev) : Dev :=
  if off < 0x1000 then d.ldRegWrite now ld off v
  else if off < 0x3000 then d.icuWrite (.ld ld) (.ld ld) (off - 0x1000) v
  else if 0x4000 ≤ off ∧ off < 0x5000 then d.cqWrite ag now ld ((off - 0x4000) / 0x40) (off % 0x40) v
  else if 0x5000 ≤ off ∧ off < 0x6000 then d.mbxWrite ag ld (off - 0x5000) v
  else if 0x6000 ≤ off ∧ off < 0x7000 then d.eccRegWrite ag ld off v
  else if 0x7000 ≤ off ∧ off < 0x8000 then d.kvmRegWrite ld off v
  else if 0x8000 ≤ off ∧ off < 0x9000 then d.reqRegWrite ag ld off v
  else if 0x9000 ≤ off ∧ off < 0xA000 then d.fabRegWrite now ld off v
  else if 0xA000 ≤ off ∧ off < 0xB000 then d.colRegWrite ld off v
  else if 0xB000 ≤ off ∧ off < 0xC000 then d.updRegWrite ag now ld off v
  else if 0xC000 ≤ off ∧ off < 0xD000 then d.trlRegWrite ld off v
  else if 0xD000 ≤ off ∧ off < 0xE000 then d.pwrRegWrite ld off v
  else if 0xE000 ≤ off ∧ off < 0xF000 then d.secRegWrite ld off v
  else if 0xF000 ≤ off ∧ off < 0x10000 then d.bootRegWrite now ld off v
  else if 0x1F0000 ≤ off ∧ off < 0x1F1000 then d.msixWrite ld off v
  else if 0x1F8000 ≤ off ∧ off < 0x1F8020 then d
  else d.ldErr ld eRange

/-! ## Accesses -/

/-- REGISTER_WRITE: `bytes` at an offset. Ports that are no longer enabled may have held their LD below level 2
(R502). -/
def State.regWrite (ag : Agent) (pg : RegPage) (off bytes : Nat) (v : W32) (s : State) : State :=
  match pg with
  | .ld n =>
    let whole := off % 4 == 0 && bytes == 4
    if reachesPage ag n ∧ s.dev.pageMode n ≠ .absent ∧ !whole then { s with dev := s.dev.ldErr n eAlign }
    else
      let s : State := { s with dev := s.dev.pageWrite ag n off (Dev.pagePut ag s.now n off v) }
      if inArray off 0x9000 32 then s.levels else s
  | .clu n =>
    if !s.dev.reachesBlock ag n ∨ 0x4000 ≤ off then s
    else if bytes ≠ 4 then { s with dev := s.dev.cluErr n eAlign }
    else { s with dev := s.dev.cluWriteBy n off v }

def execRegisterWrite (ag : Agent) (page : RegPage) (off bytes : Nat) (v : W32) (s : State) : Result :=
  .next (s.regWrite ag page off bytes v)

/-- The LO offsets of the 64-bit pairs of an LD page. -/
def isLo (off : Nat) : Bool :=
  (decide (0x4000 ≤ off) && decide (off < 0x5000) && (off % 0x40 == 0 || off % 0x40 == 0x18)) ||
    [0x6010, 0x602C, 0x6038, 0x8010, 0xB010, 0xB028, 0xB038, 0xB040, 0xB048, 0xF004].contains off

/-- What a read of an LD page returns (R10, R440, R502, R504, R509); none when the page does not answer. -/
def State.pageRead (ag : Agent) (ld off bytes : Nat) (s : State) : State × Option Nat :=
  let d := s.dev
  if !reachesPage ag ld then (s, none)
  else if d.pageMode ld = .absent then (s, none)
  else if off % 4 ≠ 0 ∨ bytes ≠ 4 then ({ s with dev := d.ldErr ld eAlign }, some 0)
  else if d.pageMode ld = .resetting then (s, some (if off = 0x14 ∨ off = 0xF000 then s.pageValue ld off else 0))
  else if d.pageMode ld = .minimal ∧ !d.minimalOk off then (s, some 0)
  else if isLo off then ({ s with dev := d.latch ag (.ld ld) off (BitVec.ofNat 32 (s.pageValue ld (off + 4))) }, some (s.pageValue ld off))
  else if 4 ≤ off ∧ isLo (off - 4) then (s, some (d.latched ag (.ld ld) (off - 4)).toNat)
  else (s, some (s.pageValue ld off))

/-- LO_READ_LATCH: a register read of `bytes` bytes. The data goes to the agent that reads; a read that is no whole
aligned word reads zero and records E_ALIGN (R174, R440). -/
def State.regRead (ag : Agent) (pg : RegPage) (off bytes : Nat) (s : State) : State :=
  let answer := fun (s : State) (v : Nat) => ({ s with dev := s.dev.emit (.regData ag pg off (BitVec.ofNat 32 v)) } : State)
  match ag, pg with
  | .i3c, _ => if s.dev.pins.standby then answer s (s.dev.bcRead off).toNat else s
  | ag, .ld n =>
    match s.pageRead ag n off bytes with
    | (s, some v) => answer s v
    | (s, none) => s
  | ag, .clu n =>
    if s.dev.reachesBlock ag n ∧ off < 0x4000 then
      if bytes ≠ 4 then answer { s with dev := s.dev.cluErr n eAlign } 0
      else
        let (d, v) := s.dev.cluReadBy ag n off
        answer { s with dev := d } v
    else s

def execLoReadLatch (ag : Agent) (page : RegPage) (rd : RegSpan) (s : State) : Result :=
  .next (s.regRead ag page rd.off rd.bytes)

end Sys2Proof.Machine
end

