-- ==== Sys2Proof/Machine/Dispatch.lean ====
section
/-! DEFINITION. The dispatcher: one arm per command. -/

namespace Sys2Proof.Machine

def exec (i : Instr) (s : State) : Host.Outcome State Fault Refusal :=
  match i with
  | .registerWrite ag page off bytes v => Sys2Proof.Machine.execRegisterWrite ag page off bytes v s
  | .loReadLatch ag page rd => Sys2Proof.Machine.execLoReadLatch ag page rd s
  | .ldErrClear ag ld v => Sys2Proof.Machine.execLdErrClear ag ld v s
  | .elapsedTick upsets => Sys2Proof.Machine.execElapsedTick upsets s
  | .powerSample draw tj plan => Sys2Proof.Machine.execPowerSample draw tj plan s
  | .pwrLimitWrite ag ld v => Sys2Proof.Machine.execPwrLimitWrite ag ld v s
  | .slackTrip die clu => Sys2Proof.Machine.execSlackTrip die clu s
  | .dieCalibration die hbm0 hbm1 free0 free1 lowest => Sys2Proof.Machine.execDieCalibration die hbm0 hbm1 free0 free1 lowest s
  | .rmaxClear ag clu v => Sys2Proof.Machine.execRmaxClear ag clu v s
  | .add clu d a b => Sys2Proof.Machine.execAdd clu d a b s
  | .sub clu d a b => Sys2Proof.Machine.execSub clu d a b s
  | .and clu d a b => Sys2Proof.Machine.execAnd clu d a b s
  | .or clu d a b => Sys2Proof.Machine.execOr clu d a b s
  | .xor clu d a b => Sys2Proof.Machine.execXor clu d a b s
  | .shl clu d a b => Sys2Proof.Machine.execShl clu d a b s
  | .shr clu d a b => Sys2Proof.Machine.execShr clu d a b s
  | .sar clu d a b => Sys2Proof.Machine.execSar clu d a b s
  | .slt clu d a b => Sys2Proof.Machine.execSlt clu d a b s
  | .sltu clu d a b => Sys2Proof.Machine.execSltu clu d a b s
  | .addi clu d a imm => Sys2Proof.Machine.execAddi clu d a imm s
  | .lui clu d imm => Sys2Proof.Machine.execLui clu d imm s
  | .mul clu d a b => Sys2Proof.Machine.execMul clu d a b s
  | .mulh clu d a b => Sys2Proof.Machine.execMulh clu d a b s
  | .divu clu d a b => Sys2Proof.Machine.execDivu clu d a b s
  | .remu clu d a b => Sys2Proof.Machine.execRemu clu d a b s
  | .beq clu a b target => Sys2Proof.Machine.execBeq clu a b target s
  | .bne clu a b target => Sys2Proof.Machine.execBne clu a b target s
  | .blt clu a b target => Sys2Proof.Machine.execBlt clu a b target s
  | .bge clu a b target => Sys2Proof.Machine.execBge clu a b target s
  | .jal clu d target => Sys2Proof.Machine.execJal clu d target s
  | .jalr clu d a imm => Sys2Proof.Machine.execJalr clu d a imm s
  | .ld clu sz d a => Sys2Proof.Machine.execLd clu sz d a s
  | .st clu sz src a => Sys2Proof.Machine.execSt clu sz src a s
  | .mfs clu d sr => Sys2Proof.Machine.execMfs clu d sr s
  | .mts clu sr a => Sys2Proof.Machine.execMts clu sr a s
  | .csrr clu d off => Sys2Proof.Machine.execCsrr clu d off s
  | .csrw clu off a => Sys2Proof.Machine.execCsrw clu off a s
  | .issueM clu d a b => Sys2Proof.Machine.execIssueM clu d a b s
  | .issueV clu d a b => Sys2Proof.Machine.execIssueV clu d a b s
  | .tagr clu d a => Sys2Proof.Machine.execTagr clu d a s
  | .ocld clu d a b c => Sys2Proof.Machine.execOcld clu d a b c s
  | .ocst clu d a b c => Sys2Proof.Machine.execOcst clu d a b c s
  | .oclt clu d a b c => Sys2Proof.Machine.execOclt clu d a b c s
  | .ocz clu d a b c => Sys2Proof.Machine.execOcz clu d a b c s
  | .csz clu d a b => Sys2Proof.Machine.execCsz clu d a b s
  | .moverCommandFinish clu => Sys2Proof.Machine.execMoverCommandFinish clu s
  | .dmap clu d a => Sys2Proof.Machine.execDmap clu d a s
  | .dmaw clu a => Sys2Proof.Machine.execDmaw clu a s
  | .dmaDescriptorStart clu => Sys2Proof.Machine.execDmaDescriptorStart clu s
  | .dmaDescriptorFinish clu idx => Sys2Proof.Machine.execDmaDescriptorFinish clu idx s
  | .fence clu k a => Sys2Proof.Machine.execFence clu k a s
  | .yield clu d => Sys2Proof.Machine.execYield clu d s
  | .yieldStop clu => Sys2Proof.Machine.execYieldStop clu s
  | .handOver clu => Sys2Proof.Machine.execHandOver clu s
  | .elap clu d => Sys2Proof.Machine.execElap clu d s
  | .iret clu => Sys2Proof.Machine.execIret clu s
  | .halt clu => Sys2Proof.Machine.execHalt clu s
  | .undefinedInstruction clu => Sys2Proof.Machine.execUndefinedInstruction clu s
  | .matrixOpStart clu core => Sys2Proof.Machine.execMatrixOpStart clu core s
  | .matrixOpEnd clu core => Sys2Proof.Machine.execMatrixOpEnd clu core s
  | .vectorOpStart clu core => Sys2Proof.Machine.execVectorOpStart clu core s
  | .vectorOpEnd clu core => Sys2Proof.Machine.execVectorOpEnd clu core s
  | .icuWin icu => Sys2Proof.Machine.execIcuWin icu s
  | .handlerEntry icu => Sys2Proof.Machine.execHandlerEntry icu s
  | .msixPost ld => Sys2Proof.Machine.execMsixPost ld s
  | .icuEoi ag icu v => Sys2Proof.Machine.execIcuEoi ag icu v s
  | .scrubStep u addr => Sys2Proof.Machine.execScrubStep u addr s
  | .softRepairStart u => Sys2Proof.Machine.execSoftRepairStart u s
  | .softRepairComplete u granted => Sys2Proof.Machine.execSoftRepairComplete u granted s
  | .memRepairQueue ag ld => Sys2Proof.Machine.execMemRepairQueue ag ld s
  | .memRepairCommit ag ld => Sys2Proof.Machine.execMemRepairCommit ag ld s
  | .repairCommitComplete u exhausted => Sys2Proof.Machine.execRepairCommitComplete u exhausted s
  | .eccSelWrite ag ld v => Sys2Proof.Machine.execEccSelWrite ag ld v s
  | .eccClear ag ld v => Sys2Proof.Machine.execEccClear ag ld v s
  | .alloc iss die body => Sys2Proof.Machine.execAlloc iss die body s
  | .free iss die body => Sys2Proof.Machine.execFree iss die body s
  | .append iss die body => Sys2Proof.Machine.execAppend iss die body s
  | .trim iss die body => Sys2Proof.Machine.execTrim iss die body s
  | .keep iss die body => Sys2Proof.Machine.execKeep iss die body s
  | .move iss die body => Sys2Proof.Machine.execMove iss die body s
  | .pin iss die body => Sys2Proof.Machine.execPin iss die body s
  | .retire iss die body => Sys2Proof.Machine.execRetire iss die body s
  | .gather iss die body => Sys2Proof.Machine.execGather iss die body s
  | .send iss die body => Sys2Proof.Machine.execSend iss die body s
  | .scoreCommand iss body => Sys2Proof.Machine.execScoreCommand iss body s
  | .scoreComplete stack => Sys2Proof.Machine.execScoreComplete stack s
  | .kvZeroFillComplete handle => Sys2Proof.Machine.execKvZeroFillComplete handle s
  | .kvMoveCopyComplete handle => Sys2Proof.Machine.execKvMoveCopyComplete handle s
  | .demotionSweep stack => Sys2Proof.Machine.execDemotionSweep stack s
  | .promotion handle => Sys2Proof.Machine.execPromotion handle s
  | .handoffPageCheck ref src count layout crc => Sys2Proof.Machine.execHandoffPageCheck ref src count layout crc s
  | .clusterRingTail clu kind tail => Sys2Proof.Machine.execClusterRingTail clu kind tail s
  | .kvmRegionWrite ag ld lp n v => Sys2Proof.Machine.execKvmRegionWrite ag ld lp n v s
  | .submit iss body => Sys2Proof.Machine.execSubmit iss body s
  | .cancel iss body => Sys2Proof.Machine.execCancel iss body s
  | .adpLoad iss body => Sys2Proof.Machine.execAdpLoad iss body s
  | .adpLoadComplete slot => Sys2Proof.Machine.execAdpLoadComplete slot s
  | .adpDrop iss body => Sys2Proof.Machine.execAdpDrop iss body s
  | .adapterZeroFillComplete slot => Sys2Proof.Machine.execAdapterZeroFillComplete slot s
  | .swap iss body => Sys2Proof.Machine.execSwap iss body s
  | .waveNotice ld src gen nold crc => Sys2Proof.Machine.execWaveNotice ld src gen nold crc s
  | .layerSwapBegin ld layer => Sys2Proof.Machine.execLayerSwapBegin ld layer s
  | .layerSwapComplete ld layer => Sys2Proof.Machine.execLayerSwapComplete ld layer s
  | .waveMemberReport ld did => Sys2Proof.Machine.execWaveMemberReport ld did s
  | .tokenStepBegin slot => Sys2Proof.Machine.execTokenStepBegin slot s
  | .kvWaitRetry slot => Sys2Proof.Machine.execKvWaitRetry slot s
  | .treeIndexWaitEnd slot => Sys2Proof.Machine.execTreeIndexWaitEnd slot s
  | .sampleVector slot => Sys2Proof.Machine.execSampleVector slot s
  | .tokenStepEnd slot => Sys2Proof.Machine.execTokenStepEnd slot s
  | .portEnable ag ld port v => Sys2Proof.Machine.execPortEnable ag ld port v s
  | .portDisable ag ld port v => Sys2Proof.Machine.execPortDisable ag ld port v s
  | .portRetrain ag ld port v => Sys2Proof.Machine.execPortRetrain ag ld port v s
  | .portDetectAttempt port => Sys2Proof.Machine.execPortDetectAttempt port s
  | .laneLock port lane inverted marker => Sys2Proof.Machine.execLaneLock port lane inverted marker s
  | .portTrainingEnd port info => Sys2Proof.Machine.execPortTrainingEnd port info s
  | .laneFailActive port lane => Sys2Proof.Machine.execLaneFailActive port lane s
  | .flitReceive port flit fixed => Sys2Proof.Machine.execFlitReceive port flit fixed s
  | .linkSilenceTimeout port => Sys2Proof.Machine.execLinkSilenceTimeout port s
  | .leaveNotice port did => Sys2Proof.Machine.execLeaveNotice port did s
  | .lossNotice port did inc => Sys2Proof.Machine.execLossNotice port did inc s
  | .foundNotice port did inc => Sys2Proof.Machine.execFoundNotice port did inc s
  | .packetReceive port pkt => Sys2Proof.Machine.execPacketReceive port pkt s
  | .fabResponseTimeout ld tag => Sys2Proof.Machine.execFabResponseTimeout ld tag s
  | .routeEntryWrite ag ld v => Sys2Proof.Machine.execRouteEntryWrite ag ld v s
  | .graftSelfWrite ag ld n v => Sys2Proof.Machine.execGraftSelfWrite ag ld n v s
  | .graftEntryWrite ag ld n v => Sys2Proof.Machine.execGraftEntryWrite ag ld n v s
  | .allReduce iss body => Sys2Proof.Machine.execAllReduce iss body s
  | .reduce iss body => Sys2Proof.Machine.execReduce iss body s
  | .reduceScatter iss body => Sys2Proof.Machine.execReduceScatter iss body s
  | .allGather iss body => Sys2Proof.Machine.execAllGather iss body s
  | .broadcast iss body => Sys2Proof.Machine.execBroadcast iss body s
  | .allToAll iss body => Sys2Proof.Machine.execAllToAll iss body s
  | .combine iss body => Sys2Proof.Machine.execCombine iss body s
  | .barrier iss body => Sys2Proof.Machine.execBarrier iss body s
  | .rakeReservationGrant ld coll => Sys2Proof.Machine.execRakeReservationGrant ld coll s
  | .rakeGrant ld coll chunk rank => Sys2Proof.Machine.execRakeGrant ld coll chunk rank s
  | .anchorArrive ld coll rank group anchors digest => Sys2Proof.Machine.execAnchorArrive ld coll rank group anchors digest s
  | .contributionArrive ld coll chunk rank msg => Sys2Proof.Machine.execContributionArrive ld coll chunk rank msg s
  | .resultChunkArrive ld coll chunk rank msg => Sys2Proof.Machine.execResultChunkArrive ld coll chunk rank msg s
  | .chunkAck ld coll chunk rank => Sys2Proof.Machine.execChunkAck ld coll chunk rank s
  | .completionFence ld coll => Sys2Proof.Machine.execCompletionFence ld coll s
  | .rakeSlotZeroFillComplete iod ld coll => Sys2Proof.Machine.execRakeSlotZeroFillComplete iod ld coll s
  | .collWatchdog ld coll => Sys2Proof.Machine.execCollWatchdog ld coll s
  | .abortNotice ld coll code who chunk => Sys2Proof.Machine.execAbortNotice ld coll code who chunk s
  | .colAbort ag ld v => Sys2Proof.Machine.execColAbort ag ld v s
  | .update iss body => Sys2Proof.Machine.execUpdate iss body s
  | .updateEngineStart die => Sys2Proof.Machine.execUpdateEngineStart die s
  | .fetch iss body => Sys2Proof.Machine.execFetch iss body s
  | .fetchPoll die record => Sys2Proof.Machine.execFetchPoll die record s
  | .fetchWatchdog die => Sys2Proof.Machine.execFetchWatchdog die s
  | .fpcheck iss body => Sys2Proof.Machine.execFpcheck iss body s
  | .dfsApply iss body => Sys2Proof.Machine.execDfsApply iss body s
  | .phase iss body => Sys2Proof.Machine.execPhase iss body s
  | .updAbort ag ld v => Sys2Proof.Machine.execUpdAbort ag ld v s
  | .dfsEnable ag ld v => Sys2Proof.Machine.execDfsEnable ag ld v s
  | .dfsRingWaitEnd ld target cons => Sys2Proof.Machine.execDfsRingWaitEnd ld target cons s
  | .dfsTargetWatchdog ld target => Sys2Proof.Machine.execDfsTargetWatchdog ld target s
  | .updateEnginePhaseEnd die remote => Sys2Proof.Machine.execUpdateEnginePhaseEnd die remote s
  | .ccLaunch iss body => Sys2Proof.Machine.execCcLaunch iss body s
  | .ccStart ld clu => Sys2Proof.Machine.execCcStart ld clu s
  | .ccYieldTimeout ld clu => Sys2Proof.Machine.execCcYieldTimeout ld clu s
  | .trlLoad iss body => Sys2Proof.Machine.execTrlLoad iss body s
  | .turn iss body => Sys2Proof.Machine.execTurn iss body s
  | .xplPlan iss body => Sys2Proof.Machine.execXplPlan iss body s
  | .roundBegin ld => Sys2Proof.Machine.execRoundBegin ld s
  | .roundMoveEnd ld arrived stale digest => Sys2Proof.Machine.execRoundMoveEnd ld arrived stale digest s
  | .readyReceive ld rank round digest => Sys2Proof.Machine.execReadyReceive ld rank round digest s
  | .commitReceive ld round digest => Sys2Proof.Machine.execCommitReceive ld round digest s
  | .abortReceive ld round code who digest => Sys2Proof.Machine.execAbortReceive ld round code who digest s
  | .roundWatchdog ld => Sys2Proof.Machine.execRoundWatchdog ld s
  | .roundStateReport ld rank round committed digest => Sys2Proof.Machine.execRoundStateReport ld rank round committed digest s
  | .xplAbort ag ld v => Sys2Proof.Machine.execXplAbort ag ld v s
  | .cqEnable ag ld q v => Sys2Proof.Machine.execCqEnable ag ld q v s
  | .cqDisable ag ld q v => Sys2Proof.Machine.execCqDisable ag ld q v s
  | .cqTailWrite ag ld q v => Sys2Proof.Machine.execCqTailWrite ag ld q v s
  | .cqCplHeadWrite ag ld q v => Sys2Proof.Machine.execCqCplHeadWrite ag ld q v s
  | .commandFetch ld q => Sys2Proof.Machine.execCommandFetch ld q s
  | .queueDrainEnd ld q => Sys2Proof.Machine.execQueueDrainEnd ld q s
  | .reqCplEnable ag ld v => Sys2Proof.Machine.execReqCplEnable ag ld v s
  | .launch iss body => Sys2Proof.Machine.execLaunch iss body s
  | .mbxSend ag ld m v => Sys2Proof.Machine.execMbxSend ag ld m v s
  | .mbxRelease ag ld m v => Sys2Proof.Machine.execMbxRelease ag ld m v s
  | .mailboxServe ld m => Sys2Proof.Machine.execMailboxServe ld m s
  | .cxlMemRead ld hdm off cacheable => Sys2Proof.Machine.execCxlMemRead ld hdm off cacheable s
  | .cxlMemWrite ld hdm off data poison => Sys2Proof.Machine.execCxlMemWrite ld hdm off data poison s
  | .hostSnoop addr => Sys2Proof.Machine.execHostSnoop addr s
  | .backInvalidateResponse addr => Sys2Proof.Machine.execBackInvalidateResponse addr s
  | .sessionExchange ld ciphertext nonce => Sys2Proof.Machine.execSessionExchange ld ciphertext nonce s
  | .domOpen iss body => Sys2Proof.Machine.execDomOpen iss body s
  | .domClose iss body => Sys2Proof.Machine.execDomClose iss body s
  | .domCloseComplete dom => Sys2Proof.Machine.execDomCloseComplete dom s
  | .domQuota iss body => Sys2Proof.Machine.execDomQuota iss body s
  | .pageSet iss body => Sys2Proof.Machine.execPageSet iss body s
  | .pageSetMsg ld => Sys2Proof.Machine.execPageSetMsg ld s
  | .pageZeroFillComplete frame => Sys2Proof.Machine.execPageZeroFillComplete frame s
  | .pubKey iss body => Sys2Proof.Machine.execPubKey iss body s
  | .dfsKey iss body => Sys2Proof.Machine.execDfsKey iss body s
  | .weightImport iss body => Sys2Proof.Machine.execWeightImport iss body s
  | .weightImportComplete ld => Sys2Proof.Machine.execWeightImportComplete ld s
  | .attest iss body => Sys2Proof.Machine.execAttest iss body s
  | .l2TreeCertify => Sys2Proof.Machine.execL2TreeCertify s
  | .minverRaise iss body => Sys2Proof.Machine.execMinverRaise iss body s
  | .ownerXfer iss body => Sys2Proof.Machine.execOwnerXfer iss body s
  | .nvmInfo => Sys2Proof.Machine.execNvmInfo s
  | .nvmErase => Sys2Proof.Machine.execNvmErase s
  | .nvmWrite => Sys2Proof.Machine.execNvmWrite s
  | .nvmRead => Sys2Proof.Machine.execNvmRead s
  | .nvmVerify => Sys2Proof.Machine.execNvmVerify s
  | .startClear => Sys2Proof.Machine.execStartClear s
  | .powerOn straps vin => Sys2Proof.Machine.execPowerOn straps vin s
  | .romStage probe sramOk => Sys2Proof.Machine.execRomStage probe sramOk s
  | .silmuvinStage iod0 iod1 lp lpFree => Sys2Proof.Machine.execSilmuvinStage iod0 iod1 lp lpFree s
  | .dieJoin die sram => Sys2Proof.Machine.execDieJoin die sram s
  | .dieBootCodeTimeout die => Sys2Proof.Machine.execDieBootCodeTimeout die s
  | .startLimitExpiry => Sys2Proof.Machine.execStartLimitExpiry s
  | .deviceReset ag ld v => Sys2Proof.Machine.execDeviceReset ag ld v s
  | .ldReset ag ld v => Sys2Proof.Machine.execLdReset ag ld v s
  | .ldDisable ag ld v => Sys2Proof.Machine.execLdDisable ag ld v s
  | .ldReenable ag ld v => Sys2Proof.Machine.execLdReenable ag ld v s
  | .cxlLdReset ld => Sys2Proof.Machine.execCxlLdReset ld s
  | .cxlConventionalReset => Sys2Proof.Machine.execCxlConventionalReset s
  | .resetZeroiseComplete e => Sys2Proof.Machine.execResetZeroiseComplete e s
  | .drainLimitExpiry sc => Sys2Proof.Machine.execDrainLimitExpiry sc s
  | .drainComplete sc => Sys2Proof.Machine.execDrainComplete sc s
  | .resetNAssert ns => Sys2Proof.Machine.execResetNAssert ns s
  | .resetNDeassert => Sys2Proof.Machine.execResetNDeassert s
  | .powerLoss => Sys2Proof.Machine.execPowerLoss s
  | .overVoltage => Sys2Proof.Machine.execOverVoltage s
  | .overVoltageRecovery vin => Sys2Proof.Machine.execOverVoltageRecovery vin s
  | .vinOutOfBand vin => Sys2Proof.Machine.execVinOutOfBand vin s
  | .railOutOfRegulation => Sys2Proof.Machine.execRailOutOfRegulation s
  | .clockFault c => Sys2Proof.Machine.execClockFault c s
  | .thermAssert tj plate => Sys2Proof.Machine.execThermAssert tj plate s
  | .thermRelease tj plate => Sys2Proof.Machine.execThermRelease tj plate s
  | .thermalTrip tj plate => Sys2Proof.Machine.execThermalTrip tj plate s
  | .coolantAlarm inlet outlet => Sys2Proof.Machine.execCoolantAlarm inlet outlet s
  | .sidebandFault pin => Sys2Proof.Machine.execSidebandFault pin s
  | .vauxCurrentLimit => Sys2Proof.Machine.execVauxCurrentLimit s
  | .healthTestChange failing => Sys2Proof.Machine.execHealthTestChange failing s
  | .i3cRegisterWrite idx data => Sys2Proof.Machine.execI3cRegisterWrite idx data s
  | .pwrBcLimitWrite v => Sys2Proof.Machine.execPwrBcLimitWrite v s
  | .pwrBcErrClear v => Sys2Proof.Machine.execPwrBcErrClear v s
  | .entdaa addr => Sys2Proof.Machine.execEntdaa addr s
  | .setdasa addr => Sys2Proof.Machine.execSetdasa addr s
  | .rstdaa => Sys2Proof.Machine.execRstdaa s
  | .enec events => Sys2Proof.Machine.execEnec events s
  | .disec events => Sys2Proof.Machine.execDisec events s
  | .getpid => Sys2Proof.Machine.execGetpid s
  | .getbcr => Sys2Proof.Machine.execGetbcr s
  | .getdcr => Sys2Proof.Machine.execGetdcr s
  | .getstatus => Sys2Proof.Machine.execGetstatus s
  | .getmxds => Sys2Proof.Machine.execGetmxds s
  | .kvCommandComplete die idx => Sys2Proof.Machine.execKvCommandComplete die idx s

end Sys2Proof.Machine
end

