-- ==== Sys2Proof/Safety.lean ====
section
/-! DEFINITION. What counts as a safe run, in the terms the statements use: the canonical form of the memories, what a
command may leave changed, and what survives every reset. -/

namespace Sys2Proof.Machine

/-- Device memory, host memory and the NVM are in canonical form. -/
def State.memWf (s : State) : Prop :=
  Mem.wf memDefault s.dev.mem = true ∧ Mem.wf memDefault s.dev.hostMem = true ∧ Mem.wf nvmDefault s.vault.nvm = true

/-- The byte of device memory at an address. -/
def Dev.byte (d : Dev) (a : Nat) : Byte := Mem.read memDefault d.mem a

/-- The byte of host memory at an address. -/
def Dev.hostByte (d : Dev) (a : Nat) : Byte := Mem.read memDefault d.hostMem a

/-- Every byte of device memory reads the same. -/
def Dev.sameMem (d d' : Dev) : Prop := ∀ a, d'.byte a = d.byte a

/-- Every byte of device memory outside [a, a + n) reads the same. -/
def Dev.sameMemBut (d d' : Dev) (a n : Nat) : Prop := ∀ x, x < a ∨ a + n ≤ x → d'.byte x = d.byte x

/-- What a read or a write through the codes of memory may change: bytes with the keys that they are encrypted under,
poison, errors, the counters of the units, the error events of the LDs, the tracked lines met, the free values drawn and the
bus errors shown to the management controller. -/
def Dev.memFrame (d d' : Dev) : Prop :=
  d' = { d with lds := d'.lds, units := d'.units, mem := d'.mem, lpKeys := d'.lpKeys, poison := d'.poison, upsets := d'.upsets,
                touched := d'.touched, free := d'.free, out := d'.out } ∧
  (∀ n, d'.ld n = { d.ld n with ecc := (d'.ld n).ecc }) ∧ ∃ cws : List Nat, d'.out = d.out ++ cws.map Output.mcBusError

/-- No byte of memory is in error or poisoned, the host holds no line with cacheable intent, and every byte of LPDDR5X
stands encrypted under the key of the domain that may now reach it (R190, R192, R195, R437). -/
def Dev.quiet (d : Dev) : Prop := d.poison = [] ∧ d.upsets = [] ∧ d.snoops = [] ∧ ∀ a n, d.foreign a n = []

/-- An engine of an LD sends messages to logical DIDs, one after another. -/
def Dev.tellAll (ld : Nat) (ms : List (Nat × FabMsg)) (d : Dev) : Dev := ms.foldl (fun d m => d.tell ld m.1 m.2) d

/-- A device has sent messages as an engine of an LD sends them: the outputs, ports and held packets are those that sending
them leaves (R307, R310, R312, R321). -/
def Dev.toldAll (d d' : Dev) (ld : Nat) (ms : List (Nat × FabMsg)) : Prop :=
  d'.out = (d.tellAll ld ms).out ∧ d'.ports = (d.tellAll ld ms).ports ∧ d'.net = (d.tellAll ld ms).net

/-- A device has sent one message. -/
def Dev.told (d d' : Dev) (ld did : Nat) (m : FabMsg) : Prop := d.toldAll d' ld [(did, m)]

/-- The control core of cluster n executes, and the word at its `pc` can be fetched (R156, R197). -/
def Dev.fetchOk (d : Dev) (n : Nat) : Prop :=
  (d.clu n).executes = true ∧ (d.clu n).ctl.pc.toNat % 4 = 0 ∧
    (d.readOk reqClu (storeAddr n (d.clu n).ctl.pc.toNat) 4).2 = true

/-- The device after that fetch, which may have corrected the codeword that it read. -/
def Dev.fetched (d : Dev) (n : Nat) : Dev := (d.readOk reqClu (storeAddr n (d.clu n).ctl.pc.toNat) 4).1

/-- The state after an instruction of cluster n that changes nothing but the registers of its control core. -/
def State.after (s : State) (n : Nat) (f : CtlRegs → CtlRegs) : State :=
  { s with dev := (s.dev.fetched n).setClu n { s.dev.clu n with ctl := f (s.dev.clu n).ctl } }

/-! ## Key-value pages -/

/-- Every KV region lies inside its stack or channel (R257). -/
def Dev.regionsInside (d : Dev) : Prop :=
  (∀ n, (Map.get d.stackRgn n Region.init).base + (Map.get d.stackRgn n Region.init).count ≤ 24576) ∧
  ∀ n, (Map.get d.lpRgn n Region.init).base + (Map.get d.lpRgn n Region.init).count ≤ 32768

/-- A reference names a page of a die that a domain owns, in one of some states (R224, R235). -/
def Dev.refOk (d : Dev) (die dom : Nat) (sts : List KvState) (r : W32) : Prop :=
  fld r 31 29 = 0 ∧ refHandle r / dieHandles = die ∧ refGen r = (d.kvE (refHandle r)).gen.toNat ∧
    (d.kvE (refHandle r)).domain.toNat = dom ∧ (d.kvE (refHandle r)).st ∈ sts

/-- The references that a list in memory holds. -/
def Dev.refsAt (d : Dev) (a n : Nat) : List W32 := bytesToWords n (d.bytes a (4 * n))

/-- A die takes KV commands: it has joined and is there (R38, R39). -/
def Dev.dieServes (d : Dev) (die : Nat) : Prop := (d.die die).joined = true ∧ (d.die die).absent = false

/-- A command names a list of 1 to 64 references at an aligned address that its issuer may read (R235, R236). -/
def Dev.listOk (d : Dev) (iss : Issuer) (body : List W32) (n : Nat) : Prop :=
  0 < n ∧ n ≤ 64 ∧ addrHigh body 4 = false ∧ addrAt body 4 % 8 = 0 ∧
    d.kvPerm (d.issLd iss) (d.issDom iss) false (addrAt body 4) (4 * n) = false

/-- A layout word is legal: a head dimension, at least one position, and halves of at most 2 MiB (R225, R226). -/
def kvLayoutOk (w : W32) : Prop :=
  fld w 4 0 = 0 ∧ fld w 31 28 = 0 ∧ fld w 7 6 ≠ 3 ∧ (kvLayout w).ppos ≠ 0 ∧
    (kvLayout w).ppos * ((kvLayout w).rowLen + (kvLayout w).scLen) ≤ 0x200000

/-- A partition has nothing outstanding on the fabric: no request, transfer, collective, update command, swap wave or turn, and no
source holds a packet back. -/
def Dev.alone (d : Dev) (ld : Nat) : Prop :=
  (d.ld ld).fab.reqs = [] ∧ d.kvJobs = [] ∧ d.upds = [] ∧ (∀ c ∈ d.colls, c.ld ≠ ld) ∧ (d.ld ld).wave.active = false ∧
    (d.ld ld).trl.turn.st = .idle ∧ (∀ e ∈ d.reqs, e.2.sending = false) ∧ d.net.held = []

/-- Nothing of the secure storage element goes back: the attestation leaf counter and the minimum versions never
fall (R480, R485). -/
def Vault.forward (v v' : Vault) : Prop := v.leaves ≤ v'.leaves ∧ v.minFw ≤ v'.minFw ∧ v.minImg ≤ v'.minImg

end Sys2Proof.Machine
end

