-- ==== Sys2Proof/Certificates/Slice0/Obligations.lean ====
section
/-! DEFINITION. The statements for the provers, from the numbered rules of spec/. -/

open Sys2Proof Sys2Proof.Machine

/-! ## The machine as a whole -/

/-- A step with a command at the front of the queue runs exactly that command on the state with the queue's rest. Clauses
that rest on the model's own reading: log 3, 4. -/
def Obligations.StepRunsFrontCommand : Prop :=
  ∀ (c : Instr) (rest : List Instr) (s : State),
    step { s with pending := c :: rest } = exec c { s with pending := rest }

/-- No command changes the queue of waiting commands. No command stops: every command from every state answers a next state
(the queue's rest runs on). Clauses that rest on the model's own reading: log 2. -/
def Obligations.CommandsAnswerAndLeaveQueue : Prop :=
  (∀ (c : Instr) (s t : State), exec c s = .next t → t.pending = s.pending) ∧
  (∀ (c : Instr) (s : State), ∃ t, exec c s = .next t)

/-- The elapsed counter (R61, R62): only ELAPSED_TICK advances it, by one; only the two ways that power comes and an
assertion of RESET_N set it to zero; every other command, a reset of any other scope among them, leaves it as it is. -/
def Obligations.ElapsedCounterOnlyCountsTicks : Prop :=
  ∀ (c : Instr) (s t : State), exec c s = .next t →
    t.now = s.now ∨ (∃ ups, c = .elapsedTick ups ∧ t.now = s.now + 1) ∨
      (t.now = 0 ∧ ((∃ k v, c = .powerOn k v) ∨ (∃ v, c = .overVoltageRecovery v) ∨ ∃ n, c = .resetNAssert n))

/-- What outlives every reset (R480, R485, R487, R508): no step of the machine brings the counter of attestation leaves or a
minimum version back, takes the counter past 1,048,576, changes the device's seed, its certificate or the fuse map of its
SRAM, or removes a hard repair. -/
def Obligations.StepsNeverRollVaultBack : Prop :=
  ∀ (s t : State), step s = .next t → s.vault.forward t.vault ∧ (s.vault.leaves ≤ 1048576 → t.vault.leaves ≤ 1048576) ∧
    t.vault.devSeed = s.vault.devSeed ∧ t.vault.devCert = s.vault.devCert ∧ t.vault.density = s.vault.density ∧ t.vault.jedec = s.vault.jedec ∧ t.vault.fuses = s.vault.fuses ∧
    ∃ rows, t.vault.hard = s.vault.hard ++ rows

/-- The NVM (R492): from every state whose NVM is in canonical form, a step leaves it so, and changes no byte outside the
image region and the two start-record sectors. Clauses that rest on the model's own reading: log 7. -/
def Obligations.StepsKeepNvmWithinItsMap : Prop :=
  ∀ (s t : State), Mem.wf nvmDefault s.vault.nvm = true → step s = .next t →
    Mem.wf nvmDefault t.vault.nvm = true ∧
    ∀ x, (0x280000 ≤ x ∧ x < 0x07FE0000) ∨ 0x08000000 ≤ x → t.vault.nvmRead x 1 = s.vault.nvmRead x 1

/-- Commands that write memory keep device memory, host memory and the NVM in canonical form: stores, host writes, record
writes of a queue's enable, zero fills and NVM messages. Clauses that rest on the model's own reading: log 6. -/
def Obligations.MemoryWritesKeepForm : Prop :=
  ∀ (clu ld hdm off q f : Nat) (sz : Size) (a b : Reg) (ag : Agent) (v : W32) (data : List Byte) (poison : Bool) (s t : State), s.memWf →
    ∀ c ∈ [Instr.st clu sz a b, .cxlMemWrite ld hdm off data poison, .cqEnable ag ld q v, .reqCplEnable ag ld v, .pageZeroFillComplete f,
      .nvmErase, .nvmWrite, .startClear], exec c s = .next t → t.memWf

/-- Right after reset (R47, R57, R61, R539, R542, R550) the module is powered with RESET_N held, nothing has started and
nothing waits: the counter is zero, every die is at tap 63 and 0.75 V, conservative and not joined, the I3C registers are at
their reset values, and the invariants of the other statements hold. The free values' counter is the model's own and stands
at zero (DESIGN CHOICE, log 1). Clauses that rest on the model's own reading: log 1, 8. -/
def Obligations.ResetHoldsInvariants : Prop :=
  State.reset.memWf ∧ State.reset.dev.regionsInside ∧ State.reset.dev.quiet ∧ State.reset.pending = [] ∧ State.reset.now = 0 ∧
    State.reset.dev.boot.stage = .off ∧ State.reset.dev.pins.rails = true ∧ State.reset.dev.pins.resetN = false ∧ State.reset.vault.leaves ≤ 1048576 ∧
    State.reset.dev.alert = false ∧ State.reset.dev.i3c.dynAddr = none ∧ State.reset.dev.i3c.limitW = 0 ∧ State.reset.dev.free = 0 ∧
    ∀ n, (State.reset.dev.die n).tap = 63 ∧ (State.reset.dev.die n).vcore = 750 ∧ (State.reset.dev.die n).conservative = true ∧
      (State.reset.dev.die n).joined = false

/-- R25 and R184: the windows of the dies and channels, their stacks and stack offsets. -/
def Obligations.MemoryWindowsDecode : Prop :=
  (∀ d o, d < 10 → o < 0x4000000000 →
    (o < 0x1800000000 → placeOf (d * 0x4000000000 + o) = .hbm (2 * d) o) ∧
    (0x1800000000 ≤ o → o < 0x3000000000 → placeOf (d * 0x4000000000 + o) = .hbm (2 * d + 1) (o - 0x1800000000)) ∧
    (0x3000000000 ≤ o → placeOf (d * 0x4000000000 + o) = .nowhere)) ∧
  ∀ c o, c < 24 → o < 0x2000000000 → placeOf (0x40000000000 + c * 0x2000000000 + o) = .lp c o

/-! ## Numbers -/

/-- R93: the FP32 code of the uniform value of a word w stands for exactly (w >> 8) times 2^-24, and lies in [0, 1). -/
def Obligations.UniformValuesAreExact : Prop :=
  ∀ w, w < 2 ^ 32 → ∃ (m : Nat) (e : Int), f32 (toF32 (uniform w)) = .fin false m e ∧
    (m : Rat) * 2 ^ e = ((w / 256 : Nat) : Rat) * 2 ^ (-24 : Int) ∧ (m : Rat) * 2 ^ e < 1

/-- Formats (R72, R73, R78, R85): in every format, storing the value of a code that is no NaN gives that code again, every
NaN is stored as the canonical NaN, a set sign bit negates the value, and the codes without sign rise with their magnitudes.
-/
def Obligations.FormatsStoreWhatTheyHold : Prop :=
  (∀ (f : Fmt) (c : Nat), c < 2 ^ f.width → decode f c ≠ .nan → encode f (decode f c) = c) ∧
  (∀ f ∈ [Fmt.fp32, .bf16, .fp16, .e5m2, .e4m3], encode f .nan = f.nanCode ∧ decode f f.nanCode = .nan) ∧
  (∀ (f : Fmt) (c : Nat), f.isInt = false → c < 2 ^ (f.width - 1) → decode f (2 ^ (f.width - 1) + c) = (decode f c).neg) ∧
  ∀ (f : Fmt) (c c' : Nat), f.isInt = false → c < c' → c' < 2 ^ (f.width - 1) → decode f c' ≠ .nan → (decode f c).lt (decode f c') = true

/-- A product of unscaled INT8 operands (R116, R117): while no partial sum leaves the INT32 range, each accumulator is the
exact sum of the products over k, and none saturates; a sum that leaves it stays at the bound it passed. -/
def Obligations.IntegerProductIsExactSum : Prop :=
  (∀ (x : MxDesc) (a b : List Byte),
    let p := fun kk => sgn 8 (elemAt .int8 a kk) * sgn 8 (elemAt .int8 b kk)
    let sum := fun (m : Nat) => ((List.range m).map p).sum
    (∀ m, m ≤ x.k → -(2 ^ 31) ≤ sum m ∧ sum m ≤ 2 ^ 31 - 1) → mxDotInt x a b 0 = (sum x.k, false)) ∧
  (∀ (acc : Int) (sat : Bool) (p : Int), 2 ^ 31 - 1 < acc + p → accInt (acc, sat) p = (2 ^ 31 - 1, true)) ∧
  (∀ (acc : Int) (sat : Bool) (p : Int), acc + p < -(2 ^ 31) → accInt (acc, sat) p = (-(2 ^ 31), true))

/-! ## Registers, time and power -/

/-- `PWR_LIMIT` of LD 15 (R55, R12, R13): a legal value is stored in both fields and nothing else changes; a reserved bit
wins over an illegal limit, and a rejected write changes nothing but `LD_ERR_CODE`. In another LD the write changes nothing.
LD_ERR_CLEAR: a 1 in `clear` zeroes the code and the count; a reserved bit is then recorded, one count up and no further
than 255 (R441). No other register of the page changes. REGISTER_WRITE (R9, R11, R12, R35, R409, R440): a write that is not
a whole aligned word is rejected with E_ALIGN; a write to a register that the image fixes is rejected with E_PERM when it
would change it and ignored otherwise; an unassigned offset is rejected with E_RANGE; and a whole aligned write of a legal
value to an RW register stores it (`LD_CC_CTL`). A rejected write changes nothing but `LD_ERR_CODE`. LO_READ_LATCH (R10,
R62): a read of `TMR_ELAPSED_LO` returns bits [31:0] of the counter and latches bits [63:32] for the agent that reads; that
agent's read of `TMR_ELAPSED_HI` returns what it latched, however far the counter has moved since; and the latch of every
other agent stays as it is. Clauses that rest on the model's own reading: log 13, 14, 15, 16. -/
def Obligations.PageRegistersReadAndWrite : Prop :=
  (∀ (ag : Agent) (v : W32) (s : State), reachesPage ag 15 = true → s.dev.pageMode 15 = .full →
    (fld v 31 13 = 0 → (fld v 11 0 = 0 ∨ 1000 ≤ fld v 11 0 ∧ fld v 11 0 ≤ 3000) →
      exec (.pwrLimitWrite ag 15 v) s = .next { s with dev := { s.dev with
        pwr := { s.dev.pwr with hostLimit := v.extractLsb' 0 12, boostEn := v.getLsbD 12 } } }) ∧
    (fld v 31 13 ≠ 0 → exec (.pwrLimitWrite ag 15 v) s = .next { s with dev := s.dev.ldErr 15 eReservedNonzero }) ∧
    (fld v 31 13 = 0 → (1 ≤ fld v 11 0 ∧ fld v 11 0 ≤ 999 ∨ 3001 ≤ fld v 11 0) →
      exec (.pwrLimitWrite ag 15 v) s = .next { s with dev := s.dev.ldErr 15 eRange })) ∧
  (∀ (ag : Agent) (ld : Nat) (v : W32) (s : State), reachesPage ag ld = true → s.dev.pageMode ld = .full →
    v.getLsbD 24 = true →
    (fld v 31 25 = 0 → ∃ t, exec (.ldErrClear ag ld v) s = .next t ∧ t = { s with dev := { s.dev with lds := t.dev.lds } } ∧
      t.dev.ld ld = { s.dev.ld ld with ctl := { (s.dev.ld ld).ctl with errCode := 0, errCount := 0 } } ∧
      ∀ n, n ≠ ld → t.dev.ld n = s.dev.ld n) ∧
    (fld v 31 25 ≠ 0 → ∃ t, exec (.ldErrClear ag ld v) s = .next t ∧ t = { s with dev := { s.dev with lds := t.dev.lds } } ∧
      t.dev.ld ld = { s.dev.ld ld with ctl := { (s.dev.ld ld).ctl with errCode := eReservedNonzero, errCount := 1 } } ∧
      ∀ n, n ≠ ld → t.dev.ld n = s.dev.ld n)) ∧
  (∀ (ag : Agent) (ld off bytes : Nat) (v : W32) (s : State), reachesPage ag ld = true → s.dev.pageMode ld = .full →
    (off % 4 ≠ 0 ∨ bytes ≠ 4 → exec (.registerWrite ag (.ld ld) off bytes v) s = .next { s with dev := s.dev.ldErr ld eAlign }) ∧
    (v ≠ BitVec.ofNat 32 (s.pageValue ld 8) →
      exec (.registerWrite ag (.ld ld) 8 4 v) s = .next { s with dev := s.dev.ldErr ld ePerm }) ∧
    exec (.registerWrite ag (.ld ld) 8 4 (s.dev.ld ld).lay.portMask) s = .next s ∧
    exec (.registerWrite ag (.ld ld) 0x24 4 v) s = .next { s with dev := s.dev.ldErr ld eRange } ∧
    (ld ≠ 15 → fld v 31 16 = 0 → fld v 15 0 ≠ 0 → ∃ t, exec (.registerWrite ag (.ld ld) 0x18 4 v) s = .next t ∧
      t = { s with dev := { s.dev with lds := t.dev.lds } } ∧ (∀ n, n ≠ ld → t.dev.ld n = s.dev.ld n) ∧
      t.dev.ld ld = { s.dev.ld ld with ctl := { (s.dev.ld ld).ctl with yieldUs := v.extractLsb' 0 16 } }) ∧
    (ld ≠ 15 → fld v 31 16 = 0 → fld v 15 0 = 0 →
      exec (.registerWrite ag (.ld ld) 0x18 4 v) s = .next { s with dev := s.dev.ldErr ld eRange })) ∧
  (∀ (ag : Agent) (ld : Nat) (s : State), ag ≠ .i3c → reachesPage ag ld = true → s.dev.pageMode ld = .full →
    (∃ t, exec (.loReadLatch ag (.ld ld) ⟨0xB040, 4⟩) s = .next t ∧
      t = { s with dev := { s.dev with latches := t.dev.latches, out := t.dev.out } } ∧
      t.dev.out = s.dev.out ++ [.regData ag (.ld ld) 0xB040 (s.now.setWidth 32)] ∧
      t.dev.latched ag (.ld ld) 0xB040 = (s.now >>> 32).setWidth 32 ∧
      ∀ ag' pg' lo', (ag', pg', lo') ≠ (ag, .ld ld, 0xB040) → t.dev.latched ag' pg' lo' = s.dev.latched ag' pg' lo') ∧
    exec (.loReadLatch ag (.ld ld) ⟨0xB044, 4⟩) s =
      .next { s with dev := s.dev.emit (.regData ag (.ld ld) 0xB044 (s.dev.latched ag (.ld ld) 0xB040)) })

/-- ELAPSED_TICK: the counter advances by one, and every outstanding Cassum request and every hand-over request grows older
by one unit; nothing else changes but the symbols that memory loses, and only codewords that are not poisoned lose any (R61,
R192, R314, R402). SLACK_TRIP below tap 63 (R48): the trip is counted, an event record written and the tap raised by one; a
die that so reaches 63 is conservative and raises ALERT_N. At tap 63 the tap stays and `margin_lost` is set. POWER_SAMPLE
(R49, R51 to R53, R56, R57): with the rails up the draw and the hottest junctions are those of the sample. While THERM_N
holds the dies their settings stay. Otherwise settings within the rail's range stay within it; a draw over the limit raises
no voltage and takes back no pacing, and with a die left that the rules let it lower (an unpinned one, or a pinned one once
those are spent) it takes voltage or issue from such a die; a voltage rises above 0.75 V only with boost, room and a cool
junction; pacing rises only at the floor with need, or above 3,000 W; and a pinned die goes below its pin, or is paced, only
once the unpinned ones are spent, which sets `pin_broken`. DIE_CALIBRATION of a die that has joined (R46, R47, R211): the
tap is the lowest that passes with a guard of 2, and `conservative` clears; where that exceeds 63 the die stays at tap 63,
conservative, and ALERT_N is raised. A stack that passes its tests is in service and holds zeros, one that fails is not, and
every other byte of memory reads as before. Clauses that rest on the model's own reading: log 2, 11, 18, 19, 105, 106. -/
def Obligations.TimePowerAndCalibration : Prop :=
  (∀ (ups : List (Nat × List Nat)) (s : State), ∃ t, exec (.elapsedTick ups) s = .next t ∧
    t.now = s.now + 1 ∧ t.pending = s.pending ∧ t.vault = s.vault ∧
    t.dev = { s.dev with lds := t.dev.lds, clusters := t.dev.clusters, upsets := t.dev.upsets } ∧
    (∀ n, t.dev.clu n = if (s.dev.clu n).yieldReq = some .handOver
      then { s.dev.clu n with yieldAge := (s.dev.clu n).yieldAge + 1 } else s.dev.clu n) ∧
    (∀ n, t.dev.ld n =
      { s.dev.ld n with fab := { (s.dev.ld n).fab with
          reqs := (s.dev.ld n).fab.reqs.map fun r => { r with age := r.age + 1 } } }) ∧
    (∀ c, (c ∈ s.dev.poison ∨ ∀ x ∈ ups, x.1 ≠ c) → Map.get t.dev.upsets c [] = Map.get s.dev.upsets c [])) ∧
  (∀ (die clu : Nat) (s : State), (s.dev.die die).joined = true → clu / 256 = die →
    ∃ t, exec (.slackTrip die clu) s = .next t ∧
      t = { s with dev := { s.dev with dies := t.dev.dies, i3c := { s.dev.i3c with fault := t.dev.i3c.fault }, out := t.dev.out } } ∧
      (.slackEvent die clu) ∈ t.dev.out ∧
      (∀ n, n ≠ die → t.dev.die n = s.dev.die n) ∧
      ((s.dev.die die).tap < 62 → t.dev.i3c = s.dev.i3c ∧
        t.dev.die die = { s.dev.die die with trips := sat16 (s.dev.die die).trips, tap := (s.dev.die die).tap + 1 }) ∧
      ((s.dev.die die).tap = 62 → t.dev.alert = true ∧
        t.dev.die die = { s.dev.die die with trips := sat16 (s.dev.die die).trips, tap := 63, conservative := true }) ∧
      (63 ≤ (s.dev.die die).tap → t.dev.alert = true ∧
        t.dev.die die = { s.dev.die die with trips := sat16 (s.dev.die die).trips, marginLost := true })) ∧
  (∀ (draw : Nat) (tj : List Nat) (plan : List DiePlan) (s : State), s.dev.pins.rails = true →
    ∃ t, exec (.powerSample draw tj plan) s = .next t ∧
      t = { s with dev := { s.dev with
              dies := t.dev.dies, pwr := { s.dev.pwr with draw := t.dev.pwr.draw, pinBroken := t.dev.pwr.pinBroken },
              pins := { s.dev.pins with tjMax := t.dev.pins.tjMax }, i3c := { s.dev.i3c with fault := t.dev.i3c.fault },
              out := t.dev.out } } ∧
      t.dev.pwr.draw.toNat = min 4095 draw ∧ t.dev.pins.tjMax = min 255 (tj.foldl max 0) ∧
      (∀ n, t.dev.die n = { s.dev.die n with tj := (t.dev.die n).tj, vcore := (t.dev.die n).vcore, pacing := (t.dev.die n).pacing }) ∧
      (∀ n, n < 10 → (t.dev.die n).tj = min 255 (tj.getD n 0)) ∧
      (s.dev.pins.therm = true → ∀ n, t.dev.setting n = s.dev.setting n) ∧
      ((∀ n, n < 10 → 700 ≤ (s.dev.die n).vcore ∧ (s.dev.die n).vcore ≤ 850 ∧ (s.dev.die n).pacing ≤ 15) → s.dev.pins.therm = false →
        (∀ n, n < 10 →
          (700 ≤ (t.dev.die n).vcore ∧ (t.dev.die n).vcore ≤ 850 ∧ (t.dev.die n).pacing ≤ 15) ∧
          (s.dev.limit.1 < draw → (t.dev.die n).vcore ≤ (s.dev.die n).vcore ∧ (s.dev.die n).pacing ≤ (t.dev.die n).pacing) ∧
          (750 < (t.dev.die n).vcore → (s.dev.die n).vcore < (t.dev.die n).vcore →
            s.dev.pwr.boostEn = true ∧ draw < s.dev.limit.1 ∧ tj.getD n 0 < 80) ∧
          ((s.dev.die n).pacing < (t.dev.die n).pacing →
            s.dev.atFloor = true ∧ (s.dev.limit.1 < draw ∨ ∃ x ∈ tj, 105 < x) ∨ 3000 < draw) ∧
          ((s.dev.die n).pinned = true →
            ((t.dev.die n).vcore < (s.dev.die n).vcore ∧ (t.dev.die n).vcore < s.dev.pwr.pinMv ∨
              (s.dev.die n).pacing < (t.dev.die n).pacing) → s.dev.spent = true ∧ t.dev.pwr.pinBroken = true)) ∧
        ((s.dev.limit.1 < draw ∨ ∃ x ∈ tj, 105 < x) →
          (∃ n, n < 10 ∧ (s.dev.die n).pinned = s.dev.spent ∧ s.dev.setting n ≠ { vcore := 700, pacing := 15 }) →
          ∃ n, n < 10 ∧ (s.dev.die n).pinned = s.dev.spent ∧ takes (s.dev.setting n) (t.dev.setting n) = true))) ∧
  (∀ (n low f0 f1 : Nat) (t0 t1 : DramTest) (s : State),
    n < 10 → (s.dev.die n).joined = true → (s.dev.die n).calibrated = false →
    s.dev.startCount < 3 →
    ∃ t, exec (.dieCalibration n t0 t1 f0 f1 low) s = .next t ∧ t.now = s.now ∧ t.pending = s.pending ∧
      t.dev.clusters = s.dev.clusters ∧ (t.dev.die n).calibrated = true ∧
      (s.dev.pins.therm = false → (t.dev.die n).vcore = if (s.dev.die n).pinned then s.dev.pwr.pinMv else 750) ∧
      (low ≤ 61 → (t.dev.die n).tap = low + 2 ∧ (t.dev.die n).conservative = false ∧ (t.dev.die n).fp4fp6 = true) ∧
      (62 ≤ low → (t.dev.die n).tap = 63 ∧ (t.dev.die n).conservative = true ∧
        (t.dev.die n).fp4fp6 = (s.dev.die n).fp4fp6 ∧ t.dev.alert = true) ∧
      (∀ k, k ≠ n → t.dev.die k = s.dev.die k) ∧
      (s.dev.excluded (.stack (2 * n)) = false →
        (t.dev.unit (.stack (2 * n))).inService = (dramOk (.stack (2 * n)) t0 && s.dev.pins.clkCas) ∧
        (t.dev.unit (.stack (2 * n))).failed = !(dramOk (.stack (2 * n)) t0 && s.dev.pins.clkCas) ∧
        (t.dev.unit (.stack (2 * n))).marked = leftPins (.stack (2 * n)) t0 ∧
        ∀ a, inUnit (.stack (2 * n)) a = true →
          t.dev.byte a = if dramOk (.stack (2 * n)) t0 && s.dev.pins.clkCas then memDefault else s.dev.byte a) ∧
      ∀ a, inUnit (.stack (2 * n)) a = false → inUnit (.stack (2 * n + 1)) a = false → t.dev.byte a = s.dev.byte a)

/-! ## The control core -/

/-- The register banks (R155): a register other than g0 reads back what was written to it in the current bank; no other
register, and no register of the other bank, changes; g0 reads zero and discards writes. The integer instructions of three
registers (R158): each writes its result modulo 2^64 and moves the pc on by 4. Nothing else changes but what the fetch
corrected. ADDI and LUI (R158), whose immediates stand ready in the decoded instruction. Multiply and divide (R158): MUL
gives bits [63:0] of the product, MULH bits [127:64] of the product of signed integers; DIVU and REMU are unsigned and give
all ones and the dividend on a zero divisor. Clauses that rest on the model's own reading: log 25. -/
def Obligations.ControlCoreArithmetic : Prop :=
  (∀ (x : CtlRegs) (r q : Reg) (v : W64),
    (r ≠ 0 → (x.put r v).get r = v) ∧ (q ≠ r → (x.put r v).get q = x.get q) ∧ (x.put r v).get 0 = 0 ∧ x.put 0 v = x ∧
    (x.inFast = true → (x.put r v).normal = x.normal) ∧ (x.inFast = false → (x.put r v).fast = x.fast) ∧
    x.put r v = { x with normal := (x.put r v).normal, fast := (x.put r v).fast }) ∧
  (∀ (n : Nat) (d a b : Reg) (s : State), s.dev.fetchOk n →
    let x := s.dev.reg n a
    let y := s.dev.reg n b
    let done := fun (v : W64) => (.next (s.after n fun c => { c.put d v with pc := c.pc + 4 }) : Result)
    exec (.add n d a b) s = done (x + y) ∧ exec (.sub n d a b) s = done (x - y) ∧
    exec (.and n d a b) s = done (x &&& y) ∧ exec (.or n d a b) s = done (x ||| y) ∧ exec (.xor n d a b) s = done (x ^^^ y) ∧
    exec (.shl n d a b) s = done (x <<< (y.extractLsb' 0 6)) ∧ exec (.shr n d a b) s = done (x >>> (y.extractLsb' 0 6)) ∧
    exec (.sar n d a b) s = done (x.sshiftRight' (y.extractLsb' 0 6)) ∧
    exec (.slt n d a b) s = done (if x.toInt < y.toInt then 1 else 0) ∧
    exec (.sltu n d a b) s = done (if x.toNat < y.toNat then 1 else 0)) ∧
  (∀ (n : Nat) (d a : Reg) (imm : W64) (s : State), s.dev.fetchOk n →
    exec (.addi n d a imm) s = .next (s.after n fun c => { c.put d (s.dev.reg n a + imm) with pc := c.pc + 4 }) ∧
    exec (.lui n d imm) s = .next (s.after n fun c => { c.put d imm with pc := c.pc + 4 })) ∧
  (∀ (n : Nat) (d a b : Reg) (s : State), s.dev.fetchOk n →
    let x := s.dev.reg n a
    let y := s.dev.reg n b
    let done := fun (v : W64) => (.next (s.after n fun c => { c.put d v with pc := c.pc + 4 }) : Result)
    exec (.mul n d a b) s = done ((x.setWidth 128 * y.setWidth 128).extractLsb' 0 64) ∧
    exec (.mulh n d a b) s = done ((x.signExtend 128 * y.signExtend 128).extractLsb' 64 64) ∧
    exec (.divu n d a b) s = done (if y = 0 then BitVec.allOnes 64 else BitVec.ofNat 64 (x.toNat / y.toNat)) ∧
    exec (.remu n d a b) s = done (if y = 0 then x else BitVec.ofNat 64 (x.toNat % y.toNat)))

/-- Branches (R158): to the target, a cluster-store offset, when the condition holds, else to the next instruction; JAL and
JALR leave the offset of the next instruction in their destination. That BLT and BGE compare as signed integers and that
JALR adds its immediate are the model's reading (log entry 31). Clauses that rest on the model's own reading: log 24, 25,
31. -/
def Obligations.BranchesSetPc : Prop :=
  ∀ (n : Nat) (d a b : Reg) (tgt : BitVec 16) (imm : W64) (s : State), s.dev.fetchOk n →
    let x := s.dev.reg n a
    let y := s.dev.reg n b
    let go := fun (p : Prop) [Decidable p] =>
      (.next (s.after n fun c => { c with pc := if p then tgt else c.pc + 4 }) : Result)
    exec (.beq n a b tgt) s = go (x = y) ∧ exec (.bne n a b tgt) s = go (x ≠ y) ∧
    exec (.blt n a b tgt) s = go (x.toInt < y.toInt) ∧ exec (.bge n a b tgt) s = go (y.toInt ≤ x.toInt) ∧
    exec (.jal n d tgt) s = .next (s.after n fun c => { c.put d ((c.pc + 4).setWidth 64) with pc := tgt }) ∧
    exec (.jalr n d a imm) s =
      .next (s.after n fun c => { c.put d ((c.pc + 4).setWidth 64) with pc := (x + imm).setWidth 16 })

/-- LD (R157): a permitted load leaves the little-endian bytes in the low bits of its destination and moves on; memory,
every other cluster and every other register stay as they were. A load of 8 bytes fills the register; above a shorter load
the bits are a free value of the bytes loaded (log entry 32), so that two loads of the same bytes agree (R65). ST (R157): a
permitted store writes the low bytes of its source, little-endian, at its address, and moves on; every other byte, every
register but the pc and every other cluster stay as they were. The bus errors of loads and stores (R30, R157): outside a
handler an address above 44 bits, an address that is not naturally aligned, an unpopulated byte or a byte out of reach
raises an exception with cause 1, the code and the address; `pc` and `status` are saved, `in_normal` is set and the core
goes on at `vec_exc`. Memory and every general register stay. Clauses that rest on the model's own reading: log 27, 32, 100.
-/
def Obligations.LoadsAndStores : Prop :=
  (∀ (n : Nat) (d a : Reg) (sz : Size) (s : State), s.dev.quiet → s.dev.fetchOk n →
    let addr := (s.dev.reg n a).toNat
    s.dev.ctlAccess n false addr (sizeBytes sz) = none →
    let b := ofBytes ((List.range (sizeBytes sz)).map fun i => s.dev.byte (addr + i))
    let v : W64 := BitVec.ofNat 64 (loadWord (sizeBytes sz) b)
    v.toNat % 2 ^ (8 * sizeBytes sz) = b ∧
      exec (.ld n sz d a) s =
        .next { s with dev := s.dev.setClu n { s.dev.clu n with ctl := { (s.dev.clu n).ctl.put d v with pc := (s.dev.clu n).ctl.pc + 4 } } }) ∧
  (∀ (n : Nat) (r a : Reg) (sz : Size) (s : State), s.dev.quiet → s.memWf → s.dev.fetchOk n →
    let addr := (s.dev.reg n a).toNat
    s.dev.ctlAccess n true addr (sizeBytes sz) = none →
    ∃ t, exec (.st n sz r a) s = .next t ∧
      t = { s with dev := { s.dev.setClu n { s.dev.clu n with ctl := { (s.dev.clu n).ctl with pc := (s.dev.clu n).ctl.pc + 4 } } with
                            mem := t.dev.mem } } ∧
      (∀ i, i < sizeBytes sz → t.dev.byte (addr + i) = (s.dev.reg n r).extractLsb' (8 * i) 8) ∧
      s.dev.sameMemBut t.dev addr (sizeBytes sz)) ∧
  (∀ (n : Nat) (d a : Reg) (sz : Size) (s : State) (c : Code), s.dev.quiet → s.dev.fetchOk n →
    (s.dev.clu n).ctl.inHandler = false →
    let addr := (s.dev.reg n a).toNat
    let len := sizeBytes sz
    let taken := fun (e : Code) => (.next { s with dev := s.dev.setClu n { s.dev.clu n with
      ctl := { (s.dev.clu n).ctl with epc := (s.dev.clu n).ctl.pc, estatus := (s.dev.clu n).ctl.status,
                                      status := (s.dev.clu n).ctl.status ||| 4, pc := (s.dev.clu n).ctl.vecExc }
      clu := { (s.dev.clu n).clu with excCause := 1, excCode := e, excAddr := s.dev.reg n a } } } : Result)
    (2 ^ 44 ≤ addr → exec (.ld n sz d a) s = taken eRange ∧ exec (.st n sz d a) s = taken eRange) ∧
    (addr < 2 ^ 44 → addr % len ≠ 0 → exec (.ld n sz d a) s = taken eAlign ∧ exec (.st n sz d a) s = taken eAlign) ∧
    (addr < 2 ^ 44 → addr % len = 0 → s.dev.busCode (.clu n) false addr len = some c → exec (.ld n sz d a) s = taken c) ∧
    (addr < 2 ^ 44 → addr % len = 0 → s.dev.busCode (.clu n) true addr len = some c → exec (.st n sz d a) s = taken c))

/-- An undefined instruction raises an exception with cause 2, and so does IRET outside any handler (R158, R180); in a
handler IRET restores `pc` and `status` of the handler that it leaves, and the source stays in service (R178). An exception
inside a handler is a double fault (R180): the core stops in state 3, its program ends and the management controller hears
of it. HALT ends the cluster program (R158, R450, R501): the cluster becomes idle and free. The last cluster of a launch
completes its command; the boot code of a die that halts with g1 = 0 is done on that cluster. MFS and MTS (R155): MFS reads
a system register; MTS writes it, but a value that would change `in_normal` or `in_fast`, or that is no multiple of 4 for a
pc-type register, is ignored and leaves E_RANGE in `CLU_ERR_CODE`. Clauses that rest on the model's own reading: log 26. -/
def Obligations.ExceptionsAndProgramEnd : Prop :=
  (∀ (n : Nat) (s : State), s.dev.fetchOk n →
    let c := s.dev.clu n
    let d := s.dev.fetched n
    (c.ctl.inHandler = false →
      let t : State := { s with dev := d.setClu n { c with
        ctl := { c.ctl with epc := c.ctl.pc, estatus := c.ctl.status, status := c.ctl.status ||| 4, pc := c.ctl.vecExc }
        clu := { c.clu with excCause := 2, excCode := 0 } } }
      exec (.undefinedInstruction n) s = .next t ∧ exec (.iret n) s = .next t) ∧
    (c.ctl.inFast = true → exec (.iret n) s = .next { s with dev := d.setClu n { c with
      ctl := { c.ctl with pc := c.ctl.fpc, status := c.ctl.fstatus }, icu := { c.icu with fastSrc := none } } }) ∧
    (c.ctl.inFast = false → c.ctl.inNormal = true → exec (.iret n) s = .next { s with dev := d.setClu n { c with
      ctl := { c.ctl with pc := c.ctl.epc, status := c.ctl.estatus }, icu := { c.icu with normalSrc := none } } })) ∧
  (∀ (n : Nat) (s : State), s.dev.fetchOk n → (s.dev.clu n).ctl.inHandler = true → s.dev.launches = [] →
    (s.dev.clu n).occ = some .boot →
    ∃ t, exec (.undefinedInstruction n) s = .next t ∧
      t = { s with dev := { s.dev.fetched n with clusters := t.dev.clusters, out := s.dev.out ++ [.doubleFault n] } } ∧
      t.dev.clu n = { s.dev.clu n with st := .stopped, occ := none, yieldReq := none, atYield := none } ∧
      ∀ k, k ≠ n → t.dev.clu k = s.dev.clu k) ∧
  (∀ (n : Nat) (s : State), s.dev.quiet → s.dev.fetchOk n →
    (∀ j ∈ s.dev.launches, j.waiting = [] ∧ ∃ l q ct p, j.tkt.iss = .queue l q ct p) → (s.dev.clu n).occ ≠ some .crop →
    ∃ t, exec (.halt n) s = .next t ∧ t.pending = s.pending ∧ t.vault = s.vault ∧ t.now = s.now ∧ t.dev.quiet ∧
      t.dev.clu n = { s.dev.clu n with st := .idle, occ := none, yieldReq := none, atYield := none } ∧
      (∀ k, k ≠ n → t.dev.clu k = s.dev.clu k) ∧ t.dev.mem = s.dev.mem ∧
      (∀ id pos j, (s.dev.clu n).occ = some (.main id pos) → s.dev.launch? id = some j →
        (t.dev.launch? id).isSome = (j.running.any (· != n))) ∧
      ((s.dev.clu n).occ = some .boot → (s.dev.clu n).ctl.normal.get 1 = 0 → t.dev.launches = s.dev.launches ∧
        (t.dev.die (n / 256)).bootLeft = (s.dev.die (n / 256)).bootLeft.filter (· != n))) ∧
  (∀ (n : Nat) (d a : Reg) (s : State), s.dev.fetchOk n →
    let c := (s.dev.clu n).ctl
    let v := s.dev.reg n a
    let err : Result := .next { s with dev := (s.dev.fetched n).setClu n { s.dev.clu n with
      ctl := { c with pc := c.pc + 4 }, clu := { (s.dev.clu n).clu with errCode := eRange } } }
    (∀ sr, exec (.mfs n d sr) s = .next (s.after n fun c => { c.put d (c.sys sr) with pc := c.pc + 4 })) ∧
    ((v.getLsbD 2 = c.status.getLsbD 2 ∧ v.getLsbD 3 = c.status.getLsbD 3 →
        exec (.mts n .status a) s = .next (s.after n fun c => { c with status := (v.extractLsb' 0 4).setWidth 32, pc := c.pc + 4 })) ∧
      (v.getLsbD 2 ≠ c.status.getLsbD 2 ∨ v.getLsbD 3 ≠ c.status.getLsbD 3 → exec (.mts n .status a) s = err)) ∧
    ((v.getLsbD 2 = c.estatus.getLsbD 2 ∧ v.getLsbD 3 = c.estatus.getLsbD 3 →
        exec (.mts n .estatus a) s = .next (s.after n fun c => { c with estatus := (v.extractLsb' 0 4).setWidth 32, pc := c.pc + 4 })) ∧
      (v.getLsbD 2 ≠ c.estatus.getLsbD 2 ∨ v.getLsbD 3 ≠ c.estatus.getLsbD 3 → exec (.mts n .estatus a) s = err)) ∧
    ((v.extractLsb' 0 2 = 0 →
        exec (.mts n .vecExc a) s = .next (s.after n fun c => { c with vecExc := v.setWidth 16, pc := c.pc + 4 }) ∧
        exec (.mts n .epc a) s = .next (s.after n fun c => { c with epc := v.setWidth 16, pc := c.pc + 4 })) ∧
      (v.extractLsb' 0 2 ≠ 0 → exec (.mts n .vecExc a) s = err ∧ exec (.mts n .epc a) s = err ∧ exec (.mts n .vecFast a) s = err)))

/-- CSRR and CSRW (R174): CSRR reads a register of the cluster's block; CSRW stores a legal value; an unassigned offset
reads zero, and a write to it is rejected with E_RANGE; an offset that is no multiple of 4 is rejected with E_ALIGN. The pc
moves on by 4 in each case. TAGR and ELAP (R62, R158, R160): TAGR packs the finished tags and counts of the core in ga[4:0],
and with ga[63:5] not zero gives all ones and E_RANGE; ELAP reads the local elapsed counter. FENCE and DMAW (R167, R170):
each moves on once what it waits for has finished, changing nothing else, and otherwise stays at its own pc. Clauses that
rest on the model's own reading: log 23. -/
def Obligations.ClusterRegistersAndWaits : Prop :=
  (∀ (n : Nat) (d a : Reg) (off : BitVec 14) (s : State), s.dev.fetchOk n →
    let c := s.dev.clu n
    let v : W32 := (s.dev.reg n a).setWidth 32
    let wrote := fun (f : CluRegs → CluRegs) => (.next { s with dev := (s.dev.fetched n).setClu n { c with
      ctl := { c.ctl with pc := c.ctl.pc + 4 }, clu := f c.clu } } : Result)
    exec (.csrr n d 0x01C) s = .next (s.after n fun x => { x.put d (c.clu.coreFault.setWidth 64) with pc := x.pc + 4 }) ∧
    exec (.csrr n d 0x030) s = .next (s.after n fun x => { x.put d 0 with pc := x.pc + 4 }) ∧
    exec (.csrw n 0x01C a) s = wrote (fun x => { x with coreFault := x.coreFault &&& ~~~v }) ∧
    exec (.csrw n 0x068 a) s = wrote (fun x => { x with isat := x.isat &&& ~~~v }) ∧
    (fld v 31 16 = 0 → exec (.csrw n 0x008 a) s = wrote fun x => { x with errCode := v.setWidth 16 }) ∧
    (fld v 31 16 ≠ 0 → exec (.csrw n 0x008 a) s = wrote fun x => { x with errCode := eReservedNonzero }) ∧
    exec (.csrw n 0x030 a) s = wrote (fun x => { x with errCode := eRange }) ∧
    (off.toNat % 4 ≠ 0 → exec (.csrw n off a) s = wrote (fun x => { x with errCode := eAlign }) ∧
      exec (.csrr n d off) s = .next { s with dev := (s.dev.fetched n).setClu n { c with
        ctl := { c.ctl.put d 0 with pc := c.ctl.pc + 4 }, clu := { c.clu with errCode := eAlign } } })) ∧
  (∀ (n : Nat) (d a : Reg) (s : State), s.dev.fetchOk n →
    let c := s.dev.clu n
    let v := s.dev.reg n a
    let k := c.core v.toNat
    (v.toNat < 32 → exec (.tagr n d a) s = .next (s.after n fun x =>
      { x.put d (k.vcnt ++ k.mcnt ++ k.vtag ++ k.mtag) with pc := x.pc + 4 })) ∧
    (32 ≤ v.toNat → exec (.tagr n d a) s = .next { s with dev := (s.dev.fetched n).setClu n { c with
      ctl := { c.ctl.put d (BitVec.allOnes 64) with pc := c.ctl.pc + 4 }, clu := { c.clu with errCode := eRange } } }) ∧
    exec (.elap n d) s = .next (s.after n fun x => { x.put d s.now with pc := x.pc + 4 })) ∧
  (∀ (n : Nat) (k : BitVec 5) (a : Reg) (s : State), s.dev.fetchOk n →
    let c := s.dev.clu n
    let mask := s.dev.reg n a
    let done : Prop :=
      (∀ i, i < 32 → mask.getLsbD i = true → (k.getLsbD 0 = true → (c.core i).mq = []) ∧ (k.getLsbD 1 = true → (c.core i).vq = [])) ∧
      (k.getLsbD 2 = true → c.mover = []) ∧ (k.getLsbD 3 = true → c.dma = [])
    (done → exec (.fence n k a) s = .next (s.after n fun x => { x with pc := x.pc + 4 })) ∧
    (¬ done → exec (.fence n k a) s = .next { s with dev := s.dev.fetched n }) ∧
    (0 ≤ (c.clu.dmaDone - mask.setWidth 32).toInt → exec (.dmaw n a) s = .next (s.after n fun x => { x with pc := x.pc + 4 })) ∧
    ((c.clu.dmaDone - mask.setWidth 32).toInt < 0 → exec (.dmaw n a) s = .next { s with dev := s.dev.fetched n }))

/-! ## Issue, mover, DMA and the cores -/

/-- ISSUE.M and ISSUE.V (R108, R134, R159): a descriptor that passes its checks joins the queue of every core of the mask,
and gd receives 0; a rejected one leaves its code and queues nothing; a full queue leaves the instruction where it is, with
the wait counted. ISSUE.V of a descriptor that passes (R135, R138, R159): the operation, with the core's own copy of the
element program, joins the vector queue of every core of the mask, and gd receives 0. Clauses that rest on the model's own
reading: log 20, 23, 103. -/
def Obligations.IssueChecksAndQueues : Prop :=
  (∀ (n : Nat) (d a b : Reg) (s : State), s.dev.quiet → s.dev.fetchOk n →
    let c := s.dev.clu n
    let mask : W32 := (s.dev.reg n b).setWidth 32
    let off := (s.dev.reg n a).toNat
    let w0 : W32 := BitVec.ofNat 32 (ofBytes (s.dev.bytes (storeAddr n off) 4))
    let nw := if w0.getLsbD 26 then 12 else 8
    let ws := bytesToWords nw (s.dev.bytes (storeAddr n off) (4 * nw))
    let code := fun (e : Code) => (.next (s.after n fun x => { x.put d (e.setWidth 64) with pc := x.pc + 4 }) : Result)
    let room := ∀ k, k < 32 → mask.getLsbD k = true → (c.core k).mq.length < 4 ∧ (c.core k).vq.length < 4
    (room → mask = 0 → exec (.issueM n d a b) s = code eRange ∧ exec (.issueV n d a b) s = code eRange) ∧
    (room → mask ≠ 0 → off % 4 ≠ 0 → exec (.issueM n d a b) s = code eAlign ∧ exec (.issueV n d a b) s = code eAlign) ∧
    (room → mask ≠ 0 → off % 4 = 0 → 0x10000 < off + 4 * nw → exec (.issueM n d a b) s = code eRange) ∧
    (room → mask ≠ 0 → off % 4 = 0 → off + 4 * nw ≤ 0x10000 → c.clu.coreFault &&& mask ≠ 0 →
      exec (.issueM n d a b) s = code eState) ∧
    (room → mask ≠ 0 → off % 4 = 0 → off + 4 * nw ≤ 0x10000 → c.clu.coreFault &&& mask = 0 →
      (∀ e, mxCheck ws (s.dev.die (n / 256)).fp4fp6 = some e → exec (.issueM n d a b) s = code e) ∧
      (mxCheck ws (s.dev.die (n / 256)).fp4fp6 = none → ∃ t, exec (.issueM n d a b) s = .next t ∧
        t = { s with dev := s.dev.setClu n { c with ctl := { c.ctl.put d 0 with pc := c.ctl.pc + 4 }, cores := (t.dev.clu n).cores } } ∧
        ∀ k, (t.dev.clu n).core k =
          if k < 32 ∧ mask.getLsbD k = true then { c.core k with mq := (c.core k).mq ++ [{ words := ws }] } else c.core k)) ∧
    ((∃ k, k < 32 ∧ mask.getLsbD k = true ∧ 4 ≤ (c.core k).mq.length) → ∃ t, exec (.issueM n d a b) s = .next t ∧
      t = { s with dev := { s.dev.setClu n { c with clu := { c.clu with stall := (t.dev.clu n).clu.stall } } with free := t.dev.free } } ∧
      c.clu.stall.toNat ≤ (t.dev.clu n).clu.stall.toNat)) ∧
  (∀ (n : Nat) (d a b : Reg) (s : State), s.dev.quiet → s.dev.fetchOk n →
    let c := s.dev.clu n
    let mask : W32 := (s.dev.reg n b).setWidth 32
    let off := (s.dev.reg n a).toNat
    let ws := bytesToWords 32 (s.dev.bytes (storeAddr n off) 128)
    let v := vecDesc ws
    let prog := bytesToWords v.progLen (s.dev.bytes (storeAddr n v.prog) (4 * v.progLen))
    (∀ k, k < 32 → mask.getLsbD k = true → (c.core k).vq.length < 4) → mask ≠ 0 → off % 4 = 0 → off + 128 ≤ 0x10000 →
    c.clu.coreFault &&& mask = 0 → vecCheck ws = none →
    (progBad v prog = true → exec (.issueV n d a b) s =
      .next (s.after n fun x => { x.put d (eRange.setWidth 64) with pc := x.pc + 4 })) ∧
    (progBad v prog = false → ∃ t, exec (.issueV n d a b) s = .next t ∧
      t = { s with dev := s.dev.setClu n { c with ctl := { c.ctl.put d 0 with pc := c.ctl.pc + 4 }, cores := (t.dev.clu n).cores } } ∧
      ∀ k, (t.dev.clu n).core k =
        if k < 32 ∧ mask.getLsbD k = true then { c.core k with vq := (c.core k).vq ++ [{ words := ws, prog := prog }] } else c.core k))

/-- The mover commands (R162 to R164): one that passes its checks joins the queue and gd receives 0; with eight commands
queued it waits; reserved bits, then alignment, then ranges decide the code of one that is rejected. MOVER_COMMAND_FINISH
(R162): the command at the head of the queue takes effect and leaves; every other byte of memory and every other cluster
stay as they were. Clauses that rest on the model's own reading: log 2, 21. -/
def Obligations.MoverPostsAndMoves : Prop :=
  (∀ (n : Nat) (d a b e : Reg) (s : State), s.dev.fetchOk n →
    let c := s.dev.clu n
    let x := s.dev.reg n a
    let y := s.dev.reg n b
    let z := s.dev.reg n e
    let st := (x.extractLsb' 0 16).toNat
    let ca := (x.extractLsb' 16 15).toNat
    let len := (y.extractLsb' 0 15).toNat
    let code := fun (k : Code) => (.next (s.after n fun r => { r.put d (k.setWidth 64) with pc := r.pc + 4 }) : Result)
    let post := fun (m : MoverCmd) => (.next { s with dev := (s.dev.fetched n).setClu n { c with
      ctl := { c.ctl.put d 0 with pc := c.ctl.pc + 4 }, mover := c.mover ++ [m] } } : Result)
    c.mover.length < 8 →
    (x >>> 31 = 0 → y >>> 15 = 0 → st % 8 = 0 → ca % 8 = 0 → len % 8 = 0 → len ≠ 0 → st + len ≤ 0x10000 → ca + len ≤ 0x6000 →
      (z >>> 32 = 0 → z ≠ 0 → exec (.ocld n d a b e) s = post (.load st ca len (z.setWidth 32))) ∧
      (z >>> 32 = 0 → z = 0 → exec (.ocld n d a b e) s = code eRange) ∧
      (z >>> 32 ≠ 0 → exec (.ocld n d a b e) s = code eReservedNonzero) ∧
      (z >>> 5 = 0 → exec (.ocst n d a b e) s = post (.save st ca len z.toNat))) ∧
    (x >>> 31 = 0 → st = 0 → y >>> 15 = 0 → z >>> 32 = 0 → ca % 8 = 0 → len % 8 = 0 → len ≠ 0 → ca + len ≤ 0x6000 → z ≠ 0 →
      exec (.ocz n d a b e) s = post (.zeroCache ca len (z.setWidth 32))) ∧
    (let l := (y.extractLsb' 0 17).toNat
     x >>> 16 = 0 → y >>> 17 = 0 →
      (st % 8 = 0 → l % 8 = 0 → l ≠ 0 → st + l ≤ 0x10000 → exec (.csz n d a b) s = post (.zeroStore st l)) ∧
      (st % 8 ≠ 0 ∨ l % 8 ≠ 0 → exec (.csz n d a b) s = code eAlign) ∧
      (st % 8 = 0 → l % 8 = 0 → l = 0 ∨ 0x10000 < st + l → exec (.csz n d a b) s = code eRange)) ∧
    (let ec := (y.extractLsb' 0 2).toNat
     let col := (y.extractLsb' 2 7).toNat
     let r0 := (y.extractLsb' 9 7).toNat
     let ln := (y.extractLsb' 16 8).toNat
     let nc := (y.extractLsb' 24 7).toNat
     let p := (ln * 2 ^ ec + 7) / 8 * 8
     x >>> 31 = 0 → st = 0 → y >>> 31 = 0 → z >>> 32 = 0 → z ≠ 0 → ca % 8 = 0 →
      (ec < 3 → 0 < ln → r0 + ln ≤ 128 → col + nc + 1 ≤ 128 / 2 ^ ec → ca + (nc + 1) * p ≤ 0x6000 →
        exec (.oclt n d a b e) s = post (.loadT ca (2 ^ ec) col r0 ln (nc + 1) (z.setWidth 32))) ∧
      (ec = 3 ∨ ln = 0 ∨ 128 < r0 + ln → exec (.oclt n d a b e) s = code eRange))) ∧
  (∀ (n : Nat) (rest : List MoverCmd) (s : State), s.dev.quiet → s.memWf →
    (∀ st ca len cores, (s.dev.clu n).mover = .load st ca len cores :: rest → st + len ≤ 0x10000 → ca + len ≤ 0x6000 →
      ∃ t, exec (.moverCommandFinish n) s = .next t ∧
        t = { s with dev := { s.dev.setClu n { s.dev.clu n with mover := rest } with mem := t.dev.mem } } ∧
        (∀ k i, k < 32 → cores.getLsbD k = true → i < len → t.dev.byte (cacheAddr n k (ca + i)) = s.dev.byte (storeAddr n (st + i))) ∧
        (∀ x, (∀ k, k < 32 → cores.getLsbD k = true → x < cacheAddr n k ca ∨ cacheAddr n k ca + len ≤ x) → t.dev.byte x = s.dev.byte x)) ∧
    (∀ st ca len k, (s.dev.clu n).mover = .save st ca len k :: rest → st + len ≤ 0x10000 → ca + len ≤ 0x6000 → k < 32 →
      ∃ t, exec (.moverCommandFinish n) s = .next t ∧
        t = { s with dev := { s.dev.setClu n { s.dev.clu n with mover := rest } with mem := t.dev.mem } } ∧
        (∀ i, i < len → t.dev.byte (storeAddr n (st + i)) = s.dev.byte (cacheAddr n k (ca + i))) ∧
        s.dev.sameMemBut t.dev (storeAddr n st) len) ∧
    (∀ st len, (s.dev.clu n).mover = .zeroStore st len :: rest → ∃ t, exec (.moverCommandFinish n) s = .next t ∧
        t = { s with dev := { s.dev.setClu n { s.dev.clu n with mover := rest } with mem := t.dev.mem } } ∧
        (∀ i, i < len → t.dev.byte (storeAddr n (st + i)) = 0) ∧ s.dev.sameMemBut t.dev (storeAddr n st) len))

/-- DMAP (R165 to R168): a descriptor that passes every check joins the queue and gd receives 0, or waits while sixteen are
queued; a bad place of the descriptor decides first, then its fields in table order, the reach of its rows, an overlap, and
last the E_STATE of a standing error. A rejected descriptor queues nothing. DMA_DESCRIPTOR_START and DMA_DESCRIPTOR_FINISH
(R167): the oldest posted descriptor that has not started starts, with `after` once every earlier one has finished. A
descriptor of one row to one place that finishes has copied, or zeroed, its bytes; at the head of the queue it leaves and
`CLU_DMA_DONE` counts it, and `note` is set as it asks. A descriptor that meets an error while it runs (R168): its code and
tag are recorded, it and every later descriptor stop and are counted, and nothing is written. Clauses that rest on the
model's own reading: log 2, 21, 22. -/
def Obligations.DmaPostsAndRuns : Prop :=
  (∀ (n : Nat) (d a : Reg) (s : State), s.dev.quiet → s.dev.fetchOk n →
    let c := s.dev.clu n
    let off := (s.dev.reg n a).toNat
    let ws := bytesToWords 16 (s.dev.bytes (storeAddr n off) 64)
    let y := dmaDesc ws
    let code := fun (k : Code) => (.next (s.after n fun r => { r.put d (k.setWidth 64) with pc := r.pc + 4 }) : Result)
    let fits : Prop := firstFail (dmaFields ws n) = none ∧ s.dev.dmaReach n y = none ∧ y.meets n = false
    (off % 8 ≠ 0 → exec (.dmap n d a) s = code eAlign) ∧
    (off % 8 = 0 → 0xFFC0 < off → exec (.dmap n d a) s = code eRange) ∧
    (off % 8 = 0 → off ≤ 0xFFC0 →
      (∀ e, firstFail (dmaFields ws n) = some e → exec (.dmap n d a) s = code e) ∧
      (∀ e, firstFail (dmaFields ws n) = none → s.dev.dmaReach n y = some e → exec (.dmap n d a) s = code e) ∧
      (fits → c.clu.dmaErr = true → exec (.dmap n d a) s = code eState) ∧
      (fits → c.clu.dmaErr = false → c.dma.length < 16 → exec (.dmap n d a) s =
        .next { s with dev := s.dev.setClu n { c with ctl := { c.ctl.put d 0 with pc := c.ctl.pc + 4 },
                                                      dma := c.dma ++ [{ words := ws, started := false, finished := false }] } }) ∧
      (fits → c.clu.dmaErr = false → 16 ≤ c.dma.length → ∃ t, exec (.dmap n d a) s = .next t ∧
        t = { s with dev := { s.dev.setClu n { c with clu := { c.clu with stall := (t.dev.clu n).clu.stall } } with free := t.dev.free } }))) ∧
  (∀ (n : Nat) (e : DmaEntry) (s : State), s.dev.quiet → s.memWf →
    let c := s.dev.clu n
    let y := dmaDesc e.words
    (c.dma = [e] → e.started = false → exec (.dmaDescriptorStart n) s =
      .next { s with dev := s.dev.setClu n { c with dma := [{ e with started := true }] } }) ∧
    (c.dma = [e] → e.started = true → e.finished = false → s.dev.dmaReach n y = none → y.rows = 1 → y.cores = 0 →
      (y.zero = true ∨ y.src + y.len ≤ y.dst ∨ y.dst + y.len ≤ y.src) →
      ∃ t, exec (.dmaDescriptorFinish n 0) s = .next t ∧
        t = { s with dev := { s.dev.setClu n { c with dma := [], clu := { c.clu with dmaDone := c.clu.dmaDone + 1, dmaNote := c.clu.dmaNote || y.note } } with
                              mem := t.dev.mem } } ∧
        (∀ i, i < y.len → t.dev.byte (y.dst + i) = if y.zero then 0 else s.dev.byte (y.src + i)) ∧
        s.dev.sameMemBut t.dev y.dst y.len)) ∧
  (∀ (n : Nat) (e : DmaEntry) (later : List DmaEntry) (k : Code) (s : State), s.dev.quiet →
    let c := s.dev.clu n
    c.dma = e :: later → e.started = true → e.finished = false → s.dev.dmaReach n (dmaDesc e.words) = some k → k ≠ 0 →
    exec (.dmaDescriptorFinish n 0) s = .next { s with dev := s.dev.setClu n { c with
      dma := [], clu := { c.clu with dmaDone := c.clu.dmaDone + BitVec.ofNat 32 (later.length + 1), dmaErr := true,
                                     dmaErrTag := (dmaDesc e.words).tag, dmaErrCode := k } } })

/-- YIELD and YIELD_STOP (R171): without a request, or inside a handler, YIELD writes 0 and moves on. Under a request it
waits at its yield point, and under a hand-over request the cluster's state becomes 2. Under a stop request the program ends
there once every operation, mover command and descriptor of the cluster has finished. HAND_OVER of a drained cluster that
waits at its yield point (R172): the context is kept with 1 in the destination of the YIELD and the pc after it, the
registers of step 3 are cleared, the cluster store and every operand cache read zero, and the cluster is free. The bytes of
the save area are free values (log entry 36); no other byte changes. Clauses that rest on the model's own reading: log 2,
23, 35, 36. -/
def Obligations.YieldAndHandOver : Prop :=
  (∀ (n : Nat) (d : Reg) (s : State),
    let c := s.dev.clu n
    (s.dev.fetchOk n → c.yieldReq = none ∨ c.ctl.inHandler = true →
      exec (.yield n d) s = .next (s.after n fun x => { x.put d 0 with pc := x.pc + 4 })) ∧
    (s.dev.fetchOk n → c.ctl.inHandler = false → c.yieldReq = some .handOver →
      exec (.yield n d) s = .next { s with dev := (s.dev.fetched n).setClu n { c with atYield := some d, st := .handingOver } }) ∧
    (s.dev.fetchOk n → c.ctl.inHandler = false → c.yieldReq = some .stop →
      exec (.yield n d) s = .next { s with dev := (s.dev.fetched n).setClu n { c with atYield := some d } }) ∧
    (s.dev.snoops = [] → c.atYield = some d → c.yieldReq = some .stop → c.drained = true → s.dev.launches = [] → c.occ = some .boot →
      ∃ t, exec (.yieldStop n) s = .next t ∧ t = { s with dev := { s.dev with clusters := t.dev.clusters, dies := t.dev.dies } } ∧
        t.dev.clu n = { c with st := .idle, occ := none, yieldReq := none, atYield := none } ∧ ∀ k, k ≠ n → t.dev.clu k = s.dev.clu k) ∧
    (s.dev.snoops = [] → c.drained = false → exec (.yieldStop n) s = .next s)) ∧
  (∀ (n : Nat) (r : Reg) (j : CropJob) (s : State), s.dev.quiet → s.memWf →
    let c := s.dev.clu n
    let l := s.dev.ldOfDie (n / 256)
    c.atYield = some r → c.yieldReq = some .handOver → c.occ = some .crop → (s.dev.ld l).ctl.crop = some j → c.drained = true →
    s.dev.launches = [] → (∃ m, m ≠ n ∧ m ∈ j.on) → j.save + 1024 * n + 1024 ≤ sramBase →
    ∃ t, exec (.handOver n) s = .next t ∧ t.pending = s.pending ∧ t.vault = s.vault ∧ t.now = s.now ∧
      (t.dev.clu n).saved = some { ctl := { c.ctl.put r 1 with pc := c.ctl.pc + 4 }, clu := c.clu, icuEnable := c.icu.enable,
                                   icuSoft := c.icu.soft, icuMask := c.icu.mask, icuCfg := c.icu.cfg } ∧
      (t.dev.clu n).ctl = CtlRegs.init ∧ (t.dev.clu n).st = .idle ∧ (t.dev.clu n).occ = none ∧ (t.dev.clu n).icu.enable = false ∧
      (∀ k, k ≠ n → t.dev.clu k = s.dev.clu k) ∧
      (∀ i, i < 0x10000 → t.dev.byte (storeAddr n i) = 0) ∧
      (∀ k i, k < 32 → i < 0x6000 → t.dev.byte (cacheAddr n k i) = 0) ∧
      (∀ x, x < sramBase → (x < j.save + 1024 * n ∨ j.save + 1024 * n + 1024 ≤ x) → t.dev.byte x = s.dev.byte x))

/-- MATRIX_OP_START and VECTOR_OP_START (R108, R134): the operation at the head of a core's queue starts when none of its
kind runs; nothing else changes. MATRIX_OP_END and VECTOR_OP_END (R114, R117, R130, R146, R154, R160, R161). On readable
operands the operation leaves its queue, its tag becomes the most recently finished of its kind and its count rises by one;
the bytes that its product or its program gives are written to its output ranges, saturation and folds are noted, and no
other byte, no other core and no other cluster changes. On an operand that cannot be read the core faults: the operation
counts as finished, and so do those that wait, which are discarded. Clauses that rest on the model's own reading: log 2, 34,
98, 99, 101, 102. -/
def Obligations.CoreOperationsRun : Prop :=
  (∀ (n k : Nat) (s : State),
    let c := s.dev.clu n
    (((c.core k).mrun = false ∧ (c.core k).mq ≠ []) → exec (.matrixOpStart n k) s =
      .next { s with dev := s.dev.setClu n (c.setCore k { c.core k with mrun := true }) }) ∧
    (((c.core k).mrun = true ∨ (c.core k).mq = []) → exec (.matrixOpStart n k) s = .next s) ∧
    (((c.core k).vrun = false ∧ (c.core k).vq ≠ []) → exec (.vectorOpStart n k) s =
      .next { s with dev := s.dev.setClu n (c.setCore k { c.core k with vrun := true }) }) ∧
    (((c.core k).vrun = true ∨ (c.core k).vq = []) → exec (.vectorOpStart n k) s = .next s)) ∧
  (∀ (n k : Nat) (s : State),
    let c := s.dev.clu n
    let q := c.core k
    let rd := fun (off len : Nat) => s.dev.bytes (cacheAddr n k off) len
    let put := fun (ws : List (Nat × List Byte)) =>
      ws.foldl (fun m w => Mem.writeN memDefault m (cacheAddr n k w.1) w.2) s.dev.mem
    (∀ op rest, q.mrun = true → q.mq = op :: rest →
      let run := mxRun (mxDesc op.words) rd
      let tag : BitVec 16 := (word op.words 7).setWidth 16
      (s.dev.quiet → ∃ t, exec (.matrixOpEnd n k) s = .next t ∧
        t = { s with dev := { s.dev.setClu n (t.dev.clu n) with mem := put run.1 } } ∧
        t.dev.clu n = { c with cores := (t.dev.clu n).cores,
                               clu := { c.clu with isat := if run.2 then setBit c.clu.isat k else c.clu.isat } } ∧
        (t.dev.clu n).core k = { q with mq := rest, mrun := false, mtag := tag, mcnt := q.mcnt + 1 } ∧
        (∀ j, j ≠ k → (t.dev.clu n).core j = c.core j) ∧
        (∀ x, (∀ w ∈ run.1, x < cacheAddr n k w.1 ∨ cacheAddr n k w.1 + w.2.length ≤ x) → t.dev.byte x = s.dev.byte x)) ∧
      ((s.dev.cacheReads n k (mxDesc op.words).reads).2 = false → ∃ t, exec (.matrixOpEnd n k) s = .next t ∧
        t.dev.clu n = { c with cores := (t.dev.clu n).cores, clu := { c.clu with coreFault := setBit c.clu.coreFault k } } ∧
        (t.dev.clu n).core k =
          { q with mq := [], mrun := false, mtag := tag, mcnt := q.mcnt + 1 + BitVec.ofNat 16 rest.length,
                   vq := q.vq.take (b2n q.vrun), vcnt := q.vcnt + BitVec.ofNat 16 (q.vq.length - b2n q.vrun) } ∧
        ∀ j, j ≠ k → (t.dev.clu n).core j = c.core j)) ∧
    (∀ op rest, q.vrun = true → q.vq = op :: rest →
      let run := vecRun (vecDesc op.words) op.prog rd
      let tag : BitVec 16 := (word op.words 0 >>> 16).setWidth 16
      (s.dev.quiet → ∃ t, exec (.vectorOpEnd n k) s = .next t ∧
        t = { s with dev := { s.dev.setClu n (t.dev.clu n) with mem := put run.1 } } ∧
        t.dev.clu n = { c with cores := (t.dev.clu n).cores, clu := c.clu.folds run.2 } ∧
        (t.dev.clu n).core k = { q with vq := rest, vrun := false, vtag := tag, vcnt := q.vcnt + 1 } ∧
        (∀ j, j ≠ k → (t.dev.clu n).core j = c.core j) ∧
        (∀ x, (∀ w ∈ run.1, x < cacheAddr n k w.1 ∨ cacheAddr n k w.1 + w.2.length ≤ x) → t.dev.byte x = s.dev.byte x)) ∧
      ((s.dev.cacheReads n k ((vecDesc op.words).reads op.prog)).2 = false → ∃ t, exec (.vectorOpEnd n k) s = .next t ∧
        t.dev.clu n = { c with cores := (t.dev.clu n).cores, clu := { c.clu with coreFault := setBit c.clu.coreFault k } } ∧
        (t.dev.clu n).core k =
          { q with vq := [], vrun := false, vtag := tag, vcnt := q.vcnt + 1 + BitVec.ofNat 16 rest.length,
                   mq := q.mq.take (b2n q.mrun), mcnt := q.mcnt + BitVec.ofNat 16 (q.mq.length - b2n q.mrun) } ∧
        ∀ j, j ≠ k → (t.dev.clu n).core j = c.core j)))

/-- ICU_WIN (R176, R177): of the eligible sources the one wins that is fast where another is not, then has the higher
`prio`, then the lower number. It goes into service and its delivery window opens with the class and vector of the win; with
no eligible source nothing changes. HANDLER_ENTRY on a cluster (R177, R178): the handler of the class held since the win is
entered, whatever the source's level, mask or configuration is now; `ICU_ACTIVE` names the source. MSIX_POST, ICU_EOI and
RMAX_CLEAR (R83, R179, R181): the message names the vector of the win with the table entry of now, unless a mask holds it; a
write of a source in service takes it out of service, and one not in service or at or above `nsrc` is rejected with E_STATE
or E_RANGE; `CLU_RMAX_CTL` clears the maxima and the `sat` bits that it names. Clauses that rest on the model's own reading:
log 2, 28. -/
def Obligations.InterruptsArbitrateAndDeliver : Prop :=
  (∀ (i : IcuId) (n : Nat) (s : State),
    let x := s.dev.icu i
    let p := fun (m : Nat) => x.src m
    let w : Win := { src := n, fast := (p n).fast, vector := (p n).vector.toNat }
    (s.dev.eligible i = [] → exec (.icuWin i) s = .next s) ∧
    (n ∈ s.dev.eligible i →
      (∀ m ∈ s.dev.eligible i, m ≠ n → ((p n).fast = true ∧ (p m).fast = false) ∨
        ((p n).fast = (p m).fast ∧ ((p m).prio.toNat < (p n).prio.toNat ∨ (p m).prio = (p n).prio ∧ n < m))) →
      exec (.icuWin i) s = .next { s with dev := s.dev.modIcu i fun y =>
        { y with insvc := y.insvc ||| BitVec.ofNat 1024 (2 ^ n),
                 devWin := if onDevice i (p n) then some w else y.devWin,
                 hostWin := if onDevice i (p n) then y.hostWin else some w } })) ∧
  (∀ (n : Nat) (w : Win) (s : State),
    let c := s.dev.clu n
    c.icu.devWin = some w →
    (w.fast = false → exec (.handlerEntry (.clu n)) s = .next { s with dev := s.dev.setClu n { c with
      icu := { c.icu with devWin := none, normalSrc := some w.src }
      ctl := { c.ctl with epc := c.ctl.pc, estatus := c.ctl.status, status := c.ctl.status ||| 4, pc := c.ctl.vecNormal } } }) ∧
    (w.fast = true → exec (.handlerEntry (.clu n)) s = .next { s with dev := s.dev.setClu n { c with
      icu := { c.icu with devWin := none, fastSrc := some w.src }
      ctl := { c.ctl with fpc := c.ctl.pc, fstatus := c.ctl.status, status := c.ctl.status ||| 8, pc := c.ctl.vecFast } } })) ∧
  (∀ (ld n : Nat) (v : W32) (s : State),
    let h := (s.dev.ld ld).host
    let c := s.dev.clu n
    let src := fld v 10 0
    (∀ w, h.icu.hostWin = some w →
      let e := Map.get h.msix w.vector MsixEntry.init
      (h.msixFnMask = false → e.masked = false → exec (.msixPost ld) s = .next { s with dev :=
        { s.dev.modLd ld (fun l => { l with host := { l.host with icu := { l.host.icu with hostWin := none } } }) with
          out := s.dev.out ++ [.msix ld w.vector e.addr e.data] } }) ∧
      (h.msixFnMask = true ∨ e.masked = true → exec (.msixPost ld) s = .next s)) ∧
    (s.dev.reachesBlock .mc n = true → fld v 31 11 = 0 → src < 64 → c.icu.insvc.getLsbD src = true → ∃ t, exec (.icuEoi .mc (.clu n) v) s = .next t ∧
      t = { s with dev := s.dev.setClu n { c with icu := { c.icu with insvc := (t.dev.clu n).icu.insvc } } } ∧
      ∀ m, m < 1024 → (t.dev.clu n).icu.insvc.getLsbD m = (c.icu.insvc.getLsbD m && m != src)) ∧
    (s.dev.reachesBlock .mc n = true → fld v 31 11 = 0 → src < 64 → c.icu.insvc.getLsbD src = false →
      exec (.icuEoi .mc (.clu n) v) s = .next { s with dev := s.dev.cluErr n eState }) ∧
    (s.dev.reachesBlock .mc n = true → fld v 31 11 = 0 → 64 ≤ src → exec (.icuEoi .mc (.clu n) v) s = .next { s with dev := s.dev.cluErr n eRange }) ∧
    (s.dev.reachesBlock .mc n = true → fld v 31 16 = 0 → ∃ t, exec (.rmaxClear .mc n v) s = .next t ∧
      t = { s with dev := s.dev.setClu n { c with clu := { c.clu with rmax := (t.dev.clu n).clu.rmax, sat := (t.dev.clu n).clu.sat } } } ∧
      (∀ i : Fin 8, (t.dev.clu n).clu.rmax.get i = if v.getLsbD i.val then { nanSeen := false, maxAbs := 0 } else c.clu.rmax.get i) ∧
      ∀ i, i < 8 → (t.dev.clu n).clu.sat.getLsbD i = (c.clu.sat.getLsbD i && !v.getLsbD i && !v.getLsbD (8 + i))) ∧
    (s.dev.reachesBlock .mc n = true → fld v 31 16 ≠ 0 → exec (.rmaxClear .mc n v) s = .next { s with dev := s.dev.cluErr n eReservedNonzero }) ∧
    (s.dev.pageMode ld = .full → fld v 31 11 = 0 → src < icuSources (.ld ld) → h.icu.insvc.getLsbD src = true →
      ∃ t, exec (.icuEoi .mc (.ld ld) v) s = .next t ∧ t = { s with dev := { s.dev with lds := t.dev.lds } } ∧
      ∀ m, m < 1024 → (t.dev.ld ld).host.icu.insvc.getLsbD m = (h.icu.insvc.getLsbD m && m != src)))

/-! ## Memory -/

/-- SCRUB_STEP (R194, R196, R200 to R202, R206, R214 to R216): with `scrub_en` 1 the scrub of a unit in service reads the
next codeword of its pass, and the pass advances; of any other codeword there is no step. A codeword without error changes
nothing else; one whose error the code corrects is counted, recorded and written back, sets `ce`, and has its row queued
once `ce_repair` corrections of unmarked symbols have come in it; one that it finds uncorrectable is counted, recorded and
stored poisoned, sets `scrub_ue`, and has its row queued for repair. With `scrub_en` 0 nothing changes, and a write of
`ECC_SCRUB_CTL` keeps the progress. That a pass takes rising addresses is the model's choice (log entry 121). The repair of
rows (R207 to R209, R218): the first queued row of an idle unit starts. A soft repair that the bank can hold corrects the
row's codewords or stores them poisoned, is counted off the free resources and sets `repair`; one that it cannot leaves the
row as it is and sets `repair_none`; the row's address is recorded either way. `MEM_REPAIR_CMD` queues a row, or starts a
commit, after which the unit is busy and turns a second command away with E_STATE; a commit that completes makes the soft
repairs hard. That of a commit which runs out the first rows are the permanent ones is the model's choice (log entry 30).
ECC_SEL (R213): a legal selection takes effect in the LD that makes it and in no other; with `clear` 1 in LD 15 the same
write zeroes the counters and the record of the unit it selects; and the first failing check decides the code of a write
that is rejected, which changes neither field and clears nothing. Clauses that rest on the model's own reading: log 2, 29,
30, 121. -/
def Obligations.ErrorsScrubAndRepair : Prop :=
  (∀ (u : MemUnit) (a : Nat) (s : State),
    let x := s.dev.unit u
    let adv := fun (y : Machine.Unit) =>
      if x.scrubbed + 1 = unitCodewords u then { y with scrubbed := 0, passes := sat16 x.passes }
      else { y with scrubbed := x.scrubbed + 1 }
    (s.dev.memCtl.scrubEn = false ∨ x.inService = false ∨ a ≠ scrubAt u x.scrubbed → exec (.scrubStep u a) s = .next s) ∧
    (∀ (ag : Agent) (v : W32) (t : State), exec (.registerWrite ag (.ld 15) 0x6028 4 v) s = .next t →
      t.dev.units = s.dev.units) ∧
    (s.dev.memCtl.scrubEn = true → x.inService = true → a = scrubAt u x.scrubbed → unitOf a = some u → a ∉ s.dev.poison →
      let syms := Map.get s.dev.upsets a []
      odcMark ∉ syms →
      (syms = [] → ∃ t, exec (.scrubStep u a) s = .next t ∧ t = { s with dev := { s.dev with units := t.dev.units } } ∧
        t.dev.unit u = adv x ∧ ∀ v, unitKey v ≠ unitKey u → t.dev.unit v = s.dev.unit v) ∧
      (∀ ys, verdict u (x.markedOf (pchOf a)) syms = .corrected ys → ∃ t, exec (.scrubStep u a) s = .next t ∧
        t = { s with dev := { s.dev with units := t.dev.units, upsets := Map.del s.dev.upsets a, lds := t.dev.lds } } ∧
        (t.dev.unit u).ce = sat32 x.ce ∧ (t.dev.unit u).ue = x.ue ∧ (t.dev.unit u).scrubbed = (adv x).scrubbed ∧
        (x.last.kind ≠ 2 → x.last.kind ≠ 3 → (t.dev.unit u).last =
          { addr := BitVec.ofNat 44 a, kind := 1, req := 0, symbol := BitVec.ofNat 7 (ys.headD 127), pch := BitVec.ofNat 5 (pchOf a),
            ld := BitVec.ofNat 4 (s.dev.ldOfUnit u) }) ∧
        (x.last.kind = 2 ∨ x.last.kind = 3 → (t.dev.unit u).last = x.last) ∧
        (t.dev.ld 15).ecc.evt.getLsbD 0 = true ∧ (t.dev.ld (s.dev.ldOfUnit u)).ecc.evt.getLsbD 0 = true ∧
        (isDram u = true → (∃ y ∈ ys, y ∉ x.markedOf (pchOf a)) →
          s.dev.memCtl.ceRepair.toNat ≤ ((x.rows.find? fun r => r.1 == rowNum u a).map Prod.snd).getD 0 + 1 →
          ((t.dev.unit u).queued.any fun q => q.row == rowNum u a) = true)) ∧
      (verdict u (x.markedOf (pchOf a)) syms = .uncorrectable → ∃ t, exec (.scrubStep u a) s = .next t ∧
        t = { s with dev := { s.dev with units := t.dev.units, upsets := Map.del s.dev.upsets a, lds := t.dev.lds,
                                         poison := t.dev.poison } } ∧
        a ∈ t.dev.poison ∧ (∀ c, c ≠ a → (c ∈ t.dev.poison ↔ c ∈ s.dev.poison)) ∧
        (t.dev.unit u).ue = sat32 x.ue ∧ (t.dev.unit u).ce = x.ce ∧ (t.dev.unit u).last.kind = 2 ∧
        (t.dev.unit u).last.addr = BitVec.ofNat 44 a ∧ (t.dev.ld 15).ecc.evt.getLsbD 2 = true ∧
        (isDram u = true → ((t.dev.unit u).queued.any fun q => q.row == rowNum u a) = true)))) ∧
  (∀ (u : MemUnit) (s : State),
    let x := s.dev.unit u
    (∀ r rest, x.queued = r :: rest → x.inService = true → x.busy = false →
      ∃ t, exec (.softRepairStart u) s = .next t ∧ t = { s with dev := { s.dev with units := t.dev.units } } ∧
        t.dev.unit u = { x with queued := rest, running := some r } ∧ ∀ v, unitKey v ≠ unitKey u → t.dev.unit v = s.dev.unit v) ∧
    (∀ r (granted : Bool), x.running = some r →
      (granted = true → 0 < x.free → ∃ t, exec (.softRepairComplete u granted) s = .next t ∧
        t = { s with dev := { s.dev with units := t.dev.units, lds := t.dev.lds, mem := t.dev.mem, poison := t.dev.poison,
                                         upsets := t.dev.upsets, free := t.dev.free } } ∧
        (t.dev.unit u).running = none ∧ (t.dev.unit u).free = x.free - 1 ∧ r.row ∈ (t.dev.unit u).soft ∧
        (t.dev.unit u).report = some (r.addr, true) ∧ (t.dev.ld 15).ecc.evt.getLsbD 3 = true ∧
        (r.cmd = true → s.dev.poison = [] → s.dev.upsets = [] → (t.dev.unit u).lastCode = 0) ∧
        ∀ c, inRow u r.row c = true →
          (∀ ys, verdict u (x.markedOf (pchOf c)) (Map.get s.dev.upsets c []) = .corrected ys →
            Map.get t.dev.upsets c [] = [] ∧ (c ∈ t.dev.poison ↔ c ∈ s.dev.poison)) ∧
          (verdict u (x.markedOf (pchOf c)) (Map.get s.dev.upsets c []) = .uncorrectable → c ∈ t.dev.poison)) ∧
      (granted = false ∨ x.free = 0 → ∃ t, exec (.softRepairComplete u granted) s = .next t ∧
        t = { s with dev := { s.dev with units := t.dev.units, lds := t.dev.lds } } ∧
        (t.dev.unit u).running = none ∧ (t.dev.unit u).free = x.free ∧ (t.dev.unit u).soft = x.soft ∧
        (t.dev.unit u).report = some (r.addr, false) ∧ (t.dev.ld 15).ecc.evt.getLsbD 4 = true ∧
        (r.cmd = true → (t.dev.unit u).lastCode = eExhausted))) ∧
    (∀ (ag : Agent), reachesPage ag 15 = true → s.dev.pageMode 15 = .full →
      unitOf s.dev.memCtl.repairAddr.toNat = some u → isDram u = true → s.dev.excluded u = false → x.inService = true →
      let cw := cwOf s.dev.memCtl.repairAddr.toNat
      (x.busy = false → x.queued = [] → ∃ t, exec (.memRepairQueue ag 15) s = .next t ∧
        t = { s with dev := { s.dev with units := t.dev.units } } ∧
        t.dev.unit u = { x with queued := [{ row := rowNum u cw, addr := BitVec.ofNat 44 cw, cmd := true }] }) ∧
      (x.busy = false → ∃ t, exec (.memRepairCommit ag 15) s = .next t ∧
        t = { s with dev := { s.dev with units := t.dev.units } } ∧ t.dev.unit u = { x with committing := true } ∧
        exec (.memRepairQueue ag 15) t = .next { t with dev := t.dev.ldErr 15 eState }) ∧
      (x.busy = true → exec (.memRepairQueue ag 15) s = .next { s with dev := s.dev.ldErr 15 eState } ∧
        exec (.memRepairCommit ag 15) s = .next { s with dev := s.dev.ldErr 15 eState })) ∧
    (x.committing = true → (∃ t, exec (.repairCommitComplete u none) s = .next t ∧
        t = { s with vault := { s.vault with hard := s.vault.hard ++ x.soft.map fun r => (u, r) },
                     dev := { s.dev with units := t.dev.units } } ∧
        t.dev.unit u = { x with committing := false, lastCode := 0, soft := [] }) ∧
      (∀ k, ∃ t, exec (.repairCommitComplete u (some k)) s = .next t ∧
        t = { s with vault := { s.vault with hard := s.vault.hard ++ (x.soft.take k).map fun r => (u, r) },
                     dev := { s.dev with units := t.dev.units } } ∧
        t.dev.unit u = { x with committing := false, lastCode := eExhausted, soft := x.soft.drop k }))) ∧
  (∀ (ag : Agent) (ld : Nat) (v : W32) (s : State), reachesPage ag ld = true → s.dev.pageMode ld = .full →
    let kind := fld v 10 8
    let index := fld v 4 0
    let u := eccUnit kind index
    let rejected := fun (c : Code) => exec (.eccSelWrite ag ld v) s = .next { s with dev := s.dev.ldErr ld c }
    let clean := fld v 30 11 = 0 ∧ fld v 7 5 = 0
    (¬ clean → rejected eReservedNonzero) ∧
    (clean → ld ≠ 15 → v.getLsbD 31 = true → rejected ePerm) ∧
    (clean → ld = 15 ∨ v.getLsbD 31 = false → 4 ≤ kind ∨ eccCount kind ≤ index → rejected eRange) ∧
    (clean → v.getLsbD 31 = false → ld ≠ 15 → kind < 4 → index < eccCount kind → s.dev.ldOfUnit u ≠ ld → rejected ePerm) ∧
    (clean → v.getLsbD 31 = false → kind < 4 → index < eccCount kind → ld = 15 ∨ s.dev.ldOfUnit u = ld →
      ∃ t, exec (.eccSelWrite ag ld v) s = .next t ∧ t = { s with dev := { s.dev with lds := t.dev.lds } } ∧
        t.dev.ld ld = { s.dev.ld ld with ecc := { (s.dev.ld ld).ecc with kind := BitVec.ofNat 3 kind, index := BitVec.ofNat 5 index } } ∧
        ∀ n, n ≠ ld → t.dev.ld n = s.dev.ld n) ∧
    (clean → ld = 15 → kind < 4 → index < eccCount kind →
      ∃ t, exec (.eccClear ag ld v) s = .next t ∧ t = { s with dev := { s.dev with lds := t.dev.lds, units := t.dev.units } } ∧
        (t.dev.ld 15).selected = u ∧ (∀ n, n ≠ 15 → t.dev.ld n = s.dev.ld n) ∧
        t.dev.unit u = { s.dev.unit u with ce := 0, ue := 0, odc := 0, last := EccRec.init } ∧
        ∀ w, unitKey w ≠ unitKey u → t.dev.unit w = s.dev.unit w))

/-! ## Key-value state -/

/-- How a command is counted and reported: a command of a queue counts as accepted in `outstanding`, and its completion
takes it off again and advances `prod`; a rejected one advances `prod` without being counted (R444, R449, R453); the final
status of a ring entry carries the code with bit 31 set (R234); a message is answered in the reply mailbox (R556). Clauses
that rest on the model's own reading: log 10. -/
def Obligations.CommandsReport : Prop :=
  ∀ (d : Dev) (op : Nat) (bt : BitVec 16) (c : Code) (r : W32),
    (∀ l q ct pos,
      let tk : Ticket := { iss := .queue l q ct pos, op := op, btag := bt }
      let k := (d.ld l).cq q
      ((d.accept tk).ld l).cq q = { k with outstanding := k.outstanding + 1 } ∧
      ((d.reject tk c).ld l).cq q = { k with prod := k.prod + 1 } ∧
      ((d.finish tk c false r).ld l).cq q = { k with prod := k.prod + 1, outstanding := k.outstanding - 1 } ∧
      (Mem.wf memDefault d.hostMem = true → ∀ i, i < 64 →
        (d.finish tk c false r).hostByte (k.cbase.toNat + 64 + 32 * (k.prod.toNat % 2 ^ k.log2m) + i) =
          if i < 32 then (completionRecord c (recordStatus c false) ct bt op q r pos).getD i 0
          else d.hostByte (k.cbase.toNat + 64 + 32 * (k.prod.toNat % 2 ^ k.log2m) + i))) ∧
    (∀ n k, d.quiet → Mem.wf memDefault d.mem = true →
      let tk : Ticket := { iss := .kvRing n k, op := op, btag := bt }
      (d.accept tk) = d ∧ (d.finish tk c false r) = d.reject tk c ∧
      ((d.reject tk c).memWord (ringAddr .kv n + 0x3C8 + 4 * (k % 14))) = BitVec.ofNat 32 (c.toNat + 2 ^ 31)) ∧
    (∀ l, let tk : Ticket := { iss := .msg l, op := op, btag := bt }
      (((d.finish tk c false r).ld l).mbx 16).full = true ∧
      (((d.finish tk c false r).ld l).mbx 16).data.getD 1 0 = BitVec.ofNat 32 c.toNat ∧
      (((d.finish tk c false r).ld l).mbx 0).full = false)

/-- FREE and PIN (R230, R235, R236, R241): every page of the list enters RELEASING and waits for promotion no more, or has
its `pin` set to flag 0, and the command completes with 0; a stale reference, then a page of another domain, then a page in
another state decides the code of a FREE that is rejected, which changes no entry. ALLOC (R228, R236 to R239, R255): with
the quota, the handles and the frames that it needs, `count` FREE handles of the die enter ZEROING under the issuer's domain
with a frame that no page held, their references stand at `out_addr` in handle order, and every other entry stays; short of
the quota it ends in E_KV_QUOTA, short of handles or frames in E_KV_FULL. APPEND, TRIM, KEEP and GATHER (R231, R232, R235,
R236): each that passes its checks joins the die's KV engine with the fills read at that moment; a GATHER becomes a reader
of its pages and sets their `hot`. KV_COMMAND_COMPLETE (R227, R236): APPEND writes its rows and scales at the fill and
raises it; TRIM zero-fills from `new_fill` on; KEEP within a page moves the kept nodes to `tree_pos` and onwards and trims
after the last; GATHER copies the positions below the fill it read, from the frame it read, into zeroed regions and releases
its pages; every byte outside what the command writes stays. Clauses that rest on the model's own reading: log 37, 38, 107.
-/
def Obligations.PageCommandsAct : Prop :=
  (∀ (iss : Issuer) (die : Nat) (body : List W32) (s : State), s.dev.quiet → s.dev.dieServes die →
    let n := wfld body 1 6 0
    let refs := s.dev.refsAt (addrAt body 4) n
    let tk := ticketOf iss body
    let own := fun (r : W32) => fld r 31 29 = 0 ∧ refHandle r / dieHandles = die
    s.dev.listOk iss body n → wfld body 1 31 7 = 0 → onlyWords body 16 [0, 1, 4, 5] = true → wfld body 0 15 9 = 0 →
    (wfld body 0 8 8 = 0 →
      ((∀ r ∈ refs, s.dev.refOk die (s.dev.issDom iss) [.active, .inbound, .moving] r) →
        ∃ x : Dev, exec (.free iss die body) s = .next { s with dev := x.done tk 0 } ∧
          x = { s.dev.accept tk with kv := x.kv, promo := x.promo } ∧
          (∀ h, x.kvE h = if h ∈ refs.map refHandle then { s.dev.kvE h with st := .releasing } else s.dev.kvE h) ∧
          ∀ st h, h ∈ Map.get x.promo st [] ↔ h ∈ Map.get s.dev.promo st [] ∧ h ∉ refs.map refHandle) ∧
      ((∀ r ∈ refs, own r) → (∃ r ∈ refs, refGen r ≠ (s.dev.kvE (refHandle r)).gen.toNat) →
        exec (.free iss die body) s = .next { s with dev := s.dev.reject tk eKvStale }) ∧
      ((∀ r ∈ refs, own r ∧ refGen r = (s.dev.kvE (refHandle r)).gen.toNat) →
        (∃ r ∈ refs, (s.dev.kvE (refHandle r)).domain.toNat ≠ s.dev.issDom iss) →
        exec (.free iss die body) s = .next { s with dev := s.dev.reject tk ePerm }) ∧
      ((∀ r ∈ refs, own r ∧ refGen r = (s.dev.kvE (refHandle r)).gen.toNat ∧
          (s.dev.kvE (refHandle r)).domain.toNat = s.dev.issDom iss) →
        (∃ r ∈ refs, (s.dev.kvE (refHandle r)).st ∉ [.active, .inbound, .moving]) →
        exec (.free iss die body) s = .next { s with dev := s.dev.reject tk eState })) ∧
    ((∀ r ∈ refs, s.dev.refOk die (s.dev.issDom iss) [.zeroing, .active, .inbound, .moving] r) →
      ∃ x : Dev, exec (.pin iss die body) s = .next { s with dev := x.done tk 0 } ∧
        x = { s.dev.accept tk with kv := x.kv } ∧
        ∀ h, x.kvE h = if h ∈ refs.map refHandle then { s.dev.kvE h with pin := bit (word body 0).toNat 8 } else s.dev.kvE h)) ∧
  (∀ (iss : Issuer) (die : Nat) (body : List W32) (s : State), s.dev.quiet → s.dev.dieServes die →
    let n := wfld body 1 6 0
    let tier := wfld body 1 9 8
    let st := 2 * die + wfld body 1 12 12
    let ld := s.dev.issLd iss
    let dom := s.dev.issDom iss
    let tk := ticketOf iss body
    let hbm := s.dev.freeIn (.stack st)
    let lp := s.dev.lpFree ld
    let quota := (s.dev.dom dom).kvQ
    onlyWords body 16 [0, 1, 2, 4, 5] = true → wfld body 0 15 9 = 0 → wfld body 1 31 13 = 0 → wfld body 1 11 10 = 0 →
    wfld body 1 7 7 = 0 → wfld body 2 31 14 = 0 → addrHigh body 4 = false → addrAt body 4 % 8 = 0 →
    0 < n → n ≤ 64 → tier ≠ 3 → s.dev.kvPerm ld dom true (addrAt body 4) (4 * n) = false →
    (tier = 0 → s.dev.hbmUp st = true) →
    (quota < s.dev.kvUsed dom + n → exec (.alloc iss die body) s = .next { s with dev := s.dev.reject tk eKvQuota }) ∧
    (s.dev.kvUsed dom + n ≤ quota →
      s.dev.freeHandles die < n ∨ (tier = 0 ∧ hbm < n) ∨ (tier = 1 ∧ lp < n) ∨ (tier = 2 ∧ hbm + lp < n) →
      exec (.alloc iss die body) s = .next { s with dev := s.dev.reject tk eKvFull }) ∧
    (s.dev.kvUsed dom + n ≤ quota → n ≤ s.dev.freeHandles die → (tier = 0 → n ≤ hbm) → (tier = 1 → n ≤ lp) →
      (tier = 2 → n ≤ hbm + lp) → s.dev.regionsInside → die < 10 →
      ∃ (x : Dev) (hs frames : List Nat), exec (.alloc iss die body) s =
          .next { s with dev := (x.writeBytes reqEng (addrAt body 4) (wordsToBytes (hs.map x.refOf))).done tk 0 } ∧
        x = { s.dev.accept tk with kv := x.kv, lds := x.lds, free := x.free } ∧
        hs.length = n ∧ hs.Pairwise (· < ·) ∧ frames.length = n ∧ frames.Nodup ∧
        (∀ h ∈ hs, h / dieHandles = die ∧ s.dev.handleFree h = true) ∧ (∀ f ∈ frames, f ∉ s.dev.heldFrames) ∧
        (∀ h, h ∉ hs → x.kvE h = s.dev.kvE h) ∧
        ∀ i, i < n → x.kvE (hs.getD i 0) = { KvEntry.init with
          gen := (s.dev.kvE (hs.getD i 0)).gen, st := .zeroing, home := wfld body 1 12 12 = 1, domain := BitVec.ofNat 12 dom,
          frame := BitVec.ofNat 22 (frames.getD i 0),
          inbound := if bit (word body 0).toNat 8 then some (BitVec.ofNat 14 (wfld body 2 13 0)) else none })) ∧
  (∀ (iss : Issuer) (die : Nat) (body : List W32) (s : State), s.dev.quiet → s.dev.dieServes die →
    let ld := s.dev.issLd iss
    let dom := s.dev.issDom iss
    let tk := ticketOf iss body
    let y := kvLayout (word body 1)
    let r := word body 2
    let e := s.dev.kvE (refHandle r)
    let job := fun (hs : List Nat) => s.dev.jobOf iss body hs
    let queued := fun (hs : List Nat) => { s.dev.accept tk with
      kvJobs := Map.set s.dev.kvJobs die (Map.get s.dev.kvJobs die [] ++ [job hs]) }
    wfld body 0 15 8 = 0 → kvLayoutOk (word body 1) →
    (s.dev.refOk die dom [.active, .moving] r →
      (onlyWords body 16 [0, 1, 2, 3, 4, 5] = true → addrHigh body 4 = false → addrAt body 4 % 8 = 0 →
        wfld body 3 15 0 = e.fill.toNat → 0 < wfld body 3 31 16 → wfld body 3 15 0 + wfld body 3 31 16 ≤ y.ppos →
        s.dev.kvPerm ld dom false (addrAt body 4) (2 * wfld body 3 31 16 * (y.rowLen + y.scLen)) = false →
        exec (.append iss die body) s = .next { s with dev := queued [refHandle r] }) ∧
      (onlyWords body 16 [0, 1, 2, 3] = true → wfld body 3 31 16 = 0 → wfld body 3 15 0 ≤ e.fill.toNat →
        exec (.trim iss die body) s = .next { s with dev := queued [refHandle r] }) ∧
      (let two := word body 3 ≠ 0
       let e2 := s.dev.kvE (refHandle (word body 3))
       (two → s.dev.refOk die dom [.active, .moving] (word body 3)) →
        onlyWords body 16 [0, 1, 2, 3, 4, 5, 6, 7, 8, 9] = true → wfld body 5 31 5 = 0 →
        0 < wfld body 5 4 0 → wfld body 5 4 0 ≤ 16 → rising (keepNodes body) = true → (∀ c ∈ keepNodes body, c < 64) →
        (∀ i, wfld body 5 4 0 ≤ i → i < 16 → bits (word body (6 + i / 4)).toNat (8 * (i % 4) + 7) (8 * (i % 4)) = 0) →
        (∀ c ∈ keepNodes body, let p := (word body 4).toNat + c
          (p < y.ppos → p < e.fill.toNat) ∧ (y.ppos ≤ p → two ∧ p - y.ppos < e2.fill.toNat)) →
        exec (.keep iss die body) s = .next { s with
          dev := queued (if word body 3 = 0 then [refHandle r] else [refHandle r, refHandle (word body 3)]) })) ∧
    (let n := wfld body 2 6 0
     let refs := s.dev.refsAt (addrAt body 4) n
     s.dev.listOk iss body n → wfld body 2 31 7 = 0 → addrHigh body 6 = false → addrAt body 6 % 8 = 0 →
      onlyWords body 16 [0, 1, 2, 4, 5, 6, 7] = true → (∀ r ∈ refs, s.dev.refOk die dom [.active, .moving] r) →
      s.dev.kvPerm ld dom true (addrAt body 6) (n * frameBytes) = false →
      ∃ t, exec (.gather iss die body) s = .next t ∧
        t = { s with dev := { queued (refs.map refHandle) with kv := t.dev.kv, promo := t.dev.promo } } ∧
        ((s.dev.ld ld).kvm.promote = false → t.dev.promo = s.dev.promo) ∧
        ∀ h, t.dev.kvE h = { s.dev.kvE h with
          hot := (s.dev.kvE h).hot || decide (h ∈ refs.map refHandle),
          readers := (s.dev.kvE h).readers + (refs.map refHandle).count h })) ∧
  (∀ (die : Nat) (j : KvJob) (rest : List KvJob) (h : Nat) (s : State), s.dev.quiet → s.memWf →
    Map.get s.dev.kvJobs die [] = j :: rest → j.handles = [h] → (s.dev.kvE h).st = .active →
    (rest.all fun k => k.op != 0x29) = true → kvLayoutOk (word j.words 1) →
    let y := kvLayout (word j.words 1)
    let base := frameAt (s.dev.kvE h).frame
    let p := wfld j.words 3 15 0
    let n := wfld j.words 3 31 16
    let src := addrAt j.words 4
    let gone := { s.dev with kvJobs := Map.set s.dev.kvJobs die rest }
    (j.op = 0x22 → p + n ≤ y.ppos → s.dev.busCode (.eng j.ld j.dom) false src (2 * n * (y.rowLen + y.scLen)) = none →
      ∃ x : Dev, exec (.kvCommandComplete die 0) s = .next { s with dev := x.done j.tkt 0 } ∧
        x = { gone with mem := x.mem, kv := x.kv } ∧
        (∀ k, x.kvE k = if k = h then { s.dev.kvE h with fill := BitVec.ofNat 16 (p + n) } else s.dev.kvE k) ∧
        (∀ i, i < n * y.rowLen → x.byte (base + p * y.rowLen + i) = s.dev.byte (src + i) ∧
          x.byte (base + 0x200000 + p * y.rowLen + i) = s.dev.byte (src + n * y.rowLen + i)) ∧
        (∀ i, i < n * y.scLen → x.byte (base + y.scBase + p * y.scLen + i) = s.dev.byte (src + 2 * n * y.rowLen + i)) ∧
        (∀ a, (∀ r ∈ y.ranges p n, a < base + r.1 ∨ base + r.1 + r.2 ≤ a) → x.byte a = s.dev.byte a)) ∧
    (j.op = 0x23 → p ≤ y.ppos → ∃ x : Dev, exec (.kvCommandComplete die 0) s = .next { s with dev := x.done j.tkt 0 } ∧
        x = { gone with mem := x.mem, kv := x.kv } ∧
        (∀ k, x.kvE k = if k = h then { s.dev.kvE h with fill := BitVec.ofNat 16 p } else s.dev.kvE k) ∧
        (∀ r ∈ y.ranges p (y.ppos - p), ∀ i, i < r.2 → x.byte (base + r.1 + i) = 0) ∧
        (∀ a, (∀ r ∈ y.ranges p (y.ppos - p), a < base + r.1 ∨ base + r.1 + r.2 ≤ a) → x.byte a = s.dev.byte a)) ∧
    (j.op = 0x24 →
      let tp := (word j.words 4).toNat
      let nodes := keepNodes j.words
      nodes ≠ [] → rising nodes = true → (∀ c ∈ nodes, tp + c < y.ppos) →
      ∃ x : Dev, exec (.kvCommandComplete die 0) s = .next { s with dev := x.done j.tkt 0 } ∧
        x = { gone with mem := x.mem, kv := x.kv } ∧
        (∀ k, x.kvE k = if k = h then { s.dev.kvE h with fill := BitVec.ofNat 16 (tp + nodes.length) } else s.dev.kvE k) ∧
        (∀ k c, nodes[k]? = some c → ∀ q ∈ (y.ranges (tp + k) 1).zip (y.ranges (tp + c) 1), ∀ i, i < q.1.2 →
          x.byte (base + q.1.1 + i) = s.dev.byte (base + q.2.1 + i)) ∧
        (∀ r ∈ y.ranges (tp + nodes.length) (y.ppos - (tp + nodes.length)), ∀ i, i < r.2 → x.byte (base + r.1 + i) = 0) ∧
        (∀ a, (∀ r ∈ y.ranges tp (y.ppos - tp), a < base + r.1 ∨ base + r.1 + r.2 ≤ a) → x.byte a = s.dev.byte a)) ∧
    (j.op = 0x28 →
      let dst := addrAt j.words 6
      let f := j.fills.getD 0 0
      let base := frameAt (j.frames.getD 0 0)
      f ≤ y.ppos → (s.dev.kvE h).old = [] → dst + frameBytes ≤ base ∨ base + frameBytes ≤ dst →
      s.dev.busCode (.eng j.ld j.dom) true dst frameBytes = none →
      ∃ x : Dev, exec (.kvCommandComplete die 0) s = .next { s with dev := x.done j.tkt 0 } ∧
        x = { gone with mem := x.mem, kv := x.kv } ∧
        (∀ k, x.kvE k = if k = h then { s.dev.kvE h with readers := (s.dev.kvE h).readers - 1 } else s.dev.kvE k) ∧
        (∀ r ∈ y.ranges 0 f, ∀ i, i < r.2 → x.byte (dst + r.1 + i) = s.dev.byte (base + r.1 + i)) ∧
        (∀ i, i < frameBytes → (∀ r ∈ y.ranges 0 f, i < r.1 ∨ r.1 + r.2 ≤ i) → x.byte (dst + i) = 0) ∧
        s.dev.sameMemBut x dst frameBytes))

/-- MOVE and RETIRE (R228, R236, R241, R246): every page of the list that is not already in the tier enters MOVING with a
frame of the tier; a MOVE of pages that all lie there completes at once; RETIRE takes a FREE handle of the die into RETIRED,
naming the frame, moves an ACTIVE page that lies there to another frame, and is E_STATE for a frame already retired. The
life of a page (R228 to R231, R242): a zero fill makes a ZEROING page ACTIVE or INBOUND and a RELEASING page that nobody
holds FREE with the next generation; a completed copy makes a MOVING page ACTIVE in the target frame with the same bytes,
and its source frame is zero unless a reader still holds it; everything else of the entry stays. Clauses that rest on the
model's own reading: log 2, 37, 39, 107. -/
def Obligations.MovesRetiresAndFills : Prop :=
  (∀ (iss : Issuer) (die : Nat) (body : List W32) (s : State), s.dev.quiet → s.dev.dieServes die → die < 10 →
    let tk := ticketOf iss body
    let ld := s.dev.issLd iss
    wfld body 0 15 8 = 0 →
    (let n := wfld body 1 6 0
     let tier := wfld body 1 8 8
     let refs := s.dev.refsAt (addrAt body 4) n
     let stays := fun (h : Nat) => (inLp (s.dev.kvE h).frame.toNat = true ↔ tier = 1) ∨ (tier = 1 ∧ (s.dev.kvE h).pin = true)
     s.dev.listOk iss body n → wfld body 1 7 7 = 0 → wfld body 1 31 9 = 0 → onlyWords body 16 [0, 1, 4, 5] = true →
      (∀ r ∈ refs, s.dev.refOk die (s.dev.issDom iss) [.active] r) →
      ((∀ r ∈ refs, stays (refHandle r)) →
        exec (.move iss die body) s = .next { s with dev := (s.dev.accept tk).done tk 0 }) ∧
      (let hs := (refs.map refHandle).eraseDups.filter fun h =>
          if tier = 0 then inLp (s.dev.kvE h).frame.toNat else !inLp (s.dev.kvE h).frame.toNat && !(s.dev.kvE h).pin
       let got := s.dev.takeFrames ld (hs.map fun h => (homeStack h (s.dev.kvE h), tier)) []
       hs ≠ [] →
        (∀ fs, got = some fs → ∃ t, exec (.move iss die body) s = .next t ∧
          t = { s with dev := { s.dev.accept tk with kv := t.dev.kv, kvJobs := t.dev.kvJobs, lds := t.dev.lds } } ∧
          (∀ k, k ∉ hs → t.dev.kvE k = s.dev.kvE k) ∧
          (∀ p ∈ hs.zip fs, t.dev.kvE p.1 = { s.dev.kvE p.1 with st := .moving, target := some (BitVec.ofNat 22 p.2) }) ∧
          Map.get t.dev.kvJobs die [] = Map.get s.dev.kvJobs die [] ++ [{ s.dev.jobOf iss body hs with left := hs }]) ∧
        (got = none → exec (.move iss die body) s = .next { s with dev := s.dev.reject tk eKvFull }))) ∧
    (let a := addrAt body 4
     let f := a / frameBytes
     let gone := fun (t : State) (k : Nat) => k / dieHandles = die ∧ s.dev.handleFree k = true ∧
       t.dev.kvE k = { KvEntry.init with gen := (s.dev.kvE k).gen, st := .retired, frame := BitVec.ofNat 22 f }
     onlyWords body 16 [0, 4, 5] = true → addrHigh body 4 = false → a % frameBytes = 0 →
      ((∃ k o, placeOf a = .hbm k o ∧ k / 2 = die ∧ s.dev.excluded (.stack k) = false) ∨
        (∃ c o, placeOf a = .lp c o ∧ (s.dev.ld (s.dev.ldOfDie die)).lay.chanMask.getLsbD c = true ∧ s.dev.excluded (.channel c) = false)) →
      (∃ l q ct pos, iss = .queue l q ct pos) ∨ (∃ l, iss = .engine l) →
      let untouched := ∀ e ∈ s.dev.kv, e.2.st = .free ∨ ∀ x ∈ e.2.frame :: e.2.target.toList ++ e.2.old, x.toNat ≠ f
      (untouched → 1 ≤ s.dev.freeHandles die → ∃ t h, exec (.retire iss die body) s = .next t ∧
        t = { s with dev := { s.dev.accept tk with kv := t.dev.kv, kvJobs := t.dev.kvJobs, lds := t.dev.lds, free := t.dev.free } } ∧
        gone t h ∧ ∀ k, k ≠ h → t.dev.kvE k = s.dev.kvE k) ∧
      ((∃ e ∈ s.dev.kv, e.2.st = .retired ∧ e.2.frame.toNat = f) →
        exec (.retire iss die body) s = .next { s with dev := s.dev.reject tk eState }) ∧
      (∀ h g, s.dev.pageIn f = some h → (s.dev.kvE h).st = .active → (s.dev.kvE h).frame.toNat = f →
        (∀ e ∈ s.dev.kv, e.2.st = .retired → e.2.frame.toNat ≠ f) → s.dev.retireTarget ld h = some g →
        1 ≤ s.dev.freeHandles die → ∃ t k, exec (.retire iss die body) s = .next t ∧
          t = { s with dev := { s.dev.accept tk with kv := t.dev.kv, kvJobs := t.dev.kvJobs, lds := t.dev.lds, free := t.dev.free } } ∧
          gone t k ∧ t.dev.kvE h = { s.dev.kvE h with st := .moving, target := some (BitVec.ofNat 22 g) } ∧
          ∀ i, i ≠ k → i ≠ h → t.dev.kvE i = s.dev.kvE i) ∧
      (untouched → s.dev.freeHandles die = 0 → exec (.retire iss die body) s = .next { s with dev := s.dev.reject tk eKvFull }))) ∧
  (∀ (h : Nat) (s : State), s.dev.quiet → s.memWf →
    let e := s.dev.kvE h
    let base := frameAt e.frame
    (e.st = .zeroing → ∃ t, exec (.kvZeroFillComplete h) s = .next t ∧
      t = { s with dev := { s.dev with mem := t.dev.mem, kv := t.dev.kv } } ∧
      (∀ k, t.dev.kvE k = if k = h then { e with st := if e.dropped then .releasing else if e.inbound.isSome then .inbound else .active } else s.dev.kvE k) ∧
      (∀ i, i < frameBytes → t.dev.byte (base + i) = 0) ∧ s.dev.sameMemBut t.dev base frameBytes) ∧
    (e.st = .releasing → e.readers = 0 → e.target = none → ∃ t, exec (.kvZeroFillComplete h) s = .next t ∧
      t = { s with dev := { s.dev with mem := t.dev.mem, kv := t.dev.kv } } ∧
      (∀ k, t.dev.kvE k = if k = h then { KvEntry.init with gen := e.gen + 1 } else s.dev.kvE k) ∧
      (∀ i, i < frameBytes → t.dev.byte (base + i) = 0) ∧ s.dev.sameMemBut t.dev base frameBytes) ∧
    (e.st = .releasing → e.readers ≠ 0 ∨ e.target ≠ none → exec (.kvZeroFillComplete h) s = .next s) ∧
    (∀ f, e.st = .moving → e.target = some f → f ≠ e.frame → (∀ q ∈ s.dev.kvJobs, ∀ j ∈ q.2, h ∉ j.left) → ∃ t, exec (.kvMoveCopyComplete h) s = .next t ∧
      t = { s with dev := { s.dev with mem := t.dev.mem, kv := t.dev.kv, lds := t.dev.lds } } ∧
      (∀ k, t.dev.kvE k = if k = h then { e with st := .active, frame := f, target := none,
                                                 old := if e.readers = 0 then [] else e.old ++ [e.frame] } else s.dev.kvE k) ∧
      (∀ i, i < frameBytes → t.dev.byte (frameAt f + i) = s.dev.byte (base + i) ∧
        t.dev.byte (base + i) = if e.readers = 0 then 0 else s.dev.byte (base + i)) ∧
      (∀ a, (a < frameAt f ∨ frameAt f + frameBytes ≤ a) → (a < base ∨ base + frameBytes ≤ a) → t.dev.byte a = s.dev.byte a)))

/-- DEMOTION_SWEEP and PROMOTION (R240, R241): with `demote_en` 0 the sweep changes no page; below `low_pct`, or below
`high_pct` once it runs, it visits the next page of the stack: one that is not ACTIVE, pinned or being read is passed over,
a hot one loses `hot`, another begins to move to LPDDR5X, and with no LPDDR5X frame free `lp_full` is set. A page queued on
read begins to move to its home stack while that stack's free frames are at or above `high_pct` per cent. SEND and the check
at its receiver (R252, R253): an accepted SEND reads its pages and puts the first on the way to the member, with the CRC-32C
of its bytes (a fill above the layout's `ppos` counts as `ppos`: log 107); with no way to the member it ends at once. The
receiver answers a reference that is stale, not INBOUND or expected from another DID with E_KV_STALE, makes a page whose
bytes pass the check ACTIVE with the count sent and answers 0, answers a failed check with E_KV_HANDOFF, the fourth of a
page with `handoff_fail`, and discards what a lost member sent. Clauses that rest on the model's own reading: log 2, 39, 40,
107. -/
def Obligations.SweepsPromotionsAndHandoffs : Prop :=
  ((∀ (stack : Nat) (s : State), s.dev.snoops = [] →
    let ld := s.dev.ldOfDie (stack / 2)
    let k := (s.dev.ld ld).kvm
    let free := s.dev.freeIn (.stack stack) * 100
    let count := (s.dev.region (.stack stack)).2
    let c := (Map.get s.dev.sweepAt stack (0, false)).1
    let limit := if (Map.get s.dev.sweepAt stack (0, false)).2 then k.highPct.toNat * count else k.lowPct.toNat * count
    let mine := fun (e : Nat × KvEntry) =>
      e.2.st ≠ .free ∧ e.2.st ≠ .retired ∧ homeStack e.1 e.2 = stack ∧ inLp e.2.frame.toNat = false
    let went := fun (x : Dev) (n : Nat) (b : Bool) =>
      exec (.demotionSweep stack) s = .next { s with dev := { x with sweepAt := Map.set s.dev.sweepAt stack (n, b) } }
    (k.demote = false ∨ limit ≤ free → went s.dev c false) ∧
    (k.demote = true → free < limit → (∀ e ∈ s.dev.kv, ¬ mine e) → went s.dev c true) ∧
    (∀ h e pre post, k.demote = true → free < limit → s.dev.kv = pre ++ (h, e) :: post → mine (h, e) → (∀ x ∈ pre, x.1 ≠ h) →
      (c ≤ h ∧ ∀ x ∈ pre, mine x → x.1 < c) ∨ ((∀ x ∈ s.dev.kv, mine x → x.1 < c) ∧ ∀ x ∈ pre, ¬ mine x) →
      (e.st ≠ .active ∨ e.pin = true ∨ e.readers ≠ 0 → went s.dev (h + 1) true) ∧
      (e.st = .active → e.pin = false → e.readers = 0 → e.hot = true →
        went (s.dev.setKv h { e with hot := false }) (h + 1) true) ∧
      (e.st = .active → e.pin = false → e.readers = 0 → e.hot = false →
        (∀ f, s.dev.lpFrame ld [] = some f →
          went (s.dev.setKv h { e with st := .moving, target := some (BitVec.ofNat 22 f) }) (h + 1) true) ∧
        (s.dev.lpFrame ld [] = none → ∃ t, exec (.demotionSweep stack) s = .next t ∧
          t = { s with dev := { s.dev with sweepAt := Map.set s.dev.sweepAt stack (h, false), lds := t.dev.lds } } ∧
          (t.dev.ld ld).kvm.evt.getLsbD 2 = true)))) ∧
  (∀ (h : Nat) (s : State), s.dev.snoops = [] →
    let e := s.dev.kvE h
    let k := homeStack h e
    let q := Map.get s.dev.promo k []
    let high := (s.dev.ld (s.dev.ldOfDie (h / dieHandles))).kvm.highPct.toNat * (s.dev.region (.stack k)).2
    (h ∉ q → exec (.promotion h) s = .next s) ∧
    (h ∈ q → e.st = .active → inLp e.frame.toNat = true → s.dev.freeIn (.stack k) * 100 < high → exec (.promotion h) s = .next s) ∧
    (h ∈ q → e.st = .active → inLp e.frame.toNat = true → high ≤ s.dev.freeIn (.stack k) * 100 →
      ∀ f, s.dev.firstFree (.stack k) [] = some f → ∃ t, exec (.promotion h) s = .next t ∧
        t = { s with dev := { s.dev with kv := t.dev.kv, promo := t.dev.promo, lds := t.dev.lds } } ∧
        h ∉ Map.get t.dev.promo k [] ∧
        ∀ n, t.dev.kvE n = if n = h then { e with st := .moving, target := some (BitVec.ofNat 22 f) } else s.dev.kvE n))) ∧
  ((∀ (iss : Issuer) (die : Nat) (body : List W32) (s : State), s.dev.quiet → s.dev.dieServes die →
    let n := wfld body 2 6 0
    let refs := s.dev.refsAt (addrAt body 4) n
    let rs := s.dev.refsAt (addrAt body 6) n
    let ld := s.dev.issLd iss
    let did := wfld body 3 13 0
    let y := kvLayout (word body 1)
    let tk := ticketOf iss body
    let h := refHandle (refs.getD 0 0)
    let bytes := (y.ranges 0 (s.dev.kvE h).fill.toNat).flatMap fun r => s.dev.bytes (frameAt (s.dev.kvE h).frame + r.1) r.2
    s.dev.listOk iss body n → kvLayoutOk (word body 1) → wfld body 0 15 8 = 0 → wfld body 2 31 7 = 0 → wfld body 3 31 14 = 0 →
    addrHigh body 6 = false → addrAt body 6 % 8 = 0 → onlyWords body 16 [0, 1, 2, 3, 4, 5, 6, 7] = true →
    (∀ r ∈ refs, s.dev.refOk die (s.dev.issDom iss) [.active, .moving] r) →
    s.dev.kvPerm ld (s.dev.issDom iss) false (addrAt body 6) (4 * n) = false →
    (s.dev.sendCode ld did 2 = 0 → (s.dev.ld ld).fab.reqs.length < 65536 → ∃ t, exec (.send iss die body) s = .next t ∧
      t = { s with dev := { s.dev.accept tk with kv := t.dev.kv, kvJobs := t.dev.kvJobs, lds := t.dev.lds, out := t.dev.out,
                                                 ports := t.dev.ports, net := t.dev.net } } ∧
      s.dev.told t.dev ld did (.kvPage (word rs 0) (min (s.dev.kvE h).fill.toNat y.ppos) (word body 1) bytes (crc32c bytes)) ∧
      (Map.get t.dev.kvJobs die []).getLast? = 
        some { s.dev.jobOf iss body (refs.map refHandle) with left := refs.map refHandle, remotes := rs } ∧
      (∀ k, t.dev.kvE k = { s.dev.kvE k with
        hot := (s.dev.kvE k).hot || decide (k ∈ refs.map refHandle),
        readers := (s.dev.kvE k).readers + (refs.map refHandle).count k }) ∧
      ((t.dev.ld ld).fab.reqs.getLast?.map fun r => (r.dst, r.serves)) = some (BitVec.ofNat 14 did, .send (word rs 0))) ∧
    (Map.get s.dev.kvJobs die [] = [] → s.dev.sendCode ld did 2 ≠ 0 → s.dev.net.held = [] → (∀ k, (s.dev.kvE k).old = []) →
      ∃ x : Dev, exec (.send iss die body) s = .next { s with dev := x.finish tk (s.dev.sendCode ld did 2) false 0 } ∧
        x = { s.dev.accept tk with kv := x.kv, kvJobs := x.kvJobs, lds := x.lds } ∧ x.out = s.dev.out ∧
        Map.get x.kvJobs die [] = [] ∧ (x.ld ld).kvm.evt.getLsbD 3 = true ∧
        ∀ k, (x.kvE k).readers = (s.dev.kvE k).readers ∧ (x.kvE k).st = (s.dev.kvE k).st)) ∧
  (∀ (ref : W32) (src : BitVec 14) (count : Nat) (lay crc : W32) (s : State), s.dev.quiet →
    let h := refHandle ref
    let e := s.dev.kvE h
    let ld := s.dev.ldOfDie (h / dieHandles)
    let y := kvLayout lay
    let bytes := (y.ranges 0 count).flatMap fun r => s.dev.bytes (frameAt e.frame + r.1) r.2
    let good := count ≤ y.ppos ∧ crc32c bytes = crc
    let fits := refGen ref = e.gen.toNat ∧ e.st = .inbound ∧ e.inbound = some src
    let reply := fun (t : State) (c : Code) => s.dev.told t.dev ld src.toNat (.kvAck ref c)
    let lost := s.dev.isLost ld src.toNat
    (lost = true → exec (.handoffPageCheck ref src count lay crc) s = .next s) ∧
    (lost = false → ¬ fits → ∃ t, exec (.handoffPageCheck ref src count lay crc) s = .next t ∧ reply t eKvStale ∧
      t = { s with dev := { s.dev with lds := t.dev.lds, out := t.dev.out, ports := t.dev.ports, net := t.dev.net } } ∧ (t.dev.ld ld).kvm.evt.getLsbD 3 = true) ∧
    (lost = false → fits → good → ∃ t, exec (.handoffPageCheck ref src count lay crc) s = .next t ∧ reply t 0 ∧
      t = { s with dev := { s.dev with kv := t.dev.kv, out := t.dev.out, ports := t.dev.ports, net := t.dev.net } } ∧
      ∀ k, t.dev.kvE k = if k = h then { e with st := .active, fill := BitVec.ofNat 16 count, inbound := none, fails := 0 } else s.dev.kvE k) ∧
    (lost = false → fits → ¬ good → ∃ t, exec (.handoffPageCheck ref src count lay crc) s = .next t ∧ reply t eKvHandoff ∧
      t = { s with dev := { s.dev with kv := t.dev.kv, lds := t.dev.lds, out := t.dev.out, ports := t.dev.ports, net := t.dev.net } } ∧
      (∀ k, t.dev.kvE k = if k = h then { e with fails := if e.fails = 3 then 0 else e.fails + 1 } else s.dev.kvE k) ∧
      (e.fails = 3 → (t.dev.ld ld).kvm.evt.getLsbD 3 = true))))

/-- Score commands (R232, R244, R245, R247 to R249): a legal one joins its unit's queue with the frames and fills read at
that moment, becomes a reader of its pages and sets their `hot`; a unit that holds 16 takes no further one yet; and the
oldest command of a unit writes, for each query vector, what the recurrence of the pages gives, releases its pages and
completes. KVM_REGION_WRITE (R237, R257, R467): a legal region of an owned stack or channel takes effect and its frames
carry the tag state of KV regions; one that would give up a frame that a page holds ends in E_STATE, one that reaches beyond
the unit in E_RANGE, one of a unit of another LD in E_PERM, and the region stays. CLUSTER_RING_TAIL (R234): a `tail` more
than the ring's entries past `head`, or behind the last accepted one, posts nothing and leaves its low 16 bits with E_RANGE
in `ring_err`; the tail last accepted, written again with nothing waiting, changes nothing but the word itself. A posted
entry is taken: one that carries no command of the ring is done at once with E_RANGE; any other has the effect of its
command; and a FREE releases its pages, sets its status word and advances `head`. Clauses that rest on the model's own
reading: log 2, 41, 74, 107. -/
def Obligations.ScoreUnitsRegionsAndRings : Prop :=
  ((∀ (iss : Issuer) (body : List W32) (s : State), s.dev.quiet →
    let y := scoreDesc body
    let die := y.stack / 2
    let ld := s.dev.issLd iss
    let dom := s.dev.issDom iss
    let q := Map.get s.dev.score y.stack []
    let refs := s.dev.refsAt y.list y.npages
    let tk := ticketOf iss body
    (s.dev.ldOfDie die ≠ ld → firstFail (scoreStatic body) = none →
      exec (.scoreCommand iss body) s = .next { s with dev := s.dev.reject tk ePerm }) ∧
    (s.dev.ldOfDie die = ld → q.length = 16 → exec (.scoreCommand iss body) s = .next s) ∧
    (s.dev.ldOfDie die = ld → q.length < 16 → s.dev.dieServes die → firstFail (scoreStatic body) = none →
      s.dev.kvPerm ld dom false y.list (4 * y.npages) = false → (∀ r ∈ refs, s.dev.refOk die dom [.active, .moving] r) →
      (∀ a ∈ y.areas, s.dev.kvPerm ld dom a.2.2 a.1 a.2.1 = false) →
      (∀ r ∈ refs, homeStack (refHandle r) (s.dev.kvE (refHandle r)) = y.stack) →
      (∀ r ∈ refs.dropLast, (s.dev.kvE (refHandle r)).fill.toNat = y.lay.ppos) →
      ∃ t, exec (.scoreCommand iss body) s = .next t ∧
        t = { s with dev := { s.dev.accept tk with score := t.dev.score, kv := t.dev.kv, promo := t.dev.promo } } ∧
        Map.get t.dev.score y.stack [] = q ++
          [{ tkt := tk, ld := ld, dom := dom, words := body, pages := (refs.map refHandle).map fun h => (h, (s.dev.kvE h).fill.toNat),
             frames := (refs.map refHandle).map fun h => (s.dev.kvE h).frame }] ∧
        ∀ k, t.dev.kvE k = { s.dev.kvE k with
          hot := (s.dev.kvE k).hot || decide (k ∈ refs.map refHandle),
          readers := (s.dev.kvE k).readers + (refs.map refHandle).count k })) ∧
  (∀ (stack : Nat) (c : ScoreCmd) (rest : List ScoreCmd) (s : State), s.dev.quiet → s.memWf →
    Map.get s.dev.score stack [] = c :: rest → (∀ k, (s.dev.kvE k).old = []) →
    let y := scoreDesc c.words
    let row := fun (u : Nat) => y.output (s.dev.scoreVector y c.held u)
    (∀ a ∈ y.areas, s.dev.busCode (.eng c.ld c.dom) a.2.2 a.1 a.2.1 = none) →
    ∃ x : Dev, exec (.scoreComplete stack) s = .next { s with dev := x.done c.tkt 0 } ∧
      x = { s.dev with mem := x.mem, score := Map.set s.dev.score stack rest, kv := x.kv } ∧
      (∀ u i, u < y.vectors → i < y.outRow → x.byte (y.out + u * y.outRow + i) = (row u).getD i 0) ∧
      s.dev.sameMemBut x y.out (y.vectors * y.outRow) ∧
      ∀ k, (x.kvE k).readers = (s.dev.kvE k).readers - (c.pages.map Prod.fst).count k ∧ (x.kvE k).st = (s.dev.kvE k).st)) ∧
  (∀ (ag : Agent) (ld n : Nat) (lp : Bool) (v : W32) (s : State), reachesPage ag ld = true → s.dev.pageMode ld = .full →
    n < (if lp then 24 else 20) →
    let u := if lp then MemUnit.channel n else .stack n
    let total := if lp then 32768 else 24576
    let count := if lp then fld v 31 16 else fld v 29 15
    let base := if lp then fld v 15 0 else fld v 14 0
    let old := Map.get (if lp then s.dev.lpRgn else s.dev.stackRgn) n Region.init
    let first := (if lp then chanAddr n 0 else stackAddr n 0) / frameBytes
    let keeps := ∀ f ∈ s.dev.heldFrames, first + old.base ≤ f → f < first + old.base + old.count →
      first + base ≤ f ∧ f < first + base + count
    let rejected := fun (c : Code) => exec (.kvmRegionWrite ag ld lp n v) s = .next { s with dev := s.dev.ldErr ld c }
    (ld ≠ 15 → s.dev.ldOfUnit u ≠ ld → rejected ePerm) ∧
    (ld = 15 ∨ s.dev.ldOfUnit u = ld → (lp = false → fld v 31 30 = 0) →
      ((lp = false ∧ total ≤ base) ∨ total < base + count → rejected eRange) ∧
      ((lp = false → base < total) → base + count ≤ total → ¬ keeps → rejected eState) ∧
      ((lp = false → base < total) → base + count ≤ total → keeps →
        (∀ k, base ≤ k → k < base + count → old.base ≤ k ∧ k < old.base + old.count ∨
          (s.dev.tag (tagBase u + k)).st = .free ∧ s.dev.reserved (first * frameBytes + k * frameBytes) = false) →
        ∃ t, exec (.kvmRegionWrite ag ld lp n v) s = .next t ∧
          t = { s with dev := { s.dev with tags := t.dev.tags, lpRgn := t.dev.lpRgn, stackRgn := t.dev.stackRgn, lds := t.dev.lds } } ∧
          Map.get (if lp then t.dev.lpRgn else t.dev.stackRgn) n Region.init = { count := count, base := base } ∧
          (∀ k, base ≤ k → k < base + count → (t.dev.tag (tagBase u + k)).st = .kv)))) ∧
  (∀ (clu : Nat) (kind : RingKind) (tail : W32) (s : State), s.dev.quiet → s.memWf → clu < 2560 → (s.dev.clu clu).st ≠ .idle →
    let base := ringAddr kind clu
    let c := s.dev.clu clu
    let last := (c.ringCounts kind).2
    let taken := (c.ringCounts kind).1
    let head := s.dev.memWord (base + 0x3C4)
    let bytes := entryBytes kind
    let op := (s.dev.byte (base + bytes * (last.toNat % ringSize kind))).toNat
    (ringSize kind < (tail - head).toNat ∨ (tail - last).toInt < 0 → ∃ t, exec (.clusterRingTail clu kind tail) s = .next t ∧
      t = { s with dev := { s.dev with mem := t.dev.mem } } ∧ t.dev.memWord (base + 0x3C0) = tail ∧
      t.dev.memWord (base + 0x380) = BitVec.ofNat 32 (eRange.toNat + 2 ^ 16 * (tail.toNat % 2 ^ 16)) ∧
      ∀ a, (a < base + 0x3C0 ∨ base + 0x3C4 ≤ a) → (a < base + 0x380 ∨ base + 0x384 ≤ a) → t.dev.byte a = s.dev.byte a) ∧
    (tail = last → taken = last → (tail - head).toNat ≤ ringSize kind → ∃ t, exec (.clusterRingTail clu kind tail) s = .next t ∧
      t = { s with dev := { s.dev.setClu clu c with mem := t.dev.mem } } ∧ t.dev.memWord (base + 0x3C0) = tail ∧
      s.dev.sameMemBut t.dev (base + 0x3C0) 4) ∧
    (tail = last + 1 → taken = last → head = last → ringCarries kind op = false →
      s.dev.draining (.kvRing clu 0) (s.dev.ldOfDie (clu / 256)) c.domain.toNat = false →
      ∃ t, exec (.clusterRingTail clu kind tail) s = .next t ∧
        t = { s with dev := { s.dev with mem := t.dev.mem, clusters := t.dev.clusters } } ∧
        t.dev.memWord (base + 0x3C8 + 4 * (last.toNat % ringSize kind)) = BitVec.ofNat 32 (eRange.toNat + 2 ^ 31) ∧
        t.dev.memWord (base + 0x3C4) = tail ∧ (t.dev.clu clu).ringCounts kind = (tail, tail) ∧
        (∀ k, k ≠ clu → t.dev.clu k = s.dev.clu k) ∧ s.dev.sameMemBut t.dev base 0x400) ∧
    (let slot := base + 0x3C8 + 4 * (last.toNat % ringSize kind)
     let b := bytesToWords (bytes / 4) (s.dev.bytes (base + bytes * (last.toNat % ringSize kind)) bytes)
     let iss := match kind with | .kv => Issuer.kvRing clu last.toNat | .col => Issuer.colRing clu last.toNat
     let d1 := s.dev.putWord (base + 0x3C0) tail
     let posted : State := { s with dev := (d1.putWord slot (clearBit (d1.memWord slot) 31)).modClu clu fun c => c.setRing kind tail tail }
     tail = last + 1 → taken = last → (tail - head).toNat ≤ ringSize kind → ringCarries kind op = true →
      s.dev.draining iss (s.dev.ldOfDie (clu / 256)) c.domain.toNat = false →
      (∀ f, commandOf op iss (clu / 256) b = some f →
        let t := resultState posted (f posted)
        (t.dev.clu clu).ringCounts kind = (tail, tail) →
        ((t.dev.memWord slot).getLsbD 31 = true ∨ s.dev.ringHeld < t.dev.ringHeld) →
        exec (.clusterRingTail clu kind tail) s = .next t) ∧
      (let n := wfld b 1 6 0
       let refs := s.dev.refsAt (addrAt b 4) n
       kind = .kv → op = 0x21 → head = last → s.dev.dieServes (clu / 256) → s.dev.listOk iss b n →
        addrAt b 4 + 4 * n ≤ base ∨ base + 0x400 ≤ addrAt b 4 → wfld b 1 31 7 = 0 → wfld b 0 15 8 = 0 →
        onlyWords b 16 [0, 1, 4, 5] = true →
        (∀ r ∈ refs, s.dev.refOk (clu / 256) (s.dev.issDom iss) [.active, .inbound, .moving] r) →
        ∃ t, exec (.clusterRingTail clu kind tail) s = .next t ∧
          t = { s with dev := { s.dev with mem := t.dev.mem, clusters := t.dev.clusters, kv := t.dev.kv, promo := t.dev.promo } } ∧
          t.dev.memWord (base + 0x3C0) = tail ∧ t.dev.memWord slot = 0x80000000 ∧ t.dev.memWord (base + 0x3C4) = tail ∧
          (t.dev.clu clu).ringCounts kind = (tail, tail) ∧ (∀ k, k ≠ clu → t.dev.clu k = s.dev.clu k) ∧
          (∀ h, t.dev.kvE h = if h ∈ refs.map refHandle then { s.dev.kvE h with st := .releasing } else s.dev.kvE h) ∧
          s.dev.sameMemBut t.dev base 0x400)))

/-! ## Serving -/

/-- SUBMIT (R260, R263, R264, R284): a legal block is copied into a FREE slot, QUEUED under the issuer's domain, bound to
the READY adapter of its name, with the page layout, stretches and group of the LD's trellis (layout: log 44), and the
command's result is the slot's reference; a domain at its quota of slots is turned away with E_REQ_QUOTA, an unknown adapter
with E_ADP_UNKNOWN. The end of a request and CANCEL (R260, R266, R274, R280, R285): the slot returns to FREE with the next
generation, its pages enter RELEASING (a ZEROING one after its fill: log 107), its adapter loses a reference and the record
joins the completion ring; CANCEL ends a QUEUED or waiting request at once as CANCELLED, lets a step in flight run on in
CANCELLING, and is stale for a FREE slot or another generation. The steps of a request (R262, R265, R267, R273, R277, R286,
R288, R290): a due step whose pages are there begins, stamped with the present generation, asks the members on which its
other pages lie for them, tells the group its slot and stamp, and runs unless a layer is still to be swapped; with no die of
the LD joined it waits, and with every die absent it ends in E_STATE; where the domain's page quota leaves no page it waits
with `kv_wait` set; a tree step waits until the block's `index` is the next token index; the sampler's choice for a vector
joins the step; and the step's end writes the record of each token at its index. Clauses that rest on the model's own
reading: log 2, 38, 42, 43, 44, 46, 107, 109, 110, 111. -/
def Obligations.RequestsAdmitRunAndEnd : Prop :=
  (∀ (iss : Issuer) (body : List W32) (s : State), s.dev.quiet →
    let ld := s.dev.issLd iss
    let dom := s.dev.issDom iss
    let tk := ticketOf iss body
    let a := addrAt body 1
    let r := { ReqSlot.init with words := s.dev.refsAt a 32 }
    let ring := (s.dev.ld ld).host.reqCpl
    wfld body 0 15 8 = 0 → addrHigh body 1 = false → zeroWords body 3 15 = true → a % 64 = 0 →
    s.dev.busCode (.eng ld dom) false a 128 = none →
    (∀ c, firstFail (s.dev.reqChecks ld dom r) = some c → exec (.submit iss body) s = .next { s with dev := s.dev.reject tk c }) ∧
    (firstFail (s.dev.reqChecks ld dom r) = none → r.mode ≠ 2 → (s.dev.genTrl ld).isSome = true → ring.enable = true →
      ((s.dev.dom dom).reqQ ≤ s.dev.reqUsed dom →
        exec (.submit iss body) s = .next { s with dev := s.dev.reject tk eReqQuota }) ∧
      (s.dev.reqUsed dom < (s.dev.dom dom).reqQ → (s.dev.reqs.filter fun e => e.2.st != .free).length < reqSlots →
        s.dev.reqsOf ld < 2 ^ ring.log2m - (ring.prod - ring.head).toNat → r.penCap = 0 → r.penPrompt = false →
        ∃ x n, exec (.submit iss body) s = .next { s with dev := (x : Dev).finish tk 0 false (x.reqRef n) } ∧
          x = { s.dev.accept tk with reqs := x.reqs, adapters := x.adapters, free := x.free } ∧
          n < reqSlots ∧ s.dev.slotFree n = true ∧ (∀ k, k ≠ n → x.req k = s.dev.req k) ∧
          (x.req n).st = .queued ∧ (x.req n).words = r.words ∧ (x.req n).ld = ld ∧ (x.req n).dom = dom ∧
          (x.req n).gen = (s.dev.req n).gen ∧ (x.req n).admitted = s.now ∧ (x.req n).ntok = 0 ∧
          (x.req n).layout = s.dev.pageLayout ld ∧ (x.req n).spans = s.dev.stretchGroup ld ∧ (x.req n).group = s.dev.groupOthers ld ∧
          (word r.words 1 = 0 → (x.req n).adapter = none ∧ x.adapters = s.dev.adapters) ∧
          (word r.words 1 ≠ 0 → ∃ k, s.dev.adpFind .ready dom (word r.words 1) = some k ∧ (x.req n).adapter = some k ∧
            (x.adp k).refs = (s.dev.adp k).refs + 1)))) ∧
  ((∀ (now : W64) (n : Nat) (c : Code) (status : Nat) (d : Dev),
    let r := d.req n
    let e := d.endRequest now n c status
    e.req n = { ReqSlot.init with gen := r.gen + 1 } ∧ (∀ k, k ≠ n → e.req k = d.req k) ∧
    (e.ld r.ld).host.reqCpl.prod = (d.ld r.ld).host.reqCpl.prod + 1 ∧
    (∀ h, e.kvE h = if h ∈ d.ownPages r.dom (r.pages ++ r.oldPages) then
        (if (d.kvE h).st = .zeroing then { d.kvE h with dropped := true } else { d.kvE h with st := .releasing }) else d.kvE h) ∧
    (∀ k, r.adapter = some k → (e.adp k).refs = (d.adp k).refs - 1) ∧
    e = { d with reqs := e.reqs, lds := e.lds, kv := e.kv, promo := e.promo, adapters := e.adapters, hostMem := e.hostMem }) ∧
  (∀ (iss : Issuer) (body : List W32) (s : State), s.dev.snoops = [] →
    let tk := ticketOf iss body
    let n := wfld body 1 23 0
    let r := s.dev.req n
    let done := (s.dev.accept tk).done tk 0
    wfld body 0 15 8 = 0 → zeroWords body 2 15 = true →
    (reqSlots ≤ n → exec (.cancel iss body) s = .next { s with dev := s.dev.reject tk eRange }) ∧
    (n < reqSlots → r.gen.toNat ≠ wfld body 1 31 24 ∨ r.st = .free →
      exec (.cancel iss body) s = .next { s with dev := s.dev.reject tk eReqStale }) ∧
    (n < reqSlots → r.gen.toNat = wfld body 1 31 24 → r.st ≠ .free →
      (r.dom ≠ s.dev.issDom iss → exec (.cancel iss body) s = .next { s with dev := s.dev.reject tk ePerm }) ∧
      (r.dom = s.dev.issDom iss → iss ≠ .req n → r.endStatus = 0 →
        (r.st = .queued ∨ r.st = .wait → exec (.cancel iss body) s = .next { s with dev := done.endRequest s.now n 0 1 }) ∧
        (r.st = .running → r.inStep = true ∨ r.sending = true → ∃ t, exec (.cancel iss body) s = .next t ∧
          t = { s with dev := { done with reqs := t.dev.reqs } } ∧ t.dev.req n = { done.req n with st := .cancelling } ∧
          ∀ k, k ≠ n → t.dev.req k = done.req k) ∧
        (r.st = .cancelling → exec (.cancel iss body) s = .next { s with dev := done }))))) ∧
  (∀ (n : Nat) (s : State), s.dev.quiet → s.memWf →
    let r := s.dev.req n
    let l := s.dev.ld r.ld
    let only := fun (t : State) => t = { s with dev := { s.dev with reqs := t.dev.reqs } } ∧ ∀ k, k ≠ n → t.dev.req k = s.dev.req k
    let begun := fun (t : State) (tree : List Byte) =>
      let nodes := treeNodes tree
      let x := r.group.foldl (fun d m => d.tell r.ld m (.stepStamp n l.wave.stampNow)) (s.dev.askPages n (r.upTo nodes))
      t = { s with dev := { s.dev with reqs := t.dev.reqs, out := x.out, ports := x.ports, net := x.net } } ∧
      (∀ k, k ≠ n → t.dev.req k = s.dev.req k) ∧ (t.dev.req n).stamp = some l.wave.stampNow ∧
      (t.dev.req n).treeLen = nodes ∧ (t.dev.req n).mask = (if tree = [] then [] else treeMask tree) ∧ (t.dev.req n).pages = r.pages ∧
      (t.dev.req n).asked = max r.asked (r.seqPages (r.upTo nodes)) ∧
      (t.dev.req n).st = if (s.dev.barrier r.ld l.wave.stampNow).isSome then .wait else .running
    let ready := s.dev.stepsRun r.ld = true ∧ r.inStep = false ∧ r.sending = false ∧ r.ntok < r.maxTokens ∧ r.redo = false
    let plain := r.specEn = false ∨ (r.steps = 0 ∧ r.mode ≠ 2)
    let starts := fun (c : Instr) =>
      ready → plain → ∀ want, s.dev.pagesFor r (r.upTo 0) = some want →
      (want ≤ r.pages.length → ∃ t, exec c s = .next t ∧ begun t []) ∧
      (r.pages.length < want → s.dev.diesUp r.ld = [] →
        (s.dev.diesLeft r.ld = [] → exec c s = .next { s with dev := s.dev.failRequest s.now n eState }) ∧
        (s.dev.diesLeft r.ld ≠ [] → ∃ t, exec c s = .next t ∧ only t ∧ t.dev.req n = { r with st := .wait, why := .kv })) ∧
      (r.pages.length < want → s.dev.diesUp r.ld ≠ [] →
        (s.dev.dom r.dom).kvQ < s.dev.kvUsed r.dom + 1 → r.kvFullEnd = false →
        ∃ t, exec c s = .next t ∧ t = { s with dev := { s.dev with reqs := t.dev.reqs, lds := t.dev.lds, free := t.dev.free } } ∧
          t.dev.req n = { r with st := .wait, why := .kv } ∧ (t.dev.ld r.ld).reqEvt.getLsbD 0 = true)
    let tree := s.dev.bytes (r.addr 4) 384
    let pen := r.addr 2
    let cap := r.penCap
    let entries := penEntries (bytesToWords cap (s.dev.bytes pen (4 * cap)))
    let listed := ∀ w, s.dev.busCode (.eng r.ld r.dom) w pen (4 * cap) = none
    let out := r.addr 1 + 16 * r.nextIdx
    let lp := fun (x : W32) => if r.lpEn then x.toNat else 0
    (r.st = .queued ∨ r.st = .running → starts (.tokenStepBegin n)) ∧
    (r.st = .wait → r.why = .kv → starts (.kvWaitRetry n)) ∧
    (r.st = .wait → r.why = .tree → ready → r.specEn = true → r.steps ≠ 0 ∨ r.mode = 2 →
      s.dev.busCode (.eng r.ld r.dom) false (r.addr 4) 384 = none →
      (treeIndex tree ≠ r.nextIdx → ∃ t, exec (.treeIndexWaitEnd n) s = .next t ∧ only t ∧ t.dev.req n = r) ∧
      (treeIndex tree = r.nextIdx → treeBad tree r.lastTok = false →
        ∀ want, s.dev.pagesFor r (r.upTo (treeNodes tree)) = some want → want ≤ r.pages.length →
        ∃ t, exec (.treeIndexWaitEnd n) s = .next t ∧ begun t tree)) ∧
    (r.st = .running → r.inStep = true → r.sampled = false → s.dev.barrier r.ld (r.stamp.getD 0) = none → r.treeLen = 0 →
      r.chosen = [] → s.dev.busCode (.eng r.ld r.dom) false (r.addr 3 + 4 * r.vocab * r.node) (4 * r.vocab) = none → listed →
      let raw := (List.range r.vocab).map fun i => num (s.dev.bytes (r.addr 3 + 4 * r.vocab * r.node) (4 * r.vocab)) (4 * i) 4
      ∀ tok a b, sampleOne r.params (fun v => ((entries.find? fun e => e.1 == v).map Prod.snd).getD 0) r.nextIdx raw = some (tok, a, b) →
        ∃ t, exec (.sampleVector n) s = .next t ∧ only t ∧
          t.dev.req n = { r with chosen := [(tok, BitVec.ofNat 32 a, BitVec.ofNat 32 b)], sampled := true }) ∧
    (∀ tok a b, r.st = .running → r.inStep = true → r.sampled = true → r.treeLen = 0 → r.mode ≠ 1 → r.chosen = [(tok, a, b)] →
      s.dev.busCode (.eng r.ld r.dom) true out 16 = none → listed → pen + 4 * cap ≤ out ∨ out + 16 ≤ pen → r.oldPages = [] →
      let rec_ := toBytes 4 tok ++ toBytes 4 (lp a) ++ toBytes 4 (lp b) ++ toBytes 4 (r.nextIdx % 2 ^ 31 + 2 ^ 31)
      ∃ t, exec (.tokenStepEnd n) s = .next t ∧ (∀ i, i < 16 → t.dev.byte (out + i) = rec_.getD i 0) ∧
        (∀ i, i < 4 * cap → t.dev.byte (pen + i) = (wordsToBytes (penWords cap (penAdd cap tok entries).1)).getD i 0) ∧
        (∀ x, (x < out ∨ out + 16 ≤ x) → (x < pen ∨ pen + 4 * cap ≤ x) → t.dev.byte x = s.dev.byte x) ∧
        (∀ k, k ≠ n → t.dev.req k = s.dev.req k) ∧
        (tok ≠ r.endToken → r.ntok + 1 < r.maxTokens → t.dev.kv = s.dev.kv ∧ t.dev.hostMem = s.dev.hostMem ∧
          (t.dev.req n).st = .running ∧ (t.dev.req n).stamp = none ∧ (t.dev.req n).steps = r.steps + 1 ∧
          (t.dev.req n).ntok = r.ntok + 1 ∧ (t.dev.req n).nextIdx = r.nextIdx + 1 ∧ (t.dev.req n).lastTok = tok ∧
          (t.dev.req n).genLast = r.stamp.getD 0 ∧
          ((r.steps ≠ 0 ∨ r.mode = 2) → r.genLast ≠ r.stamp.getD 0 → r.genIdx = none → (t.dev.req n).genIdx = some r.nextIdx)) ∧
        (tok = r.endToken ∨ r.maxTokens ≤ r.ntok + 1 → t.dev.req n = { ReqSlot.init with gen := r.gen + 1 } ∧
          (t.dev.ld r.ld).host.reqCpl.prod = l.host.reqCpl.prod + 1)))

/-- Adapters (R281 to R285): ADP_LOAD takes a FREE slot into LOADING; a load that verifies makes it READY and sends the slot
that held the name to RETIRING, or to ZEROING when nothing refers to it; a load that fails goes to ZEROING; ADP_DROP does
the same to the READY slot it names, and an unknown name is rejected; a zero-filled slot is FREE. The swap wave (R286 to
R289): SWAP of the next generation opens the wave, so that later steps are stamped with it, and records the steps in flight,
and with `recompute` marks the requests in flight whose KV an older generation made; a member acts on the origin's notice
only when its bitmap has the notice's CRC, and otherwise asks for it again; layers are swapped in rising order, each copy
then holding the new generation and letting go the steps that waited, up to the barrier of the next layer still to be
swapped (log 109); a copy that fails stops the wave; and the wave is over when every member has reported. Clauses that rest
on the model's own reading: log 2, 47, 48, 49, 109, 110. -/
def Obligations.AdaptersAndSwapWaves : Prop :=
  ((∀ (iss : Issuer) (body : List W32) (s : State), s.dev.quiet →
    let tk := ticketOf iss body
    let ld := s.dev.issLd iss
    let dom := s.dev.issDom iss
    let a := adpOf ld dom tk body
    wfld body 0 15 8 = 0 → wfld body 2 31 25 = 0 → addrHigh body 3 = false → addrHigh body 6 = false → zeroWords body 9 15 = true →
    (a.rank.toNat < 8 ∨ 256 < a.rank.toNat ∨ a.rank.toNat % 8 ≠ 0 →
      exec (.adpLoad iss body) s = .next { s with dev := s.dev.reject tk eRange }) ∧
    (a.name ≠ 0 → 8 ≤ a.rank.toNat → a.rank.toNat ≤ 256 → a.rank.toNat % 8 = 0 →
      (∀ k, s.dev.adpFind .ready dom a.name = some k → (s.dev.adp k).version.toNat < a.version.toNat) →
      s.dev.busCode (.eng ld dom) false a.src.toNat a.srcLen.toNat = none →
      s.dev.busCode (.eng ld dom) true a.addr.toNat a.len.toNat = none →
      ((s.dev.adpFind .loading dom a.name).isSome = true →
        exec (.adpLoad iss body) s = .next { s with dev := s.dev.reject tk eState }) ∧
      (s.dev.adpFind .loading dom a.name = none → s.dev.adapters.length < adpSlots →
        ∃ t k, exec (.adpLoad iss body) s = .next t ∧ t = { s with dev := { s.dev.accept tk with adapters := t.dev.adapters } } ∧
          k < adpSlots ∧ (s.dev.adp k).st = .free ∧ t.dev.adp k = a ∧ ∀ j, j ≠ k → t.dev.adp j = s.dev.adp j))) ∧
  (∀ (k : Nat) (tk : Ticket) (obj : List Byte) (s : State), s.dev.quiet →
    let a := s.dev.adp k
    let dom := a.domain.toNat
    a.st = .loading → a.tkt = some tk → s.dev.busCode (.eng a.ld dom) false a.src.toNat a.srcLen.toNat = none →
    s.dev.busCode (.eng a.ld dom) true a.addr.toNat a.len.toNat = none → obj = s.dev.bytes a.src.toNat a.srcLen.toNat →
    let y := s.dev.importTo s.vault.devSeed 4 a.ld dom obj a.addr.toNat a.len.toNat
    ∃ x : Dev, x = { y.1 with adapters := x.adapters, lds := x.lds } ∧
      (x.ld a.ld).reqEvt.getLsbD 1 = true ∧
      (y.2 = 0 → exec (.adpLoadComplete k) s = .next { s with dev := x.finish tk 0 false (BitVec.ofNat 32 k) } ∧
        (x.adp k).st = .ready ∧ (x.adp k).name = a.name ∧
        ∀ o, o ≠ k → y.1.adpFind .ready dom a.name = some o → (x.adp o).st = if (y.1.adp o).refs = 0 then .zeroing else .retiring) ∧
      (y.2 ≠ 0 → exec (.adpLoadComplete k) s = .next { s with dev := x.done tk y.2 } ∧ (x.adp k).st = .zeroing ∧
        ∀ o, o ≠ k → x.adp o = y.1.adp o)) ∧
  (∀ (iss : Issuer) (body : List W32) (s : State),
    let tk := ticketOf iss body
    let found := s.dev.adpFind .ready (s.dev.issDom iss) (word body 1)
    wfld body 0 15 8 = 0 → zeroWords body 2 15 = true →
    (found = none → exec (.adpDrop iss body) s = .next { s with dev := s.dev.reject tk eAdpUnknown }) ∧
    (∀ k, found = some k → ∃ x : Dev, exec (.adpDrop iss body) s = .next { s with dev := x.done tk 0 } ∧
      x = { s.dev.accept tk with adapters := x.adapters } ∧
      x.adp k = { s.dev.adp k with st := if (s.dev.adp k).refs = 0 then .zeroing else .retiring } ∧
      ∀ j, j ≠ k → x.adp j = s.dev.adp j)) ∧
  (∀ (k : Nat) (s : State), s.dev.quiet → s.memWf → (s.dev.adp k).st = .zeroing →
    ∃ t, exec (.adapterZeroFillComplete k) s = .next t ∧
      t = { s with dev := { s.dev with mem := t.dev.mem, adapters := t.dev.adapters } } ∧ t.dev.adp k = Adapter.init ∧
      (∀ j, j ≠ k → t.dev.adp j = s.dev.adp j) ∧
      (∀ i, i < (s.dev.adp k).len.toNat → t.dev.byte ((s.dev.adp k).addr.toNat + i) = 0) ∧
      s.dev.sameMemBut t.dev (s.dev.adp k).addr.toNat (s.dev.adp k).len.toNat)) ∧
  ((∀ (iss : Issuer) (body : List W32) (s : State), s.dev.quiet →
    let tk := ticketOf iss body
    let ld := s.dev.issLd iss
    let dom := s.dev.issDom iss
    let w := (s.dev.ld ld).wave
    let gen := BitVec.ofNat 16 (wfld body 1 15 0)
    let n := wfld body 1 28 18
    let list := addrAt body 2
    let es := (List.range n).map fun i => layerEntry (bytesToWords 8 (slice (s.dev.bytes list (32 * n)) (32 * i) 32))
    wfld body 0 15 8 = 0 → wfld body 1 31 29 = 0 → addrHigh body 2 = false → zeroWords body 4 15 = true → list % 8 = 0 →
    0 < n → n ≤ 1024 → s.dev.busCode (.eng ld dom) false list (32 * n) = none →
    (w.active = false → gen ≠ w.gen + 1 → exec (.swap iss body) s = .next { s with dev := s.dev.reject tk eRange }) ∧
    (w.active = false → w.swapHeld = false → gen = w.gen + 1 → (∀ e ∈ es, e.layer ∈ s.dev.localLayers ld) →
      (es.map LayerEntry.layer).eraseDups.length = n → n = (s.dev.localLayers ld).length →
      (∀ e ∈ es, s.dev.busCode (.eng ld dom) false e.src e.len = none ∧ s.dev.busCode (.eng ld dom) true e.dst e.len = none) →
      (s.dev.genTrl ld).isSome = true → (s.dev.ld ld).trl.turn.st = .idle → bit (word body 1).toNat 17 = false →
      (∀ e ∈ es, w.layerHolds e.layer ≠ gen) →
      ∃ t, exec (.swap iss body) s = .next t ∧
        t = { s with dev := { s.dev.accept tk with lds := t.dev.lds, mem := t.dev.mem, reqs := t.dev.reqs, out := t.dev.out,
                                                   ports := t.dev.ports, net := t.dev.net } } ∧
        (s.memWf → s.dev.sameMemBut t.dev (s.dev.waveTable ld) 32768) ∧
        (bit (word body 1).toNat 16 = false → t.dev.reqs = s.dev.reqs) ∧
        (bit (word body 1).toNat 16 = true → ∀ n, (t.dev.req n).redo = ((s.dev.req n).redo ||
          ((s.dev.req n).st != .free && (s.dev.req n).ld == ld && (s.dev.req n).oldPages.isEmpty &&
            (match (s.dev.req n).stamp with
             | some g => g != gen
             | none => ((s.dev.req n).steps != 0 || (s.dev.req n).mode == 2) && (s.dev.req n).genLast != gen)))) ∧
        (s.dev.isOrigin ld = false → t.dev.mem = s.dev.mem ∧ t.dev.out = s.dev.out ∧ t.dev.ports = s.dev.ports ∧ t.dev.net = s.dev.net) ∧
        (∀ k, k ≠ ld → (t.dev.ld k).wave = (s.dev.ld k).wave) ∧
        (t.dev.ld ld).wave.active = true ∧ (t.dev.ld ld).wave.newGen = gen ∧ (t.dev.ld ld).wave.stampNow = gen ∧
        (t.dev.ld ld).wave.layers = es ∧ (t.dev.ld ld).wave.swapped = 0 ∧
        (s.dev.isOrigin ld = true → (t.dev.ld ld).wave.oldSet = s.dev.inFlight ld ∧ (t.dev.ld ld).wave.noticed = true))) ∧
  (∀ (ld : Nat) (src : BitVec 14) (gen : BitVec 16) (nold crc : W32) (s : State), s.dev.quiet →
    let w := (s.dev.ld ld).wave
    let bits := s.dev.bytes (s.dev.waveTable ld) 32768
    s.dev.isOrigin ld = false →
    (s.dev.originDid ld ≠ some src.toNat ∨ s.dev.isLost ld src.toNat = true → exec (.waveNotice ld src gen nold crc) s = .next s) ∧
    (s.dev.originDid ld = some src.toNat → s.dev.isLost ld src.toNat = false → crc32c bits ≠ crc →
      exec (.waveNotice ld src gen nold crc) s = .next { s with dev := s.dev.tell ld src.toNat .waveAgain }) ∧
    (s.dev.originDid ld = some src.toNat → s.dev.isLost ld src.toNat = false → crc32c bits = crc → w.active = false → gen = w.gen + 1 → w.swapHeld = false →
      ∃ t, exec (.waveNotice ld src gen nold crc) s = .next t ∧ t = { s with dev := { s.dev with lds := t.dev.lds } } ∧
        (t.dev.ld ld).wave = { w with newGen := gen, active := true, noticed := true, oldSet := bitmapSlots bits } ∧
        ∀ k, k ≠ ld → t.dev.ld k = s.dev.ld k)) ∧
  (∀ (ld k : Nat) (e : LayerEntry) (s : State), s.dev.quiet →
    let w := (s.dev.ld ld).wave
    w.active = true → w.stalled = false → w.swapHeld = true → w.noticed = true →
    (w.copying = none → e ∈ w.todo → e.layer = k → k < 1024 → (∀ x ∈ w.todo, k ≤ x.layer) →
      ∃ t, exec (.layerSwapBegin ld k) s = .next t ∧ t = { s with dev := { s.dev with lds := t.dev.lds, reqs := t.dev.reqs } } ∧
        (t.dev.ld ld).wave = { w with copying := some k } ∧
        ∀ n, t.dev.req n = if s.dev.isOrigin ld = true ∧ n ∈ w.oldSet then { s.dev.req n with layer := max (s.dev.req n).layer (k + 1) }
                           else s.dev.req n) ∧
    ((∃ x ∈ w.todo, x.layer < k) → exec (.layerSwapBegin ld k) s = .next s) ∧
    (w.copying = some k → w.layers.find? (fun x => x.layer == k) = some e → w.srcKind = false →
      (∀ c, s.dev.busCode (.eng ld w.dom) false e.src e.len = some c → ∃ x : Dev,
        exec (.layerSwapComplete ld k) s = .next { s with dev := match w.tkt with | some tk => x.done tk c | none => x } ∧
        x = { s.dev with lds := x.lds } ∧ (x.ld ld).wave.stalled = true ∧ (x.ld ld).wave.gen = w.gen ∧ (x.ld ld).reqEvt.getLsbD 3 = true) ∧
      (s.dev.busCode (.eng ld w.dom) false e.src e.len = none → s.dev.busCode (.eng ld w.dom) true e.dst e.len = none →
        s.dev.placedShards ld e.dst e.len = [] → s.memWf → (∃ x ∈ w.todo, x.layer ≠ k) →
        ∃ t, exec (.layerSwapComplete ld k) s = .next t ∧
          t = { s with dev := { s.dev with lds := t.dev.lds, mem := t.dev.mem, reqs := t.dev.reqs } } ∧
          (t.dev.ld ld).wave = { w with copying := none, swapped := w.swapped + 1, layerGen := Map.set w.layerGen k w.newGen } ∧
          (∀ i, i < e.len → t.dev.byte (e.dst + i) = s.dev.byte (e.src + i)) ∧ s.dev.sameMemBut t.dev e.dst e.len ∧
          ∀ n, t.dev.req n =
            if (s.dev.req n).ld = ld ∧ (s.dev.req n).st = .wait ∧ (s.dev.req n).why = .barrier then
              match t.dev.barrier ld ((s.dev.req n).stamp.getD 0) with
              | some b => { s.dev.req n with layer := b }
              | none => { s.dev.req n with st := .running, why := .none, layer := 1024 }
            else s.dev.req n))) ∧
  (∀ (ld : Nat) (did : BitVec 14) (s : State), s.dev.snoops = [] →
    let w := (s.dev.ld ld).wave
    w.active = true → s.dev.isOrigin ld = true → did.toNat ∈ s.dev.groupOthers ld →
    ∃ t, exec (.waveMemberReport ld did) s = .next t ∧ t = { s with dev := { s.dev with lds := t.dev.lds } } ∧
      (w.swapHeld = true → w.todo = [] → w.copying = none → (∀ m ∈ s.dev.groupOthers ld, m = did.toNat ∨ m ∈ w.reports) →
        (t.dev.ld ld).wave.gen = w.newGen ∧ (t.dev.ld ld).wave.active = false) ∧
      ((∃ m ∈ s.dev.groupOthers ld, m ≠ did.toNat ∧ m ∉ w.reports) →
        (t.dev.ld ld).wave = { w with reports := insNat did.toNat w.reports })))

/-! ## The fabric -/

/-- Training of a port (R300 to R303, R324, R327): an attempt in which no lane locks leaves `reason` 1; a lane that locks on
a marker starts TRAIN; a training ends in FAULT when a transmitter faces a transmitter, the lanes arrive in another order
than straight or reversed, or the neighbour's DID is the port's own, in DETECT when no lane is usable or the idle flits fail
at the last rate, begins again at 106.25 Gb/s when they fail and `half_ok` is 1, and otherwise ends in ACTIVE with the
neighbour's values, the largest width of 4, 2 and 1 that the usable lanes allow and the lowest lanes of that width; from the
exchange on it has sent the port's own values. Ports under control and going down (R298, R304, R315 to R317, R323, R327,
R515): `enable` 1 brings a port in OFF of an LD at level 1 to DETECT; `enable` 0 begins its drain; `retrain` forgets the
excluded lanes and begins again from DETECT; a lane failure, silence, a LEAVE notice and the eighth failed flit take an
ACTIVE port to DETECT and set `port_down`, and its neighbour is declared lost when no other port reaches it; the expected
flit is acted on, a failed one asks for a replay, a request for one sends every flit not acknowledged again, and each flit
that comes is answered by the port's next flit (one for each: log 112). Clauses that rest on the model's own reading: log 2,
51, 52, 112, 113. -/
def Obligations.PortsTrainAndGo : Prop :=
  (∀ (n : Nat) (s : State),
    let x := s.dev.port n
    let own := s.dev.ldOfPort n
    let only := fun (t : State) => t = { s with dev := { s.dev with ports := t.dev.ports } } ∧ ∀ k, k ≠ n → t.dev.port k = s.dev.port k
    (x.st = .detect → x.attempted = true → ∃ t, exec (.portDetectAttempt n) s = .next t ∧ only t ∧
      t.dev.port n = { x with tried := true, reason := 1 }) ∧
    (∀ lane inv m, x.st = .detect ∨ x.st = .train → lane < 4 → m < 4 → x.excluded.getLsbD lane = false →
      ∃ t, exec (.laneLock n lane inv m) s = .next t ∧ only t ∧ (t.dev.port n).st = .train ∧
        (t.dev.port n).locked.getLsbD lane = true ∧ (t.dev.port n).lanesGood.getLsbD lane = true ∧
        (t.dev.port n).pol.getLsbD lane = inv ∧ (t.dev.port n).marker lane = m) ∧
    (∀ i : TrainInfo, x.st = .train → i.shorted = 0 →
      let sends := Output.exchange n (s.dev.ld own).lay.did (s.dev.ld own).fab.inc (s.dev.ld own).lay.ldClass.toNat (x.lanes.foldl setBit 0)
      let ends := fun (met : Bool) (st : PortState) (reason : BitVec 3) => ∃ t, exec (.portTrainingEnd n i) s = .next t ∧
        t = { s with dev := { s.dev with ports := t.dev.ports, lds := t.dev.lds, out := t.dev.out } } ∧ (t.dev.port n).st = st ∧
        t.dev.out = s.dev.out ++ (if met then [sends] else []) ∧ (t.dev.port n).nbrDid = (if met then i.farDid else x.nbrDid) ∧
        (t.dev.port n).reason = reason ∧ (∀ k, k ≠ n → t.dev.port k = s.dev.port k) ∧ (st ≠ .fault → t.dev.lds = s.dev.lds) ∧
        (st = .fault → (t.dev.ld 15).fab.evt.getLsbD 2 = true ∧ (t.dev.ld own).fab.evt.getLsbD 2 = true)
      let lanesOk := x.lanes ≠ [] ∧ (x.straight = true ∨ x.crossed = true)
      let w := widthOf (x.usable i.farLocked)
      let apart := i.txFaces = false ∧ lanesOk ∧ i.farDid ≠ (s.dev.ld own).lay.did
      (i.txFaces = true → ends false .fault 2) ∧
      (i.txFaces = false → x.lanes = [] → ends false .detect 1) ∧
      (i.txFaces = false → x.lanes ≠ [] → x.straight = false → x.crossed = false → ends false .fault 3) ∧
      (i.txFaces = false → lanesOk → i.farDid = (s.dev.ld own).lay.did → ends true .fault 4) ∧
      (apart → w = 0 → ends true .detect 1) ∧
      (apart → w ≠ 0 → i.idleOk = false → x.halfOk = false ∨ x.fallback = true → ends true .detect 5) ∧
      (apart → w ≠ 0 → i.idleOk = false → x.halfOk = true → x.fallback = false → ∃ t, exec (.portTrainingEnd n i) s = .next t ∧
        t = { s with dev := { s.dev with ports := t.dev.ports, out := s.dev.out ++ [sends] } } ∧
        t.dev.port n = { x with nbrDid := i.farDid, fallback := true, locked := 0, lanesGood := 0, pol := 0, order := [] } ∧
        ∀ k, k ≠ n → t.dev.port k = s.dev.port k) ∧
      (apart → w ≠ 0 → i.idleOk = true → s.dev.isLost own i.farDid.toNat = false →
        (∀ p ∈ s.dev.portsOf own, p ≠ n → (s.dev.port p).st = .active → (s.dev.port p).nbrDid = i.farDid → (s.dev.port p).nbrInc = i.farInc) →
        ∃ t, exec (.portTrainingEnd n i) s = .next t ∧
          t = { s with dev := { s.dev with ports := t.dev.ports, lds := t.dev.lds, out := s.dev.out ++ [sends] } } ∧
          (∀ k, k ≠ n → t.dev.port k = s.dev.port k) ∧
          (let y := t.dev.port n
           y.st = .active ∧ y.nbrDid = i.farDid ∧ y.nbrInc = i.farInc ∧ y.reason = 0 ∧ y.width = w ∧ y.rate = x.fallback ∧
            y.used = x.runsOn i.farLocked (s.dev.ld own).lay.did i.farDid (widthLanes w) ∧ y.credits = fullCredits ∧ y.queue = [] ∧
            y.reversed = (!x.straight) ∧ ∀ k : Nat, k < 4 → y.lanesGood.getLsbD k = decide (k ∈ x.lanes)) ∧
          (w ≠ 3 ∨ x.fallback = true → (t.dev.ld 15).fab.evt.getLsbD 1 = true ∧ (t.dev.ld own).fab.evt.getLsbD 1 = true) ∧
          (w = 3 → x.fallback = false → t.dev.lds = s.dev.lds)))) ∧
  (∀ (n : Nat) (s : State), n < 32 →
    let x := s.dev.port n
    let own := s.dev.ldOfPort n
    let only := fun (t : State) => t = { s with dev := { s.dev with ports := t.dev.ports } } ∧ ∀ k, k ≠ n → t.dev.port k = s.dev.port k
    (∀ (ag : Agent) (ld : Nat) (v : W32), reachesPage ag ld = true → s.dev.pageMode ld = .full → ld = 15 ∨ own = ld →
      fld v 31 3 = 0 →
      (v.getLsbD 0 = true → v.getLsbD 2 = false → x.st = .off → x.draining = false → own < 10 → 1 ≤ (s.dev.ld own).ctl.service →
        ∃ t, exec (.portEnable ag ld n v) s = .next t ∧ only t ∧
          t.dev.port n = { x with st := .detect, enable := true, halfOk := v.getLsbD 1 }) ∧
      (v.getLsbD 0 = true → v.getLsbD 2 = true → x.st = .fault ∨ x.st = .detect ∨ x.st = .train → x.draining = false →
        ∃ t, exec (.portRetrain ag ld n v) s = .next t ∧ only t ∧ (t.dev.port n).st = .detect ∧ (t.dev.port n).excluded = 0) ∧
      (v.getLsbD 0 = false → x.st ≠ .off → x.draining = false → ∃ t, exec (.portDisable ag ld n v) s = .next t ∧
        t = { s with dev := { s.dev with ports := t.dev.ports, boot := t.dev.boot } } ∧
        t.dev.port n = { x with enable := false, halfOk := v.getLsbD 1, draining := true } ∧
        t.dev.boot = { s.dev.boot with drains := s.dev.boot.drains ++
          [{ sc := .port n, at_ := s.now, limitUs := (s.dev.ld own).ctl.drainUs, expired := false }] } ∧
        ∀ k, k ≠ n → t.dev.port k = s.dev.port k)) ∧
    (∀ (lane : Nat) (did : BitVec 14) (flit : List Byte), x.st = .active → lane < 4 →
      let down := fun (c : Instr) =>
        ((∃ p ∈ s.dev.portsOf own, p ≠ n ∧ (s.dev.port p).st = .active ∧ (s.dev.port p).nbrDid = x.nbrDid) →
          ∃ t, exec c s = .next t ∧ t = { s with dev := { s.dev with ports := t.dev.ports, lds := t.dev.lds } } ∧
            (t.dev.port n).st = .detect ∧ (∀ k, k ≠ n → t.dev.port k = s.dev.port k) ∧
            (t.dev.ld 15).fab.evt.getLsbD 0 = true ∧ (t.dev.ld own).fab.evt.getLsbD 0 = true) ∧
        ((∀ p ∈ s.dev.portsOf own, p ≠ n → (s.dev.port p).st = .active → (s.dev.port p).nbrDid ≠ x.nbrDid) → own < 10 →
          s.dev.alone own → s.dev.isLost own x.nbrDid.toNat = false →
          ∃ t, exec c s = .next t ∧ t = { s with dev := { s.dev with ports := t.dev.ports, lds := t.dev.lds, out := t.dev.out } } ∧
            (t.dev.port n).st = .detect ∧ (t.dev.ld own).fab.evt.getLsbD 0 = true ∧ (t.dev.ld own).fab.evt.getLsbD 3 = true ∧
            t.dev.isLost own x.nbrDid.toNat = true ∧ (t.dev.ld own).fab.lostCount = sat16 (s.dev.ld own).fab.lostCount ∧
            (t.dev.ld own).fab.lastLost = x.nbrDid)
      down (.linkSilenceTimeout n) ∧ down (.leaveNotice n did) ∧ down (.laneFailActive n lane) ∧
      (flitOk flit = false → x.bad = 7 → bits (flitWord flit) 9 0 = (x.rxSeq.toNat + 1) % 1024 → down (.flitReceive n flit false)) ∧
      let due := bits (flitWord flit) 9 0 = (x.rxSeq.toNat + 1) % 1024
      let cls := ((List.range 4).find? fun k => Map.get x.owed k 0 != 0).getD 0
      let slots := min 511 (Map.get x.owed cls 0)
      let f : SentFlit := { seq := x.txSeq + 1, body := slice (x.txSlots.take 8).flatten 0 256, cls := cls, slots := slots }
      let sends := fun (t : State) (y : Port) (before : List Output) =>
        t = { s with dev := { s.dev with ports := t.dev.ports, out := t.dev.out } } ∧ (∀ k, k ≠ n → t.dev.port k = s.dev.port k) ∧
        (1024 ≤ y.unacked.length → t.dev.port n = y ∧ t.dev.out = s.dev.out ++ before) ∧
        (y.unacked.length < 1024 → t.dev.out = s.dev.out ++ before ++ [.flit n (flitBytes f y.rxSeq y.nakDue)] ∧
          t.dev.port n = { y with txSeq := f.seq, txSlots := y.txSlots.drop 8, unacked := y.unacked ++ [f], nakDue := false,
                                  owed := Map.set y.owed cls (Map.get y.owed cls 0 - slots) })
      let ack := BitVec.ofNat 10 (bits (flitWord flit) 19 10)
      let got := { x with fecFix := sat16 x.fecFix, rxSeq := x.rxSeq + 1, bad := 0, naking := false, acked := ack, unacked := ackedUpTo ack x.unacked }
      (flitOk flit = false → x.bad < 7 → due → ∃ t, exec (.flitReceive n flit false) s = .next t ∧
        sends t { x with bad := x.bad + 1, naking := true, nakDue := true } []) ∧
      (flitOk flit = true → due → bit (flitWord flit) 20 = false → bits (flitWord flit) 31 23 = 0 →
        ∃ t, exec (.flitReceive n flit true) s = .next t ∧ sends t got []) ∧
      (flitOk flit = true → due → bit (flitWord flit) 20 = true → bits (flitWord flit) 31 23 = 0 →
        ∃ t, exec (.flitReceive n flit true) s = .next t ∧ sends t { got with replays := sat16 x.replays }
          (.replayFrom n ((ack.toNat + 1) % 1024) :: got.unacked.map fun f => .flit n (flitBytes f got.rxSeq false)))))

/-- Loss, return and time-out of a partner (R314, R317 to R319): a loss notice with the partner's incarnation puts it on the
lost list, sets `member_lost` and goes out on every other ACTIVE port, once per DID and incarnation; a found notice takes it
off again, sets `member_found` and goes out likewise; and a request without a response after `FAB_RSP_TIMEOUT` fails and
sets `timeout`. Clauses that rest on the model's own reading: log 2, 53, 54, 112. -/
def Obligations.LossAndReturnOfPartner : Prop :=
  ∀ (p : Nat) (did : BitVec 14) (inc : W32) (s : State),
    let ld := s.dev.ldOfPort p
    let f := (s.dev.ld ld).fab
    let others := (s.dev.portsOf ld).filter fun q => (s.dev.port q).st == .active && some p != some q
    let room := ∀ q ∈ others, (s.dev.port q).queue = [] ∧ 1 ≤ Map.get (s.dev.port q).credits 0 0
    let heard := fun (t : State) => t = { s with dev := { s.dev with ports := t.dev.ports, lds := t.dev.lds, out := t.dev.out } } ∧
      (∀ n, n ≠ ld → t.dev.ld n = s.dev.ld n) ∧ Map.get (t.dev.port p).owed 0 0 = Map.get (s.dev.port p).owed 0 0 + 1
    let losses := others.map fun q => Output.loss q did inc
    (s.dev.hears p did.toNat = true → s.dev.alone ld → s.dev.grafts = [] → room →
      ((∀ q ∈ s.dev.portsOf ld, (s.dev.port q).st = .active → (s.dev.port q).nbrDid = did → (s.dev.port q).nbrInc = inc) →
        (s.dev.isLost ld did.toNat = false → (did.toNat, inc, true) ∉ f.forwarded →
          ∃ t, exec (.lossNotice p did inc) s = .next t ∧ heard t ∧ (t.dev.ld ld).fab.lost = f.lost ++ [(did.toNat, inc)] ∧
            (t.dev.ld ld).fab.lostCount = sat16 f.lostCount ∧ (t.dev.ld ld).fab.lastLost = did ∧
            (t.dev.ld ld).fab.evt = setBit f.evt 3 ∧ t.dev.out = s.dev.out ++ losses) ∧
        (s.dev.isLost ld did.toNat = true → ∃ t, exec (.lossNotice p did inc) s = .next t ∧ heard t ∧
          (t.dev.ld ld).fab = { f with forwarded := (t.dev.ld ld).fab.forwarded } ∧
          ((did.toNat, inc, true) ∈ f.forwarded → t.dev.out = s.dev.out) ∧
          ((did.toNat, inc, true) ∉ f.forwarded → t.dev.out = s.dev.out ++ losses))) ∧
      (s.dev.isLost ld did.toNat = true → (did.toNat, inc, false) ∉ f.forwarded →
        ∃ t, exec (.foundNotice p did inc) s = .next t ∧ heard t ∧ t.dev.isLost ld did.toNat = false ∧
          (t.dev.ld ld).fab.evt = setBit f.evt 4 ∧ t.dev.out = s.dev.out ++ others.map fun q => .found q did inc)) ∧
    (∀ (n : Nat) (r : FabReq) (rest : List FabReq), (s.dev.ld n).fab.reqs = r :: rest → r ∉ rest → r.serves = .other →
      100 * (s.dev.ld n).fab.timeout.toNat ≤ r.age → (∀ e ∈ s.dev.reqs, e.2.sending = false) → s.dev.net.held = [] →
      ∃ t, exec (.fabResponseTimeout n r.tag) s = .next t ∧ t = { s with dev := { s.dev with lds := t.dev.lds } } ∧
        (t.dev.ld n).fab.reqs = rest ∧ (t.dev.ld n).fab.evt = setBit (s.dev.ld n).fab.evt 5 ∧
        ∀ k, k ≠ n → t.dev.ld k = s.dev.ld k)

/-- PACKET_RECEIVE (R305, R306, R311): a packet from a lost DID is dropped, its slots' credits owed to the sender; one for
another DID leaves by the route table with `hops` raised; a write for the partition stores its data and is acknowledged with
0, and one outside its window with E_PERM and no other effect; a read is answered with the bytes at its address. Route and
graft registers (R313, R320, R321, R326, R328): a route entry is stored under the DID of `FAB_RT_IDX`, unless it lists a
port of another LD or is for the LD's own DID; GFT_SELF gives a partition with nothing outstanding its logical DID, and a
busy one ends in E_STATE; a graft entry takes effect and finds the lost DID again, and one for a DID already named, or for a
neighbour that is not lost, ends in E_STATE. Clauses that rest on the model's own reading: log 54, 55, 56, 57, 112, 114. -/
def Obligations.PacketsAndRoutes : Prop :=
  (∀ (n : Nat) (p : Packet) (s : State), s.dev.quiet → s.memWf → (s.dev.port n).st = .active → s.dev.ldOfPort n < 10 →
    let ld := s.dev.ldOfPort n
    let own := (s.dev.ld ld).lay
    let a := p.addr.toNat
    let len := 32 * p.units
    let mine := s.dev.isLost ld p.srcDid.toNat = false ∧ p.dstDid = own.did
    let back := s.dev.physOf ld p.srcDid.toNat
    let reply := fun (c : Code) (bs : List Byte) => { p with
      dstDid := BitVec.ofNat 14 back, srcDid := own.ldid, kind := p.kind + 1, units := bs.length / 32, hops := 0, code := c, poison := 0, data := bs }
    let sent := fun (t : State) (q : Nat) (r : Packet) => t.dev.out = s.dev.out ++ [.packet q r] ∧
      t = { s with dev := { s.dev with mem := t.dev.mem, ports := t.dev.ports, net := t.dev.net, out := t.dev.out } }
    let way := fun (q : Nat) => s.dev.routePort ld own.ldid.toNat back p.cls.toNat = some q ∧ s.dev.flowHeld ld back p.cls.toNat q = false
    let room := fun (q : Nat) => (s.dev.port q).queue = [] ∧ ∀ k, k < 8 → 129 ≤ Map.get (s.dev.port q).credits k 0
    (s.dev.isLost ld p.srcDid.toNat = true → ∃ t, exec (.packetReceive n p) s = .next t ∧
      t = { s with dev := { s.dev with ports := t.dev.ports } } ∧
      t.dev.port n = { s.dev.port n with owed := Map.set (s.dev.port n).owed p.cls.toNat (Map.get (s.dev.port n).owed p.cls.toNat 0 + packetSlots p) } ∧
      ∀ k, k ≠ n → t.dev.port k = s.dev.port k) ∧
    (∀ q, s.dev.isLost ld p.srcDid.toNat = false → p.dstDid ≠ own.did → p.hops.toNat < 15 → p.units ≤ 128 → room q →
      s.dev.routePort ld p.srcDid.toNat p.dstDid.toNat p.cls.toNat = some q →
      ∃ t, exec (.packetReceive n p) s = .next t ∧ sent t q { p with hops := p.hops + 1 } ∧
        t.dev.mem = s.dev.mem ∧ t.dev.net = s.dev.net) ∧
    (∀ q, mine → p.kind = 3 → p.poison = 0 → p.data.length = len → p.units ≤ 128 → s.dev.arriveCode ld p true = none → room q → way q →
      ∃ t, exec (.packetReceive n p) s = .next t ∧ sent t q (reply 0 []) ∧
        (∀ i, i < len → t.dev.byte (a + i) = p.data.getD i 0) ∧ s.dev.sameMemBut t.dev a len) ∧
    (∀ q, mine → p.kind = 3 → s.dev.ownsWindow ld a = false → room q → way q →
      ∃ t, exec (.packetReceive n p) s = .next t ∧ sent t q (reply ePerm []) ∧ t.dev.mem = s.dev.mem) ∧
    (∀ q, mine → p.kind = 1 → p.units ≤ 128 → s.dev.arriveCode ld p false = none → room q → way q →
      ∃ t, exec (.packetReceive n p) s = .next t ∧ sent t q (reply 0 (s.dev.bytes a len)) ∧ t.dev.mem = s.dev.mem)) ∧
  ((∀ (ag : Agent) (ld : Nat) (v : W32) (s : State), reachesPage ag ld = true → s.dev.pageMode ld = .full →
    let r : Route := { valid := v.getLsbD 31, n := v.extractLsb' 20 2, ports := v.extractLsb' 0 20 }
    let i := (s.dev.ld ld).fab.rtIdx
    let foreign := ∃ p ∈ r.list, s.dev.ldOfPort p ≠ ld
    (ld = 15 → exec (.routeEntryWrite ag ld v) s = .next { s with dev := s.dev.ldErr ld ePerm }) ∧
    (ld ≠ 15 → fld v 30 22 = 0 → foreign → exec (.routeEntryWrite ag ld v) s = .next { s with dev := s.dev.ldErr ld ePerm }) ∧
    (ld ≠ 15 → fld v 30 22 = 0 → ¬ foreign → i = (s.dev.ld ld).lay.did →
      exec (.routeEntryWrite ag ld v) s = .next { s with dev := s.dev.ldErr ld eRange }) ∧
    (ld ≠ 15 → fld v 30 22 = 0 → ¬ foreign → i ≠ (s.dev.ld ld).lay.did → ∃ t, exec (.routeEntryWrite ag ld v) s = .next t ∧
      t = { s with dev := { s.dev with lds := t.dev.lds } } ∧ (∀ n, n ≠ ld → t.dev.ld n = s.dev.ld n) ∧
      t.dev.ld ld = { s.dev.ld ld with fab := { (s.dev.ld ld).fab with routes := (t.dev.ld ld).fab.routes } } ∧
      ∀ did, (t.dev.ld ld).route did = if did = i.toNat then r else (s.dev.ld ld).route did)) ∧
  (∀ (ag : Agent) (n : Nat) (v : W32) (s : State), reachesPage ag 15 = true → s.dev.pageMode 15 = .full →
    (n < 10 → fld v 31 14 = 0 → (s.dev.ld n).lay.populated = true →
      let busy := (∃ c ∈ s.dev.colls, c.ld = n) ∨ (s.dev.ld n).fab.reqs ≠ [] ∨ ∃ h ∈ s.dev.net.held, h.ld = n
      (busy → exec (.graftSelfWrite ag 15 n v) s = .next { s with dev := s.dev.ldErr 15 eState }) ∧
      (¬ busy → ∃ t, exec (.graftSelfWrite ag 15 n v) s = .next t ∧ t = { s with dev := { s.dev with lds := t.dev.lds } } ∧
        (∀ k, k ≠ n → t.dev.ld k = s.dev.ld k) ∧
        t.dev.ld n = { s.dev.ld n with lay := { (s.dev.ld n).lay with ldid := v.extractLsb' 0 14 } })) ∧
    (let l := fld v 31 28
     let f := fld v 13 0
     let near := ∃ p ∈ s.dev.portsOf l, (s.dev.port p).st = .active ∧ (s.dev.port p).nbrDid.toNat = f
     let named := ∃ g ∈ s.dev.grafts, g.2.ld = l ∧ g.2.fromDid.toNat = f
     let rejected := fun (c : Code) => exec (.graftEntryWrite ag 15 n v) s = .next { s with dev := s.dev.ldErr 15 c }
     n < 64 →
      (10 ≤ l → l ≤ 14 → rejected eRange) ∧
      (l < 10 → named → rejected eState) ∧
      (l < 10 → ¬ named → s.dev.isLost l f = false → near → rejected eState) ∧
      (l < 10 → ¬ named → s.dev.isLost l f = false → ¬ near → (∀ k, k < 64 → (s.dev.graft k).ld ≠ 15) → rejected eGraftFull) ∧
      (l < 10 → ¬ named → s.dev.isLost l f = true → (s.dev.graft n).ld = 15 → ∃ t, exec (.graftEntryWrite ag 15 n v) s = .next t ∧
        t = { s with dev := { s.dev with grafts := t.dev.grafts, lds := t.dev.lds, out := t.dev.out, ports := t.dev.ports } } ∧
        (t.dev.graft n).ld = l ∧ (t.dev.graft n).toDid = v.extractLsb' 14 14 ∧ (t.dev.graft n).fromDid = v.extractLsb' 0 14 ∧
        (∀ k, k ≠ n → t.dev.graft k = s.dev.graft k) ∧ t.dev.isLost l f = false ∧ (t.dev.ld l).fab.evt.getLsbD 4 = true))))

/-! ## Collectives -/

/-- The eight collective kinds (R329 to R340, R346): a legal descriptor that comes from no collective ring joins the
outstanding collectives with its rank, its chunks and its digest, and waits for its Rake slots; the first failing check of
R333 rejects it and changes nothing; one that includes a lost member ends at once with E_MEMBER_LOST; a BARRIER tells its
parent when it has no child, and an ALL_TO_ALL sends every piece of its shards and copies its own. Clauses that rest on the
model's own reading: log 58, 61, 116. -/
def Obligations.CollectivesStart : Prop :=
  ∀ (iss : Issuer) (body : List W32) (kind : Nat) (c : Instr) (s : State), s.dev.quiet → s.memWf →
    (kind, c) ∈ [(0x60, Instr.allReduce iss body), (0x61, .reduce iss body), (0x62, .reduceScatter iss body),
      (0x63, .allGather iss body), (0x64, .broadcast iss body), (0x65, .allToAll iss body), (0x66, .combine iss body),
      (0x67, .barrier iss body)] →
    wfld body 0 7 0 = kind →
    let tk := ticketOf iss body
    let ld := s.dev.issLd iss
    let dom := s.dev.issDom iss
    let x := s.dev.collOf iss ld dom tk body none [] s.now
    let lists := collLists body
    let front := firstFail (collStatic body ++
      [((lists.any fun l => (s.dev.busCode (.eng ld dom) false l.1 l.2).isSome), ePerm)])
    let acc := s.dev.accept tk
    let rejected := fun (e : Code) => exec c s = .next { s with dev := s.dev.reject tk e }
    (∀ e, front = some e → rejected e) ∧
    (∀ e, front = none → firstFail (s.dev.collChecks ld dom x) = some e → rejected e) ∧
    (front = none → firstFail (s.dev.collChecks ld dom x) = none → (∀ n k, iss ≠ .colRing n k) →
      (∀ r, x.members.findIdx? (fun m => s.dev.isLost ld m) = some r →
        exec c s = .next { s with dev := Dev.collEnd x eMemberLost r noChunk false { acc with colls := s.dev.colls ++ [x] } }) ∧
      (x.members.findIdx? (fun m => s.dev.isLost ld m) = none →
        (kind ≠ 0x65 → kind ≠ 0x67 →
          exec c s = .next { s with dev := { acc with colls := s.dev.colls ++ [x] } } ∧ x.granted = false) ∧
        (kind = 0x67 → ∃ t, exec c s = .next t ∧
          t = { s with dev := { acc with colls := s.dev.colls ++ [{ x with heard := [(0, x.rank, [])] }],
                                         out := t.dev.out, ports := t.dev.ports, net := t.dev.net } } ∧
          s.dev.toldAll t.dev ld (match x.parent x.rank with
            | some p => if x.children x.rank = [] then [(x.members.getD p 0, .contribution x.id 0 (x.seal 0 [] 0 0 0 none))] else []
            | none => [])) ∧
        (kind = 0x65 → (x.sends.getD x.rank (0, 0)).1 = (x.recvs.getD x.rank (0, 0)).1 → 2 ≤ x.nmem →
          let own := x.sends.getD x.rank (0, 0)
          let dst := x.outAddr + (x.recvs.getD x.rank (0, 0)).2
          let pieces := ((List.range x.nmem).filter (· != x.rank)).flatMap fun r =>
            (List.range (a2aPieces (x.sends.getD r (0, 0)).1).length).map fun i => (i, r)
          let sent := fun (p : Nat × Nat) =>
            let shard := x.sends.getD p.2 (0, 0)
            let q := (a2aPieces shard.1).getD p.1 (0, 0)
            (x.members.getD p.2 0, FabMsg.result x.id p.1 (x.seal p.1 (s.dev.bytes (x.inAddr + shard.2 + q.1) q.2) 0 0 shard.1 none))
          (∀ p ∈ x.sends, x.inAddr + p.2 + p.1 ≤ dst ∨ dst + own.1 ≤ x.inAddr + p.2) →
          ∃ t, exec c s = .next t ∧
            t = { s with dev := { acc with colls := s.dev.colls ++ [{ x with unacked := pieces }], mem := t.dev.mem,
                                           out := t.dev.out, ports := t.dev.ports, net := t.dev.net } } ∧
            s.dev.toldAll t.dev ld (pieces.map sent) ∧
            (∀ i, i < own.1 → t.dev.byte (dst + i) = s.dev.byte (x.inAddr + own.2 + i)) ∧ s.dev.sameMemBut t.dev dst own.1)))

/-- RAKE_RESERVATION_GRANT and the zero fill of a reservation (R340, R342, R345): a PENDING collective that is alone, within
the quotas of its LD and its domain and with enough FREE slots receives its window of slots, binds them to its first chunks
and grants each chunk to the ranks it expects data from, below and above; above a quota it goes on waiting; and the slots of
an ended collective read zero once their zero fill completes. The flow of chunks at a Rake (R98, R336, R342 to R344, R350,
R352, R356, R360): a grant from another member is held, and one for a result that is here is served at once; a contribution
that passes its check is acknowledged and added, exactly in AX96, to the partial sum of its slot, one of weight 0 is absent,
one with a wrong CRC is asked for again, and one with another digest, another anchor, or beyond the headroom ends the
collective; agreed anchors are held in the directory and passed on; the result reaches a PASSED slot, which then serves it;
and local delivery writes the chunk and acknowledges it to the source. What makes no progress leaves the watchdog alone. How
a collective ends (R336, R338, R345, R356 to R359): it leaves the outstanding ones and its slots go to their zero fill, the
16-byte done word is written, a code other than 0 sets `fail` and goes to its neighbours in an abort notice, and the issuer
is told; the fence ends a member that is settled, `wd_ms` without progress ends it with E_COLL_TIMEOUT, an abort notice with
the notice's code, a fence or notice of another digest with E_COLL_MISMATCH, and COL_ABORT with E_COLL_ABORTED. Clauses that
rest on the model's own reading: log 2, 59, 60, 115, 116. -/
def Obligations.RakeMovesAndCollectivesEnd : Prop :=
  ((∀ (ld : Nat) (id : BitVec 20) (c : Coll) (s : State), s.dev.snoops = [] → s.dev.colls = [c] → c.ld = ld → c.id = id →
    let w := windowOf c.words
    let free := (List.range rakeSlots).filter fun p => !(s.dev.rakeHeld c.iod).contains p
    (c.granted = false → (s.dev.ld ld).rakeQuota c.iod < s.dev.rakeUsed ld c.iod + w ∨ (s.dev.dom c.dom).rakeQ < s.dev.rakeDom c.dom + w →
      exec (.rakeReservationGrant ld id) s = .next s) ∧
    (c.granted = false → s.dev.rakeUsed ld c.iod + w ≤ (s.dev.ld ld).rakeQuota c.iod → s.dev.rakeDom c.dom + w ≤ (s.dev.dom c.dom).rakeQ →
      w ≤ free.length → c.slots = [] → c.redo = [] → c.next = 0 → c.anchored = false →
      ∃ t x, exec (.rakeReservationGrant ld id) s = .next t ∧
        t = { s with dev := { s.dev with colls := [x], out := t.dev.out, ports := t.dev.ports, net := t.dev.net } } ∧
        x = { c with granted := true, lastMove := s.now, phys := free.take w, next := min w c.total, slots := x.slots } ∧
        x.slots = (List.range (min w c.total)).map (fun k => RakeSlot.new (free.getD k 0) k) ∧
        s.dev.toldAll t.dev ld ((List.range (min w c.total)).flatMap fun k =>
          (((c.mine k).ups ++ (c.mine k).from_.toList).filter (· != c.rank)).eraseDups.map fun r =>
            (c.members.getD r 0, .grant c.id k c.digest)))) ∧
  (∀ (iod ld : Nat) (id : BitVec 20) (z : Zeroing) (rest : List Zeroing) (s : State), s.dev.zeroing = z :: rest →
    z.iod = iod → z.ld = ld → z.coll = id →
    ∃ t, exec (.rakeSlotZeroFillComplete iod ld id) s = .next t ∧ s.dev.memFrame { t.dev with zeroing := s.dev.zeroing } ∧
      t = { s with dev := t.dev } ∧ t.dev.zeroing = rest ∧
      ∀ a, t.dev.byte a = if ∃ p ∈ z.phys, rakeAddr iod p ≤ a ∧ a < rakeAddr iod p + 3072 then 0 else s.dev.byte a)) ∧
  (∀ (q : Key) (k rank : Nat) (m : ChunkMsg) (c : Coll) (s : State), s.dev.quiet → s.memWf →
    s.dev.colls = [c] → (c.ld, c.id) = q →
    let moved := { c with lastMove := s.now }
    let r := c.mine k
    let from_ : Sender := { rank := rank, digest := c.digest }
    let who := c.members.getD rank 0
    let chunk := BitVec.ofNat 32 k
    let only := fun (t : State) (x : Coll) => t = { s with dev := { s.dev with
      colls := [x], mem := t.dev.mem, out := t.dev.out, ports := t.dev.ports, net := t.dev.net } }
    let tells := fun (t : State) (l : List (Nat × FabMsg)) => s.dev.toldAll t.dev c.ld (l.map fun p => (c.members.getD p.1 0, p.2))
    let ended := fun (i : Instr) (code : Code) (chunk : W32) =>
      exec i s = .next { s with dev := Dev.collEnd c code rank chunk false s.dev }
    let verifies := m.digest = c.digest ∧ m.crc = chunkCrc c.id k m ∧ m.poisoned = none ∧ c.retries = []
    -- a packet of another digest
    (∀ x : Sender, x.rank = rank → rank ≠ c.rank → x.digest ≠ c.digest →
      ended (.rakeGrant q.1 q.2 k x) eCollMismatch noChunk ∧ ended (.chunkAck q.1 q.2 k x) eCollMismatch noChunk) ∧
    -- a grant
    (c.kind ≠ 0x65 → c.kind ≠ 0x67 → rank ≠ c.rank → (k, rank) ∉ c.grants →
      (c.slot? k = none → ¬(r.to_ = some rank ∧ k < c.next ∧ k ∉ c.redo) →
        ∃ t, exec (.rakeGrant q.1 q.2 k from_) s = .next t ∧ only t { c with grants := (k, rank) :: c.grants } ∧
          tells t [] ∧ t.dev.mem = s.dev.mem) ∧
      (∀ z, c.slots = [z] → z.chunk = k → z.st = .serving → z.sent = true → rank ∈ z.wait → rank ∉ z.given →
        ∃ t, exec (.rakeGrant q.1 q.2 k from_) s = .next t ∧
          only t { c with grants := (k, rank) :: c.grants, slots := [{ z with given := z.given ++ [rank] }] } ∧
          tells t [(rank, .result c.id k (c.resultMsg z (s.dev.bytes (rakeAddr c.iod z.phys) 3072)))] ∧ t.dev.mem = s.dev.mem)) ∧
    -- anchors agreed above
    (∀ (g : Nat) (a : List Byte) (digest : W32),
      (digest ≠ c.digest → ended (.anchorArrive q.1 q.2 rank g a digest) eCollMismatch noChunk) ∧
      (digest = c.digest → c.ring = false → c.parent c.rank = some rank → rank ∉ c.children c.rank → rank ≠ c.rank →
        c.anchored = true → c.groupOf g ≠ [] → Map.find c.dir (c.base + 256 * g) = none →
        c.total - c.base ≤ 256 * c.opened →
        ∃ t x, exec (.anchorArrive q.1 q.2 rank g a digest) s = .next t ∧ only t x ∧
          x = { moved with dir := x.dir, agreed := c.agreed + 1, heard := c.heard.filter fun h => h.1 != g } ∧
          (∀ j ∈ c.groupOf g, Map.find x.dir j = some (a.getD (j - c.base - 256 * g) 0).toNat) ∧
          (∀ j, j ∉ c.groupOf g → Map.find x.dir j = Map.find c.dir j) ∧
          tells t ((c.children c.rank).map fun p => (p, .anchors c.id g a c.digest)) ∧ t.dev.mem = s.dev.mem)) ∧
    -- contributions
    (∀ z, c.slots = [z] → z.chunk = k → z.phys < rakeSlots → c.kind ≤ 0x62 → rank ∈ r.ups → rank ≠ c.rank →
      rank ∉ z.got → z.st = .gathering →
      let go := Instr.contributionArrive q.1 q.2 k rank m
      let slot := rakeAddr c.iod z.phys
      let acked := s.dev.tell c.ld who (.ack c.id k c.digest)
      let ends := fun (code : Code) => exec go s = .next { s with dev := Dev.collEnd c code rank chunk false acked }
      let fits := (axElems m.data).all (fun v => axInRange v m.weight) = true ∧ z.weight + m.weight ≤ 2 ^ 24
      (m.digest ≠ c.digest → ended go eCollMismatch chunk) ∧
      (m.digest = c.digest → m.crc ≠ chunkCrc c.id k m → c.retries = [] →
        ∃ t, exec go s = .next t ∧ tells t [(rank, .again c.id k c.digest)] ∧
          t = { s with dev := { s.dev with colls := [{ c with retries := [(k, rank, 1)] }], lds := t.dev.lds,
                                           out := t.dev.out, ports := t.dev.ports, net := t.dev.net } } ∧
          (t.dev.ld c.ld).col.crcRetry = sat16 (s.dev.ld c.ld).col.crcRetry ∧ (t.dev.ld c.ld).col.evt.getLsbD 3 = true ∧
          ∀ n, n ≠ c.ld → t.dev.ld n = s.dev.ld n) ∧
      (verifies → c.redOp = 0 → c.predicted k = false → z.has = true → z.poison = none → z.excess = none →
        (∃ p ∈ r.ups, p ≠ rank ∧ p ∉ z.got) →
        (∀ a, c.anchorOf s.dev k = some a → a ≠ m.anchor.toNat → ends eCollMismatch) ∧
        ((∀ a, c.anchorOf s.dev k = some a → a = m.anchor.toNat) → z.anchor = m.anchor.toNat →
          let heard := { z with got := z.got ++ [rank], trueAnchor := max z.trueAnchor m.anchor.toNat }
          (m.weight = 0 → ∃ t, exec go s = .next t ∧ tells t [(rank, .ack c.id k c.digest)] ∧
            only t { moved with slots := [heard] } ∧ t.dev.mem = s.dev.mem) ∧
          (m.weight ≠ 0 → fits → ∃ t, exec go s = .next t ∧ tells t [(rank, .ack c.id k c.digest)] ∧
            only t { moved with slots := [{ heard with weight := z.weight + m.weight }] } ∧
            (∀ i, i < 256 → num (t.dev.bytes (slot + 12 * i) 12) 0 12 =
              (num (s.dev.bytes (slot + 12 * i) 12) 0 12 + num m.data (12 * i) 12) % 2 ^ 96) ∧
            s.dev.sameMemBut t.dev slot 3072) ∧
          (m.weight ≠ 0 → ¬fits → ends eAx96Headroom)))) ∧
    -- results
    (∀ z, c.slots = [z] → z.chunk = k → c.kind ≠ 0x65 →
      (z.st = .passed → r.from_ = some rank → r.downs = [] → r.here = true → z.wait = [] → verifies →
        ∃ t, exec (.resultChunkArrive q.1 q.2 k rank m) s = .next t ∧ tells t [] ∧
          only t { moved with slots := [{ z with st := .serving, has := true, sent := true, wait := [c.rank], poison := none,
                                                 anchor := m.anchor.toNat, trueAnchor := m.pred.toNat, weight := m.weight }] } ∧
          (∀ i, i < 3072 → t.dev.byte (rakeAddr c.iod z.phys + i) = m.data.getD i 0) ∧
          s.dev.sameMemBut t.dev (rakeAddr c.iod z.phys) 3072) ∧
      -- acknowledgements
      (z.st = .passed → z.has = true → z.served = false → r.to_ = some rank → r.from_.isSome = true →
        ∃ t, exec (.chunkAck q.1 q.2 k from_) s = .next t ∧ tells t [] ∧ t.dev.mem = s.dev.mem ∧
          only t { moved with slots := [{ z with has := false }] }) ∧
      (z.st = .serving → z.wait = [c.rank] → rank = c.rank → z.poison = none → z.again = false → c.eng = none → c.kind = 0x64 →
        c.segs = [] → c.outAx = false → c.dtype ≠ 3 → c.fence = false → c.redo = [] → c.total ≤ c.next →
        (let n := c.chunkBytes k
         n ≤ 3072 →
         ∃ t, exec (.chunkAck q.1 q.2 k from_) s = .next t ∧
          only t { moved with slots := [], ended := c.ended + 1, grants := c.grants.filter fun g => g.1 != k } ∧
          tells t (r.from_.toList.map fun p => (p, .ack c.id k c.digest)) ∧
          (∀ i, i < n → t.dev.byte (c.outAddr + c.first k * dtypeBytes c.dtype + i) = s.dev.byte (rakeAddr c.iod z.phys + i)) ∧
          s.dev.sameMemBut t.dev (c.outAddr + c.first k * dtypeBytes c.dtype) n)))) ∧
  ((∀ (c : Coll) (code : Code) (who : Nat) (chunk : W32) (aborted : Bool) (d : Dev), d.quiet → c.eng = none → c.turn = false →
    ∃ x : Dev, d.collEnd c code who chunk aborted = x.finish c.tkt code aborted 0 ∧
      x = { d with colls := x.colls, zeroing := x.zeroing, mem := x.mem, lds := x.lds, out := x.out, ports := x.ports, net := x.net } ∧
      x.colls = d.colls.filter (fun y => !(y.ld == c.ld && y.id == c.id)) ∧
      x.zeroing = d.zeroing ++ (if c.phys = [] then [] else [{ iod := c.iod, ld := c.ld, dom := c.dom, coll := c.id, phys := c.phys }]) ∧
      x.mem = (if c.doneAddr = 0 then d.mem else Mem.writeN memDefault d.mem c.doneAddr (c.doneWord code who (code != 0) chunk)) ∧
      d.toldAll x c.ld (if code = 0 then []
        else c.neighbours.map fun r => (c.members.getD r 0, .abort c.id code who chunk c.digest)) ∧
      (code = 0 → x.lds = d.lds) ∧
      (code ≠ 0 → (∀ n, n ≠ c.ld → x.ld n = d.ld n) ∧
        (x.ld c.ld).col.evt = (d.ld c.ld).col.evt ||| 1 ||| (if code = eCollTimeout then 2 else 0) ||| (if code = eCollMismatch then 16 else 0))) ∧
  ∀ (c : Coll) (s : State), s.dev.quiet → s.dev.colls = [c] →
    let ends := fun (i : Instr) (code : Code) (who : Nat) (chunk : W32) =>
      exec i s = .next { s with dev := s.dev.collEnd c code who chunk false }
    (∀ rank : Nat,
      let h : CollHead := { id := c.id, sender := { rank := rank, digest := c.digest } }
      (c.kind ≠ 0x65 → c.rank ≠ c.starter ∨ c.settled = true →
        let y := { c with fence := true }
        let passed := c.fenceTo.map fun r => (c.members.getD r 0, FabMsg.fence c.id c.digest)
        (c.settled = true → exec (.completionFence c.ld h) s =
          .next { s with dev := Dev.collEnd y c.badCode c.badWho c.badChunk false (Dev.tellAll c.ld passed { s.dev with colls := [y] }) }) ∧
        (c.settled = false → exec (.completionFence c.ld h) s = .next { s with dev := { s.dev with colls := [y] } })) ∧
      (∀ code who chunk, code ≠ 0 → ends (.abortNotice c.ld h code who chunk) code who chunk) ∧
      (∀ digest code who chunk, digest ≠ c.digest → rank ≠ c.rank → code ≠ 0 →
        let x : CollHead := { id := c.id, sender := { rank := rank, digest := digest } }
        ends (.completionFence c.ld x) eCollMismatch rank noChunk ∧
        ends (.abortNotice c.ld x code who chunk) eCollMismatch rank noChunk)) ∧
    (100000 * c.wdMs ≤ (s.now - c.lastMove).toNat → ∃ who chunk,
      ends (.collWatchdog c.ld c.id) eCollTimeout who chunk ∧ (c.granted = false → who = c.rank)) ∧
    ((s.now - c.lastMove).toNat < 100000 * c.wdMs → exec (.collWatchdog c.ld c.id) s = .next s) ∧
    (∀ (ag : Agent) (v : W32), reachesPage ag c.ld = true → s.dev.pageMode c.ld = .full → c.ld ≠ 15 → fld v 31 20 = 0 →
      (BitVec.ofNat 20 (fld v 19 0) = c.id → ends (.colAbort ag c.ld v) eCollAborted c.rank noChunk) ∧
      (BitVec.ofNat 20 (fld v 19 0) ≠ c.id → exec (.colAbort ag c.ld v) s = .next { s with dev := s.dev.ldErr c.ld eState })))

/-! ## Training state -/

/-- UPDATE, FETCH, FPCHECK and DFS_APPLY (R369, R375, R377, R378, R387, R396): a command whose body and shard descriptor
pass every check joins the queue of its die's update engine with a copy of its element program; the first failing check
rejects it and changes nothing (order: log 118); while the die of its weights may still join, it waits, and an absent die
ends it with E_STATE (R38, R39). UPDATE_ENGINE_START and the end of a command (R377, R379, R381, R391, R407): an idle engine
takes its first waiting command. An UPDATE over a suspect block ends with E_STATE, over a block at another epoch with
E_UPD_EPOCH, over blocks all at T with 0, and otherwise begins the moment phase of its first block below T, or comes before
the weight phase of a block rolled forward; a FETCH asks its source for the record; a seal begins its scan, and DFS_APPLY
its records. A busy engine takes nothing. The two phases of an update (R370, R380, R383, R385, R386): the moment phase
writes the new moments of AdamW or of SGD with momentum for every element of the block into bank T mod 2 and the record with
`m_epoch` T; the next event begins the weight phase (log 119), which writes the new weights of the block, zeros to its end,
and the record with `w_epoch` T and the new fingerprint; nothing else in memory changes. Clauses that rest on the model's
own reading: log 2, 62, 118, 119. -/
def Obligations.UpdateCommandsJoinAndRun : Prop :=
  (∀ (iss : Issuer) (body : List W32) (op : Nat) (c : Instr) (s : State), s.dev.quiet →
    (op, c) ∈ [(0x70, Instr.update iss body), (0x71, .fetch iss body), (0x72, .fpcheck iss body), (0x73, .dfsApply iss body)] →
    wfld body 0 7 0 = op →
    let tk := ticketOf iss body
    let ld := s.dev.issLd iss
    let dom := s.dev.issDom iss
    let shard := s.dev.refsAt (addr44 body 1) 16
    let die := (shardOf shard).die
    let front := firstFail (updStatic op body ++ [((s.dev.busCode (.eng ld dom) false (addr44 body 1) 64).isSome, ePerm)])
    (∀ e, front = some e → exec c s = .next { s with dev := s.dev.reject tk e }) ∧
    (front = none → ∀ e, firstFail (s.dev.updShape ld dom op body shard) = some e → exec c s = .next { s with dev := s.dev.reject tk e }) ∧
    (front = none → firstFail (s.dev.updShape ld dom op body shard) = none → (s.dev.die die).joined = false → (s.dev.die die).absent = false →
      exec c s = .next s) ∧
    (front = none → firstFail (s.dev.updShape ld dom op body shard) = none →
      (∀ e, firstFail (s.dev.updChecks ld dom op body shard) = some e → (s.dev.die die).joined = true ∨ (s.dev.die die).absent = true →
        exec c s = .next { s with dev := s.dev.reject tk e }) ∧
      (firstFail (s.dev.updChecks ld dom op body shard) = none → (s.dev.die die).absent = true →
        exec c s = .next { s with dev := s.dev.reject tk eState }) ∧
      (firstFail (s.dev.updChecks ld dom op body shard) = none → (s.dev.die die).joined = true → (s.dev.die die).absent = false →
        ∃ u : UpdCmd, exec c s = .next { s with dev := { s.dev.accept tk with upds := s.dev.upds ++ [u], nextId := s.dev.nextId + 1 } } ∧
          u.id = s.dev.nextId ∧ u.tkt = tk ∧ u.ld = ld ∧ u.dom = dom ∧ u.op = op ∧ u.words = body ∧ u.shard = shard ∧ u.die = die ∧
          u.prog = (if op = 0x70 ∧ wfld body 0 9 8 = 2 then updProg s.dev body else []) ∧
          u.phase = .waiting ∧ u.blk = (blkRange op body).1))) ∧
  ((∀ (now : W64) (c : UpdCmd) (code : Code) (aborted : Bool) (result : Nat) (d : Dev), c.op ≠ 0x70 ∨ wfld c.words 6 31 16 = 0 →
    d.updEnd now c code aborted result = Dev.finish c.tkt code aborted (BitVec.ofNat 32 result)
      (if code = ePoison then Dev.modLd c.ld (Ld.setUpdEvt 3) (({ d with upds := d.upds.filter (fun x => x.id != c.id) } : Dev).fabClose c.ld
          fun r => r.serves == .fetch c.die)
        else ({ d with upds := d.upds.filter (fun x => x.id != c.id) } : Dev).fabClose c.ld fun r => r.serves == .fetch c.die)) ∧
  (∀ (die : Nat) (s : State), s.dev.quiet →
    ((s.dev.running die).isSome = true → exec (.updateEngineStart die) s = .next s) ∧
    (∀ c rest, s.dev.upds = c :: rest → c.die = die → (s.dev.running die).isSome = false → (∀ x ∈ rest, x.id ≠ c.id) →
      let y := { c with startAt := s.now, lastMove := s.now, ncmd0 := (s.dev.ld c.ld).upd.ncmd }
      let rs := blockRecs s.dev c.sh c.op c.words
      let t := c.epoch
      let run := fun (p : UpdPhase) => exec (.updateEngineStart die) s = .next { s with dev := { s.dev with upds := { y with phase := p } :: rest } }
      (c.op = 0x70 →
        let z := { y with phase := UpdPhase.moment }
        let ok := fun (r : BlkRec) => (r.wEpoch = t ∧ r.mEpoch = t) ∨ (r.wEpoch + 1 = t ∧ (r.mEpoch + 1 = t ∨ r.mEpoch = t))
        ((∃ r ∈ rs, r.suspect = true) → exec (.updateEngineStart die) s = .next { s with dev := s.dev.updEnd s.now z eState false 0 }) ∧
        ((∀ r ∈ rs, r.suspect = false) → (∃ r ∈ rs, ¬ok r) →
          exec (.updateEngineStart die) s = .next { s with dev := s.dev.updEnd s.now z eUpdEpoch false 0 }) ∧
        ((∀ r ∈ rs, r.suspect = false) → (∀ r ∈ rs, r.wEpoch = t ∧ r.mEpoch = t) → c.blk = c.range.1 →
          exec (.updateEngineStart die) s = .next { s with dev := s.dev.updEnd s.now z 0 false 0 }) ∧
        (∀ k, k < c.range.2 → (∀ r ∈ rs, r.suspect = false ∧ ok r) → c.blk = c.range.1 →
          (∀ j, j < k → (blkRec (s.dev.bytes (c.sh.rec_ (c.blk + j)) 32)).wEpoch = t) →
          (let r := blkRec (s.dev.bytes (c.sh.rec_ (c.blk + k)) 32)
           r.wEpoch ≠ t →
           exec (.updateEngineStart die) s = .next { s with dev := { s.dev with upds :=
             { y with blk := c.blk + k, phase := if r.mEpoch = t then .between else .moment, tries := b2n (r.mEpoch = t) } :: rest } }))) ∧
      (c.op = 0x71 → (let src := c.source c.blk
        let own := (s.dev.ld c.ld).fab
        let kept := own.reqs.filter fun r => !(r.serves == .fetch c.die)
        s.dev.sendCode c.ld src.1 3 = 0 → s.dev.net.held = [] → own.reqs.length < 65536 →
        ∃ x, exec (.updateEngineStart die) s = .next { s with dev := x } ∧
          x = { s.dev with upds := { y with phase := .poll } :: rest, lds := x.lds, out := x.out, ports := x.ports, net := x.net } ∧
          (s.dev.fabClose c.ld fun r => r.serves == .fetch c.die).told x c.ld src.1 (.fetchRecord src.2.2) ∧
          (∀ n, n ≠ c.ld → x.ld n = s.dev.ld n) ∧
          (x.ld c.ld).fab.reqs = kept ++
            [{ tag := ({ own with reqs := kept } : FabRegs).freeTag, dst := BitVec.ofNat 14 src.1, age := 0, serves := .fetch c.die }])) ∧
      (c.op = 0x72 → wfld c.words 0 9 8 = 1 → run .scan) ∧ (c.op = 0x73 → run .apply)))) ∧
  (∀ (die : Nat) (c : UpdCmd) (rest : List UpdCmd) (s : State), s.dev.quiet → s.memWf → s.dev.upds = c :: rest → c.die = die →
    (∀ x ∈ rest, x.id ≠ c.id) → c.op = 0x70 → s.dev.updReach c = none → c.blk < c.sh.blocks →
    let sh := c.sh
    let i0 := c.blk * sh.perBlock
    let n := sh.elems c.blk
    let t := c.epoch
    let rec0 := blkRec (s.dev.bytes (sh.rec_ c.blk) 32)
    let word32 := fun (t : State) (a : Nat) => num (t.dev.bytes a 4) 0 4
    let go := exec (.updateEnginePhaseEnd die none) s
    let algo := wfld c.words 0 9 8
    (c.phase = .moment → (algo = 0 ∧ sh.nmom = 2) ∨ (algo = 1 ∧ sh.nmom = 1) →
      (let m1 := sh.moment (t % 2) i0 0
       m1 + 4 * sh.nmom * n ≤ sh.rec_ c.blk ∨ sh.rec_ c.blk + 32 ≤ m1 →
       ∃ u, go = .next u ∧ u = { s with dev := { s.dev with mem := u.dev.mem, upds := { c with phase := .between } :: rest } } ∧
        (∀ e, e < n →
          let old := fun k => sh.momentAt s.dev ((t + 1) % 2) (i0 + e) k
          let g := mulF32 (c.grad s.dev (i0 + e)) (c.h 0)
          word32 u (sh.moment (t % 2) (i0 + e) 0) = fmaF32 (c.h 2) (old 0) (mulF32 (c.h 3) g) % 2 ^ 32 ∧
          (algo = 0 → word32 u (sh.moment (t % 2) (i0 + e) 1) = fmaF32 (c.h 4) (old 1) (mulF32 (c.h 5) (mulF32 g g)) % 2 ^ 32)) ∧
        u.dev.bytes (sh.rec_ c.blk) 32 = ({ rec0 with mEpoch := t } : BlkRec).bytes ∧
        ∀ a, (a < m1 ∨ m1 + 4 * sh.nmom * n ≤ a) → (a < sh.rec_ c.blk ∨ sh.rec_ c.blk + 32 ≤ a) → u.dev.byte a = s.dev.byte a)) ∧
    (c.phase = .between → go = .next { s with dev := { s.dev with upds := { c with phase := .weight } :: rest } }) ∧
    (c.phase = .weight → (∀ i, i < 8 → (s.dev.dfsT c.ld i).waiting = false) → c.stop = false → wfld c.words 10 7 0 = 0 → c.last ≤ c.blk + 1 → wfld c.words 6 31 16 = 0 →
      sh.blk c.blk + blockBytes ≤ sh.rec_ c.blk ∨ sh.rec_ c.blk + 32 ≤ sh.blk c.blk →
      ∃ u, go = .next u ∧ ∃ d : Dev, u = { s with dev := d.updEnd s.now { c with pend := [], commit := [], phase := .moment } 0 false 0 } ∧
        d = { s.dev with mem := d.mem, lds := d.lds } ∧ (c.tries = 0 → d.lds = s.dev.lds) ∧
        (c.tries = 1 → (d.ld c.ld).upd.rollfwd = sat16 (s.dev.ld c.ld).upd.rollfwd ∧ (d.ld c.ld).upd.evt.getLsbD 2 = true) ∧
        (∀ e, e < n → d.bytes (sh.w + sh.width * (i0 + e)) sh.width = c.store (i0 + e) (c.newWeight s.dev (i0 + e))) ∧
        (∀ a, sh.blk c.blk + n * sh.width ≤ a → a < sh.blk c.blk + blockBytes → d.byte a = 0) ∧
        (let new := d.bytes (sh.blk c.blk) (n * sh.width)
         d.bytes (sh.rec_ c.blk) 32 = ({ rec0 with wEpoch := t, stale := false, fprint := fingerprint new } : BlkRec).bytes) ∧
        ∀ a, (a < sh.blk c.blk ∨ sh.blk c.blk + blockBytes ≤ a) → (a < sh.rec_ c.blk ∨ sh.rec_ c.blk + 32 ≤ a) → d.byte a = s.dev.byte a) ∧
    (c.phase = .weight → algo = 0 → ∀ d i,
      let w := sh.weightAt d i
      let m := fun k => sh.momentAt d (t % 2) i k
      let root := toF32 (f32 (mulF32 (m 1) (c.h 6))).sqrt
      c.newWeight d i = subF32 (subF32 w (mulF32 (c.h 8) w))
        (mulF32 (c.h 1) (toF32 ((f32 (m 0)).div (f32 (addF32 root (c.h 7))))))))

/-- FETCH, the seal and DFS_APPLY at work (R373, R376, R387, R396): a source below T is asked again, one above it ends the
command with E_UPD_EPOCH, and one at T is asked for the block; a verified block is written with its record, an unverified
one read again up to four times; a seal writes the recomputed fingerprint and clears both flags; records that do not fill a
header end DFS_APPLY with E_RANGE; and `wd_ms` without a block ends a FETCH with E_FETCH_TIMEOUT. Clauses that rest on the
model's own reading: log 2, 64, 119. -/
def Obligations.FetchSealApplyRun : Prop :=
  ∀ (die : Nat) (c : UpdCmd) (rest : List UpdCmd) (s : State), s.dev.quiet → s.memWf → s.dev.upds = c :: rest → c.die = die →
    (∀ x ∈ rest, x.id ≠ c.id) →
    let sh := c.sh
    let n := sh.elems c.blk * sh.width
    let rec0 := blkRec (s.dev.bytes (sh.rec_ c.blk) 32)
    let src := c.source c.blk
    let apart := sh.blk c.blk + blockBytes ≤ sh.rec_ c.blk ∨ sh.rec_ c.blk + 32 ≤ sh.blk c.blk
    let asks := fun (i : Instr) (y : UpdCmd) (m : FabMsg) => ∃ x, exec i s = .next { s with dev := x } ∧
      x = { s.dev with upds := y :: rest, lds := x.lds, out := x.out, ports := x.ports, net := x.net } ∧
      (s.dev.fabClose c.ld fun r => r.serves == .fetch die).told x c.ld src.1 m ∧ ∀ k, k ≠ c.ld → x.ld k = s.dev.ld k
    let open_ := s.dev.sendCode c.ld src.1 3 = 0 ∧ s.dev.net.held = [] ∧ (s.dev.ld c.ld).fab.reqs.length < 65536
    (∀ bs, c.phase = .poll → open_ →
      ((blkRec bs).wEpoch < c.epoch → asks (.fetchPoll die bs) c (.fetchRecord src.2.2)) ∧
      ((blkRec bs).wEpoch = c.epoch → asks (.fetchPoll die bs) { c with phase := .copy } (.fetchBlock src.2.1)) ∧
      (c.epoch < (blkRec bs).wEpoch → exec (.fetchPoll die bs) s = .next { s with dev := s.dev.updEnd s.now c eUpdEpoch false 0 })) ∧
    (∀ m : RemoteBlock, c.phase = .copy → c.op = 0x71 → s.dev.updReach c = none →
      let r := blkRec m.recAfter
      let fits := fingerprint m.data = r.fprint
      (r.wEpoch ≠ c.epoch → exec (.updateEnginePhaseEnd die (some m)) s = .next { s with dev := s.dev.updEnd s.now c eUpdEpoch false 0 }) ∧
      (r.wEpoch = c.epoch → ¬fits → c.tries = 3 →
        exec (.updateEnginePhaseEnd die (some m)) s = .next { s with dev := s.dev.updEnd s.now c eFetchCorrupt false 0 }) ∧
      (r.wEpoch = c.epoch → ¬fits → c.tries < 3 → open_ →
        asks (.updateEnginePhaseEnd die (some m)) { c with tries := c.tries + 1 } (.fetchBlock src.2.1)) ∧
      (r.wEpoch = c.epoch → fits → c.last = c.blk + 1 → apart → c.blk < sh.blocks →
        ∃ d : Dev, exec (.updateEnginePhaseEnd die (some m)) s = .next { s with dev := d.updEnd s.now { c with blk := c.blk + 1, tries := 0, lastMove := s.now } 0 false 0 } ∧
          d = { s.dev with mem := d.mem } ∧ d.bytes (sh.blk c.blk) n = slice m.data 0 n ∧
          (∀ a, sh.blk c.blk + n ≤ a → a < sh.blk c.blk + blockBytes → d.byte a = 0) ∧
          d.bytes (sh.rec_ c.blk) 32 = ({ rec0 with
            wEpoch := c.epoch, mEpoch := (if s.dev.owns c then rec0.mEpoch else c.epoch), suspect := false, stale := false, fprint := r.fprint } : BlkRec).bytes ∧
          ∀ a, (a < sh.blk c.blk ∨ sh.blk c.blk + blockBytes ≤ a) → (a < sh.rec_ c.blk ∨ sh.rec_ c.blk + 32 ≤ a) → d.byte a = s.dev.byte a)) ∧
    (c.phase = .scan → c.op = 0x72 → wfld c.words 0 9 8 = 1 → c.blk + 1 < c.last → s.dev.updReach c = none →
      ∃ t, exec (.updateEnginePhaseEnd die none) s = .next t ∧
        t = { s with dev := { s.dev with mem := t.dev.mem, upds := { c with blk := c.blk + 1, tries := 0, lastMove := s.now } :: rest } } ∧
        t.dev.bytes (sh.rec_ c.blk) 32 =
          ({ rec0 with fprint := fingerprint (s.dev.bytes (sh.blk c.blk) blockBytes), suspect := false, stale := false } : BlkRec).bytes ∧
        s.dev.sameMemBut t.dev (sh.rec_ c.blk) 32) ∧
    (c.phase = .apply → c.op = 0x73 → s.dev.updReach c = none →
      (let len := (word c.words 5).toNat
       (len ≤ c.off → exec (.updateEnginePhaseEnd die none) s = .next { s with dev := s.dev.updEnd s.now c 0 false c.count }) ∧
       (c.off < len → len < c.off + 64 →
         exec (.updateEnginePhaseEnd die none) s = .next { s with dev := s.dev.updEnd s.now c eRange false c.count }) ∧
       ((dfsHdr (s.dev.bytes (addr44 c.words 3 + c.off) 64)).enc = 3 → (let pad := 64 + (dfsHdr (s.dev.bytes (addr44 c.words 3 + c.off) 64)).payLen
         c.off + pad < len → c.off + 64 ≤ len →
         exec (.updateEnginePhaseEnd die none) s = .next { s with dev := { s.dev with upds := { c with off := c.off + pad } :: rest } })))) ∧
    (c.op = 0x71 → c.phase ≠ .waiting → 100000 * wfld c.words 6 15 0 ≤ (s.now - c.lastMove).toNat →
      exec (.fetchWatchdog die) s = .next { s with dev := s.dev.updEnd s.now c eFetchTimeout false 0 })

/-- The difference stream and UPD_ABORT (R381, R392 to R395, R408): enabling a target zeroes its counts and its control
line; a full ring makes the weight phase wait, and its consumer's progress or the break of the target lets it go on; a
target is broken when the wait of a phase exceeds `wd_ms`, and emits nothing until it is enabled anew; a record is written
after its pad with the next `seq` and `prod` advances past it; and UPD_ABORT ends every command of its LD that is not in a
weight phase. Clauses that rest on the model's own reading: log 2, 65, 120. -/
def Obligations.DifferenceStreamRuns : Prop :=
  (∀ (ag : Agent) (ld : Nat) (v : W32) (s : State), reachesPage ag ld = true → s.dev.pageMode ld = .full → ld ≠ 15 →
    let n := (s.dev.ld ld).upd.dfsSel.toNat
    let x := s.dev.dfsT ld n
    let did := BitVec.ofNat 14 (fld v 29 16)
    (fld v 15 0 = 0 → exec (.dfsEnable ag ld v) s = .next { s with dev := s.dev.ldErr ld eRange }) ∧
    (fld v 15 0 ≠ 0 → x.enable = true → v.getLsbD 30 ≠ x.kind ∨ did ≠ x.did →
      exec (.dfsEnable ag ld v) s = .next { s with dev := s.dev.ldErr ld eState }) ∧
    (fld v 15 0 ≠ 0 → x.enable = true → v.getLsbD 31 = true → v.getLsbD 30 = x.kind → did = x.did →
      ∃ t, exec (.dfsEnable ag ld v) s = .next t ∧ t = { s with dev := { s.dev with lds := t.dev.lds } } ∧
        (∀ k, k ≠ ld → t.dev.ld k = s.dev.ld k) ∧ (∀ k, k ≠ n → t.dev.dfsT ld k = s.dev.dfsT ld k) ∧
        t.dev.dfsT ld n = { x with wdMs := BitVec.ofNat 16 (fld v 15 0), broken := false }) ∧
    (fld v 15 0 ≠ 0 → x.enable = false → v.getLsbD 31 = true → v.getLsbD 30 = false → s.memWf →
      ∃ t, exec (.dfsEnable ag ld v) s = .next t ∧ t = { s with dev := { s.dev with lds := t.dev.lds, hostMem := t.dev.hostMem } } ∧
        (∀ k, k ≠ ld → t.dev.ld k = s.dev.ld k) ∧ (∀ k, k ≠ n → t.dev.dfsT ld k = s.dev.dfsT ld k) ∧
        t.dev.dfsT ld n = { x with enable := true, kind := false, did := did, wdMs := BitVec.ofNat 16 (fld v 15 0), broken := false,
                                   silent := false, seq := 0, prod := 0, cons := 0 } ∧
        (∀ i, i < 8 → t.dev.hostByte (x.base.toNat + i) = 0 ∧ t.dev.hostByte (x.base.toNat + 32 + i) = 0) ∧
        ∀ a, (a < x.base.toNat ∨ x.base.toNat + 8 ≤ a) → (a < x.base.toNat + 32 ∨ x.base.toNat + 40 ≤ a) → t.dev.hostByte a = s.dev.hostByte a)) ∧
  (∀ (ld n : Nat) (cons : W64) (s : State), s.dev.snoops = [] →
    let x := s.dev.dfsT ld n
    let only := fun (t : State) => t = { s with dev := { s.dev with lds := t.dev.lds } } ∧ (∀ k, k ≠ ld → t.dev.ld k = s.dev.ld k) ∧
      ∀ k, k ≠ n → t.dev.dfsT ld k = s.dev.dfsT ld k
    let wrote := s.dev.hostWrite (x.base.toNat + 32) (toBytes 8 cons.toNat)
    (x.enable = false → exec (.dfsRingWaitEnd ld n cons) s = .next s) ∧
    (x.enable = true → (∀ c ∈ s.dev.upds, c.phase ≠ .dfsWait) →
      (x.kind = false → exec (.dfsRingWaitEnd ld n cons) s = .next { s with dev := wrote }) ∧
      (x.kind = true → ∃ t, exec (.dfsRingWaitEnd ld n cons) s = .next t ∧ only t ∧ t.dev.dfsT ld n = { x with cons := cons })) ∧
    ((∀ c ∈ s.dev.upds, c.waitsOn ld n = true → (s.now - c.lastMove).toNat ≤ 100000 * x.wdMs.toNat) →
      exec (.dfsTargetWatchdog ld n) s = .next s) ∧
    (∀ c hdr pay, s.dev.upds = [c] → c.ld = ld → c.phase = .dfsWait → c.pend = [(n, hdr, pay)] →
      x.enable = true → x.silent = false → x.waiting = true → (∀ k, k < 8 → k ≠ n → (s.dev.dfsT ld k).waiting = false) →
      let key := ((s.dev.dom c.dom).dfsKey).getD []
      (x.kind = false → wrote.dfsFits x (128 + pay.length) = false → exec (.dfsRingWaitEnd ld n cons) s = .next { s with dev := wrote }) ∧
      (x.kind = false → wrote.dfsFits x (128 + pay.length) = true → exec (.dfsRingWaitEnd ld n cons) s =
        .next { s with dev := ((wrote.dfsEmit ld n hdr pay key).weightCommit s.now c).dfsSettle ld }) ∧
      (100000 * x.wdMs.toNat < (s.now - c.lastMove).toNat → exec (.dfsTargetWatchdog ld n) s =
        .next { s with dev := ((s.dev.dfsBreak ld n).weightCommit s.now c).dfsSettle ld }))) ∧
  (∀ (ld n : Nat) (d : Dev), let e := d.dfsBreak ld n
    e.dfsT ld n = { d.dfsT ld n with broken := true, silent := true } ∧ (e.ld ld).upd.evt.getLsbD 6 = true ∧
      (∀ k, k ≠ n → e.dfsT ld k = d.dfsT ld k) ∧ e = { d with lds := e.lds }) ∧
  (∀ (ld n : Nat) (hdr pay key : List Byte) (d : Dev), d.snoops = [] →
    let x := d.dfsT ld n
    let e := Dev.dfsEmitAll ld key [(n, hdr, pay)] d
    let h := ({ dfsHdr hdr with seq := x.seq.toNat } : DfsHdr).bytes
    let rec_ := h ++ pay ++ dfsTrailer key h pay
    let at_ := x.base.toNat + 64 + (if x.padFor (128 + pay.length) = 0 then x.prod.toNat % x.area else 0)
    x.enable = true → x.silent = false → x.kind = false → pay.length % 64 = 0 →
    (d.dfsFits x (128 + pay.length) = false → e.2 = [(n, hdr, pay)] ∧ (e.1.dfsT ld n).waiting = true ∧ e.1.hostMem = d.hostMem ∧
      (x.waiting = false → (e.1.ld ld).upd.evt.getLsbD 5 = true)) ∧
    (d.dfsFits x (128 + pay.length) = true → e.2 = [] ∧
      (e.1.dfsT ld n).prod = x.prod + BitVec.ofNat 64 (x.padFor (128 + pay.length) + (128 + pay.length)) ∧
      (e.1.dfsT ld n).seq = x.seq + 1 ∧ e.1 = { d with lds := e.1.lds, hostMem := e.1.hostMem } ∧
      (Mem.wf memDefault d.hostMem = true →
        (∀ i, i < rec_.length → e.1.hostByte (at_ + i) = rec_.getD i 0) ∧
        ∀ i, i < 8 → e.1.hostByte (x.base.toNat + i) = (toBytes 8 (e.1.dfsT ld n).prod.toNat).getD i 0))) ∧
  (∀ (ag : Agent) (ld : Nat) (s : State), reachesPage ag ld = true → s.dev.pageMode ld = .full → ld ≠ 15 →
    let late := fun (c : UpdCmd) => c.phase == .weight || c.phase == .dfsWait
    exec (.updAbort ag ld 0) s = .next s ∧
    (s.dev.colls = [] → (s.dev.upds.map UpdCmd.id).Nodup → ∃ t, exec (.updAbort ag ld 1) s = .next t ∧
      t.dev.upds = (s.dev.upds.filter fun c => c.ld != ld || late c).map fun c =>
        if c.ld = ld then { c with stop := true, stopCode := eUpdAborted } else c) ∧
    (∀ c, s.dev.upds = [c] → c.ld = ld →
      (late c = true → exec (.updAbort ag ld 1) s = .next { s with dev := { s.dev with upds := [{ c with stop := true, stopCode := eUpdAborted }] } }) ∧
      (late c = false → s.dev.colls = [] → exec (.updAbort ag ld 1) s = .next { s with
        dev := s.dev.updEnd s.now c eUpdAborted false (if c.op = 0x72 then c.fpResult else if c.op = 0x73 then c.count else 0) })))

/-- R405: the record of a phase that ends is written at the ring's base plus 32 times (head mod N) and the head advances by
one; when head less tail equals N the record is dropped and `drop` advances; and either way the PHASE completes. -/
def Obligations.PhaseRecordsFollowRing : Prop :=
  ∀ (iss : Issuer) (body : List W32) (p : OpenPhase) (s : State), s.dev.quiet → s.memWf →
    let tk := ticketOf iss body
    let ld := s.dev.issLd iss
    let u := (s.dev.ld ld).upd
    let id := BitVec.ofNat 16 (wfld body 0 31 16)
    let a := u.phBase.toNat + 32 * (u.phHead.toNat % 2 ^ u.phLog2)
    wfld body 0 15 9 = 0 → wfld body 2 31 8 = 0 → zeroWords body 3 15 = true → bit (word body 0).toNat 8 = true →
    (u.phases.find? fun y => y.phase == id) = some p → s.dev.busCode (.eng ld p.dom) true a 32 = none →
    ∃ x : Dev, exec (.phase iss body) s = .next { s with dev := x.done tk 0 } ∧
      ((u.phHead - u.phTail).toNat = 2 ^ u.phLog2 → x.mem = s.dev.mem ∧ (x.ld ld).upd.phHead = u.phHead ∧
        (u.phDrop.toNat < 2 ^ 32 - 1 → (x.ld ld).upd.phDrop = u.phDrop + 1)) ∧
      ((u.phHead - u.phTail).toNat ≠ 2 ^ u.phLog2 → (x.ld ld).upd.phHead = u.phHead + 1 ∧ (x.ld ld).upd.phDrop = u.phDrop ∧
        x.bytes a 32 = phaseRecord id.toNat 0 false p.step.toNat (s.now - p.start) (u.ncmd - p.ncmd) ∧ s.dev.sameMemBut x a 32)

/-- PHASE and its records (R403 to R405): a begin opens a phase with the present elapsed counter, one already open or a
seventeenth is rejected, and an end writes the 32-byte record with its duration at the head of the phase ring and advances
the head, or drops it when the ring is full. LAUNCH, CC_LAUNCH and the catch-crop job (R400 to R402, R450, R451): LAUNCH
loads the code into an idle cluster's store and starts it at offset 0 with its argument, its number in the launch and its
device number in g1, g2 and g3; CC_LAUNCH makes the LD's catch-crop job, whose program starts on a cluster only while no
main program holds it; and one that has not yielded within `yield_us` of the request is aborted with `late` set. Clauses
that rest on the model's own reading: log 2, 66, 69, 70. -/
def Obligations.PhasesAndPrograms : Prop :=
  (∀ (iss : Issuer) (body : List W32) (s : State), s.dev.quiet → s.memWf →
    let tk := ticketOf iss body
    let ld := s.dev.issLd iss
    let u := (s.dev.ld ld).upd
    let id := BitVec.ofNat 16 (wfld body 0 31 16)
    let cur := u.phases.find? fun p => p.phase == id
    wfld body 0 15 9 = 0 → wfld body 2 31 8 = 0 → zeroWords body 3 15 = true →
    (bit (word body 0).toNat 8 = false →
      (cur.isSome = true → exec (.phase iss body) s = .next { s with dev := s.dev.reject tk eState }) ∧
      (cur = none → 16 ≤ u.phases.length → exec (.phase iss body) s = .next { s with dev := s.dev.reject tk eExhausted }) ∧
      (cur = none → u.phases.length < 16 → ∃ x : Dev, exec (.phase iss body) s = .next { s with dev := x.done tk 0 } ∧
        x = { s.dev.accept tk with lds := x.lds } ∧ (∀ k, k ≠ ld → x.ld k = (s.dev.accept tk).ld k) ∧
        ∃ p : OpenPhase, (x.ld ld).upd = { u with phases := u.phases ++ [p] } ∧ p.phase = id ∧ p.start = s.now ∧ p.ncmd = u.ncmd ∧
          p.step = BitVec.ofNat 40 (word2 body 1))) ∧
    (bit (word body 0).toNat 8 = true →
      (cur = none → exec (.phase iss body) s = .next { s with dev := s.dev.reject tk eState }) ∧
      (∀ p, cur = some p → ∃ x : Dev, exec (.phase iss body) s = .next { s with dev := x.done tk 0 } ∧
        x = { s.dev.accept tk with lds := x.lds, mem := x.mem } ∧ (∀ k, k ≠ ld → x.ld k = (s.dev.accept tk).ld k) ∧
        (x.ld ld).upd = { u with phases := u.phases.filter (fun y => y.phase != id), phHead := (x.ld ld).upd.phHead, phDrop := (x.ld ld).upd.phDrop }))) ∧
  ((∀ (iss : Issuer) (body : List W32) (s : State), s.dev.quiet → s.memWf → wfld body 0 7 0 = 0x10 →
    let tk := ticketOf iss body
    let ld := s.dev.issLd iss
    let dom := s.dev.issDom iss
    let n := wfld body 4 11 0
    let code := addrAt body 1
    let len := wfld body 3 16 0
    let checks := codeChecks body [1, 5] [0, 1, 2, 3, 4, 5, 6] (wfld body 4 31 24 != 0)
    (∀ e, firstFail checks = some e → exec (.launch iss body) s = .next { s with dev := s.dev.reject tk e }) ∧
    (firstFail checks = none → len < 4 ∨ 65536 < len ∨ wfld body 4 23 12 = 0 → exec (.launch iss body) s = .next { s with dev := s.dev.reject tk eRange }) ∧
    (firstFail checks = none → 4 ≤ len → len ≤ 65536 → wfld body 4 23 12 = 1 → n ≤ 2559 → s.dev.ldOfDie (n / 256) = ld →
      s.dev.dieServes (n / 256) → s.dev.busCode (.eng ld dom) false code len = none → s.dev.launches = [] →
      (s.dev.clu n).occ = none → (s.dev.clu n).st ≠ .handingOver →
      (∀ a, code ≤ a → a < code + len → (a < storeAddr n 0 ∨ storeAddr n 0 + 0x10000 ≤ a) ∧
        (let c0 := sramBase + n / 256 * sramWindow + 0x10000000 + n % 256 * 32 * 0x8000
         a < c0 ∨ c0 + 32 * 0x8000 ≤ a)) →
      (∀ k : RingKind, ringAddr k n + 0x400 ≤ storeAddr n 0 ∨ storeAddr n 0 + 0x10000 ≤ ringAddr k n) →
      ∃ t, exec (.launch iss body) s = .next t ∧
        t = { s with dev := { s.dev.accept tk with
          launches := t.dev.launches, clusters := t.dev.clusters, mem := t.dev.mem, nextId := s.dev.nextId + 1,
          kvJobs := (s.dev.orphanRing n).kvJobs, score := (s.dev.orphanRing n).score } } ∧
        (∀ k, k ≠ n → t.dev.clu k = s.dev.clu k) ∧
        (let y := t.dev.clu n
         y.st = .running ∧ y.domain = BitVec.ofNat 12 dom ∧ y.occ = some (.main s.dev.nextId 0) ∧ y.yieldReq = none ∧
          y.ctl = entryRegs (addrAt body 5) 0 n) ∧
        (∀ i, i < len → t.dev.byte (storeAddr n 0 + i) = s.dev.byte (code + i)) ∧
        (∀ i, len ≤ i → i < 0x10000 → t.dev.byte (storeAddr n 0 + i) = 0) ∧
        (∃ j : LaunchJob, t.dev.launches = [j] ∧ j.tkt = tk ∧ j.running = [n] ∧ j.waiting = [] ∧ j.dom = dom))) ∧
  (∀ (iss : Issuer) (body : List W32) (s : State), s.dev.quiet → wfld body 0 7 0 = 0x11 →
    let tk := ticketOf iss body
    let ld := s.dev.issLd iss
    let dom := s.dev.issDom iss
    let save := addrAt body 4
    firstFail (codeChecks body [1, 4, 6] [0, 1, 2, 3, 4, 5, 6, 7] false) = none → save % 1024 = 0 →
    4 ≤ wfld body 3 16 0 → wfld body 3 16 0 ≤ 65536 →
    ((s.dev.ld ld).ctl.crop.isSome = true → exec (.ccLaunch iss body) s = .next { s with dev := s.dev.reject tk eState }) ∧
    ((s.dev.ld ld).ctl.crop = none → s.dev.mainDomain ld dom = true →
      exec (.ccLaunch iss body) s = .next { s with dev := s.dev.reject tk ePerm }) ∧
    ((s.dev.ld ld).ctl.crop = none → s.dev.mainDomain ld dom = false →
      s.dev.busCode (.eng ld dom) true save (2560 * 1024) = none → s.dev.busCode (.eng ld dom) false (addrAt body 1) (wfld body 3 16 0) = none →
      (∀ n ∈ s.dev.clustersOf ld, s.dev.dieAbsent (n / 256) = false) →
      ∃ t j, exec (.ccLaunch iss body) s = .next t ∧ t = { s with dev := { s.dev.accept tk with lds := t.dev.lds } } ∧
        (∀ k, k ≠ ld → t.dev.ld k = (s.dev.accept tk).ld k) ∧ (t.dev.ld ld).ctl = { (s.dev.ld ld).ctl with crop := some j } ∧
        j.tkt = tk ∧ j.dom = dom ∧ j.save = save ∧ j.todo = s.dev.clustersOf ld ∧ j.on = [] ∧ j.late = false)) ∧
  (∀ (ld n : Nat) (j : CropJob) (s : State), s.dev.quiet → s.memWf → (s.dev.ld ld).ctl.crop = some j →
    (j.todo.contains n = true → j.late = false → j.aborted = false → (s.dev.clu n).occ = none → (s.dev.clu n).st ≠ .handingOver →
      s.dev.awaited n = false → (s.dev.die (n / 256)).joined = true → (s.dev.clu n).saved = none →
      s.dev.busCode (.eng ld j.dom) false j.code j.len = none →
      ∃ t j', exec (.ccStart ld n) s = .next t ∧ t = { s with dev := { s.dev with
          lds := t.dev.lds, clusters := t.dev.clusters, mem := t.dev.mem, kvJobs := (s.dev.orphanRing n).kvJobs, score := (s.dev.orphanRing n).score } } ∧
        (∀ k, k ≠ n → t.dev.clu k = s.dev.clu k) ∧ (t.dev.clu n).st = .running ∧ (t.dev.clu n).occ = some .crop ∧
        (t.dev.clu n).domain = BitVec.ofNat 12 j.dom ∧ (t.dev.ld ld).ctl.crop = some j' ∧ j'.todo = j.todo.filter (· != n) ∧ n ∈ j'.on) ∧
    ((s.dev.clu n).occ.isSome = true → exec (.ccStart ld n) s = .next s) ∧
    ((s.dev.clu n).occ = some .crop → (s.dev.clu n).yieldReq = some .handOver → (s.dev.clu n).atYield = none → j.on = [n] →
      s.dev.ldOfDie (n / 256) = ld → s.dev.launches = [] → ld < 10 →
      ((s.dev.clu n).yieldAge < 100 * (s.dev.ld ld).ctl.yieldUs.toNat → exec (.ccYieldTimeout ld n) s = .next s) ∧
      (100 * (s.dev.ld ld).ctl.yieldUs.toNat ≤ (s.dev.clu n).yieldAge → ∃ t, exec (.ccYieldTimeout ld n) s = .next t ∧ (t.dev.ld ld).ctl.crop = none ∧ (t.dev.ld ld).ctl.late = true ∧
        (t.dev.ld ld).ctl.lateCount = sat16 (s.dev.ld ld).ctl.lateCount ∧ (t.dev.clu n).st = .idle ∧ (t.dev.clu n).occ = none ∧
        ∀ i, i < 0x10000 → t.dev.byte (storeAddr n 0 + i) = 0))))

/-! ## Trellises and turns -/

/-- TRL_LOAD and XPL_PLAN (R410 to R417, R430): a legal image goes into the slot with its digest as the result, an address
of 0 unloads the slot, an active slot or a turn under way is E_STATE, and the first failing check of the header or of the
tables rejects the command; XPL_PLAN writes the plan's entries of a rank, E_EXHAUSTED when the output is too small. Clauses
that rest on the model's own reading: log 67, 68. -/
def Obligations.TrellisLoadsAndPlans : Prop :=
  (∀ (iss : Issuer) (body : List W32) (s : State), s.dev.quiet →
    let tk := ticketOf iss body
    let ld := s.dev.issLd iss
    let dom := s.dev.issDom iss
    let one := bit (word body 0).toNat 8
    let a := word2 body 1 % 2 ^ 44
    let len := (word body 3).toNat
    let busy := (s.dev.ld ld).trl.active = some one ∨ (s.dev.ld ld).trl.turn.st ≠ .idle
    let ws := s.dev.refsAt a 32
    let h := trlHdr ws
    let out := fun (x : Nat × Nat) => (s.dev.busCode (.eng ld dom) false x.1 x.2).isSome
    let slot := fun (x : Dev) => if one then (x.ld ld).trl.slot1 else (x.ld ld).trl.slot0
    let other := fun (x : Dev) => if one then (x.ld ld).trl.slot0 else (x.ld ld).trl.slot1
    wfld body 0 15 9 = 0 → wfld body 2 31 12 = 0 → zeroWords body 4 15 = true → a % 64 = 0 → len % 64 = 0 →
    (a = 0 → busy → exec (.trlLoad iss body) s = .next { s with dev := s.dev.reject tk eState }) ∧
    (a = 0 → ¬busy → ∃ x : Dev, exec (.trlLoad iss body) s = .next { s with dev := x.done tk 0 } ∧
      x = { s.dev.accept tk with lds := x.lds } ∧ (∀ n, n ≠ ld → x.ld n = (s.dev.accept tk).ld n) ∧ slot x = none ∧ other x = other s.dev) ∧
    (a ≠ 0 → len < 128 → exec (.trlLoad iss body) s = .next { s with dev := s.dev.reject tk eRange }) ∧
    (a ≠ 0 → 128 ≤ len → out (a, len) = false →
      (∀ e, firstFail (trlHdrChecks ws) = some e → exec (.trlLoad iss body) s = .next { s with dev := s.dev.reject tk e }) ∧
      (firstFail (trlHdrChecks ws) = none → h.tables.any out = false →
        (∀ e, firstFail (s.dev.trlChecks ld h s.dev.bytes) = some e → exec (.trlLoad iss body) s = .next { s with dev := s.dev.reject tk e }) ∧
        (firstFail (s.dev.trlChecks ld h s.dev.bytes) = none → busy →
          exec (.trlLoad iss body) s = .next { s with dev := s.dev.reject tk eState }) ∧
        (firstFail (s.dev.trlChecks ld h s.dev.bytes) = none → ¬busy →
          (let g := trlDigest h s.dev.bytes (s.dev.bytes a 128)
           ∃ x : Dev, exec (.trlLoad iss body) s = .next { s with dev := x.finish tk 0 false g } ∧
            x = { s.dev.accept tk with lds := x.lds } ∧ (∀ n, n ≠ ld → x.ld n = (s.dev.accept tk).ld n) ∧ other x = other s.dev ∧
            slot x = some { addr := a, len := len, image := none, digest := g }))))) ∧
  (∀ (iss : Issuer) (body : List W32) (s : State) (p : Pair), s.dev.quiet → s.memWf →
    let tk := ticketOf iss body
    let ld := s.dev.issLd iss
    let out := addr44 body 6
    let len := (word body 8).toNat
    let plan := planOf p (wfld body 4 15 0)
    let ms := (p.2.1.members p.2.2).map TrlMem.ldid
    let es := planEntries ms (wfld body 5 13 0) (plan.getD [])
    wfld body 0 8 8 = 0 → wfld body 0 15 10 = 0 → zeroWords body 1 3 = true → wfld body 4 31 16 = 0 → wfld body 5 31 14 = 0 →
    high44 body 6 = false → zeroWords body 9 15 = true → wfld body 4 15 0 ≠ 0 →
    s.dev.slotPair ld (bit (word body 0).toNat 9) = some p → plan.isSome = true → roundsOf (plan.getD []) ≤ 65536 →
    (ms.length ≤ wfld body 5 13 0 → exec (.xplPlan iss body) s = .next { s with dev := s.dev.reject tk eRange }) ∧
    (wfld body 5 13 0 < ms.length → s.dev.busCode (.eng ld (s.dev.issDom iss)) true out (min len (32 * es.length)) = none →
      (len < 32 * es.length → exec (.xplPlan iss body) s = .next { s with dev := s.dev.reject tk eExhausted }) ∧
      (32 * es.length ≤ len → ∃ x : Dev, exec (.xplPlan iss body) s = .next { s with dev := x.finish tk 0 false (BitVec.ofNat 32 es.length) } ∧
        x = { s.dev.accept tk with mem := x.mem } ∧ s.dev.sameMemBut x out (32 * es.length) ∧
        ∀ i, i < es.length → x.bytes (out + 32 * i) 32 = es.getD i [])))

/-- TURN and its rounds (R418, R419, R422 to R424, R429): a legal TURN makes the LD RUNNING from its first round; a turn
already RUNNING, or a PARTIAL one without `resume` at its round, is E_STATE; a round begins by saving what it will write and
the records it touches into staging and issuing the ALL_TO_ALL of `coll_id` + r that carries this member's pieces as they
stood before it; and when that ALL_TO_ALL has ended with code 0 each piece is written in place, the new records of the
touched blocks are held and READY is sent, while another code is this member's error. Log entry 117 says what of the
exchange is the model's choice. The decisions of a turn (R425 to R429, R433): a coordinator that every member has told READY
sends COMMIT and commits; a COMMIT writes the new records and counts the round, and the last one makes the destination slot
active and ends the turn with 0; ABORT ends the turn PARTIAL and its ALL_TO_ALL with it, after the bytes saved in a round
that had begun have been put back; the coordinator's watchdog and XPL_CTL abort the round; and an acknowledgement of COMMIT
is noted. Clauses that rest on the model's own reading: log 2, 68, 117. -/
def Obligations.TurnsRunAndDecide : Prop :=
  ((∀ (iss : Issuer) (body : List W32) (s : State), s.dev.snoops = [] →
    let tk := ticketOf iss body
    let ld := s.dev.issLd iss
    let dom := s.dev.issDom iss
    let one := bit (word body 0).toNat 9
    let first := wfld body 8 15 0
    let stage := wfld body 4 15 0
    let cur := s.dev.turn ld
    let resume := bit (word body 0).toNat 8
    let rejected := fun (e : Code) => exec (.turn iss body) s = .next { s with dev := s.dev.reject tk e }
    wfld body 0 15 10 = 0 → high48 body 1 = false → wfld body 3 31 20 = 0 → wfld body 4 31 16 = 0 → high44 body 5 = false →
    wfld body 7 31 16 = 0 → zeroWords body 9 15 = true → addr44 body 5 % blockBytes = 0 → num48 body 1 ≠ 0 → stage ≠ 0 →
    wfld body 7 15 0 ≠ 0 → resume = true ∨ first = 0 →
    s.dev.busCode (.eng ld dom) true (addr44 body 5) (stage * blockBytes + 0x100000) = none →
    (cur.st = .running → rejected eState) ∧ (cur.st = .part → resume = false ∨ first ≠ cur.committed → rejected eState) ∧
    (cur.st = .idle ∨ (cur.st = .part ∧ resume = true ∧ first = cur.committed) →
      (s.dev.slotPair ld one = none → rejected eState) ∧
      (∀ p plan, s.dev.slotPair ld one = some p → planOf p stage = some plan →
        (let recs := (ownSources plan (s.dev.did ld) first).map fun a => blkRec (s.dev.bytes a 32)
         ((s.dev.ld ld).trl.active ≠ some one ∨ p.1.1.layout = p.2.1.layout → rejected eState) ∧
         ((s.dev.ld ld).trl.active = some one → p.1.1.layout ≠ p.2.1.layout →
          (s.dev.turnBusy ld = true → rejected eState) ∧
          (s.dev.turnBusy ld = false → s.dev.turnOverlap ld p body = true → rejected eRange) ∧
          (s.dev.turnBusy ld = false → s.dev.turnOverlap ld p body = false →
            ((∃ r ∈ recs, r.wEpoch ≠ num48 body 1) → rejected eUpdEpoch) ∧
            ((∀ r ∈ recs, r.wEpoch = num48 body 1 ∧ r.suspect = false) → roundsOf plan ≤ 65536 → (resume = true → first < roundsOf plan) →
              ∃ t, exec (.turn iss body) s = .next t ∧ t = { s with dev := { s.dev.accept tk with lds := t.dev.lds } } ∧
                (∀ n, n ≠ ld → t.dev.ld n = (s.dev.accept tk).ld n) ∧ (t.dev.ld ld).trl = { (s.dev.ld ld).trl with turn := t.dev.turn ld } ∧
                (let u := t.dev.turn ld
                 u.st = .running ∧ u.phase = .none ∧ u.total = roundsOf plan ∧ u.committed = first ∧ u.words = body ∧ u.tkt = some tk ∧
                  u.coord = t.dev.coordinator ld ∧ u.digest = s.dev.turnDigest ld body ∧ u.lastMove = s.now)))))))) ∧
  (∀ (ld : Nat) (s : State), (s.dev.turn ld).st ≠ .running ∨ (s.dev.turn ld).phase ≠ .none → s.dev.snoops = [] →
    exec (.roundBegin ld) s = .next s) ∧
  (∀ (ld : Nat) (s : State), s.dev.quiet → s.memWf →
    let u := s.dev.turn ld
    let saves := (s.dev.roundSaves ld).1
    let recs := (s.dev.roundSaves ld).2.map fun a => (a, 32)
    let sends := (s.dev.roundPieces ld).filter fun p => p.sDid == s.dev.did ld
    let c := s.dev.moveColl s.now ld
    let shards := ((List.range c.nmem).filter (· != c.rank)).flatMap fun r =>
      (List.range (a2aPieces (c.sends.getD r (0, 0)).1).length).map fun i => (i, r)
    let sent := fun (p : Nat × Nat) =>
      let shard := c.sends.getD p.2 (0, 0)
      let q := (a2aPieces shard.1).getD p.1 (0, 0)
      (c.members.getD p.2 0, FabMsg.result c.id p.1 (c.seal p.1 (slice c.buf (shard.2 + q.1) q.2) 0 0 shard.1 none))
    let a0 := u.stageAddr
    let a1 := a0 + u.stage * blockBytes
    let at_ := fun (l : List (Nat × Nat)) k => ((l.take k).map Prod.snd).foldl (· + ·) 0
    let size := fun (l : List (Nat × Nat)) => at_ l l.length
    let first := if bit (word u.words 0).toNat 8 then wfld u.words 8 15 0 else 0
    u.st = .running → u.phase = .none →
    s.dev.coordinates ld = false ∨ u.committed = first ∨ (∀ r ∈ s.dev.liveRanks ld, r = s.dev.turnRank ld ∨ r ∈ u.acked) →
    (∀ r ∈ saves ++ recs, s.dev.busCode (.eng ld u.dom) true r.1 r.2 = none) →
    (∀ p ∈ sends, s.dev.busCode (.eng ld u.dom) false p.src p.len = none) →
    size saves ≤ u.stage * blockBytes → size recs ≤ 0x100000 →
    (∀ r ∈ saves ++ recs, r.1 + r.2 ≤ a0 ∨ a1 + 0x100000 ≤ r.1) →
    s.dev.colls.length < 4096 → s.dev.coll? ld c.id = none → 2 ≤ c.nmem → s.dev.did ld ∈ s.dev.turnDids ld →
    c.kind = 0x65 ∧ c.id = BitVec.ofNat 20 (wfld u.words 3 19 0 + u.committed) ∧ c.digest = u.digest ∧ c.members = s.dev.turnDids ld ∧
    (∀ r, r < c.nmem → c.members.getD r 0 ≠ s.dev.did ld → slice c.buf (c.sends.getD r (0, 0)).2 (c.sends.getD r (0, 0)).1 =
      (sends.filter fun p => p.dDid == c.members.getD r 0).flatMap fun p => s.dev.bytes p.src p.len) ∧
    ∃ t, exec (.roundBegin ld) s = .next t ∧ t = { s with dev := { s.dev with
        mem := t.dev.mem, lds := t.dev.lds, colls := s.dev.colls ++ [{ c with unacked := shards }],
        out := t.dev.out, ports := t.dev.ports, net := t.dev.net } } ∧
      (∀ n, n ≠ ld → t.dev.ld n = s.dev.ld n) ∧ t.dev.turn ld = { u with phase := .move, lastMove := s.now } ∧
      s.dev.toldAll t.dev ld (shards.map sent) ∧
      (∀ k, k < saves.length → t.dev.bytes (a0 + at_ saves k) (saves.getD k (0, 0)).2 = s.dev.bytes (saves.getD k (0, 0)).1 (saves.getD k (0, 0)).2) ∧
      (∀ k, k < recs.length → t.dev.bytes (a1 + 32 * k) 32 = s.dev.bytes (recs.getD k (0, 0)).1 32) ∧
      ∀ a, a < a0 ∨ a1 + 0x100000 ≤ a → t.dev.byte a = s.dev.byte a) ∧
  (∀ (ld : Nat) (d : Dev), d.quiet → Mem.wf memDefault d.mem = true →
    let a0 := (d.turn ld).stageAddr
    let a1 := a0 + (d.turn ld).stage * blockBytes
    let saves := (d.roundSaves ld).1
    let recs := (d.roundSaves ld).2.map fun a => (a, 32)
    let at_ := fun (l : List (Nat × Nat)) k => ((l.take k).map Prod.snd).foldl (· + ·) 0
    at_ saves saves.length ≤ (d.turn ld).stage * blockBytes → at_ recs recs.length ≤ 0x100000 →
    (∀ r ∈ saves ++ recs, r.1 + r.2 ≤ a0 ∨ a1 + 0x100000 ≤ r.1) →
    (saves ++ recs).Pairwise (fun x y => x.1 + x.2 ≤ y.1 ∨ y.1 + y.2 ≤ x.1) →
    let e := d.stageRound ld true
    e = { d with mem := e.mem } ∧
    (∀ k, k < saves.length → e.bytes (saves.getD k (0, 0)).1 (saves.getD k (0, 0)).2 = d.bytes (a0 + at_ saves k) (saves.getD k (0, 0)).2) ∧
    (∀ k, k < recs.length → e.bytes (recs.getD k (0, 0)).1 32 = d.bytes (a1 + 32 * k) 32) ∧
    ∀ a, (∀ r ∈ saves ++ recs, a < r.1 ∨ r.1 + r.2 ≤ a) → e.byte a = d.byte a) ∧
  (∀ (ld src : Nat) (stale : List Bool) (s : State), s.dev.quiet → s.memWf →
    let u := s.dev.turn ld
    let taken := { u with moved := none, inbox := [] }
    let cs := s.dev.roundContents ld stale
    let go := Instr.roundMoveEnd ld src stale u.digest
    let only := fun (x y : Dev) (v : Turn) => y = { x with lds := y.lds } ∧ (∀ n, n ≠ ld → y.ld n = s.dev.ld n) ∧ y.turn ld = v
    u.st = .running →
    (u.phase ≠ .move ∨ u.moved = none → exec go s = .next s) ∧
    (∀ code who, u.phase = .move → u.moved = some (code, who) → code ≠ 0 → ∃ y : Dev, only s.dev y taken ∧
      (s.dev.coordinates ld = true → exec go s =
        .next { s with dev := (y.turnTell ld (.abortRound u.committed code who u.digest)).turnPart ld code false }) ∧
      (s.dev.coordinates ld = false → exec go s =
        .next { s with dev := y.turnSend ld u.coord (.askAbort u.committed code who u.digest) })) ∧
    (∀ who, u.phase = .move → u.moved = some (0, who) → (∀ c ∈ cs, c.2.1.length = c.1.len) →
      cs.Pairwise (fun x y => x.1.dst + x.1.len ≤ y.1.dst ∨ y.1.dst + y.1.len ≤ x.1.dst) →
      ∃ x : Dev, x = { s.dev with mem := x.mem } ∧ (∀ c ∈ cs, x.bytes c.1.dst c.1.len = c.2.1) ∧
        (∀ a, (∀ c ∈ cs, a < c.1.dst ∨ c.1.dst + c.1.len ≤ a) → x.byte a = s.dev.byte a) ∧
        ∃ news, news.map Prod.fst = (cs.map fun c => c.1.dRec).eraseDups ∧
          (∀ r ∈ news, ∃ c ∈ cs, c.1.dRec = r.1 ∧ ∃ old : Bool,
            let b := (c.1.dst - c.1.dEnt.w) / blockBytes
            r.2 = newRecord u.epoch (fingerprint (x.bytes (c.1.dEnt.w + b * blockBytes) blockBytes)) old ∧
            ((∃ y ∈ cs, y.1.dRec = r.1 ∧ y.2.2 = true) → old = true) ∧
            (u.committed = 0 → (∀ y ∈ cs, y.1.dRec = r.1 → y.2.2 = false) → old = false)) ∧
          (x.coordinates ld = false → ∃ y : Dev, exec go s = .next { s with dev := y.turnSend ld u.coord (.ready u.committed u.digest) } ∧
            only x y { taken with phase := .ready, newRecs := news, lastMove := s.now }) ∧
          (x.coordinates ld = true → (∃ r, r < (x.turnDids ld).length ∧ r ∉ u.ready ∧ r ≠ x.turnRank ld) →
            ∃ y : Dev, exec go s = .next { s with dev := y } ∧
            only x y { taken with phase := .ready, newRecs := news, lastMove := s.now, ready := insNat (x.turnRank ld) u.ready })))) ∧
  (∀ (ld : Nat) (s : State), s.dev.quiet → s.memWf → (s.dev.turn ld).st = .running →
    let u := s.dev.turn ld
    let lead := s.dev.coordinates ld
    let cleared := { u with committed := u.committed + 1, phase := .none, ready := [], reports := [], acked := [], newRecs := [], lastMove := s.now }
    let parted := { u with st := .part, phase := .none, tkt := none, ready := [], reports := [], acked := [], newRecs := [],
                           moved := none, inbox := [] }
    let others := s.dev.colls.filter fun c => !(c.ld == ld && c.turn)
    let only := fun (t : State) (v : Turn) => t = { s with dev := { s.dev with lds := t.dev.lds } } ∧ (∀ n, n ≠ ld → t.dev.ld n = s.dev.ld n) ∧
      t.dev.turn ld = v
    (∀ rank, lead = true →
      ((∀ r, r < (s.dev.turnDids ld).length → r = rank ∨ r ∈ u.ready) → ∃ y : Dev, y = { s.dev with lds := y.lds } ∧
        y.turn ld = { u with ready := insNat rank u.ready } ∧
        exec (.readyReceive ld rank u.committed u.digest) s =
          .next { s with dev := (y.turnTell ld (.commit u.committed u.digest)).roundCommit s.now ld }) ∧
      ((∃ r, r < (s.dev.turnDids ld).length ∧ r ≠ rank ∧ r ∉ u.ready) →
        ∃ t, exec (.readyReceive ld rank u.committed u.digest) s = .next t ∧ only t { u with ready := insNat rank u.ready }) ∧
      (0 < u.committed → ∃ t, exec (.roundStateReport ld rank (u.committed - 1) true u.digest) s = .next t ∧
        only t { u with acked := insNat rank u.acked })) ∧
    (u.phase = .ready → exec (.commitReceive ld u.committed u.digest) s =
      .next { s with dev := (s.dev.turnSend ld u.coord (.roundState u.committed true u.digest)).roundCommit s.now ld }) ∧
    (u.phase ≠ .ready → exec (.commitReceive ld u.committed u.digest) s = .next s) ∧
    (u.newRecs.Pairwise (fun x y => x.1 + 32 ≤ y.1 ∨ y.1 + 32 ≤ x.1) → (∀ r ∈ u.newRecs, r.2.length = 32) →
      (u.committed + 1 ≠ u.total → ∃ x : Dev, s.dev.roundCommit s.now ld = x ∧ x = { s.dev with mem := x.mem, lds := x.lds } ∧
        x.turn ld = cleared ∧ (∀ n, n ≠ ld → x.ld n = s.dev.ld n) ∧ (∀ r ∈ u.newRecs, x.bytes r.1 32 = r.2) ∧
        ∀ a, (∀ r ∈ u.newRecs, a < r.1 ∨ r.1 + 32 ≤ a) → x.byte a = s.dev.byte a) ∧
      (∀ tk, u.committed + 1 = u.total → u.tkt = some tk → ∃ x : Dev,
        s.dev.roundCommit s.now ld = x.finish tk 0 false (BitVec.ofNat 32 u.total) ∧ x = { s.dev with mem := x.mem, lds := x.lds } ∧
        (x.ld ld).trl.active = some (!u.one) ∧ (x.turn ld).st = .idle ∧ (x.turn ld).committed = u.total ∧
        (x.ld ld).trl.evt.getLsbD 0 = true ∧ (∀ r ∈ u.newRecs, x.bytes r.1 32 = r.2))) ∧
    (∀ code who, code ≠ 0 → s.dev.boot.drains = [] →
      (lead = false → u.phase ≠ .move → u.phase ≠ .ready → ∀ tk, u.tkt = some tk → ∃ x : Dev,
        exec (.abortReceive ld u.committed code who u.digest) s = .next { s with dev := x.finish tk code false (BitVec.ofNat 32 u.committed) } ∧
        x = { s.dev with lds := x.lds, colls := others } ∧ x.turn ld = parted ∧ (x.ld ld).trl.evt.getLsbD 1 = true ∧ ∀ n, n ≠ ld → x.ld n = s.dev.ld n) ∧
      (lead = false → u.phase = .move ∨ u.phase = .ready → ∀ tk, u.tkt = some tk → ∃ x : Dev,
        exec (.abortReceive ld u.committed code who u.digest) s = .next { s with dev := x.finish tk code false (BitVec.ofNat 32 u.committed) } ∧
        x = { (s.dev.stageRound ld true) with lds := x.lds, colls := others } ∧ x.turn ld = parted ∧ (x.ld ld).trl.evt.getLsbD 2 = true ∧
        (x.ld ld).trl.evt.getLsbD 1 = true) ∧
      (lead = true → exec (.abortReceive ld u.committed code who u.digest) s =
        .next { s with dev := (s.dev.turnTell ld (.abortRound u.committed code who u.digest)).turnPart ld code false })) ∧
    (100000 * u.wdMs ≤ (s.now - u.lastMove).toNat →
      (lead = true → ∃ who, exec (.roundWatchdog ld) s =
        .next { s with dev := (s.dev.turnTell ld (.abortRound u.committed eCollTimeout who u.digest)).turnPart ld eCollTimeout false }) ∧
      (lead = false → u.phase ≠ .ready → ∃ who, exec (.roundWatchdog ld) s =
        .next { s with dev := s.dev.turnSend ld u.coord (.askAbort u.committed eCollTimeout who u.digest) }) ∧
      (lead = false → u.phase = .ready → exec (.roundWatchdog ld) s = .next s)) ∧
    (∀ ag, reachesPage ag ld = true → s.dev.pageMode ld = .full → ld ≠ 15 →
      (lead = true → exec (.xplAbort ag ld 1) s =
        .next { s with dev := (s.dev.turnTell ld (.abortRound u.committed eCollAborted (s.dev.turnRank ld) u.digest)).turnPart ld eCollAborted false }) ∧
      (lead = false → exec (.xplAbort ag ld 1) s =
        .next { s with dev := s.dev.turnSend ld u.coord (.askAbort u.committed eCollAborted (s.dev.turnRank ld) u.digest) })))

/-! ## The host -/

/-- Queue registers (R444, R445, R452, R455): a legal write of `enable` 1 zeroes the queue's counts and its control line and
makes it ENABLED, each failing check leaves its code and nothing else; `tail` and `chead` are stored within their rings and
rejected beyond them; `enable` 0 on an idle queue makes it DRAINING, and once nothing of it is outstanding it is DISABLED;
and REQ_CPL_CFG with `enable` 1 zeroes the request ring's counts. Clauses that rest on the model's own reading: log 2, 71,
73. -/
def Obligations.QueuesEnableAndDrain : Prop :=
  ∀ (ag : Agent) (ld q : Nat) (v : W32) (s : State), reachesPage ag ld = true → s.dev.pageMode ld = .full → q < 64 → s.memWf →
    let x := (s.dev.ld ld).cq q
    let dom := fld v 27 16
    let n := fld v 4 0
    let only := fun (t : State) => t = { s with dev := { s.dev with lds := t.dev.lds } } ∧ (∀ k, k ≠ ld → t.dev.ld k = s.dev.ld k) ∧
      ∀ k, k ≠ q → (t.dev.ld ld).cq k = (s.dev.ld ld).cq k
    let err := fun (i : Instr) (c : Code) => exec i s = .next { s with dev := s.dev.ldErr ld c }
    (v.getLsbD 31 = true →
      (fld v 30 28 ≠ 0 ∨ fld v 15 5 ≠ 0 → err (.cqEnable ag ld q v) eReservedNonzero) ∧
      (fld v 30 28 = 0 → fld v 15 5 = 0 → s.dev.ownsDom ld dom = false → err (.cqEnable ag ld q v) ePerm) ∧
      (fld v 30 28 = 0 → fld v 15 5 = 0 → s.dev.ownsDom ld dom = true →
        (n < 4 ∨ 16 < n → err (.cqEnable ag ld q v) eRange) ∧
        (4 ≤ n → n ≤ 16 → x.st = .draining → err (.cqEnable ag ld q v) eState) ∧
        (4 ≤ n → n ≤ 16 → x.st = .disabled →
          (s.dev.ringInside ld x.base.toNat (64 * 2 ^ n) = false ∨ (s.dev.dom dom).st ≠ .open ∨
            (samples x.base.toNat (64 * 2 ^ n)).all (s.dev.ringFrame dom) = false → err (.cqEnable ag ld q v) ePerm) ∧
          (s.dev.ringInside ld x.base.toNat (64 * 2 ^ n) = true → (s.dev.dom dom).st = .open →
            (samples x.base.toNat (64 * 2 ^ n)).all (s.dev.ringFrame dom) = true →
            ∃ t, exec (.cqEnable ag ld q v) s = .next t ∧
              t = { s with dev := { s.dev with lds := t.dev.lds, hostMem := t.dev.hostMem } } ∧ (∀ k, k ≠ ld → t.dev.ld k = s.dev.ld k) ∧
              (t.dev.ld ld).cq q = { x with st := .enabled, domain := BitVec.ofNat 12 dom, log2n := n, tail := 0, head := 0, chead := 0, prod := 0 } ∧
              (∀ k, k ≠ q → (t.dev.ld ld).cq k = (s.dev.ld ld).cq k) ∧ (∀ i, i < 64 → t.dev.hostByte (x.cbase.toNat + i) = 0) ∧
              ∀ a, a < x.cbase.toNat ∨ x.cbase.toNat + 64 ≤ a → t.dev.hostByte a = s.dev.hostByte a)))) ∧
    (v.getLsbD 31 = false → fld v 30 28 = 0 → fld v 15 5 = 0 → s.dev.ownsDom ld dom = true → 4 ≤ n → n ≤ 16 →
      (x.st = .disabled → ∃ t, exec (.cqDisable ag ld q v) s = .next t ∧ only t ∧
        (t.dev.ld ld).cq q = { x with domain := BitVec.ofNat 12 dom, log2n := n }) ∧
      (x.st ≠ .disabled → x.domain.toNat ≠ dom ∨ x.log2n ≠ n → err (.cqDisable ag ld q v) eState) ∧
      (x.st = .enabled → x.domain.toNat = dom → x.log2n = n → s.dev.launches = [] → (∀ k, (s.dev.ld k).ctl.crop = none) →
        (∀ k, (s.dev.turn k).tkt = none ∧ (s.dev.ld k).wave.tkt = none) →
        ∃ t, exec (.cqDisable ag ld q v) s = .next t ∧ t = { s with dev := { s.dev with lds := t.dev.lds, boot := t.dev.boot } } ∧
          (t.dev.ld ld).cq q = { x with st := .draining } ∧
          t.dev.boot = { s.dev.boot with drains := s.dev.boot.drains ++
            [{ sc := .queue ld q, at_ := s.now, limitUs := (s.dev.ld ld).ctl.drainUs, expired := false }] })) ∧
    (x.st ≠ .enabled → err (.cqTailWrite ag ld q v) eDisabled) ∧
    (x.st = .enabled → 2 ^ x.log2n < (v - x.head).toNat ∨ (v - x.tail).toInt < 0 → err (.cqTailWrite ag ld q v) eRange) ∧
    (x.st = .enabled → (v - x.head).toNat ≤ 2 ^ x.log2n → 0 ≤ (v - x.tail).toInt →
      ∃ t, exec (.cqTailWrite ag ld q v) s = .next t ∧ only t ∧ (t.dev.ld ld).cq q = { x with tail := v }) ∧
    (2 ^ x.log2m < (x.prod - v).toNat → err (.cqCplHeadWrite ag ld q v) eRange) ∧
    ((x.prod - v).toNat ≤ 2 ^ x.log2m →
      ∃ t, exec (.cqCplHeadWrite ag ld q v) s = .next t ∧ only t ∧ (t.dev.ld ld).cq q = { x with chead := v }) ∧
    (x.st = .draining → x.outstanding = 0 → (s.dev.ld ld).upd.phases = [] → s.dev.boot.drains = [] →
      ∃ t, exec (.queueDrainEnd ld q) s = .next t ∧ only t ∧ (t.dev.ld ld).cq q = { x with st := .disabled, tail := 0, head := 0 }) ∧
    (x.st ≠ .draining ∨ x.outstanding ≠ 0 → exec (.queueDrainEnd ld q) s = .next s) ∧
    (let r := (s.dev.ld ld).host.reqCpl
     let m := fld v 4 0
     v.getLsbD 31 = true → fld v 30 5 = 0 →
      (m < 4 ∨ 18 < m → err (.reqCplEnable ag ld v) eRange) ∧
      (4 ≤ m → m ≤ 18 → s.dev.anyReq ld = true → m ≠ r.log2m → err (.reqCplEnable ag ld v) eState) ∧
      (4 ≤ m → m ≤ 18 → s.dev.anyReq ld = false → ∃ t, exec (.reqCplEnable ag ld v) s = .next t ∧
        t = { s with dev := { s.dev with lds := t.dev.lds, hostMem := t.dev.hostMem } } ∧ (∀ k, k ≠ ld → t.dev.ld k = s.dev.ld k) ∧
        (t.dev.ld ld).host.reqCpl = { r with enable := true, log2m := m, head := 0, prod := 0 } ∧
        ∀ i, i < 64 → t.dev.hostByte (r.base.toNat + i) = 0))

/-- COMMAND_FETCH (R446 to R449, R454): a queue that is not ENABLED or whose LD is not, has nothing posted, has no record
place, or whose bodies are not all posted fetches nothing; an `nbody` of 0 or 3 consumes the header alone with E_RANGE, a
failing header check consumes the whole command with its code; and a command that passes runs in its engine under the
queue's issuer, with `head` past it. Clauses that rest on the model's own reading: log 2, 72. -/
def Obligations.CommandsAreFetched : Prop :=
  ∀ (ld q : Nat) (s : State), s.dev.quiet → s.dev.touched = [] →
    let x := (s.dev.ld ld).cq q
    let posted := (x.tail - x.head).toNat
    let go := exec (.commandFetch ld q) s
    let at_ := fun (i : Nat) => x.base.toNat + 64 * ((x.head + BitVec.ofNat 32 i).toNat % 2 ^ x.log2n)
    let words := fun (i : Nat) => s.dev.refsAt (at_ i) 16
    let readable := fun (i : Nat) => s.dev.busCode (.eng ld x.domain.toNat) false (at_ i) 64 = none
    let took := fun (n : Nat) => s.dev.modCq ld q fun y => { y with head := x.head + BitVec.ofNat 32 n }
    let h := words 0
    let nbody := wfld h 0 1 0
    let ct := BitVec.ofNat 16 (wfld h 0 31 16)
    let iss := Issuer.queue ld q ct x.head
    (x.st ≠ .enabled ∨ (s.dev.ld ld).ctl.st ≠ .enabled ∨ posted = 0 ∨ 2 ^ x.log2m - (x.prod - x.chead).toNat ≤ x.outstanding → go = .next s) ∧
    (x.st = .enabled → (s.dev.ld ld).ctl.st = .enabled → 0 < posted → x.outstanding < 2 ^ x.log2m - (x.prod - x.chead).toNat → readable 0 →
      (nbody = 0 ∨ nbody = 3 → go = .next { s with dev := (took 1).reject { iss := iss, op := 0, btag := 0 } eRange }) ∧
      (nbody = 1 ∨ nbody = 2 → posted < 1 + nbody → go = .next s) ∧
      (nbody = 1 ∨ nbody = 2 → 1 + nbody ≤ posted → readable 1 → (nbody = 2 → readable 2) →
        (let b := words 1 ++ (if nbody = 2 then words 2 else [])
         let op := wfld b 0 7 0
         (∀ c, firstFail (headerChecks s.dev ld nbody op h) = some c → go = .next { s with dev := (took (1 + nbody)).reject (ticketOf iss b) c }) ∧
         (firstFail (headerChecks s.dev ld nbody op h) = none →
          ((word h 0).getLsbD 2 = true ∨ op = 0x74 → x.outstanding ≠ 0 → go = .next s) ∧
          ((word h 0).getLsbD 2 = false ∧ op ≠ 0x74 ∨ x.outstanding = 0 →
            (commandOf op iss (wfld h 0 11 8) b = none → go = .next { s with dev := (took (1 + nbody)).reject (ticketOf iss b) eRange }) ∧
            (commandOf op iss (wfld h 0 11 8) b ≠ none → ∃ f t, commandOf op iss (wfld h 0 11 8) b = some f ∧
              f { s with dev := took (1 + nbody) } = .next t ∧
              (let y := (t.dev.ld ld).cq q
               (y.prod ≠ x.prod ∨ y.outstanding ≠ x.outstanding → go = .next t) ∧
               (y.prod = x.prod → y.outstanding = x.outstanding →
                 go = .next { s with dev := { s.dev with out := t.dev.out, biWait := t.dev.biWait } })))))))) ∧
    (∀ t code, code ≠ (0 : Code) → t.iss = iss → ∃ d, s.dev.reject t code = d ∧ d = { s.dev with lds := d.lds, hostMem := d.hostMem } ∧
      ((d.ld ld).cq q).prod = x.prod + 1 ∧ ((d.ld ld).cq q).outstanding = x.outstanding)

/-- Mailboxes (R456 to R459, R556): `send` from the sender's side fills an empty mailbox, `release` from the receiver's
zeroes and empties a full one and sets its bit of MBX_EMPTY, the wrong side is E_PERM and the wrong moment E_STATE; and a
message that no rule serves is answered in mailbox 16 + m with E_RANGE and released. Clauses that rest on the model's own
reading: log 75. -/
def Obligations.MailboxesCarryMessages : Prop :=
  ∀ (ag : Agent) (ld m : Nat) (v : W32) (s : State), m < 32 →
    let x := (s.dev.ld ld).mbx m
    let only := fun (t : State) => t = { s with dev := { s.dev with lds := t.dev.lds } } ∧ ∀ k, k ≠ ld → t.dev.ld k = s.dev.ld k
    let err := fun (i : Instr) (c : Code) => exec i s = .next { s with dev := s.dev.ldErr ld c }
    (reachesPage ag ld = true → s.dev.pageMode ld = .full → fld v 31 30 = 0 → fld v 27 5 = 0 →
      (v.getLsbD 28 = true → v.getLsbD 29 = true → err (.mbxSend ag ld m v) eRange) ∧
      (v.getLsbD 28 = true → v.getLsbD 29 = false → isSender ag m = false → err (.mbxSend ag ld m v) ePerm) ∧
      (v.getLsbD 28 = true → v.getLsbD 29 = false → isSender ag m = true → x.full = true → err (.mbxSend ag ld m v) eState) ∧
      (v.getLsbD 28 = true → v.getLsbD 29 = false → isSender ag m = true → x.full = false →
        (fld v 3 0 = 0 ∨ 2 ≤ fld (x.data.getD 0 0) 31 28 → err (.mbxSend ag ld m v) eRange) ∧
        (fld v 3 0 ≠ 0 → fld (x.data.getD 0 0) 31 28 < 2 → ∃ t, exec (.mbxSend ag ld m v) s = .next t ∧ only t ∧
          (t.dev.ld ld).mbx m = { x with full := true, nreg := fld v 3 0, sentAt := s.dev.arrival ld } ∧
          ∀ k, k ≠ m → (t.dev.ld ld).mbx k = (s.dev.ld ld).mbx k)) ∧
      (v.getLsbD 29 = true → v.getLsbD 28 = false → isSender ag m = true → err (.mbxRelease ag ld m v) ePerm) ∧
      (v.getLsbD 29 = true → v.getLsbD 28 = false → isSender ag m = false → x.full = false → err (.mbxRelease ag ld m v) eState) ∧
      (v.getLsbD 29 = true → v.getLsbD 28 = false → isSender ag m = false → x.full = true →
        ∃ t, exec (.mbxRelease ag ld m v) s = .next t ∧ only t ∧ ((t.dev.ld ld).mbx m).full = false ∧
          (∀ i, i < 15 → ((t.dev.ld ld).mbx m).data.getD i 0 = 0) ∧ (t.dev.ld ld).host.mbxEmpty = setBit (s.dev.ld ld).host.mbxEmpty m ∧
          ∀ k, k ≠ m → (t.dev.ld ld).mbx k = (s.dev.ld ld).mbx k)) ∧
    (s.dev.mbxReady ld m = true → m < 16 → ld ≠ 15 → (m = 0 → fld (s.dev.mbxWord ld 0 0) 31 28 = 0 → fld (s.dev.mbxWord ld 0 0) 27 16 ≠ 0x020) →
      ∃ t, exec (.mailboxServe ld m) s = .next t ∧ only t ∧ ((t.dev.ld ld).mbx m).full = false ∧
        (let r := (t.dev.ld ld).mbx (16 + m)
         r.full = true ∧ r.data.getD 0 0 = x.data.getD 0 0 &&& 0x0FFFFFFF ∧ r.data.getD 1 0 = BitVec.ofNat 32 eRange.toNat ∧
          ∀ i, 2 ≤ i → i < 15 → r.data.getD i 0 = 0) ∧
        (t.dev.ld ld).host.mbxEmpty = setBit (s.dev.ld ld).host.mbxEmpty m) ∧
    (s.dev.mbxReady ld m = false → exec (.mailboxServe ld m) s = .next s)

/-- CXL.mem and snoops (R435 to R437, R197, R198): a permitted host read answers the line of device memory, one that fails
its checks poisoned zeros, and a host write stores its 64 bytes or records its code and stores nothing; the device answers
every host snoop with RspIHitI; while the host holds a line with cacheable intent, a command of an engine that meets it has
no effect but its back-invalidation, until the response drops the line. Clauses that rest on the model's own reading: log 2,
12, 76. -/
def Obligations.HostReachesMemory : Prop :=
  (∀ (ld hdm off a : Nat) (cacheable : Bool) (data : List Byte) (s : State), s.dev.quiet → s.memWf → s.dev.pageMode ld = .full →
    s.dev.hdmAddr ld hdm off = some a → data.length = 64 →
    (s.dev.busCode (.cxl ld) false a 64 = none →
      ∃ t, exec (.cxlMemRead ld hdm off cacheable) s = .next t ∧
        t = { s with dev := { s.dev with snoops := t.dev.snoops, free := t.dev.free, out := s.dev.out ++ [.cxlData ld a (s.dev.bytes a 64) false] } } ∧
        (cacheable = true → t.dev.snoops = [a]) ∧ (cacheable = false → t.dev.snoops = [] ∧ t.dev.free = s.dev.free)) ∧
    (s.dev.busCode (.cxl ld) false a 64 ≠ none → exec (.cxlMemRead ld hdm off cacheable) s =
      .next { s with dev := { s.dev with out := s.dev.out ++ [.cxlData ld a (zeros 64) true] } }) ∧
    (s.dev.busCode (.cxl ld) true a 64 = none → ∃ t, exec (.cxlMemWrite ld hdm off data false) s = .next t ∧
      t = { s with dev := { s.dev with mem := t.dev.mem } } ∧ t.dev.bytes a 64 = data ∧ s.dev.sameMemBut t.dev a 64) ∧
    (∀ c poison, s.dev.busCode (.cxl ld) true a 64 = some c →
      exec (.cxlMemWrite ld hdm off data poison) s = .next { s with dev := s.dev.ldErr ld c })) ∧
  (∀ (a : Nat) (s : State), exec (.hostSnoop a) s = .next { s with dev := { s.dev with out := s.dev.out ++ [.rspIHitI a] } } ∧
    (s.dev.biWait.contains a = true → exec (.backInvalidateResponse a) s = .next { s with dev := { s.dev with
      snoops := s.dev.snoops.filter (· != a), biWait := s.dev.biWait.filter (· != a) } }) ∧
    (s.dev.biWait.contains a = false → exec (.backInvalidateResponse a) s = .next s)) ∧
  (∀ (iss : Issuer) (body : List W32) (l : Nat) (s : State), s.dev.snoops = [l] → s.dev.biWait = [] → wfld body 0 7 0 = 0x84 →
    (let a := addrAt body 2
     let ld := s.dev.issLd iss
     secReserved body [1, 2, 3] (wfld body 1 7 1 != 0 || wfld body 1 31 14 != 0 || addrHigh body 2) = false →
     s.dev.isControl ld (s.dev.issDom iss) = true → s.dev.busCode (.eng ld (s.dev.issDom iss)) false a 60 = none →
     bit (word body 1).toNat 0 = false → Map.find (s.dev.ld ld).sec.pubKeys (wfld body 1 13 8) = none →
     a < l + 64 → l < a + 60 →
     exec (.pubKey iss body) s = .next { s with dev := { s.dev with biWait := [l], out := s.dev.out ++ [.backInvalidate l] } }))

/-! ## Tenants and security -/

/-- Domains (R463 to R465, R473, R489): the control domain of an LD opens a CLOSED domain of its range with its quotas and
fresh keys, sets the quotas of an OPEN one, and closes it: the domain is CLOSING while its drain runs, and once nothing of
it is left its keys are overwritten with zeros and it is CLOSED. Another issuer is E_PERM, a quota above its largest value
E_RANGE, a domain in another state E_STATE, a CLOSING one E_DISABLED, and the control domain cannot be closed or given
quotas. Clauses that rest on the model's own reading: log 2, 77. -/
def Obligations.DomainsOpenAndClose : Prop :=
  ∀ (iss : Issuer) (body : List W32) (s : State),
    let tk := ticketOf iss body
    let ld := s.dev.issLd iss
    let n := wfld body 1 11 0
    let x := s.dev.dom n
    let kv := wfld body 2 20 0
    let rq := wfld body 3 18 0
    let rk := wfld body 4 14 0
    let mine := s.dev.isControl ld (s.dev.issDom iss) = true ∧ s.dev.ownsDom ld n = true
    let sound := secReserved body [1, 2, 3, 4] (wfld body 1 31 12 != 0 || wfld body 2 31 21 != 0 || wfld body 3 31 19 != 0 || wfld body 4 31 15 != 0) = false
    let large := 1310720 < kv ∨ 262144 < rq ∨ 20480 < rk
    let no := fun (c : Instr) (e : Code) => exec c s = .next { s with dev := s.dev.reject tk e }
    (wfld body 0 7 0 = 0x80 → sound →
      (large → no (.domOpen iss body) eRange) ∧ (¬large → ¬mine → no (.domOpen iss body) ePerm) ∧
      (¬large → mine → x.st = .open → no (.domOpen iss body) eState) ∧ (¬large → mine → x.st = .closing → no (.domOpen iss body) eDisabled) ∧
      (¬large → mine → x.st = .closed → s.dev.crypto.drbgFail = false → ∃ y : Dev, exec (.domOpen iss body) s = .next { s with dev := y.done tk 0 } ∧
        y = { s.dev.accept tk with domains := y.domains, crypto := y.crypto, free := s.dev.free + 2 } ∧ (∀ k, k ≠ n → y.dom k = s.dev.dom k) ∧
        (y.dom n).st = .open ∧ (y.dom n).kvQ = kv ∧ (y.dom n).reqQ = rq ∧ (y.dom n).rakeQ = rk ∧ (y.dom n).dfsKey = none ∧
        (y.dom n).memKey = toBytes 64 (Config.freeNat s.dev.free) ∧ (y.dom n).kemKey = toBytes 64 (Config.freeNat (s.dev.free + 1))) ∧
      (¬large → mine → x.st = .closed → s.dev.crypto.drbgFail = true → exec (.domOpen iss body) s = .next s)) ∧
    (wfld body 0 7 0 = 0x82 → sound →
      (large → no (.domQuota iss body) eRange) ∧ (¬large → ¬mine → no (.domQuota iss body) ePerm) ∧
      (¬large → mine → s.dev.isControl ld n = true → no (.domQuota iss body) eState) ∧
      (¬large → mine → s.dev.isControl ld n = false → x.st = .closed → no (.domQuota iss body) eState) ∧
      (¬large → mine → s.dev.isControl ld n = false → x.st = .closing → no (.domQuota iss body) eDisabled) ∧
      (¬large → mine → s.dev.isControl ld n = false → x.st = .open → ∃ y : Dev, exec (.domQuota iss body) s = .next { s with dev := y.done tk 0 } ∧
        y = { s.dev.accept tk with domains := y.domains } ∧ y.dom n = { x with kvQ := kv, reqQ := rq, rakeQ := rk } ∧
        ∀ k, k ≠ n → y.dom k = s.dev.dom k)) ∧
    (wfld body 0 7 0 = 0x81 → secReserved body [1] (wfld body 1 31 12 != 0) = false →
      (¬mine → no (.domClose iss body) ePerm) ∧ (mine → s.dev.isControl ld n = true → no (.domClose iss body) eState) ∧
      (mine → s.dev.isControl ld n = false → x.st = .closed → no (.domClose iss body) eState) ∧
      (mine → s.dev.isControl ld n = false → x.st = .closing → no (.domClose iss body) eDisabled) ∧
      (mine → s.dev.isControl ld n = false → x.st = .open → ∃ y : Dev, y = { s.dev.accept tk with domains := y.domains } ∧
        y.dom n = { x with st := .closing, tkt := some tk } ∧ (∀ k, k ≠ n → y.dom k = s.dev.dom k) ∧
        exec (.domClose iss body) s = .next { s with dev := y.disableBegin s.now (.domain n) ld })) ∧
    (∀ (k : Nat) (t : Ticket), (s.dev.dom k).tkt = some t →
      (let left := (s.dev.kv.any fun e => e.2.domain.toNat == k && e.2.st != .free && e.2.st != .retired) ||
        (s.dev.adapters.any fun a => a.2.domain.toNat == k && a.2.st != .free) ||
        !(s.dev.framesOf k fun p => p.st == .assigned || p.st == .zeroing).isEmpty
       (left = true → exec (.domCloseComplete k) s = .next s) ∧
       ((s.dev.dom k).st = .closing → (∀ z ∈ s.dev.boot.drains, z.sc ≠ .domain k) → left = false →
        ∃ y : Dev, exec (.domCloseComplete k) s = .next { s with dev := y.done t 0 } ∧ y = { s.dev with domains := y.domains, lds := y.lds } ∧
          y.dom k = Domain.closed ∧ (∀ j, j ≠ k → y.dom j = s.dev.dom j) ∧ (y.ld (s.dev.issLd t.iss)).sec.evt.getLsbD 5 = true)))

/-- Page tags (R32, R467, R468, R470, R472): an access to HBM3E is admitted in the windows of the requester's own LD alone,
and there for the owning domain of an ASSIGNED frame, for reads of a shared one, for CXL.mem with `host` and for Cassum with
`fabric`, and for nobody but the management controller while the frame is FREE, ZEROING or KV; PAGE_SET takes FREE frames to
ZEROING for an OPEN domain or ASSIGNED ones to ZEROING for their release, changes flags at once, and rejects frames in
another state with E_STATE; the zero fill leaves the frame zero, and ASSIGNED or FREE; and nobody but the management
controller reaches the page-map slice of a die by address (R222). Clauses that rest on the model's own reading: log 2, 33.
-/
def Obligations.PagesAreTagged : Prop :=
  (∀ (d : Dev) (rq : Rq) (wr : Bool) (n o : Nat), rq ≠ .mc → n < 10 → o < 0x100000 → d.mayReach rq wr (dieSramAddr n o) = false) ∧
  (∀ (d : Dev) (rq : Rq) (wr : Bool) (a f n o : Nat), rq ≠ .mc → placeOf a = .hbm n o → frameOf a = some f →
    let t := d.tag f
    (10 ≤ d.rqLd rq ∨ d.ldOfDie (n / 2) ≠ d.rqLd rq → d.mayReach rq wr a = false) ∧
    (t.st ≠ .assigned → d.mayReach rq wr a = false) ∧
    (t.st = .assigned → d.rqLd rq < 10 → d.ldOfDie (n / 2) = d.rqLd rq →
      (∀ l dom, rq = .eng l dom → (d.mayReach rq wr a = true ↔ t.domain.toNat = dom ∨ (t.shared = true ∧ wr = false))) ∧
      (∀ l, rq = .cxl l → d.mayReach rq wr a = t.host) ∧ (∀ l, rq = .cassum l → d.mayReach rq wr a = t.fabric))) ∧
  (∀ (iss : Issuer) (body : List W32) (s : State), wfld body 0 7 0 = 0x83 →
    let tk := ticketOf iss body
    let ld := s.dev.issLd iss
    let act := wfld body 1 1 0
    let dom := wfld body 1 27 16
    let a := addrAt body 2
    let n := wfld body 4 16 0
    let addrs := (List.range n).map fun i => a + i * frameBytes
    let frames := addrs.filterMap frameOf
    let no := fun (e : Code) => exec (.pageSet iss body) s = .next { s with dev := s.dev.reject tk e }
    let flags := fun (x : PageTag) => { x with shared := bit (word body 1).toNat 2, host := bit (word body 1).toNat 3, fabric := bit (word body 1).toNat 4 }
    secReserved body [1, 2, 3, 4] (wfld body 1 15 5 != 0 || wfld body 1 31 28 != 0 || addrHigh body 2 || wfld body 4 31 17 != 0) = false →
    (a % frameBytes ≠ 0 → no eAlign) ∧
    (a % frameBytes = 0 → act = 3 ∨ n = 0 ∨ 65536 < n → no eRange) ∧
    (a % frameBytes = 0 → act ≠ 3 → n ≠ 0 → n ≤ 65536 →
      (s.dev.isControl ld (s.dev.issDom iss) = false ∨ (act = 0 ∧ s.dev.ownsDom ld dom = false) ∨ addrs.any (s.dev.frameOut ld) = true → no ePerm) ∧
      (s.dev.isControl ld (s.dev.issDom iss) = true → addrs.any (s.dev.frameOut ld) = false →
        (act = 0 → s.dev.ownsDom ld dom = true → ((s.dev.dom dom).st = .closed → no eState) ∧ ((s.dev.dom dom).st = .closing → no eDisabled) ∧
          ((s.dev.dom dom).st = .open → ((∃ f ∈ frames, (s.dev.tag f).st ≠ .free) → no eState) ∧
            ((∀ f ∈ frames, (s.dev.tag f).st = .free) → ∃ t, exec (.pageSet iss body) s = .next t ∧
              t = { s with dev := { s.dev.accept tk with tags := t.dev.tags, pageJobs := t.dev.pageJobs } } ∧
              (∀ f, t.dev.tag f = if f ∈ frames then { flags (s.dev.tag f) with st := .zeroing, domain := BitVec.ofNat 12 dom, release := false }
                else s.dev.tag f) ∧
              ∃ j : MgmtJob, t.dev.pageJobs = s.dev.pageJobs ++ [j] ∧ j.tkt = tk ∧ j.left = frames))) ∧
        (act = 1 → ((∃ f ∈ frames, (s.dev.tag f).st ≠ .assigned) → no eState) ∧
          ((∀ f ∈ frames, (s.dev.tag f).st = .assigned) → ∃ t, exec (.pageSet iss body) s = .next t ∧
            t = { s with dev := { s.dev.accept tk with tags := t.dev.tags, pageJobs := t.dev.pageJobs } } ∧
            ∀ f, t.dev.tag f = if f ∈ frames then { s.dev.tag f with st := .zeroing, release := true } else s.dev.tag f)) ∧
        (act = 2 → (∀ f ∈ frames, (s.dev.tag f).st = .assigned) → ∃ y : Dev, exec (.pageSet iss body) s = .next { s with dev := y.done tk 0 } ∧
          y = { s.dev.accept tk with tags := y.tags } ∧ ∀ f, y.tag f = if f ∈ frames then flags (s.dev.tag f) else s.dev.tag f)))) ∧
  (∀ (ld : Nat) (s : State), s.dev.mbxReady ld 0 = true → s.dev.isMsg ld 0x020 = true →
    let ws := 0x83 :: (List.range 4).map fun i => s.dev.mbxWord ld 0 (i + 1)
    (((s.dev.ld ld).mbx 0).sentAt ≠ 2 → exec (.pageSetMsg ld) s = .next { s with dev := s.dev.reject (ticketOf (.msg ld) ws) eState }) ∧
    (((s.dev.ld ld).mbx 0).sentAt = 2 → (s.dev.ld ld).ctl.st = .enabled → exec (.pageSetMsg ld) s = exec (.pageSet (.msg ld) ws) s)) ∧
  (∀ (f : Nat) (s : State), s.dev.quiet → s.memWf → f < 1277952 → (s.dev.tag f).st = .zeroing → (s.dev.dom (s.dev.tag f).domain.toNat).st ≠ .closing →
    let x := s.dev.tag f
    let y := if x.release then PageTag.init else { x with st := .assigned }
    let a := frameAddr f
    (s.dev.pageJobs = [] → ∃ t, exec (.pageZeroFillComplete f) s = .next t ∧ t = { s with dev := { s.dev with mem := t.dev.mem, tags := t.dev.tags } } ∧
      (∀ k, t.dev.tag k = if k = f then y else s.dev.tag k) ∧ (∀ i, i < frameBytes → t.dev.byte (a + i) = 0) ∧ s.dev.sameMemBut t.dev a frameBytes) ∧
    (∀ j, s.dev.pageJobs = [j] → j.left = [f] → ∃ z : Dev, z = { s.dev with mem := z.mem, tags := z.tags, pageJobs := [] } ∧ z.tag f = y ∧
      (∀ i, i < frameBytes → z.byte (a + i) = 0) ∧ exec (.pageZeroFillComplete f) s = .next { s with dev := z.done j.tkt 0 }))

/-- Keys, sessions and imports (R474 to R476, R479, R482 to R484): PUB_KEY adds a key to an empty entry and removes one from
a used entry, else E_STATE; DFS_KEY installs the unwrapped key or ends with E_KEY_UNWRAP; a session exchange replaces the
session and answers with the device's nonce; WEIGHT_IMPORT is queued for its verification after its checks; and an import
whose object fails a step of R479 ends with that step's code and writes nothing. Clauses that rest on the model's own
reading: log 78, 79. -/
def Obligations.KeysAndImports : Prop :=
  (∀ (iss : Issuer) (body : List W32) (s : State), s.dev.quiet →
    let tk := ticketOf iss body
    let ld := s.dev.issLd iss
    let dom := s.dev.issDom iss
    let i := wfld body 1 13 8
    let rm := bit (word body 1).toNat 0
    let used := (Map.find (s.dev.ld ld).sec.pubKeys i).isSome
    let no := fun (c : Instr) (e : Code) => exec c s = .next { s with dev := s.dev.reject tk e }
    (wfld body 0 7 0 = 0x84 → secReserved body [1, 2, 3] (wfld body 1 7 1 != 0 || wfld body 1 31 14 != 0 || addrHigh body 2) = false →
      (s.dev.isControl ld dom = false → no (.pubKey iss body) ePerm) ∧
      (s.dev.isControl ld dom = true → (rm = false → s.dev.busCode (.eng ld dom) false (addrAt body 2) 60 = none) →
        (rm = !used → no (.pubKey iss body) eState) ∧
        (rm = used → ∃ y : Dev, exec (.pubKey iss body) s = .next { s with dev := y.done tk 0 } ∧
          y = { s.dev.accept tk with lds := y.lds } ∧ (∀ k, k ≠ ld → y.ld k = (s.dev.accept tk).ld k) ∧
          (∀ k, k ≠ i → Map.find (y.ld ld).sec.pubKeys k = Map.find (s.dev.ld ld).sec.pubKeys k) ∧
          Map.find (y.ld ld).sec.pubKeys i = (if rm then none else some (s.dev.bytes (addrAt body 2) 60))))) ∧
    (wfld body 0 7 0 = 0x85 → secReserved body [1, 2] (addrHigh body 1) = false →
      (let a := addrAt body 1
       (s.dev.busCode (.eng ld dom) false a 1608 ≠ none → no (.dfsKey iss body) ePerm) ∧
       (s.dev.busCode (.eng ld dom) false a 1608 = none → exec (.dfsKey iss body) s = .next { s with dev :=
        (match Config.keyUnwrap (Config.kemDecap (s.dev.dom dom).kemKey (s.dev.bytes a 1568)) (s.dev.bytes (a + 1568) 40) with
         | none => Dev.reject tk eKeyUnwrap (s.dev.modLd ld (Ld.setSecEvt 1))
         | some k => Dev.done tk 0 (Dev.modDom dom (fun x => { x with dfsKey := some k }) (s.dev.accept tk))) }))) ∧
    (wfld body 0 7 0 = 0x86 → secReserved body [1, 2, 3, 4, 5, 6, 7] (addrHigh body 1 || addrHigh body 4) = false →
      (let src := importSrc body
       let dst := importDst body
       let obj := s.dev.bytes src.1 src.2
       let b := bodyOf obj
       let whole := 128 + objSig obj + 0x680 ≤ obj.length
       dst.1 + dst.2 ≤ 2 ^ 44 → s.dev.busCode (.eng ld dom) false src.1 src.2 = none → s.dev.busCode (.eng ld dom) true dst.1 dst.2 = none →
       (whole → dst.2 < encPlain b → no (.weightImport iss body) eRange) ∧
       (whole → encPlain b ≤ dst.2 → (if encWrap b then encDomain b ≠ dom else s.dev.isControl ld dom = false) → no (.weightImport iss body) ePerm) ∧
       (¬whole ∨ (encPlain b ≤ dst.2 ∧ if encWrap b then encDomain b = dom else s.dev.isControl ld dom = true) →
        ∃ j : MgmtJob, exec (.weightImport iss body) s = .next { s with dev := { s.dev.accept tk with imports := s.dev.imports ++ [j] } } ∧
          j.tkt = tk ∧ j.ld = ld ∧ j.dom = dom ∧ j.words = body)))) ∧
  (∀ (ld : Nat) (j : MgmtJob) (s : State), s.dev.quiet → s.dev.imports = [j] → j.ld = ld →
    let src := importSrc j.words
    let dst := importDst j.words
    s.dev.busCode (.eng ld j.dom) false src.1 src.2 = none → s.dev.busCode (.eng ld j.dom) true dst.1 dst.2 = none →
    let obj := s.dev.bytes src.1 src.2
    let r := Dev.importTo s.vault.devSeed 3 ld j.dom obj dst.1 dst.2 { s.dev with imports := [] }
    exec (.weightImportComplete ld) s = .next { s with dev := r.1.done j.tkt r.2 } ∧
    (∀ c, verifyObject 3 (s.dev.ld ld).publishers 0 obj = some c → r.2 = c ∧ r.1.mem = s.dev.mem) ∧
    (obj.length < 128 → r.2 = eRange)) ∧
  (∀ (ld : Nat) (ct nonce : List Byte) (s : State), ct.length = 1568 → nonce.length = 32 → s.dev.pageSilent ld = false → s.dev.crypto.drbgFail = false →
    let own := toBytes 32 (Config.freeNat s.dev.free)
    let keys := Config.hkdf (nonce ++ own ++ Config.kemDecap s.vault.devSeed ct) (toBytes 1 ld) 96
    ∃ t, exec (.sessionExchange ld ct nonce) s = .next t ∧
      t = { s with dev := { s.dev with lds := t.dev.lds, crypto := t.dev.crypto, free := s.dev.free + 1, out := t.dev.out } } ∧
      (t.dev.ld ld).sec.session = some keys ∧ (∀ k, k ≠ ld → t.dev.ld k = s.dev.ld k) ∧
      t.dev.out = s.dev.out ++ [.doe ld (own ++ Config.hmac (slice keys 0 32) (ct ++ nonce ++ own))])

/-- Attestation and the secure storage element (R480, R485 to R489): certifying a level-2 tree raises the leaf count and
gives 32,768 reports, and at 1,048,576 spent leaves sets `attest_gone`; ATTEST writes its report and signature and spends a
report, or is rejected when none can be certified or the output is too small; MINVER_RAISE raises a minimum version between
the present one and the running one; and OWNER_XFER replaces the owner key only by a verified object. Clauses that rest on
the model's own reading: log 2, 80, 81. -/
def Obligations.AttestationAndStorage : Prop :=
  (∀ s : State, s.dev.crypto.l2Busy = true → s.dev.crypto.drbgFail = false →
    (s.vault.leaves < 1048576 → ∃ t, exec .l2TreeCertify s = .next t ∧ t.vault = { s.vault with leaves := s.vault.leaves + 1 } ∧
      t = { s with vault := t.vault, dev := { s.dev with lds := t.dev.lds, crypto := t.dev.crypto, free := s.dev.free + 1 } } ∧
      t.dev.crypto.attestOk = true ∧ t.dev.crypto.l2Busy = false ∧ t.dev.crypto.l2Left = 32768 ∧ t.dev.crypto.l1Leaf = s.vault.leaves ∧
      (t.dev.ld 15).sec.evt.getLsbD 2 = true) ∧
    (1048576 ≤ s.vault.leaves → ∃ t, exec .l2TreeCertify s = .next t ∧
      t = { s with dev := { s.dev with lds := t.dev.lds, crypto := t.dev.crypto } } ∧ t.dev.crypto.attestOk = false ∧
      t.dev.crypto.l2Busy = false ∧ (t.dev.ld 15).sec.evt.getLsbD 4 = true)) ∧
  (∀ (iss : Issuer) (body : List W32) (s : State), s.dev.quiet → s.memWf → wfld body 0 7 0 = 0x87 →
    let tk := ticketOf iss body
    let ld := s.dev.issLd iss
    let dom := s.dev.issDom iss
    let ofDom := bit (word body 1).toNat 0
    let out := attestOutput s ld dom ofDom (bit (word body 1).toNat 1) (s.dev.bytes (addrAt body 2) 32)
    (∀ c, firstFail (attestChecks s iss body) = some c → exec (.attest iss body) s = .next { s with dev := s.dev.reject tk c }) ∧
    (firstFail (attestChecks s iss body) = none → s.dev.crypto.l2Busy = true → exec (.attest iss body) s = .next s) ∧
    (firstFail (attestChecks s iss body) = none → s.dev.crypto.l2Busy = false → 2 ≤ s.dev.crypto.l2Left →
      ∃ y : Dev, exec (.attest iss body) s = .next { s with dev := y.finish tk 0 false (BitVec.ofNat 32 out.length) } ∧
        y = { s.dev.accept tk with mem := y.mem, crypto := { s.dev.crypto with l2Left := s.dev.crypto.l2Left - 1 } } ∧
        out.length = attestBytes s body ∧ y.bytes (addrAt body 4) out.length = out ∧ s.dev.sameMemBut y (addrAt body 4) out.length)) ∧
  (∀ (iss : Issuer) (body : List W32) (s : State), wfld body 0 7 0 = 0x89 → secReserved body [1, 2] (wfld body 1 31 1 != 0) = false →
    let tk := ticketOf iss body
    let ofImage := bit (word body 1).toNat 0
    let v := word body 2
    let least := if ofImage then s.vault.minImg else s.vault.minFw
    let running := s.dev.boot.image.elim 0 fun i => if ofImage then i.imgVer else i.fwVer
    let mine := s.dev.issLd iss = 15 ∧ s.dev.isControl 15 (s.dev.issDom iss) = true
    let no := fun (e : Code) => exec (.minverRaise iss body) s = .next { s with dev := s.dev.reject tk e }
    (v < least → no eRange) ∧ (least ≤ v → ¬mine → no ePerm) ∧ (least ≤ v → mine → running < v → no eState) ∧
    (least ≤ v → mine → v ≤ running → exec (.minverRaise iss body) s = .next { s with
      vault := (if ofImage then { s.vault with minImg := v } else { s.vault with minFw := v }), dev := (s.dev.accept tk).done tk 0 })) ∧
  (∀ (iss : Issuer) (body : List W32) (s : State), s.dev.quiet → wfld body 0 7 0 = 0x8A → secReserved body [1, 2, 3] (addrHigh body 1) = false →
    let tk := ticketOf iss body
    let a := addrAt body 1
    let n := (word body 3).toNat
    let obj := s.dev.bytes a n
    a + n ≤ 2 ^ 44 → s.dev.issLd iss = 15 → s.dev.isControl 15 (s.dev.issDom iss) = true → s.dev.busCode (.eng 15 (s.dev.issDom iss)) false a n = none →
    exec (.ownerXfer iss body) s = .next (match verifyObject 5 [s.vault.ownerKey] 0 obj with
      | some c => { s with dev := Dev.reject tk c (s.dev.modLd 15 (importEvent c)) }
      | none => if objBody obj ≠ 64 then { s with dev := s.dev.reject tk eRange }
        else { s with vault := { s.vault with ownerKey := slice (bodyOf obj) 0 60 }, dev := (s.dev.accept tk).done tk 0 }))

/-! ## Start and reset -/

/-- NVM messages (R492, R506, R556): a reply stands in mailbox 16 of LD 15 with the first word and the code, and the message
is released; a message that arrived before the end of the ROM stage is E_STATE, one without a usable NVM E_NVM_ABSENT; a
length outside its range is E_RANGE, an offset off its step E_ALIGN, bytes beyond the image region E_PERM; an erase leaves
its sectors at 0xFF, a write of erased bytes stores its data, a read answers the bytes, and no message changes a byte
outside what it names. Start records (R497 to R499): a record appended is whole in the NVM, with its number one above that
of the current record, which stays whole, or 1 at the first place of sector A when there is none; and nothing outside the
two sectors changes. Clauses that rest on the model's own reading: log 84, 85. -/
def Obligations.NvmMessagesAndRecords : Prop :=
  ((∀ (c : Code) (ws : List W32) (s : State), ws.length ≤ 13 → ∃ t : State, s.nvmReply c ws = t ∧ t = { s with dev := { s.dev with lds := t.dev.lds } } ∧
    (∀ n, n ≠ 15 → t.dev.ld n = s.dev.ld n) ∧ ((t.dev.ld 15).mbx 0).full = false ∧
    (let r := (t.dev.ld 15).mbx 16
     r.full = true ∧ r.data.getD 0 0 = s.dev.mbxWord 15 0 0 &&& 0x0FFFFFFF ∧ r.data.getD 1 0 = BitVec.ofNat 32 c.toNat ∧
      ∀ i, i < 13 → r.data.getD (i + 2) 0 = ws.getD i 0)) ∧
  (∀ (s : State), s.memWf → s.dev.mbxReady 15 0 = true →
    let is_ := fun (m : Nat) => s.dev.isMsg 15 m = true
    let all := [(0x010, execNvmInfo), (0x011, execNvmErase), (0x012, execNvmWrite), (0x013, execNvmRead), (0x014, execNvmVerify), (0x015, execStartClear)]
    let ok := ((s.dev.ld 15).mbx 0).sentAt ≠ 0 ∧ s.dev.boot.probe = 0
    let off := (s.dev.mbxWord 15 0 1).toNat
    let n := (s.dev.mbxWord 15 0 2).toNat
    let same := fun (t : State) (k : Nat) => ∀ x, x < off ∨ off + k ≤ x → t.vault.nvmRead x 1 = s.vault.nvmRead x 1
    let data := slice (wordsToBytes ((List.range 12).map fun i => s.dev.mbxWord 15 0 (i + 3))) 0 n
    (∀ p ∈ all, is_ p.1 → (((s.dev.ld 15).mbx 0).sentAt = 0 → p.2 s = .next (s.nvmReply eState [])) ∧
      (((s.dev.ld 15).mbx 0).sentAt ≠ 0 → s.dev.boot.probe ≠ 0 → p.2 s = .next (s.nvmReply eNvmAbsent []))) ∧
    (is_ 0x010 → ok → exec .nvmInfo s = .next (s.nvmReply 0 [BitVec.ofNat 32 s.vault.density, s.vault.jedec])) ∧
    (is_ 0x011 → ok → (n < 1 ∨ 40 < n → exec .nvmErase s = .next (s.nvmReply eRange [])) ∧
      (1 ≤ n → n ≤ 40 → off % 0x10000 ≠ 0 → exec .nvmErase s = .next (s.nvmReply eAlign [])) ∧
      (1 ≤ n → n ≤ 40 → off % 0x10000 = 0 → 0x280000 < off + n * 0x10000 → exec .nvmErase s = .next (s.nvmReply ePerm [])) ∧
      (1 ≤ n → n ≤ 40 → off % 0x10000 = 0 → off + n * 0x10000 ≤ 0x280000 → ∃ v : Vault,
        exec .nvmErase s = .next (({ s with vault := v } : State).nvmReply 0 []) ∧ v = { s.vault with nvm := v.nvm } ∧
        (∀ x, off ≤ x → x < off + n * 0x10000 → v.nvmRead x 1 = [0xFF]) ∧ same { s with vault := v } (n * 0x10000))) ∧
    (∀ k ∈ [(0x012, Instr.nvmWrite), (0x013, Instr.nvmRead)], is_ k.1 → ok →
      (n < 4 ∨ 48 < n ∨ n % 4 ≠ 0 → exec k.2 s = .next (s.nvmReply eRange [])) ∧
      (4 ≤ n → n ≤ 48 → n % 4 = 0 → off % 4 ≠ 0 → exec k.2 s = .next (s.nvmReply eAlign [])) ∧
      (4 ≤ n → n ≤ 48 → n % 4 = 0 → off % 4 = 0 → 0x280000 < off + n → exec k.2 s = .next (s.nvmReply ePerm []))) ∧
    (4 ≤ n → n ≤ 48 → n % 4 = 0 → off % 4 = 0 → off + n ≤ 0x280000 → ok →
      (is_ 0x013 → exec .nvmRead s = .next (s.nvmReply 0 (0 :: bytesToWords (n / 4) (s.vault.nvmRead off n)))) ∧
      (is_ 0x012 → ∃ t u, exec .nvmWrite s = .next t ∧ t = State.nvmReply (if u.vault.nvmRead off n = data then 0 else eState) [] u ∧
        u = { s with vault := { s.vault with nvm := u.vault.nvm }, dev := { s.dev with free := u.dev.free } } ∧ same u n ∧
        (∀ i, i < n → s.vault.nvmRead (off + i) 1 = [0xFF] → u.vault.nvmRead (off + i) 1 = [data.getD i 0]))) ∧
    (is_ 0x014 → ok → exec .nvmVerify s = .next (match s.vault.verifyImage with
      | .error (c, det) => s.nvmReply c [det.setWidth 32]
      | .ok _ => (s.record 0 s.dev.devLevel 0 0).nvmReply 0 [0])) ∧
    (is_ 0x015 → ok → exec .startClear s = .next ((s.record 0 s.dev.devLevel 0 0).nvmReply 0 []))) ∧
  (∀ (s : State), s.dev.mbxReady 15 0 = false → ∀ c ∈ [Instr.nvmInfo, .nvmErase, .nvmWrite, .nvmRead, .nvmVerify, .startClear], exec c s = .next s)) ∧
  (∀ (count level : Nat) (code : Code) (detail : BitVec 8) (s : State), s.memWf → s.dev.boot.probe = 0 → count < 256 → level < 256 →
    let t := s.record count level code detail
    t = { s with vault := { s.vault with nvm := t.vault.nvm }, dev := { s.dev with boot := { s.dev.boot with rec_ := t.dev.boot.rec_ } } } ∧
    (∃ r, t.dev.boot.rec_ = some r ∧ r.count = count ∧ r.level = level ∧ r.code = code ∧ r.detail = detail ∧
      t.vault.recordAt r.offset = some r ∧ (s.vault.current = none → r.seq = 1 ∧ r.offset = 0x07FE0000) ∧
      ∀ o, s.vault.current = some o → r.seq = o.seq + 1 ∧ r.offset ≠ o.offset ∧ t.vault.recordAt o.offset = some o) ∧
    (∀ x, x < 0x07FE0000 ∨ 0x08000000 ≤ x → t.vault.nvmRead x 1 = s.vault.nvmRead x 1))

/-- The beginning of a start (R38, R493, R499 to R504): with the rails up and RESET_N released ROM_STAGE ends fallow when
the NVM is absent or the count is 3, and otherwise appends a record with the count one higher and loads the verified image,
or fails with the code of the failing step; SILMUVIN_STAGE brings up the channels that pass their tests, filled with zeros
under fresh keys, and starts the lowest die, and a unit that fails its test fails the start; a die whose SRAM passed joins
once its boot code has halted on every cluster; and boot code that does not end by its limit, or a start that does not reach
level 2 by its own, fails it. What a checker vector must deliver, and that the limit is the handshake of a die's boot
failure, are the model's readings (log entries 105, 86). Clauses that rest on the model's own reading: log 2, 83, 86, 87,
105, 106. -/
def Obligations.StartsProceed : Prop :=
  (∀ (probe : NvmProbe) (ok : Bool) (s : State),
    let go := exec (.romStage probe ok) s
    let ready := s.dev.boot.stage = .rom ∧ s.dev.pins.rails = true ∧ s.dev.pins.resetN = true ∧ s.dev.boot.zeroising = []
    (¬ready → go = .next s) ∧
    (ready → s.memWf → ∃ t, go = .next t ∧ t.pending = s.pending ∧ t.now = s.now ∧
      (probe ≠ 0 → t.dev.boot.stage = .fallow ∧ t.vault = s.vault ∧ t.dev.boot.probe = probe ∧ t.dev.pins.ready = true) ∧
      (probe = 0 → (∃ r, s.vault.current = some r ∧ 3 ≤ r.count) → t.dev.boot.stage = .fallow ∧ t.vault = s.vault) ∧
      (probe = 0 → ok = true → (∀ r, s.vault.current = some r → r.count < 2) →
        let s1 := ({ s with dev := { s.dev with boot := { s.dev.boot with probe := 0, rec_ := s.vault.current } } } : State).record
          (s.vault.current.elim 0 StartRec.count + 1) 0 0 0
        (t.dev.boot.stage = match s1.vault.verifyImage with | .ok _ => .silmuvin | .error _ => .failedVerify) ∧ t.dev.pins.ready = true ∧
          (∀ c det, s1.vault.verifyImage = .error (c, det) → s.dev.boot.level2 = false → s.dev.boot.failed = false →
            t.dev.boot.failed = true ∧ t.dev.boot.failCode = c ∧ t.dev.boot.failDetail = det ∧ (t.dev.ld 15).ctl.bootEvt.getLsbD 2 = true) ∧
          ∀ im, s1.vault.verifyImage = .ok im → t.dev.boot.image = some im ∧ t.vault = s1.vault ∧ t.dev = { s1.dev.loadImage im with
            pins := { (s1.dev.loadImage im).pins with ready := true }, boot := { (s1.dev.loadImage im).boot with held := false } }))) ∧
  (∀ (i0 i1 : SramTest) (lp : List (Nat × DramTest)) (free : List Nat) (s : State),
    let go := exec (.silmuvinStage i0 i1 lp free) s
    let d := s.dev
    let ready := d.boot.stage = .silmuvin ∧ d.crypto.drbgFail = false ∧ d.pins.clkCas = true ∧ d.boot.level2 = false ∧ d.boot.failed = false
    let sram := s.vault.sramOk (.iodSram 0) i0 = true ∧ s.vault.sramOk (.iodSram 1) i1 = true
    let used := fun (c : Nat) => c < 24 ∧ d.excluded (.channel c) = false
    let passes := fun (c : Nat) => dramOk (.channel c) (chanTest lp c) = true
    let fails := fun (t : State) (detail : Nat) => t.dev.boot.failed = true ∧ t.dev.boot.failCode = eSelftest ∧
      t.dev.boot.failDetail = BitVec.ofNat 8 detail
    (d.boot.stage ≠ .silmuvin ∨ d.crypto.drbgFail = true → go = .next s) ∧
    (ready → sram → (∀ c, used c → passes c) →
      ∃ t, go = .next t ∧ t.pending = s.pending ∧ t.dev.boot.stage = .up ∧ t.dev.boot.failed = false ∧
        (∀ c, used c → (t.dev.unit (.channel c)).inService = true ∧ (t.dev.unit (.channel c)).failed = false ∧
          (t.dev.unit (.channel c)).free = free.getD c 0 ∧ (t.dev.unit (.channel c)).lanes = movedPins (.channel c) (chanTest lp c) ∧
          (t.dev.unit (.channel c)).marked = leftPins (.channel c) (chanTest lp c) ∧
          ∀ a, unitOf a = some (.channel c) → t.dev.byte a = 0) ∧
        t.dev.lpKeys = [] ∧ Map.find t.dev.keySeeds 16 = some (Config.freeNat d.free) ∧
        (d.boot.held = false → (∀ n, (d.ld n).lay.populated = true → (d.ld n).ctl.st = .enabled ∧ (d.ld n).ctl.service = 0) →
          ∀ n ∈ d.compute, 1 ≤ (t.dev.ld n).ctl.service) ∧
        (∀ n, ({ d with boot := { d.boot with stage := .up } } : Dev).nextDie = some n → (t.dev.die n).booting = true)) ∧
    (ready → sram → d.startCount < 3 → ∀ c, used c → ¬passes c → (∀ k, used k → k ≠ c → passes k) →
      ∃ t, go = .next t ∧ fails t (32 + c) ∧ (t.dev.unit (.channel c)).failed = true ∧ (t.dev.unit (.channel c)).inService = false ∧
        (d.ldOfChan c < 10 → (d.ld (d.ldOfChan c)).ctl.service = 0 → (t.dev.ld (d.ldOfChan c)).ctl.service = 0)) ∧
    (ready → d.startCount < 3 → s.vault.sramOk (.iodSram 0) i0 = false →
      ∃ t, go = .next t ∧ fails t 96 ∧ ∀ n ∈ d.compute, (d.ld n).ctl.service = 0 → (t.dev.ld n).ctl.service = 0)) ∧
  (∀ (n : Nat) (b : SramTest) (s : State), s.dev.quiet → n < 10 → s.dev.launches = [] → (s.dev.ld (s.dev.ldOfDie n)).ctl.crop = none →
    let x := s.dev.die n
    let ok := s.vault.sramOk (.dieSram n) b
    (x.booting = false → exec (.dieJoin n b) s = .next s) ∧
    (x.booting = true → ok = true → x.bootLeft ≠ [] → exec (.dieJoin n b) s = .next s) ∧
    (x.booting = true → ok = true → x.bootLeft = [] → ∃ t, exec (.dieJoin n b) s = .next t ∧ (t.dev.die n).joined = true ∧
      (t.dev.die n).booting = false ∧ (t.dev.unit (.dieSram n)).inService = true ∧ (t.dev.unit (.dieSram n)).spares = b.arrays ∧
      t.vault.leaves = s.vault.leaves) ∧
    (s.dev.boot.level2 = false → s.dev.boot.failed = false → s.dev.startCount < 3 → x.booting = true →
      (ok = false → ∃ t, exec (.dieJoin n b) s = .next t ∧ (t.dev.die n).absent = true ∧ t.dev.boot.failCode = eSelftest ∧
        t.dev.boot.failDetail = BitVec.ofNat 8 (64 + n)) ∧
      (1000000 ≤ (s.now - x.bootAt).toNat → x.bootLeft ≠ [] → ∃ t, exec (.dieBootCodeTimeout n) s = .next t ∧ (t.dev.die n).absent = true ∧
        t.dev.boot.failed = true ∧ t.dev.boot.failDetail = BitVec.ofNat 8 (128 + n)))) ∧
  (∀ (s : State), s.dev.boot.level2 = false → s.dev.boot.failed = false → s.dev.startCount < 3 → s.dev.boot.zeroising = [] →
    ∀ im, s.dev.boot.image = some im →
      (100000000 * im.startS ≤ (s.now - s.dev.boot.startAt).toNat → ∃ t, exec .startLimitExpiry s = .next t ∧ t.dev.boot.failed = true ∧
        t.dev.boot.failCode = eStartFatal ∧ t.dev.boot.failDetail = 1 ∧ (t.dev.ld 15).ctl.bootEvt.getLsbD 2 = true) ∧
      ((s.now - s.dev.boot.startAt).toNat < 100000000 * im.startS → exec .startLimitExpiry s = .next s))

/-- Resets (R507 to R511, R517, R519): an LD reset with a whole write, or by CXL with another cause, leaves its LD RESETTING
at level 0 with its layout and its cause, its requests, KV entries and clusters gone, its memory zero, and other LDs' pages
as they were; a device reset leaves the whole device so, the start records, the counter of leaves and the elapsed counter
untouched; a write with another bit pattern is rejected; and once the zeroising ends the device is at its ROM stage, and an
LD, whose channels are tested again and filled with zeros under fresh keys, is ENABLED again. Clauses that rest on the
model's own reading: log 2, 88, 89, 90, 105, 106. -/
def Obligations.ResetsRestoreScopes : Prop :=
  (∀ (ag : Agent) (n : Nat) (v : W32) (s : State), reachesPage ag n = true → s.dev.pageMode n = .full → n < 10 → s.dev.colls = [] → s.dev.zeroing = [] →
    let us := fld v 15 0
    let err := fun (i : Instr) (c : Code) => exec i s = .next { s with dev := s.dev.ldErr n c }
    let gone := fun (t : State) (cause : BitVec 4) => t.pending = s.pending ∧ t.vault = s.vault ∧ t.now = s.now ∧
      (t.dev.ld n).ctl.st = .resetting ∧ (t.dev.ld n).ctl.service = 0 ∧ (t.dev.ld n).ctl.cause = cause ∧
      (t.dev.ld n).lay = { (s.dev.ld n).lay with ldid := (s.dev.ld n).lay.did } ∧ (t.dev.ld n).fab.inc = (s.dev.ld n).fab.inc ∧
      (t.dev.ld n).ctl.errCode = 0 ∧ (∀ e ∈ t.dev.reqs, e.2.ld ≠ n) ∧ (∀ h ∈ t.dev.net.held, h.ld ≠ n) ∧ (∀ j ∈ t.dev.launches, j.ld ≠ n) ∧
      (∀ e ∈ t.dev.kv, (s.dev.ld n).lay.hasDie (e.1 / 131072) = false) ∧
      (∀ e ∈ t.dev.domains, (s.dev.ld n).lay.hasDom e.1 = false) ∧
      (∀ a, s.dev.windowLd a = n → s.dev.reserved a = false → t.dev.byte a = 0) ∧
      (∀ k, k ≠ n → k ≠ 15 → (t.dev.ld k).host = (s.dev.ld k).host ∧ (t.dev.ld k).lay = (s.dev.ld k).lay) ∧
      t.dev.boot.zeroising = s.dev.boot.zeroising ++ [.ld n]
    (v.getLsbD 31 = true →
      (fld v 29 16 ≠ 0 → err (.ldReset ag n v) eReservedNonzero) ∧ (fld v 29 16 = 0 → us = 0 → err (.ldReset ag n v) eRange) ∧
      (fld v 29 16 = 0 → us ≠ 0 → ∃ t, exec (.ldReset ag n v) s = .next t ∧ gone t 3)) ∧
    (∃ t, exec (.cxlLdReset n) s = .next t ∧ gone t 4) ∧
    (v.getLsbD 31 = false → fld v 29 16 = 0 → us ≠ 0 →
      (v.getLsbD 30 = true → (s.dev.ld n).ctl.st = .disabled → ∃ t, exec (.ldReenable ag n v) s = .next t ∧ gone t 5) ∧
      (v.getLsbD 30 = true → (s.dev.ld n).ctl.st = .draining → err (.ldReenable ag n v) eState) ∧
      (v.getLsbD 30 = true → (s.dev.ld n).ctl.st = .enabled → exec (.ldReenable ag n v) s =
        .next { s with dev := s.dev.modLd n fun l => { l with ctl := { l.ctl with drainUs := BitVec.ofNat 16 us } } }) ∧
      (v.getLsbD 30 = false → (s.dev.ld n).ctl.st = .draining ∨ (s.dev.ld n).ctl.st = .disabled →
        ∃ t, exec (.ldDisable ag n v) s = .next t ∧ (t.dev.ld n).ctl.st = (s.dev.ld n).ctl.st ∧ (t.dev.ld n).ctl.enable = (s.dev.ld n).ctl.enable) ∧
      (v.getLsbD 30 = false → (s.dev.ld n).ctl.st = .enabled → s.dev.launches = [] → s.dev.reqs = [] → (∀ k, (s.dev.ld k).ctl.crop = none) →
        (∀ k, (s.dev.turn k).tkt = none ∧ (s.dev.ld k).wave.tkt = none) → ∃ t, exec (.ldDisable ag n v) s = .next t ∧
        (t.dev.ld n).ctl = { (s.dev.ld n).ctl with st := .draining, enable := false, drainUs := BitVec.ofNat 16 us } ∧
        t = { s with dev := { s.dev with lds := t.dev.lds, boot := t.dev.boot } } ∧ ∃ x, t.dev.boot.drains = s.dev.boot.drains ++ [x] ∧ x.sc = .ld n ∧ x.at_ = s.now ∧ x.limitUs.toNat = us ∧ x.expired = false))) ∧
  (∀ (ag : Agent) (v : W32) (s : State),
    let whole := reachesPage ag 15 = true ∧ s.dev.pageMode 15 = .full ∧ fld v 23 1 = 0 ∧ v.getLsbD 0 = true
    (whole → fld v 31 24 ≠ 0xA5 → exec (.deviceReset ag 15 v) s = .next { s with dev := s.dev.ldErr 15 eRange }) ∧
    (s.dev.boot.stage = .off → exec .cxlConventionalReset s = .next s) ∧
    (∀ c, (c = .deviceReset ag 15 v ∧ whole ∧ fld v 31 24 = 0xA5) ∨ (c = .cxlConventionalReset ∧ s.dev.boot.stage ≠ .off) →
      ∃ t, exec c s = .next t ∧ t.pending = s.pending ∧ t.vault = s.vault ∧ t.now = s.now ∧ t.dev.mem = [] ∧ t.dev.reqs = [] ∧ t.dev.domains = [] ∧ t.dev.kv = [] ∧
      t.dev.clusters = [] ∧ t.dev.tags = [] ∧ t.dev.i3c = s.dev.i3c ∧ t.dev.boot.image = none ∧ t.dev.boot.zeroising = [.device] ∧
      t.dev.pins.ready = false ∧ t.dev.lds.map Prod.fst = s.dev.lds.map Prod.fst ∧
      ∀ e ∈ t.dev.lds, e.2.ctl.st = .resetting ∧ e.2.ctl.service = 0 ∧ e.2.ctl.cause = 2)) ∧
  (∀ (e : ZeroiseEnd) (s : State), s.dev.quiet →
    let go := exec (.resetZeroiseComplete e) s
    let held := s.dev.boot.zeroising.contains e.sc = true
    (s.dev.boot.zeroising.contains e.sc = false → go = .next s) ∧
    (e.sc = .device → held → ∃ t, go = .next t ∧ t.dev.boot.stage = .rom ∧
      .device ∉ t.dev.boot.zeroising ∧ t.dev.boot.startAt = s.now ∧ t.dev.lds.map Prod.fst = [15] ∧ (t.dev.ld 15).ctl.cause = (s.dev.ld 15).ctl.cause) ∧
    (∀ n, e.sc = .ld n → n < 10 → held → s.dev.crypto.drbgFail = false → s.dev.pins.clkCas = true →
      (let own := fun (c : Nat) => c < 24 ∧ (s.dev.ld n).lay.chanMask.getLsbD c = true ∧ s.dev.excluded (.channel c) = false
       (∀ c, own c → dramOk (.channel c) (chanTest e.chans c) = true) → ∃ t, go = .next t ∧
        (t.dev.ld n).ctl.st = .enabled ∧ .ld n ∉ t.dev.boot.zeroising ∧ Map.find t.dev.keySeeds n = some (Config.freeNat s.dev.free) ∧
        (∀ c, own c → (t.dev.unit (.channel c)).inService = true ∧ (t.dev.unit (.channel c)).failed = false ∧
          (t.dev.unit (.channel c)).marked = leftPins (.channel c) (chanTest e.chans c) ∧
          ∀ a, unitOf a = some (.channel c) → t.dev.byte a = if s.dev.reserved a then s.dev.byte a else 0) ∧
        (s.dev.boot.stage = .up → s.dev.boot.held = false → 1 ≤ (t.dev.ld n).ctl.service))))

/-- Drains (R512 to R514): the limit of a drain marks it once it has run out, and not before; the drain of an LD with
nothing left ends with the LD DISABLED, its `drained` event set and its memory zero; that of a port with nothing queued
turns the port off; and while anything of the scope is left, a drain does not end. Clauses that rest on the model's own
reading: log 2, 87, 90, 91. -/
def Obligations.DrainsExpireAndEnd : Prop :=
  (∀ (sc : Scope) (x : Drain) (s : State), s.dev.drain? sc = some x →
    (x.expired = true ∨ (s.now - x.at_).toNat < 100 * x.limitUs.toNat → exec (.drainLimitExpiry sc) s = .next s) ∧
    (x.expired = false → 100 * x.limitUs.toNat ≤ (s.now - x.at_).toNat → s.dev.launches = [] → s.dev.colls = [] → s.dev.upds = [] → s.dev.reqs = [] →
      (∀ l, (s.dev.ld l).ctl.crop = none) →
      exec (.drainLimitExpiry sc) s = .next { s with dev := { s.dev with boot := { s.dev.boot with drains := s.dev.boot.drains.map fun (y : Drain) =>
        if y.sc == sc then { y with expired := true } else y } } })) ∧
  (∀ (sc : Scope) (s : State), s.dev.quiet → (s.dev.drain? sc = none ∨ s.dev.busy sc = true → exec (.drainComplete sc) s = .next s)) ∧
  (∀ (n : Nat) (x : Drain) (s : State), s.dev.quiet → n < 10 → s.dev.colls = [] → s.dev.zeroing = [] → s.dev.drain? (.ld n) = some x →
    s.dev.busy (.ld n) = false → ∃ t, exec (.drainComplete (.ld n)) s = .next t ∧ (t.dev.ld n).ctl.st = .disabled ∧ (t.dev.ld n).ctl.enable = false ∧
      (t.dev.ld n).ctl.service = 0 ∧ (t.dev.ld n).ctl.bootEvt.getLsbD 3 = true ∧ (t.dev.ld n).ctl.cause = (s.dev.ld n).ctl.cause ∧
      t.dev.drain? (.ld n) = none ∧ (∀ a, s.dev.windowLd a = n → s.dev.reserved a = false → t.dev.byte a = 0) ∧ t.vault = s.vault) ∧
  (∀ (p : Nat) (x : Drain) (s : State), s.dev.quiet → s.dev.drain? (.port p) = some x → s.dev.busy (.port p) = false →
    ((s.dev.port p).queue ≠ [] → x.expired = false → exec (.drainComplete (.port p)) s = .next s) ∧
    ((s.dev.port p).queue = [] ∨ x.expired = true → ((s.dev.port p).st = .active → (s.dev.portsOf (s.dev.ldOfPort p)).any
        (fun k => k != p && (s.dev.port k).st == .active && (s.dev.port k).nbrDid == (s.dev.port p).nbrDid) = true) → ∃ t, exec (.drainComplete (.port p)) s = .next t ∧ (t.dev.port p).st = .off ∧
      t.dev.drain? (.port p) = none))

/-! ## The module -/

/-- Power (R61, R535 to R539, R549): the input in its band starts the module, the elapsed counter and the I3C registers at
their reset values; while it is powered, an input outside 40 to 60 V raises its fault and ALERT_N; a loss of power, or an
over-voltage, zeroises the device and takes its rails; and after an over-voltage the module waits for the input to fall
below 60 V. The start records, the counter of leaves and the vault are untouched. RESET_N, clocks, rails and the standby
limit (R504, R539, R541, R543, R554): a RESET_N of 1 µs is always recognised and one below 200 ns never; it zeroises the
device and the elapsed counter and holds it until its release begins the start; a clock that fails in service raises its
fault and resets the device; a rail out of regulation fails a start and is nothing later; and a standby limit raises its
fault and, from service, leads to fallow mode. Clauses that rest on the model's own reading: log 2, 92, 93, 95. -/
def Obligations.PowerResetAndClocks : Prop :=
  ((∀ (straps : BitVec 3) (vin : Nat) (s : State), 3900 ≤ vin → vin ≤ 6200 →
    let up := fun (t : State) (a : BitVec 7) => t.now = 0 ∧ t.pending = s.pending ∧ t.vault = s.vault ∧ t.dev.pins.standby = true ∧
      t.dev.pins.rails = true ∧ t.dev.pins.overVolt = false ∧ t.dev.pins.resetN = s.dev.pins.resetN ∧ t.dev.pins.vin = vin ∧
      t.dev.boot.stage = (if s.dev.pins.resetN then .rom else .off) ∧ t.dev.i3c.staticAddr = a ∧ t.dev.i3c.dynAddr = none ∧
      t.dev.i3c.limitW = 0 ∧ t.dev.i3c.ibiEn = false ∧ (t.dev.alert = true ↔ vin < 4000 ∨ 6000 < vin) ∧ t.dev.mem = [] ∧ t.dev.reqs = [] ∧
      (t.dev.ld 15).ctl.cause = 0 ∧ t.dev.lds.map Prod.fst = [15]
    (s.dev.pins.standby = false → s.dev.pins.overVolt = false →
      ∃ t, exec (.powerOn straps vin) s = .next t ∧ up t (0x30 + straps.setWidth 7)) ∧
    (s.dev.pins.standby = true ∨ s.dev.pins.overVolt = true → exec (.powerOn straps vin) s = .next s) ∧
    (s.dev.pins.overVolt = true → vin < 6000 → ∃ t, exec (.overVoltageRecovery vin) s = .next t ∧ up t s.dev.i3c.staticAddr) ∧
    (s.dev.pins.overVolt = false ∨ 6000 ≤ vin → exec (.overVoltageRecovery vin) s = .next s)) ∧
  (∀ (vin : Nat) (s : State), s.dev.pins.overVolt = true → vin < 3900 → exec (.overVoltageRecovery vin) s =
    .next { s with dev := { s.dev with pins := { s.dev.pins with overVolt := false } } }) ∧
  (∀ (vin : Nat) (s : State), s.dev.pins.standby = true → 3700 ≤ vin → vin ≤ 6200 → ∃ t, exec (.vinOutOfBand vin) s = .next t ∧
    t = { s with dev := { s.dev with pins := { s.dev.pins with vin := vin }, i3c := { s.dev.i3c with fault := t.dev.i3c.fault }, out := t.dev.out } } ∧
    (t.dev.i3c.fault = if vin < 4000 then setBit s.dev.i3c.fault 2 else if 6000 < vin then setBit s.dev.i3c.fault 3 else s.dev.i3c.fault) ∧
    (4000 ≤ vin → vin ≤ 6000 → t.dev.out = s.dev.out)) ∧
  (∀ (s : State), (s.dev.pins.standby = false → exec .powerLoss s = .next s ∧ exec .overVoltage s = .next s) ∧
    (s.dev.pins.standby = true → ∀ c ∈ [(Instr.powerLoss, false), (.overVoltage, true)], ∃ t, exec c.1 s = .next t ∧ t.pending = s.pending ∧
      t.vault = s.vault ∧ t.dev.boot.stage = .off ∧ t.dev.pins.standby = false ∧ t.dev.pins.rails = false ∧ t.dev.pins.overVolt = c.2 ∧
      t.dev.pins.ready = false ∧ t.dev.mem = [] ∧ t.dev.reqs = [] ∧ t.dev.domains = [] ∧ t.dev.clusters = [] ∧ t.dev.kv = [] ∧
      t.dev.i3c = { I3c.init with staticAddr := s.dev.i3c.staticAddr }))) ∧
  ((∀ (ns : Nat) (s : State),
    let held := fun (t : State) => t.now = 0 ∧ t.pending = s.pending ∧ t.vault = s.vault ∧ t.dev.pins.resetN = false ∧ t.dev.boot.stage = .off ∧
      t.dev.pins.ready = false ∧ t.dev.mem = [] ∧ t.dev.reqs = [] ∧ t.dev.domains = [] ∧ t.dev.i3c = s.dev.i3c ∧ (t.dev.ld 15).ctl.cause = 1 ∧
      (s.dev.pins.tripped = true → s.dev.pins.plate < 60 → t.dev.pins.tripped = false ∧ t.dev.pins.rails = true)
    (ns < 200 ∨ s.dev.pins.resetN = false ∨ s.dev.pins.standby = false → exec (.resetNAssert ns) s = .next s) ∧
    (s.dev.pins.resetN = true → s.dev.pins.standby = true →
      (1000 ≤ ns → ∃ t, exec (.resetNAssert ns) s = .next t ∧ held t) ∧
      (200 ≤ ns → ns < 1000 → ∃ t, exec (.resetNAssert ns) s = .next t ∧
        (t = { s with dev := { s.dev with free := s.dev.free + 1 } } ∨ held t)))) ∧
  (∀ (s : State), (s.dev.boot.stage = .off → s.dev.pins.rails = true → s.dev.pins.tripped = false → exec .resetNDeassert s = .next { s with dev := { s.dev with
      pins := { s.dev.pins with resetN := true }, boot := { s.dev.boot with stage := .rom, startAt := s.now } } }) ∧
    (s.dev.boot.stage ≠ .off ∨ s.dev.pins.rails = false ∨ s.dev.pins.tripped = true → exec .resetNDeassert s =
      .next { s with dev := { s.dev with pins := { s.dev.pins with resetN := true } } })) ∧
  (∀ (s : State),
    let down := fun (t : State) (b : Nat) => t.pending = s.pending ∧ t.vault = s.vault ∧ t.now = s.now ∧ t.dev.i3c.fault = setBit s.dev.i3c.fault b ∧
      t.dev.boot.zeroising = [.device] ∧ t.dev.pins.ready = false ∧ t.dev.mem = [] ∧ t.dev.reqs = [] ∧
      (∀ e ∈ t.dev.lds, e.2.ctl.st = .resetting ∧ e.2.ctl.service = 0)
    (s.dev.pins.rails = false → ∀ c, exec (.clockFault c) s = .next s) ∧
    (s.dev.pins.rails = true → s.dev.boot.stage = .up → (∃ t, exec (.clockFault .cxl) s = .next t ∧ down t 4) ∧
      ∃ t, exec (.clockFault .cassum) s = .next t ∧ down t 5) ∧
    (s.dev.pins.rails = true → s.dev.boot.stage = .silmuvin → ∃ t, exec (.clockFault .cassum) s = .next t ∧ t.dev.pins.clkCas = false ∧
      t = { s with dev := { s.dev with pins := { s.dev.pins with clkCas := false }, i3c := { s.dev.i3c with fault := setBit s.dev.i3c.fault 5 }, out := t.dev.out } }) ∧
    (s.dev.pins.rails = false ∨ s.dev.starting = false → exec .railOutOfRegulation s = .next s) ∧
    (s.dev.pins.rails = true → s.dev.starting = true → s.dev.boot.failed = false → s.dev.startCount < 3 → ∃ t, exec .railOutOfRegulation s = .next t ∧
      t.dev.boot.failed = true ∧ t.dev.boot.failCode = eStartFatal ∧ t.dev.boot.failDetail = 4 ∧ (t.dev.ld 15).ctl.bootEvt.getLsbD 2 = true ∧
      (∀ n ∈ s.dev.compute, (t.dev.ld n).ctl.bootEvt.getLsbD 2 = true) ∧ t.dev.mem = s.dev.mem ∧ t.dev.pins = s.dev.pins) ∧
    (s.dev.pins.standby = false → exec .vauxCurrentLimit s = .next s) ∧
    (s.dev.pins.standby = true → s.dev.boot.stage = .up → s.dev.boot.zeroising = [] → ∃ t, exec .vauxCurrentLimit s = .next t ∧
      t.vault = s.vault ∧ t.pending = s.pending ∧ t.dev.i3c.fault = setBit s.dev.i3c.fault 10 ∧ t.dev.boot.stage = .fallow ∧ t.dev.boot.probe ≠ 0 ∧
      t.dev.pins.ready = true ∧ t.dev.mem = [] ∧ t.dev.reqs = [] ∧ t.dev.lds.map Prod.fst = [15])))

/-- Temperatures, coolant, sideband and noise source (R475, R545 to R547, R554): at 110 or 80 °C THERM_N is asserted and
every die goes to 0.70 V with pacing 15, and it is released below 105 and 75 °C; at 120 or 90 °C every rail goes and the
device is held; coolant out of its limits and a faulty sideband pin raise their faults; and ALERT_N is asserted while any
fault is. I3C (R548 to R551): while the module is powered, a private write of four bytes writes its register: the limit
takes 0 or 1,000 to 3,000 W, faults clear by ones, the error code clears by bit 16, reserved bits, values out of range,
unassigned indices and other lengths leave their codes in PWR_BC_ERR; the address codes assign and drop the dynamic address,
ENEC and DISEC set the in-band interrupt by bit 0, the GET codes answer and change nothing else; and an unpowered target
answers nothing. Clauses that rest on the model's own reading: log 2, 94, 96, 97. -/
def Obligations.TemperaturesAndSideband : Prop :=
  ((∀ (tj plate : Nat) (s : State),
    (s.dev.pins.rails = false ∨ (tj < 110 ∧ plate < 80) → exec (.thermAssert tj plate) s = .next s) ∧
    (s.dev.pins.rails = true → 110 ≤ tj ∨ 80 ≤ plate → s.dev.starting = false → ∃ t, exec (.thermAssert tj plate) s = .next t ∧
      t = { s with dev := { s.dev with dies := t.dev.dies, pwr := t.dev.pwr, pins := t.dev.pins, i3c := { s.dev.i3c with fault := t.dev.i3c.fault }, out := t.dev.out } } ∧
      t.dev.pins = { s.dev.pins with therm := true, tjMax := min 255 tj, plate := min 255 plate } ∧
      t.dev.pwr = { s.dev.pwr with pinBroken := t.dev.pwr.pinBroken } ∧
      (s.dev.pins.therm = false → t.dev.i3c.fault.getLsbD 8 = true ∧ t.dev.alert = true) ∧
      ∀ n, n < 10 → t.dev.die n = { s.dev.die n with vcore := 700, pacing := 15 }) ∧
    (s.dev.pins.rails = true → 110 ≤ tj ∨ 80 ≤ plate → s.dev.starting = true → s.dev.boot.failed = false → s.dev.startCount < 3 →
      ∃ t, exec (.thermAssert tj plate) s = .next t ∧ t.dev.pins.therm = true ∧ t.dev.boot.failed = true ∧ t.dev.boot.failCode = eStartFatal ∧
        t.dev.boot.failDetail = 5) ∧
    (s.dev.pins.standby = true → exec (.thermRelease tj plate) s = .next { s with dev := { s.dev with pins := { s.dev.pins with
      tjMax := min 255 tj, plate := min 255 plate, therm := s.dev.pins.therm && !(decide (tj < 105) && decide (plate < 75) && !s.dev.pins.tripped) } } }) ∧
    (s.dev.pins.standby = false → exec (.thermRelease tj plate) s = .next s) ∧
    (s.dev.pins.rails = false ∨ (tj < 120 ∧ plate < 90) → exec (.thermalTrip tj plate) s = .next s) ∧
    (s.dev.pins.rails = true → 120 ≤ tj ∨ 90 ≤ plate → ∃ t, exec (.thermalTrip tj plate) s = .next t ∧ t.pending = s.pending ∧ t.now = s.now ∧
      t.dev.pins.rails = false ∧ t.dev.pins.tripped = true ∧ t.dev.pins.therm = true ∧ t.dev.pins.standby = s.dev.pins.standby ∧
      t.dev.boot.stage = .off ∧ t.dev.mem = [] ∧ t.dev.reqs = [] ∧ t.dev.domains = [] ∧ t.dev.i3c.fault.getLsbD 11 = true ∧ t.dev.alert = true)) ∧
  (∀ (inlet outlet : Nat) (s : State),
    (s.dev.pins.standby = false → exec (.coolantAlarm inlet outlet) s = .next s) ∧
    (s.dev.pins.standby = true → ∃ t, exec (.coolantAlarm inlet outlet) s = .next t ∧
      t = { s with dev := { s.dev with pins := { s.dev.pins with inlet := min 255 inlet, outlet := min 255 outlet },
                                       i3c := { s.dev.i3c with fault := t.dev.i3c.fault }, out := t.dev.out } } ∧
      (t.dev.i3c.fault.getLsbD 7 = true ↔ s.dev.i3c.fault.getLsbD 7 = true ∨ 45 < inlet) ∧
      (t.dev.i3c.fault.getLsbD 6 = true ↔ s.dev.i3c.fault.getLsbD 6 = true ∨ inlet + 30 < outlet) ∧
      ∀ b, b ≠ 6 → b ≠ 7 → t.dev.i3c.fault.getLsbD b = s.dev.i3c.fault.getLsbD b)) ∧
  (∀ (pin : Nat) (s : State), (s.dev.pins.standby = false ∨ pin = 0 ∨ 6 < pin → exec (.sidebandFault pin) s = .next s) ∧
    (s.dev.pins.standby = true → 1 ≤ pin → pin ≤ 6 → ∃ t, exec (.sidebandFault pin) s = .next t ∧
      t = { s with dev := { s.dev with i3c := { s.dev.i3c with fault := setBit s.dev.i3c.fault 9, sbPin := BitVec.ofNat 4 pin },
                                       pins := t.dev.pins, boot := t.dev.boot, out := t.dev.out } } ∧
      (1 < pin → t.dev.pins = s.dev.pins ∧ t.dev.boot = s.dev.boot) ∧ (pin = 1 → t.dev.pins = { s.dev.pins with resetN := true }))) ∧
  (∀ (failing : Bool) (s : State), exec (.healthTestChange failing) s =
    .next { s with dev := { s.dev with crypto := { s.dev.crypto with drbgFail := failing } } }) ∧
  (∀ (b : Nat) (d : Dev), b < 13 → (d.bcFault b).alert = true ∧ (d.bcFault b) = { d with i3c := { d.i3c with fault := setBit d.i3c.fault b }, out := (d.bcFault b).out } ∧
    (d.i3c.fault.getLsbD b = false → d.i3c.ibiEn = true → d.i3c.dynAddr.isSome = true → (d.bcFault b).out = d.out ++ [.inBandInterrupt 0x01]) ∧
    (d.i3c.fault.getLsbD b = true ∨ d.i3c.ibiEn = false ∨ d.i3c.dynAddr = none → (d.bcFault b).out = d.out))) ∧
  ((∀ (idx : Byte) (data : List Byte) (v : W32) (addr : BitVec 7) (e : Byte) (s : State), s.dev.pins.standby = false →
    ∀ c ∈ [Instr.i3cRegisterWrite idx data, .pwrBcLimitWrite v, .pwrBcErrClear v, .entdaa addr, .setdasa addr, .rstdaa, .enec e, .disec e, .getpid, .getbcr,
      .getdcr, .getstatus, .getmxds], exec c s = .next s) ∧
  (∀ (idx : Byte) (data : List Byte) (v : W32) (s : State), s.dev.pins.standby = true →
    let put := fun (f : I3c → I3c) => (.next { s with dev := { s.dev with i3c := f s.dev.i3c } } : Result)
    let code := fun (c : Code) => put fun x => { x with errCode := c }
    let w := fld v 11 0
    (data.length ≠ 4 → exec (.i3cRegisterWrite idx data) s = code eAlign) ∧
    (fld v 31 12 ≠ 0 → exec (.pwrBcLimitWrite v) s = code eReservedNonzero) ∧
    (fld v 31 12 = 0 → (1 ≤ w ∧ w ≤ 999) ∨ 3001 ≤ w → exec (.pwrBcLimitWrite v) s = code eRange) ∧
    (fld v 31 12 = 0 → w = 0 ∨ (1000 ≤ w ∧ w ≤ 3000) → exec (.pwrBcLimitWrite v) s = put fun x => { x with limitW := v.extractLsb' 0 12 }) ∧
    (v.getLsbD 16 = true → (fld v 31 17 = 0 → exec (.pwrBcErrClear v) s = put fun x => { x with errCode := 0 }) ∧
      (fld v 31 17 ≠ 0 → exec (.pwrBcErrClear v) s = code eReservedNonzero)) ∧
    (data = toBytes 4 v.toNat →
      (idx = 1 → exec (.i3cRegisterWrite idx data) s = exec (.pwrBcLimitWrite v) s) ∧
      (idx = 4 → fld v 31 13 = 0 → exec (.i3cRegisterWrite idx data) s = put fun x => { x with fault := x.fault &&& ~~~(v.setWidth 13) }) ∧
      (idx = 4 → fld v 31 13 ≠ 0 → exec (.i3cRegisterWrite idx data) s = code eReservedNonzero) ∧
      (idx = 6 → v.getLsbD 16 = true → exec (.i3cRegisterWrite idx data) s = exec (.pwrBcErrClear v) s) ∧
      (idx = 0 ∨ idx = 3 → exec (.i3cRegisterWrite idx data) s = .next s) ∧
      (7 ≤ idx.toNat → exec (.i3cRegisterWrite idx data) s = code eRange))) ∧
  (∀ (addr : BitVec 7) (e : Byte) (s : State), s.dev.pins.standby = true →
    let put := fun (f : I3c → I3c) => (.next { s with dev := { s.dev with i3c := f s.dev.i3c } } : Result)
    let says_ := fun (c : Instr) (n : Nat) => ∃ bs, bs.length ≤ n ∧ exec c s = .next { s with dev := { s.dev with out := s.dev.out ++ [.i3c bs] } }
    (s.dev.i3c.dynAddr = none → ∀ c ∈ [Instr.entdaa addr, .setdasa addr], exec c s = put fun x => { x with dynAddr := some addr }) ∧
    (s.dev.i3c.dynAddr ≠ none → ∀ c ∈ [Instr.entdaa addr, .setdasa addr], exec c s = .next s) ∧
    exec .rstdaa s = put (fun x => { x with dynAddr := none }) ∧
    (e.getLsbD 0 = true → exec (.enec e) s = put (fun x => { x with ibiEn := true }) ∧ exec (.disec e) s = put (fun x => { x with ibiEn := false })) ∧
    (e.getLsbD 0 = false → exec (.enec e) s = .next s ∧ exec (.disec e) s = .next s) ∧
    says_ .getpid 6 ∧ says_ .getbcr 1 ∧ says_ .getdcr 1 ∧ says_ .getmxds 2 ∧
    ∃ bs, bs.length = 2 ∧ exec .getstatus s = .next { s with dev := { s.dev with free := s.dev.free + 1, out := s.dev.out ++ [.i3c bs] } }))
end

