-- ==== Sys2Proof/Laws/State.lean ====
section
/-! SUPPORT. One lemma per field for each update of a table of the device: the fields that it leaves alone. -/

namespace Sys2Proof.Machine

/-! ## `Dev.setLd` -/

@[simp] theorem Dev.setLd_dies (d : Dev) (n : Nat) (x : Ld) : (Dev.setLd d n x).dies = d.dies := rfl
@[simp] theorem Dev.setLd_pwr (d : Dev) (n : Nat) (x : Ld) : (Dev.setLd d n x).pwr = d.pwr := rfl
@[simp] theorem Dev.setLd_clusters (d : Dev) (n : Nat) (x : Ld) : (Dev.setLd d n x).clusters = d.clusters := rfl
@[simp] theorem Dev.setLd_launches (d : Dev) (n : Nat) (x : Ld) : (Dev.setLd d n x).launches = d.launches := rfl
@[simp] theorem Dev.setLd_mem (d : Dev) (n : Nat) (x : Ld) : (Dev.setLd d n x).mem = d.mem := rfl
@[simp] theorem Dev.setLd_poison (d : Dev) (n : Nat) (x : Ld) : (Dev.setLd d n x).poison = d.poison := rfl
@[simp] theorem Dev.setLd_upsets (d : Dev) (n : Nat) (x : Ld) : (Dev.setLd d n x).upsets = d.upsets := rfl
@[simp] theorem Dev.setLd_keySeeds (d : Dev) (n : Nat) (x : Ld) : (Dev.setLd d n x).keySeeds = d.keySeeds := rfl
@[simp] theorem Dev.setLd_lpKeys (d : Dev) (n : Nat) (x : Ld) : (Dev.setLd d n x).lpKeys = d.lpKeys := rfl
@[simp] theorem Dev.setLd_hostMem (d : Dev) (n : Nat) (x : Ld) : (Dev.setLd d n x).hostMem = d.hostMem := rfl
@[simp] theorem Dev.setLd_units (d : Dev) (n : Nat) (x : Ld) : (Dev.setLd d n x).units = d.units := rfl
@[simp] theorem Dev.setLd_memCtl (d : Dev) (n : Nat) (x : Ld) : (Dev.setLd d n x).memCtl = d.memCtl := rfl
@[simp] theorem Dev.setLd_stackRgn (d : Dev) (n : Nat) (x : Ld) : (Dev.setLd d n x).stackRgn = d.stackRgn := rfl
@[simp] theorem Dev.setLd_lpRgn (d : Dev) (n : Nat) (x : Ld) : (Dev.setLd d n x).lpRgn = d.lpRgn := rfl
@[simp] theorem Dev.setLd_kv (d : Dev) (n : Nat) (x : Ld) : (Dev.setLd d n x).kv = d.kv := rfl
@[simp] theorem Dev.setLd_kvJobs (d : Dev) (n : Nat) (x : Ld) : (Dev.setLd d n x).kvJobs = d.kvJobs := rfl
@[simp] theorem Dev.setLd_score (d : Dev) (n : Nat) (x : Ld) : (Dev.setLd d n x).score = d.score := rfl
@[simp] theorem Dev.setLd_promo (d : Dev) (n : Nat) (x : Ld) : (Dev.setLd d n x).promo = d.promo := rfl
@[simp] theorem Dev.setLd_sweepAt (d : Dev) (n : Nat) (x : Ld) : (Dev.setLd d n x).sweepAt = d.sweepAt := rfl
@[simp] theorem Dev.setLd_reqs (d : Dev) (n : Nat) (x : Ld) : (Dev.setLd d n x).reqs = d.reqs := rfl
@[simp] theorem Dev.setLd_adapters (d : Dev) (n : Nat) (x : Ld) : (Dev.setLd d n x).adapters = d.adapters := rfl
@[simp] theorem Dev.setLd_ports (d : Dev) (n : Nat) (x : Ld) : (Dev.setLd d n x).ports = d.ports := rfl
@[simp] theorem Dev.setLd_grafts (d : Dev) (n : Nat) (x : Ld) : (Dev.setLd d n x).grafts = d.grafts := rfl
@[simp] theorem Dev.setLd_net (d : Dev) (n : Nat) (x : Ld) : (Dev.setLd d n x).net = d.net := rfl
@[simp] theorem Dev.setLd_colls (d : Dev) (n : Nat) (x : Ld) : (Dev.setLd d n x).colls = d.colls := rfl
@[simp] theorem Dev.setLd_zeroing (d : Dev) (n : Nat) (x : Ld) : (Dev.setLd d n x).zeroing = d.zeroing := rfl
@[simp] theorem Dev.setLd_upds (d : Dev) (n : Nat) (x : Ld) : (Dev.setLd d n x).upds = d.upds := rfl
@[simp] theorem Dev.setLd_domains (d : Dev) (n : Nat) (x : Ld) : (Dev.setLd d n x).domains = d.domains := rfl
@[simp] theorem Dev.setLd_tags (d : Dev) (n : Nat) (x : Ld) : (Dev.setLd d n x).tags = d.tags := rfl
@[simp] theorem Dev.setLd_pageJobs (d : Dev) (n : Nat) (x : Ld) : (Dev.setLd d n x).pageJobs = d.pageJobs := rfl
@[simp] theorem Dev.setLd_imports (d : Dev) (n : Nat) (x : Ld) : (Dev.setLd d n x).imports = d.imports := rfl
@[simp] theorem Dev.setLd_snoops (d : Dev) (n : Nat) (x : Ld) : (Dev.setLd d n x).snoops = d.snoops := rfl
@[simp] theorem Dev.setLd_biWait (d : Dev) (n : Nat) (x : Ld) : (Dev.setLd d n x).biWait = d.biWait := rfl
@[simp] theorem Dev.setLd_touched (d : Dev) (n : Nat) (x : Ld) : (Dev.setLd d n x).touched = d.touched := rfl
@[simp] theorem Dev.setLd_latches (d : Dev) (n : Nat) (x : Ld) : (Dev.setLd d n x).latches = d.latches := rfl
@[simp] theorem Dev.setLd_held (d : Dev) (n : Nat) (x : Ld) : (Dev.setLd d n x).held = d.held := rfl
@[simp] theorem Dev.setLd_boot (d : Dev) (n : Nat) (x : Ld) : (Dev.setLd d n x).boot = d.boot := rfl
@[simp] theorem Dev.setLd_pins (d : Dev) (n : Nat) (x : Ld) : (Dev.setLd d n x).pins = d.pins := rfl
@[simp] theorem Dev.setLd_i3c (d : Dev) (n : Nat) (x : Ld) : (Dev.setLd d n x).i3c = d.i3c := rfl
@[simp] theorem Dev.setLd_crypto (d : Dev) (n : Nat) (x : Ld) : (Dev.setLd d n x).crypto = d.crypto := rfl
@[simp] theorem Dev.setLd_nextId (d : Dev) (n : Nat) (x : Ld) : (Dev.setLd d n x).nextId = d.nextId := rfl
@[simp] theorem Dev.setLd_free (d : Dev) (n : Nat) (x : Ld) : (Dev.setLd d n x).free = d.free := rfl
@[simp] theorem Dev.setLd_out (d : Dev) (n : Nat) (x : Ld) : (Dev.setLd d n x).out = d.out := rfl

/-! ## `Dev.modLd` -/

@[simp] theorem Dev.modLd_dies (d : Dev) (n : Nat) (f : Ld → Ld) : (Dev.modLd n f d).dies = d.dies := rfl
@[simp] theorem Dev.modLd_pwr (d : Dev) (n : Nat) (f : Ld → Ld) : (Dev.modLd n f d).pwr = d.pwr := rfl
@[simp] theorem Dev.modLd_clusters (d : Dev) (n : Nat) (f : Ld → Ld) : (Dev.modLd n f d).clusters = d.clusters := rfl
@[simp] theorem Dev.modLd_launches (d : Dev) (n : Nat) (f : Ld → Ld) : (Dev.modLd n f d).launches = d.launches := rfl
@[simp] theorem Dev.modLd_mem (d : Dev) (n : Nat) (f : Ld → Ld) : (Dev.modLd n f d).mem = d.mem := rfl
@[simp] theorem Dev.modLd_poison (d : Dev) (n : Nat) (f : Ld → Ld) : (Dev.modLd n f d).poison = d.poison := rfl
@[simp] theorem Dev.modLd_upsets (d : Dev) (n : Nat) (f : Ld → Ld) : (Dev.modLd n f d).upsets = d.upsets := rfl
@[simp] theorem Dev.modLd_keySeeds (d : Dev) (n : Nat) (f : Ld → Ld) : (Dev.modLd n f d).keySeeds = d.keySeeds := rfl
@[simp] theorem Dev.modLd_lpKeys (d : Dev) (n : Nat) (f : Ld → Ld) : (Dev.modLd n f d).lpKeys = d.lpKeys := rfl
@[simp] theorem Dev.modLd_hostMem (d : Dev) (n : Nat) (f : Ld → Ld) : (Dev.modLd n f d).hostMem = d.hostMem := rfl
@[simp] theorem Dev.modLd_units (d : Dev) (n : Nat) (f : Ld → Ld) : (Dev.modLd n f d).units = d.units := rfl
@[simp] theorem Dev.modLd_memCtl (d : Dev) (n : Nat) (f : Ld → Ld) : (Dev.modLd n f d).memCtl = d.memCtl := rfl
@[simp] theorem Dev.modLd_stackRgn (d : Dev) (n : Nat) (f : Ld → Ld) : (Dev.modLd n f d).stackRgn = d.stackRgn := rfl
@[simp] theorem Dev.modLd_lpRgn (d : Dev) (n : Nat) (f : Ld → Ld) : (Dev.modLd n f d).lpRgn = d.lpRgn := rfl
@[simp] theorem Dev.modLd_kv (d : Dev) (n : Nat) (f : Ld → Ld) : (Dev.modLd n f d).kv = d.kv := rfl
@[simp] theorem Dev.modLd_kvJobs (d : Dev) (n : Nat) (f : Ld → Ld) : (Dev.modLd n f d).kvJobs = d.kvJobs := rfl
@[simp] theorem Dev.modLd_score (d : Dev) (n : Nat) (f : Ld → Ld) : (Dev.modLd n f d).score = d.score := rfl
@[simp] theorem Dev.modLd_promo (d : Dev) (n : Nat) (f : Ld → Ld) : (Dev.modLd n f d).promo = d.promo := rfl
@[simp] theorem Dev.modLd_sweepAt (d : Dev) (n : Nat) (f : Ld → Ld) : (Dev.modLd n f d).sweepAt = d.sweepAt := rfl
@[simp] theorem Dev.modLd_reqs (d : Dev) (n : Nat) (f : Ld → Ld) : (Dev.modLd n f d).reqs = d.reqs := rfl
@[simp] theorem Dev.modLd_adapters (d : Dev) (n : Nat) (f : Ld → Ld) : (Dev.modLd n f d).adapters = d.adapters := rfl
@[simp] theorem Dev.modLd_ports (d : Dev) (n : Nat) (f : Ld → Ld) : (Dev.modLd n f d).ports = d.ports := rfl
@[simp] theorem Dev.modLd_grafts (d : Dev) (n : Nat) (f : Ld → Ld) : (Dev.modLd n f d).grafts = d.grafts := rfl
@[simp] theorem Dev.modLd_net (d : Dev) (n : Nat) (f : Ld → Ld) : (Dev.modLd n f d).net = d.net := rfl
@[simp] theorem Dev.modLd_colls (d : Dev) (n : Nat) (f : Ld → Ld) : (Dev.modLd n f d).colls = d.colls := rfl
@[simp] theorem Dev.modLd_zeroing (d : Dev) (n : Nat) (f : Ld → Ld) : (Dev.modLd n f d).zeroing = d.zeroing := rfl
@[simp] theorem Dev.modLd_upds (d : Dev) (n : Nat) (f : Ld → Ld) : (Dev.modLd n f d).upds = d.upds := rfl
@[simp] theorem Dev.modLd_domains (d : Dev) (n : Nat) (f : Ld → Ld) : (Dev.modLd n f d).domains = d.domains := rfl
@[simp] theorem Dev.modLd_tags (d : Dev) (n : Nat) (f : Ld → Ld) : (Dev.modLd n f d).tags = d.tags := rfl
@[simp] theorem Dev.modLd_pageJobs (d : Dev) (n : Nat) (f : Ld → Ld) : (Dev.modLd n f d).pageJobs = d.pageJobs := rfl
@[simp] theorem Dev.modLd_imports (d : Dev) (n : Nat) (f : Ld → Ld) : (Dev.modLd n f d).imports = d.imports := rfl
@[simp] theorem Dev.modLd_snoops (d : Dev) (n : Nat) (f : Ld → Ld) : (Dev.modLd n f d).snoops = d.snoops := rfl
@[simp] theorem Dev.modLd_biWait (d : Dev) (n : Nat) (f : Ld → Ld) : (Dev.modLd n f d).biWait = d.biWait := rfl
@[simp] theorem Dev.modLd_touched (d : Dev) (n : Nat) (f : Ld → Ld) : (Dev.modLd n f d).touched = d.touched := rfl
@[simp] theorem Dev.modLd_latches (d : Dev) (n : Nat) (f : Ld → Ld) : (Dev.modLd n f d).latches = d.latches := rfl
@[simp] theorem Dev.modLd_held (d : Dev) (n : Nat) (f : Ld → Ld) : (Dev.modLd n f d).held = d.held := rfl
@[simp] theorem Dev.modLd_boot (d : Dev) (n : Nat) (f : Ld → Ld) : (Dev.modLd n f d).boot = d.boot := rfl
@[simp] theorem Dev.modLd_pins (d : Dev) (n : Nat) (f : Ld → Ld) : (Dev.modLd n f d).pins = d.pins := rfl
@[simp] theorem Dev.modLd_i3c (d : Dev) (n : Nat) (f : Ld → Ld) : (Dev.modLd n f d).i3c = d.i3c := rfl
@[simp] theorem Dev.modLd_crypto (d : Dev) (n : Nat) (f : Ld → Ld) : (Dev.modLd n f d).crypto = d.crypto := rfl
@[simp] theorem Dev.modLd_nextId (d : Dev) (n : Nat) (f : Ld → Ld) : (Dev.modLd n f d).nextId = d.nextId := rfl
@[simp] theorem Dev.modLd_free (d : Dev) (n : Nat) (f : Ld → Ld) : (Dev.modLd n f d).free = d.free := rfl
@[simp] theorem Dev.modLd_out (d : Dev) (n : Nat) (f : Ld → Ld) : (Dev.modLd n f d).out = d.out := rfl

/-! ## `Dev.setClu` -/

@[simp] theorem Dev.setClu_lds (d : Dev) (n : Nat) (x : Cluster) : (Dev.setClu d n x).lds = d.lds := rfl
@[simp] theorem Dev.setClu_dies (d : Dev) (n : Nat) (x : Cluster) : (Dev.setClu d n x).dies = d.dies := rfl
@[simp] theorem Dev.setClu_pwr (d : Dev) (n : Nat) (x : Cluster) : (Dev.setClu d n x).pwr = d.pwr := rfl
@[simp] theorem Dev.setClu_launches (d : Dev) (n : Nat) (x : Cluster) : (Dev.setClu d n x).launches = d.launches := rfl
@[simp] theorem Dev.setClu_mem (d : Dev) (n : Nat) (x : Cluster) : (Dev.setClu d n x).mem = d.mem := rfl
@[simp] theorem Dev.setClu_poison (d : Dev) (n : Nat) (x : Cluster) : (Dev.setClu d n x).poison = d.poison := rfl
@[simp] theorem Dev.setClu_upsets (d : Dev) (n : Nat) (x : Cluster) : (Dev.setClu d n x).upsets = d.upsets := rfl
@[simp] theorem Dev.setClu_keySeeds (d : Dev) (n : Nat) (x : Cluster) : (Dev.setClu d n x).keySeeds = d.keySeeds := rfl
@[simp] theorem Dev.setClu_lpKeys (d : Dev) (n : Nat) (x : Cluster) : (Dev.setClu d n x).lpKeys = d.lpKeys := rfl
@[simp] theorem Dev.setClu_hostMem (d : Dev) (n : Nat) (x : Cluster) : (Dev.setClu d n x).hostMem = d.hostMem := rfl
@[simp] theorem Dev.setClu_units (d : Dev) (n : Nat) (x : Cluster) : (Dev.setClu d n x).units = d.units := rfl
@[simp] theorem Dev.setClu_memCtl (d : Dev) (n : Nat) (x : Cluster) : (Dev.setClu d n x).memCtl = d.memCtl := rfl
@[simp] theorem Dev.setClu_stackRgn (d : Dev) (n : Nat) (x : Cluster) : (Dev.setClu d n x).stackRgn = d.stackRgn := rfl
@[simp] theorem Dev.setClu_lpRgn (d : Dev) (n : Nat) (x : Cluster) : (Dev.setClu d n x).lpRgn = d.lpRgn := rfl
@[simp] theorem Dev.setClu_kv (d : Dev) (n : Nat) (x : Cluster) : (Dev.setClu d n x).kv = d.kv := rfl
@[simp] theorem Dev.setClu_kvJobs (d : Dev) (n : Nat) (x : Cluster) : (Dev.setClu d n x).kvJobs = d.kvJobs := rfl
@[simp] theorem Dev.setClu_score (d : Dev) (n : Nat) (x : Cluster) : (Dev.setClu d n x).score = d.score := rfl
@[simp] theorem Dev.setClu_promo (d : Dev) (n : Nat) (x : Cluster) : (Dev.setClu d n x).promo = d.promo := rfl
@[simp] theorem Dev.setClu_sweepAt (d : Dev) (n : Nat) (x : Cluster) : (Dev.setClu d n x).sweepAt = d.sweepAt := rfl
@[simp] theorem Dev.setClu_reqs (d : Dev) (n : Nat) (x : Cluster) : (Dev.setClu d n x).reqs = d.reqs := rfl
@[simp] theorem Dev.setClu_adapters (d : Dev) (n : Nat) (x : Cluster) : (Dev.setClu d n x).adapters = d.adapters := rfl
@[simp] theorem Dev.setClu_ports (d : Dev) (n : Nat) (x : Cluster) : (Dev.setClu d n x).ports = d.ports := rfl
@[simp] theorem Dev.setClu_grafts (d : Dev) (n : Nat) (x : Cluster) : (Dev.setClu d n x).grafts = d.grafts := rfl
@[simp] theorem Dev.setClu_net (d : Dev) (n : Nat) (x : Cluster) : (Dev.setClu d n x).net = d.net := rfl
@[simp] theorem Dev.setClu_colls (d : Dev) (n : Nat) (x : Cluster) : (Dev.setClu d n x).colls = d.colls := rfl
@[simp] theorem Dev.setClu_zeroing (d : Dev) (n : Nat) (x : Cluster) : (Dev.setClu d n x).zeroing = d.zeroing := rfl
@[simp] theorem Dev.setClu_upds (d : Dev) (n : Nat) (x : Cluster) : (Dev.setClu d n x).upds = d.upds := rfl
@[simp] theorem Dev.setClu_domains (d : Dev) (n : Nat) (x : Cluster) : (Dev.setClu d n x).domains = d.domains := rfl
@[simp] theorem Dev.setClu_tags (d : Dev) (n : Nat) (x : Cluster) : (Dev.setClu d n x).tags = d.tags := rfl
@[simp] theorem Dev.setClu_pageJobs (d : Dev) (n : Nat) (x : Cluster) : (Dev.setClu d n x).pageJobs = d.pageJobs := rfl
@[simp] theorem Dev.setClu_imports (d : Dev) (n : Nat) (x : Cluster) : (Dev.setClu d n x).imports = d.imports := rfl
@[simp] theorem Dev.setClu_snoops (d : Dev) (n : Nat) (x : Cluster) : (Dev.setClu d n x).snoops = d.snoops := rfl
@[simp] theorem Dev.setClu_biWait (d : Dev) (n : Nat) (x : Cluster) : (Dev.setClu d n x).biWait = d.biWait := rfl
@[simp] theorem Dev.setClu_touched (d : Dev) (n : Nat) (x : Cluster) : (Dev.setClu d n x).touched = d.touched := rfl
@[simp] theorem Dev.setClu_latches (d : Dev) (n : Nat) (x : Cluster) : (Dev.setClu d n x).latches = d.latches := rfl
@[simp] theorem Dev.setClu_held (d : Dev) (n : Nat) (x : Cluster) : (Dev.setClu d n x).held = d.held := rfl
@[simp] theorem Dev.setClu_boot (d : Dev) (n : Nat) (x : Cluster) : (Dev.setClu d n x).boot = d.boot := rfl
@[simp] theorem Dev.setClu_pins (d : Dev) (n : Nat) (x : Cluster) : (Dev.setClu d n x).pins = d.pins := rfl
@[simp] theorem Dev.setClu_i3c (d : Dev) (n : Nat) (x : Cluster) : (Dev.setClu d n x).i3c = d.i3c := rfl
@[simp] theorem Dev.setClu_crypto (d : Dev) (n : Nat) (x : Cluster) : (Dev.setClu d n x).crypto = d.crypto := rfl
@[simp] theorem Dev.setClu_nextId (d : Dev) (n : Nat) (x : Cluster) : (Dev.setClu d n x).nextId = d.nextId := rfl
@[simp] theorem Dev.setClu_free (d : Dev) (n : Nat) (x : Cluster) : (Dev.setClu d n x).free = d.free := rfl
@[simp] theorem Dev.setClu_out (d : Dev) (n : Nat) (x : Cluster) : (Dev.setClu d n x).out = d.out := rfl

/-! ## `Dev.modClu` -/

@[simp] theorem Dev.modClu_lds (d : Dev) (n : Nat) (f : Cluster → Cluster) : (Dev.modClu n f d).lds = d.lds := rfl
@[simp] theorem Dev.modClu_dies (d : Dev) (n : Nat) (f : Cluster → Cluster) : (Dev.modClu n f d).dies = d.dies := rfl
@[simp] theorem Dev.modClu_pwr (d : Dev) (n : Nat) (f : Cluster → Cluster) : (Dev.modClu n f d).pwr = d.pwr := rfl
@[simp] theorem Dev.modClu_launches (d : Dev) (n : Nat) (f : Cluster → Cluster) : (Dev.modClu n f d).launches = d.launches := rfl
@[simp] theorem Dev.modClu_mem (d : Dev) (n : Nat) (f : Cluster → Cluster) : (Dev.modClu n f d).mem = d.mem := rfl
@[simp] theorem Dev.modClu_poison (d : Dev) (n : Nat) (f : Cluster → Cluster) : (Dev.modClu n f d).poison = d.poison := rfl
@[simp] theorem Dev.modClu_upsets (d : Dev) (n : Nat) (f : Cluster → Cluster) : (Dev.modClu n f d).upsets = d.upsets := rfl
@[simp] theorem Dev.modClu_keySeeds (d : Dev) (n : Nat) (f : Cluster → Cluster) : (Dev.modClu n f d).keySeeds = d.keySeeds := rfl
@[simp] theorem Dev.modClu_lpKeys (d : Dev) (n : Nat) (f : Cluster → Cluster) : (Dev.modClu n f d).lpKeys = d.lpKeys := rfl
@[simp] theorem Dev.modClu_hostMem (d : Dev) (n : Nat) (f : Cluster → Cluster) : (Dev.modClu n f d).hostMem = d.hostMem := rfl
@[simp] theorem Dev.modClu_units (d : Dev) (n : Nat) (f : Cluster → Cluster) : (Dev.modClu n f d).units = d.units := rfl
@[simp] theorem Dev.modClu_memCtl (d : Dev) (n : Nat) (f : Cluster → Cluster) : (Dev.modClu n f d).memCtl = d.memCtl := rfl
@[simp] theorem Dev.modClu_stackRgn (d : Dev) (n : Nat) (f : Cluster → Cluster) : (Dev.modClu n f d).stackRgn = d.stackRgn := rfl
@[simp] theorem Dev.modClu_lpRgn (d : Dev) (n : Nat) (f : Cluster → Cluster) : (Dev.modClu n f d).lpRgn = d.lpRgn := rfl
@[simp] theorem Dev.modClu_kv (d : Dev) (n : Nat) (f : Cluster → Cluster) : (Dev.modClu n f d).kv = d.kv := rfl
@[simp] theorem Dev.modClu_kvJobs (d : Dev) (n : Nat) (f : Cluster → Cluster) : (Dev.modClu n f d).kvJobs = d.kvJobs := rfl
@[simp] theorem Dev.modClu_score (d : Dev) (n : Nat) (f : Cluster → Cluster) : (Dev.modClu n f d).score = d.score := rfl
@[simp] theorem Dev.modClu_promo (d : Dev) (n : Nat) (f : Cluster → Cluster) : (Dev.modClu n f d).promo = d.promo := rfl
@[simp] theorem Dev.modClu_sweepAt (d : Dev) (n : Nat) (f : Cluster → Cluster) : (Dev.modClu n f d).sweepAt = d.sweepAt := rfl
@[simp] theorem Dev.modClu_reqs (d : Dev) (n : Nat) (f : Cluster → Cluster) : (Dev.modClu n f d).reqs = d.reqs := rfl
@[simp] theorem Dev.modClu_adapters (d : Dev) (n : Nat) (f : Cluster → Cluster) : (Dev.modClu n f d).adapters = d.adapters := rfl
@[simp] theorem Dev.modClu_ports (d : Dev) (n : Nat) (f : Cluster → Cluster) : (Dev.modClu n f d).ports = d.ports := rfl
@[simp] theorem Dev.modClu_grafts (d : Dev) (n : Nat) (f : Cluster → Cluster) : (Dev.modClu n f d).grafts = d.grafts := rfl
@[simp] theorem Dev.modClu_net (d : Dev) (n : Nat) (f : Cluster → Cluster) : (Dev.modClu n f d).net = d.net := rfl
@[simp] theorem Dev.modClu_colls (d : Dev) (n : Nat) (f : Cluster → Cluster) : (Dev.modClu n f d).colls = d.colls := rfl
@[simp] theorem Dev.modClu_zeroing (d : Dev) (n : Nat) (f : Cluster → Cluster) : (Dev.modClu n f d).zeroing = d.zeroing := rfl
@[simp] theorem Dev.modClu_upds (d : Dev) (n : Nat) (f : Cluster → Cluster) : (Dev.modClu n f d).upds = d.upds := rfl
@[simp] theorem Dev.modClu_domains (d : Dev) (n : Nat) (f : Cluster → Cluster) : (Dev.modClu n f d).domains = d.domains := rfl
@[simp] theorem Dev.modClu_tags (d : Dev) (n : Nat) (f : Cluster → Cluster) : (Dev.modClu n f d).tags = d.tags := rfl
@[simp] theorem Dev.modClu_pageJobs (d : Dev) (n : Nat) (f : Cluster → Cluster) : (Dev.modClu n f d).pageJobs = d.pageJobs := rfl
@[simp] theorem Dev.modClu_imports (d : Dev) (n : Nat) (f : Cluster → Cluster) : (Dev.modClu n f d).imports = d.imports := rfl
@[simp] theorem Dev.modClu_snoops (d : Dev) (n : Nat) (f : Cluster → Cluster) : (Dev.modClu n f d).snoops = d.snoops := rfl
@[simp] theorem Dev.modClu_biWait (d : Dev) (n : Nat) (f : Cluster → Cluster) : (Dev.modClu n f d).biWait = d.biWait := rfl
@[simp] theorem Dev.modClu_touched (d : Dev) (n : Nat) (f : Cluster → Cluster) : (Dev.modClu n f d).touched = d.touched := rfl
@[simp] theorem Dev.modClu_latches (d : Dev) (n : Nat) (f : Cluster → Cluster) : (Dev.modClu n f d).latches = d.latches := rfl
@[simp] theorem Dev.modClu_held (d : Dev) (n : Nat) (f : Cluster → Cluster) : (Dev.modClu n f d).held = d.held := rfl
@[simp] theorem Dev.modClu_boot (d : Dev) (n : Nat) (f : Cluster → Cluster) : (Dev.modClu n f d).boot = d.boot := rfl
@[simp] theorem Dev.modClu_pins (d : Dev) (n : Nat) (f : Cluster → Cluster) : (Dev.modClu n f d).pins = d.pins := rfl
@[simp] theorem Dev.modClu_i3c (d : Dev) (n : Nat) (f : Cluster → Cluster) : (Dev.modClu n f d).i3c = d.i3c := rfl
@[simp] theorem Dev.modClu_crypto (d : Dev) (n : Nat) (f : Cluster → Cluster) : (Dev.modClu n f d).crypto = d.crypto := rfl
@[simp] theorem Dev.modClu_nextId (d : Dev) (n : Nat) (f : Cluster → Cluster) : (Dev.modClu n f d).nextId = d.nextId := rfl
@[simp] theorem Dev.modClu_free (d : Dev) (n : Nat) (f : Cluster → Cluster) : (Dev.modClu n f d).free = d.free := rfl
@[simp] theorem Dev.modClu_out (d : Dev) (n : Nat) (f : Cluster → Cluster) : (Dev.modClu n f d).out = d.out := rfl

/-! ## `Dev.modDie` -/

@[simp] theorem Dev.modDie_lds (d : Dev) (n : Nat) (f : Die → Die) : (Dev.modDie n f d).lds = d.lds := rfl
@[simp] theorem Dev.modDie_pwr (d : Dev) (n : Nat) (f : Die → Die) : (Dev.modDie n f d).pwr = d.pwr := rfl
@[simp] theorem Dev.modDie_clusters (d : Dev) (n : Nat) (f : Die → Die) : (Dev.modDie n f d).clusters = d.clusters := rfl
@[simp] theorem Dev.modDie_launches (d : Dev) (n : Nat) (f : Die → Die) : (Dev.modDie n f d).launches = d.launches := rfl
@[simp] theorem Dev.modDie_mem (d : Dev) (n : Nat) (f : Die → Die) : (Dev.modDie n f d).mem = d.mem := rfl
@[simp] theorem Dev.modDie_poison (d : Dev) (n : Nat) (f : Die → Die) : (Dev.modDie n f d).poison = d.poison := rfl
@[simp] theorem Dev.modDie_upsets (d : Dev) (n : Nat) (f : Die → Die) : (Dev.modDie n f d).upsets = d.upsets := rfl
@[simp] theorem Dev.modDie_keySeeds (d : Dev) (n : Nat) (f : Die → Die) : (Dev.modDie n f d).keySeeds = d.keySeeds := rfl
@[simp] theorem Dev.modDie_lpKeys (d : Dev) (n : Nat) (f : Die → Die) : (Dev.modDie n f d).lpKeys = d.lpKeys := rfl
@[simp] theorem Dev.modDie_hostMem (d : Dev) (n : Nat) (f : Die → Die) : (Dev.modDie n f d).hostMem = d.hostMem := rfl
@[simp] theorem Dev.modDie_units (d : Dev) (n : Nat) (f : Die → Die) : (Dev.modDie n f d).units = d.units := rfl
@[simp] theorem Dev.modDie_memCtl (d : Dev) (n : Nat) (f : Die → Die) : (Dev.modDie n f d).memCtl = d.memCtl := rfl
@[simp] theorem Dev.modDie_stackRgn (d : Dev) (n : Nat) (f : Die → Die) : (Dev.modDie n f d).stackRgn = d.stackRgn := rfl
@[simp] theorem Dev.modDie_lpRgn (d : Dev) (n : Nat) (f : Die → Die) : (Dev.modDie n f d).lpRgn = d.lpRgn := rfl
@[simp] theorem Dev.modDie_kv (d : Dev) (n : Nat) (f : Die → Die) : (Dev.modDie n f d).kv = d.kv := rfl
@[simp] theorem Dev.modDie_kvJobs (d : Dev) (n : Nat) (f : Die → Die) : (Dev.modDie n f d).kvJobs = d.kvJobs := rfl
@[simp] theorem Dev.modDie_score (d : Dev) (n : Nat) (f : Die → Die) : (Dev.modDie n f d).score = d.score := rfl
@[simp] theorem Dev.modDie_promo (d : Dev) (n : Nat) (f : Die → Die) : (Dev.modDie n f d).promo = d.promo := rfl
@[simp] theorem Dev.modDie_sweepAt (d : Dev) (n : Nat) (f : Die → Die) : (Dev.modDie n f d).sweepAt = d.sweepAt := rfl
@[simp] theorem Dev.modDie_reqs (d : Dev) (n : Nat) (f : Die → Die) : (Dev.modDie n f d).reqs = d.reqs := rfl
@[simp] theorem Dev.modDie_adapters (d : Dev) (n : Nat) (f : Die → Die) : (Dev.modDie n f d).adapters = d.adapters := rfl
@[simp] theorem Dev.modDie_ports (d : Dev) (n : Nat) (f : Die → Die) : (Dev.modDie n f d).ports = d.ports := rfl
@[simp] theorem Dev.modDie_grafts (d : Dev) (n : Nat) (f : Die → Die) : (Dev.modDie n f d).grafts = d.grafts := rfl
@[simp] theorem Dev.modDie_net (d : Dev) (n : Nat) (f : Die → Die) : (Dev.modDie n f d).net = d.net := rfl
@[simp] theorem Dev.modDie_colls (d : Dev) (n : Nat) (f : Die → Die) : (Dev.modDie n f d).colls = d.colls := rfl
@[simp] theorem Dev.modDie_zeroing (d : Dev) (n : Nat) (f : Die → Die) : (Dev.modDie n f d).zeroing = d.zeroing := rfl
@[simp] theorem Dev.modDie_upds (d : Dev) (n : Nat) (f : Die → Die) : (Dev.modDie n f d).upds = d.upds := rfl
@[simp] theorem Dev.modDie_domains (d : Dev) (n : Nat) (f : Die → Die) : (Dev.modDie n f d).domains = d.domains := rfl
@[simp] theorem Dev.modDie_tags (d : Dev) (n : Nat) (f : Die → Die) : (Dev.modDie n f d).tags = d.tags := rfl
@[simp] theorem Dev.modDie_pageJobs (d : Dev) (n : Nat) (f : Die → Die) : (Dev.modDie n f d).pageJobs = d.pageJobs := rfl
@[simp] theorem Dev.modDie_imports (d : Dev) (n : Nat) (f : Die → Die) : (Dev.modDie n f d).imports = d.imports := rfl
@[simp] theorem Dev.modDie_snoops (d : Dev) (n : Nat) (f : Die → Die) : (Dev.modDie n f d).snoops = d.snoops := rfl
@[simp] theorem Dev.modDie_biWait (d : Dev) (n : Nat) (f : Die → Die) : (Dev.modDie n f d).biWait = d.biWait := rfl
@[simp] theorem Dev.modDie_touched (d : Dev) (n : Nat) (f : Die → Die) : (Dev.modDie n f d).touched = d.touched := rfl
@[simp] theorem Dev.modDie_latches (d : Dev) (n : Nat) (f : Die → Die) : (Dev.modDie n f d).latches = d.latches := rfl
@[simp] theorem Dev.modDie_held (d : Dev) (n : Nat) (f : Die → Die) : (Dev.modDie n f d).held = d.held := rfl
@[simp] theorem Dev.modDie_boot (d : Dev) (n : Nat) (f : Die → Die) : (Dev.modDie n f d).boot = d.boot := rfl
@[simp] theorem Dev.modDie_pins (d : Dev) (n : Nat) (f : Die → Die) : (Dev.modDie n f d).pins = d.pins := rfl
@[simp] theorem Dev.modDie_i3c (d : Dev) (n : Nat) (f : Die → Die) : (Dev.modDie n f d).i3c = d.i3c := rfl
@[simp] theorem Dev.modDie_crypto (d : Dev) (n : Nat) (f : Die → Die) : (Dev.modDie n f d).crypto = d.crypto := rfl
@[simp] theorem Dev.modDie_nextId (d : Dev) (n : Nat) (f : Die → Die) : (Dev.modDie n f d).nextId = d.nextId := rfl
@[simp] theorem Dev.modDie_free (d : Dev) (n : Nat) (f : Die → Die) : (Dev.modDie n f d).free = d.free := rfl
@[simp] theorem Dev.modDie_out (d : Dev) (n : Nat) (f : Die → Die) : (Dev.modDie n f d).out = d.out := rfl

/-! ## `Dev.modUnit` -/

@[simp] theorem Dev.modUnit_lds (d : Dev) (u : MemUnit) (f : Unit → Unit) : (Dev.modUnit u f d).lds = d.lds := rfl
@[simp] theorem Dev.modUnit_dies (d : Dev) (u : MemUnit) (f : Unit → Unit) : (Dev.modUnit u f d).dies = d.dies := rfl
@[simp] theorem Dev.modUnit_pwr (d : Dev) (u : MemUnit) (f : Unit → Unit) : (Dev.modUnit u f d).pwr = d.pwr := rfl
@[simp] theorem Dev.modUnit_clusters (d : Dev) (u : MemUnit) (f : Unit → Unit) : (Dev.modUnit u f d).clusters = d.clusters := rfl
@[simp] theorem Dev.modUnit_launches (d : Dev) (u : MemUnit) (f : Unit → Unit) : (Dev.modUnit u f d).launches = d.launches := rfl
@[simp] theorem Dev.modUnit_mem (d : Dev) (u : MemUnit) (f : Unit → Unit) : (Dev.modUnit u f d).mem = d.mem := rfl
@[simp] theorem Dev.modUnit_poison (d : Dev) (u : MemUnit) (f : Unit → Unit) : (Dev.modUnit u f d).poison = d.poison := rfl
@[simp] theorem Dev.modUnit_upsets (d : Dev) (u : MemUnit) (f : Unit → Unit) : (Dev.modUnit u f d).upsets = d.upsets := rfl
@[simp] theorem Dev.modUnit_keySeeds (d : Dev) (u : MemUnit) (f : Unit → Unit) : (Dev.modUnit u f d).keySeeds = d.keySeeds := rfl
@[simp] theorem Dev.modUnit_lpKeys (d : Dev) (u : MemUnit) (f : Unit → Unit) : (Dev.modUnit u f d).lpKeys = d.lpKeys := rfl
@[simp] theorem Dev.modUnit_hostMem (d : Dev) (u : MemUnit) (f : Unit → Unit) : (Dev.modUnit u f d).hostMem = d.hostMem := rfl
@[simp] theorem Dev.modUnit_memCtl (d : Dev) (u : MemUnit) (f : Unit → Unit) : (Dev.modUnit u f d).memCtl = d.memCtl := rfl
@[simp] theorem Dev.modUnit_stackRgn (d : Dev) (u : MemUnit) (f : Unit → Unit) : (Dev.modUnit u f d).stackRgn = d.stackRgn := rfl
@[simp] theorem Dev.modUnit_lpRgn (d : Dev) (u : MemUnit) (f : Unit → Unit) : (Dev.modUnit u f d).lpRgn = d.lpRgn := rfl
@[simp] theorem Dev.modUnit_kv (d : Dev) (u : MemUnit) (f : Unit → Unit) : (Dev.modUnit u f d).kv = d.kv := rfl
@[simp] theorem Dev.modUnit_kvJobs (d : Dev) (u : MemUnit) (f : Unit → Unit) : (Dev.modUnit u f d).kvJobs = d.kvJobs := rfl
@[simp] theorem Dev.modUnit_score (d : Dev) (u : MemUnit) (f : Unit → Unit) : (Dev.modUnit u f d).score = d.score := rfl
@[simp] theorem Dev.modUnit_promo (d : Dev) (u : MemUnit) (f : Unit → Unit) : (Dev.modUnit u f d).promo = d.promo := rfl
@[simp] theorem Dev.modUnit_sweepAt (d : Dev) (u : MemUnit) (f : Unit → Unit) : (Dev.modUnit u f d).sweepAt = d.sweepAt := rfl
@[simp] theorem Dev.modUnit_reqs (d : Dev) (u : MemUnit) (f : Unit → Unit) : (Dev.modUnit u f d).reqs = d.reqs := rfl
@[simp] theorem Dev.modUnit_adapters (d : Dev) (u : MemUnit) (f : Unit → Unit) : (Dev.modUnit u f d).adapters = d.adapters := rfl
@[simp] theorem Dev.modUnit_ports (d : Dev) (u : MemUnit) (f : Unit → Unit) : (Dev.modUnit u f d).ports = d.ports := rfl
@[simp] theorem Dev.modUnit_grafts (d : Dev) (u : MemUnit) (f : Unit → Unit) : (Dev.modUnit u f d).grafts = d.grafts := rfl
@[simp] theorem Dev.modUnit_net (d : Dev) (u : MemUnit) (f : Unit → Unit) : (Dev.modUnit u f d).net = d.net := rfl
@[simp] theorem Dev.modUnit_colls (d : Dev) (u : MemUnit) (f : Unit → Unit) : (Dev.modUnit u f d).colls = d.colls := rfl
@[simp] theorem Dev.modUnit_zeroing (d : Dev) (u : MemUnit) (f : Unit → Unit) : (Dev.modUnit u f d).zeroing = d.zeroing := rfl
@[simp] theorem Dev.modUnit_upds (d : Dev) (u : MemUnit) (f : Unit → Unit) : (Dev.modUnit u f d).upds = d.upds := rfl
@[simp] theorem Dev.modUnit_domains (d : Dev) (u : MemUnit) (f : Unit → Unit) : (Dev.modUnit u f d).domains = d.domains := rfl
@[simp] theorem Dev.modUnit_tags (d : Dev) (u : MemUnit) (f : Unit → Unit) : (Dev.modUnit u f d).tags = d.tags := rfl
@[simp] theorem Dev.modUnit_pageJobs (d : Dev) (u : MemUnit) (f : Unit → Unit) : (Dev.modUnit u f d).pageJobs = d.pageJobs := rfl
@[simp] theorem Dev.modUnit_imports (d : Dev) (u : MemUnit) (f : Unit → Unit) : (Dev.modUnit u f d).imports = d.imports := rfl
@[simp] theorem Dev.modUnit_snoops (d : Dev) (u : MemUnit) (f : Unit → Unit) : (Dev.modUnit u f d).snoops = d.snoops := rfl
@[simp] theorem Dev.modUnit_biWait (d : Dev) (u : MemUnit) (f : Unit → Unit) : (Dev.modUnit u f d).biWait = d.biWait := rfl
@[simp] theorem Dev.modUnit_touched (d : Dev) (u : MemUnit) (f : Unit → Unit) : (Dev.modUnit u f d).touched = d.touched := rfl
@[simp] theorem Dev.modUnit_latches (d : Dev) (u : MemUnit) (f : Unit → Unit) : (Dev.modUnit u f d).latches = d.latches := rfl
@[simp] theorem Dev.modUnit_held (d : Dev) (u : MemUnit) (f : Unit → Unit) : (Dev.modUnit u f d).held = d.held := rfl
@[simp] theorem Dev.modUnit_boot (d : Dev) (u : MemUnit) (f : Unit → Unit) : (Dev.modUnit u f d).boot = d.boot := rfl
@[simp] theorem Dev.modUnit_pins (d : Dev) (u : MemUnit) (f : Unit → Unit) : (Dev.modUnit u f d).pins = d.pins := rfl
@[simp] theorem Dev.modUnit_i3c (d : Dev) (u : MemUnit) (f : Unit → Unit) : (Dev.modUnit u f d).i3c = d.i3c := rfl
@[simp] theorem Dev.modUnit_crypto (d : Dev) (u : MemUnit) (f : Unit → Unit) : (Dev.modUnit u f d).crypto = d.crypto := rfl
@[simp] theorem Dev.modUnit_nextId (d : Dev) (u : MemUnit) (f : Unit → Unit) : (Dev.modUnit u f d).nextId = d.nextId := rfl
@[simp] theorem Dev.modUnit_free (d : Dev) (u : MemUnit) (f : Unit → Unit) : (Dev.modUnit u f d).free = d.free := rfl
@[simp] theorem Dev.modUnit_out (d : Dev) (u : MemUnit) (f : Unit → Unit) : (Dev.modUnit u f d).out = d.out := rfl

/-! ## `Dev.modPort` -/

@[simp] theorem Dev.modPort_lds (d : Dev) (n : Nat) (f : Port → Port) : (Dev.modPort n f d).lds = d.lds := rfl
@[simp] theorem Dev.modPort_dies (d : Dev) (n : Nat) (f : Port → Port) : (Dev.modPort n f d).dies = d.dies := rfl
@[simp] theorem Dev.modPort_pwr (d : Dev) (n : Nat) (f : Port → Port) : (Dev.modPort n f d).pwr = d.pwr := rfl
@[simp] theorem Dev.modPort_clusters (d : Dev) (n : Nat) (f : Port → Port) : (Dev.modPort n f d).clusters = d.clusters := rfl
@[simp] theorem Dev.modPort_launches (d : Dev) (n : Nat) (f : Port → Port) : (Dev.modPort n f d).launches = d.launches := rfl
@[simp] theorem Dev.modPort_mem (d : Dev) (n : Nat) (f : Port → Port) : (Dev.modPort n f d).mem = d.mem := rfl
@[simp] theorem Dev.modPort_poison (d : Dev) (n : Nat) (f : Port → Port) : (Dev.modPort n f d).poison = d.poison := rfl
@[simp] theorem Dev.modPort_upsets (d : Dev) (n : Nat) (f : Port → Port) : (Dev.modPort n f d).upsets = d.upsets := rfl
@[simp] theorem Dev.modPort_keySeeds (d : Dev) (n : Nat) (f : Port → Port) : (Dev.modPort n f d).keySeeds = d.keySeeds := rfl
@[simp] theorem Dev.modPort_lpKeys (d : Dev) (n : Nat) (f : Port → Port) : (Dev.modPort n f d).lpKeys = d.lpKeys := rfl
@[simp] theorem Dev.modPort_hostMem (d : Dev) (n : Nat) (f : Port → Port) : (Dev.modPort n f d).hostMem = d.hostMem := rfl
@[simp] theorem Dev.modPort_units (d : Dev) (n : Nat) (f : Port → Port) : (Dev.modPort n f d).units = d.units := rfl
@[simp] theorem Dev.modPort_memCtl (d : Dev) (n : Nat) (f : Port → Port) : (Dev.modPort n f d).memCtl = d.memCtl := rfl
@[simp] theorem Dev.modPort_stackRgn (d : Dev) (n : Nat) (f : Port → Port) : (Dev.modPort n f d).stackRgn = d.stackRgn := rfl
@[simp] theorem Dev.modPort_lpRgn (d : Dev) (n : Nat) (f : Port → Port) : (Dev.modPort n f d).lpRgn = d.lpRgn := rfl
@[simp] theorem Dev.modPort_kv (d : Dev) (n : Nat) (f : Port → Port) : (Dev.modPort n f d).kv = d.kv := rfl
@[simp] theorem Dev.modPort_kvJobs (d : Dev) (n : Nat) (f : Port → Port) : (Dev.modPort n f d).kvJobs = d.kvJobs := rfl
@[simp] theorem Dev.modPort_score (d : Dev) (n : Nat) (f : Port → Port) : (Dev.modPort n f d).score = d.score := rfl
@[simp] theorem Dev.modPort_promo (d : Dev) (n : Nat) (f : Port → Port) : (Dev.modPort n f d).promo = d.promo := rfl
@[simp] theorem Dev.modPort_sweepAt (d : Dev) (n : Nat) (f : Port → Port) : (Dev.modPort n f d).sweepAt = d.sweepAt := rfl
@[simp] theorem Dev.modPort_reqs (d : Dev) (n : Nat) (f : Port → Port) : (Dev.modPort n f d).reqs = d.reqs := rfl
@[simp] theorem Dev.modPort_adapters (d : Dev) (n : Nat) (f : Port → Port) : (Dev.modPort n f d).adapters = d.adapters := rfl
@[simp] theorem Dev.modPort_grafts (d : Dev) (n : Nat) (f : Port → Port) : (Dev.modPort n f d).grafts = d.grafts := rfl
@[simp] theorem Dev.modPort_net (d : Dev) (n : Nat) (f : Port → Port) : (Dev.modPort n f d).net = d.net := rfl
@[simp] theorem Dev.modPort_colls (d : Dev) (n : Nat) (f : Port → Port) : (Dev.modPort n f d).colls = d.colls := rfl
@[simp] theorem Dev.modPort_zeroing (d : Dev) (n : Nat) (f : Port → Port) : (Dev.modPort n f d).zeroing = d.zeroing := rfl
@[simp] theorem Dev.modPort_upds (d : Dev) (n : Nat) (f : Port → Port) : (Dev.modPort n f d).upds = d.upds := rfl
@[simp] theorem Dev.modPort_domains (d : Dev) (n : Nat) (f : Port → Port) : (Dev.modPort n f d).domains = d.domains := rfl
@[simp] theorem Dev.modPort_tags (d : Dev) (n : Nat) (f : Port → Port) : (Dev.modPort n f d).tags = d.tags := rfl
@[simp] theorem Dev.modPort_pageJobs (d : Dev) (n : Nat) (f : Port → Port) : (Dev.modPort n f d).pageJobs = d.pageJobs := rfl
@[simp] theorem Dev.modPort_imports (d : Dev) (n : Nat) (f : Port → Port) : (Dev.modPort n f d).imports = d.imports := rfl
@[simp] theorem Dev.modPort_snoops (d : Dev) (n : Nat) (f : Port → Port) : (Dev.modPort n f d).snoops = d.snoops := rfl
@[simp] theorem Dev.modPort_biWait (d : Dev) (n : Nat) (f : Port → Port) : (Dev.modPort n f d).biWait = d.biWait := rfl
@[simp] theorem Dev.modPort_touched (d : Dev) (n : Nat) (f : Port → Port) : (Dev.modPort n f d).touched = d.touched := rfl
@[simp] theorem Dev.modPort_latches (d : Dev) (n : Nat) (f : Port → Port) : (Dev.modPort n f d).latches = d.latches := rfl
@[simp] theorem Dev.modPort_held (d : Dev) (n : Nat) (f : Port → Port) : (Dev.modPort n f d).held = d.held := rfl
@[simp] theorem Dev.modPort_boot (d : Dev) (n : Nat) (f : Port → Port) : (Dev.modPort n f d).boot = d.boot := rfl
@[simp] theorem Dev.modPort_pins (d : Dev) (n : Nat) (f : Port → Port) : (Dev.modPort n f d).pins = d.pins := rfl
@[simp] theorem Dev.modPort_i3c (d : Dev) (n : Nat) (f : Port → Port) : (Dev.modPort n f d).i3c = d.i3c := rfl
@[simp] theorem Dev.modPort_crypto (d : Dev) (n : Nat) (f : Port → Port) : (Dev.modPort n f d).crypto = d.crypto := rfl
@[simp] theorem Dev.modPort_nextId (d : Dev) (n : Nat) (f : Port → Port) : (Dev.modPort n f d).nextId = d.nextId := rfl
@[simp] theorem Dev.modPort_free (d : Dev) (n : Nat) (f : Port → Port) : (Dev.modPort n f d).free = d.free := rfl
@[simp] theorem Dev.modPort_out (d : Dev) (n : Nat) (f : Port → Port) : (Dev.modPort n f d).out = d.out := rfl

/-! ## `Dev.modDom` -/

@[simp] theorem Dev.modDom_lds (d : Dev) (n : Nat) (f : Domain → Domain) : (Dev.modDom n f d).lds = d.lds := rfl
@[simp] theorem Dev.modDom_dies (d : Dev) (n : Nat) (f : Domain → Domain) : (Dev.modDom n f d).dies = d.dies := rfl
@[simp] theorem Dev.modDom_pwr (d : Dev) (n : Nat) (f : Domain → Domain) : (Dev.modDom n f d).pwr = d.pwr := rfl
@[simp] theorem Dev.modDom_clusters (d : Dev) (n : Nat) (f : Domain → Domain) : (Dev.modDom n f d).clusters = d.clusters := rfl
@[simp] theorem Dev.modDom_launches (d : Dev) (n : Nat) (f : Domain → Domain) : (Dev.modDom n f d).launches = d.launches := rfl
@[simp] theorem Dev.modDom_mem (d : Dev) (n : Nat) (f : Domain → Domain) : (Dev.modDom n f d).mem = d.mem := rfl
@[simp] theorem Dev.modDom_poison (d : Dev) (n : Nat) (f : Domain → Domain) : (Dev.modDom n f d).poison = d.poison := rfl
@[simp] theorem Dev.modDom_upsets (d : Dev) (n : Nat) (f : Domain → Domain) : (Dev.modDom n f d).upsets = d.upsets := rfl
@[simp] theorem Dev.modDom_keySeeds (d : Dev) (n : Nat) (f : Domain → Domain) : (Dev.modDom n f d).keySeeds = d.keySeeds := rfl
@[simp] theorem Dev.modDom_lpKeys (d : Dev) (n : Nat) (f : Domain → Domain) : (Dev.modDom n f d).lpKeys = d.lpKeys := rfl
@[simp] theorem Dev.modDom_hostMem (d : Dev) (n : Nat) (f : Domain → Domain) : (Dev.modDom n f d).hostMem = d.hostMem := rfl
@[simp] theorem Dev.modDom_units (d : Dev) (n : Nat) (f : Domain → Domain) : (Dev.modDom n f d).units = d.units := rfl
@[simp] theorem Dev.modDom_memCtl (d : Dev) (n : Nat) (f : Domain → Domain) : (Dev.modDom n f d).memCtl = d.memCtl := rfl
@[simp] theorem Dev.modDom_stackRgn (d : Dev) (n : Nat) (f : Domain → Domain) : (Dev.modDom n f d).stackRgn = d.stackRgn := rfl
@[simp] theorem Dev.modDom_lpRgn (d : Dev) (n : Nat) (f : Domain → Domain) : (Dev.modDom n f d).lpRgn = d.lpRgn := rfl
@[simp] theorem Dev.modDom_kv (d : Dev) (n : Nat) (f : Domain → Domain) : (Dev.modDom n f d).kv = d.kv := rfl
@[simp] theorem Dev.modDom_kvJobs (d : Dev) (n : Nat) (f : Domain → Domain) : (Dev.modDom n f d).kvJobs = d.kvJobs := rfl
@[simp] theorem Dev.modDom_score (d : Dev) (n : Nat) (f : Domain → Domain) : (Dev.modDom n f d).score = d.score := rfl
@[simp] theorem Dev.modDom_promo (d : Dev) (n : Nat) (f : Domain → Domain) : (Dev.modDom n f d).promo = d.promo := rfl
@[simp] theorem Dev.modDom_sweepAt (d : Dev) (n : Nat) (f : Domain → Domain) : (Dev.modDom n f d).sweepAt = d.sweepAt := rfl
@[simp] theorem Dev.modDom_reqs (d : Dev) (n : Nat) (f : Domain → Domain) : (Dev.modDom n f d).reqs = d.reqs := rfl
@[simp] theorem Dev.modDom_adapters (d : Dev) (n : Nat) (f : Domain → Domain) : (Dev.modDom n f d).adapters = d.adapters := rfl
@[simp] theorem Dev.modDom_ports (d : Dev) (n : Nat) (f : Domain → Domain) : (Dev.modDom n f d).ports = d.ports := rfl
@[simp] theorem Dev.modDom_grafts (d : Dev) (n : Nat) (f : Domain → Domain) : (Dev.modDom n f d).grafts = d.grafts := rfl
@[simp] theorem Dev.modDom_net (d : Dev) (n : Nat) (f : Domain → Domain) : (Dev.modDom n f d).net = d.net := rfl
@[simp] theorem Dev.modDom_colls (d : Dev) (n : Nat) (f : Domain → Domain) : (Dev.modDom n f d).colls = d.colls := rfl
@[simp] theorem Dev.modDom_zeroing (d : Dev) (n : Nat) (f : Domain → Domain) : (Dev.modDom n f d).zeroing = d.zeroing := rfl
@[simp] theorem Dev.modDom_upds (d : Dev) (n : Nat) (f : Domain → Domain) : (Dev.modDom n f d).upds = d.upds := rfl
@[simp] theorem Dev.modDom_tags (d : Dev) (n : Nat) (f : Domain → Domain) : (Dev.modDom n f d).tags = d.tags := rfl
@[simp] theorem Dev.modDom_pageJobs (d : Dev) (n : Nat) (f : Domain → Domain) : (Dev.modDom n f d).pageJobs = d.pageJobs := rfl
@[simp] theorem Dev.modDom_imports (d : Dev) (n : Nat) (f : Domain → Domain) : (Dev.modDom n f d).imports = d.imports := rfl
@[simp] theorem Dev.modDom_snoops (d : Dev) (n : Nat) (f : Domain → Domain) : (Dev.modDom n f d).snoops = d.snoops := rfl
@[simp] theorem Dev.modDom_biWait (d : Dev) (n : Nat) (f : Domain → Domain) : (Dev.modDom n f d).biWait = d.biWait := rfl
@[simp] theorem Dev.modDom_touched (d : Dev) (n : Nat) (f : Domain → Domain) : (Dev.modDom n f d).touched = d.touched := rfl
@[simp] theorem Dev.modDom_latches (d : Dev) (n : Nat) (f : Domain → Domain) : (Dev.modDom n f d).latches = d.latches := rfl
@[simp] theorem Dev.modDom_held (d : Dev) (n : Nat) (f : Domain → Domain) : (Dev.modDom n f d).held = d.held := rfl
@[simp] theorem Dev.modDom_boot (d : Dev) (n : Nat) (f : Domain → Domain) : (Dev.modDom n f d).boot = d.boot := rfl
@[simp] theorem Dev.modDom_pins (d : Dev) (n : Nat) (f : Domain → Domain) : (Dev.modDom n f d).pins = d.pins := rfl
@[simp] theorem Dev.modDom_i3c (d : Dev) (n : Nat) (f : Domain → Domain) : (Dev.modDom n f d).i3c = d.i3c := rfl
@[simp] theorem Dev.modDom_crypto (d : Dev) (n : Nat) (f : Domain → Domain) : (Dev.modDom n f d).crypto = d.crypto := rfl
@[simp] theorem Dev.modDom_nextId (d : Dev) (n : Nat) (f : Domain → Domain) : (Dev.modDom n f d).nextId = d.nextId := rfl
@[simp] theorem Dev.modDom_free (d : Dev) (n : Nat) (f : Domain → Domain) : (Dev.modDom n f d).free = d.free := rfl
@[simp] theorem Dev.modDom_out (d : Dev) (n : Nat) (f : Domain → Domain) : (Dev.modDom n f d).out = d.out := rfl

/-! ## `Dev.setTag` -/

@[simp] theorem Dev.setTag_lds (d : Dev) (n : Nat) (t : PageTag) : (Dev.setTag d n t).lds = d.lds := rfl
@[simp] theorem Dev.setTag_dies (d : Dev) (n : Nat) (t : PageTag) : (Dev.setTag d n t).dies = d.dies := rfl
@[simp] theorem Dev.setTag_pwr (d : Dev) (n : Nat) (t : PageTag) : (Dev.setTag d n t).pwr = d.pwr := rfl
@[simp] theorem Dev.setTag_clusters (d : Dev) (n : Nat) (t : PageTag) : (Dev.setTag d n t).clusters = d.clusters := rfl
@[simp] theorem Dev.setTag_launches (d : Dev) (n : Nat) (t : PageTag) : (Dev.setTag d n t).launches = d.launches := rfl
@[simp] theorem Dev.setTag_mem (d : Dev) (n : Nat) (t : PageTag) : (Dev.setTag d n t).mem = d.mem := rfl
@[simp] theorem Dev.setTag_poison (d : Dev) (n : Nat) (t : PageTag) : (Dev.setTag d n t).poison = d.poison := rfl
@[simp] theorem Dev.setTag_upsets (d : Dev) (n : Nat) (t : PageTag) : (Dev.setTag d n t).upsets = d.upsets := rfl
@[simp] theorem Dev.setTag_keySeeds (d : Dev) (n : Nat) (t : PageTag) : (Dev.setTag d n t).keySeeds = d.keySeeds := rfl
@[simp] theorem Dev.setTag_lpKeys (d : Dev) (n : Nat) (t : PageTag) : (Dev.setTag d n t).lpKeys = d.lpKeys := rfl
@[simp] theorem Dev.setTag_hostMem (d : Dev) (n : Nat) (t : PageTag) : (Dev.setTag d n t).hostMem = d.hostMem := rfl
@[simp] theorem Dev.setTag_units (d : Dev) (n : Nat) (t : PageTag) : (Dev.setTag d n t).units = d.units := rfl
@[simp] theorem Dev.setTag_memCtl (d : Dev) (n : Nat) (t : PageTag) : (Dev.setTag d n t).memCtl = d.memCtl := rfl
@[simp] theorem Dev.setTag_stackRgn (d : Dev) (n : Nat) (t : PageTag) : (Dev.setTag d n t).stackRgn = d.stackRgn := rfl
@[simp] theorem Dev.setTag_lpRgn (d : Dev) (n : Nat) (t : PageTag) : (Dev.setTag d n t).lpRgn = d.lpRgn := rfl
@[simp] theorem Dev.setTag_kv (d : Dev) (n : Nat) (t : PageTag) : (Dev.setTag d n t).kv = d.kv := rfl
@[simp] theorem Dev.setTag_kvJobs (d : Dev) (n : Nat) (t : PageTag) : (Dev.setTag d n t).kvJobs = d.kvJobs := rfl
@[simp] theorem Dev.setTag_score (d : Dev) (n : Nat) (t : PageTag) : (Dev.setTag d n t).score = d.score := rfl
@[simp] theorem Dev.setTag_promo (d : Dev) (n : Nat) (t : PageTag) : (Dev.setTag d n t).promo = d.promo := rfl
@[simp] theorem Dev.setTag_sweepAt (d : Dev) (n : Nat) (t : PageTag) : (Dev.setTag d n t).sweepAt = d.sweepAt := rfl
@[simp] theorem Dev.setTag_reqs (d : Dev) (n : Nat) (t : PageTag) : (Dev.setTag d n t).reqs = d.reqs := rfl
@[simp] theorem Dev.setTag_adapters (d : Dev) (n : Nat) (t : PageTag) : (Dev.setTag d n t).adapters = d.adapters := rfl
@[simp] theorem Dev.setTag_ports (d : Dev) (n : Nat) (t : PageTag) : (Dev.setTag d n t).ports = d.ports := rfl
@[simp] theorem Dev.setTag_grafts (d : Dev) (n : Nat) (t : PageTag) : (Dev.setTag d n t).grafts = d.grafts := rfl
@[simp] theorem Dev.setTag_net (d : Dev) (n : Nat) (t : PageTag) : (Dev.setTag d n t).net = d.net := rfl
@[simp] theorem Dev.setTag_colls (d : Dev) (n : Nat) (t : PageTag) : (Dev.setTag d n t).colls = d.colls := rfl
@[simp] theorem Dev.setTag_zeroing (d : Dev) (n : Nat) (t : PageTag) : (Dev.setTag d n t).zeroing = d.zeroing := rfl
@[simp] theorem Dev.setTag_upds (d : Dev) (n : Nat) (t : PageTag) : (Dev.setTag d n t).upds = d.upds := rfl
@[simp] theorem Dev.setTag_domains (d : Dev) (n : Nat) (t : PageTag) : (Dev.setTag d n t).domains = d.domains := rfl
@[simp] theorem Dev.setTag_pageJobs (d : Dev) (n : Nat) (t : PageTag) : (Dev.setTag d n t).pageJobs = d.pageJobs := rfl
@[simp] theorem Dev.setTag_imports (d : Dev) (n : Nat) (t : PageTag) : (Dev.setTag d n t).imports = d.imports := rfl
@[simp] theorem Dev.setTag_snoops (d : Dev) (n : Nat) (t : PageTag) : (Dev.setTag d n t).snoops = d.snoops := rfl
@[simp] theorem Dev.setTag_biWait (d : Dev) (n : Nat) (t : PageTag) : (Dev.setTag d n t).biWait = d.biWait := rfl
@[simp] theorem Dev.setTag_touched (d : Dev) (n : Nat) (t : PageTag) : (Dev.setTag d n t).touched = d.touched := rfl
@[simp] theorem Dev.setTag_latches (d : Dev) (n : Nat) (t : PageTag) : (Dev.setTag d n t).latches = d.latches := rfl
@[simp] theorem Dev.setTag_held (d : Dev) (n : Nat) (t : PageTag) : (Dev.setTag d n t).held = d.held := rfl
@[simp] theorem Dev.setTag_boot (d : Dev) (n : Nat) (t : PageTag) : (Dev.setTag d n t).boot = d.boot := rfl
@[simp] theorem Dev.setTag_pins (d : Dev) (n : Nat) (t : PageTag) : (Dev.setTag d n t).pins = d.pins := rfl
@[simp] theorem Dev.setTag_i3c (d : Dev) (n : Nat) (t : PageTag) : (Dev.setTag d n t).i3c = d.i3c := rfl
@[simp] theorem Dev.setTag_crypto (d : Dev) (n : Nat) (t : PageTag) : (Dev.setTag d n t).crypto = d.crypto := rfl
@[simp] theorem Dev.setTag_nextId (d : Dev) (n : Nat) (t : PageTag) : (Dev.setTag d n t).nextId = d.nextId := rfl
@[simp] theorem Dev.setTag_free (d : Dev) (n : Nat) (t : PageTag) : (Dev.setTag d n t).free = d.free := rfl
@[simp] theorem Dev.setTag_out (d : Dev) (n : Nat) (t : PageTag) : (Dev.setTag d n t).out = d.out := rfl

/-! ## `Dev.setKv` -/

@[simp] theorem Dev.setKv_lds (d : Dev) (h : Nat) (e : KvEntry) : (Dev.setKv d h e).lds = d.lds := rfl
@[simp] theorem Dev.setKv_dies (d : Dev) (h : Nat) (e : KvEntry) : (Dev.setKv d h e).dies = d.dies := rfl
@[simp] theorem Dev.setKv_pwr (d : Dev) (h : Nat) (e : KvEntry) : (Dev.setKv d h e).pwr = d.pwr := rfl
@[simp] theorem Dev.setKv_clusters (d : Dev) (h : Nat) (e : KvEntry) : (Dev.setKv d h e).clusters = d.clusters := rfl
@[simp] theorem Dev.setKv_launches (d : Dev) (h : Nat) (e : KvEntry) : (Dev.setKv d h e).launches = d.launches := rfl
@[simp] theorem Dev.setKv_mem (d : Dev) (h : Nat) (e : KvEntry) : (Dev.setKv d h e).mem = d.mem := rfl
@[simp] theorem Dev.setKv_poison (d : Dev) (h : Nat) (e : KvEntry) : (Dev.setKv d h e).poison = d.poison := rfl
@[simp] theorem Dev.setKv_upsets (d : Dev) (h : Nat) (e : KvEntry) : (Dev.setKv d h e).upsets = d.upsets := rfl
@[simp] theorem Dev.setKv_keySeeds (d : Dev) (h : Nat) (e : KvEntry) : (Dev.setKv d h e).keySeeds = d.keySeeds := rfl
@[simp] theorem Dev.setKv_lpKeys (d : Dev) (h : Nat) (e : KvEntry) : (Dev.setKv d h e).lpKeys = d.lpKeys := rfl
@[simp] theorem Dev.setKv_hostMem (d : Dev) (h : Nat) (e : KvEntry) : (Dev.setKv d h e).hostMem = d.hostMem := rfl
@[simp] theorem Dev.setKv_units (d : Dev) (h : Nat) (e : KvEntry) : (Dev.setKv d h e).units = d.units := rfl
@[simp] theorem Dev.setKv_memCtl (d : Dev) (h : Nat) (e : KvEntry) : (Dev.setKv d h e).memCtl = d.memCtl := rfl
@[simp] theorem Dev.setKv_stackRgn (d : Dev) (h : Nat) (e : KvEntry) : (Dev.setKv d h e).stackRgn = d.stackRgn := rfl
@[simp] theorem Dev.setKv_lpRgn (d : Dev) (h : Nat) (e : KvEntry) : (Dev.setKv d h e).lpRgn = d.lpRgn := rfl
@[simp] theorem Dev.setKv_kvJobs (d : Dev) (h : Nat) (e : KvEntry) : (Dev.setKv d h e).kvJobs = d.kvJobs := rfl
@[simp] theorem Dev.setKv_score (d : Dev) (h : Nat) (e : KvEntry) : (Dev.setKv d h e).score = d.score := rfl
@[simp] theorem Dev.setKv_promo (d : Dev) (h : Nat) (e : KvEntry) : (Dev.setKv d h e).promo = d.promo := rfl
@[simp] theorem Dev.setKv_sweepAt (d : Dev) (h : Nat) (e : KvEntry) : (Dev.setKv d h e).sweepAt = d.sweepAt := rfl
@[simp] theorem Dev.setKv_reqs (d : Dev) (h : Nat) (e : KvEntry) : (Dev.setKv d h e).reqs = d.reqs := rfl
@[simp] theorem Dev.setKv_adapters (d : Dev) (h : Nat) (e : KvEntry) : (Dev.setKv d h e).adapters = d.adapters := rfl
@[simp] theorem Dev.setKv_ports (d : Dev) (h : Nat) (e : KvEntry) : (Dev.setKv d h e).ports = d.ports := rfl
@[simp] theorem Dev.setKv_grafts (d : Dev) (h : Nat) (e : KvEntry) : (Dev.setKv d h e).grafts = d.grafts := rfl
@[simp] theorem Dev.setKv_net (d : Dev) (h : Nat) (e : KvEntry) : (Dev.setKv d h e).net = d.net := rfl
@[simp] theorem Dev.setKv_colls (d : Dev) (h : Nat) (e : KvEntry) : (Dev.setKv d h e).colls = d.colls := rfl
@[simp] theorem Dev.setKv_zeroing (d : Dev) (h : Nat) (e : KvEntry) : (Dev.setKv d h e).zeroing = d.zeroing := rfl
@[simp] theorem Dev.setKv_upds (d : Dev) (h : Nat) (e : KvEntry) : (Dev.setKv d h e).upds = d.upds := rfl
@[simp] theorem Dev.setKv_domains (d : Dev) (h : Nat) (e : KvEntry) : (Dev.setKv d h e).domains = d.domains := rfl
@[simp] theorem Dev.setKv_tags (d : Dev) (h : Nat) (e : KvEntry) : (Dev.setKv d h e).tags = d.tags := rfl
@[simp] theorem Dev.setKv_pageJobs (d : Dev) (h : Nat) (e : KvEntry) : (Dev.setKv d h e).pageJobs = d.pageJobs := rfl
@[simp] theorem Dev.setKv_imports (d : Dev) (h : Nat) (e : KvEntry) : (Dev.setKv d h e).imports = d.imports := rfl
@[simp] theorem Dev.setKv_snoops (d : Dev) (h : Nat) (e : KvEntry) : (Dev.setKv d h e).snoops = d.snoops := rfl
@[simp] theorem Dev.setKv_biWait (d : Dev) (h : Nat) (e : KvEntry) : (Dev.setKv d h e).biWait = d.biWait := rfl
@[simp] theorem Dev.setKv_touched (d : Dev) (h : Nat) (e : KvEntry) : (Dev.setKv d h e).touched = d.touched := rfl
@[simp] theorem Dev.setKv_latches (d : Dev) (h : Nat) (e : KvEntry) : (Dev.setKv d h e).latches = d.latches := rfl
@[simp] theorem Dev.setKv_held (d : Dev) (h : Nat) (e : KvEntry) : (Dev.setKv d h e).held = d.held := rfl
@[simp] theorem Dev.setKv_boot (d : Dev) (h : Nat) (e : KvEntry) : (Dev.setKv d h e).boot = d.boot := rfl
@[simp] theorem Dev.setKv_pins (d : Dev) (h : Nat) (e : KvEntry) : (Dev.setKv d h e).pins = d.pins := rfl
@[simp] theorem Dev.setKv_i3c (d : Dev) (h : Nat) (e : KvEntry) : (Dev.setKv d h e).i3c = d.i3c := rfl
@[simp] theorem Dev.setKv_crypto (d : Dev) (h : Nat) (e : KvEntry) : (Dev.setKv d h e).crypto = d.crypto := rfl
@[simp] theorem Dev.setKv_nextId (d : Dev) (h : Nat) (e : KvEntry) : (Dev.setKv d h e).nextId = d.nextId := rfl
@[simp] theorem Dev.setKv_free (d : Dev) (h : Nat) (e : KvEntry) : (Dev.setKv d h e).free = d.free := rfl
@[simp] theorem Dev.setKv_out (d : Dev) (h : Nat) (e : KvEntry) : (Dev.setKv d h e).out = d.out := rfl

/-! ## `Dev.modKv` -/

@[simp] theorem Dev.modKv_lds (d : Dev) (h : Nat) (f : KvEntry → KvEntry) : (Dev.modKv h f d).lds = d.lds := rfl
@[simp] theorem Dev.modKv_dies (d : Dev) (h : Nat) (f : KvEntry → KvEntry) : (Dev.modKv h f d).dies = d.dies := rfl
@[simp] theorem Dev.modKv_pwr (d : Dev) (h : Nat) (f : KvEntry → KvEntry) : (Dev.modKv h f d).pwr = d.pwr := rfl
@[simp] theorem Dev.modKv_clusters (d : Dev) (h : Nat) (f : KvEntry → KvEntry) : (Dev.modKv h f d).clusters = d.clusters := rfl
@[simp] theorem Dev.modKv_launches (d : Dev) (h : Nat) (f : KvEntry → KvEntry) : (Dev.modKv h f d).launches = d.launches := rfl
@[simp] theorem Dev.modKv_mem (d : Dev) (h : Nat) (f : KvEntry → KvEntry) : (Dev.modKv h f d).mem = d.mem := rfl
@[simp] theorem Dev.modKv_poison (d : Dev) (h : Nat) (f : KvEntry → KvEntry) : (Dev.modKv h f d).poison = d.poison := rfl
@[simp] theorem Dev.modKv_upsets (d : Dev) (h : Nat) (f : KvEntry → KvEntry) : (Dev.modKv h f d).upsets = d.upsets := rfl
@[simp] theorem Dev.modKv_keySeeds (d : Dev) (h : Nat) (f : KvEntry → KvEntry) : (Dev.modKv h f d).keySeeds = d.keySeeds := rfl
@[simp] theorem Dev.modKv_lpKeys (d : Dev) (h : Nat) (f : KvEntry → KvEntry) : (Dev.modKv h f d).lpKeys = d.lpKeys := rfl
@[simp] theorem Dev.modKv_hostMem (d : Dev) (h : Nat) (f : KvEntry → KvEntry) : (Dev.modKv h f d).hostMem = d.hostMem := rfl
@[simp] theorem Dev.modKv_units (d : Dev) (h : Nat) (f : KvEntry → KvEntry) : (Dev.modKv h f d).units = d.units := rfl
@[simp] theorem Dev.modKv_memCtl (d : Dev) (h : Nat) (f : KvEntry → KvEntry) : (Dev.modKv h f d).memCtl = d.memCtl := rfl
@[simp] theorem Dev.modKv_stackRgn (d : Dev) (h : Nat) (f : KvEntry → KvEntry) : (Dev.modKv h f d).stackRgn = d.stackRgn := rfl
@[simp] theorem Dev.modKv_lpRgn (d : Dev) (h : Nat) (f : KvEntry → KvEntry) : (Dev.modKv h f d).lpRgn = d.lpRgn := rfl
@[simp] theorem Dev.modKv_kvJobs (d : Dev) (h : Nat) (f : KvEntry → KvEntry) : (Dev.modKv h f d).kvJobs = d.kvJobs := rfl
@[simp] theorem Dev.modKv_score (d : Dev) (h : Nat) (f : KvEntry → KvEntry) : (Dev.modKv h f d).score = d.score := rfl
@[simp] theorem Dev.modKv_promo (d : Dev) (h : Nat) (f : KvEntry → KvEntry) : (Dev.modKv h f d).promo = d.promo := rfl
@[simp] theorem Dev.modKv_sweepAt (d : Dev) (h : Nat) (f : KvEntry → KvEntry) : (Dev.modKv h f d).sweepAt = d.sweepAt := rfl
@[simp] theorem Dev.modKv_reqs (d : Dev) (h : Nat) (f : KvEntry → KvEntry) : (Dev.modKv h f d).reqs = d.reqs := rfl
@[simp] theorem Dev.modKv_adapters (d : Dev) (h : Nat) (f : KvEntry → KvEntry) : (Dev.modKv h f d).adapters = d.adapters := rfl
@[simp] theorem Dev.modKv_ports (d : Dev) (h : Nat) (f : KvEntry → KvEntry) : (Dev.modKv h f d).ports = d.ports := rfl
@[simp] theorem Dev.modKv_grafts (d : Dev) (h : Nat) (f : KvEntry → KvEntry) : (Dev.modKv h f d).grafts = d.grafts := rfl
@[simp] theorem Dev.modKv_net (d : Dev) (h : Nat) (f : KvEntry → KvEntry) : (Dev.modKv h f d).net = d.net := rfl
@[simp] theorem Dev.modKv_colls (d : Dev) (h : Nat) (f : KvEntry → KvEntry) : (Dev.modKv h f d).colls = d.colls := rfl
@[simp] theorem Dev.modKv_zeroing (d : Dev) (h : Nat) (f : KvEntry → KvEntry) : (Dev.modKv h f d).zeroing = d.zeroing := rfl
@[simp] theorem Dev.modKv_upds (d : Dev) (h : Nat) (f : KvEntry → KvEntry) : (Dev.modKv h f d).upds = d.upds := rfl
@[simp] theorem Dev.modKv_domains (d : Dev) (h : Nat) (f : KvEntry → KvEntry) : (Dev.modKv h f d).domains = d.domains := rfl
@[simp] theorem Dev.modKv_tags (d : Dev) (h : Nat) (f : KvEntry → KvEntry) : (Dev.modKv h f d).tags = d.tags := rfl
@[simp] theorem Dev.modKv_pageJobs (d : Dev) (h : Nat) (f : KvEntry → KvEntry) : (Dev.modKv h f d).pageJobs = d.pageJobs := rfl
@[simp] theorem Dev.modKv_imports (d : Dev) (h : Nat) (f : KvEntry → KvEntry) : (Dev.modKv h f d).imports = d.imports := rfl
@[simp] theorem Dev.modKv_snoops (d : Dev) (h : Nat) (f : KvEntry → KvEntry) : (Dev.modKv h f d).snoops = d.snoops := rfl
@[simp] theorem Dev.modKv_biWait (d : Dev) (h : Nat) (f : KvEntry → KvEntry) : (Dev.modKv h f d).biWait = d.biWait := rfl
@[simp] theorem Dev.modKv_touched (d : Dev) (h : Nat) (f : KvEntry → KvEntry) : (Dev.modKv h f d).touched = d.touched := rfl
@[simp] theorem Dev.modKv_latches (d : Dev) (h : Nat) (f : KvEntry → KvEntry) : (Dev.modKv h f d).latches = d.latches := rfl
@[simp] theorem Dev.modKv_held (d : Dev) (h : Nat) (f : KvEntry → KvEntry) : (Dev.modKv h f d).held = d.held := rfl
@[simp] theorem Dev.modKv_boot (d : Dev) (h : Nat) (f : KvEntry → KvEntry) : (Dev.modKv h f d).boot = d.boot := rfl
@[simp] theorem Dev.modKv_pins (d : Dev) (h : Nat) (f : KvEntry → KvEntry) : (Dev.modKv h f d).pins = d.pins := rfl
@[simp] theorem Dev.modKv_i3c (d : Dev) (h : Nat) (f : KvEntry → KvEntry) : (Dev.modKv h f d).i3c = d.i3c := rfl
@[simp] theorem Dev.modKv_crypto (d : Dev) (h : Nat) (f : KvEntry → KvEntry) : (Dev.modKv h f d).crypto = d.crypto := rfl
@[simp] theorem Dev.modKv_nextId (d : Dev) (h : Nat) (f : KvEntry → KvEntry) : (Dev.modKv h f d).nextId = d.nextId := rfl
@[simp] theorem Dev.modKv_free (d : Dev) (h : Nat) (f : KvEntry → KvEntry) : (Dev.modKv h f d).free = d.free := rfl
@[simp] theorem Dev.modKv_out (d : Dev) (h : Nat) (f : KvEntry → KvEntry) : (Dev.modKv h f d).out = d.out := rfl

/-! ## `Dev.modReq` -/

@[simp] theorem Dev.modReq_lds (d : Dev) (n : Nat) (f : ReqSlot → ReqSlot) : (Dev.modReq n f d).lds = d.lds := rfl
@[simp] theorem Dev.modReq_dies (d : Dev) (n : Nat) (f : ReqSlot → ReqSlot) : (Dev.modReq n f d).dies = d.dies := rfl
@[simp] theorem Dev.modReq_pwr (d : Dev) (n : Nat) (f : ReqSlot → ReqSlot) : (Dev.modReq n f d).pwr = d.pwr := rfl
@[simp] theorem Dev.modReq_clusters (d : Dev) (n : Nat) (f : ReqSlot → ReqSlot) : (Dev.modReq n f d).clusters = d.clusters := rfl
@[simp] theorem Dev.modReq_launches (d : Dev) (n : Nat) (f : ReqSlot → ReqSlot) : (Dev.modReq n f d).launches = d.launches := rfl
@[simp] theorem Dev.modReq_mem (d : Dev) (n : Nat) (f : ReqSlot → ReqSlot) : (Dev.modReq n f d).mem = d.mem := rfl
@[simp] theorem Dev.modReq_poison (d : Dev) (n : Nat) (f : ReqSlot → ReqSlot) : (Dev.modReq n f d).poison = d.poison := rfl
@[simp] theorem Dev.modReq_upsets (d : Dev) (n : Nat) (f : ReqSlot → ReqSlot) : (Dev.modReq n f d).upsets = d.upsets := rfl
@[simp] theorem Dev.modReq_keySeeds (d : Dev) (n : Nat) (f : ReqSlot → ReqSlot) : (Dev.modReq n f d).keySeeds = d.keySeeds := rfl
@[simp] theorem Dev.modReq_lpKeys (d : Dev) (n : Nat) (f : ReqSlot → ReqSlot) : (Dev.modReq n f d).lpKeys = d.lpKeys := rfl
@[simp] theorem Dev.modReq_hostMem (d : Dev) (n : Nat) (f : ReqSlot → ReqSlot) : (Dev.modReq n f d).hostMem = d.hostMem := rfl
@[simp] theorem Dev.modReq_units (d : Dev) (n : Nat) (f : ReqSlot → ReqSlot) : (Dev.modReq n f d).units = d.units := rfl
@[simp] theorem Dev.modReq_memCtl (d : Dev) (n : Nat) (f : ReqSlot → ReqSlot) : (Dev.modReq n f d).memCtl = d.memCtl := rfl
@[simp] theorem Dev.modReq_stackRgn (d : Dev) (n : Nat) (f : ReqSlot → ReqSlot) : (Dev.modReq n f d).stackRgn = d.stackRgn := rfl
@[simp] theorem Dev.modReq_lpRgn (d : Dev) (n : Nat) (f : ReqSlot → ReqSlot) : (Dev.modReq n f d).lpRgn = d.lpRgn := rfl
@[simp] theorem Dev.modReq_kv (d : Dev) (n : Nat) (f : ReqSlot → ReqSlot) : (Dev.modReq n f d).kv = d.kv := rfl
@[simp] theorem Dev.modReq_kvJobs (d : Dev) (n : Nat) (f : ReqSlot → ReqSlot) : (Dev.modReq n f d).kvJobs = d.kvJobs := rfl
@[simp] theorem Dev.modReq_score (d : Dev) (n : Nat) (f : ReqSlot → ReqSlot) : (Dev.modReq n f d).score = d.score := rfl
@[simp] theorem Dev.modReq_promo (d : Dev) (n : Nat) (f : ReqSlot → ReqSlot) : (Dev.modReq n f d).promo = d.promo := rfl
@[simp] theorem Dev.modReq_sweepAt (d : Dev) (n : Nat) (f : ReqSlot → ReqSlot) : (Dev.modReq n f d).sweepAt = d.sweepAt := rfl
@[simp] theorem Dev.modReq_adapters (d : Dev) (n : Nat) (f : ReqSlot → ReqSlot) : (Dev.modReq n f d).adapters = d.adapters := rfl
@[simp] theorem Dev.modReq_ports (d : Dev) (n : Nat) (f : ReqSlot → ReqSlot) : (Dev.modReq n f d).ports = d.ports := rfl
@[simp] theorem Dev.modReq_grafts (d : Dev) (n : Nat) (f : ReqSlot → ReqSlot) : (Dev.modReq n f d).grafts = d.grafts := rfl
@[simp] theorem Dev.modReq_net (d : Dev) (n : Nat) (f : ReqSlot → ReqSlot) : (Dev.modReq n f d).net = d.net := rfl
@[simp] theorem Dev.modReq_colls (d : Dev) (n : Nat) (f : ReqSlot → ReqSlot) : (Dev.modReq n f d).colls = d.colls := rfl
@[simp] theorem Dev.modReq_zeroing (d : Dev) (n : Nat) (f : ReqSlot → ReqSlot) : (Dev.modReq n f d).zeroing = d.zeroing := rfl
@[simp] theorem Dev.modReq_upds (d : Dev) (n : Nat) (f : ReqSlot → ReqSlot) : (Dev.modReq n f d).upds = d.upds := rfl
@[simp] theorem Dev.modReq_domains (d : Dev) (n : Nat) (f : ReqSlot → ReqSlot) : (Dev.modReq n f d).domains = d.domains := rfl
@[simp] theorem Dev.modReq_tags (d : Dev) (n : Nat) (f : ReqSlot → ReqSlot) : (Dev.modReq n f d).tags = d.tags := rfl
@[simp] theorem Dev.modReq_pageJobs (d : Dev) (n : Nat) (f : ReqSlot → ReqSlot) : (Dev.modReq n f d).pageJobs = d.pageJobs := rfl
@[simp] theorem Dev.modReq_imports (d : Dev) (n : Nat) (f : ReqSlot → ReqSlot) : (Dev.modReq n f d).imports = d.imports := rfl
@[simp] theorem Dev.modReq_snoops (d : Dev) (n : Nat) (f : ReqSlot → ReqSlot) : (Dev.modReq n f d).snoops = d.snoops := rfl
@[simp] theorem Dev.modReq_biWait (d : Dev) (n : Nat) (f : ReqSlot → ReqSlot) : (Dev.modReq n f d).biWait = d.biWait := rfl
@[simp] theorem Dev.modReq_touched (d : Dev) (n : Nat) (f : ReqSlot → ReqSlot) : (Dev.modReq n f d).touched = d.touched := rfl
@[simp] theorem Dev.modReq_latches (d : Dev) (n : Nat) (f : ReqSlot → ReqSlot) : (Dev.modReq n f d).latches = d.latches := rfl
@[simp] theorem Dev.modReq_held (d : Dev) (n : Nat) (f : ReqSlot → ReqSlot) : (Dev.modReq n f d).held = d.held := rfl
@[simp] theorem Dev.modReq_boot (d : Dev) (n : Nat) (f : ReqSlot → ReqSlot) : (Dev.modReq n f d).boot = d.boot := rfl
@[simp] theorem Dev.modReq_pins (d : Dev) (n : Nat) (f : ReqSlot → ReqSlot) : (Dev.modReq n f d).pins = d.pins := rfl
@[simp] theorem Dev.modReq_i3c (d : Dev) (n : Nat) (f : ReqSlot → ReqSlot) : (Dev.modReq n f d).i3c = d.i3c := rfl
@[simp] theorem Dev.modReq_crypto (d : Dev) (n : Nat) (f : ReqSlot → ReqSlot) : (Dev.modReq n f d).crypto = d.crypto := rfl
@[simp] theorem Dev.modReq_nextId (d : Dev) (n : Nat) (f : ReqSlot → ReqSlot) : (Dev.modReq n f d).nextId = d.nextId := rfl
@[simp] theorem Dev.modReq_free (d : Dev) (n : Nat) (f : ReqSlot → ReqSlot) : (Dev.modReq n f d).free = d.free := rfl
@[simp] theorem Dev.modReq_out (d : Dev) (n : Nat) (f : ReqSlot → ReqSlot) : (Dev.modReq n f d).out = d.out := rfl

/-! ## `Dev.modAdp` -/

@[simp] theorem Dev.modAdp_lds (d : Dev) (n : Nat) (f : Adapter → Adapter) : (Dev.modAdp n f d).lds = d.lds := rfl
@[simp] theorem Dev.modAdp_dies (d : Dev) (n : Nat) (f : Adapter → Adapter) : (Dev.modAdp n f d).dies = d.dies := rfl
@[simp] theorem Dev.modAdp_pwr (d : Dev) (n : Nat) (f : Adapter → Adapter) : (Dev.modAdp n f d).pwr = d.pwr := rfl
@[simp] theorem Dev.modAdp_clusters (d : Dev) (n : Nat) (f : Adapter → Adapter) : (Dev.modAdp n f d).clusters = d.clusters := rfl
@[simp] theorem Dev.modAdp_launches (d : Dev) (n : Nat) (f : Adapter → Adapter) : (Dev.modAdp n f d).launches = d.launches := rfl
@[simp] theorem Dev.modAdp_mem (d : Dev) (n : Nat) (f : Adapter → Adapter) : (Dev.modAdp n f d).mem = d.mem := rfl
@[simp] theorem Dev.modAdp_poison (d : Dev) (n : Nat) (f : Adapter → Adapter) : (Dev.modAdp n f d).poison = d.poison := rfl
@[simp] theorem Dev.modAdp_upsets (d : Dev) (n : Nat) (f : Adapter → Adapter) : (Dev.modAdp n f d).upsets = d.upsets := rfl
@[simp] theorem Dev.modAdp_keySeeds (d : Dev) (n : Nat) (f : Adapter → Adapter) : (Dev.modAdp n f d).keySeeds = d.keySeeds := rfl
@[simp] theorem Dev.modAdp_lpKeys (d : Dev) (n : Nat) (f : Adapter → Adapter) : (Dev.modAdp n f d).lpKeys = d.lpKeys := rfl
@[simp] theorem Dev.modAdp_hostMem (d : Dev) (n : Nat) (f : Adapter → Adapter) : (Dev.modAdp n f d).hostMem = d.hostMem := rfl
@[simp] theorem Dev.modAdp_units (d : Dev) (n : Nat) (f : Adapter → Adapter) : (Dev.modAdp n f d).units = d.units := rfl
@[simp] theorem Dev.modAdp_memCtl (d : Dev) (n : Nat) (f : Adapter → Adapter) : (Dev.modAdp n f d).memCtl = d.memCtl := rfl
@[simp] theorem Dev.modAdp_stackRgn (d : Dev) (n : Nat) (f : Adapter → Adapter) : (Dev.modAdp n f d).stackRgn = d.stackRgn := rfl
@[simp] theorem Dev.modAdp_lpRgn (d : Dev) (n : Nat) (f : Adapter → Adapter) : (Dev.modAdp n f d).lpRgn = d.lpRgn := rfl
@[simp] theorem Dev.modAdp_kv (d : Dev) (n : Nat) (f : Adapter → Adapter) : (Dev.modAdp n f d).kv = d.kv := rfl
@[simp] theorem Dev.modAdp_kvJobs (d : Dev) (n : Nat) (f : Adapter → Adapter) : (Dev.modAdp n f d).kvJobs = d.kvJobs := rfl
@[simp] theorem Dev.modAdp_score (d : Dev) (n : Nat) (f : Adapter → Adapter) : (Dev.modAdp n f d).score = d.score := rfl
@[simp] theorem Dev.modAdp_promo (d : Dev) (n : Nat) (f : Adapter → Adapter) : (Dev.modAdp n f d).promo = d.promo := rfl
@[simp] theorem Dev.modAdp_sweepAt (d : Dev) (n : Nat) (f : Adapter → Adapter) : (Dev.modAdp n f d).sweepAt = d.sweepAt := rfl
@[simp] theorem Dev.modAdp_reqs (d : Dev) (n : Nat) (f : Adapter → Adapter) : (Dev.modAdp n f d).reqs = d.reqs := rfl
@[simp] theorem Dev.modAdp_ports (d : Dev) (n : Nat) (f : Adapter → Adapter) : (Dev.modAdp n f d).ports = d.ports := rfl
@[simp] theorem Dev.modAdp_grafts (d : Dev) (n : Nat) (f : Adapter → Adapter) : (Dev.modAdp n f d).grafts = d.grafts := rfl
@[simp] theorem Dev.modAdp_net (d : Dev) (n : Nat) (f : Adapter → Adapter) : (Dev.modAdp n f d).net = d.net := rfl
@[simp] theorem Dev.modAdp_colls (d : Dev) (n : Nat) (f : Adapter → Adapter) : (Dev.modAdp n f d).colls = d.colls := rfl
@[simp] theorem Dev.modAdp_zeroing (d : Dev) (n : Nat) (f : Adapter → Adapter) : (Dev.modAdp n f d).zeroing = d.zeroing := rfl
@[simp] theorem Dev.modAdp_upds (d : Dev) (n : Nat) (f : Adapter → Adapter) : (Dev.modAdp n f d).upds = d.upds := rfl
@[simp] theorem Dev.modAdp_domains (d : Dev) (n : Nat) (f : Adapter → Adapter) : (Dev.modAdp n f d).domains = d.domains := rfl
@[simp] theorem Dev.modAdp_tags (d : Dev) (n : Nat) (f : Adapter → Adapter) : (Dev.modAdp n f d).tags = d.tags := rfl
@[simp] theorem Dev.modAdp_pageJobs (d : Dev) (n : Nat) (f : Adapter → Adapter) : (Dev.modAdp n f d).pageJobs = d.pageJobs := rfl
@[simp] theorem Dev.modAdp_imports (d : Dev) (n : Nat) (f : Adapter → Adapter) : (Dev.modAdp n f d).imports = d.imports := rfl
@[simp] theorem Dev.modAdp_snoops (d : Dev) (n : Nat) (f : Adapter → Adapter) : (Dev.modAdp n f d).snoops = d.snoops := rfl
@[simp] theorem Dev.modAdp_biWait (d : Dev) (n : Nat) (f : Adapter → Adapter) : (Dev.modAdp n f d).biWait = d.biWait := rfl
@[simp] theorem Dev.modAdp_touched (d : Dev) (n : Nat) (f : Adapter → Adapter) : (Dev.modAdp n f d).touched = d.touched := rfl
@[simp] theorem Dev.modAdp_latches (d : Dev) (n : Nat) (f : Adapter → Adapter) : (Dev.modAdp n f d).latches = d.latches := rfl
@[simp] theorem Dev.modAdp_held (d : Dev) (n : Nat) (f : Adapter → Adapter) : (Dev.modAdp n f d).held = d.held := rfl
@[simp] theorem Dev.modAdp_boot (d : Dev) (n : Nat) (f : Adapter → Adapter) : (Dev.modAdp n f d).boot = d.boot := rfl
@[simp] theorem Dev.modAdp_pins (d : Dev) (n : Nat) (f : Adapter → Adapter) : (Dev.modAdp n f d).pins = d.pins := rfl
@[simp] theorem Dev.modAdp_i3c (d : Dev) (n : Nat) (f : Adapter → Adapter) : (Dev.modAdp n f d).i3c = d.i3c := rfl
@[simp] theorem Dev.modAdp_crypto (d : Dev) (n : Nat) (f : Adapter → Adapter) : (Dev.modAdp n f d).crypto = d.crypto := rfl
@[simp] theorem Dev.modAdp_nextId (d : Dev) (n : Nat) (f : Adapter → Adapter) : (Dev.modAdp n f d).nextId = d.nextId := rfl
@[simp] theorem Dev.modAdp_free (d : Dev) (n : Nat) (f : Adapter → Adapter) : (Dev.modAdp n f d).free = d.free := rfl
@[simp] theorem Dev.modAdp_out (d : Dev) (n : Nat) (f : Adapter → Adapter) : (Dev.modAdp n f d).out = d.out := rfl

/-! ## `Dev.emit` -/

@[simp] theorem Dev.emit_lds (d : Dev) (o : Output) : (Dev.emit o d).lds = d.lds := rfl
@[simp] theorem Dev.emit_dies (d : Dev) (o : Output) : (Dev.emit o d).dies = d.dies := rfl
@[simp] theorem Dev.emit_pwr (d : Dev) (o : Output) : (Dev.emit o d).pwr = d.pwr := rfl
@[simp] theorem Dev.emit_clusters (d : Dev) (o : Output) : (Dev.emit o d).clusters = d.clusters := rfl
@[simp] theorem Dev.emit_launches (d : Dev) (o : Output) : (Dev.emit o d).launches = d.launches := rfl
@[simp] theorem Dev.emit_mem (d : Dev) (o : Output) : (Dev.emit o d).mem = d.mem := rfl
@[simp] theorem Dev.emit_poison (d : Dev) (o : Output) : (Dev.emit o d).poison = d.poison := rfl
@[simp] theorem Dev.emit_upsets (d : Dev) (o : Output) : (Dev.emit o d).upsets = d.upsets := rfl
@[simp] theorem Dev.emit_keySeeds (d : Dev) (o : Output) : (Dev.emit o d).keySeeds = d.keySeeds := rfl
@[simp] theorem Dev.emit_lpKeys (d : Dev) (o : Output) : (Dev.emit o d).lpKeys = d.lpKeys := rfl
@[simp] theorem Dev.emit_hostMem (d : Dev) (o : Output) : (Dev.emit o d).hostMem = d.hostMem := rfl
@[simp] theorem Dev.emit_units (d : Dev) (o : Output) : (Dev.emit o d).units = d.units := rfl
@[simp] theorem Dev.emit_memCtl (d : Dev) (o : Output) : (Dev.emit o d).memCtl = d.memCtl := rfl
@[simp] theorem Dev.emit_stackRgn (d : Dev) (o : Output) : (Dev.emit o d).stackRgn = d.stackRgn := rfl
@[simp] theorem Dev.emit_lpRgn (d : Dev) (o : Output) : (Dev.emit o d).lpRgn = d.lpRgn := rfl
@[simp] theorem Dev.emit_kv (d : Dev) (o : Output) : (Dev.emit o d).kv = d.kv := rfl
@[simp] theorem Dev.emit_kvJobs (d : Dev) (o : Output) : (Dev.emit o d).kvJobs = d.kvJobs := rfl
@[simp] theorem Dev.emit_score (d : Dev) (o : Output) : (Dev.emit o d).score = d.score := rfl
@[simp] theorem Dev.emit_promo (d : Dev) (o : Output) : (Dev.emit o d).promo = d.promo := rfl
@[simp] theorem Dev.emit_sweepAt (d : Dev) (o : Output) : (Dev.emit o d).sweepAt = d.sweepAt := rfl
@[simp] theorem Dev.emit_reqs (d : Dev) (o : Output) : (Dev.emit o d).reqs = d.reqs := rfl
@[simp] theorem Dev.emit_adapters (d : Dev) (o : Output) : (Dev.emit o d).adapters = d.adapters := rfl
@[simp] theorem Dev.emit_ports (d : Dev) (o : Output) : (Dev.emit o d).ports = d.ports := rfl
@[simp] theorem Dev.emit_grafts (d : Dev) (o : Output) : (Dev.emit o d).grafts = d.grafts := rfl
@[simp] theorem Dev.emit_net (d : Dev) (o : Output) : (Dev.emit o d).net = d.net := rfl
@[simp] theorem Dev.emit_colls (d : Dev) (o : Output) : (Dev.emit o d).colls = d.colls := rfl
@[simp] theorem Dev.emit_zeroing (d : Dev) (o : Output) : (Dev.emit o d).zeroing = d.zeroing := rfl
@[simp] theorem Dev.emit_upds (d : Dev) (o : Output) : (Dev.emit o d).upds = d.upds := rfl
@[simp] theorem Dev.emit_domains (d : Dev) (o : Output) : (Dev.emit o d).domains = d.domains := rfl
@[simp] theorem Dev.emit_tags (d : Dev) (o : Output) : (Dev.emit o d).tags = d.tags := rfl
@[simp] theorem Dev.emit_pageJobs (d : Dev) (o : Output) : (Dev.emit o d).pageJobs = d.pageJobs := rfl
@[simp] theorem Dev.emit_imports (d : Dev) (o : Output) : (Dev.emit o d).imports = d.imports := rfl
@[simp] theorem Dev.emit_snoops (d : Dev) (o : Output) : (Dev.emit o d).snoops = d.snoops := rfl
@[simp] theorem Dev.emit_biWait (d : Dev) (o : Output) : (Dev.emit o d).biWait = d.biWait := rfl
@[simp] theorem Dev.emit_touched (d : Dev) (o : Output) : (Dev.emit o d).touched = d.touched := rfl
@[simp] theorem Dev.emit_latches (d : Dev) (o : Output) : (Dev.emit o d).latches = d.latches := rfl
@[simp] theorem Dev.emit_held (d : Dev) (o : Output) : (Dev.emit o d).held = d.held := rfl
@[simp] theorem Dev.emit_boot (d : Dev) (o : Output) : (Dev.emit o d).boot = d.boot := rfl
@[simp] theorem Dev.emit_pins (d : Dev) (o : Output) : (Dev.emit o d).pins = d.pins := rfl
@[simp] theorem Dev.emit_i3c (d : Dev) (o : Output) : (Dev.emit o d).i3c = d.i3c := rfl
@[simp] theorem Dev.emit_crypto (d : Dev) (o : Output) : (Dev.emit o d).crypto = d.crypto := rfl
@[simp] theorem Dev.emit_nextId (d : Dev) (o : Output) : (Dev.emit o d).nextId = d.nextId := rfl
@[simp] theorem Dev.emit_free (d : Dev) (o : Output) : (Dev.emit o d).free = d.free := rfl

end Sys2Proof.Machine
end

