-- ==== Sys2Proof/Laws/Tables.lean ====
section
/-! SUPPORT. Reading a sparse table after setting an entry, and the accessors of the device's tables after each of
their updates. -/

namespace Sys2Proof.Machine

/-! ## Sparse tables -/

theorem Map.find_set_same {α : Type} (m : Map α) (n : Nat) (a : α) : Map.find (Map.set m n a) n = some a := by
  induction m with
  | nil => simp [Map.set, Map.find]
  | cons e t ih =>
    obtain ⟨k, b⟩ := e
    simp only [Map.set]
    split
    · simp [Map.find]
    · split
      · rename_i h; simp [Map.find, h]
      · rename_i h; rw [Map.find, if_neg (Ne.symm h), ih]

theorem Map.find_set_other {α : Type} (m : Map α) {n k : Nat} (a : α) (h : k ≠ n) :
    Map.find (Map.set m n a) k = Map.find m k := by
  induction m with
  | nil => simp [Map.set, Map.find, Ne.symm h]
  | cons e t ih =>
    obtain ⟨j, b⟩ := e
    simp only [Map.set]
    split
    · simp [Map.find, Ne.symm h]
    · split
      · rename_i h2; simp [Map.find, ← h2, Ne.symm h]
      · simp only [Map.find, ih]

theorem Map.find_mem {α : Type} {m : Map α} {n : Nat} {a : α} (h : Map.find m n = some a) : (n, a) ∈ m := by
  induction m with
  | nil => simp [Map.find] at h
  | cons x t ih =>
    unfold Map.find at h
    split at h
    · rename_i hk
      obtain ⟨rfl, rfl⟩ := And.intro hk (Option.some.inj h)
      exact List.mem_cons_self
    · exact List.mem_cons_of_mem _ (ih h)

@[simp] theorem Map.get_set_same {α : Type} (m : Map α) (n : Nat) (a d : α) : Map.get (Map.set m n a) n d = a := by
  simp [Map.get, Map.find_set_same]

@[simp] theorem Map.get_set_other {α : Type} (m : Map α) {n k : Nat} (a d : α) (h : k ≠ n) :
    Map.get (Map.set m n a) k d = Map.get m k d := by
  simp [Map.get, Map.find_set_other m a h]

theorem Map.get_set {α : Type} (m : Map α) (n k : Nat) (a d : α) :
    Map.get (Map.set m n a) k d = if k = n then a else Map.get m k d := by
  split
  · next h => subst h; simp
  · next h => simp [h]

/-! ## Accessors after updates -/

@[simp] theorem Dev.ld_setLd_same (d : Dev) (n : Nat) (x : Ld) : (d.setLd n x).ld n = x := by
  simp [Dev.ld, Dev.setLd]

@[simp] theorem Dev.ld_setLd_other (d : Dev) {n k : Nat} (x : Ld) (h : k ≠ n) :
    (d.setLd n x).ld k = d.ld k := by
  simp [Dev.ld, Dev.setLd, h]

@[simp] theorem Dev.ld_modLd_same (d : Dev) (n : Nat) (f : Ld → Ld) :
    (Dev.modLd n f d).ld n = f (d.ld n) := by
  simp [Dev.ld, Dev.modLd, Dev.setLd]

@[simp] theorem Dev.ld_modLd_other (d : Dev) {n k : Nat} (f : Ld → Ld) (h : k ≠ n) :
    (Dev.modLd n f d).ld k = d.ld k := by
  simp [Dev.ld, Dev.modLd, Dev.setLd, h]

@[simp] theorem Dev.clu_setClu_same (d : Dev) (n : Nat) (x : Cluster) : (d.setClu n x).clu n = x := by
  simp [Dev.clu, Dev.setClu]

@[simp] theorem Dev.clu_setClu_other (d : Dev) {n k : Nat} (x : Cluster) (h : k ≠ n) :
    (d.setClu n x).clu k = d.clu k := by
  simp [Dev.clu, Dev.setClu, h]

@[simp] theorem Dev.clu_modClu_same (d : Dev) (n : Nat) (f : Cluster → Cluster) :
    (Dev.modClu n f d).clu n = f (d.clu n) := by
  simp [Dev.clu, Dev.modClu, Dev.setClu]

@[simp] theorem Dev.clu_modClu_other (d : Dev) {n k : Nat} (f : Cluster → Cluster) (h : k ≠ n) :
    (Dev.modClu n f d).clu k = d.clu k := by
  simp [Dev.clu, Dev.modClu, Dev.setClu, h]

@[simp] theorem Dev.kvE_setKv_same (d : Dev) (n : Nat) (x : KvEntry) : (d.setKv n x).kvE n = x := by
  simp [Dev.kvE, Dev.setKv]

@[simp] theorem Dev.kvE_setKv_other (d : Dev) {n k : Nat} (x : KvEntry) (h : k ≠ n) :
    (d.setKv n x).kvE k = d.kvE k := by
  simp [Dev.kvE, Dev.setKv, h]

@[simp] theorem Dev.kvE_modKv_same (d : Dev) (n : Nat) (f : KvEntry → KvEntry) :
    (Dev.modKv n f d).kvE n = f (d.kvE n) := by
  simp [Dev.kvE, Dev.modKv, Dev.setKv]

@[simp] theorem Dev.kvE_modKv_other (d : Dev) {n k : Nat} (f : KvEntry → KvEntry) (h : k ≠ n) :
    (Dev.modKv n f d).kvE k = d.kvE k := by
  simp [Dev.kvE, Dev.modKv, Dev.setKv, h]

@[simp] theorem Dev.tag_setTag_same (d : Dev) (n : Nat) (x : PageTag) : (d.setTag n x).tag n = x := by
  simp [Dev.tag, Dev.setTag]

@[simp] theorem Dev.tag_setTag_other (d : Dev) {n k : Nat} (x : PageTag) (h : k ≠ n) :
    (d.setTag n x).tag k = d.tag k := by
  simp [Dev.tag, Dev.setTag, h]

@[simp] theorem Dev.die_modDie_same (d : Dev) (n : Nat) (f : Die → Die) :
    (Dev.modDie n f d).die n = f (d.die n) := by
  simp [Dev.die, Dev.modDie]

@[simp] theorem Dev.die_modDie_other (d : Dev) {n k : Nat} (f : Die → Die) (h : k ≠ n) :
    (Dev.modDie n f d).die k = d.die k := by
  simp [Dev.die, Dev.modDie, h]

@[simp] theorem Dev.port_modPort_same (d : Dev) (n : Nat) (f : Port → Port) :
    (Dev.modPort n f d).port n = f (d.port n) := by
  simp [Dev.port, Dev.modPort]

@[simp] theorem Dev.port_modPort_other (d : Dev) {n k : Nat} (f : Port → Port) (h : k ≠ n) :
    (Dev.modPort n f d).port k = d.port k := by
  simp [Dev.port, Dev.modPort, h]

@[simp] theorem Dev.dom_modDom_same (d : Dev) (n : Nat) (f : Domain → Domain) :
    (Dev.modDom n f d).dom n = f (d.dom n) := by
  simp [Dev.dom, Dev.modDom]

@[simp] theorem Dev.dom_modDom_other (d : Dev) {n k : Nat} (f : Domain → Domain) (h : k ≠ n) :
    (Dev.modDom n f d).dom k = d.dom k := by
  simp [Dev.dom, Dev.modDom, h]

@[simp] theorem Dev.req_modReq_same (d : Dev) (n : Nat) (f : ReqSlot → ReqSlot) :
    (Dev.modReq n f d).req n = f (d.req n) := by
  simp [Dev.req, Dev.modReq]

@[simp] theorem Dev.req_modReq_other (d : Dev) {n k : Nat} (f : ReqSlot → ReqSlot) (h : k ≠ n) :
    (Dev.modReq n f d).req k = d.req k := by
  simp [Dev.req, Dev.modReq, h]

@[simp] theorem Dev.adp_modAdp_same (d : Dev) (n : Nat) (f : Adapter → Adapter) :
    (Dev.modAdp n f d).adp n = f (d.adp n) := by
  simp [Dev.adp, Dev.modAdp]

@[simp] theorem Dev.adp_modAdp_other (d : Dev) {n k : Nat} (f : Adapter → Adapter) (h : k ≠ n) :
    (Dev.modAdp n f d).adp k = d.adp k := by
  simp [Dev.adp, Dev.modAdp, h]

theorem unitKey_injective {u v : MemUnit} (bu : ∀ n, u = .stack n → n < 32) (cu : ∀ n, u = .channel n → n < 32)
    (du : ∀ n, u = .dieSram n → n < 16) (bv : ∀ n, v = .stack n → n < 32) (cv : ∀ n, v = .channel n → n < 32)
    (dv : ∀ n, v = .dieSram n → n < 16) (h : unitKey u = unitKey v) : u = v := by
  cases u <;> cases v <;> simp [unitKey] at * <;> omega

@[simp] theorem Dev.unit_modUnit_same (d : Dev) (u : MemUnit) (f : Unit → Unit) :
    (Dev.modUnit u f d).unit u = f (d.unit u) := by
  simp [Dev.unit, Dev.modUnit]

theorem Dev.unit_modUnit_other (d : Dev) {u v : MemUnit} (f : Unit → Unit) (h : unitKey v ≠ unitKey u) :
    (Dev.modUnit u f d).unit v = d.unit v := by
  simp [Dev.unit, Dev.modUnit, h]

/-! An accessor looks at its own table only. -/

@[simp] theorem Dev.ld_modClu (d : Dev) (n : Nat) (f : Cluster → Cluster) (k : Nat) : (Dev.modClu n f d).ld k = d.ld k := rfl
@[simp] theorem Dev.ld_modDie (d : Dev) (n : Nat) (f : Die → Die) (k : Nat) : (Dev.modDie n f d).ld k = d.ld k := rfl
@[simp] theorem Dev.ld_modUnit (d : Dev) (u : MemUnit) (f : Unit → Unit) (k : Nat) : (Dev.modUnit u f d).ld k = d.ld k := rfl
@[simp] theorem Dev.ld_modPort (d : Dev) (n : Nat) (f : Port → Port) (k : Nat) : (Dev.modPort n f d).ld k = d.ld k := rfl
@[simp] theorem Dev.ld_modKv (d : Dev) (h : Nat) (f : KvEntry → KvEntry) (k : Nat) : (Dev.modKv h f d).ld k = d.ld k := rfl
@[simp] theorem Dev.ld_modReq (d : Dev) (n : Nat) (f : ReqSlot → ReqSlot) (k : Nat) : (Dev.modReq n f d).ld k = d.ld k := rfl
@[simp] theorem Dev.ld_modAdp (d : Dev) (n : Nat) (f : Adapter → Adapter) (k : Nat) : (Dev.modAdp n f d).ld k = d.ld k := rfl
@[simp] theorem Dev.ld_emit (d : Dev) (o : Output) (k : Nat) : (Dev.emit o d).ld k = d.ld k := rfl
@[simp] theorem Dev.clu_setLd (d : Dev) (n : Nat) (x : Ld) (k : Nat) : (Dev.setLd d n x).clu k = d.clu k := rfl
@[simp] theorem Dev.clu_modLd (d : Dev) (n : Nat) (f : Ld → Ld) (k : Nat) : (Dev.modLd n f d).clu k = d.clu k := rfl
@[simp] theorem Dev.clu_modDie (d : Dev) (n : Nat) (f : Die → Die) (k : Nat) : (Dev.modDie n f d).clu k = d.clu k := rfl
@[simp] theorem Dev.clu_modUnit (d : Dev) (u : MemUnit) (f : Unit → Unit) (k : Nat) : (Dev.modUnit u f d).clu k = d.clu k := rfl
@[simp] theorem Dev.clu_modPort (d : Dev) (n : Nat) (f : Port → Port) (k : Nat) : (Dev.modPort n f d).clu k = d.clu k := rfl
@[simp] theorem Dev.clu_modKv (d : Dev) (h : Nat) (f : KvEntry → KvEntry) (k : Nat) : (Dev.modKv h f d).clu k = d.clu k := rfl
@[simp] theorem Dev.clu_modReq (d : Dev) (n : Nat) (f : ReqSlot → ReqSlot) (k : Nat) : (Dev.modReq n f d).clu k = d.clu k := rfl
@[simp] theorem Dev.clu_modAdp (d : Dev) (n : Nat) (f : Adapter → Adapter) (k : Nat) : (Dev.modAdp n f d).clu k = d.clu k := rfl
@[simp] theorem Dev.clu_emit (d : Dev) (o : Output) (k : Nat) : (Dev.emit o d).clu k = d.clu k := rfl
@[simp] theorem Dev.kvE_setLd (d : Dev) (n : Nat) (x : Ld) (k : Nat) : (Dev.setLd d n x).kvE k = d.kvE k := rfl
@[simp] theorem Dev.kvE_modLd (d : Dev) (n : Nat) (f : Ld → Ld) (k : Nat) : (Dev.modLd n f d).kvE k = d.kvE k := rfl
@[simp] theorem Dev.kvE_modClu (d : Dev) (n : Nat) (f : Cluster → Cluster) (k : Nat) : (Dev.modClu n f d).kvE k = d.kvE k := rfl
@[simp] theorem Dev.kvE_modDie (d : Dev) (n : Nat) (f : Die → Die) (k : Nat) : (Dev.modDie n f d).kvE k = d.kvE k := rfl
@[simp] theorem Dev.kvE_modUnit (d : Dev) (u : MemUnit) (f : Unit → Unit) (k : Nat) : (Dev.modUnit u f d).kvE k = d.kvE k := rfl
@[simp] theorem Dev.kvE_modPort (d : Dev) (n : Nat) (f : Port → Port) (k : Nat) : (Dev.modPort n f d).kvE k = d.kvE k := rfl
@[simp] theorem Dev.kvE_modReq (d : Dev) (n : Nat) (f : ReqSlot → ReqSlot) (k : Nat) : (Dev.modReq n f d).kvE k = d.kvE k := rfl
@[simp] theorem Dev.kvE_modAdp (d : Dev) (n : Nat) (f : Adapter → Adapter) (k : Nat) : (Dev.modAdp n f d).kvE k = d.kvE k := rfl
@[simp] theorem Dev.kvE_emit (d : Dev) (o : Output) (k : Nat) : (Dev.emit o d).kvE k = d.kvE k := rfl
@[simp] theorem Dev.tag_setLd (d : Dev) (n : Nat) (x : Ld) (k : Nat) : (Dev.setLd d n x).tag k = d.tag k := rfl
@[simp] theorem Dev.tag_modLd (d : Dev) (n : Nat) (f : Ld → Ld) (k : Nat) : (Dev.modLd n f d).tag k = d.tag k := rfl
@[simp] theorem Dev.tag_modClu (d : Dev) (n : Nat) (f : Cluster → Cluster) (k : Nat) : (Dev.modClu n f d).tag k = d.tag k := rfl
@[simp] theorem Dev.tag_modDie (d : Dev) (n : Nat) (f : Die → Die) (k : Nat) : (Dev.modDie n f d).tag k = d.tag k := rfl
@[simp] theorem Dev.tag_modUnit (d : Dev) (u : MemUnit) (f : Unit → Unit) (k : Nat) : (Dev.modUnit u f d).tag k = d.tag k := rfl
@[simp] theorem Dev.tag_modPort (d : Dev) (n : Nat) (f : Port → Port) (k : Nat) : (Dev.modPort n f d).tag k = d.tag k := rfl
@[simp] theorem Dev.tag_modKv (d : Dev) (h : Nat) (f : KvEntry → KvEntry) (k : Nat) : (Dev.modKv h f d).tag k = d.tag k := rfl
@[simp] theorem Dev.tag_modReq (d : Dev) (n : Nat) (f : ReqSlot → ReqSlot) (k : Nat) : (Dev.modReq n f d).tag k = d.tag k := rfl
@[simp] theorem Dev.tag_modAdp (d : Dev) (n : Nat) (f : Adapter → Adapter) (k : Nat) : (Dev.modAdp n f d).tag k = d.tag k := rfl
@[simp] theorem Dev.tag_emit (d : Dev) (o : Output) (k : Nat) : (Dev.emit o d).tag k = d.tag k := rfl
@[simp] theorem Dev.die_setLd (d : Dev) (n : Nat) (x : Ld) (k : Nat) : (Dev.setLd d n x).die k = d.die k := rfl
@[simp] theorem Dev.die_modLd (d : Dev) (n : Nat) (f : Ld → Ld) (k : Nat) : (Dev.modLd n f d).die k = d.die k := rfl
@[simp] theorem Dev.die_modClu (d : Dev) (n : Nat) (f : Cluster → Cluster) (k : Nat) : (Dev.modClu n f d).die k = d.die k := rfl
@[simp] theorem Dev.die_modUnit (d : Dev) (u : MemUnit) (f : Unit → Unit) (k : Nat) : (Dev.modUnit u f d).die k = d.die k := rfl
@[simp] theorem Dev.die_modPort (d : Dev) (n : Nat) (f : Port → Port) (k : Nat) : (Dev.modPort n f d).die k = d.die k := rfl
@[simp] theorem Dev.die_modKv (d : Dev) (h : Nat) (f : KvEntry → KvEntry) (k : Nat) : (Dev.modKv h f d).die k = d.die k := rfl
@[simp] theorem Dev.die_modReq (d : Dev) (n : Nat) (f : ReqSlot → ReqSlot) (k : Nat) : (Dev.modReq n f d).die k = d.die k := rfl
@[simp] theorem Dev.die_modAdp (d : Dev) (n : Nat) (f : Adapter → Adapter) (k : Nat) : (Dev.modAdp n f d).die k = d.die k := rfl
@[simp] theorem Dev.die_emit (d : Dev) (o : Output) (k : Nat) : (Dev.emit o d).die k = d.die k := rfl
@[simp] theorem Dev.port_setLd (d : Dev) (n : Nat) (x : Ld) (k : Nat) : (Dev.setLd d n x).port k = d.port k := rfl
@[simp] theorem Dev.port_modLd (d : Dev) (n : Nat) (f : Ld → Ld) (k : Nat) : (Dev.modLd n f d).port k = d.port k := rfl
@[simp] theorem Dev.port_modClu (d : Dev) (n : Nat) (f : Cluster → Cluster) (k : Nat) : (Dev.modClu n f d).port k = d.port k := rfl
@[simp] theorem Dev.port_modDie (d : Dev) (n : Nat) (f : Die → Die) (k : Nat) : (Dev.modDie n f d).port k = d.port k := rfl
@[simp] theorem Dev.port_modUnit (d : Dev) (u : MemUnit) (f : Unit → Unit) (k : Nat) : (Dev.modUnit u f d).port k = d.port k := rfl
@[simp] theorem Dev.port_modKv (d : Dev) (h : Nat) (f : KvEntry → KvEntry) (k : Nat) : (Dev.modKv h f d).port k = d.port k := rfl
@[simp] theorem Dev.port_modReq (d : Dev) (n : Nat) (f : ReqSlot → ReqSlot) (k : Nat) : (Dev.modReq n f d).port k = d.port k := rfl
@[simp] theorem Dev.port_modAdp (d : Dev) (n : Nat) (f : Adapter → Adapter) (k : Nat) : (Dev.modAdp n f d).port k = d.port k := rfl
@[simp] theorem Dev.port_emit (d : Dev) (o : Output) (k : Nat) : (Dev.emit o d).port k = d.port k := rfl
@[simp] theorem Dev.dom_setLd (d : Dev) (n : Nat) (x : Ld) (k : Nat) : (Dev.setLd d n x).dom k = d.dom k := rfl
@[simp] theorem Dev.dom_modLd (d : Dev) (n : Nat) (f : Ld → Ld) (k : Nat) : (Dev.modLd n f d).dom k = d.dom k := rfl
@[simp] theorem Dev.dom_modClu (d : Dev) (n : Nat) (f : Cluster → Cluster) (k : Nat) : (Dev.modClu n f d).dom k = d.dom k := rfl
@[simp] theorem Dev.dom_modDie (d : Dev) (n : Nat) (f : Die → Die) (k : Nat) : (Dev.modDie n f d).dom k = d.dom k := rfl
@[simp] theorem Dev.dom_modUnit (d : Dev) (u : MemUnit) (f : Unit → Unit) (k : Nat) : (Dev.modUnit u f d).dom k = d.dom k := rfl
@[simp] theorem Dev.dom_modPort (d : Dev) (n : Nat) (f : Port → Port) (k : Nat) : (Dev.modPort n f d).dom k = d.dom k := rfl
@[simp] theorem Dev.dom_modKv (d : Dev) (h : Nat) (f : KvEntry → KvEntry) (k : Nat) : (Dev.modKv h f d).dom k = d.dom k := rfl
@[simp] theorem Dev.dom_modReq (d : Dev) (n : Nat) (f : ReqSlot → ReqSlot) (k : Nat) : (Dev.modReq n f d).dom k = d.dom k := rfl
@[simp] theorem Dev.dom_modAdp (d : Dev) (n : Nat) (f : Adapter → Adapter) (k : Nat) : (Dev.modAdp n f d).dom k = d.dom k := rfl
@[simp] theorem Dev.dom_emit (d : Dev) (o : Output) (k : Nat) : (Dev.emit o d).dom k = d.dom k := rfl
@[simp] theorem Dev.req_setLd (d : Dev) (n : Nat) (x : Ld) (k : Nat) : (Dev.setLd d n x).req k = d.req k := rfl
@[simp] theorem Dev.req_modLd (d : Dev) (n : Nat) (f : Ld → Ld) (k : Nat) : (Dev.modLd n f d).req k = d.req k := rfl
@[simp] theorem Dev.req_modClu (d : Dev) (n : Nat) (f : Cluster → Cluster) (k : Nat) : (Dev.modClu n f d).req k = d.req k := rfl
@[simp] theorem Dev.req_modDie (d : Dev) (n : Nat) (f : Die → Die) (k : Nat) : (Dev.modDie n f d).req k = d.req k := rfl
@[simp] theorem Dev.req_modUnit (d : Dev) (u : MemUnit) (f : Unit → Unit) (k : Nat) : (Dev.modUnit u f d).req k = d.req k := rfl
@[simp] theorem Dev.req_modPort (d : Dev) (n : Nat) (f : Port → Port) (k : Nat) : (Dev.modPort n f d).req k = d.req k := rfl
@[simp] theorem Dev.req_modKv (d : Dev) (h : Nat) (f : KvEntry → KvEntry) (k : Nat) : (Dev.modKv h f d).req k = d.req k := rfl
@[simp] theorem Dev.req_modAdp (d : Dev) (n : Nat) (f : Adapter → Adapter) (k : Nat) : (Dev.modAdp n f d).req k = d.req k := rfl
@[simp] theorem Dev.req_emit (d : Dev) (o : Output) (k : Nat) : (Dev.emit o d).req k = d.req k := rfl
@[simp] theorem Dev.adp_setLd (d : Dev) (n : Nat) (x : Ld) (k : Nat) : (Dev.setLd d n x).adp k = d.adp k := rfl
@[simp] theorem Dev.adp_modLd (d : Dev) (n : Nat) (f : Ld → Ld) (k : Nat) : (Dev.modLd n f d).adp k = d.adp k := rfl
@[simp] theorem Dev.adp_modClu (d : Dev) (n : Nat) (f : Cluster → Cluster) (k : Nat) : (Dev.modClu n f d).adp k = d.adp k := rfl
@[simp] theorem Dev.adp_modDie (d : Dev) (n : Nat) (f : Die → Die) (k : Nat) : (Dev.modDie n f d).adp k = d.adp k := rfl
@[simp] theorem Dev.adp_modUnit (d : Dev) (u : MemUnit) (f : Unit → Unit) (k : Nat) : (Dev.modUnit u f d).adp k = d.adp k := rfl
@[simp] theorem Dev.adp_modPort (d : Dev) (n : Nat) (f : Port → Port) (k : Nat) : (Dev.modPort n f d).adp k = d.adp k := rfl
@[simp] theorem Dev.adp_modKv (d : Dev) (h : Nat) (f : KvEntry → KvEntry) (k : Nat) : (Dev.modKv h f d).adp k = d.adp k := rfl
@[simp] theorem Dev.adp_modReq (d : Dev) (n : Nat) (f : ReqSlot → ReqSlot) (k : Nat) : (Dev.modReq n f d).adp k = d.adp k := rfl
@[simp] theorem Dev.adp_emit (d : Dev) (o : Output) (k : Nat) : (Dev.emit o d).adp k = d.adp k := rfl
@[simp] theorem Dev.unit_setLd (d : Dev) (n : Nat) (x : Ld) (k : MemUnit) : (Dev.setLd d n x).unit k = d.unit k := rfl
@[simp] theorem Dev.unit_modLd (d : Dev) (n : Nat) (f : Ld → Ld) (k : MemUnit) : (Dev.modLd n f d).unit k = d.unit k := rfl
@[simp] theorem Dev.unit_modClu (d : Dev) (n : Nat) (f : Cluster → Cluster) (k : MemUnit) : (Dev.modClu n f d).unit k = d.unit k := rfl
@[simp] theorem Dev.unit_modDie (d : Dev) (n : Nat) (f : Die → Die) (k : MemUnit) : (Dev.modDie n f d).unit k = d.unit k := rfl
@[simp] theorem Dev.unit_modPort (d : Dev) (n : Nat) (f : Port → Port) (k : MemUnit) : (Dev.modPort n f d).unit k = d.unit k := rfl
@[simp] theorem Dev.unit_modKv (d : Dev) (h : Nat) (f : KvEntry → KvEntry) (k : MemUnit) : (Dev.modKv h f d).unit k = d.unit k := rfl
@[simp] theorem Dev.unit_modReq (d : Dev) (n : Nat) (f : ReqSlot → ReqSlot) (k : MemUnit) : (Dev.modReq n f d).unit k = d.unit k := rfl
@[simp] theorem Dev.unit_modAdp (d : Dev) (n : Nat) (f : Adapter → Adapter) (k : MemUnit) : (Dev.modAdp n f d).unit k = d.unit k := rfl
@[simp] theorem Dev.unit_emit (d : Dev) (o : Output) (k : MemUnit) : (Dev.emit o d).unit k = d.unit k := rfl

end Sys2Proof.Machine
end

