-- ==== Sys2Proof/Laws/Memory.lean ====
section
/-! SUPPORT. The byte memory: every operation keeps the canonical form, a read after a write gives what was written,
and a write leaves every other byte alone. -/

namespace Sys2Proof.Machine

variable {d : Byte}

/-- Every listed address is above a bound. -/
def Mem.above (k : Nat) (m : Mem) : Prop := ∀ c ∈ m, k < c.1

theorem Mem.wf_cons {a : Nat} {b : Byte} {t : Mem} :
    Mem.wf d ((a, b) :: t) = true ↔ b ≠ d ∧ Mem.above a t ∧ Mem.wf d t = true := by
  induction t generalizing a b with
  | nil => simp [Mem.wf, Mem.above]
  | cons e t ih =>
    obtain ⟨a', b'⟩ := e
    rw [Mem.wf]
    simp only [Bool.and_eq_true, decide_eq_true_eq, bne_iff_ne, ne_eq]
    constructor
    · rintro ⟨⟨h1, h2⟩, h3⟩
      refine ⟨h2, ?_, h3⟩
      intro c hc
      rcases List.mem_cons.mp hc with rfl | hc
      · exact h1
      · exact Nat.lt_trans h1 ((ih.mp h3).2.1 c hc)
    · rintro ⟨h1, h2, h3⟩
      exact ⟨⟨h2 (a', b') (by simp), h1⟩, h3⟩

theorem Mem.read_above {m : Mem} {k n : Nat} (h : Mem.above k m) (hn : n ≤ k) : Mem.read d m n = d := by
  induction m with
  | nil => rfl
  | cons e t ih =>
    obtain ⟨a, b⟩ := e
    have := h (a, b) (by simp)
    rw [Mem.read, if_neg (by simp at this; omega), ih (fun c hc => h c (List.mem_cons_of_mem _ hc))]

theorem Mem.write_above {m : Mem} {k n : Nat} {v : Byte} (h : Mem.above k m) (hn : k < n) :
    Mem.above k (Mem.write d m n v) := by
  induction m with
  | nil =>
    simp only [Mem.write]
    split
    · exact h
    · intro c hc; simp at hc; subst hc; exact hn
  | cons e t ih =>
    obtain ⟨a, b⟩ := e
    have ha : k < a := h (a, b) (by simp)
    have ht : Mem.above k t := fun c hc => h c (List.mem_cons_of_mem _ hc)
    simp only [Mem.write]
    intro c
    split
    · split
      · exact h c
      · intro hc; rcases List.mem_cons.mp hc with rfl | hc
        · exact hn
        · exact h c hc
    · split
      · split
        · exact ht c
        · intro hc; rcases List.mem_cons.mp hc with rfl | hc
          · exact ha
          · exact ht c hc
      · intro hc; rcases List.mem_cons.mp hc with rfl | hc
        · exact ha
        · exact ih ht c hc

/-- Writing keeps the canonical form. -/
theorem Mem.write_wf {m : Mem} (n : Nat) (v : Byte) (h : Mem.wf d m = true) : Mem.wf d (Mem.write d m n v) = true := by
  induction m with
  | nil =>
    simp only [Mem.write]
    split
    · rfl
    · simpa [Mem.wf] using ‹_›
  | cons e t ih =>
    obtain ⟨a, b⟩ := e
    obtain ⟨h1, h2, h3⟩ := Mem.wf_cons.mp h
    simp only [Mem.write]
    split
    · split
      · exact h
      · next hlt hv =>
        refine Mem.wf_cons.mpr ⟨hv, ?_, h⟩
        intro c hc
        rcases List.mem_cons.mp hc with rfl | hc
        · exact hlt
        · exact Nat.lt_trans hlt (h2 c hc)
    · split
      · split
        · exact h3
        · next hv => exact Mem.wf_cons.mpr ⟨hv, h2, h3⟩
      · exact Mem.wf_cons.mpr ⟨h1, Mem.write_above h2 (by omega), ih h3⟩

/-- A read of the address written gives the byte written. -/
theorem Mem.read_write_same {m : Mem} (n : Nat) (v : Byte) (h : Mem.wf d m = true) :
    Mem.read d (Mem.write d m n v) n = v := by
  induction m with
  | nil =>
    simp only [Mem.write]
    split
    · next hv => simp [Mem.read, hv]
    · simp [Mem.read]
  | cons e t ih =>
    obtain ⟨a, b⟩ := e
    obtain ⟨-, h2, h3⟩ := Mem.wf_cons.mp h
    simp only [Mem.write]
    split
    · next hlt =>
      split
      · next hv =>
        rw [Mem.read, if_neg (by omega), hv]
        exact Mem.read_above h2 (by omega)
      · simp [Mem.read]
    · split
      · next _ hn =>
        split
        · next hv => rw [hv]; exact Mem.read_above h2 (by omega)
        · simp [Mem.read, hn]
      · next _ hn => rw [Mem.read, if_neg (Ne.symm hn), ih h3]

/-- A write leaves every other byte alone. -/
theorem Mem.read_write_other (m : Mem) {n k : Nat} (v : Byte) (hk : k ≠ n) :
    Mem.read d (Mem.write d m n v) k = Mem.read d m k := by
  induction m with
  | nil =>
    simp only [Mem.write]
    split
    · rfl
    · simp [Mem.read, Ne.symm hk]
  | cons e t ih =>
    obtain ⟨a, b⟩ := e
    simp only [Mem.write]
    split
    · split
      · rfl
      · simp [Mem.read, Ne.symm hk]
    · split
      · next _ hn =>
        split
        · rw [Mem.read, if_neg (by omega)]
        · rw [Mem.read, Mem.read, if_neg (by omega), if_neg (by omega)]
      · simp only [Mem.read, ih]

theorem Mem.writeN_wf {m : Mem} (a : Nat) (bs : List Byte) (h : Mem.wf d m = true) :
    Mem.wf d (Mem.writeN d m a bs) = true := by
  induction bs generalizing m a with
  | nil => exact h
  | cons b bs ih => exact ih (a + 1) (Mem.write_wf a b h)

/-- Bytes outside a range written read as before. -/
theorem Mem.read_writeN_outside (m : Mem) (a : Nat) (bs : List Byte) {x : Nat} (h : x < a ∨ a + bs.length ≤ x) :
    Mem.read d (Mem.writeN d m a bs) x = Mem.read d m x := by
  induction bs generalizing m a with
  | nil => rfl
  | cons b bs ih =>
    simp only [List.length_cons] at h
    rw [Mem.writeN, ih (Mem.write d m a b) (a + 1) (by omega), Mem.read_write_other m b (by omega)]

/-- Bytes of a range written read as written. -/
theorem Mem.read_writeN_inside {m : Mem} (a : Nat) (bs : List Byte) {i : Nat} (hi : i < bs.length)
    (h : Mem.wf d m = true) : Mem.read d (Mem.writeN d m a bs) (a + i) = bs[i] := by
  induction bs generalizing m a i with
  | nil => simp at hi
  | cons b bs ih =>
    rw [Mem.writeN]
    cases i with
    | zero =>
      rw [Mem.read_writeN_outside _ _ _ (by omega)]
      simpa using Mem.read_write_same a b h
    | succ i =>
      simp only [List.length_cons, Nat.add_lt_add_iff_right] at hi
      have := ih (a + 1) hi (Mem.write_wf a b h)
      simpa [Nat.add_assoc, Nat.add_comm 1 i] using this

theorem Mem.filter_above {m : Mem} {k : Nat} (p : Host.Cell → Bool) (h : Mem.above k m) : Mem.above k (m.filter p) :=
  fun c hc => h c (List.mem_filter.mp hc).1

theorem Mem.filter_wf {m : Mem} (p : Host.Cell → Bool) (h : Mem.wf d m = true) : Mem.wf d (m.filter p) = true := by
  induction m with
  | nil => rfl
  | cons e t ih =>
    obtain ⟨a, b⟩ := e
    obtain ⟨h1, h2, h3⟩ := Mem.wf_cons.mp h
    rw [List.filter_cons]
    split
    · exact Mem.wf_cons.mpr ⟨h1, Mem.filter_above p h2, ih h3⟩
    · exact ih h3

theorem Mem.clear_wf {m : Mem} (lo hi : Nat) (h : Mem.wf d m = true) : Mem.wf d (Mem.clear m lo hi) = true :=
  Mem.filter_wf _ h

/-- A cleared range reads as unlisted, and every other byte as before. -/
theorem Mem.read_clear (m : Mem) (lo hi x : Nat) :
    Mem.read d (Mem.clear m lo hi) x = if lo ≤ x ∧ x < hi then d else Mem.read d m x := by
  induction m with
  | nil => simp [Mem.clear, Mem.read]
  | cons e t ih =>
    obtain ⟨a, b⟩ := e
    simp only [Mem.clear, List.filter_cons] at ih ⊢
    by_cases hab : a < lo ∨ hi ≤ a
    · rw [if_pos (by simpa using hab), Mem.read, Mem.read]
      by_cases hx : a = x
      · subst hx; rw [if_pos rfl, if_pos rfl, if_neg (by omega)]
      · rw [if_neg hx, if_neg hx, ih]
    · rw [if_neg (by simpa using hab), ih, Mem.read]
      by_cases hx : a = x
      · subst hx; rw [if_pos (by omega), if_pos (by omega)]
      · rw [if_neg hx]

theorem Mem.putCells_wf {m : Mem} (s t : Nat) (cs : List Host.Cell) (h : Mem.wf d m = true) :
    Mem.wf d (Mem.putCells d s t m cs) = true := by
  induction cs generalizing m with
  | nil => exact h
  | cons c cs ih => obtain ⟨a, b⟩ := c; exact ih (Mem.write_wf _ _ h)

/-- Cells put from a range change only the range they are moved to. -/
theorem Mem.read_putCells_outside (m : Mem) (s t n : Nat) (cs : List Host.Cell) (hc : ∀ c ∈ cs, s ≤ c.1 ∧ c.1 < s + n)
    {x : Nat} (hx : x < t ∨ t + n ≤ x) : Mem.read d (Mem.putCells d s t m cs) x = Mem.read d m x := by
  induction cs generalizing m with
  | nil => rfl
  | cons c cs ih =>
    obtain ⟨a, b⟩ := c
    have := hc (a, b) (by simp)
    simp only at this
    rw [Mem.putCells, ih (Mem.write d m (a - s + t) b) (fun c h => hc c (List.mem_cons_of_mem _ h)),
      Mem.read_write_other m b (by omega)]

theorem Mem.cells_range (m : Mem) (lo hi : Nat) : ∀ c ∈ Mem.cells m lo hi, lo ≤ c.1 ∧ c.1 < hi := by
  intro c hc
  simpa [Mem.cells] using (List.mem_filter.mp hc).2

theorem Mem.copy_wf {m : Mem} (s t n : Nat) (h : Mem.wf d m = true) : Mem.wf d (Mem.copy d m s t n) = true :=
  Mem.putCells_wf s t _ (Mem.clear_wf _ _ h)

/-- A copy leaves every byte outside its destination alone. -/
theorem Mem.read_copy_outside (m : Mem) (s t n : Nat) {x : Nat} (hx : x < t ∨ t + n ≤ x) :
    Mem.read d (Mem.copy d m s t n) x = Mem.read d m x := by
  rw [Mem.copy, Mem.read_putCells_outside _ s t n _ (Mem.cells_range m s (s + n)) hx, Mem.read_clear, if_neg (by omega)]

end Sys2Proof.Machine
end

