-- ==== Sys2Proof/Laws/Ops.lean ====
section
/-! SUPPORT. What the shared memory operations can do: a read or a write through the codes changes nothing but what
`Dev.memFrame` lists. -/

namespace Sys2Proof.Machine

theorem Dev.memFrame_refl (d : Dev) : d.memFrame d := ⟨rfl, fun _ => rfl, [], by simp⟩

theorem Dev.memFrame_trans {a b c : Dev} (h : a.memFrame b) (k : b.memFrame c) : a.memFrame c := by
  obtain ⟨h1, h2, x, hx⟩ := h
  obtain ⟨k1, k2, y, hy⟩ := k
  refine ⟨?_, fun n => ?_, x ++ y, ?_⟩
  · rw [k1, h1]
  · rw [k2 n, h2 n]
  · rw [hy, hx, List.map_append, List.append_assoc]

/-- A change of the fields of memory alone. -/
theorem Dev.memFrame_of {d d' : Dev}
    (h : d' = { d with units := d'.units, mem := d'.mem, lpKeys := d'.lpKeys, poison := d'.poison, upsets := d'.upsets,
                       touched := d'.touched, free := d'.free }) : d.memFrame d' := by
  refine ⟨?_, fun n => ?_, [], ?_⟩ <;> rw [h]
  · rfl
  · simp

theorem Dev.memFrame_modUnit (d : Dev) (u : MemUnit) (f : Unit → Unit) : d.memFrame (d.modUnit u f) := Dev.memFrame_of rfl

theorem Dev.ld_modLd (d : Dev) (n k : Nat) (f : Ld → Ld) :
    (Dev.modLd n f d).ld k = if k = n then f (d.ld n) else d.ld k := by
  split
  · next h => subst h; simp
  · next h => simp [h]

theorem Dev.memFrame_modEcc (d : Dev) (n : Nat) (f : EccView → EccView) :
    d.memFrame (d.modLd n fun l => { l with ecc := f l.ecc }) := by
  refine ⟨rfl, fun k => ?_, [], (List.append_nil _).symm⟩
  rw [Dev.ld_modLd]
  split
  · next h => subst h; rfl
  · rfl

theorem Dev.memFrame_eccEvt (d : Dev) (u : MemUnit) (b : Nat) : d.memFrame (d.eccEvt u b) := by
  unfold Dev.eccEvt
  dsimp only
  split
  · exact d.memFrame_modEcc 15 fun e => { e with evt := setBit e.evt b }
  · exact Dev.memFrame_trans (d.memFrame_modEcc 15 fun e => { e with evt := setBit e.evt b })
      (Dev.memFrame_modEcc _ _ fun e => { e with evt := setBit e.evt b })

theorem Dev.memFrame_eccRecord (d : Dev) (u : MemUnit) (cw k r y : Nat) : d.memFrame (d.eccRecord u cw k r y) := by
  unfold Dev.eccRecord
  exact d.memFrame_modUnit u _

theorem Dev.memFrame_poisonCw (d : Dev) (cw : Nat) : d.memFrame (d.poisonCw cw) := Dev.memFrame_of rfl

theorem Dev.memFrame_draw (d : Dev) : d.memFrame d.draw.1 := Dev.memFrame_of rfl

theorem Dev.memFrame_mcError (d : Dev) (req cw : Nat) : d.memFrame (d.mcError req cw) := by
  unfold Dev.mcError
  split
  · exact ⟨rfl, fun _ => rfl, [cw], rfl⟩
  · exact d.memFrame_refl

theorem Dev.memFrame_queueRow (d : Dev) (u : MemUnit) (cw : Nat) (c : Bool) : d.memFrame (d.queueRow u cw c) := by
  unfold Dev.queueRow
  dsimp only
  split
  · exact d.memFrame_modUnit u _
  · exact d.memFrame_refl

theorem Dev.memFrame_hitRow (d : Dev) (u : MemUnit) (cw : Nat) : d.memFrame (d.hitRow u cw) := by
  unfold Dev.hitRow
  dsimp only
  split
  · exact Dev.memFrame_trans (d.memFrame_modUnit u _) (Dev.memFrame_queueRow _ u cw false)
  · exact d.memFrame_modUnit u _

theorem Dev.memFrame_hitLane (d : Dev) (u : MemUnit) (cw y : Nat) : d.memFrame (d.hitLane u cw y) := by
  unfold Dev.hitLane
  dsimp only
  split
  · exact Dev.memFrame_trans (Dev.memFrame_trans (d.memFrame_modUnit _ _) (Dev.memFrame_modUnit _ _ _)) (Dev.memFrame_eccEvt _ _ 5)
  · exact Dev.memFrame_modUnit _ _ _

theorem Dev.memFrame_lanes (u : MemUnit) (cw : Nat) (ys : List Nat) (d : Dev) :
    d.memFrame (ys.foldl (fun d y => d.hitLane u cw y) d) := by
  induction ys generalizing d with
  | nil => exact d.memFrame_refl
  | cons y ys ih => exact Dev.memFrame_trans (d.memFrame_hitLane u cw y) (ih _)

theorem Dev.memFrame_countOdc (d : Dev) (u : MemUnit) (cw : Nat) : d.memFrame (d.countOdc u cw) := by
  unfold Dev.countOdc
  repeat' split
  all_goals first | exact d.memFrame_modUnit _ _ | exact d.memFrame_refl

theorem Dev.memFrame_decodeCw (d : Dev) (u : MemUnit) (cw : Nat) : d.memFrame (d.decodeCw u cw).1 := by
  unfold Dev.decodeCw
  split
  · dsimp only
    split
    · exact d.memFrame_draw
    · exact Dev.memFrame_trans d.memFrame_draw (Dev.memFrame_of rfl)
  · exact d.memFrame_refl

theorem Dev.memFrame_correctCw (d : Dev) (u : MemUnit) (req cw : Nat) (syms : List Nat) :
    d.memFrame (d.correctCw u req cw syms) := by
  unfold Dev.correctCw
  dsimp only
  refine Dev.memFrame_trans (Dev.memFrame_trans (Dev.memFrame_trans (d.memFrame_modUnit u fun x => { x with ce := sat32 x.ce })
    (Dev.memFrame_eccRecord _ u cw 1 req (syms.headD 127))) (Dev.memFrame_eccEvt _ u 0)) ?_
  generalize Dev.eccEvt u 0 _ = e
  have h : e.memFrame { e with upsets := Map.del e.upsets cw } := Dev.memFrame_of rfl
  split
  · exact Dev.memFrame_trans (Dev.memFrame_trans h (Dev.memFrame_hitRow _ u cw)) (Dev.memFrame_lanes u cw _ _)
  · exact h

/-- One read of a codeword. -/
theorem Dev.memFrame_touch (d : Dev) (req cw : Nat) : d.memFrame (d.touch req cw).1 := by
  unfold Dev.touch
  split
  · exact d.memFrame_refl
  · next u _ =>
    split
    · dsimp only
      refine Dev.memFrame_trans ?_ (Dev.memFrame_mcError _ req cw)
      have h := Dev.memFrame_trans (d.memFrame_modUnit u fun x => { x with ue := sat32 x.ue })
        (Dev.memFrame_eccRecord _ u cw 3 req 127)
      split
      · exact h
      · exact Dev.memFrame_trans h (Dev.memFrame_eccEvt _ u 1)
    · have h := Dev.memFrame_trans (d.memFrame_countOdc u cw) (Dev.memFrame_decodeCw _ u cw)
      split
      · next e _ he => rw [he] at h; exact Dev.memFrame_trans h (Dev.memFrame_correctCw e u req cw _)
      · next e he =>
        rw [he] at h
        exact Dev.memFrame_trans h (Dev.memFrame_trans (Dev.memFrame_trans (Dev.memFrame_trans (Dev.memFrame_trans
          (Dev.memFrame_trans (e.memFrame_modUnit u _) (Dev.memFrame_eccRecord _ u cw 2 req 127)) (Dev.memFrame_eccEvt _ u _))
          (Dev.memFrame_poisonCw _ cw)) (Dev.memFrame_queueRow _ u cw false)) (Dev.memFrame_mcError _ req cw))
      · next e _ _ _ he => rw [he] at h; exact h

theorem Dev.memFrame_touchAll (req : Nat) (cs : List Nat) (d : Dev) : d.memFrame (Dev.touchAll req cs d).1 := by
  induction cs generalizing d with
  | nil => exact d.memFrame_refl
  | cons c cs ih =>
    unfold Dev.touchAll
    have h := d.memFrame_touch req c
    split
    · next e he => rw [he] at h; exact Dev.memFrame_trans h (ih e)
    · next e he => rw [he] at h; exact h

theorem Dev.memFrame_touchEach (req : Nat) (cs : List Nat) (d : Dev) : d.memFrame (Dev.touchEach req cs d).1 := by
  induction cs generalizing d with
  | nil => exact d.memFrame_refl
  | cons c cs ih => exact Dev.memFrame_trans (d.memFrame_touch req c) (ih _)

theorem Dev.memFrame_note (d : Dev) (req a n : Nat) : d.memFrame (d.note req a n) := by
  unfold Dev.note
  split
  · exact d.memFrame_refl
  · exact Dev.memFrame_of rfl

theorem Dev.memFrame_notes (req : Nat) (rs : List (Nat × Nat)) (d : Dev) :
    d.memFrame (rs.foldl (fun d r => d.note req r.1 r.2) d) := by
  induction rs generalizing d with
  | nil => exact d.memFrame_refl
  | cons r rs ih => exact Dev.memFrame_trans (d.memFrame_note req r.1 r.2) (ih _)

/-- A read of ranges. -/
theorem Dev.memFrame_readAll (d : Dev) (req : Nat) (rs : List (Nat × Nat)) : d.memFrame (d.readAll req rs).1 :=
  Dev.memFrame_trans (d.memFrame_notes req rs) (Dev.memFrame_touchAll req _ _)

theorem Dev.memFrame_readEach (d : Dev) (req : Nat) (rs : List (Nat × Nat)) : d.memFrame (d.readEach req rs).1 :=
  Dev.memFrame_trans (d.memFrame_notes req rs) (Dev.memFrame_touchEach req _ _)

theorem Dev.memFrame_readOk (d : Dev) (req a n : Nat) : d.memFrame (d.readOk req a n).1 := d.memFrame_readAll req _

theorem Dev.memFrame_readBytes (d : Dev) (req a n : Nat) : d.memFrame (d.readBytes req a n).1 := by
  unfold Dev.readBytes
  have h := d.memFrame_readOk req a n
  split
  · next e he => rw [he] at h; exact h
  · next e he => rw [he] at h; exact h

theorem Dev.memFrame_seal (d : Dev) (a n : Nat) : d.memFrame (d.seal a n) := by
  unfold Dev.seal
  split
  · exact d.memFrame_refl
  · exact Dev.memFrame_of rfl

theorem Dev.memFrame_merge (d : Dev) (req cw : Nat) : d.memFrame (d.merge req cw) := by
  unfold Dev.merge
  split
  · exact d.memFrame_refl
  · next u _ =>
    split
    · exact d.memFrame_refl
    · have h := Dev.memFrame_trans (d.memFrame_countOdc u cw) (Dev.memFrame_decodeCw _ u cw)
      split
      · next e _ he => rw [he] at h; exact Dev.memFrame_trans h (Dev.memFrame_correctCw e u req cw _)
      · next e he =>
        rw [he] at h
        exact Dev.memFrame_trans h (Dev.memFrame_trans (Dev.memFrame_poisonCw _ cw) (Dev.memFrame_queueRow _ u cw false))
      · next e _ _ _ he => rw [he] at h; exact h

theorem Dev.memFrame_cover (d : Dev) (req a n : Nat) : d.memFrame (d.cover req a n) := by
  unfold Dev.cover
  split
  · exact d.memFrame_refl
  · dsimp only
    refine Dev.memFrame_trans (Dev.memFrame_trans (d.memFrame_note req a n) (Dev.memFrame_seal _ a n)) ?_
    generalize Dev.seal a n _ = e
    have h : e.memFrame { e with poison := e.poison.filter fun c => !(a ≤ c && c + cwBytes c ≤ a + n),
                                 upsets := Map.delIf e.upsets fun c => a ≤ c && c + cwBytes c ≤ a + n } := Dev.memFrame_of rfl
    split <;> split
    · exact h
    · exact Dev.memFrame_trans h (Dev.memFrame_merge _ _ _)
    · exact Dev.memFrame_trans h (Dev.memFrame_merge _ _ _)
    · exact Dev.memFrame_trans h (Dev.memFrame_trans (Dev.memFrame_merge _ _ _) (Dev.memFrame_merge _ _ _))

/-- A write of bytes. -/
theorem Dev.memFrame_writeBytes (d : Dev) (req a : Nat) (bs : List Byte) : d.memFrame (d.writeBytes req a bs) :=
  Dev.memFrame_trans (d.memFrame_cover req a bs.length) (Dev.memFrame_of rfl)

theorem Dev.memFrame_zeroRange (d : Dev) (req a n : Nat) : d.memFrame (d.zeroRange req a n) :=
  Dev.memFrame_trans (d.memFrame_cover req a n) (Dev.memFrame_of rfl)

theorem Dev.memFrame_copyRange (d : Dev) (req a b n : Nat) : d.memFrame (d.copyRange req a b n) :=
  Dev.memFrame_trans (d.memFrame_cover req b n) (Dev.memFrame_of rfl)

/-! ## Quiet memory: no error, no poison, no line held by the host -/

theorem Dev.marked_quiet {d : Dev} (h : d.quiet) (a n : Nat) : d.marked a n = [] := by
  simp [Dev.marked, h.1, h.2.1]

theorem Dev.note_quiet {d : Dev} (h : d.quiet) (req a n : Nat) : d.note req a n = d := by
  simp [Dev.note, h.2.2.1]

theorem Dev.seen_quiet {d : Dev} (h : d.quiet) (a n : Nat) : d.seen a n = d.mem := by
  simp [Dev.seen, h.2.2.2]

theorem Dev.seal_quiet {d : Dev} (h : d.quiet) (a n : Nat) : d.seal a n = d := by
  simp [Dev.seal, h.2.2.2]

/-- In quiet memory the bytes of a range are those of `mem`. -/
theorem Dev.bytes_quiet {d : Dev} (h : d.quiet) (a n : Nat) : d.bytes a n = Mem.readN memDefault d.mem a n := by
  rw [Dev.bytes, Dev.seen_quiet h]

/-- Memory is quiet before any key is drawn, with no error, no poison and no line held by the host. -/
theorem Dev.quiet_of {d : Dev} (h1 : d.poison = []) (h2 : d.upsets = []) (h3 : d.snoops = []) (h4 : d.lpKeys = [])
    (h5 : d.keySeeds = []) (h6 : ∀ n, (d.dom n).memKey = []) : d.quiet := by
  refine ⟨h1, h2, h3, fun a n => ?_⟩
  have hs : ∀ k, d.slotKey k = [] := fun k => by
    unfold Dev.slotKey Dev.slotSeed
    simp [h6, h5, Map.find]
  unfold Dev.foreign
  split
  · simp [Dev.wholeKey, Dev.keyRanges, Dev.fillKey, hs, h4, h5, Map.find]
  · rfl

theorem Dev.notes_quiet {d : Dev} (h : d.quiet) (req : Nat) (rs : List (Nat × Nat)) :
    rs.foldl (fun d r => d.note req r.1 r.2) d = d := by
  induction rs with
  | nil => rfl
  | cons r rs ih => rw [List.foldl_cons, Dev.note_quiet h, ih]

/-- In quiet memory a read changes nothing and every codeword can be used. -/
theorem Dev.readAll_quiet {d : Dev} (h : d.quiet) (req : Nat) (rs : List (Nat × Nat)) :
    d.readAll req rs = (d, true) := by
  have : (rs.flatMap fun r => d.marked r.1 r.2) = [] := by simp [Dev.marked_quiet h]
  rw [Dev.readAll, this, Dev.notes_quiet h, Dev.touchAll]

theorem Dev.readEach_quiet {d : Dev} (h : d.quiet) (req : Nat) (rs : List (Nat × Nat)) :
    d.readEach req rs = (d, []) := by
  have : (rs.flatMap fun r => d.marked r.1 r.2) = [] := by simp [Dev.marked_quiet h]
  rw [Dev.readEach, this, Dev.notes_quiet h, Dev.touchEach]

theorem Dev.readOk_quiet {d : Dev} (h : d.quiet) (req a n : Nat) : d.readOk req a n = (d, true) :=
  Dev.readAll_quiet h req _

theorem Dev.readBytes_quiet {d : Dev} (h : d.quiet) (req a n : Nat) :
    d.readBytes req a n = (d, some (d.bytes a n)) := by
  rw [Dev.readBytes, Dev.readOk_quiet h]

theorem Dev.merge_quiet {d : Dev} (h : d.quiet) (req cw : Nat) : d.merge req cw = d := by
  unfold Dev.merge
  split
  · rfl
  · next u _ =>
    have hc : d.countOdc u cw = d := by
      unfold Dev.countOdc
      split
      · simp [h.2.1, Map.get, Map.find]
      · rfl
    simp [hc, Dev.decodeCw, h.1, h.2.1, Map.get, Map.find, verdict]

/-- In quiet memory a write needs no preparation. -/
theorem Dev.cover_quiet {d : Dev} (h : d.quiet) (req a n : Nat) : d.cover req a n = d := by
  have e : ∀ p q : Nat → Bool, { d with poison := d.poison.filter p, upsets := Map.delIf d.upsets q } = d := by
    intro p q
    rcases d with ⟨⟩
    obtain ⟨h1, h2, -⟩ := h
    simp only at h1 h2
    subst h1 h2
    rfl
  unfold Dev.cover
  dsimp only
  rw [Dev.note_quiet h, Dev.seal_quiet h, e]
  split
  · rfl
  · split <;> split <;> simp only [Dev.merge_quiet h]

theorem Dev.writeBytes_quiet {d : Dev} (h : d.quiet) (req a : Nat) (bs : List Byte) :
    d.writeBytes req a bs = { d with mem := Mem.writeN memDefault d.mem a bs } := by
  rw [Dev.writeBytes, Dev.cover_quiet h]

theorem Dev.zeroRange_quiet {d : Dev} (h : d.quiet) (req a n : Nat) :
    d.zeroRange req a n = { d with mem := Mem.clear d.mem a (a + n) } := by
  rw [Dev.zeroRange, Dev.cover_quiet h]

theorem Dev.copyRange_quiet {d : Dev} (h : d.quiet) (req a b n : Nat) :
    d.copyRange req a b n = { d with mem := Mem.copy memDefault d.mem a b n } := by
  rw [Dev.copyRange, Dev.cover_quiet h, Dev.seen_quiet h]
  rfl

/-- With no line held by the host, a command that uses memory has its effect at once. -/
theorem State.settleHost_quiet {s : State} (h : s.dev.snoops = []) (f : State → State) : s.settleHost f = f s := by
  simp [State.settleHost, h]

theorem onMem_quiet {s : State} (h : s.dev.snoops = []) (f : Dev → Dev) : onMem f s = .next { s with dev := f s.dev } := by
  rw [onMem, State.settleHost_quiet h]

theorem onMemAt_quiet {s : State} (h : s.dev.snoops = []) (f : W64 → Dev → Dev) :
    onMemAt f s = .next { s with dev := f s.now s.dev } := by
  rw [onMemAt, State.settleHost_quiet h]

end Sys2Proof.Machine
end

