-- ==== Sys2Proof/WellFormed.lean ====
section
/-! DEFINITION. Well-formed commands: every unit a command names exists (R4, R14, R19 to R21) and a
command body has the words of its descriptors (R446). -/

namespace Sys2Proof

/-- Device cluster numbers are 0 to 2,559 (R20). -/
def okClu (n : Nat) : Bool := decide (n < 2560)

/-- LD numbers are 0 to 9 and 15 (R4). -/
def okLd (n : Nat) : Bool := decide (n < 10) || n == 15

def okAgent : Agent → Bool
  | .host l => okLd l
  | .mc => true
  | .clu n => okClu n
  | .i3c => true

def okPage : RegPage → Bool
  | .ld n => okLd n
  | .clu n => okClu n

def okIcu : IcuId → Bool
  | .ld n => okLd n
  | .clu n => okClu n

/-- Units by kind (R213). -/
def okUnit : MemUnit → Bool
  | .stack n => decide (n < 20)
  | .channel n => decide (n < 24)
  | .dieSram n => decide (n < 10)
  | .iodSram n => decide (n < 2)

def okIssuer : Issuer → Bool
  | .queue l q _ _ => okLd l && decide (q < 64)
  | .kvRing n _ => okClu n
  | .colRing n _ => okClu n
  | .req s => decide (s < 262144)
  | .msg l => okLd l
  | .engine l => okLd l

def okScope : Scope → Bool
  | .device => true
  | .ld n => okLd n
  | .queue l q => okLd l && decide (q < 64)
  | .domain n => decide (n < 4096)
  | .port p => decide (p < 32)

/-- Every check of a command's operands. -/
def wellFormed (i : Instr) : Bool :=
  match i with
  | .registerWrite ag page off _ _ => okAgent ag && okPage page && decide (off < 0x200000)
  | .loReadLatch ag page rd => okAgent ag && okPage page && decide (rd.off < 0x200000)
  | .ldErrClear ag ld _ => okAgent ag && okLd ld
  | .elapsedTick upsets => upsets.all fun e => decide (e.1 < 2 ^ 44)
  | .powerSample _ tj plan => decide (tj.length = 10) && decide (plan.length = 10)
  | .pwrLimitWrite ag ld _ => okAgent ag && okLd ld
  | .slackTrip die clu => decide (die < 10) && okClu clu
  | .dieCalibration die _ _ _ _ _ => decide (die < 10)
  | .rmaxClear ag clu _ => okAgent ag && okClu clu
  | .add clu _ _ _ => okClu clu
  | .sub clu _ _ _ => okClu clu
  | .and clu _ _ _ => okClu clu
  | .or clu _ _ _ => okClu clu
  | .xor clu _ _ _ => okClu clu
  | .shl clu _ _ _ => okClu clu
  | .shr clu _ _ _ => okClu clu
  | .sar clu _ _ _ => okClu clu
  | .slt clu _ _ _ => okClu clu
  | .sltu clu _ _ _ => okClu clu
  | .addi clu _ _ _ => okClu clu
  | .lui clu _ _ => okClu clu
  | .mul clu _ _ _ => okClu clu
  | .mulh clu _ _ _ => okClu clu
  | .divu clu _ _ _ => okClu clu
  | .remu clu _ _ _ => okClu clu
  | .beq clu _ _ _ => okClu clu
  | .bne clu _ _ _ => okClu clu
  | .blt clu _ _ _ => okClu clu
  | .bge clu _ _ _ => okClu clu
  | .jal clu _ _ => okClu clu
  | .jalr clu _ _ _ => okClu clu
  | .ld clu _ _ _ => okClu clu
  | .st clu _ _ _ => okClu clu
  | .mfs clu _ _ => okClu clu
  | .mts clu _ _ => okClu clu
  | .csrr clu _ _ => okClu clu
  | .csrw clu _ _ => okClu clu
  | .issueM clu _ _ _ => okClu clu
  | .issueV clu _ _ _ => okClu clu
  | .tagr clu _ _ => okClu clu
  | .ocld clu _ _ _ _ => okClu clu
  | .ocst clu _ _ _ _ => okClu clu
  | .oclt clu _ _ _ _ => okClu clu
  | .ocz clu _ _ _ _ => okClu clu
  | .csz clu _ _ _ => okClu clu
  | .moverCommandFinish clu => okClu clu
  | .dmap clu _ _ => okClu clu
  | .dmaw clu _ => okClu clu
  | .dmaDescriptorStart clu => okClu clu
  | .dmaDescriptorFinish clu _ => okClu clu
  | .fence clu _ _ => okClu clu
  | .yield clu _ => okClu clu
  | .yieldStop clu => okClu clu
  | .handOver clu => okClu clu
  | .elap clu _ => okClu clu
  | .iret clu => okClu clu
  | .halt clu => okClu clu
  | .undefinedInstruction clu => okClu clu
  | .matrixOpStart clu core => okClu clu && decide (core < 32)
  | .matrixOpEnd clu core => okClu clu && decide (core < 32)
  | .vectorOpStart clu core => okClu clu && decide (core < 32)
  | .vectorOpEnd clu core => okClu clu && decide (core < 32)
  | .icuWin icu => okIcu icu
  | .handlerEntry icu => okIcu icu
  | .msixPost ld => okLd ld
  | .icuEoi ag icu _ => okAgent ag && okIcu icu
  | .scrubStep u _ => okUnit u
  | .softRepairStart u => okUnit u
  | .softRepairComplete u _ => okUnit u
  | .memRepairQueue ag ld => okAgent ag && okLd ld
  | .memRepairCommit ag ld => okAgent ag && okLd ld
  | .repairCommitComplete u _ => okUnit u
  | .eccSelWrite ag ld _ => okAgent ag && okLd ld
  | .eccClear ag ld _ => okAgent ag && okLd ld
  | .alloc iss die body => okIssuer iss && decide (die < 10) && decide (body.length = 16)
  | .free iss die body => okIssuer iss && decide (die < 10) && decide (body.length = 16)
  | .append iss die body => okIssuer iss && decide (die < 10) && decide (body.length = 16)
  | .trim iss die body => okIssuer iss && decide (die < 10) && decide (body.length = 16)
  | .keep iss die body => okIssuer iss && decide (die < 10) && decide (body.length = 16)
  | .move iss die body => okIssuer iss && decide (die < 10) && decide (body.length = 16)
  | .pin iss die body => okIssuer iss && decide (die < 10) && decide (body.length = 16)
  | .retire iss die body => okIssuer iss && decide (die < 10) && decide (body.length = 16)
  | .gather iss die body => okIssuer iss && decide (die < 10) && decide (body.length = 16)
  | .send iss die body => okIssuer iss && decide (die < 10) && decide (body.length = 16)
  | .scoreCommand iss body => okIssuer iss && decide (body.length = 16)
  | .scoreComplete stack => decide (stack < 20)
  | .kvZeroFillComplete handle => decide (handle < 1310720)
  | .kvMoveCopyComplete handle => decide (handle < 1310720)
  | .demotionSweep stack => decide (stack < 20)
  | .promotion handle => decide (handle < 1310720)
  | .handoffPageCheck _ _ _ _ _ => true
  | .clusterRingTail clu _ _ => okClu clu
  | .kvmRegionWrite ag ld lp n _ => okAgent ag && okLd ld && decide (n < (if lp then 24 else 20))
  | .submit iss body => okIssuer iss && decide (body.length = 16)
  | .cancel iss body => okIssuer iss && decide (body.length = 16)
  | .adpLoad iss body => okIssuer iss && decide (body.length = 16)
  | .adpLoadComplete slot => decide (slot < 16384)
  | .adpDrop iss body => okIssuer iss && decide (body.length = 16)
  | .adapterZeroFillComplete slot => decide (slot < 16384)
  | .swap iss body => okIssuer iss && decide (body.length = 16)
  | .waveNotice ld _ _ _ _ => okLd ld
  | .layerSwapBegin ld _ => okLd ld
  | .layerSwapComplete ld _ => okLd ld
  | .waveMemberReport ld _ => okLd ld
  | .tokenStepBegin slot => decide (slot < 262144)
  | .kvWaitRetry slot => decide (slot < 262144)
  | .treeIndexWaitEnd slot => decide (slot < 262144)
  | .sampleVector slot => decide (slot < 262144)
  | .tokenStepEnd slot => decide (slot < 262144)
  | .portEnable ag ld port _ => okAgent ag && okLd ld && decide (port < 32)
  | .portDisable ag ld port _ => okAgent ag && okLd ld && decide (port < 32)
  | .portRetrain ag ld port _ => okAgent ag && okLd ld && decide (port < 32)
  | .portDetectAttempt port => decide (port < 32)
  | .laneLock port lane _ _ => decide (port < 32) && decide (lane < 4)
  | .portTrainingEnd port _ => decide (port < 32)
  | .laneFailActive port lane => decide (port < 32) && decide (lane < 4)
  | .flitReceive port _ _ => decide (port < 32)
  | .linkSilenceTimeout port => decide (port < 32)
  | .leaveNotice port _ => decide (port < 32)
  | .lossNotice port _ _ => decide (port < 32)
  | .foundNotice port _ _ => decide (port < 32)
  | .packetReceive port _ => decide (port < 32)
  | .fabResponseTimeout ld _ => okLd ld
  | .routeEntryWrite ag ld _ => okAgent ag && okLd ld
  | .graftSelfWrite ag ld n _ => okAgent ag && okLd ld && decide (n < 10)
  | .graftEntryWrite ag ld n _ => okAgent ag && okLd ld && decide (n < 64)
  | .allReduce iss body => okIssuer iss && decide (body.length = 32)
  | .reduce iss body => okIssuer iss && decide (body.length = 32)
  | .reduceScatter iss body => okIssuer iss && decide (body.length = 32)
  | .allGather iss body => okIssuer iss && decide (body.length = 32)
  | .broadcast iss body => okIssuer iss && decide (body.length = 32)
  | .allToAll iss body => okIssuer iss && decide (body.length = 32)
  | .combine iss body => okIssuer iss && decide (body.length = 32)
  | .barrier iss body => okIssuer iss && decide (body.length = 32)
  | .rakeReservationGrant ld _ => okLd ld
  | .rakeGrant ld _ _ _ => okLd ld
  | .anchorArrive ld _ _ _ _ _ => okLd ld
  | .contributionArrive ld _ _ _ _ => okLd ld
  | .resultChunkArrive ld _ _ _ _ => okLd ld
  | .chunkAck ld _ _ _ => okLd ld
  | .completionFence ld _ => okLd ld
  | .rakeSlotZeroFillComplete iod ld _ => decide (iod < 2) && okLd ld
  | .collWatchdog ld _ => okLd ld
  | .abortNotice ld _ _ _ _ => okLd ld
  | .colAbort ag ld _ => okAgent ag && okLd ld
  | .update iss body => okIssuer iss && decide (body.length = 32)
  | .updateEngineStart die => decide (die < 10)
  | .fetch iss body => okIssuer iss && decide (body.length = 16)
  | .fetchPoll die _ => decide (die < 10)
  | .fetchWatchdog die => decide (die < 10)
  | .fpcheck iss body => okIssuer iss && decide (body.length = 16)
  | .dfsApply iss body => okIssuer iss && decide (body.length = 16)
  | .phase iss body => okIssuer iss && decide (body.length = 16)
  | .updAbort ag ld _ => okAgent ag && okLd ld
  | .dfsEnable ag ld _ => okAgent ag && okLd ld
  | .dfsRingWaitEnd ld target _ => okLd ld && decide (target < 8)
  | .dfsTargetWatchdog ld target => okLd ld && decide (target < 8)
  | .updateEnginePhaseEnd die _ => decide (die < 10)
  | .ccLaunch iss body => okIssuer iss && decide (body.length = 16)
  | .ccStart ld clu => okLd ld && okClu clu
  | .ccYieldTimeout ld clu => okLd ld && okClu clu
  | .trlLoad iss body => okIssuer iss && decide (body.length = 16)
  | .turn iss body => okIssuer iss && decide (body.length = 16)
  | .xplPlan iss body => okIssuer iss && decide (body.length = 16)
  | .roundBegin ld => okLd ld
  | .roundMoveEnd ld _ _ _ => okLd ld
  | .readyReceive ld _ _ _ => okLd ld
  | .commitReceive ld _ _ => okLd ld
  | .abortReceive ld _ _ _ _ => okLd ld
  | .roundWatchdog ld => okLd ld
  | .roundStateReport ld _ _ _ _ => okLd ld
  | .xplAbort ag ld _ => okAgent ag && okLd ld
  | .cqEnable ag ld q _ => okAgent ag && okLd ld && decide (q < 64)
  | .cqDisable ag ld q _ => okAgent ag && okLd ld && decide (q < 64)
  | .cqTailWrite ag ld q _ => okAgent ag && okLd ld && decide (q < 64)
  | .cqCplHeadWrite ag ld q _ => okAgent ag && okLd ld && decide (q < 64)
  | .commandFetch ld q => okLd ld && decide (q < 64)
  | .queueDrainEnd ld q => okLd ld && decide (q < 64)
  | .reqCplEnable ag ld _ => okAgent ag && okLd ld
  | .launch iss body => okIssuer iss && decide (body.length = 16)
  | .mbxSend ag ld m _ => okAgent ag && okLd ld && decide (m < 32)
  | .mbxRelease ag ld m _ => okAgent ag && okLd ld && decide (m < 32)
  | .mailboxServe ld m => okLd ld && decide (m < 32)
  | .cxlMemRead ld hdm _ _ => okLd ld && decide (hdm < 2)
  | .cxlMemWrite ld hdm _ data _ => okLd ld && decide (hdm < 2) && decide (data.length ≤ 64)
  | .hostSnoop _ => true
  | .backInvalidateResponse _ => true
  | .sessionExchange ld _ _ => okLd ld
  | .domOpen iss body => okIssuer iss && decide (body.length = 16)
  | .domClose iss body => okIssuer iss && decide (body.length = 16)
  | .domCloseComplete dom => decide (dom < 4096)
  | .domQuota iss body => okIssuer iss && decide (body.length = 16)
  | .pageSet iss body => okIssuer iss && decide (body.length = 16)
  | .pageSetMsg ld => okLd ld
  | .pageZeroFillComplete frame => decide (frame < 1277952)
  | .pubKey iss body => okIssuer iss && decide (body.length = 16)
  | .dfsKey iss body => okIssuer iss && decide (body.length = 16)
  | .weightImport iss body => okIssuer iss && decide (body.length = 16)
  | .weightImportComplete ld => okLd ld
  | .attest iss body => okIssuer iss && decide (body.length = 16)
  | .l2TreeCertify => true
  | .minverRaise iss body => okIssuer iss && decide (body.length = 16)
  | .ownerXfer iss body => okIssuer iss && decide (body.length = 16)
  | .nvmInfo => true
  | .nvmErase => true
  | .nvmWrite => true
  | .nvmRead => true
  | .nvmVerify => true
  | .startClear => true
  | .powerOn _ _ => true
  | .romStage _ _ => true
  | .silmuvinStage _ _ lp _ => lp.all fun c => decide (c.1 < 24)
  | .dieJoin die _ => decide (die < 10)
  | .dieBootCodeTimeout die => decide (die < 10)
  | .startLimitExpiry => true
  | .deviceReset ag ld _ => okAgent ag && okLd ld
  | .ldReset ag ld _ => okAgent ag && okLd ld
  | .ldDisable ag ld _ => okAgent ag && okLd ld
  | .ldReenable ag ld _ => okAgent ag && okLd ld
  | .cxlLdReset ld => okLd ld
  | .cxlConventionalReset => true
  | .resetZeroiseComplete e => okScope e.sc && e.chans.all fun c => decide (c.1 < 24)
  | .drainLimitExpiry sc => okScope sc
  | .drainComplete sc => okScope sc
  | .resetNAssert _ => true
  | .resetNDeassert => true
  | .powerLoss => true
  | .overVoltage => true
  | .overVoltageRecovery _ => true
  | .vinOutOfBand _ => true
  | .railOutOfRegulation => true
  | .clockFault _ => true
  | .thermAssert _ _ => true
  | .thermRelease _ _ => true
  | .thermalTrip _ _ => true
  | .coolantAlarm _ _ => true
  | .sidebandFault _ => true
  | .vauxCurrentLimit => true
  | .healthTestChange _ => true
  | .i3cRegisterWrite _ _ => true
  | .pwrBcLimitWrite _ => true
  | .pwrBcErrClear _ => true
  | .entdaa _ => true
  | .setdasa _ => true
  | .rstdaa => true
  | .enec _ => true
  | .disec _ => true
  | .getpid => true
  | .getbcr => true
  | .getdcr => true
  | .getstatus => true
  | .getmxds => true
  | .kvCommandComplete die _ => decide (die < 10)

end Sys2Proof
end

