-- ==== Sys2Proof/Tests/Slice0.lean ====
section
/-! SUPPORT. Tests of single commands on a small running module: for every statement a witness that meets its hypotheses, the values that
the spec's rules and worked examples give, and ill-formed terms that well-formedness refuses. -/

open Sys2Proof Sys2Proof.Machine

namespace Sys2Proof.Tests

set_option Elab.async false

/-! ## A small running module: LD 0 with die 0, channel 0, ports 0 and 1 and domains 0 to 3, and LD 15 with domain 100 -/

def lay0 : Layout :=
  { populated := true, ldClass := 1, dieMask := 1, chanMask := 1, portMask := 3, quota0 := 100, quota1 := 100, domBase := 0, domCount := 4,
    did := 5, ldid := 5 }

/-- An LD at level 2. -/
def up (lay : Layout) : Ld := let l := Ld.init lay 1 7; { l with ctl := { l.ctl with service := 2 } }

def openDom : Domain := { Domain.init with st := .open, kvQ := 1000, reqQ := 100, rakeQ := 1000 }

def image : Image :=
  { fwVer := 2, imgVer := 2, fwHash := [], imgHash := [], lds := [], limitW := 2000, boostEn := false, pinMask := 0, pinMv := 0, periodH := 24,
    startS := 300, boot := [], exDies := 0, exStacks := 0, exChans := 0, reqArea := 0x42000000000, tagArea := 0x42010000000, trlMask := 0, trls := [] }

def die0 : Die := { Die.init with joined := true, calibrated := true, conservative := false, tap := 30, fp4fp6 := true }

/-- A frame of domain 1. -/
def ours : PageTag := { PageTag.init with st := .assigned, domain := 1, host := true, fabric := true }

/-- Queue 0 of LD 0, ENABLED for domain 1 with its ring in frame 0. -/
def cq0 : Cq := { Cq.init with st := .enabled, domain := 1, cbase := 0x10000 }

def ld0 : Ld := let l := up lay0; { l with host := { l.host with cqs := [(0, cq0)] } }

def dev : Dev :=
  { Dev.init { Pins.init with resetN := true, ready := true, vin := 4800 } I3c.init 0 with
    lds := [(0, ld0), (15, up { Layout.init with domBase := 100, domCount := 1 })], dies := [(0, die0)],
    boot := { Boot.init with stage := .up, level2 := true, image := some image }, domains := [(0, openDom), (1, openDom), (2, openDom), (100, openDom)],
    units := [(0, { Unit.init with inService := true }), (1, { Unit.init with inService := true }), (32, { Unit.init with inService := true })],
    tags := [(0, ours), (1, ours), (2, ours)] }

def st : State := { pending := [], vault := { Vault.init with leaves := 3 }, now := 1000, dev := dev }

/-- The device of a command's answer. -/
def after (r : Result) : Dev :=
  match r with
  | .next t => t.dev
  | .fault _ => dev
  | .refused _ => dev

/-- A device in which no key has been drawn and no codeword has an error. -/
def still (d : Dev) : Bool :=
  d.poison.isEmpty && d.upsets.isEmpty && d.snoops.isEmpty && d.lpKeys.isEmpty && d.keySeeds.isEmpty && d.domains.all fun e => e.2.memKey.isEmpty

theorem quiet_of_still {d : Dev} (h : still d = true) : d.quiet := by
  simp only [still, Bool.and_eq_true, List.isEmpty_iff, List.all_eq_true] at h
  obtain ⟨⟨⟨⟨⟨h1, h2⟩, h3⟩, h4⟩, h5⟩, h6⟩ := h
  refine Dev.quiet_of h1 h2 h3 h4 h5 fun n => ?_
  unfold Dev.dom Map.get
  cases hf : Map.find d.domains n with
  | none => rfl
  | some x => exact h6 _ (Map.find_mem hf)

/-- No page keeps a source frame for its readers. -/
theorem old_of {d : Dev} (h : (d.kv.all fun e => e.2.old.isEmpty) = true) (k : Nat) : (d.kvE k).old = [] := by
  simp only [List.all_eq_true, List.isEmpty_iff] at h
  unfold Dev.kvE Map.get
  cases hf : Map.find d.kv k with
  | none => rfl
  | some x => exact h _ (Map.find_mem hf)

/-- A command of queue 0. -/
def q0 : Issuer := .queue 0 0 1 0


/-- The state of a command's answer. -/
def stateOf (r : Result) : State :=
  match r with
  | .next t => t
  | .fault _ => st
  | .refused _ => st

/-- The state with another device. -/
def on (d : Dev) : State := { st with dev := d }

/-- Die 0 at another tap, and before its calibration. -/
def atTap (n : Nat) : State := on { dev with dies := [(0, { die0 with tap := n })] }
def uncal : State := on { dev with dies := [(0, { Die.init with joined := true })], boot := { dev.boot with level2 := false } }

/-- Tests that find nothing, and one that finds a pin of channel 0 or of a pseudo-channel that no lane can replace. -/
def sound : DramTest := { pins := [], lanes := 0, checker := [] }
def broken : DramTest := { sound with pins := (List.range 12).map fun i => (0, i) }
def goodSram : SramTest := { arrays := [], checker := [] }
def badSram : SramTest := { arrays := [{ array := 0, rows := [1, 2, 3, 4, 5], cols := [] }], checker := [] }

/-- Registers with values in g1, g2 and so on. -/
def regs (vs : List W64) : CtlRegs :=
  { CtlRegs.init with normal := Vector.ofFn fun (i : Fin 32) => if i.val = 0 then 0 else vs.getD (i.val - 1) 0 }

/-- Cluster 0 of die 0, which runs for domain 1 as a die's boot code does. -/
def clu (vs : List W64) : Cluster := { Cluster.init with st := .running, domain := 1, occ := some .boot, ctl := { regs vs with vecExc := 0x40 } }

/-- The device with one cluster, and the state of a program with values in its registers. -/
def withClu (c : Cluster) : Dev := { dev with clusters := [(0, c)] }
def prog (vs : List W64) : State := on (withClu (clu vs))

/-- The same in a handler of the normal or of the fast class. -/
def inClass (fast : Bool) : State :=
  let c := clu [8]
  on (withClu { c with ctl := { c.ctl with status := if fast then 8 else 4, epc := 0x80, fpc := 0x90, vecNormal := 0xC0, vecFast := 0xD0 } })

/-- Memory that holds words at an address. -/
def poke (m : Mem) (a : Nat) (ws : List W32) : Mem := Mem.writeN memDefault m a (wordsToBytes ws)

/-- A matrix descriptor of unscaled INT8 operands of 8 elements, a vector copy of two FP32 elements, and a DMA copy of 16 bytes. -/
def mxWords : List W32 := [0x00236601, 0x200201, 0x80000, 0x80008, 0x80010, 0, 0x3F800000, 5]
def vecWords : List W32 := [0x92102, 0x401, 0, 0x200, 0x80000, 0, 0, 0x80040, 0, 0, 0x2048009] ++ List.replicate 21 0
def dmaWords : List W32 := [0x70210, 0x100, 0, 0x1000, 0, 16, 1, 0, 16] ++ List.replicate 7 0

/-- The operands of the matrix operation: (1, 2, ..., 8) and (1, -1, 0, 0, 0, 0, 0, 2). -/
def operands : Mem := poke (poke [] (cacheAddr 0 0 0) [0x04030201, 0x08070605]) (cacheAddr 0 0 8) [0xFF01, 0x2000000]

/-- A program whose store holds the three descriptors at 0x100, 0x200 and 0x300. -/
def issuing (c : Cluster) : State :=
  on { withClu c with mem := poke (poke (poke operands (storeAddr 0 0x100) mxWords) (storeAddr 0 0x200) vecWords) (storeAddr 0 0x300) dmaWords }

/-- A cluster whose mover queue holds one command, and one whose core 0 holds operations. -/
def moving (m : MoverCmd) : State := issuing { clu [] with mover := [m] }
def coring (k : Core) : State := issuing { clu [] with cores := [(0, k)] }

/-- A catch-crop job of clusters 0 and 1 with its save area in frame 1, and its program that waits in YIELD g3. -/
def cropJob : CropJob :=
  { tkt := { iss := q0, op := 0x11, btag := 0 }, dom := 1, code := 0, len := 8, save := 0x400000, arg := 0, todo := [0, 1], on := [0, 1], halted := [],
    failCode := 0, late := false, aborted := false }
def yielding (y : YieldReason) : State :=
  on { withClu { clu [1, 2] with occ := some .crop, yieldReq := some y, atYield := some 3 } with
    lds := [(0, { ld0 with ctl := { ld0.ctl with crop := some cropJob } }), (15, up Layout.init)] }

/-! ## The fabric -/

/-- Port 0 as given and port 1 ACTIVE with neighbour 9, credits for a longest packet each, and routes to DIDs 8 and 9 over ports 0 and 1. -/
def credits8 : Map Nat := (List.range 8).map fun k => (k, 129)
def active (did : BitVec 14) : Port := { Port.init with st := .active, enable := true, nbrDid := did, credits := credits8, rxSeq := 1023 }
def fabLd (f : FabRegs → FabRegs) : Ld :=
  { ld0 with fab := f { ld0.fab with routes := [(8, { valid := true, n := 0, ports := 0 }), (9, { valid := true, n := 0, ports := 1 })] } }
def ported (p : Port) (f : FabRegs → FabRegs) : State :=
  on { dev with ports := [(0, p), (1, active 9)], lds := [(0, fabLd f), (15, up { Layout.init with domBase := 100, domCount := 1 })] }

/-- The device as given with ports 0 and 1 ACTIVE towards members 8 and 9 and credits for whole pages. -/
def linked (d : Dev) : State :=
  let a := fun (did : BitVec 14) => { active did with credits := (List.range 8).map fun k => (k, 1000000) }
  on { d with ports := [(0, a 8), (1, a 9)], lds := Map.set d.lds 0 { d.ld 0 with fab := (fabLd id).fab } }

/-! ## Registers, time and power -/

theorem witness_PageRegistersReadAndWrite :
    reachesPage .mc 15 = true ∧ st.dev.pageMode 15 = .full ∧ reachesPage (.host 0) 0 = true ∧ st.dev.pageMode 0 = .full ∧
      (fld (0x1000 : W32) 31 13 = 0 ∧ fld (0x1000 : W32) 11 0 = 0) ∧ fld (3000 : W32) 11 0 = 3000 ∧ fld (0x2000 : W32) 31 13 ≠ 0 ∧
      fld (999 : W32) 11 0 = 999 ∧ fld (3001 : W32) 11 0 = 3001 ∧
      ((0x1000000 : W32).getLsbD 24 = true ∧ fld (0x1000000 : W32) 31 25 = 0) ∧ ((0x3000000 : W32).getLsbD 24 = true ∧ fld (0x3000000 : W32) 31 25 ≠ 0) ∧
      (4 : W32) ≠ BitVec.ofNat 32 (st.pageValue 0 8) ∧ (fld (1 : W32) 31 16 = 0 ∧ fld (1 : W32) 15 0 ≠ 0) := by decide +kernel

theorem test_page_registers :
    (after (exec (.pwrLimitWrite .mc 15 1000) st)).pwr.hostLimit = 1000 ∧
      ((after (exec (.pwrLimitWrite .mc 15 999) st)).ld 15).ctl.errCode = eRange ∧
      ((after (exec (.ldErrClear .mc 15 0x1000000) (stateOf (exec (.pwrLimitWrite .mc 15 999) st)))).ld 15).ctl.errCode = 0 ∧
      ((after (exec (.registerWrite (.host 0) (.ld 0) 0x24 4 1) st)).ld 0).ctl.errCode = eRange ∧
      ((after (exec (.registerWrite (.host 0) (.ld 0) 0x18 4 20) st)).ld 0).ctl.yieldUs = 20 := by decide +kernel

theorem witness_TimePowerAndCalibration :
    (st.dev.die 0).joined = true ∧ 255 / 256 = 0 ∧ (st.dev.die 0).tap = 30 ∧ ((atTap 62).dev.die 0).tap = 62 ∧ ((atTap 63).dev.die 0).tap = 63 ∧
      st.dev.pins.rails = true ∧ ((uncal).dev.die 0).joined = true ∧ ((uncal).dev.die 0).calibrated = false ∧ uncal.dev.startCount < 3 ∧
      (∀ n, n < 10 → 700 ≤ (st.dev.die n).vcore ∧ (st.dev.die n).vcore ≤ 850 ∧ (st.dev.die n).pacing ≤ 15) ∧ st.dev.pins.therm = false ∧
      st.dev.limit.1 < 3001 ∧ (st.dev.die 0).pinned = st.dev.spent ∧ st.dev.setting 0 ≠ ⟨700, 15⟩ ∧ uncal.dev.excluded (.stack 0) = false := by decide +kernel

theorem test_time_power_calibration :
    (stateOf (exec (.elapsedTick []) st)).now = 1001 ∧ ((after (exec (.slackTrip 0 7) (atTap 62))).die 0).conservative = true ∧
      ((after (exec (.slackTrip 0 7) st)).die 0).tap = 31 ∧ ((after (exec (.slackTrip 0 7) (atTap 63))).die 0).marginLost = true ∧
      (after (exec (.powerSample 1234 [55] []) st)).pwr.draw = 1234 ∧
      ((after (exec (.dieCalibration 0 sound sound 9 9 61) uncal)).die 0).tap = 63 ∧
      ((after (exec (.dieCalibration 0 sound sound 9 9 61) uncal)).die 0).conservative = false ∧
      ((after (exec (.dieCalibration 0 sound sound 9 9 62) uncal)).die 0).conservative = true ∧
      ((after (exec (.dieCalibration 0 broken sound 9 9 61) uncal)).unit (.stack 0)).inService = false ∧
      ((after (exec (.dieCalibration 0 sound sound 9 9 61) uncal)).unit (.stack 0)).inService = true := by decide +kernel

/-! ## The control core -/

theorem fetchOk_prog : (prog [5, 7]).dev.fetchOk 0 := by unfold Dev.fetchOk; decide +kernel

theorem witness_ControlCoreArithmetic : (1 : Reg) ≠ 0 ∧ (2 : Reg) ≠ 1 ∧ (prog [5, 7]).dev.fetchOk 0 ∧ (prog [5, 0]).dev.reg 0 2 = 0 := by
  unfold Dev.fetchOk; decide +kernel

theorem test_arithmetic :
    let s := prog [BitVec.ofInt 64 (-7), 3]
    (after (exec (.add 0 3 1 2) s)).reg 0 3 = BitVec.ofInt 64 (-4) ∧ (after (exec (.sub 0 3 2 1) s)).reg 0 3 = 10 ∧
      (after (exec (.sar 0 3 1 2) s)).reg 0 3 = BitVec.ofInt 64 (-1) ∧ (after (exec (.slt 0 3 1 2) s)).reg 0 3 = 1 ∧
      (after (exec (.sltu 0 3 1 2) s)).reg 0 3 = 0 ∧ (after (exec (.mulh 0 3 1 2) s)).reg 0 3 = BitVec.allOnes 64 ∧
      (after (exec (.divu 0 3 1 0) s)).reg 0 3 = BitVec.allOnes 64 ∧ (after (exec (.remu 0 3 2 0) s)).reg 0 3 = 3 ∧
      (after (exec (.addi 0 0 1 9) s)).reg 0 0 = 0 ∧ ((after (exec (.lui 0 3 0x7000) s)).clu 0).ctl.pc = 4 := by decide +kernel

theorem test_more_arithmetic :
    let s := prog [0xF0, 0x3C, 65]
    (after (exec (.and 0 4 1 2) s)).reg 0 4 = 0x30 ∧ (after (exec (.or 0 4 1 2) s)).reg 0 4 = 0xFC ∧
      (after (exec (.xor 0 4 1 2) s)).reg 0 4 = 0xCC ∧ (after (exec (.shl 0 4 1 3) s)).reg 0 4 = 0x1E0 ∧
      (after (exec (.shr 0 4 1 3) s)).reg 0 4 = 0x78 ∧ (after (exec (.mul 0 4 1 2) s)).reg 0 4 = 0x3840 := by decide +kernel

theorem witness_BranchesSetPc : (prog [5, 5]).dev.fetchOk 0 ∧ (prog [5, 5]).dev.reg 0 1 = (prog [5, 5]).dev.reg 0 2 := by
  unfold Dev.fetchOk; decide +kernel

theorem test_branches :
    let s := prog [BitVec.ofInt 64 (-1), 1]
    let pc := fun (i : Instr) => ((after (exec i s)).clu 0).ctl.pc
    pc (.blt 0 1 2 0x100) = 0x100 ∧ pc (.bge 0 1 2 0x100) = 4 ∧ pc (.beq 0 1 1 0x100) = 0x100 ∧ pc (.bne 0 1 1 0x100) = 4 ∧
      pc (.jal 0 3 0x200) = 0x200 ∧ pc (.jalr 0 3 2 7) = 8 ∧ (after (exec (.jal 0 3 0x200) s)).reg 0 3 = 4 := by decide +kernel

/-- The addresses 8 and 12 of domain 1, one outside the address space, one unaligned and one of no domain. -/
theorem witness_LoadsAndStores :
    let s := prog [8, 12, 0x100000000000, 9, 0x40000000000]
    s.dev.quiet ∧ s.memWf ∧ s.dev.fetchOk 0 ∧ s.dev.ctlAccess 0 false 8 8 = none ∧ s.dev.ctlAccess 0 true 12 4 = none ∧
      (s.dev.clu 0).ctl.inHandler = false ∧ 2 ^ 44 ≤ (s.dev.reg 0 3).toNat ∧ ((s.dev.reg 0 4).toNat < 2 ^ 44 ∧ (s.dev.reg 0 4).toNat % 8 ≠ 0) ∧
      s.dev.busCode (.clu 0) false 0x40000000000 8 = some ePerm ∧ s.dev.busCode (.clu 0) true 0x40000000000 8 = some ePerm := by
  repeat' apply And.intro
  all_goals first | decide +kernel | exact (quiet_of_still (by decide +kernel)).2.2.2

theorem test_loads_and_stores :
    let s := prog [8, 0x1122334455667788, 9]
    let t := stateOf (exec (.st 0 .b8 2 1) s)
    (t.dev.byte 8 = 0x88 ∧ t.dev.byte 15 = 0x11) ∧ (after (exec (.ld 0 .b8 5 1) t)).reg 0 5 = 0x1122334455667788 ∧
      ((after (exec (.ld 0 .b8 5 3) s)).clu 0).clu.excCause = 1 ∧ ((after (exec (.ld 0 .b8 5 3) s)).clu 0).clu.excCode = eAlign ∧
      ((after (exec (.ld 0 .b8 5 3) s)).clu 0).ctl.pc = 0x40 ∧ ((after (exec (.ld 0 .b8 5 3) s)).clu 0).ctl.status = 4 := by decide +kernel

theorem witness_ExceptionsAndProgramEnd :
    (prog [8]).dev.fetchOk 0 ∧ ((prog [8]).dev.clu 0).ctl.inHandler = false ∧ (inClass true).dev.fetchOk 0 ∧
      ((inClass true).dev.clu 0).ctl.inFast = true ∧ ((inClass false).dev.clu 0).ctl.inFast = false ∧ ((inClass false).dev.clu 0).ctl.inNormal = true ∧
      ((inClass false).dev.clu 0).ctl.inHandler = true ∧ (inClass false).dev.launches = [] ∧ ((inClass false).dev.clu 0).occ = some .boot ∧
      (prog [0]).dev.quiet ∧ ((prog [0]).dev.clu 0).occ ≠ some .crop ∧ ((prog [0]).dev.clu 0).ctl.normal.get 1 = 0 := by
  repeat' apply And.intro
  all_goals first | decide +kernel | exact (quiet_of_still (by decide +kernel)).2.2.2

theorem test_exceptions_and_end :
    ((after (exec (.undefinedInstruction 0) (prog [8]))).clu 0).clu.excCause = 2 ∧ ((after (exec (.iret 0) (inClass true))).clu 0).ctl.pc = 0x90 ∧
      ((after (exec (.iret 0) (inClass false))).clu 0).ctl.pc = 0x80 ∧ ((after (exec (.undefinedInstruction 0) (inClass false))).clu 0).st = .stopped ∧
      ((after (exec (.halt 0) (prog [0]))).clu 0).st = .idle ∧ (after (exec (.mfs 0 2 .vecExc) (prog [8]))).reg 0 2 = 0x40 ∧
      ((after (exec (.mts 0 .vecExc 1) (prog [8]))).clu 0).ctl.vecExc = 8 ∧ ((after (exec (.mts 0 .status 1) (prog [8]))).clu 0).clu.errCode = eRange := by
  decide +kernel

theorem witness_ClusterRegistersAndWaits :
    let s := prog [31, 32, 0x10000, 1]
    s.dev.fetchOk 0 ∧ fld ((s.dev.reg 0 1).setWidth 32 : W32) 31 16 = 0 ∧ fld ((s.dev.reg 0 3).setWidth 32 : W32) 31 16 ≠ 0 ∧
      (0x1E : BitVec 14).toNat % 4 ≠ 0 ∧ (s.dev.reg 0 1).toNat < 32 ∧ 32 ≤ (s.dev.reg 0 2).toNat ∧
      0 ≤ ((s.dev.clu 0).clu.dmaDone - (0 : W32)).toInt ∧ ((s.dev.clu 0).clu.dmaDone - (s.dev.reg 0 4).setWidth 32).toInt < 0 := by
  unfold Dev.fetchOk; decide +kernel

theorem test_cluster_registers :
    let s := prog [31, 32, 0x10000, 1]
    ((after (exec (.csrw 0 8 1) s)).clu 0).clu.errCode = 31 ∧ ((after (exec (.csrw 0 8 3) s)).clu 0).clu.errCode = eReservedNonzero ∧
      (after (exec (.csrr 0 5 0x30) s)).reg 0 5 = 0 ∧ (after (exec (.tagr 0 5 2) s)).reg 0 5 = BitVec.allOnes 64 ∧
      (after (exec (.elap 0 5) s)).reg 0 5 = 1000 ∧ ((after (exec (.fence 0 0x1F 1) s)).clu 0).ctl.pc = 4 ∧
      ((after (exec (.dmaw 0 4) s)).clu 0).ctl.pc = 0 ∧ ((after (exec (.dmaw 0 0) s)).clu 0).ctl.pc = 4 := by decide +kernel

/-! ## Issue, mover, DMA and the cores -/

/-- The clusters of the tests of this part: the registers name the descriptors at 0x100, 0x200 and 0x300 and core 0. -/
def issue : Cluster := clu [0x100, 1, 0x200, 0x300]

theorem witness_IssueChecksAndQueues :
    let s := issuing issue
    s.dev.quiet ∧ s.dev.fetchOk 0 ∧ (s.dev.reg 0 2).setWidth 32 = (1 : W32) ∧ (s.dev.reg 0 1).toNat % 4 = 0 ∧ (s.dev.reg 0 2).toNat % 4 ≠ 0 ∧
      bytesToWords 8 (s.dev.bytes (storeAddr 0 0x100) 32) = mxWords ∧ (s.dev.clu 0).clu.coreFault &&& 1 = 0 ∧
      (((s.dev.clu 0).core 0).mq = [] ∧ ((s.dev.clu 0).core 0).vq = []) ∧ mxCheck mxWords (s.dev.die 0).fp4fp6 = none ∧
      bytesToWords 32 (s.dev.bytes (storeAddr 0 0x200) 128) = vecWords ∧ vecCheck vecWords = none ∧ progBad (vecDesc vecWords) [] = false := by
  repeat' apply And.intro
  all_goals first | decide +kernel | exact (quiet_of_still (by decide +kernel)).2.2.2

theorem test_issue :
    let s := issuing issue
    (after (exec (.issueM 0 5 1 2) s)).reg 0 5 = 0 ∧ ((after (exec (.issueM 0 5 1 2) s)).clu 0).core 0 = { Core.init with mq := [{ words := mxWords }] } ∧
      (after (exec (.issueM 0 5 1 0) s)).reg 0 5 = eRange.setWidth 64 ∧ (after (exec (.issueM 0 5 2 2) s)).reg 0 5 = eAlign.setWidth 64 ∧
      ((after (exec (.issueV 0 5 3 2) s)).clu 0).core 0 = { Core.init with vq := [{ words := vecWords, prog := [] }] } := by decide +kernel

/-- The words of the example at the end of spec/04_matrix_unit.md. -/
def mxExample : List W32 := [0x04203401, 0x02008020, 0x00800000, 0x00801000, 0x01003000, 0, 0x3B800000, 0x41, 0x00F00070, 0x11, 0, 0]

/-- Expected from that example. -/
theorem test_matrix_example :
    let x := mxDesc mxExample
    mxCheck mxExample true = none ∧ (x.m, x.n, x.k) = (32, 64, 128) ∧ (x.aFmt, x.bFmt, x.cFmt, x.passes) = (4, 3, 0, 1) ∧
      (x.a.fin, x.b.fin, x.c.fin) = (0x1000, 0x3000, 0x5000) ∧ (x.row0, x.col0, x.keep) = (112, 240, 0x11) ∧
      (List.range 9).filter x.intersects = [0, 1, 3, 4] := by decide +kernel

theorem witness_MoverPostsAndMoves :
    let x : W64 := 0x80000100
    let c := clu [0x100, 8, 1, 0x108]
    let s := on (withClu c)
    s.dev.fetchOk 0 ∧ c.mover.length < 8 ∧ (s.dev.reg 0 1 >>> 31 = 0 ∧ s.dev.reg 0 2 >>> 15 = 0 ∧ s.dev.reg 0 3 >>> 32 = 0 ∧ s.dev.reg 0 3 ≠ 0) ∧
      x >>> 31 ≠ 0 ∧ s.dev.quiet ∧ s.memWf ∧ (moving (.load 0x100 0 8 3)).dev.quiet ∧
      ((moving (.load 0x100 0 8 3)).dev.clu 0).mover = [.load 0x100 0 8 3] := by
  repeat' apply And.intro
  all_goals first | decide +kernel | exact (quiet_of_still (by decide +kernel)).2.2.2

theorem test_mover :
    let s := on (withClu (clu [0x100, 8, 1, 0x108]))
    ((after (exec (.ocld 0 5 1 2 3) s)).clu 0).mover = [.load 0x100 0 8 1] ∧ ((after (exec (.csz 0 5 1 2) s)).clu 0).mover = [.zeroStore 0x100 8] ∧
      (after (exec (.csz 0 5 1 0) s)).reg 0 5 = eRange.setWidth 64 ∧ ((after (exec (.ocst 0 5 1 2 3) s)).clu 0).mover = [.save 0x100 0 8 1] ∧
      ((after (exec (.ocz 0 5 0 2 3) s)).clu 0).mover = [.zeroCache 0 8 1] ∧
      (after (exec (.moverCommandFinish 0) (moving (.load 0x100 0 8 3)))).bytes (cacheAddr 0 1 0) 4 = [1, 0x66, 0x23, 0] ∧
      (after (exec (.moverCommandFinish 0) (moving (.zeroStore 0x100 8)))).bytes (storeAddr 0 0x100) 12 = [0, 0, 0, 0, 0, 0, 0, 0, 0, 0, 8, 0] := by
  decide +kernel

/-- OCLT of one element of 4 bytes from column 0 of two lines of the transposing region. -/
theorem test_mover_transposed :
    ((after (exec (.oclt 0 5 1 2 3) (on (withClu (clu [0, 0x20002, 1]))))).clu 0).mover = [.loadT 0 4 0 0 2 1 1] := by decide +kernel

theorem witness_DmaPostsAndRuns :
    let s := issuing issue
    let e : DmaEntry := { words := dmaWords, started := false, finished := false }
    s.dev.quiet ∧ s.memWf ∧ s.dev.fetchOk 0 ∧ (s.dev.reg 0 4).toNat = 0x300 ∧ bytesToWords 16 (s.dev.bytes (storeAddr 0 0x300) 64) = dmaWords ∧
      firstFail (dmaFields dmaWords 0) = none ∧ s.dev.dmaReach 0 (dmaDesc dmaWords) = none ∧ (dmaDesc dmaWords).meets 0 = false ∧
      (s.dev.clu 0).clu.dmaErr = false ∧ (issuing { issue with dma := [e] }).dev.clu 0 = { issue with dma := [e] } ∧
      ((dmaDesc dmaWords).rows = 1 ∧ (dmaDesc dmaWords).cores = 0 ∧ (dmaDesc dmaWords).src + (dmaDesc dmaWords).len ≤ (dmaDesc dmaWords).dst) ∧
      s.dev.dmaReach 0 (dmaDesc (dmaWords.set 4 4)) = some ePerm := by
  repeat' apply And.intro
  all_goals first | decide +kernel | exact (quiet_of_still (by decide +kernel)).2.2.2

theorem test_dma :
    let e : DmaEntry := { words := dmaWords, started := true, finished := false }
    let run := issuing { issue with dma := [e] }
    let s := on { run.dev with mem := poke run.dev.mem 0x100 [0x11223344] }
    ((after (exec (.dmap 0 5 4) (issuing issue))).clu 0).dma = [{ e with started := false }] ∧
      (after (exec (.dmap 0 5 2) (issuing issue))).reg 0 5 = eAlign.setWidth 64 ∧
      ((after (exec (.dmaDescriptorStart 0) (issuing { issue with dma := [{ e with started := false }] }))).clu 0).dma = [e] ∧
      (after (exec (.dmaDescriptorFinish 0 0) s)).bytes 0x1000 4 = [0x44, 0x33, 0x22, 0x11] ∧
      ((after (exec (.dmaDescriptorFinish 0 0) s)).clu 0).clu.dmaDone = 1 ∧ ((after (exec (.dmaDescriptorFinish 0 0) s)).clu 0).clu.dmaNote = true := by
  decide +kernel

theorem witness_YieldAndHandOver :
    let s := yielding .handOver
    (prog []).dev.fetchOk 0 ∧ ((prog []).dev.clu 0).yieldReq = none ∧ s.dev.quiet ∧ s.memWf ∧ (s.dev.clu 0).atYield = some 3 ∧ (s.dev.clu 0).drained = true ∧
      (s.dev.clu 0).yieldReq = some .handOver ∧ (s.dev.clu 0).occ = some .crop ∧ s.dev.ldOfDie 0 = 0 ∧ (s.dev.ld 0).ctl.crop = some cropJob ∧
      1 ∈ cropJob.on ∧ cropJob.save + 1024 ≤ sramBase ∧ s.dev.launches = [] ∧
      ((yielding .stop).dev.snoops = [] ∧ ((yielding .stop).dev.clu 0).yieldReq = some .stop) := by
  repeat' apply And.intro
  all_goals first | decide +kernel | exact (quiet_of_still (by decide +kernel)).2.2.2

theorem test_yield :
    (after (exec (.yield 0 3) (prog []))).reg 0 3 = 0 ∧
      ((after (exec (.yield 0 3) (on (withClu { clu [] with yieldReq := some .handOver })))).clu 0).st = .handingOver ∧
      ((after (exec (.handOver 0) (yielding .handOver))).clu 0).occ = none ∧
      (((after (exec (.handOver 0) (yielding .handOver))).clu 0).saved.map fun x => (x.ctl.normal.get 3, x.ctl.pc)) = some (1, 4) := by decide +kernel

theorem witness_CoreOperationsRun :
    let op : MxOp := { words := mxWords }
    let vo : VecOp := { words := vecWords, prog := [] }
    let s := coring { Core.init with mq := [op], mrun := true, vq := [vo], vrun := true }
    s.dev.quiet ∧ ((s.dev.clu 0).core 0).mrun = true ∧ ((s.dev.clu 0).core 0).mq = [op] ∧ ((s.dev.clu 0).core 0).vq = [vo] ∧
      ((coring { Core.init with mq := [op] }).dev.clu 0).core 0 = { Core.init with mq := [op] } := by
  repeat' apply And.intro
  all_goals first | decide +kernel | exact (quiet_of_still (by decide +kernel)).2.2.2

theorem test_core_operations :
    let s := coring { Core.init with mq := [{ words := mxWords }], mrun := true, vq := [{ words := vecWords, prog := [] }], vrun := true }
    (after (exec (.matrixOpEnd 0 0) s)).bytes (cacheAddr 0 0 16) 4 = [15, 0, 0, 0] ∧ (((after (exec (.matrixOpEnd 0 0) s)).clu 0).core 0).mtag = 5 ∧
      (((after (exec (.matrixOpEnd 0 0) s)).clu 0).core 0).mcnt = 1 ∧ (((after (exec (.vectorOpEnd 0 0) s)).clu 0).core 0).vtag = 9 ∧
      (after (exec (.matrixOpStart 0 0) s)) = s.dev ∧ (after (exec (.vectorOpStart 0 0) s)) = s.dev := by decide +kernel

/-! ## Interrupts and the protection of memory -/

/-- An interrupt controller with the soft sources 45 (normal, priority 3), 46 (normal, 3) and 47 (fast, 0) up and unmasked. -/
def icu3 : Icu :=
  { Icu.init with
    enable := true, mask := 0, soft := 0xE0
    cfg := [(45, { SrcCfg.init with prio := 3 }), (46, { SrcCfg.init with prio := 3 }), (47, { SrcCfg.init with fast := true, vector := 9 })] }
def icuOn (x : Icu) : State := on (withClu { clu [] with icu := x, ctl := { (clu []).ctl with status := 3 } })

theorem witness_InterruptsArbitrateAndDeliver :
    let d := (icuOn icu3).dev
    let e := (icuOn { icu3 with insvc := 2 ^ 63 }).dev
    (d.eligible (.clu 0) = [45, 46, 47] ∧ (d.icu (.clu 0)).src 47 = { SrcCfg.init with fast := true, vector := 9 }) ∧
      (icuOn { icu3 with enable := false }).dev.eligible (.clu 0) = [] ∧ d.reachesBlock .mc 0 = true ∧ (e.clu 0).icu.insvc.getLsbD 63 = true ∧
      (d.clu 0).icu.insvc.getLsbD 63 = false ∧ d.pageMode 0 = .full ∧ fld 0xFF 10 0 = icuSources (.ld 0) - 1 ∧ fld 0x100FF 31 16 ≠ 0 ∧ fld 0xFFFF 31 16 = 0 := by
  decide +kernel

theorem test_interrupts :
    let won := stateOf (exec (.icuWin (.clu 0)) (icuOn icu3))
    let two := stateOf (exec (.icuWin (.clu 0)) (icuOn { icu3 with cfg := icu3.cfg.take 2 }))
    (won.dev.clu 0).icu.devWin = some { src := 47, fast := true, vector := 9 } ∧ (won.dev.clu 0).icu.insvc = 2 ^ 47 ∧
      (two.dev.clu 0).icu.devWin = some { src := 45, fast := false, vector := 0 } ∧
      ((after (exec (.handlerEntry (.clu 0)) won)).clu 0).ctl.status = 11 ∧ ((after (exec (.handlerEntry (.clu 0)) won)).clu 0).icu.fastSrc = some 47 ∧
      ((after (exec (.icuEoi .mc (.clu 0) 47) won)).clu 0).icu.insvc = 0 ∧ ((after (exec (.icuEoi .mc (.clu 0) 45) won)).clu 0).clu.errCode = eState ∧
      ((after (exec (.icuEoi .mc (.clu 0) 64) won)).clu 0).clu.errCode = eRange := by decide +kernel

def hostIcu : State :=
  let h := { ld0.host with icu := { Icu.init with hostWin := some { src := 3, fast := false, vector := 2 }, insvc := 8 },
                           msix := [(2, { MsixEntry.init with masked := false, addr := 0x1000, data := 77 })] }
  on { dev with lds := [(0, { ld0 with host := h }), (15, up Layout.init)] }

theorem test_msix_and_maxima :
    (after (exec (.msixPost 0) hostIcu)).out = [.msix 0 2 0x1000 77] ∧ ((after (exec (.icuEoi .mc (.ld 0) 3) hostIcu)).ld 0).host.icu.insvc = 0 ∧
      ((after (exec (.rmaxClear .mc 0 0x0101) (on (withClu { clu [] with clu := { (clu []).clu with sat := 0xFF } })))).clu 0).clu.sat = 0xFE ∧
      ((after (exec (.rmaxClear .mc 0 0x10000) (prog []))).clu 0).clu.errCode = eReservedNonzero := by decide +kernel

/-- Unit 0 (stack 0) with the scrub on, the codewords 0 and 32 with errors and one row resource left. -/
def scrubbing (syms : List Nat) (x : Machine.Unit) : State :=
  on { dev with units := [(0, { x with inService := true }), (32, { Unit.init with inService := true })], memCtl := { MemCtl.init with scrubEn := true },
                upsets := if syms = [] then [] else [(32, syms)] }

/-- The second codeword of a pass, and a running repair of row 7. -/
def next : Machine.Unit := { Unit.init with scrubbed := 1 }
def row7 : RowRepair := { row := 7, addr := 0x40, cmd := true }

theorem witness_ErrorsScrubAndRepair :
    let s := scrubbing [5] next
    let v := scrubbing [5, 6] { next with free := 0 }
    let r := scrubbing [] { Unit.init with running := some row7, free := 1 }
    let c := scrubbing [] { Unit.init with committing := true, soft := [3, 4] }
    s.dev.memCtl.scrubEn = true ∧ (s.dev.unit (.stack 0)).inService = true ∧ scrubAt (.stack 0) 1 = 32 ∧ unitOf 32 = some (.stack 0) ∧ 32 ∉ s.dev.poison ∧
      (odcMark ∉ Map.get s.dev.upsets 32 [] ∧ Map.get s.dev.upsets 32 [] = [5]) ∧
      verdict (.stack 0) ((s.dev.unit (.stack 0)).markedOf (pchOf 32)) [5] = .corrected [5] ∧
      5 ∉ (s.dev.unit (.stack 0)).markedOf (pchOf 32) ∧ (s.dev.unit (.stack 0)).last.kind = 0 ∧ s.dev.memCtl.ceRepair.toNat = 4 ∧
      (Map.get v.dev.upsets 32 [] = [5, 6] ∧ verdict (.stack 0) [] [5, 6] = .uncorrectable) ∧
      (r.dev.unit (.stack 0)).running = some row7 ∧ r.dev.pageMode 15 = .full ∧ unitOf r.dev.memCtl.repairAddr.toNat = some (.stack 0) ∧
      isDram (.stack 0) = true ∧ r.dev.excluded (.stack 0) = false ∧ (r.dev.unit (.stack 0)).busy = true ∧
      (s.dev.unit (.stack 0)).busy = false ∧ (c.dev.unit (.stack 0)).committing = true ∧
      (eccCount 3 = 2 ∧ s.dev.ldOfUnit (.channel 0) = 0 ∧ s.dev.ldOfUnit (.stack 19) ≠ 0) := by decide +kernel

/-- The vectors of R210: the codes answer what the checkers must. -/
theorem test_codes_meet_checkers :
    (List.range 36).all (fun i => verdict (.stack 0) [] [i] == .corrected [i] && (checkVectors (.stack 0))[2 + 2 * i]? == some (.corrected [i])) = true ∧
      (List.range 80).all (fun i => verdict (.channel 0) [] [i] == .corrected [i] && (checkVectors (.channel 0))[2 + 2 * i]? == some (.corrected [i])) = true ∧
      verdict (.channel 0) [] [0, 1, 2, 3] = .corrected [0, 1, 2, 3] ∧ verdict (.stack 0) [] [0, 1] = .uncorrectable ∧
      verdict (.dieSram 0) [] [3] = .corrected [3] ∧ verdict (.dieSram 0) [] [3, 4] = .uncorrectable ∧
      checkerOk (.stack 0) [{ vector := 2, outcome := .corrected [0], data := true }] = true ∧
      checkerOk (.stack 0) [{ vector := 2, outcome := .corrected [1], data := true }] = false := by decide +kernel

theorem test_scrub :
    let run := fun (syms : List Nat) (x : Machine.Unit) => after (exec (.scrubStep (.stack 0) 32) (scrubbing syms x))
    let one := run [5] { next with free := 0 }
    let two := run [5, 6] next
    let off := run [5] Unit.init
    let last := after (exec (.scrubStep (.stack 0) (scrubAt (.stack 0) (unitCodewords (.stack 0) - 1)))
      (scrubbing [] { Unit.init with scrubbed := unitCodewords (.stack 0) - 1 }))
    (one.unit (.stack 0)).ce = 1 ∧ (one.unit (.stack 0)).last.symbol = 5 ∧ one.upsets = [] ∧ (one.ld 0).ecc.evt = 1 ∧ (one.ld 15).ecc.evt = 1 ∧
      (one.unit (.stack 0)).scrubbed = 2 ∧
      (two.unit (.stack 0)).ue = 1 ∧ two.poison = [32] ∧ (two.ld 15).ecc.evt.getLsbD 2 = true ∧ (two.unit (.stack 0)).queued.length = 1 ∧
      (off.unit (.stack 0)).ce = 0 ∧ (last.unit (.stack 0)).passes = 1 ∧ (last.unit (.stack 0)).scrubbed = 0 := by decide +kernel

theorem test_repairs :
    let run := scrubbing [] { Unit.init with running := some row7, free := 1 }
    let ok := stateOf (exec (.softRepairComplete (.stack 0) true) run)
    let no := after (exec (.softRepairComplete (.stack 0) false) run)
    let com := stateOf (exec (.memRepairCommit .mc 15) ok)
    let hard := stateOf (exec (.repairCommitComplete (.stack 0) none) com)
    let none_ := after (exec (.repairCommitComplete (.stack 0) (some 0)) com)
    let queued := stateOf (exec (.memRepairQueue .mc 15) st)
    (ok.dev.unit (.stack 0)).soft = [7] ∧ (ok.dev.unit (.stack 0)).free = 0 ∧ (ok.dev.unit (.stack 0)).report = some (0x40, true) ∧
      (no.unit (.stack 0)).lastCode = eExhausted ∧ (no.unit (.stack 0)).report = some (0x40, false) ∧
      (com.dev.unit (.stack 0)).committing = true ∧ ((after (exec (.memRepairQueue .mc 15) com)).ld 15).ctl.errCode = eState ∧
      hard.vault.hard = [(.stack 0, 7)] ∧ (hard.dev.unit (.stack 0)).soft = [] ∧
      (none_.unit (.stack 0)).soft = [7] ∧ (none_.unit (.stack 0)).lastCode = eExhausted ∧
      ((queued.dev.unit (.stack 0)).queued.map RowRepair.cmd = [true] ∧
        ((after (exec (.softRepairStart (.stack 0)) queued)).unit (.stack 0)).running.isSome = true) := by
  decide +kernel

theorem test_ecc_selection :
    let at_ := fun (ld : Nat) (v : W32) => after (exec (.eccSelWrite .mc ld v) st)
    ((at_ 0 0x100).ld 0).ecc.kind = 1 ∧ ((at_ 0 0x8).ld 0).ctl.errCode = ePerm ∧ ((at_ 15 0x302).ld 15).ctl.errCode = eRange ∧
      ((at_ 0 0x80000000).ld 0).ctl.errCode = ePerm ∧ ((at_ 0 0x800).ld 0).ctl.errCode = eReservedNonzero ∧ ((at_ 15 0x113).ld 15).ecc.index = 19 ∧
      ((after (exec (.eccClear .mc 15 0x80000000) (scrubbing [] { Unit.init with ce := 9 }))).unit (.stack 0)).ce = 0 := by decide +kernel

/-! ## Key-value pages -/

/-- Pages 5 (ACTIVE, two positions in frame 16 with bytes 1 to 4 at the start of each half) and 6 (in state `k` in frame 17) of domain 1, a list
of their references at 0x100, and KV regions of stack 0 and channel 0. -/
def page5 : KvEntry := { KvEntry.init with gen := 3, st := .active, domain := 1, frame := 16, fill := 2 }
def page6 (k : KvState) : KvEntry := { page5 with st := k, frame := 17, gen := 255 }
def kvDev (k : KvState) : Dev :=
  { dev with
    kv := [(5, page5), (6, page6 k)], stackRgn := [(0, { count := 8, base := 16 })], lpRgn := [(0, { count := 4, base := 0 })]
    mem := poke (poke (poke (poke [] 0x1000 [0x2211]) 0x100 [0x600005, 0x1FE00006]) (frameAt 16) [0x04030201]) (frameAt 16 + 0x200000) [0x08070605] }
def kvSt (k : KvState) : State := on (kvDev k)

/-- The words of a command: its first words, and zeros. -/
def words (n : Nat) (ws : List W32) : List W32 := ws ++ List.replicate (n - ws.length) 0
def kvBody (op : W32) (ws : List W32) : List W32 := words 16 (op :: ws)
def lists (op n : W32) : List W32 := kvBody op [n, 0, 0, 0x100]

/-- Die 0's KV engine with one command on page 5. -/
def jobOn (op : Nat) (ws : List W32) : State :=
  on { kvDev .active with kvJobs := [(0, [{ tkt := { iss := q0, op := op, btag := 0 }, ld := 0, dom := 1, op := op, words := ws, handles := [5], left := [],
                                            fills := [2], frames := [16], remotes := [], tries := 0 }])] }

theorem witness_CommandsReport : (kvDev .active).quiet ∧ Mem.wf memDefault (kvDev .active).mem = true ∧ Mem.wf memDefault (kvDev .active).hostMem = true := by
  repeat' apply And.intro
  all_goals first | decide +kernel | exact (quiet_of_still (by decide +kernel)).2.2.2

theorem witness_PageCommandsAct :
    let s := kvSt .active
    let free := lists 0x21 2
    s.dev.quiet ∧ s.memWf ∧ s.dev.dieServes 0 ∧ s.dev.listOk q0 free 2 ∧ wfld free 0 15 8 = 0 ∧ onlyWords free 16 [0, 1, 4, 5] = true := by
  unfold Dev.listOk
  repeat' apply And.intro
  all_goals first | decide +kernel | exact (quiet_of_still (by decide +kernel)).2.2.2

theorem witness_PageCommandsAct_references :
    let d := (kvSt .active).dev
    d.refsAt 0x100 2 = [0x600005, 0x1FE00006] ∧ d.refOk 0 (d.issDom q0) [.active, .inbound, .moving] 0x600005 ∧
      d.refOk 0 (d.issDom q0) [.active, .inbound, .moving] 0x1FE00006 ∧ ((kvSt .retired).dev.kvE 6).st = .retired := by
  unfold Dev.refOk; decide +kernel

theorem witness_PageCommandsAct_room :
    let d := (kvSt .active).dev
    d.kvPerm 0 1 true 0x200 8 = false ∧ d.hbmUp 0 = true ∧ d.kvUsed 1 + 2 ≤ (d.dom 1).kvQ ∧ 2 ≤ d.freeIn (.stack 0) ∧ 2 ≤ d.freeHandles 0 ∧
      d.kvPerm 0 1 true 0x400000 (2 * frameBytes) = false := by decide +kernel

theorem witness_PageCommandsAct_join :
    let d := (kvSt .active).dev
    let ap := kvBody 0x22 [0x4000, 0x600005, 0x20002, 0x1000]
    let keep := kvBody 0x24 [0x4000, 0x600005, 0, 0, 2, 0x100]
    kvLayoutOk 0x4000 ∧ onlyWords ap 16 [0, 1, 2, 3, 4, 5] = true ∧ wfld ap 3 15 0 + wfld ap 3 31 16 = (kvLayout 0x4000).ppos ∧
      d.kvPerm 0 1 false 0x1000 (2 * 2 * (64 + 2)) = false ∧ onlyWords keep 16 [0, 1, 2, 3, 4, 5, 6, 7, 8, 9] = true ∧ keepNodes keep = [0, 1] ∧
      rising (keepNodes keep) = true := by
  unfold kvLayoutOk; decide +kernel

theorem witness_regionsInside : (kvDev .active).regionsInside := by
  refine ⟨fun n => ?_, fun n => ?_⟩ <;> cases n <;> simp [kvDev, Map.get, Map.find, Region.init]

theorem test_page_commands :
    let run := fun (c : Instr) => after (exec c (kvSt .active))
    ((run (.free q0 0 (lists 0x21 2))).kvE 6).st = .releasing ∧ ((run (.pin q0 0 (lists 0x126 2))).kvE 5).pin = true ∧
      ((run (.gather q0 0 (kvBody 0x28 [0x4000, 2, 0, 0x100, 0, 0x400000]))).kvE 6).readers = 1 ∧
      ((run (.append q0 0 (kvBody 0x22 [0x4000, 0x600005, 0x20002, 0x1000]))).kvJobs.map fun j => j.2.length) = [1] := by decide +kernel

theorem witness_PageCommandsAct_effect :
    let s := jobOn 0x24 (kvBody 0x24 [0x4000, 0x600005, 0, 0, 1, 0x1])
    s.dev.quiet ∧ s.memWf ∧ (s.dev.kvE 5).st = .active ∧ kvLayoutOk 0x4000 ∧ keepNodes (kvBody 0x24 [0x4000, 0x600005, 0, 0, 1, 1]) = [1] ∧
      s.dev.busCode (.eng 0 1) false 0x1000 (2 * 2 * (64 + 2)) = none ∧ s.dev.busCode (.eng 0 1) true 0x400000 frameBytes = none ∧
      (s.dev.kvE 5).old = [] ∧ 0x400000 + frameBytes ≤ frameAt 16 ∧ s.dev.busCode (.eng 0 1) true 0x400000 frameBytes = none := by
  unfold kvLayoutOk
  repeat' apply And.intro
  all_goals first | decide +kernel | exact (quiet_of_still (by decide +kernel)).2.2.2

theorem test_page_effects :
    let run := fun (op : Nat) (ws : List W32) => after (exec (.kvCommandComplete 0 0) (jobOn op ws))
    let a := run 0x22 (kvBody 0x22 [0x4000, 0x600005, 0x20002, 0x1000])
    let k := run 0x24 (kvBody 0x24 [0x4000, 0x600005, 0, 0, 1, 1])
    let g := run 0x28 (kvBody 0x28 [0x4000, 1, 0, 0x100, 0, 0x400000])
    ((a.kvE 5).fill = 4 ∧ a.bytes (frameAt 16 + 128) 2 = [0x11, 0x22]) ∧ ((k.kvE 5).fill = 1 ∧ k.bytes (frameAt 16) 2 = [0, 0]) ∧
      (g.bytes 0x400000 2 = [1, 2] ∧ g.bytes 0x600000 2 = [5, 6]) ∧
      ((run 0x23 (kvBody 0x23 [0x4000, 0x600005, 0])).kvE 5).fill = 0 ∧
      (run 0x23 (kvBody 0x23 [0x4000, 0x600005, 0])).bytes (frameAt 16 + 0x200000) 2 = [0, 0] := by decide +kernel

/-! ## Moves, sweeps, handoffs and score units -/

/-- A state where page 6 is as given, and the demotion sweep and promotion are on. -/
def pageAs (e : KvEntry) : State :=
  let l := { ld0 with kvm := { ld0.kvm with demote := true, promote := true, lowPct := 99, highPct := 100 } }
  on { kvDev .active with kv := [(5, page5), (6, e)], lds := [(0, l), (15, up { Layout.init with domBase := 100, domCount := 1 })] }

theorem witness_MovesRetiresAndFills :
    let s := kvSt .zeroing
    let z := pageAs { page6 .moving with target := some 18 }
    let r := kvBody 0x27 [0, 0, 0, 0x4C00000]
    s.dev.quiet ∧ s.memWf ∧ s.dev.dieServes 0 ∧ s.dev.listOk q0 (lists 0x25 1) 1 ∧ s.dev.refOk 0 (s.dev.issDom q0) [.active] 0x600005 ∧
      inLp (s.dev.kvE 5).frame.toNat = false ∧ (s.dev.takeFrames 0 [(0, 1)] []) = some [1048576] ∧ (s.dev.kvE 6).st = .zeroing ∧
      ((kvSt .releasing).dev.kvE 6).readers = 0 ∧ ((kvSt .releasing).dev.kvE 6).target = none ∧ (z.dev.kvE 6).st = .moving ∧ (z.dev.kvE 6).target = some 18 ∧
      z.dev.kvJobs = [] ∧ (onlyWords r 16 [0, 4, 5] = true ∧ addrAt r 4 % frameBytes = 0 ∧ placeOf (addrAt r 4) = .hbm 0 (addrAt r 4)) ∧
      (∀ e ∈ s.dev.kv, e.2.st = .free ∨ e.2.frame.toNat ≠ addrAt r 4 / frameBytes) ∧ 1 ≤ s.dev.freeHandles 0 := by
  unfold Dev.listOk Dev.refOk
  repeat' apply And.intro
  all_goals first | decide +kernel | exact (quiet_of_still (by decide +kernel)).2.2.2

theorem test_moves_and_fills :
    let m := stateOf (exec (.move q0 0 (lists 0x125 1)) (kvSt .active))
    let l := stateOf (exec (.move q0 0 (kvBody 0x25 [0x101, 0, 0, 0x100])) (kvSt .active))
    let c := after (exec (.kvMoveCopyComplete 5) l)
    let f := after (exec (.kvZeroFillComplete 6) (kvSt .releasing))
    m.dev.kvJobs = [] ∧ (l.dev.kvE 5).target = some 1048576 ∧ (l.dev.kvE 5).st = .moving ∧ (c.kvE 5).frame = 1048576 ∧ (c.kvE 5).st = .active ∧
      (c.bytes (frameAt 1048576) 2 = [1, 2] ∧ c.bytes (frameAt 16) 2 = [0, 0]) ∧ (f.kvE 6).st = .free ∧ (f.kvE 6).gen = 0 ∧
      ((after (exec (.kvZeroFillComplete 6) (kvSt .zeroing))).kvE 6).st = .active := by decide +kernel

/-- A handoff of page 5 to page 9 of member 8, and page 6 that waits for one of member 9. -/
def handoff : List W32 := kvBody 0x29 [0x4000, 1, 8, 0x100, 0, 0x200]
def awaited : State := linked (pageAs { page6 .inbound with inbound := some 9 }).dev

theorem witness_SweepsPromotionsAndHandoffs :
    let s := pageAs (page6 .active)
    let p := fun (k : BitVec 8) =>
      let x := (pageAs { page6 .active with frame := 1048576 }).dev
      on { x with promo := [(0, [6])], lds := [(0, { x.ld 0 with kvm := { (x.ld 0).kvm with highPct := k } })] }
    let d := linked (kvDev .active)
    s.dev.snoops = [] ∧ s.dev.freeIn (.stack 0) * 100 < (s.dev.ld 0).kvm.lowPct.toNat * (s.dev.region (.stack 0)).2 ∧ s.dev.lpFrame 0 [] = some 1048576 ∧
      homeStack 5 page5 = 0 ∧ (s.dev.ld 0).kvm.demote = true ∧ (kvSt .active).dev.snoops = [] ∧ ((kvSt .active).dev.ld 0).kvm.demote = false ∧
      6 ∈ Map.get (p 90).dev.promo 0 [] ∧ ((p 90).dev.kvE 6).st = .active ∧ inLp ((p 90).dev.kvE 6).frame.toNat = true ∧
      (p 90).dev.freeIn (.stack 0) * 100 < ((p 90).dev.ld 0).kvm.highPct.toNat * ((p 90).dev.region (.stack 0)).2 ∧
      ((p 80).dev.ld 0).kvm.highPct.toNat * ((p 80).dev.region (.stack 0)).2 ≤ (p 80).dev.freeIn (.stack 0) * 100 ∧
      (p 80).dev.firstFree (.stack 0) [] = some 17 ∧ d.dev.quiet ∧ d.dev.dieServes 0 ∧
      d.dev.listOk q0 handoff 1 ∧ kvLayoutOk (word handoff 1) ∧ onlyWords handoff 16 [0, 1, 2, 3, 4, 5, 6, 7] = true ∧
      d.dev.refsAt (addrAt handoff 4) 1 = [0x600005] ∧ d.dev.refOk 0 1 [.active, .moving] 0x600005 ∧
      d.dev.kvPerm 0 1 false (addrAt handoff 6) 4 = false ∧ d.dev.sendCode 0 8 2 = 0 ∧ (d.dev.ld 0).fab.reqs = [] ∧
      d.dev.sendCode 0 7 2 ≠ 0 ∧ d.dev.net.held = [] ∧ Map.get d.dev.kvJobs 0 [] = [] ∧ awaited.dev.quiet ∧ awaited.dev.isLost 0 9 = false ∧
      (awaited.dev.kvE 6).st = .inbound := by
  unfold Dev.listOk kvLayoutOk Dev.refOk
  repeat' apply And.intro
  all_goals first | decide +kernel | exact (quiet_of_still (by decide +kernel)).2.2.2

theorem test_sweep_and_promotion :
    let sw := after (exec (.demotionSweep 0) (pageAs (page6 .active)))
    let hot := on { (pageAs { page6 .active with hot := true }).dev with sweepAt := [(0, (6, true))] }
    (sw.kvE 5).target = some 1048576 ∧ ((after (exec (.demotionSweep 0) hot)).kvE 6).hot = false := by decide +kernel

theorem test_handoff :
    let sent := after (exec (.send q0 0 handoff) (linked (kvDev .active)))
    let check := fun (src : BitVec 14) (n : Nat) (crc : W32) => after (exec (.handoffPageCheck 0x1FE00006 src n 0x4000 crc) awaited)
    (sent.out.length = 1 ∧ (sent.kvE 5).readers = 1) ∧
      (check 8 0 0).out = [.member 0 8 0 8 (.kvAck 0x1FE00006 eKvStale)] ∧ (check 9 1 1).out = [.member 0 9 1 9 (.kvAck 0x1FE00006 eKvHandoff)] ∧
      (let ok := check 9 0 (crc32c []); (ok.kvE 6).st = .active ∧ (ok.kvE 6).inbound = none) := by decide +kernel

/-- A score command on page 5 with one query vector. -/
def scoreBody (list : W32) : List W32 := words 16 [0x2A, 0x2000, 0, 1, list, 0, 0x1000, 0, 0x2000, 0, 0, 0, 0x3F800000]

theorem witness_ScoreUnitsRunInOrder :
    let s := kvSt .active
    let y := scoreDesc (scoreBody 0x100)
    let q := on (after (exec (.scoreCommand q0 (scoreBody 0x100)) s))
    let full := on { s.dev with score := [(0, (List.replicate 16 (Map.get q.dev.score 0 [])).flatten)] }
    s.dev.quiet ∧ firstFail (scoreStatic (scoreBody 0x100)) = none ∧ s.dev.kvPerm 0 1 false y.list (4 * y.npages) = false ∧ s.dev.refsAt y.list y.npages = [0x600005] ∧
      s.dev.refOk 0 1 [.active, .moving] 0x600005 ∧ s.dev.dieServes 0 ∧
      (∀ a ∈ y.areas, s.dev.kvPerm 0 1 a.2.2 a.1 a.2.1 = false) ∧ homeStack 5 (s.dev.kvE 5) = y.stack ∧ s.dev.ldOfDie (y.stack / 2) = 0 ∧
      s.dev.ldOfDie 1 ≠ 0 ∧ firstFail (scoreStatic (scoreBody 0x100 |>.set 1 0x2002)) = none ∧
      (scoreDesc (scoreBody 0x100 |>.set 1 0x2002)).stack = 2 ∧ (Map.get full.dev.score 0 []).length = 16 ∧
      q.dev.quiet ∧ q.memWf ∧ ((Map.get q.dev.score 0 []).map fun c => c.words) = [scoreBody 0x100] ∧ (∀ k, (q.dev.kvE k).old = []) ∧
      (∀ a ∈ y.areas, q.dev.busCode (.eng 0 1) a.2.2 a.1 a.2.1 = none) := by
  unfold Dev.refOk
  repeat' apply And.intro
  all_goals first | decide +kernel | exact (quiet_of_still (by decide +kernel)).2.2.2 | exact old_of (by decide +kernel)

theorem witness_RegionWriteSetsRegion :
    let s := kvSt .active
    reachesPage .mc 0 = true ∧ s.dev.pageMode 0 = .full ∧ s.dev.ldOfUnit (.stack 0) = 0 ∧ s.dev.ldOfUnit (.stack 2) ≠ 0 ∧
      (∀ f ∈ s.dev.heldFrames, f = 16 ∨ f = 17) ∧ (stackAddr 0 0) / frameBytes = 0 ∧
      (∀ k < 48, 16 ≤ k → k < 24 ∨ (s.dev.tag (tagBase (.stack 0) + k)).st = .free ∧ s.dev.reserved (k * frameBytes) = false) ∧
      (s.dev.heldFrames ≠ []) := by
  decide +kernel

/-- A cluster whose KV ring holds in its first slot an entry of opcode `op` with one reference at 0x100. -/
def ringed (op : W32) : State :=
  on { kvDev .active with clusters := [(0, clu [])], mem := poke (kvDev .active).mem (ringAddr .kv 0) (lists op 1) }

set_option maxRecDepth 20000 in
theorem witness_RingTailPostsEntries :
    let s := ringed 0x21
    let b := bytesToWords 16 (s.dev.bytes (ringAddr .kv 0) 64)
    let slot := ringAddr .kv 0 + 0x3C8
    let d1 := s.dev.putWord (ringAddr .kv 0 + 0x3C0) 1
    let posted := on ((d1.putWord slot (clearBit (d1.memWord slot) 31)).modClu 0 fun c => c.setRing .kv 1 1)
    s.dev.quiet ∧ s.memWf ∧ (s.dev.clu 0).st ≠ .idle ∧ (s.dev.clu 0).ringCounts .kv = (0, 0) ∧ s.dev.memWord (ringAddr .kv 0 + 0x3C4) = 0 ∧
      entryBytes .kv = 64 ∧ s.dev.byte (ringAddr .kv 0) = 0x21 ∧ ringCarries .kv 0x21 = true ∧ ringCarries .kv 0 = false ∧
      s.dev.draining (.kvRing 0 0) 0 1 = false ∧ s.dev.dieServes 0 ∧ s.dev.issDom (.kvRing 0 0) = 1 ∧ s.dev.listOk (.kvRing 0 0) b 1 ∧
      s.dev.refsAt (addrAt b 4) 1 = [0x600005] ∧ s.dev.refOk 0 1 [.active, .inbound, .moving] 0x600005 ∧ wfld b 1 6 0 = 1 ∧
      addrAt b 4 + 4 ≤ ringAddr .kv 0 ∧ wfld b 1 31 7 = 0 ∧ wfld b 0 15 8 = 0 ∧ onlyWords b 16 [0, 1, 4, 5] = true ∧
      (match commandOf 0x21 (.kvRing 0 0) 0 b with
       | some f => let t := resultState posted (f posted); (t.dev.clu 0).ringCounts .kv == (1, 1) && (t.dev.memWord slot).getLsbD 31
       | none => false) = true := by
  unfold Dev.listOk Dev.refOk
  repeat' apply And.intro
  all_goals first | decide +kernel | exact (quiet_of_still (by decide +kernel)).2.2.2

theorem test_score_regions_rings :
    let q := after (exec (.scoreCommand q0 (scoreBody 0x100)) (kvSt .active))
    let reg := fun (v : W32) => after (exec (.kvmRegionWrite .mc 0 false 0 v) (kvSt .active))
    let ring := fun (k : RingKind) (v : W32) => after (exec (.clusterRingTail 0 k v) (prog []))
    let freed := after (exec (.clusterRingTail 0 .kv 1) (ringed 0x21))
    ((freed.kvE 5).st = .releasing ∧ (freed.kvE 6).st = .active ∧ freed.memWord (ringAddr .kv 0 + 0x3C8) = 0x80000000) ∧
      ((Map.get q.score 0 []).map fun c => c.pages) = [[(5, 2)]] ∧ (q.kvE 5).readers = 1 ∧ ((q.ld 0).cq 0).outstanding = 1 ∧
      Map.get (reg 0x100010).stackRgn 0 Region.init = { count := 32, base := 16 } ∧ ((reg 0x8018).ld 0).ctl.errCode = eState ∧
      ((reg 0x3FFF8001).ld 0).ctl.errCode = eRange ∧ (ring .kv 15).memWord (ringAddr .kv 0 + 0x380) = 0xF0000 + eRange.setWidth 32 ∧
      (ring .kv 1).memWord (ringAddr .kv 0 + 0x3C8) = 0x80000000 + eRange.setWidth 32 ∧ (ring .kv 1).memWord (ringAddr .kv 0 + 0x3C4) = 1 := by decide +kernel

/-! ## Requests, adapters and the swap wave -/

/-- A trellis of generation at 0x10000 with two layers: the LD alone, or the LD as origin beside a member 6 of the second layer. -/
def trlWords (n : W32) : List W32 :=
  [1, 7, n, 2, 1, 1, 0x10080, 0, 0x100C0, 0, 1, 0, 0, 0, 0, 0, n, 0, 0, 0, 1, 0, 0, 0, 1, 0, 0, 0, 1, 0, 0, 0] ++
    [0x40005, 0, 0, 0, 6, 1, 0, 0] ++ List.replicate 8 0 ++ [0, 0, 4, 0, 0x800000, 0, 0x11000, 0]
def withTrl (n : W32) (d : Dev) : Dev :=
  { d with
    mem := poke d.mem 0x10000 (trlWords n)
    lds := [(0, { d.ld 0 with trl := { (d.ld 0).trl with slot0 := some { addr := 0x10000, len := 256, image := none, digest := 7 }, active := some false } }),
            (15, d.ld 15)] }

/-- A request block of `mode` 0 with two tokens, at 0x2000; the completion ring is enabled. -/
def reqWords : List W32 :=
  words 32 [0, 0, 0, 0, 0, 0, 9, 0xFFFFF, 2, 0, 0x3F800000, 0, 0, 0x3F800000, 0x3000, 0, 0x4000, 0, 0x5000, 0, 0x6000, 0, 0x7000, 0, 0x8000, 0, 1]
def reqDev : Dev :=
  let d := withTrl 1 (kvDev .active)
  { d with
    mem := poke (poke d.mem 0x2000 reqWords) 0x6000 [0x3F800000, 0x40000000]
    lds := [(0, { d.ld 0 with host := { (d.ld 0).host with reqCpl := { (d.ld 0).host.reqCpl with enable := true, log2m := 4 } } }), (15, d.ld 15)] }
def slot3 : ReqSlot := { ReqSlot.init with st := .running, ld := 0, dom := 1, words := reqWords, pages := [0x600005], gen := 255, layout := 0x4000 }
def withReq (r : ReqSlot) : State := on { reqDev with reqs := [(3, r)] }
def submitBody : List W32 := words 16 [0x40, 0x2000]

theorem witness_RequestsAdmitRunAndEnd :
    let s := on reqDev
    let r := { ReqSlot.init with words := s.dev.refsAt 0x2000 32 }
    s.dev.quiet ∧ s.memWf ∧ s.dev.busCode (.eng 0 1) false 0x2000 128 = none ∧ firstFail (s.dev.reqChecks 0 1 r) = none ∧ (s.dev.genTrl 0).isSome = true ∧
      (s.dev.ld 0).host.reqCpl.enable = true ∧ s.dev.reqUsed 1 < (s.dev.dom 1).reqQ ∧ s.dev.reqsOf 0 < 2 ^ 4 - 0 ∧ r.penCap = 0 ∧ r.mode ≠ 2 := by
  repeat' apply And.intro
  all_goals first | decide +kernel | exact (quiet_of_still (by decide +kernel)).2.2.2

/-- A step of the request, one that needs a page which no die of the LD gives (yet) or that the domain's quota refuses, and one with a tree
block. -/
theorem witness_TokenStepsRun :
    let s := withReq slot3
    let bare := { slot3 with pages := [] }
    let treed := { slot3 with st := .wait, why := .tree, words := reqWords.set 0 8, steps := 1 }
    let t := on { (withReq treed).dev with mem := poke (poke reqDev.mem 0x7000 [0, 1]) 0x7108 [0xFF] }
    s.dev.quiet ∧ s.memWf ∧ s.dev.stepsRun 0 = true ∧ slot3.inStep = false ∧ slot3.ntok < slot3.maxTokens ∧ slot3.specEn = false ∧
      s.dev.pagesFor slot3 (slot3.upTo 0) = some 1 ∧ (s.dev.diesUp 0 = [0]) ∧ ({ s.dev with dies := [] } : Dev).diesUp 0 = [] ∧
      ({ s.dev with dies := [] } : Dev).diesLeft 0 = [0] ∧ ({ s.dev with dies := [(0, { Die.init with absent := true })] } : Dev).diesLeft 0 = [] ∧
      s.dev.pagesFor bare (bare.upTo 0) = some 1 ∧ slot3.kvFullEnd = false ∧
      (({ s.dev with domains := [(1, { openDom with kvQ := 2 })] } : Dev).dom 1).kvQ < s.dev.kvUsed 1 + 1 ∧
      t.dev.quiet ∧ t.memWf ∧ treed.specEn = true ∧ t.dev.stepsRun 0 = true ∧ t.dev.busCode (.eng 0 1) false 0x7000 384 = none ∧
      treeIndex (t.dev.bytes (treed.addr 4) 384) = treed.nextIdx ∧ treeBad (t.dev.bytes (treed.addr 4) 384) treed.lastTok = false ∧
      t.dev.pagesFor treed (treed.upTo (treeNodes (t.dev.bytes (treed.addr 4) 384))) = some 1 ∧ treed.nextIdx ≠ 1 := by
  repeat' apply And.intro
  all_goals first | decide +kernel | exact (quiet_of_still (by decide +kernel)).2.2.2

theorem witness_RequestsAdmitRunAndEnd_sample :
    let r := { slot3 with stamp := some 0, ntok := 8 }
    let s := withReq r
    r.inStep = true ∧ s.dev.barrier 0 0 = none ∧ s.dev.busCode (.eng 0 1) false 0x6000 8 = none ∧ s.dev.busCode (.eng 0 1) true 0x4000 16 = none ∧
      s.dev.busCode (.eng 0 1) true 0x5000 0 = none ∧ (sampleOne r.params (fun _ => 0) 0 [0x3F800000, 0x40000000]).map Prod.fst = some 1 ∧
      r.maxTokens ≤ r.ntok + 1 ∧ slot3.ntok + 1 < slot3.maxTokens ∧ reqSlots ≤ wfld [0, 0x40000] 1 23 0 ∧ slot3.gen.toNat = wfld [0, 0xFF000003] 1 31 24 ∧
      s.dev.issDom q0 = slot3.dom ∧ slot3.endStatus = 0 ∧ slot3.oldPages = [] ∧ r.endToken ≠ 1 := by decide +kernel

theorem test_requests :
    let cancel := fun (r : ReqSlot) (ref : W32) => after (exec (.cancel q0 (words 16 [0x41, ref])) (withReq r))
    let run := { slot3 with stamp := some 0, ntok := 8 }
    let pick := stateOf (exec (.sampleVector 3) (withReq run))
    ((cancel { slot3 with st := .queued } 0xFF000003).req 3 = { ReqSlot.init with gen := 0 } ∧
      ((cancel { slot3 with st := .queued } 0xFF000003).ld 0).host.reqCpl.prod = 1) ∧ ((cancel run 0xFF000003).req 3).st = .cancelling ∧
      ((cancel slot3 3).req 3).st = .running ∧ (pick.dev.req 3).chosen.map Prod.fst = [1] ∧
      (let e := after (exec (.tokenStepEnd 3) pick); e.bytes 0x4000 4 = [1, 0, 0, 0] ∧ e.bytes 0x400C 4 = [0, 0, 0, 0x80] ∧ (e.req 3).st = .free) := by
  decide +kernel

/-- Adapter slot 0 READY under the name 8 for domain 1, and slot 1 as given. -/
def withAdp (a : Adapter) : State :=
  on { kvDev .active with adapters := [(0, { Adapter.init with name := 8, domain := 1, st := .ready, version := 2 }), (1, a)] }
def loading : Adapter :=
  { Adapter.init with name := 8, domain := 1, st := .loading, version := 3, rank := 8, addr := 0x9000, len := 64, src := 0xA000, srcLen := 64,
                      tkt := some { iss := q0, op := 0x44, btag := 0 } }
def adpBody (name : W32) : List W32 := words 16 [0x44, name, 0x80003, 0xA000, 0, 64, 0x9000, 0, 64]

theorem witness_AdaptersAndSwapWaves :
    let s := withAdp Adapter.init
    let t := withAdp loading
    s.dev.quiet ∧ s.memWf ∧ s.dev.adpFind .ready 1 8 = some 0 ∧ (s.dev.adp 0).version.toNat < 3 ∧ s.dev.adpFind .loading 1 8 = none ∧
      t.dev.adpFind .loading 1 8 = some 1 ∧ s.dev.busCode (.eng 0 1) false 0xA000 64 = none ∧ s.dev.busCode (.eng 0 1) true 0x9000 64 = none ∧
      (t.dev.adp 1).st = .loading ∧ ((t.dev.importTo st.vault.devSeed 4 0 1 (t.dev.bytes 0xA000 64) 0x9000 64).2 ≠ 0) := by
  repeat' apply And.intro
  all_goals first | decide +kernel | exact (quiet_of_still (by decide +kernel)).2.2.2

theorem test_adapters :
    let ld := after (exec (.adpLoad q0 (adpBody 8)) (withAdp Adapter.init))
    ((Map.get ld.adapters 1 Adapter.init).st = .loading ∨ ld.adapters.length = 3) ∧
      ((after (exec (.adpDrop q0 (words 16 [0x45, 8])) (withAdp loading))).adp 0).st = .zeroing ∧
      ((after (exec (.adpLoadComplete 1) (withAdp loading))).adp 1).st = .zeroing ∧
      (after (exec (.adapterZeroFillComplete 1) (withAdp { loading with st := .zeroing }))).adp 1 = Adapter.init := by decide +kernel

/-- The LD's wave with two layers at 0x400000 and 0x400800, and the SWAP list of it at 0x2000; `n` members. -/
def entries : List LayerEntry := [{ layer := 0, src := 0x3000, len := 8, dst := 0x400000 }, { layer := 1, src := 0x3008, len := 8, dst := 0x400800 }]
def swapList : List W32 := [0, 0x3000, 0, 8, 0, 0x400000, 0, 0, 1, 0x3008, 0, 8, 0, 0x400800, 0, 0]
def waving (n : W32) (w : Wave) : State :=
  let d := withTrl n (kvDev .active)
  on { d with mem := poke (poke d.mem 0x2000 swapList) 0x3000 [0x11223344], lds := [(0, { d.ld 0 with wave := w }), (15, d.ld 15)] }
def swapBody (gen n : W32) : List W32 := words 16 [0x46, gen + n * 0x40000, 0x2000]
def wave1 : Wave :=
  { Wave.init with newGen := 1, active := true, swapHeld := true, noticed := true, layers := entries, tkt := some { iss := q0, op := 0x46, btag := 0 }, dom := 1 }

theorem witness_AdaptersAndSwapWaves_swap :
    let s := waving 1 Wave.init
    let es := (List.range 2).map fun i => layerEntry (bytesToWords 8 (slice (s.dev.bytes 0x2000 64) (32 * i) 32))
    s.dev.quiet ∧ es = entries ∧ s.dev.busCode (.eng 0 1) false 0x2000 64 = none ∧ s.dev.localLayers 0 = [0, 1] ∧
      (∀ e ∈ es, s.dev.busCode (.eng 0 1) false e.src e.len = none ∧ s.dev.busCode (.eng 0 1) true e.dst e.len = none) ∧ s.dev.isOrigin 0 = true ∧
      (s.dev.ld 0).trl.turn.st = .idle ∧ (waving 1 wave1).dev.placedShards 0 0x400000 8 = [] ∧ wave1.todo = entries ∧ wave1.copying = none ∧
      (∀ e ∈ es, Wave.init.layerHolds e.layer ≠ 1) ∧ s.dev.busCode (.eng 0 1) false 0x2000000 8 ≠ none ∧ (waving 1 wave1).memWf := by
  repeat' apply And.intro
  all_goals first | decide +kernel | exact (quiet_of_still (by decide +kernel)).2.2.2

/-- A group of two: this LD is the origin of member 6; and a notice that comes to a member that is no origin. -/
theorem witness_AdaptersAndSwapWaves_group :
    let s := waving 2 { wave1 with layers := [] }
    let m := { waving 2 Wave.init with dev := (waving 2 Wave.init).dev.modLd 0 fun l => { l with lay := { l.lay with ldid := 6 } } }
    s.dev.isOrigin 0 = true ∧ s.dev.groupOthers 0 = [6] ∧ ({ wave1 with layers := [] } : Wave).todo = [] ∧ m.dev.isOrigin 0 = false ∧
      m.dev.originDid 0 = some 5 ∧ m.dev.originDid 0 ≠ some 7 := by decide +kernel

theorem test_swap :
    let s := waving 1 wave1
    let m := on ((waving 2 Wave.init).dev.modLd 0 fun l => { l with lay := { l.lay with ldid := 6 } })
    let w := ((after (exec (.swap q0 (words 16 [0x46, 0x40001, 0x2020])) m)).ld 0).wave
    let b := stateOf (exec (.layerSwapBegin 0 0) s)
    let c := after (exec (.layerSwapComplete 0 0) b)
    (w.active = true ∧ w.stampNow = 1 ∧ w.layers = entries.drop 1) ∧ ((after (exec (.layerSwapBegin 0 1) s)).ld 0).wave.copying = none ∧
      (b.dev.ld 0).wave.copying = some 0 ∧ c.bytes 0x400000 4 = [0x44, 0x33, 0x22, 0x11] ∧ (c.ld 0).wave.swapped = 1 ∧
      ((after (exec (.waveMemberReport 0 6) (waving 2 { wave1 with layers := [] }))).ld 0).wave.gen = 1 := by decide +kernel

/-! ## The fabric -/

/-- A port in training with the lanes given locked, straight; and what the far end says. -/
def train (locked : BitVec 4) (order : Map Nat) : Port := { Port.init with st := .train, enable := true, locked := locked, order := order, halfOk := true }
def far : TrainInfo := { farDid := 8, farInc := 4, farClass := 1, farLocked := 15, shorted := 0, txFaces := false, idleOk := true }
def flit (seq : W32) (crc : Nat) : List Byte := zeros 256 ++ toBytes 8 (seq.toNat + 2 ^ 40 * crc) ++ zeros 8

theorem witness_PortsTrainAndGo_train :
    (train 15 []).straight = true ∧ (train 15 []).lanes ≠ [] ∧ widthOf ((train 15 []).usable 15) = 3 ∧ (train 1 []).lanes = [0] ∧
      widthOf ((train 1 []).usable 1) = 1 ∧ (train 0 []).lanes = [] ∧ (train 15 [(0, 1), (1, 0)]).straight = false ∧
      (train 15 [(0, 1), (1, 0)]).crossed = false ∧ (train 15 [(0, 3), (1, 2), (2, 1), (3, 0)]).crossed = true ∧ widthOf ((train 3 []).usable 12) = 0 ∧
      far.farDid ≠ lay0.did ∧ (ported (train 15 []) id).dev.isLost 0 8 = false ∧ (ported (train 15 []) id).dev.ldOfPort 0 = 0 := by decide +kernel

theorem test_training :
    let fin := fun (p : Port) (i : TrainInfo) => let y := (after (exec (.portTrainingEnd 0 i) (ported p id))).port 0; (y.st, y.reason, y.width, y.reversed)
    fin (train 15 []) far = (.active, 0, 3, false) ∧ fin (train 7 []) far = (.active, 0, 2, false) ∧
      fin (train 15 [(0, 3), (1, 2), (2, 1), (3, 0)]) far = (.active, 0, 3, true) ∧ (fin (train 15 [(0, 1), (1, 0)]) far).1 = .fault ∧
      fin (train 15 []) { far with farDid := 5 } = (.fault, 4, 0, false) ∧ (fin (train 15 []) { far with idleOk := false }).1 = .train ∧
      fin { train 15 [] with fallback := true } { far with idleOk := false } = (.detect, 5, 0, false) ∧ fin (train 15 []) { far with txFaces := true } = (.fault, 2, 0, false) ∧
      ((after (exec (.laneLock 0 3 true 3) (ported { Port.init with st := .detect } id))).port 0).locked = 8 := by decide +kernel

set_option maxRecDepth 20000 in
theorem witness_PortsTrainAndGo_go :
    let s := ported (active 8) id
    let two := ported (active 9) id
    s.dev.ldOfPort 0 = 0 ∧ s.dev.pageMode 0 = .full ∧ 1 ≤ (s.dev.ld 0).ctl.service ∧ s.dev.alone 0 ∧ s.dev.isLost 0 8 = false ∧ s.dev.portsOf 0 = [0, 1] ∧
      (two.dev.port 1).nbrDid = (two.dev.port 0).nbrDid ∧ flitOk (flit 0 0) = false ∧ bits (flitWord (flit 0 0)) 9 0 = ((s.dev.port 0).rxSeq.toNat + 1) % 1024 ∧
      flitOk (flit 0 (crc24 (zeros 261))) = true ∧ bit (flitWord (flit 0 (crc24 (zeros 261)))) 20 = false ∧
      (let f := flit (2 ^ 20) (crc24 (zeros 256 ++ toBytes 5 (2 ^ 20))); flitOk f = true ∧ bit (flitWord f) 20 = true ∧ bits (flitWord f) 31 23 = 0) ∧
      (s.dev.port 0).bad < 7 ∧ (s.dev.port 0).unacked.length < 1024 := by
  unfold Dev.alone; decide +kernel

set_option maxRecDepth 20000 in
theorem test_ports_up_and_down :
    let write := fun (p : Port) (c : W32 → Instr) (v : W32) => (after (exec (c v) (ported p id))).port 0
    let down := after (exec (.linkSilenceTimeout 0) (ported (active 8) id))
    let bad := (after (exec (.flitReceive 0 (flit 0 0) false) (ported { active 8 with bad := 6 } id))).port 0
    (write { Port.init with st := .off } (.portEnable .mc 0 0) 3).st = .detect ∧ (write { train 0 [] with excluded := 3 } (.portRetrain .mc 0 0) 5).excluded = 0 ∧
      (write (active 8) (.portDisable .mc 0 0) 0).draining = true ∧ (down.port 0).st = .detect ∧ (down.ld 0).fab.lost.map Prod.fst = [8] ∧
      (down.ld 0).fab.lastLost = 8 ∧ ((bad.bad = 7 ∧ bad.naking = true) ∧ bad.st = .active) ∧
      ((after (exec (.flitReceive 0 (flit 0 0) false) (ported { active 8 with bad := 7 } id))).port 0).st = .detect ∧
      ((after (exec (.flitReceive 0 (flit 0 (crc24 (zeros 261))) true) (ported (active 8) id))).port 0).rxSeq = 0 := by decide +kernel

theorem witness_LossAndReturnOfPartner :
    let s := ported (active 8) fun f => { f with reqs := [{ tag := 3, dst := 7, age := 100000, serves := .other }] }
    let l := ported (active 8) fun f => { f with lost := [(7, 2)] }
    l.dev.hears 0 7 = true ∧ l.dev.alone 0 ∧ l.dev.grafts = [] ∧ l.dev.isLost 0 7 = true ∧ (ported (active 8) id).dev.isLost 0 7 = false ∧
      (l.dev.ld 0).fab.forwarded = [] ∧ (l.dev.port 1).queue = [] ∧ 1 ≤ Map.get (l.dev.port 1).credits 0 0 ∧ s.dev.net.held = [] ∧
      s.dev.reqs = [] ∧ 100 * (s.dev.ld 0).fab.timeout.toNat = 100000 := by
  unfold Dev.alone; decide +kernel

theorem test_loss_and_return :
    let lost := stateOf (exec (.lossNotice 0 7 2) (ported (active 8) id))
    let found := after (exec (.foundNotice 0 7 2) (ported (active 8) fun f => { f with lost := [(7, 2)] }))
    let late := after (exec (.fabResponseTimeout 0 3) (ported (active 8) fun f => { f with reqs := [{ tag := 3, dst := 7, age := 100000, serves := .other }] }))
    (lost.dev.ld 0).fab.lost = [(7, 2)] ∧ lost.dev.out = [.loss 1 7 2] ∧ (lost.dev.ld 0).fab.evt = 8 ∧ found.isLost 0 7 = false ∧ found.out = [.found 1 7 2] ∧
      (found.ld 0).fab.evt = 16 ∧ (late.ld 0).fab.reqs = [] ∧ (late.ld 0).fab.evt = 32 := by decide +kernel

/-- A packet from member 8: a write of one slot at 0x1000. -/
def packet : Packet :=
  { dstDid := 5, srcDid := 8, cls := 0, kind := 3, units := 1, tag := 6, addr := 0x1000, hops := 0, code := 0, poison := 0, data := List.replicate 32 7 }

theorem witness_PacketsAndRoutes :
    let s := ported (active 8) id
    s.dev.quiet ∧ s.memWf ∧ s.dev.isLost 0 8 = false ∧ packet.dstDid = lay0.did ∧ s.dev.arriveCode 0 packet true = none ∧
      s.dev.arriveCode 0 { packet with kind := 1 } false = none ∧ s.dev.routePort 0 5 8 0 = some 0 ∧ s.dev.routePort 0 8 9 0 = some 1 ∧
      (∀ k < 8, 129 ≤ Map.get (s.dev.port 0).credits k 0) ∧ s.dev.windowLd 0x4000000000 ≠ 0 ∧ s.dev.pageMode 15 = .full ∧
      (s.dev.ld 0).lay.populated = true ∧ (s.dev.ld 0).fab.reqs = [] ∧ (s.dev.graft 0).ld = 15 ∧ s.dev.flowHeld 0 8 0 0 = false ∧ s.dev.physOf 0 8 = 8 ∧ s.dev.ownsWindow 0 0x4000000000 = false ∧
      packet.data.length = 32 ∧ packet.units ≤ 128 ∧ s.dev.net.held = [] ∧ s.dev.colls = [] ∧
      (ported (active 8) fun f => { f with lost := [(7, 2)] }).dev.isLost 0 7 = true := by
  repeat' apply And.intro
  all_goals first | decide +kernel | exact (quiet_of_still (by decide +kernel)).2.2.2

theorem test_packets :
    let got := fun (p : Packet) => after (exec (.packetReceive 0 p) (ported (active 8) id))
    let answer := { packet with dstDid := 8, srcDid := 5, kind := 4, units := 0, data := [] }
    ((got packet).byte 0x101F = 7 ∧ (got packet).out = [.packet 0 answer]) ∧
      (got { packet with addr := 0x4000000000 }).out = [.packet 0 { answer with addr := 0x4000000000, code := ePerm }] ∧
      (got { packet with dstDid := 9 }).out = [.packet 1 { packet with dstDid := 9, hops := 1 }] ∧
      (got { packet with kind := 1, data := [] }).out = [.packet 0 { answer with kind := 2, units := 1, data := zeros 32 }] := by decide +kernel

theorem witness_RoutesAndGraftsWrite :
    let s := ported (active 8) fun f => { f with lost := [(7, 2)], rtIdx := 7 }
    let g := on { s.dev with grafts := (List.range 64).map fun k => (k, { ld := 1, toDid := 9, fromDid := BitVec.ofNat 14 k, inc := none }) }
    reachesPage .mc 0 = true ∧ s.dev.pageMode 0 = .full ∧ s.dev.ldOfPort 1 = 0 ∧ s.dev.ldOfPort 2 ≠ 0 ∧ (s.dev.ld 0).fab.rtIdx ≠ (s.dev.ld 0).lay.did ∧
      reachesPage .mc 15 = true ∧ s.dev.isLost 0 7 = true ∧ (∃ p ∈ s.dev.portsOf 0, (s.dev.port p).st = .active ∧ (s.dev.port p).nbrDid = 8) ∧
      s.dev.isLost 0 8 = false ∧ (∀ p ∈ s.dev.portsOf 0, (s.dev.port p).nbrDid ≠ 6) ∧ (∀ k < 64, (g.dev.graft k).ld ≠ 15) ∧
      (∀ e ∈ g.dev.grafts, e.2.ld ≠ 0) := by
  decide +kernel

theorem test_routes_and_grafts :
    let rt := fun (i : BitVec 14) (v : W32) => (after (exec (.routeEntryWrite .mc 0 v) (ported (active 8) fun f => { f with rtIdx := i }))).ld 0
    let gft := fun (v : W32) => after (exec (.graftEntryWrite .mc 15 2 v) (ported (active 8) fun f => { f with lost := [(7, 2)] }))
    ((rt 7 0x80000001).route 7).list = [1] ∧ (rt 7 0x80000002).ctl.errCode = ePerm ∧ (rt 5 0x80000001).ctl.errCode = eRange ∧
      ((gft 0x24007).graft 2).toDid = 9 ∧ (gft 0x24007).isLost 0 7 = false ∧ ((gft 0x24008).ld 15).ctl.errCode = eState ∧
      ((gft 0xA0024007).ld 15).ctl.errCode = eRange ∧ ((after (exec (.graftSelfWrite .mc 15 0 33) (ported (active 8) id))).ld 0).lay.ldid = 33 := by decide +kernel

/-! ## Collectives -/

/-- The descriptor of a collective of members 5 (this one, the root) and 8 over 4 elements of `dtype` `t`; the member list is at 0x3100. -/
def colWords (kind t count : W32) : List W32 := words 32 [kind, 0x2000007 + t * 0x100000, 2, 0, count, 0, 0, 10, 0x3100, 0, 0x3000, 0, 0x3200]
def a2aWords : List W32 := (colWords 0x65 5 1).set 14 0x3110 |>.set 16 0x3120
def colDev : Dev :=
  { (ported (active 8) id).dev with mem := poke (poke (poke (poke [] 0x3000 [1, 2, 3, 4]) 0x3100 [0x80005]) 0x3110 [8, 0, 8, 8]) 0x3120 [8, 0, 8, 8] }
def col (kind t count : W32) : Coll :=
  { colDev.collOf q0 0 1 { iss := q0, op := kind.toNat, btag := 0 } (colWords kind t count) none [] 0 with digest := 9 }
def withCol (c : Coll) : State := on { colDev with colls := [c] }

theorem witness_CollectivesStart :
    let d := colDev
    let go := fun (ws : List W32) =>
      (firstFail (collStatic ws ++ [((collLists ws).any fun l => (d.busCode (.eng 0 1) false l.1 l.2).isSome, ePerm)]),
        firstFail (d.collChecks 0 1 (d.collOf q0 0 1 (ticketOf q0 ws) ws none [] 1000)))
    go (colWords 0x60 0 4) = (none, none) ∧ go (colWords 0x61 0 4) = (none, none) ∧ go (colWords 0x62 0 4) = (none, none) ∧
      go (colWords 0x63 0 4) = (none, none) ∧ go (colWords 0x64 5 4) = (none, none) ∧ go a2aWords = (none, none) ∧ go (colWords 0x66 0 4) = (none, none) ∧
      go (colWords 0x67 5 0) = (none, none) ∧ go (colWords 0x67 5 1) ≠ (none, none) ∧ d.isLost 0 8 = false ∧
      (2 ≤ (col 0x67 5 0).nmem ∧ (col 0x67 5 0).rank = 0 ∧ (col 0x67 5 0).children 0 = [1]) := by decide +kernel

theorem test_collectives_start :
    let run := fun (c : Instr) => after (exec c (on colDev))
    ((run (.allReduce q0 (colWords 0x60 0 4))).colls.map fun c => (c.rank, c.granted, c.total)) = [(0, false, 1)] ∧
      ((run (.barrier q0 (colWords 0x67 5 0))).colls.map fun c => c.heard) = [[(0, 0, [])]] ∧ (run (.broadcast q0 (colWords 0x64 6 4))).colls = [] ∧
      (let x := run (.allToAll q0 a2aWords); (x.colls.map fun c => c.unacked) = [[(0, 1)]] ∧ x.out.length = 1 ∧ x.bytes 0x3200 4 = [1, 0, 0, 0]) := by
  decide +kernel

/-- The same collective with its slot 3 bound to its chunk. -/
def slotted (z : RakeSlot) : Coll := { col 0x60 4 4 with granted := true, phys := [3], next := 1, slots := [{ z with phys := 3, chunk := 0 }] }
def summing (z : RakeSlot) : Coll := { slotted z with words := colWords 0x60 0 4, dir := [(0, 0)] }
def chunk : ChunkMsg := { data := [], anchor := 0, pred := 0, weight := 1, digest := 9, crc := 0, poisoned := none }
def sealed : ChunkMsg := { chunk with crc := chunkCrc 7 0 chunk }
def gathering : RakeSlot := { RakeSlot.new 3 0 with st := .gathering, has := true, got := [] }

theorem witness_RakeMovesAndCollectivesEnd :
    let c := col 0x64 5 4
    let g := summing gathering
    (c.granted = false ∧ (withCol c).dev.rakeUsed 0 0 + 1 ≤ ((withCol c).dev.ld 0).rakeQuota 0 ∧ (withCol c).dev.rakeDom 1 + 1 ≤ ((withCol c).dev.dom 1).rakeQ) ∧
      windowOf c.words = 1 ∧ c.total = 1 ∧ c.anchored = false ∧ g.granted = true ∧ g.kind ≤ 0x62 ∧ (g.mine 0).ups = [0, 1] ∧ g.rank = 0 ∧
      sealed.digest = g.digest ∧ sealed.crc = chunkCrc g.id 0 sealed ∧ g.retries = [] ∧ g.redOp = 0 ∧ g.predicted 0 = false ∧
      (axElems []).all (fun v => axInRange v 1) = true ∧ (g.mine 0).downs = [1] ∧ gathering.poison = none ∧ gathering.excess = none ∧
      g.anchorOf (withCol g).dev 0 = some 0 ∧ gathering.weight + 1 ≤ 2 ^ 24 ∧ c.slots = [] ∧ c.redo = [] ∧ c.next = 0 ∧ c.eng = none ∧ c.turn = false ∧
      (withCol g).dev.quiet ∧ (withCol g).memWf := by
  repeat' apply And.intro
  all_goals first | decide +kernel | exact (quiet_of_still (by decide +kernel)).2.2.2

/-- The other places of a chunk: a leaf that waits for its result, a root that serves one to itself alone, and one that is settled. -/
def leaf (z : RakeSlot) : Coll := { slotted z with members := [8, 5], rank := 1 }
def servingMe : Coll := { slotted { RakeSlot.new 3 0 with st := .serving, has := true, wait := [0] } with words := colWords 0x64 5 4 }
def servingBoth : Coll := { servingMe with slots := [{ RakeSlot.new 3 0 with st := .serving, has := true, sent := true, wait := [0, 1] }] }
def settled : Coll := { slotted gathering with slots := [], ended := 1 }

theorem witness_RakeMovesAndCollectivesEnd_results :
    let p := leaf { RakeSlot.new 3 0 with st := .passed }
    (p.mine 0).from_ = some 0 ∧ (p.mine 0).downs = [] ∧ (p.mine 0).here = true ∧ (p.mine 0).to_ = some 0 ∧ p.parent 1 = some 0 ∧ p.anchored = true ∧ p.groupOf 0 = [0] ∧ Map.find p.dir p.base = none ∧
      (servingMe.kind = 0x64 ∧ servingMe.chunkBytes 0 = 4 ∧ servingMe.total ≤ servingMe.next ∧ servingMe.eng = none) ∧ settled.settled = true ∧
      settled.rank = settled.starter ∧ settled.digest ≠ 1 ∧ ((servingBoth.slots.map fun z => z.wait) = [[0, 1]] ∧ servingBoth.grants = [] ∧ servingBoth.rank ≠ 1) ∧
      p.agreed = 0 ∧ p.total - p.base ≤ 256 * ({ p with opened := 1 } : Coll).opened ∧ p.ring = false ∧ p.children p.rank = [] ∧ 100000 * (settled.wdMs - 1) < 100000 * settled.wdMs ∧ (withCol settled).dev.pageMode 0 = .full := by decide +kernel

theorem test_rake :
    let gr := after (exec (.rakeReservationGrant 0 7) (withCol (col 0x64 5 4)))
    let mism := after (exec (.contributionArrive 0 7 0 1 { sealed with digest := 1 }) (withCol (summing gathering)))
    let again := after (exec (.contributionArrive 0 7 0 1 { sealed with weight := 2 }) (withCol (summing gathering)))
    let acked := after (exec (.chunkAck 0 7 0 { rank := 0, digest := 9 }) (on { (withCol servingMe).dev with mem := poke (withCol servingMe).dev.mem (rakeAddr 0 3) [5] }))
    (gr.colls.map fun c => c.phys) = [[0]] ∧ mism.colls = [] ∧ (mism.ld 0).col.evt = 17 ∧ mism.zeroing.map (fun z => z.phys) = [[3]] ∧
      (again.ld 0).col.crcRetry = 1 ∧ again.out = [.member 0 8 0 8 (.again 7 0 9)] ∧ acked.bytes 0x3200 1 = [5] ∧ (acked.colls.map fun c => c.slots) = [[]] := by
  decide +kernel

theorem test_collectives_end :
    let end_ := fun (c : Instr) => after (exec c (withCol settled))
    let late := { withCol settled with now := 1000000 }
    (end_ (.completionFence 0 { id := 7, sender := { rank := 1, digest := 9 } })).colls = [] ∧ ((end_ (.abortNotice 0 { id := 7, sender := { rank := 1, digest := 9 } } eCollTimeout 1 0)).ld 0).col.evt = 3 ∧ (end_ (.colAbort .mc 0 7)).colls = [] ∧
      ((end_ (.colAbort .mc 0 8)).ld 0).ctl.errCode = eState ∧ (after (exec (.collWatchdog 0 7) late)).colls = [] ∧
      (after (exec (.collWatchdog 0 7) { late with now := 999999 })).colls.length = 1 := by decide +kernel

/-! ## Weights, phases and programs -/

/-- A shard of 4 FP32 weights at 0x800000 with one moment in channel 0 and its record at 0x11000, its descriptor at 0x2000, gradients 1.0 at
0x3000, weights 3.0 and the record as given. -/
def shardWords : List W32 := words 16 [6, 4, 0, 0, 0x800000, 0, 0x11000, 0, 0, 0x400, 5]
def updDev (r : BlkRec) : Dev :=
  { dev with
    tags := dev.tags ++ [(491520, ours), (491521, ours)]
    mem := Mem.writeN memDefault (poke (poke (poke [] 0x2000 shardWords) 0x3000 (List.replicate 4 0x3F800000)) 0x800000 (List.replicate 4 0x40400000)) 0x11000
      r.bytes }
def updWords : List W32 := words 32 [0x170, 0x2000, 0, 0x3000, 0, 1, 0, 0, 0, 0x2000, 0, 0, 0, 0, 0x3F800000, 0x3F800000, 0, 0x3F800000]
def fetchWords : List W32 := words 16 [0x71, 0x2000, 0, 1, 0, 0x2000, 10]
def sealWords : List W32 := words 16 [0x172, 0x2000, 0, 0, 0, 0x2000]
def applyWords : List W32 := words 16 [0x73, 0x2000, 0, 0x3000, 0, 0]
def at0 : BlkRec := { wEpoch := 0, mEpoch := 0, suspect := false, stale := false, fprint := 0, mism := 0 }
def upd (op : Nat) (ws : List W32) (p : UpdPhase) : UpdCmd :=
  { id := 1, tkt := { iss := q0, op := op, btag := 0 }, ld := 0, dom := 1, op := op, words := ws, shard := shardWords, die := 0, phase := p, blk := 0,
    tries := 0, stop := false, stopCode := 0, count := 0, stale := 0, match31 := true, lastMove := 0, startAt := 0, off := 0, ncmd0 := 0, pend := [],
    commit := [], colEnd := none, colGot := [], prog := [], spare := false }
def updating (r : BlkRec) (c : UpdCmd) : State := on { updDev r with upds := [c] }

/-- A block of zeros as a source gives it that has gone on to epoch 2. -/
def remote : RemoteBlock := { recBefore := [], data := zeros 16, recAfter := ({ at0 with wEpoch := 2 } : BlkRec).bytes }

theorem witness_UpdateCommandsJoinAndRun :
    let d := updDev at0
    let go := fun (op : Nat) (ws : List W32) (dom : Nat) =>
      (firstFail (updStatic op ws ++ [((d.busCode (.eng 0 dom) false (addr44 ws 1) 64).isSome, ePerm)]), firstFail (d.updChecks 0 dom op ws shardWords))
    d.refsAt 0x2000 16 = shardWords ∧ go 0x70 updWords 1 = (none, none) ∧ go 0x72 sealWords 1 = (none, none) ∧ (go 0x71 fetchWords 1).2 = some eState ∧
      (go 0x73 applyWords 1).2 = some eDomainKey ∧ (shardOf shardWords).die = 0 ∧ (shardOf shardWords).blocks = 1 ∧ d.updReach (upd 0x70 updWords .moment) = none ∧
      blockRecs d (shardOf shardWords) 0x70 updWords = [at0] ∧ (upd 0x70 updWords .moment).epoch = 1 ∧ d.sendCode 0 5 3 = 0 ∧
      firstFail (d.updShape 0 1 0x70 updWords shardWords) = none ∧ firstFail (d.updShape 0 1 0x70 updWords (shardWords.set 4 0x800001)) = some eAlign ∧
      d.net.held = [] ∧ (d.ld 0).fab.reqs = [] ∧ d.owns (upd 0x70 updWords .moment) = true := by decide +kernel

theorem test_update :
    let joined := after (exec (.update q0 updWords) (on (updDev at0)))
    let begun := stateOf (exec (.updateEngineStart 0) (updating at0 (upd 0x70 updWords .waiting)))
    let mom := stateOf (exec (.updateEnginePhaseEnd 0 none) begun)
    joined.upds.length = 1 ∧ begun.dev.upds.map (fun c => c.phase) = [.moment] ∧ mom.dev.bytes 0x40000400000 4 = [0, 0, 0x80, 0x3F] ∧
      (blkRec (mom.dev.bytes 0x11000 32)).mEpoch = 1 ∧ (upd 0x70 updWords .weight).newWeight mom.dev 3 = 0x40000000 ∧
      (after (exec (.updateEngineStart 0) (updating { at0 with wEpoch := 3 } (upd 0x70 updWords .waiting)))).upds = [] := by decide +kernel

theorem witness_FetchSealApplyRun :
    let c := upd 0x71 fetchWords .copy
    let s := updating at0 c
    s.dev.quiet ∧ s.memWf ∧ c.die = 0 ∧ s.dev.updReach c = none ∧ c.epoch = 1 ∧ c.last = 1 ∧ c.sh.blk 0 + blockBytes ≤ 0x1000000 ∧
      c.sh.rec_ 0 + 32 ≤ c.sh.blk 0 ∧ s.dev.sendCode 0 (c.source 0).1 3 = 0 ∧ s.dev.net.held = [] ∧
      (upd 0x72 sealWords .scan).sh.nelem = 4 ∧ s.dev.updReach (upd 0x73 applyWords .apply) = none ∧ wfld sealWords 0 9 8 = 1 ∧
      (let two := { upd 0x72 (sealWords.set 5 0x4000) .scan with shard := shardWords.set 1 0x100004 }
       let d := updDev at0
       (two.sh.blocks, two.last, ({ d with tags := d.tags ++ [(3, ours), (491522, ours), (491523, ours)] } : Dev).updReach two) = (2, 2, none)) := by
  repeat' apply And.intro
  all_goals first | decide +kernel | exact (quiet_of_still (by decide +kernel)).2.2.2

theorem test_fetch_and_seal :
    let poll := fun (e : Nat) => after (exec (.fetchPoll 0 ({ at0 with wEpoch := e } : BlkRec).bytes) (updating at0 (upd 0x71 fetchWords .poll)))
    ((poll 0).upds.map fun c => c.phase) = [.poll] ∧ ((poll 1).upds.map fun c => c.phase) = [.copy] ∧ (poll 2).upds = [] ∧
      (after (exec (.updateEnginePhaseEnd 0 (some remote)) (updating at0 (upd 0x71 fetchWords .copy)))).upds = [] ∧
      (after (exec (.updateEnginePhaseEnd 0 none) (updating at0 (upd 0x73 applyWords .apply)))).upds = [] ∧
      (after (exec (.fetchWatchdog 0) { updating at0 (upd 0x71 fetchWords .poll) with now := 1000000 })).upds = [] := by decide +kernel

/-- The LD's first difference-stream target, and a host ring of 4 KiB. -/
def target : DfsTarget :=
  { enable := true, kind := false, did := 0, wdMs := 10, base := 0x7000, domain := 1, log2 := 12, broken := false, waiting := true, silent := false,
    seq := 0, prod := 0, cons := 0 }
def streaming (x : DfsTarget) : State := on { dev with lds := [(0, { ld0 with upd := { ld0.upd with dfs := [(0, x)], dfsSel := 0 } }), (15, up Layout.init)] }

/-- A weight phase that waits on target `x` with an empty record to emit. -/
def waiting (x : DfsTarget) : State :=
  on { (streaming x).dev with upds := [{ upd 0x70 updWords .dfsWait with pend := [(0, [], [])], commit := at0.bytes }] }

theorem witness_DifferenceStreamRuns :
    let s := streaming { target with enable := false }
    let w := waiting target
    let wrote := fun (x : DfsTarget) => (waiting x).dev.hostWrite (x.base.toNat + 32) (toBytes 8 0)
    s.memWf ∧ s.dev.pageMode 0 = .full ∧ (s.dev.dfsT 0 0).enable = false ∧ (0x8000000A : W32).getLsbD 31 = true ∧ fld (0x8000000A : W32) 15 0 ≠ 0 ∧
      s.dev.upds = [] ∧ (s.dev.dfsFits target (128 + 64) = true ∧ s.dev.dfsFits { target with prod := 4032 } (128 + 64) = false) ∧
      s.dev.snoops = [] ∧ (∀ k < 8, k ≠ 0 → (w.dev.dfsT 0 k).waiting = false) ∧ (w.dev.dfsT 0 0).waiting = true ∧ (wrote target).dfsFits target 128 = true ∧
      (wrote { target with prod := 4032 }).dfsFits { target with prod := 4032 } 128 = false ∧
      100000 * target.wdMs.toNat < ((1000001 : W64) - 0).toNat ∧ (dev.upds.map UpdCmd.id).Nodup ∧ dev.colls = [] := by
  unfold State.memWf; decide +kernel

theorem test_difference_stream :
    let en := after (exec (.dfsEnable .mc 0 0x8000000A) (streaming { target with enable := false, seq := 9 }))
    let late := after (exec (.dfsTargetWatchdog 0 0) { waiting target with now := 1000001 })
    ((en.dfsT 0 0).enable = true ∧ (en.dfsT 0 0).seq = 0) ∧ ((after (exec (.dfsEnable .mc 0 0) (streaming target))).ld 0).ctl.errCode = eRange ∧
      (after (exec (.dfsRingWaitEnd 0 0 64) (streaming target))).hostByte 0x7020 = 64 ∧
      ((late.dfsT 0 0).broken = true ∧ ((late.ld 0).upd.evt = 64 ∧ late.upds = [])) ∧ (after (exec (.dfsTargetWatchdog 0 0) (waiting target))).upds.length = 1 ∧
      (after (exec (.updAbort .mc 0 1) (updating at0 (upd 0x70 updWords .moment)))).upds = [] ∧
      ((after (exec (.updAbort .mc 0 1) (updating at0 (upd 0x70 updWords .weight)))).upds.map fun c => c.stop) = [true] := by decide +kernel

/-- One open phase, 0x77, and a phase ring of two records at 0x3000 of which `n` are filled. -/
def phased (n : W32) : State :=
  let u := { ld0.upd with phases := [{ phase := 0x77, step := 6, start := 900, ncmd := 0, queue := 0, dom := 1 }], phBase := 0x3000, phLog2 := 1, phHead := n }
  on { dev with lds := [(0, { ld0 with upd := u }), (15, up Layout.init)] }
def phaseBody (w0 : W32) : List W32 := words 16 [w0, 5]

theorem witness_PhaseRecordsFollowRing :
    let s := phased 1
    s.dev.quiet ∧ s.memWf ∧ (((s.dev.ld 0).upd.phases.find? fun y => y.phase == 0x77).map fun p => p.dom) = some 1 ∧
      s.dev.busCode (.eng 0 1) true 0x3020 32 = none ∧ (((phased 2).dev.ld 0).upd.phHead - ((phased 2).dev.ld 0).upd.phTail).toNat = 2 ^ 1 ∧
      wfld (phaseBody 0x770174) 0 15 9 = 0 ∧ bit (word (phaseBody 0x770174) 0).toNat 8 = true := by
  repeat' apply And.intro
  all_goals first | decide +kernel | exact (quiet_of_still (by decide +kernel)).2.2.2

theorem test_phases :
    let run := fun (n w0 : W32) => after (exec (.phase q0 (phaseBody w0)) (phased n))
    (((run 0 0x780074).ld 0).upd.phases.map fun p => p.phase) = [0x77, 0x78] ∧ ((run 0 0x770174).ld 0).upd.phHead = 1 ∧
      (run 1 0x770174).bytes 0x3020 8 = [0x77, 0, 0, 0, 6, 0, 0, 0] ∧ (run 1 0x770174).bytes 0x3030 2 = [100, 0] ∧
      (((run 2 0x770174).ld 0).upd.phDrop = 1 ∧ ((run 2 0x770174).ld 0).upd.phHead = 2) := by decide +kernel

def launchBody : List W32 := words 16 [0x10, 0x2000, 0, 8, 0x1000, 0x99]
def cropBody : List W32 := words 16 [0x11, 0x2000, 0, 8, 0x10000]
def coded : Dev := { dev with mem := poke [] 0x2000 [0x11223344, 0x55667788] }

theorem witness_PhasesAndPrograms :
    let d := coded
    d.quiet ∧ d.dieServes 0 ∧ firstFail (codeChecks launchBody [1, 5] [0, 1, 2, 3, 4, 5, 6] false) = none ∧ wfld launchBody 4 23 12 = 1 ∧
      wfld launchBody 3 16 0 = 8 ∧ d.busCode (.eng 0 1) false 0x2000 8 = none ∧ (d.clu 0).occ = none ∧ (d.clu 0).st ≠ .handingOver ∧ 0x2008 ≤ storeAddr 0 0 ∧
      ringAddr .kv 0 + 0x400 ≤ storeAddr 0 0 ∧ firstFail (codeChecks cropBody [1, 4, 6] [0, 1, 2, 3, 4, 5, 6, 7] false) = none ∧ d.mainDomain 0 1 = false ∧
      d.busCode (.eng 0 1) true 0x10000 (2560 * 1024) = none ∧ ((phased 0).dev.ld 0).upd.phases.length < 16 := by
  repeat' apply And.intro
  all_goals first | decide +kernel | exact (quiet_of_still (by decide +kernel)).2.2.2

theorem test_programs :
    let l := after (exec (.launch q0 launchBody) (on coded))
    let j := on { coded with lds := [(0, { ld0 with ctl := { ld0.ctl with crop := some { cropJob with code := 0x2000, todo := [0], on := [] } } }), (15, up Layout.init)] }
    let c := after (exec (.ccStart 0 0) j)
    let y := yielding .handOver
    let t := after (exec (.ccYieldTimeout 0 0) (on { withClu { clu [] with occ := some .crop, yieldReq := some .handOver, yieldAge := 100 * ld0.ctl.yieldUs.toNat } with
      lds := [(0, { ld0 with ctl := { ld0.ctl with crop := some { cropJob with on := [0] } } }), (15, up Layout.init)] }))
    ((l.clu 0).st = .running ∧ l.bytes (storeAddr 0 0) 8 = [0x44, 0x33, 0x22, 0x11, 0x88, 0x77, 0x66, 0x55] ∧ (l.clu 0).ctl.normal.get 1 = 0x99) ∧
      ((c.clu 0).occ = some .crop ∧ ((c.ld 0).ctl.crop.map fun j => j.on) = some [0]) ∧ ((t.ld 0).ctl.late = true ∧ (t.ld 0).ctl.crop = none ∧ (t.clu 0).occ = none) ∧
      after (exec (.ccStart 0 0) y) = y.dev := by decide +kernel

/-! ## Trellises and turns -/

/-- A trellis at an address for member 5 alone: generation or layout (0x100), its 4 FP32 weights at `w` and their record at `b`. -/
def trlAt (base kind w b : W32) : List W32 :=
  [1 + kind, 7, 1, 2, 1, 1, base + 0x80, 0, base + 0xC0, 0, 1, 0, 0, 0, 0, 0, 1, 0, 0, 0, 1, 0, 0, 0, 1, 0, 0, 0, 1, 0, 0, 0] ++
    [if kind = 0 then 0x40005 else 5, 0, 0, 0] ++ List.replicate 12 0 ++ [0, 0x80000000, 4, 0, w, 0, b, 0]
def slotOf (a : Nat) : TrlSlot := { addr := a, len := 256, image := none, digest := 7 }
def turnWords : List W32 := words 16 [0x81, 1, 0, 9, 1, 0x1000000, 0, 10, 0]
def turn0 : Turn := ld0.trl.turn
def turn1 (p : XplPhase) : Turn :=
  { turn0 with st := .running, phase := p, total := 1, words := turnWords, tkt := some { iss := q0, op := 0x81, btag := 0 }, dom := 1, digest := 3 }
def turning (t : Turn) : State :=
  let m := poke (poke [] 0x10000 ((trlAt 0x10000 0 0x800000 0x11000))) 0x12000 ((trlAt 0x12000 0x100 0xC00000 0x11020))
  on { dev with
    mem := Mem.writeN memDefault (poke m 0x800000 [11, 12, 13, 14]) 0x11000 ({ wEpoch := 1, mEpoch := 1, suspect := false, stale := true, fprint := 0, mism := 0 } : BlkRec).bytes
    tags := (List.range 6).map fun n => (n, ours)
    lds := [(0, { ld0 with trl := { ld0.trl with slot0 := some (slotOf 0x10000), slot1 := some (slotOf 0x12000), active := some false, turn := t } }),
            (15, up Layout.init)] }

/-- The same of members 5 and 6, the weights held by the member of rank `r`; and a turn that carries them from rank `r` to the other. -/
def trlTwo (base kind r w b : W32) : List W32 :=
  [1 + kind, 7, 2, 2, 1, 1, base + 0x80, 0, base + 0xC0, 0, 1, 0, 0, 0, 0, 0, 2, 0, 0, 0, 1, 0, 0, 0, 1, 0, 0, 0, 1, 0, 0, 0] ++
    [if kind = 0 then 0x40005 else 5, 0, 0, 0, 6, 1, 0, 0] ++ List.replicate 8 0 ++ [0, 0x80000000 + r * 0x10000, 4, 0, w, 0, b, 0]
def exchanging (r : W32) (t : Turn) : State :=
  on { (turning t).dev with
    mem := poke (poke (turning t).dev.mem 0x10000 (trlTwo 0x10000 0 r 0x800000 0x11000)) 0x12000 (trlTwo 0x12000 0x100 (1 - r) 0xC00000 0x11020) }

theorem witness_TrellisLoadsAndPlans :
    let s := turning turn0
    let ws := s.dev.refsAt 0x12000 32
    s.dev.quiet ∧ s.memWf ∧ firstFail (trlHdrChecks ws) = none ∧ (trlHdr ws).tables.any (fun x => (s.dev.busCode (.eng 0 1) false x.1 x.2).isSome) = false ∧
      firstFail (s.dev.trlChecks 0 (trlHdr ws) s.dev.bytes) = none ∧ s.dev.busCode (.eng 0 1) false 0x12000 256 = none ∧ (s.dev.ld 0).trl.active = some false ∧
      (s.dev.ld 0).trl.turn.st = .idle ∧ ((s.dev.slotPair 0 false).map fun p => ((planOf p 1).map roundsOf, (p.2.1.members p.2.2).length)) = some (some 1, 1) ∧
      s.dev.busCode (.eng 0 1) true 0x3000 32 = none := by
  repeat' apply And.intro
  all_goals first | decide +kernel | exact (quiet_of_still (by decide +kernel)).2.2.2

theorem test_trellises :
    let load := fun (w0 a n : W32) => after (exec (.trlLoad q0 (words 16 [w0, a, 0, n])) (turning turn0))
    let plan := fun (n : W32) => after (exec (.xplPlan q0 (words 16 [0x82, 0, 0, 0, 1, 0, 0x3000, 0, n])) (turning turn0))
    (((load 0x180 0x12000 256).ld 0).trl.slot1.map fun x => (x.addr, x.len)) = some (0x12000, 256) ∧ ((load 0x180 0 0).ld 0).trl.slot1 = none ∧
      ((load 0x80 0x12000 256).ld 0).trl.slot0 = some (slotOf 0x10000) ∧ (plan 32).mem ≠ (turning turn0).dev.mem ∧ (plan 31).mem = (turning turn0).dev.mem := by
  decide +kernel

theorem witness_TurnsRunAndDecide :
    let s := turning turn0
    let p := s.dev.slotPair 0 false
    (s.dev.busCode (.eng 0 1) true 0x1000000 (blockBytes + 0x100000) = none ∧ (p.map fun p => (p.1.1.layout, p.2.1.layout)) = some (false, true)) ∧
      s.dev.turnBusy 0 = false ∧ (p.map fun p => s.dev.turnOverlap 0 p turnWords) = some false ∧
      (p.map fun p => (ownSources ((planOf p 1).getD []) 5 0).map fun a => (blkRec (s.dev.bytes a 32)).wEpoch) = some [1] ∧
      (let t := turning (turn1 .none)
       t.dev.coordinates 0 = true ∧ (t.dev.turn 0).committed = 0 ∧ t.dev.roundSaves 0 = ([(0xC00000, 16)], [0x11020]) ∧
        t.dev.busCode (.eng 0 1) true 0xC00000 16 = none ∧ ((t.dev.roundPieces 0).map fun p => (p.src, p.dst, p.len)) = [(0x800000, 0xC00000, 16)] ∧
        (t.dev.roundContents 0 []).length = 1 ∧ t.dev.turnDids 0 = [5] ∧ (t.dev.turn 0).committed + 1 = (t.dev.turn 0).total) := by decide +kernel

theorem witness_TurnsRunAndDecide_round :
    let s := exchanging 0 (turn1 .none)
    let c := s.dev.moveColl s.now 0
    c.nmem = 2 ∧ s.dev.turnDids 0 = [5, 6] ∧ s.dev.did 0 = 5 ∧ (s.dev.turn 0).committed = 0 ∧ s.dev.colls = [] ∧
      ((s.dev.roundPieces 0).map fun p => (p.sDid, p.dDid, p.src, p.dst, p.len)) = [(5, 6, 0x800000, 0xC00000, 16)] ∧ s.dev.roundSaves 0 = ([], []) ∧
      s.dev.busCode (.eng 0 1) false 0x800000 16 = none ∧ c.kind = 0x65 ∧ c.id = 9 ∧ c.buf = [11, 0, 0, 0, 12, 0, 0, 0, 13, 0, 0, 0, 14, 0, 0, 0] := by
  decide +kernel

theorem witness_TurnsRunAndDecide_quiet (r : W32) (t : Turn) : (exchanging r t).dev.quiet := by
  exact quiet_of_still rfl

/-- A round whose ALL_TO_ALL has ended with a piece of member 6. -/
def ended (coord : Nat) : Turn := { turn1 .move with coord := coord, moved := some (0, 1), inbox := [[], toBytes 16 77] }

theorem witness_TurnsRunAndDecide_end :
    let r := exchanging 1 (ended 0)
    r.memWf ∧ ((r.dev.roundContents 0 [true]).map fun x => (x.1.sDid, x.1.dst, x.1.len, x.2.1.length, x.2.2)) = [(6, 0xC00000, 16, 16, true)] ∧
      r.dev.coordinates 0 = true ∧ (ended 1).moved ≠ none ∧ (exchanging 1 (ended 1)).dev.coordinates 0 = false := by
  unfold State.memWf; decide +kernel

theorem test_turns :
    let t := after (exec (.turn q0 turnWords) (turning turn0))
    let b := after (exec (.roundBegin 0) (turning (turn1 .none)))
    let m := after (exec (.roundMoveEnd 0 1 [true] 3) (exchanging 1 (ended 1)))
    let c := after (exec (.readyReceive 0 0 0 3) (turning (turn1 .ready)))
    let a := after (exec (.xplAbort .mc 0 1) (turning (turn1 .move)))
    ((t.turn 0).st = .running ∧ (t.turn 0).total = 1) ∧ (b.turn 0).phase = .move ∧ (m.bytes 0xC00000 4 = [77, 0, 0, 0] ∧ (m.turn 0).phase = .ready) ∧
      ((c.ld 0).trl.active = some true ∧ (c.turn 0).st = .idle ∧ (c.ld 0).trl.evt = 1) ∧ ((a.turn 0).st = .part ∧ (a.turn 0).tkt = none) ∧
      (after (exec (.roundBegin 0) (turning (turn1 .move)))) = (turning (turn1 .move)).dev := by decide +kernel

/-! ## The host -/

/-- Queue 0 as given, with a host control line at 0x10000, and the request ring's words 7 in host memory. -/
def queued (x : Cq) : State :=
  on { dev with lds := [(0, { ld0 with host := { ld0.host with cqs := [(0, x)] } }), (15, up { Layout.init with domBase := 100, domCount := 1 })]
                hostMem := poke [] 0x10000 [7] }

theorem witness_QueuesEnableAndDrain :
    let s := queued { cq0 with st := .disabled }
    let d := s.dev
    s.memWf ∧ d.pageMode 0 = .full ∧ d.ownsDom 0 1 = true ∧ d.ownsDom 0 4 = false ∧ (d.ld 0).ctl.st = .enabled ∧ d.ringInside 0 0 (64 * 2 ^ 4) = true ∧
      (d.dom 1).st = .open ∧ (samples 0 (64 * 2 ^ 4)).all (d.ringFrame 1) = true ∧ (samples 0 (64 * 2 ^ 4)).all (d.ringFrame 2) = false ∧ d.launches = [] ∧
      d.boot.drains = [] ∧ (d.ld 0).upd.phases = [] ∧ d.anyReq 0 = false ∧ fld (0x80010004 : W32) 4 0 = 4 ∧ fld (0x80010010 : W32) 4 0 = 16 := by
  unfold State.memWf; decide +kernel

theorem test_queues :
    let en := fun (v : W32) => after (exec (.cqEnable .mc 0 0 v) (queued { cq0 with st := .disabled, prod := 5 }))
    let err := fun (d : Dev) => (d.ld 0).ctl.errCode
    let tail := fun (v : W32) => after (exec (.cqTailWrite .mc 0 0 v) (queued cq0))
    ((((en 0x80010004).ld 0).cq 0).st = .enabled ∧ (((en 0x80010004).ld 0).cq 0).prod = 0 ∧ (en 0x80010004).hostByte 0x10000 = 0) ∧
      err (en 0x80010003) = eRange ∧ err (en 0x80040004) = ePerm ∧ err (en 0x80010024) = eReservedNonzero ∧ (((tail 16).ld 0).cq 0).tail = 16 ∧
      err (tail 17) = eRange ∧ (((after (exec (.cqDisable .mc 0 0 0x10004) (queued cq0))).ld 0).cq 0).st = .draining ∧
      (((after (exec (.queueDrainEnd 0 0) (queued { cq0 with st := .draining }))).ld 0).cq 0).st = .disabled ∧
      ((after (exec (.reqCplEnable .mc 0 0x80000004) (queued cq0))).ld 0).host.reqCpl.enable = true ∧
      err (after (exec (.cqCplHeadWrite .mc 0 0 1) (queued cq0))) = eRange := by decide +kernel

/-- A queue with one posted command: the header words and a body at the base of frame 0. -/
def fetching (h b : List W32) : State :=
  let s := queued { cq0 with tail := 2 }
  on { s.dev with mem := poke (poke [] 0 h) 64 b }

theorem witness_CommandsAreFetched :
    let s := fetching [0x50001] (lists 0x21 1)
    let d := s.dev
    d.quiet ∧ d.touched = [] ∧ (d.ld 0).ctl.st = .enabled ∧ d.busCode (.eng 0 1) false 0 64 = none ∧ d.busCode (.eng 0 1) false 64 64 = none ∧
      firstFail (headerChecks d 0 1 0x21 (d.refsAt 0 16)) = none ∧ (commandOf 0x21 q0 0 (d.refsAt 64 16)).isSome = true ∧
      ((d.ld 0).cq 0).outstanding < 2 ^ ((d.ld 0).cq 0).log2m ∧ (firstFail (headerChecks d 0 2 0x21 (d.refsAt 0 16))) = some eRange := by
  repeat' apply And.intro
  all_goals first | decide +kernel | exact (quiet_of_still (by decide +kernel)).2.2.2

theorem test_fetch :
    let run := fun (h b : List W32) => (after (exec (.commandFetch 0 0) (fetching h b)))
    let cq := fun (d : Dev) => (d.ld 0).cq 0
    let bad := run [0x50001] (lists 0x21 0)
    let none_ := run [0x50000] []
    (cq bad).head = 2 ∧ (cq bad).prod = 1 ∧ (cq none_).head = 1 ∧ (cq (run [0x50002] (lists 0x21 1))).head = 0 ∧
      ((cq (run [0x50001] (words 16 [0x74, 5]))).prod = 1 ∧ ((run [0x50001] (words 16 [0x120074, 5])).ld 0).upd.phases.length = 1) := by decide +kernel

/-- Mailbox m of LD 0 with a message. -/
def posted (m : Nat) (w0 : W32) (full : Bool) : State :=
  let x : Mailbox := { Mailbox.init with data := (Vector.replicate 15 0).set 0 w0, full := full }
  on { dev with lds := [(0, { ld0 with host := { ld0.host with mbx := [(m, x)] } }), (15, up Layout.init)] }

theorem witness_MailboxesCarryMessages :
    (posted 3 0 true).dev.pageMode 0 = .full ∧ isSender (.host 0) 15 = true ∧ isSender (.host 0) 16 = false ∧ isSender .mc 15 = false ∧
      (posted 3 0 true).dev.mbxReady 0 3 = true ∧ (posted 0 0x10000000 true).dev.mbxReady 0 0 = true ∧ (posted 3 0 false).dev.mbxReady 0 3 = false ∧
      fld ((posted 0 0x00210000 true).dev.mbxWord 0 0 0) 27 16 = 0x021 := by decide +kernel

theorem test_mailboxes :
    let go := fun (c : Instr) (w0 : W32) (full : Bool) => after (exec c (posted 3 w0 full))
    let v := go (.mailboxServe 0 3) 0x1234567 true
    ((go (.mbxSend (.host 0) 0 3 0x10000002) 5 false).ld 0).mbx 3 = { (posted 3 5 true).dev.ld 0 |>.mbx 3 with nreg := 2, sentAt := 2 } ∧
      ((go (.mbxSend (.host 0) 0 3 0x10000002) 0x20000000 false).ld 0).ctl.errCode = eRange ∧ ((go (.mbxSend .mc 0 3 0x10000002) 5 false).ld 0).ctl.errCode = ePerm ∧
      (((go (.mbxRelease .mc 0 3 0x20000000) 5 true).ld 0).mbx 3).full = false ∧ ((go (.mbxRelease .mc 0 3 0x20000000) 5 true).ld 0).host.mbxEmpty = 8 ∧
      (((v.ld 0).mbx 19).data.getD 0 0 = 0x1234567 ∧ ((v.ld 0).mbx 19).data.getD 1 0 = eRange.setWidth 32) ∧ ((v.ld 0).mbx 3).full = false := by decide +kernel

theorem witness_HostReachesMemory :
    let d := st.dev
    d.quiet ∧ st.memWf ∧ d.pageMode 0 = .full ∧ d.hdmAddr 0 0 0x40 = some 0x40 ∧ d.hdmAddr 0 1 0x40 = some 0x40000000040 ∧ d.busCode (.cxl 0) false 0x40 64 = none ∧
      d.busCode (.cxl 0) true 0x40 64 = none ∧ d.busCode (.cxl 0) false 0x40000000040 64 ≠ none ∧ d.hdmAddr 0 0 0x3000000000 = none ∧
      secReserved (words 16 [0x84, 0, 0x100]) [1, 2, 3] false = false ∧ Map.find (d.ld 0).sec.pubKeys 0 = none ∧
      (let c := (queued { cq0 with domain := 0 }).dev; c.issDom q0 = 0 ∧ c.isControl 0 0 = true) ∧ (word (words 16 [0x84, 0, 0x100]) 1).toNat = 0 := by
  repeat' apply And.intro
  all_goals first | decide +kernel | exact (quiet_of_still (by decide +kernel)).2.2.2

theorem test_host_memory :
    let line := List.replicate 64 (9 : Byte)
    let w := after (exec (.cxlMemWrite 0 0 0x40 line false) st)
    w.bytes 0x7F 1 = [9] ∧ (after (exec (.cxlMemRead 0 0 0x40 false) (on w))).out = [.cxlData 0 0x40 line false] ∧
      (after (exec (.cxlMemRead 0 0 0x40 true) (on w))).snoops = [0x40] ∧
      (after (exec (.cxlMemRead 0 1 0x40 false) st)).out = [.cxlData 0 0x40000000040 (zeros 64) true] ∧ (after (exec (.hostSnoop 0x40) st)).out = [.rspIHitI 0x40] ∧
      (after (exec (.backInvalidateResponse 0x40) (on { dev with snoops := [0x40], biWait := [0x40] }))).snoops = [] ∧
      (after (exec (.free q0 0 (lists 0x21 1)) (on { kvDev .active with snoops := [0x100] }))).out = [.backInvalidate 0x100] := by decide +kernel

/-! ## Tenants, keys and attestation -/

/-- Queue 1 of LD 0 for its control domain 0, and queue 0 of LD 15 for domain 100; domain 1 as given. -/
def qc : Issuer := .queue 0 1 1 0
def q15 : Issuer := .queue 15 0 1 0
def tenant (x : Domain) : State :=
  let l15 := up { Layout.init with domBase := 100, domCount := 1 }
  on { dev with
    lds := [(0, { ld0 with host := { ld0.host with cqs := [(0, cq0), (1, { cq0 with domain := 0 })] } }),
            (15, { l15 with host := { l15.host with cqs := [(0, { cq0 with domain := 100 })] } })]
    domains := [(0, openDom), (1, x), (2, openDom), (100, openDom)]
    tags := dev.tags ++ [(5, { PageTag.init with st := .zeroing, domain := 2 })]
    crypto := { dev.crypto with attestOk := true, l2Left := 3 } }
def sec (op : W32) (ws : List W32) : List W32 := words 16 (op :: ws)

theorem witness_DomainsOpenAndClose :
    let d := (tenant Domain.init).dev
    (d.isControl 0 (d.issDom qc) = true ∧ d.isControl 0 (d.issDom q0) = false ∧ d.ownsDom 0 1 = true ∧ d.isControl 0 1 = false) ∧ (d.dom 1).st = .closed ∧
      d.crypto.drbgFail = false ∧ wfld (sec 0x80 [1, 0x140000, 0x40000, 0x5000]) 2 20 0 = 1310720 ∧
      wfld (sec 0x80 [1, 0x140000, 0x40000, 0x5000]) 4 14 0 = 20480 ∧ d.boot.drains = [] ∧ (d.framesOf 1 fun p => p.st == .zeroing) = [] := by decide +kernel

theorem test_domains :
    let run := fun (x : Domain) (c : Instr) => after (exec c (tenant x))
    let none_ := { Domain.init with st := .closing, tkt := some { iss := qc, op := 0x81, btag := 0 } }
    let prod := fun (d : Dev) => ((d.ld 0).cq 1).prod
    (((run Domain.init (.domOpen qc (sec 0x80 [1, 5, 6, 7]))).dom 1).kvQ = 5 ∧ ((run Domain.init (.domOpen qc (sec 0x80 [1, 5, 6, 7]))).dom 1).st = .open) ∧
      ((run Domain.init (.domOpen qc (sec 0x80 [1, 0x140001]))).dom 1).st = .closed ∧ ((run Domain.init (.domOpen q0 (sec 0x80 [1]))).dom 1).st = .closed ∧
      ((run openDom (.domQuota qc (sec 0x82 [1, 9]))).dom 1).kvQ = 9 ∧ ((run openDom (.domClose qc (sec 0x81 [1]))).dom 1).st = .closing ∧
      ((run openDom (.domClose qc (sec 0x81 [0]))).dom 0).st = .open ∧
      (let z := after (exec (.domCloseComplete 1) (on { (tenant none_).dev with tags := [] }))
       (z.dom 1).st = .closed ∧ prod z = 1 ∧ (z.ld 0).sec.evt = 32) := by decide +kernel

theorem witness_PagesAreTagged :
    let s := tenant openDom
    let d := s.dev
    d.quiet ∧ s.memWf ∧ placeOf 0x400000 = .hbm 0 0x400000 ∧ frameOf 0x400000 = some 1 ∧ d.ldOfDie 0 = d.rqLd (.eng 0 1) ∧ d.rqLd (.eng 0 1) < 10 ∧ (d.tag 1).st = .assigned ∧
      (d.tag 5).st = .zeroing ∧ (d.tag 6).st = .free ∧ [0x1800000].any (d.frameOut 0) = false ∧ (d.dom 2).st ≠ .closing ∧ d.pageJobs = [] ∧
      (posted 0 0x200000 true).dev.mbxReady 0 0 = true ∧ (posted 0 0x200000 true).dev.isMsg 0 0x020 = true := by
  repeat' apply And.intro
  all_goals first | decide +kernel | exact (quiet_of_still (by decide +kernel)).2.2.2

theorem test_pages :
    let run := fun (c : Instr) => after (exec c (tenant openDom))
    let set := fun (w1 a n : W32) => run (.pageSet qc (sec 0x83 [w1, a, 0, n]))
    ((set 0x20000 0x1800000 1).tag 6 = { PageTag.init with st := .zeroing, domain := 2 } ∧ (set 0x20000 0x1800000 1).pageJobs.length = 1) ∧
      (set 0x20000 0x400000 1).tag 1 = ours ∧ ((set 1 0x400000 2).tag 2).release = true ∧ (set 6 0x400000 1).tag 1 = { ours with shared := true, host := false, fabric := false } ∧
      ((run (.pageZeroFillComplete 5)).tag 5).st = .assigned ∧ (tenant openDom).dev.mayReach (.eng 0 2) false 0x400000 = false ∧
      (tenant openDom).dev.mayReach (.cassum 0) false 0x400000 = true ∧ (tenant openDom).dev.mayReach (.clu 0) false (dieSramAddr 0 0xFFFFF) = false ∧
      (tenant openDom).dev.mayReach (.clu 0) false (dieSramAddr 0 0x100000) = true ∧
      (((after (exec (.pageSetMsg 0) (posted 0 0x200000 true))).ld 0).mbx 16).data.getD 1 0 = eState.setWidth 32 := by decide +kernel

theorem witness_KeysAndImports :
    let s := tenant openDom
    let d := s.dev
    let b := sec 0x86 [0x100, 0, 64, 0x400000, 0, 64]
    d.quiet ∧ secReserved (sec 0x84 [0x3F00, 0x100]) [1, 2, 3] false = false ∧ wfld (sec 0x84 [0x3F00, 0x100]) 1 13 8 = 63 ∧
      d.busCode (.eng 0 1) false 0x100 1608 = none ∧ (importDst b).1 + (importDst b).2 ≤ 2 ^ 44 ∧ d.busCode (.eng 0 1) true 0x400000 64 = none ∧
      ¬(128 + objSig (d.bytes 0x100 64) + 0x680 ≤ 64) ∧ d.pageSilent 0 = false ∧ Map.find (d.ld 0).sec.pubKeys 63 = none := by
  repeat' apply And.intro
  all_goals first | decide +kernel | exact (quiet_of_still (by decide +kernel)).2.2.2

theorem test_keys :
    let s := on { (tenant { openDom with kvQ := 1 }).dev with tags := [(0, { ours with domain := 0 })], mem := poke [] 0x100 [0x11] }
    let k := after (exec (.pubKey qc (sec 0x84 [0x3F00, 0x100])) s)
    let j : MgmtJob := { tkt := { iss := q0, op := 0x86, btag := 0 }, ld := 0, dom := 1, words := sec 0x86 [0x100, 0, 64, 0x400000, 0, 64], left := [] }
    let im := after (exec (.weightImport q0 (sec 0x86 [0x100, 0, 64, 0x400000, 0, 64])) (tenant openDom))
    let ic := after (exec (.weightImportComplete 0) (on { (tenant openDom).dev with imports := [j] }))
    ((Map.find (k.ld 0).sec.pubKeys 63).map fun b => b.take 2) = some [0x11, 0] ∧ ((after (exec (.pubKey q0 (sec 0x84 [0, 0x100])) s)).ld 0).sec.pubKeys = [] ∧
      im.imports = [j] ∧ ic.imports = [] ∧ ((ic.ld 0).cq 0).prod = 1 ∧
      ((after (exec (.sessionExchange 0 (zeros 1568) (zeros 32)) (tenant openDom))).out.length = 1) := by decide +kernel

theorem witness_AttestationAndStorage :
    let s := tenant openDom
    let b := sec 0x87 [0, 0x100, 0, 0x400000, 0, 4760]
    firstFail (attestChecks s q0 b) = none ∧ attestBytes s b = 4760 ∧ 2 ≤ s.dev.crypto.l2Left ∧ s.dev.crypto.l2Busy = false ∧ s.vault.leaves < 1048576 ∧
      s.dev.issLd q15 = 15 ∧ s.dev.isControl 15 (s.dev.issDom q15) = true ∧ s.vault.minImg ≤ 2 ∧ s.dev.boot.image.elim 0 (fun i => i.imgVer) = 2 ∧
      firstFail (attestChecks s q0 (sec 0x87 [0, 0x100, 0, 0x400000, 0, 4759])) = some eExhausted := by decide +kernel

theorem test_attestation :
    let s := tenant openDom
    let busy := on { s.dev with crypto := { s.dev.crypto with l2Busy := true } }
    let raise := fun (v : W32) => stateOf (exec (.minverRaise q15 (sec 0x89 [1, v])) s)
    (stateOf (exec .l2TreeCertify busy)).vault.leaves = 4 ∧ (after (exec .l2TreeCertify busy)).crypto.l2Left = 32768 ∧
      (after (exec .l2TreeCertify { busy with vault := { busy.vault with leaves := 1048576 } })).crypto.attestOk = false ∧
      (after (exec (.attest q0 (sec 0x87 [0, 0x100, 0, 0x400000, 0, 4760])) s)).crypto.l2Left = 2 ∧
      (after (exec (.attest q0 (sec 0x87 [0, 0x100, 0, 0x400000, 0, 4760])) busy)) = busy.dev ∧ (raise 2).vault.minImg = 2 ∧ (raise 3).vault.minImg = s.vault.minImg ∧
      ((((after (exec (.ownerXfer q15 (sec 0x8A [0x100, 0, 64])) s)).ld 15).cq 0).prod = 1) := by decide +kernel

/-! ## The NVM, starts and resets -/

/-- A start record with a count, written at the first place of sector A. -/
def recorded (c : Nat) : Vault := (st.vault.append c 1 0 0).1

/-- NVM message m of mailbox 0 of LD 15 with its offset, length and data, sent at a time. -/
def nvmMsg (m off n at_ : Nat) (data : List W32) : State :=
  let ws := [BitVec.ofNat 32 (m * 65536), BitVec.ofNat 32 off, BitVec.ofNat 32 n] ++ data
  let x : Mailbox := { data := Vector.ofFn fun i => ws.getD i.val 0, full := true, nreg := 15, sentAt := at_ }
  let l := up { Layout.init with domBase := 100, domCount := 1 }
  { on { dev with lds := [(0, ld0), (15, { l with host := { l.host with mbx := [(0, x)] } })] } with vault := recorded 1 }

theorem witness_NvmMessagesAndRecords :
    let s := nvmMsg 0x012 0x1000 48 2 []
    s.memWf ∧ s.dev.mbxReady 15 0 = true ∧ st.dev.mbxReady 15 0 = false ∧ s.dev.boot.probe = 0 ∧ s.dev.isMsg 15 0x012 = true ∧
      (nvmMsg 0x011 0 40 2 []).dev.isMsg 15 0x011 = true ∧ (nvmMsg 0x010 0 0 0 []).dev.isMsg 15 0x010 = true ∧
      s.vault.nvmRead 0x1000 1 = [0xFF] ∧ (recorded 1).current.isSome = true ∧ st.vault.current = none := by
  unfold State.memWf; decide +kernel


theorem test_nvm_codes :
    let reply := fun (r : Result) => (((after r).ld 15).mbx 16).data.getD 1 0
    let wrote := stateOf (exec .nvmWrite (nvmMsg 0x012 0x1000 8 2 [0x04030201, 0x08070605]))
    reply (exec .nvmErase (nvmMsg 0x011 0 41 2 [])) = eRange.setWidth 32 ∧ reply (exec .nvmErase (nvmMsg 0x011 4 1 2 [])) = eAlign.setWidth 32 ∧
      reply (exec .nvmErase (nvmMsg 0x011 0x270000 2 2 [])) = ePerm.setWidth 32 ∧ reply (exec .nvmRead (nvmMsg 0x013 2 4 2 [])) = eAlign.setWidth 32 ∧
      reply (exec .nvmInfo (nvmMsg 0x010 0 0 0 [])) = eState.setWidth 32 ∧ wrote.vault.nvmRead 0x1003 4 = [4, 5, 6, 7] ∧
      (((stateOf (exec .startClear (nvmMsg 0x015 0 0 2 []))).vault.current).map fun r => (r.seq, r.count, r.offset)) = some (2, 0, 0x07FE0020) := by
  decide +kernel

/-- The module in its ROM stage after starts whose last record holds a count, and in its Silmuvin stage. -/
def starting (stg : BootStage) (c : Nat) : State :=
  { on { dev with boot := { Boot.init with stage := stg, image := some image }, dies := [(0, { die0 with joined := false, booting := true })] } with vault := recorded c }

theorem witness_StartsProceed :
    let s := starting .rom 1
    let u := starting .up 1
    s.memWf ∧ s.dev.boot.stage = .rom ∧ s.dev.pins.rails = true ∧ s.dev.pins.resetN = true ∧ s.dev.boot.zeroising = [] ∧
      s.vault.current.map StartRec.count = some 1 ∧ (starting .rom 3).vault.current.map StartRec.count = some 3 ∧
      (starting .silmuvin 1).dev.crypto.drbgFail = false ∧ s.dev.pins.clkCas = true ∧ s.dev.boot.level2 = false ∧ s.dev.boot.failed = false ∧
      s.dev.excluded (.channel 0) = false ∧ s.dev.startCount < 3 ∧ u.dev.launches = [] ∧ (u.dev.ld (u.dev.ldOfDie 0)).ctl.crop = none ∧
      (u.dev.die 0).booting = true ∧ (u.dev.die 0).bootLeft = [] ∧ u.dev.quiet ∧
      s.vault.sramOk (.iodSram 0) goodSram = true ∧ s.vault.sramOk (.iodSram 1) goodSram = true ∧ s.vault.sramOk (.iodSram 0) badSram = false ∧
      s.vault.sramOk (.dieSram 0) goodSram = true ∧ s.vault.sramOk (.dieSram 0) badSram = false ∧
      (∀ c < 24, dramOk (.channel c) (chanTest [] c) = true) ∧ dramOk (.channel 3) (chanTest [(3, broken)] 3) = false ∧
      (∀ c < 24, c ≠ 3 → dramOk (.channel c) (chanTest [(3, broken)] c) = true) := by
  repeat' apply And.intro
  all_goals first | decide +kernel | exact (quiet_of_still (by decide +kernel)).2.2.2

set_option maxRecDepth 20000 in
theorem test_starts :
    let rom := fun (p : NvmProbe) (c : Nat) => stateOf (exec (.romStage p true) (starting .rom c))
    let join := after (exec (.dieJoin 0 goodSram) (starting .up 1))
    let lost := after (exec (.dieJoin 0 badSram) (starting .up 1))
    (rom 0 3).dev.boot.stage = .fallow ∧ (rom 1 0).dev.boot.stage = .fallow ∧ (rom 1 0).dev.boot.probe = 1 ∧
      ((rom 0 0).dev.boot.stage = .failedVerify ∧ (rom 0 0).dev.boot.failCode = eNvmImage ∧ (rom 0 0).vault.current.map StartRec.count = some 1) ∧
      ((join.die 0).joined = true ∧ (lost.die 0).absent = true ∧ lost.boot.failCode = eSelftest ∧ lost.boot.failDetail = 64) := by decide +kernel

/-- LD 0 under reset or after its disable. -/
def ldIn (x : LdState) (z : List Scope) : State :=
  on { dev with lds := [(0, { ld0 with ctl := { ld0.ctl with st := x } }), (15, up Layout.init)], boot := { dev.boot with zeroising := z } }

theorem witness_ResetsRestoreScopes :
    reachesPage (.host 0) 0 = true ∧ st.dev.pageMode 0 = .full ∧ st.dev.colls = [] ∧ st.dev.zeroing = [] ∧
      (0x80000001 : W32).getLsbD 31 = true ∧ fld (0x80000001 : W32) 29 16 = 0 ∧ fld (0xC001FFFF : W32) 29 16 ≠ 0 ∧ fld (0x40000001 : W32) 15 0 = 1 ∧
      (st.dev.ld 0).ctl.st = .enabled ∧ ((ldIn .disabled []).dev.ld 0).ctl.st = .disabled ∧ ((ldIn .draining []).dev.ld 0).ctl.st = .draining ∧
      reachesPage .mc 15 = true ∧ st.dev.pageMode 15 = .full ∧ fld (0xA5000001 : W32) 23 1 = 0 ∧ fld (0xA5000001 : W32) 31 24 = 0xA5 ∧
      st.dev.launches = [] ∧ st.dev.reqs = [] ∧ (ldIn .resetting [.ld 0]).dev.boot.zeroising.contains (.ld 0) = true ∧
      (ldIn .resetting [.ld 0]).dev.crypto.drbgFail = false ∧ (ldIn .resetting [.device]).dev.quiet := by
  repeat' apply And.intro
  all_goals first | decide +kernel | exact (quiet_of_still (by decide +kernel)).2.2.2

set_option maxRecDepth 20000 in
theorem test_resets :
    let go := fun (c : Instr) (s : State) => after (exec c s)
    let r := go (.ldReset (.host 0) 0 0x80000064) st
    let all := go (.deviceReset .mc 15 0xA5000001) st
    ((r.ld 0).ctl.st = .resetting ∧ (r.ld 0).ctl.cause = 3 ∧ (r.ld 0).lay.ldid = 5 ∧ r.boot.zeroising = [.ld 0] ∧ (r.dom 100).st = .open) ∧
      ((go (.cxlLdReset 0) st).ld 0).ctl.cause = 4 ∧ ((go (.ldReenable (.host 0) 0 0x40000064) (ldIn .disabled [])).ld 0).ctl.cause = 5 ∧
      ((go (.ldDisable (.host 0) 0 0x64) st).ld 0).ctl.st = .draining ∧
      ((go (.resetZeroiseComplete { sc := .ld 0, chans := [] }) (ldIn .resetting [.ld 0])).ld 0).ctl.st = .enabled ∧
      (all.boot.zeroising = [.device] ∧ all.domains = [] ∧ (all.ld 0).ctl.cause = 2 ∧ all.pins.ready = false) ∧
      (go (.resetZeroiseComplete { sc := .device, chans := [] }) (ldIn .resetting [.device])).boot.stage = .rom ∧
      ((go (.deviceReset .mc 15 0xA4000001) st).ld 15).ctl.errCode = eRange := by decide +kernel

/-- A drain of a scope with a limit of 10 microseconds. -/
def drained (sc : Scope) : State :=
  let s := ldIn .draining []
  { on { s.dev with boot := { s.dev.boot with drains := [{ sc := sc, at_ := 0, limitUs := 10, expired := false }] } } with now := 1000 }

theorem witness_DrainsExpireAndEnd :
    let s := drained (.ld 0)
    (s.dev.drain? (.ld 0)).isSome = true ∧ 100 * 10 ≤ s.now.toNat ∧ s.dev.quiet ∧ s.dev.launches = [] ∧ s.dev.colls = [] ∧ s.dev.upds = [] ∧
      s.dev.reqs = [] ∧ s.dev.zeroing = [] ∧ s.dev.busy (.ld 0) = false ∧ (drained (.port 1)).dev.busy (.port 1) = false ∧
      ((drained (.port 1)).dev.port 1).queue = [] ∧ ((drained (.port 1)).dev.port 1).st ≠ .active := by
  repeat' apply And.intro
  all_goals first | decide +kernel | exact (quiet_of_still (by decide +kernel)).2.2.2

theorem test_drains :
    let go := fun (c : Instr) (s : State) => after (exec c s)
    let d := go (.drainComplete (.ld 0)) (drained (.ld 0))
    ((go (.drainLimitExpiry (.ld 0)) (drained (.ld 0))).boot.drains.map Drain.expired) = [true] ∧
      ((go (.drainLimitExpiry (.ld 0)) { drained (.ld 0) with now := 999 }).boot.drains.map Drain.expired) = [false] ∧
      ((d.ld 0).ctl.st = .disabled ∧ (d.ld 0).ctl.service = 0 ∧ (d.ld 0).ctl.bootEvt.getLsbD 3 = true ∧ d.boot.drains = []) ∧
      ((go (.drainComplete (.port 1)) (drained (.port 1))).port 1).st = .off := by decide +kernel

/-! ## The module -/

/-- The module with its supply, pins and stage as given. -/
def module (f : Pins → Pins) (stg : BootStage) : State :=
  on { dev with pins := f dev.pins, boot := { dev.boot with stage := stg } }

theorem witness_PowerResetAndClocks :
    let off := module (fun p => { p with standby := false, rails := false, resetN := false }) .off
    let ov := module (fun p => { p with standby := false, rails := false, overVolt := true }) .off
    off.dev.pins.standby = false ∧ off.dev.pins.overVolt = false ∧ ov.dev.pins.overVolt = true ∧ st.dev.pins.standby = true ∧
      st.dev.pins.resetN = true ∧ st.dev.pins.rails = true ∧ st.dev.pins.tripped = false ∧ off.dev.pins.rails = false ∧ off.dev.boot.stage = .off ∧
      st.dev.boot.stage = .up ∧ (module id .silmuvin).dev.boot.stage = .silmuvin ∧ st.dev.starting = false ∧
      uncal.dev.starting = true ∧ uncal.dev.boot.failed = false ∧ uncal.dev.startCount < 3 ∧ st.dev.boot.zeroising = [] := by decide +kernel

set_option maxRecDepth 20000 in
theorem test_power :
    let go := fun (c : Instr) (s : State) => after (exec c s)
    let off := module (fun p => { p with standby := false, rails := false, resetN := false }) .off
    let ov := module (fun p => { p with standby := false, rails := false, overVolt := true }) .off
    let lit := go (.powerOn 5 4800) off
    let low := go (.vinOutOfBand 3800) st
    (lit.pins.rails = true ∧ lit.boot.stage = .off ∧ lit.i3c.staticAddr = 0x35 ∧ lit.alert = false) ∧ (go (.powerOn 5 3899) off).pins.rails = false ∧
      (low.i3c.fault = 4 ∧ low.alert = true) ∧ (go (.vinOutOfBand 6100) st).i3c.fault = 8 ∧ (go .overVoltage st).pins.overVolt = true ∧
      (go (.overVoltageRecovery 6000) ov).pins.rails = false ∧ (go (.overVoltageRecovery 5999) ov).pins.rails = true ∧
      (go .powerLoss st).domains = [] := by decide +kernel

set_option maxRecDepth 20000 in
theorem test_reset_pin_and_clocks :
    let go := fun (c : Instr) (s : State) => after (exec c s)
    let held := module (fun p => { p with resetN := false }) .off
    (go (.resetNAssert 199) st).pins.resetN = true ∧ ((go (.resetNAssert 1000) st).pins.resetN = false ∧ (go (.resetNAssert 1000) st).boot.stage = .off) ∧
      (stateOf (exec (.resetNAssert 1000) st)).now = 0 ∧ (go .resetNDeassert held).boot.stage = .rom ∧ (go (.clockFault .cxl) st).i3c.fault = 16 ∧
      ((go (.clockFault .cassum) (module id .silmuvin)).pins.clkCas = false ∧ (go (.clockFault .cassum) st).boot.zeroising = [.device]) ∧
      ((go .railOutOfRegulation uncal).boot.failCode = eStartFatal ∧ (go .railOutOfRegulation uncal).boot.failDetail = 4) ∧
      ((go .vauxCurrentLimit st).i3c.fault = 1024 ∧ (go .vauxCurrentLimit st).boot.stage = .fallow) := by decide +kernel

/-- The module with an I3C i3cSt as given. -/
def i3cSt (dyn : Option (BitVec 7)) (ibi : Bool) : State := on { dev with i3c := { I3c.init with dynAddr := dyn, ibiEn := ibi, fault := 2 } }

theorem witness_TemperaturesAndSideband :
    st.dev.pins.rails = true ∧ st.dev.starting = false ∧ uncal.dev.pins.rails = true ∧ uncal.dev.starting = true ∧ uncal.dev.boot.failed = false ∧
      st.dev.pins.standby = true ∧ st.dev.pins.therm = false ∧ (i3cSt none true).dev.i3c.fault.getLsbD 2 = false ∧
      (i3cSt (some 9) true).dev.i3c.ibiEn = true ∧ (i3cSt (some 9) true).dev.i3c.dynAddr.isSome = true ∧ (i3cSt none true).dev.i3c.dynAddr = none ∧
      (fld (0x1000 : W32) 31 12 ≠ 0 ∧ fld (3000 : W32) 11 0 = 3000 ∧ fld (999 : W32) 11 0 = 999 ∧ fld (3001 : W32) 11 0 = 3001) ∧
      ((0x10000 : W32).getLsbD 16 = true ∧ fld (0x10000 : W32) 31 17 = 0 ∧ fld (0x30000 : W32) 31 17 ≠ 0) ∧ fld (2 : W32) 31 13 = 0 ∧
      fld (0x2000 : W32) 31 13 ≠ 0 ∧ (1 : Byte).getLsbD 0 = true ∧ (2 : Byte).getLsbD 0 = false := by decide +kernel

set_option maxRecDepth 20000 in
theorem test_temperatures :
    let go := fun (c : Instr) (s : State) => after (exec c s)
    let hot := go (.thermAssert 110 30) st
    let fault := fun (c : Instr) => (go c st).i3c.fault
    ((hot.die 0).vcore = 700 ∧ (hot.die 0).pacing = 15 ∧ hot.pins.therm = true ∧ hot.i3c.fault = 0x100) ∧ (go (.thermAssert 109 79) st).pins.therm = false ∧
      ((go (.thermRelease 104 74) (on hot)).pins.therm = false ∧ (go (.thermRelease 105 74) (on hot)).pins.therm = true) ∧
      ((go (.thermalTrip 119 90) st).pins.rails = false ∧ (go (.thermalTrip 119 89) st).pins.rails = true ∧ fault (.thermalTrip 120 0) = 0x900) ∧
      (fault (.coolantAlarm 46 50) = 0x80 ∧ fault (.coolantAlarm 45 76) = 0x40 ∧ fault (.coolantAlarm 45 75) = 0) ∧
      (fault (.sidebandFault 3) = 0x200 ∧ (go (.sidebandFault 3) st).i3c.sbPin = 3) ∧ (go (.healthTestChange true) st).crypto.drbgFail = true := by decide +kernel

theorem test_sideband :
    let go := fun (c : Instr) (dyn : Option (BitVec 7)) => (after (exec c (i3cSt dyn true)))
    let limit := fun (v : W32) => ((go (.pwrBcLimitWrite v) none).i3c.limitW, (go (.pwrBcLimitWrite v) none).i3c.errCode)
    (limit 0 = (0, 0) ∧ limit 1000 = (1000, 0) ∧ limit 999 = (0, eRange) ∧ limit 3001 = (0, eRange) ∧ limit 0x1000 = (0, eReservedNonzero)) ∧
      (go (.i3cRegisterWrite 4 [2, 0, 0, 0]) none).i3c.fault = 0 ∧ (go (.i3cRegisterWrite 7 [0, 0, 0, 0]) none).i3c.errCode = eRange ∧
      (go (.i3cRegisterWrite 1 [0, 0, 0]) none).i3c.errCode = eAlign ∧ (go (.entdaa 9) none).i3c.dynAddr = some 9 ∧
      ((go .rstdaa (some 9)).i3c.dynAddr = none ∧ (go (.setdasa 8) (some 9)).i3c.dynAddr = some 9) ∧ (go (.disec 1) none).i3c.ibiEn = false ∧
      ((go (.coolantAlarm 46 50) (some 9)).out = [.inBandInterrupt 1] ∧ (go (.coolantAlarm 46 50) none).out = []) := by decide +kernel

/-! ## The machine as a whole, numbers and well-formedness -/

theorem witness_StepRunsFrontCommand : ({ st with pending := [.elapsedTick []] } : State).pending = [.elapsedTick []] ∧ st.pending = [] := by decide +kernel

theorem witness_CommandsAnswerAndLeaveQueue :
    let s := { st with pending := [.powerLoss] }
    (stateOf (exec (.elapsedTick []) s)).pending = [.powerLoss] ∧ (stateOf (exec (.vinOutOfBand 3800) s)).pending = [.powerLoss] := by decide +kernel

theorem test_steps :
    let t := stateOf (step { st with pending := [.elapsedTick [], .powerLoss] })
    t.pending = [.powerLoss] ∧ t.now = 1001 ∧ (stateOf (step st)).dev = st.dev ∧ (stateOf (step st)).now = 1000 := by decide +kernel

theorem witness_ElapsedCounterOnlyCountsTicks : ∃ t, exec (.elapsedTick []) st = .next t ∧ t.now = st.now + 1 := ⟨_, rfl, rfl⟩

theorem witness_StepsNeverRollVaultBack : ∃ t, step st = .next t ∧ st.vault.leaves ≤ 1048576 := ⟨st, rfl, by decide +kernel⟩

theorem witness_StepsKeepNvmWithinItsMap :
    let s := { nvmMsg 0x015 0 0 2 [] with pending := [.startClear] }
    Mem.wf nvmDefault s.vault.nvm = true ∧ (stateOf (step s)).pending = [] ∧ (stateOf (step s)).vault.nvm ≠ s.vault.nvm := by decide +kernel

theorem witness_MemoryWritesKeepForm :
    st.memWf ∧ ∃ t, exec (.cxlMemWrite 0 0 0 [1, 2] false) st = .next t :=
  ⟨by unfold State.memWf; decide +kernel, _, rfl⟩

theorem test_windows : placeOf 0x0C800012348 = .hbm 6 0x800012348 ∧ pchOf 0x0C800012348 = 10 ∧ cwOf 0x0C800012348 = 0x0C800012340 ∧
    placeOf 0x1700000 = .hbm 0 0x1700000 ∧ placeOf 0x17000000000 = .nowhere ∧ placeOf 0x58000000000 = .lp 12 0 := by decide +kernel

theorem witness_MemoryWindowsDecode : 9 < 10 ∧ 0x17FFFFFFFF < 0x1800000000 ∧ 0x1800000000 < 0x3000000000 ∧ 0x3000000000 < 0x4000000000 ∧ 23 < 24 := by decide

theorem witness_UniformValuesAreExact : 0x9E3779B9 < 2 ^ 32 := by decide

theorem witness_FormatsStoreWhatTheyHold : decode .fp32 0x3F800000 ≠ .nan ∧ decode .e4m3 0x7E ≠ .nan ∧ Fmt.fp16.isInt = false ∧
    5 < 2 ^ (Fmt.fp16.width - 1) ∧ (decode .fp16 4).lt (decode .fp16 5) = true := by decide +kernel

/-- The worked examples of the number formats: pieces of 1/3, a stochastic store, and the exact sum of three members. -/
theorem test_number_examples :
    (splitPiece 1 0x3EAAAAAB = 0x3EAA ∧ splitPiece 2 0x3EAAAAAB = 0x3AAA ∧ splitPiece 3 0x3EAAAAAB = 0x36AB) ∧
      (stochStore .bf16 0x9E3779B9 0x3F80C000 = 0x3F81 ∧ stochStore .bf16 0xC0000000 0x3F80C000 = 0x3F80) ∧
      chunkAnchor [0x4B800000, 0x3F400000] = 0x97 ∧ toAx 0x97 0x4B800000 = 0x400000000000000000 ∧ toAx 0x97 0x3F800000 = 0x400000000000 ∧
      (toAx 0x97 0xA9200000 = -2 ∧ fromAx .fp32 0x97 0x3FFFFFFFFFFE = 0x3F800000 ∧ fromAx .fp32 0x97 0x400000000000 = 0x3F800000) := by decide +kernel

theorem witness_IntegerProductIsExactSum :
    let x := mxDesc mxWords
    let p := fun kk => sgn 8 (elemAt .int8 [1, 2, 3, 4, 5, 6, 7, 8] kk) * sgn 8 (elemAt .int8 [1, 0xFF, 0, 0, 0, 0, 0, 2] kk)
    x.k = 8 ∧ ((List.range 8).map p).sum = 15 ∧ (∀ m, m ≤ x.k → -(2 ^ 31) ≤ ((List.range m).map p).sum ∧ ((List.range m).map p).sum ≤ 2 ^ 31 - 1) ∧
      (2 ^ 31 - 1 : Int) < (2 ^ 31 - 1) + 1 ∧ (-(2 ^ 31) : Int) + (-1) < -(2 ^ 31) := by decide +kernel

/-- The worked examples of registers: the port that narrows to two lanes, and a repeated start failure. -/
theorem test_register_examples :
    ((after (exec (.portTrainingEnd 0 { far with farDid := 0x123 })
        (ported { train 7 [(0, 3), (1, 2), (2, 1)] with pol := 2 } id))).port 0).status = 0x048C3953 ∧
      ({ Boot.init with stage := .fallow, rec_ := some { seq := 7, count := 3, level := 1, code := eSelftest, detail := 0x0D, offset := 0 } } : Boot).reason =
        0x030D0804 := by decide +kernel

/-- One ill-formed operand for each check of a command's operands. -/
def illFormed : List Instr :=
  [.halt 2560, .ldErrClear .mc 10 0, .ldErrClear .mc 16 0, .ldErrClear (.host 11) 0 0, .rmaxClear (.clu 2560) 0 0, .registerWrite .mc (.ld 12) 0 4 0,
   .registerWrite .mc (.clu 2560) 0 4 0, .registerWrite .mc (.ld 0) 0x200000 4 0, .loReadLatch .mc (.ld 0) ⟨0x200000, 4⟩, .elapsedTick [(2 ^ 44, [])],
   .powerSample 0 [] (List.replicate 10 ⟨750, 0⟩), .powerSample 0 (List.replicate 10 50) [], .slackTrip 10 0, .slackTrip 0 2560,
   .dieCalibration 10 sound sound 0 0 0, .matrixOpStart 0 32, .vectorOpEnd 0 32, .icuWin (.ld 10), .icuWin (.clu 2560), .msixPost 14]

def illFormedUnits : List Instr :=
  [.scrubStep (.stack 20) 0, .scrubStep (.channel 24) 0, .softRepairStart (.dieSram 10), .softRepairStart (.iodSram 2), .scoreComplete 20,
   .kvZeroFillComplete 1310720, .kvmRegionWrite .mc 0 false 20 0, .kvmRegionWrite .mc 0 true 24 0, .adpLoadComplete 16384, .tokenStepBegin 262144,
   .portDetectAttempt 32, .laneLock 0 4 false 0, .graftSelfWrite .mc 0 10 0, .graftEntryWrite .mc 0 64 0, .rakeSlotZeroFillComplete 2 0 0,
   .updateEngineStart 10, .dfsRingWaitEnd 0 8 0, .commandFetch 0 64, .mbxSend .mc 0 32 0, .cxlMemRead 0 2 0 false, .cxlMemWrite 0 0 0 (zeros 65) false,
   .domCloseComplete 4096, .pageZeroFillComplete 1277952, .drainComplete (.ld 10), .drainComplete (.queue 10 0), .drainComplete (.queue 0 64),
   .drainComplete (.domain 4096), .drainComplete (.port 32)]

def body0 (n : Nat) : List W32 := List.replicate n 0

def illFormedBodies : List Instr :=
  [.alloc (.queue 10 0 0 0) 0 (body0 16), .alloc (.queue 0 64 0 0) 0 (body0 16), .alloc (.kvRing 2560 0) 0 (body0 16),
   .alloc (.colRing 2560 0) 0 (body0 16), .alloc (.req 262144) 0 (body0 16), .alloc (.msg 10) 0 (body0 16),
   .alloc (.engine 10) 0 (body0 16), .alloc q0 10 (body0 16), .alloc q0 0 (body0 15), .reduce q0 (body0 31)]

/-- Well-formed commands at the ends of the same ranges. -/
def wellFormedEnds : List Instr :=
  [.halt 2559, .ldErrClear (.host 15) 15 0, .registerWrite .mc (.ld 9) 0x1FFFFC 4 0, .alloc (.queue 9 63 0 0) 9 (body0 16), .reduce q0 (body0 32),
   .scrubStep (.stack 19) 0, .kvmRegionWrite .mc 0 true 23 0, .laneLock 31 3 true 0, .drainComplete (.port 31), .mbxSend .mc 0 31 0,
   .cxlMemWrite 0 1 0 (zeros 64) false]

theorem test_ill_formed : (illFormed.any wellFormed || illFormedUnits.any wellFormed || illFormedBodies.any wellFormed) = false := by decide +kernel

theorem test_well_formed : wellFormedEnds.all wellFormed = true := by decide +kernel

end Sys2Proof.Tests
end

section
/-! SUPPORT. The registers of an LD page that answers in full: what a write of each kind of register leaves, and what a
read of a 64-bit pair returns. -/

namespace Sys2Proof.Machine

/-! ## Accesses to a page that answers in full (R440) -/

theorem ofNat_fld (v : W32) (hi lo : Nat) :
    BitVec.ofNat (hi - lo + 1) (fld v hi lo) = v.extractLsb' lo (hi - lo + 1) := by
  apply BitVec.eq_of_toNat_eq
  simp [fld, bits, BitVec.extractLsb'_toNat]

theorem Dev.pageWrite_full {ag : Agent} {ld : Nat} {d : Dev} (hr : reachesPage ag ld = true) (hm : d.pageMode ld = .full)
    (off : Nat) (f : Dev → Dev) : d.pageWrite ag ld off f = f d := by
  rw [Dev.pageWrite, if_pos hr, hm]

/-- A whole aligned word outside the port control registers acts on the register at its offset alone. -/
theorem State.regWrite_word {ag : Agent} {ld off : Nat} {s : State} (hr : reachesPage ag ld = true)
    (hm : s.dev.pageMode ld = .full) (ha : off % 4 = 0) (hp : inArray off 0x9000 32 = false) (v : W32) :
    s.regWrite ag (.ld ld) off 4 v = { s with dev := s.dev.pagePut ag s.now ld off v } := by
  simp [State.regWrite, ha, hp, Dev.pageWrite_full hr hm]

theorem State.regWrite_unaligned {ag : Agent} {ld off bytes : Nat} {s : State} (hr : reachesPage ag ld = true)
    (hm : s.dev.pageMode ld = .full) (ha : off % 4 ≠ 0 ∨ bytes ≠ 4) (v : W32) :
    s.regWrite ag (.ld ld) off bytes v = { s with dev := s.dev.ldErr ld eAlign } := by
  have hw : (off % 4 == 0 && bytes == 4) = false := by rcases ha with ha | ha <;> simp [ha]
  simp [State.regWrite, hr, hm, hw]

/-! ## `PWR_LIMIT` (R55) -/

theorem limitBad_eq_false_iff (w : Nat) : limitBad w = false ↔ w = 0 ∨ 1000 ≤ w ∧ w ≤ 3000 := by
  simp [limitBad]; omega

theorem limitBad_eq_true_iff (w : Nat) : limitBad w = true ↔ 1 ≤ w ∧ w ≤ 999 ∨ 3001 ≤ w := by
  simp [limitBad]

theorem exec_pwrLimitWrite {ag : Agent} {ld : Nat} {s : State} (hr : reachesPage ag ld = true)
    (hm : s.dev.pageMode ld = .full) (v : W32) :
    exec (.pwrLimitWrite ag ld v) s = .next { s with dev := s.dev.pwrLimit ld v } := by
  change onDev (Dev.pageWrite ag ld 0xD000 (Dev.pwrLimit ld v)) s = _
  rw [onDev, Dev.pageWrite_full hr hm]

theorem Dev.pwrLimit_legal {v : W32} (hz : fld v 31 13 = 0) (hl : fld v 11 0 = 0 ∨ 1000 ≤ fld v 11 0 ∧ fld v 11 0 ≤ 3000)
    (d : Dev) :
    d.pwrLimit 15 v = { d with pwr := { d.pwr with hostLimit := v.extractLsb' 0 12, boostEn := v.getLsbD 12 } } := by
  rw [← limitBad_eq_false_iff] at hl
  rw [← ofNat_fld v 11 0]
  simp [Dev.pwrLimit, Dev.checked, firstFail, hz, hl]

theorem Dev.pwrLimit_reserved {v : W32} (hz : fld v 31 13 ≠ 0) (d : Dev) :
    d.pwrLimit 15 v = d.ldErr 15 eReservedNonzero := by
  simp [Dev.pwrLimit, Dev.checked, firstFail, hz, Dev.pathErr]

theorem Dev.pwrLimit_illegal {v : W32} (hz : fld v 31 13 = 0)
    (hl : 1 ≤ fld v 11 0 ∧ fld v 11 0 ≤ 999 ∨ 3001 ≤ fld v 11 0) (d : Dev) :
    d.pwrLimit 15 v = d.ldErr 15 eRange := by
  rw [← limitBad_eq_true_iff] at hl
  simp [Dev.pwrLimit, Dev.checked, firstFail, hz, hl, Dev.pathErr]

/-! ## `LD_ERR_CODE` (R441) -/

theorem exec_ldErrClear {ag : Agent} {ld : Nat} {s : State} (hr : reachesPage ag ld = true)
    (hm : s.dev.pageMode ld = .full) (v : W32) :
    exec (.ldErrClear ag ld v) s = .next { s with dev := s.dev.errWrite ld v } := by
  change onDev (Dev.pageWrite ag ld 0xC (Dev.errWrite ld v)) s = _
  rw [onDev, Dev.pageWrite_full hr hm]

/-- The error registers cleared. -/
def Ld.errCleared (l : Ld) : Ld := { l with ctl := { l.ctl with errCode := 0, errCount := 0 } }

theorem Dev.errWrite_clear {v : W32} (hc : v.getLsbD 24 = true) (hz : fld v 31 25 = 0) (d : Dev) (ld : Nat) :
    d.errWrite ld v = d.modLd ld Ld.errCleared := by
  rw [Dev.errWrite, if_pos hc, if_neg (not_not.mpr hz)]
  rfl

/-- The reserved bit is recorded after the clear, so it is the first of a new count. -/
theorem Dev.errWrite_clear_reserved {v : W32} (hc : v.getLsbD 24 = true) (hz : fld v 31 25 ≠ 0) (d : Dev) (ld : Nat) :
    d.errWrite ld v = (d.modLd ld Ld.errCleared).ldErr ld eReservedNonzero := by
  rw [Dev.errWrite, if_pos hc, if_pos hz]
  rfl

/-- A change of one LD's registers, in the form in which a statement about an LD page gives it. -/
theorem State.modLd_frame (s : State) (ld : Nat) (f : Ld → Ld) :
    ({ s with dev := s.dev.modLd ld f } : State) = { s with dev := { s.dev with lds := (s.dev.modLd ld f).lds } } ∧
      (s.dev.modLd ld f).ld ld = f (s.dev.ld ld) ∧ ∀ n, n ≠ ld → (s.dev.modLd ld f).ld n = s.dev.ld n :=
  ⟨rfl, Dev.ld_modLd_same .., fun _ h => Dev.ld_modLd_other _ _ h⟩

/-! ## Registers of the LD block (R35, R409) -/

theorem exec_registerWrite (ag : Agent) (pg : RegPage) (off bytes : Nat) (v : W32) (s : State) :
    exec (.registerWrite ag pg off bytes v) s = .next (s.regWrite ag pg off bytes v) := rfl

/-- A whole aligned word of the LD block. -/
theorem exec_registerWrite_ldBlock {ag : Agent} {ld off : Nat} {s : State} (hr : reachesPage ag ld = true)
    (hm : s.dev.pageMode ld = .full) (ha : off % 4 = 0) (hb : off < 0x1000) (v : W32) :
    exec (.registerWrite ag (.ld ld) off 4 v) s = .next { s with dev := s.dev.ldRegWrite s.now ld off v } := by
  have hp : inArray off 0x9000 32 = false := by simp [inArray]; omega
  rw [exec_registerWrite, State.regWrite_word hr hm ha hp, Dev.pagePut, if_pos hb]

theorem Dev.fixedWrite_same (d : Dev) (ld : Nat) (v : W32) : d.fixedWrite ld 0 v.toNat v = d := by
  simp [Dev.fixedWrite, Dev.checked, firstFail]

theorem Dev.fixedWrite_other {value : Nat} {v : W32} (h : v.toNat ≠ value) (d : Dev) (ld : Nat) :
    d.fixedWrite ld 0 value v = d.ldErr ld ePerm := by
  simp [Dev.fixedWrite, Dev.checked, firstFail, h, Dev.pathErr]

theorem Dev.ldRegWrite_portMask (d : Dev) (now : W64) (ld : Nat) (v : W32) :
    d.ldRegWrite now ld 8 v = d.fixedWrite ld 0 (d.ld ld).lay.portMask.toNat v := rfl

theorem Dev.ldRegWrite_ccCtl (d : Dev) (now : W64) (ld : Nat) (v : W32) : d.ldRegWrite now ld 0x18 v = d.ccCtl ld v := rfl

theorem Dev.ldRegWrite_unassigned (d : Dev) (now : W64) (ld : Nat) (v : W32) :
    d.ldRegWrite now ld 0x24 v = d.ldErr ld eRange := rfl

theorem State.pageValue_portMask (s : State) (ld : Nat) : s.pageValue ld 8 = (s.dev.ld ld).lay.portMask.toNat := rfl

theorem Dev.ccCtl_legal {ld : Nat} {v : W32} (hl : ld ≠ 15) (hz : fld v 31 16 = 0) (hv : fld v 15 0 ≠ 0) (d : Dev) :
    d.ccCtl ld v = d.modLd ld fun l => { l with ctl := { l.ctl with yieldUs := v.extractLsb' 0 16 } } := by
  rw [← ofNat_fld v 15 0]
  simp [Dev.ccCtl, Dev.checked, firstFail, hl, hz, hv]

theorem Dev.ccCtl_zero {ld : Nat} {v : W32} (hl : ld ≠ 15) (hz : fld v 31 16 = 0) (hv : fld v 15 0 = 0) (d : Dev) :
    d.ccCtl ld v = d.ldErr ld eRange := by
  simp [Dev.ccCtl, Dev.checked, firstFail, hl, hz, hv, Dev.pathErr]

/-! ## Reads of a 64-bit pair (R10, R62) -/

/-- The test of a latch's place: agent, page and offset together. -/
theorem latchKey_eq (a ag : Agent) (p pg : RegPage) (l lo : Nat) :
    (a == ag && p == pg && l == lo) = decide ((a, p, l) = (ag, pg, lo)) := by
  rw [Bool.eq_iff_iff]
  simp only [Bool.and_eq_true, beq_iff_eq, decide_eq_true_eq, Prod.mk.injEq, and_assoc]

theorem Dev.latched_latch_same (d : Dev) (ag : Agent) (pg : RegPage) (lo : Nat) (hi : W32) :
    (d.latch ag pg lo hi).latched ag pg lo = hi := by
  simp [Dev.latch, Dev.latched]

theorem Dev.latched_latch_other (d : Dev) {ag ag' : Agent} {pg pg' : RegPage} {lo lo' : Nat} (hi : W32)
    (h : (ag', pg', lo') ≠ (ag, pg, lo)) : (d.latch ag pg lo hi).latched ag' pg' lo' = d.latched ag' pg' lo' := by
  have hf : ∀ x : Agent × RegPage × Nat × W32,
      (!decide ((x.1, x.2.1, x.2.2.1) = (ag, pg, lo)) && decide ((x.1, x.2.1, x.2.2.1) = (ag', pg', lo'))) =
        decide ((x.1, x.2.1, x.2.2.1) = (ag', pg', lo')) := fun x => by
    refine Bool.and_eq_right_iff_imp.mpr fun e => ?_
    simp [of_decide_eq_true e, h]
  unfold Dev.latch Dev.latched
  simp only [latchKey_eq]
  rw [List.find?_cons_of_neg (by simp [Ne.symm h]), List.find?_filter]
  simp only [Bool.decide_and, Bool.decide_eq_true, hf]

/-- A read of the page of an LD by an agent that reaches it: the data goes to that agent. -/
theorem exec_loReadLatch_ld {ag : Agent} {ld off : Nat} {s t : State} {x : Nat} (ha : ag ≠ .i3c)
    (h : s.pageRead ag ld off 4 = (t, some x)) :
    exec (.loReadLatch ag (.ld ld) ⟨off, 4⟩) s =
      .next { t with dev := t.dev.emit (.regData ag (.ld ld) off (BitVec.ofNat 32 x)) } := by
  change Host.Outcome.next (s.regRead ag (.ld ld) off 4) = _
  cases ag <;> simp_all [State.regRead]

/-- The low half of `TMR_ELAPSED` latches the high half for the agent that reads. -/
theorem State.pageRead_elapsedLo {ag : Agent} {ld : Nat} {s : State} (hr : reachesPage ag ld = true)
    (hm : s.dev.pageMode ld = .full) :
    s.pageRead ag ld 0xB040 4 =
      ({ s with dev := s.dev.latch ag (.ld ld) 0xB040 ((s.now >>> 32).setWidth 32) }, some (s.now.toNat % 2 ^ 32)) := by
  have hi : BitVec.ofNat 32 (s.now.toNat / 2 ^ 32) = (s.now >>> 32).setWidth 32 := by
    apply BitVec.eq_of_toNat_eq
    simp [Nat.shiftRight_eq_div_pow]
  simp [State.pageRead, hr, hm, isLo, State.pageValue, Dev.updRegs, ← hi]

/-- The high half of `TMR_ELAPSED` reads what the agent's last read of the low half latched. -/
theorem State.pageRead_elapsedHi {ag : Agent} {ld : Nat} {s : State} (hr : reachesPage ag ld = true)
    (hm : s.dev.pageMode ld = .full) :
    s.pageRead ag ld 0xB044 4 = (s, some (s.dev.latched ag (.ld ld) 0xB040).toNat) := by
  simp [State.pageRead, hr, hm, isLo]

/-! ## The statement -/

theorem pwrLimitWrite_stores_or_rejects (ag : Agent) (v : W32) (s : State) (hr : reachesPage ag 15 = true)
    (hm : s.dev.pageMode 15 = .full) :
    (fld v 31 13 = 0 → (fld v 11 0 = 0 ∨ 1000 ≤ fld v 11 0 ∧ fld v 11 0 ≤ 3000) →
      exec (.pwrLimitWrite ag 15 v) s = .next { s with dev := { s.dev with
        pwr := { s.dev.pwr with hostLimit := v.extractLsb' 0 12, boostEn := v.getLsbD 12 } } }) ∧
    (fld v 31 13 ≠ 0 → exec (.pwrLimitWrite ag 15 v) s = .next { s with dev := s.dev.ldErr 15 eReservedNonzero }) ∧
    (fld v 31 13 = 0 → (1 ≤ fld v 11 0 ∧ fld v 11 0 ≤ 999 ∨ 3001 ≤ fld v 11 0) →
      exec (.pwrLimitWrite ag 15 v) s = .next { s with dev := s.dev.ldErr 15 eRange }) := by
  rw [exec_pwrLimitWrite hr hm]
  exact ⟨fun hz hl => by rw [Dev.pwrLimit_legal hz hl], fun hz => by rw [Dev.pwrLimit_reserved hz],
    fun hz hl => by rw [Dev.pwrLimit_illegal hz hl]⟩

/-- Settles O12: each clause is what the register's own lemma says of a page in full mode. -/
theorem pageRegistersReadAndWrite : Obligations.PageRegistersReadAndWrite := by
  unfold Obligations.PageRegistersReadAndWrite
  refine ⟨pwrLimitWrite_stores_or_rejects, fun ag ld v s hr hm hc => ⟨fun hz => ?_, fun hz => ?_⟩,
    fun ag ld off bytes v s hr hm => ⟨fun ha => ?_, fun hv => ?_, ?_, ?_, fun hl hz hv => ?_, fun hl hz hv => ?_⟩,
    fun ag ld s ha hr hm => ⟨?_, ?_⟩⟩
  · rw [exec_ldErrClear hr hm, Dev.errWrite_clear hc hz]
    exact ⟨_, rfl, s.modLd_frame ld Ld.errCleared⟩
  · rw [exec_ldErrClear hr hm, Dev.errWrite_clear_reserved hc hz]
    refine ⟨_, rfl, rfl, by simp [Dev.ldErr, Ld.errCleared], fun n hn => by simp [Dev.ldErr, hn]⟩
  · rw [exec_registerWrite, State.regWrite_unaligned hr hm ha]
  · have hne : v.toNat ≠ (s.dev.ld ld).lay.portMask.toNat := fun h => hv (by simp [State.pageValue_portMask, ← h])
    rw [exec_registerWrite_ldBlock hr hm rfl (by decide), Dev.ldRegWrite_portMask, Dev.fixedWrite_other hne]
  · rw [exec_registerWrite_ldBlock hr hm rfl (by decide), Dev.ldRegWrite_portMask, Dev.fixedWrite_same]
  · rw [exec_registerWrite_ldBlock hr hm rfl (by decide), Dev.ldRegWrite_unassigned]
  · rw [exec_registerWrite_ldBlock hr hm rfl (by decide), Dev.ldRegWrite_ccCtl, Dev.ccCtl_legal hl hz hv]
    obtain ⟨hf, hs, ho⟩ := s.modLd_frame ld fun l => { l with ctl := { l.ctl with yieldUs := v.extractLsb' 0 16 } }
    exact ⟨_, rfl, hf, ho, hs⟩
  · rw [exec_registerWrite_ldBlock hr hm rfl (by decide), Dev.ldRegWrite_ccCtl, Dev.ccCtl_zero hl hz hv]
  · have hx : BitVec.ofNat 32 (s.now.toNat % 2 ^ 32) = s.now.setWidth 32 := by
      apply BitVec.eq_of_toNat_eq
      simp
    rw [exec_loReadLatch_ld ha (State.pageRead_elapsedLo hr hm), hx]
    exact ⟨_, rfl, rfl, rfl, Dev.latched_latch_same .., fun _ _ _ h => Dev.latched_latch_other _ _ h⟩
  · rw [exec_loReadLatch_ld ha (State.pageRead_elapsedHi hr hm)]
    simp

end Sys2Proof.Machine
end

section
/-! SUPPORT. A message that an engine puts on the fabric: what it leaves alone, and that it depends on the fabric's
part of the device alone. -/

namespace Sys2Proof.Machine

/-! ## The frame of a message -/

theorem Dev.portPump_frame (n k : Nat) (d : Dev) :
    Dev.portPump n k d = { d with ports := (Dev.portPump n k d).ports, out := (Dev.portPump n k d).out } := by
  induction k generalizing d with
  | zero => rfl
  | succ k ih =>
    unfold Dev.portPump
    dsimp only
    split
    · rfl
    · split
      · rw [ih]; rfl
      · rw [ih]; rfl

theorem Dev.portSend_frame (n : Nat) (c : Cargo) (d : Dev) :
    d.portSend n c = { d with ports := (d.portSend n c).ports, out := (d.portSend n c).out } := by
  unfold Dev.portSend
  dsimp only
  rw [Dev.portPump_frame]
  rfl

theorem Dev.inject_frame (ld dst cls : Nat) (c : Nat → Cargo) (d : Dev) :
    d.inject ld dst cls c =
      { d with out := (d.inject ld dst cls c).out, ports := (d.inject ld dst cls c).ports, net := (d.inject ld dst cls c).net } := by
  unfold Dev.inject
  split
  · rfl
  · split
    · rfl
    · rw [Dev.portSend_frame]

/-- A message changes outputs, ports and what the source holds, and nothing else. -/
theorem Dev.tell_frame (ld did : Nat) (m : FabMsg) (d : Dev) :
    d.tell ld did m =
      { d with out := (d.tell ld did m).out, ports := (d.tell ld did m).ports, net := (d.tell ld did m).net } :=
  d.inject_frame ..

theorem Dev.ld_tell (ld did : Nat) (m : FabMsg) (d : Dev) (n : Nat) : (d.tell ld did m).ld n = d.ld n := by
  rw [Dev.tell_frame]
  rfl

theorem Dev.kvE_tell (ld did : Nat) (m : FabMsg) (d : Dev) (k : Nat) : (d.tell ld did m).kvE k = d.kvE k := by
  rw [Dev.tell_frame]
  rfl

/-! ## What a message depends on -/

/-- Two devices agree in what sending looks at: outputs, ports, held packets and grafts, and of each LD its layout and its
fabric registers. -/
structure Dev.SameFabric (d d' : Dev) : Prop where
  out : d'.out = d.out
  ports : d'.ports = d.ports
  net : d'.net = d.net
  grafts : d'.grafts = d.grafts
  lay : ∀ n, (d'.ld n).lay = (d.ld n).lay
  fab : ∀ n, (d'.ld n).fab = (d.ld n).fab

theorem Dev.SameFabric.trans {a b c : Dev} (h : a.SameFabric b) (k : b.SameFabric c) : a.SameFabric c where
  out := k.out.trans h.out
  ports := k.ports.trans h.ports
  net := k.net.trans h.net
  grafts := k.grafts.trans h.grafts
  lay n := (k.lay n).trans (h.lay n)
  fab n := (k.fab n).trans (h.fab n)

theorem Dev.sameFabric_setKv (d : Dev) (h : Nat) (e : KvEntry) : d.SameFabric (d.setKv h e) :=
  ⟨rfl, rfl, rfl, rfl, fun _ => rfl, fun _ => rfl⟩

/-- An event of the KV engine is no register of the fabric. -/
theorem Dev.sameFabric_setKvmEvt (d : Dev) (ld b : Nat) : d.SameFabric (d.modLd ld (Ld.setKvmEvt b)) where
  out := rfl
  ports := rfl
  net := rfl
  grafts := rfl
  lay n := by rw [Dev.ld_modLd]; split <;> simp_all [Ld.setKvmEvt]
  fab n := by rw [Dev.ld_modLd]; split <;> simp_all [Ld.setKvmEvt]

theorem Dev.ports_modPort_congr {d d' : Dev} (hp : d'.ports = d.ports) (n : Nat) (f : Port → Port) :
    (d'.modPort n f).ports = (d.modPort n f).ports := by
  rw [Dev.modPort, Dev.modPort, Dev.port, Dev.port, hp]

/-- The same outputs and ports after pumping the same ports. -/
theorem Dev.portPump_congr {d d' : Dev} (ho : d'.out = d.out) (hp : d'.ports = d.ports) (n k : Nat) :
    (Dev.portPump n k d').out = (Dev.portPump n k d).out ∧ (Dev.portPump n k d').ports = (Dev.portPump n k d).ports := by
  induction k generalizing d d' with
  | zero => exact ⟨ho, hp⟩
  | succ k ih =>
    have hx : d'.port n = d.port n := by rw [Dev.port, Dev.port, hp]
    unfold Dev.portPump
    dsimp only
    rw [hx]
    split
    · exact ⟨ho, hp⟩
    · split
      · refine ih (congrArg (· ++ [_]) ho) ?_
        rw [Dev.emit_ports, Dev.emit_ports]
        exact Dev.ports_modPort_congr hp n _
      · exact ih ho (Dev.ports_modPort_congr hp n _)

theorem Dev.portSend_congr {d d' : Dev} (ho : d'.out = d.out) (hp : d'.ports = d.ports) (n : Nat) (c : Cargo) :
    (d'.portSend n c).out = (d.portSend n c).out ∧ (d'.portSend n c).ports = (d.portSend n c).ports := by
  have hx : d'.port n = d.port n := by rw [Dev.port, Dev.port, hp]
  unfold Dev.portSend
  dsimp only
  rw [Dev.port_modPort_same, Dev.port_modPort_same, hx]
  refine Dev.portPump_congr ?_ ?_ _ _
  · exact ho
  · exact Dev.ports_modPort_congr hp n _

section
variable {d d' : Dev} (h : d.SameFabric d')
include h

theorem Dev.SameFabric.physOf (ld did : Nat) : d'.physOf ld did = d.physOf ld did := by
  rw [Dev.physOf, Dev.physOf, h.grafts]

theorem Dev.SameFabric.isLost (ld did : Nat) : d'.isLost ld did = d.isLost ld did := by
  rw [Dev.isLost, Dev.isLost, h.fab]

theorem Dev.SameFabric.routePort (ld src dst cls : Nat) : d'.routePort ld src dst cls = d.routePort ld src dst cls := by
  have ho : d'.portOpen = d.portOpen := funext fun p => by rw [Dev.portOpen, Dev.portOpen, Dev.port, Dev.port, h.ports]
  rw [Dev.routePort, Dev.routePort, Ld.route, Ld.route, h.fab, ho]

theorem Dev.SameFabric.sendCode (ld did cls : Nat) : d'.sendCode ld did cls = d.sendCode ld did cls := by
  unfold Dev.sendCode
  rw [h.isLost, h.physOf, h.routePort, h.lay]

theorem Dev.SameFabric.flowHeld (ld dst cls port : Nat) : d'.flowHeld ld dst cls port = d.flowHeld ld dst cls port := by
  rw [Dev.flowHeld, Dev.flowHeld, h.net, h.fab, funext (h.physOf ld)]

theorem Dev.SameFabric.inject (ld dst cls : Nat) (c : Nat → Cargo) :
    (d'.inject ld dst cls c).out = (d.inject ld dst cls c).out ∧ (d'.inject ld dst cls c).ports = (d.inject ld dst cls c).ports ∧
      (d'.inject ld dst cls c).net = (d.inject ld dst cls c).net := by
  unfold Dev.inject
  rw [h.lay, h.routePort]
  split
  · exact ⟨h.out, h.ports, h.net⟩
  · next q _ =>
    rw [h.flowHeld]
    split
    · exact ⟨h.out, h.ports, by rw [h.net]⟩
    · obtain ⟨ho, hp⟩ := Dev.portSend_congr (d := { d with net := { d.net with paths := Map.set d.net.paths (flowKey ld dst cls) q } })
        (d' := { d' with net := { d'.net with paths := Map.set d'.net.paths (flowKey ld dst cls) q } }) h.out h.ports q (c q)
      refine ⟨ho, hp, ?_⟩
      rw [Dev.portSend_frame, Dev.portSend_frame q (c q) { d with net := _ }, h.net]

/-- The same message leaves the same outputs, ports and held packets on devices with the same fabric. -/
theorem Dev.SameFabric.told (ld did : Nat) (m : FabMsg) : d.told (d'.tell ld did m) ld did m := by
  change _ = (d.tell ld did m).out ∧ _ = (d.tell ld did m).ports ∧ _ = (d.tell ld did m).net
  unfold Dev.tell
  dsimp only
  rw [h.physOf, h.lay, h.fab]
  exact h.inject ..

end

end Sys2Proof.Machine
end

section
/-! SUPPORT. The sweep, the promotion on read and the check of a handoff (R240, R241, R252, R253). -/

namespace Sys2Proof.Machine

theorem exec_demotionSweep {s : State} (h : s.dev.snoops = []) (stack : Nat) :
    exec (.demotionSweep stack) s = .next { s with dev := s.dev.demotionSweep stack } :=
  onMem_quiet h _

theorem exec_promotion {s : State} (h : s.dev.snoops = []) (k : Nat) :
    exec (.promotion k) s = .next { s with dev := s.dev.promotion k } :=
  onMem_quiet h _

theorem exec_handoffPageCheck {s : State} (h : s.dev.snoops = []) (ref : W32) (src : BitVec 14) (count : Nat) (lay crc : W32) :
    exec (.handoffPageCheck ref src count lay crc) s = .next { s with dev := s.dev.handoffCheck ref src count lay crc } :=
  onMem_quiet h _

/-! ## The sweep (R240) -/

/-- The pages of a stack that its sweep visits, in the order of the page map. -/
def Dev.sweepPages (d : Dev) (stack : Nat) : List Nat :=
  (d.kv.filter fun e => e.2.st != .free && e.2.st != .retired && homeStack e.1 e.2 == stack && !inLp e.2.frame.toNat).map Prod.fst

/-- The cursor of a stack's sweep and whether it runs. -/
def Dev.sweepPut (stack c : Nat) (b : Bool) (d : Dev) : Dev := { d with sweepAt := Map.set d.sweepAt stack (c, b) }

/-- The free frames, times 100, below which a stack's sweep runs: `low_pct` before it starts, `high_pct` after. -/
def Dev.sweepLimit (d : Dev) (stack : Nat) : Nat :=
  let k := (d.ld (d.ldOfDie (stack / 2))).kvm
  if (Map.get d.sweepAt stack (0, false)).2 then k.highPct.toNat * (d.region (.stack stack)).2
  else k.lowPct.toNat * (d.region (.stack stack)).2

/-- What a visit does to a page. -/
def Dev.sweepVisit (d : Dev) (stack h : Nat) : Dev :=
  if (d.kvE h).st ≠ .active ∨ (d.kvE h).pin ∨ (d.kvE h).readers ≠ 0 then d.sweepPut stack (h + 1) true
  else if (d.kvE h).hot then (d.modKv h fun e => { e with hot := false }).sweepPut stack (h + 1) true
  else
    match d.lpFrame (d.ldOfDie (stack / 2)) [] with
    | none => (d.modLd (d.ldOfDie (stack / 2)) (Ld.setKvmEvt 2)).sweepPut stack h false
    | some f => (d.beginMoves [(h, f)]).sweepPut stack (h + 1) true

section
variable {d : Dev} {stack : Nat}

theorem Dev.demotionSweep_off
    (h : (d.ld (d.ldOfDie (stack / 2))).kvm.demote = false ∨ d.sweepLimit stack ≤ d.freeIn (.stack stack) * 100) :
    d.demotionSweep stack = d.sweepPut stack (Map.get d.sweepAt stack (0, false)).1 false := by
  unfold Dev.demotionSweep Dev.sweepPut
  dsimp only
  rw [if_pos]
  rcases h with h | h
  · simp [h]
  · unfold Dev.sweepLimit at h
    split at h <;> simp_all

/-- A sweep that runs visits the first page from its cursor on, or else the first of all. -/
theorem Dev.demotionSweep_on (hd : (d.ld (d.ldOfDie (stack / 2))).kvm.demote = true)
    (hf : d.freeIn (.stack stack) * 100 < d.sweepLimit stack) :
    d.demotionSweep stack =
      (((d.sweepPages stack).find? fun h => (Map.get d.sweepAt stack (0, false)).1 ≤ h).or (d.sweepPages stack).head?).elim
        (d.sweepPut stack (Map.get d.sweepAt stack (0, false)).1 true) (d.sweepVisit stack) := by
  unfold Dev.demotionSweep
  dsimp only
  rw [if_neg]
  · split <;> next h =>
      exact (congrArg (fun o => Option.elim o (d.sweepPut stack (Map.get d.sweepAt stack (0, false)).1 true) (d.sweepVisit stack)) h).symm
  · unfold Dev.sweepLimit at hf
    split at hf <;> simp_all

end

/-- Whether a page of the map is one that the sweep of a stack visits. -/
def Swept (stack : Nat) (e : Nat × KvEntry) : Prop :=
  e.2.st ≠ .free ∧ e.2.st ≠ .retired ∧ homeStack e.1 e.2 = stack ∧ inLp e.2.frame.toNat = false

theorem Dev.mem_sweepPages {d : Dev} {stack h : Nat} : h ∈ d.sweepPages stack ↔ ∃ e, (h, e) ∈ d.kv ∧ Swept stack (h, e) := by
  simp [Dev.sweepPages, Swept, and_assoc]

/-- A page of the map splits the pages that a sweep visits where it splits the map. -/
theorem Dev.sweepPages_split {d : Dev} {stack h : Nat} {e : KvEntry} {pre post : Map KvEntry} (hk : d.kv = pre ++ (h, e) :: post)
    (hm : Swept stack (h, e)) :
    d.sweepPages stack = Dev.sweepPages { d with kv := pre } stack ++ h :: Dev.sweepPages { d with kv := post } stack := by
  obtain ⟨h1, h2, h3, h4⟩ := hm
  simp only at h1 h2 h3 h4
  simp [Dev.sweepPages, hk, h1, h2, h3, h4]

/-- The sweep picks a page that no page before it in the map can be picked for, or the first page once none lies from the
cursor on. -/
theorem Dev.sweepPick_eq {d : Dev} {stack c h : Nat} {e : KvEntry} {pre post : Map KvEntry} (hk : d.kv = pre ++ (h, e) :: post)
    (hm : Swept stack (h, e))
    (hc : (c ≤ h ∧ ∀ x ∈ pre, Swept stack x → x.1 < c) ∨ ((∀ x ∈ d.kv, Swept stack x → x.1 < c) ∧ ∀ x ∈ pre, ¬ Swept stack x)) :
    ((d.sweepPages stack).find? fun h => c ≤ h).or (d.sweepPages stack).head? = some h := by
  rcases hc with ⟨hh, hp⟩ | ⟨ha, hp⟩
  · have hn : (Dev.sweepPages { d with kv := pre } stack).find? (fun h => decide (c ≤ h)) = none := by
      rw [List.find?_eq_none]
      intro x hx
      obtain ⟨f, hf, hs⟩ := Dev.mem_sweepPages.mp hx
      simpa using hp _ hf hs
    rw [Dev.sweepPages_split hk hm, List.find?_append, hn, Option.none_or, List.find?_cons_of_pos (by simpa using hh)]
    rfl
  · have hn : (d.sweepPages stack).find? (fun h => decide (c ≤ h)) = none := by
      rw [List.find?_eq_none]
      intro x hx
      obtain ⟨f, hf, hs⟩ := Dev.mem_sweepPages.mp hx
      simpa using ha _ hf hs
    have he : Dev.sweepPages { d with kv := pre } stack = [] := by
      rw [List.eq_nil_iff_forall_not_mem]
      intro x hx
      obtain ⟨f, hf, hs⟩ := Dev.mem_sweepPages.mp hx
      exact hp _ hf hs
    rw [hn, Dev.sweepPages_split hk hm, he]
    rfl

theorem Dev.kvE_of_split {d : Dev} {h : Nat} {e : KvEntry} {pre post : Map KvEntry} (hk : d.kv = pre ++ (h, e) :: post)
    (hp : ∀ x ∈ pre, x.1 ≠ h) : d.kvE h = e := by
  have : Map.find (pre ++ (h, e) :: post) h = some e := by
    induction pre generalizing d with
    | nil => simp [Map.find]
    | cons x t ih =>
      obtain ⟨k, b⟩ := x
      rw [List.cons_append, Map.find, if_neg (hp (k, b) List.mem_cons_self)]
      exact ih (d := { d with kv := t ++ (h, e) :: post }) rfl fun y hy => hp y (List.mem_cons_of_mem _ hy)
  rw [Dev.kvE, Map.get, hk, this, Option.getD_some]

theorem Dev.kvE_setKv (d : Dev) (h k : Nat) (e : KvEntry) : (d.setKv h e).kvE k = if k = h then e else d.kvE k :=
  Map.get_set ..

theorem Dev.beginMoves_one (d : Dev) (h f : Nat) :
    d.beginMoves [(h, f)] = d.setKv h { d.kvE h with st := .moving, target := some (BitVec.ofNat 22 f) } := rfl

section
variable {d : Dev} {stack h : Nat}

theorem Dev.sweepVisit_passes (hv : (d.kvE h).st ≠ .active ∨ (d.kvE h).pin = true ∨ (d.kvE h).readers ≠ 0) :
    d.sweepVisit stack h = d.sweepPut stack (h + 1) true := by
  rw [Dev.sweepVisit, if_pos hv]

theorem Dev.sweepVisit_cools (ha : (d.kvE h).st = .active) (hp : (d.kvE h).pin = false) (hr : (d.kvE h).readers = 0)
    (hh : (d.kvE h).hot = true) :
    d.sweepVisit stack h = (d.setKv h { d.kvE h with hot := false }).sweepPut stack (h + 1) true := by
  rw [Dev.sweepVisit, if_neg (by simp [ha, hp, hr]), if_pos hh]
  rfl

theorem Dev.sweepVisit_demotes (ha : (d.kvE h).st = .active) (hp : (d.kvE h).pin = false) (hr : (d.kvE h).readers = 0)
    (hh : (d.kvE h).hot = false) {f : Nat} (hf : d.lpFrame (d.ldOfDie (stack / 2)) [] = some f) :
    d.sweepVisit stack h =
      (d.setKv h { d.kvE h with st := .moving, target := some (BitVec.ofNat 22 f) }).sweepPut stack (h + 1) true := by
  rw [Dev.sweepVisit, if_neg (by simp [ha, hp, hr]), if_neg (by simp [hh]), hf]
  rfl

theorem Dev.sweepVisit_lpFull (ha : (d.kvE h).st = .active) (hp : (d.kvE h).pin = false) (hr : (d.kvE h).readers = 0)
    (hh : (d.kvE h).hot = false) (hf : d.lpFrame (d.ldOfDie (stack / 2)) [] = none) :
    d.sweepVisit stack h = (d.modLd (d.ldOfDie (stack / 2)) (Ld.setKvmEvt 2)).sweepPut stack h false := by
  rw [Dev.sweepVisit, if_neg (by simp [ha, hp, hr]), if_neg (by simp [hh]), hf]

end

theorem getLsbD_setBit_same {n : Nat} (v : BitVec n) {b : Nat} (hb : b < n) : (setBit v b).getLsbD b = true := by
  simp only [setBit, BitVec.getLsbD_or, BitVec.getLsbD_ofNat, Nat.testBit_two_pow_self, hb, decide_true, Bool.and_self, Bool.or_true]

theorem Ld.evt_setKvmEvt (l : Ld) {b : Nat} (hb : b < 5) : (l.setKvmEvt b).kvm.evt.getLsbD b = true :=
  getLsbD_setBit_same l.kvm.evt hb

/-! ## Promotion (R241) -/

theorem Dev.lowMarks_frame (d old : Dev) (die : Nat) : d.lowMarks old die = { d with lds := (d.lowMarks old die).lds } := by
  unfold Dev.lowMarks
  dsimp only [List.foldl]
  repeat' split
  all_goals rfl

section
variable {d : Dev} {h : Nat}

theorem Dev.promotion_notQueued (hq : h ∉ Map.get d.promo (homeStack h (d.kvE h)) []) : d.promotion h = d := by
  simp [Dev.promotion, hq]

theorem Dev.promotion_waits (ha : (d.kvE h).st = .active) (hl : inLp (d.kvE h).frame.toNat = true)
    (hf : d.freeIn (.stack (homeStack h (d.kvE h))) * 100 <
      (d.ld (d.ldOfDie (h / dieHandles))).kvm.highPct.toNat * (d.region (.stack (homeStack h (d.kvE h)))).2) :
    d.promotion h = d := by
  have hn := Nat.not_le.mpr hf
  simp [Dev.promotion, ha, hl, hn]

/-- A queued page leaves the queue and begins to move; the marks of `KVM_EVT` follow the frames. -/
theorem Dev.promotion_moves (hq : h ∈ Map.get d.promo (homeStack h (d.kvE h)) []) (ha : (d.kvE h).st = .active)
    (hl : inLp (d.kvE h).frame.toNat = true)
    (hf : (d.ld (d.ldOfDie (h / dieHandles))).kvm.highPct.toNat * (d.region (.stack (homeStack h (d.kvE h)))).2 ≤
      d.freeIn (.stack (homeStack h (d.kvE h))) * 100)
    {f : Nat} (hs : d.firstFree (.stack (homeStack h (d.kvE h))) [] = some f) :
    d.promotion h =
      (({ d with promo := Map.set d.promo (homeStack h (d.kvE h)) ((Map.get d.promo (homeStack h (d.kvE h)) []).filter (· != h)) } : Dev).setKv h
        { d.kvE h with st := .moving, target := some (BitVec.ofNat 22 f) }).lowMarks d (h / dieHandles) := by
  simp only [Dev.promotion, List.contains_iff_mem.mpr hq, if_true, ha, hl, hf, hs, Dev.beginMoves_one]
  rfl

/-- What the promotion of a page leaves alone, and what it makes of the page map and of the queue. -/
theorem Dev.promoted {l : List Nat} {k g : Nat} {e : KvEntry} {x : Dev}
    (hx : x = (({ d with promo := Map.set d.promo k l } : Dev).setKv h e).lowMarks d g) :
    x = { d with kv := x.kv, promo := x.promo, lds := x.lds } ∧ Map.get x.promo k [] = l ∧
      ∀ n, x.kvE n = if n = h then e else d.kvE n := by
  rw [Dev.lowMarks_frame] at hx
  subst hx
  exact ⟨rfl, Map.get_set_same .., fun n => Dev.kvE_setKv d h n e⟩

end

/-! ## The check of a handoff (R252, R253) -/

section
variable {d : Dev} {ref : W32} {src : BitVec 14}

/-- What the page map expects of a handoff: the generation, an INBOUND page, and the sender. -/
def Dev.handoffFits (d : Dev) (ref : W32) (src : BitVec 14) : Prop :=
  refGen ref = (d.kvE (refHandle ref)).gen.toNat ∧ (d.kvE (refHandle ref)).st = .inbound ∧
    (d.kvE (refHandle ref)).inbound = some src

theorem Dev.handoffCheck_lost (hl : d.isLost (d.ldOfDie (refHandle ref / dieHandles)) src.toNat = true) (count : Nat)
    (lay crc : W32) : d.handoffCheck ref src count lay crc = d := by
  rw [Dev.handoffCheck, if_pos hl]

theorem Dev.handoffCheck_stale (hl : d.isLost (d.ldOfDie (refHandle ref / dieHandles)) src.toNat = false)
    (hf : ¬ d.handoffFits ref src) (count : Nat) (lay crc : W32) :
    d.handoffCheck ref src count lay crc =
      (d.modLd (d.ldOfDie (refHandle ref / dieHandles)) (Ld.setKvmEvt 3)).tell (d.ldOfDie (refHandle ref / dieHandles))
        src.toNat (.kvAck ref eKvStale) := by
  unfold Dev.handoffFits at hf
  rw [Dev.handoffCheck, if_neg (by simp [hl]), if_pos (by tauto)]

/-- Whether the bytes that arrived for a page pass its check. -/
def Dev.handoffGood (d : Dev) (ref : W32) (count : Nat) (lay crc : W32) : Prop :=
  count ≤ (kvLayout lay).ppos ∧
    crc32c (((kvLayout lay).ranges 0 count).flatMap fun r => d.bytes (frameAt (d.kvE (refHandle ref)).frame + r.1) r.2) = crc

theorem Dev.handoffCheck_good (hq : d.quiet) (hl : d.isLost (d.ldOfDie (refHandle ref / dieHandles)) src.toNat = false)
    (hf : d.handoffFits ref src) {count : Nat} {lay crc : W32} (hg : d.handoffGood ref count lay crc) :
    d.handoffCheck ref src count lay crc =
      (d.setKv (refHandle ref) { d.kvE (refHandle ref) with st := .active, fill := BitVec.ofNat 16 count, inbound := none, fails := 0 }).tell
        (d.ldOfDie (refHandle ref / dieHandles)) src.toNat (.kvAck ref 0) := by
  obtain ⟨h1, h2, h3⟩ := hf
  obtain ⟨hc, hb⟩ := hg
  rw [Dev.handoffCheck, if_neg (by simp [hl]), if_neg (by simp [h1, h2, h3])]
  simp only [Dev.readAll_quiet hq, List.flatMap_map]
  rw [if_pos (by simp [hc, hb])]
  rfl

/-- A failed check counted; the fourth of a page sets `handoff_fail` and begins the count again (R253). -/
def Dev.handoffMissed (d : Dev) (ref : W32) : Dev :=
  let e := d.kvE (refHandle ref)
  let x := d.setKv (refHandle ref) { e with fails := if e.fails = 3 then 0 else e.fails + 1 }
  if e.fails = 3 then x.modLd (d.ldOfDie (refHandle ref / dieHandles)) (Ld.setKvmEvt 3) else x

theorem Dev.handoffCheck_failed (hq : d.quiet) (hl : d.isLost (d.ldOfDie (refHandle ref / dieHandles)) src.toNat = false)
    (hf : d.handoffFits ref src) {count : Nat} {lay crc : W32} (hg : ¬ d.handoffGood ref count lay crc) :
    d.handoffCheck ref src count lay crc =
      (d.handoffMissed ref).tell (d.ldOfDie (refHandle ref / dieHandles)) src.toNat (.kvAck ref eKvHandoff) := by
  obtain ⟨h1, h2, h3⟩ := hf
  unfold Dev.handoffGood at hg
  rw [Dev.handoffCheck, if_neg (by simp [hl]), if_neg (by simp [h1, h2, h3])]
  simp only [Dev.readAll_quiet hq, List.flatMap_map]
  rw [if_neg (by simpa using hg)]
  rfl

theorem Dev.handoffMissed_frame (d : Dev) (ref : W32) :
    d.handoffMissed ref = { d with kv := (d.handoffMissed ref).kv, lds := (d.handoffMissed ref).lds } := by
  unfold Dev.handoffMissed
  dsimp only
  split <;> rfl

theorem Dev.kvE_handoffMissed (d : Dev) (ref : W32) (k : Nat) :
    (d.handoffMissed ref).kvE k =
      if k = refHandle ref then { d.kvE (refHandle ref) with
        fails := if (d.kvE (refHandle ref)).fails = 3 then 0 else (d.kvE (refHandle ref)).fails + 1 }
      else d.kvE k := by
  have hs : (d.handoffMissed ref).kvE k = (d.setKv (refHandle ref) { d.kvE (refHandle ref) with
      fails := if (d.kvE (refHandle ref)).fails = 3 then 0 else (d.kvE (refHandle ref)).fails + 1 }).kvE k := by
    unfold Dev.handoffMissed
    dsimp only
    split <;> rfl
  rw [hs, Dev.kvE_setKv]

theorem Dev.sameFabric_handoffMissed (d : Dev) (ref : W32) : d.SameFabric (d.handoffMissed ref) := by
  unfold Dev.handoffMissed
  dsimp only
  split
  · exact (Dev.sameFabric_setKv ..).trans (Dev.sameFabric_setKvmEvt ..)
  · exact Dev.sameFabric_setKv ..

theorem Dev.evt_handoffMissed {d : Dev} {ref : W32} (h : (d.kvE (refHandle ref)).fails = 3) :
    ((d.handoffMissed ref).ld (d.ldOfDie (refHandle ref / dieHandles))).kvm.evt.getLsbD 3 = true := by
  simp only [Dev.handoffMissed, h, if_true]
  rw [Dev.ld_modLd_same]
  exact Ld.evt_setKvmEvt _ (by decide)

end

end Sys2Proof.Machine
end

section
/-! SUPPORT. What the keys of memory and the acceptance of a command depend on. -/

namespace Sys2Proof.Machine

/-! ## The acceptance of a command -/

theorem Dev.accept_frame (t : Ticket) (d : Dev) : d.accept t = { d with lds := (d.accept t).lds } := by
  unfold Dev.accept
  split <;> rfl

/-- Acceptance counts the command in its queue and leaves every other register of every LD. -/
theorem Dev.ld_accept (t : Ticket) (d : Dev) (n : Nat) :
    (d.accept t).ld n = { d.ld n with host := { (d.ld n).host with cqs := ((d.accept t).ld n).host.cqs } } := by
  unfold Dev.accept
  split
  · rw [Dev.ld_modLd]
    split
    · next h => subst h; rfl
    · rfl
  · rfl

theorem Dev.cq_domain_accept (t : Ticket) (d : Dev) (n q : Nat) :
    (((d.accept t).ld n).cq q).domain = ((d.ld n).cq q).domain := by
  unfold Dev.accept
  split
  · next l p _ _ _ =>
    rw [Dev.ld_modLd]
    split
    · next h =>
      subst h
      simp only [Ld.cq, Map.get_set]
      split
      · next h => subst h; rfl
      · rfl
    · rfl
  · rfl

theorem Dev.sameFabric_accept (t : Ticket) (d : Dev) : d.SameFabric (d.accept t) where
  out := by rw [Dev.accept_frame]
  ports := by rw [Dev.accept_frame]
  net := by rw [Dev.accept_frame]
  grafts := by rw [Dev.accept_frame]
  lay n := by rw [Dev.ld_accept]
  fab n := by rw [Dev.ld_accept]

theorem Dev.ldOfDie_congr {d d' : Dev} (h : ∀ n, (d'.ld n).lay = (d.ld n).lay) (die : Nat) : d'.ldOfDie die = d.ldOfDie die := by
  simp only [Dev.ldOfDie, h]

theorem Dev.issLd_accept (t : Ticket) (d : Dev) (iss : Issuer) : (d.accept t).issLd iss = d.issLd iss := by
  have hl := Dev.ldOfDie_congr (Dev.sameFabric_accept t d).lay
  cases iss with
  | kvRing n k => exact hl _
  | colRing n k => exact hl _
  | req n => rw [Dev.accept_frame]; rfl
  | queue l q ct pos => rfl
  | msg l => rfl
  | engine l => rfl

theorem Dev.issDom_accept (t : Ticket) (d : Dev) (iss : Issuer) : (d.accept t).issDom iss = d.issDom iss := by
  cases iss with
  | queue l q ct pos => exact congrArg BitVec.toNat (Dev.cq_domain_accept t d l q)
  | kvRing n k => rw [Dev.accept_frame]; rfl
  | colRing n k => rw [Dev.accept_frame]; rfl
  | req n => rw [Dev.accept_frame]; rfl
  | msg l => exact congrArg Layout.domBase ((Dev.sameFabric_accept t d).lay l)
  | engine l => exact congrArg Layout.domBase ((Dev.sameFabric_accept t d).lay l)

/-! ## Keys of LPDDR5X (R189, R190, R469) -/

/-- Whether a page holds the frame of an address, in the form in which `Dev.keyDomain` asks. -/
def KvEntry.keys (id : BitVec 22) (e : KvEntry) : Bool :=
  e.st != .free && e.st != .retired && (e.frame == id || e.target == some id || e.old.contains id)

/-- Two devices draw the same keys: the same tags, domains, seeds and encrypted ranges, the same layouts, and for each frame
the same domain of the first page that holds it. -/
structure Dev.SameKeys (d d' : Dev) : Prop where
  tags : d'.tags = d.tags
  domains : d'.domains = d.domains
  keySeeds : d'.keySeeds = d.keySeeds
  lpKeys : d'.lpKeys = d.lpKeys
  lay : ∀ n, (d'.ld n).lay = (d.ld n).lay
  holder : ∀ id, ((d'.kv.find? fun e => e.2.keys id).map fun e => e.2.domain.toNat) =
    (d.kv.find? fun e => e.2.keys id).map fun e => e.2.domain.toNat

section
variable {d d' : Dev} (h : d.SameKeys d')
include h

theorem Dev.SameKeys.keyDomain (a : Nat) : d'.keyDomain a = d.keyDomain a := by
  have hh := h.holder (BitVec.ofNat 22 (a / frameBytes))
  unfold KvEntry.keys at hh
  unfold Dev.keyDomain Dev.tag
  rw [h.tags]
  split
  · rfl
  · dsimp only
    rw [hh]

theorem Dev.SameKeys.slotSeed (slot : Nat) : d'.slotSeed slot = d.slotSeed slot := by
  unfold Dev.slotSeed
  rw [h.keySeeds]
  simp only [h.lay]

theorem Dev.SameKeys.slotKey (slot : Nat) : d'.slotKey slot = d.slotKey slot := by
  rw [Dev.slotKey, Dev.slotKey, h.slotSeed, Dev.dom, Dev.dom, h.domains]

theorem Dev.SameKeys.keyRanges (a n : Nat) : d'.keyRanges a n = d.keyRanges a n := by
  rw [Dev.keyRanges, Dev.keyRanges, h.lpKeys]

theorem Dev.SameKeys.fillKey : d'.fillKey = d.fillKey := by
  rw [Dev.fillKey, Dev.fillKey, h.keySeeds]

theorem Dev.SameKeys.wholeKey (a n : Nat) : d'.wholeKey a n = d.wholeKey a n := by
  rw [Dev.wholeKey, Dev.wholeKey, h.keyRanges, h.fillKey]

theorem Dev.SameKeys.keyAt (cw : Nat) : d'.keyAt cw = d.keyAt cw := by
  rw [Dev.keyAt, Dev.keyAt, h.keyRanges, h.fillKey]

theorem Dev.SameKeys.foreign (a n : Nat) : d'.foreign a n = d.foreign a n := by
  simp only [Dev.foreign, h.keyDomain, h.slotKey, h.wholeKey, h.keyAt]

end

/-- Memory stays quiet under the same keys and without errors, poison or lines of the host. -/
theorem Dev.quiet_of_sameKeys {d d' : Dev} (h : d.SameKeys d') (hq : d.quiet) (hp : d'.poison = d.poison)
    (hu : d'.upsets = d.upsets) (hs : d'.snoops = d.snoops) : d'.quiet := by
  obtain ⟨h1, h2, h3, h4⟩ := hq
  exact ⟨hp.trans h1, hu.trans h2, hs.trans h3, fun a n => (h.foreign a n).trans (h4 a n)⟩

theorem Dev.sameKeys_accept (t : Ticket) (d : Dev) : d.SameKeys (d.accept t) where
  tags := by rw [Dev.accept_frame]
  domains := by rw [Dev.accept_frame]
  keySeeds := by rw [Dev.accept_frame]
  lpKeys := by rw [Dev.accept_frame]
  lay := (Dev.sameFabric_accept t d).lay
  holder id := by rw [Dev.accept_frame]

theorem Dev.quiet_accept (t : Ticket) {d : Dev} (hq : d.quiet) : (d.accept t).quiet :=
  Dev.quiet_of_sameKeys (Dev.sameKeys_accept t d) hq (by rw [Dev.accept_frame]) (by rw [Dev.accept_frame]) (by rw [Dev.accept_frame])

theorem Dev.bytes_accept (t : Ticket) {d : Dev} (hq : d.quiet) (a n : Nat) : (d.accept t).bytes a n = d.bytes a n := by
  rw [Dev.bytes_quiet (Dev.quiet_accept t hq), Dev.bytes_quiet hq, Dev.accept_frame]

/-! ## Commands that are accepted (R235, R236) -/

theorem firstFail_eq_none_iff {cs : Checks} : firstFail cs = none ↔ ∀ c ∈ cs, c.1 = false := by
  induction cs with
  | nil => simp [firstFail]
  | cons c cs ih =>
    obtain ⟨b, k⟩ := c
    cases b <;> simp [firstFail, ih]

/-- A KV command whose checks pass is accepted with the references of its list. -/
theorem Dev.kvCommand_accepted {d : Dev} (hq : d.quiet) {iss : Issuer} {die a n : Nat} {body : List W32} {static : Checks}
    {checks : Dev → List W32 → Checks} (hd : d.dieServes die) (hs : ∀ c ∈ static, c.1 = false)
    (hp : d.kvPerm (d.issLd iss) (d.issDom iss) false a (4 * n) = false)
    (hc : ∀ c ∈ checks d (d.refsAt a n), c.1 = false) (f : List W32 → Dev → Dev) :
    d.kvCommand iss die body static a n checks f = f (d.refsAt a n) (d.accept (ticketOf iss body)) := by
  obtain ⟨hj, ha⟩ := hd
  have h1 : firstFail (static ++ d.dieChecks die ++ [(n != 0 && d.kvPerm (d.issLd iss) (d.issDom iss) false a (4 * n), ePerm)]) = none := by
    rw [firstFail_eq_none_iff]
    intro c hc
    simp only [List.mem_append, List.mem_singleton, Dev.dieChecks, Dev.dieAbsent, ha] at hc
    rcases hc with (hc | rfl) | rfl
    · exact hs c hc
    · rfl
    · simp [hp]
  unfold Dev.kvCommand
  simp only [Dev.dieReady, hj, Bool.true_or, Bool.not_true, Bool.false_eq_true, if_false, h1, Dev.readRefs, Dev.readBytes_quiet hq]
  exact congrArg (fun e => Dev.command (ticketOf iss body) e (f (d.refsAt a n)) d) (firstFail_eq_none_iff.mpr hc)

/-- The checks of references pass for references that may be used. -/
theorem Dev.refChecks_pass {d : Dev} {die dom : Nat} {refs : List W32} {sts : List KvState}
    (h : ∀ r ∈ refs, d.refOk die dom sts r) : ∀ c ∈ d.refChecks die dom refs sts [], c.1 = false := by
  intro c hc
  unfold Dev.refOk at h
  simp only [Dev.refChecks, ite_self, List.append_nil, List.cons_append, List.nil_append, List.mem_cons, List.not_mem_nil, or_false] at hc
  rcases hc with rfl | rfl | rfl | rfl | rfl <;> simp only [List.any_map, List.any_eq_false] <;> intro r hr <;>
    obtain ⟨h1, h2, h3, h4, h5⟩ := h r hr <;> simp [h1, h2, h3, h4, h5]

/-! ## Readers of pages (R223, R230, R231) -/

theorem Dev.beginRead_cons (h : Nat) (hs : List Nat) (d : Dev) :
    d.beginRead (h :: hs) = (d.modKv h fun e => { e with hot := true, readers := e.readers + 1 }).beginRead hs := rfl

theorem Dev.beginRead_frame (hs : List Nat) (d : Dev) : d.beginRead hs = { d with kv := (d.beginRead hs).kv } := by
  induction hs generalizing d with
  | nil => rfl
  | cons h hs ih => rw [Dev.beginRead_cons, ih]; rfl

theorem Dev.kvE_modKv (d : Dev) (h k : Nat) (f : KvEntry → KvEntry) :
    (d.modKv h f).kvE k = if k = h then f (d.kvE h) else d.kvE k := Dev.kvE_setKv ..

/-- A page that is read is `hot` and has a reader more for each time that the list names it. -/
theorem Dev.kvE_beginRead (hs : List Nat) (d : Dev) (k : Nat) :
    (d.beginRead hs).kvE k =
      { d.kvE k with hot := (d.kvE k).hot || decide (k ∈ hs), readers := (d.kvE k).readers + hs.count k } := by
  induction hs generalizing d with
  | nil => simp [Dev.beginRead]
  | cons h hs ih =>
    rw [Dev.beginRead_cons, ih, Dev.kvE_modKv]
    by_cases hk : k = h
    · subst hk
      simp [Nat.add_assoc, Nat.add_comm 1]
    · simp [hk, Ne.symm hk]

/-- With no source frame kept for readers, the end of a read takes one reader and nothing else. -/
theorem Dev.endRead_step {d : Dev} {h : Nat} (ho : (d.kvE h).old = []) :
    d.endRead [h] = d.setKv h { d.kvE h with readers := (d.kvE h).readers - 1 } := by
  simp only [Dev.endRead, List.foldl_cons, List.foldl_nil, ho]
  split
  · next hr => rw [Dev.modKv, Nat.sub_eq_zero_of_le hr, ← ho]
  · rfl

theorem Dev.endRead_cons (h : Nat) (hs : List Nat) (d : Dev) : d.endRead (h :: hs) = (d.endRead [h]).endRead hs := rfl

/-- The end of reads with no source frame kept for readers. -/
theorem Dev.endRead_frame (hs : List Nat) {d : Dev} (ho : ∀ k, (d.kvE k).old = []) :
    d.endRead hs = { d with kv := (d.endRead hs).kv } ∧
      ∀ k, (d.endRead hs).kvE k = { d.kvE k with readers := (d.kvE k).readers - hs.count k } := by
  induction hs generalizing d with
  | nil => exact ⟨rfl, fun k => rfl⟩
  | cons h hs ih =>
    rw [Dev.endRead_cons, Dev.endRead_step (ho h)]
    obtain ⟨hf, hk⟩ := ih (d := d.setKv h { d.kvE h with readers := (d.kvE h).readers - 1 }) fun k => by
      rw [Dev.kvE_setKv]; split <;> exact ho _
    refine ⟨by rw [hf]; rfl, fun k => ?_⟩
    rw [hk, Dev.kvE_setKv]
    by_cases h0 : k = h
    · subst h0
      simp [Nat.sub_sub, Nat.add_comm 1]
    · simp [h0, Ne.symm h0]

/-! ## SEND (R252) -/

theorem Dev.listChecks_pass {d : Dev} {iss : Issuer} {body : List W32} {n : Nat} (h : d.listOk iss body n) :
    ∀ c ∈ listChecks body n false, c.1 = false := by
  obtain ⟨h1, h2, h3, h4, -⟩ := h
  simp [listChecks, h3, h4]
  omega

theorem layoutChecks_pass {w : W32} (h : kvLayoutOk w) : ∀ c ∈ layoutChecks w, c.1 = false := by
  obtain ⟨-, -, h1, h2, h3⟩ := h
  simp [layoutChecks, h1, h2, h3]

/-- The job of an accepted SEND. -/
def Dev.sendJob (d : Dev) (iss : Issuer) (body : List W32) : KvJob :=
  let hs := (d.refsAt (addrAt body 4) (wfld body 2 6 0)).map refHandle
  { d.jobOf iss body hs with left := hs, remotes := d.refsAt (addrAt body 6) (wfld body 2 6 0) }

/-- What a SEND needs to be accepted (R235, R236, R252). -/
structure Dev.SendOk (d : Dev) (iss : Issuer) (die : Nat) (body : List W32) : Prop where
  quiet : d.quiet
  serves : d.dieServes die
  list : d.listOk iss body (wfld body 2 6 0)
  layout : kvLayoutOk (word body 1)
  word0 : wfld body 0 15 8 = 0
  word2 : wfld body 2 31 7 = 0
  word3 : wfld body 3 31 14 = 0
  high : addrHigh body 6 = false
  align : addrAt body 6 % 8 = 0
  rest : onlyWords body 16 [0, 1, 2, 3, 4, 5, 6, 7] = true
  refs : ∀ r ∈ d.refsAt (addrAt body 4) (wfld body 2 6 0), d.refOk die (d.issDom iss) [.active, .moving] r
  perm : d.kvPerm (d.issLd iss) (d.issDom iss) false (addrAt body 6) (4 * wfld body 2 6 0) = false

theorem Dev.refsAt_accept (t : Ticket) {d : Dev} (hq : d.quiet) (a n : Nat) : (d.accept t).refsAt a n = d.refsAt a n := by
  rw [Dev.refsAt, Dev.refsAt, Dev.bytes_accept t hq]

theorem Dev.jobOf_accept (t : Ticket) (d : Dev) (iss : Issuer) (body : List W32) (hs : List Nat) :
    (d.accept t).jobOf iss body hs = d.jobOf iss body hs := by
  rw [Dev.jobOf, Dev.jobOf, Dev.issLd_accept, Dev.issDom_accept, Dev.accept_frame]
  rfl

/-- The device in which an accepted SEND puts its first page on the way. -/
def Dev.sending (d : Dev) (iss : Issuer) (die : Nat) (body : List W32) : Dev :=
  ((d.accept (ticketOf iss body)).addJob die (d.sendJob iss body)).beginRead (d.sendJob iss body).handles

theorem Dev.kvSend_accepted {d : Dev} {iss : Issuer} {die : Nat} {body : List W32} (h : d.SendOk iss die body) :
    d.kvSend iss die body = (d.sending iss die body).sendNext die (d.sendJob iss body) := by
  obtain ⟨hq, hd, hl, hy, h0, h2, h3, h6, ha, hw, hr, hp⟩ := h
  have hres : (wfld body 0 15 8 != 0 || wfld body 1 4 0 != 0 || wfld body 1 31 28 != 0 || wfld body 2 31 7 != 0 ||
      wfld body 3 31 14 != 0 || addrHigh body 6 || !onlyWords body 16 [0, 1, 2, 3, 4, 5, 6, 7]) = false := by
    obtain ⟨h1, h1', -⟩ := hy
    have h1 : wfld body 1 4 0 = 0 := h1
    have h1' : wfld body 1 31 28 = 0 := h1'
    simp [h0, h1, h1', h2, h3, h6, hw]
  unfold Dev.kvSend
  dsimp only
  rw [hres, Dev.kvCommand_accepted hq hd]
  · simp only [Dev.readRefs, Dev.readBytes_quiet (Dev.quiet_accept _ hq)]
    rw [Dev.jobOf_accept, Dev.bytes_accept _ hq]
    rfl
  · intro c hc
    simp only [List.mem_append, List.mem_singleton] at hc
    rcases hc with (hc | rfl) | hc
    · exact Dev.listChecks_pass hl c hc
    · simp [ha]
    · exact layoutChecks_pass hy c hc
  · exact hl.2.2.2.2
  · have hcs := Dev.refChecks_pass hr
    intro c hc
    simp only [List.mem_append, List.mem_singleton, Option.mem_toList] at hc
    rcases hc with (hc | rfl) | hc
    · exact hcs c (List.mem_of_mem_dropLast hc)
    · exact hp
    · exact hcs c (List.mem_of_getLast? hc)

end Sys2Proof.Machine
end

section
/-! SUPPORT. What an accepted SEND does with its first page (R252, R253). -/

namespace Sys2Proof.Machine

theorem Dev.sending_frame (d : Dev) (iss : Issuer) (die : Nat) (body : List W32) :
    d.sending iss die body =
      { d.accept (ticketOf iss body) with kv := (d.sending iss die body).kv, kvJobs := (d.sending iss die body).kvJobs } := by
  unfold Dev.sending
  rw [Dev.beginRead_frame]
  rfl

theorem Dev.ld_sending (d : Dev) (iss : Issuer) (die : Nat) (body : List W32) (n : Nat) :
    (d.sending iss die body).ld n = (d.accept (ticketOf iss body)).ld n := by
  rw [Dev.sending_frame]
  rfl

theorem Dev.sameFabric_sending (d : Dev) (iss : Issuer) (die : Nat) (body : List W32) :
    d.SameFabric (d.sending iss die body) where
  out := by rw [Dev.sending_frame, Dev.accept_frame]
  ports := by rw [Dev.sending_frame, Dev.accept_frame]
  net := by rw [Dev.sending_frame, Dev.accept_frame]
  grafts := by rw [Dev.sending_frame, Dev.accept_frame]
  lay n := by rw [Dev.ld_sending, Dev.ld_accept]
  fab n := by rw [Dev.ld_sending, Dev.ld_accept]

theorem Dev.kvJobs_sending (d : Dev) (iss : Issuer) (die : Nat) (body : List W32) :
    (d.sending iss die body).kvJobs = Map.set d.kvJobs die (Map.get d.kvJobs die [] ++ [d.sendJob iss body]) := by
  unfold Dev.sending
  rw [Dev.beginRead_frame, Dev.addJob, Dev.accept_frame]

theorem Dev.kvE_sending (d : Dev) (iss : Issuer) (die : Nat) (body : List W32) (k : Nat) :
    (d.sending iss die body).kvE k =
      { d.kvE k with hot := (d.kvE k).hot || decide (k ∈ (d.sendJob iss body).handles),
                     readers := (d.kvE k).readers + (d.sendJob iss body).handles.count k } := by
  rw [Dev.sending, Dev.kvE_beginRead, Dev.addJob, Dev.accept_frame]
  rfl

theorem Dev.ld_sendJob (d : Dev) (iss : Issuer) (body : List W32) : (d.sendJob iss body).ld = d.issLd iss := rfl

theorem Dev.words_sendJob (d : Dev) (iss : Issuer) (body : List W32) : (d.sendJob iss body).words = body := rfl

/-- A read without an error changes nothing, whatever keys it meets. -/
theorem Dev.readAll_clean {d : Dev} (hp : d.poison = []) (hu : d.upsets = []) (hs : d.snoops = []) (req : Nat)
    (rs : List (Nat × Nat)) : d.readAll req rs = (d, true) := by
  have hm : ∀ a n, d.marked a n = [] := fun a n => by simp [Dev.marked, hp, hu]
  have hn : rs.foldl (fun d r => d.note req r.1 r.2) d = d := by
    induction rs with
    | nil => rfl
    | cons r rs ih => rw [List.foldl_cons, Dev.note, hs]; exact ih
  have hf : (rs.flatMap fun r => d.marked r.1 r.2) = [] := by simp [hm]
  rw [Dev.readAll, hf, hn, Dev.touchAll]

/-- The bytes of a page's positions below a fill. -/
def Dev.pageBytes (d : Dev) (layout : W32) (frame : BitVec 22) (fill : Nat) : List Byte :=
  ((kvLayout layout).ranges 0 fill).flatMap fun r => d.bytes (frameAt frame + r.1) r.2

/-- Positions above the `ppos` of a layout do not count (log 107). -/
theorem KvLayout.ranges_min (x : KvLayout) (n : Nat) : x.ranges 0 (min n x.ppos) = x.ranges 0 n := by
  simp [KvLayout.ranges]

theorem Dev.sendPage_clean {d : Dev} (hp : d.poison = []) (hu : d.upsets = []) (hs : d.snoops = []) (ld did : Nat)
    (layout ref : W32) (frame : BitVec 22) (fill : Nat) :
    d.sendPage ld did layout ref (frameAt frame) fill =
      (d.request ld did (.send ref) (.kvPage ref (min fill (kvLayout layout).ppos) layout (d.pageBytes layout frame fill)
        (crc32c (d.pageBytes layout frame fill))), true) := by
  simp only [Dev.sendPage, Dev.readAll_clean hp hu hs, List.flatMap_map, KvLayout.ranges_min, Dev.pageBytes]

theorem Dev.request_open {d : Dev} {ld : Nat} (h : (d.ld ld).fab.reqs.length < 65536) (did : Nat) (u : FabUse) (m : FabMsg) :
    d.request ld did u m = (d.tell ld did m).fabOpen ld did u := by
  rw [Dev.request, if_neg (Nat.not_le.mpr h)]

theorem Dev.kvE_fabOpen (d : Dev) (ld did : Nat) (u : FabUse) (k : Nat) : (d.fabOpen ld did u).kvE k = d.kvE k := rfl

/-- The message that takes the first page of a SEND to its receiver, with the bytes that a device holds. -/
def Dev.firstPage (d x : Dev) (body : List W32) : FabMsg :=
  let e := d.kvE (refHandle ((d.refsAt (addrAt body 4) (wfld body 2 6 0)).getD 0 0))
  let bytes := x.pageBytes (word body 1) e.frame e.fill.toNat
  .kvPage (word (d.refsAt (addrAt body 6) (wfld body 2 6 0)) 0) (min e.fill.toNat (kvLayout (word body 1)).ppos) (word body 1)
    bytes (crc32c bytes)

section
variable {d : Dev} {iss : Issuer} {die : Nat} {body : List W32} (h : d.SendOk iss die body)
include h

/-- A SEND names at least one page. -/
theorem Dev.SendOk.refs_cons : ∃ r rs, d.refsAt (addrAt body 4) (wfld body 2 6 0) = r :: rs := by
  obtain ⟨hn, -⟩ := h.list
  refine List.exists_cons_of_length_pos ?_
  simpa [Dev.refsAt, bytesToWords] using hn

theorem Dev.kvSend_noWay (hc : d.sendCode (d.issLd iss) (wfld body 3 13 0) 2 ≠ 0) :
    d.kvSend iss die body =
      (d.sending iss die body).sendEnd die (d.sendJob iss body) (d.sendCode (d.issLd iss) (wfld body 3 13 0) 2) := by
  obtain ⟨r, rs, hr⟩ := h.refs_cons
  have hl : (d.sendJob iss body).left = refHandle r :: rs.map refHandle := by rw [Dev.sendJob, hr]; rfl
  rw [← (Dev.sameFabric_sending d iss die body).sendCode] at hc ⊢
  rw [Dev.kvSend_accepted h, Dev.sendNext, hl]
  exact if_pos hc

theorem Dev.kvSend_sent (hc : d.sendCode (d.issLd iss) (wfld body 3 13 0) 2 = 0)
    (hf : (d.ld (d.issLd iss)).fab.reqs.length < 65536) :
    d.kvSend iss die body =
      ((d.sending iss die body).tell (d.issLd iss) (wfld body 3 13 0) (d.firstPage (d.sending iss die body) body)).fabOpen
        (d.issLd iss) (wfld body 3 13 0) (.send (word (d.refsAt (addrAt body 6) (wfld body 2 6 0)) 0)) := by
  obtain ⟨r, rs, hr⟩ := h.refs_cons
  have hl : (d.sendJob iss body).left = refHandle r :: rs.map refHandle := by rw [Dev.sendJob, hr]; rfl
  obtain ⟨hp, hu, hs, -⟩ := h.quiet
  rw [← (Dev.sameFabric_sending d iss die body).sendCode] at hc
  rw [← (Dev.sameFabric_sending d iss die body).fab] at hf
  have hi : (d.sendJob iss body).handles.length - (d.sendJob iss body).left.length = 0 := Nat.sub_self _
  have hfr : (d.sendJob iss body).frames.getD 0 0 = (d.kvE (refHandle r)).frame := by rw [Dev.sendJob, hr]; rfl
  have hfi : (d.sendJob iss body).fills.getD 0 0 = (d.kvE (refHandle r)).fill.toNat := by rw [Dev.sendJob, hr]; rfl
  have hrem : (d.sendJob iss body).remote = word (d.refsAt (addrAt body 6) (wfld body 2 6 0)) 0 := by
    rw [KvJob.remote, hi]
    rfl
  have hpage := Dev.sendPage_clean (d := d.sending iss die body) (by rw [Dev.sending_frame, Dev.accept_frame, hp])
    (by rw [Dev.sending_frame, Dev.accept_frame, hu]) (by rw [Dev.sending_frame, Dev.accept_frame, hs])
  rw [Dev.kvSend_accepted h, Dev.sendNext, hl]
  simp only [Dev.ld_sendJob, Dev.words_sendJob, ← hl, hi, hfr, hfi, hrem, hpage, Dev.request_open hf]
  rw [if_neg (not_not.mpr hc), Dev.firstPage, hr]
  rfl

end

/-! ## The end of a SEND (R253) -/

theorem Dev.putJob_last {d : Dev} {die : Nat} {j : KvJob} (h : Map.get d.kvJobs die [] = [j]) :
    d.putJob die j none = { d with kvJobs := Map.set d.kvJobs die [] } := by
  simp [Dev.putJob, h]

/-- With no packet held back, the end of a request changes registers of LDs alone. -/
theorem Dev.fabClose_frame {d : Dev} (h : d.net.held = []) (ld : Nat) (p : FabReq → Bool) :
    d.fabClose ld p = d.modFab ld fun f => { f with reqs := f.reqs.filter fun r => !p r } := by
  have hh : (d.modFab ld fun f => { f with reqs := f.reqs.filter fun r => !p r }).net.held.isEmpty = true := by
    rw [Dev.modFab, Dev.modLd_net, h]
    rfl
  rw [Dev.fabClose, Dev.unhold, if_pos hh]

/-- A SEND that ends with a code before its first page is acknowledged: its pages are released, its job and its request are
gone, `handoff_fail` is set, and it reports. -/
theorem Dev.sendEnd_first {d : Dev} {die : Nat} {j : KvJob} {c : Code} (hj : Map.get d.kvJobs die [] = [j])
    (hl : j.left = j.handles) (hc : c ≠ 0) (hh : d.net.held = []) (ho : ∀ k, (d.kvE k).old = []) :
    ∃ x : Dev, d.sendEnd die j c = x.finish j.tkt c false 0 ∧ x = { d with kv := x.kv, kvJobs := x.kvJobs, lds := x.lds } ∧
      Map.get x.kvJobs die [] = [] ∧ (x.ld j.ld).kvm.evt.getLsbD 3 = true ∧
      ∀ k, x.kvE k = { d.kvE k with readers := (d.kvE k).readers - j.handles.count k } := by
  obtain ⟨hf, hk⟩ := Dev.endRead_frame (d := { d with kvJobs := Map.set d.kvJobs die [] }) j.handles ho
  have hn : (Dev.endRead j.handles { d with kvJobs := Map.set d.kvJobs die [] }).net.held = [] := by rw [hf]; exact hh
  refine ⟨(Dev.modFab j.ld (fun f => { f with reqs := f.reqs.filter fun r => !(r.serves == .send j.remote) })
    (Dev.endRead j.handles { d with kvJobs := Map.set d.kvJobs die [] })).modLd j.ld (Ld.setKvmEvt 3), ?_, ?_, ?_, ?_, ?_⟩
  · simp only [Dev.sendEnd, Dev.putJob_last hj, hl, Nat.sub_self, List.drop_zero, Dev.fabClose_frame hn, if_neg hc]
    rfl
  · rw [hf]; rfl
  · rw [Dev.modLd_kvJobs, Dev.modFab, Dev.modLd_kvJobs, hf, Map.get_set_same]
  · rw [Dev.ld_modLd_same]
    exact Ld.evt_setKvmEvt _ (by decide)
  · exact hk

end Sys2Proof.Machine
end

section
/-! SUPPORT. In a page map whose keys rise, marking pages as read leaves what memory reads as (R190, R230). -/

namespace Sys2Proof.Machine

/-- The keys of the page map rise, as a table's keys do when it is built from the empty one. -/
def Dev.kvRising (d : Dev) : Prop := (d.kv.map Prod.fst).Pairwise (· < ·)

/-- The domain of the first page that holds a frame. -/
def holderDomain (kv : Map KvEntry) (id : BitVec 22) : Option Nat :=
  (kv.find? fun e => e.2.keys id).map fun e => e.2.domain.toNat

theorem holderDomain_cons (x : Nat × KvEntry) (t : Map KvEntry) (id : BitVec 22) :
    holderDomain (x :: t) id = if x.2.keys id then some x.2.domain.toNat else holderDomain t id := by
  by_cases hx : x.2.keys id = true <;> simp [holderDomain, hx]

theorem Map.get_below {α : Type} {m : Map α} {n : Nat} (h : ∀ x ∈ m, n < x.1) (a : α) : Map.get m n a = a := by
  have : Map.find m n = none := by
    induction m with
    | nil => rfl
    | cons x t ih =>
      rw [Map.find, if_neg (Nat.ne_of_gt (h x List.mem_cons_self))]
      exact ih fun y hy => h y (List.mem_cons_of_mem _ hy)
  rw [Map.get, this, Option.getD_none]

/-- In a table whose keys rise, a change of a page that keeps its frames and its domain leaves the first holder's domain. -/
theorem holderDomain_set {m : Map KvEntry} (hm : (m.map Prod.fst).Pairwise (· < ·)) (h : Nat) {f : KvEntry → KvEntry} {id : BitVec 22}
    (hk : ∀ e, (f e).keys id = e.keys id) (hd : ∀ e, (f e).domain = e.domain) :
    holderDomain (Map.set m h (f (Map.get m h KvEntry.init))) id = holderDomain m id := by
  have hi : (f KvEntry.init).keys id = false := by rw [hk]; rfl
  induction m with
  | nil => rw [Map.get_below (by simp), Map.set, holderDomain_cons, hi]; rfl
  | cons x t ih =>
    obtain ⟨k, b⟩ := x
    rw [List.map_cons, List.pairwise_cons] at hm
    obtain ⟨hlt, ht⟩ := hm
    rw [Map.set]
    split
    · next h1 =>
      have hb : ∀ y ∈ (k, b) :: t, h < y.1 := List.forall_mem_cons.mpr
        ⟨h1, fun y hy => Nat.lt_trans h1 (hlt y.1 (List.mem_map_of_mem hy))⟩
      rw [Map.get_below hb, holderDomain_cons, hi]
      rfl
    · split
      · next h2 =>
        have hg : Map.get ((k, b) :: t) h KvEntry.init = b := by simp [Map.get, Map.find, h2]
        rw [hg, holderDomain_cons, holderDomain_cons, hk, hd]
      · next h2 =>
        have hg : Map.get ((k, b) :: t) h KvEntry.init = Map.get t h KvEntry.init := by simp [Map.get, Map.find, Ne.symm h2]
        rw [hg, holderDomain_cons, holderDomain_cons, ih ht]

theorem Map.mem_set {α : Type} {m : Map α} {n : Nat} {a : α} {x : Nat × α} (h : x ∈ Map.set m n a) : x.1 = n ∨ x ∈ m := by
  induction m with
  | nil => exact .inl (by simpa [Map.set] using congrArg Prod.fst (List.mem_singleton.mp h))
  | cons y t ih =>
    obtain ⟨k, b⟩ := y
    rw [Map.set] at h
    split at h
    · rcases List.mem_cons.mp h with rfl | h
      · exact .inl rfl
      · exact .inr h
    · split at h
      · next e =>
        rcases List.mem_cons.mp h with rfl | h
        · exact .inl e.symm
        · exact .inr (List.mem_cons_of_mem _ h)
      · rcases List.mem_cons.mp h with rfl | h
        · exact .inr List.mem_cons_self
        · exact (ih h).imp_right (List.mem_cons_of_mem _)

theorem Map.rising_set {α : Type} {m : Map α} (hm : (m.map Prod.fst).Pairwise (· < ·)) (n : Nat) (a : α) :
    ((Map.set m n a).map Prod.fst).Pairwise (· < ·) := by
  induction m with
  | nil => simp [Map.set]
  | cons y t ih =>
    obtain ⟨k, b⟩ := y
    have hc := hm
    rw [List.map_cons, List.pairwise_cons] at hm
    obtain ⟨hlt, ht⟩ := hm
    rw [Map.set]
    split
    · next h =>
      rw [List.map_cons, List.pairwise_cons]
      refine ⟨fun x hx => ?_, hc⟩
      rw [List.map_cons, List.mem_cons] at hx
      rcases hx with rfl | hx
      · exact h
      · exact Nat.lt_trans h (hlt x hx)
    · split
      · exact hc
      · next h1 h2 =>
        rw [List.map_cons, List.pairwise_cons]
        refine ⟨fun x hx => ?_, ih ht⟩
        obtain ⟨y, hy, rfl⟩ := List.mem_map.mp hx
        rcases Map.mem_set hy with h | h
        · rw [h]; omega
        · exact hlt _ (List.mem_map_of_mem h)

theorem Dev.kvRising_modKv {d : Dev} (hm : d.kvRising) (h : Nat) (f : KvEntry → KvEntry) : (d.modKv h f).kvRising :=
  Map.rising_set hm ..

/-- Marking pages as read leaves the keys of memory alone where the page map's keys rise. -/
theorem Dev.sameKeys_beginRead (hs : List Nat) {d : Dev} (hm : d.kvRising) :
    d.SameKeys (d.beginRead hs) := by
  have hh : ∀ id, holderDomain (d.beginRead hs).kv id = holderDomain d.kv id := by
    induction hs generalizing d with
    | nil => exact fun _ => rfl
    | cons h hs ih =>
      intro id
      rw [Dev.beginRead_cons, ih (Dev.kvRising_modKv hm ..)]
      exact holderDomain_set hm h (f := fun e => { e with hot := true, readers := e.readers + 1 }) (fun _ => rfl) fun _ => rfl
  exact ⟨by rw [Dev.beginRead_frame], by rw [Dev.beginRead_frame], by rw [Dev.beginRead_frame], by rw [Dev.beginRead_frame],
    fun n => by rw [Dev.beginRead_frame]; rfl, hh⟩

theorem Dev.bytes_beginRead (hs : List Nat) {d : Dev} (hq : d.quiet) (hm : d.kvRising) (a n : Nat) :
    (d.beginRead hs).bytes a n = d.bytes a n := by
  have hq' := Dev.quiet_of_sameKeys (Dev.sameKeys_beginRead hs hm) hq (by rw [Dev.beginRead_frame]) (by rw [Dev.beginRead_frame])
    (by rw [Dev.beginRead_frame])
  rw [Dev.bytes_quiet hq', Dev.bytes_quiet hq, Dev.beginRead_frame]

end Sys2Proof.Machine
end

section
/-! SUPPORT. The sweep, the promotion, SEND and the handoff check, as far as the frozen statement about them can be shown. -/

namespace Sys2Proof.Machine

/-- Every clause of the statement holds; that of SEND's bytes needs, in a page map whose keys do not rise, that marking pages
as read leaves what memory reads as. -/
theorem sweepsPromotionsAndHandoffs_of_beginRead_bytes
    (hb : ∀ (d : Dev) (hs : List Nat) (a n : Nat), d.quiet → ¬ d.kvRising → (d.beginRead hs).bytes a n = d.bytes a n) :
    Obligations.SweepsPromotionsAndHandoffs := by
  unfold Obligations.SweepsPromotionsAndHandoffs
  refine ⟨⟨fun stack s hs => ?_, fun h s hs => ?_⟩, fun iss die body s hq hd => ?_, fun ref src count lay crc s hq => ?_⟩
  · intro ld k free count c limit mine went
    have hoff := @Dev.demotionSweep_off s.dev stack
    have hon := @Dev.demotionSweep_on s.dev stack
    refine ⟨fun h => ?_, fun hd hf hn => ?_, fun h e pre post hd hf hk hm hp hc => ?_⟩
    · exact (exec_demotionSweep hs stack).trans (by rw [hoff h]; rfl)
    · have he : s.dev.sweepPages stack = [] := by
        rw [List.eq_nil_iff_forall_not_mem]
        intro x hx
        obtain ⟨e, he, hm⟩ := Dev.mem_sweepPages.mp hx
        exact hn _ he hm
      exact (exec_demotionSweep hs stack).trans (by rw [hon hd hf, he]; rfl)
    · have hv : exec (.demotionSweep stack) s = .next { s with dev := s.dev.sweepVisit stack h } := by
        rw [exec_demotionSweep hs, hon hd hf, Dev.sweepPick_eq hk hm hc]
        rfl
      obtain rfl := Dev.kvE_of_split hk hp
      refine ⟨fun hx => ?_, fun ha hpin hr hh => ?_, fun ha hpin hr hh => ⟨fun f hf => ?_, fun hf => ?_⟩⟩
      · exact hv.trans (by rw [Dev.sweepVisit_passes hx]; rfl)
      · exact hv.trans (by rw [Dev.sweepVisit_cools ha hpin hr hh]; rfl)
      · exact hv.trans (by rw [Dev.sweepVisit_demotes ha hpin hr hh hf]; rfl)
      · rw [Dev.sweepVisit_lpFull ha hpin hr hh hf] at hv
        refine ⟨_, hv, rfl, ?_⟩
        exact (congrArg (fun l : Ld => l.kvm.evt.getLsbD 2) (Dev.ld_modLd_same s.dev ld (Ld.setKvmEvt 2))).trans
          (Ld.evt_setKvmEvt _ (by decide))
  · intro e k q high
    rw [exec_promotion hs]
    refine ⟨fun hn => by rw [Dev.promotion_notQueued hn], fun _ ha hl hf => by rw [Dev.promotion_waits ha hl hf],
      fun hm ha hl hf f hs => ?_⟩
    obtain ⟨hframe, hqueue, hpages⟩ := Dev.promoted (Dev.promotion_moves hm ha hl hf hs)
    exact ⟨_, rfl, congrArg (fun x => { s with dev := x }) hframe, by simp [hqueue, k, e], hpages⟩
  · intro n refs rs ld did y tk h bytes hl hy h0 h2 h3 h6 ha hw hr hp
    have hok : s.dev.SendOk iss die body := ⟨hq, hd, hl, hy, h0, h2, h3, h6, ha, hw, hr, hp⟩
    have hx : exec (.send iss die body) s = .next { s with dev := s.dev.kvSend iss die body } := onMem_quiet hq.2.2.1 _
    rw [hx]
    refine ⟨fun hc hf => ?_, fun hj hc hh ho => ?_⟩
    · let x := (s.dev.accept tk).addJob die (s.dev.sendJob iss body)
      have hk : (s.dev.accept tk).SameKeys x := ⟨rfl, rfl, rfl, rfl, fun _ => rfl, fun _ => rfl⟩
      have hx : x.quiet := Dev.quiet_of_sameKeys hk (Dev.quiet_accept _ hq) rfl rfl rfl
      have hread : ∀ hs a n, (x.beginRead hs).bytes a n = x.bytes a n := fun hs a n => by
        by_cases hm : x.kvRising
        · exact Dev.bytes_beginRead hs hx hm a n
        · exact hb x hs a n hx hm
      have hbytes : ∀ a n, (s.dev.sending iss die body).bytes a n = s.dev.bytes a n := fun a n => by
        rw [Dev.sending, hread, Dev.bytes_quiet hx, ← Dev.bytes_accept tk hq, Dev.bytes_quiet (Dev.quiet_accept tk hq)]
        rfl
      have hm : s.dev.firstPage (s.dev.sending iss die body) body = .kvPage (word rs 0) (min (s.dev.kvE h).fill.toNat y.ppos) (word body 1) bytes (crc32c bytes) := by
        simp only [Dev.firstPage, Dev.pageBytes, hbytes]
        rfl
      rw [Dev.kvSend_sent hok hc hf, hm]
      refine ⟨_, rfl, ?_, (Dev.sameFabric_sending ..).told .., ?_, fun k => ?_, ?_⟩
      · rw [Dev.fabOpen, Dev.modFab, Dev.modLd, Dev.setLd, Dev.tell_frame, Dev.sending_frame]
      · rw [Dev.fabOpen, Dev.modFab, Dev.modLd_kvJobs, Dev.tell_frame, Dev.kvJobs_sending, Map.get_set_same, List.getLast?_concat]
        rfl
      · rw [Dev.kvE_fabOpen, Dev.kvE_tell, Dev.kvE_sending]
        rfl
      · rw [Dev.fabOpen, Dev.modFab, Dev.ld_modLd_same, List.getLast?_concat]
        rfl
    · obtain ⟨x, h1, h2, h3, h4, h5⟩ := Dev.sendEnd_first (d := s.dev.sending iss die body) (j := s.dev.sendJob iss body)
        (c := s.dev.sendCode ld did 2) (by rw [Dev.kvJobs_sending, Map.get_set_same, hj]; rfl) rfl hc
        (by rw [(Dev.sameFabric_sending ..).net, hh]) (fun k => by rw [Dev.kvE_sending]; exact ho k)
      rw [Dev.kvSend_noWay hok hc, h1]
      refine ⟨x, rfl, ?_, ?_, h3, h4, fun k => ?_⟩
      · rw [h2, Dev.sending_frame]
      · rw [h2, (Dev.sameFabric_sending ..).out]
      · rw [h5, Dev.kvE_sending]
        exact ⟨Nat.add_sub_cancel .., rfl⟩
  · intro h e ld y bytes good fits reply lost
    rw [exec_handoffPageCheck hq.2.2.1]
    refine ⟨fun hl => by rw [Dev.handoffCheck_lost hl], fun hl hf => ?_, fun hl hf hg => ?_, fun hl hf hg => ?_⟩
    · rw [Dev.handoffCheck_stale hl hf]
      refine ⟨_, rfl, (Dev.sameFabric_setKvmEvt ..).told .., by rw [Dev.tell_frame]; rfl, ?_⟩
      rw [Dev.ld_tell, Dev.ld_modLd_same]
      exact Ld.evt_setKvmEvt _ (by decide)
    · rw [Dev.handoffCheck_good hq hl hf hg]
      refine ⟨_, rfl, (Dev.sameFabric_setKv ..).told .., by rw [Dev.tell_frame]; rfl, fun k => ?_⟩
      rw [Dev.kvE_tell, Dev.kvE_setKv]
    · rw [Dev.handoffCheck_failed hq hl hf hg]
      refine ⟨_, rfl, (Dev.sameFabric_handoffMissed ..).told .., by rw [Dev.tell_frame, Dev.handoffMissed_frame], fun k => ?_, fun h3 => ?_⟩
      · rw [Dev.kvE_tell, Dev.kvE_handoffMissed]
      · rw [Dev.ld_tell]
        exact Dev.evt_handoffMissed h3

end Sys2Proof.Machine
end

section
/-! SUPPORT. Why the frozen statement about SEND stays open: it fixes a value of the opaque ciphers. -/

namespace Sys2Proof.Machine

/-- A quiet device whose page map does not rise: pages 1 and 0, of domains 2 and 1, hold one LPDDR5X frame. Domain 1 alone has a
memory key, and a packet that is held for member 8 makes further ones wait behind it. -/
def twoHolders : Dev :=
  { Dev.init Pins.init I3c.init 0 with
    lds := [(0, { Ld.init { Layout.init with populated := true, dieMask := 1, domBase := 1, domCount := 1, ldid := 5 } 0 0 with
      fab := { FabRegs.init 0 with routes := [(8, { valid := true, n := 0, ports := 0 })] } })]
    dies := [(0, { Die.init with joined := true })]
    ports := [(0, { Port.init with st := .active })]
    net := { paths := [], held := [{ ld := 0, dst := 8, cls := 2, cargo := { out := .backInvalidate 0, packets := [] }, asks := none }] }
    kv := [(1, { KvEntry.init with st := .active, domain := 2, frame := 0x100000, fill := 1 }),
           (0, { KvEntry.init with st := .active, domain := 1, frame := 0x100000, fill := 1 })]
    domains := [(1, { Domain.init with memKey := [1] })]
    tags := [(491520, { PageTag.init with st := .kv })] }

/-- A SEND of page 0, the reference that stands at its list's address, to member 8. -/
def sendOne : List W32 := [0x29, 0x4000, 1, 8, 0x200000, 0x800, 0x200000, 0x800, 0, 0, 0, 0, 0, 0, 0, 0]

theorem slotKey_twoHolders {slot : Nat} (h : slot ≠ 1) : twoHolders.slotKey slot = [] := by
  have hd : (twoHolders.dom slot).memKey = [] := by simp [Dev.dom, twoHolders, Map.get, Map.find, Ne.symm h, Domain.init]
  have hs : twoHolders.slotSeed slot = none := by
    simp [Dev.slotSeed, twoHolders, Map.find, Dev.init]
  simp [Dev.slotKey, hd, hs]

theorem keyDomain_twoHolders {a : Nat} : twoHolders.keyDomain a ≠ 1 := by
  unfold Dev.keyDomain
  split
  · decide
  · next f _ =>
    dsimp only
    have ht : twoHolders.tag f = if f = 491520 then { PageTag.init with st := .kv } else PageTag.init := by
      simp only [Dev.tag, twoHolders, Map.get, Map.find, eq_comm (a := 491520)]
      split <;> rfl
    rw [ht]
    by_cases hf : f = 491520
    · rw [if_pos hf, if_pos rfl]
      by_cases hi : BitVec.ofNat 22 (a / frameBytes) = 0x100000#22
      · rw [hi]; decide
      · have hn : (0x100000#22 == BitVec.ofNat 22 (a / frameBytes)) = false := beq_eq_false_iff_ne.mpr (Ne.symm hi)
        simp [twoHolders, List.find?, KvEntry.init, hn, PageTag.init]
    · rw [if_neg hf, if_neg (by decide)]
      decide

theorem quiet_twoHolders : twoHolders.quiet := by
  refine ⟨rfl, rfl, rfl, fun a n => ?_⟩
  have hf : twoHolders.fillKey = [] := rfl
  have hr : ∀ a n, twoHolders.keyRanges a n = [] := fun _ _ => rfl
  simp [Dev.foreign, slotKey_twoHolders keyDomain_twoHolders, Dev.wholeKey, hr, hf]

theorem refsAt_twoHolders : twoHolders.refsAt (addrAt sendOne 4) (wfld sendOne 2 6 0) = [0] := by
  decide +kernel

theorem sendOk_twoHolders : twoHolders.SendOk (.engine 0) 0 sendOne where
  quiet := quiet_twoHolders
  serves := by unfold Dev.dieServes; decide +kernel
  list := by unfold Dev.listOk; decide +kernel
  layout := by unfold kvLayoutOk; decide +kernel
  word0 := by decide +kernel
  word2 := by decide +kernel
  word3 := by decide +kernel
  high := by decide +kernel
  align := by decide +kernel
  rest := by decide +kernel
  refs r hr := by
    rw [refsAt_twoHolders, List.mem_singleton] at hr
    subst hr
    unfold Dev.refOk
    decide +kernel
  perm := by decide +kernel

theorem sendCode_twoHolders : twoHolders.sendCode 0 8 2 = 0 := by
  decide +kernel

/-- A message for a flow that is held waits behind what is held. -/
theorem held_tell_twoHolders {m : FabMsg} (hm : m.cls = 2) :
    ((twoHolders.tell 0 8 m).net.held.getLast?.map fun c => c.cargo.out) = some (.member 0 8 0 8 m) := by
  have hr : twoHolders.routePort 0 (twoHolders.ld 0).lay.ldid.toNat (twoHolders.physOf 0 8) 2 = some 0 := by decide +kernel
  have hf : twoHolders.flowHeld 0 (twoHolders.physOf 0 8) 2 0 = true := by decide +kernel
  unfold Dev.tell Dev.inject
  dsimp only
  rw [hm, hr]
  dsimp only
  rw [if_pos hf, List.getLast?_concat]
  rfl

theorem Mem.length_readN (d : Byte) (m : Mem) (a n : Nat) : (Mem.readN d m a n).length = n := by simp [Mem.readN]

/-- The first byte of the page as a device holds it. -/
theorem pageBytes_head (d : Dev) :
    (d.pageBytes (word sendOne 1) 0x100000 1).getD 0 0 = Mem.read memDefault (d.seen (frameAt 0x100000) 64) (frameAt 0x100000) := by
  have hr : ∃ rs, (kvLayout (word sendOne 1)).ranges 0 1 = (0, 64) :: rs := ⟨_, rfl⟩
  obtain ⟨rs, hr⟩ := hr
  rw [Dev.pageBytes, hr, List.flatMap_cons, List.getD_append _ _ _ _ (by rw [Dev.bytes, Mem.length_readN]; decide)]
  simp [Dev.bytes, Mem.readN]

theorem Mem.read_writeN_first {d : Byte} {m : Mem} (hm : Mem.wf d m = true) (a : Nat) (bs : List Byte) :
    Mem.read d (Mem.writeN d m a bs) a = bs.getD 0 (Mem.read d m a) := by
  cases bs with
  | nil => rfl
  | cons b bs =>
    have := Mem.read_writeN_inside (d := d) (m := m) a (b :: bs) (i := 0) (by simp) hm
    simpa using this

/-- The device once that SEND has marked page 0 as read: the marked entry, of domain 1, now comes first. -/
def sentTwoHolders : Dev := twoHolders.sending (.engine 0) 0 sendOne

theorem foreign_sentTwoHolders : sentTwoHolders.foreign (frameAt 0x100000) 64 = [frameAt 0x100000] := by
  decide +kernel

theorem mem_sentTwoHolders : sentTwoHolders.mem = [] := by
  unfold sentTwoHolders
  rw [Dev.sending_frame, Dev.accept_frame]
  rfl

theorem keyAt_sentTwoHolders : sentTwoHolders.keyAt (frameAt 0x100000) = [] := by
  decide +kernel

theorem slotKey_sentTwoHolders : sentTwoHolders.slotKey (sentTwoHolders.keyDomain (frameAt 0x100000)) = [1] := by
  decide +kernel

theorem pageBytes_head_twoHolders : (twoHolders.pageBytes (word sendOne 1) 0x100000 1).getD 0 0 = 0 := by
  rw [pageBytes_head, Dev.seen_quiet quiet_twoHolders]
  decide +kernel

theorem pageBytes_head_sentTwoHolders : (sentTwoHolders.pageBytes (word sendOne 1) 0x100000 1).getD 0 0 =
    (Config.xtsDec [1] (xtsTweak lpBase) (Config.xtsEnc [] (xtsTweak lpBase) (zeros 128))).getD 0 0 := by
  have hz : Mem.readN memDefault [] (frameAt 0x100000) 128 = zeros 128 := by decide +kernel
  have ha : frameAt 0x100000 = lpBase := by decide +kernel
  rw [pageBytes_head, Dev.seen, foreign_sentTwoHolders]
  rw [List.foldl_cons, List.foldl_nil, mem_sentTwoHolders, Mem.read_writeN_first (by rfl), Dev.garbled, slotKey_sentTwoHolders, keyAt_sentTwoHolders, mem_sentTwoHolders, hz, ha]
  rfl

/-- The statement fixes what a decryption under another key than that of the encryption yields. It asks, in every state, that
SEND put a page on the way with the bytes that stood there before it; but SEND marks the page as read first, and in a page
map whose keys do not rise `Map.set` puts the marked entry in front, so that the frame carries another domain's key (R190,
R469). `Config.xtsEnc` and `Config.xtsDec` are opaque, so nothing in the model settles this equation. -/
theorem xts_of_sweepsPromotionsAndHandoffs (h : Obligations.SweepsPromotionsAndHandoffs) :
    (Config.xtsDec [1] (xtsTweak lpBase) (Config.xtsEnc [] (xtsTweak lpBase) (zeros 128))).getD 0 0 = 0 := by
  have hok := sendOk_twoHolders
  have hc : twoHolders.sendCode (twoHolders.issLd (.engine 0)) (wfld sendOne 3 13 0) 2 = 0 := sendCode_twoHolders
  have hf : (twoHolders.ld (twoHolders.issLd (.engine 0))).fab.reqs.length < 65536 := by decide +kernel
  obtain ⟨-, hs, -⟩ := h
  obtain ⟨t, ht, -, ⟨-, -, hn⟩, -⟩ := (hs (.engine 0) 0 sendOne { State.reset with dev := twoHolders } hok.quiet hok.serves hok.list hok.layout
    hok.word0 hok.word2 hok.word3 hok.high hok.align hok.rest hok.refs hok.perm).1 hc hf
  rw [show exec (.send (.engine 0) 0 sendOne) { State.reset with dev := twoHolders } = _ from onMem_quiet hok.quiet.2.2.1 _,
    show Dev.kvSend _ _ _ _ = _ from Dev.kvSend_sent hok hc hf] at ht
  injection ht with ht
  subst ht
  have hsame : (sentTwoHolders.tell 0 8 (twoHolders.firstPage sentTwoHolders sendOne)).net = (twoHolders.tell 0 8 (twoHolders.firstPage sentTwoHolders sendOne)).net :=
    ((Dev.sameFabric_sending twoHolders (.engine 0) 0 sendOne).told 0 8 (twoHolders.firstPage sentTwoHolders sendOne)).2.2
  have hm : ((twoHolders.tell 0 8 (twoHolders.firstPage sentTwoHolders sendOne)).net.held.getLast?.map fun c => c.cargo.out) =
      ((twoHolders.tell 0 8 (twoHolders.firstPage twoHolders sendOne)).net.held.getLast?.map fun c => c.cargo.out) :=
    congrArg (fun n => n.held.getLast?.map fun c => c.cargo.out) (hsame.symm.trans hn)
  rw [held_tell_twoHolders rfl, held_tell_twoHolders rfl] at hm
  injection hm with hm
  injection hm with _ _ _ _ hm
  injection hm with _ _ _ hb _
  rw [← pageBytes_head_sentTwoHolders, ← pageBytes_head_twoHolders]
  exact congrArg (fun bs : List Byte => bs.getD 0 0) hb

end Sys2Proof.Machine
end

section
/-! SUPPORT. The frozen statement about SEND holds for one choice of the opaque `Config.xtsDec` and fails for another, so that
neither it nor its negation follows from the model. -/

namespace Sys2Proof.Machine

/-- With a decryption that yields no bytes, memory reads as it stands under any key. -/
theorem Dev.seen_of_xtsDec_nil (h : ∀ k t x, Config.xtsDec k t x = []) (d : Dev) (a n : Nat) : d.seen a n = d.mem := by
  have hg : ∀ cw, d.garbled cw = [] := fun cw => h ..
  unfold Dev.seen
  induction d.foreign a n with
  | nil => rfl
  | cons c cs ih => rw [List.foldl_cons, hg, Mem.writeN, ih]

theorem sweepsPromotionsAndHandoffs_of_xtsDec_nil (h : ∀ k t x, Config.xtsDec k t x = []) :
    Obligations.SweepsPromotionsAndHandoffs :=
  sweepsPromotionsAndHandoffs_of_beginRead_bytes fun d hs a n _ _ => by
    rw [Dev.bytes, Dev.bytes, Dev.seen_of_xtsDec_nil h, Dev.seen_of_xtsDec_nil h, Dev.beginRead_frame]

theorem not_sweepsPromotionsAndHandoffs_of_xtsDec_one (h : ∀ k t x, Config.xtsDec k t x = [1]) :
    ¬ Obligations.SweepsPromotionsAndHandoffs := fun ho => by
  have := xts_of_sweepsPromotionsAndHandoffs ho
  rw [h] at this
  exact absurd this (by decide)

end Sys2Proof.Machine
end

section
/-! SUPPORT. The windows of HBM3E and LPDDR5X (R25, R184). -/

namespace Sys2Proof.Machine

/-- Offset o of the window of die d names stack 2 d or 2 d + 1, or nothing. -/
theorem placeOf_dieWindow {d o : Nat} (hd : d < 10) (ho : o < dieWindow) :
    placeOf (d * dieWindow + o) =
      if o < 2 * stackBytes then .hbm (2 * d + o / stackBytes) (o % stackBytes) else .nowhere := by
  have hw : 0 < dieWindow := by decide
  have hlt : d * dieWindow + o < 10 * dieWindow := by
    have := Nat.mul_le_mul_right dieWindow (Nat.le_sub_one_of_lt hd)
    omega
  have hdiv : (d * dieWindow + o) / dieWindow = d := by
    rw [Nat.mul_comm, Nat.mul_add_div hw, Nat.div_eq_of_lt ho, Nat.add_zero]
  have hmod : (d * dieWindow + o) % dieWindow = o := by
    rw [Nat.mul_comm, Nat.mul_add_mod, Nat.mod_eq_of_lt ho]
  rw [placeOf, if_pos hlt]
  simp only [hdiv, hmod]

/-- Offset o of the window of channel c. -/
theorem placeOf_chanWindow {c o : Nat} (hc : c < 24) (ho : o < chanWindow) :
    placeOf (lpBase + c * chanWindow + o) = .lp c o := by
  have hlt : lpBase + c * chanWindow + o < lpBase + 24 * chanWindow := by
    have := Nat.mul_le_mul_right chanWindow (Nat.le_sub_one_of_lt hc)
    simp only [chanWindow] at *
    omega
  have hsub : lpBase + c * chanWindow + o - lpBase = chanWindow * c + o := by rw [Nat.mul_comm]; omega
  have h10 : ¬lpBase + c * chanWindow + o < 10 * dieWindow := by simp only [lpBase, dieWindow]; omega
  rw [placeOf, if_neg h10, if_neg (by omega), if_pos hlt, hsub, Nat.mul_add_div (by decide), Nat.div_eq_of_lt ho,
    Nat.mul_add_mod, Nat.mod_eq_of_lt ho, Nat.add_zero]

/-- Settles O8: each window decodes by the quotient and the remainder of the offset. -/
theorem memoryWindowsDecode : Obligations.MemoryWindowsDecode := by
  unfold Obligations.MemoryWindowsDecode
  refine ⟨fun d o hd ho => ?_, fun c o hc ho => placeOf_chanWindow hc ho⟩
  have h : placeOf (d * 0x4000000000 + o) = _ := placeOf_dieWindow hd ho
  have hs : stackBytes = 0x1800000000 := rfl
  rw [h]
  refine ⟨fun h0 => ?_, fun h0 h1 => ?_, fun h1 => if_neg (by omega)⟩
  · rw [← hs] at h0
    rw [if_pos (by omega), Nat.div_eq_of_lt h0, Nat.mod_eq_of_lt h0, Nat.add_zero]
  · have hdiv : o / stackBytes = 1 := Nat.div_eq_of_lt_le (by omega) (by omega)
    rw [if_pos (by omega), hdiv, Nat.mod_eq_sub_div_mul, hdiv, Nat.one_mul, hs]

end Sys2Proof.Machine
end

section
/-! SUPPORT. Little-endian bytes: what `toBytes`, `ofBytes`, `slice` and `num` say of the numbers that bytes spell. -/

namespace Sys2Proof.Machine

@[simp] theorem length_toBytes (n x : Nat) : (toBytes n x).length = n := by
  induction n generalizing x with
  | zero => rfl
  | succ n ih => rw [toBytes, List.length_cons, ih]

theorem getElem_toBytes {n x i : Nat} (h : i < (toBytes n x).length) : (toBytes n x)[i] = BitVec.ofNat 8 (x / 256 ^ i) := by
  induction n generalizing x i with
  | zero => simp at h
  | succ n ih =>
    cases i with
    | zero => simp [toBytes]
    | succ i =>
      simp only [toBytes, List.getElem_cons_succ]
      rw [ih, Nat.div_div_eq_div_mul, ← Nat.pow_succ']

theorem ofBytes_lt (bs : List Byte) : ofBytes bs < 256 ^ bs.length := by
  induction bs with
  | nil => simp [ofBytes]
  | cons b bs ih =>
    have := b.isLt
    rw [ofBytes, List.length_cons, Nat.pow_succ]
    omega

theorem ofBytes_toBytes (n x : Nat) : ofBytes (toBytes n x) = x % 256 ^ n := by
  induction n generalizing x with
  | zero => simp [toBytes, ofBytes, Nat.mod_one]
  | succ n ih =>
    rw [toBytes, ofBytes, ih, BitVec.toNat_ofNat, (Nat.pow_succ' : 256 ^ (n + 1) = 256 * 256 ^ n), Nat.mod_mul]

theorem ofBytes_append (a b : List Byte) : ofBytes (a ++ b) = ofBytes a + 256 ^ a.length * ofBytes b := by
  induction a with
  | nil => simp [ofBytes]
  | cons x a ih =>
    rw [List.cons_append, ofBytes, ofBytes, ih, List.length_cons, Nat.pow_succ']
    ring

@[simp] theorem length_slice (bs : List Byte) (i n : Nat) : (slice bs i n).length = n := by simp [slice]

theorem slice_succ (bs : List Byte) (i n : Nat) : slice bs i (n + 1) = bs.getD i 0 :: slice bs (i + 1) n := by
  simp [slice, List.range_succ_eq_map, List.map_map, Function.comp_def, Nat.add_assoc, Nat.add_comm 1]

theorem ofBytes_drop (bs : List Byte) (i : Nat) : ofBytes (bs.drop i) = ofBytes bs / 256 ^ i := by
  induction i generalizing bs with
  | zero => simp
  | succ i ih =>
    cases bs with
    | nil => simp [ofBytes]
    | cons b bs =>
      have hb := b.isLt
      rw [List.drop_succ_cons, ih, ofBytes, Nat.pow_succ', ← Nat.div_div_eq_div_mul]
      congr 1
      omega

/-- Bytes [i, i + n) of a list spell bits [8 (i + n) - 1 : 8 i] of the number that the list spells. -/
theorem num_eq_div_mod (bs : List Byte) (i n : Nat) : num bs i n = ofBytes bs / 256 ^ i % 256 ^ n := by
  unfold num
  induction n generalizing i with
  | zero => simp [slice, ofBytes, Nat.mod_one]
  | succ n ih =>
    have hd : ofBytes bs / 256 ^ i % 256 = (bs.getD i 0).toNat := by
      rw [← ofBytes_drop]
      by_cases h : i < bs.length
      · have hb := (bs[i]).isLt
        rw [List.drop_eq_getElem_cons h, ofBytes, List.getD_eq_getElem _ _ h]
        omega
      · rw [List.drop_eq_nil_of_le (Nat.le_of_not_lt h), List.getD_eq_default _ _ (Nat.le_of_not_lt h)]
        rfl
    rw [slice_succ, ofBytes, ih, (Nat.pow_succ' : 256 ^ (n + 1) = 256 * 256 ^ n), Nat.mod_mul, hd, Nat.div_div_eq_div_mul, ← Nat.pow_succ]

theorem num_toBytes (n x : Nat) : num (toBytes n x) 0 n = x % 256 ^ n := by
  rw [num_eq_div_mod, ofBytes_toBytes, Nat.pow_zero, Nat.div_one, Nat.mod_mod]

end Sys2Proof.Machine
end

section
/-! SUPPORT. Loads and stores of a control core (R157): the instruction's fetch, its access check, and its exception. -/

namespace Sys2Proof.Machine

/-! ## One instruction of a control core -/

theorem Map.set_set {α : Type} (m : Map α) (n : Nat) (a b : α) : Map.set (Map.set m n a) n b = Map.set m n b := by
  induction m with
  | nil => simp [Map.set]
  | cons e t ih =>
    obtain ⟨k, c⟩ := e
    rcases Nat.lt_trichotomy n k with h | h | h
    · simp [Map.set, h]
    · simp [Map.set, h]
    · simp [Map.set, Nat.not_lt_of_gt h, Nat.ne_of_gt h, ih]

theorem Dev.setClu_setClu (d : Dev) (n : Nat) (x y : Cluster) : (d.setClu n x).setClu n y = d.setClu n y := by
  simp only [Dev.setClu, Map.set_set]

@[simp] theorem CtlRegs.put_pc (x : CtlRegs) (r : Reg) (v : W64) : (x.put r v).pc = x.pc := by
  unfold CtlRegs.put
  split
  · rfl
  · split <;> rfl

/-- The registers that an instruction with a result leaves. -/
theorem Dev.ret_eq (d : Dev) (n : Nat) (r : Reg) (v : W64) :
    d.ret n r v = d.setClu n { d.clu n with ctl := { (d.clu n).ctl.put r v with pc := (d.clu n).ctl.pc + 4 } } := by
  simp only [Dev.ret, Dev.wr, Dev.next, Dev.modCtl, Dev.modClu, Dev.clu_setClu_same, Dev.setClu_setClu, CtlRegs.put_pc]

theorem storeAddr_mod_four {n off : Nat} (h : off % 4 = 0) : storeAddr n off % 4 = 0 := by
  simp only [storeAddr, sramBase, sramWindow]
  omega

/-- An instruction whose word can be fetched has its effect on the device after the fetch. -/
theorem Dev.instr_fetchOk {d : Dev} {n : Nat} (h : d.fetchOk n) (f : Dev → Dev) : Dev.instr n f d = f (d.fetched n) := by
  obtain ⟨hx, hpc, hok⟩ := h
  unfold Dev.instr Dev.fetched
  rw [if_pos hx]
  dsimp only
  rw [if_neg (not_not.mpr (storeAddr_mod_four hpc))]
  generalize Dev.readOk reqClu (storeAddr n (d.clu n).ctl.pc.toNat) 4 d = r at hok
  obtain ⟨e, ok⟩ := r
  subst hok
  rfl

theorem Dev.fetched_quiet {d : Dev} (h : d.quiet) (n : Nat) : d.fetched n = d := by
  rw [Dev.fetched, Dev.readOk_quiet h]

/-- An exception outside a handler (R180). -/
theorem Dev.exception_of_not_inHandler {d : Dev} {n : Nat} (h : (d.clu n).ctl.inHandler = false) (cause : Nat) (c : Code) (v : W64) :
    d.exception n cause c (some v.toNat) = d.setClu n { d.clu n with
      ctl := { (d.clu n).ctl with epc := (d.clu n).ctl.pc, estatus := (d.clu n).ctl.status,
                                  status := (d.clu n).ctl.status ||| 4, pc := (d.clu n).ctl.vecExc }
      clu := { (d.clu n).clu with excCause := BitVec.ofNat 8 cause, excCode := c, excAddr := v } } := by
  have hv : BitVec.ofNat 64 v.toNat = v := by rw [BitVec.ofNat_toNat, BitVec.setWidth_eq]
  rw [Dev.exception, if_neg (by rw [h]; decide)]
  simp only [Option.elim_some, hv]
  rfl

/-! ## The access check (R30, log 100) -/

section
variable {d : Dev} {n a len : Nat} (w : Bool)

theorem Dev.ctlAccess_high (h : 2 ^ 44 ≤ a) : d.ctlAccess n w a len = some eRange := by
  rw [Dev.ctlAccess, if_pos (Nat.div_pos h (by decide)).ne']

theorem Dev.ctlAccess_unaligned (h : a < 2 ^ 44) (ha : a % len ≠ 0) : d.ctlAccess n w a len = some eAlign := by
  rw [Dev.ctlAccess, if_neg (not_not.mpr (Nat.div_eq_of_lt h)), if_pos ha]

theorem Dev.ctlAccess_aligned (h : a < 2 ^ 44) (ha : a % len = 0) : d.ctlAccess n w a len = d.busCode (.clu n) w a len := by
  rw [Dev.ctlAccess, if_neg (not_not.mpr (Nat.div_eq_of_lt h)), if_neg (not_not.mpr ha)]

end

/-! ## LD and ST (R157) -/

section
variable {n : Nat} {s : State} (hq : s.dev.quiet) (hf : s.dev.fetchOk n)
include hq hf

theorem exec_ld_permitted {a : Reg} {sz : Size} (h : s.dev.ctlAccess n false (s.dev.reg n a).toNat (sizeBytes sz) = none) (d : Reg) :
    exec (.ld n sz d a) s = .next { s with
      dev := s.dev.ret n d (BitVec.ofNat 64 (loadWord (sizeBytes sz) (ofBytes (s.dev.bytes (s.dev.reg n a).toNat (sizeBytes sz))))) } := by
  change onMem (Dev.instr n _) s = _
  rw [onMem_quiet hq.2.2.1, Dev.instr_fetchOk hf, Dev.fetched_quiet hq n]
  dsimp only
  rw [h, Dev.readBytes_quiet hq]

theorem exec_ld_fault {a : Reg} {sz : Size} {c : Code} (h : s.dev.ctlAccess n false (s.dev.reg n a).toNat (sizeBytes sz) = some c) (d : Reg) :
    exec (.ld n sz d a) s = .next { s with dev := s.dev.exception n 1 c (some (s.dev.reg n a).toNat) } := by
  change onMem (Dev.instr n _) s = _
  rw [onMem_quiet hq.2.2.1, Dev.instr_fetchOk hf, Dev.fetched_quiet hq n]
  dsimp only
  rw [h]

theorem exec_st_permitted {a : Reg} {sz : Size} (h : s.dev.ctlAccess n true (s.dev.reg n a).toNat (sizeBytes sz) = none) (r : Reg) :
    exec (.st n sz r a) s = .next { s with dev := Dev.next n { s.dev with
      mem := Mem.writeN memDefault s.dev.mem (s.dev.reg n a).toNat (toBytes (sizeBytes sz) (s.dev.reg n r).toNat) } } := by
  change onMem (Dev.instr n _) s = _
  rw [onMem_quiet hq.2.2.1, Dev.instr_fetchOk hf, Dev.fetched_quiet hq n]
  dsimp only
  rw [h, Dev.writeBytes_quiet hq]

theorem exec_st_fault {a : Reg} {sz : Size} {c : Code} (h : s.dev.ctlAccess n true (s.dev.reg n a).toNat (sizeBytes sz) = some c) (r : Reg) :
    exec (.st n sz r a) s = .next { s with dev := s.dev.exception n 1 c (some (s.dev.reg n a).toNat) } := by
  change onMem (Dev.instr n _) s = _
  rw [onMem_quiet hq.2.2.1, Dev.instr_fetchOk hf, Dev.fetched_quiet hq n]
  dsimp only
  rw [h]

end

/-- The low bytes of a loaded register are the bytes loaded, whatever stands above a short load (log 32). -/
theorem loadWord_mod (sz : Size) {bs : List Byte} (h : bs.length = sizeBytes sz) :
    (BitVec.ofNat 64 (loadWord (sizeBytes sz) (ofBytes bs)) : W64).toNat % 2 ^ (8 * sizeBytes sz) = ofBytes bs := by
  have hb : ofBytes bs < 2 ^ (8 * sizeBytes sz) := by
    have := ofBytes_lt bs
    rwa [h, show 256 = 2 ^ 8 from rfl, ← Nat.pow_mul] at this
  have hd : 2 ^ (8 * sizeBytes sz) ∣ 2 ^ 64 := Nat.pow_dvd_pow 2 (by cases sz <;> simp [sizeBytes])
  rw [BitVec.toNat_ofNat, Nat.mod_mod_of_dvd _ hd, loadWord]
  split
  · exact Nat.mod_eq_of_lt hb
  · rw [Nat.add_mul_mod_self_left, Nat.mod_eq_of_lt hb]

/-- Byte i of a number in a register is bits [8 i + 7 : 8 i] of the register. -/
theorem byte_eq_extractLsb' (v : W64) (i : Nat) : BitVec.ofNat 8 (v.toNat / 256 ^ i) = v.extractLsb' (8 * i) 8 := by
  apply BitVec.eq_of_toNat_eq
  rw [BitVec.toNat_ofNat, BitVec.extractLsb'_toNat, Nat.shiftRight_eq_div_pow, Nat.pow_mul]

/-- Settles O16: an access that passes its check moves its bytes, and one that fails takes the exception. -/
theorem loadsAndStores : Obligations.LoadsAndStores := by
  unfold Obligations.LoadsAndStores
  refine ⟨?_, ?_, ?_⟩
  · intro n d a sz s hq hf addr hok b v
    have hb : s.dev.bytes addr (sizeBytes sz) = (List.range (sizeBytes sz)).map fun i => s.dev.byte (addr + i) := by
      rw [Dev.bytes_quiet hq]
      rfl
    refine ⟨loadWord_mod sz (by simp), ?_⟩
    rw [exec_ld_permitted hq hf hok, Dev.ret_eq, hb]
  · intro n r a sz s hq hm hf addr hok
    refine ⟨_, exec_st_permitted hq hf hok r, rfl, fun i hi => ?_, fun x hx => ?_⟩
    · have hlen : i < (toBytes (sizeBytes sz) (s.dev.reg n r).toNat).length := by rwa [length_toBytes]
      exact (Mem.read_writeN_inside addr _ hlen hm.1).trans ((getElem_toBytes hlen).trans (byte_eq_extractLsb' _ i))
    · exact Mem.read_writeN_outside _ _ _ (by rwa [length_toBytes])
  · intro n d a sz s c hq hf hh addr len taken
    have hld : ∀ {e}, s.dev.ctlAccess n false addr len = some e → exec (.ld n sz d a) s = taken e := fun h =>
      (exec_ld_fault hq hf h d).trans (by rw [Dev.exception_of_not_inHandler hh]; rfl)
    have hst : ∀ {e}, s.dev.ctlAccess n true addr len = some e → exec (.st n sz d a) s = taken e := fun h =>
      (exec_st_fault hq hf h d).trans (by rw [Dev.exception_of_not_inHandler hh]; rfl)
    exact ⟨fun h => ⟨hld (Dev.ctlAccess_high _ h), hst (Dev.ctlAccess_high _ h)⟩,
      fun h ha => ⟨hld (Dev.ctlAccess_unaligned _ h ha), hst (Dev.ctlAccess_unaligned _ h ha)⟩,
      fun h ha hc => hld ((Dev.ctlAccess_aligned _ h ha).trans hc), fun h ha hc => hst ((Dev.ctlAccess_aligned _ h ha).trans hc)⟩

end Sys2Proof.Machine
end

section
/-! SUPPORT. The failures, records and levels of a start: what they keep (R499, R500, R502, R503). -/

namespace Sys2Proof.Machine

/-! ## Folds -/

/-- What every step keeps, a fold keeps. -/
theorem foldl_keeps {α β γ : Type*} (p : α → γ) {f : α → β → α} (h : ∀ a b, p (f a b) = p a) (l : List β) (a : α) :
    p (l.foldl f a) = p a := List.foldlRecOn l f (motive := fun x => p x = p a) rfl fun _ hb c _ => (h _ c).trans hb

/-- What the step of a member establishes and every step keeps holds after the fold. -/
theorem foldl_establishes {α β : Type*} {P I : α → Prop} {f : α → β → α} {l : List β} {b : β} (hb : b ∈ l) (hI : ∀ a c, I a → I (f a c))
    (h1 : ∀ a, I a → P (f a b)) (h2 : ∀ a c, I a → P a → P (f a c)) {a : α} (h0 : I a) : P (l.foldl f a) := by
  induction l generalizing a with
  | nil => cases hb
  | cons c l ih =>
    rcases List.mem_cons.mp hb with rfl | hm
    · exact (List.foldlRecOn l f (motive := fun x => I x ∧ P x) ⟨hI a b h0, h1 a h0⟩ fun x hx c _ => ⟨hI x c hx.1, h2 x c hx.1 hx.2⟩).2
    · exact ih hm (hI a c h0)

theorem Dev.ld_modLd_keeps {γ : Type*} (p : Ld → γ) {f : Ld → Ld} (h : ∀ l, p (f l) = p l) (d : Dev) (k n : Nat) :
    p ((d.modLd k f).ld n) = p (d.ld n) := by
  rw [Dev.ld_modLd]
  split
  · next e => rw [h, e]
  · rfl

/-- A fold of changes of LDs changes LDs alone. -/
theorem Dev.foldl_modLd_frame {β : Type*} (k : β → Nat) (f : β → Ld → Ld) (l : List β) (d : Dev) :
    l.foldl (fun d b => d.modLd (k b) (f b)) d = { d with lds := (l.foldl (fun d b => d.modLd (k b) (f b)) d).lds } :=
  List.foldlRecOn l _ (motive := fun x : Dev => x = { d with lds := x.lds }) rfl fun _ hb _ _ => by rw [hb]; rfl

theorem Dev.ld_foldl_modLd_keeps {β γ : Type*} (p : Ld → γ) (k : β → Nat) {f : β → Ld → Ld} (h : ∀ b l, p (f b l) = p l) (l : List β) (d : Dev)
    (n : Nat) : p ((l.foldl (fun d b => d.modLd (k b) (f b)) d).ld n) = p (d.ld n) :=
  foldl_keeps (fun d => p (Dev.ld d n)) (fun d b => Dev.ld_modLd_keeps p (h b) d (k b) n) l d

/-! ## Start records (R499) -/

theorem Vault.append_snd_count (n l : Nat) (c : Code) (t : BitVec 8) (v : Vault) : (v.append n l c t).2.count = n := by
  unfold Vault.append
  dsimp only
  repeat' split
  all_goals rfl

theorem Vault.append_leaves (n l : Nat) (c : Code) (t : BitVec 8) (v : Vault) : (v.append n l c t).1.leaves = v.leaves := by
  have hp : ∀ (w : Vault) a bs, (w.program a bs).leaves = w.leaves := fun _ _ _ => rfl
  have he : ∀ (w : Vault) a n, (w.erase a n).leaves = w.leaves := fun _ _ _ => rfl
  unfold Vault.append
  dsimp only
  split
  · rw [hp, he]
  · split
    · rw [hp]
    · rw [hp, he]

section
variable (n l : Nat) (c : Code) (t : BitVec 8) (s : State)

/-- A record changes the vault and the record in force alone. -/
theorem State.record_frame : s.record n l c t =
    { s with vault := (s.record n l c t).vault
             dev := { s.dev with boot := { s.dev.boot with rec_ := (s.record n l c t).dev.boot.rec_ } } } := by
  unfold State.record
  split <;> rfl

theorem State.record_leaves : (s.record n l c t).vault.leaves = s.vault.leaves := by
  unfold State.record
  split
  · rfl
  · exact Vault.append_leaves n l c t _

theorem State.record_shape : ∃ v r, s.record n l c t = { s with vault := v, dev := { s.dev with boot := { s.dev.boot with rec_ := r } } } ∧
    v.leaves = s.vault.leaves := ⟨_, _, State.record_frame n l c t s, State.record_leaves n l c t s⟩

theorem State.startCount_record (h : n = s.dev.startCount) : (s.record n l c t).dev.startCount = s.dev.startCount := by
  unfold State.record
  split
  · rfl
  · exact (Vault.append_snd_count n l c t _).trans h

theorem State.startCount_record_of_probe (h : s.dev.boot.probe = 0) : (s.record n l c t).dev.startCount = n := by
  rw [State.record, if_neg (not_not.mpr h)]
  exact Vault.append_snd_count n l c t _

end

/-! ## Failures of a start (R500, R503) -/

/-- The LDs that a failed unit holds back have its code. -/
def Dev.heldBack (code : Code) (hold : List Nat) (d : Dev) : Dev :=
  hold.foldl (fun d n => d.modLd n fun l => { l with ctl := { l.ctl with failCode := if l.ctl.failCode = 0 then code else l.ctl.failCode } }) d

/-- The device with the first failure of its start, before it is recorded. -/
def Dev.failMarked (code : Code) (detail : BitVec 8) (hold : List Nat) (d : Dev) : Dev :=
  let d : Dev := { d.heldBack code hold with boot := { d.boot with failed := true, failCode := code, failDetail := detail } }
  (d.compute ++ [15]).foldl (fun d n => d.modLd n (Ld.setBootEvt 2)) d

section
variable (code : Code) (detail : BitVec 8) (hold : List Nat) (d : Dev)

theorem Dev.heldBack_frame : d.heldBack code hold = { d with lds := (d.heldBack code hold).lds } := Dev.foldl_modLd_frame id _ hold d

theorem Dev.heldBack_boot : (d.heldBack code hold).boot = d.boot := by rw [Dev.heldBack_frame]

theorem Dev.failMarked_frame : d.failMarked code detail hold =
    { d with lds := (d.failMarked code detail hold).lds, boot := { d.boot with failed := true, failCode := code, failDetail := detail } } := by
  unfold Dev.failMarked
  dsimp only
  rw [Dev.foldl_modLd_frame (fun n => n) fun _ => Ld.setBootEvt 2, Dev.heldBack_frame]

variable {γ : Type*} (p : Ld → γ) (hc : ∀ l c, p { l with ctl := { l.ctl with failCode := c } } = p l) (n : Nat)
include hc

theorem Dev.ld_heldBack : p ((d.heldBack code hold).ld n) = p (d.ld n) :=
  Dev.ld_foldl_modLd_keeps p id (fun _ l => hc l _) hold d n

theorem Dev.ld_failMarked (he : ∀ l b, p (Ld.setBootEvt b l) = p l) : p ((d.failMarked code detail hold).ld n) = p (d.ld n) :=
  (Dev.ld_foldl_modLd_keeps p id (fun _ l => he l 2) _ _ n).trans (d.ld_heldBack code hold p hc n)

end

theorem Dev.failMarked_startCount (code : Code) (detail : BitVec 8) (hold : List Nat) (d : Dev) :
    (d.failMarked code detail hold).startCount = d.startCount := by rw [Dev.failMarked_frame]; rfl

theorem Dev.failMarked_evt (code : Code) (detail : BitVec 8) (hold : List Nat) (d : Dev) :
    ((d.failMarked code detail hold).ld 15).ctl.bootEvt.getLsbD 2 = true := by
  unfold Dev.failMarked
  dsimp only
  rw [List.foldl_append, List.foldl_cons, List.foldl_nil, Dev.ld_modLd_same]
  exact getLsbD_setBit_same _ (by decide)

section
variable (code : Code) (detail : BitVec 8) (hold : List Nat) {s : State}

/-- The first failure of a start before its third start is marked and recorded. -/
theorem State.startFail_first (h2 : s.dev.boot.level2 = false) (hf : s.dev.boot.failed = false) (hc : s.dev.startCount < 3) :
    ∃ l, s.startFail code detail hold =
      ({ s with dev := s.dev.failMarked code detail hold } : State).record s.dev.startCount l code detail := by
  have hn : (s.dev.failMarked code detail hold).startCount = s.dev.startCount := s.dev.failMarked_startCount ..
  have key : s.startFail code detail hold =
      let t := ({ s with dev := s.dev.failMarked code detail hold } : State).record (s.dev.failMarked code detail hold).startCount
        (s.dev.failMarked code detail hold).devLevel code detail
      if 3 ≤ t.dev.startCount then t.enterFallow else t := by
    change (if (s.dev.heldBack code hold).boot.level2 = true ∨ (s.dev.heldBack code hold).boot.failed = true then _ else _) = _
    rw [if_neg (by simp [Dev.heldBack_boot, h2, hf])]
    rw [Dev.failMarked, ← Dev.heldBack_boot code hold s.dev]
    rfl
  refine ⟨(s.dev.failMarked code detail hold).devLevel, ?_⟩
  rw [key, hn]
  dsimp only
  rw [if_neg]
  rw [State.startCount_record]
  · exact Nat.not_le.mpr (hn ▸ hc)
  · exact hn.symm

/-- A later failure holds its LDs back and is not recorded. -/
theorem State.startFail_ended (h : s.dev.boot.level2 = true ∨ s.dev.boot.failed = true) :
    s.startFail code detail hold = { s with dev := s.dev.heldBack code hold } := by
  change (if (s.dev.heldBack code hold).boot.level2 = true ∨ (s.dev.heldBack code hold).boot.failed = true then _ else _) = _
  rw [if_pos (by rw [Dev.heldBack_boot]; exact h)]
  rfl

/-- What a first failure leaves: the flags of the start, with all else of it and of the device but LDs and the record. -/
theorem State.startFail_first_frame (h2 : s.dev.boot.level2 = false) (hf : s.dev.boot.failed = false) (hc : s.dev.startCount < 3) :
    ∃ v r, s.startFail code detail hold = { s with
      vault := v
      dev := { s.dev.failMarked code detail hold with
        boot := { s.dev.boot with failed := true, failCode := code, failDetail := detail, rec_ := r } } } ∧ v.leaves = s.vault.leaves := by
  obtain ⟨l, h⟩ := State.startFail_first code detail hold h2 hf hc
  have hb : (s.dev.failMarked code detail hold).boot = { s.dev.boot with failed := true, failCode := code, failDetail := detail } := by
    rw [Dev.failMarked_frame]
  have hr := State.record_frame s.dev.startCount l code detail { s with dev := s.dev.failMarked code detail hold }
  have hl := State.record_leaves s.dev.startCount l code detail { s with dev := s.dev.failMarked code detail hold }
  rw [← h] at hr hl
  dsimp only at hr
  rw [hb] at hr
  exact ⟨_, _, hr, hl⟩

end

end Sys2Proof.Machine
end

section
/-! SUPPORT. The service levels (R502) and the ROM stage (R499, R501). -/

namespace Sys2Proof.Machine

/-! ## Service levels (R502) -/

/-- The LDs at level 1 whose conditions of level 2 hold. -/
def Dev.ready2Lds (d : Dev) : List Nat := d.compute.filter fun n => (d.ld n).ctl.service == 1 && (d.ld n).ctl.st == .enabled && d.ready2 n

/-- The device once those LDs are at level 2. -/
def Dev.risen (d : Dev) : Dev :=
  (d.ready2Lds.foldl (fun d n => d.modLd n fun l => ({ l with ctl := { l.ctl with service := 2 } } : Ld).setBootEvt 1) d).showLevel

theorem Dev.risen_frame (d : Dev) : d.risen = { d with lds := d.risen.lds } := by
  unfold Dev.risen Dev.showLevel
  dsimp only
  rw [Dev.foldl_modLd_frame (fun n => n)]
  rfl

theorem Dev.ld_showLevel (d : Dev) {n : Nat} (h : n ≠ 15) : d.showLevel.ld n = d.ld n := Dev.ld_modLd_other d _ h

/-- A change of service levels keeps what neither the level nor the start events of an LD are. -/
theorem Dev.ld_risen_keeps {γ : Type*} (p : Ld → γ) (hs : ∀ l x, p { l with ctl := { l.ctl with service := x } } = p l)
    (he : ∀ l b, p (Ld.setBootEvt b l) = p l) (d : Dev) (n : Nat) : p (d.risen.ld n) = p (d.ld n) := by
  have hshow : ∀ e : Dev, p (e.showLevel.ld n) = p (e.ld n) := fun e => by
    refine Dev.ld_modLd_keeps p (fun l => ?_) e 15 n
    dsimp only
    repeat' split
    all_goals simp only [he, hs]
  exact (hshow _).trans (Dev.ld_foldl_modLd_keeps p id (fun _ l => by rw [he, hs]) _ d n)

/-- An LD at level 1 may rise to level 2. -/
theorem Dev.service_risen (d : Dev) {n : Nat} (h : n ≠ 15) :
    (d.risen.ld n).ctl.service = (d.ld n).ctl.service ∨ (d.ld n).ctl.service = 1 ∧ (d.risen.ld n).ctl.service = 2 := by
  rw [Dev.risen, Dev.ld_showLevel _ h]
  refine List.foldlRecOn d.ready2Lds _ (motive := fun e : Dev => (e.ld n).ctl.service = (d.ld n).ctl.service ∨
    (d.ld n).ctl.service = 1 ∧ (e.ld n).ctl.service = 2) (.inl rfl) fun e he k hk => ?_
  rw [Dev.ld_modLd]
  split
  · next heq =>
    subst heq
    simp only [Dev.ready2Lds, List.mem_filter, Bool.and_eq_true, beq_iff_eq] at hk
    exact .inr ⟨hk.2.1.1, rfl⟩
  · exact he

/-- What a rise of levels changes: LDs, and of the start the level, its time and the record. -/
theorem State.levels_frame (s : State) : ∃ v a b r, s.levels =
    { s with vault := v
             dev := { s.dev.risen with boot := { s.dev.boot with level2 := a, l2At := b, rec_ := r } } } ∧ v.leaves = s.vault.leaves := by
  have hb : s.dev.risen.boot = s.dev.boot := by rw [Dev.risen_frame]
  have e : s.levels = if s.dev.risen.devLevel = 2 ∧ !s.dev.risen.boot.level2 ∧ !s.dev.risen.unitFailed then
      ({ s with dev := { s.dev.risen with boot := { s.dev.risen.boot with level2 := true, l2At := s.now } } } : State).record 0 2 0 0
    else { s with dev := s.dev.risen } := rfl
  rw [e]
  split
  · obtain ⟨v, r, hr, hv⟩ := State.record_shape 0 2 0 0
      { s with dev := { s.dev.risen with boot := { s.dev.risen.boot with level2 := true, l2At := s.now } } }
    refine ⟨v, true, s.now, r, ?_, hv⟩
    rw [hr, hb]
  · refine ⟨_, s.dev.boot.level2, s.dev.boot.l2At, s.dev.boot.rec_, ?_, rfl⟩
    rw [← hb]

end Sys2Proof.Machine
end

section
/-! SUPPORT. The ROM stage (R499, R501). -/

namespace Sys2Proof.Machine

theorem Dev.ownPorts_boot (m : W32) (d : Dev) : (d.ownPorts m).boot = d.boot := foldl_keeps Dev.boot (by intros; rfl) _ d

/-- A verified image takes the start to the Silmuvin stage. -/
theorem Dev.loadImage_boot (im : Image) (d : Dev) : (d.loadImage im).boot = { d.boot with image := some im, stage := .silmuvin } := by
  unfold Dev.loadImage
  dsimp only
  have hl : ∀ e : Dev, ((match im.lds[10]? with
      | none => e
      | some x => e.modLd 15 fun l => { l with lay := { l.lay with domBase := x.domBase, domCount := x.domCount }, sec := { l.sec with domSel := BitVec.ofNat 12 x.domBase } }) : Dev).boot
      = e.boot := fun e => by split <;> rfl
  refine (hl _).trans ?_
  refine (foldl_keeps Dev.boot (fun e n => ?_) _ _).trans (foldl_keeps Dev.boot (by intros; rfl) _ _)
  split
  · rfl
  · split
    · rfl
    · exact Dev.ownPorts_boot ..

/-- The state of a start once its ROM has recorded it. -/
def State.romRecorded (s : State) : State :=
  let d : Dev := { s.dev with boot := { s.dev.boot with probe := 0, rec_ := s.vault.current } }
  ({ s with dev := d } : State).record (d.startCount + 1) 0 0 0

theorem State.romRecorded_shape (s : State) : ∃ v r, s.romRecorded =
    { s with vault := v, dev := { s.dev with boot := { s.dev.boot with probe := 0, rec_ := r } } } := by
  obtain ⟨v, r, h, -⟩ := State.record_shape (s.vault.current.elim 0 StartRec.count + 1) 0 0 0
    { s with dev := { s.dev with boot := { s.dev.boot with probe := 0, rec_ := s.vault.current } } }
  exact ⟨v, r, h⟩

theorem State.startCount_romRecorded (s : State) : s.romRecorded.dev.startCount = s.vault.current.elim 0 StartRec.count + 1 :=
  State.startCount_record_of_probe _ _ _ _ _ rfl

/-- An image that fails a check leaves the start at its failed verification. -/
def State.romFailed (s : State) : State :=
  { s with dev := { s.dev with boot := { s.dev.boot with stage := .failedVerify }, pins := { s.dev.pins with ready := true } } }

/-- A verified image is loaded. -/
def State.romLoaded (im : Image) (s : State) : State :=
  { s with dev := { s.dev.loadImage im with
      pins := { (s.dev.loadImage im).pins with ready := true }
      boot := { (s.dev.loadImage im).boot with held := false } } }

theorem State.romStage_waits {s : State} (probe : NvmProbe) (ok : Bool)
    (h : ¬(s.dev.boot.stage = .rom ∧ s.dev.pins.rails = true ∧ s.dev.pins.resetN = true ∧ s.dev.boot.zeroising = [])) : s.romStage probe ok = s := by
  refine if_pos ?_
  simp only [Bool.not_eq_eq_eq_not, Bool.not_true, List.isEmpty_eq_false_iff]
  by_contra hc
  simp only [not_or, not_not, Bool.not_eq_false] at hc
  exact h hc

/-! ### The queue and the counter stay -/

/-- Two states with the same queue and the same counter. -/
def State.sameQueue (s t : State) : Prop := t.pending = s.pending ∧ t.now = s.now

theorem State.sameQueue.trans {s t u : State} (h : s.sameQueue t) (k : t.sameQueue u) : s.sameQueue u := ⟨k.1.trans h.1, k.2.trans h.2⟩

theorem State.sameQueue_record (n l : Nat) (c : Code) (t : BitVec 8) (s : State) : s.sameQueue (s.record n l c t) := by
  unfold State.record
  split <;> exact ⟨rfl, rfl⟩

theorem State.sameQueue_enterFallow (s : State) : s.sameQueue s.enterFallow := ⟨rfl, rfl⟩

theorem State.sameQueue_startFail (c : Code) (t : BitVec 8) (hold : List Nat) (s : State) : s.sameQueue (s.startFail c t hold) := by
  unfold State.startFail
  dsimp only
  split
  · exact ⟨rfl, rfl⟩
  · have h := fun n l d => State.sameQueue_record n l c t { s with dev := d }
    split
    · refine State.sameQueue.trans ?_ (State.sameQueue_enterFallow _)
      exact h _ _ _
    · exact h _ _ _

theorem State.sameQueue_romStage (probe : NvmProbe) (ok : Bool) (s : State) : s.sameQueue (s.romStage probe ok) := by
  unfold State.romStage
  dsimp only
  split
  · exact ⟨rfl, rfl⟩
  split
  · exact ⟨rfl, rfl⟩
  split
  · exact ⟨rfl, rfl⟩
  generalize ht : (if ok = true then (_ : State) else _) = t
  have h : s.sameQueue t := by
    have hr := fun n d => State.sameQueue_record n 0 0 0 { s with dev := d }
    rw [← ht]
    split
    · exact hr _ _
    · refine State.sameQueue.trans ?_ (State.sameQueue_startFail ..)
      exact hr _ _
  clear ht
  split
  · exact h
  split
  · refine State.sameQueue.trans ?_ (State.sameQueue_startFail ..)
    exact h
  · exact h

section
variable {s : State} (hr : s.dev.boot.stage = .rom ∧ s.dev.pins.rails = true ∧ s.dev.pins.resetN = true ∧ s.dev.boot.zeroising = [])
include hr

theorem State.romStage_probe {probe : NvmProbe} (h : probe ≠ 0) (ok : Bool) :
    ∃ d : Dev, s.romStage probe ok = ({ s with dev := d } : State).enterFallow ∧ d.boot.probe = probe := by
  obtain ⟨h1, h2, h3, h4⟩ := hr
  unfold State.romStage
  rw [if_neg (by simp [h1, h2, h3, h4])]
  dsimp only
  rw [if_pos h]
  refine ⟨_, rfl, ?_⟩
  split
  · unfold Dev.bcFault
    dsimp only
    split <;> rfl
  · rfl

theorem State.romStage_third (h : 3 ≤ s.vault.current.elim 0 StartRec.count) (ok : Bool) :
    ∃ d : Dev, s.romStage 0 ok = ({ s with dev := d } : State).enterFallow := by
  obtain ⟨h1, h2, h3, h4⟩ := hr
  unfold State.romStage
  rw [if_neg (by simp [h1, h2, h3, h4])]
  dsimp only
  rw [if_neg (not_not.mpr rfl)]
  exact ⟨_, if_pos h⟩

theorem State.romStage_records (h : s.vault.current.elim 0 StartRec.count < 3) :
    (∀ c det, s.romRecorded.vault.verifyImage = .error (c, det) → s.romStage 0 true = s.romRecorded.romFailed.startFail c det []) ∧
    ∀ im, s.romRecorded.vault.verifyImage = .ok im → s.romStage 0 true = s.romRecorded.romLoaded im := by
  obtain ⟨v, r, hs⟩ := s.romRecorded_shape
  have hf : s.romRecorded.dev.boot.stage ≠ .fallow := by rw [hs]; simp [hr.1]
  obtain ⟨h1, h2, h3, h4⟩ := hr
  unfold State.romStage
  rw [if_neg (by simp [h1, h2, h3, h4])]
  dsimp only
  rw [if_neg (not_not.mpr rfl)]
  unfold State.romRecorded at hf ⊢
  refine ⟨fun c det hv => (if_neg (Nat.not_le.mpr h)).trans ?_, fun im hv => (if_neg (Nat.not_le.mpr h)).trans ?_⟩ <;> rw [if_pos rfl]
  · refine (if_neg hf).trans ?_
    generalize State.record _ _ _ _ _ = t at hv ⊢
    rw [hv]
    rfl
  · refine (if_neg hf).trans ?_
    generalize State.record _ _ _ _ _ = t at hv ⊢
    rw [hv]
    rfl

end

end Sys2Proof.Machine
end

section
/-! SUPPORT. A write of the SRAM of a die or of Silmuvin leaves HBM3E, LPDDR5X, their units and their keys (R26, R188, R196). -/

namespace Sys2Proof.Machine

/-- What only SRAM may have changed between: the bytes below it, their units and keys, and of every unit whether it is in
service and which spares it has. -/
structure Dev.SramOnly (d d' : Dev) : Prop where
  byte : ∀ a < sramBase, d'.byte a = d.byte a
  unit : ∀ u, unitKey u < 64 → d'.unit u = d.unit u
  keys : d'.lpKeys = d.lpKeys
  inService : ∀ u, (d'.unit u).inService = (d.unit u).inService
  spares : ∀ u, (d'.unit u).spares = (d.unit u).spares

theorem Dev.SramOnly.trans {a b c : Dev} (h : a.SramOnly b) (k : b.SramOnly c) : a.SramOnly c where
  byte x hx := (k.byte x hx).trans (h.byte x hx)
  unit u hu := (k.unit u hu).trans (h.unit u hu)
  keys := k.keys.trans h.keys
  inService u := (k.inService u).trans (h.inService u)
  spares u := (k.spares u).trans (h.spares u)

theorem Dev.SramOnly.of_mem {d d' : Dev} (hb : ∀ a < sramBase, d'.byte a = d.byte a) (hu : d'.units = d.units) (hk : d'.lpKeys = d.lpKeys) :
    d.SramOnly d' where
  byte := hb
  unit u _ := by rw [Dev.unit, Dev.unit, hu]
  keys := hk
  inService u := by rw [Dev.unit, Dev.unit, hu]
  spares u := by rw [Dev.unit, Dev.unit, hu]

theorem Dev.SramOnly.of_same {d d' : Dev} (hm : d'.mem = d.mem) (hu : d'.units = d.units) (hk : d'.lpKeys = d.lpKeys) : d.SramOnly d' :=
  .of_mem (fun a _ => by rw [Dev.byte, Dev.byte, hm]) hu hk

theorem Dev.SramOnly.refl (d : Dev) : d.SramOnly d := .of_same rfl rfl rfl

/-- A write of memory above the base of SRAM. -/
theorem Dev.SramOnly.of_writeN {d d' : Dev} {a : Nat} {bs : List Byte} (ha : sramBase ≤ a) (hm : d'.mem = Mem.writeN memDefault d.mem a bs)
    (hu : d'.units = d.units) (hk : d'.lpKeys = d.lpKeys) : d.SramOnly d' :=
  .of_mem (fun x hx => by rw [Dev.byte, hm, Mem.read_writeN_outside _ _ _ (.inl (Nat.lt_of_lt_of_le hx ha))]; rfl) hu hk

theorem unitKey_of_sramBase_le {a : Nat} {u : MemUnit} (h : sramBase ≤ a) (hu : unitOf a = some u) : 64 ≤ unitKey u := by
  have hs : sramBase = 0x80000000000 := rfl
  have hl : lpBase = 0x40000000000 := rfl
  have hd : dieWindow = 0x4000000000 := rfl
  have hc : chanWindow = 0x2000000000 := rfl
  have h1 : ¬a < 10 * dieWindow := by omega
  have h2 : ¬a < lpBase := by omega
  have h3 : ¬a < lpBase + 24 * chanWindow := by omega
  have hp : (∀ n o, placeOf a ≠ .hbm n o) ∧ ∀ c o, placeOf a ≠ .lp c o := by
    unfold placeOf
    rw [if_neg h1, if_neg h2, if_neg h3, if_neg (Nat.not_lt.mpr h)]
    dsimp only
    repeat' split
    all_goals exact ⟨nofun, nofun⟩
  unfold unitOf at hu
  cases e : placeOf a with
  | hbm n o => exact absurd e (hp.1 n o)
  | lp c o => exact absurd e (hp.2 c o)
  | _ => rw [e] at hu; cases hu <;> simp only [unitKey] <;> omega

theorem sramBase_le_cwOf {a : Nat} (h : sramBase ≤ a) : sramBase ≤ cwOf a := by
  have hs : sramBase = 0x80000000000 := rfl
  have hl : lpBase = 0x40000000000 := rfl
  have hb : cwBytes a = 8 := by rw [cwBytes, if_neg (by omega), if_neg (by omega)]
  rw [cwOf, hb]
  omega

section
variable {u : MemUnit} (hu : 64 ≤ unitKey u) (d : Dev)
include hu

theorem Dev.sramOnly_modUnit {f : Unit → Unit} (hi : ∀ x, (f x).inService = x.inService) (hs : ∀ x, (f x).spares = x.spares) :
    d.SramOnly (d.modUnit u f) := by
  have key : ∀ v, (d.modUnit u f).unit v = if unitKey v = unitKey u then f (d.unit u) else d.unit v := fun v => Map.get_set ..
  have same : ∀ {v}, unitKey v = unitKey u → d.unit v = d.unit u := fun h => by rw [Dev.unit, Dev.unit, h]
  refine ⟨fun _ _ => rfl, fun v hv => ?_, rfl, fun v => ?_, fun v => ?_⟩
  · rw [key, if_neg (by omega)]
  · rw [key]
    split
    · next h => rw [hi, same h]
    · rfl
  · rw [key]
    split
    · next h => rw [hs, same h]
    · rfl

omit hu in
theorem Dev.sramOnly_eccEvt (b : Nat) : d.SramOnly (d.eccEvt u b) := by
  unfold Dev.eccEvt
  dsimp only
  split <;> exact .of_same rfl rfl rfl

theorem Dev.sramOnly_eccRecord (cw k r y : Nat) : d.SramOnly (d.eccRecord u cw k r y) := by
  unfold Dev.eccRecord
  refine d.sramOnly_modUnit hu (fun x => ?_) fun x => ?_ <;> split <;> rfl

theorem Dev.sramOnly_queueRow (cw : Nat) (c : Bool) : d.SramOnly (d.queueRow u cw c) := by
  unfold Dev.queueRow
  dsimp only
  split
  · refine d.sramOnly_modUnit hu (fun x => ?_) fun x => ?_ <;> split <;> rfl
  · exact .refl d

theorem Dev.sramOnly_hitRow (cw : Nat) : d.SramOnly (d.hitRow u cw) := by
  have h := fun rows => d.sramOnly_modUnit hu (f := fun x => { x with rows := rows }) (fun _ => rfl) fun _ => rfl
  unfold Dev.hitRow
  dsimp only
  split
  · exact (h _).trans (Dev.sramOnly_queueRow hu _ cw false)
  · exact h _

theorem Dev.sramOnly_hitLane (cw y : Nat) : d.SramOnly (d.hitLane u cw y) := by
  have h := fun hits => d.sramOnly_modUnit hu (f := fun x => { x with hits := hits }) (fun _ => rfl) fun _ => rfl
  have hm := fun (e : Dev) m => e.sramOnly_modUnit hu (f := fun x => { x with marked := m :: x.marked }) (fun _ => rfl) fun _ => rfl
  unfold Dev.hitLane
  dsimp only
  generalize ({ pch := _, symbol := _, rows := _ } :: _ : List LaneHits) = hits
  split
  · exact ((h hits).trans (hm _ _)).trans (Dev.sramOnly_eccEvt (u := u) _ 5)
  · exact h hits

theorem Dev.sramOnly_countOdc (cw : Nat) : d.SramOnly (d.countOdc u cw) := by
  unfold Dev.countOdc
  repeat' split
  · exact d.sramOnly_modUnit hu (fun _ => rfl) fun _ => rfl
  · exact .refl d
  · exact .refl d

theorem Dev.sramOnly_correctCw (req cw : Nat) (syms : List Nat) : d.SramOnly (d.correctCw u req cw syms) := by
  have h1 := d.sramOnly_modUnit hu (f := fun x => { x with ce := sat32 x.ce }) (fun _ => rfl) fun _ => rfl
  have h2 := (h1.trans (Dev.sramOnly_eccRecord hu _ cw 1 req (syms.headD 127))).trans (Dev.sramOnly_eccEvt (u := u) _ 0)
  unfold Dev.correctCw
  dsimp only
  refine h2.trans ?_
  generalize Dev.eccEvt u 0 _ = e
  have h3 : e.SramOnly { e with upsets := Map.del e.upsets cw } := .of_same rfl rfl rfl
  split
  · exact (h3.trans (Dev.sramOnly_hitRow hu _ cw)).trans
      (List.foldlRecOn _ _ (motive := fun x => Dev.SramOnly _ x) (.refl _) fun x hx y _ => hx.trans (Dev.sramOnly_hitLane hu x cw y))
  · exact h3

omit hu in
theorem Dev.sramOnly_decodeCw {cw : Nat} (hc : sramBase ≤ cw) : d.SramOnly (d.decodeCw u cw).1 := by
  unfold Dev.decodeCw
  split
  · dsimp only
    split
    · exact .of_same rfl rfl rfl
    · exact .of_writeN hc rfl rfl rfl
  · exact .refl d

end

theorem Dev.sramOnly_merge (d : Dev) (req : Nat) {cw : Nat} (hc : sramBase ≤ cw) : d.SramOnly (d.merge req cw) := by
  unfold Dev.merge
  split
  · exact .refl d
  · next u hu =>
    have hk := unitKey_of_sramBase_le hc hu
    split
    · exact .refl d
    · have h := (d.sramOnly_countOdc hk cw).trans (Dev.sramOnly_decodeCw (u := u) _ hc)
      split
      · next e _ he => rw [he] at h; exact h.trans (e.sramOnly_correctCw hk req cw _)
      · next e he => rw [he] at h; exact (Dev.SramOnly.trans (b := e) (c := e.poisonCw cw) h (.of_same rfl rfl rfl)).trans (Dev.sramOnly_queueRow hk (e.poisonCw cw) cw false)
      · next e _ _ _ he => rw [he] at h; exact h

theorem Dev.foreign_sram (d : Dev) {a : Nat} (h : sramBase ≤ a) (n : Nat) : d.foreign a n = [] := if_neg fun k => Nat.not_lt.mpr h k.2

theorem Dev.sramOnly_cover (d : Dev) (req : Nat) {a : Nat} (h : sramBase ≤ a) (n : Nat) : d.SramOnly (d.cover req a n) := by
  have hnote : d.SramOnly (d.note req a n) := by
    unfold Dev.note
    split
    · exact .refl d
    · exact .of_same rfl rfl rfl
  have hfirst := sramBase_le_cwOf h
  have hlast : n ≠ 0 → sramBase ≤ cwOf (a + n - 1) := fun hn => sramBase_le_cwOf (by omega)
  unfold Dev.cover
  split
  · exact .refl d
  · next hn =>
    dsimp only
    rw [Dev.seal, if_pos (Dev.foreign_sram _ h n)]
    refine hnote.trans ?_
    generalize Dev.note req a n d = e
    have h0 : e.SramOnly { e with poison := e.poison.filter fun c => !(a ≤ c && c + cwBytes c ≤ a + n),
                                  upsets := Map.delIf e.upsets fun c => a ≤ c && c + cwBytes c ≤ a + n } := .of_same rfl rfl rfl
    split <;> split
    · exact h0
    · exact h0.trans (Dev.sramOnly_merge _ req hfirst)
    · exact h0.trans (Dev.sramOnly_merge _ req (hlast hn))
    · exact (h0.trans (Dev.sramOnly_merge _ req hfirst)).trans (Dev.sramOnly_merge _ req (hlast hn))

theorem Dev.sramOnly_writeBytes (d : Dev) (req : Nat) {a : Nat} (h : sramBase ≤ a) (bs : List Byte) : d.SramOnly (d.writeBytes req a bs) :=
  (d.sramOnly_cover req h bs.length).trans (.of_writeN h rfl rfl rfl)

end Sys2Proof.Machine
end

section
/-! SUPPORT. The boot code of the next die is loaded and starts (R211, R501). -/

namespace Sys2Proof.Machine

theorem Mem.read_filter (d : Byte) (m : Mem) (p : Nat → Bool) (x : Nat) :
    Mem.read d (m.filter fun c => !p c.1) x = if p x then d else Mem.read d m x := by
  induction m with
  | nil => simp [Mem.read]
  | cons e t ih =>
    obtain ⟨a, b⟩ := e
    rw [List.filter_cons, Mem.read]
    cases ha : p a with
    | true =>
      rw [if_neg (by simp), ih]
      by_cases hx : a = x
      · subst hx; rw [if_pos ha, if_pos ha]
      · rw [if_neg hx]
    | false =>
      rw [if_pos (by simp), Mem.read, ih]
      by_cases hx : a = x
      · subst hx; rw [if_pos rfl, if_pos rfl, if_neg (by simp [ha])]
      · rw [if_neg hx, if_neg hx]

/-- A fill of a unit leaves zeros in what it holds and nothing else. -/
theorem Dev.byte_wipeIf (p : Nat → Bool) (d : Dev) (a : Nat) : (d.wipeIf p).byte a = if p a then 0 else d.byte a :=
  Mem.read_filter memDefault d.mem p a

/-- Changes of SRAM, clusters and the work of their rings: LDs keep their layout and state, and the start and the dies stay. -/
structure Dev.CodeOnly (d d' : Dev) : Prop where
  sram : d.SramOnly d'
  seeds : d'.keySeeds = d.keySeeds
  boot : d'.boot = d.boot
  dies : d'.dies = d.dies
  lay : ∀ n, (d'.ld n).lay = (d.ld n).lay
  ctl : ∀ n, (d'.ld n).ctl = (d.ld n).ctl

theorem Dev.CodeOnly.trans {a b c : Dev} (h : a.CodeOnly b) (k : b.CodeOnly c) : a.CodeOnly c where
  sram := h.sram.trans k.sram
  seeds := k.seeds.trans h.seeds
  boot := k.boot.trans h.boot
  dies := k.dies.trans h.dies
  lay n := (k.lay n).trans (h.lay n)
  ctl n := (k.ctl n).trans (h.ctl n)

theorem Dev.codeOnly_writeBytes (d : Dev) (req : Nat) {a : Nat} (h : sramBase ≤ a) (bs : List Byte) : d.CodeOnly (d.writeBytes req a bs) := by
  obtain ⟨hf, hl, -⟩ := d.memFrame_writeBytes req a bs
  refine ⟨d.sramOnly_writeBytes req h bs, ?_, ?_, ?_, fun n => ?_, fun n => ?_⟩
  · rw [hf]
  · rw [hf]
  · rw [hf]
  · rw [hl]
  · rw [hl]

theorem Dev.codeOnly_modClu (n : Nat) (f : Cluster → Cluster) (d : Dev) : d.CodeOnly (d.modClu n f) :=
  ⟨.of_same rfl rfl rfl, rfl, rfl, rfl, fun _ => rfl, fun _ => rfl⟩

theorem sramBase_le_ringAddr (k : RingKind) (n : Nat) : sramBase ≤ ringAddr k n := by
  cases k <;> unfold ringAddr dieSramAddr <;> dsimp only <;> omega

theorem Dev.codeOnly_clearRings (n : Nat) (d : Dev) : d.CodeOnly (d.clearRings n) := by
  have hw := fun (e : Dev) k o bs => e.codeOnly_writeBytes reqEng (Nat.le_add_right_of_le (k := o) (sramBase_le_ringAddr k n)) bs
  have h0 : d.CodeOnly (d.orphanRing n) := ⟨.of_same rfl rfl rfl, rfl, rfl, rfl, fun _ => rfl, fun _ => rfl⟩
  have h1 := (h0.trans (hw _ .kv 0x380 (zeros 4))).trans (hw _ .kv 0x3C0 (zeros (8 + 4 * ringSize .kv)))
  have h2 := (h1.trans (hw _ .col 0x380 (zeros 4))).trans (hw _ .col 0x3C0 (zeros (8 + 4 * ringSize .col)))
  unfold Dev.clearRings
  exact h2.trans (Dev.codeOnly_modClu n _ _)

/-- Boot code stands in the store of a cluster of a die and starts there. -/
def Dev.bootCluster (n dom : Nat) (code : List Byte) (d : Dev) (k : Nat) : Dev :=
  let c := 256 * n + k
  (({ d with mem := Mem.writeN memDefault d.mem (storeAddr c 0) code } : Dev).clearRings c).enterProgram c dom .boot (entryRegs 0 k c)

theorem sramBase_le_storeAddr (c o : Nat) : sramBase ≤ storeAddr c o := by unfold storeAddr; omega

theorem Dev.codeOnly_bootCluster (n dom : Nat) (code : List Byte) (d : Dev) (k : Nat) : d.CodeOnly (d.bootCluster n dom code k) := by
  have h0 : d.CodeOnly { d with mem := Mem.writeN memDefault d.mem (storeAddr (256 * n + k) 0) code } :=
    ⟨.of_writeN (sramBase_le_storeAddr _ 0) rfl rfl rfl, rfl, rfl, rfl, fun _ => rfl, fun _ => rfl⟩
  unfold Dev.bootCluster Dev.enterProgram
  exact (h0.trans (Dev.codeOnly_clearRings _ _)).trans (Dev.codeOnly_modClu _ _ _)

theorem lt_sramBase_not_inUnit_dieSram {a : Nat} (h : a < sramBase) (n : Nat) : inUnit (.dieSram n) a = false := by
  have hp : (∀ c o, placeOf a ≠ .dieSram c o) ∧ (∀ c o, placeOf a ≠ .store c o) ∧ ∀ c k o, placeOf a ≠ .ocache c k o := by
    unfold placeOf
    rw [if_pos h]
    dsimp only
    repeat' split
    all_goals exact ⟨nofun, nofun, nofun⟩
  obtain ⟨h1, h2, h3⟩ := hp
  unfold inUnit unitOf
  cases e : placeOf a with
  | dieSram c o => exact absurd e (h1 c o)
  | store c o => exact absurd e (h2 c o)
  | ocache c k o => exact absurd e (h3 c k o)
  | _ => rfl

/-- A die whose boot code begins. -/
def Die.begin (now : W64) (n : Nat) (x : Die) : Die := { x with booting := true, bootAt := now, bootLeft := (List.range 256).map (256 * n + ·) }

theorem Dev.beginDie_none {d : Dev} (h : d.nextDie = none) (now : W64) : d.beginDie now = d := by rw [Dev.beginDie, h]

theorem Dev.beginDie_some {d : Dev} {n : Nat} (h : d.nextDie = some n) (now : W64) :
    ((d.wipeIf (inUnit (.dieSram n))).modDie n (Die.begin now n)).CodeOnly (d.beginDie now) := by
  rw [Dev.beginDie, h]
  exact List.foldlRecOn _ _ (motive := fun e : Dev => ((d.wipeIf (inUnit (.dieSram n))).modDie n (Die.begin now n)).CodeOnly e)
    ⟨.refl _, rfl, rfl, rfl, fun _ => rfl, fun _ => rfl⟩ fun e he k _ => he.trans (Dev.codeOnly_bootCluster n _ _ e k)

end Sys2Proof.Machine
end

section
/-! SUPPORT. What the end of the Silmuvin stage does with a device whose channels have been tested (R211, R485, R501, R502). -/

namespace Sys2Proof.Machine

/-- Changes of LDs that keep their layout and state, of domains, of ports, and of what the noise source has given. -/
structure Dev.Opens (d d' : Dev) : Prop where
  frame : d' = { d with lds := d'.lds, domains := d'.domains, crypto := d'.crypto, free := d'.free, ports := d'.ports }
  lay : ∀ n, (d'.ld n).lay = (d.ld n).lay
  st : ∀ n, (d'.ld n).ctl.st = (d.ld n).ctl.st

theorem Dev.Opens.refl (d : Dev) : d.Opens d := ⟨rfl, fun _ => rfl, fun _ => rfl⟩

theorem Dev.Opens.trans {a b c : Dev} (h : a.Opens b) (k : b.Opens c) : a.Opens c where
  frame := by rw [k.frame, h.frame]
  lay n := (k.lay n).trans (h.lay n)
  st n := (k.st n).trans (h.st n)

theorem Dev.Opens.of_modLd (d : Dev) (k : Nat) {f : Ld → Ld} (hl : ∀ l, (f l).lay = l.lay) (hs : ∀ l, (f l).ctl.st = l.ctl.st) : d.Opens (d.modLd k f) :=
  ⟨rfl, Dev.ld_modLd_keeps Ld.lay hl d k, Dev.ld_modLd_keeps (fun l => l.ctl.st) hs d k⟩

theorem Dev.opens_openControl (ld : Nat) (d : Dev) : d.Opens (d.openControl ld) := ⟨rfl, fun _ => rfl, fun _ => rfl⟩

theorem Dev.opens_secEvtAll (b : Nat) (d : Dev) : d.Opens (d.secEvtAll b) :=
  List.foldlRecOn _ _ (motive := fun e : Dev => d.Opens e) (.refl d) fun _ he k _ => he.trans (.of_modLd _ k (fun _ => rfl) fun _ => rfl)

theorem Dev.ctl_secEvtAll (b : Nat) (d : Dev) (n : Nat) : ((d.secEvtAll b).ld n).ctl = (d.ld n).ctl :=
  Dev.ld_foldl_modLd_keeps Ld.ctl (fun k => k) (by intros; rfl) _ d n

theorem State.certify_opens (s : State) : s.dev.Opens s.certify.dev ∧ (∀ n, (s.certify.dev.ld n).ctl = (s.dev.ld n).ctl) ∧ s.sameQueue s.certify := by
  have hc : ∀ c f, s.dev.Opens { s.dev with crypto := c, free := f } := fun c f => ⟨rfl, fun _ => rfl, fun _ => rfl⟩
  unfold State.certify
  dsimp only
  split
  · exact ⟨(hc _ _).trans (Dev.opens_secEvtAll 4 _), Dev.ctl_secEvtAll 4 _, rfl, rfl⟩
  · have h2 := fun c f => (hc c f).trans (Dev.opens_secEvtAll 2 _)
    refine ⟨?_, fun n => ?_, rfl, rfl⟩
    · split
      · exact (h2 _ _).trans (Dev.opens_secEvtAll 3 _)
      · exact h2 _ _
    · split
      · exact (Dev.ctl_secEvtAll 3 _ n).trans (Dev.ctl_secEvtAll 2 _ n)
      · exact Dev.ctl_secEvtAll 2 _ n

theorem Dev.opens_wakePorts (ld : Nat) (d : Dev) : d.Opens (d.wakePorts ld) ∧ ∀ n, (d.wakePorts ld).ld n = d.ld n := by
  refine List.foldlRecOn _ _ (motive := fun e : Dev => d.Opens e ∧ ∀ n, e.ld n = d.ld n) ⟨.refl d, fun _ => rfl⟩ fun e he k _ => ?_
  unfold Dev.portWake
  dsimp only
  split
  · exact ⟨he.1.trans ⟨rfl, fun _ => rfl, fun _ => rfl⟩, he.2⟩
  · exact he

theorem Dev.opens_defaultTrellis (ld : Nat) (d : Dev) :
    d.Opens (d.defaultTrellis ld) ∧ ∀ n, ((d.defaultTrellis ld).ld n).ctl.service = (d.ld n).ctl.service := by
  unfold Dev.defaultTrellis
  split
  · exact ⟨.refl d, fun _ => rfl⟩
  · dsimp only
    split
    · exact ⟨.of_modLd d ld (fun _ => rfl) fun _ => rfl, Dev.ld_modLd_keeps (fun l => l.ctl.service) (by intros; rfl) d ld⟩
    · have h1 := fun t => Dev.Opens.of_modLd d ld (f := fun l => { l with trl := { l.trl with slot0 := t } }) (fun _ => rfl) fun _ => rfl
      exact ⟨(h1 _).trans (.of_modLd _ ld (fun _ => rfl) fun _ => rfl), fun n =>
        (Dev.ld_modLd_keeps (fun l => l.ctl.service) (by intros; rfl) _ ld n).trans (Dev.ld_modLd_keeps (fun l => l.ctl.service) (by intros; rfl) d ld n)⟩

theorem Dev.opens_reachLevel1 (ld : Nat) (d : Dev) : d.Opens (d.reachLevel1 ld) := by
  unfold Dev.reachLevel1
  split
  · refine Dev.Opens.trans (Dev.Opens.trans ?_ (Dev.opens_defaultTrellis ld _).1) (Dev.opens_wakePorts ld _).1
    exact (d.opens_openControl ld).trans (.of_modLd _ ld (by intros; rfl) (by intros; rfl))
  · exact .refl d

theorem Dev.service_reachLevel1 (ld : Nat) (d : Dev) (n : Nat) : ((d.reachLevel1 ld).ld n).ctl.service =
    if n = ld ∧ d.ready1 ld = true ∧ (d.ld ld).ctl.st = .enabled then 1 else (d.ld n).ctl.service := by
  unfold Dev.reachLevel1
  split
  · next h =>
    rw [(Dev.opens_wakePorts ld _).2, (Dev.opens_defaultTrellis ld _).2, Dev.ld_modLd]
    split
    · next e => rw [if_pos ⟨e, h⟩]; rfl
    · next e => rw [if_neg fun k => e k.1]; rfl
  · next h => rw [if_neg fun k => h k.2]

end Sys2Proof.Machine
end

section
/-! SUPPORT. The end of the Silmuvin stage (R211, R501, R502). -/

namespace Sys2Proof.Machine

/-! ## What the opening of the device keeps -/

/-- The dies and LDs of two devices from which the next die follows are the same. -/
structure Dev.SameJoins (d d' : Dev) : Prop where
  stage : d'.boot.stage = d.boot.stage
  image : d'.boot.image = d.boot.image
  dies : d'.dies = d.dies
  lay : ∀ n, (d'.ld n).lay = (d.ld n).lay
  st : ∀ n, (d'.ld n).ctl.st = (d.ld n).ctl.st

theorem Dev.compute_congr {d d' : Dev} (h : ∀ n, (d'.ld n).lay = (d.ld n).lay) : d'.compute = d.compute := by
  unfold Dev.compute
  simp only [h]

theorem Dev.die_congr {d d' : Dev} (h : d'.dies = d.dies) (n : Nat) : d'.die n = d.die n := by rw [Dev.die, Dev.die, h]

theorem Dev.SameJoins.nextDie {d d' : Dev} (h : d.SameJoins d') : d'.nextDie = d.nextDie := by
  unfold Dev.nextDie
  simp only [h.stage, h.image, h.st, Dev.die_congr h.dies, Dev.ldOfDie_congr h.lay]

theorem Dev.excluded_congr {d d' : Dev} (h : d'.boot.image = d.boot.image) (u : MemUnit) : d'.excluded u = d.excluded u := by
  cases u <;> simp only [Dev.excluded, h]

theorem Dev.ready1_congr {d d' : Dev} (hb : d'.boot.held = d.boot.held) (hi : d'.boot.image = d.boot.image)
    (hu : ∀ c < 24, (d'.unit (.channel c)).inService = (d.unit (.channel c)).inService) (n : Nat) (hl : (d'.ld n).lay = (d.ld n).lay) :
    d'.ready1 n = d.ready1 n := by
  unfold Dev.ready1
  rw [hb, hl]
  congr 1
  rw [Bool.eq_iff_iff, List.all_eq_true, List.all_eq_true]
  refine forall_congr' fun c => forall_congr' fun hc => ?_
  rw [Dev.excluded_congr hi, hu c (List.mem_range.mp hc)]

section
variable {d d' : Dev} (h : d.Opens d')
include h

theorem Dev.Opens.boot : d'.boot = d.boot := by rw [h.frame]
theorem Dev.Opens.dies : d'.dies = d.dies := by rw [h.frame]
theorem Dev.Opens.units : d'.units = d.units := by rw [h.frame]
theorem Dev.Opens.sram : d.SramOnly d' := .of_same (by rw [h.frame]) h.units (by rw [h.frame])
theorem Dev.Opens.joins : d.SameJoins d' := ⟨by rw [h.boot], by rw [h.boot], h.dies, h.lay, h.st⟩
theorem Dev.Opens.ready1 (n : Nat) : d'.ready1 n = d.ready1 n :=
  Dev.ready1_congr (by rw [h.boot]) (by rw [h.boot]) (fun c _ => by rw [Dev.unit, Dev.unit, h.units]) n (h.lay n)

end

/-! ## What the rest of the start keeps -/

/-- Once the channels of a start have come up, the rest of it leaves LPDDR5X, its units and keys, the failures of the start,
and the layouts and states of LDs. -/
structure Dev.Settled (d d' : Dev) : Prop where
  sram : d.SramOnly d'
  seeds : d'.keySeeds = d.keySeeds
  boot : ∃ a b r, d'.boot = { d.boot with level2 := a, l2At := b, rec_ := r }
  lay : ∀ n, (d'.ld n).lay = (d.ld n).lay
  st : ∀ n, (d'.ld n).ctl.st = (d.ld n).ctl.st

theorem Dev.Settled.trans {a b c : Dev} (h : a.Settled b) (k : b.Settled c) : a.Settled c where
  sram := h.sram.trans k.sram
  seeds := k.seeds.trans h.seeds
  boot := by
    obtain ⟨_, _, _, hb⟩ := h.boot
    obtain ⟨_, _, _, kb⟩ := k.boot
    exact ⟨_, _, _, by rw [kb, hb]⟩
  lay n := (k.lay n).trans (h.lay n)
  st n := (k.st n).trans (h.st n)

theorem Dev.Opens.settled {d d' : Dev} (h : d.Opens d') : d.Settled d' :=
  ⟨h.sram, by rw [h.frame], ⟨_, _, _, h.boot⟩, h.lay, h.st⟩

theorem Dev.CodeOnly.settled {d d' : Dev} (h : d.CodeOnly d') : d.Settled d' :=
  ⟨h.sram, h.seeds, ⟨_, _, _, h.boot⟩, h.lay, fun n => by rw [h.ctl]⟩

theorem Dev.settled_wipeDie (d : Dev) (n : Nat) (f : Die → Die) : d.Settled ((d.wipeIf (inUnit (.dieSram n))).modDie n f) :=
  ⟨.of_mem (fun a ha => (Dev.byte_wipeIf _ d a).trans (if_neg (by rw [lt_sramBase_not_inUnit_dieSram ha n]; decide))) rfl rfl,
    rfl, ⟨_, _, _, rfl⟩, fun _ => rfl, fun _ => rfl⟩

/-- The start of a die keeps the LDs' registers. -/
theorem Dev.settled_beginDie (now : W64) (d : Dev) : d.Settled (d.beginDie now) ∧ ∀ n, ((d.beginDie now).ld n).ctl = (d.ld n).ctl := by
  cases h : d.nextDie with
  | none =>
    rw [Dev.beginDie_none h]
    exact ⟨(Dev.Opens.refl d).settled, fun _ => rfl⟩
  | some n =>
    have hc := Dev.beginDie_some h now
    exact ⟨(d.settled_wipeDie n _).trans hc.settled, hc.ctl⟩

theorem State.settled_levels (s : State) : s.dev.Settled s.levels.dev ∧ s.levels.dev.dies = s.dev.dies ∧ s.sameQueue s.levels ∧
    s.levels.vault.leaves = s.vault.leaves ∧ ∀ n, s.levels.dev.ld n = s.dev.risen.ld n := by
  obtain ⟨v, a, b, r, h, hv⟩ := s.levels_frame
  have hr := s.dev.risen_frame
  rw [h]
  refine ⟨⟨?_, ?_, ⟨a, b, r, rfl⟩, Dev.ld_risen_keeps Ld.lay (fun _ _ => rfl) (fun _ _ => rfl) s.dev,
    Dev.ld_risen_keeps (fun l => l.ctl.st) (fun _ _ => rfl) (fun _ _ => rfl) s.dev⟩, ?_, ⟨rfl, rfl⟩, hv, fun _ => rfl⟩
  · refine .of_same ?_ ?_ ?_
    · exact (by rw [hr] : s.dev.risen.mem = s.dev.mem)
    · exact (by rw [hr] : s.dev.risen.units = s.dev.units)
    · exact (by rw [hr] : s.dev.risen.lpKeys = s.dev.lpKeys)
  · exact (by rw [hr] : s.dev.risen.keySeeds = s.dev.keySeeds)
  · exact (by rw [hr] : s.dev.risen.dies = s.dev.dies)

/-! ## The end of the stage -/

/-- The control domains open, the LDs that may reach level 1 do, and the next die begins. -/
def State.silmuvinEnd (all : List Nat) (s : State) : State :=
  let s : State := { s with dev := s.dev.openControl 15 }
  let s := s.certify
  let d := all.foldl (fun d n => d.reachLevel1 n) s.dev
  ({ s with dev := d.beginDie s.now } : State).levels

/-- The device whose LDs have reached level 1. -/
def State.level1Dev (all : List Nat) (s : State) : Dev :=
  all.foldl (fun d n => d.reachLevel1 n) ({ s with dev := s.dev.openControl 15 } : State).certify.dev

theorem State.opens_level1Dev (all : List Nat) (s : State) : s.dev.Opens (s.level1Dev all) := by
  have h := ({ s with dev := s.dev.openControl 15 } : State).certify_opens.1
  exact List.foldlRecOn _ _ (motive := fun e : Dev => s.dev.Opens e) ((s.dev.opens_openControl 15).trans h) fun e he k _ =>
    he.trans (Dev.opens_reachLevel1 k e)

theorem State.ctl_opened (s : State) (n : Nat) : ((({ s with dev := s.dev.openControl 15 } : State).certify.dev).ld n).ctl = (s.dev.ld n).ctl :=
  ({ s with dev := s.dev.openControl 15 } : State).certify_opens.2.1 n

section
variable (all : List Nat) (s : State) (n : Nat)

/-- An LD that may not reach level 1 keeps its level. -/
theorem State.service_level1Dev_held (h : s.dev.ready1 n = false) : ((s.level1Dev all).ld n).ctl.service = (s.dev.ld n).ctl.service := by
  have h0 := (s.dev.opens_openControl 15).trans ({ s with dev := s.dev.openControl 15 } : State).certify_opens.1
  refine (List.foldlRecOn _ _ (motive := fun e : Dev => s.dev.Opens e ∧ (e.ld n).ctl.service = (s.dev.ld n).ctl.service)
    ⟨h0, by rw [s.ctl_opened]⟩ fun e he k _ => ⟨he.1.trans (Dev.opens_reachLevel1 k e), ?_⟩).2
  rw [Dev.service_reachLevel1, if_neg, he.2]
  rintro ⟨rfl, hr, -⟩
  rw [he.1.ready1, h] at hr
  cases hr

/-- An LD that may reach level 1 does. -/
theorem State.service_level1Dev_ready (hn : n ∈ all) (h : s.dev.ready1 n = true) (hs : (s.dev.ld n).ctl.st = .enabled) :
    1 ≤ ((s.level1Dev all).ld n).ctl.service := by
  have h0 := (s.dev.opens_openControl 15).trans ({ s with dev := s.dev.openControl 15 } : State).certify_opens.1
  refine foldl_establishes (P := fun e : Dev => 1 ≤ (e.ld n).ctl.service) (I := fun e : Dev => s.dev.Opens e) hn
    (fun e k he => he.trans (Dev.opens_reachLevel1 k e)) (fun e he => ?_) (fun e k he hp => ?_) h0
  · rw [Dev.service_reachLevel1, if_pos ⟨rfl, by rw [he.ready1, h], by rw [he.st, hs]⟩]
  · rw [Dev.service_reachLevel1]
    split
    · exact Nat.le_refl 1
    · exact hp

/-- The end of the stage, seen from the LDs at level 1. -/
theorem State.silmuvinEnd_settled : (s.level1Dev all).Settled (s.silmuvinEnd all).dev ∧ s.sameQueue (s.silmuvinEnd all) := by
  obtain ⟨h, -, hq, -, -⟩ := State.settled_levels { ({ s with dev := s.dev.openControl 15 } : State).certify with
    dev := (s.level1Dev all).beginDie ({ s with dev := s.dev.openControl 15 } : State).certify.now }
  have hc := ({ s with dev := s.dev.openControl 15 } : State).certify_opens.2.2
  exact ⟨(Dev.settled_beginDie _ _).1.trans h, State.sameQueue.trans (State.sameQueue.trans ⟨rfl, rfl⟩ hc) (State.sameQueue.trans ⟨rfl, rfl⟩ hq)⟩

theorem State.silmuvinEnd_ld : ∃ d : Dev, (∀ k, (d.ld k).ctl = ((s.level1Dev all).ld k).ctl) ∧ ∀ k, (s.silmuvinEnd all).dev.ld k = d.risen.ld k := by
  obtain ⟨-, -, -, -, hl⟩ := State.settled_levels { ({ s with dev := s.dev.openControl 15 } : State).certify with
    dev := (s.level1Dev all).beginDie ({ s with dev := s.dev.openControl 15 } : State).certify.now }
  exact ⟨_, (Dev.settled_beginDie _ _).2, hl⟩

theorem State.silmuvinEnd_held (hn : n ≠ 15) (h : s.dev.ready1 n = false) (h0 : (s.dev.ld n).ctl.service = 0) :
    ((s.silmuvinEnd all).dev.ld n).ctl.service = 0 := by
  obtain ⟨d, hc, hl⟩ := s.silmuvinEnd_ld all
  have hd : (d.ld n).ctl.service = 0 := by rw [hc, s.service_level1Dev_held all n h, h0]
  rw [hl]
  rcases d.service_risen hn with e | e
  · rw [e, hd]
  · rw [hd] at e
    cases e.1

theorem State.silmuvinEnd_ready (hn : n ≠ 15) (hm : n ∈ all) (h : s.dev.ready1 n = true) (hs : (s.dev.ld n).ctl.st = .enabled) :
    1 ≤ ((s.silmuvinEnd all).dev.ld n).ctl.service := by
  obtain ⟨d, hc, hl⟩ := s.silmuvinEnd_ld all
  have hd : 1 ≤ (d.ld n).ctl.service := by rw [hc]; exact s.service_level1Dev_ready all n hm h hs
  rw [hl]
  rcases d.service_risen hn with e | e
  · rw [e]; exact hd
  · rw [e.2]; decide

theorem State.silmuvinEnd_begins (h : s.dev.nextDie = some n) : ((s.silmuvinEnd all).dev.die n).booting = true := by
  have hn : (s.level1Dev all).nextDie = some n := (s.opens_level1Dev all).joins.nextDie.trans h
  obtain ⟨-, hd, -⟩ := State.settled_levels { ({ s with dev := s.dev.openControl 15 } : State).certify with
    dev := (s.level1Dev all).beginDie ({ s with dev := s.dev.openControl 15 } : State).certify.now }
  refine (congrArg Die.booting (Dev.die_congr hd n)).trans ?_
  rw [Dev.die_congr (Dev.beginDie_some hn _).dies, Dev.die_modDie_same]
  rfl

end

end Sys2Proof.Machine
end

section
/-! SUPPORT. The memories come up in the Silmuvin stage (R203, R210 to R212, R501). -/

namespace Sys2Proof.Machine

/-! ## The stage in its parts -/

/-- The I/O-die SRAM comes up once fresh keys are in the key store. -/
def State.sramUp (iod0 iod1 : SramTest) (s : State) : Dev :=
  let d := ({ s.dev with boot := { s.dev.boot with stage := .up }, lpKeys := [] } : Dev).freshKeys 16 4096
  (d.bringUpSram s.vault (.iodSram 0) iod0).bringUpSram s.vault (.iodSram 1) iod1

/-- The channels that the image does not exclude. -/
def Dev.usedChans (d : Dev) : List Nat := (List.range 24).filter fun c => !d.excluded (.channel c)

/-- Those channels come up. -/
def Dev.chansUp (lp : List (Nat × DramTest)) (lpFree : List Nat) (d : Dev) : Dev :=
  d.usedChans.foldl (fun d c => d.bringUpDram (.channel c) (chanTest lp c) (lpFree.getD c 0)) d

/-- The memories of Silmuvin have come up. -/
def State.memUp (iod0 iod1 : SramTest) (lp : List (Nat × DramTest)) (lpFree : List Nat) (s : State) : Dev := (s.sramUp iod0 iod1).chansUp lp lpFree

/-- The channels that failed. -/
def State.badChans (iod0 iod1 : SramTest) (lp : List (Nat × DramTest)) (lpFree : List Nat) (s : State) : List Nat :=
  (s.sramUp iod0 iod1).usedChans.filter fun c => ((s.memUp iod0 iod1 lp lpFree).unit (.channel c)).failed

/-- A failure that holds every LD is noted, and every LD has a new incarnation. -/
def Dev.incarnated (bad : List Nat) (d : Dev) : Dev :=
  let ok := fun i => !(d.unit (.iodSram i)).failed
  let d : Dev := { d with boot := { d.boot with held := d.boot.held || !ok 0 || !ok 1 || bad.any d.areaChannels.contains } }
  d.compute.foldl (fun d n => let (d, f) := d.draw; d.modFab n fun x => { x with inc := BitVec.ofNat 32 f }) d

/-- The LDs that a failed channel holds back. -/
def Dev.heldOf (d : Dev) (c : Nat) : List Nat :=
  if d.areaChannels.contains c then d.compute else if d.ldOfChan c < 10 then [d.ldOfChan c] else []

/-- The failures of the units of Silmuvin. -/
def State.unitsFail (ok0 ok1 : Bool) (bad : List Nat) (s : State) : State :=
  let d := s.dev
  let all := d.compute
  let s := if ok0 then s else s.startFail eSelftest (unitDetail 3 0) all
  let s := if ok1 then s else s.startFail eSelftest (unitDetail 3 1) all
  let s := if s.dev.pins.clkCas then s else s.startFail eSelftest (unitDetail 1 0) all
  bad.foldl (fun s c => s.startFail eSelftest (unitDetail 1 c) (d.heldOf c)) s

section
variable (i0 i1 : SramTest) (lp : List (Nat × DramTest)) (free : List Nat) {s : State}

theorem State.silmuvinStage_waits (h : s.dev.boot.stage ≠ .silmuvin ∨ s.dev.crypto.drbgFail = true) : s.silmuvinStage i0 i1 lp free = s := if_pos h

/-- The state in which the failures of a stage are reported. -/
def State.tested (i0 i1 : SramTest) (lp : List (Nat × DramTest)) (free : List Nat) (s : State) : State :=
  { s with dev := (s.memUp i0 i1 lp free).incarnated (s.badChans i0 i1 lp free) }

theorem State.silmuvinStage_runs (h : s.dev.boot.stage = .silmuvin) (hf : s.dev.crypto.drbgFail = false) :
    s.silmuvinStage i0 i1 lp free =
      let u := s.memUp i0 i1 lp free
      let t := (s.tested i0 i1 lp free).unitsFail (!(u.unit (.iodSram 0)).failed) (!(u.unit (.iodSram 1)).failed) (s.badChans i0 i1 lp free)
      if t.dev.boot.stage = .fallow then t else t.silmuvinEnd (s.tested i0 i1 lp free).dev.compute :=
  if_neg (by simp [h, hf])

end

end Sys2Proof.Machine
end

section
/-! SUPPORT. What the tests of the memories leave in a device (R203, R210 to R212). -/

namespace Sys2Proof.Machine

/-- What tests and fills of memory units change: units, bytes with their errors, and the error events of LDs. -/
structure Dev.Tests (d d' : Dev) : Prop where
  frame : d' = { d with lds := d'.lds, units := d'.units, mem := d'.mem, poison := d'.poison, upsets := d'.upsets }
  lay : ∀ n, (d'.ld n).lay = (d.ld n).lay
  ctl : ∀ n, (d'.ld n).ctl = (d.ld n).ctl

theorem Dev.Tests.refl (d : Dev) : d.Tests d := ⟨rfl, fun _ => rfl, fun _ => rfl⟩

theorem Dev.Tests.trans {a b c : Dev} (h : a.Tests b) (k : b.Tests c) : a.Tests c where
  frame := by rw [k.frame, h.frame]
  lay n := (k.lay n).trans (h.lay n)
  ctl n := (k.ctl n).trans (h.ctl n)

section
variable (u : MemUnit) (d : Dev)

theorem Dev.tests_modUnit (f : Unit → Unit) : d.Tests (d.modUnit u f) := ⟨rfl, fun _ => rfl, fun _ => rfl⟩

theorem Dev.tests_wipeIf (p : Nat → Bool) : d.Tests (d.wipeIf p) := ⟨rfl, fun _ => rfl, fun _ => rfl⟩

theorem Dev.tests_eccEvt (b : Nat) : d.Tests (d.eccEvt u b) ∧ (d.eccEvt u b).units = d.units ∧ (d.eccEvt u b).mem = d.mem := by
  have hl := (d.memFrame_eccEvt u b).2.1
  refine ⟨⟨?_, fun n => by rw [hl], fun n => by rw [hl]⟩, ?_⟩
  all_goals
    unfold Dev.eccEvt
    dsimp only
    split
  · rfl
  · rfl
  · exact ⟨rfl, rfl⟩
  · exact ⟨rfl, rfl⟩

theorem Dev.tests_bringUpSram (v : Vault) (t : SramTest) : d.Tests (d.bringUpSram v u t) :=
  ((d.tests_modUnit u _).trans (Dev.tests_wipeIf _ _)).trans (Dev.tests_modUnit u _ _)

theorem Dev.tests_testDram (t : DramTest) (free : Nat) : d.Tests (d.testDram u t free) := by
  have h := fun g => (d.tests_modUnit u _).trans (Dev.tests_modUnit u (d.tested u (dramOk u t && d.pins.clkCas)) g)
  unfold Dev.testDram
  dsimp only
  split
  · exact h _
  · exact (h _).trans (Dev.tests_eccEvt u _ 5).1

theorem Dev.tests_bringUpDram (t : DramTest) (free : Nat) : d.Tests (d.bringUpDram u t free) :=
  (d.tests_testDram u t free).trans (Dev.tests_wipeIf _ _)

/-! ## Units -/

/-- What a unit is once its test has ended. -/
def Unit.tested (u : MemUnit) (t : DramTest) (ok : Bool) (free : Nat) (x : Unit) : Unit :=
  { x with inService := ok, failed := !ok, free := free, lanes := movedPins u t, marked := leftPins u t }

theorem Dev.unit_bringUpDram_other (t : DramTest) (free : Nat) {v : MemUnit} (h : unitKey v ≠ unitKey u) : (d.bringUpDram u t free).unit v = d.unit v := by
  have he := fun e : Dev => (e.tests_eccEvt u 5).2.1
  have hm := fun (e : Dev) f => e.unit_modUnit_other f h
  change (d.testDram u t free).unit v = _
  unfold Dev.testDram Dev.tested
  dsimp only
  split
  · rw [hm, hm]
  · rw [Dev.unit, he]
    change Dev.unit _ v = _
    rw [hm, hm]

theorem Dev.unit_bringUpDram_same (t : DramTest) (free : Nat) (h : d.pins.clkCas = true) :
    (d.bringUpDram u t free).unit u = (d.unit u).tested u t (dramOk u t) free := by
  have he := fun e : Dev => (e.tests_eccEvt u 5).2.1
  change (d.testDram u t free).unit u = _
  unfold Dev.testDram Dev.tested
  dsimp only
  rw [h, Bool.and_true]
  split
  · rw [Dev.unit_modUnit_same, Dev.unit_modUnit_same]
    rfl
  · rw [Dev.unit, he]
    change Dev.unit _ u = _
    rw [Dev.unit_modUnit_same, Dev.unit_modUnit_same]
    rfl

theorem Dev.byte_bringUpDram (t : DramTest) (free : Nat) (a : Nat) :
    (d.bringUpDram u t free).byte a = if dramOk u t && d.pins.clkCas && inUnit u a then 0 else d.byte a := by
  have hb : (d.testDram u t free).byte a = d.byte a := by
    unfold Dev.testDram Dev.tested
    dsimp only
    split
    · rfl
    · rw [Dev.byte, (Dev.tests_eccEvt u _ 5).2.2]
      rfl
  rw [Dev.bringUpDram, Dev.byte_wipeIf, hb]

theorem Dev.unit_bringUpSram_other (v : Vault) (t : SramTest) {w : MemUnit} (h : unitKey w ≠ unitKey u) : (d.bringUpSram v u t).unit w = d.unit w := by
  rw [Dev.bringUpSram, Dev.unit_modUnit_other _ _ h]
  change (d.tested u (v.sramOk u t)).unit w = _
  exact Dev.unit_modUnit_other _ _ h

theorem Dev.failed_bringUpSram (v : Vault) (t : SramTest) : ((d.bringUpSram v u t).unit u).failed = !v.sramOk u t := by
  rw [Dev.bringUpSram, Dev.unit_modUnit_same]
  change ((d.tested u (v.sramOk u t)).unit u).failed = _
  rw [Dev.tested, Dev.unit_modUnit_same]

end

/-! ## Channels -/

/-- A channel that has come up or failed, as its test says. -/
structure ChanUp (lp : List (Nat × DramTest)) (free : List Nat) (c : Nat) (d : Dev) : Prop where
  inService : (d.unit (.channel c)).inService = dramOk (.channel c) (chanTest lp c)
  failed : (d.unit (.channel c)).failed = !dramOk (.channel c) (chanTest lp c)
  free : (d.unit (.channel c)).free = free.getD c 0
  lanes : (d.unit (.channel c)).lanes = movedPins (.channel c) (chanTest lp c)
  marked : (d.unit (.channel c)).marked = leftPins (.channel c) (chanTest lp c)
  zero : dramOk (.channel c) (chanTest lp c) = true → ∀ a, unitOf a = some (.channel c) → d.byte a = 0

theorem ChanUp.of_same {lp : List (Nat × DramTest)} {free : List Nat} {c : Nat} {d d' : Dev} (h : ChanUp lp free c d)
    (hu : d'.unit (.channel c) = d.unit (.channel c)) (hb : ∀ a, unitOf a = some (.channel c) → d'.byte a = d.byte a) : ChanUp lp free c d' where
  inService := by rw [hu, h.inService]
  failed := by rw [hu, h.failed]
  free := by rw [hu, h.free]
  lanes := by rw [hu, h.lanes]
  marked := by rw [hu, h.marked]
  zero ok a ha := by rw [hb a ha, h.zero ok a ha]

theorem Dev.chanUp_bringUpDram (lp : List (Nat × DramTest)) (free : List Nat) (c : Nat) {d : Dev} (h : d.pins.clkCas = true) :
    ChanUp lp free c (d.bringUpDram (.channel c) (chanTest lp c) (free.getD c 0)) := by
  have hu := d.unit_bringUpDram_same (.channel c) (chanTest lp c) (free.getD c 0) h
  refine ⟨by rw [hu]; rfl, by rw [hu]; rfl, by rw [hu]; rfl, by rw [hu]; rfl, by rw [hu]; rfl, fun ok a ha => ?_⟩
  rw [Dev.byte_bringUpDram, if_pos]
  simp [ok, h, inUnit, ha]

theorem ChanUp.bringUpDram {lp : List (Nat × DramTest)} {free : List Nat} {c : Nat} {d : Dev} (h : ChanUp lp free c d) (hp : d.pins.clkCas = true)
    (k : Nat) : ChanUp lp free c (d.bringUpDram (.channel k) (chanTest lp k) (free.getD k 0)) := by
  by_cases hk : k = c
  · subst hk
    exact Dev.chanUp_bringUpDram lp free k hp
  · refine h.of_same (d.unit_bringUpDram_other _ _ _ (by simp only [unitKey]; omega)) fun a ha => ?_
    rw [Dev.byte_bringUpDram, if_neg]
    simp only [inUnit, ha, Bool.and_eq_true, beq_iff_eq, Option.some.injEq, MemUnit.channel.injEq, not_and]
    exact fun _ e => hk e.symm

theorem Dev.chansUp_tests (lp : List (Nat × DramTest)) (free : List Nat) (d : Dev) : d.Tests (d.chansUp lp free) :=
  List.foldlRecOn _ _ (motive := fun e : Dev => d.Tests e) (.refl d) fun e he c _ => he.trans (Dev.tests_bringUpDram (.channel c) e _ _)

theorem Dev.chansUp_chanUp (lp : List (Nat × DramTest)) (free : List Nat) {d : Dev} (h : d.pins.clkCas = true) {c : Nat} (hc : c ∈ d.usedChans) :
    ChanUp lp free c (d.chansUp lp free) :=
  foldl_establishes (P := ChanUp lp free c) (I := fun e : Dev => e.pins.clkCas = true)
    (f := fun d c => d.bringUpDram (.channel c) (chanTest lp c) (free.getD c 0)) hc
    (fun e k he => (congrArg (fun x : Dev => x.pins.clkCas) (Dev.tests_bringUpDram (.channel k) e _ _).frame).trans he)
    (fun _ he => Dev.chanUp_bringUpDram lp free c he) (fun _ k he hp => hp.bringUpDram he k) h

theorem Dev.unit_chansUp_other (lp : List (Nat × DramTest)) (free : List Nat) (d : Dev) {v : MemUnit} (h : 64 ≤ unitKey v) :
    (d.chansUp lp free).unit v = d.unit v := by
  refine List.foldlRecOn _ _ (motive := fun e : Dev => e.unit v = d.unit v) rfl fun e he c hc => ?_
  have hc : c < 24 := List.mem_range.mp (List.mem_filter.mp hc).1
  have hk : unitKey (.channel c) = 32 + c := rfl
  rw [Dev.unit_bringUpDram_other _ _ _ _ (by omega), he]

end Sys2Proof.Machine
end

section
/-! SUPPORT. The failures of the Silmuvin stage, and the device that it tests (R212, R500, R503). -/

namespace Sys2Proof.Machine

/-! ## A state in which a start has failed -/

/-- A start that has failed, and nothing else of it but the marks of its LDs and the record. -/
structure State.Failed (code : Code) (detail : BitVec 8) (s t : State) : Prop where
  queue : s.sameQueue t
  frame : t.dev = { s.dev with lds := t.dev.lds, boot := t.dev.boot }
  boot : ∃ r, t.dev.boot = { s.dev.boot with failed := true, failCode := code, failDetail := detail, rec_ := r }
  lay : ∀ n, (t.dev.ld n).lay = (s.dev.ld n).lay
  st : ∀ n, (t.dev.ld n).ctl.st = (s.dev.ld n).ctl.st
  service : ∀ n, (t.dev.ld n).ctl.service = (s.dev.ld n).ctl.service

theorem State.failed_first (code : Code) (detail : BitVec 8) (hold : List Nat) {s : State} (h2 : s.dev.boot.level2 = false)
    (hf : s.dev.boot.failed = false) (hc : s.dev.startCount < 3) : s.Failed code detail (s.startFail code detail hold) := by
  obtain ⟨v, r, h, -⟩ := State.startFail_first_frame code detail hold h2 hf hc
  rw [h]
  refine ⟨⟨rfl, rfl⟩, ?_, ⟨r, rfl⟩, fun n => ?_, fun n => ?_, fun n => ?_⟩
  · rw [Dev.failMarked_frame]
  · exact s.dev.ld_failMarked code detail hold Ld.lay (fun _ _ => rfl) n (fun _ _ => rfl)
  · exact s.dev.ld_failMarked code detail hold (fun l => l.ctl.st) (fun _ _ => rfl) n (fun _ _ => rfl)
  · exact s.dev.ld_failMarked code detail hold (fun l => l.ctl.service) (fun _ _ => rfl) n (fun _ _ => rfl)

theorem State.Failed.again {code : Code} {detail : BitVec 8} {s t : State} (h : s.Failed code detail t) (c : Code) (d : BitVec 8) (hold : List Nat) :
    s.Failed code detail (t.startFail c d hold) := by
  obtain ⟨r, hb⟩ := h.boot
  have he := State.startFail_ended c d hold (s := t) (.inr (by rw [hb]))
  have hk := t.dev.heldBack_frame c hold
  rw [he]
  refine ⟨h.queue.trans ⟨rfl, rfl⟩, ?_, ⟨r, ?_⟩, fun n => ?_, fun n => ?_, fun n => ?_⟩
  · change t.dev.heldBack c hold = _
    rw [hk, h.frame]
  · exact (t.dev.heldBack_boot c hold).trans hb
  · exact (t.dev.ld_heldBack c hold Ld.lay (fun _ _ => rfl) n).trans (h.lay n)
  · exact (t.dev.ld_heldBack c hold (fun l => l.ctl.st) (fun _ _ => rfl) n).trans (h.st n)
  · exact (t.dev.ld_heldBack c hold (fun l => l.ctl.service) (fun _ _ => rfl) n).trans (h.service n)

theorem State.Failed.ready1 {code : Code} {detail : BitVec 8} {s t : State} (h : s.Failed code detail t) (n : Nat) : t.dev.ready1 n = s.dev.ready1 n := by
  obtain ⟨r, hb⟩ := h.boot
  exact Dev.ready1_congr (by rw [hb]) (by rw [hb]) (fun c _ => by rw [Dev.unit, Dev.unit, h.frame]) n (h.lay n)

/-! ## The tested device -/

/-- The device with fresh keys in its key store. -/
def State.keysUp (s : State) : Dev := ({ s.dev with boot := { s.dev.boot with stage := .up }, lpKeys := [] } : Dev).freshKeys 16 4096

/-- Whether the failures of a stage hold every LD. -/
def Dev.allHeld (bad : List Nat) (d : Dev) : Bool :=
  d.boot.held || !(!(d.unit (.iodSram 0)).failed) || !(!(d.unit (.iodSram 1)).failed) || bad.any d.areaChannels.contains

section
variable (i0 i1 : SramTest) (lp : List (Nat × DramTest)) (free : List Nat) (s : State)

theorem State.sramUp_tests : s.keysUp.Tests (s.sramUp i0 i1) :=
  (s.keysUp.tests_bringUpSram (.iodSram 0) s.vault i0).trans (Dev.tests_bringUpSram (.iodSram 1) _ s.vault i1)

theorem State.memUp_tests : s.keysUp.Tests (s.memUp i0 i1 lp free) := (s.sramUp_tests i0 i1).trans (Dev.chansUp_tests lp free _)

theorem State.failed_iodSram0 : ((s.memUp i0 i1 lp free).unit (.iodSram 0)).failed = !s.vault.sramOk (.iodSram 0) i0 := by
  rw [State.memUp, Dev.unit_chansUp_other _ _ _ (by decide), State.sramUp, Dev.unit_bringUpSram_other _ _ _ _ (by decide)]
  exact Dev.failed_bringUpSram (.iodSram 0) s.keysUp s.vault i0

theorem State.failed_iodSram1 : ((s.memUp i0 i1 lp free).unit (.iodSram 1)).failed = !s.vault.sramOk (.iodSram 1) i1 := by
  rw [State.memUp, Dev.unit_chansUp_other _ _ _ (by decide), State.sramUp]
  exact Dev.failed_bringUpSram (.iodSram 1) _ s.vault i1

theorem State.mem_usedChans {c : Nat} : c ∈ (s.sramUp i0 i1).usedChans ↔ c < 24 ∧ s.dev.excluded (.channel c) = false := by
  have hi : (s.sramUp i0 i1).boot.image = s.dev.boot.image := by rw [(s.sramUp_tests i0 i1).frame]; rfl
  rw [Dev.usedChans, List.mem_filter, List.mem_range, Dev.excluded_congr hi, Bool.not_eq_true']

end

/-- The incarnations of the LDs leave their layouts and registers. -/
theorem Dev.incarnated_opens (bad : List Nat) (d : Dev) :
    ({ d with boot := { d.boot with held := d.allHeld bad } } : Dev).Opens (d.incarnated bad) ∧ ∀ n, ((d.incarnated bad).ld n).ctl = (d.ld n).ctl :=
  List.foldlRecOn ({ d with boot := { d.boot with held := d.allHeld bad } } : Dev).compute
    (fun (d : Dev) n => let (d, f) := d.draw; d.modFab n fun x => { x with inc := BitVec.ofNat 32 f })
    (b := ({ d with boot := { d.boot with held := d.allHeld bad } } : Dev))
    (motive := fun e : Dev => ({ d with boot := { d.boot with held := d.allHeld bad } } : Dev).Opens e ∧ ∀ n, (e.ld n).ctl = (d.ld n).ctl)
    ⟨.refl _, fun _ => rfl⟩ fun e he k _ => ⟨he.1.trans (Dev.Opens.trans (b := e.draw.1) ⟨rfl, fun _ => rfl, fun _ => rfl⟩
      (.of_modLd _ k (by intros; rfl) (by intros; rfl))), fun n => (Dev.ld_modLd_keeps Ld.ctl (by intros; rfl) _ k n).trans (he.2 n)⟩

section
variable (i0 i1 : SramTest) (lp : List (Nat × DramTest)) (free : List Nat) (s : State)

/-- The tested device: keys, pins and dies as they stood, and the memory of the tests. -/
theorem State.tested_frame : ∃ l f, (s.tested i0 i1 lp free).dev = { s.memUp i0 i1 lp free with
      lds := l
      free := f
      boot := { (s.memUp i0 i1 lp free).boot with held := (s.memUp i0 i1 lp free).allHeld (s.badChans i0 i1 lp free) }
      domains := (s.tested i0 i1 lp free).dev.domains
      crypto := (s.tested i0 i1 lp free).dev.crypto
      ports := (s.tested i0 i1 lp free).dev.ports } :=
  ⟨_, _, ((s.memUp i0 i1 lp free).incarnated_opens (s.badChans i0 i1 lp free)).1.frame⟩

theorem State.tested_boot : (s.tested i0 i1 lp free).dev.boot =
    { s.dev.boot with stage := .up, held := (s.memUp i0 i1 lp free).allHeld (s.badChans i0 i1 lp free) } := by
  obtain ⟨l, f, h⟩ := s.tested_frame i0 i1 lp free
  rw [h, (s.memUp_tests i0 i1 lp free).frame]
  rfl

theorem State.tested_lay (n : Nat) : ((s.tested i0 i1 lp free).dev.ld n).lay = (s.dev.ld n).lay :=
  (((s.memUp i0 i1 lp free).incarnated_opens (s.badChans i0 i1 lp free)).1.lay n).trans ((s.memUp_tests i0 i1 lp free).lay n)

theorem State.tested_ctl (n : Nat) : ((s.tested i0 i1 lp free).dev.ld n).ctl = (s.dev.ld n).ctl :=
  (((s.memUp i0 i1 lp free).incarnated_opens (s.badChans i0 i1 lp free)).2 n).trans ((s.memUp_tests i0 i1 lp free).ctl n)

theorem State.tested_joins : ({ s.dev with boot := { s.dev.boot with stage := .up } } : Dev).SameJoins (s.tested i0 i1 lp free).dev where
  stage := by rw [s.tested_boot]
  image := by rw [s.tested_boot]
  dies := by
    obtain ⟨l, f, h⟩ := s.tested_frame i0 i1 lp free
    rw [h, (s.memUp_tests i0 i1 lp free).frame]
    rfl
  lay := s.tested_lay i0 i1 lp free
  st n := by rw [s.tested_ctl]; rfl

theorem State.tested_keys : (s.tested i0 i1 lp free).dev.lpKeys = [] ∧
    (s.tested i0 i1 lp free).dev.keySeeds = Map.set s.dev.keySeeds 16 (Config.freeNat s.dev.free) := by
  obtain ⟨l, f, h⟩ := s.tested_frame i0 i1 lp free
  rw [h, (s.memUp_tests i0 i1 lp free).frame]
  exact ⟨rfl, rfl⟩

theorem State.tested_pins : (s.tested i0 i1 lp free).dev.pins = s.dev.pins := by
  obtain ⟨l, f, h⟩ := s.tested_frame i0 i1 lp free
  rw [h, (s.memUp_tests i0 i1 lp free).frame]
  rfl

/-- Each channel in use has come up or failed as its test says. -/
theorem State.tested_chan (hp : s.dev.pins.clkCas = true) {c : Nat} (hc : c < 24) (hx : s.dev.excluded (.channel c) = false) :
    ChanUp lp free c (s.tested i0 i1 lp free).dev := by
  have hs : (s.sramUp i0 i1).pins.clkCas = true := by rw [(s.sramUp_tests i0 i1).frame]; exact hp
  obtain ⟨l, f, h⟩ := s.tested_frame i0 i1 lp free
  have hu : ChanUp lp free c (s.memUp i0 i1 lp free) := Dev.chansUp_chanUp lp free hs ((s.mem_usedChans i0 i1).mpr ⟨hc, hx⟩)
  exact hu.of_same (by rw [h]; rfl) fun a _ => by rw [h]; rfl

theorem State.mem_badChans (hp : s.dev.pins.clkCas = true) {c : Nat} : c ∈ s.badChans i0 i1 lp free ↔
    (c < 24 ∧ s.dev.excluded (.channel c) = false) ∧ dramOk (.channel c) (chanTest lp c) = false := by
  have hs : (s.sramUp i0 i1).pins.clkCas = true := by rw [(s.sramUp_tests i0 i1).frame]; exact hp
  rw [State.badChans, List.mem_filter, s.mem_usedChans]
  refine and_congr_right fun hc => ?_
  have hu : ChanUp lp free c (s.memUp i0 i1 lp free) := Dev.chansUp_chanUp lp free hs ((s.mem_usedChans i0 i1).mpr hc)
  rw [hu.failed, Bool.not_eq_true']

end

end Sys2Proof.Machine
end

section
/-! SUPPORT. The outcomes of the Silmuvin stage (R211, R212, R500 to R503). -/

namespace Sys2Proof.Machine

theorem lt_sramBase_of_channel {a c : Nat} (hc : c < 24) (h : unitOf a = some (.channel c)) : a < sramBase := by
  by_contra hn
  have := unitKey_of_sramBase_le (Nat.not_lt.mp hn) h
  have hk : unitKey (.channel c) = 32 + c := rfl
  omega

/-- An LD with a channel is the one whose mask holds it. -/
theorem Dev.chanMask_ldOfChan {d : Dev} {c : Nat} (h : d.ldOfChan c < 10) : (d.ld (d.ldOfChan c)).lay.chanMask.getLsbD c = true := by
  unfold Dev.ldOfChan at h ⊢
  cases hf : (List.range 10).find? fun n => (d.ld n).lay.populated && (d.ld n).lay.chanMask.getLsbD c with
  | none =>
    rw [hf] at h
    exact absurd h (by decide)
  | some n =>
    have hm := List.find?_some hf
    exact (Bool.and_eq_true_iff.mp hm).2

section
variable (i0 i1 : SramTest) (lp : List (Nat × DramTest)) (free : List Nat) {s : State} (hst : s.dev.boot.stage = .silmuvin)
  (hdr : s.dev.crypto.drbgFail = false) (hp : s.dev.pins.clkCas = true)
include hst hdr hp

/-- Every unit has passed: the stage ends without a failure. -/
theorem State.silmuvinStage_passed (h0 : s.vault.sramOk (.iodSram 0) i0 = true) (h1 : s.vault.sramOk (.iodSram 1) i1 = true)
    (hc : s.badChans i0 i1 lp free = []) :
    s.silmuvinStage i0 i1 lp free = (s.tested i0 i1 lp free).silmuvinEnd (s.tested i0 i1 lp free).dev.compute := by
  rw [State.silmuvinStage_runs i0 i1 lp free hst hdr]
  have hu : (s.tested i0 i1 lp free).unitsFail (!((s.memUp i0 i1 lp free).unit (.iodSram 0)).failed)
      (!((s.memUp i0 i1 lp free).unit (.iodSram 1)).failed) (s.badChans i0 i1 lp free) = s.tested i0 i1 lp free := by
    rw [s.failed_iodSram0, s.failed_iodSram1, h0, h1, hc]
    unfold State.unitsFail
    simp only [Bool.not_not, if_true, List.foldl_nil, s.tested_pins, hp]
  dsimp only
  rw [hu, if_neg]
  rw [s.tested_boot]
  exact nofun

omit hp in
/-- A failure has been reported: the stage ends with it. -/
theorem State.silmuvinStage_failed {detail : BitVec 8}
    (h : (s.tested i0 i1 lp free).Failed eSelftest detail ((s.tested i0 i1 lp free).unitsFail (!((s.memUp i0 i1 lp free).unit (.iodSram 0)).failed)
      (!((s.memUp i0 i1 lp free).unit (.iodSram 1)).failed) (s.badChans i0 i1 lp free))) :
    ∃ t, (s.tested i0 i1 lp free).Failed eSelftest detail t ∧
      s.silmuvinStage i0 i1 lp free = t.silmuvinEnd (s.tested i0 i1 lp free).dev.compute := by
  rw [State.silmuvinStage_runs i0 i1 lp free hst hdr]
  refine ⟨_, h, if_neg ?_⟩
  obtain ⟨r, hb⟩ := h.boot
  rw [hb, s.tested_boot]
  exact nofun

variable (h2 : s.dev.boot.level2 = false) (hf : s.dev.boot.failed = false) (h3 : s.dev.startCount < 3)
include h2 hf h3

omit hst hdr hp in
theorem State.tested_first (code : Code) (detail : BitVec 8) (hold : List Nat) :
    (s.tested i0 i1 lp free).Failed code detail ((s.tested i0 i1 lp free).startFail code detail hold) := by
  have hb := s.tested_boot i0 i1 lp free
  refine State.failed_first code detail hold ?_ ?_ ?_
  · rw [hb]; exact h2
  · rw [hb]; exact hf
  · rw [Dev.startCount, hb]; exact h3

/-- One channel has failed. -/
theorem State.silmuvinStage_badChan (h0 : s.vault.sramOk (.iodSram 0) i0 = true) (h1 : s.vault.sramOk (.iodSram 1) i1 = true) {c : Nat}
    (hc : c ∈ s.badChans i0 i1 lp free) (ho : ∀ k ∈ s.badChans i0 i1 lp free, k = c) :
    ∃ t, (s.tested i0 i1 lp free).Failed eSelftest (unitDetail 1 c) t ∧
      s.silmuvinStage i0 i1 lp free = t.silmuvinEnd (s.tested i0 i1 lp free).dev.compute := by
  refine State.silmuvinStage_failed i0 i1 lp free hst hdr ?_
  rw [s.failed_iodSram0, s.failed_iodSram1, h0, h1]
  unfold State.unitsFail
  simp only [Bool.not_not, if_true, s.tested_pins, hp]
  cases hl : s.badChans i0 i1 lp free with
  | nil => rw [hl] at hc; cases hc
  | cons k l =>
    have hk : k = c := ho k (by rw [hl]; exact List.mem_cons_self)
    rw [List.foldl_cons, ← hk]
    exact List.foldlRecOn l _ (motive := fun t => (s.tested i0 i1 lp free).Failed eSelftest (unitDetail 1 k) t)
      (State.tested_first i0 i1 lp free h2 hf h3 eSelftest _ _) fun t ht _ _ => ht.again eSelftest _ _

omit hp in
/-- The first SRAM of Silmuvin has failed. -/
theorem State.silmuvinStage_badSram (h0 : s.vault.sramOk (.iodSram 0) i0 = false) :
    ∃ t, (s.tested i0 i1 lp free).Failed eSelftest (unitDetail 3 0) t ∧
      s.silmuvinStage i0 i1 lp free = t.silmuvinEnd (s.tested i0 i1 lp free).dev.compute := by
  refine State.silmuvinStage_failed i0 i1 lp free hst hdr ?_
  have ha : ∀ (b : Bool) c d hold (t : State), (s.tested i0 i1 lp free).Failed eSelftest (unitDetail 3 0) t →
      (s.tested i0 i1 lp free).Failed eSelftest (unitDetail 3 0) (if b then t else t.startFail c d hold) := fun b c d hold t ht => by
    split
    · exact ht
    · exact ht.again c d hold
  rw [s.failed_iodSram0, h0]
  unfold State.unitsFail
  simp only [Bool.not_not, Bool.false_eq_true, if_false]
  refine List.foldlRecOn _ _ (motive := fun t => (s.tested i0 i1 lp free).Failed eSelftest (unitDetail 3 0) t) ?_
    fun t ht _ _ => ht.again eSelftest _ _
  exact ha _ _ _ _ _ (ha _ _ _ _ _ (State.tested_first i0 i1 lp free h2 hf h3 eSelftest _ _))

end

section
variable (i0 i1 : SramTest) (lp : List (Nat × DramTest)) (free : List Nat) {s : State}

/-- Every LD may reach level 1 once every unit has passed. -/
theorem State.tested_ready1 (hp : s.dev.pins.clkCas = true) (hh : s.dev.boot.held = false) (h0 : s.vault.sramOk (.iodSram 0) i0 = true)
    (h1 : s.vault.sramOk (.iodSram 1) i1 = true) (hc : s.badChans i0 i1 lp free = []) (n : Nat) : (s.tested i0 i1 lp free).dev.ready1 n = true := by
  have hheld : (s.memUp i0 i1 lp free).allHeld (s.badChans i0 i1 lp free) = false := by
    rw [Dev.allHeld, s.failed_iodSram0, s.failed_iodSram1, h0, h1, hc, (s.memUp_tests i0 i1 lp free).frame]
    simp [State.keysUp, Dev.freshKeys, Dev.draw, hh]
  unfold Dev.ready1
  rw [s.tested_boot, hheld, Bool.not_false, Bool.true_and, List.all_eq_true]
  intro c hm
  have hlt := List.mem_range.mp hm
  rw [Dev.excluded_congr (d := s.dev) (by rw [s.tested_boot])]
  cases hx : s.dev.excluded (.channel c) with
  | true => rw [Bool.or_true, Bool.true_or]
  | false =>
    have hok : dramOk (.channel c) (chanTest lp c) = true := by
      by_contra hn
      have := (s.mem_badChans i0 i1 lp free hp).mpr ⟨⟨hlt, hx⟩, Bool.not_eq_true _ ▸ hn⟩
      rw [hc] at this
      cases this
    rw [(s.tested_chan i0 i1 lp free hp hlt hx).inService, hok, Bool.or_true]

/-- A failed SRAM of Silmuvin holds every LD. -/
theorem State.tested_held (h0 : s.vault.sramOk (.iodSram 0) i0 = false) (n : Nat) : (s.tested i0 i1 lp free).dev.ready1 n = false := by
  have hheld : (s.memUp i0 i1 lp free).allHeld (s.badChans i0 i1 lp free) = true := by
    rw [Dev.allHeld, s.failed_iodSram0, h0]
    simp
  unfold Dev.ready1
  rw [s.tested_boot, hheld]
  rfl

/-- A failed channel holds the LD that owns it. -/
theorem State.tested_chanHeld (hp : s.dev.pins.clkCas = true) {c : Nat} (hc : c < 24) (hx : s.dev.excluded (.channel c) = false)
    (hb : dramOk (.channel c) (chanTest lp c) = false) (ho : s.dev.ldOfChan c < 10) :
    (s.tested i0 i1 lp free).dev.ready1 (s.dev.ldOfChan c) = false := by
  unfold Dev.ready1
  rw [Bool.and_eq_false_iff]
  refine .inr (List.all_eq_false.mpr ⟨c, List.mem_range.mpr hc, ?_⟩)
  rw [s.tested_lay, Dev.chanMask_ldOfChan ho, Dev.excluded_congr (d := s.dev) (by rw [s.tested_boot]), hx,
    (s.tested_chan i0 i1 lp free hp hc hx).inService, hb]
  decide

end

/-- What the end of the stage leaves of what stood before it. -/
theorem State.silmuvinEnd_keeps (all : List Nat) (s : State) : s.dev.Settled (s.silmuvinEnd all).dev :=
  (s.opens_level1Dev all).settled.trans (s.silmuvinEnd_settled all).1

theorem State.silmuvinEnd_failed {i0 i1 : SramTest} {lp : List (Nat × DramTest)} {free : List Nat} {s t : State} {detail : BitVec 8} (all : List Nat)
    (h : (s.tested i0 i1 lp free).Failed eSelftest detail t) :
    let e := t.silmuvinEnd all
    e.dev.boot.failed = true ∧ e.dev.boot.failCode = eSelftest ∧ e.dev.boot.failDetail = detail := by
  obtain ⟨r, hb⟩ := h.boot
  obtain ⟨_, _, _, he⟩ := (t.silmuvinEnd_keeps all).boot
  dsimp only
  rw [he, hb]
  exact ⟨rfl, rfl, rfl⟩

/-- An LD that a failure holds back stays at level 0. -/
theorem State.silmuvinEnd_level0 {i0 i1 : SramTest} {lp : List (Nat × DramTest)} {free : List Nat} {s t : State} {detail : BitVec 8} (all : List Nat)
    (h : (s.tested i0 i1 lp free).Failed eSelftest detail t) {n : Nat} (hn : n < 10) (hr : (s.tested i0 i1 lp free).dev.ready1 n = false)
    (h0 : (s.dev.ld n).ctl.service = 0) : ((t.silmuvinEnd all).dev.ld n).ctl.service = 0 :=
  State.silmuvinEnd_held all t n (by omega) (by rw [h.ready1, hr]) (by rw [h.service, s.tested_ctl, h0])

end Sys2Proof.Machine
end

section
/-! SUPPORT. A die joins, or will not (R39, R500, R501, R503). -/

namespace Sys2Proof.Machine

/-- A die that has joined or is absent is not the next one. -/
theorem Dev.nextDie_ne {d : Dev} {n : Nat} (h : (d.die n).joined = true ∨ (d.die n).absent = true) : d.nextDie ≠ some n := by
  unfold Dev.nextDie
  split
  · exact nofun
  · intro hf
    have hp := List.find?_some hf
    simp only [Bool.and_eq_true, Bool.not_eq_true'] at hp
    obtain ⟨⟨⟨hj, ha⟩, -⟩, -⟩ := hp
    rcases h with h | h
    · rw [h] at hj; cases hj
    · rw [h] at ha; cases ha

theorem Dev.die_beginDie_other {d : Dev} {n : Nat} (h : d.nextDie ≠ some n) (now : W64) : (d.beginDie now).die n = d.die n := by
  cases hn : d.nextDie with
  | none => rw [Dev.beginDie_none hn]
  | some m =>
    have hm : n ≠ m := fun e => h (by rw [hn, e])
    rw [Dev.die_congr (Dev.beginDie_some hn now).dies, Dev.die_modDie_other _ _ hm]
    rfl

/-- The next die begins, and levels may rise. -/
def State.goesOn (s : State) : State := ({ s with dev := s.dev.beginDie s.now } : State).levels

theorem State.goesOn_settled (s : State) : s.dev.Settled s.goesOn.dev ∧ s.goesOn.vault.leaves = s.vault.leaves := by
  obtain ⟨h, -, -, hv, -⟩ := State.settled_levels { s with dev := s.dev.beginDie s.now }
  exact ⟨(Dev.settled_beginDie _ _).1.trans h, hv⟩

theorem State.goesOn_die {s : State} {n : Nat} (h : (s.dev.die n).joined = true ∨ (s.dev.die n).absent = true) : s.goesOn.dev.die n = s.dev.die n := by
  obtain ⟨-, hd, -⟩ := State.settled_levels { s with dev := s.dev.beginDie s.now }
  exact (Dev.die_congr hd n).trans (Dev.die_beginDie_other (Dev.nextDie_ne h) _)

theorem Dev.pump_of_idle {d : Dev} (h : d.launches = []) : d.pump = d := by rw [Dev.pump, h]; rfl

/-! ## A die that joins -/

/-- The device once a die has joined. -/
def Dev.dieJoined (n : Nat) (b : SramTest) (d : Dev) : Dev :=
  (d.modUnit (.dieSram n) fun x => { x with inService := true, failed := false, spares := b.arrays }).modDie n fun x =>
    { x with joined := true, booting := false }

section
variable {n : Nat} {b : SramTest} {s : State}

theorem State.dieJoin_of_not_booting (h : (s.dev.die n).booting = false) : s.dieJoin n b = s := if_pos (by rw [h]; rfl)

variable (hb : (s.dev.die n).booting = true)
include hb

theorem State.dieJoin_bad (h : s.vault.sramOk (.dieSram n) b = false) :
    s.dieJoin n b = ({ s with dev := s.dev.bringUp (.dieSram n) false } : State).dieFail n 2 :=
  (if_neg (by rw [hb]; decide)).trans (if_pos (by rw [h]; rfl))

theorem State.dieJoin_waits (h : s.vault.sramOk (.dieSram n) b = true) (hl : (s.dev.die n).bootLeft ≠ []) : s.dieJoin n b = s :=
  (if_neg (by rw [hb]; decide)).trans ((if_neg (by rw [h]; decide)).trans (if_pos (by simp [hl])))

theorem State.dieJoin_joins (h : s.vault.sramOk (.dieSram n) b = true) (hl : (s.dev.die n).bootLeft = []) (ha : s.dev.launches = []) :
    s.dieJoin n b = ({ s with dev := s.dev.dieJoined n b } : State).goesOn := by
  refine (if_neg (by rw [hb]; decide)).trans ((if_neg (by rw [h]; decide)).trans ((if_neg (by simp [hl])).trans ?_))
  have hp : (s.dev.dieJoined n b).pump = s.dev.dieJoined n b := Dev.pump_of_idle ha
  change ({ s with dev := (s.dev.dieJoined n b).pump.beginDie s.now } : State).levels = _
  rw [hp]
  rfl

end

/-! ## A die that will not join -/

/-- Two devices in the same start, with the same dies. -/
structure Dev.SameStart (d d' : Dev) : Prop where
  boot : d'.boot = d.boot
  dies : d'.dies = d.dies

theorem Dev.SameStart.trans {a b c : Dev} (h : a.SameStart b) (k : b.SameStart c) : a.SameStart c := ⟨k.boot.trans h.boot, k.dies.trans h.dies⟩

theorem Dev.sameStart_release (hs : List Nat) (d : Dev) : d.SameStart (d.release hs) := by
  unfold Dev.release
  exact ⟨foldl_keeps Dev.boot (by intros; rfl) _ _, foldl_keeps Dev.dies (by intros; rfl) _ _⟩

theorem Dev.sameStart_hostWrite (a : Nat) (bs : List Byte) (d : Dev) : d.SameStart (d.hostWrite a bs) := ⟨rfl, rfl⟩

theorem Dev.sameStart_modLd (n : Nat) (f : Ld → Ld) (d : Dev) : d.SameStart (d.modLd n f) := ⟨rfl, rfl⟩

theorem Dev.sameStart_reqCplWrite (ld : Nat) (bs : List Byte) (d : Dev) : d.SameStart (d.reqCplWrite ld bs) := by
  unfold Dev.reqCplWrite
  exact ((d.sameStart_hostWrite _ _).trans (Dev.sameStart_hostWrite _ _ _)).trans (Dev.sameStart_modLd _ _ _)

theorem Dev.sameStart_endRequest (now : W64) (n : Nat) (c : Code) (status : Nat) (d : Dev) : d.SameStart (d.endRequest now n c status) := by
  have ha : ∀ a (e : Dev), e.SameStart (e.adpRelease a) := fun a e => by
    unfold Dev.adpRelease
    split <;> exact ⟨rfl, rfl⟩
  have hl : ∀ ld n f (e : Dev), e.SameStart ((e.leaveOld ld n).modReq n f) := fun _ _ _ _ => ⟨rfl, rfl⟩
  unfold Dev.endRequest
  dsimp only
  exact (((Dev.sameStart_release _ _).trans (Dev.sameStart_reqCplWrite _ _ _)).trans (ha _ _)).trans (hl _ _ _ _)

theorem Dev.sameStart_reqsGone (now : W64) (ld : Nat) (d : Dev) : d.SameStart (d.reqsGone now ld) := by
  unfold Dev.reqsGone
  split
  · exact List.foldlRecOn _ _ (motive := fun x : Dev => d.SameStart x) ⟨rfl, rfl⟩ fun x hx n _ => hx.trans (Dev.sameStart_endRequest now n eState 2 x)
  · exact ⟨rfl, rfl⟩

/-- The device without the programs of a die that is absent now. -/
def Dev.dieLost (n : Nat) (d : Dev) : Dev :=
  { d with clusters := Map.delIf d.clusters fun c => c / 256 == n }.modDie n fun x => { x with absent := true, booting := false, bootLeft := [] }

theorem Dev.dieGone_of_idle {d : Dev} {n : Nat} (ha : d.launches = []) (hc : (d.ld (d.ldOfDie n)).ctl.crop = none) : d.dieGone n = d := by
  have hp := Dev.pump_of_idle ha
  unfold Dev.dieGone
  dsimp only
  rw [hp, hc]

/-- A die fails during a start that has not failed yet. -/
theorem State.dieFail_first {n : Nat} (kind : Nat) {s : State} (ha : s.dev.launches = []) (hc : (s.dev.ld (s.dev.ldOfDie n)).ctl.crop = none)
    (h2 : s.dev.boot.level2 = false) (hf : s.dev.boot.failed = false) (h3 : s.dev.startCount < 3) :
    let t := s.dieFail n kind
    (t.dev.die n).absent = true ∧ t.dev.boot.failed = true ∧ t.dev.boot.failCode = eSelftest ∧ t.dev.boot.failDetail = unitDetail kind n := by
  have hg : (s.dev.dieLost n).dieGone n = s.dev.dieLost n := Dev.dieGone_of_idle ha hc
  have hl := Dev.sameStart_reqsGone s.now (s.dev.ldOfDie n) (s.dev.dieLost n)
  have e : s.dieFail n kind =
      let u := ({ s with dev := ((s.dev.dieLost n).dieGone n).reqsGone s.now (s.dev.ldOfDie n) } : State).startFail eSelftest (unitDetail kind n)
        (if s.dev.ldOfDie n < 10 then [s.dev.ldOfDie n] else [])
      if u.dev.boot.stage = .fallow then u else u.goesOn := rfl
  rw [e, hg]
  have hb : ∀ {p : Boot → Prop}, p s.dev.boot → p ((s.dev.dieLost n).reqsGone s.now (s.dev.ldOfDie n)).boot := fun hp => by rw [hl.boot]; exact hp
  have hfail := State.failed_first eSelftest (unitDetail kind n) (if s.dev.ldOfDie n < 10 then [s.dev.ldOfDie n] else [])
    (s := { s with dev := (s.dev.dieLost n).reqsGone s.now (s.dev.ldOfDie n) }) (hb (p := fun b => b.level2 = false) h2) (hb (p := fun b => b.failed = false) hf)
    (hb (p := fun b => b.rec_.elim 0 StartRec.count < 3) h3)
  dsimp only
  generalize State.startFail _ _ _ _ = u at hfail ⊢
  obtain ⟨r, hboot⟩ := hfail.boot
  have habs : (u.dev.die n).absent = true := by
    have hd : u.dev.dies = (s.dev.dieLost n).dies := by
      rw [hfail.frame]
      exact hl.dies
    rw [Dev.die_congr hd, Dev.dieLost, Dev.die_modDie_same]
  split
  · exact ⟨habs, by rw [hboot], by rw [hboot], by rw [hboot]⟩
  · obtain ⟨_, _, _, hgo⟩ := u.goesOn_settled.1.boot
    refine ⟨by rw [State.goesOn_die (.inr habs), habs], ?_⟩
    rw [hgo, hboot]
    exact ⟨rfl, rfl, rfl⟩

end Sys2Proof.Machine
end

section
/-! SUPPORT. The statement on starts (R493, R499 to R504). -/

namespace Sys2Proof.Machine

/-- The bits of a first failure that its readers see. -/
theorem State.startFail_shown (code : Code) (detail : BitVec 8) (hold : List Nat) {s : State} (h2 : s.dev.boot.level2 = false)
    (hf : s.dev.boot.failed = false) (hc : s.dev.startCount < 3) :
    let t := s.startFail code detail hold
    t.dev.boot.failed = true ∧ t.dev.boot.failCode = code ∧ t.dev.boot.failDetail = detail ∧ (t.dev.ld 15).ctl.bootEvt.getLsbD 2 = true := by
  obtain ⟨v, r, h, -⟩ := State.startFail_first_frame code detail hold h2 hf hc
  rw [h]
  exact ⟨rfl, rfl, rfl, Dev.failMarked_evt code detail hold s.dev⟩

/-- A failure of a start that is not its third takes it to no other stage, and keeps the pins. -/
theorem State.startFail_keeps (code : Code) (detail : BitVec 8) (hold : List Nat) {s : State} (hc : s.dev.startCount < 3) :
    let t := s.startFail code detail hold
    t.pending = s.pending ∧ t.now = s.now ∧ t.dev.boot.stage = s.dev.boot.stage ∧ t.dev.pins = s.dev.pins := by
  by_cases h : s.dev.boot.level2 = true ∨ s.dev.boot.failed = true
  · rw [State.startFail_ended _ _ _ h, Dev.heldBack_frame]
    exact ⟨rfl, rfl, rfl, rfl⟩
  · rw [not_or, Bool.not_eq_true, Bool.not_eq_true] at h
    obtain ⟨v, r, e, -⟩ := State.startFail_first_frame code detail hold h.1 h.2 hc
    rw [e, Dev.failMarked_frame]
    exact ⟨rfl, rfl, rfl, rfl⟩

/-- The limit of a start that has not reached level 2. -/
theorem exec_startLimitExpiry {s : State} {im : Image} (hi : s.dev.boot.image = some im) (h2 : s.dev.boot.level2 = false)
    (hz : s.dev.boot.zeroising = []) : exec .startLimitExpiry s =
      .next (if 100000000 * im.startS ≤ (s.now - s.dev.boot.startAt).toNat then s.startFail eStartFatal 1 [] else s) := by
  change execStartLimitExpiry s = _
  simp only [execStartLimitExpiry, hi, h2, hz, Option.any_some, decide_eq_true_eq, Bool.not_false, List.isEmpty_nil, and_true]

/-- Settles O54: each part follows the stage's own lemmas, those of the ROM, of the tests and the end of the Silmuvin stage, of the
dies, and of the limit. -/
theorem startsProceed : Obligations.StartsProceed := by
  unfold Obligations.StartsProceed
  refine ⟨?_, ?_, ?_, ?_⟩
  · intro probe ok s go ready
    have hgo : go = .next (s.romStage probe ok) := rfl
    refine ⟨fun h => by rw [hgo, State.romStage_waits probe ok h], fun h _ => ⟨_, hgo, ?_⟩⟩
    obtain ⟨hp, hn⟩ := State.sameQueue_romStage probe ok s
    refine ⟨hp, hn, fun h0 => ?_, fun h0 hr => ?_, ?_⟩
    · obtain ⟨d, hd, hprobe⟩ := State.romStage_probe h h0 ok
      rw [hd]
      exact ⟨rfl, rfl, hprobe, rfl⟩
    · obtain ⟨r, hr, h3⟩ := hr
      subst h0
      obtain ⟨d, hd⟩ := State.romStage_third h (by rw [hr]; exact h3) ok
      rw [hd]
      exact ⟨rfl, rfl⟩
    · intro h0 hok hr s1
      subst h0 hok
      have hlow : s.vault.current.elim 0 StartRec.count < 2 := by
        cases hc : s.vault.current with
        | none => decide
        | some r => exact hr r hc
      have h1 : s1 = s.romRecorded := rfl
      obtain ⟨herr, hload⟩ := State.romStage_records h (hlow.trans (by decide))
      obtain ⟨v, r, hs1⟩ := s.romRecorded_shape
      have hcount := s.startCount_romRecorded
      rw [h1]
      cases hv : s.romRecorded.vault.verifyImage with
      | error e =>
        obtain ⟨c, det⟩ := e
        rw [herr c det hv]
        have hc3 : s.romRecorded.romFailed.dev.startCount < 3 := hcount.trans_lt (by omega)
        obtain ⟨-, -, hst, hpins⟩ := State.startFail_keeps c det [] hc3
        refine ⟨hst, congrArg Pins.ready hpins, ?_, nofun⟩
        rintro c' det' heq h2 hf
        cases heq
        exact State.startFail_shown c det [] (s := s.romRecorded.romFailed) (by rw [State.romFailed, hs1]; exact h2) (by rw [State.romFailed, hs1]; exact hf) hc3
      | ok im =>
        rw [hload im hv]
        have hb := Dev.loadImage_boot im s.romRecorded.dev
        refine ⟨congrArg Boot.stage hb, rfl, nofun, ?_⟩
        rintro im' heq
        cases heq
        exact ⟨congrArg Boot.image hb, rfl, rfl⟩
  · intro i0 i1 lp free s go d ready sram used passes fails
    have hgo : go = .next (s.silmuvinStage i0 i1 lp free) := rfl
    refine ⟨fun h => by rw [hgo, State.silmuvinStage_waits i0 i1 lp free h], fun hr hs hall => ?_, fun hr hs h3 c hu hb ho => ?_, fun hr h3 h0 => ?_⟩
    all_goals obtain ⟨hst, hdr, hp, h2, hf⟩ := hr
    · have hbad : s.badChans i0 i1 lp free = [] := List.eq_nil_iff_forall_not_mem.mpr fun c hc => by
        obtain ⟨hu, hn⟩ := (s.mem_badChans i0 i1 lp free hp).mp hc
        rw [hall c hu] at hn
        cases hn
      have hk := State.silmuvinEnd_keeps (s.tested i0 i1 lp free).dev.compute (s.tested i0 i1 lp free)
      obtain ⟨_, _, _, hboot⟩ := hk.boot
      rw [State.tested_boot] at hboot
      rw [hgo, State.silmuvinStage_passed i0 i1 lp free hst hdr hp hs.1 hs.2 hbad]
      refine ⟨_, rfl, (State.silmuvinEnd_settled _ _).2.1, by rw [hboot], by rw [hboot]; exact hf, fun c hu => ?_, ?_, ?_, fun hh hl n hn => ?_,
        fun n hn => ?_⟩
      · have hc := s.tested_chan i0 i1 lp free hp hu.1 hu.2
        have hk64 : unitKey (.channel c) = 32 + c := rfl
        have hc24 : c < 24 := hu.1
        rw [hk.sram.unit _ (by omega)]
        refine ⟨hc.inService.trans (hall c hu), ?_, hc.free, hc.lanes, hc.marked, fun a ha => ?_⟩
        · rw [hc.failed, hall c hu]; rfl
        · rw [hk.sram.byte a (lt_sramBase_of_channel hu.1 ha), hc.zero (hall c hu) a ha]
      · rw [hk.sram.keys, (s.tested_keys i0 i1 lp free).1]
      · rw [hk.seeds, (s.tested_keys i0 i1 lp free).2, Map.find_set_same]
      · have hn10 := List.mem_range.mp (List.mem_filter.mp hn).1
        have hpop : (d.ld n).lay.populated = true := (List.mem_filter.mp hn).2
        refine State.silmuvinEnd_ready _ _ n (by omega) ?_ (State.tested_ready1 i0 i1 lp free hp hh hs.1 hs.2 hbad n) ?_
        · rw [Dev.compute_congr (s.tested_lay i0 i1 lp free)]; exact hn
        · rw [s.tested_ctl]; exact (hl n hpop).1
      · exact State.silmuvinEnd_begins _ _ n ((s.tested_joins i0 i1 lp free).nextDie.trans hn)
    · have hbf : dramOk (.channel c) (chanTest lp c) = false := Bool.not_eq_true _ ▸ hb
      obtain ⟨t, ht, he⟩ := State.silmuvinStage_badChan i0 i1 lp free hst hdr hp h2 hf h3 hs.1 hs.2
        ((s.mem_badChans i0 i1 lp free hp).mpr ⟨hu, hbf⟩) fun k hk => by
          obtain ⟨hku, hkb⟩ := (s.mem_badChans i0 i1 lp free hp).mp hk
          by_contra hne
          rw [ho k hku hne] at hkb
          cases hkb
      have hc := s.tested_chan i0 i1 lp free hp hu.1 hu.2
      have hunit : ((t.silmuvinEnd (s.tested i0 i1 lp free).dev.compute).dev).unit (.channel c) = (s.tested i0 i1 lp free).dev.unit (.channel c) := by
        have hk64 : unitKey (.channel c) = 32 + c := rfl
        have hc24 : c < 24 := hu.1
        rw [(State.silmuvinEnd_keeps _ t).sram.unit _ (by omega), Dev.unit, Dev.unit, ht.frame]
      rw [hgo, he]
      refine ⟨_, rfl, State.silmuvinEnd_failed _ ht, ?_, ?_, fun ho h0 => ?_⟩
      · rw [hunit, hc.failed, hbf]; rfl
      · rw [hunit, hc.inService, hbf]
      · exact State.silmuvinEnd_level0 _ ht ho (State.tested_chanHeld i0 i1 lp free hp hu.1 hu.2 hbf ho) h0
    · obtain ⟨t, ht, he⟩ := State.silmuvinStage_badSram i0 i1 lp free hst hdr h2 hf h3 h0
      rw [hgo, he]
      refine ⟨_, rfl, State.silmuvinEnd_failed _ ht, fun n hn hs => ?_⟩
      exact State.silmuvinEnd_level0 _ ht (List.mem_range.mp (List.mem_filter.mp hn).1) (State.tested_held i0 i1 lp free h0 n) hs
  · intro n b s hq hn ha hc x ok
    have hgo : exec (.dieJoin n b) s = .next (s.dieJoin n b) := congrArg Host.Outcome.next (State.settleHost_quiet hq.2.2.1 _)
    refine ⟨fun hx => ?_, fun hx hok hl => ?_, fun hx hok hl => ?_, fun h2 hf h3 hx => ⟨fun hok => ?_, fun ht hl => ?_⟩⟩
    · rw [hgo, State.dieJoin_of_not_booting hx]
    · rw [hgo, State.dieJoin_waits hx hok hl]
    · rw [hgo, State.dieJoin_joins hx hok hl ha]
      have hdie : (s.dev.dieJoined n b).die n = { s.dev.die n with joined := true, booting := false } := Dev.die_modDie_same _ _ _
      have hunit : (s.dev.dieJoined n b).unit (.dieSram n) = { s.dev.unit (.dieSram n) with inService := true, failed := false, spares := b.arrays } := by
        rw [Dev.dieJoined, Dev.unit_modDie, Dev.unit_modUnit_same]
      obtain ⟨hs, hv⟩ := State.goesOn_settled { s with dev := s.dev.dieJoined n b }
      have hd := State.goesOn_die (s := { s with dev := s.dev.dieJoined n b }) (n := n) (.inl (congrArg Die.joined hdie))
      refine ⟨_, rfl, ?_, ?_, ?_, ?_, hv⟩
      · rw [hd, hdie]
      · rw [hd, hdie]
      · rw [hs.sram.inService, hunit]
      · rw [hs.sram.spares, hunit]
    · rw [hgo, State.dieJoin_bad hx hok]
      obtain ⟨h1, -, h4, h5⟩ := State.dieFail_first (n := n) 2 (s := { s with dev := s.dev.bringUp (.dieSram n) false }) ha hc h2 hf h3
      exact ⟨_, rfl, h1, h4, h5⟩
    · obtain ⟨h1, h4, -, h5⟩ := State.dieFail_first (n := n) 4 ha hc h2 hf h3
      refine ⟨_, congrArg Host.Outcome.next (if_pos ⟨hx, ?_, ht⟩), h1, h4, h5⟩
      simpa using hl
  · intro s h2 hf hc hz im hi
    rw [exec_startLimitExpiry hi h2 hz]
    refine ⟨fun h => ⟨_, congrArg _ (if_pos h), ?_⟩, fun h => congrArg _ (if_neg (Nat.not_le.mpr h))⟩
    exact State.startFail_shown eStartFatal 1 [] h2 hf hc

end Sys2Proof.Machine
end

section
/-! SUPPORT. What the report of a command leaves alone (R234, R444, R449, R453). -/

namespace Sys2Proof.Machine

theorem Dev.memFrame_putWord (d : Dev) (a : Nat) (v : W32) : d.memFrame (d.putWord a v) := d.memFrame_writeBytes ..

theorem Dev.memFrame_ringHead (kind : RingKind) (base : Nat) (tail : W32) (k : Nat) (d : Dev) :
    d.memFrame (d.ringHead kind base tail k) := by
  induction k generalizing d with
  | zero => exact d.memFrame_refl
  | succ k ih =>
    unfold Dev.ringHead
    dsimp only
    split
    · exact Dev.memFrame_trans (d.memFrame_putWord ..) (ih _)
    · exact d.memFrame_refl

theorem Dev.memFrame_ringDone (d : Dev) (kind : RingKind) (clu k : Nat) (c : Code) : d.memFrame (d.ringDone kind clu k c) :=
  Dev.memFrame_trans (d.memFrame_putWord ..) (Dev.memFrame_ringHead ..)

theorem Dev.memFrame.domains {d d' : Dev} (h : d.memFrame d') : d'.domains = d.domains := by rw [h.1]

/-- A report leaves every domain. -/
theorem Dev.domains_finish (t : Ticket) (c : Code) (aborted : Bool) (r : W32) (d : Dev) : (d.finish t c aborted r).domains = d.domains := by
  unfold Dev.finish
  split
  · rfl
  · exact (d.memFrame_ringDone ..).domains
  · rfl
  · rfl
  · split <;> rfl
  · rfl

/-- A change of an LD that leaves its update registers but for the count of its commands. -/
theorem Dev.dfs_modLd (d : Dev) (ld : Nat) {f : Ld → Ld} (hf : ∀ l, (f l).upd.dfs = l.upd.dfs) (n : Nat) :
    ((d.modLd ld f).ld n).upd.dfs = (d.ld n).upd.dfs := by
  rw [Dev.ld_modLd]
  split
  · next h => rw [hf, h]
  · rfl

theorem Dev.ld_hostWrite (a : Nat) (bs : List Byte) (d : Dev) (n : Nat) : (d.hostWrite a bs).ld n = d.ld n := rfl

theorem Dev.dfs_cqRecord (ld q : Nat) (bs : List Byte) (d : Dev) (n : Nat) :
    ((d.cqRecord ld q bs).ld n).upd.dfs = (d.ld n).upd.dfs := by
  rw [Dev.cqRecord, Dev.dfs_modLd, Dev.ld_hostWrite, Dev.ld_hostWrite]
  exact fun _ => rfl

/-- A report leaves the difference-stream targets of every LD. -/
theorem Dev.dfs_finish (t : Ticket) (c : Code) (aborted : Bool) (r : W32) (d : Dev) (n : Nat) :
    ((d.finish t c aborted r).ld n).upd.dfs = (d.ld n).upd.dfs := by
  unfold Dev.finish
  split
  · rw [Dev.dfs_cqRecord, Dev.settle, Dev.dfs_modLd]
    exact fun _ => rfl
  · rw [(d.memFrame_ringDone ..).2.1 n]
  · rfl
  · rw [Dev.mbxReply, Dev.mbxEmptied, Dev.dfs_modLd, Dev.dfs_modLd] <;> exact fun _ => rfl
  · split <;> rfl
  · rfl

end Sys2Proof.Machine
end

section
/-! SUPPORT. Who reaches HBM3E and the page-map slices (R32, R222, R467, R468), and PAGE_SET with its zero fills (R470, R472). -/

namespace Sys2Proof.Machine

/-! ## Reach -/

/-- An address in HBM3E lies in the window of its stack's die. -/
theorem placeOf_hbm {a n o : Nat} (h : placeOf a = .hbm n o) : a < 10 * dieWindow ∧ n / 2 = a / dieWindow := by
  unfold placeOf at h
  dsimp only at h
  by_cases ha : a < 10 * dieWindow
  · rw [if_pos ha] at h
    split at h
    · next ho =>
      injection h with h _
      have : a % dieWindow / stackBytes < 2 := Nat.div_lt_of_lt_mul (by rwa [Nat.mul_comm])
      generalize a % dieWindow / stackBytes = q at h this
      exact ⟨ha, by omega⟩
    · injection h
  · rw [if_neg ha] at h
    repeat' split at h
    all_goals injection h

theorem placeOf_dieSram {n o : Nat} (hn : n < 10) (ho : o < mapSliceBytes) : placeOf (dieSramAddr n o) = .dieSram n o := by
  simp only [mapSliceBytes] at ho
  have hdiv : (n * 0x20000000 + o) / 0x20000000 = n := by omega
  have hmod : (n * 0x20000000 + o) % 0x20000000 = o := by omega
  have hsub : dieSramAddr n o - sramBase = n * 0x20000000 + o := by simp only [dieSramAddr, sramWindow]; omega
  have h0 : sramBase ≤ dieSramAddr n o := by simp only [dieSramAddr]; omega
  have h1 : dieSramAddr n o < sramBase + 10 * sramWindow := by simp only [dieSramAddr, sramWindow]; omega
  have hb : 10 * dieWindow ≤ sramBase ∧ lpBase ≤ sramBase ∧ lpBase + 24 * chanWindow ≤ sramBase := by decide
  unfold placeOf
  rw [if_neg (by omega), if_neg (by omega), if_neg (by omega), if_neg (by omega), if_pos h1, hsub]
  have hw : sramWindow = 0x20000000 := rfl
  rw [hw, hdiv, hmod]
  exact if_pos (by omega)

theorem Rq.beq_mc {rq : Rq} (h : rq ≠ .mc) : (rq == Rq.mc) = false := beq_eq_false_iff_ne.mpr h

/-- Nobody but the management controller reaches a page-map slice by address (R222). -/
theorem Dev.mayReach_mapSlice (d : Dev) {rq : Rq} (w : Bool) {n o : Nat} (h : rq ≠ .mc) (hn : n < 10) (ho : o < mapSliceBytes) :
    d.mayReach rq w (dieSramAddr n o) = false := by
  have hm : decide (mapSliceBytes ≤ o) = false := decide_eq_false (Nat.not_le_of_gt ho)
  rw [Dev.mayReach, if_neg (by rw [Rq.beq_mc h]; decide), placeOf_dieSram hn ho]
  dsimp only
  rw [hm, Bool.and_false, Bool.false_and]

/-- An access to HBM3E needs the window of the requester's LD and the permission of the frame's tag. -/
theorem Dev.mayReach_hbm (d : Dev) {rq : Rq} (w : Bool) {a f n o : Nat} (h : rq ≠ .mc) (hp : placeOf a = .hbm n o) (hf : frameOf a = some f) :
    d.mayReach rq w a = (decide (d.rqLd rq < 10) && d.ldOfDie (n / 2) == d.rqLd rq && d.tagPermits rq w f) := by
  obtain ⟨ha, hn⟩ := placeOf_hbm hp
  rw [Dev.mayReach, Rq.beq_mc h, hp, hf]
  simp [Dev.ownsWindow, Dev.windowLd, ha, hn]

theorem Dev.tagPermits_of_not_assigned {d : Dev} {rq : Rq} {w : Bool} {f : Nat} (h : rq ≠ .mc) (ht : (d.tag f).st ≠ .assigned) :
    d.tagPermits rq w f = false := by
  unfold Dev.tagPermits
  dsimp only
  split
  · next hs => exact absurd hs ht
  · exact Rq.beq_mc h

section
variable {d : Dev} {f : Nat} (ht : (d.tag f).st = .assigned)
include ht

theorem Dev.tagPermits_eng (l dom : Nat) (w : Bool) :
    d.tagPermits (.eng l dom) w f = ((d.tag f).domain.toNat == dom || ((d.tag f).shared && !w)) := by
  simp [Dev.tagPermits, ht]

theorem Dev.tagPermits_cxl (l : Nat) (w : Bool) : d.tagPermits (.cxl l) w f = (d.tag f).host := by
  simp [Dev.tagPermits, ht]

theorem Dev.tagPermits_cassum (l : Nat) (w : Bool) : d.tagPermits (.cassum l) w f = (d.tag f).fabric := by
  simp [Dev.tagPermits, ht]

end

/-! ## Tags of a list of frames -/

/-- The tags of some frames, each changed by a function. -/
def Dev.retag (g : PageTag → PageTag) (fs : List Nat) (d : Dev) : Dev := fs.foldl (fun d f => d.setTag f (g (d.tag f))) d

theorem Dev.retag_frame (g : PageTag → PageTag) (fs : List Nat) (d : Dev) : d.retag g fs = { d with tags := (d.retag g fs).tags } := by
  unfold Dev.retag
  induction fs generalizing d with
  | nil => rfl
  | cons f fs ih =>
    rw [List.foldl_cons, ih]
    rfl

/-- A frame that the list names twice is changed once and for all by a function that settles. -/
theorem Dev.tag_retag {g : PageTag → PageTag} (hg : ∀ x, g (g x) = g x) (fs : List Nat) (d : Dev) (k : Nat) :
    (d.retag g fs).tag k = if k ∈ fs then g (d.tag k) else d.tag k := by
  unfold Dev.retag
  induction fs generalizing d with
  | nil => rfl
  | cons f fs ih =>
    rw [List.foldl_cons, ih]
    by_cases hk : k = f
    · subst hk
      simp [hg]
    · simp [hk]

/-! ## PAGE_SET (R470) -/

/-- The addresses and the frames of a PAGE_SET, and a tag with its flags. -/
def pageAddrs (ws : List W32) : List Nat := (List.range (wfld ws 4 16 0)).map fun i => addrAt ws 2 + i * frameBytes
def pageFrames (ws : List W32) : List Nat := (pageAddrs ws).filterMap frameOf
def pageFlags (ws : List W32) (x : PageTag) : PageTag :=
  { x with shared := bit (word ws 1).toNat 2, host := bit (word ws 1).toNat 3, fabric := bit (word ws 1).toNat 4 }

/-- A tag that is ZEROING for the domain of a PAGE_SET, and one that is ZEROING for its release. -/
def pageAssign (ws : List W32) (x : PageTag) : PageTag :=
  { pageFlags ws x with st := .zeroing, domain := BitVec.ofNat 12 (wfld ws 1 27 16), release := false }
def pageRelease (x : PageTag) : PageTag := { x with st := .zeroing, release := true }

theorem pageFlags_pageFlags (ws : List W32) (x : PageTag) : pageFlags ws (pageFlags ws x) = pageFlags ws x := rfl
theorem pageAssign_pageAssign (ws : List W32) (x : PageTag) : pageAssign ws (pageAssign ws x) = pageAssign ws x := rfl
theorem pageRelease_pageRelease (x : PageTag) : pageRelease (pageRelease x) = pageRelease x := rfl

/-- Reserved bits of a PAGE_SET. -/
def pageReserved (ws : List W32) : Bool :=
  secReserved ws [1, 2, 3, 4] (wfld ws 1 15 5 != 0 || wfld ws 1 31 28 != 0 || addrHigh ws 2 || wfld ws 4 31 17 != 0)

/-- The zero fills of a PAGE_SET of an LD begin. -/
def Dev.pageFill (iss : Issuer) (ws : List W32) (ld : Nat) (g : PageTag → PageTag) (d : Dev) : Dev :=
  let e := d.retag g (pageFrames ws)
  { e with pageJobs := e.pageJobs ++ [{ tkt := ticketOf iss ws, ld := ld, dom := e.issDom iss, words := ws, left := pageFrames ws }] }

theorem exec_pageSet {iss : Issuer} {ws : List W32} (h : wfld ws 0 7 0 = 0x83) (s : State) :
    exec (.pageSet iss ws) s = .next { s with dev := s.dev.pageSet iss ws } := by
  change onDev (guarded _ _) s = _
  simp [onDev, guarded, h]

section
variable {iss : Issuer} {ws : List W32} (hr : pageReserved ws = false)
include hr

theorem Dev.pageSet_unaligned (ha : addrAt ws 2 % frameBytes ≠ 0) (d : Dev) :
    d.pageSet iss ws = d.reject (ticketOf iss ws) eAlign := by
  unfold pageReserved at hr
  simp [Dev.pageSet, firstFail, hr, ha]

theorem Dev.pageSet_outOfRange (ha : addrAt ws 2 % frameBytes = 0) (hn : wfld ws 1 1 0 = 3 ∨ wfld ws 4 16 0 = 0 ∨ 65536 < wfld ws 4 16 0) (d : Dev) :
    d.pageSet iss ws = d.reject (ticketOf iss ws) eRange := by
  unfold pageReserved at hr
  simp [Dev.pageSet, firstFail, hr, ha, hn]

variable (ha : addrAt ws 2 % frameBytes = 0) (hact : wfld ws 1 1 0 ≠ 3) (hn : wfld ws 4 16 0 ≠ 0) (hm : wfld ws 4 16 0 ≤ 65536)
include ha hact hn hm

/-- A PAGE_SET whose words hold is checked against the device. -/
theorem Dev.pageSet_checked (d : Dev) : let ld := d.issLd iss
    d.pageSet iss ws = d.command (ticketOf iss ws)
    (firstFail (([(!d.isControl ld (d.issDom iss) ∨ (wfld ws 1 1 0 = 0 ∧ !d.ownsDom ld (wfld ws 1 27 16)) ∨
          (pageAddrs ws).any (d.frameOut ld), ePerm)] : Checks) ++
        (if wfld ws 1 1 0 = 0 then d.domStateCheck (wfld ws 1 27 16) .open else []) ++
        ([((pageFrames ws).any fun f => (d.tag f).st != if wfld ws 1 1 0 = 0 then TagState.free else .assigned, eState)] : Checks)))
    fun d => if wfld ws 1 1 0 = 2 then (d.retag (pageFlags ws) (pageFrames ws)).done (ticketOf iss ws) 0
      else d.pageFill iss ws ld (if wfld ws 1 1 0 = 0 then pageAssign ws else pageRelease) := by
  unfold pageReserved at hr
  have hlow : ¬(wfld ws 1 1 0 = 3 ∨ wfld ws 4 16 0 = 0 ∨ 65536 < wfld ws 4 16 0) := by omega
  unfold Dev.pageSet
  simp only [firstFail, hr, ha, hlow, ne_eq, not_true_eq_false, decide_false, Bool.false_eq_true, if_false]
  by_cases h0 : wfld ws 1 1 0 = 0
  · simp only [h0, if_true]
    rfl
  · simp only [h0, if_false]
    rfl

theorem Dev.pageSet_denied {d : Dev} (h : d.isControl (d.issLd iss) (d.issDom iss) = false ∨
      (wfld ws 1 1 0 = 0 ∧ d.ownsDom (d.issLd iss) (wfld ws 1 27 16) = false) ∨ (pageAddrs ws).any (d.frameOut (d.issLd iss)) = true) :
    d.pageSet iss ws = d.reject (ticketOf iss ws) ePerm := by
  have hb : decide (!d.isControl (d.issLd iss) (d.issDom iss) ∨ (wfld ws 1 1 0 = 0 ∧ !d.ownsDom (d.issLd iss) (wfld ws 1 27 16)) ∨
      (pageAddrs ws).any (d.frameOut (d.issLd iss))) = true := decide_eq_true (by simpa only [Bool.not_eq_true'] using h)
  rw [Dev.pageSet_checked hr ha hact hn hm, List.append_assoc, List.singleton_append, firstFail, if_pos hb]
  rfl

/-- A PAGE_SET within the rights of its issuer depends on the state of the domain and of the frames alone. -/
theorem Dev.pageSet_allowed {d : Dev} (hc : d.isControl (d.issLd iss) (d.issDom iss) = true)
    (ho : (pageAddrs ws).any (d.frameOut (d.issLd iss)) = false) (hd : wfld ws 1 1 0 = 0 → d.ownsDom (d.issLd iss) (wfld ws 1 27 16) = true) :
    d.pageSet iss ws = d.command (ticketOf iss ws)
      (firstFail ((if wfld ws 1 1 0 = 0 then d.domStateCheck (wfld ws 1 27 16) .open else []) ++
        ([((pageFrames ws).any fun f => (d.tag f).st != if wfld ws 1 1 0 = 0 then TagState.free else .assigned, eState)] : Checks)))
      fun e => if wfld ws 1 1 0 = 2 then (e.retag (pageFlags ws) (pageFrames ws)).done (ticketOf iss ws) 0
        else e.pageFill iss ws (d.issLd iss) (if wfld ws 1 1 0 = 0 then pageAssign ws else pageRelease) := by
  have hb : ¬decide (!d.isControl (d.issLd iss) (d.issDom iss) ∨ (wfld ws 1 1 0 = 0 ∧ !d.ownsDom (d.issLd iss) (wfld ws 1 27 16)) ∨
      (pageAddrs ws).any (d.frameOut (d.issLd iss))) = true := by
    rw [decide_eq_true_iff, hc, ho]
    rintro (h | ⟨h, hx⟩ | h)
    · cases h
    · rw [hd h] at hx
      cases hx
    · cases h
  rw [Dev.pageSet_checked hr ha hact hn hm, List.append_assoc, List.singleton_append, firstFail, if_neg hb]

end

/-! ## The state of the domain and of the frames -/

theorem any_tag_ne {d : Dev} {fs : List Nat} {t : TagState} : (fs.any fun f => (d.tag f).st != t) = true ↔ ∃ f ∈ fs, (d.tag f).st ≠ t := by
  simp

theorem any_tag_ne_eq_false {d : Dev} {fs : List Nat} {t : TagState} :
    (fs.any fun f => (d.tag f).st != t) = false ↔ ∀ f ∈ fs, (d.tag f).st = t := by
  simp

section
variable {iss : Issuer} {ws : List W32} {d : Dev} (hr : pageReserved ws = false) (ha : addrAt ws 2 % frameBytes = 0)
  (hn : wfld ws 4 16 0 ≠ 0) (hm : wfld ws 4 16 0 ≤ 65536) (hc : d.isControl (d.issLd iss) (d.issDom iss) = true)
  (ho : (pageAddrs ws).any (d.frameOut (d.issLd iss)) = false)
include hr ha hn hm hc ho

section
variable (h0 : wfld ws 1 1 0 = 0) (hd : d.ownsDom (d.issLd iss) (wfld ws 1 27 16) = true)
include h0 hd

theorem Dev.pageSet_assign : d.pageSet iss ws = d.command (ticketOf iss ws)
    (firstFail (d.domStateCheck (wfld ws 1 27 16) .open ++ [((pageFrames ws).any fun f => (d.tag f).st != .free, eState)]))
    (Dev.pageFill iss ws (d.issLd iss) (pageAssign ws)) := by
  rw [Dev.pageSet_allowed hr ha (by omega) hn hm hc ho fun _ => hd]
  simp only [h0, if_true]
  rfl

theorem Dev.pageSet_assign_closed (h : (d.dom (wfld ws 1 27 16)).st = .closed) : d.pageSet iss ws = d.reject (ticketOf iss ws) eState := by
  rw [Dev.pageSet_assign hr ha hn hm hc ho h0 hd]
  simp [Dev.domStateCheck, firstFail, h, Dev.command]

theorem Dev.pageSet_assign_closing (h : (d.dom (wfld ws 1 27 16)).st = .closing) : d.pageSet iss ws = d.reject (ticketOf iss ws) eDisabled := by
  rw [Dev.pageSet_assign hr ha hn hm hc ho h0 hd]
  simp [Dev.domStateCheck, firstFail, h, Dev.command]

variable (hs : (d.dom (wfld ws 1 27 16)).st = .open)
include hs

theorem Dev.pageSet_assign_taken (h : ∃ f ∈ pageFrames ws, (d.tag f).st ≠ .free) : d.pageSet iss ws = d.reject (ticketOf iss ws) eState := by
  rw [Dev.pageSet_assign hr ha hn hm hc ho h0 hd, any_tag_ne.mpr h]
  simp [Dev.domStateCheck, firstFail, hs, Dev.command]

theorem Dev.pageSet_assign_free (h : ∀ f ∈ pageFrames ws, (d.tag f).st = .free) :
    d.pageSet iss ws = (d.accept (ticketOf iss ws)).pageFill iss ws (d.issLd iss) (pageAssign ws) := by
  rw [Dev.pageSet_assign hr ha hn hm hc ho h0 hd, any_tag_ne_eq_false.mpr h]
  simp [Dev.domStateCheck, firstFail, hs, Dev.command]

end

theorem Dev.pageSet_release_refused (h1 : wfld ws 1 1 0 = 1) (h : ∃ f ∈ pageFrames ws, (d.tag f).st ≠ .assigned) :
    d.pageSet iss ws = d.reject (ticketOf iss ws) eState := by
  rw [Dev.pageSet_allowed hr ha (by omega) hn hm hc ho (by omega)]
  simp only [h1, Nat.one_ne_zero, if_false, List.nil_append, firstFail, any_tag_ne.mpr h, if_true]
  rfl

theorem Dev.pageSet_release (h1 : wfld ws 1 1 0 = 1) (h : ∀ f ∈ pageFrames ws, (d.tag f).st = .assigned) :
    d.pageSet iss ws = (d.accept (ticketOf iss ws)).pageFill iss ws (d.issLd iss) pageRelease := by
  rw [Dev.pageSet_allowed hr ha (by omega) hn hm hc ho (by omega)]
  simp [h1, firstFail, any_tag_ne_eq_false.mpr h, Dev.command]

theorem Dev.pageSet_flags (h2 : wfld ws 1 1 0 = 2) (h : ∀ f ∈ pageFrames ws, (d.tag f).st = .assigned) :
    d.pageSet iss ws = ((d.accept (ticketOf iss ws)).retag (pageFlags ws) (pageFrames ws)).done (ticketOf iss ws) 0 := by
  rw [Dev.pageSet_allowed hr ha (by omega) hn hm hc ho (by omega)]
  simp [h2, firstFail, any_tag_ne_eq_false.mpr h, Dev.command]

end

/-- What begins zero fills changes tags and the list of jobs alone. -/
theorem Dev.pageFill_frame (iss : Issuer) (ws : List W32) (ld : Nat) (g : PageTag → PageTag) (d : Dev) :
    d.pageFill iss ws ld g = { d with tags := (d.pageFill iss ws ld g).tags, pageJobs := (d.pageFill iss ws ld g).pageJobs } := by
  unfold Dev.pageFill
  dsimp only
  rw [Dev.retag_frame]

theorem Dev.tag_accept (t : Ticket) (d : Dev) (f : Nat) : (d.accept t).tag f = d.tag f := by rw [Dev.accept_frame]; rfl

theorem Dev.tag_pageFill {g : PageTag → PageTag} (hg : ∀ x, g (g x) = g x) (iss : Issuer) (ws : List W32) (ld : Nat) (t : Ticket) (d : Dev)
    (f : Nat) : ((d.accept t).pageFill iss ws ld g).tag f = if f ∈ pageFrames ws then g (d.tag f) else d.tag f := by
  rw [← Dev.tag_accept t d f]
  exact Dev.tag_retag hg _ _ f

/-- The job a PAGE_SET leaves for its zero fills. -/
theorem Dev.pageJobs_pageFill (iss : Issuer) (ws : List W32) (ld : Nat) (g : PageTag → PageTag) (t : Ticket) (d : Dev) :
    ∃ j : MgmtJob, ((d.accept t).pageFill iss ws ld g).pageJobs = d.pageJobs ++ [j] ∧ j.tkt = ticketOf iss ws ∧ j.left = pageFrames ws := by
  have h : ((d.accept t).retag g (pageFrames ws)).pageJobs = d.pageJobs := by rw [Dev.retag_frame, Dev.accept_frame]
  exact ⟨_, congrArg (· ++ _) h, rfl, rfl⟩

/-! ## The zero fill of a frame (R470) -/

theorem Dev.closeAdvance_of_not_closing {d : Dev} {k : Nat} (h : (d.dom k).st ≠ .closing) : d.closeAdvance k = d := by
  rw [Dev.closeAdvance, if_neg fun hc => h hc.1]

/-- The tag of a frame whose zero fill is over. -/
def PageTag.filled (x : PageTag) : PageTag := if x.release then PageTag.init else { x with st := .assigned }

/-- The device once a frame is zero and has its new tag. -/
def Dev.frameFilled (f : Nat) (d : Dev) : Dev :=
  ({ d with mem := Mem.clear d.mem (frameAddr f) (frameAddr f + frameBytes) } : Dev).setTag f (d.tag f).filled

section
variable {f : Nat} {d : Dev} (hq : d.quiet) (ht : (d.tag f).st = .zeroing) (hd : (d.dom (d.tag f).domain.toNat).st ≠ .closing)
include hq ht hd

theorem Dev.pageFilled_alone (hj : d.pageJobs = []) : d.pageFilled f = d.frameFilled f := by
  have hnone : d.pageJobs.find? (fun j => j.left.contains f) = none := by rw [hj]; rfl
  unfold Dev.pageFilled
  dsimp only
  rw [if_neg (not_not.mpr ht), Dev.zeroRange_quiet hq, Dev.setTag_pageJobs, hnone]
  exact Dev.closeAdvance_of_not_closing (d := d.frameFilled f) hd

theorem Dev.pageFilled_last {j : MgmtJob} (hj : d.pageJobs = [j]) (hl : j.left = [f]) :
    d.pageFilled f = ({ d.frameFilled f with pageJobs := [] } : Dev).done j.tkt 0 := by
  unfold Dev.pageFilled
  dsimp only
  rw [if_neg (not_not.mpr ht), Dev.zeroRange_quiet hq, Dev.setTag_pageJobs, hj, List.find?_cons_of_pos (by simp [hl])]
  simp only [hl, List.filter_cons, bne_self_eq_false, Bool.false_eq_true, if_false, List.filter_nil, List.isEmpty_nil, if_true]
  refine Dev.closeAdvance_of_not_closing ?_
  rw [Dev.dom, Dev.done, Dev.domains_finish]
  exact hd

end

theorem Dev.byte_frameFilled (f : Nat) (d : Dev) (a : Nat) :
    (d.frameFilled f).byte a = if frameAddr f ≤ a ∧ a < frameAddr f + frameBytes then 0 else d.byte a := Mem.read_clear ..

theorem Dev.byte_frameFilled_inside (f : Nat) (d : Dev) {i : Nat} (h : i < frameBytes) : (d.frameFilled f).byte (frameAddr f + i) = 0 := by
  rw [Dev.byte_frameFilled, if_pos (by omega)]

theorem Dev.tag_frameFilled (f k : Nat) (d : Dev) : (d.frameFilled f).tag k = if k = f then (d.tag f).filled else d.tag k := Map.get_set ..

theorem exec_pageZeroFillComplete {s : State} (h : s.dev.snoops = []) (f : Nat) :
    exec (.pageZeroFillComplete f) s = .next { s with dev := s.dev.pageFilled f } := onMem_quiet h _

/-! ## The message (R472) -/

section
variable {ld : Nat} {d : Dev} (hb : d.mbxReady ld 0 = true) (hk : d.isMsg ld 0x020 = true)
include hb hk

theorem Dev.pageSetMsg_early (h : ((d.ld ld).mbx 0).sentAt ≠ 2) : d.pageSetMsg ld =
    d.reject (ticketOf (.msg ld) (0x83 :: (List.range 4).map fun i => d.mbxWord ld 0 (i + 1))) eState := by
  unfold Dev.pageSetMsg
  rw [hb, hk]
  exact if_pos h

theorem Dev.pageSetMsg_served (h : ((d.ld ld).mbx 0).sentAt = 2) (hs : (d.ld ld).ctl.st = .enabled) : d.pageSetMsg ld =
    d.pageSet (.msg ld) (0x83 :: (List.range 4).map fun i => d.mbxWord ld 0 (i + 1)) := by
  unfold Dev.pageSetMsg
  rw [hb, hk]
  exact (if_neg (not_not.mpr h)).trans (if_neg (not_not.mpr hs))

end

/-! ## The statement -/

/-- Settles O50: the reach of HBM3E follows the frame's tag, and PAGE_SET and the zero fills take the tag through its states. -/
theorem pagesAreTagged : Obligations.PagesAreTagged := by
  unfold Obligations.PagesAreTagged
  refine ⟨fun d rq w n o h hn ho => d.mayReach_mapSlice w h hn ho, ?_, ?_, ?_, ?_⟩
  · intro d rq w a f n o h hp hf t
    rw [d.mayReach_hbm w h hp hf]
    refine ⟨?_, fun ht => ?_, fun ht hl ho => ?_⟩
    · rintro (hl | hl)
      · simp [Nat.not_lt_of_le hl]
      · simp [hl]
    · rw [Dev.tagPermits_of_not_assigned h ht, Bool.and_false]
    · rw [decide_eq_true hl, ho, beq_self_eq_true]
      refine ⟨fun l dom e => ?_, fun l e => ?_, fun l e => ?_⟩
      · subst e
        simp [Dev.tagPermits_eng ht, t]
      · subst e
        simp [Dev.tagPermits_cxl ht, t]
      · subst e
        simp [Dev.tagPermits_cassum ht, t]
  · intro iss ws s hop tk ld act dom a n addrs frames no flags hr
    rw [exec_pageSet hop]
    have hno : ∀ {e}, s.dev.pageSet iss ws = s.dev.reject tk e → no e := fun h => by
      simp only [no]
      rw [exec_pageSet hop, h]
    refine ⟨fun ha => hno (Dev.pageSet_unaligned hr ha _), fun ha h => hno (Dev.pageSet_outOfRange hr ha h _), fun ha hact hn hm =>
      ⟨fun h => hno (Dev.pageSet_denied hr ha hact hn hm h), fun hc ho => ⟨fun h0 hd => ?_, fun h1 => ?_, fun h2 h => ?_⟩⟩⟩
    · refine ⟨fun hs => hno (Dev.pageSet_assign_closed hr ha hn hm hc ho h0 hd hs),
        fun hs => hno (Dev.pageSet_assign_closing hr ha hn hm hc ho h0 hd hs), fun hs =>
        ⟨fun h => hno (Dev.pageSet_assign_taken hr ha hn hm hc ho h0 hd hs h), fun h => ?_⟩⟩
      rw [Dev.pageSet_assign_free hr ha hn hm hc ho h0 hd hs h]
      exact ⟨_, rfl, by rw [← Dev.pageFill_frame], Dev.tag_pageFill (pageAssign_pageAssign ws) _ _ _ _ _, Dev.pageJobs_pageFill ..⟩
    · refine ⟨fun h => hno (Dev.pageSet_release_refused hr ha hn hm hc ho h1 h), fun h => ?_⟩
      rw [Dev.pageSet_release hr ha hn hm hc ho h1 h]
      exact ⟨_, rfl, by rw [← Dev.pageFill_frame], Dev.tag_pageFill pageRelease_pageRelease _ _ _ _ _⟩
    · rw [Dev.pageSet_flags hr ha hn hm hc ho h2 h]
      refine ⟨_, rfl, Dev.retag_frame _ _ _, fun f => ?_⟩
      rw [Dev.tag_retag (pageFlags_pageFlags ws), Dev.tag_accept]
      rfl
  · intro ld s hb hk ws
    refine ⟨fun h => ?_, fun h hs => ?_⟩
    · exact congrArg (fun d => Host.Outcome.next { s with dev := d }) (Dev.pageSetMsg_early hb hk h)
    · rw [exec_pageSet rfl]
      exact congrArg (fun d => Host.Outcome.next { s with dev := d }) (Dev.pageSetMsg_served hb hk h hs)
  · intro f s hq hm hf ht hd x y a
    rw [exec_pageZeroFillComplete hq.2.2.1]
    refine ⟨fun hj => ?_, fun j hj hl => ?_⟩
    · rw [Dev.pageFilled_alone hq ht hd hj]
      refine ⟨_, rfl, rfl, fun k => Dev.tag_frameFilled f k s.dev, fun i hi => Dev.byte_frameFilled_inside f _ hi, fun b hb => ?_⟩
      rw [Dev.byte_frameFilled, if_neg (by omega)]
    · rw [Dev.pageFilled_last hq ht hd hj hl]
      refine ⟨{ s.dev.frameFilled f with pageJobs := [] }, rfl, Dev.tag_setTag_same _ _ _, fun i hi => ?_, rfl⟩
      exact (Dev.byte_frameFilled_inside f s.dev hi :)

end Sys2Proof.Machine
end

section
/-! SUPPORT. Commands of the update engines: their acceptance (R369, R375, R377, R378, R387, R396). -/

namespace Sys2Proof.Machine

theorem firstFail_append_some {cs ds : Checks} {c : Code} (h : firstFail cs = some c) : firstFail (cs ++ ds) = some c := by
  induction cs with
  | nil => cases h
  | cons x cs ih =>
    obtain ⟨b, e⟩ := x
    cases b with
    | true => exact h
    | false => exact ih h

theorem firstFail_append_none {cs ds : Checks} (h : firstFail cs = none) : firstFail (cs ++ ds) = firstFail ds := by
  induction cs with
  | nil => rfl
  | cons x cs ih =>
    obtain ⟨b, e⟩ := x
    cases b with
    | true => cases h
    | false => exact ih h

theorem exec_updAccept {op : Nat} {c : Instr} {iss : Issuer} {body : List W32} {s : State} (hq : s.dev.snoops = [])
    (h : (op, c) ∈ [(0x70, Instr.update iss body), (0x71, .fetch iss body), (0x72, .fpcheck iss body), (0x73, .dfsApply iss body)]) :
    exec c s = .next { s with dev := s.dev.updAccept op iss body } := by
  simp only [List.mem_cons, Prod.mk.injEq, List.not_mem_nil, or_false] at h
  rcases h with ⟨rfl, rfl⟩ | ⟨rfl, rfl⟩ | ⟨rfl, rfl⟩ | ⟨rfl, rfl⟩ <;> exact onMem_quiet hq _

/-- A command of an update engine as it joins the queue. -/
def Dev.newUpd (d : Dev) (op : Nat) (iss : Issuer) (ws shard : List W32) : UpdCmd :=
  { id := d.nextId, tkt := ticketOf iss ws, ld := d.issLd iss, dom := d.issDom iss, op := op, words := ws, shard := shard,
    die := (shardOf shard).die, phase := .waiting, blk := (blkRange op ws).1, tries := 0, stop := false, stopCode := 0, count := 0,
    stale := 0, match31 := false, lastMove := 0, startAt := 0, off := 0, ncmd0 := 0, pend := [], commit := [], colEnd := none,
    colGot := [], prog := if op = 0x70 ∧ wfld ws 0 9 8 = 2 then updProg d ws else [], spare := false }

theorem ticketOf_op {op : Nat} {iss : Issuer} {ws : List W32} (h : wfld ws 0 7 0 = op) : (ticketOf iss ws).op = op := h

section
variable {op : Nat} {iss : Issuer} {ws : List W32} {d : Dev} (hop : wfld ws 0 7 0 = op)
include hop

theorem Dev.updAccept_front {c : Code}
    (h : firstFail (updStatic op ws ++ [((d.busCode (.eng (d.issLd iss) (d.issDom iss)) false (addr44 ws 1) 64).isSome, ePerm)]) = some c) :
    d.updAccept op iss ws = d.reject (ticketOf iss ws) c := by
  unfold Dev.updAccept
  dsimp only
  rw [if_neg (not_not.mpr (ticketOf_op hop)), h]

variable (hq : d.quiet)
  (hf : firstFail (updStatic op ws ++ [((d.busCode (.eng (d.issLd iss) (d.issDom iss)) false (addr44 ws 1) 64).isSome, ePerm)]) = none)
include hq hf

theorem Dev.updAccept_shape {c : Code} (h : firstFail (d.updShape (d.issLd iss) (d.issDom iss) op ws (d.refsAt (addr44 ws 1) 16)) = some c) :
    d.updAccept op iss ws = d.reject (ticketOf iss ws) c := by
  unfold Dev.updAccept
  dsimp only
  rw [if_neg (not_not.mpr (ticketOf_op hop)), hf, Dev.readBytes_quiet hq]
  unfold Dev.refsAt at h
  dsimp only
  rw [h]

variable (hs : firstFail (d.updShape (d.issLd iss) (d.issDom iss) op ws (d.refsAt (addr44 ws 1) 16)) = none)
include hs

theorem Dev.updAccept_waits (hj : (d.die (shardOf (d.refsAt (addr44 ws 1) 16)).die).joined = false)
    (ha : (d.die (shardOf (d.refsAt (addr44 ws 1) 16)).die).absent = false) : d.updAccept op iss ws = d := by
  unfold Dev.updAccept
  dsimp only
  rw [if_neg (not_not.mpr (ticketOf_op hop)), hf, Dev.readBytes_quiet hq]
  unfold Dev.refsAt at hs hj ha
  dsimp only
  rw [hs]
  dsimp only
  rw [hj, ha]
  rfl

theorem Dev.updAccept_checked (hd : (d.die (shardOf (d.refsAt (addr44 ws 1) 16)).die).joined = true ∨
      (d.die (shardOf (d.refsAt (addr44 ws 1) 16)).die).absent = true) :
    d.updAccept op iss ws = d.command (ticketOf iss ws)
      (firstFail (d.updChecks (d.issLd iss) (d.issDom iss) op ws (d.refsAt (addr44 ws 1) 16) ++
        [((d.die (shardOf (d.refsAt (addr44 ws 1) 16)).die).absent, eState)]))
      fun e => { e with upds := e.upds ++ [{ d.newUpd op iss ws (d.refsAt (addr44 ws 1) 16) with id := e.nextId }], nextId := e.nextId + 1 } := by
  unfold Dev.updAccept
  dsimp only
  rw [if_neg (not_not.mpr (ticketOf_op hop)), hf, Dev.readBytes_quiet hq]
  unfold Dev.refsAt at hs hd ⊢
  dsimp only
  rw [hs]
  dsimp only
  rw [if_neg, Dev.readAll_quiet hq]
  · rfl
  · rw [Bool.and_eq_true, Bool.not_eq_true', Bool.not_eq_true']
    rintro ⟨hj, ha⟩
    rcases hd with hd | hd
    · rw [hj] at hd; cases hd
    · rw [ha] at hd; cases hd

theorem Dev.updAccept_rejects (hd : (d.die (shardOf (d.refsAt (addr44 ws 1) 16)).die).joined = true ∨
      (d.die (shardOf (d.refsAt (addr44 ws 1) 16)).die).absent = true) {c : Code}
    (h : firstFail (d.updChecks (d.issLd iss) (d.issDom iss) op ws (d.refsAt (addr44 ws 1) 16)) = some c) :
    d.updAccept op iss ws = d.reject (ticketOf iss ws) c := by
  rw [Dev.updAccept_checked hop hq hf hs hd, firstFail_append_some h]
  rfl

variable (h : firstFail (d.updChecks (d.issLd iss) (d.issDom iss) op ws (d.refsAt (addr44 ws 1) 16)) = none)
include h

theorem Dev.updAccept_absent (ha : (d.die (shardOf (d.refsAt (addr44 ws 1) 16)).die).absent = true) :
    d.updAccept op iss ws = d.reject (ticketOf iss ws) eState := by
  rw [Dev.updAccept_checked hop hq hf hs (.inr ha), firstFail_append_none h, ha]
  rfl

theorem Dev.updAccept_joins (hj : (d.die (shardOf (d.refsAt (addr44 ws 1) 16)).die).joined = true)
    (ha : (d.die (shardOf (d.refsAt (addr44 ws 1) 16)).die).absent = false) :
    d.updAccept op iss ws = { d.accept (ticketOf iss ws) with
      upds := d.upds ++ [d.newUpd op iss ws (d.refsAt (addr44 ws 1) 16)]
      nextId := d.nextId + 1 } := by
  rw [Dev.updAccept_checked hop hq hf hs (.inl hj), firstFail_append_none h, ha, Dev.accept_frame]
  rw [firstFail, if_neg (by decide), firstFail, Dev.command, Dev.accept_frame]
  rfl

end

end Sys2Proof.Machine
end

section
/-! SUPPORT. UPDATE_ENGINE_START (R377, R379). -/

namespace Sys2Proof.Machine

theorem exec_updateEngineStart {s : State} (h : s.dev.snoops = []) (die : Nat) :
    exec (.updateEngineStart die) s = .next { s with dev := s.dev.updStart s.now die } :=
  onMemAt_quiet h fun now => Dev.updStart now die

/-- A command whose number no command behind it bears is replaced at the head of the queue alone. -/
theorem Dev.putUpd_head {d : Dev} {c : UpdCmd} {rest : List UpdCmd} (h : d.upds = c :: rest) (hr : ∀ x ∈ rest, x.id ≠ c.id) {y : UpdCmd}
    (hy : y.id = c.id) : d.putUpd y = { d with upds := y :: rest } := by
  have hm : (c :: rest).map (fun x => if x.id = y.id then y else x) = y :: rest := by
    rw [List.map_cons, if_pos hy.symm]
    congr 1
    exact (List.map_congr_left fun x hx => if_neg (by rw [hy]; exact hr x hx)).trans (List.map_id rest)
  rw [Dev.putUpd, h, hm]

/-- The records of a range of blocks. -/
theorem mem_blockRecs {d : Dev} {s : Shard} {op : Nat} {ws : List W32} {r : BlkRec} :
    r ∈ blockRecs d s op ws ↔ ∃ i < (blkRange op ws).2, blkRec (d.bytes (s.rec_ ((blkRange op ws).1 + i)) 32) = r := by
  unfold blockRecs
  simp only [List.mem_map, List.mem_range]

/-! ## The next block of an UPDATE (R379) -/

/-- Blocks at T are passed over. -/
theorem Dev.updateNext_skip (now : W64) (c : UpdCmd) (f : Nat) (d : Dev) : ∀ (k b : Nat), b + k ≤ c.last →
    (∀ j < k, (blkRec (d.bytes (c.sh.rec_ (b + j)) 32)).wEpoch = c.epoch) → Dev.updateNext now c (f + k) b d = Dev.updateNext now c f (b + k) d
  | 0, _, _, _ => rfl
  | k + 1, b, hl, h => by
    have ih := Dev.updateNext_skip now c f d k (b + 1) (by omega) fun j hj => by
      have := h (j + 1) (by omega)
      rwa [show b + 1 + j = b + (j + 1) by omega]
    rw [show f + (k + 1) = (f + k) + 1 by omega, Dev.updateNext, if_neg (by omega)]
    dsimp only
    have h0 : (blkRec (d.bytes (c.sh.rec_ b) 32)).wEpoch = c.epoch := h 0 (by omega)
    rw [if_pos h0, ih, show b + 1 + k = b + (k + 1) by omega]

theorem Dev.updateNext_end (now : W64) (c : UpdCmd) {b : Nat} (h : c.last ≤ b) (f : Nat) (d : Dev) :
    Dev.updateNext now c (f + 1) b d = d.updEnd now c 0 false 0 := by
  rw [Dev.updateNext, if_pos h]

theorem Dev.updateNext_stop (now : W64) (c : UpdCmd) {b : Nat} (h : b < c.last) (f : Nat) (d : Dev)
    (hr : (blkRec (d.bytes (c.sh.rec_ b) 32)).wEpoch ≠ c.epoch) : Dev.updateNext now c (f + 1) b d =
      d.putUpd { c with
        blk := b
        phase := if (blkRec (d.bytes (c.sh.rec_ b) 32)).mEpoch = c.epoch then .between else .moment
        tries := b2n ((blkRec (d.bytes (c.sh.rec_ b) 32)).mEpoch = c.epoch) } := by
  rw [Dev.updateNext, if_neg (Nat.not_le.mpr h)]
  exact if_neg hr

/-! ## The first waiting command (R377) -/

/-- A command as its engine begins it. -/
def Dev.begun (d : Dev) (now : W64) (c : UpdCmd) : UpdCmd := { c with startAt := now, lastMove := now, ncmd0 := (d.ld c.ld).upd.ncmd }

/-- Whether an UPDATE to T may begin over a record. -/
def BlkRec.startsAt (t : Nat) (r : BlkRec) : Bool := (r.wEpoch == t && r.mEpoch == t) || (r.wEpoch + 1 == t && (r.mEpoch + 1 == t || r.mEpoch == t))

theorem BlkRec.startsAt_iff {t : Nat} {r : BlkRec} :
    r.startsAt t = true ↔ (r.wEpoch = t ∧ r.mEpoch = t) ∨ (r.wEpoch + 1 = t ∧ (r.mEpoch + 1 = t ∨ r.mEpoch = t)) := by
  simp only [BlkRec.startsAt, Bool.or_eq_true, Bool.and_eq_true, beq_iff_eq]

theorem Dev.updStart_busy {d : Dev} {die : Nat} (h : (d.running die).isSome = true) (now : W64) : d.updStart now die = d := if_pos h

section
variable {d : Dev} {die : Nat} {c : UpdCmd} {rest : List UpdCmd} (hq : d.quiet) (hu : d.upds = c :: rest) (hd : c.die = die)
  (hi : (d.running die).isSome = false) (now : W64)
include hq hu hd hi

theorem Dev.updStart_update (hop : c.op = 0x70) : d.updStart now die =
    if (blockRecs d c.sh c.op c.words).any BlkRec.suspect then d.updEnd now { d.begun now c with phase := .moment } eState false 0
    else if !(blockRecs d c.sh c.op c.words).all (BlkRec.startsAt c.epoch) then d.updEnd now { d.begun now c with phase := .moment } eUpdEpoch false 0
    else d.updateNext now { d.begun now c with phase := .moment } (c.range.2 + 1) c.blk := by
  have hf : d.upds.find? (fun c => c.die == die) = some c := by rw [hu, List.find?_cons_of_pos (by simp [hd])]
  unfold Dev.updStart
  rw [if_neg (by rw [hi]; decide), hf]
  dsimp only
  rw [Dev.readAll_quiet hq]
  dsimp only
  rw [if_pos hop]
  rfl

theorem Dev.updStart_suspect (hop : c.op = 0x70) (h : ∃ r ∈ blockRecs d c.sh c.op c.words, r.suspect = true) :
    d.updStart now die = d.updEnd now { d.begun now c with phase := .moment } eState false 0 := by
  rw [Dev.updStart_update hq hu hd hi now hop, if_pos (List.any_eq_true.mpr h)]

theorem Dev.updStart_epoch (hop : c.op = 0x70) (hs : ∀ r ∈ blockRecs d c.sh c.op c.words, r.suspect = false)
    (h : ∃ r ∈ blockRecs d c.sh c.op c.words, ¬r.startsAt c.epoch = true) :
    d.updStart now die = d.updEnd now { d.begun now c with phase := .moment } eUpdEpoch false 0 := by
  have hsus : (blockRecs d c.sh c.op c.words).any BlkRec.suspect = false := List.any_eq_false.mpr fun r hr => by rw [hs r hr]; decide
  obtain ⟨r, hm, hn⟩ := h
  rw [Dev.updStart_update hq hu hd hi now hop, hsus, if_neg (by decide), if_pos]
  rw [Bool.not_eq_true', List.all_eq_false]
  exact ⟨r, hm, hn⟩

/-- The blocks of a range below its k-th that stand at T are passed over. -/
theorem Dev.updStart_skip (hop : c.op = 0x70) (hs : ∀ r ∈ blockRecs d c.sh c.op c.words, r.suspect = false ∧ r.startsAt c.epoch = true)
    (hb : c.blk = c.range.1) {k : Nat} (hk : k ≤ c.range.2) (hat : ∀ j < k, (blkRec (d.bytes (c.sh.rec_ (c.blk + j)) 32)).wEpoch = c.epoch) :
    d.updStart now die = d.updateNext now { d.begun now c with phase := .moment } (c.range.2 - k + 1) (c.blk + k) := by
  have hsus : (blockRecs d c.sh c.op c.words).any BlkRec.suspect = false := List.any_eq_false.mpr fun r hr => by rw [(hs r hr).1]; decide
  have hall : (blockRecs d c.sh c.op c.words).all (BlkRec.startsAt c.epoch) = true := List.all_eq_true.mpr fun r hr => (hs r hr).2
  have hlast : c.blk + k ≤ c.last := by rw [hb]; exact Nat.add_le_add_left hk _
  rw [Dev.updStart_update hq hu hd hi now hop, hsus, if_neg (by decide), hall, if_neg (by decide),
    show c.range.2 + 1 = (c.range.2 - k + 1) + k by omega]
  exact Dev.updateNext_skip now { d.begun now c with phase := .moment } _ d k c.blk hlast hat

theorem Dev.updStart_done (hop : c.op = 0x70) (hs : ∀ r ∈ blockRecs d c.sh c.op c.words, r.suspect = false)
    (h : ∀ r ∈ blockRecs d c.sh c.op c.words, r.wEpoch = c.epoch ∧ r.mEpoch = c.epoch) (hb : c.blk = c.range.1) :
    d.updStart now die = d.updEnd now { d.begun now c with phase := .moment } 0 false 0 := by
  rw [Dev.updStart_skip hq hu hd hi now hop (fun r hr => ⟨hs r hr, BlkRec.startsAt_iff.mpr (.inl (h r hr))⟩) hb (Nat.le_refl _)
    fun j hj => (h _ (mem_blockRecs.mpr ⟨j, hj, by rw [hb]; rfl⟩)).1]
  exact Dev.updateNext_end now { d.begun now c with phase := .moment } (by rw [hb]; exact Nat.le_refl _) _ d

theorem Dev.updStart_block (hop : c.op = 0x70) (hs : ∀ r ∈ blockRecs d c.sh c.op c.words, r.suspect = false ∧ r.startsAt c.epoch = true)
    (hb : c.blk = c.range.1) {k : Nat} (hk : k < c.range.2) (hat : ∀ j < k, (blkRec (d.bytes (c.sh.rec_ (c.blk + j)) 32)).wEpoch = c.epoch)
    (hr : (blkRec (d.bytes (c.sh.rec_ (c.blk + k)) 32)).wEpoch ≠ c.epoch) :
    d.updStart now die = d.putUpd { d.begun now c with
      blk := c.blk + k
      phase := if (blkRec (d.bytes (c.sh.rec_ (c.blk + k)) 32)).mEpoch = c.epoch then .between else .moment
      tries := b2n ((blkRec (d.bytes (c.sh.rec_ (c.blk + k)) 32)).mEpoch = c.epoch) } := by
  rw [Dev.updStart_skip hq hu hd hi now hop hs hb (Nat.le_of_lt hk) hat]
  exact Dev.updateNext_stop now { d.begun now c with phase := .moment } (by rw [hb]; exact Nat.add_lt_add_left hk _) _ d hr

theorem Dev.updStart_fetch (hop : c.op = 0x71) : d.updStart now die = d.fetchAsk now { d.begun now c with phase := .poll } false := by
  have hf : d.upds.find? (fun c => c.die == die) = some c := by rw [hu, List.find?_cons_of_pos (by simp [hd])]
  unfold Dev.updStart
  rw [if_neg (by rw [hi]; decide), hf]
  dsimp only
  rw [Dev.readAll_quiet hq]
  dsimp only
  rw [if_neg (by rw [hop]; decide), if_pos hop]
  rfl

theorem Dev.updStart_seal (hop : c.op = 0x72) (hm : wfld c.words 0 9 8 = 1) : d.updStart now die = d.putUpd { d.begun now c with phase := .scan } := by
  have hf : d.upds.find? (fun c => c.die == die) = some c := by rw [hu, List.find?_cons_of_pos (by simp [hd])]
  unfold Dev.updStart
  rw [if_neg (by rw [hi]; decide), hf]
  dsimp only
  rw [Dev.readAll_quiet hq]
  dsimp only
  rw [if_neg (by rw [hop]; decide), if_neg (by rw [hop]; decide), if_pos hop, if_pos (.inl hm)]
  rfl

theorem Dev.updStart_apply (hop : c.op = 0x73) : d.updStart now die = d.putUpd { d.begun now c with phase := .apply } := by
  have hf : d.upds.find? (fun c => c.die == die) = some c := by rw [hu, List.find?_cons_of_pos (by simp [hd])]
  unfold Dev.updStart
  rw [if_neg (by rw [hi]; decide), hf]
  dsimp only
  rw [Dev.readAll_quiet hq]
  dsimp only
  rw [if_neg (by rw [hop]; decide), if_neg (by rw [hop]; decide), if_neg (by rw [hop]; decide)]
  rfl

end

/-! ## A FETCH asks its source (R376) -/

theorem Dev.fetchAsk_sent {d : Dev} {c : UpdCmd} (hc : d.sendCode c.ld (c.source c.blk).1 3 = 0) (now : W64) (block : Bool) :
    d.fetchAsk now c block = ((d.fabClose c.ld fun x => x.serves == .fetch c.die).putUpd c).request c.ld (c.source c.blk).1 (.fetch c.die)
      (if block then .fetchBlock (c.source c.blk).2.1 else .fetchRecord (c.source c.blk).2.2) := by
  unfold Dev.fetchAsk
  exact if_neg (not_not.mpr hc)

/-- The registers of the fabric of an LD without the requests that satisfy a test. -/
def FabRegs.close (p : FabReq → Bool) (f : FabRegs) : FabRegs := { f with reqs := f.reqs.filter fun r => !p r }

/-- A request that is sent with a tag of its own: the message, and the fabric registers of its LD alone. -/
theorem Dev.request_sent {d : Dev} {ld : Nat} (h : (d.ld ld).fab.reqs.length < 65536) (did : Nat) (u : FabUse) (m : FabMsg) :
    let x := d.request ld did u m
    x = { d with lds := x.lds, out := x.out, ports := x.ports, net := x.net } ∧ d.told x ld did m ∧ (∀ n, n ≠ ld → x.ld n = d.ld n) ∧
      (x.ld ld).fab.reqs = (d.ld ld).fab.reqs ++ [{ tag := (d.ld ld).fab.freeTag, dst := BitVec.ofNat 14 did, age := 0, serves := u }] := by
  dsimp only
  rw [Dev.request_open h]
  refine ⟨?_, ⟨rfl, rfl, rfl⟩, fun n hn => ?_, ?_⟩
  · rw [Dev.fabOpen, Dev.modFab, Dev.modLd, Dev.setLd, Dev.tell_frame]
  · rw [Dev.fabOpen, Dev.modFab, Dev.ld_modLd_other _ _ hn, Dev.ld_tell]
  · rw [Dev.fabOpen, Dev.modFab, Dev.ld_modLd_same, Dev.ld_tell]

/-- A command that asks its source closes what it asked before, and opens one request. -/
theorem Dev.fetchAsk_open {d : Dev} {c : UpdCmd} (hc : d.sendCode c.ld (c.source c.blk).1 3 = 0) (hh : d.net.held = [])
    (hl : (d.ld c.ld).fab.reqs.length < 65536) (now : W64) (block : Bool) :
    let m : FabMsg := if block then .fetchBlock (c.source c.blk).2.1 else .fetchRecord (c.source c.blk).2.2
    let p := fun r : FabReq => r.serves == .fetch c.die
    let own := (d.ld c.ld).fab
    ∃ x, d.fetchAsk now c block = x ∧ x = { d.putUpd c with lds := x.lds, out := x.out, ports := x.ports, net := x.net } ∧
      (d.fabClose c.ld p).told x c.ld (c.source c.blk).1 m ∧ (∀ n, n ≠ c.ld → x.ld n = d.ld n) ∧
      (x.ld c.ld).fab.reqs = (own.close p).reqs ++
        [{ tag := (own.close p).freeTag, dst := BitVec.ofNat 14 (c.source c.blk).1, age := 0, serves := .fetch c.die }] := by
  dsimp only
  have hcl := Dev.fabClose_frame hh c.ld fun r => r.serves == .fetch c.die
  have hown : (((d.fabClose c.ld fun r => r.serves == .fetch c.die).putUpd c).ld c.ld).fab =
      (d.ld c.ld).fab.close fun r => r.serves == .fetch c.die := by
    rw [hcl]
    change ((d.modFab c.ld (FabRegs.close fun r => r.serves == .fetch c.die)).ld c.ld).fab = _
    rw [Dev.modFab, Dev.ld_modLd_same]
  have hlen : (((d.fabClose c.ld fun r => r.serves == .fetch c.die).putUpd c).ld c.ld).fab.reqs.length < 65536 := by
    rw [hown]
    exact Nat.lt_of_le_of_lt (List.length_filter_le _ _) hl
  obtain ⟨hf, ht, ho, hr⟩ := Dev.request_sent hlen (c.source c.blk).1 (.fetch c.die)
    (if block then .fetchBlock (c.source c.blk).2.1 else .fetchRecord (c.source c.blk).2.2)
  rw [Dev.fetchAsk_sent hc]
  rw [hown] at hr
  have hsame : (d.fabClose c.ld fun r => r.serves == .fetch c.die).SameFabric ((d.fabClose c.ld fun r => r.serves == .fetch c.die).putUpd c) :=
    ⟨rfl, rfl, rfl, rfl, fun _ => rfl, fun _ => rfl⟩
  refine ⟨_, rfl, ?_, ?_, fun n hn => ?_, hr⟩
  · refine hf.trans ?_
    rw [hcl]
    rfl
  · obtain ⟨h1, h2, h3⟩ := ht
    obtain ⟨k1, k2, k3⟩ := hsame.told c.ld (c.source c.blk).1 (if block then .fetchBlock (c.source c.blk).2.1 else .fetchRecord (c.source c.blk).2.2)
    exact ⟨h1.trans k1, h2.trans k2, h3.trans k3⟩
  · rw [ho n hn, hcl]
    change (d.modFab c.ld (FabRegs.close fun r => r.serves == .fetch c.die)).ld n = _
    rw [Dev.modFab, Dev.ld_modLd_other _ _ hn]

end Sys2Proof.Machine
end

section
/-! SUPPORT. Bytes written and read back, and the record of a block (R371). -/

namespace Sys2Proof.Machine

/-! ## Slices -/

theorem slice_self (bs : List Byte) : slice bs 0 bs.length = bs := by
  refine List.ext_getElem (by simp) fun i h1 h2 => ?_
  simp only [slice, List.getElem_map, List.getElem_range, Nat.zero_add]
  exact List.getD_eq_getElem _ _ h2

section
variable {f : Nat → List Byte} {L n : Nat} (hf : ∀ e, (f e).length = L)
include hf

theorem length_flatMap_range : ((List.range n).flatMap f).length = L * n := by
  rw [List.length_flatMap, List.map_congr_left fun e _ => hf e]
  simp [Nat.mul_comm]

theorem getD_flatMap_range {e i : Nat} (he : e < n) (hi : i < L) : ((List.range n).flatMap f).getD (L * e + i) 0 = (f e).getD i 0 := by
  induction n with
  | zero => cases he
  | succ n ih =>
    have hl : ((List.range n).flatMap f).length = L * n := length_flatMap_range hf
    rw [List.range_succ, List.flatMap_append, List.flatMap_singleton]
    rcases Nat.lt_succ_iff_lt_or_eq.mp he with h | rfl
    · have : L * e + i < L * n := by
        have := Nat.mul_le_mul_left L h
        rw [Nat.mul_succ] at this
        omega
      rw [List.getD_append _ _ _ _ (by omega), ih h]
    · rw [List.getD_append_right _ _ _ _ (by omega), hl, Nat.add_sub_cancel_left]

/-- A slice that lies in one of several pieces of one length. -/
theorem slice_flatMap_range {e o k : Nat} (he : e < n) (hk : o + k ≤ L) : slice ((List.range n).flatMap f) (L * e + o) k = slice (f e) o k := by
  refine List.map_congr_left fun i hi => ?_
  rw [Nat.add_assoc]
  exact getD_flatMap_range hf he (by have := List.mem_range.mp hi; omega)

end

/-! ## Memory -/

theorem Mem.readN_writeN_inside {m : Mem} (h : Mem.wf memDefault m = true) (a : Nat) (bs : List Byte) {o k : Nat} (hk : o + k ≤ bs.length) :
    Mem.readN memDefault (Mem.writeN memDefault m a bs) (a + o) k = slice bs o k := by
  refine List.map_congr_left fun i hi => ?_
  have hi : o + i < bs.length := by have := List.mem_range.mp hi; omega
  rw [Nat.add_assoc, Mem.read_writeN_inside a bs hi h, List.getD_eq_getElem _ _ hi]

theorem Mem.readN_writeN_self {m : Mem} (h : Mem.wf memDefault m = true) (a : Nat) {bs : List Byte} {n : Nat} (hn : n = bs.length) :
    Mem.readN memDefault (Mem.writeN memDefault m a bs) a n = bs := by
  subst hn
  have := Mem.readN_writeN_inside h a bs (o := 0) (k := bs.length) (by omega)
  rwa [slice_self] at this

theorem Mem.readN_writeN_apart (m : Mem) {a : Nat} {bs : List Byte} {x k : Nat} (h : x + k ≤ a ∨ a + bs.length ≤ x) :
    Mem.readN memDefault (Mem.writeN memDefault m a bs) x k = Mem.readN memDefault m x k :=
  List.map_congr_left fun i hi => Mem.read_writeN_outside m a bs (by have := List.mem_range.mp hi; omega)

/-! ## Block records -/

@[simp] theorem BlkRec.length_bytes (r : BlkRec) : r.bytes.length = 32 := by simp [BlkRec.bytes]

theorem bit_flags (x y : Bool) : bit (b2n x + 2 * b2n y) 0 = x ∧ bit (b2n x + 2 * b2n y) 1 = y := by
  cases x <;> cases y <;> decide

/-- A record reads as it was written, its numbers cut to their fields. -/
theorem blkRec_bytes (r : BlkRec) :
    blkRec r.bytes = { r with wEpoch := r.wEpoch % 2 ^ 48, mEpoch := r.mEpoch % 2 ^ 48, mism := r.mism % 2 ^ 16 } := by
  have hs : b2n r.suspect ≤ 1 := by cases r.suspect <;> decide
  have ht : b2n r.stale ≤ 1 := by cases r.stale <;> decide
  have hn : ofBytes r.bytes = r.wEpoch % 2 ^ 48 + 2 ^ 64 * ((r.mEpoch % 2 ^ 48 + 2 ^ 48 * b2n r.suspect + 2 ^ 49 * b2n r.stale) +
      2 ^ 64 * (r.fprint.toNat + 2 ^ 64 * (r.mism % 2 ^ 16))) := by
    have hf := r.fprint.isLt
    simp only [BlkRec.bytes, ofBytes_append, ofBytes_toBytes, length_toBytes, List.length_append]
    omega
  have hw : num r.bytes 0 6 = r.wEpoch % 2 ^ 48 := by rw [num_eq_div_mod, hn]; omega
  have hm : num r.bytes 8 6 = r.mEpoch % 2 ^ 48 := by rw [num_eq_div_mod, hn]; omega
  have hb : num r.bytes 14 1 = b2n r.suspect + 2 * b2n r.stale := by rw [num_eq_div_mod, hn]; omega
  have hf : num r.bytes 16 8 = r.fprint.toNat := by
    have := r.fprint.isLt
    rw [num_eq_div_mod, hn]
    omega
  have hi : num r.bytes 24 2 = r.mism % 2 ^ 16 := by
    have := r.fprint.isLt
    rw [num_eq_div_mod, hn]
    omega
  obtain ⟨h0, h1⟩ := bit_flags r.suspect r.stale
  rw [blkRec, hw, hm, hb, hf, hi, h0, h1, BitVec.ofNat_toNat, BitVec.setWidth_eq]

theorem blkRec_bytes_bytes (r : BlkRec) : (blkRec r.bytes).bytes = r.bytes := by
  rw [blkRec_bytes]
  simp only [BlkRec.bytes, Nat.mod_mod]

end Sys2Proof.Machine
end

section
/-! SUPPORT. The phases of an UPDATE (R380, R383, R385, R386). -/

namespace Sys2Proof.Machine

theorem exec_updateEnginePhaseEnd {s : State} (h : s.dev.snoops = []) (die : Nat) :
    exec (.updateEnginePhaseEnd die none) s = .next { s with dev := s.dev.phaseEnds s.now die none } :=
  onMemAt_quiet h fun now => Dev.phaseEnds now die none

/-! ## The running command -/

section
variable {d : Dev} {die : Nat} {c : UpdCmd} {rest : List UpdCmd} (hu : d.upds = c :: rest) (hd : c.die = die)
include hu hd

theorem Dev.running_head (hw : c.phase ≠ .waiting) : d.running die = some c := by
  rw [Dev.running, hu, List.find?_cons_of_pos]
  rw [Bool.and_eq_true, beq_iff_eq, bne_iff_ne]
  exact ⟨hd, hw⟩

variable (hr : d.updReach c = none) (now : W64)
include hr

theorem Dev.phaseEnds_moment (hp : c.phase = .moment) : d.phaseEnds now die none = d.momentEnd now c := by
  unfold Dev.phaseEnds
  rw [Dev.running_head hu hd (by rw [hp]; decide)]
  dsimp only
  rw [hr, if_neg (by simp), hp]

theorem Dev.phaseEnds_between (hp : c.phase = .between) : d.phaseEnds now die none = d.putUpd { c with phase := .weight } := by
  unfold Dev.phaseEnds
  rw [Dev.running_head hu hd (by rw [hp]; decide)]
  dsimp only
  rw [hr, if_neg (by simp), hp]

theorem Dev.phaseEnds_weight (hp : c.phase = .weight) : d.phaseEnds now die none = d.weightEnd now c := by
  unfold Dev.phaseEnds
  rw [Dev.running_head hu hd (by rw [hp]; decide)]
  dsimp only
  rw [hr, if_neg (by simp), hp]

end

/-! ## The moment phase -/

theorem Dev.quiet_mem {d : Dev} (h : d.quiet) (m : Mem) : ({ d with mem := m } : Dev).quiet :=
  Dev.quiet_of_sameKeys ⟨rfl, rfl, rfl, rfl, fun _ => rfl, fun _ => rfl⟩ h rfl rfl rfl

theorem Dev.quiet_mem_upds {d : Dev} (h : d.quiet) (m : Mem) (us : List UpdCmd) :
    ({ d with
        mem := m
        upds := us } : Dev).quiet :=
  Dev.quiet_of_sameKeys ⟨rfl, rfl, rfl, rfl, fun _ => rfl, fun _ => rfl⟩ h rfl rfl rfl

/-- The bytes of the new moments of a block. -/
def UpdCmd.momentBytes (c : UpdCmd) (d : Dev) : List Byte :=
  (List.range (c.sh.elems c.blk)).flatMap fun e => (c.moments d (c.blk * c.sh.perBlock + e)).flatMap (toBytes 4)

/-- Memory after a moment phase. -/
def UpdCmd.momentMem (c : UpdCmd) (d : Dev) : Mem :=
  Mem.writeN memDefault (Mem.writeN memDefault d.mem (c.sh.moment (c.epoch % 2) (c.blk * c.sh.perBlock) 0) (c.momentBytes d)) (c.sh.rec_ c.blk)
    ({ blkRec (d.bytes (c.sh.rec_ c.blk) 32) with mEpoch := c.epoch } : BlkRec).bytes

theorem UpdCmd.length_moments {c : UpdCmd} (h : (wfld c.words 0 9 8 = 0 ∧ c.sh.nmom = 2) ∨ (wfld c.words 0 9 8 = 1 ∧ c.sh.nmom = 1)) (d : Dev) (i : Nat) :
    (c.moments d i).length = c.sh.nmom := by
  unfold UpdCmd.moments
  rcases h with ⟨ha, hn⟩ | ⟨ha, hn⟩
  · simp [ha, hn]
  · simp [ha, hn]

/-- The first moment is the same mean of the gradients in AdamW and in SGD with momentum. -/
theorem UpdCmd.moments_first {c : UpdCmd} (h : wfld c.words 0 9 8 = 0 ∨ wfld c.words 0 9 8 = 1) (d : Dev) (i : Nat) :
    (c.moments d i).getD 0 0 = fmaF32 (c.h 2) (c.sh.momentAt d ((c.epoch + 1) % 2) i 0) (mulF32 (c.h 3) (mulF32 (c.grad d i) (c.h 0))) := by
  unfold UpdCmd.moments
  rcases h with h | h
  · simp [h]
  · simp [h]

theorem UpdCmd.moments_second {c : UpdCmd} (h : wfld c.words 0 9 8 = 0) (d : Dev) (i : Nat) :
    (c.moments d i).getD 1 0 = fmaF32 (c.h 4) (c.sh.momentAt d ((c.epoch + 1) % 2) i 1)
      (mulF32 (c.h 5) (mulF32 (mulF32 (c.grad d i) (c.h 0)) (mulF32 (c.grad d i) (c.h 0)))) := by
  unfold UpdCmd.moments
  simp [h]

theorem length_flatMap_toBytes (k : Nat) (xs : List Nat) : (xs.flatMap (toBytes k)).length = k * xs.length := by
  induction xs with
  | nil => rfl
  | cons x xs ih => rw [List.flatMap_cons, List.length_append, ih, length_toBytes, List.length_cons, Nat.mul_succ, Nat.add_comm]

/-- One of several numbers stored one after another. -/
theorem slice_flatMap_toBytes (n : Nat) {xs : List Nat} {k : Nat} (hk : k < xs.length) : slice (xs.flatMap (toBytes n)) (n * k) n = toBytes n (xs.getD k 0) := by
  have hx : xs.flatMap (toBytes n) = (List.range xs.length).flatMap fun i => toBytes n (xs.getD i 0) := by
    have hm : xs = (List.range xs.length).map fun i => xs.getD i 0 := by
      refine List.ext_getElem (by rw [List.length_map, List.length_range]) fun i h1 h2 => ?_
      rw [List.getElem_map, List.getElem_range, List.getD_eq_getElem _ _ h1]
    conv_lhs => rw [hm, List.flatMap_map]
  have h := slice_flatMap_range (f := fun i => toBytes n (xs.getD i 0)) (L := n) (fun _ => length_toBytes n _) hk (o := 0) (k := n) (by omega)
  rw [hx]
  refine h.trans ?_
  have hs := slice_self (toBytes n (xs.getD k 0))
  rwa [length_toBytes] at hs

section
variable {c : UpdCmd} (h : (wfld c.words 0 9 8 = 0 ∧ c.sh.nmom = 2) ∨ (wfld c.words 0 9 8 = 1 ∧ c.sh.nmom = 1)) (d : Dev)
include h

theorem UpdCmd.length_momentElem (e : Nat) : ((c.moments d (c.blk * c.sh.perBlock + e)).flatMap (toBytes 4)).length = 4 * c.sh.nmom := by
  rw [length_flatMap_toBytes, c.length_moments h]

theorem UpdCmd.length_momentBytes : (c.momentBytes d).length = 4 * c.sh.nmom * c.sh.elems c.blk :=
  length_flatMap_range (c.length_momentElem h d)

theorem Dev.momentEnd_quiet {d : Dev} (hq : d.quiet) (now : W64)
    (hx : c.sh.moment (c.epoch % 2) (c.blk * c.sh.perBlock) 0 + 4 * c.sh.nmom * c.sh.elems c.blk ≤ c.sh.rec_ c.blk ∨
      c.sh.rec_ c.blk + 32 ≤ c.sh.moment (c.epoch % 2) (c.blk * c.sh.perBlock) 0) :
    d.momentEnd now c = ({ d with mem := c.momentMem d } : Dev).putUpd { c with phase := .between } := by
  have hn : c.sh.nmom ≠ 0 := by rcases h with ⟨-, h⟩ | ⟨-, h⟩ <;> rw [h] <;> decide
  have hq1 := fun m => Dev.quiet_mem hq m
  unfold Dev.momentEnd
  dsimp only
  rw [Dev.readAll_quiet hq]
  dsimp only
  rw [if_neg hn, Dev.writeBytes_quiet hq, Dev.writeRec, Dev.writeBytes_quiet (hq1 _), Dev.bytes_quiet (hq1 _)]
  have hr : Mem.readN memDefault (Mem.writeN memDefault d.mem (c.sh.moment (c.epoch % 2) (c.blk * c.sh.perBlock) 0) (c.momentBytes d)) (c.sh.rec_ c.blk) 32 =
      d.bytes (c.sh.rec_ c.blk) 32 := by
    rw [Dev.bytes_quiet hq]
    exact Mem.readN_writeN_apart _ (by rw [c.length_momentBytes h]; omega)
  unfold UpdCmd.momentMem
  rw [← hr]
  rfl

theorem UpdCmd.momentMem_outside {a : Nat}
    (ha : a < c.sh.moment (c.epoch % 2) (c.blk * c.sh.perBlock) 0 ∨
      c.sh.moment (c.epoch % 2) (c.blk * c.sh.perBlock) 0 + 4 * c.sh.nmom * c.sh.elems c.blk ≤ a)
    (hb : a < c.sh.rec_ c.blk ∨ c.sh.rec_ c.blk + 32 ≤ a) : Mem.read memDefault (c.momentMem d) a = d.byte a := by
  rw [UpdCmd.momentMem, Mem.read_writeN_outside _ _ _ (by rw [BlkRec.length_bytes]; exact hb),
    Mem.read_writeN_outside _ _ _ (by rw [c.length_momentBytes h]; exact ha), Dev.byte]

variable (hw : Mem.wf memDefault d.mem = true)
include hw

omit h in
theorem UpdCmd.momentMem_rec : Mem.readN memDefault (c.momentMem d) (c.sh.rec_ c.blk) 32 =
    ({ blkRec (d.bytes (c.sh.rec_ c.blk) 32) with mEpoch := c.epoch } : BlkRec).bytes :=
  Mem.readN_writeN_self (Mem.writeN_wf _ _ hw) _ (BlkRec.length_bytes _).symm

/-- Moment k of an element of the block, as the phase leaves it. -/
theorem UpdCmd.momentMem_elem
    (hx : c.sh.moment (c.epoch % 2) (c.blk * c.sh.perBlock) 0 + 4 * c.sh.nmom * c.sh.elems c.blk ≤ c.sh.rec_ c.blk ∨
      c.sh.rec_ c.blk + 32 ≤ c.sh.moment (c.epoch % 2) (c.blk * c.sh.perBlock) 0) {e k : Nat} (he : e < c.sh.elems c.blk) (hk : k < c.sh.nmom) :
    num (Mem.readN memDefault (c.momentMem d) (c.sh.moment (c.epoch % 2) (c.blk * c.sh.perBlock + e) k) 4) 0 4 =
      (c.moments d (c.blk * c.sh.perBlock + e)).getD k 0 % 2 ^ 32 := by
  have ha : c.sh.moment (c.epoch % 2) (c.blk * c.sh.perBlock + e) k =
      c.sh.moment (c.epoch % 2) (c.blk * c.sh.perBlock) 0 + (4 * c.sh.nmom * e + 4 * k) := by
    unfold Shard.moment
    ring
  have hin : 4 * c.sh.nmom * e + 4 * k + 4 ≤ 4 * c.sh.nmom * c.sh.elems c.blk := by
    have h1 := Nat.mul_le_mul_left (4 * c.sh.nmom) (Nat.succ_le_of_lt he)
    rw [Nat.mul_succ] at h1
    omega
  rw [ha, UpdCmd.momentMem, Mem.readN_writeN_apart _ (by rw [BlkRec.length_bytes]; omega),
    Mem.readN_writeN_inside hw _ _ (by rw [c.length_momentBytes h]; exact hin), UpdCmd.momentBytes,
    slice_flatMap_range (c.length_momentElem h d) he (by omega), slice_flatMap_toBytes 4 (by rw [c.length_moments h]; exact hk), num_toBytes,
    show (256 : Nat) ^ 4 = 2 ^ 32 by norm_num]

end

end Sys2Proof.Machine
end

section
/-! SUPPORT. The weight phase of an UPDATE (R380, R383, R385, R386). -/

namespace Sys2Proof.Machine

/-! ## What a weight phase writes -/

/-- The bytes of the new weights of a block. -/
def UpdCmd.weightBytes (c : UpdCmd) (d : Dev) : List Byte :=
  (List.range (c.sh.elems c.blk)).flatMap fun e => c.store (c.blk * c.sh.perBlock + e) (c.newWeight d (c.blk * c.sh.perBlock + e))

/-- The record of a block after a weight phase that no poison has met. -/
def UpdCmd.weightRec (c : UpdCmd) (d : Dev) : BlkRec :=
  { blkRec (d.bytes (c.sh.rec_ c.blk) 32) with wEpoch := c.epoch, fprint := fingerprint (c.weightBytes d), stale := false }

/-- Memory after a weight phase, before its record. -/
def UpdCmd.weightMem (c : UpdCmd) (d : Dev) : Mem :=
  Mem.writeN memDefault (Mem.clear d.mem (c.sh.blk c.blk) (c.sh.blk c.blk + blockBytes)) (c.sh.blk c.blk) (c.weightBytes d)

/-- What a weight phase leaves in the registers: a block rolled forward is counted and raises its event (R386). -/
def UpdCmd.rolled (c : UpdCmd) (d : Dev) : Dev :=
  if c.tries = 1 then (d.modUpd c.ld fun u => { u with rollfwd := sat16 u.rollfwd }).modLd c.ld (Ld.setUpdEvt 2) else d

/-- The device once the block and its record are written. -/
def UpdCmd.weightDev (c : UpdCmd) (d : Dev) : Dev :=
  c.rolled { d with mem := Mem.writeN memDefault (c.weightMem d) (c.sh.rec_ c.blk) (c.weightRec d).bytes }

theorem Shard.width_cases (s : Shard) : s.width = 2 ∨ s.width = 4 := by
  unfold Shard.width wBytes
  split
  · exact .inr rfl
  · exact .inl rfl

theorem Shard.width_mul_perBlock (s : Shard) : s.width * s.perBlock = blockBytes := by
  unfold Shard.perBlock
  rcases s.width_cases with h | h <;> rw [h] <;> rfl

theorem Shard.elems_mul_width_le (s : Shard) (b : Nat) : s.elems b * s.width ≤ blockBytes := by
  rw [← s.width_mul_perBlock, Nat.mul_comm]
  exact Nat.mul_le_mul_left _ (Nat.min_le_left _ _)

/-- The place of an element in its block. -/
theorem Shard.elem_addr (s : Shard) (b e : Nat) : s.w + s.width * (b * s.perBlock + e) = s.blk b + s.width * e := by
  have h : s.width * (b * s.perBlock) = blockBytes * b := by
    rw [← s.width_mul_perBlock]
    ring
  rw [Shard.blk, Nat.mul_add, h, Nat.add_assoc]

theorem UpdCmd.length_store (c : UpdCmd) (i v : Nat) : (c.store i v).length = c.sh.width := by
  unfold UpdCmd.store Shard.width wBytes
  dsimp only
  split <;> exact length_toBytes _ _

theorem UpdCmd.length_weightBytes (c : UpdCmd) (d : Dev) : (c.weightBytes d).length = c.sh.width * c.sh.elems c.blk :=
  length_flatMap_range fun _ => c.length_store _ _

/-! ## The end of the phase -/

theorem Dev.weightEnd_quiet {d : Dev} (hq : d.quiet) {c : UpdCmd} (ht : wfld c.words 10 7 0 = 0) (now : W64) :
    d.weightEnd now c = (Dev.weightCommit now { c with pend := [], commit := (c.weightRec d).bytes } { d with mem := c.weightMem d }).dfsSettle c.ld := by
  have hnone : (List.range 8).filter (fun i => bit (wfld c.words 10 7 0) i) = [] := by rw [ht]; decide
  unfold Dev.weightEnd
  dsimp only
  rw [Dev.readEach_quiet hq]
  dsimp only
  rw [hnone, Dev.writeBlock, Dev.zeroRange_quiet hq, Dev.writeBytes_quiet (Dev.quiet_mem hq _)]
  rfl

theorem Dev.weightCommit_last {c : UpdCmd} (hs : c.stop = false) (ht : (blkRec c.commit).stale = false) (hl : c.last ≤ c.blk + 1) (now : W64) (d : Dev) :
    Dev.weightCommit now c d =
      (c.rolled (d.writeRec (c.sh.rec_ c.blk) (blkRec c.commit))).updEnd now { c with pend := [], commit := [], phase := .moment } 0 false 0 := by
  unfold Dev.weightCommit
  dsimp only
  rw [if_neg (by rw [hs]; decide), if_neg (by rw [ht]; decide)]
  exact Dev.updateNext_end now { c with pend := [], commit := [], phase := .moment } hl _ _

theorem Dev.weightCommit_ends {d : Dev} (hq : d.quiet) {c : UpdCmd} (hs : c.stop = false) (hl : c.last ≤ c.blk + 1) (now : W64) :
    Dev.weightCommit now { c with pend := [], commit := (c.weightRec d).bytes } { d with mem := c.weightMem d } =
      (c.weightDev d).updEnd now { c with pend := [], commit := [], phase := .moment } 0 false 0 := by
  have ht : (blkRec (c.weightRec d).bytes).stale = false := by rw [blkRec_bytes]; rfl
  have hw : ({ d with mem := c.weightMem d } : Dev).writeRec (c.sh.rec_ c.blk) (blkRec (c.weightRec d).bytes) =
      { d with mem := Mem.writeN memDefault (c.weightMem d) (c.sh.rec_ c.blk) (c.weightRec d).bytes } := by
    rw [Dev.writeRec, blkRec_bytes_bytes, Dev.writeBytes_quiet (Dev.quiet_mem hq _)]
  rw [Dev.weightCommit_last (c := { c with pend := [], commit := (c.weightRec d).bytes }) hs ht hl]
  exact congrArg (fun x : Dev => (c.rolled x).updEnd now { c with pend := [], commit := [], phase := .moment } 0 false 0) hw

end Sys2Proof.Machine
end

section
/-! SUPPORT. What the end of a weight phase leaves (R386, R394, R407). -/

namespace Sys2Proof.Machine

/-! ## No weight phase waits on a target -/

/-- Where no target is waited on, there is nothing to settle. -/
theorem Dev.dfsSettle_idle {d : Dev} {ld : Nat} (h : ∀ i, i < 8 → (d.dfsT ld i).waiting = false) : d.dfsSettle ld = d := by
  refine List.foldlRecOn _ _ (motive := fun x => x = d) rfl fun x hx i hi => ?_
  rw [hx, if_neg (by rw [h i (List.mem_range.mp hi), Bool.false_and]; decide)]

theorem Dev.upd_inject (ld dst cls : Nat) (x : Nat → Cargo) (d : Dev) (n : Nat) : ((d.inject ld dst cls x).ld n).upd = (d.ld n).upd := by
  rw [Dev.inject_frame]
  rfl

theorem Dev.upd_request (ld did : Nat) (u : FabUse) (m : FabMsg) (d : Dev) (n : Nat) : ((d.request ld did u m).ld n).upd = (d.ld n).upd := by
  unfold Dev.request
  split
  · rfl
  · rw [Dev.fabOpen, Dev.modFab, Dev.ld_modLd_keeps Ld.upd (by intros; rfl), Dev.ld_tell]

/-- The requests of an LD's fabric endpoint are no part of its update engines' registers. -/
theorem Dev.upd_fabClose (ld : Nat) (p : FabReq → Bool) (d : Dev) (n : Nat) : ((d.fabClose ld p).ld n).upd = (d.ld n).upd := by
  have hm : ((d.modFab ld fun f => { f with reqs := f.reqs.filter fun r => !p r }).ld n).upd = (d.ld n).upd := by
    rw [Dev.modFab, Dev.ld_modLd_keeps Ld.upd (by intros; rfl)]
  rw [Dev.fabClose, Dev.unhold]
  split
  · exact hm
  · refine (foldl_keeps (fun x : Dev => (x.ld n).upd) (fun x h => ?_) _ _).trans hm
    split
    · exact Dev.upd_request ..
    · exact Dev.upd_inject ..

/-- A command that ends with 0 and writes no phase record leaves the difference-stream targets. -/
theorem Dev.dfs_updEnd {c : UpdCmd} (h : wfld c.words 6 31 16 = 0) (now : W64) (d : Dev) (n : Nat) :
    ((d.updEnd now c 0 false 0).ld n).upd.dfs = (d.ld n).upd.dfs := by
  unfold Dev.updEnd
  dsimp only
  rw [if_neg (by tauto), if_neg (by decide), Dev.dfs_finish, Dev.upd_fabClose]
  rfl

theorem UpdCmd.dfs_rolled (c : UpdCmd) (d : Dev) (n : Nat) : ((c.rolled d).ld n).upd.dfs = (d.ld n).upd.dfs := by
  unfold UpdCmd.rolled
  split
  · rw [Dev.ld_modLd_keeps (fun l => l.upd.dfs) (by intros; rfl), Dev.modUpd, Dev.ld_modLd_keeps (fun l => l.upd.dfs) (by intros; rfl)]
  · rfl

theorem Dev.updEnd_settled {d : Dev} {ld : Nat} (h : ∀ i, i < 8 → (d.dfsT ld i).waiting = false) {c : UpdCmd} (hf : wfld c.words 6 31 16 = 0)
    (now : W64) : (d.updEnd now c 0 false 0).dfsSettle ld = d.updEnd now c 0 false 0 := by
  refine Dev.dfsSettle_idle fun i hi => ?_
  rw [Dev.dfsT, Dev.dfs_updEnd hf]
  exact h i hi

theorem Dev.ld_mem (d : Dev) (m : Mem) (n : Nat) : ({ d with mem := m } : Dev).ld n = d.ld n := rfl

theorem UpdCmd.dfs_weightDev (c : UpdCmd) (d : Dev) (n : Nat) : ((c.weightDev d).ld n).upd.dfs = (d.ld n).upd.dfs := by
  rw [UpdCmd.weightDev, UpdCmd.dfs_rolled, Dev.ld_mem]

theorem UpdCmd.dfsT_weightDev (c : UpdCmd) (d : Dev) (ld n : Nat) : (c.weightDev d).dfsT ld n = d.dfsT ld n := by
  rw [Dev.dfsT, Dev.dfsT, UpdCmd.dfs_weightDev]

/-! ## Registers -/

theorem UpdCmd.rolled_frame (c : UpdCmd) (d : Dev) : c.rolled d = { d with lds := (c.rolled d).lds } := by
  unfold UpdCmd.rolled
  split <;> rfl

theorem UpdCmd.rolled_none {c : UpdCmd} (h : c.tries = 0) (d : Dev) : c.rolled d = d := by
  rw [UpdCmd.rolled, if_neg (by rw [h]; decide)]

theorem UpdCmd.rolled_counts {c : UpdCmd} (h : c.tries = 1) (d : Dev) :
    ((c.rolled d).ld c.ld).upd.rollfwd = sat16 (d.ld c.ld).upd.rollfwd ∧ ((c.rolled d).ld c.ld).upd.evt.getLsbD 2 = true := by
  rw [UpdCmd.rolled, if_pos h, Dev.modUpd, Dev.ld_modLd_same, Dev.ld_modLd_same]
  exact ⟨rfl, getLsbD_setBit_same _ (by decide)⟩

theorem UpdCmd.lay_rolled (c : UpdCmd) (d : Dev) (n : Nat) : ((c.rolled d).ld n).lay = (d.ld n).lay := by
  unfold UpdCmd.rolled
  split
  · rw [Dev.ld_modLd_keeps Ld.lay (by intros; rfl), Dev.modUpd, Dev.ld_modLd_keeps Ld.lay (by intros; rfl)]
  · rfl

theorem UpdCmd.rolled_quiet (c : UpdCmd) {d : Dev} (h : d.quiet) : (c.rolled d).quiet := by
  have hf := c.rolled_frame d
  refine Dev.quiet_of_sameKeys ⟨?_, ?_, ?_, ?_, c.lay_rolled d, fun _ => ?_⟩ h ?_ ?_ ?_ <;> rw [hf]

/-! ## Memory -/

theorem UpdCmd.weightDev_frame (c : UpdCmd) (d : Dev) : c.weightDev d = { d with mem := (c.weightDev d).mem, lds := (c.weightDev d).lds } := by
  rw [UpdCmd.weightDev, UpdCmd.rolled_frame]

theorem UpdCmd.weightDev_mem (c : UpdCmd) (d : Dev) :
    (c.weightDev d).mem = Mem.writeN memDefault (c.weightMem d) (c.sh.rec_ c.blk) (c.weightRec d).bytes := by
  rw [UpdCmd.weightDev, UpdCmd.rolled_frame]

theorem UpdCmd.weightDev_quiet (c : UpdCmd) {d : Dev} (h : d.quiet) : (c.weightDev d).quiet :=
  c.rolled_quiet (Dev.quiet_mem h _)

section
variable {c : UpdCmd} {d : Dev} (hx : c.sh.blk c.blk + blockBytes ≤ c.sh.rec_ c.blk ∨ c.sh.rec_ c.blk + 32 ≤ c.sh.blk c.blk)

theorem UpdCmd.weightBytes_fit (c : UpdCmd) (d : Dev) : (c.weightBytes d).length ≤ blockBytes := by
  rw [c.length_weightBytes, Nat.mul_comm]
  exact c.sh.elems_mul_width_le c.blk

/-- A byte that is neither of the block nor of its record. -/
theorem UpdCmd.weightDev_outside {a : Nat} (ha : a < c.sh.blk c.blk ∨ c.sh.blk c.blk + blockBytes ≤ a)
    (hb : a < c.sh.rec_ c.blk ∨ c.sh.rec_ c.blk + 32 ≤ a) : (c.weightDev d).byte a = d.byte a := by
  have hl := c.weightBytes_fit d
  rw [Dev.byte, c.weightDev_mem, Mem.read_writeN_outside _ _ _ (by rw [BlkRec.length_bytes]; exact hb), UpdCmd.weightMem,
    Mem.read_writeN_outside _ _ _ (by omega), Mem.read_clear, if_neg (by omega), Dev.byte]

include hx

/-- The block is filled with zeros to its end. -/
theorem UpdCmd.weightDev_rest {a : Nat} (ha : c.sh.blk c.blk + c.sh.elems c.blk * c.sh.width ≤ a) (hb : a < c.sh.blk c.blk + blockBytes) :
    (c.weightDev d).byte a = 0 := by
  have hl := c.length_weightBytes d
  rw [Nat.mul_comm] at hl
  rw [Dev.byte, c.weightDev_mem, Mem.read_writeN_outside _ _ _ (by rw [BlkRec.length_bytes]; omega), UpdCmd.weightMem,
    Mem.read_writeN_outside _ _ _ (by omega), Mem.read_clear, if_pos (by omega)]
  rfl

variable (hq : d.quiet) (hw : Mem.wf memDefault d.mem = true)
include hq hw

/-- A part of the new weights, in the block. -/
theorem UpdCmd.weightDev_part {o k : Nat} (hk : o + k ≤ (c.weightBytes d).length) :
    (c.weightDev d).bytes (c.sh.blk c.blk + o) k = slice (c.weightBytes d) o k := by
  have hl := c.weightBytes_fit d
  rw [Dev.bytes_quiet (c.weightDev_quiet hq), c.weightDev_mem, Mem.readN_writeN_apart _ (by rw [BlkRec.length_bytes]; omega), UpdCmd.weightMem,
    Mem.readN_writeN_inside (Mem.clear_wf _ _ hw) _ _ hk]

theorem UpdCmd.weightDev_elem {e : Nat} (he : e < c.sh.elems c.blk) :
    (c.weightDev d).bytes (c.sh.w + c.sh.width * (c.blk * c.sh.perBlock + e)) c.sh.width =
      c.store (c.blk * c.sh.perBlock + e) (c.newWeight d (c.blk * c.sh.perBlock + e)) := by
  have hin : c.sh.width * e + c.sh.width ≤ (c.weightBytes d).length := by
    rw [c.length_weightBytes, ← Nat.mul_succ]
    exact Nat.mul_le_mul_left _ he
  rw [Shard.elem_addr, UpdCmd.weightDev_part hx hq hw hin]
  have hs := slice_flatMap_range (f := fun e => c.store (c.blk * c.sh.perBlock + e) (c.newWeight d (c.blk * c.sh.perBlock + e)))
    (fun _ => c.length_store _ _) he (o := 0) (k := c.sh.width) (by omega)
  refine hs.trans ?_
  have hl := slice_self (c.store (c.blk * c.sh.perBlock + e) (c.newWeight d (c.blk * c.sh.perBlock + e)))
  rwa [c.length_store] at hl

theorem UpdCmd.weightDev_weights : (c.weightDev d).bytes (c.sh.blk c.blk) (c.sh.elems c.blk * c.sh.width) = c.weightBytes d := by
  have hl := c.length_weightBytes d
  have h := UpdCmd.weightDev_part hx hq hw (o := 0) (k := (c.weightBytes d).length) (by omega)
  rwa [slice_self, hl, Nat.mul_comm] at h

omit hx in
theorem UpdCmd.weightDev_rec : (c.weightDev d).bytes (c.sh.rec_ c.blk) 32 = (c.weightRec d).bytes := by
  rw [Dev.bytes_quiet (c.weightDev_quiet hq), c.weightDev_mem]
  exact Mem.readN_writeN_self (Mem.writeN_wf _ _ (Mem.clear_wf _ _ hw)) _ (BlkRec.length_bytes _).symm

end

end Sys2Proof.Machine
end

section
/-! SUPPORT. The statement on the commands of the update engines. -/

namespace Sys2Proof.Machine

/-- Settles O38: acceptance by the order of its checks, the start of an idle engine by the records of its blocks, and each phase end by what it
writes and the quiet memory around it. -/
theorem updateCommandsJoinAndRun : Obligations.UpdateCommandsJoinAndRun := by
  unfold Obligations.UpdateCommandsJoinAndRun
  refine ⟨?_, ⟨?_, ?_⟩, ?_⟩
  · intro iss body op c s hq hm hop tk ld dom shard die front
    rw [exec_updAccept hq.2.2.1 hm]
    have hto : ∀ {d : Dev}, s.dev.updAccept op iss body = d →
        (Host.Outcome.next { s with dev := s.dev.updAccept op iss body } : Result) = .next { s with dev := d } := fun h => by rw [h]
    refine ⟨fun e h => hto (Dev.updAccept_front hop h), fun hf e h => hto (Dev.updAccept_shape hop hq hf h),
      fun hf hs hj ha => hto (Dev.updAccept_waits hop hq hf hs hj ha), fun hf hs => ⟨fun e h hd => ?_, fun h ha => ?_, fun h hj ha => ?_⟩⟩
    · exact hto (Dev.updAccept_rejects hop hq hf hs hd h)
    · exact hto (Dev.updAccept_absent hop hq hf hs h ha)
    · exact ⟨s.dev.newUpd op iss body shard, hto (Dev.updAccept_joins hop hq hf hs h hj ha), rfl, rfl, rfl, rfl, rfl, rfl, rfl, rfl, rfl, rfl, rfl⟩
  · intro now c code aborted result d h
    unfold Dev.updEnd
    dsimp only
    rw [if_neg (by tauto)]
  · intro die s hq
    rw [exec_updateEngineStart hq.2.2.1]
    refine ⟨fun h => by rw [Dev.updStart_busy h], ?_⟩
    intro c rest hu hd hi hr y rs t run
    have hput := fun {z : UpdCmd} (hz : z.id = c.id) => Dev.putUpd_head hu hr hz
    refine ⟨?_, ?_, ?_, ?_⟩
    · intro hop z ok
      have hok : ∀ r, BlkRec.startsAt c.epoch r = true ↔ ok r := fun _ => BlkRec.startsAt_iff
      refine ⟨fun h => ?_, fun hs ⟨r, hm, hn⟩ => ?_, fun hs ha hb => ?_, fun k hk hrs hb hat hr => ?_⟩
      · rw [Dev.updStart_suspect hq hu hd hi _ hop h]
        rfl
      · rw [Dev.updStart_epoch hq hu hd hi _ hop hs ⟨r, hm, fun h => hn ((hok r).mp h)⟩]
        rfl
      · rw [Dev.updStart_done hq hu hd hi _ hop hs ha hb]
        rfl
      · rw [Dev.updStart_block hq hu hd hi _ hop (fun r hr => ⟨(hrs r hr).1, (hok r).mpr (hrs r hr).2⟩) hb hk hat hr]
        refine congrArg Host.Outcome.next (congrArg (fun d => { s with dev := d }) ?_)
        exact hput rfl
    · intro hop src own kept hc hh hl
      rw [Dev.updStart_fetch hq hu hd hi _ hop]
      obtain ⟨x, hx, hf, ht, ho, hreq⟩ := Dev.fetchAsk_open (d := s.dev) (c := { s.dev.begun s.now c with phase := .poll }) hc hh hl s.now false
      refine ⟨x, by rw [hx], ?_, ht, ho, hreq⟩
      rw [hput (z := { s.dev.begun s.now c with phase := .poll }) rfl] at hf
      exact hf
    · intro hop hm
      change (Host.Outcome.next _ : Result) = _
      rw [Dev.updStart_seal hq hu hd hi _ hop hm, hput (z := { s.dev.begun s.now c with phase := .scan }) rfl]
      rfl
    · intro hop
      change (Host.Outcome.next _ : Result) = _
      rw [Dev.updStart_apply hq hu hd hi _ hop, hput (z := { s.dev.begun s.now c with phase := .apply }) rfl]
      rfl
  · intro die c rest s hq hwf hu hd hid hop hreach hblk sh i0 n t rec0 word32 go algo
    have hgo : go = .next { s with dev := s.dev.phaseEnds s.now die none } := exec_updateEnginePhaseEnd hq.2.2.1 die
    have hput := fun {z : UpdCmd} (hz : z.id = c.id) => Dev.putUpd_head hu hid hz
    refine ⟨?_, fun hp => ?_, fun hp hwait hstop hts hlast hrec hx => ?_, fun _ ha => ?_⟩
    · intro hp ha m1 hx
      rw [hgo, Dev.phaseEnds_moment hu hd hreach _ hp, Dev.momentEnd_quiet ha hq _ hx,
        Dev.putUpd_head (d := { s.dev with mem := c.momentMem s.dev }) hu hid (y := { c with phase := .between }) rfl]
      have hone : c.sh.nmom = 2 ∨ c.sh.nmom = 1 := ha.imp And.right And.right
      have htwo := fun h0 : algo = 0 => (ha.resolve_right fun h => absurd (h0.symm.trans h.1) (by decide)).2
      have hfirst := fun i => UpdCmd.moments_first (ha.imp And.left And.left) s.dev i
      have helem := fun {e k : Nat} => UpdCmd.momentMem_elem ha s.dev hwf.1 hx (e := e) (k := k)
      have hrec := UpdCmd.momentMem_rec (c := c) s.dev hwf.1
      have hout := fun {a : Nat} => UpdCmd.momentMem_outside ha s.dev (a := a)
      generalize c.momentMem s.dev = m at helem hrec hout
      have hqm := Dev.quiet_mem_upds hq m ({ c with phase := .between } :: rest)
      refine ⟨_, rfl, rfl, fun e he => ⟨?_, fun h0 => ?_⟩, (Dev.bytes_quiet hqm _ _).trans hrec, fun a h1 h2 => hout h1 h2⟩
      · refine (congrArg (fun bs => num bs 0 4) (Dev.bytes_quiet hqm _ 4)).trans ((helem he (by omega)).trans ?_)
        rw [hfirst]
      · refine (congrArg (fun bs => num bs 0 4) (Dev.bytes_quiet hqm _ 4)).trans ((helem he ((by decide : 1 < 2).trans_eq (htwo h0).symm)).trans ?_)
        rw [UpdCmd.moments_second h0]
    · rw [hgo, Dev.phaseEnds_between hu hd hreach _ hp, hput (z := { c with phase := .weight }) rfl]
    · rw [hgo, Dev.phaseEnds_weight hu hd hreach _ hp, Dev.weightEnd_quiet hq hts, Dev.weightCommit_ends hq hstop hlast,
        Dev.updEnd_settled (fun i hi => (congrArg DfsTarget.waiting (c.dfsT_weightDev ..)).trans (hwait i hi))
          (c := { c with pend := [], commit := [], phase := .moment }) hrec]
      refine ⟨_, rfl, c.weightDev s.dev, rfl, c.weightDev_frame _, fun h => ?_, fun h => ?_, fun e he => UpdCmd.weightDev_elem hx hq hwf.1 he,
        fun a h1 h2 => UpdCmd.weightDev_rest hx h1 h2, ?_, fun a h1 h2 => UpdCmd.weightDev_outside h1 h2⟩
      · rw [UpdCmd.weightDev, UpdCmd.rolled_none h]
      · rw [UpdCmd.weightDev, ← Dev.ld_mem s.dev]
        exact UpdCmd.rolled_counts h _
      · intro new
        have hn : new = c.weightBytes s.dev := UpdCmd.weightDev_weights hx hq hwf.1
        rw [hn]
        exact UpdCmd.weightDev_rec hq hwf.1
    · intro d i w m root
      exact if_pos ha

end Sys2Proof.Machine
end

section
/-! SUPPORT. What a command leaves of the waiting queue and of the elapsed counter (R61, R62): operations of the start, of
resets and drains. -/

namespace Sys2Proof.Machine

theorem State.sameQueue.refl (s : State) : s.sameQueue s := ⟨rfl, rfl⟩

/-- The device of a state does not matter. -/
theorem State.sameQueue.of_dev {s t : State} (d : Dev) (h : ({ s with dev := d } : State).sameQueue t) : s.sameQueue t := h

/-- A choice between two states keeps what both keep. -/
theorem State.sameQueue_ite {s t u : State} {p : Prop} [Decidable p] (ht : s.sameQueue t) (hu : s.sameQueue u) :
    s.sameQueue (if p then t else u) := by
  split
  · exact ht
  · exact hu

/-- So does a state that either stays or goes on. -/
theorem State.sameQueue_stayOr {s t u : State} {p : Prop} [Decidable p] (ht : s.sameQueue t) (hu : t.sameQueue u) :
    s.sameQueue (if p then t else u) := State.sameQueue_ite ht (ht.trans hu)

/-- What every step keeps, a fold of steps keeps. -/
theorem State.sameQueue_foldl {β : Type*} {f : State → β → State} (h : ∀ (u : State) b, u.sameQueue (f u b)) (l : List β) {s t : State} (ht : s.sameQueue t) :
    s.sameQueue (l.foldl f t) :=
  List.foldlRecOn l f (motive := fun x => s.sameQueue x) ht fun _ hb c _ => hb.trans (h _ c)

/-- A command of an engine that waits for lines of the host has changed the device alone (R437). -/
theorem State.sameQueue_settleHost {f : State → State} (h : ∀ u : State, u.sameQueue (f u)) (s : State) : s.sameQueue (s.settleHost f) := by
  have hr := h { s with dev := { s.dev with touched := [] } }
  unfold State.settleHost
  dsimp only
  split
  · exact h s
  split
  · exact hr
  · exact .refl s

/-! ## Starts (R211, R500 to R504) -/

theorem State.sameQueue_levels (s : State) : s.sameQueue s.levels := s.settled_levels.2.2.1

theorem State.sameQueue_certify (s : State) : s.sameQueue s.certify := s.certify_opens.2.2

theorem State.sameQueue_unitsFail (ok0 ok1 : Bool) (bad : List Nat) (s : State) : s.sameQueue (s.unitsFail ok0 ok1 bad) := by
  have hf := fun (p : Prop) [Decidable p] t (u : State) (h : s.sameQueue u) =>
    State.sameQueue_stayOr (p := p) h (State.sameQueue_startFail eSelftest t s.dev.compute u)
  exact State.sameQueue_foldl (fun u c => State.sameQueue_startFail _ _ _ u) bad (hf _ _ _ (hf _ _ _ (hf _ _ _ (.refl s))))

theorem State.sameQueue_silmuvinStage (i0 i1 : SramTest) (lp : List (Nat × DramTest)) (free : List Nat) (s : State) :
    s.sameQueue (s.silmuvinStage i0 i1 lp free) := by
  by_cases h : s.dev.boot.stage ≠ .silmuvin ∨ s.dev.crypto.drbgFail = true
  · rw [State.silmuvinStage_waits i0 i1 lp free h]
    exact .refl s
  · obtain ⟨hs, hf⟩ := not_or.mp h
    rw [State.silmuvinStage_runs i0 i1 lp free (not_not.mp hs) (Bool.not_eq_true _ ▸ hf)]
    exact State.sameQueue_stayOr (.of_dev _ (State.sameQueue_unitsFail ..)) (State.silmuvinEnd_settled _ _).2

theorem State.sameQueue_goesOn (s : State) : s.sameQueue s.goesOn := .of_dev _ (State.sameQueue_levels _)

theorem State.sameQueue_dieFail (n kind : Nat) (s : State) : s.sameQueue (s.dieFail n kind) :=
  State.sameQueue_stayOr (.of_dev _ (State.sameQueue_startFail ..)) (State.sameQueue_goesOn _)

theorem State.sameQueue_dieJoin (n : Nat) (sram : SramTest) (s : State) : s.sameQueue (s.dieJoin n sram) :=
  State.sameQueue_ite (.refl s) <| State.sameQueue_ite (.of_dev _ (State.sameQueue_dieFail ..)) <|
    State.sameQueue_ite (.refl s) (.of_dev _ (State.sameQueue_levels _))

theorem State.sameQueue_dieCalibration (n : Nat) (t0 t1 : DramTest) (free0 free1 low : Nat) (s : State) :
    s.sameQueue (s.dieCalibration n t0 t1 free0 free1 low) :=
  State.sameQueue_ite (.refl s) <| State.sameQueue_stayOr
    (State.sameQueue_foldl (fun u _ => State.sameQueue_ite (State.sameQueue_startFail ..) (.refl u)) _ (.of_dev _ (.refl _))) (State.sameQueue_levels _)

/-! ## Resets and drains (R509, R513) -/

theorem State.sameQueue_ldBringUp (n : Nat) (s : State) : s.sameQueue (s.ldBringUp n) := .of_dev _ (State.sameQueue_levels _)

theorem State.sameQueue_zeroiseComplete (e : ZeroiseEnd) (s : State) : s.sameQueue (s.zeroiseComplete e) := by
  refine State.sameQueue_ite (.refl s) ?_
  cases e.sc with
  | device => exact ⟨rfl, rfl⟩
  | ld n =>
    exact State.sameQueue_stayOr (State.sameQueue_foldl (fun u _ => State.sameQueue_startFail _ _ _ u) _ (.of_dev _ (.refl _)))
      (State.sameQueue_ldBringUp n _)
  | queue _ _ => exact .refl s
  | domain _ => exact .refl s
  | port _ => exact .refl s

theorem State.sameQueue_drainComplete (sc : Scope) (s : State) : s.sameQueue (s.drainComplete sc) := by
  unfold State.drainComplete
  split
  · exact .refl s
  split
  · exact .refl s
  cases sc with
  | device => exact .refl s
  | queue ld q => exact ⟨rfl, rfl⟩
  | domain n => exact ⟨rfl, rfl⟩
  | ld n => exact ⟨rfl, rfl⟩
  | port p => exact State.sameQueue_ite (.of_dev _ (State.sameQueue_levels _)) (.refl s)

theorem State.sameQueue_thermAssert (tj plate : Nat) (s : State) : s.sameQueue (s.thermAssert tj plate) :=
  State.sameQueue_ite (State.sameQueue_ite (.of_dev _ (State.sameQueue_startFail ..)) ⟨rfl, rfl⟩) (.refl s)

/-! ## Attestation (R485 to R489) -/

theorem State.sameQueue_spendReport (s : State) : s.sameQueue s.spendReport :=
  State.sameQueue_ite ⟨rfl, rfl⟩ (State.sameQueue_ite ⟨rfl, rfl⟩ ⟨rfl, rfl⟩)

theorem State.sameQueue_attest (iss : Issuer) (body : List W32) (s : State) : s.sameQueue (s.attest iss body) := by
  unfold State.attest
  dsimp only
  split
  · exact .refl s
  split
  · exact ⟨rfl, rfl⟩
  split
  · exact .refl s
  split
  · exact ⟨rfl, rfl⟩
  · exact .of_dev _ (State.sameQueue_spendReport _)

theorem State.sameQueue_ownerXfer (iss : Issuer) (body : List W32) (s : State) : s.sameQueue (s.ownerXfer iss body) := by
  unfold State.ownerXfer
  dsimp only
  split
  · exact .refl s
  repeat' split
  all_goals exact ⟨rfl, rfl⟩

/-! ## NVM messages (R506) -/

theorem State.sameQueue_nvmMsg (msg : Nat) (more : Checks) {f : State → State} (h : ∀ u : State, u.sameQueue (f u)) (s : State) :
    s.sameQueue (s.nvmMsg msg more f) := by
  unfold State.nvmMsg
  split
  · exact .refl s
  split
  · exact ⟨rfl, rfl⟩
  · exact h s

theorem State.sameQueue_programBytes (a : Nat) (bs : List Byte) (s : State) : s.sameQueue (State.programBytes a bs s) := by
  induction bs generalizing a s with
  | nil => exact .refl s
  | cons b bs ih => exact State.sameQueue.trans (State.sameQueue_ite ⟨rfl, rfl⟩ ⟨rfl, rfl⟩ : s.sameQueue (s.programByte a b)) (ih _ _)

/-! ## Register pages (R440) -/

theorem State.sameQueue_regWrite (ag : Agent) (pg : RegPage) (off bytes : Nat) (v : W32) (s : State) : s.sameQueue (s.regWrite ag pg off bytes v) := by
  cases pg with
  | ld n => exact State.sameQueue_ite ⟨rfl, rfl⟩ (State.sameQueue_ite (.of_dev _ (State.sameQueue_levels _)) ⟨rfl, rfl⟩)
  | clu n => exact State.sameQueue_ite (.refl s) (State.sameQueue_ite ⟨rfl, rfl⟩ ⟨rfl, rfl⟩)

theorem State.sameQueue_pageRead (ag : Agent) (ld off bytes : Nat) (s : State) : s.sameQueue (s.pageRead ag ld off bytes).1 := by
  unfold State.pageRead
  dsimp only
  repeat' split
  all_goals exact ⟨rfl, rfl⟩

theorem State.sameQueue_regRead (ag : Agent) (pg : RegPage) (off bytes : Nat) (s : State) : s.sameQueue (s.regRead ag pg off bytes) := by
  unfold State.regRead
  dsimp only
  split
  · exact State.sameQueue_ite ⟨rfl, rfl⟩ (.refl s)
  · next n _ =>
    have h := s.sameQueue_pageRead ag n off bytes
    split
    · next e => exact (e ▸ h :)
    · next e => exact (e ▸ h :)
  · exact State.sameQueue_ite (State.sameQueue_ite ⟨rfl, rfl⟩ ⟨rfl, rfl⟩) (.refl s)

end Sys2Proof.Machine
end

section
/-! SUPPORT. Every command answers, keeps the queue, and counts as R61 and R62 say. -/

namespace Sys2Proof.Machine

/-- A command answers with a next state that has the queue and the counter of the state before it. -/
def State.keepsQueue (s : State) (r : Result) : Prop := ∃ t, r = .next t ∧ s.sameQueue t

section
variable (s : State)

theorem State.keepsQueue_settleHost {f : State → State} (h : ∀ u : State, u.sameQueue (f u)) : s.keepsQueue (.next (s.settleHost f)) :=
  ⟨_, rfl, State.sameQueue_settleHost h s⟩

theorem State.keepsQueue_minverRaise (iss : Issuer) (body : List W32) : s.keepsQueue (execMinverRaise iss body s) := by
  unfold execMinverRaise
  dsimp only
  split
  · exact ⟨_, rfl, .refl s⟩
  split
  · exact ⟨_, rfl, rfl, rfl⟩
  · exact ⟨_, rfl, rfl, rfl⟩

theorem State.keepsQueue_vauxCurrentLimit : s.keepsQueue (execVauxCurrentLimit s) := by
  unfold execVauxCurrentLimit
  split
  · exact ⟨s, rfl, .refl s⟩
  · refine ⟨_, rfl, ?_⟩
    split
    · exact ⟨rfl, rfl⟩
    · exact ⟨rfl, rfl⟩
    · exact ⟨rfl, rfl⟩
    · exact .of_dev _ (State.sameQueue_enterFallow _)
    · exact .of_dev _ (State.sameQueue_enterFallow _)
    · exact State.sameQueue_ite ⟨rfl, rfl⟩ (.of_dev _ (State.sameQueue_enterFallow _))

end

/-! ## Commands of queues and rings (R234, R446 to R449) -/

/-- A command that an `op` names keeps the queue. -/
theorem keepsQueue_of_commandOf {op : Nat} {iss : Issuer} {die : Nat} {b : List W32} {f : State → Result} (h : commandOf op iss die b = some f)
    (s : State) : s.keepsQueue (f s) := by
  unfold commandOf at h
  split at h <;> cases h
  -- commands of engines, then those of the device alone
  any_goals exact s.keepsQueue_settleHost fun _ => ⟨rfl, rfl⟩
  any_goals exact ⟨_, rfl, rfl, rfl⟩
  · exact s.keepsQueue_settleHost (State.sameQueue_attest iss b)
  · exact s.keepsQueue_minverRaise iss b
  · exact s.keepsQueue_settleHost (State.sameQueue_ownerXfer iss b)

theorem State.sameQueue_resultState {s : State} {r : Result} (h : s.keepsQueue r) : s.sameQueue (resultState s r) := by
  obtain ⟨t, rfl, ht⟩ := h
  exact ht

theorem State.sameQueue_commandFetch (ld q : Nat) (s : State) : s.sameQueue (s.commandFetch ld q) := by
  unfold State.commandFetch
  refine State.sameQueue_ite (.refl s) ?_
  extract_lets take bad
  have hbad : ∀ n ct c d, s.sameQueue (bad n ct c d) := fun _ _ _ _ => ⟨rfl, rfl⟩
  split
  · exact hbad ..
  refine State.sameQueue_ite (hbad ..) (State.sameQueue_ite (.refl s) ?_)
  split
  · exact hbad ..
  extract_lets op iss d
  split
  · exact ⟨rfl, rfl⟩
  refine State.sameQueue_ite ⟨rfl, rfl⟩ (State.sameQueue_ite (.refl s) ?_)
  split
  · exact ⟨rfl, rfl⟩
  · next hf => exact State.sameQueue_ite ⟨rfl, rfl⟩ (State.sameQueue_resultState (keepsQueue_of_commandOf hf _))

theorem State.sameQueue_ringEntry (clu : Nat) (kind : RingKind) (count : W32) (s : State) : s.sameQueue (s.ringEntry clu kind count).1 := by
  unfold State.ringEntry
  extract_lets
  split
  · exact ⟨rfl, rfl⟩
  extract_lets
  split
  · exact ⟨rfl, rfl⟩
  split
  · exact ⟨rfl, rfl⟩
  · next f hf =>
    split at hf
    · exact State.sameQueue_ite (State.sameQueue_resultState (keepsQueue_of_commandOf hf _)) ⟨rfl, rfl⟩
    · cases hf

theorem State.sameQueue_ringTake (clu : Nat) (kind : RingKind) (n : Nat) (s : State) : s.sameQueue (State.ringTake clu kind n s) := by
  induction n generalizing s with
  | zero => exact .refl s
  | succ n ih =>
    refine State.sameQueue_ite (.refl s) ?_
    generalize hr : State.ringEntry clu kind _ _ = r
    have h : s.sameQueue r.1 := hr ▸ .of_dev _ (State.sameQueue_ringEntry ..)
    obtain ⟨t, taken⟩ := r
    cases taken with
    | true => exact h.trans (ih t)
    | false => exact h

theorem State.sameQueue_ringTail (clu : Nat) (kind : RingKind) (tail : W32) (s : State) : s.sameQueue (s.ringTail clu kind tail) :=
  State.sameQueue_ite (.refl s) (State.sameQueue_ite ⟨rfl, rfl⟩ (.of_dev _ (State.sameQueue_ringTake ..)))

/-! ## All commands -/

/-- How a command takes the elapsed counter from one value to the next (R61, R62). -/
def counterStep (c : Instr) (now now' : W64) : Prop :=
  now' = now ∨ (∃ ups, c = .elapsedTick ups ∧ now' = now + 1) ∨
    (now' = 0 ∧ ((∃ k v, c = .powerOn k v) ∨ (∃ v, c = .overVoltageRecovery v) ∨ ∃ n, c = .resetNAssert n))

/-- A command answers with a next state that has the queue of the state before it, and counts as it may. -/
def State.answers (s : State) (c : Instr) (r : Result) : Prop := ∃ t, r = .next t ∧ t.pending = s.pending ∧ counterStep c s.now t.now

theorem State.keepsQueue.answers {s : State} {r : Result} (h : s.keepsQueue r) (c : Instr) : s.answers c r :=
  h.imp fun _ ⟨hr, hp, hn⟩ => ⟨hr, hp, .inl hn⟩

theorem State.answers_settleHost (s : State) (c : Instr) {f : State → State} (h : ∀ u : State, u.sameQueue (f u)) :
    s.answers c (.next (s.settleHost f)) := (State.keepsQueue_settleHost s h).answers c

theorem State.answers_next {s t : State} (c : Instr) (h : s.sameQueue t) : s.answers c (.next t) := State.keepsQueue.answers ⟨t, rfl, h⟩ c

section
variable (s : State)

/-- Power comes with the counter at zero. -/
theorem State.answers_powerOn (k : BitVec 3) (v : Nat) : s.answers (.powerOn k v) (execPowerOn k v s) := by
  unfold execPowerOn
  split
  · exact ⟨_, rfl, rfl, .inr (.inr ⟨rfl, .inl ⟨k, v, rfl⟩⟩)⟩
  · exact State.answers_next _ (.refl s)

theorem State.answers_overVoltageRecovery (v : Nat) : s.answers (.overVoltageRecovery v) (execOverVoltageRecovery v s) := by
  unfold execOverVoltageRecovery
  split
  · exact State.answers_next _ (.refl s)
  · dsimp only
    split
    · exact ⟨_, rfl, rfl, .inr (.inr ⟨rfl, .inr (.inl ⟨v, rfl⟩)⟩)⟩
    · exact ⟨_, rfl, rfl, .inl rfl⟩

/-- An assertion of RESET_N that is recognised zeroes the counter. -/
theorem State.answers_resetNAssert (n : Nat) : s.answers (.resetNAssert n) (execResetNAssert n s) := by
  have hz : ∀ u : State, counterStep (.resetNAssert n) s.now u.resetAsserted.now := fun _ => .inr (.inr ⟨rfl, .inr (.inr ⟨n, rfl⟩)⟩)
  unfold execResetNAssert
  split
  · exact State.answers_next _ (.refl s)
  split
  · exact ⟨_, rfl, rfl, hz s⟩
  dsimp only
  split
  · exact ⟨_, rfl, rfl, .inl rfl⟩
  · exact ⟨_, rfl, rfl, hz _⟩

theorem State.answers_nvmMsg (c : Instr) {msg : Nat} {more : Checks} {f : State → State} (h : ∀ u : State, u.sameQueue (f u)) :
    s.answers c (.next (s.nvmMsg msg more f)) := State.answers_next c (State.sameQueue_nvmMsg msg more h s)

theorem State.answers_nvmWrite : s.answers .nvmWrite (execNvmWrite s) :=
  s.answers_nvmMsg _ fun u => State.sameQueue.trans (State.sameQueue_programBytes _ _ u) ⟨rfl, rfl⟩

/-- NVM_VERIFY records a good image and otherwise changes the mailbox alone. -/
theorem State.answers_nvmVerify : s.answers .nvmVerify (execNvmVerify s) := by
  refine s.answers_nvmMsg _ fun u => ?_
  split
  · exact ⟨rfl, rfl⟩
  · exact State.sameQueue.trans (State.sameQueue_record ..) ⟨rfl, rfl⟩

/-- Every command answers, keeps the queue, and counts as it may: those of the device alone and those of engines by the shape of their
effect, each of the others by its own lemma. -/
theorem exec_answers (c : Instr) (s : State) : s.answers c (exec c s) := by
  cases c with
  | ldErrClear | powerSample | pwrLimitWrite | slackTrip | rmaxClear | add | sub | and | or | xor | shl | shr | sar | slt | sltu | addi | lui |
      mul | mulh | divu | remu | beq | bne | blt | bge | jal | jalr | mfs | mts | csrr | csrw | tagr | ocld | ocst | oclt | ocz | csz |
      moverCommandFinish | dmaw | fence | yield | iret | undefinedInstruction | matrixOpStart | matrixOpEnd | vectorOpStart | vectorOpEnd | icuWin |
      handlerEntry | msixPost | icuEoi | scrubStep | softRepairStart | softRepairComplete | memRepairQueue | memRepairCommit | eccSelWrite |
      eccClear | kvmRegionWrite | adpDrop | waveNotice | laneLock | foundNotice | routeEntryWrite | graftSelfWrite | graftEntryWrite |
      rakeSlotZeroFillComplete | abortNotice | colAbort | abortReceive | xplAbort | cqTailWrite | cqCplHeadWrite | reqCplEnable | mbxSend |
      mbxRelease | mailboxServe | cxlMemRead | cxlMemWrite | hostSnoop | backInvalidateResponse | sessionExchange | domOpen | domCloseComplete |
      domQuota | pageSet | pageSetMsg | vinOutOfBand | thermRelease | coolantAlarm | healthTestChange | i3cRegisterWrite | pwrBcLimitWrite |
      pwrBcErrClear | entdaa | setdasa | rstdaa | enec | disec | getpid | getbcr | getdcr | getstatus | getmxds | elap | portEnable | portRetrain |
      laneFailActive | flitReceive | linkSilenceTimeout | leaveNotice | lossNotice | fabResponseTimeout | collWatchdog | fetchWatchdog | updAbort |
      dfsEnable | dfsRingWaitEnd | dfsTargetWatchdog | roundWatchdog | cqEnable | cqDisable | queueDrainEnd | domClose | deviceReset | ldReset |
      ldDisable | ldReenable | cxlLdReset | cxlConventionalReset | drainLimitExpiry | resetNDeassert | powerLoss | overVoltage | clockFault |
      sidebandFault =>
    exact State.answers_next _ ⟨rfl, rfl⟩
  | ld | st | issueM | issueV | dmap | dmaDescriptorStart | dmaDescriptorFinish | yieldStop | handOver | halt | alloc | free | append | trim |
      keep | move | pin | retire | gather | send | scoreCommand | scoreComplete | kvZeroFillComplete | kvMoveCopyComplete | demotionSweep |
      promotion | handoffPageCheck | adpLoad | adpLoadComplete | adapterZeroFillComplete | swap | layerSwapBegin | layerSwapComplete |
      waveMemberReport | update | fetch | fpcheck | dfsApply | ccLaunch | ccStart | ccYieldTimeout | trlLoad | xplPlan | launch |
      pageZeroFillComplete | pubKey | dfsKey | weightImport | weightImportComplete | kvCommandComplete | submit | cancel | tokenStepBegin |
      kvWaitRetry | treeIndexWaitEnd | sampleVector | tokenStepEnd | packetReceive | allReduce | reduce | reduceScatter | allGather | broadcast |
      allToAll | combine | barrier | rakeReservationGrant | rakeGrant | anchorArrive | contributionArrive | resultChunkArrive | chunkAck |
      completionFence | updateEngineStart | fetchPoll | phase | updateEnginePhaseEnd | turn | roundBegin | roundMoveEnd | readyReceive |
      commitReceive | roundStateReport =>
    exact s.answers_settleHost _ fun _ => ⟨rfl, rfl⟩
  | elapsedTick ups => exact ⟨_, rfl, rfl, .inr (.inl ⟨ups, rfl, rfl⟩)⟩
  | powerOn k v => exact s.answers_powerOn k v
  | overVoltageRecovery v => exact s.answers_overVoltageRecovery v
  | resetNAssert n => exact s.answers_resetNAssert n
  | registerWrite ag page off bytes v => exact State.answers_next _ (s.sameQueue_regWrite ag page off bytes v)
  | loReadLatch ag page rd => exact State.answers_next _ (s.sameQueue_regRead ag page rd.off rd.bytes)
  | dieCalibration die t0 t1 f0 f1 low => exact State.answers_next _ (s.sameQueue_dieCalibration die t0 t1 f0 f1 low)
  | repairCommitComplete u exhausted => exact State.answers_next _ (State.sameQueue_ite ⟨rfl, rfl⟩ (.refl s))
  | clusterRingTail clu kind tail => exact State.answers_next _ (s.sameQueue_ringTail clu kind tail)
  | portDetectAttempt | portTrainingEnd | portDisable => exact State.answers_next _ (State.sameQueue.of_dev _ (State.sameQueue_levels _))
  | commandFetch ld q => exact s.answers_settleHost _ (State.sameQueue_commandFetch ld q)
  | attest iss body => exact s.answers_settleHost _ (State.sameQueue_attest iss body)
  | ownerXfer iss body => exact s.answers_settleHost _ (State.sameQueue_ownerXfer iss body)
  | minverRaise iss body => exact (s.keepsQueue_minverRaise iss body).answers _
  | l2TreeCertify => exact State.answers_next _ (State.sameQueue_ite s.sameQueue_certify (.refl s))
  | nvmInfo | nvmErase | nvmRead => exact s.answers_nvmMsg _ fun _ => ⟨rfl, rfl⟩
  | nvmWrite => exact s.answers_nvmWrite
  | nvmVerify => exact s.answers_nvmVerify
  | startClear => exact s.answers_nvmMsg _ fun u => State.sameQueue.trans (State.sameQueue_record 0 _ 0 0 u) ⟨rfl, rfl⟩
  | romStage probe ok => exact State.answers_next _ (s.sameQueue_romStage probe ok)
  | silmuvinStage i0 i1 lp free => exact State.answers_next _ (s.sameQueue_silmuvinStage i0 i1 lp free)
  | dieJoin die sram => exact s.answers_settleHost _ (State.sameQueue_dieJoin die sram)
  | dieBootCodeTimeout die => exact State.answers_next _ (State.sameQueue_ite (s.sameQueue_dieFail die 4) (.refl s))
  | startLimitExpiry | railOutOfRegulation => exact State.answers_next _ (State.sameQueue_ite (State.sameQueue_startFail _ _ _ s) (.refl s))
  | resetZeroiseComplete e => exact s.answers_settleHost _ (State.sameQueue_zeroiseComplete e)
  | drainComplete sc => exact s.answers_settleHost _ (State.sameQueue_drainComplete sc)
  | thermAssert tj plate => exact State.answers_next _ (s.sameQueue_thermAssert tj plate)
  | thermalTrip tj plate => exact State.answers_next _ (State.sameQueue_ite (s.sameQueue_thermAssert tj plate) (.refl s))
  | vauxCurrentLimit => exact s.keepsQueue_vauxCurrentLimit.answers _
end

/-- Settles O3: every command of the machine counts as it may. -/
theorem elapsedCounterOnlyCountsTicks : Obligations.ElapsedCounterOnlyCountsTicks := by
  intro c s t h
  obtain ⟨u, hu, -, hn⟩ := exec_answers c s
  cases h.symm.trans hu
  exact hn

end Sys2Proof.Machine
end

section
/-! SUPPORT. Cluster registers, progress and time reads, FENCE and DMAW (R62, R158, R160, R167, R170, R174). -/

namespace Sys2Proof.Machine

/-! ## What an instruction of a control core leaves -/

/-- The fetch of an instruction leaves the clusters. -/
@[simp] theorem Dev.clu_fetched (d : Dev) (n k : Nat) : (d.fetched n).clu k = d.clu k := by
  unfold Dev.fetched Dev.clu
  rw [(Dev.memFrame_readOk d ..).1]

@[simp] theorem Dev.reg_fetched (d : Dev) (n k : Nat) (r : Reg) : (d.fetched n).reg k r = d.reg k r := by
  rw [Dev.reg, Dev.clu_fetched, Dev.reg]

/-- The state after an instruction of cluster n that leaves the cluster as `c`. -/
def State.ran (s : State) (n : Nat) (c : Cluster) : State := { s with dev := (s.dev.fetched n).setClu n c }

/-- A cluster whose control core goes on to the next instruction. -/
def Cluster.stepped (c : Cluster) : Cluster := { c with ctl := { c.ctl with pc := c.ctl.pc + 4 } }

/-- A cluster that has written a result and goes on. -/
def Cluster.resulted (c : Cluster) (r : Reg) (v : W64) : Cluster := { c with ctl := { c.ctl.put r v with pc := c.ctl.pc + 4 } }

/-- A cluster whose block of registers has changed. -/
def Cluster.withRegs (c : Cluster) (f : CluRegs → CluRegs) : Cluster := { c with clu := f c.clu }

/-- A block that has recorded a rejected access. -/
def CluRegs.errored (e : Code) (x : CluRegs) : CluRegs := { x with errCode := e }

/-- A write of ones has cleared bits of a register of the block. -/
def CluRegs.faultCleared (v : W32) (x : CluRegs) : CluRegs := { x with coreFault := x.coreFault &&& ~~~v }
def CluRegs.isatCleared (v : W32) (x : CluRegs) : CluRegs := { x with isat := x.isat &&& ~~~v }

section
variable {s : State} {n : Nat} (h : s.dev.fetchOk n) {f : Dev → Dev}
include h

theorem onDev_instr : onDev (Dev.instr n f) s = .next { s with dev := f (s.dev.fetched n) } := by
  rw [onDev, Dev.instr_fetchOk h]

/-- An instruction that leaves its cluster as `c` and goes on. -/
theorem onDev_instr_next {c : Cluster} (hc : ∃ e : Dev, f (s.dev.fetched n) = e.next n ∧ e = (s.dev.fetched n).setClu n c) :
    onDev (Dev.instr n f) s = .next (s.ran n c.stepped) := by
  obtain ⟨e, hf, rfl⟩ := hc
  rw [onDev_instr h, hf]
  simp only [Dev.next, Dev.modCtl, Dev.modClu, Dev.clu_setClu_same, Dev.setClu_setClu]
  rfl

/-- An instruction that leaves its cluster as `c`, writes a result and goes on. -/
theorem onDev_instr_ret {c : Cluster} {r : Reg} {v : W64} (hc : ∃ e : Dev, f (s.dev.fetched n) = e.ret n r v ∧ e = (s.dev.fetched n).setClu n c) :
    onDev (Dev.instr n f) s = .next (s.ran n (c.resulted r v)) := by
  obtain ⟨e, hf, rfl⟩ := hc
  rw [onDev_instr h, hf, Dev.ret_eq, Dev.clu_setClu_same, Dev.setClu_setClu]
  rfl

/-- An instruction that does nothing but write a result and go on. -/
theorem onDev_instr_result {r : Reg} {v : W64} (hf : f (s.dev.fetched n) = (s.dev.fetched n).ret n r v) :
    onDev (Dev.instr n f) s = .next (s.after n fun x => { x.put r v with pc := x.pc + 4 }) := by
  rw [onDev_instr h, hf, Dev.ret_eq, Dev.clu_fetched]
  rfl

/-- An instruction that does nothing but go on. -/
theorem onDev_instr_step (hf : f (s.dev.fetched n) = (s.dev.fetched n).next n) :
    onDev (Dev.instr n f) s = .next (s.after n fun x => { x with pc := x.pc + 4 }) := by
  rw [onDev_instr h, hf, Dev.next, Dev.modCtl, Dev.modClu, Dev.clu_fetched]
  rfl

end

/-! ## CSRR and CSRW (R174) -/

theorem Dev.cluRead_coreFault (d : Dev) (n : Nat) : d.cluRead n 0x1C = some (d.clu n).clu.coreFault.toNat := rfl

theorem Dev.cluRead_unassigned (d : Dev) (n : Nat) : d.cluRead n 0x30 = none := rfl

theorem Dev.cluErr_fetched (n : Nat) (c : Code) (d : Dev) :
    (d.fetched n).cluErr n c = (d.fetched n).setClu n ((d.clu n).withRegs (.errored c)) := by
  rw [← Dev.clu_fetched d n n]
  rfl

section
variable {s : State} {n : Nat} (h : s.dev.fetchOk n) (d a : Reg)
include h

theorem exec_csrr_coreFault : exec (.csrr n d 0x01C) s =
    .next (s.after n fun x => { x.put d ((s.dev.clu n).clu.coreFault.setWidth 64) with pc := x.pc + 4 }) :=
  onDev_instr_result h (by
    change (s.dev.fetched n).ret n d (BitVec.ofNat 64 ((s.dev.fetched n).clu n).clu.coreFault.toNat) = _
    rw [Dev.clu_fetched, BitVec.ofNat_toNat])

theorem exec_csrr_unassigned : exec (.csrr n d 0x030) s = .next (s.after n fun x => { x.put d 0 with pc := x.pc + 4 }) :=
  onDev_instr_result h rfl

theorem exec_csrr_unaligned {off : BitVec 14} (ho : off.toNat % 4 ≠ 0) :
    exec (.csrr n d off) s = .next (s.ran n (((s.dev.clu n).withRegs (.errored eAlign)).resulted d 0)) :=
  onDev_instr_ret h ⟨(s.dev.fetched n).cluErr n eAlign, by rw [Dev.cluReadBy, if_pos ho]; rfl, Dev.cluErr_fetched ..⟩

/-- CSRW goes on once the block has taken or rejected the word. -/
theorem exec_csrw {off : BitVec 14} {f : CluRegs → CluRegs}
    (hw : ∀ e : Dev, e.cluWriteBy n off.toNat ((s.dev.reg n a).setWidth 32) = e.setClu n ((e.clu n).withRegs f)) :
    exec (.csrw n off a) s = .next (s.ran n ((s.dev.clu n).withRegs f).stepped) :=
  onDev_instr_next h ⟨_, by rw [Dev.reg_fetched], by rw [hw, Dev.clu_fetched]⟩

end

section
variable (n : Nat) {v : W32}

theorem Dev.cluWriteBy_unaligned {off : Nat} (h : off % 4 ≠ 0) (d : Dev) : d.cluWriteBy n off v = d.setClu n ((d.clu n).withRegs (.errored eAlign)) :=
  if_pos h

theorem Dev.cluWriteBy_errCode (h : fld v 31 16 = 0) (d : Dev) :
    d.cluWriteBy n 8 v = d.setClu n ((d.clu n).withRegs (.errored (v.setWidth 16))) := by
  change d.checked (.clu n) (firstFail [(decide (fld v 31 16 ≠ 0), eReservedNonzero)]) _ = _
  rw [h]
  exact congrArg (fun e => d.setClu n ((d.clu n).withRegs (.errored e))) (BitVec.ofNat_toNat ..)

theorem Dev.cluWriteBy_errCode_reserved (h : fld v 31 16 ≠ 0) (d : Dev) :
    d.cluWriteBy n 8 v = d.setClu n ((d.clu n).withRegs (.errored eReservedNonzero)) := by
  change d.checked (.clu n) (firstFail [(decide (fld v 31 16 ≠ 0), eReservedNonzero)]) _ = _
  rw [decide_eq_true h]
  rfl

end

/-! ## TAGR, ELAP, FENCE and DMAW (R62, R160, R167, R170) -/

/-- The four 16-bit fields of TAGR, packed as a sum of their places. -/
theorem ofNat_fields_eq_append (a b c d : BitVec 16) :
    (BitVec.ofNat 64 (d.toNat + 2 ^ 16 * c.toNat + 2 ^ 32 * b.toNat + 2 ^ 48 * a.toNat)) = a ++ b ++ c ++ d := by
  have happ : ∀ {m : Nat} (x : BitVec m) (y : BitVec 16), (x ++ y).toNat = x.toNat * 2 ^ 16 + y.toNat := fun x y => by
    rw [BitVec.toNat_append, ← Nat.shiftLeft_add_eq_or_of_lt y.isLt, Nat.shiftLeft_eq]
  apply BitVec.eq_of_toNat_eq
  rw [BitVec.toNat_ofNat, happ, happ, happ]
  have := a.isLt
  omega

/-- What FENCE waits for has finished (R170). -/
theorem Cluster.fenceOpen_iff (c : Cluster) (k : BitVec 5) (mask : W64) : c.fenceOpen k (mask.setWidth 32) = true ↔
    (∀ i, i < 32 → mask.getLsbD i = true → (k.getLsbD 0 = true → (c.core i).mq = []) ∧ (k.getLsbD 1 = true → (c.core i).vq = [])) ∧
      (k.getLsbD 2 = true → c.mover = []) ∧ (k.getLsbD 3 = true → c.dma = []) := by
  have hm : ∀ i, i ∈ bitsOf 32 (mask.setWidth 32).toNat ↔ i < 32 ∧ mask.getLsbD i = true := by
    intro i
    rw [bitsOf, List.mem_filter, List.mem_range]
    refine and_congr_right fun hi => ?_
    rw [BitVec.testBit_toNat, BitVec.getLsbD_setWidth]
    simp [hi]
  have himp : ∀ (b : Bool) (p : Prop), b = false ∨ p ↔ (b = true → p) := fun b p => by cases b <;> simp
  simp only [Cluster.fenceOpen, Bool.and_eq_true, Bool.or_eq_true, Bool.not_eq_true', List.all_eq_true, hm, List.isEmpty_iff, himp]
  constructor
  · rintro ⟨⟨⟨hmx, hvec⟩, hmover⟩, hdma⟩
    exact ⟨fun i hi hb => ⟨fun hk => hmx hk i ⟨hi, hb⟩, fun hk => hvec hk i ⟨hi, hb⟩⟩, hmover, hdma⟩
  · rintro ⟨hcore, hmover, hdma⟩
    exact ⟨⟨⟨fun hk i hi => (hcore i hi.1 hi.2).1 hk, fun hk i hi => (hcore i hi.1 hi.2).2 hk⟩, hmover⟩, hdma⟩

section
variable {s : State} {n : Nat} (h : s.dev.fetchOk n) (d a : Reg)
include h

theorem exec_tagr_core (hv : (s.dev.reg n a).toNat < 32) : exec (.tagr n d a) s = .next (s.after n fun x =>
    { x.put d (((s.dev.clu n).core (s.dev.reg n a).toNat).vcnt ++ ((s.dev.clu n).core (s.dev.reg n a).toNat).mcnt ++
        ((s.dev.clu n).core (s.dev.reg n a).toNat).vtag ++ ((s.dev.clu n).core (s.dev.reg n a).toNat).mtag) with pc := x.pc + 4 }) :=
  onDev_instr_result h (by
    dsimp only
    rw [Dev.reg_fetched, if_neg (not_not.mpr (Nat.div_eq_of_lt hv)), Dev.clu_fetched, ofNat_fields_eq_append])

theorem exec_tagr_range (hv : 32 ≤ (s.dev.reg n a).toNat) :
    exec (.tagr n d a) s = .next (s.ran n (((s.dev.clu n).withRegs (.errored eRange)).resulted d (BitVec.allOnes 64))) :=
  onDev_instr_ret h ⟨(s.dev.fetched n).cluErr n eRange, by rw [Dev.reg_fetched, if_pos (by omega)], Dev.cluErr_fetched ..⟩

/-- FENCE goes on once what it names has finished, and else stays. -/
theorem exec_fence (k : BitVec 5) : exec (.fence n k a) s =
    if (s.dev.clu n).fenceOpen k ((s.dev.reg n a).setWidth 32) = true then .next (s.after n fun x => { x with pc := x.pc + 4 })
    else .next { s with dev := s.dev.fetched n } := by
  split
  · next ho => exact onDev_instr_step h (by rw [Dev.reg_fetched, Dev.clu_fetched, if_pos ho])
  · next ho => exact (onDev_instr h).trans (by rw [Dev.reg_fetched, Dev.clu_fetched, if_neg ho])

/-- DMAW goes on once the difference is zero or more as a signed value, and else stays. -/
theorem exec_dmaw : exec (.dmaw n a) s =
    if ((s.dev.clu n).clu.dmaDone - (s.dev.reg n a).setWidth 32).toInt < 0 then .next { s with dev := s.dev.fetched n }
    else .next (s.after n fun x => { x with pc := x.pc + 4 }) := by
  have hneg : ∀ v : W32, v.getLsbD 31 = true ↔ v.toInt < 0 := fun v => by
    have := BitVec.msb_eq_toInt (x := v)
    rw [BitVec.msb_eq_getLsbD_last] at this
    simpa using congrArg (· = true) this
  split
  · next ho => exact (onDev_instr h).trans (by rw [Dev.reg_fetched, Dev.clu_fetched, if_pos ((hneg _).mpr ho)])
  · next ho => exact onDev_instr_step h (by rw [Dev.reg_fetched, Dev.clu_fetched, if_neg (mt (hneg _).mp ho)])

end

/-- Settles O18: each register and each wait by its own lemma. -/
theorem clusterRegistersAndWaits : Obligations.ClusterRegistersAndWaits := by
  refine ⟨?_, ?_, ?_⟩
  · intro n d a off s h c v wrote
    have hfault : exec (.csrw n 0x01C a) s = _ := exec_csrw h a (f := .faultCleared v) fun _ => rfl
    have hisat : exec (.csrw n 0x068 a) s = _ := exec_csrw h a (f := .isatCleared v) fun _ => rfl
    have hcode : fld v 31 16 = 0 → exec (.csrw n 0x008 a) s = _ := fun hz => exec_csrw h a (Dev.cluWriteBy_errCode n hz)
    have hres : fld v 31 16 ≠ 0 → exec (.csrw n 0x008 a) s = _ := fun hz => exec_csrw h a (Dev.cluWriteBy_errCode_reserved n hz)
    have hnone : exec (.csrw n 0x030 a) s = _ := exec_csrw h a (f := .errored eRange) fun _ => rfl
    exact ⟨exec_csrr_coreFault h d, exec_csrr_unassigned h d, hfault, hisat, hcode, hres, hnone, fun ho =>
      ⟨exec_csrw h a (Dev.cluWriteBy_unaligned n ho), exec_csrr_unaligned h d ho⟩⟩
  · intro n d a s h c v k
    exact ⟨exec_tagr_core h d a, exec_tagr_range h d a, onDev_instr_result h rfl⟩
  · intro n k a s h c mask done
    have hd := c.fenceOpen_iff k mask
    exact ⟨fun ho => (exec_fence h a k).trans (if_pos (hd.mpr ho)), fun ho => (exec_fence h a k).trans (if_neg (mt hd.mp ho)),
      fun hz => (exec_dmaw h a).trans (if_neg (not_lt.mpr hz)), fun hz => (exec_dmaw h a).trans (if_pos hz)⟩

end Sys2Proof.Machine
end

section
/-! SUPPORT. The state right after reset (R47, R57, R61, R539, R542, R550). -/

namespace Sys2Proof.Machine

/-- No byte, codeword, line or key stands in memory after reset. -/
theorem State.quiet_reset : State.reset.dev.quiet := Dev.quiet_of rfl rfl rfl rfl rfl fun _ => rfl

/-- Settles O7: the tables are empty, so that every entry has its reset value. -/
theorem resetHoldsInvariants : Obligations.ResetHoldsInvariants := by
  have hmem : State.reset.memWf := ⟨rfl, rfl, rfl⟩
  have hregions : State.reset.dev.regionsInside := 
    ⟨fun _ => (by decide : Region.init.base + Region.init.count ≤ 24576), fun _ => (by decide : Region.init.base + Region.init.count ≤ 32768)⟩
  exact ⟨hmem, hregions, State.quiet_reset, rfl, rfl, rfl, rfl, rfl, by decide, rfl, rfl, rfl, rfl, fun _ => ⟨rfl, rfl, rfl, rfl⟩⟩

end Sys2Proof.Machine
end

section
/-! SUPPORT. A tick of the elapsed counter (R61, R192, R314, R402). -/

namespace Sys2Proof.Machine

/-- An entry of a table whose values have all changed. -/
theorem Map.find_map {α : Type} (m : Map α) (f : α → α) (n : Nat) : Map.find (m.map fun e => (e.1, f e.2)) n = (Map.find m n).map f := by
  induction m with
  | nil => rfl
  | cons e m ih =>
    simp only [List.map_cons, Map.find, ih]
    split <;> rfl

theorem Map.get_map {α : Type} (m : Map α) {f : α → α} {d : α} (hd : f d = d) (n : Nat) :
    Map.get (m.map fun e => (e.1, f e.2)) n d = f (Map.get m n d) := by
  rw [Map.get, Map.find_map, Map.get]
  cases Map.find m n with
  | none => exact hd.symm
  | some x => rfl

/-- A cluster whose hand-over request has waited one unit more (R402). -/
def Cluster.aged (c : Cluster) : Cluster := if c.yieldReq = some .handOver then { c with yieldAge := c.yieldAge + 1 } else c

/-- An LD whose outstanding requests have waited one unit more (R314). -/
def Ld.aged (l : Ld) : Ld := { l with fab := { l.fab with reqs := l.fab.reqs.map fun r => { r with age := r.age + 1 } } }

theorem Dev.clu_ageYields (d : Dev) (n : Nat) : d.ageYields.clu n = (d.clu n).aged := by
  have h : d.ageYields.clusters = d.clusters.map fun e => (e.1, e.2.aged) :=
    List.map_congr_left fun e _ => by unfold Cluster.aged; split <;> rfl
  rw [Dev.clu, h]
  exact Map.get_map d.clusters (by rfl) n

theorem Dev.ld_ageRequests (d : Dev) (n : Nat) : d.ageRequests.ld n = (d.ld n).aged := Map.get_map d.lds (f := Ld.aged) rfl n

/-- New errors stay in the table of errors. -/
theorem Dev.upset_frame (x : Nat × List Nat) (d : Dev) : d.upset x = { d with upsets := (d.upset x).upsets } := by
  unfold Dev.upset
  split
  · rfl
  · extract_lets mark ys
    split <;> rfl

/-- Only the codeword that is named, and none that is poisoned, gets new errors. -/
theorem Dev.upset_get (x : Nat × List Nat) (d : Dev) {c : Nat} (h : c ∈ d.poison ∨ x.1 ≠ c) :
    Map.get (d.upset x).upsets c [] = Map.get d.upsets c [] := by
  unfold Dev.upset
  split
  · rfl
  · extract_lets mark ys
    split
    · next hx =>
      have hpoison : x.1 ∉ d.poison := by simpa using hx.2.1
      exact Map.get_set_other _ _ _ fun e => h.elim (fun hc => hpoison (e ▸ hc)) (fun hc => hc e.symm)
    · rfl

theorem Dev.upsets_frame (ups : List (Nat × List Nat)) (d : Dev) :
    ups.foldl (fun d x => d.upset x) d = { d with upsets := (ups.foldl (fun d x => d.upset x) d).upsets } := by
  induction ups generalizing d with
  | nil => rfl
  | cons x ups ih => rw [List.foldl_cons, ih, Dev.upset_frame]

theorem Dev.upsets_get {ups : List (Nat × List Nat)} {d : Dev} {c : Nat} (h : c ∈ d.poison ∨ ∀ x ∈ ups, x.1 ≠ c) :
    Map.get (ups.foldl (fun d x => d.upset x) d).upsets c [] = Map.get d.upsets c [] := by
  induction ups generalizing d with
  | nil => rfl
  | cons x ups ih =>
    have hp : (d.upset x).poison = d.poison := by rw [Dev.upset_frame]
    rw [List.foldl_cons, ih (by rw [hp]; exact h.imp_right fun h y hy => h y (List.mem_cons_of_mem _ hy)),
      Dev.upset_get x d (h.imp_right fun h => h x List.mem_cons_self)]

/-- What ELAPSED_TICK does (R61, R192, R314, R402). -/
theorem exec_elapsedTick (ups : List (Nat × List Nat)) (s : State) : ∃ t, exec (.elapsedTick ups) s = .next t ∧
    t.now = s.now + 1 ∧ t.pending = s.pending ∧ t.vault = s.vault ∧
    t.dev = { s.dev with lds := t.dev.lds, clusters := t.dev.clusters, upsets := t.dev.upsets } ∧
    (∀ n, t.dev.clu n = (s.dev.clu n).aged) ∧ (∀ n, t.dev.ld n = (s.dev.ld n).aged) ∧
    (∀ c, (c ∈ s.dev.poison ∨ ∀ x ∈ ups, x.1 ≠ c) → Map.get t.dev.upsets c [] = Map.get s.dev.upsets c []) := by
  have hf := Dev.upsets_frame ups s.dev
  refine ⟨_, rfl, rfl, rfl, rfl, ?_, fun n => ?_, fun n => ?_, fun c hc => Dev.upsets_get hc⟩
  · dsimp only
    rw [hf]
    rfl
  · refine (Dev.clu_ageYields _ n).trans ?_
    rw [hf]
    rfl
  · refine (Dev.ld_ageRequests _ n).trans ?_
    rw [hf]
    rfl

end Sys2Proof.Machine
end

section
/-! SUPPORT. A fault of the board, and the slack monitors (R48, R550). -/

namespace Sys2Proof.Machine

/-- A fault of the board changes its register and sends at most an interrupt. -/
theorem Dev.bcFault_frame (b : Nat) (d : Dev) :
    d.bcFault b = { d with i3c := { d.i3c with fault := setBit d.i3c.fault b }, out := (d.bcFault b).out } := by
  unfold Dev.bcFault
  extract_lets was d'
  split <;> rfl

theorem Dev.mem_bcFault_out {b : Nat} {d : Dev} {o : Output} (h : o ∈ d.out) : o ∈ (d.bcFault b).out := by
  unfold Dev.bcFault
  extract_lets was d'
  split
  · exact List.mem_append_left _ h
  · exact h

@[simp] theorem Dev.fault_bcFault (b : Nat) (d : Dev) : (d.bcFault b).i3c.fault = setBit d.i3c.fault b := by rw [Dev.bcFault_frame]

@[simp] theorem Dev.die_bcFault (b n : Nat) (d : Dev) : (d.bcFault b).die n = d.die n := by
  rw [Dev.bcFault_frame]
  rfl

theorem setBit_ne_zero {n b : Nat} (v : BitVec n) (hb : b < n) : setBit v b ≠ 0 := fun h =>
  absurd (getLsbD_setBit_same v hb) (by rw [h]; simp)

theorem Dev.alert_bcFault {b : Nat} (d : Dev) (hb : b < 13) : (d.bcFault b).alert = true := by
  rw [Dev.alert, Dev.fault_bcFault, bne_iff_ne]
  exact setBit_ne_zero _ hb

/-- What a change of a single die does to each. -/
theorem Dev.die_modDie (d : Dev) (n k : Nat) (f : Die → Die) : (d.modDie n f).die k = if k = n then f (d.die n) else d.die k := by
  split
  · next h => rw [h, Dev.die_modDie_same]
  · next h => exact Dev.die_modDie_other d f h

/-- A die whose slack monitor has tripped: the trip is counted, and the tap rises or, at its end, the margin is lost (R48). -/
def Die.slackTripped (x : Die) : Die :=
  if 63 ≤ x.tap then { x with trips := sat16 x.trips, marginLost := true }
  else { x with trips := sat16 x.trips, tap := x.tap + 1, conservative := x.conservative || decide (x.tap + 1 = 63) }

theorem exec_slackTrip {die clu : Nat} {s : State} (hj : (s.dev.die die).joined = true) (hc : clu / 256 = die) :
    ∃ t, exec (.slackTrip die clu) s = .next t ∧
      t = { s with dev := { s.dev with dies := t.dev.dies, i3c := { s.dev.i3c with fault := t.dev.i3c.fault }, out := t.dev.out } } ∧
      .slackEvent die clu ∈ t.dev.out ∧ (∀ n, n ≠ die → t.dev.die n = s.dev.die n) ∧ t.dev.die die = (s.dev.die die).slackTripped ∧
      ((s.dev.die die).tap < 62 → t.dev.i3c = s.dev.i3c) ∧ (62 ≤ (s.dev.die die).tap → t.dev.alert = true) := by
  have hout : ∀ d : Dev, Output.slackEvent die clu ∈ (d.emit (.slackEvent die clu)).out := fun d => by simp [Dev.emit]
  refine ⟨_, rfl, ?_⟩
  have hrun : s.dev.slackTrip die clu =
      let d := (s.dev.modDie die fun x => { x with trips := sat16 x.trips }).emit (.slackEvent die clu)
      if 63 ≤ (s.dev.die die).tap then (d.modDie die fun x => { x with marginLost := true }).bcFault 12
      else
        let d := d.modDie die fun x => { x with tap := x.tap + 1 }
        if (s.dev.die die).tap + 1 = 63 then (d.modDie die fun x => { x with conservative := true }).bcFault 0 else d := if_pos (by simp [hj, hc])
  dsimp only at hrun
  rw [hrun]
  by_cases h63 : 63 ≤ (s.dev.die die).tap
  · rw [if_pos h63]
    refine ⟨by rw [Dev.bcFault_frame]; rfl, Dev.mem_bcFault_out (hout _), fun n hn => by simp [hn], ?_, fun h => by omega,
      fun _ => Dev.alert_bcFault _ (by decide)⟩
    simp [Die.slackTripped, h63]
  · rw [if_neg h63]
    by_cases h62 : (s.dev.die die).tap + 1 = 63
    · rw [if_pos h62]
      refine ⟨by rw [Dev.bcFault_frame]; rfl, Dev.mem_bcFault_out (hout _), fun n hn => by simp [hn], ?_, fun h => by omega,
        fun _ => Dev.alert_bcFault _ (by decide)⟩
      simp [Die.slackTripped, h63, h62]
    · rw [if_neg h62]
      refine ⟨rfl, hout _, fun n hn => by simp [hn], ?_, fun _ => rfl, fun h => by omega⟩
      simp [Die.slackTripped, h63, h62]

end Sys2Proof.Machine
end

section
/-! SUPPORT. The setting that a sample makes (R49, R51 to R53). -/

namespace Sys2Proof.Machine

theorem mem_dieNumbers {n : Nat} : n ∈ dieNumbers ↔ n < 10 := List.mem_range

/-- A plan that gives each die a setting. -/
theorem getD_map_dieNumbers (f : Nat → DiePlan) {n : Nat} (h : n < 10) (y : DiePlan) : (dieNumbers.map f).getD n y = f n := by
  simp [dieNumbers, List.getD, h]

theorem Dev.mem_lowerable {d : Dev} {n : Nat} : n ∈ d.lowerable ↔ n < 10 ∧ (d.die n).pinned = d.spent := by
  simp [Dev.lowerable, mem_dieNumbers]

theorem Dev.mustLower_iff {d : Dev} {draw : Nat} {tj : List Nat} : d.mustLower draw tj = true ↔ d.limit.1 < draw ∨ ∃ x ∈ tj, 105 < x := by
  simp [Dev.mustLower]

/-- Every die stands within the range of its rail. -/
def Dev.inRange (d : Dev) : Prop := ∀ n, n < 10 → 700 ≤ (d.die n).vcore ∧ (d.die n).vcore ≤ 850 ∧ (d.die n).pacing ≤ 15

/-- A die that is not pinned, or any once those are spent, that the rules let a sample lower is at the floor when none stands above it. -/
theorem Dev.atFloor_of_low {d : Dev} (hr : d.inRange) (h : ∀ n ∈ d.lowerable, (d.die n).vcore ≤ 700) : d.atFloor = true := by
  refine List.all_eq_true.mpr fun n hn => ?_
  have h10 := mem_dieNumbers.mp hn
  cases hp : (d.die n).pinned with
  | true => rfl
  | false =>
    have hv : (d.die n).vcore = 700 := by
      cases hs : d.spent with
      | false => exact Nat.le_antisymm (h n (Dev.mem_lowerable.mpr ⟨h10, hp.trans hs.symm⟩)) (hr n h10).1
      | true =>
        have hn' := List.all_eq_true.mp hs n hn
        simp only [hp, Bool.false_or, beq_iff_eq] at hn'
        exact congrArg DiePlan.vcore hn'
    simp [hv]

/-- What a sample may do to die n (R49, R51 to R53). -/
structure Dev.MayTake (d : Dev) (draw : Nat) (tj : List Nat) (n : Nat) (y : DiePlan) : Prop where
  range : 700 ≤ y.vcore ∧ y.vcore ≤ 850 ∧ y.pacing ≤ 15
  overLimit : d.limit.1 < draw → y.vcore ≤ (d.die n).vcore ∧ (d.die n).pacing ≤ y.pacing
  boost : 750 < y.vcore → (d.die n).vcore < y.vcore → d.pwr.boostEn = true ∧ draw < d.limit.1 ∧ tj.getD n 0 < 80
  pace : (d.die n).pacing < y.pacing → d.atFloor = true ∧ (d.limit.1 < draw ∨ ∃ x ∈ tj, 105 < x) ∨ 3000 < draw
  pin : (d.die n).pinned = true → y.vcore < (d.die n).vcore ∧ y.vcore < d.pwr.pinMv ∨ (d.die n).pacing < y.pacing → d.spent = true

section
variable {d : Dev} {draw : Nat} {tj : List Nat} {n : Nat} {y : DiePlan}

theorem Dev.mayTake_of_dieOk (h : d.dieOk draw tj n y = true) : d.MayTake draw tj n y := by
  simp only [Dev.dieOk, Bool.and_eq_true, Bool.or_eq_true, decide_eq_true_eq, Bool.not_eq_true', Bool.or_eq_false_iff,
    decide_eq_false_iff_not, Dev.mustLower_iff] at h
  dsimp only [Dev.setting] at h
  obtain ⟨⟨⟨⟨⟨⟨⟨hlo, hhi⟩, -⟩, hpac⟩, hboost⟩, hover⟩, hpace⟩, hpin⟩ := h
  refine ⟨⟨hlo, hhi, hpac⟩, fun ha => hover.resolve_left fun hn => hn.1 ha, fun h1 h2 => ?_, fun hp => ?_, fun hp hb => ?_⟩
  · obtain ⟨⟨hb, hr⟩, ht⟩ := hboost.resolve_left (by omega)
    exact ⟨hb, hr, ht⟩
  · exact hpace.imp_left fun h => h.resolve_left (by omega)
  · obtain (hnp | ⟨⟨hs, -⟩, -⟩) | ⟨⟨hmin, -⟩, hpc⟩ := hpin
    · rw [hp] at hnp
      exact absurd hnp (by decide)
    · exact hs
    · omega

/-- A die that keeps its setting. -/
theorem Dev.mayTake_setting (hr : d.inRange) (hn : n < 10) : d.MayTake draw tj n (d.setting n) where
  range := hr n hn
  overLimit _ := ⟨le_rfl, le_rfl⟩
  boost _ h := absurd h (lt_irrefl _)
  pace h := absurd h (lt_irrefl _)
  pin _ h := h.elim (fun h => absurd h.1 (lt_irrefl _)) fun h => absurd h (lt_irrefl _)

theorem Dev.mayTake_emergency (hr : d.inRange) (hn : n < 10) (h3 : 3000 < draw) : d.MayTake draw tj n (d.emergencyPlan.getD n (d.setting n)) := by
  rw [Dev.emergencyPlan, getD_map_dieNumbers _ hn]
  split
  · next hl =>
    have hpin := (Dev.mem_lowerable.mp (List.contains_iff_mem.mp hl)).2
    obtain ⟨hlo, hhi, hp⟩ := hr n hn
    exact ⟨⟨hlo, hhi, le_rfl⟩, fun _ => ⟨le_rfl, hp⟩, fun _ h => absurd h (lt_irrefl _), fun _ => .inr h3, fun h _ => hpin.symm.trans h⟩
  · exact Dev.mayTake_setting hr hn

theorem Dev.mayTake_forced (hr : d.inRange) (hn : n < 10) (hm : d.mustLower draw tj = true) :
    d.MayTake draw tj n (d.forcedPlan.getD n (d.setting n)) := by
  have hset := Dev.mayTake_setting (draw := draw) (tj := tj) hr hn
  obtain ⟨hlo, hhi, hp⟩ := hr n hn
  rw [Dev.forcedPlan, getD_map_dieNumbers _ hn]
  by_cases hl : n ∈ d.lowerable
  · have hpin : (d.die n).pinned = true → d.spent = true := fun h => (Dev.mem_lowerable.mp hl).2.symm.trans h
    rw [if_neg (by simpa using hl)]
    split
    · split
      · next hv =>
        change 700 < (d.die n).vcore at hv
        refine ⟨⟨le_max_left .., ?_, hp⟩, fun _ => ⟨?_, le_rfl⟩, fun _ h => ?_, fun h => absurd h (lt_irrefl _), fun h _ => hpin h⟩
        all_goals dsimp only [Dev.setting] at *; omega
      · exact hset
    · next hhigh =>
      have hfloor : d.atFloor = true := Dev.atFloor_of_low hr fun k hk => by
        exact Nat.le_of_not_lt fun h => hhigh (List.any_eq_true.mpr ⟨k, hk, decide_eq_true h⟩)
      exact ⟨⟨hlo, hhi, min_le_left ..⟩, fun _ => ⟨le_rfl, by dsimp only [Dev.setting]; omega⟩, fun _ h => absurd h (lt_irrefl _),
        fun _ => .inl ⟨hfloor, Dev.mustLower_iff.mp hm⟩, fun h _ => hpin h⟩
  · rw [if_pos (by simpa using hl)]
    exact hset

end

section
variable {d : Dev} (hr : d.inRange) {draw : Nat} {tj : List Nat} (plan : List DiePlan)
include hr

/-- Whatever the controller's choice, what the sample does to a die is what the rules let it do. -/
theorem Dev.mayTake_planFor {n : Nat} (hn : n < 10) : d.MayTake draw tj n ((d.planFor draw tj plan).getD n (d.setting n)) := by
  unfold Dev.planFor
  split
  · next hok =>
    exact Dev.mayTake_of_dieOk (List.all_eq_true.mp (Bool.and_eq_true_iff.mp hok).1 n (mem_dieNumbers.mpr hn))
  · split
    · exact Dev.mayTake_setting hr hn
    · next hm =>
      split
      · next h3 => exact Dev.mayTake_emergency hr hn h3.1
      · exact Dev.mayTake_forced hr hn (by simpa using hm)

/-- A sample that asks for less takes voltage or issue from a die that it may lower and that has some left. -/
theorem Dev.planFor_takes (hm : d.mustLower draw tj = true)
    (hleft : ∃ n, n < 10 ∧ (d.die n).pinned = d.spent ∧ d.setting n ≠ { vcore := 700, pacing := 15 }) :
    ∃ n, n < 10 ∧ (d.die n).pinned = d.spent ∧ takes (d.setting n) ((d.planFor draw tj plan).getD n (d.setting n)) = true := by
  obtain ⟨m, hm10, hmp, hmset⟩ := hleft
  have hlow : m ∈ d.lowerable := Dev.mem_lowerable.mpr ⟨hm10, hmp⟩
  unfold Dev.planFor
  split
  · next hok =>
    have hmem : m ∈ d.lowerable.filter fun n => d.setting n != { vcore := 700, pacing := 15 } :=
      List.mem_filter.mpr ⟨hlow, bne_iff_ne.mpr hmset⟩
    have hacts := (Bool.and_eq_true_iff.mp hok).2
    simp only [Dev.planActs, hm, Bool.not_true, Bool.false_or, Bool.or_eq_true, Bool.and_eq_true] at hacts
    obtain hempty | ⟨⟨hany, -⟩, -⟩ := hacts
    · exact absurd hmem (by rw [List.isEmpty_iff.mp hempty]; exact List.not_mem_nil)
    · obtain ⟨n, hn, ht⟩ := List.any_eq_true.mp hany
      obtain ⟨hn10, hnp⟩ := Dev.mem_lowerable.mp (List.mem_filter.mp hn).1
      exact ⟨n, hn10, hnp, ht⟩
  · rw [if_neg (by simp [hm])]
    split
    · next h3 =>
      obtain ⟨n, hn, hpac⟩ := List.any_eq_true.mp h3.2
      obtain ⟨hn10, hnp⟩ := Dev.mem_lowerable.mp hn
      refine ⟨n, hn10, hnp, ?_⟩
      rw [Dev.emergencyPlan, getD_map_dieNumbers _ hn10, if_pos (List.contains_iff_mem.mpr hn), takes, Bool.or_eq_true]
      exact .inr hpac
    · by_cases hhigh : ∃ n ∈ d.lowerable, 700 < (d.die n).vcore
      · obtain ⟨n, hn, hv⟩ := hhigh
        obtain ⟨hn10, hnp⟩ := Dev.mem_lowerable.mp hn
        refine ⟨n, hn10, hnp, ?_⟩
        rw [Dev.forcedPlan, getD_map_dieNumbers _ hn10, if_neg (by simpa using hn),
          if_pos (List.any_eq_true.mpr ⟨n, hn, decide_eq_true hv⟩), if_pos (show 700 < (d.setting n).vcore from hv), takes, Bool.or_eq_true,
          decide_eq_true_eq]
        left
        dsimp only [Dev.setting]
        omega
      · have hv : (d.die m).vcore = 700 := Nat.le_antisymm (Nat.le_of_not_lt fun h => hhigh ⟨m, hlow, h⟩) (hr m hm10).1
        have hpac : (d.die m).pacing < 15 := Nat.lt_of_le_of_ne (hr m hm10).2.2 fun h => hmset (by rw [Dev.setting, hv, h])
        refine ⟨m, hm10, hmp, ?_⟩
        rw [Dev.forcedPlan, getD_map_dieNumbers _ hm10, if_neg (by simpa using hlow),
          if_neg (by simpa using hhigh), takes, Bool.or_eq_true, decide_eq_true_eq, decide_eq_true_eq]
        right
        dsimp only [Dev.setting]
        omega

end

end Sys2Proof.Machine
end

section
/-! SUPPORT. A sample of draw and temperatures, and the settings that follow it (R49, R51 to R53, R56, R57). -/

namespace Sys2Proof.Machine

/-- A change of the dies, one after another. -/
theorem Dev.die_foldl {f : Dev → Nat → Dev} {g : Nat → Die → Die}
    (h : ∀ d k n, (f d k).die n = if n = k then g k (d.die k) else d.die n) {l : List Nat} (hl : l.Nodup) (d : Dev) (n : Nat) :
    (l.foldl f d).die n = if n ∈ l then g n (d.die n) else d.die n := by
  induction l generalizing d with
  | nil => rfl
  | cons k l ih =>
    obtain ⟨hk, hl⟩ := List.nodup_cons.mp hl
    rw [List.foldl_cons, ih hl, h]
    by_cases hn : n = k
    · subst hn
      simp [hk]
    · simp [hn]

theorem dieNumbers_nodup : dieNumbers.Nodup := List.nodup_range

/-! ## The sample -/

/-- Changes of the dies leave the rest of the device. -/
theorem Dev.foldl_modDie_frame (f : Nat → Die → Die) (l : List Nat) (d : Dev) :
    l.foldl (fun d n => d.modDie n (f n)) d = { d with dies := (l.foldl (fun d n => d.modDie n (f n)) d).dies } := by
  induction l generalizing d with
  | nil => rfl
  | cons n l ih =>
    rw [List.foldl_cons, ih]
    rfl

/-- A die whose temperature a sample has taken. -/
def Die.sampled (tj : List Nat) (n : Nat) (x : Die) : Die := { x with tj := min 255 (tj.getD n 0) }

theorem Dev.sample_eq (draw : Nat) (tj : List Nat) (d : Dev) : ∃ m : Map Die, d.sample draw tj = { d with
      dies := m, pwr := { d.pwr with draw := BitVec.ofNat 12 (min 4095 draw) }, pins := { d.pins with tjMax := min 255 (tj.foldl max 0) } } ∧
    m = (dieNumbers.foldl (fun d n => d.modDie n (Die.sampled tj n)) d).dies := by
  refine ⟨_, ?_, rfl⟩
  have h := Dev.foldl_modDie_frame (Die.sampled tj) dieNumbers d
  generalize hd : dieNumbers.foldl (fun d n => d.modDie n (Die.sampled tj n)) d = e at h ⊢
  have hs : d.sample draw tj = { e with
      pwr := { e.pwr with draw := BitVec.ofNat 12 (min 4095 draw) }, pins := { e.pins with tjMax := min 255 (tj.foldl max 0) } } := by
    rw [← hd]
    rfl
  rw [hs, h]

theorem Dev.die_sample (draw : Nat) (tj : List Nat) (d : Dev) (n : Nat) :
    (d.sample draw tj).die n = if n ∈ dieNumbers then (d.die n).sampled tj n else d.die n := by
  obtain ⟨m, hs, hm⟩ := Dev.sample_eq draw tj d
  rw [hs, ← Dev.die_foldl (g := Die.sampled tj) (fun d k n => Dev.die_modDie d k n _) dieNumbers_nodup d n, hm]
  rfl

/-- A sample changes the temperatures of the dies only. -/
theorem Dev.die_sample_keeps (draw : Nat) (tj : List Nat) (d : Dev) (n : Nat) :
    (d.sample draw tj).die n = { d.die n with tj := ((d.sample draw tj).die n).tj } := by
  rw [Dev.die_sample]
  split <;> rfl

section
variable (draw : Nat) (tj : List Nat) (d : Dev) (n : Nat)

@[simp] theorem Dev.setting_sample : (d.sample draw tj).setting n = d.setting n := by rw [Dev.setting, Dev.die_sample_keeps, Dev.setting]

@[simp] theorem Dev.pinned_sample : ((d.sample draw tj).die n).pinned = (d.die n).pinned := by rw [Dev.die_sample_keeps]

@[simp] theorem Dev.vcore_sample : ((d.sample draw tj).die n).vcore = (d.die n).vcore := by rw [Dev.die_sample_keeps]

@[simp] theorem Dev.pacing_sample : ((d.sample draw tj).die n).pacing = (d.die n).pacing := by rw [Dev.die_sample_keeps]

@[simp] theorem Dev.pinMv_sample : (d.sample draw tj).pwr.pinMv = d.pwr.pinMv := by
  obtain ⟨m, hs, -⟩ := Dev.sample_eq draw tj d
  rw [hs]

/-- The setting that the controller chooses does not hang on the temperatures that stood before the sample. -/
theorem Dev.planFor_sample (plan : List DiePlan) : (d.sample draw tj).planFor draw tj plan = d.planFor draw tj plan := by
  have hspent : (d.sample draw tj).spent = d.spent := by simp [Dev.spent]
  have hfloor : (d.sample draw tj).atFloor = d.atFloor := by simp [Dev.atFloor]
  have hlow : (d.sample draw tj).lowerable = d.lowerable := by simp [Dev.lowerable, hspent]
  obtain ⟨m, hs, -⟩ := Dev.sample_eq draw tj d
  have hlimit : (d.sample draw tj).limit = d.limit := by rw [hs]; rfl
  have hmust : (d.sample draw tj).mustLower draw tj = d.mustLower draw tj := by rw [Dev.mustLower, hlimit, Dev.mustLower]
  have hboost : (d.sample draw tj).pwr.boostEn = d.pwr.boostEn := by rw [hs]
  simp only [Dev.planFor, Dev.planOk, Dev.planActs, Dev.dieOk, Dev.emergencyPlan, Dev.forcedPlan, hspent, hfloor, hlow, hmust, hlimit, hboost,
    Dev.setting_sample, Dev.pinned_sample, Dev.vcore_sample, Dev.pacing_sample, Dev.pinMv_sample]

end

/-! ## The settings -/

/-- Whether a setting lowers a pinned die below its pin or paces it (R53). -/
def Dev.breaksPin (d : Dev) (n : Nat) (y : DiePlan) : Bool :=
  (d.die n).pinned &&
    ((decide (y.vcore < (d.die n).vcore) && decide (y.vcore < d.pwr.pinMv)) || decide ((d.die n).pacing < y.pacing))

/-- A die that stands at a setting. -/
def Die.settled (y : DiePlan) (x : Die) : Die := { x with vcore := y.vcore, pacing := y.pacing }

/-- The setting of one die takes effect. -/
def Dev.setTo (d : Dev) (n : Nat) (y : DiePlan) : Dev :=
  if d.breaksPin n y then (d.modDie n (.settled y)).breakPin else d.modDie n (.settled y)

/-- The setting that a plan has for a die takes effect, where it has one. -/
def Dev.setPlanned (plan : List DiePlan) (d : Dev) (n : Nat) : Dev := (plan[n]?).elim d (d.setTo n)

theorem Dev.applyPlan_eq (plan : List DiePlan) (d : Dev) : d.applyPlan plan = dieNumbers.foldl (Dev.setPlanned plan) d := by
  refine congrArg (fun f => dieNumbers.foldl f d) (funext fun d => funext fun n => ?_)
  unfold Dev.setPlanned
  cases plan[n]? with
  | none => rfl
  | some y => rfl

theorem Dev.setTo_frame (d : Dev) (n : Nat) (y : DiePlan) : d.setTo n y = { d with
    dies := (d.setTo n y).dies, pwr := { d.pwr with pinBroken := d.pwr.pinBroken || d.breaksPin n y },
    i3c := { d.i3c with fault := (d.setTo n y).i3c.fault }, out := (d.setTo n y).out } := by
  unfold Dev.setTo
  cases d.breaksPin n y with
  | true => rw [if_pos rfl, Bool.or_true, Dev.breakPin, Dev.bcFault_frame]; rfl
  | false => rw [if_neg Bool.false_ne_true, Bool.or_false]; rfl

theorem Dev.die_setTo (d : Dev) (k n : Nat) (y : DiePlan) : (d.setTo k y).die n = if n = k then (d.die k).settled y else d.die n := by
  rw [← Dev.die_modDie d k n (.settled y), Dev.setTo]
  split
  · rw [Dev.breakPin, Dev.die_bcFault]
    rfl
  · rfl

theorem Dev.die_setPlanned (plan : List DiePlan) (d : Dev) (k n : Nat) :
    (d.setPlanned plan k).die n = if n = k then (plan[k]?).elim (d.die k) fun y => (d.die k).settled y else d.die n := by
  unfold Dev.setPlanned
  cases plan[k]? with
  | none => exact (ite_eq_right_iff.mpr fun h => h ▸ rfl).symm
  | some y => exact Dev.die_setTo d k n y

theorem Dev.setPlanned_frame (plan : List DiePlan) (d : Dev) (n : Nat) : d.setPlanned plan n = { d with
    dies := (d.setPlanned plan n).dies, pwr := { d.pwr with pinBroken := (d.setPlanned plan n).pwr.pinBroken },
    i3c := { d.i3c with fault := (d.setPlanned plan n).i3c.fault }, out := (d.setPlanned plan n).out } := by
  unfold Dev.setPlanned
  cases plan[n]? with
  | none => rfl
  | some y => exact (Dev.setTo_frame d n y).trans (by rw [Option.elim_some, Dev.setTo_frame])

theorem Dev.setPlanned_foldl_frame (plan : List DiePlan) (l : List Nat) (d : Dev) : l.foldl (Dev.setPlanned plan) d = { d with
    dies := (l.foldl (Dev.setPlanned plan) d).dies, pwr := { d.pwr with pinBroken := (l.foldl (Dev.setPlanned plan) d).pwr.pinBroken },
    i3c := { d.i3c with fault := (l.foldl (Dev.setPlanned plan) d).i3c.fault }, out := (l.foldl (Dev.setPlanned plan) d).out } := by
  induction l generalizing d with
  | nil => rfl
  | cons n l ih => rw [List.foldl_cons, ih, Dev.setPlanned_frame]

/-- A pin that is broken stays so through a sample. -/
theorem Dev.pinBroken_setPlanned (plan : List DiePlan) {d : Dev} (h : d.pwr.pinBroken = true) (n : Nat) :
    (d.setPlanned plan n).pwr.pinBroken = true := by
  unfold Dev.setPlanned
  cases plan[n]? with
  | none => exact h
  | some y => rw [Option.elim_some, Dev.setTo_frame, h, Bool.true_or]

/-- A setting that breaks a pin says so. -/
theorem Dev.pinBroken_foldl {plan : List DiePlan} {l : List Nat} {n : Nat} {y : DiePlan} (hn : n ∈ l) (hp : plan[n]? = some y) {d : Dev}
    (h : d.breaksPin n y = true) : (l.foldl (Dev.setPlanned plan) d).pwr.pinBroken = true := by
  have hkeep : ∀ (l : List Nat) (d : Dev), d.pwr.pinBroken = true → (l.foldl (Dev.setPlanned plan) d).pwr.pinBroken = true := by
    intro l
    induction l with
    | nil => exact fun _ h => h
    | cons k l ih => exact fun d h => ih _ (Dev.pinBroken_setPlanned plan h k)
  induction l generalizing d with
  | nil => exact absurd hn List.not_mem_nil
  | cons k l ih =>
    by_cases hk : n = k
    · subst hk
      refine hkeep l _ ?_
      rw [Dev.setPlanned, hp, Option.elim_some, Dev.setTo_frame, h, Bool.or_true]
    · refine ih ((List.mem_cons.mp hn).resolve_left hk) ?_
      rw [Dev.breaksPin, Dev.die_setPlanned, if_neg hk, Dev.setPlanned_frame]
      exact h

section
variable (plan : List DiePlan) (d : Dev)

theorem Dev.applyPlan_frame : d.applyPlan plan = { d with
    dies := (d.applyPlan plan).dies, pwr := { d.pwr with pinBroken := (d.applyPlan plan).pwr.pinBroken },
    i3c := { d.i3c with fault := (d.applyPlan plan).i3c.fault }, out := (d.applyPlan plan).out } := by
  rw [Dev.applyPlan_eq]
  exact Dev.setPlanned_foldl_frame plan dieNumbers d

/-- Each die stands at the setting that the plan has for it, or where it stood. -/
theorem Dev.die_applyPlan (n : Nat) :
    (d.applyPlan plan).die n = if n ∈ dieNumbers then (d.die n).settled (plan.getD n (d.setting n)) else d.die n := by
  rw [Dev.applyPlan_eq, Dev.die_foldl (g := fun n x => (plan[n]?).elim x fun y => x.settled y) (fun d k n => Dev.die_setPlanned plan d k n)
    dieNumbers_nodup, List.getD]
  cases plan[n]? with
  | none => rfl
  | some y => rfl

theorem Dev.pinBroken_applyPlan {n : Nat} (hn : n < 10) (h : d.breaksPin n (plan.getD n (d.setting n)) = true) :
    (d.applyPlan plan).pwr.pinBroken = true := by
  rw [Dev.applyPlan_eq]
  rw [List.getD] at h
  cases hp : plan[n]? with
  | none => simp [hp, Dev.breaksPin, Dev.setting] at h
  | some y =>
    rw [hp] at h
    exact Dev.pinBroken_foldl (mem_dieNumbers.mpr hn) hp h

end

/-! ## POWER_SAMPLE -/

/-- What POWER_SAMPLE makes of a powered device. -/
theorem Dev.powerSample_eq {d : Dev} (h : d.pins.rails = true) (draw : Nat) (tj : List Nat) (plan : List DiePlan) : d.powerSample draw tj plan =
    if d.pins.therm then d.sample draw tj else (d.sample draw tj).applyPlan (d.planFor draw tj plan) := by
  rw [← Dev.planFor_sample draw tj d plan]
  exact if_pos h

section
variable (draw : Nat) (tj : List Nat) (plan : List DiePlan) {d : Dev} (h : d.pins.rails = true)
include h

theorem Dev.powerSample_frame : d.powerSample draw tj plan = { d with
    dies := (d.powerSample draw tj plan).dies,
    pwr := { d.pwr with draw := BitVec.ofNat 12 (min 4095 draw), pinBroken := (d.powerSample draw tj plan).pwr.pinBroken },
    pins := { d.pins with tjMax := min 255 (tj.foldl max 0) },
    i3c := { d.i3c with fault := (d.powerSample draw tj plan).i3c.fault }, out := (d.powerSample draw tj plan).out } := by
  rw [Dev.powerSample_eq h]
  obtain ⟨m, hs, -⟩ := Dev.sample_eq draw tj d
  split
  · rw [hs]
  · rw [Dev.applyPlan_frame, hs]

/-- A sample changes the temperature and the setting of a die. -/
theorem Dev.die_powerSample_keeps (n : Nat) : (d.powerSample draw tj plan).die n = { d.die n with
    tj := ((d.sample draw tj).die n).tj, vcore := ((d.powerSample draw tj plan).die n).vcore, pacing := ((d.powerSample draw tj plan).die n).pacing } := by
  rw [Dev.powerSample_eq h]
  split
  · rw [Dev.die_sample_keeps]
  · rw [Dev.die_applyPlan]
    split
    · rw [Dev.die_sample_keeps]
      rfl
    · rw [Dev.die_sample_keeps]

theorem Dev.setting_powerSample_therm (ht : d.pins.therm = true) (n : Nat) : (d.powerSample draw tj plan).setting n = d.setting n := by
  rw [Dev.powerSample_eq h, if_pos ht, Dev.setting_sample]

theorem Dev.setting_powerSample (ht : d.pins.therm = false) {n : Nat} (hn : n < 10) :
    (d.powerSample draw tj plan).setting n = (d.planFor draw tj plan).getD n (d.setting n) := by
  rw [Dev.powerSample_eq h, if_neg (by simp [ht]), Dev.setting, Dev.die_applyPlan, if_pos (mem_dieNumbers.mpr hn), Dev.setting_sample]
  rfl

theorem Dev.pinBroken_powerSample (ht : d.pins.therm = false) {n : Nat} (hn : n < 10) (hp : (d.die n).pinned = true)
    (hb : ((d.powerSample draw tj plan).die n).vcore < (d.die n).vcore ∧ ((d.powerSample draw tj plan).die n).vcore < d.pwr.pinMv ∨
      (d.die n).pacing < ((d.powerSample draw tj plan).die n).pacing) : (d.powerSample draw tj plan).pwr.pinBroken = true := by
  have hset := Dev.setting_powerSample draw tj plan h ht hn
  rw [Dev.powerSample_eq h, if_neg (by simp [ht])]
  refine Dev.pinBroken_applyPlan _ _ hn ?_
  rw [Dev.breaksPin, Dev.setting_sample, ← hset]
  simpa [hp, Dev.setting] using hb

end

end Sys2Proof.Machine
end

section
/-! SUPPORT. The calibration of a die that has joined (R46, R47, R211). -/

namespace Sys2Proof.Machine

/-! ## Failures before the third start -/

/-- What a failure that is not that of a third start keeps: all but the LDs, the flags of the start and the vault. -/
structure State.SameStart (s t : State) : Prop where
  queue : s.sameQueue t
  frame : t.dev = { s.dev with lds := t.dev.lds, boot := t.dev.boot }
  stage : t.dev.boot.stage = s.dev.boot.stage
  count : t.dev.startCount = s.dev.startCount

theorem State.SameStart.refl (s : State) : s.SameStart s := ⟨⟨rfl, rfl⟩, rfl, rfl, rfl⟩

theorem State.SameStart.trans {s t u : State} (h : s.SameStart t) (k : t.SameStart u) : s.SameStart u where
  queue := h.queue.trans k.queue
  frame := by rw [k.frame, h.frame]
  stage := k.stage.trans h.stage
  count := k.count.trans h.count

theorem State.sameStart_startFail (code : Code) (detail : BitVec 8) (hold : List Nat) {s : State} (hc : s.dev.startCount < 3) :
    s.SameStart (s.startFail code detail hold) := by
  by_cases h : s.dev.boot.level2 = true ∨ s.dev.boot.failed = true
  · rw [State.startFail_ended _ _ _ h, Dev.heldBack_frame]
    exact ⟨⟨rfl, rfl⟩, rfl, rfl, rfl⟩
  · rw [not_or, Bool.not_eq_true, Bool.not_eq_true] at h
    obtain ⟨l, e⟩ := State.startFail_first code detail hold h.1 h.2 hc
    have hcount := s.dev.failMarked_startCount code detail hold
    have hrec := State.startCount_record s.dev.startCount l code detail { s with dev := s.dev.failMarked code detail hold } hcount.symm
    rw [← e] at hrec
    obtain ⟨v, r, e, -⟩ := State.startFail_first_frame code detail hold h.1 h.2 hc
    refine ⟨?_, ?_, ?_, hrec.trans hcount⟩
    all_goals rw [e]
    · exact ⟨rfl, rfl⟩
    · rw [Dev.failMarked_frame]

theorem State.sameStart_foldl {β : Type*} (f : State → β → State) (hf : ∀ (s : State) b, s.dev.startCount < 3 → s.SameStart (f s b)) (l : List β)
    {s : State} (hc : s.dev.startCount < 3) : s.SameStart (l.foldl f s) := by
  induction l generalizing s with
  | nil => exact .refl s
  | cons b l ih =>
    have h := hf s b hc
    exact h.trans (ih (by rw [h.count]; exact hc))

/-- What the rise of levels leaves of the device. -/
theorem State.levels_dev_frame (s : State) : s.levels.dev = { s.dev with lds := s.levels.dev.lds, boot := s.levels.dev.boot } := by
  obtain ⟨v, a, b, r, h, -⟩ := s.levels_frame
  rw [h, Dev.risen_frame]

/-! ## The stacks -/

/-- A stack is tested, or left out where the image excludes it. -/
def Dev.stackUp (k : Nat) (t : DramTest) (free : Nat) (d : Dev) : Dev := if d.excluded (.stack k) then d else d.bringUpDram (.stack k) t free

/-- A unit that has been tested, whatever the Cassum clock. -/
theorem Dev.unit_bringUpDram (u : MemUnit) (d : Dev) (t : DramTest) (free : Nat) :
    (d.bringUpDram u t free).unit u = (d.unit u).tested u t (dramOk u t && d.pins.clkCas) free := by
  have he := fun e : Dev => (e.tests_eccEvt u 5).2.1
  change (d.testDram u t free).unit u = _
  unfold Dev.testDram Dev.tested
  dsimp only
  split
  · rw [Dev.unit_modUnit_same, Dev.unit_modUnit_same]
    rfl
  · rw [Dev.unit, he]
    change Dev.unit _ u = _
    rw [Dev.unit_modUnit_same, Dev.unit_modUnit_same]
    rfl

section
variable (k : Nat) (t : DramTest) (free : Nat) (d : Dev)

theorem Dev.tests_stackUp : d.Tests (d.stackUp k t free) := by
  unfold Dev.stackUp
  split
  · exact .refl d
  · exact Dev.tests_bringUpDram (.stack k) d t free

theorem Dev.stackUp_of_used (h : d.excluded (.stack k) = false) : d.stackUp k t free = d.bringUpDram (.stack k) t free := if_neg (by simp [h])

theorem Dev.unit_stackUp_other {u : MemUnit} (h : unitKey u ≠ unitKey (.stack k)) : (d.stackUp k t free).unit u = d.unit u := by
  unfold Dev.stackUp
  split
  · rfl
  · exact Dev.unit_bringUpDram_other _ d t free h

theorem Dev.byte_stackUp_other {a : Nat} (h : inUnit (.stack k) a = false) : (d.stackUp k t free).byte a = d.byte a := by
  unfold Dev.stackUp
  split
  · rfl
  · rw [Dev.byte_bringUpDram, h, Bool.and_false, if_neg Bool.false_ne_true]

end

/-- An address belongs to one unit. -/
theorem inUnit_stack_other {a j k : Nat} (h : inUnit (.stack j) a = true) (hk : k ≠ j) : inUnit (.stack k) a = false := by
  rw [inUnit, beq_iff_eq] at h
  rw [inUnit, h, beq_eq_false_iff_ne]
  simpa using hk.symm

/-! ## The die -/

/-- A die that has been calibrated; one that THERM_N holds keeps its voltage. -/
def Die.calibratedUnder (therm : Bool) (low pinMv : Nat) (x : Die) : Die :=
  if therm then { x.calibrate low pinMv with vcore := x.vcore } else x.calibrate low pinMv

/-- A device whose die n has been calibrated; a die that is left conservative raises its fault. -/
def Dev.calibrated (n low : Nat) (d : Dev) : Dev :=
  let e := d.modDie n (.calibratedUnder d.pins.therm low d.pwr.pinMv)
  if (e.die n).conservative then e.bcFault 0 else e

section
variable (n low : Nat) (d : Dev)

theorem Dev.calibrated_frame : d.calibrated n low = { d with
    dies := (d.calibrated n low).dies, i3c := (d.calibrated n low).i3c, out := (d.calibrated n low).out } := by
  unfold Dev.calibrated
  extract_lets e
  split
  · rw [Dev.bcFault_frame]
    rfl
  · rfl

theorem Dev.die_calibrated (k : Nat) :
    (d.calibrated n low).die k = if k = n then (d.die n).calibratedUnder d.pins.therm low d.pwr.pinMv else d.die k := by
  rw [← Dev.die_modDie d n k, Dev.calibrated]
  split
  · exact Dev.die_bcFault ..
  · rfl

theorem Dev.alert_calibrated (h : ((d.die n).calibratedUnder d.pins.therm low d.pwr.pinMv).conservative = true) : (d.calibrated n low).alert = true := by
  rw [Dev.calibrated, if_pos (by rw [Dev.die_modDie_same]; exact h)]
  exact Dev.alert_bcFault _ (by decide)

end

section
variable (therm : Bool) (pinMv : Nat) (x : Die)

theorem Die.calibrated_calibratedUnder (low : Nat) : (x.calibratedUnder therm low pinMv).calibrated = true := by
  unfold Die.calibratedUnder Die.calibrate
  by_cases hlow : 63 < low + 2 <;> cases therm <;> simp [hlow]

theorem Die.vcore_calibratedUnder (low : Nat) : (x.calibratedUnder false low pinMv).vcore = if x.pinned then pinMv else 750 := by
  unfold Die.calibratedUnder Die.calibrate
  by_cases hlow : 63 < low + 2 <;> simp [hlow]

theorem Die.calibratedUnder_passes {low : Nat} (h : low ≤ 61) :
    let y := x.calibratedUnder therm low pinMv
    y.tap = low + 2 ∧ y.conservative = false ∧ y.fp4fp6 = true := by
  have hlow : ¬63 < low + 2 := by omega
  unfold Die.calibratedUnder Die.calibrate
  cases therm <;> simp [hlow]

theorem Die.calibratedUnder_fails {low : Nat} (h : 62 ≤ low) :
    let y := x.calibratedUnder therm low pinMv
    y.tap = 63 ∧ y.conservative = true ∧ y.fp4fp6 = x.fp4fp6 := by
  have hlow : 63 < low + 2 := by omega
  unfold Die.calibratedUnder Die.calibrate
  cases therm <;> simp [hlow]

end

/-! ## DIE_CALIBRATION -/

/-- The device once the stacks of die n are up and it has been calibrated. -/
def Dev.dieCalibrated (n : Nat) (t0 t1 : DramTest) (f0 f1 low : Nat) (d : Dev) : Dev :=
  ((d.stackUp (2 * n) t0 f0).stackUp (2 * n + 1) t1 f1).calibrated n low

section
variable (n : Nat) (t0 t1 : DramTest) (f0 f1 low : Nat) (d : Dev)

/-- A calibration with its bring-up changes units and their bytes, the dies, the board's faults and what LDs see of errors. -/
theorem Dev.dieCalibrated_frame : d.dieCalibrated n t0 t1 f0 f1 low = { d with
    lds := (d.dieCalibrated n t0 t1 f0 f1 low).lds, dies := (d.dieCalibrated n t0 t1 f0 f1 low).dies
    mem := (d.dieCalibrated n t0 t1 f0 f1 low).mem, poison := (d.dieCalibrated n t0 t1 f0 f1 low).poison
    upsets := (d.dieCalibrated n t0 t1 f0 f1 low).upsets, units := (d.dieCalibrated n t0 t1 f0 f1 low).units
    i3c := (d.dieCalibrated n t0 t1 f0 f1 low).i3c, out := (d.dieCalibrated n t0 t1 f0 f1 low).out } := by
  have h := ((Dev.tests_stackUp (2 * n) t0 f0 d).trans (Dev.tests_stackUp (2 * n + 1) t1 f1 _)).frame
  rw [Dev.dieCalibrated, Dev.calibrated_frame, h]

/-- The stacks leave what a calibration looks at. -/
theorem Dev.stacksUp_same : let e := (d.stackUp (2 * n) t0 f0).stackUp (2 * n + 1) t1 f1
    e.dies = d.dies ∧ e.pins = d.pins ∧ e.pwr = d.pwr := by
  have h := ((Dev.tests_stackUp (2 * n) t0 f0 d).trans (Dev.tests_stackUp (2 * n + 1) t1 f1 _)).frame
  exact ⟨(congrArg Dev.dies h).trans rfl, (congrArg Dev.pins h).trans rfl, (congrArg Dev.pwr h).trans rfl⟩

theorem Dev.die_dieCalibrated (k : Nat) : (d.dieCalibrated n t0 t1 f0 f1 low).die k =
    if k = n then (d.die n).calibratedUnder d.pins.therm low d.pwr.pinMv else d.die k := by
  obtain ⟨hd, hp, hw⟩ := d.stacksUp_same n t0 t1 f0 f1
  rw [Dev.dieCalibrated, Dev.die_calibrated, hp, hw, Dev.die_congr hd, Dev.die_congr hd]

theorem Dev.alert_dieCalibrated (h : ((d.die n).calibratedUnder d.pins.therm low d.pwr.pinMv).conservative = true) :
    (d.dieCalibrated n t0 t1 f0 f1 low).alert = true := by
  obtain ⟨hd, hp, hw⟩ := d.stacksUp_same n t0 t1 f0 f1
  exact Dev.alert_calibrated n low _ (by rw [hp, hw, Dev.die_congr hd]; exact h)

theorem Dev.unit_dieCalibrated (v : MemUnit) :
    (d.dieCalibrated n t0 t1 f0 f1 low).unit v = ((d.stackUp (2 * n) t0 f0).stackUp (2 * n + 1) t1 f1).unit v := by
  rw [Dev.dieCalibrated, Dev.calibrated_frame]
  rfl

theorem Dev.byte_dieCalibrated (a : Nat) :
    (d.dieCalibrated n t0 t1 f0 f1 low).byte a = ((d.stackUp (2 * n) t0 f0).stackUp (2 * n + 1) t1 f1).byte a := by
  rw [Dev.dieCalibrated, Dev.calibrated_frame]
  rfl

/-- A byte outside the die's stacks. -/
theorem Dev.byte_dieCalibrated_other {a : Nat} (h0 : inUnit (.stack (2 * n)) a = false) (h1 : inUnit (.stack (2 * n + 1)) a = false) :
    (d.dieCalibrated n t0 t1 f0 f1 low).byte a = d.byte a := by
  rw [Dev.byte_dieCalibrated, Dev.byte_stackUp_other _ _ _ _ h1, Dev.byte_stackUp_other _ _ _ _ h0]

section
variable (h : d.excluded (.stack (2 * n)) = false)
include h

/-- The die's first stack, where it is used, is as its test has left it. -/
theorem Dev.unit_dieCalibrated_first : (d.dieCalibrated n t0 t1 f0 f1 low).unit (.stack (2 * n)) =
    (d.unit (.stack (2 * n))).tested (.stack (2 * n)) t0 (dramOk (.stack (2 * n)) t0 && d.pins.clkCas) f0 := by
  rw [Dev.unit_dieCalibrated, Dev.unit_stackUp_other _ _ _ _ (by simp only [unitKey]; omega), Dev.stackUp_of_used _ _ _ _ h, Dev.unit_bringUpDram]

theorem Dev.byte_dieCalibrated_first {a : Nat} (ha : inUnit (.stack (2 * n)) a = true) : (d.dieCalibrated n t0 t1 f0 f1 low).byte a =
    if dramOk (.stack (2 * n)) t0 && d.pins.clkCas then memDefault else d.byte a := by
  rw [Dev.byte_dieCalibrated, Dev.byte_stackUp_other _ _ _ _ (inUnit_stack_other ha (by omega)), Dev.stackUp_of_used _ _ _ _ h,
    Dev.byte_bringUpDram, ha, Bool.and_true]
  rfl

end

end

theorem exec_dieCalibration {s : State} {n : Nat} (hj : (s.dev.die n).joined = true) (hcal : (s.dev.die n).calibrated = false)
    (hc : s.dev.startCount < 3) (t0 t1 : DramTest) (f0 f1 low : Nat) : ∃ t, exec (.dieCalibration n t0 t1 f0 f1 low) s = .next t ∧ s.sameQueue t ∧
      t.dev = { s.dev.dieCalibrated n t0 t1 f0 f1 low with lds := t.dev.lds, boot := t.dev.boot } := by
  let d := s.dev.dieCalibrated n t0 t1 f0 f1 low
  let hold := if d.ldOfDie n < 10 then [d.ldOfDie n] else []
  let u := [2 * n, 2 * n + 1].foldl (fun (s : State) k =>
    if (d.unit (.stack k)).failed then s.startFail eSelftest (unitDetail 0 k) hold else s) { s with dev := d }
  have hrun : s.dieCalibration n t0 t1 f0 f1 low = if u.dev.boot.stage = .fallow then u else u.levels := if_neg (by simp [hj, hcal])
  have hu : State.SameStart { s with dev := d } u := State.sameStart_foldl _ (fun s k hs => by
    split
    · exact State.sameStart_startFail _ _ _ hs
    · exact .refl s) _ (by rw [Dev.startCount, show d = _ from Dev.dieCalibrated_frame ..]; exact hc)
  refine ⟨_, congrArg Host.Outcome.next hrun, ?_⟩
  split
  · exact ⟨hu.queue, hu.frame⟩
  · refine ⟨State.sameQueue.trans hu.queue u.settled_levels.2.2.1, ?_⟩
    rw [State.levels_dev_frame, hu.frame]

end Sys2Proof.Machine
end

section
/-! SUPPORT. The statement on time, power and calibration (R46 to R49, R51 to R53, R56, R57, R61, R192, R211, R314, R402). -/

namespace Sys2Proof.Machine

theorem toNat_ofNat_draw (draw : Nat) : (BitVec.ofNat 12 (min 4095 draw)).toNat = min 4095 draw := by
  rw [BitVec.toNat_ofNat]
  exact Nat.mod_eq_of_lt (by omega)

/-- Settles O13: the tick, the slack monitors, the power samples and the calibration each follow from their own lemmas. -/
theorem timePowerAndCalibration : Obligations.TimePowerAndCalibration := by
  unfold Obligations.TimePowerAndCalibration
  refine ⟨exec_elapsedTick, fun die clu s hj hc => ?_, fun draw tj plan s hrails => ?_, fun n low f0 f1 t0 t1 s hn hj hcal hcount => ?_⟩
  · obtain ⟨t, he, hframe, hout, hother, hdie, hi3c, halert⟩ := exec_slackTrip hj hc
    refine ⟨t, he, hframe, hout, hother, fun h => ⟨hi3c h, ?_⟩, fun h => ⟨halert h.ge, ?_⟩, fun h => ⟨halert (by omega), ?_⟩⟩
    · have h63 : ¬63 ≤ (s.dev.die die).tap := by omega
      have h62 : (s.dev.die die).tap ≠ 62 := by omega
      simp [hdie, Die.slackTripped, h63, h62]
    · simp [hdie, Die.slackTripped, h]
    · simp [hdie, Die.slackTripped, h]
  · have hframe := Dev.powerSample_frame draw tj plan hrails
    have hkeeps := Dev.die_powerSample_keeps draw tj plan hrails
    have hset := fun ht n => Dev.setting_powerSample draw tj plan hrails ht (n := n)
    refine ⟨{ s with dev := s.dev.powerSample draw tj plan }, rfl, ?_, ?_, ?_, fun n => ?_, fun n hn => ?_,
      Dev.setting_powerSample_therm draw tj plan hrails, fun hr ht => ⟨fun n hn => ?_, fun hm hleft => ?_⟩⟩
    · rw [hframe]
    · rw [hframe]
      exact toNat_ofNat_draw draw
    · rw [hframe]
    · rw [hkeeps]
    · rw [hkeeps, Dev.die_sample, if_pos (mem_dieNumbers.mpr hn), Die.sampled]
    · have hmay := Dev.mayTake_planFor (draw := draw) (tj := tj) hr plan hn
      rw [← hset ht n hn] at hmay
      exact ⟨hmay.range, hmay.overLimit, hmay.boost, hmay.pace,
        fun hp hb => ⟨hmay.pin hp hb, Dev.pinBroken_powerSample draw tj plan hrails ht hn hp hb⟩⟩
    · obtain ⟨n, hn, hp, htakes⟩ := Dev.planFor_takes hr plan (Dev.mustLower_iff.mpr hm) hleft
      exact ⟨n, hn, hp, by rw [hset ht n hn]; exact htakes⟩
  · obtain ⟨t, he, ⟨hpend, hnow⟩, hdev⟩ := exec_dieCalibration hj hcal hcount t0 t1 f0 f1 low
    have hdie : ∀ k, t.dev.die k = if k = n then (s.dev.die n).calibratedUnder s.dev.pins.therm low s.dev.pwr.pinMv else s.dev.die k := fun k => by
      rw [hdev]
      exact Dev.die_dieCalibrated n t0 t1 f0 f1 low s.dev k
    have hunit : ∀ u, t.dev.unit u = (s.dev.dieCalibrated n t0 t1 f0 f1 low).unit u := fun u => by rw [hdev]; rfl
    have hbyte : ∀ a, t.dev.byte a = (s.dev.dieCalibrated n t0 t1 f0 f1 low).byte a := fun a => by rw [hdev]; rfl
    refine ⟨t, he, hnow, hpend, ?_, ?_, fun ht => ?_, fun hlow => ?_, fun hlow => ?_, fun k hk => by rw [hdie, if_neg hk],
      fun hx => ⟨?_, ?_, ?_, fun a ha => ?_⟩, fun a h0 h1 => ?_⟩
    · rw [hdev, Dev.dieCalibrated_frame]
    · rw [hdie, if_pos rfl, Die.calibrated_calibratedUnder]
    · rw [hdie, if_pos rfl, ht, Die.vcore_calibratedUnder]
    · rw [hdie, if_pos rfl]
      exact Die.calibratedUnder_passes _ _ _ hlow
    · obtain ⟨htap, hcons, hfp⟩ := Die.calibratedUnder_fails s.dev.pins.therm s.dev.pwr.pinMv (s.dev.die n) hlow
      rw [hdie, if_pos rfl]
      refine ⟨htap, hcons, hfp, ?_⟩
      rw [hdev]
      exact Dev.alert_dieCalibrated n t0 t1 f0 f1 low s.dev hcons
    · rw [hunit, Dev.unit_dieCalibrated_first _ _ _ _ _ _ _ hx, Unit.tested]
    · rw [hunit, Dev.unit_dieCalibrated_first _ _ _ _ _ _ _ hx, Unit.tested]
    · rw [hunit, Dev.unit_dieCalibrated_first _ _ _ _ _ _ _ hx, Unit.tested]
    · rw [hbyte, Dev.byte_dieCalibrated_first _ _ _ _ _ _ _ hx ha]
    · rw [hbyte, Dev.byte_dieCalibrated_other _ _ _ _ _ _ _ h0 h1]

end Sys2Proof.Machine
end

section
/-! SUPPORT. Power, RESET_N, clocks, rails and the standby limit (R61, R504, R535 to R539, R541, R543, R549, R554). -/

namespace Sys2Proof.Machine

/-! ## The device between starts -/

/-- The notices of ports that go to OFF are all that they change. -/
theorem Dev.leaveOn_frame (ps : List Nat) (d : Dev) : d.leaveOn ps = { d with out := (d.leaveOn ps).out } :=
  List.foldlRecOn _ _ (motive := fun e : Dev => e = { d with out := e.out }) rfl fun _ he _ _ => by rw [he]; rfl

/-- What a reset of device scope leaves. -/
theorem Dev.restarted_eq (now : W64) (stage : BootStage) (cause : BitVec 4) (d : Dev) : d.restarted now stage cause =
    { Dev.init { d.pins with ready := false, clkCas := true } d.i3c d.free with
      out := (d.leaveOn (List.range 32)).out, hostMem := d.hostMem, nextId := d.nextId, dies := d.freshDies
      crypto := { Crypto.init with drbgFail := d.crypto.drbgFail }
      lds := [(15, Ld.init Layout.init cause 0)], boot := { Boot.init with stage := stage, startAt := now } } := by
  unfold Dev.restarted
  rw [Dev.leaveOn_frame]
  rfl

/-! ## The input (R535 to R539) -/

/-- The faults of the board after a sample of the input voltage (R535). -/
def vinFault (vin : Nat) (f : BitVec 13) : BitVec 13 :=
  if 3700 ≤ vin ∧ vin < 4000 then setBit f 2 else if 6000 < vin ∧ vin ≤ 6200 then setBit f 3 else f

theorem Dev.vinSample_frame (vin : Nat) (d : Dev) : d.vinSample vin = { d with
    pins := { d.pins with vin := vin }, i3c := { d.i3c with fault := vinFault vin d.i3c.fault }, out := (d.vinSample vin).out } := by
  by_cases hlow : 3700 ≤ vin ∧ vin < 4000
  · have hs : d.vinSample vin = ({ d with pins := { d.pins with vin := vin } } : Dev).bcFault 2 := (if_neg (by omega)).trans (if_pos hlow)
    have hv : vinFault vin d.i3c.fault = setBit d.i3c.fault 2 := if_pos hlow
    rw [hs, hv, Dev.bcFault_frame]
  · by_cases hhigh : 6000 < vin ∧ vin ≤ 6200
    · have hs : d.vinSample vin = ({ d with pins := { d.pins with vin := vin } } : Dev).bcFault 3 :=
        (if_pos hhigh).trans (congrArg (Dev.bcFault 3) (if_neg hlow))
      have hv : vinFault vin d.i3c.fault = setBit d.i3c.fault 3 := (if_neg hlow).trans (if_pos hhigh)
      rw [hs, hv, Dev.bcFault_frame]
    · have hs : d.vinSample vin = { d with pins := { d.pins with vin := vin } } := (if_neg hhigh).trans (if_neg hlow)
      have hv : vinFault vin d.i3c.fault = d.i3c.fault := (if_neg hlow).trans (if_neg hhigh)
      rw [hs, hv]

/-- An input in its band sends nothing. -/
theorem Dev.vinSample_out {vin : Nat} (hlo : 4000 ≤ vin) (hhi : vin ≤ 6000) (d : Dev) : (d.vinSample vin).out = d.out := by
  unfold Dev.vinSample
  dsimp only
  rw [if_neg (by omega), if_neg (by omega)]

theorem vinFault_init {vin : Nat} (hlo : 3900 ≤ vin) (hhi : vin ≤ 6200) : vinFault vin 0 ≠ 0 ↔ vin < 4000 ∨ 6000 < vin := by
  unfold vinFault
  split
  · next h => exact iff_of_true (setBit_ne_zero _ (by decide)) (.inl h.2)
  · split
    · next h => exact iff_of_true (setBit_ne_zero _ (by decide)) (.inr h.1)
    · exact iff_of_false (fun h => h rfl) (by omega)

/-- The module once power has come: the counter and the I3C registers are at their reset values (R61, R549). -/
theorem State.powerUp_facts {vin : Nat} (hlo : 3900 ≤ vin) (hhi : vin ≤ 6200) (a : BitVec 7) (s : State) :
    let t := s.powerUp a vin
    t.now = 0 ∧ t.pending = s.pending ∧ t.vault = s.vault ∧ t.dev.pins.standby = true ∧
      t.dev.pins.rails = true ∧ t.dev.pins.overVolt = false ∧ t.dev.pins.resetN = s.dev.pins.resetN ∧ t.dev.pins.vin = vin ∧
      t.dev.boot.stage = (if s.dev.pins.resetN then .rom else .off) ∧ t.dev.i3c.staticAddr = a ∧ t.dev.i3c.dynAddr = none ∧
      t.dev.i3c.limitW = 0 ∧ t.dev.i3c.ibiEn = false ∧ (t.dev.alert = true ↔ vin < 4000 ∨ 6000 < vin) ∧ t.dev.mem = [] ∧ t.dev.reqs = [] ∧
      (t.dev.ld 15).ctl.cause = 0 ∧ t.dev.lds.map Prod.fst = [15] := by
  unfold State.powerUp
  dsimp only
  rw [Dev.vinSample_frame, Dev.restarted_eq]
  refine ⟨rfl, rfl, rfl, rfl, rfl, rfl, rfl, rfl, rfl, rfl, rfl, rfl, rfl, ?_, rfl, rfl, rfl, rfl⟩
  rw [Dev.alert, bne_iff_ne]
  exact vinFault_init hlo hhi

/-- The module once power has gone (R536). -/
theorem Dev.powerDown_facts (now : W64) (high : Bool) {d : Dev} (h : d.pins.standby = true) :
    let e := d.powerDown now high
    e.boot.stage = .off ∧ e.pins.standby = false ∧ e.pins.rails = false ∧ e.pins.overVolt = high ∧ e.pins.ready = false ∧ e.mem = [] ∧
      e.reqs = [] ∧ e.domains = [] ∧ e.clusters = [] ∧ e.kv = [] ∧ e.i3c = { I3c.init with staticAddr := d.i3c.staticAddr } := by
  unfold Dev.powerDown
  rw [if_pos h, Dev.restarted_eq]
  exact ⟨rfl, rfl, rfl, rfl, rfl, rfl, rfl, rfl, rfl, rfl, rfl⟩

theorem Dev.powerDown_off (now : W64) (high : Bool) {d : Dev} (h : d.pins.standby = false) : d.powerDown now high = d := if_neg (by simp [h])

/-! ## RESET_N (R543, R547) -/

theorem Pins.untrip_frame (p : Pins) : p.untrip = { p with tripped := p.untrip.tripped, rails := p.untrip.rails, therm := p.untrip.therm } := by
  unfold Pins.untrip
  split <;> rfl

/-- The device while RESET_N holds it. -/
theorem State.resetAsserted_facts (s : State) :
    let t := s.resetAsserted
    t.now = 0 ∧ t.pending = s.pending ∧ t.vault = s.vault ∧ t.dev.pins.resetN = false ∧ t.dev.boot.stage = .off ∧
      t.dev.pins.ready = false ∧ t.dev.mem = [] ∧ t.dev.reqs = [] ∧ t.dev.domains = [] ∧ t.dev.i3c = s.dev.i3c ∧ (t.dev.ld 15).ctl.cause = 1 ∧
      (s.dev.pins.tripped = true → s.dev.pins.plate < 60 → t.dev.pins.tripped = false ∧ t.dev.pins.rails = true) := by
  unfold State.resetAsserted
  dsimp only
  rw [Dev.restarted_eq]
  refine ⟨rfl, rfl, rfl, ?_, rfl, rfl, rfl, rfl, rfl, rfl, rfl, fun ht hp => ?_⟩
  · dsimp only [Dev.init]
    rw [Pins.untrip_frame]
  · dsimp only [Dev.init]
    rw [Pins.untrip, if_pos ⟨ht, hp⟩]
    exact ⟨rfl, rfl⟩

section
variable (now : W64) {d : Dev}

/-- The release of RESET_N begins the start of a device that is held. -/
theorem Dev.resetReleased_start (hoff : d.boot.stage = .off) (hr : d.pins.rails = true) (ht : d.pins.tripped = false) : d.resetReleased now =
    { d with pins := { d.pins with resetN := true }, boot := { d.boot with stage := .rom, startAt := now } } := if_pos ⟨hoff, hr, by simp [ht]⟩

theorem Dev.resetReleased_wait (h : d.boot.stage ≠ .off ∨ d.pins.rails = false ∨ d.pins.tripped = true) :
    d.resetReleased now = { d with pins := { d.pins with resetN := true } } := by
  refine if_neg ?_
  rintro ⟨hoff, hr, ht⟩
  obtain h | h | h := h
  · exact h hoff
  · exact absurd hr (by simp [h])
  · exact absurd ht (by simp [h])

end

/-! ## Clocks (R541) -/

/-- The device while a clock's failure resets it. -/
theorem Dev.deviceReset_facts (now : W64) {d : Dev} (h : d.boot.stage ≠ .off) :
    let e := d.deviceReset now
    e.i3c = d.i3c ∧ e.boot.zeroising = [.device] ∧ e.pins.ready = false ∧ e.mem = [] ∧ e.reqs = [] ∧
      ∀ x ∈ e.lds, x.2.ctl.st = .resetting ∧ x.2.ctl.service = 0 := by
  unfold Dev.deviceReset
  rw [if_neg h, Dev.restarted_eq]
  refine ⟨rfl, rfl, rfl, rfl, rfl, fun x hx => ?_⟩
  obtain ⟨y, -, rfl⟩ := List.mem_map.mp hx
  exact ⟨rfl, rfl⟩

theorem Dev.boot_bcFault (b : Nat) (d : Dev) : (d.bcFault b).boot = d.boot := by rw [Dev.bcFault_frame]

/-- A clock that fails in service raises its fault and resets the device. -/
theorem State.clockFault_facts (b : Nat) {s : State} (h : s.dev.boot.stage = .up) :
    let t : State := { s with dev := (s.dev.bcFault b).deviceReset s.now }
    t.pending = s.pending ∧ t.vault = s.vault ∧ t.now = s.now ∧ t.dev.i3c.fault = setBit s.dev.i3c.fault b ∧
      t.dev.boot.zeroising = [.device] ∧ t.dev.pins.ready = false ∧ t.dev.mem = [] ∧ t.dev.reqs = [] ∧
      ∀ e ∈ t.dev.lds, e.2.ctl.st = .resetting ∧ e.2.ctl.service = 0 := by
  obtain ⟨hi, hrest⟩ := Dev.deviceReset_facts s.now (d := s.dev.bcFault b) (by rw [Dev.boot_bcFault, h]; decide)
  exact ⟨rfl, rfl, rfl, by rw [hi, Dev.fault_bcFault], hrest⟩

/-- A Cassum clock that fails in training. -/
theorem Dev.clockFault_training (now : W64) {d : Dev} (hr : d.pins.rails = true) (h : d.boot.stage = .silmuvin) : d.clockFault now .cassum =
    { d.bcFault 5 with pins := { (d.bcFault 5).pins with clkCas := false } } := by
  unfold Dev.clockFault
  rw [if_neg (by simp [hr]), h]

theorem Dev.clockFault_unpowered (now : W64) {d : Dev} (h : d.pins.rails = false) (c : RefClock) : d.clockFault now c = d := if_pos (by simp [h])

theorem Dev.clockFault_up (now : W64) {d : Dev} (hr : d.pins.rails = true) (h : d.boot.stage = .up) :
    d.clockFault now .cxl = (d.bcFault 4).deviceReset now ∧ d.clockFault now .cassum = (d.bcFault 5).deviceReset now := by
  unfold Dev.clockFault
  rw [if_neg (by simp [hr]), if_neg (by simp [hr]), h]
  exact ⟨rfl, rfl⟩

/-! ## Rails and the standby limit (R500, R504, R554) -/

/-- The first failure of a start shows in every LD that computes. -/
theorem Dev.failMarked_evt_compute (code : Code) (detail : BitVec 8) (hold : List Nat) (d : Dev) {n : Nat} (hn : n ∈ d.compute) :
    ((d.failMarked code detail hold).ld n).ctl.bootEvt.getLsbD 2 = true := by
  have hset : ∀ (e : Dev) k, ((e.ld n).ctl.bootEvt.getLsbD 2 = true ∨ k = n) → ((e.modLd k (Ld.setBootEvt 2)).ld n).ctl.bootEvt.getLsbD 2 = true := by
    intro e k h
    rw [Dev.ld_modLd]
    split
    · exact getLsbD_setBit_same _ (by decide)
    · next hk => exact h.resolve_right fun e => hk e.symm
  have hcompute : Dev.compute { d.heldBack code hold with boot := { d.boot with failed := true, failCode := code, failDetail := detail } } = d.compute :=
    Dev.compute_congr fun n => by
      change ((d.heldBack code hold).ld n).lay = (d.ld n).lay
      exact d.ld_heldBack code hold Ld.lay (fun _ _ => rfl) n
  unfold Dev.failMarked
  dsimp only
  rw [hcompute]
  refine foldl_establishes (f := fun e k => e.modLd k (Ld.setBootEvt 2)) (b := n) (I := fun _ => True)
    (P := fun e : Dev => (e.ld n).ctl.bootEvt.getLsbD 2 = true) (List.mem_append_left _ hn) ?_ ?_ ?_ trivial
  · exact fun _ _ _ => trivial
  · exact fun e _ => hset e n (.inr rfl)
  · exact fun e k _ h => hset e k (.inl h)

/-- A rail that leaves its regulation fails a start, once. -/
theorem State.railFail_facts {s : State} (h2 : s.dev.boot.level2 = false) (hf : s.dev.boot.failed = false) (hc : s.dev.startCount < 3) :
    let t := s.startFail eStartFatal 4 []
    t.dev.boot.failed = true ∧ t.dev.boot.failCode = eStartFatal ∧ t.dev.boot.failDetail = 4 ∧ (t.dev.ld 15).ctl.bootEvt.getLsbD 2 = true ∧
      (∀ n ∈ s.dev.compute, (t.dev.ld n).ctl.bootEvt.getLsbD 2 = true) ∧ t.dev.mem = s.dev.mem ∧ t.dev.pins = s.dev.pins := by
  obtain ⟨hfailed, hcode, hdetail, h15⟩ := State.startFail_shown eStartFatal 4 [] h2 hf hc
  obtain ⟨v, r, h, -⟩ := State.startFail_first_frame eStartFatal 4 [] h2 hf hc
  refine ⟨hfailed, hcode, hdetail, h15, fun n hn => ?_, ?_, (State.startFail_keeps eStartFatal 4 [] hc).2.2.2⟩
  · rw [h]
    exact Dev.failMarked_evt_compute eStartFatal 4 [] s.dev hn
  · rw [h, Dev.failMarked_frame]

theorem Dev.level2_of_starting {d : Dev} (h : d.starting = true) : d.boot.level2 = false := by
  simp only [Dev.starting, Bool.and_eq_true, Bool.not_eq_true'] at h
  exact h.1.2

/-- The standby limit of a device in service: fallow mode, with the NVM absent. -/
theorem exec_vauxCurrentLimit_up {s : State} (hs : s.dev.pins.standby = true) (hup : s.dev.boot.stage = .up) (hz : s.dev.boot.zeroising = []) :
    exec .vauxCurrentLimit s = .next (State.enterFallow { s with dev := { s.dev.bcFault 10 with
      boot := { s.dev.boot with probe := if s.dev.boot.probe = 0 then 1 else s.dev.boot.probe } } }) := by
  change execVauxCurrentLimit s = _
  unfold execVauxCurrentLimit
  rw [if_neg (by simp [hs])]
  dsimp only
  rw [Dev.boot_bcFault, hup]
  dsimp only
  rw [hz]
  rfl

theorem State.enterFallow_facts (s : State) :
    let t := s.enterFallow
    t.vault = s.vault ∧ t.pending = s.pending ∧ t.dev.i3c = s.dev.i3c ∧ t.dev.boot.stage = .fallow ∧ t.dev.boot.probe = s.dev.boot.probe ∧
      t.dev.pins.ready = true ∧ t.dev.mem = [] ∧ t.dev.reqs = [] ∧ t.dev.lds.map Prod.fst = [15] := by
  unfold State.enterFallow
  dsimp only
  rw [Dev.restarted_eq]
  exact ⟨rfl, rfl, rfl, rfl, rfl, rfl, rfl, rfl, rfl⟩

end Sys2Proof.Machine
end

section
/-! SUPPORT. The statement on the module's power, reset, clocks and rails. -/

namespace Sys2Proof.Machine

section
variable (s : State)

theorem exec_powerOn (straps : BitVec 3) {vin : Nat} (hlo : 3900 ≤ vin) (hhi : vin ≤ 6200) : exec (.powerOn straps vin) s =
    .next (if s.dev.pins.standby = false ∧ s.dev.pins.overVolt = false then s.powerUp (0x30 + straps.setWidth 7) vin else s) := by
  change execPowerOn straps vin s = _
  simp [execPowerOn, hlo, hhi]

theorem exec_powerLoss : exec .powerLoss s = .next { s with dev := s.dev.powerDown s.now false } := rfl

theorem exec_overVoltage : exec .overVoltage s = .next { s with dev := s.dev.powerDown s.now true } := rfl

/-- The state with its over-voltage over. -/
def State.voltageFallen : State := { s with dev := { s.dev with pins := { s.dev.pins with overVolt := false } } }

theorem exec_overVoltageRecovery {vin : Nat} (h : s.dev.pins.overVolt = true) (hv : vin < 6000) : exec (.overVoltageRecovery vin) s =
    .next (if 3900 ≤ vin then s.voltageFallen.powerUp s.dev.i3c.staticAddr vin else s.voltageFallen) := by
  change execOverVoltageRecovery vin s = _
  unfold execOverVoltageRecovery
  rw [if_neg (by simp [h, hv])]
  rfl

theorem exec_vinOutOfBand {vin : Nat} (h : s.dev.pins.standby = true) (hlo : 3700 ≤ vin) (hhi : vin ≤ 6200) :
    exec (.vinOutOfBand vin) s = .next { s with dev := s.dev.vinSample vin } := by
  change Host.Outcome.next _ = _
  simp [guarded, h, hlo, hhi]

theorem exec_resetNAssert {ns : Nat} (hr : s.dev.pins.resetN = true) (hs : s.dev.pins.standby = true) (h : 1000 ≤ ns) :
    exec (.resetNAssert ns) s = .next s.resetAsserted := by
  change execResetNAssert ns s = _
  unfold execResetNAssert
  rw [if_neg (by simp [hr, hs]; omega), if_pos h]

/-- Whether a short assertion of RESET_N is recognised is free (R543). -/
theorem exec_resetNAssert_short {ns : Nat} (hr : s.dev.pins.resetN = true) (hs : s.dev.pins.standby = true) (hlo : 200 ≤ ns) (hhi : ns < 1000) :
    let t : State := { s with dev := { s.dev with free := s.dev.free + 1 } }
    exec (.resetNAssert ns) s = .next t ∨ exec (.resetNAssert ns) s = .next t.resetAsserted := by
  have hrun : exec (.resetNAssert ns) s = .next (if s.dev.draw.2 % 2 = 0 then { s with dev := s.dev.draw.1 } else
      ({ s with dev := s.dev.draw.1 } : State).resetAsserted) := (if_neg (by simp [hr, hs]; omega)).trans (if_neg (by omega))
  rw [hrun]
  split
  · exact .inl rfl
  · exact .inr rfl

theorem exec_resetNDeassert : exec .resetNDeassert s = .next { s with dev := s.dev.resetReleased s.now } := rfl

theorem exec_clockFault (c : RefClock) : exec (.clockFault c) s = .next { s with dev := s.dev.clockFault s.now c } := rfl

theorem exec_railOutOfRegulation : exec .railOutOfRegulation s =
    .next (if s.dev.pins.rails = true ∧ s.dev.starting = true then s.startFail eStartFatal 4 [] else s) := rfl

end

/-- Settles O57: power, RESET_N, the clocks, the rails and the standby limit each follow from their own lemmas, and what a reset
of device scope leaves is said once, by `Dev.restarted_eq`. -/
theorem powerResetAndClocks : Obligations.PowerResetAndClocks := by
  unfold Obligations.PowerResetAndClocks
  refine ⟨⟨fun straps vin s hlo hhi => ⟨fun hst hov => ?_, fun h => ?_, fun hov hv => ?_, fun h => ?_⟩, fun vin s hov hv => ?_,
    fun vin s hst hlo hhi => ?_, fun s => ⟨fun hst => ?_, fun hst c hc => ?_⟩⟩,
    fun ns s => ⟨fun h => ?_, fun hr hst => ⟨fun h => ?_, fun hlo hhi => ?_⟩⟩,
    fun s => ⟨fun hoff hrails ht => ?_, fun h => ?_⟩,
    fun s => ⟨fun hrails c => ?_, fun hrails hup => ?_, fun hrails htrain => ?_, fun h => ?_, fun hrails hst hf hc => ?_, fun hst => ?_,
      fun hst hup hz => ?_⟩⟩
  · rw [exec_powerOn s straps hlo hhi, if_pos ⟨hst, hov⟩]
    exact ⟨_, rfl, State.powerUp_facts hlo hhi _ s⟩
  · rw [exec_powerOn s straps hlo hhi, if_neg]
    rintro ⟨h1, h2⟩
    simp [h1, h2] at h
  · rw [exec_overVoltageRecovery s hov hv, if_pos hlo]
    exact ⟨_, rfl, State.powerUp_facts hlo hhi _ s.voltageFallen⟩
  · exact congrArg Host.Outcome.next (if_pos (by simpa using h))
  · rw [exec_overVoltageRecovery s hov (by omega), if_neg (by omega)]
    rfl
  · refine ⟨_, exec_vinOutOfBand s hst hlo hhi, ?_, ?_, fun h4 h6 => Dev.vinSample_out h4 h6 s.dev⟩
    · rw [Dev.vinSample_frame]
    · rw [Dev.vinSample_frame]
      simp [vinFault, hlo, hhi]
  · exact ⟨by rw [exec_powerLoss, Dev.powerDown_off _ _ hst], by rw [exec_overVoltage, Dev.powerDown_off _ _ hst]⟩
  · have hfacts := fun high => Dev.powerDown_facts s.now high hst
    obtain rfl | rfl : c = (Instr.powerLoss, false) ∨ c = (Instr.overVoltage, true) := by simpa using hc
    · exact ⟨_, exec_powerLoss s, rfl, rfl, hfacts false⟩
    · exact ⟨_, exec_overVoltage s, rfl, rfl, hfacts true⟩
  · exact if_pos (by
      obtain h | h | h := h
      · exact .inr (.inr h)
      · exact .inl (by simp [h])
      · exact .inr (.inl (by simp [h])))
  · exact ⟨_, exec_resetNAssert s hr hst h, s.resetAsserted_facts⟩
  · obtain h | h := exec_resetNAssert_short s hr hst hlo hhi
    · exact ⟨_, h, .inl rfl⟩
    · exact ⟨_, h, .inr (State.resetAsserted_facts _)⟩
  · rw [exec_resetNDeassert, Dev.resetReleased_start _ hoff hrails ht]
  · rw [exec_resetNDeassert, Dev.resetReleased_wait _ h]
  · rw [exec_clockFault, Dev.clockFault_unpowered s.now hrails c]
  · obtain ⟨hcxl, hcas⟩ := Dev.clockFault_up s.now hrails hup
    exact ⟨⟨_, by rw [exec_clockFault, hcxl], State.clockFault_facts 4 hup⟩, _, by rw [exec_clockFault, hcas], State.clockFault_facts 5 hup⟩
  · refine ⟨_, exec_clockFault s .cassum, ?_, ?_⟩
    all_goals rw [Dev.clockFault_training s.now hrails htrain, Dev.bcFault_frame]
  · rw [exec_railOutOfRegulation, if_neg]
    rintro ⟨h1, h2⟩
    simp [h1, h2] at h
  · rw [exec_railOutOfRegulation, if_pos ⟨hrails, hst⟩]
    exact ⟨_, rfl, State.railFail_facts (Dev.level2_of_starting hst) hf hc⟩
  · exact if_pos (by simp [hst])
  · refine ⟨_, exec_vauxCurrentLimit_up hst hup hz, ?_⟩
    obtain ⟨hvault, hpend, hi3c, hstage, hprobe, hrest⟩ := State.enterFallow_facts { s with dev := { s.dev.bcFault 10 with
      boot := { s.dev.boot with probe := if s.dev.boot.probe = 0 then 1 else s.dev.boot.probe } } }
    refine ⟨hvault, hpend, by rw [hi3c, Dev.fault_bcFault], hstage, ?_, hrest⟩
    rw [hprobe]
    dsimp only
    split
    · decide
    · next h => exact h

end Sys2Proof.Machine
end

section
/-! SUPPORT. The number formats (R72, R73, R85): a code below the sign bit stands for a magnitude, for an infinity just above
the largest magnitude, or for a NaN; magnitudes rise with their codes and are stored as their codes. -/

namespace Sys2Proof.Machine

/-! ## Codes without sign -/

/-- The sign bit of a code. -/
def Fmt.signCode (f : Fmt) (neg : Bool) : Nat := if neg then 2 ^ (f.width - 1) else 0

/-- The exponent of the last place of a format's smallest magnitudes (R72). -/
def Fmt.emin (f : Fmt) : Int := 1 - (f.shape.2.2 : Int) - f.shape.2.1

/-- Significand and exponent of a finite code without sign (R72). -/
def Fmt.magnitude (f : Fmt) (c : Nat) : Nat × Int :=
  if c / 2 ^ f.shape.2.1 = 0 then (c % 2 ^ f.shape.2.1, f.emin)
  else (2 ^ f.shape.2.1 + c % 2 ^ f.shape.2.1, f.emin + (c / 2 ^ f.shape.2.1 : Nat) - 1)

/-- The value of a code without sign, with a sign given to it (R72, R73): the magnitudes end at `maxCode`, an infinity follows
where the format has one, and the codes above are NaNs. -/
def Fmt.signedValue (f : Fmt) (neg : Bool) (c : Nat) : Fp :=
  if c ≤ f.maxCode then .fin neg (f.magnitude c).1 (f.magnitude c).2
  else if f.hasInf = true ∧ c = f.maxCode + 1 then .inf neg
  else .nan

theorem Fmt.width_eq {f : Fmt} (hf : f.isInt = false) : f.width - 1 = f.shape.1 + f.shape.2.1 := by
  cases f <;> cases hf <;> rfl

theorem Fmt.signCode_testBit {f : Fmt} (neg : Bool) {c : Nat} (hc : c < 2 ^ (f.width - 1)) :
    (f.signCode neg + c).testBit (f.width - 1) = neg := by
  cases neg <;> simp [Fmt.signCode, Nat.testBit_two_pow_add_eq, Nat.testBit_lt_two_pow hc]

theorem Fmt.signCode_mod {f : Fmt} (neg : Bool) (c : Nat) {k : Nat} (hk : k ≤ f.width - 1) :
    (f.signCode neg + c) % 2 ^ k = c % 2 ^ k := by
  cases neg
  · simp [Fmt.signCode]
  · simp [Fmt.signCode, Nat.add_mod, Nat.mod_eq_zero_of_dvd (pow_dvd_pow 2 hk)]

/-- The exponent field of a code without sign is what stands above its fraction. -/
theorem Fmt.exponent_signCode {f : Fmt} (hf : f.isInt = false) (neg : Bool) {c : Nat} (hc : c < 2 ^ (f.width - 1)) :
    bits (f.signCode neg + c) (f.shape.1 + f.shape.2.1 - 1) f.shape.2.1 = c / 2 ^ f.shape.2.1 := by
  have heb : f.shape.1 + f.shape.2.1 - 1 - f.shape.2.1 + 1 = f.shape.1 := by cases f <;> cases hf <;> rfl
  rw [bits, heb, Nat.shiftRight_eq_div_pow, ← Nat.mod_mul_right_div_self, ← pow_add, add_comm f.shape.2.1,
    ← Fmt.width_eq hf, Fmt.signCode_mod neg c le_rfl, Nat.mod_eq_of_lt hc]

/-- The codes from the infinity on are those whose exponent field is all ones; the infinity has no fraction. -/
theorem Fmt.exponent_ones_iff {f : Fmt} (hi : f.hasInf = true) {c : Nat} (hc : c < 2 ^ (f.width - 1)) :
    (c / 2 ^ f.shape.2.1 = 2 ^ f.shape.1 - 1 ↔ f.maxCode < c) ∧
      (f.maxCode < c → (c % 2 ^ f.shape.2.1 = 0 ↔ c = f.maxCode + 1)) := by
  cases f <;> cases hi
  all_goals
    simp only [Fmt.shape, Fmt.maxCode, Fmt.width] at hc ⊢
    omega

/-- Of the floating-point formats without infinities only E4M3 has a NaN, at the largest code. -/
theorem Fmt.maxCode_lt_iff {f : Fmt} (hf : f.isInt = false) (hi : f.hasInf = false) {c : Nat} (hc : c < 2 ^ (f.width - 1)) :
    f.maxCode < c ↔ f = .e4m3 ∧ c % 128 = 127 := by
  cases f <;> cases hf <;> cases hi
  all_goals
    simp only [Fmt.maxCode, Fmt.width, reduceCtorEq, false_and, true_and, iff_false] at hc ⊢
    omega

theorem Fmt.fin_magnitude (f : Fmt) (neg : Bool) (c : Nat) : Fp.fin neg (f.magnitude c).1 (f.magnitude c).2 =
    if c / 2 ^ f.shape.2.1 = 0 then .fin neg (c % 2 ^ f.shape.2.1) (1 - (f.shape.2.2 : Int) - f.shape.2.1)
    else .fin neg (2 ^ f.shape.2.1 + c % 2 ^ f.shape.2.1) (((c / 2 ^ f.shape.2.1 : Nat) : Int) - f.shape.2.2 - f.shape.2.1) := by
  unfold Fmt.magnitude Fmt.emin
  split
  · rfl
  · exact congrArg (Fp.fin neg _) (by dsimp only; omega)

theorem decode_signCode_add {f : Fmt} (hf : f.isInt = false) (neg : Bool) {c : Nat} (hc : c < 2 ^ (f.width - 1)) :
    decode f (f.signCode neg + c) = f.signedValue neg c := by
  have hbit : (f.signCode neg + c).testBit (f.shape.1 + f.shape.2.1) = neg := Fmt.width_eq hf ▸ Fmt.signCode_testBit neg hc
  have hfr := Fmt.signCode_mod neg c (Fmt.width_eq hf ▸ Nat.le_add_left _ f.shape.1 : f.shape.2.1 ≤ f.width - 1)
  simp only [decode, Fmt.signedValue, Fmt.fin_magnitude, hf, hbit, Fmt.exponent_signCode hf neg hc, hfr, Bool.and_eq_true,
    decide_eq_true_eq, Bool.false_eq_true, if_false]
  cases hi : f.hasInf with
  | true =>
    obtain ⟨hones, hfrac⟩ := Fmt.exponent_ones_iff hi hc
    have h4 : f ≠ .e4m3 := by rintro rfl; cases hi
    by_cases hm : f.maxCode < c
    · simp [hones, hm, hfrac hm]
    · simp [hones, hm, h4]
  | false =>
    have h4 : f = .e4m3 ∧ (f.signCode neg + c) % 128 = 127 ↔ f.maxCode < c := by
      rw [Fmt.maxCode_lt_iff hf hi hc]
      refine and_congr_right ?_
      rintro rfl
      rw [show 128 = 2 ^ 7 from rfl, Fmt.signCode_mod neg c (by decide)]
    by_cases hm : f.maxCode < c
    · simp [h4, hm]
    · simp [h4, hm, not_lt.mp hm]

/-- A code below the sign bit stands for a value without sign. -/
theorem Fmt.signedValue_decode {f : Fmt} (hf : f.isInt = false) {c : Nat} (hc : c < 2 ^ (f.width - 1)) :
    f.signedValue false c = decode f c := by
  simpa [Fmt.signCode] using (decode_signCode_add hf false hc).symm

/-- Every code is a sign bit and a code without sign. -/
theorem Fmt.exists_signCode_add {f : Fmt} {c : Nat} (hc : c < 2 ^ f.width) :
    ∃ neg c', c' < 2 ^ (f.width - 1) ∧ c = f.signCode neg + c' := by
  have hw : 2 ^ f.width = 2 * 2 ^ (f.width - 1) := by cases f <;> rfl
  by_cases h : c < 2 ^ (f.width - 1)
  · exact ⟨false, c, h, (Nat.zero_add c).symm⟩
  · exact ⟨true, c - 2 ^ (f.width - 1), by omega, (Nat.add_sub_of_le (not_lt.mp h)).symm⟩

/-! ## Storing a value that a format holds (R78, R85) -/

theorem packMag_subnormal {f : Fmt} {n : Nat} (hn : n < 2 ^ f.shape.2.1) (q : Int) : packMag f n q = n := by
  have h : n ≠ 2 ^ (f.shape.2.1 + 1) := by rw [pow_succ]; omega
  simp only [packMag, h, if_false, hn, if_true]

theorem packMag_normal {f : Fmt} {n : Nat} (hlo : 2 ^ f.shape.2.1 ≤ n) (hhi : n < 2 * 2 ^ f.shape.2.1) (q : Int) :
    packMag f n q = (q - f.emin + 1).toNat * 2 ^ f.shape.2.1 + (n - 2 ^ f.shape.2.1) := by
  have h : n ≠ 2 ^ (f.shape.2.1 + 1) := by rw [pow_succ]; omega
  simp only [packMag, h, if_false, not_lt.mpr hlo, Fmt.emin]

/-- A value whose significand fits loses nothing: it is brought to the place of its format. -/
theorem rnePrec_exact {fb : Nat} {emin e q : Int} {m : Nat} (hm : m ≠ 0) (hq : q = max ((m.log2 : Int) + e - fb) emin) (he : q ≤ e) :
    rnePrec fb emin m e = (m * 2 ^ (e - q).toNat, q) := by
  subst hq
  simp only [rnePrec, hm, if_false, rneInt, Int.sub_nonneg.mpr he, if_true]

theorem magCode_eq (f : Fmt) (m : Nat) (e : Int) :
    magCode f m e = packMag f (rnePrec f.shape.2.1 f.emin m e).1 (rnePrec f.shape.2.1 f.emin m e).2 := rfl

theorem magCode_subnormal {f : Fmt} {m : Nat} (hm : m < 2 ^ f.shape.2.1) : magCode f m f.emin = m := by
  by_cases h0 : m = 0
  · simp only [magCode, rnePrec, h0, if_true]
    exact packMag_subnormal (Nat.two_pow_pos _) _
  · have hl := (Nat.log2_lt h0).mpr hm
    rw [magCode_eq, rnePrec_exact (q := f.emin) h0 (by omega) le_rfl]
    simpa using packMag_subnormal hm f.emin

/-- A significand brought to the full width of a format has its leading bit in place. -/
theorem normalized_bounds {m fb : Nat} (hm : m ≠ 0) (hl : m.log2 ≤ fb) :
    2 ^ fb ≤ m * 2 ^ (fb - m.log2) ∧ m * 2 ^ (fb - m.log2) < 2 * 2 ^ fb := by
  have hpow : 2 ^ m.log2 * 2 ^ (fb - m.log2) = 2 ^ fb := by rw [← pow_add, Nat.add_sub_of_le hl]
  have hlo := Nat.mul_le_mul_right (2 ^ (fb - m.log2)) (Nat.log2_self_le hm)
  have hhi := Nat.mul_lt_mul_of_pos_right (Nat.lt_log2_self (n := m)) (Nat.two_pow_pos (fb - m.log2))
  rw [pow_succ, mul_right_comm, hpow] at hhi
  rw [hpow] at hlo
  exact ⟨hlo, by omega⟩

/-- A magnitude of at most as many bits as the format holds, in its normal range. -/
theorem magCode_normal {f : Fmt} {m : Nat} {e : Int} (hm : m ≠ 0) (hl : m.log2 ≤ f.shape.2.1)
    (he : f.emin ≤ e - (f.shape.2.1 - m.log2 : Nat)) :
    magCode f m e = (e - (f.shape.2.1 - m.log2 : Nat) - f.emin + 1).toNat * 2 ^ f.shape.2.1 +
      (m * 2 ^ (f.shape.2.1 - m.log2) - 2 ^ f.shape.2.1) := by
  obtain ⟨hlo, hhi⟩ := normalized_bounds hm hl
  rw [magCode_eq, rnePrec_exact (q := e - (f.shape.2.1 - m.log2 : Nat)) hm (by omega) (by omega),
    show (e - (e - ((f.shape.2.1 - m.log2 : Nat) : Int))).toNat = f.shape.2.1 - m.log2 by omega]
  exact packMag_normal hlo hhi _

theorem Fmt.magnitude_low {f : Fmt} {c : Nat} (hc : c < 2 ^ f.shape.2.1) : f.magnitude c = (c, f.emin) := by
  rw [Fmt.magnitude, if_pos (Nat.div_eq_of_lt hc), Nat.mod_eq_of_lt hc]

theorem Fmt.magnitude_high (f : Fmt) {k r : Nat} (hk : k ≠ 0) (hr : r < 2 ^ f.shape.2.1) :
    f.magnitude (k * 2 ^ f.shape.2.1 + r) = (2 ^ f.shape.2.1 + r, f.emin + k - 1) := by
  have hdiv : (k * 2 ^ f.shape.2.1 + r) / 2 ^ f.shape.2.1 = k := by
    rw [add_comm, Nat.add_mul_div_right _ _ (Nat.two_pow_pos _), Nat.div_eq_of_lt hr, Nat.zero_add]
  rw [Fmt.magnitude, hdiv, if_neg hk, Nat.mul_add_mod', Nat.mod_eq_of_lt hr]

/-- A code without sign lies below the normal magnitudes, or has an exponent field and a fraction. -/
theorem Fmt.low_or_high (f : Fmt) (c : Nat) :
    c < 2 ^ f.shape.2.1 ∨ ∃ k r, k ≠ 0 ∧ r < 2 ^ f.shape.2.1 ∧ c = k * 2 ^ f.shape.2.1 + r := by
  rcases lt_or_ge c (2 ^ f.shape.2.1) with h | h
  · exact .inl h
  · exact .inr ⟨_, _, (Nat.div_pos h (Nat.two_pow_pos _)).ne', Nat.mod_lt _ (Nat.two_pow_pos _), (Nat.div_add_mod' c _).symm⟩

theorem magCode_magnitude (f : Fmt) (c : Nat) : magCode f (f.magnitude c).1 (f.magnitude c).2 = c := by
  obtain h | ⟨k, r, hk, hr, rfl⟩ := f.low_or_high c
  · rw [Fmt.magnitude_low h, magCode_subnormal h]
  · have hpos := Nat.two_pow_pos f.shape.2.1
    have hl : (2 ^ f.shape.2.1 + r).log2 = f.shape.2.1 :=
      (Nat.log2_eq_iff (by omega)).mpr ⟨Nat.le_add_right _ _, by rw [pow_succ]; omega⟩
    rw [Fmt.magnitude_high f hk hr, magCode_normal (by omega) hl.le (by rw [hl]; omega), hl]
    simp only [Nat.sub_self, pow_zero, Nat.mul_one, Nat.add_sub_cancel_left]
    congr 2
    omega

/-- Storing the value of a code that is no NaN gives the code. -/
theorem encode_signedValue {f : Fmt} (hf : f.isInt = false) (neg : Bool) (c : Nat) (hn : f.signedValue neg c ≠ .nan) :
    encode f (f.signedValue neg c) = f.signCode neg + c := by
  have hsign : (if neg then 2 ^ (f.shape.1 + f.shape.2.1) else 0) = f.signCode neg := by rw [Fmt.signCode, Fmt.width_eq hf]
  by_cases hc : c ≤ f.maxCode
  · simp [Fmt.signedValue, hc, encode, hf, magCode_magnitude, not_lt.mpr hc, hsign]
  · by_cases hi : f.hasInf = true ∧ c = f.maxCode + 1
    · have hinf : (2 ^ f.shape.1 - 1) * 2 ^ f.shape.2.1 = f.maxCode + 1 := by
        obtain ⟨hi, -⟩ := hi
        cases f <;> cases hi <;> rfl
      simp [Fmt.signedValue, encode, hf, hi, hsign, hinf]
    · exact absurd (by simp [Fmt.signedValue, hc, hi]) hn

/-! ## The order of magnitudes -/

theorem Fp.lt_of_fin {m m' : Nat} {e e' : Int} (he : e ≤ e') (h : m < m' * 2 ^ (e' - e).toNat) :
    (Fp.fin false m e).lt (.fin false m' e') = true := by
  simp only [Fp.lt, signedAt, min_eq_left he, Int.sub_self, Int.toNat_zero, pow_zero, Bool.false_eq_true, if_false, mul_one,
    decide_eq_true_eq]
  exact_mod_cast h

theorem Fmt.magnitude_lt (f : Fmt) {c c' : Nat} (h : c < c') :
    (Fp.fin false (f.magnitude c).1 (f.magnitude c).2).lt (.fin false (f.magnitude c').1 (f.magnitude c').2) = true := by
  obtain hc | ⟨k, r, hk, hr, rfl⟩ := f.low_or_high c <;> obtain hc' | ⟨k', r', hk', hr', rfl⟩ := f.low_or_high c'
  · rw [Fmt.magnitude_low hc, Fmt.magnitude_low hc']
    exact Fp.lt_of_fin le_rfl (by simpa using h)
  · rw [Fmt.magnitude_low hc, Fmt.magnitude_high f hk' hr']
    have hscale := Nat.le_mul_of_pos_right (2 ^ f.shape.2.1 + r') (Nat.two_pow_pos (f.emin + k' - 1 - f.emin).toNat)
    exact Fp.lt_of_fin (by dsimp only; omega) (by dsimp only; omega)
  · have hbig := Nat.le_mul_of_pos_left (2 ^ f.shape.2.1) (Nat.pos_of_ne_zero hk)
    omega
  · rw [Fmt.magnitude_high f hk hr, Fmt.magnitude_high f hk' hr']
    obtain hlt | rfl | hgt := lt_trichotomy k k'
    · have hscale := Nat.mul_le_mul_left (2 ^ f.shape.2.1 + r') (Nat.pow_le_pow_right (n := 2) (by decide)
        (show 1 ≤ (f.emin + k' - 1 - (f.emin + k - 1)).toNat by omega))
      exact Fp.lt_of_fin (by dsimp only; omega) (by dsimp only; omega)
    · exact Fp.lt_of_fin le_rfl (by simpa using h)
    · have hbig := Nat.mul_le_mul_right (2 ^ f.shape.2.1) (Nat.succ_le_of_lt hgt)
      rw [Nat.succ_mul] at hbig
      omega

theorem Fmt.signedValue_lt (f : Fmt) {c c' : Nat} (h : c < c') (hn : f.signedValue false c' ≠ .nan) :
    (f.signedValue false c).lt (f.signedValue false c') = true := by
  by_cases hc' : c' ≤ f.maxCode
  · simpa [Fmt.signedValue, hc', h.le.trans hc'] using f.magnitude_lt h
  · by_cases hi : f.hasInf = true ∧ c' = f.maxCode + 1
    · have hc : c ≤ f.maxCode := by omega
      simp [Fmt.signedValue, hc, hi, Fp.lt]
    · exact absurd (by simp [Fmt.signedValue, hc', hi]) hn

theorem Fmt.signedValue_neg (f : Fmt) (c : Nat) : f.signedValue true c = (f.signedValue false c).neg := by
  unfold Fmt.signedValue
  split_ifs <;> rfl

/-! ## Integer formats -/

theorem Fmt.int_width {f : Fmt} (hf : f.isInt = true) : 2 ^ (f.width - 1) = f.maxCode + 1 ∧ 2 ^ f.width = 2 * (f.maxCode + 1) := by
  cases f <;> cases hf <;> exact ⟨rfl, rfl⟩

theorem rneInt_zero (n : Nat) : rneInt n 0 = n := by simp [rneInt]

/-- Storing the value of an integer code gives the code (R72, R78). -/
theorem encode_decode_int {f : Fmt} (hf : f.isInt = true) {c : Nat} (hc : c < 2 ^ f.width) : encode f (decode f c) = c := by
  obtain ⟨hhalf, hw⟩ := Fmt.int_width hf
  have hwz : (2 : Int) ^ f.width = 2 * (f.maxCode + 1) := by exact_mod_cast hw
  have hdec : decode f c = Fp.ofInt (if c < f.maxCode + 1 then (c : Int) else c - 2 * (f.maxCode + 1)) 0 := by
    rw [decode, if_pos hf, sgn, Nat.mod_eq_of_lt hc, hhalf, hwz, ← hwz, Int.emod_eq_of_lt (by omega) (by exact_mod_cast hc), hwz]
  rw [hdec]
  by_cases h : c < f.maxCode + 1
  · have hneg : ¬(c : Int) < 0 := by omega
    simp only [h, if_true, Fp.ofInt, hneg, encode, hf, rneInt_zero, decide_false, Int.natAbs_natCast, Bool.false_eq_true, if_false,
      not_lt.mpr (Nat.le_of_lt_succ h)]
  · obtain ⟨n, hn, hle⟩ : ∃ n : Nat, (c : Int) - 2 * (f.maxCode + 1) = -(n : Int) ∧ 1 ≤ n ∧ n ≤ f.maxCode + 1 :=
      ⟨2 * (f.maxCode + 1) - c, by omega, by omega, by omega⟩
    have hrepr : repr2 f.width (-(n : Int)) = c := by
      rw [repr2, hwz, ← Int.add_emod_right, Int.emod_eq_of_lt (by omega) (by omega)]
      omega
    have hneg : -(n : Int) < 0 := by omega
    simp only [h, if_false, hn, Fp.ofInt, hneg, encode, hf, rneInt_zero, decide_true, Int.natAbs_neg, Int.natAbs_natCast, if_true,
      not_lt.mpr hle.2, hrepr]

/-- Settles O10: the value of a code is its sign and the value of the code without sign, which is stored as the code. -/
theorem formatsStoreWhatTheyHold : Obligations.FormatsStoreWhatTheyHold := by
  unfold Obligations.FormatsStoreWhatTheyHold
  refine ⟨fun f c hc hn => ?_, by decide, fun f c hf hc => ?_, fun f c c' hf h hc' hn => ?_⟩
  · cases hf : f.isInt with
    | true => exact encode_decode_int hf hc
    | false =>
      obtain ⟨neg, m, hm, rfl⟩ := Fmt.exists_signCode_add hc
      rw [decode_signCode_add hf neg hm] at hn ⊢
      exact encode_signedValue hf neg m hn
  · rw [← Fmt.signedValue_decode hf hc, ← Fmt.signedValue_neg]
    exact decode_signCode_add hf true hc
  · rw [← Fmt.signedValue_decode hf hc'] at hn ⊢
    rw [← Fmt.signedValue_decode hf (h.trans hc')]
    exact f.signedValue_lt h hn

/-! ## The uniform values (R93) -/

/-- An FP32 value of at most 24 bits, in the normal range and below 2^24, is held exactly. -/
theorem f32_toF32_normal {m : Nat} {e : Int} (hm : m ≠ 0) (hl : m.log2 ≤ 23) (hlo : -149 ≤ e - (23 - m.log2 : Nat)) (hhi : e ≤ 0) :
    f32 (toF32 (.fin false m e)) = .fin false (m * 2 ^ (23 - m.log2)) (e - (23 - m.log2 : Nat)) := by
  have hmant : 2 ^ 23 ≤ m * 2 ^ (23 - m.log2) ∧ m * 2 ^ (23 - m.log2) < 2 * 2 ^ 23 := normalized_bounds hm hl
  have hcode : magCode .fp32 m e = (e - (23 - m.log2 : Nat) + 150).toNat * 2 ^ 23 + (m * 2 ^ (23 - m.log2) - 2 ^ 23) := by
    rw [magCode_normal (f := .fp32) hm hl hlo]
    exact congrArg (fun k : Int => k.toNat * 2 ^ 23 + (m * 2 ^ (23 - m.log2) - 2 ^ 23)) (add_assoc _ 149 1)
  have hle : magCode .fp32 m e ≤ Fmt.fp32.maxCode := by
    rw [hcode, show Fmt.fp32.maxCode = 0x7F7FFFFF from rfl]
    omega
  have hmag := Fmt.magnitude_high .fp32 (k := (e - (23 - m.log2 : Nat) + 150).toNat) (r := m * 2 ^ (23 - m.log2) - 2 ^ 23)
    (by omega) (show _ < 2 ^ 23 by omega)
  have henc : toF32 (.fin false m e) = magCode .fp32 m e := by
    simp [toF32, encode, Fmt.isInt, not_lt.mpr hle]
  rw [henc, f32, ← Fmt.signedValue_decode rfl (lt_of_le_of_lt hle (by decide)), Fmt.signedValue, if_pos hle, hcode]
  change Fp.fin false (Fmt.fp32.magnitude (_ * 2 ^ Fmt.fp32.shape.2.1 + _)).1 (Fmt.fp32.magnitude (_ * 2 ^ Fmt.fp32.shape.2.1 + _)).2 = _
  rw [hmag]
  exact congrArg₂ (Fp.fin false) (by simp only [Fmt.shape]; omega) (by simp only [Fmt.emin, Fmt.shape]; omega)

/-- Settles O9: a word's upper 24 bits fit into the significand of an FP32 number. -/
theorem uniformValuesAreExact : Obligations.UniformValuesAreExact := by
  unfold Obligations.UniformValuesAreExact
  intro w hw
  by_cases hm : w / 256 = 0
  · refine ⟨0, -149, ?_, ?_, ?_⟩
    · rw [uniform, hm]
      rfl
    all_goals simp [hm]
  · have hl : (w / 256).log2 < 24 := (Nat.log2_lt hm).mpr (by omega)
    have hval : (((w / 256 * 2 ^ (23 - (w / 256).log2) : Nat)) : Rat) * 2 ^ ((-24 : Int) - (23 - (w / 256).log2 : Nat)) =
        ((w / 256 : Nat) : Rat) * 2 ^ (-24 : Int) := by
      rw [zpow_sub₀ two_ne_zero, zpow_natCast]
      push_cast
      field_simp
    refine ⟨_, _, f32_toF32_normal hm (by omega) (by omega) (by decide), hval, hval ▸ ?_⟩
    have hlt : ((w / 256 : Nat) : Rat) < 2 ^ 24 := by exact_mod_cast (show w / 256 < 2 ^ 24 by omega)
    rw [zpow_neg, ← div_eq_mul_inv, div_lt_one (by positivity)]
    exact_mod_cast hlt

end Sys2Proof.Machine
end

section
/-! SUPPORT. The arbitration and delivery of interrupts (R176 to R182), and the clearing of running maxima (R83). -/

namespace Sys2Proof.Machine

/-! ## The instructions -/

theorem exec_icuWin (i : IcuId) (s : State) : exec (.icuWin i) s = .next { s with dev := s.dev.icuWin i } := rfl

theorem exec_handlerEntry (i : IcuId) (s : State) : exec (.handlerEntry i) s = .next { s with dev := s.dev.handlerEntry i } := rfl

theorem exec_msixPost (ld : Nat) (s : State) : exec (.msixPost ld) s = .next { s with dev := s.dev.msixPost ld } := rfl

theorem exec_icuEoi (ag : Agent) (i : IcuId) (v : W32) (s : State) :
    exec (.icuEoi ag i v) s = .next { s with dev := s.dev.eoiWrite ag i v } := rfl

theorem exec_icuEoi_clu {ag : Agent} {n : Nat} {s : State} (h : s.dev.reachesBlock ag n = true) (v : W32) :
    exec (.icuEoi ag (.clu n) v) s = .next { s with dev := s.dev.icuEoi (.clu n) (.clu n) v } := by
  rw [exec_icuEoi, Dev.eoiWrite.eq_def]
  dsimp only
  rw [guarded, if_pos h]

theorem exec_icuEoi_ld {ag : Agent} {ld : Nat} {s : State} (hr : reachesPage ag ld = true) (h : s.dev.pageMode ld = .full) (v : W32) :
    exec (.icuEoi ag (.ld ld) v) s = .next { s with dev := s.dev.icuEoi (.ld ld) (.ld ld) v } := by
  rw [exec_icuEoi, Dev.eoiWrite.eq_def]
  dsimp only
  rw [Dev.pageWrite, if_pos hr, h]

theorem exec_rmaxClear {ag : Agent} {n : Nat} {s : State} (h : s.dev.reachesBlock ag n = true) (v : W32) :
    exec (.rmaxClear ag n v) s = .next { s with dev := s.dev.rmaxCtl n v } :=
  congrArg (fun d => (Host.Outcome.next { s with dev := d } : Result)) (if_pos h : guarded _ _ _ = s.dev.rmaxCtl n v)

/-! ## Arbitration (R176) -/

theorem Icu.winner_mem {x : Icu} {l : List Nat} {n : Nat} (h : x.winner l = some n) : n ∈ l := by
  induction l with
  | nil => cases h
  | cons a l ih =>
    unfold Icu.winner at h
    cases hw : x.winner l with
    | none => rw [hw] at h; simp_all
    | some m =>
      rw [hw] at h
      dsimp only at h
      split at h <;> simp_all

/-- The source that beats every other one wins, and no other beats it. -/
theorem Icu.winner_eq {x : Icu} {l : List Nat} {n : Nat} (hn : n ∈ l) (hb : ∀ m ∈ l, m ≠ n → x.beats n m = true ∧ x.beats m n = false) :
    x.winner l = some n := by
  induction l with
  | nil => cases hn
  | cons a l ih =>
    unfold Icu.winner
    by_cases hl : n ∈ l
    · rw [ih hl fun m hm => hb m (List.mem_cons_of_mem _ hm)]
      by_cases ha : a = n
      · simp [ha]
      · simp [(hb a List.mem_cons_self ha).2]
    · obtain rfl : n = a := (List.mem_cons.mp hn).resolve_right hl
      cases hw : x.winner l with
      | none => rfl
      | some m =>
        have hm := Icu.winner_mem hw
        simp [(hb m (List.mem_cons_of_mem _ hm) fun e => hl (e ▸ hm)).1]

/-- Fast goes before normal, then the higher `prio`, then the lower number. -/
theorem Icu.beats_of_order {x : Icu} {n m : Nat} (h : ((x.src n).fast = true ∧ (x.src m).fast = false) ∨
    ((x.src n).fast = (x.src m).fast ∧ ((x.src m).prio.toNat < (x.src n).prio.toNat ∨ (x.src m).prio = (x.src n).prio ∧ n < m))) :
    x.beats n m = true ∧ x.beats m n = false := by
  unfold Icu.beats
  obtain ⟨hn, hm⟩ | ⟨hf, hp | ⟨hp, hlt⟩⟩ := h
  · simp [hn, hm]
  · have hne : (x.src n).prio ≠ (x.src m).prio := fun e => by rw [e] at hp; omega
    simp [hf, hne, hne.symm, hp, hp.le]
  · simp [hf, hp, hlt, hlt.le]

theorem Dev.icuWin_none {d : Dev} {i : IcuId} (h : d.eligible i = []) : d.icuWin i = d := by
  simp [Dev.icuWin, h, Icu.winner]

theorem Dev.icuWin_some {d : Dev} {i : IcuId} {n : Nat} (h : (d.icu i).winner (d.eligible i) = some n) :
    d.icuWin i = d.modIcu i fun y =>
      { y with insvc := y.insvc ||| BitVec.ofNat 1024 (2 ^ n),
               devWin := if onDevice i ((d.icu i).src n) then
                   some { src := n, fast := ((d.icu i).src n).fast, vector := ((d.icu i).src n).vector.toNat } else y.devWin,
               hostWin := if onDevice i ((d.icu i).src n) then y.hostWin
                 else some { src := n, fast := ((d.icu i).src n).fast, vector := ((d.icu i).src n).vector.toNat } } := by
  simp only [Dev.icuWin, h]
  congr 1
  funext y
  split <;> rfl

/-! ## Entry of a handler on a cluster (R177, R178) -/

theorem Dev.handlerEntry_clu {d : Dev} {n : Nat} {w : Win} (h : (d.clu n).icu.devWin = some w) :
    d.handlerEntry (.clu n) = d.setClu n { d.clu n with
      icu := if w.fast then { (d.clu n).icu with devWin := none, fastSrc := some w.src }
        else { (d.clu n).icu with devWin := none, normalSrc := some w.src }
      ctl := if w.fast then { (d.clu n).ctl with fpc := (d.clu n).ctl.pc, fstatus := (d.clu n).ctl.status,
                                                 status := (d.clu n).ctl.status ||| 8, pc := (d.clu n).ctl.vecFast }
        else { (d.clu n).ctl with epc := (d.clu n).ctl.pc, estatus := (d.clu n).ctl.status,
                                  status := (d.clu n).ctl.status ||| 4, pc := (d.clu n).ctl.vecNormal } } := by
  simp only [Dev.handlerEntry, Dev.icu, h, Dev.modIcu, Dev.modCtl, Dev.modClu, Dev.clu_setClu_same, Dev.setClu_setClu]
  rfl

/-! ## The end of an interrupt (R179) -/

theorem getLsbD_clearBit {k n m : Nat} (v : BitVec k) (hm : m < k) : (clearBit v n).getLsbD m = (v.getLsbD m && m != n) := by
  simp only [clearBit, BitVec.getLsbD_and, BitVec.getLsbD_not, BitVec.getLsbD_ofNat, Nat.testBit_two_pow, hm, decide_true,
    Bool.true_and]
  congr 1
  by_cases h : n = m <;> simp [h, Ne.symm]

section
variable {d : Dev} {i : IcuId} {pg : RegPage} {v : W32} (hz : fld v 31 11 = 0)
include hz

theorem Dev.icuEoi_outOfRange (hn : icuSources i ≤ fld v 10 0) : d.icuEoi i pg v = d.pathErr pg eRange := by
  simp [Dev.icuEoi, firstFail, hz, hn, Dev.checked]

theorem Dev.icuEoi_notInService (hn : fld v 10 0 < icuSources i) (hs : (d.icu i).insvc.getLsbD (fld v 10 0) = false) :
    d.icuEoi i pg v = d.pathErr pg eState := by
  simp [Dev.icuEoi, firstFail, hz, Nat.not_le.mpr hn, hs, Dev.checked]

theorem Dev.icuEoi_inService (hn : fld v 10 0 < icuSources i) (hs : (d.icu i).insvc.getLsbD (fld v 10 0) = true) :
    d.icuEoi i pg v = d.modIcu i fun x =>
      { x with insvc := clearBit x.insvc (fld v 10 0),
               normalSrc := if i = .ld 15 ∧ x.normalSrc = some (fld v 10 0) then none else x.normalSrc,
               fastSrc := if i = .ld 15 ∧ x.fastSrc = some (fld v 10 0) then none else x.fastSrc } := by
  simp [Dev.icuEoi, firstFail, hz, Nat.not_le.mpr hn, hs, Dev.checked]

/-- At a cluster a source in service leaves service, and nothing else changes. -/
theorem Dev.icuEoi_clu {n : Nat} (hn : fld v 10 0 < 64) (hs : (d.clu n).icu.insvc.getLsbD (fld v 10 0) = true) :
    d.icuEoi (.clu n) pg v = d.setClu n { d.clu n with
      icu := { (d.clu n).icu with insvc := clearBit (d.clu n).icu.insvc (fld v 10 0) } } := by
  rw [Dev.icuEoi_inService (i := .clu n) hz hn hs]
  simp [Dev.modIcu, Dev.modClu]

end

/-! ## Running maxima (R83) -/

theorem Dev.rmaxCtl_reserved {v : W32} (hz : fld v 31 16 ≠ 0) (d : Dev) (n : Nat) : d.rmaxCtl n v = d.cluErr n eReservedNonzero := by
  simp [Dev.rmaxCtl, firstFail, hz, Dev.checked, Dev.pathErr]

theorem Dev.rmaxCtl_clears {v : W32} (hz : fld v 31 16 = 0) (d : Dev) (n : Nat) :
    d.rmaxCtl n v = d.setClu n { d.clu n with clu := { (d.clu n).clu with
      rmax := Vector.ofFn fun (i : Fin 8) => if v.getLsbD i.val then { nanSeen := false, maxAbs := 0 } else (d.clu n).clu.rmax.get i
      sat := (d.clu n).clu.sat &&& ~~~(BitVec.ofNat 8 (fld v 7 0)) &&& ~~~(BitVec.ofNat 8 (fld v 15 8)) } } := by
  simp only [Dev.rmaxCtl, firstFail, hz, Dev.checked]
  rfl

/-- Bit i of a byte of a word. -/
theorem getLsbD_byteField (v : W32) {hi lo i : Nat} (h : hi = lo + 7) (hi8 : i < 8) :
    (BitVec.ofNat 8 (fld v hi lo)).getLsbD i = v.getLsbD (lo + i) := by
  rw [fld, bits, h, Nat.add_sub_cancel_left, BitVec.getLsbD_ofNat, Nat.testBit_mod_two_pow, Nat.testBit_shiftRight, BitVec.getLsbD]
  simp [hi8]

/-- Settles O24: the source that beats the other eligible ones wins, its class decides the handler or its vector the message, and
the registers of service and of maxima change as their writes name. -/
theorem interruptsArbitrateAndDeliver : Obligations.InterruptsArbitrateAndDeliver := by
  unfold Obligations.InterruptsArbitrateAndDeliver
  refine ⟨fun i n s => ⟨fun h => ?_, fun hn hb => ?_⟩, fun n w s hw => ⟨fun hf => ?_, fun hf => ?_⟩,
    fun ld n v s => ⟨fun w hw => ⟨fun hm he => ?_, fun h => ?_⟩, fun hr hz hn hs => ?_, fun hr hz hn hs => ?_, fun hr hz hn => ?_,
      fun hr hz => ?_, fun hr hz => ?_, fun hp hz hn hs => ?_⟩⟩
  · rw [exec_icuWin, Dev.icuWin_none h]
  · rw [exec_icuWin, Dev.icuWin_some (Icu.winner_eq hn fun m hm hne => Icu.beats_of_order (hb m hm hne))]
  · rw [exec_handlerEntry, Dev.handlerEntry_clu hw, hf]
    rfl
  · rw [exec_handlerEntry, Dev.handlerEntry_clu hw, hf]
    rfl
  · rw [exec_msixPost]
    simp [Dev.msixPost, hw, hm, he]
    rfl
  · rw [exec_msixPost]
    simp [Dev.msixPost, hw, h]
  · refine ⟨_, exec_icuEoi_clu hr v, ?_⟩
    rw [Dev.icuEoi_clu hz hn hs, Dev.clu_setClu_same]
    exact ⟨rfl, fun m hm => getLsbD_clearBit _ hm⟩
  · rw [exec_icuEoi_clu hr, Dev.icuEoi_notInService (i := .clu n) hz hn hs]
    rfl
  · rw [exec_icuEoi_clu hr, Dev.icuEoi_outOfRange (i := .clu n) hz hn]
    rfl
  · refine ⟨_, exec_rmaxClear hr v, ?_⟩
    rw [Dev.rmaxCtl_clears hz, Dev.clu_setClu_same]
    refine ⟨rfl, fun i => Vector.getElem_ofFn .., fun i hi => ?_⟩
    simp only [BitVec.getLsbD_and, BitVec.getLsbD_not, hi, decide_true, Bool.true_and, getLsbD_byteField v (lo := 0) rfl hi,
      getLsbD_byteField v (lo := 8) rfl hi, Nat.zero_add]
  · rw [exec_rmaxClear hr, Dev.rmaxCtl_reserved hz]
  · refine ⟨_, exec_icuEoi_ld rfl hp v, ?_⟩
    rw [Dev.icuEoi_inService hz hn hs]
    refine ⟨rfl, fun m hm => ?_⟩
    rw [Dev.modIcu, Dev.ld_modLd_same]
    exact getLsbD_clearBit _ hm

end Sys2Proof.Machine
end

section
/-! SUPPORT. A device with one collective: its table, its messages and its memory in one form, in which the events of a Rake
are followed (R336, R342 to R344). -/

namespace Sys2Proof.Machine

/-! ## Messages -/

theorem Dev.SameFabric.tell {d d' : Dev} (h : d.SameFabric d') (ld did : Nat) (m : FabMsg) :
    (d.tell ld did m).SameFabric (d'.tell ld did m) := by
  obtain ⟨ho, hp, hn⟩ := h.told ld did m
  refine ⟨ho, hp, hn, ?_, fun n => ?_, fun n => ?_⟩
  · rw [Dev.tell_frame, Dev.tell_frame ld did m d]
    exact h.grafts
  · rw [Dev.ld_tell, Dev.ld_tell, h.lay]
  · rw [Dev.ld_tell, Dev.ld_tell, h.fab]

theorem Dev.SameFabric.tellAll {d d' : Dev} (h : d.SameFabric d') (ld : Nat) (ms : List (Nat × FabMsg)) :
    (d.tellAll ld ms).SameFabric (d'.tellAll ld ms) := by
  induction ms generalizing d d' with
  | nil => exact h
  | cons p ms ih => exact ih (h.tell ld p.1 p.2)

theorem Dev.SameFabric.toldAll {d d' : Dev} (h : d.SameFabric d') (ld : Nat) (ms : List (Nat × FabMsg)) :
    d.toldAll (d'.tellAll ld ms) ld ms :=
  ⟨(h.tellAll ld ms).out, (h.tellAll ld ms).ports, (h.tellAll ld ms).net⟩

/-- Messages change outputs, ports and what the source holds, and nothing else. -/
theorem Dev.tellAll_frame (ld : Nat) (ms : List (Nat × FabMsg)) (d : Dev) :
    d.tellAll ld ms = { d with out := (d.tellAll ld ms).out, ports := (d.tellAll ld ms).ports, net := (d.tellAll ld ms).net } := by
  induction ms generalizing d with
  | nil => rfl
  | cons p ms ih =>
    change (d.tell ld p.1 p.2).tellAll ld ms = { d with
      out := ((d.tell ld p.1 p.2).tellAll ld ms).out
      ports := ((d.tell ld p.1 p.2).tellAll ld ms).ports
      net := ((d.tell ld p.1 p.2).tellAll ld ms).net }
    rw [ih, Dev.tell_frame]

theorem Dev.tellAll_append (ld : Nat) (xs ys : List (Nat × FabMsg)) (d : Dev) :
    d.tellAll ld (xs ++ ys) = (d.tellAll ld xs).tellAll ld ys := List.foldl_append

theorem Dev.collSendAll_eq (c : Coll) (rs : List Nat) (m : FabMsg) (d : Dev) :
    d.collSendAll c rs m = d.tellAll c.ld (rs.map fun r => (c.members.getD r 0, m)) :=
  (List.foldl_map (f := fun r => (c.members.getD r 0, m)) (g := fun (d : Dev) (p : Nat × FabMsg) => d.tell c.ld p.1 p.2)).symm

theorem Dev.quiet_tellAll {d : Dev} (h : d.quiet) (ld : Nat) (ms : List (Nat × FabMsg)) : (d.tellAll ld ms).quiet := by
  rw [Dev.tellAll_frame]
  exact Dev.quiet_of_sameKeys ⟨rfl, rfl, rfl, rfl, fun _ => rfl, fun _ => rfl⟩ h rfl rfl rfl

theorem Dev.quiet.snoops {d : Dev} (h : d.quiet) : d.snoops = [] := h.2.2.1

/-! ## One collective -/

/-- A device with other collectives and other bytes in memory. -/
def Dev.holding (cs : List Coll) (m : Mem) (d : Dev) : Dev := { d with colls := cs, mem := m }

theorem Dev.holding_self {d : Dev} {cs : List Coll} (h : d.colls = cs) : d.holding cs d.mem = d := by
  subst h
  rfl

theorem Dev.holding_holding (d : Dev) (cs cs' : List Coll) (m m' : Mem) : (d.holding cs m).holding cs' m' = d.holding cs' m' := rfl

theorem Dev.sameFabric_holding (d : Dev) (cs : List Coll) (m : Mem) : d.SameFabric (d.holding cs m) :=
  ⟨rfl, rfl, rfl, rfl, fun _ => rfl, fun _ => rfl⟩

theorem Dev.quiet_holding {d : Dev} (h : d.quiet) (cs : List Coll) (m : Mem) : (d.holding cs m).quiet :=
  Dev.quiet_of_sameKeys ⟨rfl, rfl, rfl, rfl, fun _ => rfl, fun _ => rfl⟩ h rfl rfl rfl

/-- The collectives and memory have no part in a message. -/
theorem Dev.tell_holding (d : Dev) (cs : List Coll) (m : Mem) (ld did : Nat) (x : FabMsg) :
    (d.holding cs m).tell ld did x = (d.tell ld did x).holding cs m := by
  have h := (d.sameFabric_holding cs m).tell ld did x
  rw [Dev.tell_frame ld did x (d.holding cs m), h.out, h.ports, h.net, Dev.tell_frame ld did x d]
  rfl

theorem Dev.tellAll_holding (d : Dev) (cs : List Coll) (m : Mem) (ld : Nat) (ms : List (Nat × FabMsg)) :
    (d.holding cs m).tellAll ld ms = (d.tellAll ld ms).holding cs m := by
  induction ms generalizing d with
  | nil => rfl
  | cons p ms ih => exact (congrArg (Dev.tellAll ld ms) (d.tell_holding cs m ld p.1 p.2)).trans (ih _)

/-- What has changed on a device that has sent messages and holds one collective. -/
theorem Dev.holding_frame (d : Dev) (ld : Nat) (ms : List (Nat × FabMsg)) (cs : List Coll) (m : Mem) :
    (d.tellAll ld ms).holding cs m = { d with
      colls := cs, mem := m, out := (d.tellAll ld ms).out, ports := (d.tellAll ld ms).ports, net := (d.tellAll ld ms).net } := by
  rw [Dev.tellAll_frame]
  rfl

theorem Dev.toldAll_holding (d : Dev) (ld : Nat) (ms : List (Nat × FabMsg)) (cs : List Coll) (m : Mem) :
    d.toldAll ((d.tellAll ld ms).holding cs m) ld ms := ⟨rfl, rfl, rfl⟩

theorem Dev.bytes_holding {d : Dev} (h : d.quiet) (cs : List Coll) (m : Mem) (a n : Nat) :
    (d.holding cs m).bytes a n = Mem.readN memDefault m a n := Dev.bytes_quiet (Dev.quiet_holding h cs m) a n

theorem Dev.bytes_tellAll {d : Dev} (h : d.quiet) (ld : Nat) (ms : List (Nat × FabMsg)) (a n : Nat) :
    (d.tellAll ld ms).bytes a n = d.bytes a n := by
  rw [Dev.bytes_quiet (Dev.quiet_tellAll h ld ms), Dev.bytes_quiet h, Dev.tellAll_frame]

theorem Dev.colls_tellAll (ld : Nat) (ms : List (Nat × FabMsg)) (d : Dev) : (d.tellAll ld ms).colls = d.colls := by
  rw [Dev.tellAll_frame]

theorem Dev.mem_tellAll (ld : Nat) (ms : List (Nat × FabMsg)) (d : Dev) : (d.tellAll ld ms).mem = d.mem := by
  rw [Dev.tellAll_frame]

section
variable {d : Dev} {c : Coll} (hc : d.colls = [c])
include hc

theorem Dev.coll?_self : d.coll? c.ld c.id = some c := by simp [Dev.coll?, hc]

theorem Dev.coll?_other {ld : Nat} {id : BitVec 20} (h : id ≠ c.id) : d.coll? ld id = none := by
  simp [Dev.coll?, hc, Ne.symm h]

theorem Dev.onColl_self (f : Coll → Dev → Dev) : d.onColl (c.ld, c.id) f = f c d := by
  rw [Dev.onColl, Dev.coll?_self hc]
  rfl

theorem Dev.putColl_self {x : Coll} (hl : x.ld = c.ld) (hi : x.id = c.id) : d.putColl x = d.holding [x] d.mem := by
  simp [Dev.putColl, hc, hl, hi, Dev.holding]

theorem Dev.onSlot_self {k : Nat} {z : RakeSlot} (hz : c.slot? k = some z) (f : Coll → RakeSlot → Dev → Dev) :
    d.onSlot (c.ld, c.id) k f = f c z d := by
  rw [Dev.onSlot, Dev.onColl_self hc, hz]
  rfl

theorem Dev.putSlot_self {z z' : RakeSlot} (x : Coll) (hl : x.ld = c.ld) (hi : x.id = c.id) (hz : x.slots = [z]) (hk : z.chunk = z'.chunk) :
    d.putSlot x z' = d.holding [{ x with slots := [z'] }] d.mem :=
  (Dev.putColl_self hc (x := { x with slots := x.slots.map fun y => if y.chunk = z'.chunk then z' else y }) hl hi).trans (by simp [hz, hk])

/-- An event is what it does to the one collective. -/
theorem Dev.onLive_congr {f g : Coll → Dev → Dev} (now : W64) (h : f c d = g c d) : d.onLive now (c.ld, c.id) f = d.onLive now (c.ld, c.id) g := by
  rw [Dev.onLive, Dev.onLive, Dev.onColl_self hc, Dev.onColl_self hc, h]

/-- An event at a collective whose marks it leaves restarts no watchdog (R356). -/
theorem Dev.onLive_still {f : Coll → Dev → Dev} {e : Dev} {x : Coll} {m : Mem} (now : W64) (hf : f c d = e.holding [x] m)
    (hl : x.ld = c.ld) (hi : x.id = c.id) (hm : x.marks = c.marks) : d.onLive now (c.ld, c.id) f = e.holding [x] m := by
  rw [Dev.onLive, Dev.onColl_self hc, hf, ← hl, ← hi, Dev.onColl_self (d := e.holding [x] m) rfl]
  exact if_pos hm

/-- An event that moves a collective on restarts its watchdog (R356). -/
theorem Dev.onLive_moved {f : Coll → Dev → Dev} {e : Dev} {x : Coll} {m : Mem} (now : W64) (hf : f c d = e.holding [x] m)
    (hl : x.ld = c.ld) (hi : x.id = c.id) (hm : x.marks ≠ c.marks) :
    d.onLive now (c.ld, c.id) f = e.holding [{ x with lastMove := now }] m := by
  rw [Dev.onLive, Dev.onColl_self hc, hf, ← hl, ← hi, Dev.onColl_self (d := e.holding [x] m) rfl]
  exact (if_neg hm).trans (Dev.putColl_self (d := e.holding [x] m) rfl rfl rfl)

end

end Sys2Proof.Machine
end

section
/-! SUPPORT. The end of a collective (R336, R338, R345, R356 to R359). -/

namespace Sys2Proof.Machine

/-! ## What an end leaves of the table -/

theorem Dev.colls_writeBytes (req a : Nat) (bs : List Byte) (d : Dev) : (d.writeBytes req a bs).colls = d.colls := by
  rw [(d.memFrame_writeBytes req a bs).1]

theorem Dev.colls_finish (t : Ticket) (c : Code) (aborted : Bool) (r : W32) (d : Dev) : (d.finish t c aborted r).colls = d.colls := by
  unfold Dev.finish
  split
  · rfl
  · rw [(d.memFrame_ringDone ..).1]
  · rfl
  · rfl
  · split <;> rfl
  · rfl

/-- The outstanding collectives without one of them. -/
def Coll.others (c : Coll) (cs : List Coll) : List Coll := cs.filter fun x => !(x.ld == c.ld && x.id == c.id)

/-- The zero fill that awaits the slots of a collective (R345). -/
def Coll.zeroing (c : Coll) : List Zeroing :=
  if c.phys = [] then [] else [{ iod := c.iod, ld := c.ld, dom := c.dom, coll := c.id, phys := c.phys }]

/-- The events of an end with a code other than 0 (R357). -/
def Ld.collFail (code : Code) (l : Ld) : Ld :=
  let l := l.setColEvt 0
  let l := if code = eCollTimeout then l.setColEvt 1 else l
  if code = eCollMismatch then l.setColEvt 4 else l

/-- The messages of such an end. -/
def Coll.aborts (c : Coll) (code : Code) (who : Nat) (chunk : W32) : List (Nat × FabMsg) :=
  c.neighbours.map fun r => (c.members.getD r 0, .abort c.id code who chunk c.digest)

/-- The device before the issuer is told: without the collective, with its done word, its events and its notices. -/
def Dev.collGone (c : Coll) (code : Code) (who : Nat) (chunk : W32) (d : Dev) : Dev :=
  let d : Dev := { d with colls := c.others d.colls, zeroing := d.zeroing ++ c.zeroing }
  let d := if c.doneAddr = 0 then d else d.writeBytes reqEng c.doneAddr (c.doneWord code who (code != 0) chunk)
  if code = 0 then d else (d.modLd c.ld (Ld.collFail code)).tellAll c.ld (c.aborts code who chunk)

theorem Dev.colls_collGone (c : Coll) (code : Code) (who : Nat) (chunk : W32) (d : Dev) :
    (d.collGone c code who chunk).colls = c.others d.colls := by
  unfold Dev.collGone
  dsimp only
  generalize hd : ({ d with colls := c.others d.colls, zeroing := d.zeroing ++ c.zeroing } : Dev) = e
  have he : (if c.doneAddr = 0 then e else e.writeBytes reqEng c.doneAddr (c.doneWord code who (code != 0) chunk)).colls =
      c.others d.colls := by
    split
    · rw [← hd]
    · rw [Dev.colls_writeBytes, ← hd]
  split
  · exact he
  · exact (Dev.colls_tellAll ..).trans he

/-- An end is what it leaves before its report, and the report: to the update engine or the transplant that waits for it, or to
the issuer. -/
theorem Dev.collEnd_eq (c : Coll) (code : Code) (who : Nat) (chunk : W32) (aborted : Bool) (d : Dev) :
    d.collEnd c code who chunk aborted =
      (let d := d.collGone c code who chunk
       let d := match c.eng with
         | some u => { d with upds := d.upds.map fun (x : UpdCmd) => if x.id = u then { x with colEnd := some code } else x }
         | none => d
       if c.turn then
         let shards := (List.range c.nmem).map fun r =>
           (List.range (ceilDiv (c.recvs.getD r (0, 0)).1 3072)).flatMap fun i => Map.get c.passed (pieceKey i r) []
         d.modLd c.ld fun l => { l with trl := { l.trl with turn := { l.trl.turn with moved := some (code, who), inbox := shards } } }
       else d.finish c.tkt code aborted 0) := by
  simp only [Dev.collEnd, Dev.collGone, Dev.collSendAll_eq, Coll.zeroing, Coll.others, Coll.aborts, List.isEmpty_iff]
  rfl

theorem Dev.colls_collEnd (c : Coll) (code : Code) (who : Nat) (chunk : W32) (aborted : Bool) (d : Dev) :
    (d.collEnd c code who chunk aborted).colls = c.others d.colls := by
  have h := d.colls_collGone c code who chunk
  rw [Dev.collEnd_eq]
  dsimp only
  generalize d.collGone c code who chunk = e at h
  rw [← h]
  cases c.eng with
  | none =>
    split
    · rfl
    · exact Dev.colls_finish ..
  | some u =>
    split
    · rfl
    · exact Dev.colls_finish ..

/-- An end of the one collective of a device. -/
theorem Dev.coll?_collEnd {d : Dev} {x y : Coll} (hd : d.colls = [y]) (hl : y.ld = x.ld) (hi : y.id = x.id) (code : Code) (who : Nat)
    (chunk : W32) (aborted : Bool) (ld : Nat) (id : BitVec 20) : (d.collEnd x code who chunk aborted).coll? ld id = none := by
  rw [Dev.coll?, Dev.colls_collEnd, hd]
  simp [Coll.others, hl, hi]

/-- An event that ends the one collective of a device leaves it ended. -/
theorem Dev.onLive_ends {d : Dev} {c : Coll} (hc : d.colls = [c]) {f : Coll → Dev → Dev} {e : Dev} {x y : Coll} {code : Code} {who : Nat}
    {chunk : W32} {aborted : Bool} (now : W64) (hf : f c d = e.collEnd x code who chunk aborted) (he : e.colls = [y]) (hl : y.ld = x.ld)
    (hi : y.id = x.id) : d.onLive now (c.ld, c.id) f = e.collEnd x code who chunk aborted := by
  rw [Dev.onLive, Dev.onColl_self hc, hf, Dev.onColl, Dev.coll?_collEnd he hl hi]
  rfl

/-! ## An end in quiet memory -/

/-- Memory with the done word of an end (R338). -/
def Coll.doneMem (c : Coll) (code : Code) (who : Nat) (chunk : W32) (m : Mem) : Mem :=
  if c.doneAddr = 0 then m else Mem.writeN memDefault m c.doneAddr (c.doneWord code who (code != 0) chunk)

theorem Dev.collGone_quiet {d : Dev} (h : d.quiet) (c : Coll) (code : Code) (who : Nat) (chunk : W32) :
    d.collGone c code who chunk =
      (let e : Dev := { d with colls := c.others d.colls, zeroing := d.zeroing ++ c.zeroing, mem := c.doneMem code who chunk d.mem }
       if code = 0 then e else (e.modLd c.ld (Ld.collFail code)).tellAll c.ld (c.aborts code who chunk)) := by
  have hq : ({ d with colls := c.others d.colls, zeroing := d.zeroing ++ c.zeroing } : Dev).quiet :=
    Dev.quiet_of_sameKeys ⟨rfl, rfl, rfl, rfl, fun _ => rfl, fun _ => rfl⟩ h rfl rfl rfl
  simp only [Dev.collGone, Dev.writeBytes_quiet hq, Coll.doneMem]
  by_cases ha : c.doneAddr = 0
  · simp only [ha, if_true]
  · simp only [ha, if_false]

theorem Ld.collFail_fab (code : Code) (l : Ld) : (l.collFail code).fab = l.fab := by
  unfold Ld.collFail
  dsimp only
  split <;> split <;> rfl

theorem Ld.collFail_lay (code : Code) (l : Ld) : (l.collFail code).lay = l.lay := by
  unfold Ld.collFail
  dsimp only
  split <;> split <;> rfl

theorem Ld.collFail_evt (code : Code) (l : Ld) : (l.collFail code).col.evt =
    l.col.evt ||| 1 ||| (if code = eCollTimeout then 2 else 0) ||| (if code = eCollMismatch then 16 else 0) := by
  unfold Ld.collFail
  dsimp only
  split <;> split <;> simp [Ld.setColEvt, setBit]

/-- What an end has done before its report: the collective is gone, its slots await their zero fill, the done word stands in
memory, and a code other than 0 shows in the events of its LD and goes to its neighbours. -/
theorem Dev.collGone_facts {d : Dev} (h : d.quiet) (c : Coll) (code : Code) (who : Nat) (chunk : W32) :
    let x := d.collGone c code who chunk
    x = { d with colls := x.colls, zeroing := x.zeroing, mem := x.mem, lds := x.lds, out := x.out, ports := x.ports, net := x.net } ∧
      x.zeroing = d.zeroing ++ c.zeroing ∧ x.mem = c.doneMem code who chunk d.mem ∧
      d.toldAll x c.ld (if code = 0 then [] else c.aborts code who chunk) ∧ (code = 0 → x.lds = d.lds) ∧
      (code ≠ 0 → ∀ n, x.ld n = if n = c.ld then (d.ld n).collFail code else d.ld n) := by
  rw [Dev.collGone_quiet h]
  dsimp only
  by_cases h0 : code = 0
  · rw [if_pos h0, if_pos h0]
    exact ⟨rfl, rfl, rfl, ⟨rfl, rfl, rfl⟩, fun _ => rfl, fun k => absurd h0 k⟩
  · rw [if_neg h0, if_neg h0]
    have hs : d.SameFabric (Dev.modLd c.ld (Ld.collFail code) { d with
        colls := c.others d.colls, zeroing := d.zeroing ++ c.zeroing, mem := c.doneMem code who chunk d.mem }) :=
      ⟨rfl, rfl, rfl, rfl, fun n => Dev.ld_modLd_keeps Ld.lay (Ld.collFail_lay code) _ c.ld n,
        fun n => Dev.ld_modLd_keeps Ld.fab (Ld.collFail_fab code) _ c.ld n⟩
    have ht := hs.toldAll c.ld (c.aborts code who chunk)
    rw [Dev.tellAll_frame] at ht ⊢
    refine ⟨rfl, rfl, rfl, ht, fun k => absurd k h0, fun _ n => ?_⟩
    change Dev.ld (Dev.modLd c.ld (Ld.collFail code) _) n = _
    rw [Dev.ld_modLd]
    split
    · next e => rw [e]; rfl
    · rfl

end Sys2Proof.Machine
end

section
/-! SUPPORT. The events that end a collective: the fence, the notices, the watchdog and COL_ABORT (R336, R338, R345, R356 to R359). -/

namespace Sys2Proof.Machine

/-! ## Packets of another digest (R336) -/

theorem Dev.agreed_mismatch {c : Coll} {x : Sender} (hr : x.rank ≠ c.rank) (hx : x.digest ≠ c.digest) (f : Dev → Dev) (d : Dev) :
    d.agreed c x f = d.collEnd c eCollMismatch x.rank noChunk false := if_pos ⟨hr, hx⟩

theorem Dev.agreed_same {c : Coll} {x : Sender} (hx : x.digest = c.digest) (f : Dev → Dev) (d : Dev) : d.agreed c x f = f d :=
  if_neg fun h => h.2 hx

theorem Coll.awaited_pending {c : Coll} (h : c.granted = false) : c.awaited = c.rank := by
  rw [Coll.awaited, h]
  rfl

section
variable {d : Dev} {c : Coll} (hc : d.colls = [c])
include hc

/-! ## Notices (R357) -/

theorem Dev.abortNotice_same (rank : Nat) {code : Code} (h : code ≠ 0) (who : Nat) (chunk : W32) :
    d.abortNotice c.ld { id := c.id, sender := { rank := rank, digest := c.digest } } code who chunk = d.collEnd c code who chunk false := by
  rw [Dev.abortNotice, Dev.coll?_self hc]
  dsimp only
  rw [if_neg h, Dev.agreed_same rfl]

theorem Dev.abortNotice_mismatch {x : Sender} (hr : x.rank ≠ c.rank) (hx : x.digest ≠ c.digest) {code : Code} (h : code ≠ 0) (who : Nat)
    (chunk : W32) : d.abortNotice c.ld { id := c.id, sender := x } code who chunk = d.collEnd c eCollMismatch x.rank noChunk false := by
  rw [Dev.abortNotice, Dev.coll?_self hc]
  dsimp only
  rw [if_neg h, Dev.agreed_mismatch hr hx]

/-! ## The fence (R345) -/

theorem Dev.completionFence_mismatch {x : Sender} (hr : x.rank ≠ c.rank) (hx : x.digest ≠ c.digest) (now : W64) :
    d.completionFence now c.ld { id := c.id, sender := x } = d.collEnd c eCollMismatch x.rank noChunk false :=
  Dev.onLive_ends hc now (Dev.agreed_mismatch hr hx ..) hc rfl rfl

theorem Dev.fenceCheck_ends (hf : c.fence = true) (hs : c.settled = true) :
    d.fenceCheck (c.ld, c.id) = Dev.collEnd c c.badCode c.badWho c.badChunk false
      (d.tellAll c.ld (c.fenceTo.map fun r => (c.members.getD r 0, .fence c.id c.digest))) := by
  rw [Dev.fenceCheck, Dev.onColl_self hc, if_pos (by simp [hf, hs]), Dev.collSendAll_eq]

theorem Dev.fenceCheck_waits (h : c.fence = false ∨ c.settled = false) : d.fenceCheck (c.ld, c.id) = d := by
  rw [Dev.fenceCheck, Dev.onColl_self hc]
  exact if_neg (by obtain h | h := h <;> simp [h])

/-- A member that receives the fence and is settled passes it on and ends. -/
theorem Dev.completionFence_settled (hk : c.kind ≠ 0x65) (hs : c.settled = true) (rank : Nat) (now : W64) :
    d.completionFence now c.ld { id := c.id, sender := { rank := rank, digest := c.digest } } =
      Dev.collEnd { c with fence := true } c.badCode c.badWho c.badChunk false
        (Dev.tellAll c.ld (c.fenceTo.map fun r => (c.members.getD r 0, FabMsg.fence c.id c.digest)) { d with colls := [{ c with fence := true }] }) := by
  have hcolls := Dev.colls_tellAll c.ld (c.fenceTo.map fun r => (c.members.getD r 0, FabMsg.fence c.id c.digest))
    { d with colls := [{ c with fence := true }] }
  refine Dev.onLive_ends hc now ?_ hcolls rfl rfl
  rw [Dev.agreed_same rfl, if_neg (by simp [hk, hs]), Dev.putColl_self hc (x := { c with fence := true }) rfl rfl]
  exact Dev.fenceCheck_ends (c := { c with fence := true }) rfl rfl hs

theorem Dev.completionFence_unsettled (hk : c.kind ≠ 0x65) (hr : c.rank ≠ c.starter) (hs : c.settled = false) (rank : Nat) (now : W64) :
    d.completionFence now c.ld { id := c.id, sender := { rank := rank, digest := c.digest } } = { d with colls := [{ c with fence := true }] } := by
  refine Dev.onLive_still hc (e := d) (x := { c with fence := true }) (m := d.mem) now ?_ rfl rfl rfl
  rw [Dev.agreed_same rfl, if_neg (by simp [hk, hr]), Dev.putColl_self hc (x := { c with fence := true }) rfl rfl]
  exact Dev.fenceCheck_waits (c := { c with fence := true }) rfl (.inr hs)

/-! ## The watchdog and COL_ABORT (R356, R359) -/

theorem Dev.collWatchdog_expired {now : W64} (h : 100000 * c.wdMs ≤ (now - c.lastMove).toNat) :
    ∃ chunk, d.collWatchdog now c.ld c.id = d.collEnd c eCollTimeout c.awaited chunk false := by
  rw [Dev.collWatchdog, Dev.coll?_self hc]
  dsimp only
  rw [if_pos h]
  exact ⟨_, rfl⟩

theorem Dev.collWatchdog_waits {now : W64} (h : (now - c.lastMove).toNat < 100000 * c.wdMs) : d.collWatchdog now c.ld c.id = d := by
  rw [Dev.collWatchdog, Dev.coll?_self hc]
  exact if_neg (Nat.not_le.mpr h)

theorem Dev.colAbort_named {v : W32} (hl : c.ld ≠ 15) (hz : fld v 31 20 = 0) (hi : BitVec.ofNat 20 (fld v 19 0) = c.id) :
    d.colAbort c.ld v = d.collEnd c eCollAborted c.rank noChunk false := by
  rw [Dev.colAbort, hi, Dev.coll?_self hc]
  simp [firstFail, hl, hz, Dev.checked]

theorem Dev.colAbort_other {v : W32} (hl : c.ld ≠ 15) (hz : fld v 31 20 = 0) (hi : BitVec.ofNat 20 (fld v 19 0) ≠ c.id) :
    d.colAbort c.ld v = d.ldErr c.ld eState := by
  rw [Dev.colAbort, Dev.coll?_other hc hi]
  simp [hl, hz]

end

/-! ## The commands -/

theorem exec_completionFence {s : State} (h : s.dev.snoops = []) (ld : Nat) (x : CollHead) :
    exec (.completionFence ld x) s = .next { s with dev := s.dev.completionFence s.now ld x } :=
  onMemAt_quiet h fun now => Dev.completionFence now ld x

theorem exec_abortNotice (ld : Nat) (x : CollHead) (code : Code) (who : Nat) (chunk : W32) (s : State) :
    exec (.abortNotice ld x code who chunk) s = .next { s with dev := s.dev.abortNotice ld x code who chunk } := rfl

theorem exec_collWatchdog (ld : Nat) (id : BitVec 20) (s : State) :
    exec (.collWatchdog ld id) s = .next { s with dev := s.dev.collWatchdog s.now ld id } := rfl

theorem exec_colAbort {ag : Agent} {ld : Nat} {s : State} (hr : reachesPage ag ld = true) (hp : s.dev.pageMode ld = .full) (v : W32) :
    exec (.colAbort ag ld v) s = .next { s with dev := s.dev.colAbort ld v } :=
  congrArg (fun d => (Host.Outcome.next { s with dev := d } : Result))
    (show Dev.pageWrite ag ld 0xA010 (Dev.colAbort ld v) s.dev = s.dev.colAbort ld v by rw [Dev.pageWrite, if_pos hr, hp])

end Sys2Proof.Machine
end

section
/-! SUPPORT. Reservations of Rake slots: the zero fill of an ended one (R345), and the grant of a PENDING one with the slots that
it binds (R340, R342). -/

namespace Sys2Proof.Machine

/-! ## The zero fill (R345) -/

/-- A write of whole codewords of SRAM reads none first. -/
theorem Dev.mem_cover_sram (d : Dev) (req : Nat) {a n : Nat} (ha : sramBase ≤ a) (h8 : a % 8 = 0) (hn : n % 8 = 0) :
    (d.cover req a n).mem = d.mem := by
  have hcw : ∀ x, sramBase ≤ x → cwBytes x = 8 := fun x hx => by
    have hs : sramBase = 0x80000000000 := rfl
    have hl : lpBase = 0x40000000000 := rfl
    rw [cwBytes, if_neg (by omega), if_neg (by omega)]
  have hnote : (d.note req a n).mem = d.mem := by
    unfold Dev.note
    split <;> rfl
  unfold Dev.cover
  split
  · rfl
  · next h0 =>
    have hfirst : cwOf a = a := by rw [cwOf, hcw a ha]; omega
    have hlast : cwOf (a + n - 1) = a + n - 8 := by rw [cwOf, hcw _ (by omega)]; omega
    have hw : ∀ x, sramBase ≤ x → a ≤ x → x + 8 ≤ a + n → (decide (a ≤ x) && decide (x + cwBytes x ≤ a + n)) = true := fun x hx h1 h2 => by
      rw [hcw x hx]
      simp [h1, h2]
    have h1 := hw a ha le_rfl (by omega)
    have h2 := hw (a + n - 8) (by omega) (by omega) (by omega)
    rw [Dev.seal, if_pos (Dev.foreign_sram _ ha n), hfirst, hlast]
    dsimp only
    rw [if_pos h1, if_pos (by rw [h2]; rfl)]
    exact hnote

theorem Dev.byte_zeroRange_sram (d : Dev) (req : Nat) {a n : Nat} (ha : sramBase ≤ a) (h8 : a % 8 = 0) (hn : n % 8 = 0) (x : Nat) :
    (d.zeroRange req a n).byte x = if a ≤ x ∧ x < a + n then 0 else d.byte x := by
  change Mem.read memDefault (Mem.clear (d.cover req a n).mem a (a + n)) x = _
  rw [Dev.mem_cover_sram d req ha h8 hn, Mem.read_clear]
  rfl

theorem sramBase_le_rakeAddr (iod p : Nat) : sramBase ≤ rakeAddr iod p := by
  have hs : sramBase = 0x80000000000 := rfl
  have hi : iodBase = 0x80200000000 := rfl
  rw [rakeAddr]
  omega

theorem rakeAddr_mod_eight (iod p : Nat) : rakeAddr iod p % 8 = 0 := by
  have hi : iodBase = 0x80200000000 := rfl
  have hw : iodWindow = 0x4000000 := rfl
  rw [rakeAddr, hi, hw]
  omega

theorem Dev.byte_rakeZeroes (req iod : Nat) (ps : List Nat) (d : Dev) (a : Nat) :
    (ps.foldl (fun d x => Dev.zeroRange req (rakeAddr iod x) 3072 d) d).byte a =
      if ∃ p ∈ ps, rakeAddr iod p ≤ a ∧ a < rakeAddr iod p + 3072 then 0 else d.byte a := by
  induction ps generalizing d with
  | nil => simp
  | cons p ps ih =>
    rw [List.foldl_cons, ih, Dev.byte_zeroRange_sram d req (sramBase_le_rakeAddr iod p) (rakeAddr_mod_eight iod p) (by decide)]
    by_cases h1 : ∃ q ∈ ps, rakeAddr iod q ≤ a ∧ a < rakeAddr iod q + 3072
    · rw [if_pos h1, if_pos (h1.imp fun q hq => ⟨List.mem_cons_of_mem _ hq.1, hq.2⟩)]
    · rw [if_neg h1]
      refine if_congr ⟨fun h => ⟨p, List.mem_cons_self, h⟩, ?_⟩ rfl rfl
      rintro ⟨q, hq, h⟩
      obtain rfl | hq := List.mem_cons.mp hq
      · exact h
      · exact absurd ⟨q, hq, h⟩ h1

theorem Dev.memFrame_rakeZeroes (req iod : Nat) (ps : List Nat) (d : Dev) :
    d.memFrame (ps.foldl (fun d x => Dev.zeroRange req (rakeAddr iod x) 3072 d) d) :=
  List.foldlRecOn ps _ (motive := fun x => d.memFrame x) d.memFrame_refl fun x hx _ _ => Dev.memFrame_trans hx (x.memFrame_zeroRange ..)

/-- What memory may change of a device with other zero fills, it may change of the device itself. -/
theorem Dev.memFrame_zeroing {d d' : Dev} {zs : List Zeroing} (h : Dev.memFrame { d with zeroing := zs } d') :
    d.memFrame { d' with zeroing := d.zeroing } ∧ d'.zeroing = zs := by
  obtain ⟨h1, h2, h3⟩ := h
  refine ⟨⟨?_, h2, h3⟩, ?_⟩
  · rw [h1]
  · rw [h1]

theorem Dev.rakeZeroed_first {d : Dev} {z : Zeroing} {rest : List Zeroing} (h : d.zeroing = z :: rest) :
    d.rakeZeroed z.iod z.ld z.coll =
      z.phys.foldl (fun d x => Dev.zeroRange reqRake (rakeAddr z.iod x) 3072 d) { d with zeroing := rest } := by
  simp [Dev.rakeZeroed, h]

theorem exec_rakeSlotZeroFillComplete (iod ld : Nat) (id : BitVec 20) (s : State) :
    exec (.rakeSlotZeroFillComplete iod ld id) s = .next { s with dev := s.dev.rakeZeroed iod ld id } := rfl

/-! ## The chunks of a granted reservation (R340, R342) -/

/-- Of numbers without repeats, the first that is not among the first j is the next one. -/
theorem find?_not_mem_take {l : List Nat} (h : l.Nodup) (j : Nat) : (l.find? fun p => !(l.take j).contains p) = l[j]? := by
  have key : ((l.take j ++ l.drop j).find? fun p => !(l.take j).contains p) = l[j]? := by
    rw [List.find?_append, List.find?_eq_none.mpr (by simp), Option.none_or, ← List.head?_drop]
    cases hd : l.drop j with
    | nil => rfl
    | cons p ps =>
      have hp : p ∉ l.take j := fun hm => List.disjoint_take_drop h le_rfl hm (hd ▸ List.mem_cons_self)
      rw [List.find?_cons_of_pos (by simpa using hp)]
      rfl
  rwa [List.take_append_drop] at key

/-- The first slot of a reservation that no chunk has. -/
def Coll.idle (c : Coll) : Option Nat := c.phys.find? fun p => !c.slots.any fun s => s.phys == p

section
variable {d : Dev} {c : Coll} (hc : d.colls = [c])
include hc

theorem Dev.bind_stops (h : c.idle = none ∨ c.pick = none) (f : Nat) : d.bind (c.ld, c.id) f = d := by
  cases f with
  | zero => rfl
  | succ f =>
    have hq : d.coll? (c.ld, c.id).1 (c.ld, c.id).2 = some c := Dev.coll?_self hc
    rw [Dev.bind, hq]
    dsimp only
    split
    · next p k x hp hx =>
      obtain h | h := h
      · exact absurd (hp.symm.trans h) (by simp)
      · exact absurd (hx.symm.trans h) (by simp)
    · rfl

/-- The next chunk takes the first idle slot, and is granted to the ranks that its data come from. -/
theorem Dev.bind_next {p : Nat} (hp : c.idle = some p) (hr : c.redo = []) (hn : c.next < c.total) (f : Nat) :
    d.bind (c.ld, c.id) (f + 1) =
      ((d.holding [{ c with next := c.next + 1, slots := c.slots ++ [RakeSlot.new p c.next] }] d.mem).collSendAll c
        (((c.mine c.next).ups ++ (c.mine c.next).from_.toList).filter (· != c.rank)).eraseDups
        (.grant c.id c.next c.digest)).bind (c.ld, c.id) f := by
  have hq : d.coll? (c.ld, c.id).1 (c.ld, c.id).2 = some c := Dev.coll?_self hc
  have hk : c.pick = some (c.next, { c with next := c.next + 1 }) := by rw [Coll.pick, hr, if_pos hn]
  rw [Coll.idle] at hp
  rw [Dev.bind, hq]
  dsimp only
  rw [hp, hk]
  dsimp only
  rw [decide_eq_false (Nat.lt_irrefl c.next), if_neg Bool.false_ne_true]
  exact congrArg (fun e => Dev.bind (c.ld, c.id) f (Dev.collSendAll c _ (.grant c.id c.next c.digest) e))
    (Dev.putColl_self hc (x := { c with next := c.next + 1, slots := c.slots ++ [RakeSlot.new p c.next] }) rfl rfl)

end

/-- A collective whose first j chunks are bound to its first j slots. -/
def Coll.bound (c : Coll) (j : Nat) : Coll :=
  { c with next := j, slots := (List.range j).map fun k => RakeSlot.new (c.phys.getD k 0) k }

/-- The grants that bind chunk k: to the ranks that its data come from. -/
def Coll.asks (c : Coll) (k : Nat) : List (Nat × FabMsg) :=
  (((c.mine k).ups ++ (c.mine k).from_.toList).filter (· != c.rank)).eraseDups.map fun r => (c.members.getD r 0, .grant c.id k c.digest)

/-- The device once the first j chunks of a collective are bound. -/
def Dev.boundTo (c : Coll) (j : Nat) (d : Dev) : Dev := (d.tellAll c.ld ((List.range j).flatMap c.asks)).holding [c.bound j] d.mem

theorem Dev.boundTo_zero (d : Dev) {c : Coll} (hs : c.slots = []) (hn : c.next = 0) : d.boundTo c 0 = d.holding [c] d.mem := by
  have hb : c.bound 0 = c := by
    rw [Coll.bound, List.range_zero, List.map_nil, ← hs, ← hn]
  rw [Dev.boundTo, hb]
  rfl

/-- The slot after those of the first j chunks is idle. -/
theorem Coll.idle_bound {c : Coll} (hp : c.phys.Nodup) {j : Nat} (hj : j ≤ c.phys.length) : (c.bound j).idle = c.phys[j]? := by
  have htake : c.phys.take j = (List.range j).map fun k => c.phys.getD k 0 := by
    refine List.ext_getElem (by simp [hj]) fun i h1 h2 => ?_
    rw [List.getElem_take, List.getElem_map, List.getElem_range, List.getD_eq_getElem]
  rw [← find?_not_mem_take hp j, Coll.idle]
  refine congrArg (fun p => List.find? p c.phys) (funext fun p => ?_)
  rw [htake, Coll.bound, List.any_map, List.contains_eq_any_beq, List.any_map]
  exact congrArg (fun q => !(List.range j).any q) (funext fun k => BEq.comm)

section
variable {c : Coll} (hp : c.phys.Nodup) (hr : c.redo = []) (d : Dev)
include hp hr

theorem Dev.bind_boundTo {j : Nat} (hj : j < min c.phys.length c.total) (f : Nat) :
    (d.boundTo c j).bind (c.ld, c.id) (f + 1) = (d.boundTo c (j + 1)).bind (c.ld, c.id) f := by
  have hidle : (c.bound j).idle = some (c.phys.getD j 0) := by
    rw [Coll.idle_bound hp (by omega), List.getElem?_eq_getElem (by omega), List.getD_eq_getElem]
  refine (Dev.bind_next (c := c.bound j) rfl hidle hr (show j < c.total by omega) f).trans (congrArg (Dev.bind (c.ld, c.id) f) ?_)
  have hslots : (c.bound j).slots ++ [RakeSlot.new (c.phys.getD j 0) j] = (c.bound (j + 1)).slots := by
    simp [Coll.bound, List.range_succ]
  rw [Dev.collSendAll_eq, Dev.boundTo, Dev.boundTo, List.range_succ, List.flatMap_append, Dev.tellAll_append, List.flatMap_singleton,
    Dev.holding_holding, Dev.tellAll_holding]
  exact congrArg (fun zs => Dev.holding [{ c.bound (j + 1) with slots := zs }] d.mem _) hslots

/-- As many chunks are bound as there are chunks and slots. -/
theorem Dev.bind_all {j f : Nat} (hj : j ≤ min c.phys.length c.total) (hf : min c.phys.length c.total ≤ j + f) :
    (d.boundTo c j).bind (c.ld, c.id) f = d.boundTo c (min c.phys.length c.total) := by
  induction f generalizing j with
  | zero =>
    obtain rfl : j = min c.phys.length c.total := by omega
    rfl
  | succ f ih =>
    rcases Nat.lt_or_ge j (min c.phys.length c.total) with h | h
    · rw [Dev.bind_boundTo hp hr d h, ih (by omega) (by omega)]
    · obtain rfl : j = min c.phys.length c.total := by omega
      refine Dev.bind_stops (c := c.bound _) rfl ?_ _
      rcases Nat.le_total c.phys.length c.total with hle | hle
      · exact .inl (by rw [Coll.idle_bound hp (by omega), min_eq_left hle, List.getElem?_eq_none le_rfl])
      · refine .inr ?_
        rw [Coll.pick, show (c.bound (min c.phys.length c.total)).redo = [] from hr]
        exact if_neg (by rw [min_eq_right hle]; exact Nat.lt_irrefl _)

end

end Sys2Proof.Machine
end

section
/-! SUPPORT. The grant of a reservation (R340). -/

namespace Sys2Proof.Machine

/-! ## The commands -/

theorem exec_rakeReservationGrant {s : State} (h : s.dev.snoops = []) (ld : Nat) (id : BitVec 20) :
    exec (.rakeReservationGrant ld id) s = .next { s with dev := s.dev.rakeReserve s.now ld id } :=
  onMemAt_quiet h fun now => Dev.rakeReserve now ld id

/-! ## The reservation -/

theorem windowOf_le (ws : List W32) : windowOf ws ≤ 256 := by
  unfold windowOf wfld fld bits
  omega

/-- The slots of an I/O die that are free. -/
def Dev.rakeFree (d : Dev) (iod : Nat) : List Nat := (List.range rakeSlots).filter fun p => !(d.rakeHeld iod).contains p

/-- A collective with a reservation of the first free slots (R340). -/
def Coll.reserved (c : Coll) (free : List Nat) (now : W64) : Coll :=
  { c with granted := true, phys := free.take (windowOf c.words), lastMove := now }

theorem Coll.phys_reserved (c : Coll) (free : List Nat) (now : W64) : (c.reserved free now).phys = free.take (windowOf c.words) := rfl

/-- What a reservation and the chunks bound to it change of a collective. -/
theorem Coll.bound_reserved_frame (c : Coll) (free : List Nat) (now : W64) (j : Nat) :
    (c.reserved free now).bound j = { c with granted := true, lastMove := now, phys := free.take (windowOf c.words), next := j,
                                             slots := ((c.reserved free now).bound j).slots } := rfl

section
variable {d : Dev} {c : Coll} (hc : d.colls = [c])
include hc

theorem Dev.openGroups_stops (h : c.anchored = false ∨ c.total - c.base ≤ 256 * c.opened) (f : Nat) : d.openGroups (c.ld, c.id) f = d := by
  cases f with
  | zero => rfl
  | succ f =>
    have hq : d.coll? (c.ld, c.id).1 (c.ld, c.id).2 = some c := Dev.coll?_self hc
    rw [Dev.openGroups, hq]
    refine if_neg ?_
    obtain h | h := h
    · simp [h]
    · simp [Nat.not_lt.mpr h]

theorem Dev.rakeReserve_waits {now : W64} (h : (d.ld c.ld).rakeQuota c.iod < d.rakeUsed c.ld c.iod + windowOf c.words ∨
    (d.dom c.dom).rakeQ < d.rakeDom c.dom + windowOf c.words) : d.rakeReserve now c.ld c.id = d := by
  rw [Dev.rakeReserve, Dev.onColl_self hc]
  refine if_neg fun k => ?_
  simp only [Bool.and_eq_true, decide_eq_true_eq, Dev.domFits] at k
  omega

/-- A PENDING collective that is alone and within its quotas receives its slots. -/
theorem Dev.rakeReserve_granted {now : W64} (hg : c.granted = false) (hl : d.rakeUsed c.ld c.iod + windowOf c.words ≤ (d.ld c.ld).rakeQuota c.iod)
    (hd : d.rakeDom c.dom + windowOf c.words ≤ (d.dom c.dom).rakeQ) :
    d.rakeReserve now c.ld c.id =
      ((d.holding [c.reserved (d.rakeFree c.iod) now] d.mem).bind (c.ld, c.id) 256).openGroups (c.ld, c.id) 2 := by
  rw [Dev.rakeReserve, Dev.onColl_self hc]
  refine (if_pos ?_).trans (congrArg (fun e => Dev.openGroups (c.ld, c.id) 2 (Dev.bind (c.ld, c.id) 256 e))
    (Dev.putColl_self hc (x := c.reserved (d.rakeFree c.iod) now) rfl rfl))
  simp [hc, hg, hl, hd, Dev.domFits]

/-- It binds its slots to its first chunks. -/
theorem Dev.rakeReserve_binds {now : W64} (hg : c.granted = false) (hl : d.rakeUsed c.ld c.iod + windowOf c.words ≤ (d.ld c.ld).rakeQuota c.iod)
    (hd : d.rakeDom c.dom + windowOf c.words ≤ (d.dom c.dom).rakeQ) (hw : windowOf c.words ≤ (d.rakeFree c.iod).length)
    (hs : c.slots = []) (hr : c.redo = []) (hn : c.next = 0) (ha : c.anchored = false) :
    d.rakeReserve now c.ld c.id = d.boundTo (c.reserved (d.rakeFree c.iod) now) (min (windowOf c.words) c.total) := by
  have hlen : (c.reserved (d.rakeFree c.iod) now).phys.length = windowOf c.words := by
    rw [Coll.phys_reserved, List.length_take_of_le hw]
  have hnd : (c.reserved (d.rakeFree c.iod) now).phys.Nodup := by
    rw [Coll.phys_reserved]
    exact (List.nodup_range.filter _).sublist (List.take_sublist _ _)
  have hbind := Dev.bind_all hnd hr d (j := 0) (f := 256) (Nat.zero_le _) (by have := windowOf_le c.words; omega)
  rw [hlen] at hbind
  rw [Dev.rakeReserve_granted hc hg hl hd, ← Dev.boundTo_zero d (c := c.reserved (d.rakeFree c.iod) now) hs hn]
  refine (congrArg (Dev.openGroups (c.ld, c.id) 2) hbind).trans ?_
  exact Dev.openGroups_stops (c := (c.reserved (d.rakeFree c.iod) now).bound (min (windowOf c.words) c.total)) rfl (.inl ha) 2

end

/-- The slots of a granted reservation are the first free ones. -/
theorem Coll.slots_bound_reserved (c : Coll) (free : List Nat) (now : W64) :
    ((c.reserved free now).bound (min (windowOf c.words) c.total)).slots =
      (List.range (min (windowOf c.words) c.total)).map fun k => RakeSlot.new (free.getD k 0) k := by
  refine List.map_congr_left fun k hk => ?_
  have hk : k < windowOf c.words := by
    have := List.mem_range.mp hk
    omega
  rw [Coll.reserved, List.getD_eq_getElem?_getD, List.getElem?_take_of_lt hk, List.getD_eq_getElem?_getD]

/-- RAKE_RESERVATION_GRANT (R340, R342): the slots, the chunks that are bound to them and the grants. -/
theorem rakeReservationGrant_facts {s : State} {c : Coll} (hsn : s.dev.snoops = []) (hc : s.dev.colls = [c]) (hg : c.granted = false)
    (hl : s.dev.rakeUsed c.ld c.iod + windowOf c.words ≤ (s.dev.ld c.ld).rakeQuota c.iod)
    (hd : s.dev.rakeDom c.dom + windowOf c.words ≤ (s.dev.dom c.dom).rakeQ) (hw : windowOf c.words ≤ (s.dev.rakeFree c.iod).length)
    (hs : c.slots = []) (hr : c.redo = []) (hn : c.next = 0) (ha : c.anchored = false) :
    ∃ t x, exec (.rakeReservationGrant c.ld c.id) s = .next t ∧
      t = { s with dev := { s.dev with colls := [x], out := t.dev.out, ports := t.dev.ports, net := t.dev.net } } ∧
      x = { c with granted := true, lastMove := s.now, phys := (s.dev.rakeFree c.iod).take (windowOf c.words),
                   next := min (windowOf c.words) c.total, slots := x.slots } ∧
      x.slots = (List.range (min (windowOf c.words) c.total)).map (fun k => RakeSlot.new ((s.dev.rakeFree c.iod).getD k 0) k) ∧
      s.dev.toldAll t.dev c.ld ((List.range (min (windowOf c.words) c.total)).flatMap c.asks) := by
  refine ⟨_, (c.reserved (s.dev.rakeFree c.iod) s.now).bound (min (windowOf c.words) c.total), exec_rakeReservationGrant hsn c.ld c.id, ?_,
    Coll.bound_reserved_frame ..,
    Coll.slots_bound_reserved .., ?_⟩
  all_goals rw [Dev.rakeReserve_binds hc hg hl hd hw hs hr hn ha]
  · exact congrArg (fun d => ({ s with dev := d } : State)) (Dev.holding_frame ..)
  · exact Dev.toldAll_holding ..

end Sys2Proof.Machine
end

section
/-! SUPPORT. Grants and agreed anchors at a Rake (R342, R350). -/

namespace Sys2Proof.Machine

theorem exec_rakeGrant {s : State} (h : s.dev.snoops = []) (ld : Nat) (id : BitVec 20) (k : Nat) (x : Sender) :
    exec (.rakeGrant ld id k x) s = .next { s with dev := s.dev.rakeGrant s.now (ld, id) k x } :=
  onMemAt_quiet h fun now => Dev.rakeGrant now (ld, id) k x

theorem exec_anchorArrive {s : State} (h : s.dev.snoops = []) (ld : Nat) (id : BitVec 20) (rank g : Nat) (a : List Byte) (digest : W32) :
    exec (.anchorArrive ld id rank g a digest) s = .next { s with dev := s.dev.anchorArrive s.now (ld, id) rank g a digest } :=
  onMemAt_quiet h fun now => Dev.anchorArrive now (ld, id) rank g a digest

theorem Coll.slot?_one {c : Coll} {z : RakeSlot} (h : c.slots = [z]) : c.slot? z.chunk = some z := by simp [Coll.slot?, h]

/-- A slot that has granted its result to one more rank. -/
def RakeSlot.gives (z : RakeSlot) (rank : Nat) : RakeSlot := { z with given := z.given ++ [rank] }

/-- A collective with one more grant held. -/
def Coll.granting (c : Coll) (k rank : Nat) : Coll := { c with grants := (k, rank) :: c.grants }

section
variable {d : Dev} {c : Coll} (hc : d.colls = [c])
include hc

theorem Dev.rakeGrant_mismatch {x : Sender} (hr : x.rank ≠ c.rank) (hx : x.digest ≠ c.digest) (k : Nat) (now : W64) :
    d.rakeGrant now (c.ld, c.id) k x = d.collEnd c eCollMismatch x.rank noChunk false :=
  Dev.onLive_ends hc now (Dev.agreed_mismatch hr hx ..) hc rfl rfl

theorem Dev.chunkAck_mismatch {x : Sender} (hr : x.rank ≠ c.rank) (hx : x.digest ≠ c.digest) (k : Nat) (now : W64) :
    d.chunkAck now (c.ld, c.id) k x = d.collEnd c eCollMismatch x.rank noChunk false :=
  Dev.onLive_ends hc now (Dev.agreed_mismatch hr hx ..) hc rfl rfl

/-! ## Grants of another member (R342) -/

/-- A grant of another member that leaves the marks is what `grantFrom` makes of it. -/
theorem Dev.rakeGrant_other {k rank : Nat} {e : Dev} {x : Coll} {m : Mem} (h1 : c.kind ≠ 0x65) (h2 : c.kind ≠ 0x67) (hr : rank ≠ c.rank)
    (now : W64) (h : d.grantFrom (c.ld, c.id) c k rank = e.holding [x] m) (hl : x.ld = c.ld) (hi : x.id = c.id) (hm : x.marks = c.marks) :
    d.rakeGrant now (c.ld, c.id) k { rank := rank, digest := c.digest } = e.holding [x] m := by
  refine Dev.onLive_still hc now ?_ hl hi hm
  rw [Dev.agreed_same rfl, if_neg h1, if_neg h2, if_pos hr, h]

/-- A grant for a chunk that no slot has is held. -/
theorem Dev.grantFrom_unbound {k rank : Nat} (hg : (k, rank) ∉ c.grants) (hs : c.slot? k = none)
    (hb : ¬((c.mine k).to_ = some rank ∧ k < c.next ∧ k ∉ c.redo)) :
    d.grantFrom (c.ld, c.id) c k rank = d.holding [c.granting k rank] d.mem := by
  rw [Dev.grantFrom, hs]
  dsimp only
  rw [if_neg (by simpa using hb), if_neg (by simpa using hg)]
  exact Dev.putColl_self hc (x := c.granting k rank) rfl rfl

theorem Dev.trySend_sent {k : Nat} {z : RakeSlot} (hz : c.slot? k = some z) (h : z.sent = true) : d.trySend (c.ld, c.id) k = d := by
  rw [Dev.trySend, Dev.onSlot_self hc hz]
  dsimp only
  split
  · rfl
  · exact if_neg (by simp [h])

/-- A serving slot sends its result to a branch that has granted it. -/
theorem Dev.sendDown_one (hq : d.quiet) {rank : Nat} {z : RakeSlot} (hz : c.slots = [z]) (hst : z.st = .serving) (hgiven : rank ∉ z.given)
    (hwait : rank ∈ z.wait) (hgrant : (z.chunk, rank) ∈ c.grants) :
    d.sendDown (c.ld, c.id) z.chunk [rank] =
      (d.tellAll c.ld [(c.members.getD rank 0, .result c.id z.chunk (c.resultMsg z (d.bytes (rakeAddr c.iod z.phys) 3072)))]).holding
        [{ c with slots := [z.gives rank] }] d.mem := by
  have hcoll : d.coll? (c.ld, c.id).1 (c.ld, c.id).2 = some c := Dev.coll?_self hc
  rw [Dev.sendDown, hcoll]
  dsimp only
  rw [Coll.slot?_one hz]
  dsimp only
  rw [if_pos (by simp [hst, hgiven, hwait, hgrant]), Dev.slotBytes, Dev.readBytes_quiet hq]
  dsimp only
  refine (congrArg (fun e => Dev.collSend c rank (.result c.id z.chunk (c.resultMsg z (d.bytes (rakeAddr c.iod z.phys) 3072))) e)
    (Dev.putSlot_self hc (z' := z.gives rank) c rfl rfl hz rfl)).trans ?_
  exact Dev.tell_holding ..

/-- A grant for a result that is here is served at once. -/
theorem Dev.grantFrom_serving (hq : d.quiet) {rank : Nat} {z : RakeSlot} (hz : c.slots = [z]) (hst : z.st = .serving) (hsent : z.sent = true)
    (hwait : rank ∈ z.wait) (hgiven : rank ∉ z.given) (hg : (z.chunk, rank) ∉ c.grants) :
    d.grantFrom (c.ld, c.id) c z.chunk rank =
      (d.tellAll c.ld [(c.members.getD rank 0, .result c.id z.chunk (c.resultMsg z (d.bytes (rakeAddr c.iod z.phys) 3072)))]).holding
        [{ c.granting z.chunk rank with slots := [z.gives rank] }] d.mem := by
  have hput := Dev.putColl_self hc (x := c.granting z.chunk rank) rfl rfl
  have htry := Dev.trySend_sent (d := d.holding [c.granting z.chunk rank] d.mem) (c := c.granting z.chunk rank) rfl (Coll.slot?_one hz) hsent
  have hsend := Dev.sendDown_one (d := d.holding [c.granting z.chunk rank] d.mem) (c := c.granting z.chunk rank) rfl
    (Dev.quiet_holding hq _ _) hz hst hgiven hwait List.mem_cons_self
  rw [Dev.tellAll_holding] at hsend
  rw [Dev.grantFrom, Coll.slot?_one hz]
  dsimp only
  rw [if_neg (by simpa using hgiven), if_pos (by simpa using hg), if_neg (by simpa using hg)]
  refine (congrArg (fun e => Dev.sendDown (c.ld, c.id) z.chunk [rank] (Dev.trySend (c.ld, c.id) z.chunk e)) hput).trans ?_
  refine (congrArg (Dev.sendDown (c.ld, c.id) z.chunk [rank]) htry).trans (hsend.trans ?_)
  rfl

end

end Sys2Proof.Machine
end

section
/-! SUPPORT. Agreed anchors at a Rake (R350): held in the directory and passed on to the children. -/

namespace Sys2Proof.Machine

theorem Map.find_foldl_set_other {α : Type} (f : Nat → α) (l : List Nat) {m : Map α} {j : Nat} (h : j ∉ l) :
    Map.find (l.foldl (fun m k => Map.set m k (f k)) m) j = Map.find m j := by
  induction l generalizing m with
  | nil => rfl
  | cons k l ih =>
    obtain ⟨hk, hl⟩ : j ≠ k ∧ j ∉ l := by simpa using h
    rw [List.foldl_cons, ih hl, Map.find_set_other m _ hk]

theorem Map.find_foldl_set_mem {α : Type} (f : Nat → α) (l : List Nat) {m : Map α} {j : Nat} (h : j ∈ l) :
    Map.find (l.foldl (fun m k => Map.set m k (f k)) m) j = some (f j) := by
  induction l generalizing m with
  | nil => cases h
  | cons k l ih =>
    rw [List.foldl_cons]
    by_cases hl : j ∈ l
    · exact ih hl
    · obtain rfl := (List.mem_cons.mp h).resolve_right hl
      rw [Map.find_foldl_set_other f l hl, Map.find_set_same]

/-- A collective with the anchors of a group in its directory. -/
def Coll.agreeing (c : Coll) (g : Nat) (a : List Byte) : Coll :=
  { c with dir := (c.groupOf g).foldl (fun m k => Map.set m k (a.getD (k - c.base - 256 * g) 0).toNat) c.dir, agreed := c.agreed + 1,
           heard := c.heard.filter fun h => h.1 != g }

theorem Coll.anchored_kind {c : Coll} (h : c.anchored = true) : c.pred = false ∧ c.kind ≠ 0x63 ∧ c.kind ≠ 0x64 := by
  simp only [Coll.anchored, Coll.sums, Bool.and_eq_true, Bool.not_eq_true'] at h
  obtain ⟨⟨hs, hp⟩, -⟩ := h
  refine ⟨hp, fun k => ?_, fun k => ?_⟩ <;> simp [k] at hs

/-- In a tree a summed chunk is contributed to by the member itself and its children. -/
theorem Coll.ups_tree {c : Coll} (hr : c.ring = false) (h3 : c.kind ≠ 0x63) (h4 : c.kind ≠ 0x64) (k : Nat) :
    (c.mine k).ups = c.rank :: c.children c.rank := by
  simp only [Coll.mine, Coll.role, hr, Bool.false_eq_true, if_false, h3, h4]
  split <;> rfl

section
variable {d : Dev} {c : Coll} (hc : d.colls = [c])
include hc

theorem Dev.anchorArrive_mismatch {digest : W32} (hd : digest ≠ c.digest) (rank g : Nat) (a : List Byte) (now : W64) :
    d.anchorArrive now (c.ld, c.id) rank g a digest = d.collEnd c eCollMismatch rank noChunk false :=
  Dev.onLive_ends hc now (if_pos hd) hc rfl rfl

theorem Dev.agree_tree (hr : c.ring = false) (g : Nat) (a : List Byte) :
    d.agree (c.ld, c.id) g a =
      (d.tellAll c.ld ((c.children c.rank).map fun p => (c.members.getD p 0, .anchors c.id g a c.digest))).holding [c.agreeing g a] d.mem := by
  rw [Dev.agree, Dev.onColl_self hc]
  dsimp only
  rw [hr, if_neg Bool.false_ne_true, Dev.collSendAll_eq]
  exact (congrArg (Dev.tellAll c.ld _) (Dev.putColl_self hc (x := c.agreeing g a) rfl rfl)).trans (Dev.tellAll_holding ..)

/-- Anchors from the parent are agreed, once. -/
theorem Dev.anchorArrive_agreed {rank g : Nat} (a : List Byte) (hr : c.ring = false) (hp : c.parent c.rank = some rank)
    (hk : rank ∉ c.children c.rank) (hne : rank ≠ c.rank) (ha : c.anchored = true) (hg : c.groupOf g ≠ [])
    (hd : Map.find c.dir (c.base + 256 * g) = none) (ho : c.total - c.base ≤ 256 * c.opened) (now : W64) :
    d.anchorArrive now (c.ld, c.id) rank g a c.digest =
      (d.tellAll c.ld ((c.children c.rank).map fun p => (c.members.getD p 0, .anchors c.id g a c.digest))).holding
        [{ c.agreeing g a with lastMove := now }] d.mem := by
  obtain ⟨hpred, h3, h4⟩ := Coll.anchored_kind ha
  refine Dev.onLive_moved hc (x := c.agreeing g a) now ?_ rfl rfl fun h => Nat.succ_ne_self c.agreed (congrArg CollMarks.agreed h)
  dsimp only
  rw [if_neg (not_not.mpr rfl), hpred, if_neg Bool.false_ne_true, if_neg (by simp [ha, hg]),
    if_neg (by simp [Coll.ups_tree hr h3 h4, hne, hk]), if_pos (by simp [hr, hp, hd]), Dev.agree_tree hc hr]
  exact Dev.openGroups_stops (c := c.agreeing g a) rfl (.inr ho) 2

end

end Sys2Proof.Machine
end

section
/-! SUPPORT. Contributions at a Rake: the check of the trailer (R336, R360), and what an added chunk does with its slot (R98 to
R100, R339, R352). -/

namespace Sys2Proof.Machine

theorem exec_contributionArrive {s : State} (h : s.dev.snoops = []) (ld : Nat) (id : BitVec 20) (k rank : Nat) (m : ChunkMsg) :
    exec (.contributionArrive ld id k rank m) s = .next { s with dev := s.dev.contributionArrive s.now (ld, id) k rank m } :=
  onMemAt_quiet h fun now => Dev.contributionArrive now (ld, id) k rank m

/-! ## The trailer (R336, R360) -/

section
variable {c : Coll} {k rank : Nat} {m : ChunkMsg} (f : Coll → Dev → Dev) (d : Dev)

theorem Dev.verified_mismatch (h : m.digest ≠ c.digest) :
    d.verified c k rank m f = d.collEnd c eCollMismatch rank (BitVec.ofNat 32 k) false := if_pos h

theorem Dev.verified_intact (h : m.digest = c.digest) (hcrc : m.crc = chunkCrc c.id k m) (hr : c.retries = []) :
    d.verified c k rank m f = f c d := by
  have hc : ({ c with retries := c.retries.filter fun x => !(x.1 == k && x.2.1 == rank) } : Coll) = c := by
    rw [hr, List.filter_nil, ← hr]
  rw [Dev.verified]
  dsimp only
  rw [if_neg (not_not.mpr h), if_pos hcrc, hc]

/-- The LD has counted a chunk with a wrong CRC. -/
def Ld.crcCounted (l : Ld) : Ld := ({ l with col := { l.col with crcRetry := sat16 l.col.crcRetry } }).setColEvt 3

/-- A chunk with a wrong CRC, the first time: it is counted and asked for again. -/
theorem Dev.verified_again (h : m.digest = c.digest) (hcrc : m.crc ≠ chunkCrc c.id k m) (hr : c.retries = []) :
    d.verified c k rank m f = ((d.modLd c.ld Ld.crcCounted).putColl { c with retries := [(k, rank, 1)] }).collSend c rank
      (.again c.id k c.digest) := by
  rw [Dev.verified]
  dsimp only
  rw [if_neg (not_not.mpr h), if_neg hcrc, hr, if_neg (by simp)]
  rfl

end

/-! ## A chunk is added to a slot that waits for others -/

/-- The element-wise sum of two chunks in AX96 (R99). -/
def axSum (x y : List Byte) : List Byte := ((axElems x).zip (axElems y)).flatMap fun p => toBytes 12 (p.1 + p.2).toNat

/-- A slot that has heard one more rank, at an anchor. -/
def RakeSlot.hears (z : RakeSlot) (rank anchor : Nat) : RakeSlot :=
  { z with got := z.got ++ [rank], trueAnchor := max z.trueAnchor anchor }

theorem RakeSlot.hears_gathering {z : RakeSlot} (hst : z.st = .gathering) (hhas : z.has = true) (hp : z.poison = none) (he : z.excess = none)
    (rank anchor : Nat) : z.hears rank anchor = { z with
      st := .gathering, has := true, poison := none, excess := none, got := z.got ++ [rank], trueAnchor := max z.trueAnchor anchor } := by
  obtain ⟨⟩ := z
  cases hst
  cases hhas
  cases hp
  cases he
  rfl

section
variable {d : Dev} {c : Coll} (hc : d.colls = [c])
include hc

theorem Dev.complete_waits {z : RakeSlot} (hz : c.slots = [z]) (h : ∃ p ∈ (c.mine z.chunk).ups, p ∉ z.got) :
    d.complete (c.ld, c.id) z.chunk = d := by
  obtain ⟨p, hp, hg⟩ := h
  rw [Dev.complete, Dev.onSlot_self hc (Coll.slot?_one hz)]
  refine if_neg fun hall => hg ?_
  simpa using List.all_eq_true.mp hall p hp

/-- A slot that still waits for a rank keeps what has been added. -/
theorem Dev.putSlot_complete {z y : RakeSlot} (hz : c.slots = [z]) (hy : z.chunk = y.chunk) (h : ∃ p ∈ (c.mine z.chunk).ups, p ∉ y.got) :
    (d.putSlot c y).complete (c.ld, c.id) z.chunk = d.holding [{ c with slots := [y] }] d.mem := by
  rw [Dev.putSlot_self hc c rfl rfl hz hy, hy]
  exact Dev.complete_waits (c := { c with slots := [y] }) rfl rfl (hy ▸ h)

/-- A chunk of a sum meets a slot that holds a sum: another anchor or a value beyond the headroom ends the collective, one of
weight 0 is absent, and any other is added. -/
theorem Dev.slotAdd_sum (hq : d.quiet) {z : RakeSlot} {rank : Nat} {m : ChunkMsg} (hz : c.slots = [z]) (hk : c.kind ≤ 0x62) (hop : c.redOp = 0)
    (hp : c.predicted z.chunk = false) (hst : z.st = .gathering) (hhas : z.has = true) (hzp : z.poison = none) (hze : z.excess = none)
    (hm : m.poisoned = none) :
    d.slotAdd (c.ld, c.id) z.chunk rank (some m) =
      (if ((c.anchorOf d z.chunk).or (some z.anchor)).any (· != m.anchor.toNat) = true then
        d.collEnd c eCollMismatch rank (BitVec.ofNat 32 z.chunk) false
      else if m.weight = 0 then (d.putSlot c (z.hears rank m.anchor.toNat)).complete (c.ld, c.id) z.chunk
      else if ¬((axElems m.data).all (fun v => axInRange v m.weight) = true ∧ z.weight + m.weight ≤ 2 ^ 24) then
        d.collEnd c eAx96Headroom rank (BitVec.ofNat 32 z.chunk) false
      else
        ((d.slotWrite c z (axSum (d.bytes (rakeAddr c.iod z.phys) 3072) m.data)).putSlot c
          { z.hears rank m.anchor.toNat with anchor := m.anchor.toNat, weight := z.weight + m.weight }).complete (c.ld, c.id) z.chunk) := by
  have hsums : c.sums z.chunk = true := by simp [Coll.sums, hop, hk, show c.kind ≠ 0x66 by omega]
  have hext : c.extreme z.chunk = false := by simp [Coll.extreme, hop, show c.kind ≠ 0x66 by omega]
  generalize hold : d.bytes (rakeAddr c.iod z.phys) 3072 = old
  have hslot : ∀ s : RakeSlot, s.phys = z.phys → d.slotBytes c s = (d, some old) := fun s hs => by
    rw [Dev.slotBytes, Dev.readBytes_quiet hq, hs, hold]
  rw [Dev.slotAdd, Dev.onSlot_self hc (Coll.slot?_one hz), RakeSlot.hears_gathering hst hhas hzp hze]
  dsimp only
  rw [hst, if_neg (show ¬SlotState.gathering = .reforming by decide), hext, if_neg Bool.false_ne_true]
  dsimp only
  rw [hsums, hp, hm, hhas, hzp, hze]
  have hkey : (if false = true ∨ (none : Option Nat).isSome = true then m.pred.toNat else m.anchor.toNat) = m.anchor.toNat := rfl
  rw [hkey]
  refine ite_congr rfl (fun _ => rfl) fun _ => ?_
  refine ite_congr (by simp) (fun _ => rfl) fun _ => ?_
  rw [if_pos rfl]
  refine ite_congr (by simp [imp_iff_or_not, or_comm]) (fun _ => rfl) fun hfit => ?_
  rw [if_pos rfl, hslot]
  · dsimp only
    rw [if_pos (by simpa using hfit)]
    rfl
  · rfl
end

end Sys2Proof.Machine
end

section
/-! SUPPORT. What a contribution does at a Rake (R98 to R100, R336, R343, R352, R360). -/

namespace Sys2Proof.Machine

/-! ## Sums in AX96 (R99) -/

theorem axSum_eq (x y : List Byte) : axSum x y =
    (List.range 256).flatMap fun i => toBytes 12 (BitVec.ofNat 96 (num x (12 * i) 12) + BitVec.ofNat 96 (num y (12 * i) 12)).toNat := by
  rw [axSum, axElems, axElems, List.zip_map', List.flatMap_map]

theorem length_axSum (x y : List Byte) : (axSum x y).length = 3072 := by
  rw [axSum_eq, length_flatMap_range (L := 12) fun _ => length_toBytes ..]

theorem slice_axSum (x y : List Byte) : slice (axSum x y) 0 3072 = axSum x y := by
  have h := slice_self (axSum x y)
  rwa [length_axSum] at h

/-- Element i of a sum is the sum of the elements i, modulo 2^96. -/
theorem num_axSum (x y : List Byte) {i : Nat} (hi : i < 256) :
    num (slice (axSum x y) (12 * i) 12) 0 12 = (num x (12 * i) 12 + num y (12 * i) 12) % 2 ^ 96 := by
  have hs := slice_flatMap_range (n := 256) (L := 12) (o := 0) (k := 12)
    (f := fun i => toBytes 12 (BitVec.ofNat 96 (num x (12 * i) 12) + BitVec.ofNat 96 (num y (12 * i) 12)).toNat)
    (fun _ => length_toBytes ..) hi (by omega)
  have ht := slice_self (toBytes 12 (BitVec.ofNat 96 (num x (12 * i) 12) + BitVec.ofNat 96 (num y (12 * i) 12)).toNat)
  rw [length_toBytes] at ht
  rw [axSum_eq, ← Nat.add_zero (12 * i), hs, Nat.add_zero, ht, num_toBytes, BitVec.toNat_add, BitVec.toNat_ofNat, BitVec.toNat_ofNat]
  omega

theorem slice_readN (m : Mem) (a : Nat) {o k n : Nat} (h : o + k ≤ n) : slice (Mem.readN memDefault m a n) o k = Mem.readN memDefault m (a + o) k := by
  refine List.map_congr_left fun i hi => ?_
  have hi := List.mem_range.mp hi
  rw [List.getD_eq_getElem _ _ (by rw [Mem.length_readN]; omega)]
  simp [Mem.readN, Nat.add_assoc]

theorem slice_slice_self (bs : List Byte) (o k : Nat) : slice (slice bs o k) 0 k = slice bs o k := by
  have h := slice_self (slice bs o k)
  rwa [length_slice] at h

/-! ## Slots in quiet memory -/

theorem Coll.anchorOf_tellAll (c : Coll) {d : Dev} (h : d.quiet) (ld : Nat) (ms : List (Nat × FabMsg)) (k : Nat) :
    c.anchorOf (d.tellAll ld ms) k = c.anchorOf d k := by
  rw [Coll.anchorOf, Coll.anchorOf, Coll.tableAnchor, Coll.tableAnchor, Dev.bytes_tellAll h]

theorem Dev.slotWrite_quiet {d : Dev} {c : Coll} (hc : d.colls = [c]) (h : d.quiet) (x : Coll) (z : RakeSlot) (bs : List Byte) :
    d.slotWrite x z bs = d.holding [c] (Mem.writeN memDefault d.mem (rakeAddr x.iod z.phys) (slice bs 0 3072)) := by
  rw [Dev.slotWrite, Dev.writeBytes_quiet h, Dev.holding, ← hc]

/-- The anchor that a sum is formed at, agreed or its slot's, is that of a chunk. -/
theorem Coll.anchors_agree {c : Coll} {d : Dev} {z : RakeSlot} {a : Nat} (ha : ∀ b, c.anchorOf d z.chunk = some b → b = a) (hza : z.anchor = a) :
    ((c.anchorOf d z.chunk).or (some z.anchor)).any (· != a) = false := by
  cases h : c.anchorOf d z.chunk with
  | none => simp [hza]
  | some b => simp [ha b h]

/-- What a slot that still waits for a rank is given, beside what has been written and sent. -/
theorem Dev.complete_holding (d : Dev) (ld : Nat) (ms : List (Nat × FabMsg)) {c : Coll} {z y : RakeSlot} (hz : c.slots = [z])
    (hy : z.chunk = y.chunk) (h : ∃ p ∈ (c.mine z.chunk).ups, p ∉ y.got) (m : Mem) :
    (Dev.putSlot c y ((d.tellAll ld ms).holding [c] m)).complete (c.ld, c.id) z.chunk = (d.tellAll ld ms).holding [{ c with slots := [y] }] m :=
  Dev.putSlot_complete (d := (d.tellAll ld ms).holding [c] m) rfl hz hy h

/-- A slot that hears one of two ranks that it waits for still waits for the other. -/
theorem RakeSlot.hears_waits {z : RakeSlot} {l : List Nat} {rank : Nat} (h : ∃ p ∈ l, p ≠ rank ∧ p ∉ z.got) (anchor : Nat) :
    ∃ p ∈ l, p ∉ (z.hears rank anchor).got := by
  obtain ⟨p, hp, hne, hg⟩ := h
  exact ⟨p, hp, by simp [RakeSlot.hears, hne, hg]⟩

/-- A collective whose slot has heard another rank has moved on (R356). -/
theorem Coll.marks_ne_of_got {x c : Coll} {y z : RakeSlot} (hz : c.slots = [z]) (hy : x.slots = [y]) (h : y.got ≠ z.got) : x.marks ≠ c.marks :=
  fun hm => h (by simpa [Coll.marks, hz, hy] using congrArg (fun v : CollMarks => v.slots.map fun s => s.2.2.1) hm)

/-! ## The arrival of a contribution -/

section
variable {d : Dev} {c : Coll} (hc : d.colls = [c]) {z : RakeSlot} (hz : c.slots = [z]) (hk : c.kind ≤ 0x62) {rank : Nat}
  (hup : rank ∈ (c.mine z.chunk).ups) (hne : rank ≠ c.rank) (hgot : rank ∉ z.got) (hst : z.st = .gathering) {m : ChunkMsg}
include hc hz hk hup hne hgot hst

/-- A contribution that a slot waits for is checked, acknowledged and added. -/
theorem Dev.contributionArrive_awaited (now : W64) :
    d.contributionArrive now (c.ld, c.id) z.chunk rank m = d.onLive now (c.ld, c.id) fun c' d => d.verified c' z.chunk rank m fun x d =>
      ((d.putColl x).collSend x rank (.ack x.id z.chunk x.digest)).slotAdd (c.ld, c.id) z.chunk rank (some m) := by
  refine Dev.onLive_congr hc now ?_
  rw [if_neg (by omega), Coll.slot?_one hz]
  dsimp only
  rw [if_pos (by simp [hup, hne, hgot, RakeSlot.open_, hst])]

theorem Dev.contributionArrive_mismatch (h : m.digest ≠ c.digest) (now : W64) :
    d.contributionArrive now (c.ld, c.id) z.chunk rank m = d.collEnd c eCollMismatch rank (BitVec.ofNat 32 z.chunk) false := by
  rw [Dev.contributionArrive_awaited hc hz hk hup hne hgot hst]
  exact Dev.onLive_ends hc now (Dev.verified_mismatch _ _ h) hc rfl rfl

theorem Dev.contributionArrive_again (h : m.digest = c.digest) (hcrc : m.crc ≠ chunkCrc c.id z.chunk m) (hr : c.retries = []) (now : W64) :
    d.contributionArrive now (c.ld, c.id) z.chunk rank m =
      ((d.modLd c.ld Ld.crcCounted).tellAll c.ld [(c.members.getD rank 0, .again c.id z.chunk c.digest)]).holding
        [{ c with retries := [(z.chunk, rank, 1)] }] d.mem := by
  rw [Dev.contributionArrive_awaited hc hz hk hup hne hgot hst]
  refine Dev.onLive_still hc (x := { c with retries := [(z.chunk, rank, 1)] }) now ?_ rfl rfl rfl
  rw [Dev.verified_again _ _ h hcrc hr]
  refine (congrArg (Dev.collSend c rank (.again c.id z.chunk c.digest))
    (Dev.putColl_self (d := d.modLd c.ld Ld.crcCounted) hc (x := { c with retries := [(z.chunk, rank, 1)] }) rfl rfl)).trans ?_
  exact Dev.tell_holding ..

variable (hd : m.digest = c.digest) (hcrc : m.crc = chunkCrc c.id z.chunk m) (hr : c.retries = [])
include hd hcrc hr

/-- One with an intact trailer is acknowledged, and added to the slot. -/
theorem Dev.contributionArrive_intact (now : W64) :
    d.contributionArrive now (c.ld, c.id) z.chunk rank m = d.onLive now (c.ld, c.id) fun _ d =>
      (d.tellAll c.ld [(c.members.getD rank 0, .ack c.id z.chunk c.digest)]).slotAdd (c.ld, c.id) z.chunk rank (some m) := by
  rw [Dev.contributionArrive_awaited hc hz hk hup hne hgot hst]
  refine Dev.onLive_congr hc now ?_
  rw [Dev.verified_intact _ _ hd hcrc hr, Dev.putColl_self hc rfl rfl, Dev.holding_self hc]
  rfl

variable (hq : d.quiet) (hop : c.redOp = 0) (hp : c.predicted z.chunk = false) (hhas : z.has = true) (hzp : z.poison = none)
  (hze : z.excess = none) (hm : m.poisoned = none)
include hq hop hp hhas hzp hze hm

theorem Dev.contributionArrive_anchor {a : Nat} (ha : c.anchorOf d z.chunk = some a) (hma : a ≠ m.anchor.toNat) (now : W64) :
    d.contributionArrive now (c.ld, c.id) z.chunk rank m =
      Dev.collEnd c eCollMismatch rank (BitVec.ofNat 32 z.chunk) false
        (d.tellAll c.ld [(c.members.getD rank 0, .ack c.id z.chunk c.digest)]) := by
  rw [Dev.contributionArrive_intact hc hz hk hup hne hgot hst hd hcrc hr]
  have hcolls := (Dev.colls_tellAll c.ld [(c.members.getD rank 0, FabMsg.ack c.id z.chunk c.digest)] d).trans hc
  refine Dev.onLive_ends hc now ?_ hcolls rfl rfl
  rw [Dev.slotAdd_sum hcolls (Dev.quiet_tellAll hq ..) hz hk hop hp hst hhas hzp hze hm, Coll.anchorOf_tellAll c hq, ha]
  exact if_pos (by simpa using hma)

variable (ha : ∀ a, c.anchorOf d z.chunk = some a → a = m.anchor.toNat) (hza : z.anchor = m.anchor.toNat)
include ha hza

section
variable (hwait : ∃ p ∈ (c.mine z.chunk).ups, p ≠ rank ∧ p ∉ z.got)
include hwait

/-- A contribution of weight 0 is absent: its slot has heard it, and waits for the others. -/
theorem Dev.contributionArrive_absent (hw : m.weight = 0) (now : W64) :
    d.contributionArrive now (c.ld, c.id) z.chunk rank m =
      (d.tellAll c.ld [(c.members.getD rank 0, .ack c.id z.chunk c.digest)]).holding
        [{ c with slots := [z.hears rank m.anchor.toNat], lastMove := now }] d.mem := by
  rw [Dev.contributionArrive_intact hc hz hk hup hne hgot hst hd hcrc hr]
  have hcolls := (Dev.colls_tellAll c.ld [(c.members.getD rank 0, FabMsg.ack c.id z.chunk c.digest)] d).trans hc
  refine Dev.onLive_moved hc (x := { c with slots := [z.hears rank m.anchor.toNat] }) now ?_ rfl rfl
    (Coll.marks_ne_of_got hz rfl (by simp [RakeSlot.hears]))
  rw [Dev.slotAdd_sum hcolls (Dev.quiet_tellAll hq ..) hz hk hop hp hst hhas hzp hze hm, Coll.anchorOf_tellAll c hq,
    if_neg (by rw [Coll.anchors_agree ha hza]; exact Bool.false_ne_true), if_pos hw,
    Dev.putSlot_complete (y := z.hears rank m.anchor.toNat) hcolls hz rfl (RakeSlot.hears_waits hwait _), Dev.mem_tellAll]

/-- Another is added to the sum in its slot, which waits for the others. -/
theorem Dev.contributionArrive_added (hw : m.weight ≠ 0)
    (hfit : (axElems m.data).all (fun v => axInRange v m.weight) = true ∧ z.weight + m.weight ≤ 2 ^ 24) (now : W64) :
    d.contributionArrive now (c.ld, c.id) z.chunk rank m =
      (d.tellAll c.ld [(c.members.getD rank 0, .ack c.id z.chunk c.digest)]).holding
        [{ c with slots := [{ z.hears rank m.anchor.toNat with weight := z.weight + m.weight }], lastMove := now }]
        (Mem.writeN memDefault d.mem (rakeAddr c.iod z.phys) (axSum (d.bytes (rakeAddr c.iod z.phys) 3072) m.data)) := by
  rw [Dev.contributionArrive_intact hc hz hk hup hne hgot hst hd hcrc hr]
  have hcolls := (Dev.colls_tellAll c.ld [(c.members.getD rank 0, FabMsg.ack c.id z.chunk c.digest)] d).trans hc
  have hq' := Dev.quiet_tellAll hq c.ld [(c.members.getD rank 0, FabMsg.ack c.id z.chunk c.digest)]
  have hy : ({ z.hears rank m.anchor.toNat with anchor := m.anchor.toNat, weight := z.weight + m.weight } : RakeSlot) =
      { z.hears rank m.anchor.toNat with weight := z.weight + m.weight } := by
    rw [← hza]
    rfl
  refine Dev.onLive_moved hc (x := { c with slots := [{ z.hears rank m.anchor.toNat with weight := z.weight + m.weight }] }) now ?_ rfl rfl
    (Coll.marks_ne_of_got hz rfl (by simp [RakeSlot.hears]))
  rw [Dev.slotAdd_sum hcolls hq' hz hk hop hp hst hhas hzp hze hm, Coll.anchorOf_tellAll c hq,
    if_neg (by rw [Coll.anchors_agree ha hza]; exact Bool.false_ne_true), if_neg hw, if_neg (not_not.mpr hfit), hy,
    Dev.slotWrite_quiet hcolls hq', slice_axSum, Dev.bytes_tellAll hq, Dev.mem_tellAll]
  exact Dev.complete_holding (y := { z.hears rank m.anchor.toNat with weight := z.weight + m.weight }) d c.ld _ hz rfl
    (RakeSlot.hears_waits hwait 0) _

end

/-- One beyond the headroom ends the collective (R100). -/
theorem Dev.contributionArrive_headroom (hw : m.weight ≠ 0)
    (hfit : ¬((axElems m.data).all (fun v => axInRange v m.weight) = true ∧ z.weight + m.weight ≤ 2 ^ 24)) (now : W64) :
    d.contributionArrive now (c.ld, c.id) z.chunk rank m =
      Dev.collEnd c eAx96Headroom rank (BitVec.ofNat 32 z.chunk) false
        (d.tellAll c.ld [(c.members.getD rank 0, .ack c.id z.chunk c.digest)]) := by
  rw [Dev.contributionArrive_intact hc hz hk hup hne hgot hst hd hcrc hr]
  have hcolls := (Dev.colls_tellAll c.ld [(c.members.getD rank 0, FabMsg.ack c.id z.chunk c.digest)] d).trans hc
  refine Dev.onLive_ends hc now ?_ hcolls rfl rfl
  rw [Dev.slotAdd_sum hcolls (Dev.quiet_tellAll hq ..) hz hk hop hp hst hhas hzp hze hm, Coll.anchorOf_tellAll c hq,
    if_neg (by rw [Coll.anchors_agree ha hza]; exact Bool.false_ne_true), if_neg hw, if_pos hfit]

end

end Sys2Proof.Machine
end

section
/-! SUPPORT. Results and acknowledgements at a Rake (R344, R345): what a PASSED slot does with the result, and local delivery. -/

namespace Sys2Proof.Machine

theorem exec_resultChunkArrive {s : State} (h : s.dev.snoops = []) (ld : Nat) (id : BitVec 20) (k rank : Nat) (m : ChunkMsg) :
    exec (.resultChunkArrive ld id k rank m) s = .next { s with dev := s.dev.resultArrive s.now (ld, id) k rank m } :=
  onMemAt_quiet h fun now => Dev.resultArrive now (ld, id) k rank m

theorem exec_chunkAck {s : State} (h : s.dev.snoops = []) (ld : Nat) (id : BitVec 20) (k : Nat) (x : Sender) :
    exec (.chunkAck ld id k x) s = .next { s with dev := s.dev.chunkAck s.now (ld, id) k x } :=
  onMemAt_quiet h fun now => Dev.chunkAck now (ld, id) k x

/-! ## What a slot is left with -/

/-- A slot with the trailer of the result it has received. -/
def RakeSlot.receives (z : RakeSlot) (m : ChunkMsg) : RakeSlot :=
  { z with anchor := m.anchor.toNat, trueAnchor := m.pred.toNat, weight := m.weight, poison := none }

/-- A slot that serves the result it has received at its own member alone. -/
def RakeSlot.serves (z : RakeSlot) (rank : Nat) (m : ChunkMsg) : RakeSlot :=
  { z with st := .serving, has := true, sent := true, wait := [rank], poison := none, anchor := m.anchor.toNat,
           trueAnchor := m.pred.toNat, weight := m.weight }

/-- A collective whose one slot has ended the retention of its chunk. -/
def Coll.retired (c : Coll) (k : Nat) : Coll := { c with slots := [], ended := c.ended + 1, grants := c.grants.filter fun g => g.1 != k }

/-- The acknowledgement of a chunk to its source. -/
def Coll.sourceAck (c : Coll) (k : Nat) : List (Nat × FabMsg) :=
  (c.mine k).from_.toList.map fun p => (c.members.getD p 0, .ack c.id k c.digest)

/-- A collective with another slot, with none, or with one in another state has moved on (R356). -/
theorem Coll.marks_ne_of_slots {x c : Coll}
    (h : (x.slots.map fun s => (s.st, s.has)) ≠ c.slots.map fun s => (s.st, s.has)) : x.marks ≠ c.marks := fun hm => by
  have hs := congrArg (fun v : CollMarks => v.slots.map fun p => (p.2.1, p.2.2.2.1)) hm
  simp only [Coll.marks, List.map_map] at hs
  exact h hs

/-! ## Delivery of a BROADCAST (R335, R352) -/

theorem Coll.sums_broadcast {c : Coll} (h : c.kind = 0x64) (k : Nat) : c.sums k = false := by simp [Coll.sums, h]

theorem Coll.chunkBytes_broadcast {c : Coll} (h : c.kind = 0x64) (k : Nat) : c.chunkBytes k = (c.cut k).2.2 * dtypeBytes c.dtype := by
  simp [Coll.chunkBytes, h]

/-- A chunk of a BROADCAST goes to one place: its elements in the output array. -/
theorem Coll.outPieces_broadcast {c : Coll} (h : c.kind = 0x64) (hs : c.segs = []) (ho : c.outAx = false) (ht : c.dtype ≠ 3) (k : Nat) :
    c.outPieces k = [(c.outAddr + c.first k * dtypeBytes c.dtype, c.chunkBytes k)] := by
  simp [Coll.outPieces, Coll.chunkBytes_broadcast h, h, hs, ho, ht]

section
variable {d : Dev} {c : Coll} (hc : d.colls = [c])
include hc

theorem Dev.deliver_broadcast (hq : d.quiet) (hk : c.kind = 0x64) (he : c.eng = none) (hs : c.segs = []) (ho : c.outAx = false)
    (ht : c.dtype ≠ 3) {z : RakeSlot} (hp : z.poison = none) (k : Nat) (bs : List Byte) :
    d.deliver c k z bs = d.holding [c]
      (Mem.writeN memDefault d.mem (c.outAddr + c.first k * dtypeBytes c.dtype) (slice bs 0 (c.chunkBytes k))) := by
  rw [Dev.deliver, hp]
  dsimp only
  rw [if_neg (by simp), Dev.putColl_self hc rfl rfl, Dev.holding_self hc, he]
  dsimp only
  rw [if_neg (by simp [hk]), Coll.sums_broadcast hk, if_neg Bool.false_ne_true, Coll.outPieces_broadcast hk hs ho ht]
  refine (Dev.writeBytes_quiet hq ..).trans ?_
  rw [Dev.holding, ← hc]

/-! ## The end of a retention (R344) -/

theorem Dev.slotEnd_retires {z : RakeSlot} (hz : c.slots = [z]) (ha : z.again = false) (hr : c.redo = []) (hn : c.total ≤ c.next)
    (hf : c.fence = false) : d.slotEnd (c.ld, c.id) z.chunk = d.holding [c.retired z.chunk] d.mem := by
  have hx : ({ c with
      slots := c.slots.filter fun s => s.chunk != z.chunk
      ended := if z.again = true then c.ended else c.ended + 1
      redo := if z.again = true then c.redo ++ [z.chunk] else c.redo
      grants := c.grants.filter fun g => g.1 != z.chunk || (z.again && some g.2 == (c.mine z.chunk).to_) } : Coll) = c.retired z.chunk := by
    simp [hz, ha, Coll.retired]
  have hpick : (c.retired z.chunk).pick = none := by
    rw [Coll.pick, show (c.retired z.chunk).redo = [] from hr]
    exact if_neg (Nat.not_lt.mpr hn)
  rw [Dev.slotEnd, Dev.onSlot_self hc (Coll.slot?_one hz), hx, Dev.putColl_self hc (x := c.retired z.chunk) rfl rfl]
  refine (congrArg (Dev.fenceCheck (c.ld, c.id))
    (Dev.bind_stops (d := d.holding [c.retired z.chunk] d.mem) (c := c.retired z.chunk) rfl (.inr hpick) 256)).trans ?_
  exact Dev.fenceCheck_waits (d := d.holding [c.retired z.chunk] d.mem) (c := c.retired z.chunk) rfl (.inl hf)

/-- The last branch acknowledges: the slot acknowledges to its source, and is free. -/
theorem Dev.branchDone_last {z : RakeSlot} {rank : Nat} (hz : c.slots = [z]) (hw : z.wait = [rank]) (ha : z.again = false)
    (hr : c.redo = []) (hn : c.total ≤ c.next) (hf : c.fence = false) :
    d.branchDone c z rank = (d.tellAll c.ld (c.sourceAck z.chunk)).holding [c.retired z.chunk] d.mem := by
  rw [Dev.branchDone, hw, List.erase_cons_head]
  rw [if_pos List.isEmpty_nil, Dev.putSlot_self hc (z' := { z with wait := [] }) c rfl rfl hz rfl]
  have key : ∀ ms, Dev.slotEnd (c.ld, c.id) z.chunk
      (Dev.tellAll c.ld ms (d.holding [{ c with slots := [{ z with wait := [] }] }] d.mem)) =
      (d.tellAll c.ld ms).holding [c.retired z.chunk] d.mem := fun ms => by
    rw [Dev.tellAll_holding]
    exact Dev.slotEnd_retires (d := (d.tellAll c.ld ms).holding [{ c with slots := [{ z with wait := [] }] }] d.mem)
      (c := { c with slots := [{ z with wait := [] }] }) (z := { z with wait := [] }) rfl rfl ha hr hn hf
  rw [Coll.sourceAck]
  cases (c.mine z.chunk).from_ with
  | none => exact key []
  | some p => exact key [(c.members.getD p 0, .ack c.id z.chunk c.digest)]

end

/-! ## The arrival of a result -/

/-- A result that goes to no branch but this member waits for it alone. -/
theorem Dev.serve_here (d : Dev) {c : Coll} {z y : RakeSlot} (hz : c.slots = [z]) (hy : z.chunk = y.chunk) (hd : (c.mine y.chunk).downs = [])
    (hh : (c.mine y.chunk).here = true) (hw : y.wait = []) (m : Mem) :
    (d.holding [c] m).serve c y =
      d.holding [{ c with slots := [{ y with st := .serving, has := true, sent := true, wait := [c.rank] }] }] m := by
  rw [Dev.serve, hd, hh, hw]
  exact Dev.putSlot_self (d := d.holding [c] m) rfl c rfl rfl hz hy

section
variable {d : Dev} {c : Coll} (hc : d.colls = [c]) {z : RakeSlot} (hz : c.slots = [z])
include hc hz

/-- The result reaches a PASSED slot, which serves it. -/
theorem Dev.resultArrive_passed (hq : d.quiet) {rank : Nat} {m : ChunkMsg} (hk : c.kind ≠ 0x65) (hst : z.st = .passed)
    (hfrom : (c.mine z.chunk).from_ = some rank) (hdowns : (c.mine z.chunk).downs = []) (hhere : (c.mine z.chunk).here = true)
    (hw : z.wait = []) (hd : m.digest = c.digest) (hcrc : m.crc = chunkCrc c.id z.chunk m) (hp : m.poisoned = none) (hr : c.retries = [])
    (now : W64) :
    d.resultArrive now (c.ld, c.id) z.chunk rank m = d.holding [{ c with slots := [z.serves c.rank m], lastMove := now }]
      (Mem.writeN memDefault d.mem (rakeAddr c.iod z.phys) (slice m.data 0 3072)) := by
  refine Dev.onLive_moved hc (x := { c with slots := [z.serves c.rank m] }) now ?_ rfl rfl
    (Coll.marks_ne_of_slots (by simp [hz, hst, RakeSlot.serves]))
  rw [if_neg hk, Coll.slot?_one hz]
  dsimp only
  rw [if_pos (by simp [hfrom, hst]), Dev.verified_intact _ _ hd hcrc hr]
  have hy : ({ z with anchor := m.anchor.toNat, trueAnchor := m.pred.toNat, weight := m.weight, poison := m.poisoned,
                      again := z.again || (z.st == .reforming && (c.mine z.chunk).to_.isSome && !z.sent) } : RakeSlot) =
      z.receives m := by
    simp [hst, hp, RakeSlot.receives]
  rw [hy, Dev.slotWrite_quiet hc hq]
  exact Dev.serve_here (y := z.receives m) d hz rfl hdowns hhere hw _

/-! ## The arrival of an acknowledgement -/

/-- The acknowledgement of a PASSED partial leaves the slot for the result. -/
theorem Dev.chunkAck_passed {rank : Nat} (hk : c.kind ≠ 0x65) (hst : z.st = .passed) (hhas : z.has = true) (hs : z.served = false)
    (hto : (c.mine z.chunk).to_ = some rank) (hfrom : (c.mine z.chunk).from_.isSome = true) (now : W64) :
    d.chunkAck now (c.ld, c.id) z.chunk { rank := rank, digest := c.digest } =
      d.holding [{ c with slots := [{ z with has := false }], lastMove := now }] d.mem := by
  refine Dev.onLive_moved hc (x := { c with slots := [{ z with has := false }] }) now ?_ rfl rfl
    (Coll.marks_ne_of_slots (by simp [hz, hhas]))
  rw [Dev.agreed_same rfl, if_neg hk, Coll.slot?_one hz]
  dsimp only
  rw [if_pos ⟨hst, hto, hhas⟩, if_neg (by simpa [hs, ← Option.isSome_iff_ne_none] using hfrom)]
  exact Dev.putSlot_self hc (z' := { z with has := false }) c rfl rfl hz rfl

/-- Local delivery of a BROADCAST writes the chunk, acknowledges it to the source and ends its retention. -/
theorem Dev.chunkAck_delivers (hq : d.quiet) (hst : z.st = .serving) (hw : z.wait = [c.rank]) (hp : z.poison = none) (ha : z.again = false)
    (he : c.eng = none) (hk : c.kind = 0x64) (hs : c.segs = []) (ho : c.outAx = false) (ht : c.dtype ≠ 3) (hf : c.fence = false)
    (hr : c.redo = []) (hn : c.total ≤ c.next) (hle : c.chunkBytes z.chunk ≤ 3072) (now : W64) :
    d.chunkAck now (c.ld, c.id) z.chunk { rank := c.rank, digest := c.digest } =
      (d.tellAll c.ld (c.sourceAck z.chunk)).holding [{ c.retired z.chunk with lastMove := now }]
        (Mem.writeN memDefault d.mem (c.outAddr + c.first z.chunk * dtypeBytes c.dtype)
          (d.bytes (rakeAddr c.iod z.phys) (c.chunkBytes z.chunk))) := by
  refine Dev.onLive_moved hc (x := c.retired z.chunk) now ?_ rfl rfl (Coll.marks_ne_of_slots (by simp [hz, Coll.retired]))
  rw [Dev.agreed_same rfl, if_neg (by simp [hk]), Coll.slot?_one hz]
  dsimp only
  rw [if_neg (by simp [hst]), if_neg (not_not.mpr rfl), if_pos (by simp [hst, hw]), Dev.slotBytes, Dev.readBytes_quiet hq]
  dsimp only
  have hbytes : slice (d.bytes (rakeAddr c.iod z.phys) 3072) 0 (c.chunkBytes z.chunk) =
      d.bytes (rakeAddr c.iod z.phys) (c.chunkBytes z.chunk) := by
    rw [Dev.bytes_quiet hq, Dev.bytes_quiet hq, slice_readN _ _ (by omega), Nat.add_zero]
  rw [Dev.deliver_broadcast hc hq hk he hs ho ht hp, hbytes]
  generalize Mem.writeN memDefault d.mem (c.outAddr + c.first z.chunk * dtypeBytes c.dtype)
    (d.bytes (rakeAddr c.iod z.phys) (c.chunkBytes z.chunk)) = m
  rw [Dev.onColl_self (d := d.holding [c] m) rfl, Dev.branchDone_last (d := d.holding [c] m) rfl hz hw ha hr hn hf, Dev.tellAll_holding]
  exact Dev.openGroups_stops (c := c.retired z.chunk) rfl
    (.inl (by rw [Coll.anchored, show (c.retired z.chunk).sums (c.retired z.chunk).base = false from Coll.sums_broadcast hk _]; rfl)) 2

end

end Sys2Proof.Machine
end

section
/-! SUPPORT. What a packet does at a Rake, as a step of the system: its state, its messages and its memory (R336, R342 to R344, R350,
R352, R360). -/

namespace Sys2Proof.Machine

/-! ## Steps -/

/-- A step has changed one collective, memory, and what messages change. -/
def State.onlyColl (s t : State) (x : Coll) : Prop :=
  t = { s with dev := { s.dev with colls := [x], mem := t.dev.mem, out := t.dev.out, ports := t.dev.ports, net := t.dev.net } }

/-- A step has sent messages to the ranks of a collective. -/
def State.tells (s t : State) (c : Coll) (l : List (Nat × FabMsg)) : Prop :=
  s.dev.toldAll t.dev c.ld (l.map fun p => (c.members.getD p.1 0, p.2))

theorem exec_dev {i : Instr} {s : State} {d e : Dev} (h : exec i s = .next { s with dev := d }) (he : d = e) :
    exec i s = .next { s with dev := e } := he ▸ h

/-- A step that sends messages and leaves one collective. -/
theorem exec_holding {i : Instr} {s : State} {d : Dev} {c x : Coll} {ms : List (Nat × FabMsg)} {m : Mem}
    (h : exec i s = .next { s with dev := d })
    (hd : d = (s.dev.tellAll c.ld (ms.map fun p => (c.members.getD p.1 0, p.2))).holding [x] m) :
    ∃ t, exec i s = .next t ∧ s.onlyColl t x ∧ s.tells t c ms ∧ t.dev.mem = m := by
  refine ⟨_, exec_dev h hd, ?_, Dev.toldAll_holding .., rfl⟩
  exact congrArg (fun d => ({ s with dev := d } : State)) (Dev.holding_frame ..)

theorem State.onlyColl.quiet {s t : State} {x : Coll} (h : s.onlyColl t x) (hq : s.dev.quiet) : t.dev.quiet := by
  rw [h]
  exact Dev.quiet_of_sameKeys ⟨rfl, rfl, rfl, rfl, fun _ => rfl, fun _ => rfl⟩ hq rfl rfl rfl

section
variable {d d' : Dev} {a n : Nat} {bs : List Byte} (h : d'.mem = Mem.writeN memDefault d.mem a bs)
include h

theorem Dev.sameMemBut_writeN (hn : bs.length = n) : d.sameMemBut d' a n := fun x hx => by
  rw [Dev.byte, h, Mem.read_writeN_outside _ _ _ (hn ▸ hx)]
  rfl

theorem Dev.byte_writeN (hwf : Mem.wf memDefault d.mem = true) {i : Nat} (hi : i < bs.length) : d'.byte (a + i) = bs[i] := by
  rw [Dev.byte, h, Mem.read_writeN_inside a bs hi hwf]

end

section
variable {s : State} {c : Coll} (hq : s.dev.quiet) (hc : s.dev.colls = [c])
include hq hc

/-! ## Grants -/

theorem rakeGrant_held {k rank : Nat} (h1 : c.kind ≠ 0x65) (h2 : c.kind ≠ 0x67) (hr : rank ≠ c.rank) (hg : (k, rank) ∉ c.grants)
    (hs : c.slot? k = none) (hb : ¬((c.mine k).to_ = some rank ∧ k < c.next ∧ k ∉ c.redo)) :
    ∃ t, exec (.rakeGrant c.ld c.id k { rank := rank, digest := c.digest }) s = .next t ∧ s.onlyColl t (c.granting k rank) ∧
      s.tells t c [] ∧ t.dev.mem = s.dev.mem :=
  exec_holding (exec_rakeGrant hq.snoops ..)
    (Dev.rakeGrant_other (e := s.dev) hc h1 h2 hr s.now (Dev.grantFrom_unbound hc hg hs hb) rfl rfl rfl)

theorem rakeGrant_served {rank : Nat} {z : RakeSlot} (h1 : c.kind ≠ 0x65) (h2 : c.kind ≠ 0x67) (hr : rank ≠ c.rank)
    (hg : (z.chunk, rank) ∉ c.grants) (hz : c.slots = [z]) (hst : z.st = .serving) (hsent : z.sent = true) (hwait : rank ∈ z.wait)
    (hgiven : rank ∉ z.given) :
    ∃ t, exec (.rakeGrant c.ld c.id z.chunk { rank := rank, digest := c.digest }) s = .next t ∧
      s.onlyColl t { c.granting z.chunk rank with slots := [z.gives rank] } ∧
      s.tells t c [(rank, .result c.id z.chunk (c.resultMsg z (s.dev.bytes (rakeAddr c.iod z.phys) 3072)))] ∧ t.dev.mem = s.dev.mem :=
  exec_holding (exec_rakeGrant hq.snoops ..)
    (Dev.rakeGrant_other hc h1 h2 hr s.now (Dev.grantFrom_serving hc hq hz hst hsent hwait hgiven hg) rfl rfl
      (by simp [Coll.marks, hz, RakeSlot.gives, Coll.granting]))

/-! ## Agreed anchors -/

theorem anchorArrive_held {rank g : Nat} (a : List Byte) (hr : c.ring = false) (hp : c.parent c.rank = some rank)
    (hk : rank ∉ c.children c.rank) (hne : rank ≠ c.rank) (ha : c.anchored = true) (hg : c.groupOf g ≠ [])
    (hd : Map.find c.dir (c.base + 256 * g) = none) (ho : c.total - c.base ≤ 256 * c.opened) :
    ∃ t, exec (.anchorArrive c.ld c.id rank g a c.digest) s = .next t ∧ s.onlyColl t { c.agreeing g a with lastMove := s.now } ∧
      s.tells t c ((c.children c.rank).map fun p => (p, .anchors c.id g a c.digest)) ∧ t.dev.mem = s.dev.mem :=
  exec_holding (exec_anchorArrive hq.snoops ..)
    ((Dev.anchorArrive_agreed hc a hr hp hk hne ha hg hd ho s.now).trans (by rw [List.map_map]; rfl))

/-! ## Results and acknowledgements -/

section
variable {z : RakeSlot} (hz : c.slots = [z])
include hz

theorem resultChunkArrive_served (hwf : s.memWf) {rank : Nat} {m : ChunkMsg} (hk : c.kind ≠ 0x65) (hst : z.st = .passed)
    (hfrom : (c.mine z.chunk).from_ = some rank) (hdowns : (c.mine z.chunk).downs = []) (hhere : (c.mine z.chunk).here = true)
    (hw : z.wait = []) (hd : m.digest = c.digest) (hcrc : m.crc = chunkCrc c.id z.chunk m) (hp : m.poisoned = none) (hr : c.retries = []) :
    ∃ t, exec (.resultChunkArrive c.ld c.id z.chunk rank m) s = .next t ∧ s.tells t c [] ∧
      s.onlyColl t { c with slots := [z.serves c.rank m], lastMove := s.now } ∧
      (∀ i, i < 3072 → t.dev.byte (rakeAddr c.iod z.phys + i) = m.data.getD i 0) ∧
      s.dev.sameMemBut t.dev (rakeAddr c.iod z.phys) 3072 := by
  obtain ⟨t, ht, honly, htold, hmem⟩ := exec_holding (ms := []) (c := c) (exec_resultChunkArrive hq.snoops ..)
    (Dev.resultArrive_passed hc hz hq hk hst hfrom hdowns hhere hw hd hcrc hp hr s.now)
  refine ⟨t, ht, htold, honly, fun i hi => ?_, Dev.sameMemBut_writeN hmem (length_slice ..)⟩
  rw [Dev.byte_writeN hmem hwf.1 (by rwa [length_slice])]
  simp [slice]

theorem chunkAck_kept {rank : Nat} (hk : c.kind ≠ 0x65) (hst : z.st = .passed) (hhas : z.has = true) (hs : z.served = false)
    (hto : (c.mine z.chunk).to_ = some rank) (hfrom : (c.mine z.chunk).from_.isSome = true) :
    ∃ t, exec (.chunkAck c.ld c.id z.chunk { rank := rank, digest := c.digest }) s = .next t ∧ s.tells t c [] ∧ t.dev.mem = s.dev.mem ∧
      s.onlyColl t { c with slots := [{ z with has := false }], lastMove := s.now } := by
  obtain ⟨t, ht, honly, htold, hmem⟩ := exec_holding (ms := []) (c := c) (exec_chunkAck hq.snoops ..)
    (Dev.chunkAck_passed hc hz hk hst hhas hs hto hfrom s.now)
  exact ⟨t, ht, htold, hmem, honly⟩

theorem chunkAck_delivered (hwf : s.memWf) (hst : z.st = .serving) (hw : z.wait = [c.rank]) (hp : z.poison = none) (ha : z.again = false)
    (he : c.eng = none) (hk : c.kind = 0x64) (hs : c.segs = []) (ho : c.outAx = false) (ht : c.dtype ≠ 3) (hf : c.fence = false)
    (hr : c.redo = []) (hn : c.total ≤ c.next) (hle : c.chunkBytes z.chunk ≤ 3072) :
    ∃ t, exec (.chunkAck c.ld c.id z.chunk { rank := c.rank, digest := c.digest }) s = .next t ∧
      s.onlyColl t { c.retired z.chunk with lastMove := s.now } ∧
      s.tells t c ((c.mine z.chunk).from_.toList.map fun p => (p, .ack c.id z.chunk c.digest)) ∧
      (∀ i, i < c.chunkBytes z.chunk → t.dev.byte (c.outAddr + c.first z.chunk * dtypeBytes c.dtype + i) =
        s.dev.byte (rakeAddr c.iod z.phys + i)) ∧
      s.dev.sameMemBut t.dev (c.outAddr + c.first z.chunk * dtypeBytes c.dtype) (c.chunkBytes z.chunk) := by
  obtain ⟨t, hx, honly, htold, hmem⟩ := exec_holding (c := c) (ms := (c.mine z.chunk).from_.toList.map fun p => (p, .ack c.id z.chunk c.digest))
    (exec_chunkAck hq.snoops ..)
    ((Dev.chunkAck_delivers hc hz hq hst hw hp ha he hk hs ho ht hf hr hn hle s.now).trans (by rw [List.map_map]; rfl))
  rw [Dev.bytes_quiet hq] at hmem
  refine ⟨t, hx, honly, htold, fun i hi => ?_, Dev.sameMemBut_writeN hmem (Mem.length_readN ..)⟩
  rw [Dev.byte_writeN hmem hwf.1 (by rwa [Mem.length_readN])]
  simp [Mem.readN, Dev.byte]

end

/-! ## Contributions -/

section
variable {z : RakeSlot} (hz : c.slots = [z]) (hk : c.kind ≤ 0x62) {rank : Nat} (hup : rank ∈ (c.mine z.chunk).ups) (hne : rank ≠ c.rank)
  (hgot : rank ∉ z.got) (hst : z.st = .gathering) {m : ChunkMsg} (hd : m.digest = c.digest)
include hz hk hup hne hgot hst hd

theorem contributionArrive_retried (hcrc : m.crc ≠ chunkCrc c.id z.chunk m) (hr : c.retries = []) :
    ∃ t, exec (.contributionArrive c.ld c.id z.chunk rank m) s = .next t ∧ s.tells t c [(rank, .again c.id z.chunk c.digest)] ∧
      t = { s with dev := { s.dev with colls := [{ c with retries := [(z.chunk, rank, 1)] }], lds := t.dev.lds,
                                       out := t.dev.out, ports := t.dev.ports, net := t.dev.net } } ∧
      (t.dev.ld c.ld).col.crcRetry = sat16 (s.dev.ld c.ld).col.crcRetry ∧ (t.dev.ld c.ld).col.evt.getLsbD 3 = true ∧
      ∀ n, n ≠ c.ld → t.dev.ld n = s.dev.ld n := by
  have hs : s.dev.SameFabric (s.dev.modLd c.ld Ld.crcCounted) :=
    ⟨rfl, rfl, rfl, rfl, fun n => Dev.ld_modLd_keeps (f := Ld.crcCounted) Ld.lay (fun _ => rfl) _ c.ld n,
      fun n => Dev.ld_modLd_keeps (f := Ld.crcCounted) Ld.fab (fun _ => rfl) _ c.ld n⟩
  refine ⟨_, exec_dev (exec_contributionArrive hq.snoops ..) (Dev.contributionArrive_again hc hz hk hup hne hgot hst hd hcrc hr s.now),
    hs.toldAll c.ld [(c.members.getD rank 0, .again c.id z.chunk c.digest)], ?_⟩
  rw [Dev.holding_frame]
  refine ⟨rfl, ?_, ?_, fun n hn => ?_⟩
  · exact congrArg (fun l : Ld => l.col.crcRetry) (Dev.ld_modLd_same s.dev c.ld Ld.crcCounted)
  · refine (congrArg (fun l : Ld => l.col.evt.getLsbD 3) (Dev.ld_modLd_same s.dev c.ld Ld.crcCounted)).trans ?_
    exact getLsbD_setBit_same _ (by decide)
  · exact Dev.ld_modLd_other s.dev Ld.crcCounted hn

variable (hcrc : m.crc = chunkCrc c.id z.chunk m) (hr : c.retries = []) (hop : c.redOp = 0) (hp : c.predicted z.chunk = false)
  (hhas : z.has = true) (hzp : z.poison = none) (hze : z.excess = none) (hm : m.poisoned = none)
  (hwait : ∃ p ∈ (c.mine z.chunk).ups, p ≠ rank ∧ p ∉ z.got)
  (ha : ∀ a, c.anchorOf s.dev z.chunk = some a → a = m.anchor.toNat) (hza : z.anchor = m.anchor.toNat)
include hcrc hr hop hp hhas hzp hze hm hwait ha hza

theorem contributionArrive_heard (hw : m.weight = 0) :
    ∃ t, exec (.contributionArrive c.ld c.id z.chunk rank m) s = .next t ∧ s.tells t c [(rank, .ack c.id z.chunk c.digest)] ∧
      s.onlyColl t { c with slots := [z.hears rank m.anchor.toNat], lastMove := s.now } ∧ t.dev.mem = s.dev.mem := by
  obtain ⟨t, ht, honly, htold, hmem⟩ := exec_holding (c := c) (ms := [(rank, .ack c.id z.chunk c.digest)])
    (exec_contributionArrive hq.snoops ..)
    (Dev.contributionArrive_absent hc hz hk hup hne hgot hst hd hcrc hr hq hop hp hhas hzp hze hm ha hza hwait hw s.now)
  exact ⟨t, ht, htold, honly, hmem⟩

theorem contributionArrive_summed (hwf : s.memWf) (hw : m.weight ≠ 0)
    (hfit : (axElems m.data).all (fun v => axInRange v m.weight) = true ∧ z.weight + m.weight ≤ 2 ^ 24) :
    ∃ t, exec (.contributionArrive c.ld c.id z.chunk rank m) s = .next t ∧ s.tells t c [(rank, .ack c.id z.chunk c.digest)] ∧
      s.onlyColl t { c with slots := [{ z.hears rank m.anchor.toNat with weight := z.weight + m.weight }], lastMove := s.now } ∧
      (∀ i, i < 256 → num (t.dev.bytes (rakeAddr c.iod z.phys + 12 * i) 12) 0 12 =
        (num (s.dev.bytes (rakeAddr c.iod z.phys + 12 * i) 12) 0 12 + num m.data (12 * i) 12) % 2 ^ 96) ∧
      s.dev.sameMemBut t.dev (rakeAddr c.iod z.phys) 3072 := by
  obtain ⟨t, ht, honly, htold, hmem⟩ := exec_holding (c := c) (ms := [(rank, .ack c.id z.chunk c.digest)])
    (exec_contributionArrive hq.snoops ..)
    (Dev.contributionArrive_added hc hz hk hup hne hgot hst hd hcrc hr hq hop hp hhas hzp hze hm ha hza hwait hw hfit s.now)
  refine ⟨t, ht, htold, honly, fun i hi => ?_, Dev.sameMemBut_writeN hmem (length_axSum ..)⟩
  have hold : num (s.dev.bytes (rakeAddr c.iod z.phys) 3072) (12 * i) 12 = num (s.dev.bytes (rakeAddr c.iod z.phys + 12 * i) 12) 0 12 := by
    rw [num, num, Dev.bytes_quiet hq, Dev.bytes_quiet hq, ← slice_readN s.dev.mem _ (n := 3072) (by omega), slice_slice_self]
  rw [Dev.bytes_quiet (honly.quiet hq), hmem, Mem.readN_writeN_inside hwf.1 _ _ (by rw [length_axSum]; omega), num_axSum _ _ hi, hold]

end

end

end Sys2Proof.Machine
end

section
/-! O37: RAKE SLOTS, CHUNKS AND THE END OF A COLLECTIVE. -/

namespace Sys2Proof.Machine

/-- Settles O37: each event of a Rake that holds one collective is followed to the collective, the messages and the memory that it
leaves. -/
theorem rakeMovesAndCollectivesEnd : Obligations.RakeMovesAndCollectivesEnd := by
  unfold Obligations.RakeMovesAndCollectivesEnd
  refine ⟨⟨?_, ?_⟩, ?_, ?_, ?_⟩
  · rintro ld id c s hsn hc rfl rfl
    refine ⟨fun _ hover => ?_, fun hg hl hd hw hs hr hn ha => rakeReservationGrant_facts hsn hc hg hl hd hw hs hr hn ha⟩
    exact exec_dev (exec_rakeReservationGrant hsn c.ld c.id) (Dev.rakeReserve_waits hc hover)
  · rintro iod ld id z rest s hz rfl rfl rfl
    refine ⟨_, exec_dev (exec_rakeSlotZeroFillComplete ..) (Dev.rakeZeroed_first hz), ?_⟩
    obtain ⟨hframe, hzeroing⟩ := Dev.memFrame_zeroing (Dev.memFrame_rakeZeroes reqRake z.iod z.phys { s.dev with zeroing := rest })
    exact ⟨hframe, rfl, hzeroing, Dev.byte_rakeZeroes reqRake z.iod z.phys { s.dev with zeroing := rest }⟩
  · rintro q k rank m c s hq hwf hc rfl
    have hsn : s.dev.snoops = [] := hq.snoops
    refine ⟨?_, fun h1 h2 hr hg => ⟨?_, ?_⟩, fun g a digest => ⟨?_, ?_⟩, ?_, ?_⟩
    · rintro x rfl hr hx
      exact ⟨exec_dev (exec_rakeGrant hsn ..) (Dev.rakeGrant_mismatch hc hr hx k s.now),
        exec_dev (exec_chunkAck hsn ..) (Dev.chunkAck_mismatch hc hr hx k s.now)⟩
    · exact fun hs hb => rakeGrant_held hq hc h1 h2 hr hg hs hb
    · rintro z hz rfl hst hsent hwait hgiven
      exact rakeGrant_served hq hc h1 h2 hr hg hz hst hsent hwait hgiven
    · exact fun hd => exec_dev (exec_anchorArrive hsn ..) (Dev.anchorArrive_mismatch hc hd rank g a s.now)
    · rintro rfl hring hp hk hne ha hg hd ho
      obtain ⟨t, ht, honly, htold, hmem⟩ := anchorArrive_held hq hc a hring hp hk hne ha hg hd ho
      exact ⟨t, { c.agreeing g a with lastMove := s.now }, ht, honly, rfl, fun j hj => Map.find_foldl_set_mem _ _ hj,
        fun j hj => Map.find_foldl_set_other _ _ hj, htold, hmem⟩
    · rintro z hz rfl - hk hup hne hgot hst
      refine ⟨fun hd => ?_, fun hd hcrc hr => contributionArrive_retried hq hc hz hk hup hne hgot hst hd hcrc hr, ?_⟩
      · exact exec_dev (exec_contributionArrive hsn ..) (Dev.contributionArrive_mismatch hc hz hk hup hne hgot hst hd s.now)
      rintro ⟨hd, hcrc, hm, hr⟩ hop hp hhas hzp hze hwait
      refine ⟨fun a ha hma => ?_, fun ha hza => ⟨fun hw => ?_, fun hw hfit => ?_, fun hw hfit => ?_⟩⟩
      · exact exec_dev (exec_contributionArrive hsn ..)
          (Dev.contributionArrive_anchor hc hz hk hup hne hgot hst hd hcrc hr hq hop hp hhas hzp hze hm ha hma s.now)
      · exact contributionArrive_heard hq hc hz hk hup hne hgot hst hd hcrc hr hop hp hhas hzp hze hm hwait ha hza hw
      · exact contributionArrive_summed hq hc hz hk hup hne hgot hst hd hcrc hr hop hp hhas hzp hze hm hwait ha hza hwf hw hfit
      · exact exec_dev (exec_contributionArrive hsn ..)
          (Dev.contributionArrive_headroom hc hz hk hup hne hgot hst hd hcrc hr hq hop hp hhas hzp hze hm ha hza hw hfit s.now)
    · rintro z hz rfl hk
      refine ⟨?_, fun hst hhas hs hto hfrom => chunkAck_kept hq hc hz hk hst hhas hs hto hfrom, ?_⟩
      · rintro hst hfrom hdowns hhere hw ⟨hd, hcrc, hp, hr⟩
        exact resultChunkArrive_served hq hc hz hwf hk hst hfrom hdowns hhere hw hd hcrc hp hr
      · rintro hst hw rfl hp ha he hk hs ho ht hf hr hn n hle
        exact chunkAck_delivered hq hc hz hwf hst hw hp ha he hk hs ho ht hf hr hn hle
  · intro c code who chunk aborted d hq he ht
    obtain ⟨hframe, hzeroing, hmem, htold, hlds, hfail⟩ := Dev.collGone_facts hq c code who chunk
    refine ⟨d.collGone c code who chunk, ?_, hframe, Dev.colls_collGone c code who chunk d, hzeroing, hmem, htold, hlds,
      fun h => ⟨fun n hn => (hfail h n).trans (if_neg hn), ?_⟩⟩
    · rw [Dev.collEnd_eq, he, ht]
      rfl
    · rw [hfail h c.ld, if_pos rfl, Ld.collFail_evt]
  · intro c s hq hc
    have hsn : s.dev.snoops = [] := hq.snoops
    refine ⟨fun rank => ⟨fun hk hr => ⟨fun hs => ?_, fun hs => ?_⟩, fun code who chunk h => ?_, fun digest code who chunk hx hr h => ⟨?_, ?_⟩⟩,
      fun h => ?_, fun h => ?_, fun ag v hreach hpage hl hz => ⟨fun hi => ?_, fun hi => ?_⟩⟩
    · exact exec_dev (exec_completionFence hsn ..) (Dev.completionFence_settled hc hk hs rank s.now)
    · exact exec_dev (exec_completionFence hsn ..)
        (Dev.completionFence_unsettled hc hk (hr.resolve_right (by simp [hs])) hs rank s.now)
    · exact exec_dev (exec_abortNotice ..) (Dev.abortNotice_same hc rank h who chunk)
    · exact exec_dev (exec_completionFence hsn ..) (Dev.completionFence_mismatch (x := { rank := rank, digest := digest }) hc hr hx s.now)
    · exact exec_dev (exec_abortNotice ..) (Dev.abortNotice_mismatch (x := { rank := rank, digest := digest }) hc hr hx h who chunk)
    · obtain ⟨chunk, hend⟩ := Dev.collWatchdog_expired hc h
      exact ⟨c.awaited, chunk, exec_dev (exec_collWatchdog ..) hend, Coll.awaited_pending⟩
    · exact exec_dev (exec_collWatchdog ..) (Dev.collWatchdog_waits hc h)
    · exact exec_dev (exec_colAbort hreach hpage v) (Dev.colAbort_named hc hl hz hi)
    · exact exec_dev (exec_colAbort hreach hpage v) (Dev.colAbort_other hc hl hz hi)

end Sys2Proof.Machine
end

section
/-! SUPPORT. INT32 accumulation in the matrix array (R116, R117). -/

namespace Sys2Proof.Machine

section
variable {acc : Int × Bool} {p : Int}

theorem accInt_above (h : 2 ^ 31 - 1 < acc.1 + p) : accInt acc p = (2 ^ 31 - 1, true) := if_pos h

theorem accInt_below (h : acc.1 + p < -(2 ^ 31)) : accInt acc p = (-(2 ^ 31), true) :=
  (if_neg (by omega)).trans (if_pos h)

theorem accInt_within (hl : -(2 ^ 31) ≤ acc.1 + p) (hu : acc.1 + p ≤ 2 ^ 31 - 1) : accInt acc p = (acc.1 + p, acc.2) :=
  (if_neg (by omega)).trans (if_neg (by omega))

end

/-- While every partial sum stays in the range of INT32, the steps add exactly and note no saturation. -/
theorem foldl_accInt_within (p : Nat → Int) (m : Nat)
    (h : ∀ j, j ≤ m → -(2 ^ 31) ≤ ((List.range j).map p).sum ∧ ((List.range j).map p).sum ≤ 2 ^ 31 - 1) :
    (List.range m).foldl (fun acc kk => accInt acc (p kk)) (0, false) = (((List.range m).map p).sum, false) := by
  induction m with
  | zero => rfl
  | succ m ih =>
    have hsum : ((List.range (m + 1)).map p).sum = ((List.range m).map p).sum + p m := by simp [List.range_succ]
    obtain ⟨hl, hu⟩ := h (m + 1) le_rfl
    rw [hsum] at hl hu ⊢
    rw [List.range_succ, List.foldl_append, ih fun j hj => h j (Nat.le_succ_of_le hj)]
    exact accInt_within hl hu

/-- Settles O11: the sum by induction over k, and the bounds by the saturating step. -/
theorem integerProductIsExactSum : Obligations.IntegerProductIsExactSum :=
  ⟨fun x _ _ => foldl_accInt_within _ x.k, fun acc sat _ => accInt_above (acc := (acc, sat)),
    fun acc sat _ => accInt_below (acc := (acc, sat))⟩

end Sys2Proof.Machine
end

section
/-! SUPPORT. The start and the end of the operations of a core (R108, R114, R117, R130, R134, R146, R154, R160, R161). -/

namespace Sys2Proof.Machine

/-! ## The cores of a cluster -/

theorem Cluster.core_setCore (c : Cluster) (k j : Nat) (x : Core) : (c.setCore k x).core j = if j = k then x else c.core j :=
  Map.get_set ..

theorem Cluster.setCore_setCore (c : Cluster) (k : Nat) (x y : Core) : (c.setCore k x).setCore k y = c.setCore k y :=
  congrArg (fun m => { c with cores := m }) (Map.set_set ..)

/-- A cluster after the end of an operation of core k, which leaves that core and the registers of the block. -/
def Cluster.coreEnds (c : Cluster) (k : Nat) (q : Core) (r : CluRegs) : Cluster := { c.setCore k q with clu := r }

theorem Cluster.core_coreEnds (c : Cluster) (k j : Nat) (q : Core) (r : CluRegs) :
    (c.coreEnds k q r).core j = if j = k then q else c.core j := c.core_setCore k j q

/-! ## The operand cache of a core -/

/-- Memory after writes of bytes at offsets of a core's operand cache. -/
def Mem.cachePut (n k : Nat) (m : Mem) (ws : List (Nat × List Byte)) : Mem :=
  ws.foldl (fun m w => Mem.writeN memDefault m (cacheAddr n k w.1) w.2) m

theorem Mem.read_cachePut_outside {n k x : Nat} {ws : List (Nat × List Byte)}
    (h : ∀ w ∈ ws, x < cacheAddr n k w.1 ∨ cacheAddr n k w.1 + w.2.length ≤ x) (m : Mem) :
    Mem.read memDefault (Mem.cachePut n k m ws) x = Mem.read memDefault m x := by
  induction ws generalizing m with
  | nil => rfl
  | cons w ws ih =>
    obtain ⟨hw, hws⟩ := List.forall_mem_cons.mp h
    exact (ih hws _).trans (Mem.read_writeN_outside _ _ _ hw)

theorem Dev.cacheWrites_quiet {d : Dev} (h : d.quiet) (n k : Nat) (ws : List (Nat × List Byte)) :
    d.cacheWrites n k ws = { d with mem := Mem.cachePut n k d.mem ws } := by
  induction ws generalizing d with
  | nil => rfl
  | cons w ws ih =>
    change Dev.cacheWrites n k ws (d.writeBytes reqOp (cacheAddr n k w.1) w.2) = _
    rw [Dev.writeBytes_quiet h, ih (Dev.quiet_mem h _)]
    rfl

theorem Dev.cacheReads_quiet {d : Dev} (h : d.quiet) (n k : Nat) (rs : List (Nat × Nat)) : d.cacheReads n k rs = (d, true) := by
  induction rs with
  | nil => rfl
  | cons r rs ih => rw [Dev.cacheReads, Dev.readOk_quiet h]; exact ih

theorem Dev.memFrame_cacheReads (d : Dev) (n k : Nat) (rs : List (Nat × Nat)) : d.memFrame (d.cacheReads n k rs).1 := by
  induction rs generalizing d with
  | nil => exact d.memFrame_refl
  | cons r rs ih =>
    have h := d.memFrame_readOk reqOp (cacheAddr n k r.1) r.2
    unfold Dev.cacheReads
    split
    · next e he => rw [he] at h; exact Dev.memFrame_trans h (ih e)
    · next e he => rw [he] at h; exact h

theorem Dev.clu_cacheReads (d : Dev) (n k j : Nat) (rs : List (Nat × Nat)) : (d.cacheReads n k rs).1.clu j = d.clu j := by
  unfold Dev.clu
  rw [(d.memFrame_cacheReads n k rs).1]

/-! ## Operations that start (R108, R134) -/

theorem exec_matrixOpStart (n k : Nat) (s : State) :
    exec (.matrixOpStart n k) s = .next
      { s with dev := if !((s.dev.clu n).core k).mrun && !((s.dev.clu n).core k).mq.isEmpty then
          s.dev.setClu n ((s.dev.clu n).setCore k { (s.dev.clu n).core k with mrun := true }) else s.dev } := rfl

theorem exec_vectorOpStart (n k : Nat) (s : State) :
    exec (.vectorOpStart n k) s = .next
      { s with dev := if !((s.dev.clu n).core k).vrun && !((s.dev.clu n).core k).vq.isEmpty then
          s.dev.setClu n ((s.dev.clu n).setCore k { (s.dev.clu n).core k with vrun := true }) else s.dev } := rfl

/-! ## Operations that end (R130, R154, R160, R161) -/

/-- The core fault of an operation that has just ended. -/
theorem Dev.coreFault_modClu (n k : Nat) (f : Core → Core) (d : Dev) :
    (Dev.modClu n (fun y => y.setCore k (f (y.core k))) d).coreFault n k =
      d.setClu n ((d.clu n).coreEnds k (f ((d.clu n).core k)).discard
        { (d.clu n).clu with coreFault := setBit (d.clu n).clu.coreFault k }) := by
  rw [Dev.coreFault, Dev.modClu, Dev.clu_modClu_same, Cluster.core_setCore, if_pos rfl, Cluster.setCore_setCore, Dev.modClu,
    Dev.setClu_setClu]
  rfl

/-- The tag of a matrix operation. -/
theorem ofNat_mxDesc_opTag (ws : List W32) : BitVec.ofNat 16 (mxDesc ws).opTag = (word ws 7).setWidth 16 := by
  change BitVec.ofNat (15 - 0 + 1) (fld (word ws 7) 15 0) = _
  rw [ofNat_fld]
  rfl

/-- The tag of a vector operation. -/
theorem ofNat_vecDesc_opTag (ws : List W32) : BitVec.ofNat 16 (vecDesc ws).opTag = (word ws 0 >>> 16).setWidth 16 := by
  change BitVec.ofNat (31 - 16 + 1) (fld (word ws 0) 31 16) = _
  rw [ofNat_fld]
  rfl

theorem Core.mxDone_head {q : Core} {op : MxOp} {rest : List MxOp} (hm : q.mq = op :: rest) : q.mxDone (mxDesc op.words).opTag =
    { q with mq := rest, mrun := false, mtag := (word op.words 7).setWidth 16, mcnt := q.mcnt + 1 } := by
  rw [Core.mxDone, hm, List.tail_cons, ofNat_mxDesc_opTag]

theorem Core.vecDone_head {q : Core} {op : VecOp} {rest : List VecOp} (hm : q.vq = op :: rest) : q.vecDone (vecDesc op.words).opTag =
    { q with vq := rest, vrun := false, vtag := (word op.words 0 >>> 16).setWidth 16, vcnt := q.vcnt + 1 } := by
  rw [Core.vecDone, hm, List.tail_cons, ofNat_vecDesc_opTag]

section
variable {d : Dev} {n k : Nat} {q : Core} (hc : (d.clu n).core k = q)
include hc

section
variable {op : MxOp} {rest : List MxOp} (hr : q.mrun = true) (hm : q.mq = op :: rest)
include hr hm

/-- A matrix operation whose operands can be read writes its product (R114, R117, R130). -/
theorem Dev.mxEnd_quiet (hq : d.quiet) :
    let run := mxRun (mxDesc op.words) fun off len => d.bytes (cacheAddr n k off) len
    d.mxEnd n k = { d with mem := Mem.cachePut n k d.mem run.1 }.setClu n ((d.clu n).coreEnds k
      { q with mq := rest, mrun := false, mtag := (word op.words 7).setWidth 16, mcnt := q.mcnt + 1 }
      { (d.clu n).clu with isat := if run.2 then setBit (d.clu n).clu.isat k else (d.clu n).clu.isat }) := by
  intro run
  rw [← Core.mxDone_head hm, Dev.mxEnd]
  simp only [hc, hr, hm, Dev.cacheReads_quiet hq, Dev.cacheWrites_quiet hq]
  subst hc
  rfl

/-- A matrix operation with an operand that cannot be read faults its core (R161). -/
theorem Dev.mxEnd_unreadable (hu : (d.cacheReads n k (mxDesc op.words).reads).2 = false) :
    d.mxEnd n k = (d.cacheReads n k (mxDesc op.words).reads).1.setClu n ((d.clu n).coreEnds k
      { q with mq := [], mrun := false, mtag := (word op.words 7).setWidth 16, mcnt := q.mcnt + 1 + BitVec.ofNat 16 rest.length,
               vq := q.vq.take (b2n q.vrun), vcnt := q.vcnt + BitVec.ofNat 16 (q.vq.length - b2n q.vrun) }
      { (d.clu n).clu with coreFault := setBit (d.clu n).clu.coreFault k }) := by
  have hclu := d.clu_cacheReads n k n (mxDesc op.words).reads
  rw [Dev.mxEnd]
  simp only [hc, hr, hm]
  generalize d.cacheReads n k (mxDesc op.words).reads = r at hu hclu ⊢
  obtain ⟨e, ok⟩ := r
  subst hu
  refine (Dev.coreFault_modClu n k (fun x => x.mxDone (mxDesc op.words).opTag) e).trans ?_
  rw [hclu, hc, Core.mxDone_head hm]
  rfl

end

section
variable {op : VecOp} {rest : List VecOp} (hr : q.vrun = true) (hm : q.vq = op :: rest)
include hr hm

/-- A vector operation whose operands can be read writes its outputs and folds its values (R146, R154). -/
theorem Dev.vecEnd_quiet (hq : d.quiet) :
    let run := vecRun (vecDesc op.words) op.prog fun off len => d.bytes (cacheAddr n k off) len
    d.vecEnd n k = { d with mem := Mem.cachePut n k d.mem run.1 }.setClu n ((d.clu n).coreEnds k
      { q with vq := rest, vrun := false, vtag := (word op.words 0 >>> 16).setWidth 16, vcnt := q.vcnt + 1 }
      ((d.clu n).clu.folds run.2)) := by
  intro run
  rw [← Core.vecDone_head hm, Dev.vecEnd]
  simp only [hc, hr, hm, Dev.cacheReads_quiet hq, Dev.cacheWrites_quiet hq]
  subst hc
  rfl

/-- A vector operation with an operand that cannot be read faults its core (R161). -/
theorem Dev.vecEnd_unreadable (hu : (d.cacheReads n k ((vecDesc op.words).reads op.prog)).2 = false) :
    d.vecEnd n k = (d.cacheReads n k ((vecDesc op.words).reads op.prog)).1.setClu n ((d.clu n).coreEnds k
      { q with vq := [], vrun := false, vtag := (word op.words 0 >>> 16).setWidth 16, vcnt := q.vcnt + 1 + BitVec.ofNat 16 rest.length,
               mq := q.mq.take (b2n q.mrun), mcnt := q.mcnt + BitVec.ofNat 16 (q.mq.length - b2n q.mrun) }
      { (d.clu n).clu with coreFault := setBit (d.clu n).clu.coreFault k }) := by
  have hclu := d.clu_cacheReads n k n ((vecDesc op.words).reads op.prog)
  rw [Dev.vecEnd]
  simp only [hc, hr, hm]
  generalize d.cacheReads n k ((vecDesc op.words).reads op.prog) = r at hu hclu ⊢
  obtain ⟨e, ok⟩ := r
  subst hu
  refine (Dev.coreFault_modClu n k (fun x => x.vecDone (vecDesc op.words).opTag) e).trans ?_
  rw [hclu, hc, Core.vecDone_head hm]
  rfl

end
end

/-! ## The end of an operation as a step -/

section
variable {i : Instr} {s : State} {n k : Nat} {q : Core} {r : CluRegs}

/-- A step that writes a core's operand cache and ends its operation. -/
theorem exec_coreEnds_wrote {ws : List (Nat × List Byte)} {d : Dev} (h : exec i s = .next { s with dev := d })
    (hd : d = { s.dev with mem := Mem.cachePut n k s.dev.mem ws }.setClu n ((s.dev.clu n).coreEnds k q r)) :
    ∃ t, exec i s = .next t ∧
      t = { s with dev := { s.dev.setClu n (t.dev.clu n) with mem := Mem.cachePut n k s.dev.mem ws } } ∧
      t.dev.clu n = { s.dev.clu n with cores := (t.dev.clu n).cores, clu := r } ∧ (t.dev.clu n).core k = q ∧
      (∀ j, j ≠ k → (t.dev.clu n).core j = (s.dev.clu n).core j) ∧
      ∀ x, (∀ w ∈ ws, x < cacheAddr n k w.1 ∨ cacheAddr n k w.1 + w.2.length ≤ x) → t.dev.byte x = s.dev.byte x := by
  subst hd
  refine ⟨_, h, ?_, ?_, ?_, ?_, ?_⟩
  · rw [Dev.clu_setClu_same]
    rfl
  · rw [Dev.clu_setClu_same]
    rfl
  · rw [Dev.clu_setClu_same, Cluster.core_coreEnds, if_pos rfl]
  · intro j hj
    rw [Dev.clu_setClu_same, Cluster.core_coreEnds, if_neg hj]
  · exact fun x hx => Mem.read_cachePut_outside hx s.dev.mem

/-- A step that faults a core at the end of its operation. -/
theorem exec_coreEnds_faulted {e d : Dev} (h : exec i s = .next { s with dev := d }) (hd : d = e.setClu n ((s.dev.clu n).coreEnds k q r)) :
    ∃ t, exec i s = .next t ∧ t.dev.clu n = { s.dev.clu n with cores := (t.dev.clu n).cores, clu := r } ∧
      (t.dev.clu n).core k = q ∧ ∀ j, j ≠ k → (t.dev.clu n).core j = (s.dev.clu n).core j := by
  subst hd
  refine ⟨_, h, ?_, ?_, fun j hj => ?_⟩ <;> rw [Dev.clu_setClu_same]
  · rfl
  · rw [Cluster.core_coreEnds, if_pos rfl]
  · rw [Cluster.core_coreEnds, if_neg hj]

end

theorem exec_matrixOpEnd (n k : Nat) (s : State) : exec (.matrixOpEnd n k) s = .next { s with dev := s.dev.mxEnd n k } := rfl

theorem exec_vectorOpEnd (n k : Nat) (s : State) : exec (.vectorOpEnd n k) s = .next { s with dev := s.dev.vecEnd n k } := rfl

/-- Settles O23: an operation starts under its guard, and ends either with the writes of its run or with the fault of its core. -/
theorem coreOperationsRun : Obligations.CoreOperationsRun := by
  refine ⟨fun n k s => ⟨?_, ?_, ?_, ?_⟩, fun n k s => ⟨?_, ?_⟩⟩
  · rintro ⟨hr, hm⟩
    rw [exec_matrixOpStart, if_pos (by simp [hr, hm])]
  · intro h
    rw [exec_matrixOpStart, if_neg (by rcases h with h | h <;> simp [h])]
  · rintro ⟨hr, hm⟩
    rw [exec_vectorOpStart, if_pos (by simp [hr, hm])]
  · intro h
    rw [exec_vectorOpStart, if_neg (by rcases h with h | h <;> simp [h])]
  · exact fun op rest hr hm => ⟨fun hq => exec_coreEnds_wrote (exec_matrixOpEnd n k s) (Dev.mxEnd_quiet rfl hr hm hq),
      fun hu => exec_coreEnds_faulted (exec_matrixOpEnd n k s) (Dev.mxEnd_unreadable rfl hr hm hu)⟩
  · exact fun op rest hr hm => ⟨fun hq => exec_coreEnds_wrote (exec_vectorOpEnd n k s) (Dev.vecEnd_quiet rfl hr hm hq),
      fun hu => exec_coreEnds_faulted (exec_vectorOpEnd n k s) (Dev.vecEnd_unreadable rfl hr hm hu)⟩

end Sys2Proof.Machine
end

section
/-! SUPPORT. ISSUE.M and ISSUE.V (R108, R109, R134, R135, R138, R159): the checks before the descriptor's own, the queues that take
an operation, and the wait for a full one. -/

namespace Sys2Proof.Machine

/-! ## The cores of a mask -/

theorem mem_bitsOf_mask (mask : W32) (k : Nat) : k ∈ bitsOf 32 mask.toNat ↔ k < 32 ∧ mask.getLsbD k = true := by
  rw [bitsOf, List.mem_filter, List.mem_range, BitVec.testBit_toNat]

theorem nodup_bitsOf (n x : Nat) : (bitsOf n x).Nodup := List.nodup_range.filter _

/-- A core of the mask has no place left in a queue. -/
theorem any_full_iff (mask : W32) (len : Nat → Nat) : ((bitsOf 32 mask.toNat).any fun k => coreQueue ≤ len k) = true ↔
    ∃ k, k < 32 ∧ mask.getLsbD k = true ∧ 4 ≤ len k := by
  simp only [List.any_eq_true, mem_bitsOf_mask, decide_eq_true_iff, and_assoc]
  rfl

/-- A cluster after an operation has been offered to a list of cores. -/
def Cluster.offered (c : Cluster) (f : Core → Core) (ks : List Nat) : Cluster := ks.foldl (fun c k => c.setCore k (f (c.core k))) c

theorem Dev.offer_eq (n : Nat) (mask : W32) (f : Core → Core) (d : Dev) :
    d.offer n mask f = d.setClu n ((d.clu n).offered f (bitsOf 32 mask.toNat)) := rfl

theorem Cluster.offered_frame (c : Cluster) (f : Core → Core) (ks : List Nat) : c.offered f ks = { c with cores := (c.offered f ks).cores } := by
  induction ks generalizing c with
  | nil => rfl
  | cons k ks ih => exact ih (c.setCore k (f (c.core k)))

theorem Cluster.core_offered (f : Core → Core) {ks : List Nat} (h : ks.Nodup) (c : Cluster) (j : Nat) :
    (c.offered f ks).core j = if j ∈ ks then f (c.core j) else c.core j := by
  induction ks generalizing c with
  | nil => rfl
  | cons k ks ih =>
    obtain ⟨hk, hks⟩ := List.nodup_cons.mp h
    change ((c.setCore k (f (c.core k))).offered f ks).core j = _
    rw [ih hks, Cluster.core_setCore]
    by_cases hj : j = k
    · subst hj
      simp [hk]
    · simp [hj]

/-! ## The checks before the descriptor's own (R159) -/

section
variable {off size : Nat} {mask : W32} (hm : mask ≠ 0)
include hm

/-- A mask that names a core decides nothing. -/
theorem firstFail_mask (cs : Checks) : firstFail ((mask == 0, eRange) :: cs) = firstFail cs := if_neg (by simpa using hm)

theorem firstFail_unaligned (ha : off % 4 ≠ 0) (cs : Checks) :
    firstFail ((mask == 0, eRange) :: (decide (off % 4 ≠ 0), eAlign) :: cs) = some eAlign :=
  (firstFail_mask hm _).trans (if_pos (decide_eq_true ha))

theorem firstFail_place (ha : off % 4 = 0) :
    firstFail [(mask == 0, eRange), (decide (off % 4 ≠ 0), eAlign), (decide (0x10000 < off + size), eRange)] =
      if 0x10000 < off + size then some eRange else none := by
  rw [firstFail_mask hm]
  simp [firstFail, ha]

end

section
variable {d : Dev} {n off : Nat} {mask : W32} (words : W32 → Nat)

theorem Dev.issueFront_empty : d.issueFront n off 0 words = (d, .error eRange) := rfl

theorem Dev.issueFront_unaligned (hm : mask ≠ 0) (ha : off % 4 ≠ 0) : d.issueFront n off mask words = (d, .error eAlign) := by
  rw [Dev.issueFront, firstFail_unaligned hm ha]

theorem Dev.issueFront_outside (hm : mask ≠ 0) (ha : off % 4 = 0)
    (h : 0x10000 < off + 4 * words (BitVec.ofNat 32 (ofBytes (d.bytes (storeAddr n off) 4)))) :
    d.issueFront n off mask words = (d, .error eRange) := by
  change 0x10000 < off + 4 * words (BitVec.ofNat 32 (ofBytes (d.bytes (storeAddr n 0 + off) 4))) at h
  rw [Dev.issueFront, firstFail_place hm ha, if_pos h]

/-- A descriptor in the store is offered to cores of which none has faulted. -/
theorem Dev.issueFront_inside (hq : d.quiet) (hm : mask ≠ 0) (ha : off % 4 = 0) {nw : Nat}
    (hw : words (BitVec.ofNat 32 (ofBytes (d.bytes (storeAddr n off) 4))) = nw) (hs : off + 4 * nw ≤ 0x10000) :
    d.issueFront n off mask words = (d, if (d.clu n).clu.coreFault &&& mask ≠ 0 then .error eState
      else .ok (bytesToWords nw (d.bytes (storeAddr n off) (4 * nw)))) := by
  change words (BitVec.ofNat 32 (ofBytes (d.bytes (storeAddr n 0 + off) 4))) = nw at hw
  rw [Dev.issueFront, hw, firstFail_place hm ha, if_neg (not_lt.mpr hs)]
  dsimp only
  rw [Dev.readBytes_quiet hq]
  dsimp only
  rw [Nat.mul_div_cancel_left nw (by decide), apply_ite (Prod.mk d)]
  rfl

end

/-! ## The instructions -/

/-- A wait for a full queue is counted, by a number that is open (R174, log 23). -/
theorem Dev.stall_eq (n : Nat) (d : Dev) : ∃ k, d.stall n = { d.setClu n { d.clu n with
    clu := { (d.clu n).clu with stall := BitVec.ofNat 32 (satInc 32 (d.clu n).clu.stall.toNat k) } } with free := (d.stall n).free } := ⟨_, rfl⟩

theorem le_toNat_ofNat_satInc (x : W32) (k : Nat) : x.toNat ≤ (BitVec.ofNat 32 (satInc 32 x.toNat k)).toNat := by
  have := x.isLt
  rw [BitVec.toNat_ofNat, satInc]
  omega

section
variable {s : State} {n : Nat} {d a b : Reg} {mask : W32} {off : Nat}

/-- A step that queues an operation on the cores of a mask and answers 0. -/
theorem exec_offered {i : Instr} {f : Core → Core} (h : exec i s = .next { s with dev := (s.dev.offer n mask f).ret n d 0 }) :
    ∃ t, exec i s = .next t ∧
      t = { s with dev := s.dev.setClu n { s.dev.clu n with
        ctl := { (s.dev.clu n).ctl.put d 0 with pc := (s.dev.clu n).ctl.pc + 4 }, cores := (t.dev.clu n).cores } } ∧
      ∀ k, (t.dev.clu n).core k =
        if k < 32 ∧ mask.getLsbD k = true then f ((s.dev.clu n).core k) else (s.dev.clu n).core k := by
  have hcore := Cluster.core_offered f (nodup_bitsOf 32 mask.toNat) (s.dev.clu n)
  rw [Dev.offer_eq, Dev.ret_eq, Dev.setClu_setClu, Dev.clu_setClu_same, Cluster.offered_frame] at h
  refine ⟨_, h, ?_, fun k => ?_⟩ <;> rw [Dev.clu_setClu_same]
  simp only [← mem_bitsOf_mask]
  exact hcore k

variable (hq : s.dev.quiet)
include hq

theorem State.after_ret (v : W64) : s.after n (fun x => { x.put d v with pc := x.pc + 4 }) = { s with dev := s.dev.ret n d v } := by
  rw [State.after, Dev.fetched_quiet hq, Dev.ret_eq]

variable (hf : s.dev.fetchOk n)
include hf

theorem onMem_instr (f : Dev → Dev) : onMem (Dev.instr n f) s = .next { s with dev := f s.dev } := by
  rw [onMem_quiet hq.snoops, Dev.instr_fetchOk hf, Dev.fetched_quiet hq]

section
variable (hm : (s.dev.reg n b).setWidth 32 = mask)
include hm

theorem exec_issueM_waits (h : ∃ k, k < 32 ∧ mask.getLsbD k = true ∧ 4 ≤ ((s.dev.clu n).core k).mq.length) :
    exec (.issueM n d a b) s = .next { s with dev := s.dev.stall n } := by
  refine (onMem_instr hq hf _).trans ?_
  dsimp only
  rw [hm, if_pos ((any_full_iff mask _).mpr h)]

variable (ha : (s.dev.reg n a).toNat = off)
include ha

section
variable (hroom : ¬∃ k, k < 32 ∧ mask.getLsbD k = true ∧ 4 ≤ ((s.dev.clu n).core k).mq.length)
include hroom

theorem exec_issueM_rejected {c : Code} (h : s.dev.issueFront n off mask mxWords = (s.dev, .error c)) :
    exec (.issueM n d a b) s = .next (s.after n fun x => { x.put d (c.setWidth 64) with pc := x.pc + 4 }) := by
  refine (onMem_instr hq hf _).trans ?_
  dsimp only
  rw [hm, if_neg (mt (any_full_iff mask _).mp hroom), ha, h, State.after_ret hq]
  rfl

/-- A matrix descriptor that lies in the store is judged by its own checks (R109). -/
theorem exec_issueM_checked {ws : List W32} (h : s.dev.issueFront n off mask mxWords = (s.dev, .ok ws)) :
    exec (.issueM n d a b) s = .next { s with
      dev := (mxCheck ws (s.dev.die (n / 256)).fp4fp6).elim
        ((s.dev.offer n mask fun k => { k with mq := k.mq ++ [{ words := ws }] }).ret n d 0) fun c => s.dev.ret n d (c.setWidth 64) } := by
  refine (onMem_instr hq hf _).trans ?_
  dsimp only
  rw [hm, if_neg (mt (any_full_iff mask _).mp hroom), ha, h]
  dsimp only
  cases mxCheck ws (s.dev.die (n / 256)).fp4fp6 <;> rfl

end

section
variable (hroom : ¬∃ k, k < 32 ∧ mask.getLsbD k = true ∧ 4 ≤ ((s.dev.clu n).core k).vq.length)
include hroom

theorem exec_issueV_rejected {c : Code} (h : (s.dev.issueFront n off mask fun _ => 32) = (s.dev, .error c)) :
    exec (.issueV n d a b) s = .next (s.after n fun x => { x.put d (c.setWidth 64) with pc := x.pc + 4 }) := by
  refine (onMem_instr hq hf _).trans ?_
  dsimp only
  rw [hm, if_neg (mt (any_full_iff mask _).mp hroom), ha, h, State.after_ret hq]
  rfl

/-- A vector descriptor that passes its checks is judged by its element program, which the cores then hold (R138). -/
theorem exec_issueV_checked {ws : List W32} (h : (s.dev.issueFront n off mask fun _ => 32) = (s.dev, .ok ws)) (hc : vecCheck ws = none)
    {v : VecDesc} (hv : vecDesc ws = v) {prog : List W32}
    (hp : bytesToWords v.progLen (s.dev.bytes (storeAddr n v.prog) (4 * v.progLen)) = prog) :
    exec (.issueV n d a b) s = .next { s with dev := if progBad v prog = true then s.dev.ret n d (eRange.setWidth 64)
      else (s.dev.offer n mask fun k => { k with vq := k.vq ++ [{ words := ws, prog := prog }] }).ret n d 0 } := by
  refine (onMem_instr hq hf _).trans ?_
  dsimp only
  rw [hm, if_neg (mt (any_full_iff mask _).mp hroom), ha, h]
  dsimp only
  rw [hc]
  dsimp only
  rw [hv, Dev.readBytes_quiet hq]
  dsimp only
  rw [hp]
  rfl

end
end
end

/-- Settles O19: each check has its own lemma, in the order of R159; what passes them all is offered to the cores of the mask. -/
theorem issueChecksAndQueues : Obligations.IssueChecksAndQueues := by
  refine ⟨?_, ?_⟩
  · intro n d a b s hq hf c mask off w0 nw ws code room
    have hroomM : room → ¬∃ k, k < 32 ∧ mask.getLsbD k = true ∧ 4 ≤ (c.core k).mq.length :=
      fun h ⟨k, hk, hb, hl⟩ => absurd (h k hk hb).1 (not_lt.mpr hl)
    have hroomV : room → ¬∃ k, k < 32 ∧ mask.getLsbD k = true ∧ 4 ≤ (c.core k).vq.length :=
      fun h ⟨k, hk, hb, hl⟩ => absurd (h k hk hb).2 (not_lt.mpr hl)
    have hinside := fun hm ha hs => Dev.issueFront_inside (mask := mask) mxWords hq hm ha (nw := nw) rfl hs
    refine ⟨fun hr hm => ?_, fun hr hm ha => ⟨?_, ?_⟩, fun hr hm ha hs => ?_, fun hr hm ha hs hx => ?_, fun hr hm ha hs hx => ?_, fun h => ?_⟩
    · have hfront : ∀ w, s.dev.issueFront n off mask w = (s.dev, .error eRange) := fun w => hm ▸ Dev.issueFront_empty w
      exact ⟨exec_issueM_rejected hq hf rfl rfl (hroomM hr) (hfront _), exec_issueV_rejected hq hf rfl rfl (hroomV hr) (hfront _)⟩
    · exact exec_issueM_rejected hq hf rfl rfl (hroomM hr) (Dev.issueFront_unaligned _ hm ha)
    · exact exec_issueV_rejected hq hf rfl rfl (hroomV hr) (Dev.issueFront_unaligned _ hm ha)
    · exact exec_issueM_rejected hq hf rfl rfl (hroomM hr) (Dev.issueFront_outside _ hm ha hs)
    · exact exec_issueM_rejected hq hf rfl rfl (hroomM hr) ((hinside hm ha hs).trans (congrArg _ (if_pos hx)))
    · have hexec := exec_issueM_checked (d := d) hq hf rfl rfl (hroomM hr) ((hinside hm ha hs).trans (congrArg _ (if_neg (not_not.mpr hx))))
      refine ⟨fun e hc => ?_, fun hc => ?_⟩ <;> rw [hc] at hexec
      · exact hexec.trans (congrArg _ (State.after_ret hq _).symm)
      · exact exec_offered hexec
    · obtain ⟨k, hk⟩ := s.dev.stall_eq n
      have hclu : (s.dev.stall n).clu n = { c with clu := { c.clu with stall := BitVec.ofNat 32 (satInc 32 c.clu.stall.toNat k) } } := by
        rw [hk]
        exact Dev.clu_setClu_same ..
      refine ⟨_, exec_issueM_waits hq hf rfl h, ?_, ?_⟩
      · rw [hclu]
        exact congrArg (fun e => ({ s with dev := e } : State)) hk
      · rw [hclu]
        exact le_toNat_ofNat_satInc ..
  · intro n d a b s hq hf c mask off ws v prog hr hm ha hs hx hc
    have hroom : ¬∃ k, k < 32 ∧ mask.getLsbD k = true ∧ 4 ≤ (c.core k).vq.length :=
      fun ⟨k, hk, hb, hl⟩ => absurd (hr k hk hb) (not_lt.mpr hl)
    have hfront : (s.dev.issueFront n off mask fun _ => 32) = (s.dev, .ok ws) :=
      (Dev.issueFront_inside _ hq hm ha rfl hs).trans (congrArg _ (if_neg (not_not.mpr hx)))
    have hexec := exec_issueV_checked (d := d) hq hf rfl rfl hroom hfront hc (v := v) rfl (prog := prog) rfl
    refine ⟨fun hp => ?_, fun hp => ?_⟩
    · rw [if_pos hp] at hexec
      exact hexec.trans (congrArg _ (State.after_ret hq _).symm)
    · rw [if_neg (ne_true_of_eq_false hp)] at hexec
      exact exec_offered hexec

end Sys2Proof.Machine
end

section
/-! SUPPORT. Arithmetic of a control core (R155, R158). -/

namespace Sys2Proof.Machine

/-! ## The register banks (R155) -/

/-- A write of a register leaves every system register. -/
@[simp] theorem CtlRegs.put_status (x : CtlRegs) (r : Reg) (v : W64) : (x.put r v).status = x.status := by
  unfold CtlRegs.put
  split
  · rfl
  · split <;> rfl

@[simp] theorem CtlRegs.inFast_put (x : CtlRegs) (r : Reg) (v : W64) : (x.put r v).inFast = x.inFast := by
  rw [CtlRegs.inFast, CtlRegs.put_status, CtlRegs.inFast]

theorem CtlRegs.get_zero (x : CtlRegs) : x.get 0 = 0 := if_pos rfl

theorem CtlRegs.put_zero (x : CtlRegs) (v : W64) : x.put 0 v = x := if_pos rfl

/-- The bank that holds while a fast handler runs. -/
theorem CtlRegs.put_fast {x : CtlRegs} (h : x.inFast = true) {r : Reg} (hr : r ≠ 0) (v : W64) :
    x.put r v = { x with fast := x.fast.set r v } := by
  rw [CtlRegs.put, if_neg hr, if_pos h]

/-- The bank that holds otherwise. -/
theorem CtlRegs.put_normal {x : CtlRegs} (h : x.inFast = false) {r : Reg} (hr : r ≠ 0) (v : W64) :
    x.put r v = { x with normal := x.normal.set r v } := by
  rw [CtlRegs.put, if_neg hr, if_neg (by simp [h])]

theorem Vector.get_set_fin {α : Type} {n : Nat} (x : Vector α n) (r q : Fin n) (v : α) :
    (x.set r v).get q = if q = r then v else x.get q := by
  rw [Vector.get_eq_getElem, Vector.getElem_set, Vector.get_eq_getElem]
  simp only [Fin.ext_iff, eq_comm]

theorem CtlRegs.get_put (x : CtlRegs) {r : Reg} (hr : r ≠ 0) (q : Reg) (v : W64) :
    (x.put r v).get q = if q = r then v else x.get q := by
  by_cases hq : q = 0
  · rw [hq, if_neg hr.symm, CtlRegs.get_zero, CtlRegs.get_zero]
  · rw [CtlRegs.get, CtlRegs.get, CtlRegs.inFast_put, if_neg hq, if_neg hq]
    cases h : x.inFast
    · rw [CtlRegs.put_normal h hr]
      exact Vector.get_set_fin ..
    · rw [CtlRegs.put_fast h hr]
      exact Vector.get_set_fin ..

theorem CtlRegs.put_frame (x : CtlRegs) (r : Reg) (v : W64) :
    x.put r v = { x with normal := (x.put r v).normal, fast := (x.put r v).fast } := by
  unfold CtlRegs.put
  split
  · rfl
  · split <;> rfl

/-- A write of one bank leaves the other. -/
theorem CtlRegs.put_other_bank (x : CtlRegs) (r : Reg) (v : W64) :
    (x.inFast = true → (x.put r v).normal = x.normal) ∧ (x.inFast = false → (x.put r v).fast = x.fast) := by
  by_cases hr : r = 0
  · rw [hr, CtlRegs.put_zero]
    exact ⟨fun _ => rfl, fun _ => rfl⟩
  · exact ⟨fun h => by rw [CtlRegs.put_fast h hr], fun h => by rw [CtlRegs.put_normal h hr]⟩

/-! ## Instructions with a result (R158) -/

/-- An instruction that writes a function of two registers. -/
theorem onDev_alu {s : State} {n : Nat} (h : s.dev.fetchOk n) (d a b : Reg) {f : W64 → W64 → W64} {v : W64}
    (hv : f (s.dev.reg n a) (s.dev.reg n b) = v) :
    onDev (Dev.alu n d a b f) s = .next (s.after n fun c => { c.put d v with pc := c.pc + 4 }) :=
  onDev_instr_result h (by rw [Dev.reg_fetched, Dev.reg_fetched, hv])

theorem toNat_extractLsb'_six (y : W64) : (y.extractLsb' 0 6).toNat = y.toNat % 64 := by
  simp [BitVec.extractLsb'_toNat]

theorem mul_eq_extractLsb' (x y : W64) : x * y = (x.setWidth 128 * y.setWidth 128).extractLsb' 0 64 := by
  apply BitVec.eq_of_toNat_eq
  have hx : x.toNat % 2 ^ 128 = x.toNat := Nat.mod_eq_of_lt (x.isLt.trans (by decide))
  have hy : y.toNat % 2 ^ 128 = y.toNat := Nat.mod_eq_of_lt (y.isLt.trans (by decide))
  rw [BitVec.toNat_mul, BitVec.extractLsb'_toNat, BitVec.toNat_mul, BitVec.toNat_setWidth, BitVec.toNat_setWidth, hx, hy,
    Nat.shiftRight_zero, Nat.mod_mod_of_dvd _ (by decide)]

/-- The product of two 64-bit signed integers fits into 128 bits, whose upper half is its quotient by 2^64. -/
theorem mulh_eq_extractLsb' (x y : W64) :
    BitVec.ofInt 64 (x.toInt * y.toInt / 2 ^ 64) = (x.signExtend 128 * y.signExtend 128).extractLsb' 64 64 := by
  have hp : x.signExtend 128 * y.signExtend 128 = BitVec.ofInt 128 (x.toInt * y.toInt) := by
    rw [BitVec.ofInt_mul, BitVec.signExtend, BitVec.signExtend]
  rw [hp]
  apply BitVec.eq_of_toNat_eq
  rw [BitVec.extractLsb'_toNat, BitVec.toNat_ofInt, BitVec.toNat_ofInt, Nat.shiftRight_eq_div_pow]
  omega

/-- Settles O14: the banks by the rules of `get` and `put`, each instruction by the value that it writes. -/
theorem controlCoreArithmetic : Obligations.ControlCoreArithmetic := by
  unfold Obligations.ControlCoreArithmetic
  refine ⟨?_, ?_, ?_, ?_⟩
  · intro x r q v
    obtain ⟨hfast, hnormal⟩ := x.put_other_bank r v
    refine ⟨fun hr => ?_, fun hq => ?_, CtlRegs.get_zero _, x.put_zero v, hfast, hnormal, x.put_frame r v⟩
    · rw [CtlRegs.get_put x hr, if_pos rfl]
    · by_cases hr : r = 0
      · rw [hr, CtlRegs.put_zero]
      · rw [CtlRegs.get_put x hr, if_neg hq]
  · intro n d a b s h x y done
    have hsix := toNat_extractLsb'_six y
    refine ⟨onDev_alu h d a b rfl, onDev_alu h d a b rfl, onDev_alu h d a b rfl, onDev_alu h d a b rfl, onDev_alu h d a b rfl,
      onDev_alu h d a b ?_, onDev_alu h d a b ?_, onDev_alu h d a b ?_, onDev_alu h d a b ?_, onDev_alu h d a b ?_⟩
    · rw [BitVec.shiftLeft_eq', hsix]
    · rw [BitVec.ushiftRight_eq', hsix]
    · rw [BitVec.sshiftRight', hsix]
    · exact if_congr BitVec.slt_iff_toInt_lt rfl rfl
    · exact if_congr BitVec.ult_iff_toNat_lt rfl rfl
  · exact fun n d a imm s h => ⟨onDev_instr_result h (by rw [Dev.reg_fetched]), onDev_instr_result h rfl⟩
  · intro n d a b s h x y done
    refine ⟨onDev_alu h d a b (mul_eq_extractLsb' x y), onDev_alu h d a b (mulh_eq_extractLsb' x y), onDev_alu h d a b ?_,
      onDev_alu h d a b ?_⟩
    · rw [BitVec.udiv_def]
    · rw [BitVec.umod_def]

end Sys2Proof.Machine
end

section
/-! SUPPORT. Branches and jumps of a control core (R158, log 31). -/

namespace Sys2Proof.Machine

section
variable {s : State} {n : Nat} (h : s.dev.fetchOk n)
include h

/-- A branch leaves nothing but the pc. -/
theorem onDev_branch (a b : Reg) (tgt : BitVec 16) {f : W64 → W64 → Bool} (p : Prop) [Decidable p]
    (hp : f (s.dev.reg n a) (s.dev.reg n b) = true ↔ p) :
    onDev (Dev.branch n a b tgt f) s = .next (s.after n fun c => { c with pc := if p then tgt else c.pc + 4 }) := by
  rw [Dev.branch, onDev_instr h, Dev.reg_fetched, Dev.reg_fetched]
  by_cases hc : p
  · simp only [if_pos (hp.mpr hc), if_pos hc, Dev.modCtl, Dev.modClu, Dev.clu_fetched]
    rfl
  · simp only [if_neg (mt hp.mp hc), if_neg hc, Dev.next, Dev.modCtl, Dev.modClu, Dev.clu_fetched]
    rfl

/-- A jump leaves the offset of the next instruction in its destination. -/
theorem onDev_jump (d : Reg) {tgt : BitVec 16} {f : Dev → BitVec 16} (ht : f (s.dev.fetched n) = tgt) :
    onDev (Dev.instr n fun x => (x.wr n d (((x.clu n).ctl.pc + 4).setWidth 64)).modCtl n fun c => { c with pc := f x }) s =
      .next (s.after n fun c => { c.put d ((c.pc + 4).setWidth 64) with pc := tgt }) := by
  rw [onDev_instr h, ht]
  simp only [Dev.wr, Dev.modCtl, Dev.modClu, Dev.clu_fetched, Dev.clu_setClu_same, Dev.setClu_setClu]
  rfl

end

/-- Settles O15: a branch by its condition, a jump by its target. -/
theorem branchesSetPc : Obligations.BranchesSetPc := by
  intro n d a b tgt imm s h x y go
  exact ⟨onDev_branch h a b tgt _ beq_iff_eq, onDev_branch h a b tgt _ bne_iff_ne,
    onDev_branch h a b tgt _ BitVec.slt_iff_toInt_lt,
    onDev_branch h a b tgt _ (by rw [Bool.not_eq_true', ← Bool.not_eq_true, BitVec.slt_iff_toInt_lt, not_lt]),
    onDev_jump h d (f := fun _ => tgt) rfl,
    onDev_jump h d (f := fun e => (e.reg n a + imm).setWidth 16) (by rw [Dev.reg_fetched])⟩

end Sys2Proof.Machine
end

section
/-! SUPPORT. Exceptions, returns, double faults, the end of a program and the system registers (R155, R158, R178, R180, R450). -/

namespace Sys2Proof.Machine

/-! ## What a fetch writes to the outside: nothing (R197) -/

theorem Dev.out_eccEvt (u : MemUnit) (b : Nat) (d : Dev) : (d.eccEvt u b).out = d.out := by
  unfold Dev.eccEvt
  dsimp only
  split <;> rfl

theorem Dev.out_queueRow (u : MemUnit) (cw : Nat) (c : Bool) (d : Dev) : (d.queueRow u cw c).out = d.out := by
  unfold Dev.queueRow
  dsimp only
  split <;> rfl

theorem Dev.out_hitRow (u : MemUnit) (cw : Nat) (d : Dev) : (d.hitRow u cw).out = d.out := by
  unfold Dev.hitRow
  dsimp only
  split
  · exact Dev.out_queueRow ..
  · rfl

theorem Dev.out_hitLane (u : MemUnit) (cw y : Nat) (d : Dev) : (d.hitLane u cw y).out = d.out := by
  unfold Dev.hitLane
  dsimp only
  split
  · exact Dev.out_eccEvt ..
  · rfl

theorem Dev.out_lanes (u : MemUnit) (cw : Nat) (ys : List Nat) (d : Dev) : (ys.foldl (fun d y => d.hitLane u cw y) d).out = d.out := by
  induction ys generalizing d with
  | nil => rfl
  | cons y ys ih => exact (ih _).trans (Dev.out_hitLane ..)

theorem Dev.out_correctCw (u : MemUnit) (req cw : Nat) (syms : List Nat) (d : Dev) : (d.correctCw u req cw syms).out = d.out := by
  have hrec : ∀ e : Dev, ((e.modUnit u fun x => { x with ce := sat32 x.ce }).eccRecord u cw 1 req (syms.headD 127)).out = e.out := fun _ => rfl
  unfold Dev.correctCw
  dsimp only
  split
  · exact (Dev.out_lanes ..).trans ((Dev.out_hitRow ..).trans ((Dev.out_eccEvt ..).trans (hrec d)))
  · exact (Dev.out_eccEvt ..).trans (hrec d)

theorem Dev.out_countOdc (u : MemUnit) (cw : Nat) (d : Dev) : (d.countOdc u cw).out = d.out := by
  unfold Dev.countOdc
  split
  · split <;> rfl
  · rfl

theorem Dev.out_decodeCw (u : MemUnit) (cw : Nat) (d : Dev) : (d.decodeCw u cw).1.out = d.out := by
  unfold Dev.decodeCw
  split
  · dsimp only
    split <;> rfl
  · rfl

section
variable {req : Nat} (hr : req ≠ reqMc)
include hr

theorem Dev.out_mcError (cw : Nat) (d : Dev) : (d.mcError req cw).out = d.out := by
  rw [Dev.mcError, if_neg hr]

/-- Only a read of the management controller shows outside. -/
theorem Dev.out_touch (cw : Nat) (d : Dev) : (d.touch req cw).1.out = d.out := by
  unfold Dev.touch
  split
  · rfl
  · next u _ =>
    split
    · refine (Dev.out_mcError hr ..).trans ?_
      split
      · rfl
      · exact Dev.out_eccEvt ..
    · have h := (Dev.out_decodeCw u cw (d.countOdc u cw)).trans (Dev.out_countOdc u cw d)
      split
      · next e _ he => rw [he] at h; exact (Dev.out_correctCw ..).trans h
      · next e he =>
        rw [he] at h
        exact (Dev.out_mcError hr ..).trans ((Dev.out_queueRow ..).trans ((Dev.out_eccEvt ..).trans h))
      · next e _ _ _ he => rw [he] at h; exact h

theorem Dev.out_touchAll (cs : List Nat) (d : Dev) : (Dev.touchAll req cs d).1.out = d.out := by
  induction cs generalizing d with
  | nil => rfl
  | cons c cs ih =>
    have h := Dev.out_touch hr c d
    unfold Dev.touchAll
    split
    · next e he => rw [he] at h; exact (ih e).trans h
    · next e he => rw [he] at h; exact h

theorem Dev.out_readOk (a n : Nat) (d : Dev) : (d.readOk req a n).1.out = d.out := by
  refine (Dev.out_touchAll hr ..).trans ?_
  rw [List.foldl_cons, List.foldl_nil, Dev.note]
  split <;> rfl

end

theorem Dev.out_fetched (d : Dev) (n : Nat) : (d.fetched n).out = d.out := Dev.out_readOk (by decide) ..

theorem Dev.launches_fetched (d : Dev) (n : Nat) : (d.fetched n).launches = d.launches := by
  rw [Dev.fetched, (d.memFrame_readOk ..).1]

theorem Dev.clu_congr {d d' : Dev} (h : d'.clusters = d.clusters) (n : Nat) : d'.clu n = d.clu n := by rw [Dev.clu, h, Dev.clu]

/-- Equal devices make equal answers. -/
theorem State.next_congr {s : State} {d e : Dev} (h : d = e) : (.next { s with dev := d } : Result) = .next { s with dev := e } := by rw [h]

/-! ## Exceptions and returns (R178, R180) -/

/-- An undefined instruction, or IRET, outside a handler (R158): the address of the last bus error stays. -/
theorem Dev.exception_undefined {d : Dev} {n : Nat} (h : (d.clu n).ctl.inHandler = false) :
    d.exception n 2 0 none = d.setClu n { d.clu n with
      ctl := { (d.clu n).ctl with epc := (d.clu n).ctl.pc, estatus := (d.clu n).ctl.status,
                                  status := (d.clu n).ctl.status ||| 4, pc := (d.clu n).ctl.vecExc }
      clu := { (d.clu n).clu with excCause := 2, excCode := 0 } } := by
  rw [Dev.exception, if_neg (by rw [h]; decide)]
  rfl

theorem Dev.exception_double {d : Dev} {n : Nat} (h : (d.clu n).ctl.inHandler = true) (cause : Nat) (c : Code) (a : Option Nat) :
    d.exception n cause c a = (d.endProgram n .faulted).emit (.doubleFault n) := if_pos h

section
variable {d : Dev} {n : Nat}

theorem Dev.leaveHandler_fast (h : (d.clu n).ctl.inFast = true) : d.leaveHandler n = d.setClu n { d.clu n with
    ctl := { (d.clu n).ctl with pc := (d.clu n).ctl.fpc, status := (d.clu n).ctl.fstatus }
    icu := { (d.clu n).icu with fastSrc := none } } := by
  rw [Dev.leaveHandler, h]
  rfl

theorem Dev.leaveHandler_normal (hf : (d.clu n).ctl.inFast = false) (h : (d.clu n).ctl.inNormal = true) :
    d.leaveHandler n = d.setClu n { d.clu n with
      ctl := { (d.clu n).ctl with pc := (d.clu n).ctl.epc, status := (d.clu n).ctl.estatus }
      icu := { (d.clu n).icu with normalSrc := none } } := by
  rw [Dev.leaveHandler, hf, h]
  rfl

theorem Dev.leaveHandler_outside (h : (d.clu n).ctl.inHandler = false) : d.leaveHandler n = d.exception n 2 0 none := by
  obtain ⟨hn, hf⟩ := Bool.or_eq_false_iff.mp h
  rw [Dev.leaveHandler, hn, hf]
  rfl

end

/-! ## The end of a program (R450, R501) -/

/-- A cluster whose program has ended. -/
def Cluster.ended (c : Cluster) (k : EndKind) : Cluster :=
  { c with st := if k = EndKind.faulted then .stopped else .idle, occ := none, yieldReq := none, atYield := none,
           saved := if c.occ = some .crop then none else c.saved }

/-- Launches that wait for no cluster go on with none. -/
theorem Dev.pump_of_settled {d : Dev} (h : ∀ j ∈ d.launches, j.waiting = []) : d.pump = d := by
  have hw : (d.launches.flatMap fun j => j.waiting.map fun n => (j.id, n)) = [] :=
    List.flatMap_eq_nil_iff.mpr fun j hj => by rw [h j hj]; rfl
  rw [Dev.pump, hw]
  rfl

/-- The boot code of a cluster ends: the die hears of it only when it halts with 0 (R501). -/
theorem Dev.endProgram_boot {d : Dev} {n : Nat} (ho : (d.clu n).occ = some .boot) (hl : ∀ j ∈ d.launches, j.waiting = []) (k : EndKind) :
    d.endProgram n k = if k = .halted ∧ (d.clu n).ctl.normal.get 1 = 0 then
      (d.setClu n ((d.clu n).ended k)).modDie (n / 256) fun x => { x with bootLeft := x.bootLeft.filter (· != n) }
    else d.setClu n ((d.clu n).ended k) := by
  rw [Dev.endProgram, ho]
  dsimp only
  split
  · exact Dev.pump_of_settled hl
  · exact Dev.pump_of_settled hl

theorem Dev.endProgram_free {d : Dev} {n : Nat} (ho : (d.clu n).occ = none) (hl : ∀ j ∈ d.launches, j.waiting = []) (k : EndKind) :
    d.endProgram n k = d.setClu n ((d.clu n).ended k) := by
  rw [Dev.endProgram, ho]
  exact Dev.pump_of_settled hl

/-! ## The last cluster of a launch (R450) -/

/-- A launch after the end of its program on cluster n. -/
def LaunchJob.left (j : LaunchJob) (n : Nat) (k : EndKind) : LaunchJob :=
  { j with running := j.running.filter (· != n), faulted := if k = EndKind.faulted then insNat n j.faulted else j.faulted,
           aborted := j.aborted || k == EndKind.aborted }

/-- Two devices differ only in the launches, in what the report of one to a queue changes, and in the dies. -/
structure Dev.Reported (d d' : Dev) : Prop where
  frame : d' = { d with launches := d'.launches, lds := d'.lds, hostMem := d'.hostMem, dies := d'.dies }
  lay : ∀ n, (d'.ld n).lay = (d.ld n).lay

theorem Dev.lay_modLd (d : Dev) (ld : Nat) {f : Ld → Ld} (hf : ∀ l, (f l).lay = l.lay) (n : Nat) :
    ((d.modLd ld f).ld n).lay = (d.ld n).lay := by
  rw [Dev.ld_modLd]
  split
  · next h => rw [hf, h]
  · rfl

theorem Dev.Reported.trans {a b c : Dev} (h : a.Reported b) (k : b.Reported c) : a.Reported c :=
  ⟨by rw [k.frame, h.frame], fun n => (k.lay n).trans (h.lay n)⟩

theorem Dev.reported_modLd (d : Dev) (ld : Nat) {f : Ld → Ld} (hf : ∀ l, (f l).lay = l.lay) : d.Reported (d.modLd ld f) :=
  ⟨rfl, d.lay_modLd ld hf⟩

theorem Dev.reported_hostWrite (d : Dev) (a : Nat) (bs : List Byte) : d.Reported (d.hostWrite a bs) := ⟨rfl, fun _ => rfl⟩

theorem Dev.reported_cqRecord (d : Dev) (l q : Nat) (bs : List Byte) : d.Reported (d.cqRecord l q bs) := by
  unfold Dev.cqRecord
  refine Dev.Reported.trans ?_ (Dev.reported_modLd _ _ ?_)
  · exact (Dev.reported_hostWrite ..).trans (Dev.reported_hostWrite ..)
  · exact fun _ => rfl

/-- A report to a queue writes host memory and the queue's registers. -/
theorem Dev.reported_finish {t : Ticket} (ht : ∃ l q ct p, t.iss = .queue l q ct p) (c : Code) (aborted : Bool) (r : W32) (d : Dev) :
    d.Reported (d.finish t c aborted r) := by
  obtain ⟨l, q, ct, p, ht⟩ := ht
  rw [Dev.finish, ht]
  refine Dev.Reported.trans (Dev.reported_modLd _ _ ?_) (Dev.reported_cqRecord ..)
  exact fun _ => rfl

theorem Dev.launches_finish {t : Ticket} (ht : ∃ l q ct p, t.iss = .queue l q ct p) (c : Code) (aborted : Bool) (r : W32) (d : Dev) :
    (d.finish t c aborted r).launches = d.launches := by
  obtain ⟨l, q, ct, p, ht⟩ := ht
  rw [Dev.finish, ht]
  rfl

section
variable {d : Dev} {j : LaunchJob} (ht : ∃ l q ct p, j.tkt.iss = .queue l q ct p)
include ht

theorem Dev.reported_launchUpdate : d.Reported (d.launchUpdate j) := by
  unfold Dev.launchUpdate
  split
  · obtain ⟨hf, hl⟩ := Dev.reported_finish ht _ j.aborted _ { d with launches := d.launches.filter fun x => x.id != j.id }
    exact ⟨hf, hl⟩
  · exact ⟨rfl, fun _ => rfl⟩

/-- A launch that waits for no cluster is there as long as a cluster runs it. -/
theorem Dev.launches_launchUpdate (hw : j.waiting = []) : (d.launchUpdate j).launches =
    if j.running.isEmpty then d.launches.filter fun x => x.id != j.id else d.launches.map fun x => if x.id = j.id then j else x := by
  rw [Dev.launchUpdate, hw, List.isEmpty_nil, Bool.and_true]
  split
  · exact Dev.launches_finish ht ..
  · rfl

theorem Dev.settled_launchUpdate (hw : j.waiting = []) (hl : ∀ x ∈ d.launches, x.waiting = []) :
    ∀ x ∈ (d.launchUpdate j).launches, x.waiting = [] := by
  intro x hx
  rw [Dev.launches_launchUpdate ht hw] at hx
  split at hx
  · exact hl x (List.mem_filter.mp hx).1
  · obtain ⟨y, hy, rfl⟩ := List.mem_map.mp hx
    split
    · exact hw
    · exact hl y hy

theorem Dev.launch?_launchUpdate (hw : j.waiting = []) (hj : ∃ x ∈ d.launches, x.id = j.id) :
    ((d.launchUpdate j).launch? j.id).isSome = !j.running.isEmpty := by
  rw [Dev.launch?, Dev.launches_launchUpdate ht hw]
  cases j.running.isEmpty
  · obtain ⟨x, hx, hid⟩ := hj
    exact List.find?_isSome.mpr ⟨j, List.mem_map.mpr ⟨x, hx, if_pos hid⟩, beq_self_eq_true _⟩
  · rw [if_pos rfl, List.find?_eq_none.mpr fun x hx => by simpa using (List.mem_filter.mp hx).2]
    rfl

end

theorem not_isEmpty_filter {α : Type} (l : List α) (p : α → Bool) : (!(l.filter p).isEmpty) = l.any p := by
  rw [Bool.eq_iff_iff, Bool.not_eq_true', List.isEmpty_eq_false_iff, Ne, List.filter_eq_nil_iff, List.any_eq_true]
  push Not
  rfl

theorem Dev.launch?_mem {d : Dev} {id : Nat} {j : LaunchJob} (h : d.launch? id = some j) : j ∈ d.launches ∧ j.id = id :=
  ⟨List.mem_of_find?_eq_some h, by simpa using List.find?_some h⟩

/-- The program of a launch ends on a cluster. -/
theorem Dev.endProgram_main {d : Dev} {n id pos : Nat} {j : LaunchJob} (ho : (d.clu n).occ = some (.main id pos))
    (hj : d.launch? id = some j) (hl : ∀ j ∈ d.launches, j.waiting = []) (ht : ∃ l q ct p, j.tkt.iss = .queue l q ct p) (k : EndKind) :
    d.endProgram n k = (d.setClu n ((d.clu n).ended k)).launchUpdate (j.left n k) := by
  have hj' : Dev.launch? (d.modClu n (·.ended k)) id = some j := hj
  have hp := Dev.settled_launchUpdate (d := d.setClu n ((d.clu n).ended k)) (j := j.left n k) ht (hl j (Dev.launch?_mem hj).1) hl
  refine Eq.trans ?_ (Dev.pump_of_settled hp)
  rw [Dev.endProgram, ho]
  change Dev.pump (match Dev.launch? (d.modClu n (·.ended k)) id with | none => _ | some j => _) = _
  rw [hj']
  rfl

theorem Dev.endProgram_gone {d : Dev} {n id pos : Nat} (ho : (d.clu n).occ = some (.main id pos)) (hj : d.launch? id = none)
    (hl : ∀ j ∈ d.launches, j.waiting = []) (k : EndKind) : d.endProgram n k = d.setClu n ((d.clu n).ended k) := by
  have hj' : Dev.launch? (d.modClu n (·.ended k)) id = none := hj
  refine Eq.trans ?_ (Dev.pump_of_settled hl)
  rw [Dev.endProgram, ho]
  change Dev.pump (match Dev.launch? (d.modClu n (·.ended k)) id with | none => _ | some j => _) = _
  rw [hj']
  rfl

/-! ## HALT -/

theorem exec_halt {s : State} {n : Nat} (hq : s.dev.quiet) (hf : s.dev.fetchOk n) :
    exec (.halt n) s = .next { s with dev := s.dev.endProgram n .halted } := by
  change onMem (Dev.instr n _) s = _
  rw [onMem_quiet hq.snoops, Dev.instr_fetchOk hf, Dev.fetched_quiet hq]

/-- A report leaves memory quiet. -/
theorem Dev.quiet_reported {d d' : Dev} (h : d.Reported d') (hq : d.quiet) : d'.quiet := by
  obtain ⟨hf, hl⟩ := h
  exact Dev.quiet_of_sameKeys ⟨by rw [hf], by rw [hf], by rw [hf], by rw [hf], hl, by rw [hf]; exact fun _ => rfl⟩ hq
    (by rw [hf]) (by rw [hf]) (by rw [hf])

theorem Dev.quiet_setClu {d : Dev} (hq : d.quiet) (n : Nat) (c : Cluster) : (d.setClu n c).quiet :=
  Dev.quiet_of_sameKeys ⟨rfl, rfl, rfl, rfl, fun _ => rfl, fun _ => rfl⟩ hq rfl rfl rfl

/-- The end of a program of no catch-crop job changes its cluster, and what its report changes. -/
theorem Dev.reported_endProgram {d : Dev} {n : Nat} (ho : (d.clu n).occ ≠ some .crop)
    (hl : ∀ j ∈ d.launches, j.waiting = [] ∧ ∃ l q ct p, j.tkt.iss = .queue l q ct p) (k : EndKind) :
    (d.setClu n ((d.clu n).ended k)).Reported (d.endProgram n k) := by
  have hw := fun j hj => (hl j hj).1
  have hrefl : ∀ e : Dev, e.Reported e := fun _ => ⟨rfl, fun _ => rfl⟩
  cases h : (d.clu n).occ with
  | none => rw [Dev.endProgram_free h hw]; exact hrefl _
  | some o =>
    cases o with
    | crop => exact absurd h ho
    | boot =>
      rw [Dev.endProgram_boot h hw]
      split
      · exact ⟨rfl, fun _ => rfl⟩
      · exact hrefl _
    | main id pos =>
      cases hj : d.launch? id with
      | none => rw [Dev.endProgram_gone h hj hw]; exact hrefl _
      | some j =>
        have ht := (hl j (Dev.launch?_mem hj).1).2
        rw [Dev.endProgram_main h hj hw ht]
        exact Dev.reported_launchUpdate ht

theorem Cluster.ended_of_not_crop {c : Cluster} (h : c.occ ≠ some .crop) (k : EndKind) : c.ended k =
    { c with st := if k = EndKind.faulted then .stopped else .idle, occ := none, yieldReq := none, atYield := none } := by
  rw [Cluster.ended, if_neg h]

theorem Dev.clu_reported {d e : Dev} {n : Nat} {c : Cluster} (h : (d.setClu n c).Reported e) :
    e.clu n = c ∧ ∀ k, k ≠ n → e.clu k = d.clu k := by
  have hc : e.clusters = (d.setClu n c).clusters := by rw [h.frame]
  exact ⟨(Dev.clu_congr hc n).trans (Dev.clu_setClu_same ..), fun k hk => (Dev.clu_congr hc k).trans (Dev.clu_setClu_other _ _ hk)⟩

/-! ## MFS and MTS (R155) -/

/-- Bits [3:2] of a number. -/
theorem land_twelve_eq_zero_iff (x : Nat) : x &&& 0xC = 0 ↔ x.testBit 2 = false ∧ x.testBit 3 = false := by
  have hbit : ∀ i, (x &&& 0xC).testBit i = (x.testBit i && (0xC : Nat).testBit i) := fun i => Nat.testBit_and ..
  constructor
  · intro h
    have hclear : ∀ i, (0xC : Nat).testBit i = true → x.testBit i = false := fun i hi => by
      have hx := hbit i
      rw [h, Nat.zero_testBit, hi, Bool.and_true] at hx
      exact hx.symm
    exact ⟨hclear 2 rfl, hclear 3 rfl⟩
  · rintro ⟨h2, h3⟩
    refine Nat.eq_of_testBit_eq fun i => ?_
    rw [hbit, Nat.zero_testBit]
    match i with
    | 0 | 1 => simp [Nat.testBit]
    | 2 => rw [h2, Bool.false_and]
    | 3 => rw [h3, Bool.false_and]
    | i + 4 =>
      rw [Nat.testBit_lt_two_pow (x := 0xC) (i := i + 4), Bool.and_false]
      exact lt_of_lt_of_le (by decide : 0xC < 2 ^ 4) (Nat.pow_le_pow_right (by decide) (by omega))

/-- A value of the status type changes neither `in_normal` nor `in_fast`. -/
theorem mtsRefused_status {x : CtlRegs} {sr : SysReg} (h : isStatusReg sr = true) (v : W64) {st : W32} (hs : x.sys sr = st.setWidth 64) :
    mtsRefused x sr v = true ↔ v.getLsbD 2 ≠ st.getLsbD 2 ∨ v.getLsbD 3 ≠ st.getLsbD 3 := by
  have hxor : ∀ p q : Bool, (p ^^ q) = false ↔ q = p := by decide
  have hbit : ∀ i, i < 32 → ((x.sys sr).toNat.xor v.toNat).testBit i = (st.getLsbD i ^^ v.getLsbD i) := by
    intro i hi
    rw [hs]
    refine (Nat.testBit_xor ..).trans ?_
    rw [BitVec.testBit_toNat, BitVec.testBit_toNat, BitVec.getLsbD_setWidth]
    simp [show i < 64 by omega]
  rw [mtsRefused, if_pos h, decide_eq_true_iff, Ne, land_twelve_eq_zero_iff, hbit 2 (by decide), hbit 3 (by decide)]
  simp only [hxor, not_and_or, Ne]

/-- A value of the pc type is a multiple of 4. -/
theorem mtsRefused_pc {x : CtlRegs} {sr : SysReg} (h : isStatusReg sr = false) (v : W64) :
    mtsRefused x sr v = true ↔ v.extractLsb' 0 2 ≠ 0 := by
  rw [mtsRefused, if_neg (by rw [h]; decide), decide_eq_true_iff, Ne, Ne, ← BitVec.toNat_inj, BitVec.extractLsb'_toNat]
  rfl

theorem ofNat_mod_sixteen (v : W64) : BitVec.ofNat 32 (v.toNat % 16) = (v.extractLsb' 0 4).setWidth 32 := by
  apply BitVec.eq_of_toNat_eq
  rw [BitVec.toNat_ofNat, BitVec.toNat_setWidth, BitVec.extractLsb'_toNat]
  rfl

section
variable {s : State} {n : Nat} (h : s.dev.fetchOk n) (a : Reg) (sr : SysReg)
include h

theorem exec_mfs (d : Reg) : exec (.mfs n d sr) s =
    .next (s.after n fun c => { c.put d ((s.dev.clu n).ctl.sys sr) with pc := c.pc + 4 }) :=
  onDev_instr_result h (by rw [Dev.clu_fetched])

theorem exec_mts_refused (hr : mtsRefused (s.dev.clu n).ctl sr (s.dev.reg n a) = true) :
    exec (.mts n sr a) s = .next (s.ran n ((s.dev.clu n).withRegs (.errored eRange)).stepped) :=
  onDev_instr_next h ⟨(s.dev.fetched n).cluErr n eRange, by rw [Dev.reg_fetched, Dev.clu_fetched, if_pos hr], Dev.cluErr_fetched ..⟩

theorem exec_mts_written (hr : ¬ mtsRefused (s.dev.clu n).ctl sr (s.dev.reg n a) = true) :
    exec (.mts n sr a) s = .next (s.ran n
      { s.dev.clu n with ctl := (s.dev.clu n).ctl.setSys sr (s.dev.reg n a) : Cluster }.stepped) :=
  onDev_instr_next h ⟨(s.dev.fetched n).modCtl n fun c => c.setSys sr (s.dev.reg n a),
    by rw [Dev.reg_fetched, Dev.clu_fetched, if_neg hr], by rw [Dev.modCtl, Dev.modClu, Dev.clu_fetched]⟩

end

/-- Settles O17: each exception and return by what it leaves of the cluster, HALT by the frame of a program's end and the count of the
clusters that still run the launch, and MTS by the condition under which it is refused. -/
theorem exceptionsAndProgramEnd : Obligations.ExceptionsAndProgramEnd := by
  refine ⟨fun n s h => ?_, fun n s h hh hl ho => ?_, fun n s hq hf hl ho => ?_, fun n d a s h => ?_⟩
  · intro c d
    have hclu : d.clu n = c := Dev.clu_fetched ..
    refine ⟨fun hh => ?_, fun hfast => ?_, fun hfast hn => ?_⟩
    · have he := Dev.exception_undefined (d := d) (n := n) (hclu ▸ hh)
      rw [hclu] at he
      exact ⟨(onDev_instr h).trans (State.next_congr he),
        (onDev_instr h).trans (State.next_congr ((Dev.leaveHandler_outside (hclu ▸ hh)).trans he))⟩
    · have he := Dev.leaveHandler_fast (d := d) (n := n) (hclu ▸ hfast)
      rw [hclu] at he
      exact (onDev_instr h).trans (State.next_congr he)
    · have he := Dev.leaveHandler_normal (d := d) (n := n) (hclu ▸ hfast) (hclu ▸ hn)
      rw [hclu] at he
      exact (onDev_instr h).trans (State.next_congr he)
  · have hclu := Dev.clu_fetched s.dev n n
    have hc : (s.dev.clu n).occ ≠ some .crop := by rw [ho]; decide
    have hnone : ∀ j ∈ (s.dev.fetched n).launches, j.waiting = [] := by rw [Dev.launches_fetched, hl]; simp
    have he := Dev.endProgram_boot (d := s.dev.fetched n) (n := n) (by rw [hclu]; exact ho) hnone .faulted
    rw [if_neg (by simp), hclu] at he
    refine ⟨_, (onDev_instr h).trans (State.next_congr
      ((Dev.exception_double (hclu ▸ hh) 2 0 none).trans (congrArg (Dev.emit (.doubleFault n)) he))), ?_, ?_, fun k hk => ?_⟩
    · rw [Cluster.ended_of_not_crop hc, ← Dev.out_fetched s.dev n]
      rfl
    · rw [Dev.clu_emit, Dev.clu_setClu_same, Cluster.ended_of_not_crop hc]
      rfl
    · rw [Dev.clu_emit, Dev.clu_setClu_other _ _ hk, Dev.clu_fetched]
  · have hr := Dev.reported_endProgram ho hl .halted
    obtain ⟨hsame, hother⟩ := Dev.clu_reported hr
    refine ⟨_, exec_halt hq hf, rfl, rfl, rfl, Dev.quiet_reported hr (Dev.quiet_setClu hq _ _), ?_, hother, by rw [hr.frame]; rfl, ?_, ?_⟩
    · rw [hsame, Cluster.ended_of_not_crop ho]
      rfl
    · intro id pos j hi hj
      obtain ⟨hmem, hid⟩ := Dev.launch?_mem hj
      have ht := (hl j hmem).2
      have hleft := Dev.launch?_launchUpdate (d := s.dev.setClu n ((s.dev.clu n).ended .halted)) (j := j.left n .halted) ht
        (hl j hmem).1 ⟨j, hmem, rfl⟩
      rw [Dev.endProgram_main hi hj (fun j hj => (hl j hj).1) ht, ← hid]
      exact hleft.trans (not_isEmpty_filter ..)
    · intro hb hg
      rw [Dev.endProgram_boot hb (fun j hj => (hl j hj).1), if_pos ⟨rfl, hg⟩]
      exact ⟨rfl, by rw [Dev.die_modDie_same]; rfl⟩
  · intro c v err
    have hwrote := fun sr hr => exec_mts_written h a sr hr
    have hrefused := fun sr hr => exec_mts_refused h a sr hr
    have hpc := fun sr (hs : isStatusReg sr = false) => mtsRefused_pc (x := c) hs v
    have hstatus := mtsRefused_status (x := c) (sr := .status) rfl v rfl
    have hestatus := mtsRefused_status (x := c) (sr := .estatus) rfl v rfl
    refine ⟨fun sr => exec_mfs h sr d, ⟨fun hv => ?_, fun hv => hrefused _ (hstatus.mpr hv)⟩,
      ⟨fun hv => ?_, fun hv => hrefused _ (hestatus.mpr hv)⟩, fun hv => ⟨?_, ?_⟩, fun hv =>
        ⟨hrefused _ ((hpc _ rfl).mpr hv), hrefused _ ((hpc _ rfl).mpr hv), hrefused _ ((hpc _ rfl).mpr hv)⟩⟩
    · rw [hwrote _ (mt hstatus.mp (by simpa [not_or] using hv)), ← ofNat_mod_sixteen]
      rfl
    · rw [hwrote _ (mt hestatus.mp (by simpa [not_or] using hv)), ← ofNat_mod_sixteen]
      rfl
    · exact hwrote _ (mt (hpc _ rfl).mp (not_not.mpr hv))
    · exact hwrote _ (mt (hpc _ rfl).mp (not_not.mpr hv))

end Sys2Proof.Machine
end

section
/-! SUPPORT. YIELD, YIELD_STOP and HAND_OVER (R171, R172). -/

namespace Sys2Proof.Machine

/-! ## YIELD (R171) -/

section
variable {s : State} {n : Nat} (h : s.dev.fetchOk n) (d : Reg)
include h

theorem exec_yield_passes (hy : (s.dev.clu n).yieldReq = none ∨ (s.dev.clu n).ctl.inHandler = true) :
    exec (.yield n d) s = .next (s.after n fun x => { x.put d 0 with pc := x.pc + 4 }) :=
  onDev_instr_result h (by
    dsimp only
    rw [Dev.clu_fetched, if_pos]
    simpa using hy)

/-- A requested cluster waits at its yield point. -/
theorem exec_yield_waits {r : YieldReason} (hh : (s.dev.clu n).ctl.inHandler = false) (hy : (s.dev.clu n).yieldReq = some r) :
    exec (.yield n d) s = .next (s.ran n { s.dev.clu n with
      atYield := some d, st := if r = .handOver then .handingOver else (s.dev.clu n).st }) :=
  (onDev_instr h).trans (by
    dsimp only
    rw [Dev.clu_fetched, if_neg (by simp [hh, hy]), Dev.modClu, Dev.clu_fetched, hy]
    simp only [Option.some.injEq]
    rfl)

end

/-! ## YIELD_STOP (R171) -/

theorem exec_yieldStop {s : State} (h : s.dev.snoops = []) (n : Nat) : exec (.yieldStop n) s = .next { s with
    dev := if ((s.dev.clu n).atYield.isSome && (s.dev.clu n).yieldReq == some .stop && (s.dev.clu n).drained) = true
      then s.dev.endProgram n .halted else s.dev } :=
  onMem_quiet h _

/-! ## HAND_OVER (R172) -/

/-- The bytes of a cluster that a hand-over or a launch zeroises: its store, and the windows of its operand caches. -/
def ofCluster (n x : Nat) : Prop :=
  (storeAddr n 0 ≤ x ∧ x < storeAddr n 0 + 0x10000) ∨ (cacheAddr n 0 0 ≤ x ∧ x < cacheAddr n 0 0 + 32 * 0x8000)

theorem ofCluster_storeAddr (n : Nat) {i : Nat} (h : i < 0x10000) : ofCluster n (storeAddr n i) :=
  .inl (by simp only [storeAddr]; omega)

theorem ofCluster_cacheAddr (n : Nat) {k i : Nat} (hk : k < 32) (h : i < 0x6000) : ofCluster n (cacheAddr n k i) :=
  .inr (by simp only [cacheAddr]; omega)

theorem not_ofCluster_of_lt {n x : Nat} (h : x < sramBase) : ¬ ofCluster n x := by
  simp only [ofCluster, storeAddr, cacheAddr]
  omega

theorem Dev.byte_wipe (a n : Nat) (d : Dev) (x : Nat) : (d.wipe a n).byte x = if a ≤ x ∧ x < a + n then 0 else d.byte x := by
  rw [Dev.wipe, Dev.byte_wipeIf]
  simp only [Bool.and_eq_true, decide_eq_true_eq]

section
variable (d : Dev) (n : Nat)

theorem Dev.wipeCluster_eq : d.wipeCluster n = (d.wipe (storeAddr n 0) 0x10000).wipe (cacheAddr n 0 0) (32 * 0x8000) := by
  have ha : sramBase + n / 256 * sramWindow + 0x10000000 + n % 256 * 32 * 0x8000 = cacheAddr n 0 0 := by
    simp only [cacheAddr]; omega
  rw [Dev.wipeCluster, ha]

theorem Dev.byte_wipeCluster_inside {x : Nat} (h : ofCluster n x) : (d.wipeCluster n).byte x = 0 := by
  rw [Dev.wipeCluster_eq, Dev.byte_wipe, Dev.byte_wipe]
  rcases h with h | h
  · rw [if_pos h, ite_self]
  · rw [if_pos h]

theorem Dev.byte_wipeCluster_outside {x : Nat} (h : ¬ ofCluster n x) : (d.wipeCluster n).byte x = d.byte x := by
  obtain ⟨hs, hc⟩ := not_or.mp h
  rw [Dev.wipeCluster_eq, Dev.byte_wipe, Dev.byte_wipe, if_neg hc, if_neg hs]

end

/-- A cluster after a hand-over. -/
def Cluster.handedOver (r : Reg) (c : Cluster) : Cluster :=
  { c.restore Context.init with
    saved := some (c.context r), st := .idle, occ := none, yieldReq := none, atYield := none }

/-- A catch-crop job after the hand-over of cluster n. -/
def CropJob.without (j : CropJob) (n : Nat) : CropJob := { j with on := j.on.filter (· != n), todo := insNat n j.todo }

/-- A job that still holds a cluster is not reported. -/
theorem Dev.cropUpdate_holding {j : CropJob} (h : j.on ≠ []) (ld : Nat) (d : Dev) :
    d.cropUpdate ld j = d.modLd ld fun l => { l with ctl := { l.ctl with crop := some j } } := by
  rw [Dev.cropUpdate, if_neg]
  simp [h]

/-- The device once the context of a cluster has gone to its save area. -/
def Dev.contextSaved (d : Dev) (n : Nat) (j : CropJob) : Dev :=
  d.draw.1.writeBytes reqLaunch (j.save + 1024 * n) (toBytes 1024 d.draw.2)

theorem Dev.contextSaved_quiet {d : Dev} (h : d.quiet) (n : Nat) (j : CropJob) : d.contextSaved n j = { d with
    free := d.free + 1, mem := Mem.writeN memDefault d.mem (j.save + 1024 * n) (toBytes 1024 d.draw.2) } :=
  Dev.writeBytes_quiet (d := d.draw.1) (Dev.quiet_of_sameKeys ⟨rfl, rfl, rfl, rfl, fun _ => rfl, fun _ => rfl⟩ h rfl rfl rfl) ..

/-- A drained cluster that waits at its yield point hands over. -/
theorem Dev.handOver_drained {d : Dev} {n : Nat} {r : Reg} {j : CropJob} (ha : (d.clu n).atYield = some r) (hy : (d.clu n).yieldReq = some .handOver)
    (ho : (d.clu n).occ = some .crop) (hj : (d.ld (d.ldOfDie (n / 256))).ctl.crop = some j) (hd : (d.clu n).drained = true) :
    d.handOver n = (((d.contextSaved n j).wipeCluster n).modClu n (Cluster.handedOver r)
      |>.cropUpdate (d.ldOfDie (n / 256)) (j.without n)).pump := by
  rw [Dev.handOver, ha, hy, ho, hj]
  dsimp only
  rw [if_pos hd]
  rfl

/-- Settles O22: YIELD by its requests, YIELD_STOP by its guard and the end of boot code, HAND_OVER by the save, the wipe and the
cleared registers in turn. -/
theorem yieldAndHandOver : Obligations.YieldAndHandOver := by
  refine ⟨fun n d s => ?_, fun n r j s hq hm => ?_⟩
  · intro c
    refine ⟨fun h hy => exec_yield_passes h d hy, fun h hh hy => exec_yield_waits h d hh hy, fun h hh hy => exec_yield_waits h d hh hy,
      fun hs ha hy hd hl ho => ?_, fun hs hd => ?_⟩
    · have hc : c.occ ≠ some .crop := by rw [ho]; decide
      have hnone : ∀ j ∈ s.dev.launches, j.waiting = [] := by rw [hl]; simp
      have hr := Dev.reported_endProgram (d := s.dev) (n := n) hc (by rw [hl]; simp) .halted
      obtain ⟨hsame, hother⟩ := Dev.clu_reported hr
      have hguard : (c.atYield.isSome && c.yieldReq == some .stop && c.drained) = true := by rw [ha, hy, hd]; rfl
      refine ⟨_, (exec_yieldStop hs n).trans (by rw [if_pos hguard]), ?_, ?_, hother⟩
      · rw [Dev.endProgram_boot ho hnone]
        split <;> rfl
      · rw [hsame, Cluster.ended_of_not_crop hc]
        rfl
    · have hguard : ¬ (c.atYield.isSome && c.yieldReq == some .stop && c.drained) = true := by
        rw [hd, Bool.and_false]
        decide
      rw [exec_yieldStop hs, if_neg hguard]
  · intro c l ha hy ho hj hd hl hon hsave
    have hleft : (j.without n).on ≠ [] := by
      obtain ⟨m, hne, hm⟩ := hon
      exact List.ne_nil_of_mem (List.mem_filter.mpr ⟨hm, by simpa using hne⟩)
    have hexec := (onMem_quiet hq.snoops (Dev.handOver n)).trans (State.next_congr (Dev.handOver_drained ha hy ho hj hd))
    rw [Dev.cropUpdate_holding hleft, Dev.contextSaved_quiet hq] at hexec
    have hlen := length_toBytes 1024 s.dev.draw.2
    generalize toBytes 1024 s.dev.draw.2 = bs at hexec hlen
    rw [Dev.pump_of_idle (by exact hl)] at hexec
    have hclu : ∀ k, Dev.clu (Dev.wipeCluster n { s.dev with
        free := s.dev.free + 1, mem := Mem.writeN memDefault s.dev.mem (j.save + 1024 * n) bs }) k = s.dev.clu k := fun _ => rfl
    refine ⟨_, hexec, rfl, rfl, rfl, ?_⟩
    rw [Dev.clu_modLd, Dev.clu_modClu_same, hclu]
    refine ⟨rfl, rfl, rfl, rfl, rfl, fun k hk => ?_, ?_, ?_, ?_⟩
    · rw [Dev.clu_modLd, Dev.clu_modClu_other _ _ hk, hclu]
    · exact fun i hi => Dev.byte_wipeCluster_inside _ _ (ofCluster_storeAddr n hi)
    · exact fun k i hk hi => Dev.byte_wipeCluster_inside _ _ (ofCluster_cacheAddr n hk hi)
    · intro x hx hs
      exact (Dev.byte_wipeCluster_outside _ _ (not_ofCluster_of_lt hx)).trans (Mem.read_writeN_outside _ _ _ (by rwa [hlen]))

end Sys2Proof.Machine
end

section
/-! SUPPORT. The bytes that a copy moves. -/

namespace Sys2Proof.Machine

section
variable {d : Byte}

theorem Mem.read_cells (m : Mem) (lo hi x : Nat) : Mem.read d (Mem.cells m lo hi) x = if lo ≤ x ∧ x < hi then Mem.read d m x else d := by
  have h := Mem.read_filter d m (fun a => !(decide (lo ≤ a) && decide (a < hi))) x
  simp only [Bool.not_not, Bool.not_eq_true', Bool.and_eq_false_iff, decide_eq_false_iff_not] at h
  rw [Mem.cells, h]
  by_cases hx : lo ≤ x ∧ x < hi
  · rw [if_pos hx, if_neg (by omega)]
  · rw [if_neg hx, if_pos (by omega)]

/-- Cells put elsewhere leave a byte to which none of them moves. -/
theorem Mem.read_putCells_apart {s x : Nat} (t : Nat) {cs : List Host.Cell} (h : ∀ c ∈ cs, c.1 - s + t ≠ x) (m : Mem) :
    Mem.read d (Mem.putCells d s t m cs) x = Mem.read d m x := by
  induction cs generalizing m with
  | nil => rfl
  | cons c cs ih =>
    obtain ⟨hc, hcs⟩ := List.forall_mem_cons.mp h
    rw [Mem.putCells, ih hcs, Mem.read_write_other m _ hc.symm]

/-- Cells put into a cleared place read there as they read where they came from. -/
theorem Mem.read_putCells {s t i : Nat} {cs : List Host.Cell} (hc : Mem.wf d cs = true) (hs : ∀ c ∈ cs, s ≤ c.1) {m : Mem}
    (hm : Mem.wf d m = true) (hclear : Mem.read d m (t + i) = d) : Mem.read d (Mem.putCells d s t m cs) (t + i) = Mem.read d cs (s + i) := by
  induction cs generalizing m with
  | nil => exact hclear
  | cons c cs ih =>
    obtain ⟨a, b⟩ := c
    obtain ⟨-, habove, hwf⟩ := Mem.wf_cons.mp hc
    obtain ⟨ha, hcs⟩ := List.forall_mem_cons.mp hs
    dsimp only at ha
    rw [Mem.putCells, Mem.read]
    by_cases hai : a = s + i
    · have hplace : a - s + t = t + i := by omega
      rw [if_pos hai, Mem.read_putCells_apart t (fun c hc => by have := habove c hc; have := hcs c hc; omega), hplace,
        Mem.read_write_same _ _ hm]
    · rw [if_neg hai]
      exact ih hwf hcs (Mem.write_wf _ _ hm) (by rw [Mem.read_write_other _ _ (by omega), hclear])

/-- A copy delivers the bytes of its source. -/
theorem Mem.read_copy_inside {m : Mem} (hm : Mem.wf d m = true) (s t : Nat) {n i : Nat} (hi : i < n) :
    Mem.read d (Mem.copy d m s t n) (t + i) = Mem.read d m (s + i) := by
  have hwf : Mem.wf d (Mem.cells m s (s + n)) = true := Mem.filter_wf _ hm
  have hclear : Mem.read d (Mem.clear m t (t + n)) (t + i) = d := by rw [Mem.read_clear, if_pos (by omega)]
  rw [Mem.copy, Mem.read_putCells hwf (fun c hc => (Mem.cells_range m s (s + n) c hc).1) (Mem.clear_wf _ _ hm) hclear,
    Mem.read_cells, if_pos (by omega)]

/-- Memory after copies of one range to several places. -/
def Mem.copies (d : Byte) (m : Mem) (s n : Nat) (dst : Nat → Nat) (ks : List Nat) : Mem :=
  ks.foldl (fun m k => Mem.copy d m s (dst k) n) m

section
variable {s n : Nat} {dst : Nat → Nat} {ks : List Nat}

theorem Mem.read_copies_outside {x : Nat} (hx : ∀ k ∈ ks, x < dst k ∨ dst k + n ≤ x) (m : Mem) :
    Mem.read d (Mem.copies d m s n dst ks) x = Mem.read d m x := by
  induction ks generalizing m with
  | nil => rfl
  | cons k ks ih =>
    obtain ⟨hk, hks⟩ := List.forall_mem_cons.mp hx
    exact (ih hks _).trans (Mem.read_copy_outside _ _ _ _ hk)

/-- Copies to places apart from each other and from the source each deliver its bytes. -/
theorem Mem.read_copies_inside (hsrc : ∀ k ∈ ks, s + n ≤ dst k ∨ dst k + n ≤ s)
    (hdst : ∀ k ∈ ks, ∀ j ∈ ks, j ≠ k → dst j + n ≤ dst k ∨ dst k + n ≤ dst j) {m : Mem} (hm : Mem.wf d m = true) {k i : Nat}
    (hk : k ∈ ks) (hi : i < n) : Mem.read d (Mem.copies d m s n dst ks) (dst k + i) = Mem.read d m (s + i) := by
  induction ks generalizing m with
  | nil => cases hk
  | cons j ks ih =>
    change Mem.read d (Mem.copies d (Mem.copy d m s (dst j) n) s n dst ks) (dst k + i) = _
    by_cases hmem : k ∈ ks
    · rw [ih (fun k hk => hsrc k (List.mem_cons_of_mem _ hk))
        (fun k hk j hj => hdst k (List.mem_cons_of_mem _ hk) j (List.mem_cons_of_mem _ hj)) (Mem.copy_wf _ _ _ hm) hmem]
      exact Mem.read_copy_outside _ _ _ _ (by have := hsrc j List.mem_cons_self; omega)
    · obtain rfl : k = j := (List.mem_cons.mp hk).resolve_right hmem
      rw [Mem.read_copies_outside fun j hj => by
        have := hdst k hk j (List.mem_cons_of_mem _ hj) (fun e => hmem (e ▸ hj))
        omega]
      exact Mem.read_copy_inside hm _ _ hi

end
end

end Sys2Proof.Machine
end

section
/-! SUPPORT. The local mover (R162 to R164): the checks of its commands, its queue, and what a finished command moves. -/

namespace Sys2Proof.Machine

/-! ## Posting (R162) -/

/-- A cluster with one more command in its mover's queue. -/
def Cluster.posted (c : Cluster) (m : MoverCmd) : Cluster := { c with mover := c.mover ++ [m] }

/-- The state after a mover command that is rejected with a code, or queued. -/
def State.moverTaken (s : State) (n : Nat) (d : Reg) (e : Option Code) (m : MoverCmd) : State :=
  e.elim (s.ran n (((s.dev.clu n).posted m).resulted d 0)) fun c =>
    s.after n fun r => { r.put d (c.setWidth 64) with pc := r.pc + 4 }

theorem onDev_post {s : State} {n : Nat} (h : s.dev.fetchOk n) (hl : (s.dev.clu n).mover.length < 8) (d : Reg)
    {E : Dev → Option Code} {M : Dev → MoverCmd} {e : Option Code} {m : MoverCmd} (hE : E (s.dev.fetched n) = e)
    (hM : M (s.dev.fetched n) = m) : onDev (Dev.instr n fun x => x.post n d (E x) (M x)) s = .next (s.moverTaken n d e m) := by
  cases e with
  | some c => exact onDev_instr_result h (by rw [hE]; rfl)
  | none =>
    refine onDev_instr_ret h ⟨(s.dev.fetched n).modClu n (·.posted m), ?_, by rw [Dev.modClu, Dev.clu_fetched]⟩
    rw [hE, hM, Dev.post]
    exact if_neg (by rw [Dev.clu_fetched]; exact Nat.not_le.mpr hl)

/-! ## The checks (R162 to R164) -/

theorem bits_toNat (x : W64) (hi lo : Nat) : bits x.toNat hi lo = (x.extractLsb' lo (hi - lo + 1)).toNat := by
  rw [bits, BitVec.extractLsb'_toNat]

theorem toNat_div_eq_zero_iff (x : W64) (k : Nat) : x.toNat / 2 ^ k = 0 ↔ x >>> k = 0 := by
  rw [← BitVec.toNat_inj, BitVec.toNat_ushiftRight, Nat.shiftRight_eq_div_pow]
  rfl

/-- Reserved bits decide first, then alignment, then ranges. -/
def moverCode (reserved align range : Prop) [Decidable reserved] [Decidable align] [Decidable range] : Option Code :=
  if reserved then some eReservedNonzero else if align then some eAlign else if range then some eRange else none

section
variable {reserved align range : Prop} [Decidable reserved] [Decidable align] [Decidable range]

theorem moverCode_reserved (h : reserved) : moverCode reserved align range = some eReservedNonzero := if_pos h

theorem moverCode_align (h : ¬ reserved) (ha : align) : moverCode reserved align range = some eAlign := by
  rw [moverCode, if_neg h, if_pos ha]

theorem moverCode_range (h : ¬ reserved) (ha : ¬ align) (hr : range) : moverCode reserved align range = some eRange := by
  rw [moverCode, if_neg h, if_neg ha, if_pos hr]

theorem moverCode_none (h : ¬ reserved) (ha : ¬ align) (hr : ¬ range) : moverCode reserved align range = none := by
  rw [moverCode, if_neg h, if_neg ha, if_neg hr]

end

theorem toNat_eq_zero_iff (x : W64) : x.toNat = 0 ↔ x = 0 := by
  rw [← BitVec.toNat_inj]
  rfl

/-- Checks over the numbers in registers, read as checks over their fields. -/
theorem firstFail_mover {p q r p' q' r' : Prop} [Decidable p] [Decidable q] [Decidable r] [Decidable p'] [Decidable q'] [Decidable r']
    (hp : p ↔ p') (hq : q ↔ q') (hr : r ↔ r') :
    firstFail [(decide p, eReservedNonzero), (decide q, eAlign), (decide r, eRange)] = moverCode p' q' r' := by
  simp only [firstFail, decide_eq_true_eq, moverCode, hp, hq, hr]

section
variable {s : State} {n : Nat} (h : s.dev.fetchOk n) (hl : (s.dev.clu n).mover.length < 8) (d a b e : Reg)
include h hl

theorem exec_ocld : exec (.ocld n d a b e) s =
    let x := s.dev.reg n a
    let y := s.dev.reg n b
    let z := s.dev.reg n e
    let st := (x.extractLsb' 0 16).toNat
    let ca := (x.extractLsb' 16 15).toNat
    let len := (y.extractLsb' 0 15).toNat
    .next (s.moverTaken n d (moverCode (x >>> 31 ≠ 0 ∨ y >>> 15 ≠ 0 ∨ z >>> 32 ≠ 0) (st % 8 ≠ 0 ∨ ca % 8 ≠ 0 ∨ len % 8 ≠ 0)
      (len = 0 ∨ 0x10000 < st + len ∨ 0x6000 < ca + len ∨ z = 0)) (.load st ca len (z.setWidth 32))) := by
  refine onDev_post h hl d (firstFail_mover ?_ ?_ ?_) ?_
  all_goals simp only [Dev.regNat, Dev.reg_fetched, bits_toNat, ne_eq, toNat_div_eq_zero_iff, toNat_eq_zero_iff, BitVec.ofNat_toNat]
  exact Iff.rfl

theorem exec_ocst : exec (.ocst n d a b e) s =
    let x := s.dev.reg n a
    let y := s.dev.reg n b
    let z := s.dev.reg n e
    let st := (x.extractLsb' 0 16).toNat
    let ca := (x.extractLsb' 16 15).toNat
    let len := (y.extractLsb' 0 15).toNat
    .next (s.moverTaken n d (moverCode (x >>> 31 ≠ 0 ∨ y >>> 15 ≠ 0 ∨ z >>> 5 ≠ 0) (st % 8 ≠ 0 ∨ ca % 8 ≠ 0 ∨ len % 8 ≠ 0)
      (len = 0 ∨ 0x10000 < st + len ∨ 0x6000 < ca + len)) (.save st ca len z.toNat)) := by
  refine onDev_post h hl d (firstFail_mover ?_ ?_ ?_) ?_
  all_goals simp only [Dev.regNat, Dev.reg_fetched, bits_toNat, ne_eq, toNat_div_eq_zero_iff]
  exact Iff.rfl

theorem exec_ocz : exec (.ocz n d a b e) s =
    let x := s.dev.reg n a
    let y := s.dev.reg n b
    let z := s.dev.reg n e
    let ca := (x.extractLsb' 16 15).toNat
    let len := (y.extractLsb' 0 15).toNat
    .next (s.moverTaken n d (moverCode (x >>> 31 ≠ 0 ∨ (x.extractLsb' 0 16).toNat ≠ 0 ∨ y >>> 15 ≠ 0 ∨ z >>> 32 ≠ 0)
      (ca % 8 ≠ 0 ∨ len % 8 ≠ 0) (len = 0 ∨ 0x6000 < ca + len ∨ z = 0)) (.zeroCache ca len (z.setWidth 32))) := by
  refine onDev_post h hl d (firstFail_mover ?_ ?_ ?_) ?_
  all_goals simp only [Dev.regNat, Dev.reg_fetched, bits_toNat, ne_eq, toNat_div_eq_zero_iff, toNat_eq_zero_iff, BitVec.ofNat_toNat]
  exact Iff.rfl

theorem exec_csz : exec (.csz n d a b) s =
    let x := s.dev.reg n a
    let y := s.dev.reg n b
    let st := (x.extractLsb' 0 16).toNat
    let len := (y.extractLsb' 0 17).toNat
    .next (s.moverTaken n d (moverCode (x >>> 16 ≠ 0 ∨ y >>> 17 ≠ 0) (st % 8 ≠ 0 ∨ len % 8 ≠ 0)
      (len = 0 ∨ 0x10000 < st + len)) (.zeroStore st len)) := by
  refine onDev_post h hl d (firstFail_mover ?_ ?_ ?_) ?_
  all_goals simp only [Dev.regNat, Dev.reg_fetched, bits_toNat, ne_eq, toNat_div_eq_zero_iff]
  exact Iff.rfl

theorem exec_oclt : exec (.oclt n d a b e) s =
    let x := s.dev.reg n a
    let y := s.dev.reg n b
    let z := s.dev.reg n e
    let ca := (x.extractLsb' 16 15).toNat
    let ec := (y.extractLsb' 0 2).toNat
    let col := (y.extractLsb' 2 7).toNat
    let r0 := (y.extractLsb' 9 7).toNat
    let ln := (y.extractLsb' 16 8).toNat
    let nc := (y.extractLsb' 24 7).toNat
    .next (s.moverTaken n d (moverCode (x >>> 31 ≠ 0 ∨ (x.extractLsb' 0 16).toNat ≠ 0 ∨ y >>> 31 ≠ 0 ∨ z >>> 32 ≠ 0) (ca % 8 ≠ 0)
      (ec = 3 ∨ ln = 0 ∨ 128 < ln ∨ 128 < r0 + ln ∨ 128 / 2 ^ ec < col + nc + 1 ∨ 0x6000 < ca + (nc + 1) * ((ln * 2 ^ ec + 7) / 8 * 8) ∨ z = 0))
      (.loadT ca (2 ^ ec) col r0 ln (nc + 1) (z.setWidth 32))) := by
  refine onDev_post h hl d (firstFail_mover ?_ ?_ ?_) ?_
  all_goals simp only [Dev.regNat, Dev.reg_fetched, bits_toNat, ne_eq, toNat_div_eq_zero_iff, toNat_eq_zero_iff, BitVec.ofNat_toNat]
  exact Iff.rfl

end

/-! ## The transfer (R162, R197) -/

theorem Dev.touchEach_quiet {d : Dev} (h : d.quiet) (req a n : Nat) : d.touchEach req (d.marked a n) = (d, []) := by
  rw [Dev.marked_quiet h]
  rfl

theorem Dev.moverCopy_quiet {d : Dev} (h : d.quiet) (src dst n : Nat) :
    d.moverCopy src dst n [] = { d with mem := Mem.copy memDefault d.mem src dst n } := by
  rw [Dev.moverCopy, Dev.copyRange_quiet h]
  rfl

theorem Dev.moverCopies_quiet {d : Dev} (h : d.quiet) (src n : Nat) (dst : Nat → Nat) (ks : List Nat) :
    ks.foldl (fun d k => d.moverCopy src (dst k) n []) d = { d with mem := Mem.copies memDefault d.mem src n dst ks } := by
  induction ks generalizing d with
  | nil => rfl
  | cons k ks ih =>
    rw [List.foldl_cons, Dev.moverCopy_quiet h, ih (Dev.quiet_mem h _)]
    rfl

section
variable {d : Dev} (h : d.quiet) (n : Nat)
include h

theorem Dev.moverRun_load (st ca len : Nat) (cores : W32) : d.moverRun n (.load st ca len cores) = { d with
    mem := Mem.copies memDefault d.mem (storeAddr n st) len (fun k => cacheAddr n k ca) (bitsOf 32 cores.toNat) } := by
  rw [Dev.moverRun, Dev.touchEach_quiet h]
  exact Dev.moverCopies_quiet h ..

theorem Dev.moverRun_save (st ca len k : Nat) : d.moverRun n (.save st ca len k) = { d with
    mem := Mem.copy memDefault d.mem (cacheAddr n k ca) (storeAddr n st) len } := by
  rw [Dev.moverRun, Dev.touchEach_quiet h]
  exact Dev.moverCopy_quiet h ..

theorem Dev.moverRun_zeroStore (st len : Nat) : d.moverRun n (.zeroStore st len) = { d with
    mem := Mem.clear d.mem (storeAddr n st) (storeAddr n st + len) } :=
  Dev.zeroRange_quiet h ..

end

/-- The command at the head of the queue takes effect on memory and leaves. -/
theorem exec_moverCommandFinish {s : State} {n : Nat} {m : MoverCmd} {rest : List MoverCmd} {mem : Mem} (hm : (s.dev.clu n).mover = m :: rest)
    (hr : s.dev.moverRun n m = { s.dev with mem := mem }) : exec (.moverCommandFinish n) s = .next { s with
      dev := { s.dev.setClu n { s.dev.clu n with mover := rest } with mem := mem } } := by
  change (.next { s with dev := s.dev.moverFinish n } : Result) = _
  rw [Dev.moverFinish, hm]
  dsimp only
  rw [hr]
  rfl

/-- The store and the operand caches of a cluster lie apart. -/
theorem store_apart_cache (n : Nat) {st ca len k : Nat} (hs : st + len ≤ 0x10000) (hc : ca + len ≤ 0x6000) :
    storeAddr n st + len ≤ cacheAddr n k ca := by
  simp only [storeAddr, cacheAddr]
  omega

/-- The operand caches of two cores lie apart. -/
theorem caches_apart (n : Nat) {ca len j k : Nat} (hc : ca + len ≤ 0x6000) (h : j ≠ k) :
    cacheAddr n j ca + len ≤ cacheAddr n k ca ∨ cacheAddr n k ca + len ≤ cacheAddr n j ca := by
  simp only [cacheAddr]
  omega

theorem storeAddr_add (n st i : Nat) : storeAddr n (st + i) = storeAddr n st + i := (Nat.add_assoc ..).symm

theorem cacheAddr_add (n k ca i : Nat) : cacheAddr n k (ca + i) = cacheAddr n k ca + i := (Nat.add_assoc ..).symm

/-- Settles O20: each command by the order of its checks, each transfer by the copy or the fill that it makes. -/
theorem moverPostsAndMoves : Obligations.MoverPostsAndMoves := by
  refine ⟨fun n d a b e s h => ?_, fun n rest s hq hm => ?_⟩
  · intro c x y z st ca len code post hl
    have hld := exec_ocld h hl d a b e
    have hsv := exec_ocst h hl d a b e
    have hcz := exec_ocz h hl d a b e
    have hsz := exec_csz h hl d a b
    have hlt := exec_oclt h hl d a b e
    dsimp only at hld hsv hcz hsz hlt
    refine ⟨fun hx hy hst hca hlen hpos hs hc => ⟨fun hz hne => ?_, fun hz hne => ?_, fun hz => ?_, fun hz => ?_⟩,
      fun hx hst hy hz hca hlen hpos hc hne => ?_, ?_, ?_⟩
    · exact hld.trans (by rw [moverCode_none (by tauto) (by tauto) (by push Not; exact ⟨hpos, hs, hc, hne⟩)]; rfl)
    · exact hld.trans (by rw [moverCode_range (by tauto) (by tauto) (by tauto)]; rfl)
    · exact hld.trans (by rw [moverCode_reserved (by tauto)]; rfl)
    · exact hsv.trans (by rw [moverCode_none (by tauto) (by tauto) (by push Not; exact ⟨hpos, hs, hc⟩)]; rfl)
    · exact hcz.trans (by rw [moverCode_none (by tauto) (by tauto) (by push Not; exact ⟨hpos, hc, hne⟩)]; rfl)
    · intro l hx hy
      refine ⟨fun hst hlen hpos hs => ?_, fun hal => ?_, fun hst hlen hr => ?_⟩
      · exact hsz.trans (by rw [moverCode_none (by tauto) (by tauto) (by push Not; exact ⟨hpos, hs⟩)]; rfl)
      · exact hsz.trans (by rw [moverCode_align (by tauto) (by tauto)]; rfl)
      · exact hsz.trans (by rw [moverCode_range (by tauto) (by tauto) (by tauto)]; rfl)
    · intro ec col r0 ln nc p hx hst hy hz hne hca
      refine ⟨fun hec hln hr hcol hfit => ?_, fun hr => ?_⟩
      · have hln' : ln ≤ 128 := (Nat.le_add_left ..).trans hr
        exact hlt.trans (by rw [moverCode_none (by tauto) (by tauto) (by
          push Not; exact ⟨hec.ne, hln.ne', hln', hr, hcol, hfit, hne⟩)]; rfl)
      · exact hlt.trans (by rw [moverCode_range (by tauto) (by tauto) (by tauto)]; rfl)
  · refine ⟨fun st ca len cores hq' hs hc => ?_, fun st ca len k hq' hs hc hk => ?_, fun st len hq' => ?_⟩
    · refine ⟨_, exec_moverCommandFinish hq' (Dev.moverRun_load hq n st ca len cores), rfl, fun k i hk hb hi => ?_, fun x hx => ?_⟩
      · have hmem := (mem_bitsOf_mask cores k).mpr ⟨hk, hb⟩
        rw [cacheAddr_add, storeAddr_add]
        exact Mem.read_copies_inside (dst := fun k => cacheAddr n k ca) (fun k _ => .inl (store_apart_cache n hs hc))
          (fun k _ j _ hjk => caches_apart n hc hjk) hm.1 hmem hi
      · refine Mem.read_copies_outside (fun k hk => ?_) s.dev.mem
        obtain ⟨hlt, hb⟩ := (mem_bitsOf_mask cores k).mp hk
        exact hx k hlt hb
    · refine ⟨_, exec_moverCommandFinish hq' (Dev.moverRun_save hq n st ca len k), rfl, fun i hi => ?_, fun x hx => ?_⟩
      · rw [cacheAddr_add, storeAddr_add]
        exact Mem.read_copy_inside hm.1 _ _ hi
      · exact Mem.read_copy_outside _ _ _ _ hx
    · refine ⟨_, exec_moverCommandFinish hq' (Dev.moverRun_zeroStore hq n st len), rfl, fun i hi => ?_, fun x hx => ?_⟩
      · exact (Mem.read_clear ..).trans (if_pos (by rw [storeAddr_add]; omega))
      · exact (Mem.read_clear ..).trans (if_neg (by omega))

end Sys2Proof.Machine
end

section
/-! SUPPORT. The cluster DMA engine (R165 to R168): the checks of DMAP, its queue, and the start and the end of a descriptor. -/

namespace Sys2Proof.Machine

/-! ## DMAP (R165, R166) -/

/-- The checks of a descriptor that follow those of its fields (R166, R168). -/
def Dev.dmaLate (d : Dev) (n : Nat) (y : DmaDesc) : Checks :=
  [((d.dmaReach n y).isSome, (d.dmaReach n y).getD 0), (y.meets n, eRange), ((d.clu n).clu.dmaErr, eState)]

/-- A cluster with one more descriptor in its DMA queue. -/
def Cluster.described (c : Cluster) (ws : List W32) : Cluster :=
  { c with dma := c.dma ++ [{ words := ws, started := false, finished := false }] }

/-- The device after a DMAP that is rejected with a code, waits, or queues its descriptor. -/
def Dev.dmaTaken (x : Dev) (n : Nat) (d : Reg) (ws : List W32) : Option Code → Dev
  | some c => x.ret n d (c.setWidth 64)
  | none => if 16 ≤ (x.clu n).dma.length then x.stall n else (x.modClu n (·.described ws)).ret n d 0

/-- Alignment of a descriptor's place decides before its reach. -/
theorem firstFail_dmaPlace (off : Nat) : firstFail [(decide (off % 8 ≠ 0), eAlign), (decide (0xFFC0 < off), eRange)] =
    if off % 8 ≠ 0 then some eAlign else if 0xFFC0 < off then some eRange else none := by
  simp only [firstFail, decide_eq_true_eq]

theorem Dev.dmaTaken_queued {x : Dev} {n : Nat} (h : (x.clu n).dma.length < 16) (d : Reg) (ws : List W32) :
    x.dmaTaken n d ws none = x.setClu n (((x.clu n).described ws).resulted d 0) := by
  rw [Dev.dmaTaken, if_neg (Nat.not_le.mpr h), Dev.ret_eq, Dev.clu_modClu_same, Dev.modClu, Dev.setClu_setClu]
  rfl

theorem Dev.dmaTaken_waits {x : Dev} {n : Nat} (h : 16 ≤ (x.clu n).dma.length) (d : Reg) (ws : List W32) :
    x.dmaTaken n d ws none = x.stall n := if_pos h

section
variable {s : State} {n : Nat} (hq : s.dev.quiet) (hf : s.dev.fetchOk n) (d : Reg) {a : Reg} {off : Nat} (ho : (s.dev.reg n a).toNat = off)
include hq hf ho

/-- A bad place of the descriptor decides first. -/
theorem exec_dmap_place {c : Code} (h : (if off % 8 ≠ 0 then some eAlign else if 0xFFC0 < off then some eRange else none) = some c) :
    exec (.dmap n d a) s = .next (s.after n fun r => { r.put d (c.setWidth 64) with pc := r.pc + 4 }) := by
  refine (onMem_instr hq hf _).trans ?_
  dsimp only
  rw [ho, firstFail_dmaPlace, h, State.after_ret hq]
  rfl

/-- A descriptor in the store is judged by its fields and then by the later checks. -/
theorem exec_dmap_inside (h8 : off % 8 = 0) (hi : off ≤ 0xFFC0) {ws : List W32} (hw : bytesToWords 16 (s.dev.bytes (storeAddr n off) 64) = ws) :
    exec (.dmap n d a) s = .next { s with
      dev := s.dev.dmaTaken n d ws (firstFail (dmaFields ws n ++ s.dev.dmaLate n (dmaDesc ws))) } := by
  have hplace := (firstFail_dmaPlace off).trans ((if_neg (not_not.mpr h8)).trans (if_neg (Nat.not_lt.mpr hi)))
  refine (onMem_instr hq hf _).trans ?_
  dsimp only
  rw [ho, hplace]
  dsimp only
  split
  · next x hb =>
    rw [Dev.readBytes_quiet hq] at hb
    cases hb
  · next x bs hb =>
    rw [Dev.readBytes_quiet hq] at hb
    cases hb
    rw [hw, Dev.dmaLate]
    generalize firstFail _ = e
    cases e <;> rfl

end

/-! ## The start of a descriptor (R167) -/

/-- The only descriptor of a queue has nothing before it to wait for. -/
theorem Dev.dmaStart_single {d : Dev} {n : Nat} {e : DmaEntry} (h : (d.clu n).dma = [e]) (hs : e.started = false) :
    d.dmaStart n = d.setClu n { d.clu n with dma := [{ e with started := true }] } := by
  have hnext : nextDma [e] = 0 := by rw [nextDma, if_neg (by rw [hs]; decide)]
  rw [Dev.dmaStart, h]
  dsimp only
  rw [hnext]
  simp [guarded, Dev.modClu, h]

/-! ## The end of a descriptor (R167, R168) -/

theorem DmaDesc.starts_single {y : DmaDesc} (h : y.rows = 1) (a : Nat) : (y.dstRows a).starts = [a] := by
  simp [Rows.starts, DmaDesc.dstRows, h, List.range_succ]

/-- Memory after a descriptor of one row to one place. -/
def DmaDesc.moved (y : DmaDesc) (m : Mem) : Mem :=
  if y.zero then Mem.clear m y.dst (y.dst + y.len) else Mem.copy memDefault m y.src y.dst y.len

theorem DmaDesc.read_moved_inside (y : DmaDesc) {m : Mem} (hm : Mem.wf memDefault m = true) {i : Nat} (hi : i < y.len) :
    Mem.read memDefault (y.moved m) (y.dst + i) = if y.zero then 0 else Mem.read memDefault m (y.src + i) := by
  unfold DmaDesc.moved
  split
  · exact (Mem.read_clear ..).trans (if_pos (by omega))
  · exact Mem.read_copy_inside hm _ _ hi

theorem DmaDesc.read_moved_outside (y : DmaDesc) (m : Mem) {x : Nat} (hx : x < y.dst ∨ y.dst + y.len ≤ x) :
    Mem.read memDefault (y.moved m) x = Mem.read memDefault m x := by
  unfold DmaDesc.moved
  split
  · exact (Mem.read_clear ..).trans (if_neg (by omega))
  · exact Mem.read_copy_outside _ _ _ _ hx

theorem Dev.dmaMove_single {d : Dev} {n : Nat} {y : DmaDesc} (hq : d.quiet) (hr : d.dmaReach n y = none) (h1 : y.rows = 1) (hc : y.cores = 0) :
    d.dmaMove n y = ({ d with mem := y.moved d.mem }, 0) := by
  have hd : y.dsts n = [y.dst] := if_pos hc
  rw [Dev.dmaMove, hr, hd, DmaDesc.moved]
  dsimp only
  cases y.zero
  · simp [Dev.readAll_quiet hq, h1, List.range_succ, Dev.copyRange_quiet hq]
  · simp [DmaDesc.starts_single h1, Dev.zeroRange_quiet hq]

theorem Dev.dmaMove_unreached {d : Dev} {n : Nat} {y : DmaDesc} {k : Code} (hr : d.dmaReach n y = some k) : d.dmaMove n y = (d, k) := by
  rw [Dev.dmaMove, hr]

theorem takeWhile_finished {l : List DmaEntry} (h : ∀ e ∈ l, e.finished = true) : l.takeWhile DmaEntry.finished = l :=
  List.takeWhile_eq_self_iff.mpr h

/-- A queue of finished descriptors empties, and all are counted. -/
theorem Dev.dmaRetire_all {d : Dev} {n : Nat} (h : ∀ e ∈ (d.clu n).dma, e.finished = true) : d.dmaRetire n = d.setClu n { d.clu n with
    dma := [], clu := { (d.clu n).clu with dmaDone := (d.clu n).clu.dmaDone + BitVec.ofNat 32 (d.clu n).dma.length } } := by
  rw [Dev.dmaRetire, Dev.modClu]
  dsimp only
  rw [takeWhile_finished h, List.drop_length]

section
variable {d : Dev} {n : Nat} {e : DmaEntry} {later : List DmaEntry} (hd : (d.clu n).dma = e :: later) (hs : e.started = true)
  (hf : e.finished = false)
include hd hs hf

theorem Dev.dmaFinish_head : d.dmaFinish n 0 =
    (if (d.dmaMove n (dmaDesc e.words)).2 = 0 then
      (d.dmaMove n (dmaDesc e.words)).1.modClu n fun k =>
        { k with dma := k.dma.set 0 { e with finished := true },
                 clu := { k.clu with dmaNote := k.clu.dmaNote || (dmaDesc e.words).note } }
    else (d.dmaMove n (dmaDesc e.words)).1.modClu n fun k =>
      { k with dma := k.dma.map fun f => { f with started := true, finished := true },
               clu := { k.clu with dmaErr := true, dmaErrTag := (dmaDesc e.words).tag,
                                   dmaErrCode := (d.dmaMove n (dmaDesc e.words)).2 } }).dmaRetire n := by
  rw [Dev.dmaFinish, hd]
  dsimp only [List.getElem?_cons_zero]
  rw [hs, hf]
  rfl

/-- The head of the queue ends alone, without an error. -/
theorem Dev.dmaFinish_done {m : Mem} (hl : later = []) (hm : d.dmaMove n (dmaDesc e.words) = ({ d with mem := m }, 0)) :
    d.dmaFinish n 0 = { d.setClu n { d.clu n with
      dma := [], clu := { (d.clu n).clu with dmaDone := (d.clu n).clu.dmaDone + 1,
                                             dmaNote := (d.clu n).clu.dmaNote || (dmaDesc e.words).note } } with mem := m } := by
  subst hl
  have hclu : Dev.clu { d with mem := m } n = d.clu n := rfl
  rw [Dev.dmaFinish_head hd hs hf, hm, if_pos rfl, Dev.modClu, hclu, hd, Dev.dmaRetire_all]
  · rw [Dev.clu_setClu_same, Dev.setClu_setClu]
    rfl
  · rw [Dev.clu_setClu_same]
    simp

/-- The head of the queue meets an error, which stops it and every later one. -/
theorem Dev.dmaFinish_error {k : Code} (hk : k ≠ 0) (hm : d.dmaMove n (dmaDesc e.words) = (d, k)) :
    d.dmaFinish n 0 = d.setClu n { d.clu n with
      dma := [], clu := { (d.clu n).clu with dmaDone := (d.clu n).clu.dmaDone + BitVec.ofNat 32 (later.length + 1), dmaErr := true,
                                             dmaErrTag := (dmaDesc e.words).tag, dmaErrCode := k } } := by
  rw [Dev.dmaFinish_head hd hs hf, hm, if_neg hk, Dev.modClu, hd, Dev.dmaRetire_all]
  · rw [Dev.clu_setClu_same, Dev.setClu_setClu, List.length_map]
    rfl
  · rw [Dev.clu_setClu_same]
    simp

end

/-! ## The statement -/

/-- Settles O21: DMAP by the first check that fails, the start of a lone descriptor, and its end with its bytes or with its error. -/
theorem dmaPostsAndRuns : Obligations.DmaPostsAndRuns := by
  refine ⟨fun n d a s hq hf => ?_, fun n e s hq hm => ?_, fun n e later k s hq => ?_⟩
  · intro c off ws y code fits
    have hin : off % 8 = 0 → off ≤ 0xFFC0 → exec (.dmap n d a) s = .next { s with
        dev := s.dev.dmaTaken n d ws (firstFail (dmaFields ws n ++ s.dev.dmaLate n y)) } :=
      fun h8 hi => exec_dmap_inside hq hf d rfl h8 hi rfl
    have hcode : ∀ e, (.next { s with dev := s.dev.dmaTaken n d ws (some e) } : Result) = code e := fun e =>
      congrArg _ (State.after_ret hq _).symm
    have hlate : firstFail (dmaFields ws n) = none →
        firstFail (dmaFields ws n ++ s.dev.dmaLate n y) = firstFail (s.dev.dmaLate n y) := firstFail_append_none
    refine ⟨fun h8 => exec_dmap_place hq hf d rfl (if_pos h8),
      fun h8 hi => exec_dmap_place hq hf d rfl ((if_neg (not_not.mpr h8)).trans (if_pos hi)), fun h8 hi => ⟨fun e he => ?_, fun e he hr => ?_,
      fun hfits hE => ?_, fun hfits hE hl => ?_, fun hfits hE hl => ?_⟩⟩
    · rw [hin h8 hi, firstFail_append_some he, hcode]
    · rw [hin h8 hi, hlate he, Dev.dmaLate, hr]
      exact hcode e
    all_goals
      obtain ⟨hfields, hr, hmeets⟩ := hfits
      rw [hin h8 hi, hlate hfields, Dev.dmaLate, hr, hmeets, hE]
    · exact hcode eState
    · exact State.next_congr (Dev.dmaTaken_queued hl d ws)
    · obtain ⟨k, hk⟩ := s.dev.stall_eq n
      refine ⟨_, State.next_congr (Dev.dmaTaken_waits hl d ws), ?_⟩
      have hclu : (s.dev.stall n).clu n = { c with clu := { c.clu with stall := BitVec.ofNat 32 (satInc 32 c.clu.stall.toNat k) } } := by
        rw [hk]
        exact Dev.clu_setClu_same ..
      rw [hclu]
      exact congrArg (fun e => ({ s with dev := e } : State)) hk
  · intro c y
    refine ⟨fun hd hs => ?_, fun hd hs hf hr h1 hc hmeets => ?_⟩
    · exact (onMem_quiet hq.snoops _).trans (State.next_congr (Dev.dmaStart_single hd hs))
    · have hmove := Dev.dmaMove_single hq hr h1 hc
      exact ⟨_, (onMem_quiet hq.snoops _).trans (State.next_congr (Dev.dmaFinish_done hd hs hf rfl hmove)), rfl,
        fun i hi => y.read_moved_inside hm.1 hi, fun x hx => y.read_moved_outside s.dev.mem hx⟩
  · intro c hd hs hf hr hk
    exact (onMem_quiet hq.snoops _).trans (State.next_congr (Dev.dmaFinish_error hd hs hf hk (Dev.dmaMove_unreached hr)))

end Sys2Proof.Machine
end

section
/-! SUPPORT. The operations that read and write the device's memories keep them in canonical form (log 6). -/

namespace Sys2Proof.Machine

/-- Device memory and host memory are in canonical form. -/
def Dev.formed (d : Dev) : Prop := Mem.wf memDefault d.mem = true ∧ Mem.wf memDefault d.hostMem = true

theorem Dev.formed_foldl {α : Type} {f : Dev → α → Dev} (hf : ∀ (d : Dev) x, d.formed → (f d x).formed) (xs : List α) {d : Dev}
    (h : d.formed) : (xs.foldl f d).formed := by
  induction xs generalizing d with
  | nil => exact h
  | cons x xs ih => exact ih (hf d x h)

namespace Dev.formed

variable {d : Dev}

/-! ## Changes of tables -/

theorem modLd (h : d.formed) (n : Nat) (f : Ld → Ld) : (d.modLd n f).formed := h

theorem modClu (h : d.formed) (n : Nat) (f : Cluster → Cluster) : (d.modClu n f).formed := h

theorem modDie (h : d.formed) (n : Nat) (f : Die → Die) : (d.modDie n f).formed := h

theorem modUnit (h : d.formed) (u : MemUnit) (f : Unit → Unit) : (d.modUnit u f).formed := h

theorem emit (h : d.formed) (o : Output) : (d.emit o).formed := h

theorem setTag (h : d.formed) (n : Nat) (t : PageTag) : (d.setTag n t).formed := h

theorem modReq (h : d.formed) (n : Nat) (f : ReqSlot → ReqSlot) : (d.modReq n f).formed := h

/-! ## Changes of the memories -/

theorem withMem (h : d.formed) {m : Mem} (hm : Mem.wf memDefault m = true) : ({ d with mem := m } : Dev).formed := ⟨hm, h.2⟩

theorem hostWrite (h : d.formed) (a : Nat) (bs : List Byte) : (d.hostWrite a bs).formed := ⟨h.1, Mem.writeN_wf a bs h.2⟩

theorem wipeIf (h : d.formed) (p : Nat → Bool) : (d.wipeIf p).formed := ⟨Mem.filter_wf _ h.1, h.2⟩

theorem wipe (h : d.formed) (a n : Nat) : (d.wipe a n).formed := h.wipeIf _

/-! ## The codes of memory -/

theorem eccEvt (h : d.formed) (u : MemUnit) (b : Nat) : (d.eccEvt u b).formed := by
  unfold Dev.eccEvt
  dsimp only
  split
  · exact h.modLd _ _
  · exact (h.modLd _ _).modLd _ _

theorem eccRecord (h : d.formed) (u : MemUnit) (cw k r y : Nat) : (d.eccRecord u cw k r y).formed := h.modUnit u _

theorem poisonCw (h : d.formed) (cw : Nat) : (d.poisonCw cw).formed := h

theorem mcError (h : d.formed) (req cw : Nat) : (d.mcError req cw).formed := by
  unfold Dev.mcError
  split
  · exact h.emit _
  · exact h

theorem queueRow (h : d.formed) (u : MemUnit) (cw : Nat) (c : Bool) : (d.queueRow u cw c).formed := by
  unfold Dev.queueRow
  dsimp only
  split
  · exact h.modUnit u _
  · exact h

theorem hitRow (h : d.formed) (u : MemUnit) (cw : Nat) : (d.hitRow u cw).formed := by
  unfold Dev.hitRow
  dsimp only
  split
  · exact (h.modUnit u _).queueRow u cw false
  · exact h.modUnit u _

theorem hitLane (h : d.formed) (u : MemUnit) (cw y : Nat) : (d.hitLane u cw y).formed := by
  unfold Dev.hitLane
  dsimp only
  split
  · exact ((h.modUnit u _).modUnit u _).eccEvt u 5
  · exact h.modUnit u _

theorem countOdc (h : d.formed) (u : MemUnit) (cw : Nat) : (d.countOdc u cw).formed := by
  cases u with
  | stack n =>
    unfold Dev.countOdc
    dsimp only
    split
    · exact h.modUnit _ _
    · exact h
  | channel n => exact h
  | dieSram n => exact h
  | iodSram n => exact h

/-- A miscorrected codeword takes other data (R192). -/
theorem decodeCw (h : d.formed) (u : MemUnit) (cw : Nat) : (d.decodeCw u cw).1.formed := by
  unfold Dev.decodeCw
  split
  · dsimp only
    split
    · exact h
    · exact withMem (d := d.draw.1) h (Mem.writeN_wf cw _ h.1)
  · exact h

theorem correctCw (h : d.formed) (u : MemUnit) (req cw : Nat) (syms : List Nat) : (d.correctCw u req cw syms).formed := by
  have hc := ((h.modUnit u fun x => { x with ce := sat32 x.ce }).eccRecord u cw 1 req (syms.headD 127)).eccEvt u 0
  unfold Dev.correctCw
  dsimp only
  generalize Dev.eccEvt u 0 _ = e at hc ⊢
  have he : ({ e with upsets := Map.del e.upsets cw } : Dev).formed := hc
  split
  · exact Dev.formed_foldl (fun _ y hd => hd.hitLane u cw y) _ (he.hitRow u cw)
  · exact he

/-- One read of a codeword. -/
theorem touch (h : d.formed) (req cw : Nat) : (d.touch req cw).1.formed := by
  unfold Dev.touch
  split
  · exact h
  · next u _ =>
    split
    · have hp := (h.modUnit u fun x => { x with ue := sat32 x.ue }).eccRecord u cw 3 req 127
      refine mcError ?_ req cw
      split
      · exact hp
      · exact hp.eccEvt u 1
    · have hd := (h.countOdc u cw).decodeCw u cw
      split
      · next e _ he => rw [he] at hd; exact hd.correctCw u req cw _
      · next e he =>
        rw [he] at hd
        exact (((((hd.modUnit u _).eccRecord u cw 2 req 127).eccEvt u _).poisonCw cw).queueRow u cw false).mcError req cw
      · next e _ _ _ he => rw [he] at hd; exact hd

theorem touchAll (req : Nat) (cs : List Nat) {d : Dev} (h : d.formed) : (Dev.touchAll req cs d).1.formed := by
  induction cs generalizing d with
  | nil => exact h
  | cons c cs ih =>
    have ht := h.touch req c
    unfold Dev.touchAll
    split
    · next e he => rw [he] at ht; exact ih ht
    · next e he => rw [he] at ht; exact ht

theorem note (h : d.formed) (req a n : Nat) : (d.note req a n).formed := by
  unfold Dev.note
  split
  · exact h
  · exact h

/-! ## Reads and writes of ranges -/

theorem readOk (h : d.formed) (req a n : Nat) : (d.readOk req a n).1.formed := touchAll req _ (h.note req a n)

/-- The decryption of codewords under another key rewrites their bytes (R190). -/
theorem seen (h : d.formed) (a n : Nat) : Mem.wf memDefault (d.seen a n) = true := by
  unfold Dev.seen
  generalize d.foreign a n = cs
  have hm := h.1
  generalize d.mem = m at hm ⊢
  induction cs generalizing m with
  | nil => exact hm
  | cons c cs ih => exact ih _ (Mem.writeN_wf c _ hm)

theorem sealed (h : d.formed) (a n : Nat) : (d.seal a n).formed := by
  unfold Dev.seal
  split
  · exact h
  · exact ⟨h.seen a n, h.2⟩

theorem merge (h : d.formed) (req cw : Nat) : (d.merge req cw).formed := by
  unfold Dev.merge
  split
  · exact h
  · next u _ =>
    split
    · exact h
    · have hd := (h.countOdc u cw).decodeCw u cw
      split
      · next e _ he => rw [he] at hd; exact hd.correctCw u req cw _
      · next e he => rw [he] at hd; exact (hd.poisonCw cw).queueRow u cw false
      · next e _ _ _ he => rw [he] at hd; exact hd

theorem cover (h : d.formed) (req a n : Nat) : (d.cover req a n).formed := by
  unfold Dev.cover
  split
  · exact h
  · have hs := (h.note req a n).sealed a n
    dsimp only
    generalize Dev.seal a n _ = e at hs ⊢
    have he : ({ e with poison := e.poison.filter fun c => !(a ≤ c && c + cwBytes c ≤ a + n),
                        upsets := Map.delIf e.upsets fun c => a ≤ c && c + cwBytes c ≤ a + n } : Dev).formed := hs
    split <;> split
    · exact he
    · exact he.merge req _
    · exact he.merge req _
    · exact (he.merge req _).merge req _

theorem writeBytes (h : d.formed) (req a : Nat) (bs : List Byte) : (d.writeBytes req a bs).formed :=
  have hc := h.cover req a bs.length
  hc.withMem (Mem.writeN_wf a bs hc.1)

theorem writePoison (h : d.formed) (req a : Nat) (bs : List Byte) : (d.writePoison req a bs).formed :=
  Dev.formed_foldl (fun _ c hd => hd.poisonCw c) _ (h.writeBytes req a bs)

theorem zeroRange (h : d.formed) (req a n : Nat) : (d.zeroRange req a n).formed :=
  have hc := h.cover req a n
  hc.withMem (Mem.clear_wf a (a + n) hc.1)

theorem copyRange (h : d.formed) (req src dst n : Nat) : (d.copyRange req src dst n).formed :=
  have hc := h.cover req dst n
  hc.withMem (Mem.putCells_wf src dst _ (Mem.clear_wf dst (dst + n) hc.1))

/-! ## Reports of commands (R233, R453, R457) -/

theorem cqRecord (h : d.formed) (ld q : Nat) (bs : List Byte) : (d.cqRecord ld q bs).formed :=
  ((h.hostWrite _ bs).hostWrite _ _).modLd ld _

theorem putWord (h : d.formed) (a : Nat) (v : W32) : (d.putWord a v).formed := h.writeBytes reqEng a _

theorem ringHead (kind : RingKind) (base : Nat) (tail : W32) (k : Nat) {d : Dev} (h : d.formed) :
    (Dev.ringHead kind base tail k d).formed := by
  induction k generalizing d with
  | zero => exact h
  | succ k ih =>
    unfold Dev.ringHead
    dsimp only
    split
    · exact ih (h.putWord _ _)
    · exact h

theorem ringDone (h : d.formed) (kind : RingKind) (clu k : Nat) (c : Code) : (d.ringDone kind clu k c).formed :=
  ringHead kind _ _ _ (h.putWord _ _)

theorem mbxReply (h : d.formed) (ld m : Nat) (ws : List W32) : (d.mbxReply ld m ws).formed := (h.modLd ld _).modLd ld _

theorem finish (h : d.formed) (t : Ticket) (c : Code) (ab : Bool) (v : W32) : (d.finish t c ab v).formed := by
  unfold Dev.finish
  split
  · exact (h.modLd _ _).cqRecord _ _ _
  · exact h.ringDone ..
  · exact h
  · exact h.mbxReply ..
  · split
    · exact h.modReq _ _
    · exact h
  · exact h

theorem done (h : d.formed) (t : Ticket) (c : Code) : (d.done t c).formed := h.finish ..

theorem ldErr (h : d.formed) (ld : Nat) (c : Code) : (d.ldErr ld c).formed := h.modLd ld _

/-! ## The start and the end of a program (R450, R451, R180) -/

theorem wipeCluster (h : d.formed) (n : Nat) : (d.wipeCluster n).formed := (h.wipe _ _).wipe _ _

theorem orphanRing (h : d.formed) (n : Nat) : (d.orphanRing n).formed := h

/-- The words of one ring that R234 names. -/
theorem clearRing (h : d.formed) (n : Nat) (k : RingKind) :
    ((d.writeBytes reqEng (ringAddr k n + 0x380) (zeros 4)).writeBytes reqEng (ringAddr k n + 0x3C0) (zeros (8 + 4 * ringSize k))).formed :=
  (h.writeBytes reqEng _ _).writeBytes reqEng _ _

theorem clearRings (h : d.formed) (n : Nat) : (d.clearRings n).formed := by
  unfold Dev.clearRings
  exact (((h.orphanRing n).clearRing n .kv).clearRing n .col).modClu n _

theorem enterProgram (h : d.formed) (n dom : Nat) (o : Occupant) (ctl : CtlRegs) : (d.enterProgram n dom o ctl).formed := h.modClu n _

theorem startProgram (h : d.formed) (n ld dom code len g1 g2 : Nat) (o : Occupant) :
    (d.startProgram n ld dom code len g1 g2 o).1.formed := by
  have hr := h.readOk reqLaunch code len
  unfold Dev.startProgram
  split
  · exact h
  · split
    · next e he => rw [he] at hr; exact hr
    · next e he =>
      rw [he] at hr
      have hc := ((hr.wipeCluster n).copyRange reqLaunch code (storeAddr n 0) len).clearRings n
      dsimp only
      exact hc.enterProgram n dom o (entryRegs g1 g2 n)

theorem launchUpdate (h : d.formed) (j : LaunchJob) : (d.launchUpdate j).formed := by
  unfold Dev.launchUpdate
  split
  · have hl : ({ d with launches := d.launches.filter fun x => x.id != j.id } : Dev).formed := h
    exact hl.finish ..
  · exact h

theorem startFor (h : d.formed) (id n : Nat) : (d.startFor id n).formed := by
  unfold Dev.startFor
  split
  · exact h
  · next j _ =>
    have hs := h.startProgram n j.ld j.dom j.code j.len j.arg.toNat (n - j.clu0) (.main id (n - j.clu0))
    dsimp only
    split
    · exact hs.launchUpdate _
    · exact hs.launchUpdate _

theorem tryStart (h : d.formed) (id n : Nat) : (d.tryStart id n).formed := by
  unfold Dev.tryStart
  dsimp only
  split
  · split
    · exact h
    · exact h.launchUpdate _
  · split
    · exact h
    · split
      · split
        · exact h
        · exact h.startFor id n
      · split
        · exact h.modClu n _
        · exact h
      · exact h

theorem pump (h : d.formed) : d.pump.formed := Dev.formed_foldl (fun _ w hd => hd.tryStart w.1 w.2) _ h

theorem dropSaved (h : d.formed) (ld : Nat) : (d.dropSaved ld).formed := h

theorem cropUpdate (h : d.formed) (ld : Nat) (j : CropJob) : (d.cropUpdate ld j).formed := by
  unfold Dev.cropUpdate
  split
  · exact ((h.dropSaved ld).modLd ld _).finish ..
  · exact h.modLd ld _

theorem endProgram (h : d.formed) (n : Nat) (k : EndKind) : (d.endProgram n k).formed := by
  unfold Dev.endProgram
  refine pump ?_
  split
  · split
    · exact h.modClu n _
    · exact (h.modClu n _).launchUpdate _
  · dsimp only
    split
    · exact h.modClu n _
    · exact (h.modClu n _).cropUpdate _ _
  · split
    · exact (h.modClu n _).modDie _ _
    · exact h.modClu n _
  · exact h.modClu n _

theorem exception (h : d.formed) (n cause : Nat) (code : Code) (addr : Option Nat) : (d.exception n cause code addr).formed := by
  unfold Dev.exception
  split
  · exact (h.endProgram n .faulted).emit _
  · exact h.modClu n _

/-- An instruction keeps the form when its own effect does. -/
theorem instr (h : d.formed) {n : Nat} {f : Dev → Dev} (hf : ∀ e : Dev, e.formed → (f e).formed) : (d.instr n f).formed := by
  unfold Dev.instr
  split
  · dsimp only
    split
    · exact h.exception ..
    · have hr := h.readOk reqClu (storeAddr n (d.clu n).ctl.pc.toNat) 4
      split
      · next e he => rw [he] at hr; exact hr.exception ..
      · next e he => rw [he] at hr; exact hf e hr
  · exact h

/-! ## Register writes -/

theorem guarded (h : d.formed) {c : Bool} {f : Dev → Dev} (hf : c = true → (f d).formed) : (Machine.guarded c f d).formed := by
  unfold Machine.guarded
  split
  · next hc => exact hf hc
  · exact h

theorem checked (h : d.formed) (pg : RegPage) (e : Option Code) {f : Dev → Dev} (hf : (f d).formed) : (d.checked pg e f).formed := by
  cases e with
  | none => exact hf
  | some c =>
    cases pg with
    | ld n => exact h.ldErr n c
    | clu n => exact h.modClu n _

theorem pageWrite (h : d.formed) (ag : Agent) (ld off : Nat) {f : Dev → Dev} (hf : (f d).formed) : (d.pageWrite ag ld off f).formed := by
  unfold Dev.pageWrite
  split
  · split
    · exact h
    · exact h.ldErr ..
    · split
      · exact hf
      · exact h.ldErr ..
    · exact hf
  · exact h

theorem backInvalidate (h : d.formed) (ls : List Nat) : (d.backInvalidate ls).formed :=
  Dev.formed_foldl (fun e l he => by split <;> exact he) ls h

end Dev.formed
end Sys2Proof.Machine
end

section
/-! SUPPORT. The commands that write memory keep device memory, host memory and the NVM in canonical form (log 6). -/

namespace Sys2Proof.Machine

/-! ## The effects on the device -/

namespace Dev.formed

variable {d : Dev}

/-- A host write of a line (R436). -/
theorem cxlWrite (h : d.formed) (ld hdm x : Nat) (data : List Byte) (poison : Bool) : (d.cxlWrite ld hdm x data poison).formed := by
  unfold Dev.cxlWrite
  split
  · exact h
  · split
    · exact h
    · split
      · exact h.ldErr ..
      · split
        · exact h.writePoison ..
        · exact h.writeBytes ..

/-- A write of `CQ_CFG` with `enable` 1 (R445) begins no disable. -/
theorem cqCfg (h : d.formed) (now : W64) (ld q : Nat) {v : W32} (hv : v.getLsbD 31 = true) : (d.cqCfg now ld q v).formed := by
  unfold Dev.cqCfg
  refine h.checked _ _ ?_
  simp only [hv, Bool.not_true, Bool.false_and, Bool.false_eq_true, if_false]
  split
  · exact (h.hostWrite _ _).modLd _ _
  · exact h.modLd _ _

/-- A write of `REQ_CPL_CFG` (R455). -/
theorem reqCplCfg (h : d.formed) (ld : Nat) (v : W32) : (d.reqCplCfg ld v).formed := by
  unfold Dev.reqCplCfg
  refine h.checked _ _ ?_
  dsimp only
  split
  · exact ((h.modLd _ _).hostWrite _ _).modLd _ _
  · exact h.modLd _ _

theorem closeAdvance (h : d.formed) (dom : Nat) : (d.closeAdvance dom).formed := by
  unfold Dev.closeAdvance
  split
  · exact Dev.formed_foldl (fun _ _ hd => hd.setTag _ _) _ h
  · exact h

/-- The end of a zero fill (R470). -/
theorem pageFilled (h : d.formed) (f : Nat) : (d.pageFilled f).formed := by
  unfold Dev.pageFilled
  dsimp only
  split
  · exact h
  · have hz := (h.zeroRange reqMc (frameAddr f) frameBytes).setTag f
      (if (d.tag f).release then PageTag.init else { d.tag f with st := .assigned })
    generalize Dev.setTag _ _ _ = e at hz ⊢
    refine closeAdvance ?_ _
    split
    · exact hz
    · next j _ =>
      have hj : ({ e with pageJobs := e.pageJobs.filter fun q => q != j } : Dev).formed := hz
      split
      · exact hj.done ..
      · exact hz

end Dev.formed

/-! ## The NVM -/

theorem Vault.erase_wf {v : Vault} (h : Mem.wf nvmDefault v.nvm = true) (a n : Nat) : Mem.wf nvmDefault (v.erase a n).nvm = true :=
  Mem.clear_wf a (a + n) h

theorem Vault.program_wf {v : Vault} (h : Mem.wf nvmDefault v.nvm = true) (a : Nat) (bs : List Byte) :
    Mem.wf nvmDefault (v.program a bs).nvm = true :=
  Mem.writeN_wf a bs h

/-- A start record goes to an erased place, or to a sector that it erases (R498). -/
theorem Vault.append_wf {v : Vault} (h : Mem.wf nvmDefault v.nvm = true) (count level : Nat) (code : Code) (detail : BitVec 8) :
    Mem.wf nvmDefault (v.append count level code detail).1.nvm = true := by
  unfold Vault.append
  dsimp only
  split
  · exact Vault.program_wf (Vault.erase_wf h recordA nvmSector) _ _
  · split
    · exact Vault.program_wf h _ _
    · exact Vault.program_wf (Vault.erase_wf h _ nvmSector) _ _

/-! ## The commands -/

namespace State.memWf

variable {s t : State}

theorem formed (h : s.memWf) : s.dev.formed := ⟨h.1, h.2.1⟩

theorem nvm (h : s.memWf) : Mem.wf nvmDefault s.vault.nvm = true := h.2.2

/-- A state whose device keeps the form beside the same NVM. -/
theorem withDev (h : s.memWf) {d : Dev} (hd : d.formed) : ({ s with dev := d } : State).memWf := ⟨hd.1, hd.2, h.nvm⟩

theorem withNvm (h : s.memWf) {v : Vault} (hv : Mem.wf nvmDefault v.nvm = true) : ({ s with vault := v } : State).memWf :=
  ⟨h.1, h.2.1, hv⟩

/-- A command of an engine has its effect, or only asks the host for the lines that it meets (R437). -/
theorem onMem (h : s.memWf) {f : Dev → Dev} (hf : ∀ d : Dev, d.formed → (f d).formed) (ht : Machine.onMem f s = .next t) : t.memWf := by
  cases ht
  unfold State.settleHost
  split
  · exact h.withDev (hf _ h.formed)
  · dsimp only
    split
    · exact h.withDev (hf { s.dev with touched := [] } h.formed)
    · exact h.withDev (h.formed.backInvalidate _)

theorem nvmReply (h : s.memWf) (c : Code) (ws : List W32) : (s.nvmReply c ws).memWf := h.withDev (h.formed.mbxReply ..)

/-- An NVM message keeps the form when its own effect does (R506). -/
theorem nvmMsg (h : s.memWf) (msg : Nat) (more : Checks) {f : State → State} (hf : (f s).memWf) : (s.nvmMsg msg more f).memWf := by
  unfold State.nvmMsg
  split
  · exact h
  · split
    · exact h.nvmReply ..
    · exact hf

theorem programByte (h : s.memWf) (a : Nat) (b : Byte) : (s.programByte a b).memWf := by
  unfold State.programByte
  split
  · exact h.withNvm (Vault.program_wf h.nvm a [b])
  · exact ⟨h.1, h.2.1, Vault.program_wf h.nvm a _⟩

theorem programBytes (bs : List Byte) (a : Nat) {s : State} (h : s.memWf) : (State.programBytes a bs s).memWf := by
  induction bs generalizing a s with
  | nil => exact h
  | cons b bs ih => exact ih (a + 1) (h.programByte a b)

end State.memWf

theorem State.memWf.record {s : State} (h : s.memWf) (count level : Nat) (code : Code) (detail : BitVec 8) :
    (s.record count level code detail).memWf := by
  unfold State.record
  split
  · exact h
  · exact ⟨h.1, h.2.1, Vault.append_wf h.nvm count level code detail⟩

/-- Settles O6: each of the eight commands is made of operations that keep the form. -/
theorem memoryWritesKeepForm : Obligations.MemoryWritesKeepForm := by
  intro clu ld hdm off q f sz a b ag v data poison s t h c hc ht
  simp only [List.mem_cons, List.not_mem_nil, or_false] at hc
  obtain rfl | rfl | rfl | rfl | rfl | rfl | rfl | rfl := hc
  · refine h.onMem (fun d hd => hd.instr fun e he => ?_) (ht : execSt clu sz a b s = .next t)
    dsimp only
    split
    · exact he.exception ..
    · exact (he.writeBytes reqClu _ _).modClu clu _
  · cases ht
    exact h.withDev (h.formed.cxlWrite ..)
  · cases ht
    refine h.withDev (h.formed.guarded fun hv => h.formed.pageWrite ag ld _ ?_)
    rw [Bool.and_eq_true] at hv
    exact h.formed.cqCfg s.now ld q hv.1
  · cases ht
    exact h.withDev (h.formed.guarded fun _ => h.formed.pageWrite ag ld _ (h.formed.reqCplCfg ld v))
  · exact h.onMem (fun d hd => hd.pageFilled f) ht
  · cases ht
    exact h.nvmMsg _ _ ((h.withNvm (Vault.erase_wf h.nvm _ _)).nvmReply ..)
  · cases ht
    exact h.nvmMsg _ _ ((State.memWf.programBytes _ _ h).nvmReply ..)
  · cases ht
    exact h.nvmMsg _ _ ((h.record ..).nvmReply ..)

end Sys2Proof.Machine
end

section
/-! SUPPORT. What the codes of memory note when they correct a codeword or find it uncorrectable: the counters, the record, the
error events and the rows and symbols in error of a unit (R192 to R194, R205, R206, R214 to R216). -/

namespace Sys2Proof.Machine

/-! ## Tables and bits -/

theorem mem_insNat {k x : Nat} {l : List Nat} : x ∈ insNat k l ↔ x = k ∨ x ∈ l := by
  induction l with
  | nil => simp [insNat]
  | cons a t ih =>
    unfold insNat
    split
    · simp
    · split
      · next h => subst h; simp
      · simp only [List.mem_cons, ih, or_left_comm]

theorem Map.get_del {α : Type} (m : Map α) (n k : Nat) (d : α) :
    Map.get (Map.del m n) k d = if k = n then d else Map.get m k d := by
  suffices h : Map.find (Map.del m n) k = if k = n then none else Map.find m k by
    rw [Map.get, h]
    split <;> rfl
  induction m with
  | nil => simp [Map.del, Map.find]
  | cons e t ih =>
    obtain ⟨j, a⟩ := e
    unfold Map.del at ih ⊢
    by_cases hj : j = n
    · subst hj
      rw [List.filter_cons_of_neg (by simp), ih, Map.find]
      split
      · rfl
      · next h => rw [if_neg (Ne.symm h)]
    · rw [List.filter_cons_of_pos (by simpa using hj), Map.find, Map.find, ih]
      split
      · next h => rw [if_neg (h ▸ hj)]
      · rfl

/-- A bit that is set stays set when another is. -/
theorem getLsbD_setBit_of {n : Nat} {v : BitVec n} {k : Nat} (b : Nat) (h : v.getLsbD k = true) : (setBit v b).getLsbD k = true := by
  rw [setBit, BitVec.getLsbD_or, h, Bool.true_or]

/-! ## Changes of registers alone -/

/-- Only registers of LDs and of memory units have changed. -/
def Dev.regsOnly (d d' : Dev) : Prop := ∃ ls us, d' = { d with lds := ls, units := us }

theorem Dev.regsOnly.refl (d : Dev) : d.regsOnly d := ⟨_, _, rfl⟩

theorem Dev.regsOnly.trans {a b c : Dev} (h : a.regsOnly b) (k : b.regsOnly c) : a.regsOnly c := by
  obtain ⟨_, _, rfl⟩ := h
  obtain ⟨_, _, rfl⟩ := k
  exact ⟨_, _, rfl⟩

section
variable (u : MemUnit) (d : Dev)

theorem Dev.regsOnly_modUnit (f : Unit → Unit) : d.regsOnly (d.modUnit u f) := ⟨_, _, rfl⟩

theorem Dev.regsOnly_eccRecord (cw k r y : Nat) : d.regsOnly (d.eccRecord u cw k r y) := by
  unfold Dev.eccRecord
  exact d.regsOnly_modUnit u _

theorem Dev.regsOnly_eccEvt (b : Nat) : d.regsOnly (d.eccEvt u b) := by
  unfold Dev.eccEvt
  dsimp only
  split <;> exact ⟨_, _, rfl⟩

theorem Dev.queueRow_frame (cw : Nat) (c : Bool) : d.queueRow u cw c = { d with units := (d.queueRow u cw c).units } := by
  unfold Dev.queueRow
  dsimp only
  split <;> rfl

theorem Dev.regsOnly_queueRow (cw : Nat) (c : Bool) : d.regsOnly (d.queueRow u cw c) := ⟨_, _, d.queueRow_frame u cw c⟩

/-! ## Error events (R216) -/

theorem Dev.unit_eccEvt (b : Nat) (v : MemUnit) : (d.eccEvt u b).unit v = d.unit v := by
  rw [Dev.unit, (d.tests_eccEvt (u := u) b).2.1, Dev.unit]

/-- An error event is set in LD 15 and in the LD that owns the unit. -/
theorem Dev.evt_eccEvt (b n : Nat) : ((d.eccEvt u b).ld n).ecc.evt =
    if n = 15 ∨ n = d.ldOfUnit u then setBit (d.ld n).ecc.evt b else (d.ld n).ecc.evt := by
  unfold Dev.eccEvt
  dsimp only
  by_cases ho : d.ldOfUnit u = 15
  · simp only [ho, or_self, if_true, Dev.ld_modLd]
    split
    · next h => subst h; rfl
    · rfl
  · rw [if_neg ho, Dev.ld_modLd, Dev.ld_modLd, Dev.ld_modLd]
    by_cases h : n = d.ldOfUnit u
    · rw [if_pos h, if_neg ho, if_pos (.inr h), h]
    · rw [if_neg h]
      by_cases h15 : n = 15
      · rw [if_pos h15, if_pos (.inl h15), h15]
      · rw [if_neg h15, if_neg (not_or.mpr ⟨h15, h⟩)]

theorem Dev.evt_eccEvt_set {b n : Nat} (hb : b < 6) (hn : n = 15 ∨ n = d.ldOfUnit u) :
    ((d.eccEvt u b).ld n).ecc.evt.getLsbD b = true := by
  rw [Dev.evt_eccEvt, if_pos hn]
  exact getLsbD_setBit_same _ hb

theorem Dev.evt_eccEvt_keeps {n k : Nat} (b : Nat) (h : (d.ld n).ecc.evt.getLsbD k = true) :
    ((d.eccEvt u b).ld n).ecc.evt.getLsbD k = true := by
  rw [Dev.evt_eccEvt]
  split
  · exact getLsbD_setBit_of b h
  · exact h

/-! ## The record (R214, R215) -/

/-- The record of a counted error. -/
def Dev.recordOf (cw kind req symbol : Nat) : EccRec :=
  { addr := BitVec.ofNat 44 cw, kind := BitVec.ofNat 2 kind, req := BitVec.ofNat 4 req, symbol := BitVec.ofNat 7 symbol,
    pch := BitVec.ofNat 5 (pchOf cw), ld := BitVec.ofNat 4 (d.ldOfUnit u) }

/-- The record that a unit holds after a counted error: a corrected one leaves that of an uncorrectable one standing. -/
def Dev.recorded (cw kind req symbol : Nat) : EccRec :=
  if kind = 1 ∧ ((d.unit u).last.kind = 2 ∨ (d.unit u).last.kind = 3) then (d.unit u).last else d.recordOf u cw kind req symbol

theorem Dev.unit_eccRecord (cw kind req symbol : Nat) :
    (d.eccRecord u cw kind req symbol).unit u = { d.unit u with last := d.recorded u cw kind req symbol } := by
  rw [Dev.eccRecord, Dev.unit_modUnit_same, Dev.recorded]
  split <;> rfl

/-! ## Rows that wait for repair (R206) -/

/-- Whether a row waits for its soft repair. -/
def Unit.waits (x : Unit) (row : Nat) : Bool := x.queued.any fun q => q.row == row

theorem Dev.unit_queueRow (cw : Nat) (c : Bool) :
    (d.queueRow u cw c).unit u = { d.unit u with queued := ((d.queueRow u cw c).unit u).queued } := by
  unfold Dev.queueRow
  dsimp only
  split
  · rw [Dev.unit_modUnit_same]
    split <;> rfl
  · rfl

/-- Queueing a row keeps every row that waits. -/
theorem Dev.waits_queueRow_of {row : Nat} (cw : Nat) (c : Bool) (h : (d.unit u).waits row = true) :
    ((d.queueRow u cw c).unit u).waits row = true := by
  unfold Dev.queueRow
  dsimp only
  split
  · rw [Dev.unit_modUnit_same]
    unfold Unit.waits at h ⊢
    split
    · rw [List.any_map, ← h]
      refine congrArg (List.any (d.unit u).queued) (funext fun q => ?_)
      dsimp only [Function.comp]
      split <;> rfl
    · rw [List.any_append, h, Bool.true_or]
  · exact h

theorem Dev.waits_queueRow (hu : isDram u = true) (cw : Nat) (c : Bool) : ((d.queueRow u cw c).unit u).waits (rowNum u cw) = true := by
  by_cases h : (d.unit u).waits (rowNum u cw) = true
  · exact d.waits_queueRow_of u cw c h
  · unfold Dev.queueRow
    unfold Unit.waits at h ⊢
    dsimp only
    rw [if_pos hu, Dev.unit_modUnit_same, if_neg h, List.any_append]
    simp

end

/-! ## Rows and symbols of a correction (R205, R206) -/

/-- What noting the row and the symbols of a correction changes: registers alone, of the unit its tables of rows, symbols and
repairs; no error event is cleared, and no row that waits for repair is forgotten. -/
structure Dev.Notes (u : MemUnit) (d d' : Dev) : Prop where
  regs : d.regsOnly d'
  unit : d'.unit u = { d.unit u with rows := (d'.unit u).rows, hits := (d'.unit u).hits, marked := (d'.unit u).marked,
                                     queued := (d'.unit u).queued }
  evt : ∀ n k, (d.ld n).ecc.evt.getLsbD k = true → (d'.ld n).ecc.evt.getLsbD k = true
  waits : ∀ row, (d.unit u).waits row = true → (d'.unit u).waits row = true

section
variable {u : MemUnit}

theorem Dev.Notes.refl (d : Dev) : d.Notes u d := ⟨.refl d, rfl, fun _ _ => id, fun _ => id⟩

theorem Dev.Notes.trans {a b c : Dev} (h : Dev.Notes u a b) (k : Dev.Notes u b c) : Dev.Notes u a c where
  regs := h.regs.trans k.regs
  unit := by rw [k.unit, h.unit]
  evt n i hi := k.evt n i (h.evt n i hi)
  waits r hr := k.waits r (h.waits r hr)

/-- A change of the tables of the unit that keeps the queue. -/
theorem Dev.notes_modUnit (d : Dev) {f : Unit → Unit}
    (hf : ∀ x, f x = { x with rows := (f x).rows, hits := (f x).hits, marked := (f x).marked }) : d.Notes u (d.modUnit u f) where
  regs := d.regsOnly_modUnit u f
  unit := by
    rw [Dev.unit_modUnit_same]
    conv_lhs => rw [hf]
    rw [hf]
  evt _ _ := id
  waits r hr := by
    rw [Dev.unit_modUnit_same, hf]
    exact hr

theorem Dev.notes_eccEvt (d : Dev) (b : Nat) : d.Notes u (d.eccEvt u b) where
  regs := d.regsOnly_eccEvt u b
  unit := by rw [Dev.unit_eccEvt]
  evt _ _ := d.evt_eccEvt_keeps u b
  waits r hr := by rwa [Dev.unit_eccEvt]

theorem Dev.notes_queueRow (d : Dev) (cw : Nat) (c : Bool) : d.Notes u (d.queueRow u cw c) where
  regs := d.regsOnly_queueRow u cw c
  unit := by rw [Dev.unit_queueRow]
  evt n k hk := by
    rw [Dev.queueRow_frame]
    exact hk
  waits _ hr := d.waits_queueRow_of u cw c hr

theorem Dev.notes_hitRow (d : Dev) (cw : Nat) : d.Notes u (d.hitRow u cw) := by
  have h := fun rows => d.notes_modUnit (u := u) (f := fun x => { x with rows := rows }) fun _ => rfl
  unfold Dev.hitRow
  dsimp only
  split
  · exact (h _).trans (Dev.notes_queueRow _ cw false)
  · exact h _

/-- How many corrections of a row the table of R206 counts. -/
def Unit.rowHits (x : Unit) (row : Nat) : Nat := ((x.rows.find? fun r => r.1 == row).map Prod.snd).getD 0

/-- A row waits for its repair once `ce_repair` corrections have come in it. -/
theorem Dev.waits_hitRow {d : Dev} {cw : Nat} (hu : isDram u = true)
    (hn : d.memCtl.ceRepair.toNat ≤ (d.unit u).rowHits (rowNum u cw) + 1) : ((d.hitRow u cw).unit u).waits (rowNum u cw) = true := by
  unfold Dev.hitRow
  dsimp only
  exact (if_pos hn).symm ▸ Dev.waits_queueRow u _ hu cw false

theorem Dev.notes_hitLane (d : Dev) (cw y : Nat) : d.Notes u (d.hitLane u cw y) := by
  have h := fun hits => d.notes_modUnit (u := u) (f := fun x => { x with hits := hits }) fun _ => rfl
  unfold Dev.hitLane
  dsimp only
  split
  · exact ((h _).trans (Dev.notes_modUnit (f := fun x => { x with marked := _ :: x.marked }) _ fun _ => rfl)).trans (Dev.notes_eccEvt _ 5)
  · exact h _

theorem Dev.notes_hitLanes (cw : Nat) (ys : List Nat) (d : Dev) : d.Notes u (ys.foldl (fun d y => d.hitLane u cw y) d) :=
  List.foldlRecOn ys _ (motive := d.Notes u) (.refl d) fun _ h y _ => h.trans (Dev.notes_hitLane _ cw y)

/-! ## A corrected codeword (R194, R215) -/

/-- A device with a corrected codeword counted, recorded and written back. -/
def Dev.counted (u : MemUnit) (req cw symbol : Nat) (d : Dev) : Dev :=
  let e := ((d.modUnit u fun x => { x with ce := sat32 x.ce }).eccRecord u cw 1 req symbol).eccEvt u 0
  { e with upsets := Map.del e.upsets cw }

variable (d : Dev) (req cw : Nat) (ys : List Nat)

theorem Dev.notes_correctCw : (d.counted u req cw (ys.headD 127)).Notes u (d.correctCw u req cw ys) := by
  unfold Dev.correctCw
  dsimp only
  split
  · exact (Dev.notes_hitRow _ cw).trans (Dev.notes_hitLanes cw _ _)
  · exact .refl _

theorem Dev.counted_frame (y : Nat) : ∃ ls us, d.counted u req cw y = { d with lds := ls, units := us, upsets := Map.del d.upsets cw } := by
  obtain ⟨ls, us, h⟩ := ((d.regsOnly_modUnit u fun x => { x with ce := sat32 x.ce }).trans
    (Dev.regsOnly_eccRecord u _ cw 1 req y)).trans (Dev.regsOnly_eccEvt u _ 0)
  exact ⟨ls, us, by rw [Dev.counted, h]⟩

theorem Dev.correctCw_frame : ∃ ls us, d.correctCw u req cw ys = { d with lds := ls, units := us, upsets := Map.del d.upsets cw } := by
  obtain ⟨ls, us, h⟩ := (d.notes_correctCw (u := u) req cw ys).regs
  obtain ⟨_, _, hc⟩ := d.counted_frame (u := u) req cw (ys.headD 127)
  exact ⟨ls, us, by rw [h, hc]⟩

theorem Dev.unit_counted (y : Nat) : (d.counted u req cw y).unit u =
    { d.unit u with ce := sat32 (d.unit u).ce, last := d.recorded u cw 1 req y } := by
  change ((Dev.eccRecord u cw 1 req y _).eccEvt u 0).unit u = _
  rw [Dev.unit_eccEvt, Dev.unit_eccRecord, Dev.recorded, Dev.unit_modUnit_same]
  rfl

/-- A correction sets `ce` in LD 15 and in the LD that owns the unit. -/
theorem Dev.evt_counted (y : Nat) {n : Nat} (hn : n = 15 ∨ n = d.ldOfUnit u) : ((d.counted u req cw y).ld n).ecc.evt.getLsbD 0 = true :=
  Dev.evt_eccEvt_set u _ (by decide) (hn.imp_right fun h => h.trans (by cases u <;> rfl))

/-- The row of a correction waits for its repair once `ce_repair` corrections of unmarked symbols have come in it. -/
theorem Dev.waits_correctCw (hu : isDram u = true) (hy : ∃ y ∈ ys, y ∉ (d.unit u).markedOf (pchOf cw))
    (hn : d.memCtl.ceRepair.toNat ≤ (d.unit u).rowHits (rowNum u cw) + 1) :
    ((d.correctCw u req cw ys).unit u).waits (rowNum u cw) = true := by
  have hfresh : (ys.filter fun y => !((d.unit u).markedOf (pchOf cw)).contains y).isEmpty = false := by
    obtain ⟨y, hy, hm⟩ := hy
    rw [List.isEmpty_eq_false_iff_exists_mem]
    exact ⟨y, List.mem_filter.mpr ⟨hy, by simpa using hm⟩⟩
  have hrow : ((d.counted u req cw (ys.headD 127)).unit u).rowHits (rowNum u cw) = (d.unit u).rowHits (rowNum u cw) := by
    rw [Dev.unit_counted]
    rfl
  have hctl : (d.counted u req cw (ys.headD 127)).memCtl = d.memCtl := by
    obtain ⟨_, _, hc⟩ := d.counted_frame (u := u) req cw (ys.headD 127)
    rw [hc]
  unfold Dev.correctCw
  dsimp only
  rw [if_pos (by rw [hu, hfresh]; rfl)]
  exact (Dev.notes_hitLanes cw _ _).waits _ (Dev.waits_hitRow (d := d.counted u req cw (ys.headD 127)) hu (by rw [hctl, hrow]; exact hn))

end

end Sys2Proof.Machine
end

section
/-! SUPPORT. The scrub (R194, R196, R200 to R202, R206, R214 to R216). -/

namespace Sys2Proof.Machine

/-! ## The read of a codeword -/

/-- An error within the reach of the code is decoded without a change (R192). -/
theorem Dev.decodeCw_of_verdict {u : MemUnit} {cw : Nat} {d : Dev} {v : Verdict}
    (hv : verdict u ((d.unit u).markedOf (pchOf cw)) (Map.get d.upsets cw []) = v) (hb : v ≠ .beyond) : d.decodeCw u cw = (d, v) := by
  subst hv
  unfold Dev.decodeCw
  split
  · next h => exact absurd h hb
  · rfl

/-- The die reports no correction of its own with a read of a codeword without the mark of one (R193). -/
theorem Dev.countOdc_none {u : MemUnit} {cw : Nat} {d : Dev} (h : odcMark ∉ Map.get d.upsets cw []) : d.countOdc u cw = d := by
  unfold Dev.countOdc
  split
  · rw [if_neg (by simpa using h)]
  · rfl

section
variable {d : Dev} {u : MemUnit} {a : Nat} (hu : unitOf a = some u) (hp : a ∉ d.poison) (ho : odcMark ∉ Map.get d.upsets a [])
include hu hp ho

theorem Dev.touch_clean (hv : verdict u ((d.unit u).markedOf (pchOf a)) (Map.get d.upsets a []) = .clean) (req : Nat) :
    d.touch req a = (d, true) := by
  unfold Dev.touch
  rw [hu]
  dsimp only
  rw [if_neg (by simpa using hp), Dev.countOdc_none ho, Dev.decodeCw_of_verdict hv nofun]

theorem Dev.touch_corrected {ys : List Nat}
    (hv : verdict u ((d.unit u).markedOf (pchOf a)) (Map.get d.upsets a []) = .corrected ys) (req : Nat) :
    d.touch req a = (d.correctCw u req a ys, true) := by
  unfold Dev.touch
  rw [hu]
  dsimp only
  rw [if_neg (by simpa using hp), Dev.countOdc_none ho, Dev.decodeCw_of_verdict hv nofun]

/-- A device with an uncorrectable codeword that the scrub has found: counted, recorded, stored poisoned, its row queued. -/
def Dev.scrubLost (u : MemUnit) (a : Nat) (d : Dev) : Dev :=
  ((((d.modUnit u fun x => { x with ue := sat32 x.ue }).eccRecord u a 2 reqScrub 127).eccEvt u 2).poisonCw a).queueRow u a false

theorem Dev.touch_uncorrectable (hv : verdict u ((d.unit u).markedOf (pchOf a)) (Map.get d.upsets a []) = .uncorrectable) :
    d.touch reqScrub a = (d.scrubLost u a, false) := by
  unfold Dev.touch
  rw [hu]
  dsimp only
  rw [if_neg (by simpa using hp), Dev.countOdc_none ho, Dev.decodeCw_of_verdict hv nofun]
  rfl

end

/-! ## The pass -/

/-- A unit whose scrub has read one codeword more of its pass (R200). -/
def Unit.scrubbedOn (u : MemUnit) (x : Unit) : Unit :=
  if x.scrubbed + 1 = unitCodewords u then { x with scrubbed := 0, passes := sat16 x.passes }
  else { x with scrubbed := x.scrubbed + 1 }

theorem Unit.scrubbedOn_frame (u : MemUnit) (x : Unit) :
    x.scrubbedOn u = { x with scrubbed := (x.scrubbedOn u).scrubbed, passes := (x.scrubbedOn u).passes } := by
  unfold Unit.scrubbedOn
  split <;> rfl

theorem Unit.scrubbed_scrubbedOn (u : MemUnit) {x y : Unit} (h : y.scrubbed = x.scrubbed) :
    (y.scrubbedOn u).scrubbed = (x.scrubbedOn u).scrubbed := by
  unfold Unit.scrubbedOn
  rw [h]
  split <;> rfl

theorem exec_scrubStep_idle {s : State} {u : MemUnit} {a : Nat}
    (h : s.dev.memCtl.scrubEn = false ∨ (s.dev.unit u).inService = false ∨ a ≠ scrubAt u (s.dev.unit u).scrubbed) :
    exec (.scrubStep u a) s = .next s := by
  change onDev (Dev.scrubStep u a) s = _
  rw [onDev, Dev.scrubStep, if_neg]
  simp only [Bool.and_eq_true, beq_iff_eq, not_and]
  intro hon heq
  rcases h with h | h | h
  · simp [h] at hon
  · simp [h] at hon
  · exact h heq

section
variable {s : State} {u : MemUnit} {a : Nat} (hen : s.dev.memCtl.scrubEn = true) (hs : (s.dev.unit u).inService = true)
  (ha : a = scrubAt u (s.dev.unit u).scrubbed)
include hen hs ha

theorem exec_scrubStep : exec (.scrubStep u a) s = .next { s with dev := (s.dev.touch reqScrub a).1.modUnit u (Unit.scrubbedOn u) } := by
  change onDev (Dev.scrubStep u a) s = _
  rw [onDev, Dev.scrubStep, if_pos (by rw [hen, hs, ← ha, beq_self_eq_true]; rfl)]
  rfl

variable (hu : unitOf a = some u) (hp : a ∉ s.dev.poison) (ho : odcMark ∉ Map.get s.dev.upsets a [])
include hu hp ho

/-- A codeword without error: the pass goes on. -/
theorem exec_scrubStep_clean (h : Map.get s.dev.upsets a [] = []) :
    exec (.scrubStep u a) s = .next { s with dev := s.dev.modUnit u (Unit.scrubbedOn u) } := by
  rw [exec_scrubStep hen hs ha, Dev.touch_clean hu hp ho (by rw [h]; rfl)]

/-- A codeword that the code corrects is counted, recorded and written back. -/
theorem exec_scrubStep_corrected {ys : List Nat}
    (hv : verdict u ((s.dev.unit u).markedOf (pchOf a)) (Map.get s.dev.upsets a []) = .corrected ys) :
    exec (.scrubStep u a) s = .next { s with dev := (s.dev.correctCw u reqScrub a ys).modUnit u (Unit.scrubbedOn u) } := by
  rw [exec_scrubStep hen hs ha, Dev.touch_corrected hu hp ho hv]

theorem exec_scrubStep_uncorrectable
    (hv : verdict u ((s.dev.unit u).markedOf (pchOf a)) (Map.get s.dev.upsets a []) = .uncorrectable) :
    exec (.scrubStep u a) s = .next { s with dev := (s.dev.scrubLost u a).modUnit u (Unit.scrubbedOn u) } := by
  rw [exec_scrubStep hen hs ha, Dev.touch_uncorrectable hu hp ho hv]

end

/-! ## What a correction leaves of the unit -/

section
variable (u : MemUnit) (a : Nat) (d : Dev)

/-- Whatever is noted of rows and symbols, and however the pass goes on, the counters and the record are those of the count. -/
theorem Dev.unit_corrected (ys : List Nat) :
    let x := d.unit u
    let y := ((d.correctCw u reqScrub a ys).modUnit u (Unit.scrubbedOn u)).unit u
    y.ce = sat32 x.ce ∧ y.ue = x.ue ∧ y.scrubbed = (x.scrubbedOn u).scrubbed ∧ y.last = d.recorded u a 1 reqScrub (ys.headD 127) ∧
      y.queued = ((d.correctCw u reqScrub a ys).unit u).queued := by
  have h := (d.notes_correctCw (u := u) reqScrub a ys).unit
  rw [Dev.unit_counted] at h
  dsimp only
  rw [Dev.unit_modUnit_same, Unit.scrubbed_scrubbedOn u (x := d.unit u) (by rw [h]), Unit.scrubbedOn_frame]
  refine ⟨?_, ?_, rfl, ?_, rfl⟩ <;> dsimp only <;> rw [h]

theorem Dev.corrected_frame (ys : List Nat) : ∃ ls us, (d.correctCw u reqScrub a ys).modUnit u (Unit.scrubbedOn u) =
    { d with lds := ls, units := us, upsets := Map.del d.upsets a } := by
  obtain ⟨ls, us, h⟩ := d.correctCw_frame (u := u) reqScrub a ys
  exact ⟨ls, _, by rw [h]; rfl⟩

theorem Dev.evt_corrected (ys : List Nat) {n : Nat} (hn : n = 15 ∨ n = d.ldOfUnit u) :
    ((d.correctCw u reqScrub a ys).ld n).ecc.evt.getLsbD 0 = true :=
  (d.notes_correctCw reqScrub a ys).evt n 0 (d.evt_counted reqScrub a _ hn)

/-! ## What an uncorrectable codeword leaves -/

theorem Dev.scrubLost_frame : ∃ ls us, d.scrubLost u a =
    { d with lds := ls, units := us, upsets := Map.del d.upsets a, poison := insNat a d.poison } := by
  obtain ⟨_, _, h⟩ := ((d.regsOnly_modUnit u fun x => { x with ue := sat32 x.ue }).trans
    (Dev.regsOnly_eccRecord u _ a 2 reqScrub 127)).trans (Dev.regsOnly_eccEvt u _ 2)
  obtain ⟨ls, us, k⟩ := Dev.regsOnly_queueRow u (Dev.poisonCw a _) a false
  exact ⟨ls, us, by rw [Dev.scrubLost, k, h]; rfl⟩

theorem Dev.unit_scrubLost : (d.scrubLost u a).unit u =
    { d.unit u with ue := sat32 (d.unit u).ue, last := d.recordOf u a 2 reqScrub 127, queued := ((d.scrubLost u a).unit u).queued } := by
  have h : ((((d.modUnit u fun x => { x with ue := sat32 x.ue }).eccRecord u a 2 reqScrub 127).eccEvt u 2).poisonCw a).unit u =
      { d.unit u with ue := sat32 (d.unit u).ue, last := d.recordOf u a 2 reqScrub 127 } := by
    change (Dev.eccEvt u 2 _).unit u = _
    rw [Dev.unit_eccEvt, Dev.unit_eccRecord, Dev.recorded, if_neg (fun h => absurd h.1 (by decide)), Dev.unit_modUnit_same]
    cases u <;> rfl
  conv_lhs => rw [Dev.scrubLost, Dev.unit_queueRow, h]
  rfl

/-- However the pass goes on, the unit holds the count and the record of the uncorrectable codeword. -/
theorem Dev.unit_lost :
    let x := d.unit u
    let y := ((d.scrubLost u a).modUnit u (Unit.scrubbedOn u)).unit u
    y.ue = sat32 x.ue ∧ y.ce = x.ce ∧ y.last = d.recordOf u a 2 reqScrub 127 ∧ y.queued = ((d.scrubLost u a).unit u).queued := by
  dsimp only
  rw [Dev.unit_modUnit_same, Unit.scrubbedOn_frame]
  refine ⟨?_, ?_, ?_, rfl⟩ <;> dsimp only <;> rw [Dev.unit_scrubLost]

theorem Dev.waits_scrubLost (hu : isDram u = true) : ((d.scrubLost u a).unit u).waits (rowNum u a) = true :=
  Dev.waits_queueRow u _ hu a false

theorem Dev.evt_scrubLost : ((d.scrubLost u a).ld 15).ecc.evt.getLsbD 2 = true :=
  (Dev.notes_queueRow (u := u) _ a false).evt 15 2 (Dev.evt_eccEvt_set u _ (by decide) (.inl rfl))

end

/-! ## ECC_SCRUB_CTL (R217) -/

/-- A write of `ECC_SCRUB_CTL` leaves every unit, with the progress of its scrub. -/
theorem units_write_scrubCtl (ag : Agent) (v : W32) (s : State) : (s.regWrite ag (.ld 15) 0x6028 4 v).dev.units = s.dev.units := by
  have hput : (s.dev.pagePut ag s.now 15 0x6028 v).units = s.dev.units := by
    change (s.dev.scrubCtl 15 v).units = _
    unfold Dev.scrubCtl Dev.checked
    dsimp only
    rw [if_neg (by decide)]
    split <;> rfl
  have hw : s.regWrite ag (.ld 15) 0x6028 4 v = { s with dev := s.dev.pageWrite ag 15 0x6028 (Dev.pagePut ag s.now 15 0x6028 v) } := by
    simp [State.regWrite, inArray]
  rw [hw]
  unfold Dev.pageWrite
  dsimp only
  repeat' split
  all_goals first | rfl | exact hput

end Sys2Proof.Machine
end

section
/-! SUPPORT. Soft and hard repair of rows (R207 to R209, R218). -/

namespace Sys2Proof.Machine

/-! ## What a repair does with one codeword (R207, R196) -/

/-- Poisoning a codeword poisons no other. -/
theorem Dev.mem_poisonCw {d : Dev} {cw c : Nat} : c ∈ (d.poisonCw cw).poison ↔ c = cw ∨ c ∈ d.poison := mem_insNat

/-- Two devices hold the same errors and the same poison at a codeword. -/
def Dev.sameCw (c : Nat) (d d' : Dev) : Prop := Map.get d'.upsets c [] = Map.get d.upsets c [] ∧ (c ∈ d'.poison ↔ c ∈ d.poison)

theorem Dev.sameCw.trans {c : Nat} {x y z : Dev} (h : Dev.sameCw c x y) (k : Dev.sameCw c y z) : Dev.sameCw c x z :=
  ⟨k.1.trans h.1, k.2.trans h.2⟩

section
variable (u : MemUnit) (cw : Nat) (d : Dev)

theorem Dev.decodeCw_frame : ∃ m k, (d.decodeCw u cw).1 = { d with mem := m, free := k } := by
  unfold Dev.decodeCw
  split
  · dsimp only
    split <;> exact ⟨_, _, rfl⟩
  · exact ⟨_, _, rfl⟩

/-- A repair leaves every register. -/
theorem Dev.repairCw_frame : ∃ m k p e, d.repairCw u cw = { d with mem := m, free := k, poison := p, upsets := e } := by
  obtain ⟨m, k, h⟩ := d.decodeCw_frame u cw
  unfold Dev.repairCw
  split
  · next e _ he => rw [he] at h; cases h; exact ⟨m, k, _, _, rfl⟩
  · next e he => rw [he] at h; cases h; exact ⟨m, k, _, _, rfl⟩
  · next e _ _ _ he => rw [he] at h; cases h; exact ⟨m, k, _, _, rfl⟩

/-- A repair of one codeword leaves the errors and the poison of every other. -/
theorem Dev.sameCw_repairCw_other {c : Nat} (hc : c ≠ cw) : d.sameCw c (d.repairCw u cw) := by
  obtain ⟨m, k, h⟩ := d.decodeCw_frame u cw
  have hdel : Map.get (Map.del d.upsets cw) c [] = Map.get d.upsets c [] := by rw [Map.get_del, if_neg hc]
  unfold Dev.repairCw
  split
  · next e _ he => rw [he] at h; cases h; exact ⟨hdel, .rfl⟩
  · next e he =>
    rw [he] at h
    cases h
    exact ⟨hdel, Dev.mem_poisonCw.trans (or_iff_right hc)⟩
  · next e _ _ _ he => rw [he] at h; cases h; exact ⟨rfl, .rfl⟩

variable {u cw d}

theorem Dev.repairCw_none (h : Map.get d.upsets cw [] = []) : d.repairCw u cw = d := by
  rw [Dev.repairCw, Dev.decodeCw_of_verdict (v := .clean) (by rw [h]; rfl) nofun]

theorem Dev.repairCw_corrected {ys : List Nat}
    (hv : verdict u ((d.unit u).markedOf (pchOf cw)) (Map.get d.upsets cw []) = .corrected ys) :
    d.repairCw u cw = { d with upsets := Map.del d.upsets cw } := by
  rw [Dev.repairCw, Dev.decodeCw_of_verdict hv nofun]

theorem Dev.repairCw_uncorrectable (hv : verdict u ((d.unit u).markedOf (pchOf cw)) (Map.get d.upsets cw []) = .uncorrectable) :
    d.repairCw u cw = d.poisonCw cw := by
  rw [Dev.repairCw, Dev.decodeCw_of_verdict hv nofun]

end

/-! ## The codewords of a row (R207) -/

/-- A device whose listed codewords have been repaired one after another. -/
def Dev.repairAll (u : MemUnit) (cs : List Nat) (d : Dev) : Dev := cs.foldl (fun d c => d.repairCw u c) d

section
variable {u : MemUnit}

theorem Dev.repairAll_cons (c : Nat) (cs : List Nat) (d : Dev) : d.repairAll u (c :: cs) = (d.repairCw u c).repairAll u cs := rfl

theorem Dev.repairAll_frame (cs : List Nat) (d : Dev) :
    ∃ m k p e, d.repairAll u cs = { d with mem := m, free := k, poison := p, upsets := e } := by
  induction cs generalizing d with
  | nil => exact ⟨_, _, _, _, rfl⟩
  | cons c cs ih =>
    obtain ⟨_, _, _, _, h⟩ := d.repairCw_frame u c
    obtain ⟨m, k, p, e, h'⟩ := ih (d.repairCw u c)
    exact ⟨m, k, p, e, by rw [Dev.repairAll_cons, h', h]⟩

/-- A codeword in which no error is left stays as it is. -/
theorem Dev.sameCw_repairAll_none {c : Nat} (cs : List Nat) {d : Dev} (h : Map.get d.upsets c [] = []) : d.sameCw c (d.repairAll u cs) := by
  induction cs generalizing d with
  | nil => exact ⟨rfl, .rfl⟩
  | cons x cs ih =>
    rw [Dev.repairAll_cons]
    by_cases hx : c = x
    · rw [← hx, Dev.repairCw_none h]
      exact ih h
    · have hs := d.sameCw_repairCw_other u x hx
      exact hs.trans (ih (hs.1.trans h))

variable {c : Nat} {cs : List Nat} {d : Dev} (hc : c ∈ cs)
include hc

/-- A listed codeword is left as its first repair leaves it, when that leaves no error of it. -/
theorem Dev.repairAll_mem : ∃ e : Dev, e.unit u = d.unit u ∧ d.sameCw c e ∧
    (Map.get (e.repairCw u c).upsets c [] = [] → Dev.sameCw c (e.repairCw u c) (d.repairAll u cs)) := by
  induction cs generalizing d with
  | nil => cases hc
  | cons x cs ih =>
    by_cases hx : c = x
    · subst hx
      exact ⟨d, rfl, ⟨rfl, .rfl⟩, Dev.sameCw_repairAll_none cs⟩
    · have hunit : (d.repairCw u x).unit u = d.unit u := by
        obtain ⟨_, _, _, _, hf⟩ := d.repairCw_frame u x
        rw [hf]
        rfl
      obtain ⟨e, he, hs, h⟩ := ih (d := d.repairCw u x) ((List.mem_cons.mp hc).resolve_left hx)
      exact ⟨e, he.trans hunit, (d.sameCw_repairCw_other u x hx).trans hs, h⟩

theorem Dev.repairAll_corrected {ys : List Nat}
    (hv : verdict u ((d.unit u).markedOf (pchOf c)) (Map.get d.upsets c []) = .corrected ys) :
    Map.get (d.repairAll u cs).upsets c [] = [] ∧ (c ∈ (d.repairAll u cs).poison ↔ c ∈ d.poison) := by
  obtain ⟨e, he, hs, h⟩ := Dev.repairAll_mem (u := u) (d := d) hc
  rw [Dev.repairCw_corrected (ys := ys) (by rw [he, hs.1, hv])] at h
  have hdel : Map.get (Map.del e.upsets c) c [] = [] := by rw [Map.get_del, if_pos rfl]
  obtain ⟨hget, hpoison⟩ := h hdel
  exact ⟨hget.trans hdel, hpoison.trans hs.2⟩

theorem Dev.repairAll_uncorrectable (hv : verdict u ((d.unit u).markedOf (pchOf c)) (Map.get d.upsets c []) = .uncorrectable) :
    c ∈ (d.repairAll u cs).poison := by
  obtain ⟨e, he, hs, h⟩ := Dev.repairAll_mem (u := u) (d := d) hc
  rw [Dev.repairCw_uncorrectable (by rw [he, hs.1, hv])] at h
  exact (h ((Map.get_del ..).trans (if_pos rfl))).2.mpr (Dev.mem_poisonCw.mpr (.inl rfl))

end

/-- The codewords of a row that hold errors. -/
def Dev.rowErrors (u : MemUnit) (row : Nat) (d : Dev) : List Nat := (d.upsets.map Prod.fst).filter (inRow u row)

theorem Dev.mem_rowErrors {u : MemUnit} {row c : Nat} {d : Dev} (hr : inRow u row c = true) (h : Map.get d.upsets c [] ≠ []) :
    c ∈ d.rowErrors u row := by
  refine List.mem_filter.mpr ⟨?_, hr⟩
  unfold Map.get at h
  cases hf : Map.find d.upsets c with
  | none => rw [hf] at h; exact absurd rfl h
  | some ys => exact List.mem_map.mpr ⟨_, Map.find_mem hf, rfl⟩

/-- A codeword without errors is clean. -/
theorem get_upsets_ne_nil {u : MemUnit} {marked syms : List Nat} {v : Verdict} (h : verdict u marked syms = v) (hv : v ≠ .clean) :
    syms ≠ [] := by
  rintro rfl
  exact hv h.symm

/-! ## Soft repair (R207, R208) -/

theorem exec_softRepairStart {s : State} {u : MemUnit} {r : RowRepair} {rest : List RowRepair}
    (hq : (s.dev.unit u).queued = r :: rest) (hs : (s.dev.unit u).inService = true) (hb : (s.dev.unit u).busy = false) :
    exec (.softRepairStart u) s =
      .next { s with dev := s.dev.modUnit u fun x => { x with queued := rest, running := some r } } := by
  change onDev (Dev.softStart u) s = _
  rw [onDev, Dev.softStart]
  rw [hq]
  dsimp only
  rw [if_pos (by rw [hs, hb]; rfl)]

/-- A unit whose repair has ended. -/
def Unit.repaired (r : RowRepair) (ok : Bool) (code : Code) (x : Unit) : Unit :=
  { x with running := none, lastCode := if r.cmd then code else x.lastCode, report := some (r.addr, ok),
           free := if ok then x.free - 1 else x.free, soft := if ok then insNat r.row x.soft else x.soft,
           rows := x.rows.filter fun q => q.1 != r.row }

/-- What a soft repair reports that the bank could hold: whether poisoned codewords were written back. -/
def Dev.repairCode (u : MemUnit) (row : Nat) (d : Dev) : Code := if d.poison.any (inRow u row) then ePoison else 0

/-- The registers after a repair: those of its unit, and the event of its outcome. -/
theorem Dev.repaired_regs (u : MemUnit) (f : Unit → Unit) {b : Nat} (hb : b < 6) (d : Dev) :
    d.regsOnly ((d.modUnit u f).eccEvt u b) ∧ ((d.modUnit u f).eccEvt u b).unit u = f (d.unit u) ∧
      (((d.modUnit u f).eccEvt u b).ld 15).ecc.evt.getLsbD b = true :=
  ⟨(d.regsOnly_modUnit u f).trans (Dev.regsOnly_eccEvt u _ b), by rw [Dev.unit_eccEvt, Dev.unit_modUnit_same],
    Dev.evt_eccEvt_set u _ hb (.inl rfl)⟩

/-- A device whose bank has held a soft repair. -/
def Dev.rowRepaired (u : MemUnit) (r : RowRepair) (d : Dev) : Dev :=
  let e := d.repairAll u (d.rowErrors u r.row)
  (e.modUnit u (Unit.repaired r true (e.repairCode u r.row))).eccEvt u 3

/-- A device whose row was left as it is, since its bank had no resource left. -/
def Dev.rowLeft (u : MemUnit) (r : RowRepair) (d : Dev) : Dev := (d.modUnit u (Unit.repaired r false eExhausted)).eccEvt u 4

section
variable (u : MemUnit) (r : RowRepair) (d : Dev)

theorem Dev.rowLeft_regs : d.regsOnly (d.rowLeft u r) ∧ (d.rowLeft u r).unit u = (d.unit u).repaired r false eExhausted ∧
    ((d.rowLeft u r).ld 15).ecc.evt.getLsbD 4 = true := Dev.repaired_regs u _ (by decide) d

theorem Dev.rowRepaired_frame : ∃ ls us m k p e,
    d.rowRepaired u r = { d with lds := ls, units := us, mem := m, free := k, poison := p, upsets := e } := by
  obtain ⟨m, k, p, e, hall⟩ := d.repairAll_frame (u := u) (d.rowErrors u r.row)
  obtain ⟨ls, us, h⟩ := (Dev.repaired_regs u (Unit.repaired r true _) (b := 3) (by decide) (d.repairAll u (d.rowErrors u r.row))).1
  exact ⟨ls, us, m, k, p, e, by rw [Dev.rowRepaired, h, hall]⟩

theorem Dev.unit_rowRepaired : (d.rowRepaired u r).unit u =
    (d.unit u).repaired r true ((d.repairAll u (d.rowErrors u r.row)).repairCode u r.row) := by
  obtain ⟨_, _, _, _, hall⟩ := d.repairAll_frame (u := u) (d.rowErrors u r.row)
  have hunit : (d.repairAll u (d.rowErrors u r.row)).unit u = d.unit u := by rw [hall]; rfl
  exact hunit ▸ (Dev.repaired_regs u _ (b := 3) (by decide) (d.repairAll u (d.rowErrors u r.row))).2.1

theorem Dev.evt_rowRepaired : ((d.rowRepaired u r).ld 15).ecc.evt.getLsbD 3 = true :=
  (Dev.repaired_regs u _ (by decide) _).2.2

/-- In a device without errors and poison a repair writes no poisoned codeword back. -/
theorem Dev.repairCode_still (hp : d.poison = []) (hu : d.upsets = []) :
    (d.repairAll u (d.rowErrors u r.row)).repairCode u r.row = 0 := by
  simp [Dev.rowErrors, Dev.repairAll, Dev.repairCode, hp, hu]

/-- The errors and the poison of a row are those that its repair leaves. -/
theorem Dev.sameCw_rowRepaired (c : Nat) : Dev.sameCw c (d.repairAll u (d.rowErrors u r.row)) (d.rowRepaired u r) := by
  obtain ⟨_, _, h⟩ := (Dev.repaired_regs u (Unit.repaired r true _) (b := 3) (by decide) (d.repairAll u (d.rowErrors u r.row))).1
  rw [Dev.rowRepaired, h]
  exact ⟨rfl, .rfl⟩

variable {u r d} {c : Nat} (hc : inRow u r.row c = true)
include hc

theorem Dev.rowRepaired_corrected {ys : List Nat}
    (hv : verdict u ((d.unit u).markedOf (pchOf c)) (Map.get d.upsets c []) = .corrected ys) :
    Map.get (d.rowRepaired u r).upsets c [] = [] ∧ (c ∈ (d.rowRepaired u r).poison ↔ c ∈ d.poison) := by
  have h := Dev.repairAll_corrected (Dev.mem_rowErrors hc (get_upsets_ne_nil hv nofun)) hv
  exact ⟨(d.sameCw_rowRepaired u r c).1.trans h.1, (d.sameCw_rowRepaired u r c).2.trans h.2⟩

theorem Dev.rowRepaired_uncorrectable
    (hv : verdict u ((d.unit u).markedOf (pchOf c)) (Map.get d.upsets c []) = .uncorrectable) : c ∈ (d.rowRepaired u r).poison :=
  (d.sameCw_rowRepaired u r c).2.mpr (Dev.repairAll_uncorrectable (Dev.mem_rowErrors hc (get_upsets_ne_nil hv nofun)) hv)

end

section
variable {s : State} {u : MemUnit} {r : RowRepair} (hr : (s.dev.unit u).running = some r)
include hr

theorem exec_softRepairComplete_held (hf : 0 < (s.dev.unit u).free) :
    exec (.softRepairComplete u true) s = .next { s with dev := s.dev.rowRepaired u r } := by
  change onDev (Dev.softComplete u true) s = _
  rw [onDev, Dev.softComplete]
  dsimp only
  rw [hr]
  dsimp only
  simp only [hf, decide_true, Bool.and_true, if_true, Bool.not_true, Bool.false_eq_true, if_false]
  rfl

theorem exec_softRepairComplete_exhausted {granted : Bool} (hf : granted = false ∨ (s.dev.unit u).free = 0) :
    exec (.softRepairComplete u granted) s = .next { s with dev := s.dev.rowLeft u r } := by
  have hok : (granted && decide (0 < (s.dev.unit u).free)) = false := by
    rcases hf with h | h <;> simp [h]
  change onDev (Dev.softComplete u granted) s = _
  rw [onDev, Dev.softComplete]
  dsimp only
  rw [hr]
  dsimp only
  simp only [hok, Bool.not_false, Bool.false_eq_true, if_true, if_false]
  rfl

end

/-! ## `MEM_REPAIR_CMD` (R217, R218) -/

section
variable {ag : Agent} {s : State} (hr : reachesPage ag 15 = true) (hm : s.dev.pageMode 15 = .full)
include hr hm

theorem exec_memRepairQueue : exec (.memRepairQueue ag 15) s = .next { s with dev := s.dev.repairCmd 15 1 } := by
  change onDev (Dev.pageWrite ag 15 0x6034 (Dev.repairCmd 15 1)) s = _
  rw [onDev, Dev.pageWrite_full hr hm]

theorem exec_memRepairCommit : exec (.memRepairCommit ag 15) s = .next { s with dev := s.dev.repairCmd 15 2 } := by
  change onDev (Dev.pageWrite ag 15 0x6034 (Dev.repairCmd 15 2)) s = _
  rw [onDev, Dev.pageWrite_full hr hm]

end

/-- The units that have rows are stacks and channels. -/
theorem isDram_cases {u : MemUnit} (h : isDram u = true) : ∃ n, u = .stack n ∨ u = .channel n := by
  cases u with
  | stack n => exact ⟨n, .inl rfl⟩
  | channel n => exact ⟨n, .inr rfl⟩
  | dieSram n => cases h
  | iodSram n => cases h

section
variable {d : Dev} {u : MemUnit} (hu : unitOf d.memCtl.repairAddr.toNat = some u) (hd : isDram u = true)
  (hx : d.excluded u = false) (hs : (d.unit u).inService = true)
include hu hd hx hs

/-- A command that names a unit in service is judged by whether the unit is busy. -/
theorem Dev.repairCmd_named {v : W32} (hv : v = 1 ∨ v = 2) : d.repairCmd 15 v =
    if (d.unit u).busy then d.ldErr 15 eState
    else if v = 1 then d.queueRow u (cwOf d.memCtl.repairAddr.toNat) true else d.modUnit u fun x => { x with committing := true } := by
  have hfields : fld v 31 2 = 0 ∧ fld v 1 0 ≠ 0 ∧ fld v 1 0 ≠ 3 ∧ (fld v 1 0 = 1 ↔ v = 1) := by
    rcases hv with rfl | rfl <;> decide
  obtain ⟨h31, h0, h3, h1⟩ := hfields
  obtain ⟨n, rfl | rfl⟩ := isDram_cases hd
  all_goals
    unfold Dev.repairCmd
    cases hb : Unit.busy (d.unit _) <;> simp [hu, hx, hs, hb, h31, h0, h3, h1, firstFail, Dev.checked, Dev.pathErr]

end

/-- The first row that is queued. -/
theorem Dev.unit_queueRow_first {d : Dev} {u : MemUnit} (hd : isDram u = true) (hq : (d.unit u).queued = []) (cw : Nat) (c : Bool) :
    (d.queueRow u cw c).unit u = { d.unit u with queued := [{ row := rowNum u cw, addr := BitVec.ofNat 44 cw, cmd := c }] } := by
  rw [Dev.queueRow, if_pos hd, Dev.unit_modUnit_same, hq]
  rfl

/-- A unit whose commit of its soft repairs has begun. -/
def Unit.commits (x : Unit) : Unit := { x with committing := true }

theorem Unit.busy_commits (x : Unit) : x.commits.busy = true := Bool.or_true _

section
variable {ag : Agent} {s : State} {u : MemUnit} (hr : reachesPage ag 15 = true) (hm : s.dev.pageMode 15 = .full)
  (hu : unitOf s.dev.memCtl.repairAddr.toNat = some u) (hd : isDram u = true) (hx : s.dev.excluded u = false)
  (hs : (s.dev.unit u).inService = true)
include hr hm hu hd hx hs

theorem exec_memRepairQueue_idle (hb : (s.dev.unit u).busy = false) :
    exec (.memRepairQueue ag 15) s = .next { s with dev := s.dev.queueRow u (cwOf s.dev.memCtl.repairAddr.toNat) true } := by
  rw [exec_memRepairQueue hr hm, Dev.repairCmd_named hu hd hx hs (.inl rfl), hb]
  rfl

theorem exec_memRepairCommit_idle (hb : (s.dev.unit u).busy = false) :
    exec (.memRepairCommit ag 15) s = .next { s with dev := s.dev.modUnit u Unit.commits } := by
  rw [exec_memRepairCommit hr hm, Dev.repairCmd_named hu hd hx hs (.inr rfl), hb]
  rfl

theorem exec_memRepairQueue_busy (hb : (s.dev.unit u).busy = true) :
    exec (.memRepairQueue ag 15) s = .next { s with dev := s.dev.ldErr 15 eState } := by
  rw [exec_memRepairQueue hr hm, Dev.repairCmd_named hu hd hx hs (.inl rfl), if_pos hb]

theorem exec_memRepairCommit_busy (hb : (s.dev.unit u).busy = true) :
    exec (.memRepairCommit ag 15) s = .next { s with dev := s.dev.ldErr 15 eState } := by
  rw [exec_memRepairCommit hr hm, Dev.repairCmd_named hu hd hx hs (.inr rfl), if_pos hb]

end

/-! ## The end of a commit (R209, R218) -/

section
variable {s : State} {u : MemUnit} (h : (s.dev.unit u).committing = true)
include h

/-- The rows that have become permanent are the first ones, all of them when the resource has not run out (log 30). -/
theorem exec_repairCommitComplete (exhausted : Option Nat) : exec (.repairCommitComplete u exhausted) s = .next
    { s with
      vault := { s.vault with hard := s.vault.hard ++
        ((s.dev.unit u).soft.take (exhausted.getD (s.dev.unit u).soft.length)).map fun r => (u, r) }
      dev := s.dev.modUnit u fun x => { x with
        committing := false, lastCode := if exhausted.isSome then eExhausted else 0,
        soft := x.soft.drop (exhausted.getD (s.dev.unit u).soft.length) } } := by
  change Host.Outcome.next (commitComplete u exhausted s) = _
  rw [commitComplete, if_pos h]

theorem exec_repairCommitComplete_all : exec (.repairCommitComplete u none) s = .next
    { s with
      vault := { s.vault with hard := s.vault.hard ++ (s.dev.unit u).soft.map fun r => (u, r) }
      dev := s.dev.modUnit u fun x => { x with committing := false, lastCode := 0, soft := x.soft.drop (s.dev.unit u).soft.length } } := by
  rw [exec_repairCommitComplete h, Option.getD_none, List.take_length]
  rfl

end

end Sys2Proof.Machine
end

section
/-! SUPPORT. The selection of a memory unit by ECC_SEL (R213), and the statement on errors, scrub and repair. -/

namespace Sys2Proof.Machine

/-! ## `ECC_SEL` (R213) -/

theorem fld_setBit (v : W32) {hi lo b : Nat} (hl : lo ≤ hi) (hb : hi < b) : fld (setBit v b) hi lo = fld v hi lo := by
  refine Nat.eq_of_testBit_eq fun i => ?_
  simp only [fld, bits, Nat.testBit_mod_two_pow, Nat.testBit_shiftRight, setBit, BitVec.testBit_toNat, BitVec.getLsbD_or,
    BitVec.getLsbD_ofNat, Nat.testBit_two_pow]
  by_cases hi' : i < hi - lo + 1
  · have hne : b ≠ lo + i := by omega
    simp [hne]
  · simp [hi']

/-- The fields of a selection select the unit that they name. -/
theorem eccUnit_ofNat {kind index : Nat} (hk : kind < 8) (hi : index < 32) :
    eccUnit (BitVec.ofNat 3 kind).toNat (BitVec.ofNat 5 index).toNat = eccUnit kind index := by
  rw [BitVec.toNat_ofNat, BitVec.toNat_ofNat, Nat.mod_eq_of_lt hk, Nat.mod_eq_of_lt hi]

/-- The unit that a write of `ECC_SEL` names, and an LD that selects it. -/
def selUnit (v : W32) : MemUnit := eccUnit (fld v 10 8) (fld v 4 0)
def Ld.select (v : W32) (l : Ld) : Ld :=
  { l with ecc := { l.ecc with kind := BitVec.ofNat 3 (fld v 10 8), index := BitVec.ofNat 5 (fld v 4 0) } }

theorem Ld.selected_select (v : W32) (l : Ld) : (l.select v).selected = selUnit v :=
  eccUnit_ofNat (Nat.mod_lt _ (by decide)) (Nat.mod_lt _ (by decide))

/-- A unit whose counters and record have been cleared. -/
def Unit.errorsCleared (x : Unit) : Unit := { x with ce := 0, ue := 0, odc := 0, last := EccRec.init }

section
variable {ag : Agent} {ld : Nat} {s : State} (hr : reachesPage ag ld = true) (hm : s.dev.pageMode ld = .full)
include hr hm

theorem exec_eccSelWrite (v : W32) : exec (.eccSelWrite ag ld v) s = .next { s with dev := s.dev.eccSel ld v } := by
  change onDev (Dev.pageWrite ag ld 0x6000 (Dev.eccSel ld v)) s = _
  rw [onDev, Dev.pageWrite_full hr hm]

theorem exec_eccClear (v : W32) : exec (.eccClear ag ld v) s = .next { s with dev := s.dev.eccSel ld (setBit v 31) } := by
  change onDev (Dev.pageWrite ag ld 0x6000 (Dev.eccSel ld (setBit v 31))) s = _
  rw [onDev, Dev.pageWrite_full hr hm]

end

/-- The checks of a write of `ECC_SEL`, in their order. -/
def Dev.selChecks (ld : Nat) (v : W32) (d : Dev) : Checks :=
  [(fld v 30 11 ≠ 0 ∨ fld v 7 5 ≠ 0, eReservedNonzero), (v.getLsbD 31 && ld != 15, ePerm), (4 ≤ fld v 10 8, eRange),
    (eccCount (fld v 10 8) ≤ fld v 4 0, eRange), (ld ≠ 15 ∧ d.ldOfUnit (selUnit v) ≠ ld, ePerm)]

/-- What a legal write of `ECC_SEL` does: it selects, and with `clear` it also clears the unit. -/
def Dev.selectUnit (ld : Nat) (v : W32) (d : Dev) : Dev :=
  if v.getLsbD 31 then (d.modLd ld (Ld.select v)).modUnit (selUnit v) Unit.errorsCleared else d.modLd ld (Ld.select v)

section
variable {ld : Nat} {v : W32} {d : Dev}

theorem Dev.eccSel_rejected {c : Code} (h : firstFail (d.selChecks ld v) = some c) : d.eccSel ld v = d.ldErr ld c := by
  change d.checked (.ld ld) (firstFail (d.selChecks ld v)) (Dev.selectUnit ld v) = _
  rw [h]
  rfl

theorem Dev.eccSel_reserved (h : ¬(fld v 30 11 = 0 ∧ fld v 7 5 = 0)) : d.eccSel ld v = d.ldErr ld eReservedNonzero :=
  Dev.eccSel_rejected (by rw [Dev.selChecks, firstFail, if_pos (by simpa [← not_and_or] using h)])

variable (h1 : fld v 30 11 = 0) (h2 : fld v 7 5 = 0)
include h1 h2

theorem Dev.eccSel_clear_denied (hl : ld ≠ 15) (hc : v.getLsbD 31 = true) : d.eccSel ld v = d.ldErr ld ePerm :=
  Dev.eccSel_rejected (by simp [Dev.selChecks, firstFail, h1, h2, hl, hc])

/-- Only a write with `clear` outside LD 15 is denied before the unit is looked at. -/
theorem Dev.selChecks_clear_allowed (hl : ld = 15 ∨ v.getLsbD 31 = false) : firstFail (d.selChecks ld v) =
    firstFail [(decide (4 ≤ fld v 10 8), eRange), (decide (eccCount (fld v 10 8) ≤ fld v 4 0), eRange),
      (decide (ld ≠ 15 ∧ d.ldOfUnit (selUnit v) ≠ ld), ePerm)] := by
  have hclear : (v.getLsbD 31 && ld != 15) = false := by
    rcases hl with rfl | h
    · exact Bool.and_false _
    · rw [h, Bool.false_and]
  rw [Dev.selChecks, firstFail, firstFail, hclear]
  simp [h1, h2]

theorem Dev.eccSel_outOfRange (hl : ld = 15 ∨ v.getLsbD 31 = false) (hk : 4 ≤ fld v 10 8 ∨ eccCount (fld v 10 8) ≤ fld v 4 0) :
    d.eccSel ld v = d.ldErr ld eRange := by
  refine Dev.eccSel_rejected ((Dev.selChecks_clear_allowed h1 h2 hl).trans ?_)
  by_cases hkind : 4 ≤ fld v 10 8
  · simp [firstFail, hkind]
  · simp [firstFail, hkind, hk.resolve_left hkind]

variable (hk : fld v 10 8 < 4) (hi : fld v 4 0 < eccCount (fld v 10 8))
include hk hi

theorem Dev.eccSel_otherLd (hl : ld ≠ 15) (hc : v.getLsbD 31 = false) (ho : d.ldOfUnit (selUnit v) ≠ ld) :
    d.eccSel ld v = d.ldErr ld ePerm := by
  refine Dev.eccSel_rejected ((Dev.selChecks_clear_allowed h1 h2 (.inr hc)).trans ?_)
  simp [firstFail, hl, ho, Nat.not_le.mpr hk, Nat.not_le.mpr hi]

theorem Dev.eccSel_legal (hc : ld = 15 ∨ v.getLsbD 31 = false) (ho : ld = 15 ∨ d.ldOfUnit (selUnit v) = ld) :
    d.eccSel ld v = d.selectUnit ld v := by
  have hown : ¬(ld ≠ 15 ∧ d.ldOfUnit (selUnit v) ≠ ld) := fun h => h.2 (ho.resolve_left h.1)
  have hpass : firstFail (d.selChecks ld v) = none := by
    rw [Dev.selChecks_clear_allowed h1 h2 hc]
    simp only [firstFail, Nat.not_le.mpr hk, Nat.not_le.mpr hi, hown, decide_false, Bool.false_eq_true, if_false]
  change d.checked (.ld ld) (firstFail (d.selChecks ld v)) (Dev.selectUnit ld v) = _
  rw [hpass]
  rfl

theorem Dev.eccSel_select (hc : v.getLsbD 31 = false) (ho : ld = 15 ∨ d.ldOfUnit (selUnit v) = ld) :
    d.eccSel ld v = d.modLd ld (Ld.select v) := by
  rw [Dev.eccSel_legal h1 h2 hk hi (.inr hc) ho, Dev.selectUnit, hc]
  rfl

/-- A selection with `clear` in LD 15. -/
theorem Dev.eccSel_clear : d.eccSel 15 (setBit v 31) = (d.modLd 15 (Ld.select v)).modUnit (selUnit v) Unit.errorsCleared := by
  have hkind : fld (setBit v 31) 10 8 = fld v 10 8 := fld_setBit v (by decide) (by decide)
  have hindex : fld (setBit v 31) 4 0 = fld v 4 0 := fld_setBit v (by decide) (by decide)
  have hfields := Dev.eccSel_legal (d := d) (v := setBit v 31) (ld := 15) ((fld_setBit v (by decide) (by decide)).trans h1)
    ((fld_setBit v (by decide) (by decide)).trans h2) (hkind ▸ hk) (by rw [hkind, hindex]; exact hi) (.inl rfl) (.inl rfl)
  rw [hfields, Dev.selectUnit, if_pos (getLsbD_setBit_same v (by decide)), selUnit, hkind, hindex]
  unfold Ld.select
  rw [hkind, hindex]
  rfl

end

/-! ## The statement -/

/-- Settles O25: the scrub's read of a codeword by the verdict of the code, the repair of a row codeword by codeword, the
commands of `MEM_REPAIR_CMD` by whether the unit is busy, and the selection of `ECC_SEL` by its first failing check. -/
theorem errorsScrubAndRepair : Obligations.ErrorsScrubAndRepair := by
  refine ⟨fun u a s => ⟨exec_scrubStep_idle, fun ag v t ht => ?_, fun hen hs ha hu hp ho => ⟨fun hn => ?_, fun ys hv => ?_, fun hv => ?_⟩⟩,
    fun u s => ⟨fun r rest hq hs hb => ?_, fun r granted hr => ⟨fun hg hf => ?_, fun hf => ?_⟩, fun ag hr hm hu hd hx hs => ?_,
      fun hc => ⟨?_, fun k => ?_⟩⟩, fun ag ld v s hr hm => ?_⟩
  -- The scrub: its control register, then a codeword by its verdict.
  · cases ht
    exact units_write_scrubCtl ag v s
  · exact ⟨_, exec_scrubStep_clean hen hs ha hu hp ho hn, rfl, Dev.unit_modUnit_same .., fun v hv => Dev.unit_modUnit_other _ _ hv⟩
  · obtain ⟨hce, hue, hscrubbed, hlast, hqueued⟩ := s.dev.unit_corrected u a ys
    obtain ⟨ls, us, hf⟩ := s.dev.corrected_frame u a ys
    refine ⟨_, exec_scrubStep_corrected hen hs ha hu hp ho hv, by rw [hf], hce, hue, hscrubbed,
      fun h2 h3 => hlast.trans (if_neg fun h => h.2.elim h2 h3), fun h => hlast.trans (if_pos ⟨rfl, h⟩),
      s.dev.evt_corrected u a ys (.inl rfl), s.dev.evt_corrected u a ys (.inr rfl), fun hd hy hn => ?_⟩
    rw [hqueued]
    exact Dev.waits_correctCw s.dev reqScrub a ys hd hy hn
  · obtain ⟨ls, us, hf⟩ := s.dev.scrubLost_frame u a
    obtain ⟨hue, hce, hlast, hqueued⟩ := s.dev.unit_lost u a
    have hpoison : ((s.dev.scrubLost u a).modUnit u (Unit.scrubbedOn u)).poison = insNat a s.dev.poison := by rw [hf]; rfl
    refine ⟨_, exec_scrubStep_uncorrectable hen hs ha hu hp ho hv, by rw [hf]; rfl, hpoison ▸ mem_insNat.mpr (.inl rfl),
      fun c hc => hpoison ▸ mem_insNat.trans (or_iff_right hc), hue, hce, congrArg EccRec.kind hlast, congrArg EccRec.addr hlast,
      s.dev.evt_scrubLost u a, fun hd => ?_⟩
    rw [hqueued]
    exact s.dev.waits_scrubLost u a hd
  -- Soft repair: its start, its end with and without a resource.
  · exact ⟨_, exec_softRepairStart hq hs hb, rfl, Dev.unit_modUnit_same .., fun v hv => Dev.unit_modUnit_other _ _ hv⟩
  · subst hg
    obtain ⟨ls, us, m, k, p, e, hf'⟩ := s.dev.rowRepaired_frame u r
    have hunit := s.dev.unit_rowRepaired u r
    exact ⟨_, exec_softRepairComplete_held hr hf, by rw [hf'], congrArg Unit.running hunit, congrArg Unit.free hunit,
      congrArg Unit.soft hunit ▸ mem_insNat.mpr (.inl rfl), congrArg Unit.report hunit, s.dev.evt_rowRepaired u r,
      fun hc hp0 hu0 => (congrArg Unit.lastCode hunit).trans ((if_pos hc).trans (s.dev.repairCode_still u r hp0 hu0)),
      fun c hc => ⟨fun ys hv => Dev.rowRepaired_corrected hc hv, fun hv => Dev.rowRepaired_uncorrectable hc hv⟩⟩
  · obtain ⟨⟨ls, us, hf'⟩, hunit, hevt⟩ := s.dev.rowLeft_regs u r
    exact ⟨_, exec_softRepairComplete_exhausted hr hf, by rw [hf'], congrArg Unit.running hunit, (congrArg Unit.free hunit).trans rfl,
      (congrArg Unit.soft hunit).trans rfl, congrArg Unit.report hunit, hevt, fun hc => (congrArg Unit.lastCode hunit).trans (if_pos hc)⟩
  -- `MEM_REPAIR_CMD`, and the end of a commit.
  · refine ⟨fun hb hq => ?_, fun hb => ?_,
      fun hb => ⟨exec_memRepairQueue_busy hr hm hu hd hx hs hb, exec_memRepairCommit_busy hr hm hu hd hx hs hb⟩⟩
    · exact ⟨_, exec_memRepairQueue_idle hr hm hu hd hx hs hb, congrArg (fun d => ({ s with dev := d } : State)) (s.dev.queueRow_frame u _ _),
        Dev.unit_queueRow_first hd hq _ _⟩
    · have hunit := s.dev.unit_modUnit_same u Unit.commits
      exact ⟨_, exec_memRepairCommit_idle hr hm hu hd hx hs hb, rfl, hunit,
        exec_memRepairQueue_busy hr hm hu hd hx (hunit ▸ hs) (hunit ▸ Unit.busy_commits _)⟩
  · refine ⟨_, exec_repairCommitComplete_all hc, rfl, (Dev.unit_modUnit_same ..).trans ?_⟩
    rw [List.drop_length]
  · exact ⟨_, exec_repairCommitComplete hc (some k), rfl, Dev.unit_modUnit_same ..⟩
  -- `ECC_SEL`: its checks in their order, then what a legal write does.
  · extract_lets kind index u rejected clean
    refine ⟨fun h => ?_, fun ⟨h1, h2⟩ hl hc => ?_, fun ⟨h1, h2⟩ hl hk => ?_, fun ⟨h1, h2⟩ hc hl hk hi ho => ?_,
      fun ⟨h1, h2⟩ hc hk hi ho => ?_, fun ⟨h1, h2⟩ hl hk hi => ?_⟩
    · exact (exec_eccSelWrite hr hm v).trans (State.next_congr (Dev.eccSel_reserved h))
    · exact (exec_eccSelWrite hr hm v).trans (State.next_congr (Dev.eccSel_clear_denied h1 h2 hl hc))
    · exact (exec_eccSelWrite hr hm v).trans (State.next_congr (Dev.eccSel_outOfRange h1 h2 hl hk))
    · exact (exec_eccSelWrite hr hm v).trans (State.next_congr (Dev.eccSel_otherLd h1 h2 hk hi hl hc ho))
    · exact ⟨_, (exec_eccSelWrite hr hm v).trans (State.next_congr (Dev.eccSel_select h1 h2 hk hi hc ho)),
        State.modLd_frame s ld (Ld.select v)⟩
    · subst hl
      exact ⟨_, (exec_eccClear hr hm v).trans (State.next_congr (Dev.eccSel_clear h1 h2 hk hi)), rfl,
        (congrArg Ld.selected (Dev.ld_modLd_same ..)).trans (Ld.selected_select v _), fun n hn => Dev.ld_modLd_other _ _ hn,
        Dev.unit_modUnit_same .., fun w hw => Dev.unit_modUnit_other _ _ hw⟩

end Sys2Proof.Machine
end

section
/-! SUPPORT. The lines that the host holds, and the command of an engine that meets one (R437). -/

namespace Sys2Proof.Machine

/-! ## What a command does with the host's lines -/

/-- The host's lines stay, and to the lines met only lines of the host are added. -/
def Dev.Meets (d d' : Dev) : Prop := d'.snoops = d.snoops ∧ ∃ ls, d'.touched = d.touched ++ ls ∧ ∀ l ∈ ls, l ∈ d.snoops

theorem Dev.Meets.of_same {d d' : Dev} (hs : d'.snoops = d.snoops) (ht : d'.touched = d.touched) : d.Meets d' :=
  ⟨hs, [], by rw [ht, List.append_nil], nofun⟩

theorem Dev.Meets.refl (d : Dev) : d.Meets d := .of_same rfl rfl

theorem Dev.Meets.trans {a b c : Dev} (h : a.Meets b) (k : b.Meets c) : a.Meets c := by
  obtain ⟨hs, ls, ht, hl⟩ := h
  obtain ⟨ks, ms, kt, kl⟩ := k
  refine ⟨ks.trans hs, ls ++ ms, by rw [kt, ht, List.append_assoc], fun l hm => ?_⟩
  rcases List.mem_append.mp hm with h | h
  · exact hl l h
  · exact hs ▸ kl l h

theorem Dev.regsOnly.meets {d d' : Dev} (h : d.regsOnly d') : d.Meets d' := by
  obtain ⟨_, _, rfl⟩ := h
  exact .of_same rfl rfl

theorem Dev.meets_note (req a n : Nat) (d : Dev) : d.Meets (d.note req a n) := by
  unfold Dev.note
  split
  · exact .refl d
  · exact ⟨rfl, _, rfl, fun _ h => (List.mem_filter.mp h).1⟩

/-! ## The codes of memory meet no line -/

theorem Dev.meets_countOdc (u : MemUnit) (cw : Nat) (d : Dev) : d.Meets (d.countOdc u cw) := by
  unfold Dev.countOdc
  split
  · split
    · exact (d.regsOnly_modUnit _ _).meets
    · exact .refl d
  · exact .refl d

theorem Dev.meets_decodeCw (u : MemUnit) (cw : Nat) (d : Dev) : d.Meets (d.decodeCw u cw).1 := by
  obtain ⟨_, _, h⟩ := d.decodeCw_frame u cw
  rw [h]
  exact .of_same rfl rfl

theorem Dev.meets_correctCw (u : MemUnit) (req cw : Nat) (ys : List Nat) (d : Dev) : d.Meets (d.correctCw u req cw ys) := by
  obtain ⟨_, _, h⟩ := d.correctCw_frame (u := u) req cw ys
  rw [h]
  exact .of_same rfl rfl

theorem Dev.meets_mcError (req cw : Nat) (d : Dev) : d.Meets (d.mcError req cw) := by
  unfold Dev.mcError
  split
  · exact .of_same rfl rfl
  · exact .refl d

theorem Dev.meets_poisonCw (cw : Nat) (d : Dev) : d.Meets (d.poisonCw cw) := .of_same rfl rfl

/-- One read of a codeword. -/
theorem Dev.meets_touch (req cw : Nat) (d : Dev) : d.Meets (d.touch req cw).1 := by
  unfold Dev.touch
  split
  · exact .refl d
  · next u _ =>
    have hcount := fun (e : Dev) (f : Unit → Unit) k => ((e.regsOnly_modUnit u f).trans (Dev.regsOnly_eccRecord u _ cw k req 127)).meets
    split
    · refine Dev.Meets.trans ?_ (Dev.meets_mcError req cw _)
      split
      · exact hcount d _ 3
      · exact (hcount d _ 3).trans (Dev.regsOnly_eccEvt u _ 1).meets
    · have h := (d.meets_countOdc u cw).trans (Dev.meets_decodeCw u cw _)
      split
      · next e _ he => rw [he] at h; exact h.trans (e.meets_correctCw u req cw _)
      · next e he =>
        rw [he] at h
        exact ((((h.trans (hcount e _ 2)).trans (Dev.regsOnly_eccEvt u _ _).meets).trans (Dev.meets_poisonCw cw _)).trans
          (Dev.regsOnly_queueRow u _ cw false).meets).trans (Dev.meets_mcError req cw _)
      · next e _ _ _ he => rw [he] at h; exact h

theorem Dev.meets_touchAll (req : Nat) (cs : List Nat) (d : Dev) : d.Meets (Dev.touchAll req cs d).1 := by
  induction cs generalizing d with
  | nil => exact .refl d
  | cons c cs ih =>
    have h := d.meets_touch req c
    unfold Dev.touchAll
    split
    · next e he => rw [he] at h; exact h.trans (ih e)
    · next e he => rw [he] at h; exact h

theorem Dev.meets_merge (req cw : Nat) (d : Dev) : d.Meets (d.merge req cw) := by
  unfold Dev.merge
  split
  · exact .refl d
  · next u _ =>
    split
    · exact .refl d
    · have h := (d.meets_countOdc u cw).trans (Dev.meets_decodeCw u cw _)
      split
      · next e _ he => rw [he] at h; exact h.trans (e.meets_correctCw u req cw _)
      · next e he => rw [he] at h; exact (h.trans (e.meets_poisonCw cw)).trans (Dev.regsOnly_queueRow u _ cw false).meets
      · next e _ _ _ he => rw [he] at h; exact h

theorem Dev.meets_cover (req a n : Nat) (d : Dev) : d.Meets (d.cover req a n) := by
  have hseal : ∀ e : Dev, e.Meets (e.seal a n) := fun e => by
    unfold Dev.seal
    split
    · exact .refl e
    · exact .of_same rfl rfl
  unfold Dev.cover
  split
  · exact .refl d
  · dsimp only
    refine ((d.meets_note req a n).trans (hseal _)).trans ?_
    generalize Dev.seal a n _ = e
    have h : e.Meets { e with poison := e.poison.filter fun c => !(a ≤ c && c + cwBytes c ≤ a + n),
                              upsets := Map.delIf e.upsets fun c => a ≤ c && c + cwBytes c ≤ a + n } := .of_same rfl rfl
    split <;> split
    · exact h
    · exact h.trans (Dev.meets_merge ..)
    · exact h.trans (Dev.meets_merge ..)
    · exact (h.trans (Dev.meets_merge ..)).trans (Dev.meets_merge ..)

theorem Dev.meets_writeBytes (req a : Nat) (bs : List Byte) (d : Dev) : d.Meets (d.writeBytes req a bs) :=
  Dev.Meets.trans (b := d.cover req a bs.length) (d.meets_cover ..) (.of_same rfl rfl)

/-! ## Reports (R233, R453, R457) -/

theorem Dev.meets_ringHead (kind : RingKind) (base : Nat) (tail : W32) (k : Nat) (d : Dev) : d.Meets (d.ringHead kind base tail k) := by
  induction k generalizing d with
  | zero => exact .refl d
  | succ k ih =>
    unfold Dev.ringHead
    dsimp only
    split
    · exact (d.meets_writeBytes ..).trans (ih _)
    · exact .refl d

theorem Dev.meets_ringDone (kind : RingKind) (clu k : Nat) (c : Code) (d : Dev) : d.Meets (d.ringDone kind clu k c) :=
  (d.meets_writeBytes ..).trans (Dev.meets_ringHead ..)

theorem Dev.meets_modLd (n : Nat) (f : Ld → Ld) (d : Dev) : d.Meets (d.modLd n f) := .of_same rfl rfl

theorem Dev.meets_cqRecord (l q : Nat) (bs : List Byte) (d : Dev) : d.Meets (d.cqRecord l q bs) := by
  rw [(d.reported_cqRecord l q bs).frame]
  exact .of_same rfl rfl

theorem Dev.meets_mbxReply (l m : Nat) (ws : List W32) (d : Dev) : d.Meets (d.mbxReply l m ws) :=
  (d.meets_modLd ..).trans (Dev.meets_modLd ..)

theorem Dev.meets_reject (t : Ticket) (c : Code) (d : Dev) : d.Meets (d.reject t c) := by
  unfold Dev.reject
  split
  · exact d.meets_cqRecord ..
  · exact d.meets_ringDone ..
  · exact d.meets_ringDone ..
  · exact d.meets_mbxReply ..
  · exact .refl d
  · exact .refl d

theorem Dev.meets_done (t : Ticket) (c : Code) (d : Dev) : d.Meets (d.done t c) := by
  unfold Dev.done Dev.finish
  split
  · exact (d.meets_modLd ..).trans (Dev.meets_cqRecord ..)
  · exact d.meets_ringDone ..
  · exact .refl d
  · exact d.meets_mbxReply ..
  · split
    · exact .of_same rfl rfl
    · exact .refl d
  · exact .refl d

theorem Dev.meets_accept (t : Ticket) (d : Dev) : d.Meets (d.accept t) := by
  rw [Dev.accept_frame]
  exact .of_same rfl rfl

/-! ## A command that meets a line waits for it (R437) -/

/-- A line that waits for its response is not snooped again. -/
theorem Dev.backInvalidate_waiting {ls : List Nat} {d : Dev} (h : ∀ l ∈ ls, l ∈ d.biWait) : d.backInvalidate ls = d := by
  induction ls with
  | nil => rfl
  | cons l ls ih =>
    rw [Dev.backInvalidate, List.foldl_cons, if_pos (by simpa using h l List.mem_cons_self)]
    exact ih fun m hm => h m (List.mem_cons_of_mem _ hm)

/-- The one line that the host holds is snooped once, however often it was met. -/
theorem Dev.backInvalidate_line {l : Nat} {ls : List Nat} {d : Dev} (hw : d.biWait = []) (h : ∀ m ∈ ls, m = l) :
    d.backInvalidate (l :: ls) = { d with biWait := [l], out := d.out ++ [.backInvalidate l] } := by
  have hfirst : d.backInvalidate (l :: ls) = ({ d with biWait := [l], out := d.out ++ [.backInvalidate l] } : Dev).backInvalidate ls := by
    rw [Dev.backInvalidate, List.foldl_cons, hw]
    rfl
  rw [hfirst]
  exact Dev.backInvalidate_waiting fun m hm => List.mem_singleton.mpr (h m hm)

/-- An effect that has met the one line that the host holds is replaced by the back-invalidation of that line. -/
theorem onMem_meets {s : State} {l : Nat} {f : Dev → Dev} {e : Dev} (hs : s.dev.snoops = [l]) (hw : s.dev.biWait = [])
    (he : e.snoops = [l]) (ht : e.touched = [l]) (hf : e.Meets (f { s.dev with touched := [] })) :
    onMem f s = .next { s with dev := { s.dev with biWait := [l], out := s.dev.out ++ [.backInvalidate l] } } := by
  obtain ⟨-, ls, hl, hm⟩ := hf
  rw [ht] at hl
  rw [onMem, State.settleHost, if_neg (by simp [hs])]
  dsimp only
  rw [if_neg (by simp [hl]), hl]
  exact State.next_congr (Dev.backInvalidate_line hw fun m h => List.mem_singleton.mp (he ▸ hm m h))

/-! ## PUB_KEY (R476, R489) -/

/-- The read of a key meets the line of the host that lies in its range. -/
theorem Dev.touched_note {d : Dev} {l req a n : Nat} (hs : d.snoops = [l]) (hc : req ≠ reqCxl) (hr : req ≠ reqScrub) (hn : n ≠ 0)
    (h1 : l < a + n) (h2 : a < l + 64) : (d.note req a n).touched = d.touched ++ [l] := by
  simp [Dev.note, hs, hc, hr, hn, h1, h2]

theorem Dev.meets_readBytes (req a n : Nat) (d : Dev) : (d.note req a n).Meets (d.readBytes req a n).1 := by
  have h : (d.note req a n).Meets (d.readOk req a n).1 := Dev.meets_touchAll ..
  unfold Dev.readBytes
  split
  · next e he => rw [he] at h; exact h
  · next e he => rw [he] at h; exact h

section
variable {iss : Issuer} {ws : List W32} {d : Dev}
  (hres : secReserved ws [1, 2, 3] (wfld ws 1 7 1 != 0 || wfld ws 1 31 14 != 0 || addrHigh ws 2) = false)
  (hctl : d.isControl (d.issLd iss) (d.issDom iss) = true)
  (hbus : d.busCode (.eng (d.issLd iss) (d.issDom iss)) false (addrAt ws 2) 60 = none)
  (hadd : bit (word ws 1).toNat 0 = false) (hfree : Map.find (d.ld (d.issLd iss)).sec.pubKeys (wfld ws 1 13 8) = none)
include hres hctl hbus hadd hfree

/-- A PUB_KEY that adds a key reads it, and then only reports. -/
theorem Dev.meets_pubKey : (d.note reqMc (addrAt ws 2) 60).Meets (d.pubKey iss ws) := by
  have hread := d.meets_readBytes reqMc (addrAt ws 2) 60
  unfold Dev.pubKey
  dsimp only
  split
  · next c hc => simp [firstFail, hres, hctl, hbus, hadd, hfree] at hc
  · rw [if_neg (by simp [hadd])]
    split
    · next e he => rw [he] at hread; exact hread.trans (e.meets_reject ..)
    · next e k he =>
      rw [he] at hread
      exact ((hread.trans (e.meets_accept _)).trans (Dev.meets_modLd ..)).trans (Dev.meets_done ..)

end

theorem exec_pubKey {iss : Issuer} {ws : List W32} (h : wfld ws 0 7 0 = 0x84) (s : State) :
    exec (.pubKey iss ws) s = onMem (Dev.pubKey iss ws) s := by
  change onMem (guarded (wfld ws 0 7 0 == 0x84) (Dev.pubKey iss ws)) s = _
  rw [h]
  rfl

end Sys2Proof.Machine
end

section
/-! SUPPORT. Reads, writes and snoops of the host (R197, R198, R435 to R437), and the statement on CXL.mem. -/

namespace Sys2Proof.Machine

/-! ## Reads (R197, R436) -/

/-- The first line that the host takes with cacheable intent: no other is held that a full filter could give up. -/
theorem Dev.track_first {d : Dev} (h : d.snoops = []) (a : Nat) : d.track a = { d with free := d.free + 1, snoops := [a] } := by
  simp [Dev.track, Dev.draw, h]

section
variable {d : Dev} {ld hdm x a : Nat} (hm : d.pageMode ld = .full) (ha : d.hdmAddr ld hdm x = some a)
include hm ha

theorem Dev.cxlRead_refused (hb : d.busCode (.cxl ld) false a 64 ≠ none) (cacheable : Bool) :
    d.cxlRead ld hdm x cacheable = d.emit (.cxlData ld a (zeros 64) true) := by
  rw [Dev.cxlRead, ha]
  dsimp only
  rw [hm]
  dsimp only
  rw [if_pos (Option.isSome_iff_ne_none.mpr hb)]

/-- In quiet memory a permitted read answers the bytes of the line; one with cacheable intent takes the line. -/
theorem Dev.cxlRead_permitted (hq : d.quiet) (hb : d.busCode (.cxl ld) false a 64 = none) (cacheable : Bool) :
    d.cxlRead ld hdm x cacheable = (if cacheable then d.track a else d).emit (.cxlData ld a (d.bytes a 64) false) := by
  rw [Dev.cxlRead, ha]
  dsimp only
  rw [hm]
  dsimp only
  rw [hb, Dev.readEach_quiet hq]
  cases cacheable
  · rfl
  · simp only [Dev.track_first hq.snoops]
    rfl

/-! ## Writes (R198, R436) -/

variable {data : List Byte} (hl : data.length = 64)
include hl

theorem Dev.cxlWrite_refused {c : Code} (hb : d.busCode (.cxl ld) true a 64 = some c) (poison : Bool) :
    d.cxlWrite ld hdm x data poison = d.ldErr ld c := by
  rw [Dev.cxlWrite, ha]
  dsimp only
  rw [if_neg (by simp [hm, hl]), hb]

theorem Dev.cxlWrite_permitted (hq : d.quiet) (hb : d.busCode (.cxl ld) true a 64 = none) :
    d.cxlWrite ld hdm x data false = { d with mem := Mem.writeN memDefault d.mem a data } := by
  rw [Dev.cxlWrite, ha]
  dsimp only
  rw [if_neg (by simp [hm, hl]), hb]
  exact Dev.writeBytes_quiet hq ..

end

/-- Bytes written to quiet memory are read back. -/
theorem Dev.bytes_writeN {d : Dev} (hq : d.quiet) (hwf : Mem.wf memDefault d.mem = true) (a : Nat) {bs : List Byte} {n : Nat}
    (hn : n = bs.length) : ({ d with mem := Mem.writeN memDefault d.mem a bs } : Dev).bytes a n = bs := by
  have hquiet : ({ d with mem := Mem.writeN memDefault d.mem a bs } : Dev).quiet :=
    Dev.quiet_of_sameKeys ⟨rfl, rfl, rfl, rfl, fun _ => rfl, fun _ => rfl⟩ hq rfl rfl rfl
  rw [Dev.bytes_quiet hquiet]
  exact Mem.readN_writeN_self hwf a hn

/-! ## The statement -/

theorem exec_cxlMemRead (ld hdm off : Nat) (cacheable : Bool) (s : State) :
    exec (.cxlMemRead ld hdm off cacheable) s = .next { s with dev := s.dev.cxlRead ld hdm off cacheable } := rfl

theorem exec_cxlMemWrite (ld hdm off : Nat) (data : List Byte) (poison : Bool) (s : State) :
    exec (.cxlMemWrite ld hdm off data poison) s = .next { s with dev := s.dev.cxlWrite ld hdm off data poison } := rfl

theorem exec_hostSnoop (a : Nat) (s : State) : exec (.hostSnoop a) s = .next { s with dev := s.dev.emit (.rspIHitI a) } := rfl

/-- The response drops the line that waits for it. -/
theorem exec_backInvalidateResponse {a : Nat} {s : State} (h : s.dev.biWait.contains a = true) :
    exec (.backInvalidateResponse a) s = .next { s with dev := { s.dev with
      snoops := s.dev.snoops.filter (· != a), biWait := s.dev.biWait.filter (· != a) } } := by
  change onDev (fun d => guarded (d.biWait.contains a) _ d) s = _
  rw [onDev, guarded, if_pos h]

theorem exec_backInvalidateResponse_none {a : Nat} {s : State} (h : s.dev.biWait.contains a = false) :
    exec (.backInvalidateResponse a) s = .next s := by
  change onDev (fun d => guarded (d.biWait.contains a) _ d) s = _
  rw [onDev, guarded, h]
  rfl

/-- Settles O48: CXL.mem in quiet memory, and PUB_KEY as the engine's command that meets the host's line. -/
theorem hostReachesMemory : Obligations.HostReachesMemory := by
  refine ⟨fun ld hdm off a cacheable data s hq hwf hm ha hl => ⟨fun hb => ?_, fun hb => ?_, fun hb => ?_, fun c poison hb => ?_⟩,
    fun a s => ⟨exec_hostSnoop a s, exec_backInvalidateResponse, exec_backInvalidateResponse_none⟩,
    fun iss body l s hs hw hop hres hctl hbus hadd hfree h1 h2 => ?_⟩
  · refine ⟨_, (exec_cxlMemRead ..).trans (State.next_congr (Dev.cxlRead_permitted hm ha hq hb cacheable)), ?_⟩
    cases cacheable with
    | false => exact ⟨rfl, nofun, fun _ => ⟨hq.snoops, rfl⟩⟩
    | true =>
      rw [if_pos rfl, Dev.track_first hq.snoops]
      exact ⟨rfl, fun _ => rfl, nofun⟩
  · exact (exec_cxlMemRead ..).trans (State.next_congr (Dev.cxlRead_refused hm ha hb cacheable))
  · exact ⟨_, (exec_cxlMemWrite ..).trans (State.next_congr (Dev.cxlWrite_permitted hm ha hl hq hb)), rfl,
      Dev.bytes_writeN hq hwf.1 a hl.symm, Dev.sameMemBut_writeN rfl hl⟩
  · exact (exec_cxlMemWrite ..).trans (State.next_congr (Dev.cxlWrite_refused hm ha hl hb poison))
  · rw [exec_pubKey hop]
    refine onMem_meets (e := Dev.note reqMc (addrAt body 2) 60 { s.dev with touched := [] }) hs hw ?_ ?_
      (Dev.meets_pubKey hres hctl hbus hadd hfree)
    · exact (Dev.meets_note ..).1.trans hs
    · exact Dev.touched_note hs (by decide) (by decide) (by decide) h2 h1

end Sys2Proof.Machine
end
